-- ==== Sys2Proof/Word.lean ====
section
/-! DEFINITION. The word types of the TV-7480 model and their plainest arithmetic (R3, R22). -/

namespace Sys2Proof

/-- One byte. -/
abbrev Byte := BitVec 8
/-- A 16-bit word. -/
abbrev W16 := BitVec 16
/-- A register word of BAR0, and a binary32 pattern. -/
abbrev W32 := BitVec 32
/-- A 64-bit counter or dictionary value. -/
abbrev W64 := BitVec 64
/-- A line sequence number (R22): 48 bits, wrapping. -/
abbrev Lsn := BitVec 48

/-- Camera port 0 to 15 (R60). -/
abbrev PortIx := Fin 16
/-- Front slice 0 to 3 (R98). -/
abbrev SliceIx := Fin 4
/-- Core 0 to 31. -/
abbrev CoreIx := Fin 32
/-- Optical engine: 0 to 3 are E0 to E3, 4 and 5 are S0 and S1 (R531, R538). -/
abbrev EngineIx := Fin 6
/-- Side link: 0 West, 1 East (R434). -/
abbrev LinkIx := Fin 2
/-- Command queue, and its completion ring (R368). -/
abbrev QueueIx := Fin 64
/-- Result ring (R368). -/
abbrev ResIx := Fin 64

/-- The bytes of n, least significant first (R3: every multi-byte field is little-endian). -/
def leBytes : Nat → Nat → List Byte
  | 0, _ => []
  | k + 1, n => BitVec.ofNat 8 n :: leBytes k (n / 256)

/-- The number that little-endian bytes spell (R3). -/
def ofLeBytes : List Byte → Nat
  | [] => 0
  | b :: bs => b.toNat + 256 * ofLeBytes bs

/-- a precedes b among w-bit counts: (b − a) mod 2^w lies in 1 to 2^(w−1) − 1 (R22). -/
def precedes {w : Nat} (a b : BitVec w) : Bool :=
  let d := (b - a).toNat
  decide (1 ≤ d) && decide (d ≤ 2 ^ (w - 1) - 1)

end Sys2Proof
end

