-- ==== Sys2Proof/Syntax.lean ====
section
/-! DEFINITION. The commands of the block: one constructor per row of spec/opcode_table.json, with the row's operands
(what the outside world presents: an address, a value, bytes received on a lane, a measurement). -/

namespace Sys2Proof

/-- What a DRAM read finds in a block (R335). `lane` is the bond lane a corrected error is attributed to (R512). -/
inductive DramRead where
  | good
  | corrected (lane : Nat)
  | uncorrectable
  deriving DecidableEq, Repr

/-- A device-written host ring (R368): completion ring of a queue, result ring, event ring, statistics ring. -/
inductive DevRing where
  | completion (q : QueueIx)
  | result (r : ResIx)
  | event
  | stats
  deriving DecidableEq, Repr

/-- A ring whose SLOTS register is written (R368, R371): a command ring or a device-written ring. -/
inductive AnyRing where
  | command (q : QueueIx)
  | device (r : DevRing)
  deriving DecidableEq, Repr

/-- What waits on a synchronisation object (R388): a core's TWAIT, a queue's head command, a gated well,
a stream fill or copy that is READY-gated (named by its place in the stream table). -/
inductive Waiter where
  | core (k : CoreIx)
  | queue (q : QueueIx)
  | well (w : Fin 256)
  | stream (i : Nat)
  | registerCopy
  deriving DecidableEq, Repr

/-- Which copy finishes (R362): the register copy, or the COPY command of a tag. `hostError` says that a host extent
ended in a host access error (R501). -/
inductive CopyId where
  | register
  | command (tag : BitVec 12)
  deriving DecidableEq, Repr

/-- The link of a Caravan port comes up or goes down (R439, R481): CARAVAN0 where `inner`, else CARAVAN1. -/
structure CaravanLink where
  inner : Bool
  up : Bool
  deriving DecidableEq, Repr

/-- A host access to BAR0, or where `doorbell` to BAR2: its offset and its bytes (R490, R492). -/
structure HostAccess where
  doorbell : Bool
  offset : Nat
  size : Nat
  deriving DecidableEq, Repr

/-- An Ethernet frame as received: its bytes up to its FCS, and whether the FCS is that of the bytes (R449). -/
structure WireFrame where
  bytes : List Byte
  fcsOk : Bool
  deriving DecidableEq, Repr

/-- How a non-posted host request failed (R501, R507 GLB_DMA_ERR_INFO). -/
inductive HostErrorKind where
  | unsupportedRequest
  | completerAbort
  | completionTimeout
  | poisoned
  deriving DecidableEq, Repr

/-- Which non-posted host request failed (R501). -/
inductive HostRequest where
  | commandRecord (q : QueueIx)
  | argumentBlock (q : QueueIx)
  | copyExtent (c : CopyId)
  deriving DecidableEq, Repr

/-- A sample of the encoder inputs (R70): the levels of A and B, and the time in ns for which they stand. -/
structure EncSample where
  a : Bool
  b : Bool
  ns : Nat
  deriving DecidableEq, Repr

/-- A configuration request (R487): a read or write of a register, or a write of the MSI-X capability's Message Control register, whose
place the Base Specification leaves to the device. -/
inductive ConfigAccess where
  | read (register : Nat)
  | write (register : Nat) (value : W32)
  | msixControl (enable functionMask : Bool)
  deriving DecidableEq, Repr

/-- The commands. Each constructor's row (its mnemonic) is in LAWS.json. -/
inductive Instr where
  -- lines, stripes and the cadence
  | encoderCount (sample : EncSample)
  | encoderIllegalTransition
  | countRateWindow
  | lineTimerExpiry
  | groupCancel (lgn : Int)
  | scheduledWriteApply (handle : Fin 64)
  | tokenDeadline (lgn : Int)
  | stateDeadline (core : CoreIx)
  | haloDeadline (core : CoreIx)
  | haloChannelDeadline (link : LinkIx) (ch : Fin 4) (lgn : Int)
  | detMergeDeadline (lgn : Int)
  | neighbourSilent (link : LinkIx)
  -- camera ingress
  | lightOkRise (engine : EngineIx)
  | lightOkFall (engine : EngineIx)
  | laneLockGain (port : PortIx) (lane : Fin 4)
  | laneLockLoss (port : PortIx) (lane : Fin 4)
  | discoveryLockTimeout (port : PortIx)
  | ccReply (port : PortIx) (ack : Byte) (data : List Byte)
  | ccTimeout (port : PortIx)
  | camCcRead (port : PortIx)
  | camCcWrite (port : PortIx)
  | heartbeatSend (port : PortIx)
  | heartbeatReceive (port : PortIx)
  | heartbeatTimeout (port : PortIx)
  | cameraEventPacket (port : PortIx) (payload : List Byte)
  | imageHeader (port : PortIx) (stream : Byte) (pixelBits arrangement : Byte) (failedOn : Option (Fin 4))
  | lineMarker (port : PortIx) (stream : Byte)
  | pixelDataPacket (port : PortIx) (stream : Byte) (pixels : List W16)
  | checkFailedPacket (port : PortIx) (lane : Fin 4) (pixels : List W16)
  | frameEnd (port : PortIx) (stream : Byte)
  | malformedPacket (port : PortIx)
  | lineDataTimeout (port : PortIx)
  | lineTimeoutAbsent (port : PortIx)
  | lineReleaseTimeout (port : PortIx)
  -- front slices
  | fsLineStart (slice : SliceIx)
  | fsLineWrite (slice : SliceIx)
  | memoryPathStore (port : PortIx)
  | fsTblDataAccess (slice : SliceIx) (write : Option W32)
  | fsTblCommit (slice : SliceIx) (mask : BitVec 4)
  | tableCopyDone (port : PortIx)
  | tableInitDone (slice : SliceIx)
  | ffPeriodEnd (port : PortIx)
  | ffComputeDone (port : PortIx)
  | trackedGroupClose (tensor : Fin 256) (lgn : Int)
  -- cores and tile instructions: the core's next instruction is of the named kind
  | coreDispatch (core : CoreIx)
  | tnop (core : CoreIx)
  | tload (core : CoreIx)
  | tstore (core : CoreIx)
  | tmm (core : CoreIx)
  | tconv (core : CoreIx)
  | tfuse (core : CoreIx)
  | tmv (core : CoreIx)
  | tdw (core : CoreIx)
  | tvec (core : CoreIx)
  | tqnt (core : CoreIx)
  | lookup (core : CoreIx)
  | update (core : CoreIx)
  | stateLoad (core : CoreIx)
  | stateStore (core : CoreIx)
  | tokenPut (core : CoreIx)
  | tokenGet (core : CoreIx)
  | tdet (core : CoreIx)
  | tdraw (core : CoreIx)
  | tcommit (core : CoreIx)
  | twait (core : CoreIx)
  | tsignal (core : CoreIx)
  | syncWaitSatisfied (w : Waiter)
  | phaseChange (core : CoreIx)
  | opeDrainDone (core : CoreIx) (ope : Fin 8) (quad : Option (Fin 4)) (bank : Bool)
  | tileFinish (core : CoreIx)
  | coreParkWrite (core : CoreIx) (value : W32)
  | freqTargetWrite (core : CoreIx) (value : W32)
  | clockGlideStep (core : CoreIx)
  | sandFillStep (core : CoreIx) (ope : Fin 8) (quad : Option (Fin 4))
  | coreTmDataAccess (core : CoreIx) (write : Option W32)
  | leaseExpiry (tsn : W32)
  -- detection and context
  | detSuppress (lgn : Int)
  | ctxEffectsApply
  | tokenSend (lgn : Int)
  | ctxClearWrite (value : W32)
  | ctxClearDone
  -- memory and streams
  | dramRefresh (channel : Fin 128) (bank : Nat)
  | dramScrubRead (channel : Fin 128) (found : DramRead)
  | fetchFillStart (stream : Nat) (lgn : Int)
  | fetchFillDone (stream : Nat) (lgn : Int)
  | spillStart (stream : Nat) (lgn : Int)
  | spillDone (stream : Nat) (lgn : Int)
  | streamRunahead (queue : QueueIx)
  | mcastDeliveryStart (stream : Nat)
  | mcastCutout (stream : Nat) (core : CoreIx)
  | landingCopy (port : PortIx)
  | extensionRefill (port : PortIx)
  | resultRecordWrite (ring : ResIx)
  | spoolCopy (ring : ResIx)
  | streamCopyGo (value : W32)
  | copyDone (copy : CopyId)
  | oasisQpowerWrite (value : W32)
  -- commands, wells, rings
  | cqPiWrite (queue : QueueIx) (pi : W32)
  | commandRead (queue : QueueIx)
  | jobStart (queue : QueueIx)
  | copyCommand (queue : QueueIx)
  | signalCommand (queue : QueueIx)
  | waitCommand (queue : QueueIx)
  | jobComplete (tag : BitVec 12)
  | completionRecordWrite (queue : QueueIx)
  | ringCiWrite (ring : DevRing) (ci : W32)
  | ringSlotsWrite (ring : AnyRing) (slots : W32)
  | eventRecordWrite
  | cmdAbort (value : W32)
  | cmdSyncValueWrite (value : W32)
  | cmdSyncAdd (value : W32)
  | cqRestart (queue : QueueIx)
  -- Rolotte side links
  | linkLanesLocked (link : LinkIx) (lanes : BitVec 8)
  | linkDeskewDone (link : LinkIx)
  | trainingMessageSend (link : LinkIx)
  | trainingMessageRx (link : LinkIx) (message : List Byte)
  | linkTrainTimeout (link : LinkIx)
  | linkFailedExpiry (link : LinkIx)
  | linkRetrainTimeout (link : LinkIx)
  | laneFault (link : LinkIx) (lane : Fin 8)
  | linkCtrlRetrain (link : LinkIx) (value : W32)
  | flitReceive (link : LinkIx) (flit : List Byte)
  | flitTransmit (link : LinkIx)
  | replayTimeout (link : LinkIx)
  | replayProgressTimeout (link : LinkIx)
  | haloMsgRx (link : LinkIx)
  | ctxedgeMsgRx (link : LinkIx)
  | tokensMsgRx (link : LinkIx)
  | boxesMsgRx (link : LinkIx)
  | barrierMsgRx (link : LinkIx)
  | chainMsgRx (link : LinkIx)
  | chainMsgSend (link : LinkIx)
  | pingSend (link : LinkIx)
  | pingRx (link : LinkIx)
  | pongRx (link : LinkIx)
  -- Caravan and the object dictionary
  | caravanPortLinkChange (change : CaravanLink)
  | caravanFrameForward (frame : WireFrame) (outbound : Bool)
  | caravanFrameProcess (frame : List Byte) (fcsOk : Bool)
  | crvSlowRequestDone (ticket : Byte)
  | crvTicketExpiry (ticket : Byte)
  | crvWatchdogExpiry
  | bar4Write (offset : Nat) (size : Nat) (value : W64)
  | mbRead
  | mbWrite (last : Bool)
  | mbWriteAt (last : Bool)
  | mbCancelAt
  | mbDescribe
  | armedEntry
  | runEntry
  | holdEntry
  | holdExit
  | preopEntry
  | safeEntry (internalError : Bool)
  -- reset, start-up and the host interface
  | powerOnReset
  | perstAssert
  | resetEnd
  | dramInitDone (ok : Bool)
  | authEnd
  | bootWatchdogExpiry
  | configRequest (access : ConfigAccess)
  | pcieLinkChange (up : Bool) (speed : BitVec 4) (width : BitVec 5)
  | functionLevelReset
  | hotReset
  | glbResetWrite (value : W32)
  | d3hotEntry
  | busMasterChange (on : Bool)
  | bar0BadAccess (isWrite : Bool)
  | oasisWindowAccess (offset : Nat) (size : Nat) (write : Option (List Byte))
  | msixUnmask (vector : Fin 512)
  | irqHoldoffExpiry (vector : Fin 512)
  | hostAccessError (req : HostRequest) (kind : HostErrorKind) (addr : W64)
  | ptmDialogueStart
  | ptmDialogueDone (t2 t3 : W64)
  | ptmDialogueFail
  -- trimming and telemetry
  | trimCmdMakeDue (value : W32)
  | trimCmdForce (value : W32)
  | trimRotationDue
  | d2dErrorThreshold (engine : EngineIx)
  | trimItemStart
  | trimItemDone (kind : Fin 6) (unit : Nat) (faulty : List Nat) (outNs : W32)
  | trimOverdue (kind : Fin 6) (unit : Nat)
  | telemetrySample (values : List (Nat × Nat))
  -- supply, power and temperature
  | supplyWarning (mv : W16)
  | stretchEnd (mv : W16)
  | warningClear (quietNs : W32) (mv : W16)
  | vddResetLevel (mv : W16)
  | railMonitorFall (rail : Fin 5)
  | avsTargetChange (mv : W16)
  | avsTargetReached
  | avsTimeout (readingMv : W16)
  | powerEstimate (watts : W16)
  | sustainedCapStep (meanWatts : W16)
  | thermalSample (junction : List W16) (stack : List W16)
  | thermalCapStep
  | sysRefclkLoss
  -- Saffron and the ledger
  | safVerify (value : W32)
  | safProgram (value : W32)
  | safSetBoot (value : W32)
  | safReboot (value : W32)
  | safCommitVersion (value : W32)
  | safRevoke (value : W32)
  | safAttest (value : W32)
  | safOpDone (flashOk : Bool)
  | attestationDone
  | integrityCheck (mismatch : Option Byte)
  | integrityResetTimeout
  | ledgerSpillCopy
  | ledgerSpillCiWrite (ci : W32)
  | ledgerReadSeqWrite (seq : W64)
  -- registers without a row of their own, and the rest
  | genericRegisterWrite (access : HostAccess) (value : W64)
  | registerReadClear (access : HostAccess)
  | pwrGoodFall
  | authBegin
  | caravanForwardingBegin
  | d3hotToD0
  | ptmEnableChange (on : Bool)
  | bar4Read (offset : Nat) (size : Nat)
  | lowWordRead (access : HostAccess)
  deriving DecidableEq, Repr

end Sys2Proof
end

