-- ==== Sys2Proof/Decode.lean ====
section
/-! DEFINITION. Words of the opcode table. The table gives no row any bits: commands arrive as bus accesses, received bytes and pin events, not
as words. -/

namespace Sys2Proof

/-- The command that a word spells by the table's bits: no row has bits, so none. -/
def decodeTableWord (_nbits _w : Nat) : Option Instr := none

end Sys2Proof
end

