-- ==== Sys2Proof/Machine/Hash.lean ====
section
/-! DEFINITION. SHAKE256, the one hash of chapter 16, by the permutation and padding of FIPS 202 (PRESUMED: the spec names the function and does
not print it). -/

namespace Sys2Proof.Machine

/-- The next state of the 8-bit shift register from which the round constants are drawn: a shift, with feedback 0x71. -/
def iotaStep (r : Nat) : Nat := if r < 128 then 2 * r else (2 * r - 256) ^^^ 0x71

/-- The constant of one round: each of `n` draws, at the bit positions 0, 1, 3, 7, 15, 31 and 63, gives one bit of it. Answers the register after
the draws with the constant. -/
def iotaConst : (n pos r : Nat) → (k : W64) → Nat × W64
  | 0, _, r, k => (r, k)
  | n + 1, pos, r, k =>
    iotaConst n (2 * pos + 1) (iotaStep r) (if r % 2 = 1 then k ^^^ (1#64 <<< pos) else k)

/-- A plane of five lanes turned so that lane x + n stands at place x. -/
def turn (n : Nat) (p : List W64) : List W64 := p.drop n ++ p.take n

/-- Theta on the five planes: every column takes the parities of its two neighbours, one of them rotated by a bit. -/
def mixColumns (planes : List (List W64)) : List (List W64) :=
  let parity := planes.foldl (List.zipWith (· ^^^ ·)) (List.replicate 5 0)
  let add := List.zipWith (fun l r => l ^^^ r.rotateLeft 1) (turn 4 parity) (turn 1 parity)
  planes.map (List.zipWith (· ^^^ ·) add)

/-- Rho and pi on the 25 lanes, as one walk over the places: the lane in the hand, rotated by the next triangular number, is put down at the next
place, whose lane comes into the hand. Lane (x, y) stands at x + 5 y. -/
def walkLanes : (left step x y : Nat) → (hand : W64) → List W64 → List W64
  | 0, _, _, _, _, a => a
  | n + 1, t, x, y, hand, a =>
    let place := y + 5 * ((2 * x + 3 * y) % 5)
    walkLanes n (t + 1) y ((2 * x + 3 * y) % 5) (a.getD place 0) (a.set place (hand.rotateLeft (t * (t + 1) / 2 % 64)))

/-- The five planes of 25 lanes. -/
def planesOf : Nat → List W64 → List (List W64)
  | 0, _ => []
  | n + 1, a => a.take 5 :: planesOf n (a.drop 5)

/-- Chi on one plane. -/
def bendPlane (p : List W64) : List W64 :=
  List.zipWith (· ^^^ ·) p (List.zipWith (fun b c => c &&& ~~~ b) (turn 1 p) (turn 2 p))

/-- `n` rounds, each with the next constant of the register. -/
def permuteRounds : (n reg : Nat) → List W64 → List W64
  | 0, _, a => a
  | n + 1, reg, a =>
    let mixed := (mixColumns (planesOf 5 a)).flatten
    let bent := ((planesOf 5 (walkLanes 24 1 1 0 (mixed.getD 1 0) mixed)).map bendPlane).flatten
    let next := iotaConst 7 0 reg 0
    permuteRounds n next.1 (bent.set 0 (bent.getD 0 0 ^^^ next.2))

/-- Keccak-f[1600]: 24 rounds. -/
def keccakF (a : List W64) : List W64 := permuteRounds 24 1 a

/-- The lanes of up to `n` 8-byte groups. -/
def toLanes : Nat → List Byte → List W64
  | 0, _ => []
  | n + 1, bs => BitVec.ofNat 64 (ofLeBytes (bs.take 8)) :: toLanes n (bs.drop 8)

/-- Exclusive-or a 136-byte block into the state. -/
def keccakAbsorb (a : List W64) (block : List Byte) : List W64 :=
  keccakF ((List.range 25).map fun i => a.getD i 0 ^^^ (toLanes 17 block).getD i 0)

/-- Absorb `n` blocks. -/
def keccakAbsorbAll : Nat → List W64 → List Byte → List W64
  | 0, a, _ => a
  | n + 1, a, bs => keccakAbsorbAll n (keccakAbsorb a (bs.take 136)) (bs.drop 136)

/-- Squeeze `n` blocks. -/
def keccakSqueeze : Nat → List W64 → List Byte
  | 0, _ => []
  | n + 1, a => ((a.take 17).flatMap fun l => leBytes 8 l.toNat) ++ keccakSqueeze n (keccakF a)

/-- The padding of SHAKE: the domain bits 1111, then 10*1, to whole 136-byte blocks. -/
def shakePad (bs : List Byte) : List Byte :=
  let free := 136 - bs.length % 136
  if free = 1 then bs ++ [0x9F] else bs ++ [0x1F] ++ List.replicate (free - 2) 0 ++ [0x80]

/-- SHAKE256 with n bytes of output. -/
def shake256 (bs : List Byte) (n : Nat) : List Byte :=
  let p := shakePad bs
  (keccakSqueeze (n / 136 + 1) (keccakAbsorbAll (p.length / 136) (List.replicate 25 0) p)).take n

/-- "Digest" (chapter 16): the first 32 bytes of SHAKE256 output. -/
def digest (bs : List Byte) : List Byte := shake256 bs 32

end Sys2Proof.Machine
end

