-- ==== Sys2Proof/Machine/OdTable.lean ====
section
/-! DEFINITION. The object dictionary's table: a key for every entry and one row per entry with its type (R461), access code and
origin mask (R5), default and range, as the tables of R56, R95, R128, R175, R224, R296, R328, R404, R434, R478, R530, R560, R589 and R590 give them. -/

namespace Sys2Proof.Machine

/-- The types of R461. -/
inductive OdType where
  | bool | u8 | u16 | u32 | u64 | i8 | i16 | i32 | i64 | f32 | f64 | str | domain
  deriving DecidableEq, Repr

/-- The access codes of R5. -/
inductive OdAccess where
  | ro | rw | wo | rwl
  deriving DecidableEq, Repr

/-- The fixed part of an entry's range; a rule that names other entries is checked beside it (R462 step 7). -/
inductive OdRange where
  | full
  | span (lo hi : Nat)
  | mult (lo hi m : Nat)
  | oneOf (l : List Nat)
  | pow2 (lo hi : Nat) (zero : Bool)
  | zeroOr (lo hi : Nat)
  | aligned (m : Nat)
  | iou
  deriving DecidableEq, Repr

/-- One entry, or an array of entries: `count` indices from `index`, `subs` subindices from `sub`. -/
structure OdRow where
  index : Nat
  count : Nat
  sub : Nat
  subs : Nat
  type : OdType
  access : OdAccess
  host : Bool
  caravan : Bool
  internal : Bool
  default : Nat
  range : OdRange
  deriving DecidableEq, Repr

/-- The key of entry index:sub. -/
abbrev odKey (index sub : Nat) : Nat := index * 256 + sub

/-- LINE_SOURCE (R56). -/
def Od.webLineSource : Nat := odKey 0x2F00 0x01
/-- LINE_PITCH (R56). -/
def Od.webLinePitch : Nat := odKey 0x2F00 0x02
/-- TIMER_PERIOD (R56). -/
def Od.webTimerPeriod : Nat := odKey 0x2F00 0x03
/-- LSN_PRESET (R56). -/
def Od.webLsnPreset : Nat := odKey 0x2F00 0x04
/-- LSN_CURRENT (R56). -/
def Od.webLsnCurrent : Nat := odKey 0x2F00 0x05
/-- ENCODER_POSITION (R56). -/
def Od.webEncoderPosition : Nat := odKey 0x2F00 0x06
/-- OVERSPEED_COUNT (R56). -/
def Od.webOverspeedCount : Nat := odKey 0x2F00 0x07
/-- MIN_CYCLE (R56). -/
def Od.webMinCycle : Nat := odKey 0x2F00 0x08
/-- ENABLE (R56). -/
def Od.camEnable (i : Nat) : Nat := odKey (0x2F10 + i) 0x01
/-- WEB_ORIGIN (R56). -/
def Od.camWebOrigin (i : Nat) : Nat := odKey (0x2F10 + i) 0x02
/-- CROP_FIRST (R56). -/
def Od.camCropFirst (i : Nat) : Nat := odKey (0x2F10 + i) 0x03
/-- CROP_LAST (R56). -/
def Od.camCropLast (i : Nat) : Nat := odKey (0x2F10 + i) 0x04
/-- MIRROR (R56). -/
def Od.camMirror (i : Nat) : Nat := odKey (0x2F10 + i) 0x05
/-- ALONG_OFFSET (R56). -/
def Od.camAlongOffset (i : Nat) : Nat := odKey (0x2F10 + i) 0x06
/-- LINE_GROUP (R56). -/
def Od.webLineGroup : Nat := odKey 0x4F00 0x01
/-- WINDOW_FIRST (R56). -/
def Od.webWindowFirst : Nat := odKey 0x4F00 0x02
/-- WINDOW_WIDTH (R56). -/
def Od.webWindowWidth : Nat := odKey 0x4F00 0x03
/-- STRIPE_COUNT (R56). -/
def Od.webStripeCount : Nat := odKey 0x4F00 0x04
/-- STRIPE_WIDTH (R56). -/
def Od.webStripeWidth : Nat := odKey 0x4F00 0x05
/-- SPOOL_SIZE (R56). -/
def Od.webSpoolSize : Nat := odKey 0x4F00 0x06
/-- ON_TIME_GROUPS (R56). -/
def Od.webOnTimeGroups : Nat := odKey 0x4F00 0x07
/-- MISSED_GROUPS (R56). -/
def Od.webMissedGroups : Nat := odKey 0x4F00 0x08
/-- LATE_COUNT (R56). -/
def Od.cntLateCount : Nat := odKey 0x4F01 0x01
/-- MISSED_COUNT (R56). -/
def Od.cntMissedCount : Nat := odKey 0x4F01 0x02
/-- DROPPED_LINES (R56). -/
def Od.cntDroppedLines : Nat := odKey 0x4F01 0x03
/-- HELD_COUNT (R56). -/
def Od.cntHeldCount : Nat := odKey 0x4F01 0x04
/-- SPOOL_PEAK (R56). -/
def Od.cntSpoolPeak : Nat := odKey 0x4F01 0x05
/-- UNDERSIZE (R56). -/
def Od.cntUndersize : Nat := odKey 0x4F01 0x06
/-- CONFIG_FAULT (R56). -/
def Od.cntConfigFault : Nat := odKey 0x4F01 0x07
/-- LANE_COUNT (R95). -/
def Od.portLaneCount (i : Nat) : Nat := odKey (0x2000 + i) 0x01
/-- PIXEL_BITS (R95). -/
def Od.portPixelBits (i : Nat) : Nat := odKey (0x2000 + i) 0x02
/-- ARRANGEMENT (R95). -/
def Od.portArrangement (i : Nat) : Nat := odKey (0x2000 + i) 0x03
/-- PHASES (R95). -/
def Od.portPhases (i : Nat) : Nat := odKey (0x2000 + i) 0x04
/-- LINE_WIDTH (R95). -/
def Od.portLineWidth (i : Nat) : Nat := odKey (0x2000 + i) 0x05
/-- FRAME_LINES (R95). -/
def Od.portFrameLines (i : Nat) : Nat := odKey (0x2000 + i) 0x06
/-- FILL_VALUE (R95). -/
def Od.portFillValue (i : Nat) : Nat := odKey (0x2000 + i) 0x07
/-- CHECK_POLICY (R95). -/
def Od.portCheckPolicy (i : Nat) : Nat := odKey (0x2000 + i) 0x08
/-- LINE_TIMEOUT (R95). -/
def Od.portLineTimeout (i : Nat) : Nat := odKey (0x2000 + i) 0x09
/-- TRIGGER_ENABLE (R95). -/
def Od.portTriggerEnable (i : Nat) : Nat := odKey (0x2000 + i) 0x0A
/-- HB_PERIOD (R95). -/
def Od.portHbPeriod (i : Nat) : Nat := odKey (0x2000 + i) 0x0B
/-- HB_TIMEOUT (R95). -/
def Od.portHbTimeout (i : Nat) : Nat := odKey (0x2000 + i) 0x0C
/-- LANE_PERIOD (R95). -/
def Od.portLanePeriod (i : Nat) : Nat := odKey (0x2000 + i) 0x0D
/-- DISC_CODE (R95). -/
def Od.portDiscCode (i : Nat) : Nat := odKey (0x2000 + i) 0x0E
/-- CAMERA_MODEL (R95). -/
def Od.portCameraModel (i : Nat) : Nat := odKey (0x2000 + i) 0x0F
/-- PENDING (R95). -/
def Od.portPending (i : Nat) : Nat := odKey (0x2000 + i) 0x10
/-- PORT_DROPPED (R95). -/
def Od.portPortDropped (i : Nat) : Nat := odKey (0x2000 + i) 0x11
/-- LANE_RATE (R95). -/
def Od.engLaneRate (i : Nat) : Nat := odKey (0x2010 + i) 0x01
/-- LIGHT_OK (R95). -/
def Od.engLightOk (i : Nat) : Nat := odKey (0x2010 + i) 0x02
/-- DECODE (R95). -/
def Od.encDecode : Nat := odKey 0x2E00 0x01
/-- INVERT (R95). -/
def Od.encInvert : Nat := odKey 0x2E00 0x02
/-- FILTER_NS (R95). -/
def Od.encFilterNs : Nat := odKey 0x2E00 0x03
/-- ENC_ERRORS (R95). -/
def Od.encEncErrors : Nat := odKey 0x2E00 0x04
/-- COUNT_RATE (R95). -/
def Od.encCountRate : Nat := odKey 0x2E00 0x05
/-- INLINE_PORT (R128). -/
def Od.fsInlinePort (i : Nat) : Nat := odKey (0x2100 + i) 0x01
/-- SLICE_LOAD (R128). -/
def Od.fsSliceLoad (i : Nat) : Nat := odKey (0x2100 + i) 0x02
/-- SHED_FRAMES (R128). -/
def Od.fsShedFrames (i : Nat) : Nat := odKey (0x2100 + i) 0x03
/-- SD_ACROSS (R128). -/
def Od.fsOutSdAcross : Nat := odKey 0x2140 0x01
/-- SD_ALONG (R128). -/
def Od.fsOutSdAlong : Nat := odKey 0x2140 0x02
/-- OUT_FORMAT (R128). -/
def Od.fsOutOutFormat : Nat := odKey 0x2140 0x03
/-- OUT_SHIFT (R128). -/
def Od.fsOutOutShift : Nat := odKey 0x2140 0x04
/-- CH_STRIDE (R128). -/
def Od.fsOutChStride : Nat := odKey 0x2140 0x05
/-- XT_ENABLE (R128). -/
def Od.fpXtEnable (i : Nat) : Nat := odKey (0x2200 + i) 0x01
/-- XT_PEDESTAL (R128). -/
def Od.fpXtPedestal (i : Nat) : Nat := odKey (0x2200 + i) 0x02
/-- XT_LEFT (R128). -/
def Od.fpXtLeft (i j : Nat) : Nat := odKey (0x2200 + i) (0x03 + j)
/-- XT_RIGHT (R128). -/
def Od.fpXtRight (i j : Nat) : Nat := odKey (0x2200 + i) (0x07 + j)
/-- XT_PARTNER (R128). -/
def Od.fpXtPartner (i j : Nat) : Nat := odKey (0x2200 + i) (0x0B + j)
/-- CFA_PATTERN (R128). -/
def Od.fpCfaPattern (i : Nat) : Nat := odKey (0x2200 + i) 0x0F
/-- GI_GAIN (R128). -/
def Od.fpGiGain (i : Nat) : Nat := odKey (0x2200 + i) 0x10
/-- GI_OFFSET (R128). -/
def Od.fpGiOffset (i : Nat) : Nat := odKey (0x2200 + i) 0x11
/-- FF_ENABLE (R128). -/
def Od.fpFfEnable (i : Nat) : Nat := odKey (0x2200 + i) 0x12
/-- DEFECT_METHOD (R128). -/
def Od.fpDefectMethod (i : Nat) : Nat := odKey (0x2200 + i) 0x13
/-- PARAM_PENDING (R128). -/
def Od.fpParamPending (i : Nat) : Nat := odKey (0x2200 + i) 0x14
/-- PARAM_SET (R128). -/
def Od.fpParamSet (i : Nat) : Nat := odKey (0x2200 + i) 0x15
/-- SAT_PIXELS (R128). -/
def Od.fpSatPixels (i : Nat) : Nat := odKey (0x2200 + i) 0x16
/-- DEFECT_UNRESOLVED (R128). -/
def Od.fpDefectUnresolved (i : Nat) : Nat := odKey (0x2200 + i) 0x17
/-- SHED_LINES (R128). -/
def Od.fpShedLines (i : Nat) : Nat := odKey (0x2200 + i) 0x18
/-- STATS_RING_BASE (R175). -/
def Od.qStatsRingBase : Nat := odKey 0x3000 0x01
/-- STATS_RING_SLOTS (R175). -/
def Od.qStatsRingSlots : Nat := odKey 0x3000 0x02
/-- TRACK_BASE (R175). -/
def Od.qTrackBase : Nat := odKey 0x3000 0x03
/-- STATS_LOST (R175). -/
def Od.qStatsLost : Nat := odKey 0x3000 0x04
/-- EXPAND_FTZ (R175). -/
def Od.qExpandFtz : Nat := odKey 0x3000 0x05
/-- EXPAND_OVF (R175). -/
def Od.qExpandOvf : Nat := odKey 0x3000 0x06
/-- SCALE_INVALID (R175). -/
def Od.qScaleInvalid : Nat := odKey 0x3000 0x07
/-- F8_SPECIAL (R175). -/
def Od.qF8Special : Nat := odKey 0x3000 0x08
/-- NONFINITE (R175). -/
def Od.qNonfinite : Nat := odKey 0x3000 0x09
/-- STATIC_SAT (R175). -/
def Od.qStaticSat : Nat := odKey 0x3000 0x0A
/-- STALE_EVENTS (R175). -/
def Od.qStaleEvents : Nat := odKey 0x3000 0x0B
/-- LAGGED_GROUPS (R175). -/
def Od.qLaggedGroups : Nat := odKey 0x3000 0x0C
/-- ZERO_RANGE_GROUPS (R175). -/
def Od.qZeroRangeGroups : Nat := odKey 0x3000 0x0D
/-- EXPAND_NAN (R175). -/
def Od.qExpandNan : Nat := odKey 0x3000 0x0E
/-- ENABLE (R175). -/
def Od.trkEnable (i : Nat) : Nat := odKey (0x3100 + i) 0x01
/-- FORMAT (R175). -/
def Od.trkFormat (i : Nat) : Nat := odKey (0x3100 + i) 0x02
/-- CHANNELS (R175). -/
def Od.trkChannels (i : Nat) : Nat := odKey (0x3100 + i) 0x03
/-- GROUP_SIZE (R175). -/
def Od.trkGroupSize (i : Nat) : Nat := odKey (0x3100 + i) 0x04
/-- WINDOW (R175). -/
def Od.trkWindow (i : Nat) : Nat := odKey (0x3100 + i) 0x05
/-- MARGIN (R175). -/
def Od.trkMargin (i : Nat) : Nat := odKey (0x3100 + i) 0x06
/-- SAT_LIMIT (R175). -/
def Od.trkSatLimit (i : Nat) : Nat := odKey (0x3100 + i) 0x07
/-- STALE_ACTION (R175). -/
def Od.trkStaleAction (i : Nat) : Nat := odKey (0x3100 + i) 0x08
/-- LAST_LSN (R175). -/
def Od.trkLastLsn (i : Nat) : Nat := odKey (0x3100 + i) 0x09
/-- LAST_MSE (R175). -/
def Od.trkLastMse (i : Nat) : Nat := odKey (0x3100 + i) 0x0A
/-- LAST_SATURATED (R175). -/
def Od.trkLastSaturated (i : Nat) : Nat := odKey (0x3100 + i) 0x0B
/-- SAT_TOTAL (R175). -/
def Od.trkSatTotal (i : Nat) : Nat := odKey (0x3100 + i) 0x0C
/-- STALE_COUNT (R175). -/
def Od.trkStaleCount (i : Nat) : Nat := odKey (0x3100 + i) 0x0D
/-- CORE_MASK (R224). -/
def Od.coresCoreMask : Nat := odKey 0x4000 0x01
/-- SAND_FILL (R224). -/
def Od.coresSandFill : Nat := odKey 0x4000 0x02
/-- CORES_IN_SERVICE (R224). -/
def Od.coresCoresInService : Nat := odKey 0x4000 0x03
/-- FREQ_TARGET (R224). -/
def Od.coreFreqTarget (i : Nat) : Nat := odKey (0x4100 + i) 0x01
/-- FREQ_ACTUAL (R224). -/
def Od.coreFreqActual (i : Nat) : Nat := odKey (0x4100 + i) 0x02
/-- FREQ_CAP (R224). -/
def Od.coreFreqCap (i : Nat) : Nat := odKey (0x4100 + i) 0x03
/-- OPES_IN_SERVICE (R224). -/
def Od.coreOpesInService (i : Nat) : Nat := odKey (0x4100 + i) 0x04
/-- PARK (R224). -/
def Od.corePark (i : Nat) : Nat := odKey (0x4100 + i) 0x05
/-- TILES_RUN (R224). -/
def Od.coreTilesRun (i : Nat) : Nat := odKey (0x4100 + i) 0x06
/-- TILES_ABANDONED (R224). -/
def Od.coreTilesAbandoned (i : Nat) : Nat := odKey (0x4100 + i) 0x07
/-- MAC_UTIL (R224). -/
def Od.coreMacUtil (i : Nat) : Nat := odKey (0x4100 + i) 0x08
/-- IOU_THRESH (R296). -/
def Od.detIouThresh : Nat := odKey 0x5800 0x01
/-- AGNOSTIC (R296). -/
def Od.detAgnostic : Nat := odKey 0x5800 0x02
/-- CAND_MAX (R296). -/
def Od.detCandMax : Nat := odKey 0x5800 0x03
/-- KEEP_MAX (R296). -/
def Od.detKeepMax : Nat := odKey 0x5800 0x04
/-- BORDER (R296). -/
def Od.detBorder : Nat := odKey 0x5800 0x05
/-- CARRY_LINES (R296). -/
def Od.detCarryLines : Nat := odKey 0x5800 0x06
/-- GROUPS_LISTED (R296). -/
def Od.detGroupsListed : Nat := odKey 0x5800 0x07
/-- BOXES_LISTED (R296). -/
def Od.detBoxesListed : Nat := odKey 0x5800 0x08
/-- CTX_BASE (R328). -/
def Od.ctxCtxBase : Nat := odKey 0x5000 0x01
/-- XBIN_WIDTH (R328). -/
def Od.ctxXbinWidth : Nat := odKey 0x5000 0x02
/-- CTX_STAGE_BASE (R328). -/
def Od.ctxCtxStageBase : Nat := odKey 0x5000 0x03
/-- LOOKUPS (R328). -/
def Od.ctxLookups : Nat := odKey 0x5000 0x04
/-- UPDATES (R328). -/
def Od.ctxUpdates : Nat := odKey 0x5000 0x05
/-- SKIPPED (R328). -/
def Od.ctxSkipped : Nat := odKey 0x5000 0x06
/-- SATURATED (R328). -/
def Od.ctxSaturated : Nat := odKey 0x5000 0x07
/-- ENABLE (R328). -/
def Od.periodEnable (i : Nat) : Nat := odKey (0x5010 + i) 0x01
/-- PERIOD (R328). -/
def Od.periodPeriod (i : Nat) : Nat := odKey (0x5010 + i) 0x02
/-- PRESCALE (R328). -/
def Od.periodPrescale (i : Nat) : Nat := odKey (0x5010 + i) 0x03
/-- ORIGIN (R328). -/
def Od.periodOrigin (i : Nat) : Nat := odKey (0x5010 + i) 0x04
/-- WARMUP (R328). -/
def Od.periodWarmup (i : Nat) : Nat := odKey (0x5010 + i) 0x05
/-- EPOCH (R328). -/
def Od.periodEpoch (i : Nat) : Nat := odKey (0x5010 + i) 0x06
/-- EPOCH_LSN (R328). -/
def Od.periodEpochLsn (i : Nat) : Nat := odKey (0x5010 + i) 0x07
/-- PHASE_BIN (R328). -/
def Od.periodPhaseBin (i : Nat) : Nat := odKey (0x5010 + i) 0x08
/-- TOK_PER_STRIPE (R328). -/
def Od.tokTokPerStripe : Nat := odKey 0x5100 0x01
/-- TOK_BYTES (R328). -/
def Od.tokTokBytes : Nat := odKey 0x5100 0x02
/-- TOK_LAG (R328). -/
def Od.tokTokLag : Nat := odKey 0x5100 0x03
/-- TOK_DEADLINE (R328). -/
def Od.tokTokDeadline : Nat := odKey 0x5100 0x04
/-- TOK_BASE (R328). -/
def Od.tokTokBase : Nat := odKey 0x5100 0x05
/-- TOK_TOTAL (R328). -/
def Od.tokTokTotal : Nat := odKey 0x5100 0x06
/-- STRIPE_OFFSET (R328). -/
def Od.tokStripeOffset : Nat := odKey 0x5100 0x07
/-- TOK_MISSING (R328). -/
def Od.tokTokMissing : Nat := odKey 0x5100 0x08
/-- STATE_BYTES (R328). -/
def Od.stateStateBytes : Nat := odKey 0x5200 0x01
/-- STATE_BASE (R328). -/
def Od.stateStateBase : Nat := odKey 0x5200 0x02
/-- STATE_DEADLINE (R328). -/
def Od.stateStateDeadline : Nat := odKey 0x5200 0x03
/-- STATE_STALE (R328). -/
def Od.stateStateStale : Nat := odKey 0x5200 0x04
/-- STATE_NONE (R328). -/
def Od.stateStateNone : Nat := odKey 0x5200 0x05
/-- LEASE_DEFAULT (R404). -/
def Od.jobLeaseDefault : Nat := odKey 0x4200 0x01
/-- HALO_DEADLINE (R404). -/
def Od.jobHaloDeadline : Nat := odKey 0x4200 0x02
/-- SYNC_INIT (R404). -/
def Od.jobSyncInit : Nat := odKey 0x4200 0x03
/-- IN_FLIGHT (R404). -/
def Od.jobInFlight : Nat := odKey 0x4200 0x04
/-- LEASES_EXPIRED (R404). -/
def Od.jobLeasesExpired : Nat := odKey 0x4200 0x05
/-- TILES_REISSUED (R404). -/
def Od.jobTilesReissued : Nat := odKey 0x4200 0x06
/-- DUP_DISCARDED (R404). -/
def Od.jobDupDiscarded : Nat := odKey 0x4200 0x07
/-- HALO_SUBSTITUTED (R404). -/
def Od.jobHaloSubstituted : Nat := odKey 0x4200 0x08
/-- TILES_CANCELLED (R404). -/
def Od.jobTilesCancelled : Nat := odKey 0x4200 0x09
/-- EVENTS_LOST (R404). -/
def Od.jobEventsLost : Nat := odKey 0x4200 0x0A
/-- CHAIN_POSITION (R434). -/
def Od.chainChainPosition : Nat := odKey 0x1C00 0x01
/-- CHAIN_LENGTH (R434). -/
def Od.chainChainLength : Nat := odKey 0x1C00 0x02
/-- CHAIN_STRIPES (R434). -/
def Od.chainChainStripes : Nat := odKey 0x1C00 0x03
/-- CHAIN_DIGEST (R434). -/
def Od.chainChainDigest : Nat := odKey 0x1C00 0x04
/-- CHAIN_SETTLED (R434). -/
def Od.chainChainSettled : Nat := odKey 0x1C00 0x05
/-- LSN_MISMATCH (R434). -/
def Od.chainLsnMismatch : Nat := odKey 0x1C00 0x06
/-- BARRIER_ACTION (R434). -/
def Od.chainBarrierAction : Nat := odKey 0x1C00 0x07
/-- LINK_ENABLE (R434). -/
def Od.linkLinkEnable (i : Nat) : Nat := odKey (0x1C10 + i) 0x01
/-- DEGRADE_ALLOW (R434). -/
def Od.linkDegradeAllow (i : Nat) : Nat := odKey (0x1C10 + i) 0x02
/-- LINK_STATE (R434). -/
def Od.linkLinkState (i : Nat) : Nat := odKey (0x1C10 + i) 0x03
/-- LANES (R434). -/
def Od.linkLanes (i : Nat) : Nat := odKey (0x1C10 + i) 0x04
/-- FAIL_CODE (R434). -/
def Od.linkFailCode (i : Nat) : Nat := odKey (0x1C10 + i) 0x05
/-- PARTNER_IDENT (R434). -/
def Od.linkPartnerIdent (i : Nat) : Nat := odKey (0x1C10 + i) 0x06
/-- RTT (R434). -/
def Od.linkRtt (i : Nat) : Nat := odKey (0x1C10 + i) 0x07
/-- IDENT (R478). -/
def Od.idIdent : Nat := odKey 0x1000 0x01
/-- VENDOR (R478). -/
def Od.idVendor : Nat := odKey 0x1000 0x02
/-- PRODUCT (R478). -/
def Od.idProduct : Nat := odKey 0x1000 0x03
/-- SERIAL (R478). -/
def Od.idSerial : Nat := odKey 0x1000 0x04
/-- FW_VERSION (R478). -/
def Od.idFwVersion : Nat := odKey 0x1000 0x05
/-- ROM_VERSION (R478). -/
def Od.idRomVersion : Nat := odKey 0x1000 0x06
/-- DICT_REVISION (R478). -/
def Od.idDictRevision : Nat := odKey 0x1000 0x07
/-- GEN_MASK (R478). -/
def Od.idGenMask : Nat := odKey 0x1000 0x08
/-- DT_NOW (R478). -/
def Od.idDtNow : Nat := odKey 0x1000 0x09
/-- OWNER (R478). -/
def Od.devOwner : Nat := odKey 0x1010 0x00
/-- STATE (R478). -/
def Od.devState : Nat := odKey 0x1010 0x01
/-- STATE_REQUEST (R478). -/
def Od.devStateRequest : Nat := odKey 0x1010 0x02
/-- LAST_REFUSAL (R478). -/
def Od.devLastRefusal : Nat := odKey 0x1010 0x03
/-- OWNER_REQUEST (R478). -/
def Od.devOwnerRequest : Nat := odKey 0x1010 0x04
/-- OWNER_SEIZE (R478). -/
def Od.devOwnerSeize : Nat := odKey 0x1010 0x05
/-- SAFE_REASON (R478). -/
def Od.devSafeReason : Nat := odKey 0x1010 0x06
/-- STATE_DT (R478). -/
def Od.devStateDt : Nat := odKey 0x1010 0x07
/-- STATE_LSN (R478). -/
def Od.devStateLsn : Nat := odKey 0x1010 0x08
/-- STATION (R478). -/
def Od.crvStation : Nat := odKey 0x1020 0x01
/-- SEAT (R478). -/
def Od.crvSeat : Nat := odKey 0x1020 0x02
/-- CYCLE_PERIOD (R478). -/
def Od.crvCyclePeriod : Nat := odKey 0x1020 0x03
/-- WATCHDOG (R478). -/
def Od.crvWatchdog : Nat := odKey 0x1020 0x04
/-- LOSS_ACTION (R478). -/
def Od.crvLossAction : Nat := odKey 0x1020 0x05
/-- TIME_SOURCE (R478). -/
def Od.crvTimeSource : Nat := odKey 0x1020 0x06
/-- TIME_STATE (R478). -/
def Od.crvTimeState : Nat := odKey 0x1020 0x07
/-- TIME_OFFSET (R478). -/
def Od.crvTimeOffset : Nat := odKey 0x1020 0x08
/-- PATH_DELAY (R478). -/
def Od.crvPathDelay : Nat := odKey 0x1020 0x09
/-- CONTROLLER_MAC (R478). -/
def Od.crvControllerMac : Nat := odKey 0x1020 0x0A
/-- CONTROLLER_FORGET (R478). -/
def Od.crvControllerForget : Nat := odKey 0x1020 0x0B
/-- SCHED_USED (R478). -/
def Od.crvSchedUsed : Nat := odKey 0x1020 0x0C
/-- REQUESTS_REFUSED (R478). -/
def Od.crvRequestsRefused : Nat := odKey 0x1020 0x0D
/-- LOST_CYCLES (R478). -/
def Od.crvLostCycles : Nat := odKey 0x1020 0x0E
/-- TRIM_ENABLE (R530). -/
def Od.trimTrimEnable : Nat := odKey 0x6000 0x01
/-- RUN_WINDOW (R530). -/
def Od.trimRunWindow : Nat := odKey 0x6000 0x02
/-- ITEMS_DONE (R530). -/
def Od.trimItemsDone : Nat := odKey 0x6000 0x03
/-- OVERDUE_NOW (R530). -/
def Od.trimOverdueNow : Nat := odKey 0x6000 0x04
/-- TRIM_MAP (R530). -/
def Od.trimTrimMap : Nat := odKey 0x6000 0x05
/-- FORCED_REPAIRS (R530). -/
def Od.trimForcedRepairs : Nat := odKey 0x6000 0x06
/-- STATES (R530). -/
def Od.trimKindStates (i : Nat) : Nat := odKey (0x6010 + i) 0x01
/-- PERIOD (R530). -/
def Od.trimKindPeriod (i : Nat) : Nat := odKey (0x6010 + i) 0x02
/-- OVERDUE_LIMIT (R530). -/
def Od.trimKindOverdueLimit (i : Nat) : Nat := odKey (0x6010 + i) 0x03
/-- MAX_CONCURRENT (R530). -/
def Od.trimKindMaxConcurrent (i : Nat) : Nat := odKey (0x6010 + i) 0x04
/-- DUE (R530). -/
def Od.trimKindDue (i : Nat) : Nat := odKey (0x6010 + i) 0x05
/-- SPARES_MIN (R530). -/
def Od.trimKindSparesMin (i : Nat) : Nat := odKey (0x6010 + i) 0x06
/-- FF_LEARN (R530). -/
def Od.ffFfLearn (i : Nat) : Nat := odKey (0x6100 + i) 0x01
/-- LEARN_LINES (R530). -/
def Od.ffLearnLines (i : Nat) : Nat := odKey (0x6100 + i) 0x02
/-- RAMP_LINES (R530). -/
def Od.ffRampLines (i : Nat) : Nat := odKey (0x6100 + i) 0x03
/-- GAIN_MIN (R530). -/
def Od.ffGainMin (i : Nat) : Nat := odKey (0x6100 + i) 0x04
/-- GAIN_MAX (R530). -/
def Od.ffGainMax (i : Nat) : Nat := odKey (0x6100 + i) 0x05
/-- MIN_LEVEL (R530). -/
def Od.ffMinLevel (i : Nat) : Nat := odKey (0x6100 + i) 0x06
/-- FF_STATE (R530). -/
def Od.ffFfState (i : Nat) : Nat := odKey (0x6100 + i) 0x07
/-- RAMPS_DONE (R530). -/
def Od.ffRampsDone (i : Nat) : Nat := odKey (0x6100 + i) 0x08
/-- CLAMPED (R530). -/
def Od.ffClamped (i : Nat) : Nat := odKey (0x6100 + i) 0x09
/-- ZERO_RANGE_ROWS (R530). -/
def Od.ffZeroRangeRows (i : Nat) : Nat := odKey (0x6100 + i) 0x0A
/-- VDD_TARGET (R560). -/
def Od.vddVddTarget : Nat := odKey 0x7000 0x01
/-- VDD_MEASURED (R560). -/
def Od.vddVddMeasured : Nat := odKey 0x7000 0x02
/-- AVS_MODE (R560). -/
def Od.vddAvsMode : Nat := odKey 0x7000 0x03
/-- VDD_FIXED_MV (R560). -/
def Od.vddVddFixedMv : Nat := odKey 0x7000 0x04
/-- WARN_STEP (R560). -/
def Od.vddWarnStep : Nat := odKey 0x7000 0x05
/-- WARN_COUNT (R560). -/
def Od.vddWarnCount : Nat := odKey 0x7000 0x06
/-- WARN_LONGEST (R560). -/
def Od.vddWarnLongest : Nat := odKey 0x7000 0x07
/-- RESET_REASON (R560). -/
def Od.vddResetReason : Nat := odKey 0x7000 0x08
/-- RESET_COUNT (R560). -/
def Od.vddResetCount : Nat := odKey 0x7000 0x09
/-- PL_SUSTAINED (R560). -/
def Od.plPlSustained : Nat := odKey 0x7010 0x01
/-- POWER_NOW (R560). -/
def Od.plPowerNow : Nat := odKey 0x7010 0x02
/-- POWER_PEAK (R560). -/
def Od.plPowerPeak : Nat := odKey 0x7010 0x03
/-- ENERGY (R560). -/
def Od.plEnergy : Nat := odKey 0x7010 0x04
/-- OPT_POWER (R560). -/
def Od.optOptPower : Nat := odKey 0x7020 0x01
/-- DRAM_STATE (R560). -/
def Od.dramDramState : Nat := odKey 0x7030 0x01
/-- T_CAP (R560). -/
def Od.thermTCap : Nat := odKey 0x7040 0x01
/-- T_JUNCTION (R560). -/
def Od.thermTJunction : Nat := odKey 0x7040 0x02
/-- T_STACK (R560). -/
def Od.thermTStack : Nat := odKey 0x7040 0x03
/-- T_PEAK (R560). -/
def Od.thermTPeak : Nat := odKey 0x7040 0x04
/-- GRADE_MIN (R560). -/
def Od.thermGradeMin : Nat := odKey 0x7040 0x05
/-- HEAD_SEQ (R589). -/
def Od.ledgerHeadSeq : Nat := odKey 0x8000 0x01
/-- HEAD_HASH (R589). -/
def Od.ledgerHeadHash : Nat := odKey 0x8000 0x02
/-- HELD (R589). -/
def Od.ledgerHeld : Nat := odKey 0x8000 0x03
/-- UNRETIRED (R589). -/
def Od.ledgerUnretired : Nat := odKey 0x8000 0x04
/-- SPILL_BASE (R589). -/
def Od.ledgerSpillBase : Nat := odKey 0x8000 0x05
/-- SPILL_SLOTS (R589). -/
def Od.ledgerSpillSlots : Nat := odKey 0x8000 0x06
/-- ACK_SEQ (R589). -/
def Od.ledgerAckSeq : Nat := odKey 0x8000 0x07
/-- LOST (R589). -/
def Od.ledgerLost : Nat := odKey 0x8000 0x08
/-- GENESIS_PREV (R589). -/
def Od.ledgerGenesisPrev : Nat := odKey 0x8000 0x09
/-- RECENT (R589). -/
def Od.ledgerRecent (j : Nat) : Nat := odKey 0x8100 (0x00 + j)
/-- BOOT_SLOT (R590). -/
def Od.safBootSlot : Nat := odKey 0x9000 0x01
/-- AUTH_RESULT (R590). -/
def Od.safAuthResult : Nat := odKey 0x9000 0x02
/-- IMAGE_DIGEST (R590). -/
def Od.safImageDigest : Nat := odKey 0x9000 0x03
/-- SEC_VERSION (R590). -/
def Od.safSecVersion : Nat := odKey 0x9000 0x04
/-- SEC_FUSED (R590). -/
def Od.safSecFused : Nat := odKey 0x9000 0x05
/-- KEYS_REVOKED (R590). -/
def Od.safKeysRevoked : Nat := odKey 0x9000 0x06
/-- BOOT_COUNT (R590). -/
def Od.safBootCount : Nat := odKey 0x9000 0x07
/-- IDENTITY_CERT (R590). -/
def Od.safIdentityCert : Nat := odKey 0x9000 0x08
/-- ALIAS_CERT (R590). -/
def Od.safAliasCert : Nat := odKey 0x9000 0x09
/-- ATTEST_NONCE (R590). -/
def Od.safAttestNonce : Nat := odKey 0x9000 0x0A
/-- ATTEST_STATE (R590). -/
def Od.safAttestState : Nat := odKey 0x9000 0x0B
/-- ATTEST_REPORT (R590). -/
def Od.safAttestReport : Nat := odKey 0x9000 0x0C

/-- The entries of R56. -/
def odRowsR56 : List OdRow :=
  [⟨0x2F00, 1, 0x01, 1, .u8, .rwl, true, true, false, 0x0, .span 0 2⟩,
   ⟨0x2F00, 1, 0x02, 1, .u32, .rw, true, true, false, 0x10000, .span 0x10000 0xFFFFFFFF⟩,
   ⟨0x2F00, 1, 0x03, 1, .u32, .rw, true, true, false, 0x7D0, .span 2000 1000000000⟩,
   ⟨0x2F00, 1, 0x04, 1, .u64, .rwl, true, true, false, 0x0, .span 0 0xFFFFFFFFFFFF⟩,
   ⟨0x2F00, 1, 0x05, 1, .u64, .ro, false, false, false, 0x0, .full⟩,
   ⟨0x2F00, 1, 0x06, 1, .i64, .ro, false, false, false, 0x0, .full⟩,
   ⟨0x2F00, 1, 0x07, 1, .u32, .ro, false, false, false, 0x0, .full⟩,
   ⟨0x2F00, 1, 0x08, 1, .u32, .ro, false, false, false, 0x7D0, .full⟩,
   ⟨0x2F10, 16, 0x01, 1, .bool, .rwl, true, true, false, 0x0, .full⟩,
   ⟨0x2F10, 16, 0x02, 1, .u32, .rwl, true, true, false, 0x0, .span 0 16777215⟩,
   ⟨0x2F10, 16, 0x03, 1, .u16, .rwl, true, true, false, 0x0, .full⟩,
   ⟨0x2F10, 16, 0x04, 1, .u16, .rwl, true, true, false, 0x0, .full⟩,
   ⟨0x2F10, 16, 0x05, 1, .bool, .rwl, true, true, false, 0x0, .full⟩,
   ⟨0x2F10, 16, 0x06, 1, .u16, .rwl, true, true, false, 0x0, .span 0 4095⟩,
   ⟨0x4F00, 1, 0x01, 1, .u8, .rwl, true, true, false, 0x40, .mult 16 128 16⟩,
   ⟨0x4F00, 1, 0x02, 1, .u32, .rwl, true, true, false, 0x0, .span 0 16777215⟩,
   ⟨0x4F00, 1, 0x03, 1, .u32, .rwl, true, true, false, 0x2000, .span 128 524288⟩,
   ⟨0x4F00, 1, 0x04, 1, .u16, .ro, false, false, false, 0x10, .full⟩,
   ⟨0x4F00, 1, 0x05, 1, .u16, .rwl, true, true, false, 0x200, .mult 128 2048 32⟩,
   ⟨0x4F00, 1, 0x06, 1, .u16, .rwl, true, false, false, 0x400, .span 0 4096⟩] ++
  [⟨0x4F00, 1, 0x07, 1, .u8, .ro, false, false, false, 0x3, .full⟩,
   ⟨0x4F00, 1, 0x08, 1, .u8, .ro, false, false, false, 0x8, .full⟩,
   ⟨0x4F01, 1, 0x01, 1, .u64, .ro, false, false, false, 0x0, .full⟩,
   ⟨0x4F01, 1, 0x02, 1, .u64, .ro, false, false, false, 0x0, .full⟩,
   ⟨0x4F01, 1, 0x03, 1, .u64, .ro, false, false, false, 0x0, .full⟩,
   ⟨0x4F01, 1, 0x04, 1, .u64, .ro, false, false, false, 0x0, .full⟩,
   ⟨0x4F01, 1, 0x05, 1, .u16, .ro, false, false, false, 0x0, .full⟩,
   ⟨0x4F01, 1, 0x06, 1, .u8, .ro, false, false, false, 0x0, .full⟩,
   ⟨0x4F01, 1, 0x07, 1, .u32, .ro, false, false, false, 0x0, .full⟩]

/-- The entries of R95. -/
def odRowsR95 : List OdRow :=
  [⟨0x2000, 16, 0x01, 1, .u8, .rwl, true, true, false, 0x1, .span 1 4⟩,
   ⟨0x2000, 16, 0x02, 1, .u8, .rwl, true, true, false, 0x8, .oneOf [8, 10, 12]⟩,
   ⟨0x2000, 16, 0x03, 1, .u8, .rwl, true, true, false, 0x0, .span 0 2⟩,
   ⟨0x2000, 16, 0x04, 1, .u8, .rwl, true, true, false, 0x1, .span 1 8⟩,
   ⟨0x2000, 16, 0x05, 1, .u16, .rwl, true, true, false, 0x1000, .mult 128 32768 32⟩,
   ⟨0x2000, 16, 0x06, 1, .u32, .rw, true, true, false, 0x0, .full⟩,
   ⟨0x2000, 16, 0x07, 1, .u16, .rw, true, true, false, 0x0, .full⟩,
   ⟨0x2000, 16, 0x08, 1, .u8, .rw, true, true, false, 0x0, .span 0 2⟩,
   ⟨0x2000, 16, 0x09, 1, .u32, .rw, true, true, false, 0x4E20, .span 2000 10000000⟩,
   ⟨0x2000, 16, 0x0A, 1, .bool, .rw, true, true, false, 0x1, .full⟩,
   ⟨0x2000, 16, 0x0B, 1, .u16, .rwl, true, true, false, 0x3E8, .span 100 10000⟩,
   ⟨0x2000, 16, 0x0C, 1, .u16, .rwl, true, true, false, 0x2710, .span 1000 60000⟩,
   ⟨0x2000, 16, 0x0D, 1, .u32, .ro, false, false, false, 0x0, .full⟩,
   ⟨0x2000, 16, 0x0E, 1, .u8, .ro, false, false, false, 0x0, .full⟩,
   ⟨0x2000, 16, 0x0F, 1, .str, .ro, false, false, false, 0x0, .full⟩,
   ⟨0x2000, 16, 0x10, 1, .u8, .ro, false, false, false, 0x0, .full⟩,
   ⟨0x2000, 16, 0x11, 1, .u64, .ro, false, false, false, 0x0, .full⟩,
   ⟨0x2010, 4, 0x01, 1, .u8, .rwl, true, true, false, 0x1, .span 0 1⟩,
   ⟨0x2010, 4, 0x02, 1, .bool, .ro, false, false, false, 0x0, .full⟩,
   ⟨0x2E00, 1, 0x01, 1, .u8, .rwl, true, true, false, 0x2, .span 0 2⟩] ++
  [⟨0x2E00, 1, 0x02, 1, .bool, .rwl, true, true, false, 0x0, .full⟩,
   ⟨0x2E00, 1, 0x03, 1, .u16, .rwl, true, true, false, 0x19, .span 0 60⟩,
   ⟨0x2E00, 1, 0x04, 1, .u32, .ro, false, false, false, 0x0, .full⟩,
   ⟨0x2E00, 1, 0x05, 1, .u32, .ro, false, false, false, 0x0, .full⟩]

/-- The entries of R128. -/
def odRowsR128 : List OdRow :=
  [⟨0x2100, 4, 0x01, 1, .u8, .rwl, true, true, false, 0x0, .oneOf [0, 1, 2, 3, 0xFF]⟩,
   ⟨0x2100, 4, 0x02, 1, .u16, .ro, false, false, false, 0x0, .full⟩,
   ⟨0x2100, 4, 0x03, 1, .u32, .ro, false, false, false, 0x0, .full⟩,
   ⟨0x2140, 1, 0x01, 1, .u8, .rwl, true, true, false, 0x1, .oneOf [1, 2, 4]⟩,
   ⟨0x2140, 1, 0x02, 1, .u8, .rwl, true, true, false, 0x1, .oneOf [1, 2, 4]⟩,
   ⟨0x2140, 1, 0x03, 1, .u8, .rwl, true, true, false, 0x0, .span 0 2⟩,
   ⟨0x2140, 1, 0x04, 1, .u8, .rwl, true, true, false, 0x4, .span 0 8⟩,
   ⟨0x2140, 1, 0x05, 1, .u8, .rwl, true, true, false, 0x1, .oneOf [1, 2, 4, 8, 16, 32]⟩,
   ⟨0x2200, 16, 0x01, 1, .bool, .rw, true, true, false, 0x0, .full⟩,
   ⟨0x2200, 16, 0x02, 1, .u16, .rw, true, true, false, 0x0, .span 0 4095⟩,
   ⟨0x2200, 16, 0x03, 4, .i16, .rw, true, true, false, 0x0, .full⟩,
   ⟨0x2200, 16, 0x07, 4, .i16, .rw, true, true, false, 0x0, .full⟩,
   ⟨0x2200, 16, 0x0B, 4, .i16, .rw, true, true, false, 0x0, .full⟩,
   ⟨0x2200, 16, 0x0F, 1, .u8, .rwl, true, true, false, 0x0, .span 0 3⟩,
   ⟨0x2200, 16, 0x10, 1, .u16, .rw, true, true, false, 0x8000, .full⟩,
   ⟨0x2200, 16, 0x11, 1, .i16, .rw, true, true, false, 0x0, .full⟩,
   ⟨0x2200, 16, 0x12, 1, .bool, .rw, true, true, false, 0x1, .full⟩,
   ⟨0x2200, 16, 0x13, 1, .u8, .rw, true, true, false, 0x0, .span 0 2⟩,
   ⟨0x2200, 16, 0x14, 1, .u8, .ro, false, false, false, 0x0, .full⟩,
   ⟨0x2200, 16, 0x15, 1, .u8, .ro, false, false, false, 0x0, .full⟩] ++
  [⟨0x2200, 16, 0x16, 1, .u64, .ro, false, false, false, 0x0, .full⟩,
   ⟨0x2200, 16, 0x17, 1, .u64, .ro, false, false, false, 0x0, .full⟩,
   ⟨0x2200, 16, 0x18, 1, .u64, .ro, false, false, false, 0x0, .full⟩]

/-- The entries of R175. -/
def odRowsR175 : List OdRow :=
  [⟨0x3000, 1, 0x01, 1, .u64, .rwl, true, false, false, 0x0, .aligned 64⟩,
   ⟨0x3000, 1, 0x02, 1, .u32, .rwl, true, false, false, 0x0, .pow2 64 1048576 true⟩,
   ⟨0x3000, 1, 0x03, 1, .u64, .rwl, true, false, false, 0x0, .full⟩,
   ⟨0x3000, 1, 0x04, 1, .u64, .ro, false, false, false, 0x0, .full⟩,
   ⟨0x3000, 1, 0x05, 1, .u64, .ro, false, false, false, 0x0, .full⟩,
   ⟨0x3000, 1, 0x06, 1, .u64, .ro, false, false, false, 0x0, .full⟩,
   ⟨0x3000, 1, 0x07, 1, .u64, .ro, false, false, false, 0x0, .full⟩,
   ⟨0x3000, 1, 0x08, 1, .u64, .ro, false, false, false, 0x0, .full⟩,
   ⟨0x3000, 1, 0x09, 1, .u64, .ro, false, false, false, 0x0, .full⟩,
   ⟨0x3000, 1, 0x0A, 1, .u64, .ro, false, false, false, 0x0, .full⟩,
   ⟨0x3000, 1, 0x0B, 1, .u64, .ro, false, false, false, 0x0, .full⟩,
   ⟨0x3000, 1, 0x0C, 1, .u64, .ro, false, false, false, 0x0, .full⟩,
   ⟨0x3000, 1, 0x0D, 1, .u64, .ro, false, false, false, 0x0, .full⟩,
   ⟨0x3000, 1, 0x0E, 1, .u64, .ro, false, false, false, 0x0, .full⟩,
   ⟨0x3100, 256, 0x01, 1, .bool, .rwl, true, false, false, 0x0, .full⟩,
   ⟨0x3100, 256, 0x02, 1, .u8, .rwl, true, false, false, 0x4, .span 0 7⟩,
   ⟨0x3100, 256, 0x03, 1, .u16, .rwl, true, false, false, 0x20, .span 1 4096⟩,
   ⟨0x3100, 256, 0x04, 1, .u8, .rwl, true, false, false, 0x20, .oneOf [32, 64, 128]⟩,
   ⟨0x3100, 256, 0x05, 1, .u8, .rw, true, true, false, 0x4, .span 1 8⟩,
   ⟨0x3100, 256, 0x06, 1, .u16, .rw, true, true, false, 0x4800, .span 0x4000 0x8000⟩] ++
  [⟨0x3100, 256, 0x07, 1, .u32, .rw, true, true, false, 0x64, .span 0 1000000⟩,
   ⟨0x3100, 256, 0x08, 1, .u8, .rw, true, true, false, 0x0, .span 0 1⟩,
   ⟨0x3100, 256, 0x09, 1, .u64, .ro, false, false, false, 0x0, .full⟩,
   ⟨0x3100, 256, 0x0A, 1, .f32, .ro, false, false, false, 0x0, .full⟩,
   ⟨0x3100, 256, 0x0B, 1, .u64, .ro, false, false, false, 0x0, .full⟩,
   ⟨0x3100, 256, 0x0C, 1, .u64, .ro, false, false, false, 0x0, .full⟩,
   ⟨0x3100, 256, 0x0D, 1, .u32, .ro, false, false, false, 0x0, .full⟩]

/-- The entries of R224. -/
def odRowsR224 : List OdRow :=
  [⟨0x4000, 1, 0x01, 1, .u32, .rwl, true, false, false, 0xFFFFFFFF, .full⟩,
   ⟨0x4000, 1, 0x02, 1, .bool, .rw, true, true, false, 0x1, .full⟩,
   ⟨0x4000, 1, 0x03, 1, .u32, .ro, false, false, false, 0x0, .full⟩,
   ⟨0x4100, 32, 0x01, 1, .u16, .rw, true, true, false, 0x898, .mult 800 2200 50⟩,
   ⟨0x4100, 32, 0x02, 1, .u16, .ro, false, false, false, 0x0, .full⟩,
   ⟨0x4100, 32, 0x03, 1, .u16, .ro, false, false, true, 0x898, .full⟩,
   ⟨0x4100, 32, 0x04, 1, .u8, .ro, false, false, false, 0x0, .full⟩,
   ⟨0x4100, 32, 0x05, 1, .bool, .rw, true, true, false, 0x0, .full⟩,
   ⟨0x4100, 32, 0x06, 1, .u64, .ro, false, false, false, 0x0, .full⟩,
   ⟨0x4100, 32, 0x07, 1, .u64, .ro, false, false, false, 0x0, .full⟩,
   ⟨0x4100, 32, 0x08, 1, .u16, .ro, false, false, false, 0x0, .full⟩]

/-- The entries of R296. -/
def odRowsR296 : List OdRow :=
  [⟨0x5800, 1, 0x01, 1, .f32, .rw, true, true, false, 0x3F000000, .iou⟩,
   ⟨0x5800, 1, 0x02, 1, .bool, .rw, true, true, false, 0x0, .full⟩,
   ⟨0x5800, 1, 0x03, 1, .u16, .rwl, true, true, false, 0x1000, .span 256 6144⟩,
   ⟨0x5800, 1, 0x04, 1, .u16, .rwl, true, true, false, 0x200, .span 16 2048⟩,
   ⟨0x5800, 1, 0x05, 1, .u16, .rwl, true, true, false, 0x40, .span 0 4096⟩,
   ⟨0x5800, 1, 0x06, 1, .u8, .rw, true, true, false, 0x8, .span 0 128⟩,
   ⟨0x5800, 1, 0x07, 1, .u64, .ro, false, false, false, 0x0, .full⟩,
   ⟨0x5800, 1, 0x08, 1, .u64, .ro, false, false, false, 0x0, .full⟩]

/-- The entries of R328. -/
def odRowsR328 : List OdRow :=
  [⟨0x5000, 1, 0x01, 1, .u64, .rwl, true, false, false, 0x0, .full⟩,
   ⟨0x5000, 1, 0x02, 1, .u16, .rwl, true, true, false, 0x10, .pow2 1 512 false⟩,
   ⟨0x5000, 1, 0x03, 1, .u64, .rwl, true, false, false, 0x0, .aligned 67108864⟩,
   ⟨0x5000, 1, 0x04, 1, .u64, .ro, false, false, false, 0x0, .full⟩,
   ⟨0x5000, 1, 0x05, 1, .u64, .ro, false, false, false, 0x0, .full⟩,
   ⟨0x5000, 1, 0x06, 1, .u64, .ro, false, false, false, 0x0, .full⟩,
   ⟨0x5000, 1, 0x07, 1, .u64, .ro, false, false, false, 0x0, .full⟩,
   ⟨0x5010, 8, 0x01, 1, .bool, .rw, true, true, false, 0x0, .full⟩,
   ⟨0x5010, 8, 0x02, 1, .u32, .rw, true, true, false, 0x10000, .span 0x10000 0xFFFFFFFF⟩,
   ⟨0x5010, 8, 0x03, 1, .u8, .rw, true, true, false, 0x0, .span 0 8⟩,
   ⟨0x5010, 8, 0x04, 1, .i64, .rw, true, true, false, 0x0, .full⟩,
   ⟨0x5010, 8, 0x05, 1, .bool, .rw, true, true, false, 0x1, .full⟩,
   ⟨0x5010, 8, 0x06, 1, .u8, .ro, false, false, false, 0x0, .full⟩,
   ⟨0x5010, 8, 0x07, 1, .u64, .ro, false, false, false, 0x0, .full⟩,
   ⟨0x5010, 8, 0x08, 1, .u16, .ro, false, false, false, 0x0, .full⟩,
   ⟨0x5100, 1, 0x01, 1, .u8, .rwl, true, true, false, 0x0, .span 0 16⟩,
   ⟨0x5100, 1, 0x02, 1, .u16, .rwl, true, true, false, 0x80, .mult 64 1024 64⟩,
   ⟨0x5100, 1, 0x03, 1, .u8, .rwl, true, true, false, 0x1, .span 1 4⟩,
   ⟨0x5100, 1, 0x04, 1, .u8, .rwl, true, true, false, 0x2, .span 1 6⟩,
   ⟨0x5100, 1, 0x05, 1, .u64, .rwl, true, false, false, 0x0, .aligned 16777216⟩] ++
  [⟨0x5100, 1, 0x06, 1, .u16, .ro, false, false, false, 0x0, .full⟩,
   ⟨0x5100, 1, 0x07, 1, .u16, .ro, false, false, false, 0x0, .full⟩,
   ⟨0x5100, 1, 0x08, 1, .u64, .ro, false, false, false, 0x0, .full⟩,
   ⟨0x5200, 1, 0x01, 1, .u16, .rwl, true, true, false, 0x0, .mult 0 16384 64⟩,
   ⟨0x5200, 1, 0x02, 1, .u64, .rwl, true, false, false, 0x0, .aligned 64⟩,
   ⟨0x5200, 1, 0x03, 1, .u8, .rw, true, true, false, 0x2, .span 1 6⟩,
   ⟨0x5200, 1, 0x04, 1, .u64, .ro, false, false, false, 0x0, .full⟩,
   ⟨0x5200, 1, 0x05, 1, .u64, .ro, false, false, false, 0x0, .full⟩]

/-- The entries of R404. -/
def odRowsR404 : List OdRow :=
  [⟨0x4200, 1, 0x01, 1, .u16, .rw, true, true, false, 0xC8, .span 10 65535⟩,
   ⟨0x4200, 1, 0x02, 1, .u8, .rw, true, true, false, 0x2, .span 1 6⟩,
   ⟨0x4200, 1, 0x03, 1, .u32, .ro, false, false, false, 0x0, .full⟩,
   ⟨0x4200, 1, 0x04, 1, .u16, .ro, false, false, false, 0x0, .full⟩,
   ⟨0x4200, 1, 0x05, 1, .u64, .ro, false, false, false, 0x0, .full⟩,
   ⟨0x4200, 1, 0x06, 1, .u64, .ro, false, false, false, 0x0, .full⟩,
   ⟨0x4200, 1, 0x07, 1, .u64, .ro, false, false, false, 0x0, .full⟩,
   ⟨0x4200, 1, 0x08, 1, .u64, .ro, false, false, false, 0x0, .full⟩,
   ⟨0x4200, 1, 0x09, 1, .u64, .ro, false, false, false, 0x0, .full⟩,
   ⟨0x4200, 1, 0x0A, 1, .u64, .ro, false, false, false, 0x0, .full⟩]

/-- The entries of R434. -/
def odRowsR434 : List OdRow :=
  [⟨0x1C00, 1, 0x01, 1, .u8, .ro, false, false, false, 0xFF, .full⟩,
   ⟨0x1C00, 1, 0x02, 1, .u8, .ro, false, false, false, 0x1, .full⟩,
   ⟨0x1C00, 1, 0x03, 1, .u16, .ro, false, false, false, 0x0, .full⟩,
   ⟨0x1C00, 1, 0x04, 1, .u64, .ro, false, false, false, 0x0, .full⟩,
   ⟨0x1C00, 1, 0x05, 1, .bool, .ro, false, false, false, 0x0, .full⟩,
   ⟨0x1C00, 1, 0x06, 1, .u64, .ro, false, false, false, 0x0, .full⟩,
   ⟨0x1C00, 1, 0x07, 1, .u8, .rw, true, true, false, 0x0, .span 0 1⟩,
   ⟨0x1C10, 2, 0x01, 1, .bool, .rw, true, false, false, 0x0, .full⟩,
   ⟨0x1C10, 2, 0x02, 1, .bool, .rwl, true, true, false, 0x1, .full⟩,
   ⟨0x1C10, 2, 0x03, 1, .u8, .ro, false, false, false, 0x0, .full⟩,
   ⟨0x1C10, 2, 0x04, 1, .u8, .ro, false, false, false, 0x0, .full⟩,
   ⟨0x1C10, 2, 0x05, 1, .u8, .ro, false, false, false, 0x0, .full⟩,
   ⟨0x1C10, 2, 0x06, 1, .u32, .ro, false, false, false, 0x0, .full⟩,
   ⟨0x1C10, 2, 0x07, 1, .u32, .ro, false, false, false, 0x0, .full⟩]

/-- The entries of R478. -/
def odRowsR478 : List OdRow :=
  [⟨0x1000, 1, 0x01, 1, .u32, .ro, false, false, false, 0x0, .full⟩,
   ⟨0x1000, 1, 0x02, 1, .str, .ro, false, false, false, 0x0, .full⟩,
   ⟨0x1000, 1, 0x03, 1, .str, .ro, false, false, false, 0x0, .full⟩,
   ⟨0x1000, 1, 0x04, 1, .u64, .ro, false, false, false, 0x0, .full⟩,
   ⟨0x1000, 1, 0x05, 1, .u32, .ro, false, false, false, 0x0, .full⟩,
   ⟨0x1000, 1, 0x06, 1, .u32, .ro, false, false, false, 0x0, .full⟩,
   ⟨0x1000, 1, 0x07, 1, .u16, .ro, false, false, false, 0x1, .full⟩,
   ⟨0x1000, 1, 0x08, 1, .u8, .ro, false, false, false, 0x1, .full⟩,
   ⟨0x1000, 1, 0x09, 1, .u64, .ro, false, false, false, 0x0, .full⟩,
   ⟨0x1010, 1, 0x00, 1, .u8, .rw, true, true, false, 0x0, .span 0 1⟩,
   ⟨0x1010, 1, 0x01, 1, .u8, .ro, false, false, false, 0x0, .full⟩,
   ⟨0x1010, 1, 0x02, 1, .u8, .wo, true, true, false, 0x0, .span 0 6⟩,
   ⟨0x1010, 1, 0x03, 1, .u8, .ro, false, false, false, 0x0, .full⟩,
   ⟨0x1010, 1, 0x04, 1, .bool, .wo, true, true, false, 0x0, .full⟩,
   ⟨0x1010, 1, 0x05, 1, .bool, .wo, true, false, false, 0x0, .full⟩,
   ⟨0x1010, 1, 0x06, 1, .u16, .ro, false, false, false, 0x0, .full⟩,
   ⟨0x1010, 1, 0x07, 1, .u64, .ro, false, false, false, 0x0, .full⟩,
   ⟨0x1010, 1, 0x08, 1, .u64, .ro, false, false, false, 0x0, .full⟩,
   ⟨0x1020, 1, 0x01, 1, .u16, .rwl, true, true, false, 0x0, .span 0 0x7FFF⟩,
   ⟨0x1020, 1, 0x02, 1, .u8, .ro, false, false, false, 0xFF, .full⟩] ++
  [⟨0x1020, 1, 0x03, 1, .u32, .ro, false, false, false, 0x0, .full⟩,
   ⟨0x1020, 1, 0x04, 1, .u8, .rw, true, true, false, 0x8, .span 2 255⟩,
   ⟨0x1020, 1, 0x05, 1, .u8, .rw, true, true, false, 0x0, .span 0 1⟩,
   ⟨0x1020, 1, 0x06, 1, .u8, .rwl, true, true, false, 0x0, .span 0 2⟩,
   ⟨0x1020, 1, 0x07, 1, .u8, .ro, false, false, false, 0x0, .full⟩,
   ⟨0x1020, 1, 0x08, 1, .i32, .ro, false, false, false, 0x0, .full⟩,
   ⟨0x1020, 1, 0x09, 1, .u32, .ro, false, false, false, 0x0, .full⟩,
   ⟨0x1020, 1, 0x0A, 1, .u64, .ro, false, false, false, 0x0, .full⟩,
   ⟨0x1020, 1, 0x0B, 1, .bool, .wo, true, false, false, 0x0, .full⟩,
   ⟨0x1020, 1, 0x0C, 1, .u8, .ro, false, false, false, 0x0, .full⟩,
   ⟨0x1020, 1, 0x0D, 1, .u64, .ro, false, false, false, 0x0, .full⟩,
   ⟨0x1020, 1, 0x0E, 1, .u64, .ro, false, false, false, 0x0, .full⟩]

/-- The entries of R530. -/
def odRowsR530 : List OdRow :=
  [⟨0x6000, 1, 0x01, 1, .bool, .rw, true, true, false, 0x1, .full⟩,
   ⟨0x6000, 1, 0x02, 1, .bool, .rw, true, true, false, 0x1, .full⟩,
   ⟨0x6000, 1, 0x03, 1, .u64, .ro, false, false, false, 0x0, .full⟩,
   ⟨0x6000, 1, 0x04, 1, .u16, .ro, false, false, false, 0x0, .full⟩,
   ⟨0x6000, 1, 0x05, 1, .domain, .ro, false, false, true, 0x0, .full⟩,
   ⟨0x6000, 1, 0x06, 1, .u64, .ro, false, false, false, 0x0, .full⟩,
   ⟨0x6010, 6, 0x01, 1, .u8, .rw, true, true, false, 0xB, .span 0 15⟩,
   ⟨0x6010, 6, 0x02, 1, .u32, .rw, true, true, false, 0x0, .zeroOr 256 31536000⟩,
   ⟨0x6010, 6, 0x03, 1, .u32, .rw, true, true, false, 0x3C, .span 1 31536000⟩,
   ⟨0x6010, 6, 0x04, 1, .u8, .rw, true, true, false, 0x1, .span 1 32⟩,
   ⟨0x6010, 6, 0x05, 1, .u16, .ro, false, false, false, 0x0, .full⟩,
   ⟨0x6010, 6, 0x06, 1, .u8, .ro, false, false, false, 0x0, .full⟩,
   ⟨0x6100, 16, 0x01, 1, .bool, .rw, true, true, false, 0x0, .full⟩,
   ⟨0x6100, 16, 0x02, 1, .u32, .rw, true, true, false, 0x1000, .pow2 256 65536 false⟩,
   ⟨0x6100, 16, 0x03, 1, .u32, .rw, true, true, false, 0x1000, .pow2 256 65536 false⟩,
   ⟨0x6100, 16, 0x04, 1, .u16, .rw, true, true, false, 0x2000, .span 1 0xFFFF⟩,
   ⟨0x6100, 16, 0x05, 1, .u16, .rw, true, true, false, 0x8000, .full⟩,
   ⟨0x6100, 16, 0x06, 1, .u16, .rw, true, true, false, 0x40, .span 0 32767⟩,
   ⟨0x6100, 16, 0x07, 1, .u8, .ro, false, false, false, 0x0, .full⟩,
   ⟨0x6100, 16, 0x08, 1, .u32, .ro, false, false, false, 0x0, .full⟩] ++
  [⟨0x6100, 16, 0x09, 1, .u64, .ro, false, false, false, 0x0, .full⟩,
   ⟨0x6100, 16, 0x0A, 1, .u32, .ro, false, false, false, 0x0, .full⟩]

/-- The entries of R560. -/
def odRowsR560 : List OdRow :=
  [⟨0x7000, 1, 0x01, 1, .u16, .ro, false, false, false, 0x2EE, .full⟩,
   ⟨0x7000, 1, 0x02, 1, .u16, .ro, false, false, false, 0x0, .full⟩,
   ⟨0x7000, 1, 0x03, 1, .u8, .rwl, true, false, false, 0x0, .span 0 1⟩,
   ⟨0x7000, 1, 0x04, 1, .u16, .rwl, true, false, false, 0x2EE, .mult 650 850 5⟩,
   ⟨0x7000, 1, 0x05, 1, .u16, .rw, true, true, false, 0x190, .mult 0 1400 50⟩,
   ⟨0x7000, 1, 0x06, 1, .u64, .ro, false, false, false, 0x0, .full⟩,
   ⟨0x7000, 1, 0x07, 1, .u32, .ro, false, false, false, 0x0, .full⟩,
   ⟨0x7000, 1, 0x08, 1, .u8, .ro, false, false, false, 0x1, .full⟩,
   ⟨0x7000, 1, 0x09, 1, .u32, .ro, false, false, false, 0x0, .full⟩,
   ⟨0x7010, 1, 0x01, 1, .u16, .rw, true, true, false, 0x168, .span 150 400⟩,
   ⟨0x7010, 1, 0x02, 1, .u16, .ro, false, false, false, 0x0, .full⟩,
   ⟨0x7010, 1, 0x03, 1, .u16, .ro, false, false, false, 0x0, .full⟩,
   ⟨0x7010, 1, 0x04, 1, .u64, .ro, false, false, false, 0x0, .full⟩,
   ⟨0x7020, 1, 0x01, 1, .u8, .rwl, true, true, false, 0x3F, .span 0 63⟩,
   ⟨0x7030, 1, 0x01, 1, .u8, .ro, false, false, false, 0x0, .full⟩,
   ⟨0x7040, 1, 0x01, 1, .i16, .rw, true, true, false, 0x64, .span 70 104⟩,
   ⟨0x7040, 1, 0x02, 1, .i16, .ro, false, false, false, 0x0, .full⟩,
   ⟨0x7040, 1, 0x03, 1, .i16, .ro, false, false, false, 0x0, .full⟩,
   ⟨0x7040, 1, 0x04, 1, .i16, .ro, false, false, false, 0x0, .full⟩,
   ⟨0x7040, 1, 0x05, 1, .i16, .ro, false, false, false, 0x0, .full⟩]

/-- The entries of R589. -/
def odRowsR589 : List OdRow :=
  [⟨0x8000, 1, 0x01, 1, .u64, .ro, false, false, false, 0x0, .full⟩,
   ⟨0x8000, 1, 0x02, 1, .domain, .ro, false, false, false, 0x0, .full⟩,
   ⟨0x8000, 1, 0x03, 1, .u32, .ro, false, false, false, 0x0, .full⟩,
   ⟨0x8000, 1, 0x04, 1, .u32, .ro, false, false, false, 0x0, .full⟩,
   ⟨0x8000, 1, 0x05, 1, .u64, .rwl, true, false, false, 0x0, .aligned 64⟩,
   ⟨0x8000, 1, 0x06, 1, .u32, .rwl, true, false, false, 0x0, .pow2 256 1048576 true⟩,
   ⟨0x8000, 1, 0x07, 1, .u64, .rw, true, false, false, 0x0, .full⟩,
   ⟨0x8000, 1, 0x08, 1, .u64, .ro, false, false, false, 0x0, .full⟩,
   ⟨0x8000, 1, 0x09, 1, .domain, .ro, false, false, false, 0x0, .full⟩,
   ⟨0x8100, 1, 0x00, 256, .domain, .ro, false, false, false, 0x0, .full⟩]

/-- The entries of R590. -/
def odRowsR590 : List OdRow :=
  [⟨0x9000, 1, 0x01, 1, .u8, .ro, false, false, false, 0xFF, .full⟩,
   ⟨0x9000, 1, 0x02, 1, .u32, .ro, false, false, false, 0x0, .full⟩,
   ⟨0x9000, 1, 0x03, 1, .domain, .ro, false, false, false, 0x0, .full⟩,
   ⟨0x9000, 1, 0x04, 1, .u16, .ro, false, false, false, 0x0, .full⟩,
   ⟨0x9000, 1, 0x05, 1, .u16, .ro, false, false, false, 0x0, .full⟩,
   ⟨0x9000, 1, 0x06, 1, .u8, .ro, false, false, false, 0x0, .full⟩,
   ⟨0x9000, 1, 0x07, 1, .u32, .ro, false, false, false, 0x0, .full⟩,
   ⟨0x9000, 1, 0x08, 1, .domain, .ro, false, false, false, 0x0, .full⟩,
   ⟨0x9000, 1, 0x09, 1, .domain, .ro, false, false, false, 0x0, .full⟩,
   ⟨0x9000, 1, 0x0A, 1, .domain, .wo, true, true, false, 0x0, .full⟩,
   ⟨0x9000, 1, 0x0B, 1, .u8, .ro, false, false, false, 0x0, .full⟩,
   ⟨0x9000, 1, 0x0C, 1, .domain, .ro, false, false, false, 0x0, .full⟩]

/-- Every row of the dictionary (R464). -/
def odRows : List OdRow :=
  odRowsR56 ++
  odRowsR95 ++
  odRowsR128 ++
  odRowsR175 ++
  odRowsR224 ++
  odRowsR296 ++
  odRowsR328 ++
  odRowsR404 ++
  odRowsR434 ++
  odRowsR478 ++
  odRowsR530 ++
  odRowsR560 ++
  odRowsR589 ++
  odRowsR590

/-- The row of a key, or none where no entry is defined. -/
def odFind (key : Nat) : Option OdRow :=
  odRows.find? fun r => decide (r.index ≤ key / 256) && decide (key / 256 < r.index + r.count) &&
    (decide (r.sub ≤ key % 256) && decide (key % 256 < r.sub + r.subs))

/-- Bytes of a scalar type; 0 for STR and DOMAIN (R461). -/
def OdType.bytes : OdType → Nat
  | .bool | .u8 | .i8 => 1
  | .u16 | .i16 => 2
  | .u32 | .i32 | .f32 => 4
  | .u64 | .i64 | .f64 => 8
  | .str | .domain => 0

/-- Is the type one of the signed integers? -/
def OdType.signed : OdType → Bool
  | .i8 | .i16 | .i32 | .i64 => true
  | _ => false

/-- The default of an entry (R467). The entries 0x6010+k differ by k in the table of R530. -/
def odDefault (key : Nat) : Nat :=
  if key = odKey 0x6010 1 || key = odKey 0x6014 1 then 0x0F
  else if key = odKey 0x6011 1 then 0x09
  else if key = odKey 0x6010 2 || key = odKey 0x6010 3 then 3600
  else if key = odKey 0x6010 4 then 4
  else match odFind key with
    | some r => r.default
    | none => 0

end Sys2Proof.Machine
end

