-- ==== Sys2Proof/Machine/RegMap.lean ====
section
/-! DEFINITION. The BAR0 register map (R489): the offset of every register, and one row per register with its access code (R4),
reset value, writable bits, width and the moment its counter resets. Offsets and rows follow the tables of R96, R129, R226, R298, R330,
R364 to R366, R405, R435, R477, R481, R507, R533, R561, R592 and R593. -/

namespace Sys2Proof.Machine

/-- A register access code (R4). -/
inductive RegAccess where
  | ro | rw | wo | w1c | rc
  deriving DecidableEq, Repr

/-- When a counter register resets, beside a conventional reset: at entry to ARMED, only at power-up, at a Function Level
Reset too, or at each boot; `keep` for registers that are no such counter. -/
inductive RegClear where
  | keep | armed | power | flr | boot
  deriving DecidableEq, Repr

/-- One register of the map: its first BAR0 offset, its instances as (count, stride) from the outermost, its access code,
reset value, the bits a write can set (R7), its width in bytes, when its counter resets, and whether it accepts writes in
PREOP only (R129, R364, R435). -/
structure RegRow where
  base : Nat
  dims : List (Nat × Nat)
  access : RegAccess
  reset : Nat
  mask : Nat
  size : Nat
  clear : RegClear
  preopOnly : Bool
  deriving DecidableEq, Repr

/-- CAM_STATUS (R96). -/
def Reg.camStatus (a : Nat) : Nat := 0x00100000 + a * 0x10000
/-- CAM_LANE_STATUS (R96). -/
def Reg.camLaneStatus (a : Nat) : Nat := 0x00100004 + a * 0x10000
/-- CAM_INT_STATUS (R96). -/
def Reg.camIntStatus (a : Nat) : Nat := 0x00100008 + a * 0x10000
/-- CAM_INT_ENABLE (R96). -/
def Reg.camIntEnable (a : Nat) : Nat := 0x0010000C + a * 0x10000
/-- CAM_FIFO_LEVEL (R96). -/
def Reg.camFifoLevel (a : Nat) : Nat := 0x00100010 + a * 0x10000
/-- CAM_FIFO_PEAK (R96). -/
def Reg.camFifoPeak (a : Nat) : Nat := 0x00100014 + a * 0x10000
/-- CAM_PENDING (R96). -/
def Reg.camPending (a : Nat) : Nat := 0x00100018 + a * 0x10000
/-- CAM_LINES_RX (R96). -/
def Reg.camLinesRx (a : Nat) : Nat := 0x00100020 + a * 0x10000
/-- CAM_LINES_DROPPED (R96). -/
def Reg.camLinesDropped (a : Nat) : Nat := 0x00100024 + a * 0x10000
/-- CAM_SHORT_LINES (R96). -/
def Reg.camShortLines (a : Nat) : Nat := 0x00100028 + a * 0x10000
/-- CAM_LONG_LINES (R96). -/
def Reg.camLongLines (a : Nat) : Nat := 0x0010002C + a * 0x10000
/-- CAM_SHORT_FRAMES (R96). -/
def Reg.camShortFrames (a : Nat) : Nat := 0x00100030 + a * 0x10000
/-- CAM_SPLIT_FRAMES (R96). -/
def Reg.camSplitFrames (a : Nat) : Nat := 0x00100034 + a * 0x10000
/-- CAM_UNTERM_FRAMES (R96). -/
def Reg.camUntermFrames (a : Nat) : Nat := 0x00100038 + a * 0x10000
/-- CAM_ABSENT (R96). -/
def Reg.camAbsent (a : Nat) : Nat := 0x0010003C + a * 0x10000
/-- CAM_UNSOLICITED (R96). -/
def Reg.camUnsolicited (a : Nat) : Nat := 0x00100040 + a * 0x10000
/-- CAM_STALE (R96). -/
def Reg.camStale (a : Nat) : Nat := 0x00100044 + a * 0x10000
/-- CAM_MALFORMED (R96). -/
def Reg.camMalformed (a : Nat) : Nat := 0x00100048 + a * 0x10000
/-- CAM_ORPHAN (R96). -/
def Reg.camOrphan (a : Nat) : Nat := 0x0010004C + a * 0x10000
/-- CAM_CHECK_ERR_PORT (R96). -/
def Reg.camCheckErrPort (a : Nat) : Nat := 0x00100050 + a * 0x10000
/-- CAM_CHECK_ERR_LANE (R96). -/
def Reg.camCheckErrLane (a b : Nat) : Nat := 0x00100054 + a * 0x10000 + b * 0x4
/-- CAM_HB_MISSED (R96). -/
def Reg.camHbMissed (a : Nat) : Nat := 0x00100064 + a * 0x10000
/-- CAM_EVENTS_RX (R96). -/
def Reg.camEventsRx (a : Nat) : Nat := 0x00100068 + a * 0x10000
/-- CAM_LOST_TRIG (R96). -/
def Reg.camLostTrig (a : Nat) : Nat := 0x0010006C + a * 0x10000
/-- CAM_CC_ADDR (R96). -/
def Reg.camCcAddr (a : Nat) : Nat := 0x00100080 + a * 0x10000
/-- CAM_CC_LEN (R96). -/
def Reg.camCcLen (a : Nat) : Nat := 0x00100084 + a * 0x10000
/-- CAM_CC_CMD (R96). -/
def Reg.camCcCmd (a : Nat) : Nat := 0x00100088 + a * 0x10000
/-- CAM_CC_STATUS (R96). -/
def Reg.camCcStatus (a : Nat) : Nat := 0x0010008C + a * 0x10000
/-- CAM_CC_DATA (R96). -/
def Reg.camCcData (a b : Nat) : Nat := 0x00100100 + a * 0x10000 + b * 0x4
/-- FS_STATUS (R129). -/
def Reg.fsStatus (a : Nat) : Nat := 0x00200000 + a * 0x40000
/-- FS_INT_STATUS (R129). -/
def Reg.fsIntStatus (a : Nat) : Nat := 0x00200004 + a * 0x40000
/-- FS_INT_ENABLE (R129). -/
def Reg.fsIntEnable (a : Nat) : Nat := 0x00200008 + a * 0x40000
/-- FS_BUSY_CYCLES (R129). -/
def Reg.fsBusyCycles (a : Nat) : Nat := 0x00200010 + a * 0x40000
/-- FS_LINES_INLINE (R129). -/
def Reg.fsLinesInline (a : Nat) : Nat := 0x00200014 + a * 0x40000
/-- FS_LINES_MP (R129). -/
def Reg.fsLinesMp (a : Nat) : Nat := 0x00200018 + a * 0x40000
/-- FS_PLACEHOLDERS (R129). -/
def Reg.fsPlaceholders (a : Nat) : Nat := 0x0020001C + a * 0x40000
/-- FS_INLINE_WAIT_MAX (R129). -/
def Reg.fsInlineWaitMax (a : Nat) : Nat := 0x00200020 + a * 0x40000
/-- FS_TBL_SEL (R129). -/
def Reg.fsTblSel (a : Nat) : Nat := 0x00200100 + a * 0x40000
/-- FS_TBL_INDEX (R129). -/
def Reg.fsTblIndex (a : Nat) : Nat := 0x00200104 + a * 0x40000
/-- FS_TBL_DATA (R129). -/
def Reg.fsTblData (a : Nat) : Nat := 0x00200108 + a * 0x40000
/-- FS_TBL_COMMIT (R129). -/
def Reg.fsTblCommit (a : Nat) : Nat := 0x0020010C + a * 0x40000
/-- FS_TBL_STATUS (R129). -/
def Reg.fsTblStatus (a : Nat) : Nat := 0x00200110 + a * 0x40000
/-- FS_RING_BASE (R129). -/
def Reg.fsRingBase (a b : Nat) : Nat := 0x00201000 + a * 0x40000 + b * 0x100
/-- FS_RING_SLOTS (R129). -/
def Reg.fsRingSlots (a b : Nat) : Nat := 0x00201004 + a * 0x40000 + b * 0x100
/-- FS_RING_PITCH (R129). -/
def Reg.fsRingPitch (a b : Nat) : Nat := 0x00201008 + a * 0x40000 + b * 0x100
/-- FS_TAG_BASE (R129). -/
def Reg.fsTagBase (a b : Nat) : Nat := 0x0020100C + a * 0x40000 + b * 0x100
/-- FS_RING_FREE (R129). -/
def Reg.fsRingFree (a b : Nat) : Nat := 0x00201010 + a * 0x40000 + b * 0x100
/-- FS_RING_WRPOS_LO (R129). -/
def Reg.fsRingWrposLo (a b : Nat) : Nat := 0x00201018 + a * 0x40000 + b * 0x100
/-- FS_RING_WRPOS_HI (R129). -/
def Reg.fsRingWrposHi (a b : Nat) : Nat := 0x0020101C + a * 0x40000 + b * 0x100
/-- FS_MP_BASE_LO (R129). -/
def Reg.fsMpBaseLo (a b : Nat) : Nat := 0x00201020 + a * 0x40000 + b * 0x100
/-- FS_MP_BASE_HI (R129). -/
def Reg.fsMpBaseHi (a b : Nat) : Nat := 0x00201024 + a * 0x40000 + b * 0x100
/-- FS_MP_SIZE (R129). -/
def Reg.fsMpSize (a b : Nat) : Nat := 0x00201028 + a * 0x40000 + b * 0x100
/-- FS_MP_LEVEL (R129). -/
def Reg.fsMpLevel (a b : Nat) : Nat := 0x0020102C + a * 0x40000 + b * 0x100
/-- FS_MP_PEAK (R129). -/
def Reg.fsMpPeak (a b : Nat) : Nat := 0x00201030 + a * 0x40000 + b * 0x100
/-- CORE_STATUS (R226). -/
def Reg.coreStatus (a : Nat) : Nat := 0x01000000 + a * 0x40000
/-- CORE_INT_STATUS (R226). -/
def Reg.coreIntStatus (a : Nat) : Nat := 0x01000004 + a * 0x40000
/-- CORE_INT_ENABLE (R226). -/
def Reg.coreIntEnable (a : Nat) : Nat := 0x01000008 + a * 0x40000
/-- CORE_CTRL (R226). -/
def Reg.coreCtrl (a : Nat) : Nat := 0x0100000C + a * 0x40000
/-- CORE_FREQ_TARGET (R226). -/
def Reg.coreFreqTarget (a : Nat) : Nat := 0x01000010 + a * 0x40000
/-- CORE_FREQ_ACTUAL (R226). -/
def Reg.coreFreqActual (a : Nat) : Nat := 0x01000014 + a * 0x40000
/-- CORE_OPE_STATUS (R226). -/
def Reg.coreOpeStatus (a : Nat) : Nat := 0x01000020 + a * 0x40000
/-- CORE_TILE_TSN (R226). -/
def Reg.coreTileTsn (a : Nat) : Nat := 0x01000024 + a * 0x40000
/-- CORE_TILE_TAG (R226). -/
def Reg.coreTileTag (a : Nat) : Nat := 0x01000028 + a * 0x40000
/-- CORE_RESIDENT (R226). -/
def Reg.coreResident (a : Nat) : Nat := 0x0100002C + a * 0x40000
/-- OPE_COLMAP (R226). -/
def Reg.opeColmap (a b : Nat) : Nat := 0x01000040 + a * 0x40000 + b * 0x4
/-- CORE_CYCLES (R226). -/
def Reg.coreCycles (a : Nat) : Nat := 0x01000100 + a * 0x40000
/-- CORE_LOAD_CYCLES (R226). -/
def Reg.coreLoadCycles (a : Nat) : Nat := 0x01000108 + a * 0x40000
/-- CORE_COMPUTE_CYCLES (R226). -/
def Reg.coreComputeCycles (a : Nat) : Nat := 0x01000110 + a * 0x40000
/-- CORE_WRITEOUT_CYCLES (R226). -/
def Reg.coreWriteoutCycles (a : Nat) : Nat := 0x01000118 + a * 0x40000
/-- CORE_MAC_COUNT (R226). -/
def Reg.coreMacCount (a : Nat) : Nat := 0x01000120 + a * 0x40000
/-- CORE_SAND_CYCLES (R226). -/
def Reg.coreSandCycles (a : Nat) : Nat := 0x01000128 + a * 0x40000
/-- CORE_PARTIAL_STALL (R226). -/
def Reg.corePartialStall (a : Nat) : Nat := 0x01000130 + a * 0x40000
/-- CORE_FULL_STALL (R226). -/
def Reg.coreFullStall (a : Nat) : Nat := 0x01000138 + a * 0x40000
/-- CORE_BANK_CONFLICTS (R226). -/
def Reg.coreBankConflicts (a : Nat) : Nat := 0x01000140 + a * 0x40000
/-- CORE_STATIONARY_LOADS (R226). -/
def Reg.coreStationaryLoads (a : Nat) : Nat := 0x01000148 + a * 0x40000
/-- CORE_DRAIN_WAIT (R226). -/
def Reg.coreDrainWait (a : Nat) : Nat := 0x01000150 + a * 0x40000
/-- CORE_TILES_RUN (R226). -/
def Reg.coreTilesRun (a : Nat) : Nat := 0x01000158 + a * 0x40000
/-- CORE_TILES_ABANDONED (R226). -/
def Reg.coreTilesAbandoned (a : Nat) : Nat := 0x01000160 + a * 0x40000
/-- CORE_RESIDENT_HITS (R226). -/
def Reg.coreResidentHits (a : Nat) : Nat := 0x01000168 + a * 0x40000
/-- CORE_TM_CORRECTED (R226). -/
def Reg.coreTmCorrected (a : Nat) : Nat := 0x01000170 + a * 0x40000
/-- CORE_TM_UNCORR (R226). -/
def Reg.coreTmUncorr (a : Nat) : Nat := 0x01000178 + a * 0x40000
/-- CORE_ACC_PARITY (R226). -/
def Reg.coreAccParity (a : Nat) : Nat := 0x01000180 + a * 0x40000
/-- CORE_VEC_SAT (R226). -/
def Reg.coreVecSat (a : Nat) : Nat := 0x01000188 + a * 0x40000
/-- CORE_TM_ADDR (R226). -/
def Reg.coreTmAddr (a : Nat) : Nat := 0x01000200 + a * 0x40000
/-- CORE_TM_DATA (R226). -/
def Reg.coreTmData (a : Nat) : Nat := 0x01000204 + a * 0x40000
/-- CORE_TM_STATUS (R226). -/
def Reg.coreTmStatus (a : Nat) : Nat := 0x01000208 + a * 0x40000
/-- CORE_RESCALE_DESC (R226). -/
def Reg.coreRescaleDesc (a b : Nat) : Nat := 0x01001000 + a * 0x40000 + b * 0x8
/-- DET_STATUS (R298). -/
def Reg.detStatus : Nat := 0x02500000
/-- DET_INT_STATUS (R298). -/
def Reg.detIntStatus : Nat := 0x02500004
/-- DET_INT_ENABLE (R298). -/
def Reg.detIntEnable : Nat := 0x02500008
/-- DET_LAST_LSN_LO (R298). -/
def Reg.detLastLsnLo : Nat := 0x0250000C
/-- DET_LAST_LSN_HI (R298). -/
def Reg.detLastLsnHi : Nat := 0x02500010
/-- DET_CANDIDATES (R298). -/
def Reg.detCandidates : Nat := 0x02500020
/-- DET_CAND_DISCARDED (R298). -/
def Reg.detCandDiscarded : Nat := 0x02500024
/-- DET_SUPPRESSED (R298). -/
def Reg.detSuppressed : Nat := 0x02500028
/-- DET_KEEP_TRUNC (R298). -/
def Reg.detKeepTrunc : Nat := 0x0250002C
/-- DET_BORDER_SENT (R298). -/
def Reg.detBorderSent : Nat := 0x02500030
/-- DET_BORDER_DROPPED (R298). -/
def Reg.detBorderDropped : Nat := 0x02500034
/-- DET_UNMERGED_GROUPS (R298). -/
def Reg.detUnmergedGroups : Nat := 0x02500038
/-- DET_LATE_BOXES (R298). -/
def Reg.detLateBoxes : Nat := 0x0250003C
/-- DET_CONTINUES (R298). -/
def Reg.detContinues : Nat := 0x02500040
/-- DET_ANCHOR_ERR (R298). -/
def Reg.detAnchorErr : Nat := 0x02500044
/-- DET_SLOT_PEAK (R298). -/
def Reg.detSlotPeak : Nat := 0x02500048
/-- DET_SUPPRESS_MAX (R298). -/
def Reg.detSuppressMax : Nat := 0x0250004C
/-- CTX_STATUS (R330). -/
def Reg.ctxStatus : Nat := 0x02400000
/-- CTX_INT_STATUS (R330). -/
def Reg.ctxIntStatus : Nat := 0x02400004
/-- CTX_INT_ENABLE (R330). -/
def Reg.ctxIntEnable : Nat := 0x02400008
/-- CTX_CLEAR (R330). -/
def Reg.ctxClear : Nat := 0x0240000C
/-- CTX_CLEAR_STATUS (R330). -/
def Reg.ctxClearStatus : Nat := 0x02400010
/-- CTX_LAT_MAX (R330). -/
def Reg.ctxLatMax : Nat := 0x02400014
/-- CTX_STAGE_PEAK (R330). -/
def Reg.ctxStagePeak : Nat := 0x02400018
/-- CTX_LOOKUPS (R330). -/
def Reg.ctxLookups : Nat := 0x02400020
/-- CTX_HITS (R330). -/
def Reg.ctxHits : Nat := 0x02400024
/-- CTX_UPDATES (R330). -/
def Reg.ctxUpdates : Nat := 0x02400028
/-- CTX_SKIPPED (R330). -/
def Reg.ctxSkipped : Nat := 0x0240002C
/-- CTX_SATURATED (R330). -/
def Reg.ctxSaturated : Nat := 0x02400030
/-- CTX_STAGE_OVF (R330). -/
def Reg.ctxStageOvf : Nat := 0x02400034
/-- CTX_DISCARDED (R330). -/
def Reg.ctxDiscarded : Nat := 0x02400038
/-- CTX_ECC (R330). -/
def Reg.ctxEcc : Nat := 0x0240003C
/-- CTX_TOK_MISSING (R330). -/
def Reg.ctxTokMissing : Nat := 0x02400040
/-- CTX_TOK_LATE (R330). -/
def Reg.ctxTokLate : Nat := 0x02400044
/-- CTX_STATE_STALE (R330). -/
def Reg.ctxStateStale : Nat := 0x02400048
/-- CTX_STATE_NONE (R330). -/
def Reg.ctxStateNone : Nat := 0x0240004C
/-- CTX_PHASE (R330). -/
def Reg.ctxPhase (a : Nat) : Nat := 0x02400100 + a * 0x4
/-- STREAM_STATUS (R364). -/
def Reg.streamStatus : Nat := 0x02000000
/-- STREAM_INT_STATUS (R364). -/
def Reg.streamIntStatus : Nat := 0x02000004
/-- STREAM_INT_ENABLE (R364). -/
def Reg.streamIntEnable : Nat := 0x02000008
/-- STREAM_CTRL (R364). -/
def Reg.streamCtrl : Nat := 0x0200000C
/-- STREAM_SPOOL_BASE_LO (R364). -/
def Reg.streamSpoolBaseLo : Nat := 0x02000010
/-- STREAM_SPOOL_BASE_HI (R364). -/
def Reg.streamSpoolBaseHi : Nat := 0x02000014
/-- STREAM_SPOOL_LEVEL (R364). -/
def Reg.streamSpoolLevel : Nat := 0x02000018
/-- STREAM_PUB_BASE (R364). -/
def Reg.streamPubBase : Nat := 0x0200001C
/-- STREAM_PUB_COUNT (R364). -/
def Reg.streamPubCount : Nat := 0x02000020
/-- STREAM_COPY_DESC_LO (R364). -/
def Reg.streamCopyDescLo : Nat := 0x02000030
/-- STREAM_COPY_DESC_HI (R364). -/
def Reg.streamCopyDescHi : Nat := 0x02000034
/-- STREAM_COPY_CMD (R364). -/
def Reg.streamCopyCmd : Nat := 0x02000038
/-- STREAM_COPY_STATUS (R364). -/
def Reg.streamCopyStatus : Nat := 0x0200003C
/-- STREAM_BYTES_READ (R364). -/
def Reg.streamBytesRead : Nat := 0x02000100
/-- STREAM_BYTES_WRITTEN (R364). -/
def Reg.streamBytesWritten : Nat := 0x02000108
/-- STREAM_MERGED (R364). -/
def Reg.streamMerged : Nat := 0x02000110
/-- STREAM_DISCARD_BYTES (R364). -/
def Reg.streamDiscardBytes : Nat := 0x02000118
/-- STREAM_MCAST_ROUNDS (R364). -/
def Reg.streamMcastRounds : Nat := 0x02000120
/-- STREAM_MCAST_CUTOUT (R364). -/
def Reg.streamMcastCutout : Nat := 0x02000128
/-- STREAM_UNICAST_REFETCH (R364). -/
def Reg.streamUnicastRefetch : Nat := 0x02000130
/-- STREAM_LATE_FILLS (R364). -/
def Reg.streamLateFills : Nat := 0x02000138
/-- STREAM_SPOOL_BYTES (R364). -/
def Reg.streamSpoolBytes : Nat := 0x02000140
/-- STREAM_RUNAHEAD_STOPS (R364). -/
def Reg.streamRunaheadStops : Nat := 0x02000148
/-- EXT_LAND_BASE (R364). -/
def Reg.extLandBase (a : Nat) : Nat := 0x02001000 + a * 0x40
/-- EXT_LAND_SLOTS (R364). -/
def Reg.extLandSlots (a : Nat) : Nat := 0x02001004 + a * 0x40
/-- EXT_BASE_LO (R364). -/
def Reg.extBaseLo (a : Nat) : Nat := 0x02001008 + a * 0x40
/-- EXT_BASE_HI (R364). -/
def Reg.extBaseHi (a : Nat) : Nat := 0x0200100C + a * 0x40
/-- EXT_SLOTS (R364). -/
def Reg.extSlots (a : Nat) : Nat := 0x02001010 + a * 0x40
/-- RING_KEEP (R364). -/
def Reg.ringKeep (a : Nat) : Nat := 0x02001014 + a * 0x40
/-- EXT_LEVEL (R364). -/
def Reg.extLevel (a : Nat) : Nat := 0x02001018 + a * 0x40
/-- EXT_PEAK (R364). -/
def Reg.extPeak (a : Nat) : Nat := 0x0200101C + a * 0x40
/-- OASIS_STATUS (R365). -/
def Reg.oasisStatus : Nat := 0x02100000
/-- OASIS_INT_STATUS (R365). -/
def Reg.oasisIntStatus : Nat := 0x02100004
/-- OASIS_INT_ENABLE (R365). -/
def Reg.oasisIntEnable : Nat := 0x02100008
/-- OASIS_QPOWER (R365). -/
def Reg.oasisQpower : Nat := 0x0210000C
/-- OASIS_ERR_ADDR (R365). -/
def Reg.oasisErrAddr : Nat := 0x02100010
/-- OASIS_CORRECTED (R365). -/
def Reg.oasisCorrected : Nat := 0x02100100
/-- OASIS_UNCORR (R365). -/
def Reg.oasisUncorr : Nat := 0x02100108
/-- OASIS_MERGED (R365). -/
def Reg.oasisMerged : Nat := 0x02100110
/-- OASIS_PROMOTED (R365). -/
def Reg.oasisPromoted : Nat := 0x02100118
/-- DRAMC_STATUS (R366). -/
def Reg.dramcStatus : Nat := 0x02200000
/-- DRAMC_INT_STATUS (R366). -/
def Reg.dramcIntStatus : Nat := 0x02200004
/-- DRAMC_INT_ENABLE (R366). -/
def Reg.dramcIntEnable : Nat := 0x02200008
/-- DRAMC_SCRUB_CTRL (R366). -/
def Reg.dramcScrubCtrl : Nat := 0x0220000C
/-- DRAMC_SCRUB_PASS (R366). -/
def Reg.dramcScrubPass : Nat := 0x02200010
/-- DRAMC_ERR_ADDR_LO (R366). -/
def Reg.dramcErrAddrLo : Nat := 0x02200018
/-- DRAMC_ERR_ADDR_HI (R366). -/
def Reg.dramcErrAddrHi : Nat := 0x0220001C
/-- DRAMC_ERR_INFO (R366). -/
def Reg.dramcErrInfo : Nat := 0x02200020
/-- DRAMC_CH_CORRECTED (R366). -/
def Reg.dramcChCorrected (a : Nat) : Nat := 0x02201000 + a * 0x10
/-- DRAMC_CH_UNCORR (R366). -/
def Reg.dramcChUncorr (a : Nat) : Nat := 0x02201004 + a * 0x10
/-- DRAMC_CH_UTIL (R366). -/
def Reg.dramcChUtil (a : Nat) : Nat := 0x02201008 + a * 0x10
/-- CMD_STATUS (R405). -/
def Reg.cmdStatus : Nat := 0x02300000
/-- CMD_INT_STATUS (R405). -/
def Reg.cmdIntStatus : Nat := 0x02300004
/-- CMD_INT_ENABLE (R405). -/
def Reg.cmdIntEnable : Nat := 0x02300008
/-- CMD_ABORT (R405). -/
def Reg.cmdAbort : Nat := 0x02300010
/-- CMD_ABORT_STATUS (R405). -/
def Reg.cmdAbortStatus : Nat := 0x02300014
/-- CMD_EVT_BASE_LO (R405). -/
def Reg.cmdEvtBaseLo : Nat := 0x02300020
/-- CMD_EVT_BASE_HI (R405). -/
def Reg.cmdEvtBaseHi : Nat := 0x02300024
/-- CMD_EVT_SLOTS (R405). -/
def Reg.cmdEvtSlots : Nat := 0x02300028
/-- CMD_EVT_PI (R405). -/
def Reg.cmdEvtPi : Nat := 0x0230002C
/-- CMD_EVT_CI (R405). -/
def Reg.cmdEvtCi : Nat := 0x02300030
/-- CMD_EVT_MIRROR_LO (R405). -/
def Reg.cmdEvtMirrorLo : Nat := 0x02300034
/-- CMD_EVT_MIRROR_HI (R405). -/
def Reg.cmdEvtMirrorHi : Nat := 0x02300038
/-- CMD_STATS_PI (R405). -/
def Reg.cmdStatsPi : Nat := 0x02300040
/-- CMD_STATS_CI (R405). -/
def Reg.cmdStatsCi : Nat := 0x02300044
/-- CMD_STATS_MIRROR_LO (R405). -/
def Reg.cmdStatsMirrorLo : Nat := 0x02300048
/-- CMD_STATS_MIRROR_HI (R405). -/
def Reg.cmdStatsMirrorHi : Nat := 0x0230004C
/-- CMD_SYNC_INDEX (R405). -/
def Reg.cmdSyncIndex : Nat := 0x02300080
/-- CMD_SYNC_VALUE (R405). -/
def Reg.cmdSyncValue : Nat := 0x02300084
/-- CMD_SYNC_ADD (R405). -/
def Reg.cmdSyncAdd : Nat := 0x02300088
/-- CMD_LEASES_EXPIRED (R405). -/
def Reg.cmdLeasesExpired : Nat := 0x02300100
/-- CMD_REISSUED (R405). -/
def Reg.cmdReissued : Nat := 0x02300108
/-- CMD_DUP_DISCARDED (R405). -/
def Reg.cmdDupDiscarded : Nat := 0x02300110
/-- CMD_TILES_CANCELLED (R405). -/
def Reg.cmdTilesCancelled : Nat := 0x02300118
/-- CMD_HALO_SUBST (R405). -/
def Reg.cmdHaloSubst : Nat := 0x02300120
/-- CMD_EVENTS_LOST (R405). -/
def Reg.cmdEventsLost : Nat := 0x02300128
/-- CMD_COMPLETED (R405). -/
def Reg.cmdCompleted : Nat := 0x02300130
/-- CMD_REFUSED (R405). -/
def Reg.cmdRefused : Nat := 0x02300138
/-- CQ_BASE_LO (R405). -/
def Reg.cqBaseLo (a : Nat) : Nat := 0x02301000 + a * 0x40
/-- CQ_BASE_HI (R405). -/
def Reg.cqBaseHi (a : Nat) : Nat := 0x02301004 + a * 0x40
/-- CQ_SLOTS (R405). -/
def Reg.cqSlots (a : Nat) : Nat := 0x02301008 + a * 0x40
/-- CQ_PI (R405). -/
def Reg.cqPi (a : Nat) : Nat := 0x0230100C + a * 0x40
/-- CQ_CI (R405). -/
def Reg.cqCi (a : Nat) : Nat := 0x02301010 + a * 0x40
/-- CQ_STATUS (R405). -/
def Reg.cqStatus (a : Nat) : Nat := 0x02301014 + a * 0x40
/-- CQ_CTRL (R405). -/
def Reg.cqCtrl (a : Nat) : Nat := 0x02301018 + a * 0x40
/-- CC_SLOTS (R405). -/
def Reg.ccSlots (a : Nat) : Nat := 0x0230101C + a * 0x40
/-- CC_BASE_LO (R405). -/
def Reg.ccBaseLo (a : Nat) : Nat := 0x02301020 + a * 0x40
/-- CC_BASE_HI (R405). -/
def Reg.ccBaseHi (a : Nat) : Nat := 0x02301024 + a * 0x40
/-- CC_PI (R405). -/
def Reg.ccPi (a : Nat) : Nat := 0x02301028 + a * 0x40
/-- CC_CI (R405). -/
def Reg.ccCi (a : Nat) : Nat := 0x0230102C + a * 0x40
/-- CC_MIRROR_LO (R405). -/
def Reg.ccMirrorLo (a : Nat) : Nat := 0x02301030 + a * 0x40
/-- CC_MIRROR_HI (R405). -/
def Reg.ccMirrorHi (a : Nat) : Nat := 0x02301034 + a * 0x40
/-- RES_BASE_LO (R405). -/
def Reg.resBaseLo (a : Nat) : Nat := 0x02302000 + a * 0x40
/-- RES_BASE_HI (R405). -/
def Reg.resBaseHi (a : Nat) : Nat := 0x02302004 + a * 0x40
/-- RES_SLOTS (R405). -/
def Reg.resSlots (a : Nat) : Nat := 0x02302008 + a * 0x40
/-- RES_BODY_BYTES (R405). -/
def Reg.resBodyBytes (a : Nat) : Nat := 0x0230200C + a * 0x40
/-- RES_PI (R405). -/
def Reg.resPi (a : Nat) : Nat := 0x02302010 + a * 0x40
/-- RES_CI (R405). -/
def Reg.resCi (a : Nat) : Nat := 0x02302014 + a * 0x40
/-- RES_MIRROR_LO (R405). -/
def Reg.resMirrorLo (a : Nat) : Nat := 0x02302018 + a * 0x40
/-- RES_MIRROR_HI (R405). -/
def Reg.resMirrorHi (a : Nat) : Nat := 0x0230201C + a * 0x40
/-- RES_STATUS (R405). -/
def Reg.resStatus (a : Nat) : Nat := 0x02302020 + a * 0x40
/-- WELL_STATUS (R405). -/
def Reg.wellStatus (a : Nat) : Nat := 0x02304000 + a * 0x10
/-- WELL_NEXT_LO (R405). -/
def Reg.wellNextLo (a : Nat) : Nat := 0x02304004 + a * 0x10
/-- WELL_NEXT_HI (R405). -/
def Reg.wellNextHi (a : Nat) : Nat := 0x02304008 + a * 0x10
/-- WELL_REISSUE (R405). -/
def Reg.wellReissue (a : Nat) : Nat := 0x0230400C + a * 0x10
/-- SIDE_CHAIN (R435). -/
def Reg.sideChain : Nat := 0x02600000
/-- SIDE_INT_STATUS (R435). -/
def Reg.sideIntStatus : Nat := 0x02600004
/-- SIDE_INT_ENABLE (R435). -/
def Reg.sideIntEnable : Nat := 0x02600008
/-- LINK_STATUS (R435). -/
def Reg.linkStatus (a : Nat) : Nat := 0x02601000 + a * 0x400
/-- LINK_CTRL (R435). -/
def Reg.linkCtrl (a : Nat) : Nat := 0x02601004 + a * 0x400
/-- LINK_PARTNER (R435). -/
def Reg.linkPartner (a : Nat) : Nat := 0x02601008 + a * 0x400
/-- LINK_RTT (R435). -/
def Reg.linkRtt (a : Nat) : Nat := 0x0260100C + a * 0x400
/-- LINK_CREDITS (R435). -/
def Reg.linkCredits (a : Nat) : Nat := 0x02601010 + a * 0x400
/-- LINK_FLITS_TX (R435). -/
def Reg.linkFlitsTx (a : Nat) : Nat := 0x02601100 + a * 0x400
/-- LINK_FLITS_RX (R435). -/
def Reg.linkFlitsRx (a : Nat) : Nat := 0x02601108 + a * 0x400
/-- LINK_CRC_ERR (R435). -/
def Reg.linkCrcErr (a : Nat) : Nat := 0x02601110 + a * 0x400
/-- LINK_SEQ_ERR (R435). -/
def Reg.linkSeqErr (a : Nat) : Nat := 0x02601118 + a * 0x400
/-- LINK_REPLAYS (R435). -/
def Reg.linkReplays (a : Nat) : Nat := 0x02601120 + a * 0x400
/-- LINK_RETRAINS (R435). -/
def Reg.linkRetrains (a : Nat) : Nat := 0x02601128 + a * 0x400
/-- LINK_MSG_REFUSED (R435). -/
def Reg.linkMsgRefused (a : Nat) : Nat := 0x02601130 + a * 0x400
/-- LINK_LATE_MSGS (R435). -/
def Reg.linkLateMsgs (a : Nat) : Nat := 0x02601138 + a * 0x400
/-- LINK_MSG_DISCARDED (R435). -/
def Reg.linkMsgDiscarded (a : Nat) : Nat := 0x02601140 + a * 0x400
/-- HCH_CTRL (R435). -/
def Reg.hchCtrl (a b : Nat) : Nat := 0x02601200 + a * 0x400 + b * 0x20
/-- HCH_TX_BASE (R435). -/
def Reg.hchTxBase (a b : Nat) : Nat := 0x02601204 + a * 0x400 + b * 0x20
/-- HCH_RX_BASE (R435). -/
def Reg.hchRxBase (a b : Nat) : Nat := 0x02601208 + a * 0x400 + b * 0x20
/-- HCH_SLOT_BYTES (R435). -/
def Reg.hchSlotBytes (a b : Nat) : Nat := 0x0260120C + a * 0x400 + b * 0x20
/-- HCH_SYNC (R435). -/
def Reg.hchSync (a b : Nat) : Nat := 0x02601210 + a * 0x400 + b * 0x20
/-- HCH_LAST_TX (R435). -/
def Reg.hchLastTx (a b : Nat) : Nat := 0x02601214 + a * 0x400 + b * 0x20
/-- HCH_LAST_RX (R435). -/
def Reg.hchLastRx (a b : Nat) : Nat := 0x02601218 + a * 0x400 + b * 0x20
/-- HCH_ABSENT (R435). -/
def Reg.hchAbsent (a b : Nat) : Nat := 0x0260121C + a * 0x400 + b * 0x20
/-- GLB_OD_MB_CMD (R477). -/
def Reg.glbOdMbCmd : Nat := 0x00000400
/-- GLB_OD_MB_ADDR (R477). -/
def Reg.glbOdMbAddr : Nat := 0x00000404
/-- GLB_OD_MB_LEN (R477). -/
def Reg.glbOdMbLen : Nat := 0x00000408
/-- GLB_OD_MB_OFFSET (R477). -/
def Reg.glbOdMbOffset : Nat := 0x0000040C
/-- GLB_OD_MB_AT_LO (R477). -/
def Reg.glbOdMbAtLo : Nat := 0x00000410
/-- GLB_OD_MB_AT_HI (R477). -/
def Reg.glbOdMbAtHi : Nat := 0x00000414
/-- GLB_OD_MB_STATUS (R477). -/
def Reg.glbOdMbStatus : Nat := 0x00000418
/-- GLB_OD_MB_TOTAL (R477). -/
def Reg.glbOdMbTotal : Nat := 0x0000041C
/-- GLB_OD_W_STATUS (R477). -/
def Reg.glbOdWStatus : Nat := 0x00000420
/-- GLB_OD_W_COUNT (R477). -/
def Reg.glbOdWCount : Nat := 0x00000424
/-- GLB_OD_R_ERR (R477). -/
def Reg.glbOdRErr : Nat := 0x00000428
/-- GLB_OD_MB_DATA (R477). -/
def Reg.glbOdMbData (a : Nat) : Nat := 0x00001000 + a * 0x4
/-- CRV_STATUS (R481). -/
def Reg.crvStatus : Nat := 0x02700000
/-- CRV_INT_STATUS (R481). -/
def Reg.crvIntStatus : Nat := 0x02700004
/-- CRV_INT_ENABLE (R481). -/
def Reg.crvIntEnable : Nat := 0x02700008
/-- CRV_CYCLE (R481). -/
def Reg.crvCycle : Nat := 0x0270000C
/-- CRV_PERIOD (R481). -/
def Reg.crvPeriod : Nat := 0x02700010
/-- CRV_PATH_DELAY (R481). -/
def Reg.crvPathDelay : Nat := 0x02700014
/-- CRV_TIME_OFFSET (R481). -/
def Reg.crvTimeOffset : Nat := 0x02700018
/-- CRV_CTRL_MAC_LO (R481). -/
def Reg.crvCtrlMacLo : Nat := 0x0270001C
/-- CRV_CTRL_MAC_HI (R481). -/
def Reg.crvCtrlMacHi : Nat := 0x02700020
/-- CRV_SCHED (R481). -/
def Reg.crvSched : Nat := 0x02700024
/-- CRV_TICKETS (R481). -/
def Reg.crvTickets : Nat := 0x02700028
/-- CRV_FRAMES_OK (R481). -/
def Reg.crvFramesOk : Nat := 0x02700100
/-- CRV_FCS_ERR (R481). -/
def Reg.crvFcsErr : Nat := 0x02700108
/-- CRV_FRAME_REFUSED (R481). -/
def Reg.crvFrameRefused : Nat := 0x02700110
/-- CRV_FOREIGN (R481). -/
def Reg.crvForeign : Nat := 0x02700118
/-- CRV_SLOTS_FAST (R481). -/
def Reg.crvSlotsFast : Nat := 0x02700120
/-- CRV_SLOTS_SLOW (R481). -/
def Reg.crvSlotsSlow : Nat := 0x02700128
/-- CRV_SCHED_APPLIED (R481). -/
def Reg.crvSchedApplied : Nat := 0x02700130
/-- CRV_SCHED_REFUSED (R481). -/
def Reg.crvSchedRefused : Nat := 0x02700138
/-- CRV_SCHED_DISCARDED (R481). -/
def Reg.crvSchedDiscarded : Nat := 0x02700140
/-- CRV_OVERFLOW_DROP (R481). -/
def Reg.crvOverflowDrop : Nat := 0x02700148
/-- CRV_TICKETS_EXPIRED (R481). -/
def Reg.crvTicketsExpired : Nat := 0x02700150
/-- CRV_WATCHDOG_EXPIRED (R481). -/
def Reg.crvWatchdogExpired : Nat := 0x02700158
/-- GLB_IDENT (R507). -/
def Reg.glbIdent : Nat := 0x00000000
/-- GLB_STATE (R507). -/
def Reg.glbState : Nat := 0x00000004
/-- GLB_INT_STATUS (R507). -/
def Reg.glbIntStatus : Nat := 0x00000008
/-- GLB_INT_ENABLE (R507). -/
def Reg.glbIntEnable : Nat := 0x0000000C
/-- GLB_LINK (R507). -/
def Reg.glbLink : Nat := 0x00000010
/-- GLB_DMA_CTRL (R507). -/
def Reg.glbDmaCtrl : Nat := 0x00000014
/-- GLB_DMA_ERR_ADDR_LO (R507). -/
def Reg.glbDmaErrAddrLo : Nat := 0x00000018
/-- GLB_DMA_ERR_ADDR_HI (R507). -/
def Reg.glbDmaErrAddrHi : Nat := 0x0000001C
/-- GLB_DMA_ERR_INFO (R507). -/
def Reg.glbDmaErrInfo : Nat := 0x00000020
/-- GLB_IRQ_HOLDOFF (R507). -/
def Reg.glbIrqHoldoff : Nat := 0x00000030
/-- GLB_RING_IRQ (R507). -/
def Reg.glbRingIrq : Nat := 0x00000034
/-- GLB_RES_IRQ_LO (R507). -/
def Reg.glbResIrqLo : Nat := 0x00000038
/-- GLB_RES_IRQ_HI (R507). -/
def Reg.glbResIrqHi : Nat := 0x0000003C
/-- GLB_OASIS_WIN (R507). -/
def Reg.glbOasisWin : Nat := 0x00000040
/-- GLB_PTM_CTRL (R507). -/
def Reg.glbPtmCtrl : Nat := 0x00000050
/-- GLB_PTM_OFFSET (R507). -/
def Reg.glbPtmOffset : Nat := 0x00000054
/-- GLB_PTM_DELAY (R507). -/
def Reg.glbPtmDelay : Nat := 0x00000058
/-- GLB_PTM_FAILS (R507). -/
def Reg.glbPtmFails : Nat := 0x0000005C
/-- GLB_RESET (R507). -/
def Reg.glbReset : Nat := 0x00000070
/-- GLB_RESET_STATUS (R507). -/
def Reg.glbResetStatus : Nat := 0x00000074
/-- GLB_SCRATCH (R507). -/
def Reg.glbScratch : Nat := 0x00000080
/-- GLB_DMA_WR_BYTES (R507). -/
def Reg.glbDmaWrBytes : Nat := 0x00000100
/-- GLB_DMA_RD_BYTES (R507). -/
def Reg.glbDmaRdBytes : Nat := 0x00000108
/-- GLB_DMA_ERRORS (R507). -/
def Reg.glbDmaErrors : Nat := 0x00000110
/-- GLB_MSIX_SENT (R507). -/
def Reg.glbMsixSent : Nat := 0x00000118
/-- TRIM_STATUS (R533). -/
def Reg.trimStatus : Nat := 0x02800000
/-- TRIM_INT_STATUS (R533). -/
def Reg.trimIntStatus : Nat := 0x02800004
/-- TRIM_INT_ENABLE (R533). -/
def Reg.trimIntEnable : Nat := 0x02800008
/-- TRIM_CMD (R533). -/
def Reg.trimCmd : Nat := 0x02800010
/-- TRIM_CMD_STATUS (R533). -/
def Reg.trimCmdStatus : Nat := 0x02800014
/-- TRIM_DUE (R533). -/
def Reg.trimDue (a : Nat) : Nat := 0x02800020 + a * 0x4
/-- TRIM_D2D_ERR (R533). -/
def Reg.trimD2dErr (a : Nat) : Nat := 0x02800040 + a * 0x4
/-- TRIM_LAST_ITEM (R533). -/
def Reg.trimLastItem : Nat := 0x02800060
/-- TRIM_ITEMS_DONE (R533). -/
def Reg.trimItemsDone : Nat := 0x02800100
/-- TRIM_FORCED (R533). -/
def Reg.trimForced : Nat := 0x02800108
/-- TRIM_OVERDUE_EVENTS (R533). -/
def Reg.trimOverdueEvents : Nat := 0x02800110
/-- TRIM_OUT_NS (R533). -/
def Reg.trimOutNs : Nat := 0x02800118
/-- FF_STATUS (R533). -/
def Reg.ffStatus (a : Nat) : Nat := 0x02800400 + a * 0x10
/-- FF_RAMP_LSN_LO (R533). -/
def Reg.ffRampLsnLo (a : Nat) : Nat := 0x02800404 + a * 0x10
/-- FF_RAMP_LSN_HI (R533). -/
def Reg.ffRampLsnHi (a : Nat) : Nat := 0x02800408 + a * 0x10
/-- FF_CLAMPED_LAST (R533). -/
def Reg.ffClampedLast (a : Nat) : Nat := 0x0280040C + a * 0x10
/-- PWR_STATUS (R561). -/
def Reg.pwrStatus : Nat := 0x02900000
/-- PWR_INT_STATUS (R561). -/
def Reg.pwrIntStatus : Nat := 0x02900004
/-- PWR_INT_ENABLE (R561). -/
def Reg.pwrIntEnable : Nat := 0x02900008
/-- PWR_VDD (R561). -/
def Reg.pwrVdd : Nat := 0x0290000C
/-- PWR_CORE_DOMAINS (R561). -/
def Reg.pwrCoreDomains : Nat := 0x02900010
/-- PWR_OTHER_DOMAINS (R561). -/
def Reg.pwrOtherDomains : Nat := 0x02900014
/-- PWR_CAP (R561). -/
def Reg.pwrCap : Nat := 0x02900018
/-- PWR_CAP2 (R561). -/
def Reg.pwrCap2 : Nat := 0x0290001C
/-- PWR_RESET_REASON (R561). -/
def Reg.pwrResetReason : Nat := 0x02900020
/-- PWR_POWER (R561). -/
def Reg.pwrPower : Nat := 0x02900024
/-- PWR_WARN_LAST (R561). -/
def Reg.pwrWarnLast : Nat := 0x02900028
/-- PWR_WARN_COUNT (R561). -/
def Reg.pwrWarnCount : Nat := 0x02900100
/-- PWR_STRETCH_NS (R561). -/
def Reg.pwrStretchNs : Nat := 0x02900108
/-- PWR_LIMIT_NS (R561). -/
def Reg.pwrLimitNs : Nat := 0x02900110
/-- PWR_THERM_NS (R561). -/
def Reg.pwrThermNs : Nat := 0x02900118
/-- PWR_TSENSE (R561). -/
def Reg.pwrTsense (a : Nat) : Nat := 0x02900200 + a * 0x4
/-- PWR_TSTACK (R561). -/
def Reg.pwrTstack (a : Nat) : Nat := 0x02900300 + a * 0x4
/-- SAF_STATUS (R592). -/
def Reg.safStatus : Nat := 0x02A00000
/-- SAF_INT_STATUS (R592). -/
def Reg.safIntStatus : Nat := 0x02A00004
/-- SAF_INT_ENABLE (R592). -/
def Reg.safIntEnable : Nat := 0x02A00008
/-- SAF_CMD (R592). -/
def Reg.safCmd : Nat := 0x02A00010
/-- SAF_CMD_STATUS (R592). -/
def Reg.safCmdStatus : Nat := 0x02A00014
/-- SAF_LOAD_ADDR (R592). -/
def Reg.safLoadAddr : Nat := 0x02A00018
/-- SAF_LOAD_LEN (R592). -/
def Reg.safLoadLen : Nat := 0x02A0001C
/-- SAF_AUTH_RESULT (R592). -/
def Reg.safAuthResult : Nat := 0x02A00020
/-- SAF_SEC (R592). -/
def Reg.safSec : Nat := 0x02A00024
/-- SAF_BOOT_COUNT (R592). -/
def Reg.safBootCount : Nat := 0x02A00028
/-- SAF_NONCE (R592). -/
def Reg.safNonce (a : Nat) : Nat := 0x02A00100 + a * 0x4
/-- SAF_IMAGE_DIGEST (R592). -/
def Reg.safImageDigest (a : Nat) : Nat := 0x02A00200 + a * 0x4
/-- LEDGER_STATUS (R593). -/
def Reg.ledgerStatus : Nat := 0x02B00000
/-- LEDGER_INT_STATUS (R593). -/
def Reg.ledgerIntStatus : Nat := 0x02B00004
/-- LEDGER_INT_ENABLE (R593). -/
def Reg.ledgerIntEnable : Nat := 0x02B00008
/-- LEDGER_HEAD_SEQ_LO (R593). -/
def Reg.ledgerHeadSeqLo : Nat := 0x02B00010
/-- LEDGER_HEAD_SEQ_HI (R593). -/
def Reg.ledgerHeadSeqHi : Nat := 0x02B00014
/-- LEDGER_UNRETIRED (R593). -/
def Reg.ledgerUnretired : Nat := 0x02B00018
/-- LEDGER_SPILL_PI (R593). -/
def Reg.ledgerSpillPi : Nat := 0x02B00020
/-- LEDGER_SPILL_CI (R593). -/
def Reg.ledgerSpillCi : Nat := 0x02B00024
/-- LEDGER_SPILL_MIRROR_LO (R593). -/
def Reg.ledgerSpillMirrorLo : Nat := 0x02B00028
/-- LEDGER_SPILL_MIRROR_HI (R593). -/
def Reg.ledgerSpillMirrorHi : Nat := 0x02B0002C
/-- LEDGER_ACK_SEQ_LO (R593). -/
def Reg.ledgerAckSeqLo : Nat := 0x02B00030
/-- LEDGER_ACK_SEQ_HI (R593). -/
def Reg.ledgerAckSeqHi : Nat := 0x02B00034
/-- LEDGER_READ_SEQ_LO (R593). -/
def Reg.ledgerReadSeqLo : Nat := 0x02B00040
/-- LEDGER_READ_SEQ_HI (R593). -/
def Reg.ledgerReadSeqHi : Nat := 0x02B00044
/-- LEDGER_READ_STATUS (R593). -/
def Reg.ledgerReadStatus : Nat := 0x02B00048
/-- LEDGER_HEAD_HASH (R593). -/
def Reg.ledgerHeadHash (a : Nat) : Nat := 0x02B00100 + a * 0x4
/-- LEDGER_ENTRIES (R593). -/
def Reg.ledgerEntries : Nat := 0x02B00200
/-- LEDGER_SPILLED (R593). -/
def Reg.ledgerSpilled : Nat := 0x02B00208
/-- LEDGER_LOST (R593). -/
def Reg.ledgerLost : Nat := 0x02B00210
/-- LEDGER_READ_WINDOW (R593). -/
def Reg.ledgerReadWindow (a : Nat) : Nat := 0x02B01000 + a * 0x4

/-- The rows of R96's block. -/
def regRowsR96 : List RegRow :=
  [⟨0x00100000, [(16, 0x10000)], .ro, 0x0, 0x0, 4, .keep, false⟩,
   ⟨0x00100004, [(16, 0x10000)], .ro, 0x0, 0x0, 4, .keep, false⟩,
   ⟨0x00100008, [(16, 0x10000)], .w1c, 0x0, 0xFFF, 4, .keep, false⟩,
   ⟨0x0010000C, [(16, 0x10000)], .rw, 0x0, 0xFFF, 4, .keep, false⟩,
   ⟨0x00100010, [(16, 0x10000)], .ro, 0x0, 0x0, 4, .keep, false⟩,
   ⟨0x00100014, [(16, 0x10000)], .rc, 0x0, 0x0, 4, .keep, false⟩,
   ⟨0x00100018, [(16, 0x10000)], .ro, 0x0, 0x0, 4, .keep, false⟩,
   ⟨0x00100020, [(16, 0x10000)], .ro, 0x0, 0x0, 4, .armed, false⟩,
   ⟨0x00100024, [(16, 0x10000)], .ro, 0x0, 0x0, 4, .armed, false⟩,
   ⟨0x00100028, [(16, 0x10000)], .ro, 0x0, 0x0, 4, .armed, false⟩,
   ⟨0x0010002C, [(16, 0x10000)], .ro, 0x0, 0x0, 4, .armed, false⟩,
   ⟨0x00100030, [(16, 0x10000)], .ro, 0x0, 0x0, 4, .armed, false⟩,
   ⟨0x00100034, [(16, 0x10000)], .ro, 0x0, 0x0, 4, .armed, false⟩,
   ⟨0x00100038, [(16, 0x10000)], .ro, 0x0, 0x0, 4, .armed, false⟩,
   ⟨0x0010003C, [(16, 0x10000)], .ro, 0x0, 0x0, 4, .armed, false⟩,
   ⟨0x00100040, [(16, 0x10000)], .ro, 0x0, 0x0, 4, .armed, false⟩,
   ⟨0x00100044, [(16, 0x10000)], .ro, 0x0, 0x0, 4, .armed, false⟩,
   ⟨0x00100048, [(16, 0x10000)], .ro, 0x0, 0x0, 4, .armed, false⟩,
   ⟨0x0010004C, [(16, 0x10000)], .ro, 0x0, 0x0, 4, .armed, false⟩,
   ⟨0x00100050, [(16, 0x10000)], .ro, 0x0, 0x0, 4, .armed, false⟩,
   ⟨0x00100054, [(16, 0x10000), (4, 0x4)], .ro, 0x0, 0x0, 4, .armed, false⟩,
   ⟨0x00100064, [(16, 0x10000)], .ro, 0x0, 0x0, 4, .armed, false⟩,
   ⟨0x00100068, [(16, 0x10000)], .ro, 0x0, 0x0, 4, .armed, false⟩,
   ⟨0x0010006C, [(16, 0x10000)], .ro, 0x0, 0x0, 4, .armed, false⟩] ++
  [⟨0x00100080, [(16, 0x10000)], .rw, 0x0, 0xFFFFFFFF, 4, .keep, false⟩,
   ⟨0x00100084, [(16, 0x10000)], .rw, 0x4, 0xFFFFFFFF, 4, .keep, false⟩,
   ⟨0x00100088, [(16, 0x10000)], .wo, 0x0, 0xFFFFFFFF, 4, .keep, false⟩,
   ⟨0x0010008C, [(16, 0x10000)], .ro, 0x0, 0x0, 4, .keep, false⟩,
   ⟨0x00100100, [(16, 0x10000), (16, 0x4)], .rw, 0x0, 0xFFFFFFFF, 4, .keep, false⟩]

/-- The rows of R129's block. -/
def regRowsR129 : List RegRow :=
  [⟨0x00200000, [(4, 0x40000)], .ro, 0x0, 0x0, 4, .keep, false⟩,
   ⟨0x00200004, [(4, 0x40000)], .w1c, 0x0, 0xFF, 4, .keep, false⟩,
   ⟨0x00200008, [(4, 0x40000)], .rw, 0x0, 0xFF, 4, .keep, false⟩,
   ⟨0x00200010, [(4, 0x40000)], .rc, 0x0, 0x0, 4, .keep, false⟩,
   ⟨0x00200014, [(4, 0x40000)], .ro, 0x0, 0x0, 4, .armed, false⟩,
   ⟨0x00200018, [(4, 0x40000)], .ro, 0x0, 0x0, 4, .armed, false⟩,
   ⟨0x0020001C, [(4, 0x40000)], .ro, 0x0, 0x0, 4, .armed, false⟩,
   ⟨0x00200020, [(4, 0x40000)], .rc, 0x0, 0x0, 4, .keep, false⟩,
   ⟨0x00200100, [(4, 0x40000)], .rw, 0x0, 0x103, 4, .keep, false⟩,
   ⟨0x00200104, [(4, 0x40000)], .rw, 0x0, 0x1FFFF, 4, .keep, false⟩,
   ⟨0x00200108, [(4, 0x40000)], .rw, 0x0, 0xFFFFFFFF, 4, .keep, false⟩,
   ⟨0x0020010C, [(4, 0x40000)], .wo, 0x0, 0xF, 4, .keep, false⟩,
   ⟨0x00200110, [(4, 0x40000)], .ro, 0x0, 0x0, 4, .keep, false⟩,
   ⟨0x00201000, [(4, 0x40000), (4, 0x100)], .rw, 0x0, 0x3FFFFC0, 4, .keep, true⟩,
   ⟨0x00201004, [(4, 0x40000), (4, 0x100)], .rw, 0x0, 0xFFFFFFFF, 4, .keep, true⟩,
   ⟨0x00201008, [(4, 0x40000), (4, 0x100)], .rw, 0x0, 0xFFFFFFFF, 4, .keep, true⟩,
   ⟨0x0020100C, [(4, 0x40000), (4, 0x100)], .rw, 0x0, 0x3FFFFF0, 4, .keep, true⟩,
   ⟨0x00201010, [(4, 0x40000), (4, 0x100)], .ro, 0x0, 0x0, 4, .keep, true⟩,
   ⟨0x00201018, [(4, 0x40000), (4, 0x100)], .ro, 0x0, 0x0, 4, .keep, true⟩,
   ⟨0x0020101C, [(4, 0x40000), (4, 0x100)], .ro, 0x0, 0x0, 4, .keep, true⟩,
   ⟨0x00201020, [(4, 0x40000), (4, 0x100)], .rw, 0x0, 0xFFFFF000, 4, .keep, true⟩,
   ⟨0x00201024, [(4, 0x40000), (4, 0x100)], .rw, 0x0, 0x7, 4, .keep, true⟩,
   ⟨0x00201028, [(4, 0x40000), (4, 0x100)], .rw, 0x40, 0xFFFFFFFF, 4, .keep, true⟩,
   ⟨0x0020102C, [(4, 0x40000), (4, 0x100)], .ro, 0x0, 0x0, 4, .keep, true⟩] ++
  [⟨0x00201030, [(4, 0x40000), (4, 0x100)], .rc, 0x0, 0x0, 4, .keep, true⟩]

/-- The rows of R226's block. -/
def regRowsR226 : List RegRow :=
  [⟨0x01000000, [(32, 0x40000)], .ro, 0x0, 0x0, 4, .keep, false⟩,
   ⟨0x01000004, [(32, 0x40000)], .w1c, 0x0, 0x7F, 4, .keep, false⟩,
   ⟨0x01000008, [(32, 0x40000)], .rw, 0x0, 0x7F, 4, .keep, false⟩,
   ⟨0x0100000C, [(32, 0x40000)], .rw, 0x0, 0x1, 4, .keep, false⟩,
   ⟨0x01000010, [(32, 0x40000)], .rw, 0x898, 0xFFF, 4, .keep, false⟩,
   ⟨0x01000014, [(32, 0x40000)], .ro, 0x0, 0x0, 4, .keep, false⟩,
   ⟨0x01000020, [(32, 0x40000)], .ro, 0x0, 0x0, 4, .keep, false⟩,
   ⟨0x01000024, [(32, 0x40000)], .ro, 0x0, 0x0, 4, .keep, false⟩,
   ⟨0x01000028, [(32, 0x40000)], .ro, 0x0, 0x0, 4, .keep, false⟩,
   ⟨0x0100002C, [(32, 0x40000)], .ro, 0x0, 0x0, 4, .keep, false⟩,
   ⟨0x01000040, [(32, 0x40000), (8, 0x4)], .ro, 0x0, 0x0, 4, .keep, false⟩,
   ⟨0x01000100, [(32, 0x40000)], .ro, 0x0, 0x0, 8, .armed, false⟩,
   ⟨0x01000108, [(32, 0x40000)], .ro, 0x0, 0x0, 8, .armed, false⟩,
   ⟨0x01000110, [(32, 0x40000)], .ro, 0x0, 0x0, 8, .armed, false⟩,
   ⟨0x01000118, [(32, 0x40000)], .ro, 0x0, 0x0, 8, .armed, false⟩,
   ⟨0x01000120, [(32, 0x40000)], .ro, 0x0, 0x0, 8, .armed, false⟩,
   ⟨0x01000128, [(32, 0x40000)], .ro, 0x0, 0x0, 8, .armed, false⟩,
   ⟨0x01000130, [(32, 0x40000)], .ro, 0x0, 0x0, 8, .armed, false⟩,
   ⟨0x01000138, [(32, 0x40000)], .ro, 0x0, 0x0, 8, .armed, false⟩,
   ⟨0x01000140, [(32, 0x40000)], .ro, 0x0, 0x0, 8, .armed, false⟩,
   ⟨0x01000148, [(32, 0x40000)], .ro, 0x0, 0x0, 8, .armed, false⟩,
   ⟨0x01000150, [(32, 0x40000)], .ro, 0x0, 0x0, 8, .armed, false⟩,
   ⟨0x01000158, [(32, 0x40000)], .ro, 0x0, 0x0, 8, .armed, false⟩,
   ⟨0x01000160, [(32, 0x40000)], .ro, 0x0, 0x0, 8, .armed, false⟩] ++
  [⟨0x01000168, [(32, 0x40000)], .ro, 0x0, 0x0, 8, .armed, false⟩,
   ⟨0x01000170, [(32, 0x40000)], .ro, 0x0, 0x0, 8, .armed, false⟩,
   ⟨0x01000178, [(32, 0x40000)], .ro, 0x0, 0x0, 8, .armed, false⟩,
   ⟨0x01000180, [(32, 0x40000)], .ro, 0x0, 0x0, 8, .armed, false⟩,
   ⟨0x01000188, [(32, 0x40000)], .ro, 0x0, 0x0, 8, .armed, false⟩,
   ⟨0x01000200, [(32, 0x40000)], .rw, 0x0, 0x3FFFFC, 4, .keep, false⟩,
   ⟨0x01000204, [(32, 0x40000)], .rw, 0x0, 0xFFFFFFFF, 4, .keep, false⟩,
   ⟨0x01000208, [(32, 0x40000)], .ro, 0x0, 0x0, 4, .keep, false⟩,
   ⟨0x01001000, [(32, 0x40000), (64, 0x8)], .ro, 0x0, 0x0, 8, .keep, false⟩]

/-- The rows of R298's block. -/
def regRowsR298 : List RegRow :=
  [⟨0x02500000, [], .ro, 0x0, 0x0, 4, .keep, false⟩,
   ⟨0x02500004, [], .w1c, 0x0, 0x1F, 4, .keep, false⟩,
   ⟨0x02500008, [], .rw, 0x0, 0x1F, 4, .keep, false⟩,
   ⟨0x0250000C, [], .ro, 0x0, 0x0, 4, .keep, false⟩,
   ⟨0x02500010, [], .ro, 0x0, 0x0, 4, .keep, false⟩,
   ⟨0x02500020, [], .ro, 0x0, 0x0, 4, .armed, false⟩,
   ⟨0x02500024, [], .ro, 0x0, 0x0, 4, .armed, false⟩,
   ⟨0x02500028, [], .ro, 0x0, 0x0, 4, .armed, false⟩,
   ⟨0x0250002C, [], .ro, 0x0, 0x0, 4, .armed, false⟩,
   ⟨0x02500030, [], .ro, 0x0, 0x0, 4, .armed, false⟩,
   ⟨0x02500034, [], .ro, 0x0, 0x0, 4, .armed, false⟩,
   ⟨0x02500038, [], .ro, 0x0, 0x0, 4, .armed, false⟩,
   ⟨0x0250003C, [], .ro, 0x0, 0x0, 4, .armed, false⟩,
   ⟨0x02500040, [], .ro, 0x0, 0x0, 4, .armed, false⟩,
   ⟨0x02500044, [], .ro, 0x0, 0x0, 4, .armed, false⟩,
   ⟨0x02500048, [], .ro, 0x0, 0x0, 4, .armed, false⟩,
   ⟨0x0250004C, [], .rc, 0x0, 0x0, 4, .keep, false⟩]

/-- The rows of R330's block. -/
def regRowsR330 : List RegRow :=
  [⟨0x02400000, [], .ro, 0x0, 0x0, 4, .keep, false⟩,
   ⟨0x02400004, [], .w1c, 0x0, 0x3FF, 4, .keep, false⟩,
   ⟨0x02400008, [], .rw, 0x0, 0x3FF, 4, .keep, false⟩,
   ⟨0x0240000C, [], .wo, 0x0, 0xFF, 4, .keep, false⟩,
   ⟨0x02400010, [], .ro, 0x0, 0x0, 4, .keep, false⟩,
   ⟨0x02400014, [], .rc, 0x0, 0x0, 4, .keep, false⟩,
   ⟨0x02400018, [], .rc, 0x0, 0x0, 4, .keep, false⟩,
   ⟨0x02400020, [], .ro, 0x0, 0x0, 4, .armed, false⟩,
   ⟨0x02400024, [], .ro, 0x0, 0x0, 4, .armed, false⟩,
   ⟨0x02400028, [], .ro, 0x0, 0x0, 4, .armed, false⟩,
   ⟨0x0240002C, [], .ro, 0x0, 0x0, 4, .armed, false⟩,
   ⟨0x02400030, [], .ro, 0x0, 0x0, 4, .armed, false⟩,
   ⟨0x02400034, [], .ro, 0x0, 0x0, 4, .armed, false⟩,
   ⟨0x02400038, [], .ro, 0x0, 0x0, 4, .armed, false⟩,
   ⟨0x0240003C, [], .ro, 0x0, 0x0, 4, .armed, false⟩,
   ⟨0x02400040, [], .ro, 0x0, 0x0, 4, .armed, false⟩,
   ⟨0x02400044, [], .ro, 0x0, 0x0, 4, .armed, false⟩,
   ⟨0x02400048, [], .ro, 0x0, 0x0, 4, .armed, false⟩,
   ⟨0x0240004C, [], .ro, 0x0, 0x0, 4, .armed, false⟩,
   ⟨0x02400100, [(8, 0x4)], .ro, 0x0, 0x0, 4, .keep, false⟩]

/-- The rows of R364's block. -/
def regRowsR364 : List RegRow :=
  [⟨0x02000000, [], .ro, 0x0, 0x0, 4, .keep, false⟩,
   ⟨0x02000004, [], .w1c, 0x0, 0xFF, 4, .keep, false⟩,
   ⟨0x02000008, [], .rw, 0x0, 0xFF, 4, .keep, false⟩,
   ⟨0x0200000C, [], .rw, 0x110, 0x17F, 4, .keep, false⟩,
   ⟨0x02000010, [], .rw, 0x0, 0xFFF00000, 4, .keep, true⟩,
   ⟨0x02000014, [], .rw, 0x0, 0x7, 4, .keep, true⟩,
   ⟨0x02000018, [], .ro, 0x0, 0x0, 4, .keep, false⟩,
   ⟨0x0200001C, [], .rw, 0x0, 0x3FFC001, 4, .keep, true⟩,
   ⟨0x02000020, [], .rw, 0x0, 0x1FF, 4, .keep, true⟩,
   ⟨0x02000030, [], .rw, 0x0, 0xFFFFFFC0, 4, .keep, false⟩,
   ⟨0x02000034, [], .rw, 0x0, 0x7, 4, .keep, false⟩,
   ⟨0x02000038, [], .wo, 0x0, 0x1, 4, .keep, false⟩,
   ⟨0x0200003C, [], .ro, 0x0, 0x0, 4, .keep, false⟩,
   ⟨0x02000100, [], .ro, 0x0, 0x0, 8, .armed, false⟩,
   ⟨0x02000108, [], .ro, 0x0, 0x0, 8, .armed, false⟩,
   ⟨0x02000110, [], .ro, 0x0, 0x0, 8, .armed, false⟩,
   ⟨0x02000118, [], .ro, 0x0, 0x0, 8, .armed, false⟩,
   ⟨0x02000120, [], .ro, 0x0, 0x0, 8, .armed, false⟩,
   ⟨0x02000128, [], .ro, 0x0, 0x0, 8, .armed, false⟩,
   ⟨0x02000130, [], .ro, 0x0, 0x0, 8, .armed, false⟩,
   ⟨0x02000138, [], .ro, 0x0, 0x0, 8, .armed, false⟩,
   ⟨0x02000140, [], .ro, 0x0, 0x0, 8, .armed, false⟩,
   ⟨0x02000148, [], .ro, 0x0, 0x0, 8, .armed, false⟩,
   ⟨0x02001000, [(16, 0x40)], .rw, 0x0, 0x3FFFFC0, 4, .keep, true⟩] ++
  [⟨0x02001004, [(16, 0x40)], .rw, 0x0, 0xFFFFFFFF, 4, .keep, true⟩,
   ⟨0x02001008, [(16, 0x40)], .rw, 0x0, 0xFFFFF000, 4, .keep, true⟩,
   ⟨0x0200100C, [(16, 0x40)], .rw, 0x0, 0x7, 4, .keep, true⟩,
   ⟨0x02001010, [(16, 0x40)], .rw, 0x0, 0xFFFFFFFF, 4, .keep, true⟩,
   ⟨0x02001014, [(16, 0x40)], .rw, 0x0, 0x3, 4, .keep, true⟩,
   ⟨0x02001018, [(16, 0x40)], .ro, 0x0, 0x0, 4, .keep, true⟩,
   ⟨0x0200101C, [(16, 0x40)], .rc, 0x0, 0x0, 4, .keep, true⟩]

/-- The rows of R365's block. -/
def regRowsR365 : List RegRow :=
  [⟨0x02100000, [], .ro, 0x0, 0x0, 4, .keep, false⟩,
   ⟨0x02100004, [], .w1c, 0x0, 0x3, 4, .keep, false⟩,
   ⟨0x02100008, [], .rw, 0x0, 0x3, 4, .keep, false⟩,
   ⟨0x0210000C, [], .rw, 0xF, 0xF, 4, .keep, false⟩,
   ⟨0x02100010, [], .ro, 0x0, 0x0, 4, .keep, false⟩,
   ⟨0x02100100, [], .ro, 0x0, 0x0, 8, .power, false⟩,
   ⟨0x02100108, [], .ro, 0x0, 0x0, 8, .power, false⟩,
   ⟨0x02100110, [], .ro, 0x0, 0x0, 8, .power, false⟩,
   ⟨0x02100118, [], .ro, 0x0, 0x0, 8, .power, false⟩]

/-- The rows of R366's block. -/
def regRowsR366 : List RegRow :=
  [⟨0x02200000, [], .ro, 0x0, 0x0, 4, .keep, false⟩,
   ⟨0x02200004, [], .w1c, 0x0, 0x1F, 4, .keep, false⟩,
   ⟨0x02200008, [], .rw, 0x0, 0x1F, 4, .keep, false⟩,
   ⟨0x0220000C, [], .rw, 0x1, 0x1, 4, .keep, false⟩,
   ⟨0x02200010, [], .ro, 0x0, 0x0, 4, .power, false⟩,
   ⟨0x02200018, [], .ro, 0x0, 0x0, 4, .keep, false⟩,
   ⟨0x0220001C, [], .ro, 0x0, 0x0, 4, .keep, false⟩,
   ⟨0x02200020, [], .ro, 0x0, 0x0, 4, .keep, false⟩,
   ⟨0x02201000, [(128, 0x10)], .ro, 0x0, 0x0, 4, .power, false⟩,
   ⟨0x02201004, [(128, 0x10)], .ro, 0x0, 0x0, 4, .power, false⟩,
   ⟨0x02201008, [(128, 0x10)], .ro, 0x0, 0x0, 4, .keep, false⟩]

/-- The rows of R405's block. -/
def regRowsR405 : List RegRow :=
  [⟨0x02300000, [], .ro, 0x0, 0x0, 4, .keep, false⟩,
   ⟨0x02300004, [], .w1c, 0x0, 0x7F, 4, .keep, false⟩,
   ⟨0x02300008, [], .rw, 0x0, 0x7F, 4, .keep, false⟩,
   ⟨0x02300010, [], .wo, 0x0, 0xFF0FFF, 4, .keep, false⟩,
   ⟨0x02300014, [], .ro, 0x0, 0x0, 4, .keep, false⟩,
   ⟨0x02300020, [], .rw, 0x0, 0xFFFFFFC0, 4, .keep, false⟩,
   ⟨0x02300024, [], .rw, 0x0, 0xFFFFFFFF, 4, .keep, false⟩,
   ⟨0x02300028, [], .rw, 0x0, 0xFFFFFFFF, 4, .keep, false⟩,
   ⟨0x0230002C, [], .ro, 0x0, 0x0, 4, .keep, false⟩,
   ⟨0x02300030, [], .rw, 0x0, 0xFFFFFFFF, 4, .keep, false⟩,
   ⟨0x02300034, [], .rw, 0x0, 0xFFFFFFFC, 4, .keep, false⟩,
   ⟨0x02300038, [], .rw, 0x0, 0xFFFFFFFF, 4, .keep, false⟩,
   ⟨0x02300040, [], .ro, 0x0, 0x0, 4, .keep, false⟩,
   ⟨0x02300044, [], .rw, 0x0, 0xFFFFFFFF, 4, .keep, false⟩,
   ⟨0x02300048, [], .rw, 0x0, 0xFFFFFFFC, 4, .keep, false⟩,
   ⟨0x0230004C, [], .rw, 0x0, 0xFFFFFFFF, 4, .keep, false⟩,
   ⟨0x02300080, [], .rw, 0x0, 0x3FFF, 4, .keep, false⟩,
   ⟨0x02300084, [], .rw, 0x0, 0xFFFFFFFF, 4, .keep, false⟩,
   ⟨0x02300088, [], .wo, 0x0, 0xFFFFFFFF, 4, .keep, false⟩,
   ⟨0x02300100, [], .ro, 0x0, 0x0, 8, .armed, false⟩,
   ⟨0x02300108, [], .ro, 0x0, 0x0, 8, .armed, false⟩,
   ⟨0x02300110, [], .ro, 0x0, 0x0, 8, .armed, false⟩,
   ⟨0x02300118, [], .ro, 0x0, 0x0, 8, .armed, false⟩,
   ⟨0x02300120, [], .ro, 0x0, 0x0, 8, .armed, false⟩] ++
  [⟨0x02300128, [], .ro, 0x0, 0x0, 8, .armed, false⟩,
   ⟨0x02300130, [], .ro, 0x0, 0x0, 8, .armed, false⟩,
   ⟨0x02300138, [], .ro, 0x0, 0x0, 8, .armed, false⟩,
   ⟨0x02301000, [(64, 0x40)], .rw, 0x0, 0xFFFFFFC0, 4, .keep, false⟩,
   ⟨0x02301004, [(64, 0x40)], .rw, 0x0, 0xFFFFFFFF, 4, .keep, false⟩,
   ⟨0x02301008, [(64, 0x40)], .rw, 0x0, 0xFFFFFFFF, 4, .keep, false⟩,
   ⟨0x0230100C, [(64, 0x40)], .rw, 0x0, 0xFFFFFFFF, 4, .keep, false⟩,
   ⟨0x02301010, [(64, 0x40)], .ro, 0x0, 0x0, 4, .keep, false⟩,
   ⟨0x02301014, [(64, 0x40)], .ro, 0x0, 0x0, 4, .keep, false⟩,
   ⟨0x02301018, [(64, 0x40)], .wo, 0x0, 0x1, 4, .keep, false⟩,
   ⟨0x0230101C, [(64, 0x40)], .rw, 0x0, 0xFFFFFFFF, 4, .keep, false⟩,
   ⟨0x02301020, [(64, 0x40)], .rw, 0x0, 0xFFFFFFC0, 4, .keep, false⟩,
   ⟨0x02301024, [(64, 0x40)], .rw, 0x0, 0xFFFFFFFF, 4, .keep, false⟩,
   ⟨0x02301028, [(64, 0x40)], .ro, 0x0, 0x0, 4, .keep, false⟩,
   ⟨0x0230102C, [(64, 0x40)], .rw, 0x0, 0xFFFFFFFF, 4, .keep, false⟩,
   ⟨0x02301030, [(64, 0x40)], .rw, 0x0, 0xFFFFFFFC, 4, .keep, false⟩,
   ⟨0x02301034, [(64, 0x40)], .rw, 0x0, 0xFFFFFFFF, 4, .keep, false⟩,
   ⟨0x02302000, [(64, 0x40)], .rw, 0x0, 0xFFFFFFC0, 4, .keep, false⟩,
   ⟨0x02302004, [(64, 0x40)], .rw, 0x0, 0xFFFFFFFF, 4, .keep, false⟩,
   ⟨0x02302008, [(64, 0x40)], .rw, 0x0, 0xFFFFFFFF, 4, .keep, false⟩,
   ⟨0x0230200C, [(64, 0x40)], .rw, 0x0, 0xFFFFFFFF, 4, .keep, false⟩,
   ⟨0x02302010, [(64, 0x40)], .ro, 0x0, 0x0, 4, .keep, false⟩,
   ⟨0x02302014, [(64, 0x40)], .rw, 0x0, 0xFFFFFFFF, 4, .keep, false⟩,
   ⟨0x02302018, [(64, 0x40)], .rw, 0x0, 0xFFFFFFFC, 4, .keep, false⟩] ++
  [⟨0x0230201C, [(64, 0x40)], .rw, 0x0, 0xFFFFFFFF, 4, .keep, false⟩,
   ⟨0x02302020, [(64, 0x40)], .ro, 0x0, 0x0, 4, .keep, false⟩,
   ⟨0x02304000, [(256, 0x10)], .ro, 0x0, 0x0, 4, .keep, false⟩,
   ⟨0x02304004, [(256, 0x10)], .ro, 0x0, 0x0, 4, .keep, false⟩,
   ⟨0x02304008, [(256, 0x10)], .ro, 0x0, 0x0, 4, .keep, false⟩,
   ⟨0x0230400C, [(256, 0x10)], .ro, 0x0, 0x0, 4, .keep, false⟩]

/-- The rows of R435's block. -/
def regRowsR435 : List RegRow :=
  [⟨0x02600000, [], .ro, 0x1FF, 0x0, 4, .keep, false⟩,
   ⟨0x02600004, [], .w1c, 0x0, 0x7FF, 4, .keep, false⟩,
   ⟨0x02600008, [], .rw, 0x0, 0x7FF, 4, .keep, false⟩,
   ⟨0x02601000, [(2, 0x400)], .ro, 0x0, 0x0, 4, .keep, false⟩,
   ⟨0x02601004, [(2, 0x400)], .wo, 0x0, 0x1, 4, .keep, false⟩,
   ⟨0x02601008, [(2, 0x400)], .ro, 0x0, 0x0, 4, .keep, false⟩,
   ⟨0x0260100C, [(2, 0x400)], .ro, 0x0, 0x0, 4, .keep, false⟩,
   ⟨0x02601010, [(2, 0x400)], .ro, 0x0, 0x0, 4, .keep, false⟩,
   ⟨0x02601100, [(2, 0x400)], .ro, 0x0, 0x0, 8, .armed, false⟩,
   ⟨0x02601108, [(2, 0x400)], .ro, 0x0, 0x0, 8, .armed, false⟩,
   ⟨0x02601110, [(2, 0x400)], .ro, 0x0, 0x0, 8, .armed, false⟩,
   ⟨0x02601118, [(2, 0x400)], .ro, 0x0, 0x0, 8, .armed, false⟩,
   ⟨0x02601120, [(2, 0x400)], .ro, 0x0, 0x0, 8, .armed, false⟩,
   ⟨0x02601128, [(2, 0x400)], .ro, 0x0, 0x0, 8, .armed, false⟩,
   ⟨0x02601130, [(2, 0x400)], .ro, 0x0, 0x0, 8, .armed, false⟩,
   ⟨0x02601138, [(2, 0x400)], .ro, 0x0, 0x0, 8, .armed, false⟩,
   ⟨0x02601140, [(2, 0x400)], .ro, 0x0, 0x0, 8, .armed, false⟩,
   ⟨0x02601200, [(2, 0x400), (4, 0x20)], .rw, 0x0, 0xFF0703, 4, .keep, true⟩,
   ⟨0x02601204, [(2, 0x400), (4, 0x20)], .rw, 0x0, 0x3FFFFC0, 4, .keep, true⟩,
   ⟨0x02601208, [(2, 0x400), (4, 0x20)], .rw, 0x0, 0x3FFFFC0, 4, .keep, true⟩,
   ⟨0x0260120C, [(2, 0x400), (4, 0x20)], .rw, 0x40, 0xFFFFFFFF, 4, .keep, true⟩,
   ⟨0x02601210, [(2, 0x400), (4, 0x20)], .rw, 0x0, 0x3FFF3FFF, 4, .keep, true⟩,
   ⟨0x02601214, [(2, 0x400), (4, 0x20)], .ro, 0x0, 0x0, 4, .keep, true⟩,
   ⟨0x02601218, [(2, 0x400), (4, 0x20)], .ro, 0x0, 0x0, 4, .keep, true⟩] ++
  [⟨0x0260121C, [(2, 0x400), (4, 0x20)], .ro, 0x0, 0x0, 4, .keep, true⟩]

/-- The rows of R477's block. -/
def regRowsR477 : List RegRow :=
  [⟨0x00000400, [], .wo, 0x0, 0x30F, 4, .keep, false⟩,
   ⟨0x00000404, [], .rw, 0x0, 0xFFFFFF, 4, .keep, false⟩,
   ⟨0x00000408, [], .rw, 0x0, 0x1FFF, 4, .keep, false⟩,
   ⟨0x0000040C, [], .rw, 0x0, 0x1FFFF, 4, .keep, false⟩,
   ⟨0x00000410, [], .rw, 0x0, 0xFFFFFFFF, 4, .keep, false⟩,
   ⟨0x00000414, [], .rw, 0x0, 0xFFFF, 4, .keep, false⟩,
   ⟨0x00000418, [], .ro, 0x0, 0x0, 4, .keep, false⟩,
   ⟨0x0000041C, [], .ro, 0x0, 0x0, 4, .keep, false⟩,
   ⟨0x00000420, [], .ro, 0x0, 0x0, 4, .keep, false⟩,
   ⟨0x00000424, [], .ro, 0x0, 0x0, 4, .power, false⟩,
   ⟨0x00000428, [], .w1c, 0x0, 0x1, 4, .keep, false⟩,
   ⟨0x00001000, [(1024, 0x4)], .rw, 0x0, 0xFFFFFFFF, 4, .keep, false⟩]

/-- The rows of R481's block. -/
def regRowsR481 : List RegRow :=
  [⟨0x02700000, [], .ro, 0x0, 0x0, 4, .keep, false⟩,
   ⟨0x02700004, [], .w1c, 0x0, 0xFFF, 4, .keep, false⟩,
   ⟨0x02700008, [], .rw, 0x0, 0xFFF, 4, .keep, false⟩,
   ⟨0x0270000C, [], .ro, 0x0, 0x0, 4, .keep, false⟩,
   ⟨0x02700010, [], .ro, 0x0, 0x0, 4, .keep, false⟩,
   ⟨0x02700014, [], .ro, 0x0, 0x0, 4, .keep, false⟩,
   ⟨0x02700018, [], .ro, 0x0, 0x0, 4, .keep, false⟩,
   ⟨0x0270001C, [], .ro, 0x0, 0x0, 4, .keep, false⟩,
   ⟨0x02700020, [], .ro, 0x0, 0x0, 4, .keep, false⟩,
   ⟨0x02700024, [], .ro, 0x0, 0x0, 4, .keep, false⟩,
   ⟨0x02700028, [], .ro, 0x0, 0x0, 4, .keep, false⟩,
   ⟨0x02700100, [], .ro, 0x0, 0x0, 8, .power, false⟩,
   ⟨0x02700108, [], .ro, 0x0, 0x0, 8, .power, false⟩,
   ⟨0x02700110, [], .ro, 0x0, 0x0, 8, .power, false⟩,
   ⟨0x02700118, [], .ro, 0x0, 0x0, 8, .power, false⟩,
   ⟨0x02700120, [], .ro, 0x0, 0x0, 8, .power, false⟩,
   ⟨0x02700128, [], .ro, 0x0, 0x0, 8, .power, false⟩,
   ⟨0x02700130, [], .ro, 0x0, 0x0, 8, .power, false⟩,
   ⟨0x02700138, [], .ro, 0x0, 0x0, 8, .power, false⟩,
   ⟨0x02700140, [], .ro, 0x0, 0x0, 8, .power, false⟩,
   ⟨0x02700148, [], .ro, 0x0, 0x0, 8, .power, false⟩,
   ⟨0x02700150, [], .ro, 0x0, 0x0, 8, .power, false⟩,
   ⟨0x02700158, [], .ro, 0x0, 0x0, 8, .power, false⟩]

/-- The rows of R507's block. -/
def regRowsR507 : List RegRow :=
  [⟨0x00000000, [], .ro, 0x0, 0x0, 4, .keep, false⟩,
   ⟨0x00000004, [], .ro, 0x0, 0x0, 4, .keep, false⟩,
   ⟨0x00000008, [], .w1c, 0x0, 0x7F, 4, .keep, false⟩,
   ⟨0x0000000C, [], .rw, 0x0, 0x7F, 4, .keep, false⟩,
   ⟨0x00000010, [], .ro, 0x0, 0x0, 4, .keep, false⟩,
   ⟨0x00000014, [], .rw, 0x1, 0x1, 4, .keep, false⟩,
   ⟨0x00000018, [], .ro, 0x0, 0x0, 4, .keep, false⟩,
   ⟨0x0000001C, [], .ro, 0x0, 0x0, 4, .keep, false⟩,
   ⟨0x00000020, [], .ro, 0x0, 0x0, 4, .keep, false⟩,
   ⟨0x00000030, [], .rw, 0x0, 0x3FF, 4, .keep, false⟩,
   ⟨0x00000034, [], .rw, 0x0, 0x3, 4, .keep, false⟩,
   ⟨0x00000038, [], .rw, 0x0, 0xFFFFFFFF, 4, .keep, false⟩,
   ⟨0x0000003C, [], .rw, 0x0, 0xFFFFFFFF, 4, .keep, false⟩,
   ⟨0x00000040, [], .rw, 0x0, 0x3F, 4, .keep, false⟩,
   ⟨0x00000050, [], .rw, 0xA, 0xFF, 4, .keep, false⟩,
   ⟨0x00000054, [], .ro, 0x0, 0x0, 4, .keep, false⟩,
   ⟨0x00000058, [], .ro, 0x0, 0x0, 4, .keep, false⟩,
   ⟨0x0000005C, [], .ro, 0x0, 0x0, 4, .power, false⟩,
   ⟨0x00000070, [], .wo, 0x0, 0xFFFF, 4, .keep, false⟩,
   ⟨0x00000074, [], .w1c, 0x0, 0x1, 4, .keep, false⟩,
   ⟨0x00000080, [], .rw, 0x0, 0xFFFFFFFF, 4, .keep, false⟩,
   ⟨0x00000100, [], .ro, 0x0, 0x0, 8, .flr, false⟩,
   ⟨0x00000108, [], .ro, 0x0, 0x0, 8, .flr, false⟩,
   ⟨0x00000110, [], .ro, 0x0, 0x0, 8, .flr, false⟩] ++
  [⟨0x00000118, [], .ro, 0x0, 0x0, 8, .flr, false⟩]

/-- The rows of R533's block. -/
def regRowsR533 : List RegRow :=
  [⟨0x02800000, [], .ro, 0x0, 0x0, 4, .keep, false⟩,
   ⟨0x02800004, [], .w1c, 0x0, 0x1FF, 4, .keep, false⟩,
   ⟨0x02800008, [], .rw, 0x0, 0x1FF, 4, .keep, false⟩,
   ⟨0x02800010, [], .wo, 0x0, 0x30FF7, 4, .keep, false⟩,
   ⟨0x02800014, [], .ro, 0x0, 0x0, 4, .keep, false⟩,
   ⟨0x02800020, [(6, 0x4)], .ro, 0x0, 0x0, 4, .keep, false⟩,
   ⟨0x02800040, [(6, 0x4)], .ro, 0x0, 0x0, 4, .power, false⟩,
   ⟨0x02800060, [], .ro, 0x0, 0x0, 4, .keep, false⟩,
   ⟨0x02800100, [], .ro, 0x0, 0x0, 8, .armed, false⟩,
   ⟨0x02800108, [], .ro, 0x0, 0x0, 8, .armed, false⟩,
   ⟨0x02800110, [], .ro, 0x0, 0x0, 8, .armed, false⟩,
   ⟨0x02800118, [], .ro, 0x0, 0x0, 8, .armed, false⟩,
   ⟨0x02800400, [(16, 0x10)], .ro, 0x0, 0x0, 4, .keep, false⟩,
   ⟨0x02800404, [(16, 0x10)], .ro, 0x0, 0x0, 4, .keep, false⟩,
   ⟨0x02800408, [(16, 0x10)], .ro, 0x0, 0x0, 4, .keep, false⟩,
   ⟨0x0280040C, [(16, 0x10)], .ro, 0x0, 0x0, 4, .keep, false⟩]

/-- The rows of R561's block. -/
def regRowsR561 : List RegRow :=
  [⟨0x02900000, [], .ro, 0x0, 0x0, 4, .keep, false⟩,
   ⟨0x02900004, [], .w1c, 0x0, 0x1FF, 4, .keep, false⟩,
   ⟨0x02900008, [], .rw, 0x0, 0x1FF, 4, .keep, false⟩,
   ⟨0x0290000C, [], .ro, 0x2EE02EE, 0x0, 4, .keep, false⟩,
   ⟨0x02900010, [], .ro, 0x0, 0x0, 4, .keep, false⟩,
   ⟨0x02900014, [], .ro, 0x0, 0x0, 4, .keep, false⟩,
   ⟨0x02900018, [], .ro, 0x8980898, 0x0, 4, .keep, false⟩,
   ⟨0x0290001C, [], .ro, 0x8980898, 0x0, 4, .keep, false⟩,
   ⟨0x02900020, [], .ro, 0x1, 0x0, 4, .keep, false⟩,
   ⟨0x02900024, [], .ro, 0x0, 0x0, 4, .keep, false⟩,
   ⟨0x02900028, [], .ro, 0x0, 0x0, 4, .keep, false⟩,
   ⟨0x02900100, [], .ro, 0x0, 0x0, 8, .power, false⟩,
   ⟨0x02900108, [], .ro, 0x0, 0x0, 8, .power, false⟩,
   ⟨0x02900110, [], .ro, 0x0, 0x0, 8, .power, false⟩,
   ⟨0x02900118, [], .ro, 0x0, 0x0, 8, .power, false⟩,
   ⟨0x02900200, [(48, 0x4)], .ro, 0x0, 0x0, 4, .keep, false⟩,
   ⟨0x02900300, [(16, 0x4)], .ro, 0x0, 0x0, 4, .keep, false⟩]

/-- The rows of R592's block. -/
def regRowsR592 : List RegRow :=
  [⟨0x02A00000, [], .ro, 0x3, 0x0, 4, .keep, false⟩,
   ⟨0x02A00004, [], .w1c, 0x0, 0xF, 4, .keep, false⟩,
   ⟨0x02A00008, [], .rw, 0x0, 0xF, 4, .keep, false⟩,
   ⟨0x02A00010, [], .wo, 0x0, 0x1FF3F, 4, .keep, false⟩,
   ⟨0x02A00014, [], .ro, 0x0, 0x0, 4, .keep, false⟩,
   ⟨0x02A00018, [], .rw, 0x0, 0x3FFFFC0, 4, .keep, false⟩,
   ⟨0x02A0001C, [], .rw, 0x0, 0x1FFFFFF, 4, .keep, false⟩,
   ⟨0x02A00020, [], .ro, 0x0, 0x0, 4, .keep, false⟩,
   ⟨0x02A00024, [], .ro, 0x0, 0x0, 4, .keep, false⟩,
   ⟨0x02A00028, [], .ro, 0x0, 0x0, 4, .keep, false⟩,
   ⟨0x02A00100, [(8, 0x4)], .rw, 0x0, 0xFFFFFFFF, 4, .keep, false⟩,
   ⟨0x02A00200, [(16, 0x4)], .ro, 0x0, 0x0, 4, .keep, false⟩]

/-- The rows of R593's block. -/
def regRowsR593 : List RegRow :=
  [⟨0x02B00000, [], .ro, 0x0, 0x0, 4, .keep, false⟩,
   ⟨0x02B00004, [], .w1c, 0x0, 0xF, 4, .keep, false⟩,
   ⟨0x02B00008, [], .rw, 0x0, 0xF, 4, .keep, false⟩,
   ⟨0x02B00010, [], .ro, 0x0, 0x0, 4, .keep, false⟩,
   ⟨0x02B00014, [], .ro, 0x0, 0x0, 4, .keep, false⟩,
   ⟨0x02B00018, [], .ro, 0x0, 0x0, 4, .keep, false⟩,
   ⟨0x02B00020, [], .ro, 0x0, 0x0, 4, .keep, false⟩,
   ⟨0x02B00024, [], .rw, 0x0, 0xFFFFFFFF, 4, .keep, false⟩,
   ⟨0x02B00028, [], .rw, 0x0, 0xFFFFFFFC, 4, .keep, false⟩,
   ⟨0x02B0002C, [], .rw, 0x0, 0xFFFFFFFF, 4, .keep, false⟩,
   ⟨0x02B00030, [], .ro, 0x0, 0x0, 4, .keep, false⟩,
   ⟨0x02B00034, [], .ro, 0x0, 0x0, 4, .keep, false⟩,
   ⟨0x02B00040, [], .rw, 0x0, 0xFFFFFFFF, 4, .keep, false⟩,
   ⟨0x02B00044, [], .rw, 0x0, 0xFFFFFFFF, 4, .keep, false⟩,
   ⟨0x02B00048, [], .ro, 0x0, 0x0, 4, .keep, false⟩,
   ⟨0x02B00100, [(8, 0x4)], .ro, 0x0, 0x0, 4, .keep, false⟩,
   ⟨0x02B00200, [], .ro, 0x0, 0x0, 8, .boot, false⟩,
   ⟨0x02B00208, [], .ro, 0x0, 0x0, 8, .boot, false⟩,
   ⟨0x02B00210, [], .ro, 0x0, 0x0, 8, .boot, false⟩,
   ⟨0x02B01000, [(32, 0x4)], .ro, 0x0, 0x0, 4, .keep, false⟩]

/-- Every register row (R489). -/
def regRows : List RegRow :=
  regRowsR96 ++
  regRowsR129 ++
  regRowsR226 ++
  regRowsR298 ++
  regRowsR330 ++
  regRowsR364 ++
  regRowsR365 ++
  regRowsR366 ++
  regRowsR405 ++
  regRowsR435 ++
  regRowsR477 ++
  regRowsR481 ++
  regRowsR507 ++
  regRowsR533 ++
  regRowsR561 ++
  regRowsR592 ++
  regRowsR593

/-- Does a byte offset within a row lie in one of its instances, on the first byte of it or (in an 8-byte register) on its high word? -/
def regRowHits : List (Nat × Nat) → Nat → Nat → Bool
  | [], size, r => decide (r % 4 = 0) && decide (r < size)
  | (n, st) :: ds, size, r => decide (r / st < n) && regRowHits ds size (r % st)

/-- The row of a BAR0 offset, or none for an offset that no block's map lists (R489, R490). -/
def regFind (off : Nat) : Option RegRow :=
  regRows.find? fun r => decide (r.base ≤ off) && regRowHits r.dims r.size (off - r.base)

end Sys2Proof.Machine
end

