-- ==== Sys2Proof/Config.lean ====
section
/-! DEFINITION. What one device fixes (fuses, ROM, keys) and the values that the spec leaves open. Every one is an opaque constant: nothing in
Lean can evaluate it, so a statement that mentions it holds for every value of it. -/

namespace Sys2Proof.Config

/-- The content of a byte of storage that nothing has written since it last became undefined (R183, R189, R342, R539, R555). `space` names
the storage, `epoch` counts how often storage has become undefined. FREE VALUE. -/
opaque freeByte : (space epoch addr : Nat) → Byte
/-- A fresh open value: the n-th one the model needs. FREE VALUE. -/
opaque freeWord : Nat → W64
/-- Where the capabilities of R485 stand in configuration space, byte offsets that the spec does not give: Device Serial Number, MSI-X, Power Management,
the PCI Express capability and Precision Time Measurement. -/
opaque serialCap : Nat
opaque msixCap : Nat
opaque pmCap : Nat
opaque pcieCap : Nat
opaque ptmCap : Nat

/-- Is this part a TV-7480-22E (R1, field GRADE)? Fused. -/
opaque gradeE : Bool
/-- SERIAL (0x1000:04), fused. -/
opaque serial : W64
/-- ROM_VERSION (0x1000:06), fused. -/
opaque romVersion : W32
/-- TRIM_MAP at manufacture, byte by byte (R531), fused. -/
opaque trimMapFused : Nat → Byte
/-- SPARES_MIN of each kind at manufacture (R530), fused. -/
opaque sparesMinFused : Nat → Byte
/-- The lane of an engine that a die-to-die wire carries (R510), which the spec does not give: a lane of 16 for E0 to E3, of 8 for S0 and S1. -/
opaque wireLane : (engine wire : Nat) → Nat
/-- The bank and the row of a DRAM block (R509), whose layout the spec does not give: numbers that name one bank and one row of the device. -/
opaque dramBank : (block : Nat) → Nat
opaque dramRow : (block : Nat) → Nat
/-- Spare rows in use in a bank at manufacture (R509, R531), fused. -/
opaque spareRowsFused : (bank : Nat) → Fin 17
/-- KEY_DIGEST0 to KEY_DIGEST3 (R569), fused. -/
opaque keyDigest : Nat → List Byte
/-- The number of ones in SEC_FUSED at the first power-up (R569). -/
opaque secFusedAtFirst : Fin 65
/-- REVOKED at the first power-up (R569). -/
opaque revokedAtFirst : BitVec 4
/-- The device identity certificate (R575), fused. -/
opaque identityCert : List Byte
/-- DEVICE_SECRET (R569), which nothing can read. -/
opaque deviceSecret : List Byte

/-- CoaXPress 2.1 (R62, R63), which the spec names and does not repeat: the camera register of each discovery request (0 revision, 1 model,
2 identifier, 3 connection configuration) and its length in bytes. -/
opaque cxpAddr : (what : Nat) → Nat
opaque cxpLen : (what : Nat) → Nat
/-- The major revision in the bytes of the revision register. -/
opaque cxpMajor : List Byte → Nat
/-- The connection configuration for a lane count and a lane rate. -/
opaque cxpConfig : (lanes rate : Nat) → List Byte
/-- Does this acknowledgement code report success? -/
opaque cxpAckOk : Byte → Bool
/-- Do pixels stand on the wire with their most significant bit first? The packing of raw pixels is of CoaXPress 2.1, which the spec names and does not
repeat (R120). -/
opaque wireMsbFirst : Bool
/-- Byte i of the 16 bytes that a line has in its memory-path ring beside its pixels (R120), whose content the spec does not give. FREE VALUE. -/
opaque ringLineHead : (port : Nat) → (x : Int) → (i : Nat) → Byte

/-- The transcendental functions of R208 (0 to 9 in the order of TVEC's codes 0x20 to 0x29): the binary32 result for a binary32 input pattern. The
spec bounds the error and does not give the value: FREE VALUE, the same for the same input everywhere. -/
opaque transcendental : (fn : Nat) → (input : Nat) → W32

/-- Falcon-1024 key generation from a seed: the public key (R574). -/
opaque falconPublicKey : (seed : List Byte) → List Byte
/-- Falcon-1024 signature of a message by the key of a seed (R574). -/
opaque falconSign : (seed message : List Byte) → List Byte
/-- Falcon-1024 verification (R570 step 6). -/
opaque falconVerify : (publicKey message signature : List Byte) → Bool
/-- Do the known-answer tests of boot n pass (R571)? -/
opaque selfTestPasses : Nat → Bool
/-- Does a read of the boot flash in boot n complete (R570 step 1)? -/
opaque flashReadCompletes : (boot slot : Nat) → Bool

end Sys2Proof.Config
end

