-- ==== Sys2Proof/Machine/Num.lean ====
section
/-! DEFINITION. Exact numbers and the named roundings (R143 to R146, R154, R155): every narrowing rounds once, to nearest with ties to even. -/

namespace Sys2Proof.Machine

/-- n / d rounded to the nearest integer, ties to even, for d > 0. -/
def rne (n : Int) (d : Nat) : Int :=
  let q := n / (d : Int)
  let r := 2 * (n % (d : Int))
  if r < d then q else if (d : Int) < r then q + 1 else if q % 2 = 0 then q else q + 1

/-- A rational rounded to an integer, ties to even (R145). -/
def roundInt (q : Rat) : Int := rne q.num q.den

/-- 2^e. -/
def pow2 (e : Int) : Rat := if 0 ≤ e then ((2 ^ e.toNat : Nat) : Rat) else 1 / ((2 ^ (-e).toNat : Nat) : Rat)

/-- floor(log2 q) for q > 0. -/
def floorLog2 (q : Rat) : Int :=
  let e : Int := (q.num.toNat.log2 : Int) - (q.den.log2 : Int)
  if pow2 e ≤ q then (if pow2 (e + 1) ≤ q then e + 1 else e) else e - 1

/-- A magnitude rounded to p significant bits, with no quantum below that of exponent `emin` (none: no such limit). -/
def roundSig (p : Nat) (emin : Option Int) (q : Rat) : Rat :=
  if q ≤ 0 then 0
  else
    let e := match emin with
      | some m => max (floorLog2 q) m
      | none => floorLog2 q
    let u := pow2 (e - ((p : Int) - 1))
    (roundInt (q / u) : Rat) * u

/-- A floating-point value: sign and magnitude of a finite one, so that zeros keep their sign. -/
inductive Fp where
  | nan
  | inf (neg : Bool)
  | fin (neg : Bool) (mag : Rat)
  deriving DecidableEq, Repr

/-- +0. -/
def Fp.zero : Fp := .fin false 0
/-- The finite value of a rational; zero is +0. -/
def Fp.ofRat (q : Rat) : Fp := if q < 0 then .fin true (-q) else .fin false q
/-- The real value; 0 where there is none. -/
def Fp.toRat : Fp → Rat
  | .fin true m => -m
  | .fin false m => m
  | _ => 0
def Fp.isNan : Fp → Bool
  | .nan => true
  | _ => false
def Fp.isFin : Fp → Bool
  | .fin _ _ => true
  | _ => false
def Fp.neg : Fp → Fp
  | .nan => .nan
  | .inf s => .inf !s
  | .fin s m => .fin (!s) m
def Fp.abs : Fp → Fp
  | .nan => .nan
  | .inf _ => .inf false
  | .fin _ m => .fin false m
def Fp.sign : Fp → Bool
  | .nan => false
  | .inf s => s
  | .fin s _ => s
/-- a < b on numbers; false where either is a NaN. -/
def Fp.lt : Fp → Fp → Bool
  | .nan, _ => false
  | _, .nan => false
  | .inf s, .inf t => s && !t
  | .inf s, .fin _ _ => s
  | .fin _ _, .inf t => !t
  | a, b => decide (a.toRat < b.toRat)
def Fp.le (a b : Fp) : Bool := !a.isNan && !b.isNan && !(b.lt a)
/-- Equality of numbers: zeros are equal, a NaN equals nothing. -/
def Fp.eqv (a b : Fp) : Bool := a.le b && b.le a

/-- The fields of a binary float: exponent bits, fraction bits, bias. -/
structure FloatFmt where
  eb : Nat
  mb : Nat
  bias : Int

def fmt32 : FloatFmt := ⟨8, 23, 127⟩
def fmtBf16 : FloatFmt := ⟨8, 7, 127⟩
def fmtFp16 : FloatFmt := ⟨5, 10, 15⟩
def fmtF8A : FloatFmt := ⟨4, 3, 7⟩
def fmtF8B : FloatFmt := ⟨5, 2, 15⟩
def fmt64 : FloatFmt := ⟨11, 52, 1023⟩

/-- The magnitude of a pattern's exponent and fraction fields, taken as a finite number. -/
def FloatFmt.mag (f : FloatFmt) (v : Nat) : Rat :=
  let e := v / 2 ^ f.mb % 2 ^ f.eb
  let m := v % 2 ^ f.mb
  if e = 0 then (m : Rat) * pow2 (1 - f.bias - f.mb) else ((2 ^ f.mb + m : Nat) : Rat) * pow2 ((e : Int) - f.bias - f.mb)

/-- Read an IEEE 754 pattern. -/
def FloatFmt.decode (f : FloatFmt) (v : Nat) : Fp :=
  let s := v / 2 ^ (f.eb + f.mb) % 2 == 1
  let e := v / 2 ^ f.mb % 2 ^ f.eb
  if e = 2 ^ f.eb - 1 then (if v % 2 ^ f.mb = 0 then .inf s else .nan) else .fin s (f.mag v)

/-- The pattern of a magnitude that the format holds exactly. -/
def FloatFmt.pattern (f : FloatFmt) (m : Rat) : Nat :=
  if m ≤ 0 then 0
  else
    let e := max (floorLog2 m) (1 - f.bias)
    let k := (roundInt (m / pow2 (e - f.mb))).toNat
    if k < 2 ^ f.mb then k else ((e + f.bias).toNat) * 2 ^ f.mb + (k - 2 ^ f.mb)

/-- The largest finite magnitude of an IEEE 754 format. -/
def FloatFmt.max (f : FloatFmt) : Rat := f.mag ((2 ^ f.eb - 1) * 2 ^ f.mb - 1)

/-- Sign and magnitude to a pattern. -/
def FloatFmt.signed (f : FloatFmt) (s : Bool) (v : Nat) : Nat := (if s then 2 ^ (f.eb + f.mb) else 0) + v

/-- 2^−126. -/
def minNormal32 : Rat := pow2 (-126)

/-- Rules 2 to 4 of round32 on a magnitude with its sign (R143). -/
def round32Mag (s : Bool) (m : Rat) : Fp :=
  let r := roundSig 24 none m
  if fmt32.max < r then .inf s else if r < minNormal32 then .fin s 0 else .fin s r

/-- round32 of an exact value; an exact zero is +0 (R143). -/
def round32 (q : Rat) : Fp := if q < 0 then round32Mag true (-q) else round32Mag false q

/-- a + b rounded under R143. Two zeros sum to −0 only when both are −0. -/
def Fp.add32 : Fp → Fp → Fp
  | .nan, _ => .nan
  | _, .nan => .nan
  | .inf s, .inf t => if s = t then .inf s else .nan
  | .inf s, .fin _ _ => .inf s
  | .fin _ _, .inf t => .inf t
  | .fin s m, .fin t n =>
    if m = 0 ∧ n = 0 then .fin (s && t) 0 else round32 ((Fp.fin s m).toRat + (Fp.fin t n).toRat)

/-- a × b, exact (R142); an infinity times zero is a NaN. -/
def Fp.mulExact : Fp → Fp → Fp
  | .nan, _ => .nan
  | _, .nan => .nan
  | .inf s, .inf t => .inf (s != t)
  | .inf s, .fin t m => if m = 0 then .nan else .inf (s != t)
  | .fin s m, .inf t => if m = 0 then .nan else .inf (s != t)
  | .fin s m, .fin t n => .fin (s != t) (m * n)

/-- Round an exact value to binary32 (R143); zeros keep their sign. -/
def Fp.to32 : Fp → Fp
  | .fin s m => if m = 0 then .fin s 0 else round32Mag s m
  | x => x

/-- a × b rounded once. -/
def Fp.mul32 (a b : Fp) : Fp := (a.mulExact b).to32
/-- a × b + c with one rounding (R152). -/
def Fp.fma32 (a b c : Fp) : Fp := (a.mulExact b).add32 c

/-- The binary32 pattern of a value; a NaN is the canonical one. -/
def Fp.bits32 (x : Fp) : Nat :=
  match x with
  | .nan => 0x7FC00000
  | .inf s => fmt32.signed s 0x7F800000
  | .fin s m => fmt32.signed s (fmt32.pattern m)

/-- Read a binary32 pattern; a subnormal is read as zero of its sign (R144). -/
def read32 (v : Nat) : Fp :=
  match fmt32.decode v with
  | .fin s m => if m < minNormal32 then .fin s 0 else .fin s m
  | x => x

/-- Narrow to BF16 (R146). -/
def toBf16 (x : Fp) : Nat :=
  match x with
  | .nan => 0x7FC0
  | .inf s => fmtBf16.signed s 0x7F7F
  | .fin s m =>
    let r := roundSig 8 none m
    fmtBf16.signed s (if fmtBf16.max < r then 0x7F7F else if r < minNormal32 then 0 else fmtBf16.pattern r)

/-- Narrow to FP16 (R146): subnormals are kept. -/
def toFp16 (x : Fp) : Nat :=
  match x with
  | .nan => 0x7E00
  | .inf s => fmtFp16.signed s 0x7BFF
  | .fin s m =>
    let r := roundSig 11 (some (-14)) m
    fmtFp16.signed s (if 65504 < r then 0x7BFF else fmtFp16.pattern r)

/-- Round a sum or product in binary64 (R169), under R145. -/
def round64 (q : Rat) : Rat :=
  let r := roundSig 53 (some (-1022)) (if q < 0 then -q else q)
  if q < 0 then -r else r

/-- The binary64 pattern of a finite value. -/
def bits64 (q : Rat) : Nat :=
  if q < 0 then 2 ^ 63 + fmt64.pattern (-q) else fmt64.pattern q

/-- Narrow to F8A or F8B (R155): the code, and whether the element is saturated. -/
def toF8 (b : Bool) (q : Rat) : Nat × Bool :=
  let f := if b then fmtF8B else fmtF8A
  let top : Rat := if b then 57344 else 448
  let m := if q < 0 then -q else q
  let r := if b then roundSig 3 (some (-14)) m else roundSig 4 (some (-6)) m
  let (k, sat) := if top < r then (if b then 0x7B else 0x7E, true) else (f.pattern r, false)
  (f.signed (decide (q < 0)) k, sat)

end Sys2Proof.Machine
end

