-- ==== Sys2Proof/Machine/StateSystem.lean ====
section
/-! DEFINITION. The parts of the state that belong to the web model, the device states and dictionary, PCI Express, Caravan, the ledger,
Saffron, clocks and power (chapters 1, 12, 13, 15 and 16). Plain data only. -/

namespace Sys2Proof.Machine

/-- Sparse numbers by key, keys strictly rising, no entry equal to its key's default. -/
abbrev Map := List (Nat × Nat)
/-- Bytes by address, addresses strictly rising; an unlisted byte has no defined content. -/
abbrev Mem := List Host.Cell
/-- Byte strings by key (STR and DOMAIN values), keys strictly rising. -/
abbrev Blobs := List (Nat × List Byte)

/-- The device states of R469, in the order of their codes. -/
inductive DevState where
  | boot | auth | preop | armed | run | hold | safe
  deriving DecidableEq, Repr

/-- Who makes a change (R5, R462, R581 ORIGIN). -/
inductive Origin where
  | host | caravan | internal
  deriving DecidableEq, Repr

/-- Through which door a STATE_REQUEST came, for its answer (R447, R476, R477). -/
inductive Door where
  | bar4 | mailbox | ticket (t : Byte) | none
  deriving DecidableEq, Repr

/-- A transition in progress (R470). -/
structure StateRequest where
  target : DevState
  door : Door
  deriving DecidableEq, Repr

/-- An event record raised and not yet written (R402): frame and body. -/
structure EventRec where
  dt : Nat
  lsn : Nat
  source : Nat
  type : Nat
  body : List Byte
  deriving DecidableEq, Repr

/-- What the device sends: messages on its buses, lanes and pins. -/
inductive Out where
  | triggerPacket (port : Nat) (lsn : Nat) (dt : Nat)
  | ccRequest (port : Nat) (write : Bool) (addr len : Nat) (data : List Byte)
  | eventAck (port : Nat)
  | heartbeat (port : Nat) (dt : Nat)
  | msix (vector : Nat) (addr data : Nat)
  | readData (value : Nat)
  | readBytes (data : List Byte) (poisoned : Bool)
  | configRetry
  | configNormal
  | configData (value : Nat)
  | avsRequest (mv : Nat)
  | ptmRequest (t1 : Nat)
  | caravanFrame (port : Nat) (frame : List Byte) (fcsOk : Bool)
  | training (link : Nat) (message : List Byte)
  | flit (link : Nat) (flit : List Byte)
  deriving DecidableEq, Repr

/-- The device-state machine (R469, R470). -/
structure Dev where
  state : DevState
  request : Option StateRequest
  /-- A cause of R474 that has arisen and whose entry to SAFE has not been made. -/
  safeCause : Option Nat
  /-- A conventional or power-on reset is in force (R541, R555): its cause lasts. -/
  resetHeld : Bool
  /-- Is PWR_GOOD asserted (R541)? -/
  powerGood : Bool
  /-- PREOP or SAFE has been entered since the last reset (R557, R572). -/
  firstEntryDone : Bool
  /-- AUTH has ended since the last reset, so a state-change event is owed at the first entry (R470, R572). -/
  authEnded : Bool
  /-- Times at which a rate-limited event was last written, by key. -/
  eventTimes : Map
  deriving DecidableEq, Repr

/-- The LSN counter, its extended count and the three trigger sources (R14 to R23). -/
structure Web where
  /-- X of R23, the extended count that the next trigger carries; the LSN counter is X mod 2^48. -/
  x : Int
  /-- LSN of the most recent trigger (R52, LSN_CURRENT). -/
  lastLsn : Nat
  /-- A trigger has occurred since entry to ARMED. -/
  triggered : Bool
  pos : Int
  high : Int
  /-- `next` of R15: a threshold in 48.16 fixed point. -/
  next : Int
  /-- DT at which the line timer was last restarted or expired (R19, R473): LINE_TIMER_EXPIRY says that its period is over, so no command
  reads this. -/
  timerStart : Nat
  /-- The levels of A and B that the decoder took last, none before the first after a reset (R70). -/
  encLevels : Option (Bool × Bool)
  /-- Decoded counts in the present 1 ms window (R71). -/
  windowCounts : Nat
  /-- Per camera, the DT of the last trigger not withheld from it (R20); none before the first. -/
  lastTrigger : Vector (Option Nat) 16
  /-- The newest complete group (R39), none before the first. -/
  completeGroup : Option Int
  /-- DT of its completion. -/
  completeDt : Option Nat
  /-- A group has completed in RUN since entry to ARMED (R379). -/
  runGroup : Bool
  /-- Per camera, the extended web LSN of the first line that it has delivered since entry to RUN (R37). -/
  firstSeen : Vector (Option Int) 16
  /-- Groups closed as a short first part at entry to HOLD (R38): group, and the extended web LSN of the last line of the part. -/
  shortParts : List (Int × Int)
  deriving DecidableEq, Repr

/-- A scheduled write (R457). -/
structure Sched where
  handle : Nat
  key : Nat
  at_ : Nat
  value : Nat
  origin : Origin
  deriving DecidableEq, Repr

/-- A staged STR or DOMAIN value (R451). -/
structure Staging where
  key : Nat
  bytes : List Byte
  deriving DecidableEq, Repr

/-- A value that waits to take effect, in a port's mirage bank or for a later point (R93, R122, R165, R315): its entry, its value, and the LSN of
a scheduled write. -/
structure MirageVal where
  key : Nat
  value : Nat
  at_ : Option Nat
  origin : Origin
  deriving DecidableEq, Repr

/-- The dictionary's doors (R451, R457, R475 to R477). -/
structure Doors where
  schedule : List Sched
  crvStaging : Option Staging
  mbStaging : Option Staging
  mbBusy : Bool
  /-- The high word latched by a 4-byte low read of an 8-byte BAR4 slot (R475). -/
  bar4Latch : Option (Nat × W32)
  /-- The low word of an 8-byte entry that waits for its high word (R476). -/
  bar4Low : Option (Nat × W32)
  /-- Writes held for a later point (R165, R297, R315, R527), in order of acceptance. -/
  deferred : List MirageVal
  deriving DecidableEq, Repr

/-- PCI Express and the interrupt path (R483 to R505). -/
structure Pcie where
  linkUp : Bool
  /-- GLB_LINK speed code and width. -/
  speed : BitVec 4
  width : BitVec 5
  /-- A Link Up has occurred since the last conventional reset (R487). -/
  linkedSinceReset : Bool
  busMaster : Bool
  d3hot : Bool
  ptmEnable : Bool
  /-- MSI-X Enable and Function Mask of the capability's Message Control register. -/
  msixEnable : Bool
  msixFunctionMask : Bool
  /-- Pending bits (R493, R496), vector numbers strictly rising. -/
  msixPending : List Nat
  /-- Vectors with a cause held by the holdoff (R497), strictly rising. -/
  heldOff : List Nat
  /-- DT of the last message of each vector (R497), 0 when none. -/
  lastSent : Map
  /-- The high words latched by low-word reads (R226), by register offset, offsets strictly rising. -/
  counterLatch : List (Nat × W32)
  /-- t1 of the PTM dialogue in progress (R502). -/
  ptmT1 : Option Nat
  /-- Consecutive dialogues with |e| at most 100 ns, and consecutive failed ones (R502). -/
  ptmGood : Nat
  ptmFails : Nat
  /-- The configuration registers as written (R488, R504), by offset; one at its default is not listed. -/
  cfg : Map
  deriving DecidableEq, Repr

/-- How DT is steered at present (R456). -/
inductive Steer where
  | none | half | rate
  deriving DecidableEq, Repr

/-- What a node keeps of a valid CYCLE frame that it processed with a good FCS (R455). -/
structure CycleRec where
  cycle : Nat
  time : Nat
  a : Nat
  b : Nat
  processed : Bool
  deriving DecidableEq, Repr

/-- A ticket of R448: its request slot, its stored answer, and the CYCLE frames since it completed. -/
structure Ticket where
  number : Byte
  slot : List Byte
  answer : Option (List Byte)
  age : Nat
  /-- A SEG_WRITE with LAST: the status code of its staging, and the whole value that it submits (R451). -/
  staged : Nat × List Byte
  deriving DecidableEq, Repr

/-- The Caravan node (R438 to R459). -/
structure Crv where
  port0Up : Bool
  port1Up : Bool
  /-- Forwarding and the hardwired responders run (R479). -/
  forwarding : Bool
  mac : Option Nat
  /-- The last valid CYCLE frame: its CYCLE and arrival time. -/
  lastCycle : Option (Nat × Nat)
  /-- a_n of frames that have passed outbound and not returned: (CYCLE, DT), newest first (R455). -/
  outbound : List (Nat × Nat)
  prev : Option CycleRec
  /-- Twice each path-delay sample, so that halves are kept, newest first (R455). -/
  samples : List Int
  /-- Two consecutive CYCLE frames have arrived since the controller was learned (R453). -/
  armed : Bool
  expired : Bool
  /-- Consecutive CYCLE frames with |e| at most 100 ns (R456). -/
  lockRun : Nat
  steer : Steer
  /-- The rate by which DT is steered, in ppm of its own rate; negative where it is slowed (R456). -/
  ratePpm : Int
  /-- The part of DT below 1 ns, in fs. -/
  dtFrac : Nat
  tickets : List Ticket
  nextTicket : Byte
  /-- The frames that a port sends, or that wait to be sent, oldest first: port, the DT at which sending starts and ends, bytes (R452). -/
  sending : List (Nat × Nat × Nat × Nat)
  deriving DecidableEq, Repr

/-- A ledger entry (R581) as its 128 bytes with its SEQ. -/
structure LedgerEntry where
  seq : Nat
  bytes : List Byte
  deriving DecidableEq, Repr

/-- The ledger (R581 to R588). -/
structure Ledger where
  /-- The newest entries, newest first, at most 32,768. -/
  entries : List LedgerEntry
  /-- The number of entries appended since boot; HEAD_SEQ is one less. -/
  count : Nat
  headHash : List Byte
  genesisPrev : List Byte
  /-- Entries below this SEQ have been taken by the spill ring. -/
  spilled : Nat
  /-- The unretired entries at or above 24,576 raised LEDGER_HIGH, not yet lowered (R585). -/
  high : Bool
  /-- Entries lost and not yet named by a kind 12 entry: count and first SEQ. -/
  lostUnnamed : Nat
  lostFirst : Nat
  lastLostEntry : Option Nat
  readWindow : List Byte
  deriving DecidableEq, Repr

/-- A Saffron operation in progress (R578). -/
structure SafOp where
  op : Nat
  slot : Nat
  key : Nat
  /-- The image that one read pass of Oasis took (R579). -/
  image : List Byte
  /-- That pass met no uncorrectable error (R341). -/
  clean : Bool
  /-- It is a PROGRAM of an image that verifies: its slot is being erased and programmed (R579). -/
  flashing : Bool
  deriving DecidableEq, Repr

/-- The verified image in the running device (R571, R572). -/
structure RunImage where
  slot : Nat
  keyIndex : Nat
  fwVersion : Nat
  secVersion : Nat
  payloadDigest : List Byte
  deriving DecidableEq, Repr

/-- Saffron (R563 to R580). -/
structure Saf where
  flash : Mem
  /-- Fuses that the device itself sets (R569): the count of SEC_FUSED ones and REVOKED. -/
  secFused : Nat
  revoked : BitVec 4
  image : Option RunImage
  /-- AUTH codes of slots 0 to 2 (R570). -/
  codes : Nat × Nat × Nat
  op : Option SafOp
  aliasSeed : List Byte
  /-- The nonce of the attestation being generated (R576). -/
  attesting : Option (List Byte)
  /-- An integrity failure has requested a reset in 100 ms, unless SAF_CMD is written (R573). -/
  integrityPending : Bool
  /-- The host has written SAF_CMD since the integrity failure. -/
  cmdWritten : Bool
  deriving DecidableEq, Repr

/-- Why a level of R553 is in force. -/
structure Therm where
  /-- Per core, the thermal cap in MHz. -/
  caps : Vector Nat 32
  /-- Junction sensors over T_CAP and not yet released, strictly rising. -/
  capSensors : List Nat
  /-- A stack sensor is over 85 °C and none has since fallen below 83 °C: refresh is to be doubled (R337). -/
  hotStack : Bool
  stackCap : Bool
  operating : Bool
  cold : Bool
  /-- DT since which a stack sensor has been at or over 95 °C. -/
  stackHotSince : Option Nat
  /-- A thermal trip holds the reset until every sensor is below 100 °C. -/
  tripHeld : Bool
  deriving DecidableEq, Repr

/-- Clocks, supplies and domains (R535 to R557). -/
structure Pwr where
  /-- Powered domains: cores, front slices, detection, PCIe; the quadrants and engines follow OASIS_QPOWER and OPT_POWER. -/
  cores : BitVec 32
  slices : BitVec 4
  quadrants : BitVec 4
  engines : BitVec 6
  detection : Bool
  pcie : Bool
  /-- A supply warning is in force (R544). -/
  warning : Bool
  /-- DT at which it came into force, and the lowest reading since (R546). -/
  warnSince : Nat
  warnMin : Nat
  /-- VDD_CORE is below the clear level, so core clocks are stretched (R545). -/
  dip : Bool
  /-- The fast limit stretches the clocks (R550). -/
  limitFast : Bool
  /-- DT since which the core clocks are stretched (PWR_STRETCH_NS). -/
  stretchSince : Option Nat
  /-- Per core, the cap that the supply warning sets (R544); the caps of the limiter and of AVS. -/
  warnCaps : Vector Nat 32
  limiterCap : Nat
  avsCap : Nat
  /-- AVS (R542): the target asked for and not reached, and the last target that was reached. -/
  avsRequested : Option Nat
  avsReached : Nat
  /-- DT at which the regulator last reported a target reached (R543), with the old target. -/
  avsSettle : Option (Nat × Nat)
  /-- The sustained-limit mean, the estimates of the present 1 ms (sum and count) and the energy below 1 mJ, in µJ. -/
  lastMean : Nat
  /-- The readings of VDD_CORE of the last 1 ms, newest first: DT and mV (VDD_MEASURED). -/
  readings : List (Nat × Nat)
  powerSum : Nat
  powerCount : Nat
  energyUj : Nat
  therm : Therm
  /-- The reset record (R557). -/
  reason : Nat
  prevReason : Nat
  rail : Nat
  resets : Nat
  deriving DecidableEq, Repr

end Sys2Proof.Machine
end

