-- ==== Sys2Proof/Machine/StateCompute.lean ====
section
/-! DEFINITION. The parts of the state that belong to quantisation trackers, cores, the context unit, detection, the stream engine and the command
unit (chapters 4 to 10). Plain data only. -/

namespace Sys2Proof.Machine

/-! ### Quantisation trackers (R158 to R173) -/

/-- The largest and the smallest finite value of a group of channels; none where no element entered. -/
abbrev Extent := Option (Rat × Rat)

/-- One group entry of a published slot: BF16 scale, zero point, zero-range mark (R164). -/
structure SlotEntry where
  scale : Nat
  zero : Nat
  zr : Bool
  deriving DecidableEq, Repr

/-- A published slot (R161, R164). -/
structure PubSlot where
  lgn : Int
  flags : Nat
  used : Nat
  entries : List SlotEntry
  deriving DecidableEq, Repr

/-- Statistics of one line group or of one tile (R159, R169). The sums are binary64 values. -/
structure QStats where
  lgn : Int
  /-- Of the second part of a group closed short at HOLD (R38). -/
  part2 : Bool
  tiles : Nat
  ext : List Extent
  sse : Rat
  signal : Rat
  elements : Nat
  saturated : Nat
  nonfinite : Nat
  amax : Rat
  deriving DecidableEq, Repr

/-- One tracked tensor. -/
structure Tensor where
  /-- The history (R160): group and per-group extents, newest group first, at most 8 groups. -/
  hist : List (Int × List Extent)
  open_ : List QStats
  /-- The parts of groups that have closed: group, second part. -/
  closed : List (Int × Bool)
  slots : List PubSlot
  /-- The window was reset since the last publication (R168). -/
  reset : Bool
  deriving DecidableEq, Repr

/-! ### Cores (R177 to R273) -/

/-- CORE_STATUS.PHASE (R226), without the values OFFLINE and ABANDONING, which the core's other fields give. -/
inductive CorePhase where
  | idle | load | compute | writeout
  deriving DecidableEq, Repr

/-- What a core's sequencer waits for (R267). -/
inductive CoreWait where
  /-- TWAIT on an object for a target, with the halo side (0, 1, 2), the deadline in groups and the HDESC index. -/
  | sync (object target side : Nat) (deadline : Nat) (hdesc : Nat)
  deriving DecidableEq, Repr

/-- An instruction that has issued and whose completion nothing has shown yet (R213, R243): its index in the program, its dependence groups, the units
it holds, the byte ranges it writes, the resident regions that its completion makes valid (R199), and whether it is known to be incomplete: a
multicast copy that has not landed, or an instruction that waits in the context port. -/
structure Flight where
  index : Nat
  groups : Nat
  units : List Nat
  ranges : List (Nat × Nat)
  regions : List (Nat × Nat)
  waits : Bool
  deriving DecidableEq, Repr

/-- A TCTX in the queue of the context port (R244): its word, its index in the program, and the STATE_DEADLINE (R329) and the predicate registers (R268)
in force at its issue. -/
structure CtxOp where
  word : Nat
  index : Nat
  deadline : Nat
  preds : List (Nat × Nat)
  deriving DecidableEq, Repr

/-- An UPDATE request that is staged (R320, R322): register, entry address or skip, web LSN, the expanded vector, ALPHA. -/
structure StagedUpdate where
  p : Nat
  addr : Nat
  lsn : Nat
  vec : List Rat
  alpha : Rat
  deriving DecidableEq, Repr

/-- A candidate or a box (R282 to R293), edges in 1/16 units, Y relative to the group's first line. -/
structure Box where
  score : Nat
  cls : Nat
  x0 : Int
  y0 : Int
  x1 : Int
  y1 : Int
  device : Nat
  stripe : Nat
  pos : Nat
  anchor : Nat
  continues : Bool
  border : Bool
  deriving DecidableEq, Repr

/-- A staged effect of a tile, in the order of issue (R263, R322). -/
inductive Staged where
  | update (u : StagedUpdate)
  | state (bytes : List Byte)
  | tokens (bytes : List Byte)
  deriving DecidableEq, Repr

/-- The commit outcome of a tile on its core (R266). -/
inductive Commit where
  | undecided | won | lost
  deriving DecidableEq, Repr

/-- The tile that a core holds (R239). -/
structure Tile where
  tsn : Nat
  tag : Nat
  g : Int
  part2 : Bool
  stripe : Nat
  firstLsn : Nat
  /-- The OPEs in service when it was drawn: its logical OPEs are counted among them (R192). -/
  opes : BitVec 8
  /-- Index of the next instruction. -/
  pc : Nat
  commit : Commit
  wait : Option CoreWait
  /-- Substituted halo sides: (side, HDESC index), and whether the fill has been made (R392). -/
  subst : List (Nat × Nat × Bool)
  flights : List Flight
  /-- The queue of the context port, oldest first (R241, R244). -/
  ctxq : List CtxOp
  /-- Ranges of Oasis that its stores have written. -/
  stored : List (Nat × Nat)
  /-- Banks that drain: (OPE, quad or 4, bank) (R187, R188). -/
  draining : List (Nat × Nat × Nat)
  stats : List (Nat × QStats)
  staged : List Staged
  cands : List Box
  /-- Candidates of the tile were presented by a TDET. -/
  tdet : Bool
  dataError : Bool
  deriving DecidableEq, Repr

/-- One core. -/
structure Core where
  /-- Taken by trimming, or out of service under R182. -/
  taken : Bool
  failed : Bool
  opes : BitVec 8
  trimBusy : BitVec 8
  quad : BitVec 8
  phase : CorePhase
  parked : Bool
  tm : Mem
  /-- How often tile memory and accumulators have become undefined. -/
  epoch : Nat
  /-- Accumulator patterns by OPE × 2048 + bank × 1024 + row × 32 + column; an unlisted cell is undefined. -/
  acc : Map
  /-- Bytes of tile memory words that hold an uncorrectable error and that nothing has overwritten since, bytes of words with a single-bit error, and
  accumulator cells with a parity error (R182, R189); errors arise without a command. -/
  tmPoison : List Nat
  tmSingle : List Nat
  accPoison : List Nat
  /-- The tile program held, with its job's tag. -/
  prog : Option (Nat × List Byte)
  /-- Rescale descriptor slots (R151, R230). -/
  slots : List Nat
  /-- The predicate registers P0 to P7: LO and HI (R238). -/
  preds : List (Nat × Nat)
  job : Option Nat
  tile : Option Tile
  /-- The valid resident regions: job, base, size; the one made valid last comes first (R199, R200). -/
  resident : List (Nat × Nat × Nat)
  uncorr : List Nat
  /-- The present step of the clock glide, in MHz (R223). -/
  mhz : Nat
  /-- Fill levels by OPE × 4 + quad (R220), and the levels that R220 gives while a stop of sand fill holds them at 0 or they still rise from it (R221,
  R546). -/
  sand : List Nat
  sandGoal : List Nat
  /-- Core clock cycles while powered, and those in LOAD, COMPUTE and WRITEOUT phases, since entry to ARMED, in 1/1000 cycle (R226). -/
  cycles : Nat
  loadCycles : Nat
  computeCycles : Nat
  writeoutCycles : Nat
  deriving DecidableEq, Repr

/-! ### The stream engine (R343 to R361) -/

/-- Where a slot of a stream stands (R347, R348). -/
inductive SlotState where
  | filling | full | written | spilling
  deriving DecidableEq, Repr

/-- A multicast round (R353, R354): its byte range and group; joined cores with their copies (tile address, Oasis address, bytes); delivery has
started. -/
structure Round where
  g : Int
  lo : Nat
  hi : Nat
  joined : List (Nat × List (Nat × Nat × Nat))
  started : Bool
  deriving DecidableEq, Repr

/-- A bound stream: its job, its argument slot, the descriptor's bytes and its block lists. A spill that was issued outlasts its job (R355): its tag
is then 4096, which no job has. -/
structure Stream where
  tag : Nat
  arg : Nat
  ring : Nat
  desc : List Byte
  extents : List (Nat × Nat × Nat)
  /-- Slots in use: slot number, group, state. -/
  slots : List (Nat × Int × SlotState)
  /-- Groups spilled or skipped; the next to spill is the lowest group not in this range. -/
  rounds : List Round
  onceDone : Bool
  deriving DecidableEq, Repr

/-- A copy in progress (R362): the two byte spaces, the wait and the signal. -/
structure CopyOp where
  desc : List Byte
  src : List (Nat × Nat × Nat)
  dst : List (Nat × Nat × Nat)
  deriving DecidableEq, Repr

/-! ### The command unit (R368 to R401) -/

/-- An argument slot (R378): kind, ring, length, address. -/
structure Arg where
  kind : Nat
  ring : Nat
  len : Nat
  addr : Nat
  deriving DecidableEq, Repr

/-- One drawn instance of a tile: TSN, core, live lease, ended (finished, lost or stopped). -/
structure Inst where
  tsn : Nat
  core : Nat
  lease : Bool
  ended : Bool
  deriving DecidableEq, Repr

/-- A tile of a well that has been drawn or that is decided. -/
structure WellTile where
  g : Int
  part2 : Bool
  stripe : Nat
  insts : List Inst
  won : Option Nat
  finished : Bool
  cancelled : Bool
  reissue : Bool
  deriving DecidableEq, Repr

/-- A record that is ready on an output stream (R360): its body where it has left Oasis, with the spool pages it holds. -/
structure ReadyRec where
  g : Int
  part2 : Bool
  stripe : Nat
  tsn : Nat
  flags : Nat
  body : List Byte
  /-- Pages of the spool that it holds; none while it is in Oasis, or in the detection unit. -/
  pages : List Nat
  /-- The record was ready before its on-time deadline, behind an earlier one (R44). -/
  early : Bool
  /-- It found too few pages of the spool free and waits for them (R361). -/
  waits : Bool
  deriving DecidableEq, Repr

/-- Missed records of one stream that are coalesced (R43, R401): first group, first stripe, number of groups, whether they begin in the second part, and
DT of the classification (R400). -/
structure MissedRun where
  g : Int
  stripe : Nat
  count : Nat
  part2 : Bool
  dt : Nat
  deriving DecidableEq, Repr

/-- An output stream of a job (R45, R378): an EGRESS stream of an argument slot, or the detection list. -/
structure OutStream where
  ring : Nat
  arg : Option Nat
  pitch : Nat
  /-- The next record in order: group, second part, stripe. -/
  g : Int
  part2 : Bool
  stripe : Nat
  ready : List ReadyRec
  /-- Missed records not yet written, coalesced, oldest first (R43). -/
  missed : List MissedRun
  deriving DecidableEq, Repr

/-- A job that has started (R379). -/
structure Job where
  well : Nat
  detRing : Nat
  prog : Nat
  first : Option Int
  count : Nat
  lease : Nat
  halo : Nat
  gate : Option (Nat × Nat)
  cores : Nat
  args : List Arg
  tiles : List WellTile
  /-- Every group up to this one is cancelled (R382). -/
  cancelledTo : Option Int
  missedGroups : Nat
  outs : List OutStream
  opes : Nat
  /-- Cameras whose rings the job reads, and the newest complete group when it started (R357). -/
  reads : Nat
  since : Option Int
  finishedTiles : Nat
  dups : Nat
  flags : Nat
  refused : Option Nat
  deriving DecidableEq, Repr

/-- A missed or missed-run record that waits for space in a result ring after its job has completed (R43, R394, R401): ring, the job's tag, whether its
stream is the detection list, whether the job's command is still in flight, and the record. -/
structure Owed where
  ring : Nat
  tag : Nat
  list : Bool
  inFlight : Bool
  run : MissedRun
  deriving DecidableEq, Repr

/-- Where a command stands. -/
inductive CmdStage where
  | read | waiting | running | done (status detail : Nat)
  deriving DecidableEq, Repr

/-- A command in flight (R374). -/
structure Cmd where
  queue : Nat
  index : Nat
  tag : Nat
  bytes : List Byte
  stage : CmdStage
  /-- The tag was already in use (R374): the record holds no tag. -/
  noTag : Bool
  /-- Run-ahead could not bind its arguments (R345, R501): the status with which its start refuses it. -/
  argsBad : Option Nat
  job : Option Job
  copy : Option CopyOp
  deriving DecidableEq, Repr

/-! ### Context and detection (R300 to R331, R282 to R299) -/

/-- The phase record of a trigger (R314): LSN and the bin of each enabled register. -/
structure PhaseRec where
  lsn : Nat
  bins : List (Option Nat)
  deriving DecidableEq, Repr

/-- A committed tile's effects that are to be applied (R323). -/
structure CtxBatch where
  core : Nat
  g : Int
  part2 : Bool
  stripe : Nat
  firstLsn : Nat
  tag : Nat
  effects : List Staged
  deriving DecidableEq, Repr

/-- A token slot (R305 to R308). -/
structure TokSlot where
  g : Int
  present : List Nat
  frozen : Bool
  sent : Bool
  deriving DecidableEq, Repr

/-- A stored state (R309, R310): group, stripe, second part, and the first group at whose completion it was stored already, or in whose completion's
cycle it was stored (R311); none where no group had completed. -/
structure StoredState where
  g : Int
  stripe : Nat
  part2 : Bool
  by_ : Option Int
  deriving DecidableEq, Repr

/-- The context unit. -/
structure Ctx where
  records : List PhaseRec
  /-- Position of the notional thr of timer and camera modes (R312). -/
  thr : Nat
  clearing : BitVec 8
  batches : List CtxBatch
  tokens : List TokSlot
  stored : List StoredState
  /-- The events written that are limited to one per line group, by status bit and group (R331). -/
  lastEvent : Map
  deriving DecidableEq, Repr

/-- A group slot of the detection unit (R286), through suppression and the cross-device step. -/
structure DetSlot where
  g : Int
  part2 : Bool
  cands : List Box
  received : Nat
  /-- FLAGS of the list so far. -/
  flags : Nat
  suppressed : Nat
  dropped : Nat
  /-- The kept boxes after suppression; none before it. -/
  kept : Option (List Box)
  /-- IOU_THRESH as tq, AGNOSTIC and CARRY_LINES as they were when the suppression started (R297). -/
  tq : Int
  agnostic : Bool
  carryLines : Nat
  tag : Nat
  deriving DecidableEq, Repr

/-- A border set received from a neighbour (R290): side (0 West, 1 East), group, cut flag, boxes. -/
structure BorderSet where
  side : Nat
  g : Int
  boxes : List Box
  deriving DecidableEq, Repr

/-- The detection unit. -/
structure Det where
  slots : List DetSlot
  sets : List BorderSet
  /-- Boxes carried on from listed groups (R289), with the group. -/
  carry : List (Int × Box)
  /-- The newest group listed or declared missed. -/
  last : Option Int
  /-- The events written, by status bit and group (R299). -/
  lastEvent : Map
  deriving DecidableEq, Repr

/-- Cross-unit state of the command unit. -/
structure CmdUnit where
  /-- Commands in flight, oldest first. -/
  cmds : List Cmd
  /-- Values of the synchronisation objects; an unlisted one has the value of SYNC_INIT at the last entry to ARMED. -/
  syncs : Map
  syncInit : Nat
  tsn : Nat
  /-- The parts of groups of which a tile has committed (R160): group, second part; the latest 64. -/
  committed : List (Int × Bool)
  /-- Substituted halo sides (R393): group, stripe, bits. -/
  haloBits : List (Int × Nat × Nat)
  streams : List Stream
  regCopy : Option CopyOp
  /-- Pages of the spool in use. -/
  spoolUsed : List Nat
  spoolHigh : Bool
  /-- Where run-ahead has stopped: queue and index of the command (R350). -/
  stops : List (Nat × Nat)
  /-- Discarded events not yet named by an events-lost record (R371). -/
  eventsLost : Nat
  /-- Records of each result ring since its SLOTS was written (R400 SEQ). -/
  seqs : Map
  abortBusy : Bool
  /-- Missed records of jobs that have completed, oldest first. -/
  owed : List Owed
  /-- The tags whose last command has passed its commit point (R395). -/
  ended : List Nat
  /-- The events written that are limited to one per line group, by key and group (R354, R367, R384, R392). -/
  lastEvent : Map
  deriving DecidableEq, Repr

/-! ### Initial values -/

def Tensor.init : Tensor := { hist := [], open_ := [], closed := [], slots := [], reset := false }

def Core.init : Core :=
  { taken := false, failed := false, opes := 0xFF, trimBusy := 0, quad := 0, phase := .idle, parked := false, tm := [], epoch := 0,
    acc := [], tmPoison := [], tmSingle := [], accPoison := [], prog := none, slots := List.replicate 64 0, preds := List.replicate 8 (0, 0), job := none,
    tile := none, resident := [], uncorr := [], mhz := 0, sand := List.replicate 32 0, sandGoal := List.replicate 32 0, cycles := 0, loadCycles := 0, computeCycles := 0, writeoutCycles := 0 }

def Ctx.init : Ctx := { records := [], thr := 0, clearing := 0, batches := [], tokens := [], stored := [], lastEvent := [] }
def Det.init : Det := { slots := [], sets := [], carry := [], last := none, lastEvent := [] }
def CmdUnit.init : CmdUnit :=
  { cmds := [], syncs := [], syncInit := 0, tsn := 1, committed := [], haloBits := [], streams := [], regCopy := none, spoolUsed := [], spoolHigh := false, stops := [],
    eventsLost := 0, seqs := [], abortBusy := false, owed := [], ended := [], lastEvent := [] }

end Sys2Proof.Machine
end

