-- ==== Sys2Proof/Machine/StateIngress.lean ====
section
/-! DEFINITION. The parts of the state that belong to camera ingress and the raw front slices (chapters 2 and 3) and to flat-field learning
(chapter 14). Plain data only. -/

namespace Sys2Proof.Machine

/-- The states of a port (R79), in the order of CAM_STATUS.STATE. -/
inductive PortState where
  | down | discovery | idle | frame | line | failed
  deriving DecidableEq, Repr

/-- Where discovery stands (R63). `waitSlot` waits for a host request that holds the control channel (R66). -/
inductive DiscStep where
  | none | waitSlot | revision | model | ident | configure | lanes | readback
  deriving DecidableEq, Repr

/-- A control-channel request of the host (R66). `sent` is false while it waits for discovery to end. -/
structure CcHost where
  write : Bool
  addr : Nat
  len : Nat
  data : List Byte
  sent : Bool
  deriving DecidableEq, Repr

/-- A line cycle that the port still has to answer (R74), and what has arrived for it. It is pending while it has received fewer than n rows;
afterwards it stays until its last row is terminated. -/
structure PendEntry where
  x : Int
  dt : Nat
  /-- Row markers accepted. -/
  marks : Nat
  /-- Rows terminated, in order. -/
  rows : List (List W16)
  /-- LINE_FLAGS gathered so far (R88). -/
  flags : Nat
  check : Bool
  /-- The line's number in its frame, 0 before its first row. -/
  idx : Nat
  /-- FIFO bytes and memory-path ring bytes reserved at admission (R80), 0 when not admitted. -/
  fifoBytes : Nat
  mpBytes : Nat
  /-- The drop reason decided at the first row (R80, R85), 0 when none. -/
  reason : Nat
  /-- Its first row opened outside RUN and HOLD, so that the line is discarded (R78). -/
  discard : Bool
  deriving DecidableEq, Repr

/-- A whole line or a placeholder on its way to the front slice (R87, R88). -/
structure CamLine where
  x : Int
  dt : Nat
  flags : Nat
  /-- A placeholder: every pixel takes `fill` (R110). -/
  filled : Bool
  fill : Nat
  rows : List (List W16)
  reason : Nat
  fifoBytes : Nat
  mpBytes : Nat
  /-- A memory-path line that stands in its DRAM ring (R99), at this byte offset of the ring. -/
  stored : Option Nat
  deriving DecidableEq, Repr

/-- The open row of state LINE: the extended count of its entry, none where its data is discarded. -/
structure OpenRow where
  entry : Option Int
  pixels : List W16
  check : Bool
  trunc : Bool
  deriving DecidableEq, Repr

/-- The open frame (R83, R92). -/
structure Frame where
  /-- FLAGS of the frame record that are known: continuation, no header, malformed. -/
  flags : Nat
  firstLsn : Option Nat
  rows : Nat
  lines : Nat
  checkErrors : Nat
  malformed : Nat
  /-- The rest of the frame is shed (R121). -/
  shed : Bool
  deriving DecidableEq, Repr

/-- A drop run that is not closed (R54, R91). -/
structure DropRun where
  reason : Nat
  firstX : Int
  count : Nat
  deriving DecidableEq, Repr

/-- One camera port. -/
structure Port where
  state : PortState
  /-- Locked lanes, one bit per port lane. -/
  locks : BitVec 4
  step : DiscStep
  ccHost : Option CcHost
  /-- The device identifier of the last successful discovery since entry to PREOP (R64), and the one that this discovery has read. -/
  recorded : Option (List Byte)
  seenRevision : List Byte
  seenIdent : List Byte
  /-- The first stream identifier after discovery (R69). -/
  stream : Option Byte
  hbOk : Bool
  pend : List PendEntry
  owed : Nat
  row : Option OpenRow
  open_ : Option Frame
  /-- A terminated line that waits for what follows it (R88). -/
  held : Option CamLine
  /-- Placeholders that wait for earlier lines of the port (R87), in rising order. -/
  later : List CamLine
  run : Option DropRun
  /-- The rows of the port's previous line delivered in RUN (R84). -/
  prev : Option (List (List W16))
  /-- Lines passed to the front slice and not yet started, in order. -/
  queue : List CamLine
  /-- Ingress FIFO occupancy in bytes, reserved space included. -/
  fifo : Nat
  fifoHigh : Bool
  mirage : List MirageVal
  deriving DecidableEq, Repr

/-- A parameter set bound to a frame or a line and not yet live (R122 to R124). -/
structure BoundSet where
  number : Nat
  values : List MirageVal
  table : Bool
  /-- The line at which it goes live; none until the frame's first line opens. -/
  first : Option Int
  deriving DecidableEq, Repr

/-- The stages of flat-field learning (R521 to R524), in the order of FF_STATE. -/
inductive FfStage where
  | off | learning | computing | ramping
  deriving DecidableEq, Repr

/-- Flat-field learning of one port. The parameters are those in force since the period's start (R527). -/
structure FfPort where
  stage : FfStage
  lines : Nat
  counted : Nat
  /-- Sums S, then target gains, by table index. -/
  values : Map
  learnLines : Nat
  rampLines : Nat
  gainMin : Nat
  gainMax : Nat
  minLevel : Nat
  /-- The last computation's clamped pixels (FF_CLAMPED_LAST). -/
  clampedLast : Nat
  /-- Web LSN of the last ramp start, and of the port's last processed line. -/
  rampLsn : Nat
  lastLsn : Nat
  deriving DecidableEq, Repr

/-- An output line whose f_a input lines are being written (R116, R117). -/
structure TagAcc where
  m : Int
  flags : Nat
  fsFlags : Nat
  sat : Nat
  dt : Nat
  deriving DecidableEq, Repr

/-- The front-slice part of a port. -/
structure FsPort where
  /-- The live and the mirage calibration table (R106, R125): by index; the default entry is BLACK 0, GAIN 0x4000. -/
  live : Map
  mirror : Map
  tablePending : Bool
  copyBusy : Bool
  bank : List MirageVal
  bound : Option BoundSet
  /-- The last PARAM_SET number given at a binding. -/
  lastSet : Nat
  /-- The previous-line store: stage-5 values per row (R108), none when empty. -/
  store : Option (List (List Int))
  /-- Output lines whose tags are written and that are not released (R117, R118), oldest first. -/
  written : List Int
  acc : Option TagAcc
  /-- The newest group whose slots have been released (R357), none before the first. -/
  released : Option Int
  /-- FS_RING_WRPOS on the extended count. -/
  wrpos : Int
  /-- Memory-path ring: bytes admitted and not read back, the next byte offset, and the shed state (R120, R121). -/
  mpLevel : Nat
  mpNext : Nat
  shed : Bool
  /-- The input ring is between its high mark and its low mark (R47). -/
  ringHigh : Bool
  /-- Landed lines and lines in the DRAM extension (R358), oldest first. -/
  landed : List Int
  ext : List Int
  /-- A landing copy waits for a full extension, and EXT_FULL has been raised for it (R358). -/
  extWaits : Bool
  ff : FfPort
  /-- The last line group for which each of the rate-limited events of R130 was written: defect, saturation. -/
  defectGroup : Option Int
  satGroup : Option Int
  deriving DecidableEq, Repr

/-- The line that a slice processes (R119): its stage-5 values, marks and tag fields are fixed at its start. -/
structure SliceRun where
  port : Fin 4
  line : CamLine
  fsFlags : Nat
  /-- Per row, per pixel: the value after stage 5 and whether a stage clamped. -/
  values : List (List (Int × Bool))
  deriving DecidableEq, Repr

/-- One front slice. -/
structure Slice where
  run : Option SliceRun
  /-- DT since which the in-line camera's next line has been ready behind another line (R119); none while no such line is ready. -/
  waitSince : Option Nat
  initBusy : Bool
  deriving DecidableEq, Repr

/-- Flat-field state at rest. -/
def FfPort.init : FfPort :=
  { stage := .off, lines := 0, counted := 0, values := [], learnLines := 4096, rampLines := 4096, gainMin := 0x2000, gainMax := 0x8000,
    minLevel := 64, clampedLast := 0, rampLsn := 0, lastLsn := 0 }

/-- A port after reset: down, nothing locked (R96). -/
def Port.init : Port :=
  { state := .down, locks := 0, step := .none, ccHost := none, recorded := none, seenRevision := [], seenIdent := [], stream := none,
    hbOk := false, pend := [], owed := 0, row := none, open_ := none, held := none, later := [], run := none, prev := none, queue := [],
    fifo := 0, fifoHigh := false, mirage := [] }

/-- The slice part of a port after reset: both tables at BLACK 0, GAIN 0x4000. -/
def FsPort.init : FsPort :=
  { live := [], mirror := [], tablePending := false, copyBusy := false, bank := [], bound := none, lastSet := 0, store := none,
    written := [], acc := none, released := none, wrpos := 0, mpLevel := 0, mpNext := 0, shed := false, ringHigh := false, landed := [], ext := [], extWaits := false, ff := FfPort.init,
    defectGroup := none, satGroup := none }

/-- A slice after reset: idle. -/
def Slice.init : Slice := { run := none, waitSince := none, initBusy := false }

end Sys2Proof.Machine
end

