-- ==== Sys2Proof/Machine/StateLinks.lean ====
section
/-! DEFINITION. The parts of the state that belong to the Rolotte links (chapter 11), to trimming (chapter 14) and to the DRAM scrub (R338). Plain
data only. -/

namespace Sys2Proof.Machine

/-- The states of a link (R410), in the order of their codes. -/
inductive LinkState where
  | down | lock | align | negotiate | linked | retrain | failed
  deriving DecidableEq, Repr

/-- A message that waits to be sent on a link (R420, R423): its class, its line group, whether the device made it, its bytes, and how many of
them have gone. -/
structure LinkMsg where
  cls : Nat
  lgn : Nat
  own : Bool
  bytes : List Byte
  gone : Nat
  deriving DecidableEq, Repr

/-- A halo channel (R424 to R427). -/
structure HaloCh where
  /-- The last group that the channel sent. -/
  lastTx : Option Int
  /-- The next group of the order of R427, none before the first group is known, and the later groups that have been written. -/
  next : Int
  written : List Int
  /-- The newest groups that the order has passed over, as nothing was written for them in time (R427, R428). -/
  passed : List Int
  deriving DecidableEq, Repr

/-- One side link (R407 to R433). -/
structure Link where
  state : LinkState
  light : Bool
  /-- Receive lanes that are locked, lanes that carry no flits (R414, R510), and the lanes in use. -/
  locked : BitVec 8
  excluded : BitVec 8
  /-- The lanes that stay excluded, since the link has retrained to 4 lanes without them (R414). -/
  kept : BitVec 8
  unusable : BitVec 8
  active : BitVec 8
  /-- A valid training message has been received (R411). -/
  seen : Bool
  /-- Next SEQ to send, the sequenced flits not yet covered by an ACK (oldest first), and how many of those have been sent since the last
  resend began. -/
  txSeq : Nat
  replay : List (Nat × List Byte)
  resent : Nat
  /-- Consecutive resends without ACK progress (R418). -/
  resends : Nat
  /-- The SEQ expected, a NAK owed, and whether a discard has followed the last accepted flit. -/
  rxSeq : Nat
  nakOwed : Bool
  discarded : Bool
  /-- Per class: flits sent, the partner's released total, flits released here, flits in the receive buffer; the class reported next (R419). -/
  sent : Vector Nat 4
  freed : Vector Nat 4
  released : Vector Nat 4
  buffered : Vector Nat 4
  creditTurn : Nat
  /-- Messages to send, in order of their making, and the message of each class whose bytes are arriving (R420). -/
  queue : List LinkMsg
  partials : Vector (Option (List Byte)) 4
  /-- Whole messages that have arrived and not yet taken effect: class and bytes. -/
  inbox : List (Nat × List Byte)
  chans : Vector HaloCh 4
  /-- The last two CHAIN bodies, newest first (R430). -/
  chain : List (List Byte)
  /-- The newest line group whose BARRIER has arrived or is not awaited (R432). -/
  barrierAt : Int
  /-- The events written that are limited to one per line group, by bit and group (R437). -/
  lastEvent : Map
  deriving DecidableEq, Repr

/-- A unit that is due for an item, or an item that runs (R509, R512). For DRAM_ROW, `unit` is the channel and `addr` the block's address. -/
structure TrimItem where
  kind : Nat
  unit : Nat
  addr : Nat
  forced : Bool
  /-- DT at which it became due, and whether it is overdue (R514). -/
  since : Nat
  overdue : Bool
  /-- DT at which its unit left service; 0 before (R509, R532). -/
  took : Nat
  deriving DecidableEq, Repr

/-- Trimming (R509 to R520) and the scrub's record of errors (R338, R512). -/
structure Trim where
  due : List TrimItem
  running : List TrimItem
  /-- Bytes of TRIM_MAP that differ from the fused ones (R531), and SPARES_MIN values that differ. -/
  map : List (Nat × Nat)
  spares : List (Nat × Nat)
  /-- Spare rows in use per bank, where they differ from the fused number. -/
  bankRows : List (Nat × Nat)
  /-- Failed die-to-die wires with no spare: engine, wire (R510). -/
  dead : List (Nat × Nat)
  /-- OPE whose turn in the rotation comes next (R512). -/
  turn : Nat
  /-- Corrected errors by bond lane: (channel, lane, DT), within 1 s. -/
  laneErrors : List (Nat × Nat × Nat)
  /-- Rows with a corrected error: (channel, row, scrub pass of the channel). -/
  rowErrors : List (Nat × Nat × Nat)
  /-- Scrub position of each channel, in blocks, and its passes, where not 0. -/
  scrub : List (Nat × Nat)
  /-- PREOP has been entered since the last conventional reset, so the first sweep is owed no more (R512). -/
  swept : Bool
  deriving DecidableEq, Repr

def HaloCh.init : HaloCh := { lastTx := none, next := 0, written := [], passed := [] }

/-- A link after reset: DOWN, no light. -/
def Link.init : Link :=
  { state := .down, light := false, locked := 0, excluded := 0, kept := 0, unusable := 0, active := 0, seen := false, txSeq := 0,
    replay := [], resent := 0, resends := 0, rxSeq := 0, nakOwed := false, discarded := false, sent := Vector.replicate 4 0, freed := Vector.replicate 4 0,
    released := Vector.replicate 4 0, buffered := Vector.replicate 4 0, creditTurn := 0, queue := [], partials := Vector.replicate 4 none, inbox := [], chans := Vector.replicate 4 HaloCh.init,
    chain := [], barrierAt := 0, lastEvent := [] }

def Trim.init : Trim :=
  { due := [], running := [], map := [], spares := [], bankRows := [], dead := [], turn := 0, laneErrors := [], rowErrors := [], scrub := [], swept := false }

end Sys2Proof.Machine
end

