-- ==== Sys2Proof/Machine/State.lean ====
section
/-! DEFINITION. The whole state of the block, its faults and refusals, and the state after reset. -/

namespace Sys2Proof.Machine

/-- No command of this model faults: every failure that the spec describes is a status, a record or a reset. The one constructor keeps the type
inhabited; nothing raises it. Safe. -/
inductive Fault where
  | never
  deriving DecidableEq, Repr

/-- Why a command has no meaning. -/
inductive Refusal where
  /-- An arm of Dispatch.lean whose meaning is not written. Safe: the model stops. -/
  | notModelled (mnemonic : String)
  /-- An access to the manufacturing-test range 0xF000 to 0xFFFF outside RUN, whose effect R463 leaves undefined. Raised by the dictionary's
  doors. Safe: the model stops. -/
  | manufacturingTest (index : Nat)
  deriving DecidableEq, Repr

/-- The TV-7480. -/
structure State where
  /-- Device time DT in ns (R52, R535), 64 bits. -/
  dt : Nat
  dev : Dev
  web : Web
  /-- Camera ports and the front slices' part of each; the slices. -/
  ports : Vector Port 16
  fsPorts : Vector FsPort 16
  slices : Vector Slice 4
  /-- Tracked tensors that differ from the empty one, by number (R158). -/
  tensors : List (Nat × Tensor)
  cores : Vector Core 32
  cmd : CmdUnit
  ctx : Ctx
  det : Det
  /-- The side links: 0 West, 1 East. -/
  links : Vector Link 2
  trim : Trim
  /-- BAR0 registers that hold a value of their own, by offset; the default is the register's reset value. -/
  regs : Map
  /-- Dictionary scalars that hold a value of their own, by key; the default is the entry's default. -/
  dict : Map
  /-- STR and DOMAIN values that differ from empty, by key. -/
  blobs : Blobs
  doors : Doors
  pcie : Pcie
  crv : Crv
  ledger : Ledger
  saf : Saf
  pwr : Pwr
  /-- Host memory as the device sees it: 64-bit addresses. -/
  hostMem : Mem
  dram : Mem
  oasis : Mem
  /-- Bytes of DRAM blocks and of Oasis granules that hold an uncorrectable error and that nothing has overwritten since (R335, R341). -/
  dramPoison : List Nat
  oasisPoison : List Nat
  /-- Bytes of DRAM words with a single-bit error, with the bond lane that it came on, and bytes of Oasis words with one; such errors arise without a
  command (R335, R341). -/
  dramSingle : List (Nat × Nat)
  oasisSingle : List Nat
  /-- Event records raised and not yet written, in the order of R53. -/
  events : List EventRec
  /-- What the device has sent, oldest first. -/
  out : List Out
  /-- The model's own: how often storage has become undefined, and how many free values have been taken. -/
  memEpoch : Nat
  freeCtr : Nat
  /-- The commands that wait, first in, first out. -/
  pending : List Instr
  deriving DecidableEq, Repr

namespace State

/-- Device-state part after reset: BOOT (R469, R555). -/
def resetDev : Dev :=
  { state := .boot, request := none, safeCause := none, resetHeld := false, powerGood := true, firstEntryDone := false, authEnded := false,
    eventTimes := [] }

/-- Web part after reset (R56 defaults; R15's quantities are loaded at entry to ARMED, R19). -/
def resetWeb : Web :=
  { x := 0, lastLsn := 0, triggered := false, pos := 0, high := 0, next := 0, timerStart := 0, encLevels := none,
    windowCounts := 0, lastTrigger := Vector.replicate 16 none, completeGroup := none, completeDt := none, runGroup := false, firstSeen := Vector.replicate 16 none, shortParts := [] }

/-- Doors after reset. -/
def resetDoors : Doors :=
  { schedule := [], crvStaging := none, mbStaging := none, mbBusy := false, bar4Latch := none, bar4Low := none, deferred := [] }

/-- PCI Express after reset: no link, every vector masked (R504 step 5). -/
def resetPcie : Pcie :=
  { linkUp := false, speed := 0, width := 0, linkedSinceReset := false, busMaster := false, d3hot := false, ptmEnable := false,
    msixEnable := false, msixFunctionMask := false, msixPending := [], heldOff := [], lastSent := [], counterLatch := [], ptmT1 := none,
    ptmGood := 0, ptmFails := 0, cfg := [] }

/-- Caravan after power-on (R479: forwarding has not begun). -/
def resetCrv : Crv :=
  { port0Up := false, port1Up := false, forwarding := false, mac := none, lastCycle := none, outbound := [], prev := none, samples := [],
    armed := false, expired := false, lockRun := 0, steer := .none, ratePpm := 0, dtFrac := 0, tickets := [], nextTicket := 1, sending := [] }

/-- The ledger after reset: no chain (R588). -/
def resetLedger : Ledger :=
  { entries := [], count := 0, headHash := List.replicate 32 0, genesisPrev := List.replicate 32 0, spilled := 0, high := false,
    lostUnnamed := 0, lostFirst := 0, lastLostEntry := none, readWindow := [] }

/-- Saffron after reset; the fuses are those of the part at its first power-up. -/
def resetSaf : Saf :=
  { flash := [], secFused := Config.secFusedAtFirst.val, revoked := Config.revokedAtFirst, image := none, codes := (0, 0, 0), op := none,
    aliasSeed := [], attesting := none, integrityPending := false, cmdWritten := false }

/-- Temperature levels after reset: none in force. -/
def resetTherm : Therm :=
  { caps := Vector.replicate 32 2200, capSensors := [], hotStack := false, stackCap := false, operating := false, cold := false, stackHotSince := none,
    tripHeld := false }

/-- Supplies and domains after power-on: no switched domain powered but the Oasis quadrants (OASIS_QPOWER resets to 0xF) and reason 0x01. -/
def resetPwr : Pwr :=
  { cores := 0, slices := 0, quadrants := 0xF, engines := 0, detection := false, pcie := false, warning := false, warnSince := 0, warnMin := 0,
    dip := false, limitFast := false, stretchSince := none, warnCaps := Vector.replicate 32 2200, limiterCap := 2200, avsCap := 2200, avsRequested := none,
    avsReached := 750, avsSettle := none, lastMean := 0, readings := [], powerSum := 0, powerCount := 0, energyUj := 0, therm := resetTherm, reason := 1, prevReason := 0, rail := 0, resets := 0 }

/-- The machine right after a power-on reset (R555): BOOT, DT 0, every register and entry at its reset value. -/
def reset : State :=
  { dt := 0, dev := resetDev, web := resetWeb, ports := Vector.replicate 16 Port.init, fsPorts := Vector.replicate 16 FsPort.init,
    slices := Vector.replicate 4 Slice.init, tensors := [], cores := Vector.replicate 32 Core.init, cmd := CmdUnit.init, ctx := Ctx.init,
    det := Det.init, links := Vector.replicate 2 Link.init, trim := Trim.init, regs := [], dict := [], blobs := [], doors := resetDoors, pcie := resetPcie, crv := resetCrv,
    ledger := resetLedger, saf := resetSaf, pwr := resetPwr, hostMem := [], dram := [], oasis := [], dramPoison := [], oasisPoison := [], dramSingle := [], oasisSingle := [],
    events := [], out := [], memEpoch := 0,
    freeCtr := 0, pending := [] }

end State
end Sys2Proof.Machine
end

