-- ==== Sys2Proof/Machine/Ops.lean ====
section
/-! DEFINITION. The named operations over the state that every chapter shares: sparse storage, memory bytes, registers, dictionary scalars,
counters, events (R402, R403, R53) and interrupts (R495 to R498). -/

namespace Sys2Proof.Machine

/-- The Option-of-State answer of an operation that cannot fail. -/
abbrev Result := Host.Outcome State Fault Refusal

/-- Act on an event unless the device is held in reset (R541, R555). -/
def State.act (s : State) (f : State → State) : Result := .next (if s.dev.resetHeld then s else f s)

/-- ceil(a / b). -/
def ceilDiv (a b : Nat) : Nat := (a + b - 1) / b

/-! ### Sparse storage -/

/-- The value stored at a key. -/
def sparseGet {α : Type} (k : Nat) : List (Nat × α) → Option α
  | [] => none
  | (j, x) :: r => if k = j then some x else sparseGet k r

/-- Store a value at a key, or remove the key; keys stay strictly rising. -/
def sparseSet {α : Type} (k : Nat) (v : Option α) : List (Nat × α) → List (Nat × α)
  | [] => match v with
    | some x => [(k, x)]
    | none => []
  | (j, y) :: r =>
    if k < j then (match v with
      | some x => (k, x) :: (j, y) :: r
      | none => (j, y) :: r)
    else if k = j then (match v with
      | some x => (k, x) :: r
      | none => r)
    else (j, y) :: sparseSet k v r

/-- Are the keys strictly rising? -/
def keysRise {α : Type} : List (Nat × α) → Bool
  | [] => true
  | [_] => true
  | (j, _) :: (k, y) :: r => decide (j < k) && keysRise ((k, y) :: r)

/-- The number at a key of a map whose keys default to d. -/
def Map.get (m : Map) (d k : Nat) : Nat := (sparseGet k m).getD d
/-- Set the number at a key; a key at its default is not listed. -/
def Map.set (m : Map) (d k v : Nat) : Map := sparseSet k (if v = d then none else some v) m

/-! ### Memory bytes -/

/-- Memory in canonical form: addresses strictly rising. -/
def Mem.wf (m : Mem) : Bool := keysRise m
/-- The defined content of a byte, or none where nothing has written it since it became undefined. -/
def Mem.byte? (m : Mem) (a : Nat) : Option Byte := sparseGet a m
/-- Write one byte. -/
def Mem.setByte (m : Mem) (a : Nat) (b : Byte) : Mem := sparseSet a (some b) m
/-- Write bytes at rising addresses. -/
def Mem.write (m : Mem) (a : Nat) : List Byte → Mem
  | [] => m
  | b :: bs => Mem.write (m.setByte a b) (a + 1) bs
/-- Read n bytes of storage `space`; an undefined byte reads as the free value of its place and epoch (R183, R342, R539). -/
def Mem.read (m : Mem) (space epoch a : Nat) : Nat → List Byte
  | 0 => []
  | n + 1 => (m.byte? a).getD (Config.freeByte space epoch a) :: Mem.read m space epoch (a + 1) n
/-- Forget the bytes of [lo, hi): their content becomes undefined. -/
def Mem.forget (m : Mem) (lo hi : Nat) : Mem := m.filter fun c => decide (c.1 < lo) || decide (hi ≤ c.1)

/-- The names of the storages for free values: host memory, DRAM, Oasis, boot flash; the tile memory of core k is 16 + k. -/
def spaceHost : Nat := 0
def spaceDram : Nat := 1
def spaceOasis : Nat := 2
def spaceFlash : Nat := 3
def spaceTile (k : Nat) : Nat := 16 + k

/-- DRAM is 24 GiB (R331 onwards, the headline figures); an address at or above it does not exist. -/
def dramBytes : Nat := 24 * 2 ^ 30
/-- Oasis is 64 MiB. -/
def oasisBytes : Nat := 64 * 2 ^ 20

/-- The quadrant of an Oasis byte address (R339). -/
def oasisQuadrant (a : Nat) : Nat := a / 2 ^ 24 % 4
/-- Is an Oasis byte in a powered quadrant (R342)? -/
def State.oasisOn (s : State) (a : Nat) : Bool := s.pwr.quadrants.getLsbD (oasisQuadrant a)
/-- Bytes as read from Oasis at a: zero in a quadrant that is powered down (R342). -/
def State.oasisMask (s : State) (a : Nat) : List Byte → List Byte
  | [] => []
  | b :: bs => (if s.oasisOn a then b else 0) :: s.oasisMask (a + 1) bs
/-- Write bytes into Oasis: those in a quadrant that is powered down are discarded (R342). -/
def State.oasisPut (s : State) (m : Mem) (a : Nat) : List Byte → Mem
  | [] => m
  | b :: bs => s.oasisPut (if s.oasisOn a then m.setByte a b else m) (a + 1) bs

/-- Read n bytes of DRAM. -/
def State.readDram (s : State) (a n : Nat) : List Byte := s.dram.read spaceDram s.memEpoch a n
/-- Read n bytes of Oasis (R342). -/
def State.readOasis (s : State) (a n : Nat) : List Byte := s.oasisMask a (s.oasis.read spaceOasis s.memEpoch a n)
/-- Read n bytes of host memory. -/
def State.readHost (s : State) (a n : Nat) : List Byte := s.hostMem.read spaceHost 0 a n
/-- Does [a, a + n) touch a unit of `size` bytes that holds a byte of the list? -/
def touches (size a n : Nat) (l : List Nat) : Bool := l.any fun u => decide (u / size * size < a + n) && decide (a < (u / size + 1) * size)
/-- The bad bytes that remain when [a, a + n) has been overwritten; an error goes when its whole unit has been (R182, R335, R341). -/
def clearBad (a n : Nat) (l : List Nat) : List Nat := l.filter fun u => decide (u < a) || decide (a + n ≤ u)
/-- The units of `size` bytes that [a, a + n) touches. -/
def unitsOf (size a n : Nat) : List Nat := (List.range (ceilDiv (a % size + n) size)).map fun i => a / size + i
/-- Mark the units of `size` bytes that [a, a + n) touches as bad. -/
def markBad (size a n : Nat) (l : List Nat) : List Nat :=
  (unitsOf size a n).foldl (fun l u => l.filter (fun b => b / size != u) ++ (List.range size).map fun i => u * size + i) l
/-- Write DRAM. -/
def State.writeDram (s : State) (a : Nat) (bs : List Byte) : State :=
  { s with
    dram := s.dram.write a bs
    dramPoison := clearBad a bs.length s.dramPoison
    dramSingle := s.dramSingle.filter fun e => decide (e.1 < a) || decide (a + bs.length ≤ e.1) }
/-- Write Oasis; when a granule's contents are wholly overwritten its error is cleared (R341). -/
def State.writeOasis (s : State) (a : Nat) (bs : List Byte) : State :=
  { s with
    oasis := s.oasisPut s.oasis a bs
    oasisPoison := clearBad a bs.length s.oasisPoison
    oasisSingle := clearBad a bs.length s.oasisSingle }
/-- Write host memory. -/
def State.writeHost (s : State) (a : Nat) (bs : List Byte) : State := { s with hostMem := s.hostMem.write a bs }
/-- Is a byte range of DRAM poisoned (R335)? -/
def State.dramPoisoned (s : State) (a n : Nat) : Bool := touches 256 a n s.dramPoison
/-- Is a byte range of Oasis poisoned (R336, R341)? -/
def State.oasisPoisoned (s : State) (a n : Nat) : Bool := touches 64 a n s.oasisPoison
/-- Mark Oasis granules as uncorrectable (R336, first row). -/
def State.poisonOasis (s : State) (a n : Nat) : State := { s with oasisPoison := markBad 64 a n s.oasisPoison }
/-- Mark DRAM in units of `size` bytes as uncorrectable: a block that a read found so, or words written from poisoned data (R335, R336). -/
def State.poisonDram (s : State) (size a n : Nat) : State := { s with dramPoison := markBad size a n s.dramPoison }
/-- Bytes read, each with whether it was delivered poisoned (R336). -/
abbrev Marked := List (Byte × Bool)
/-- The places of the poisoned bytes. -/
def Marked.bad (bs : Marked) : List Nat := (List.range bs.length).filter fun i => ((bs[i]?).map Prod.snd).getD false
/-- Read DRAM with its poison marks. -/
def State.dramMarked (s : State) (a n : Nat) : Marked := (s.readDram a n).zip ((List.range n).map fun i => s.dramPoisoned (a + i) 1)
/-- Read Oasis with its poison marks. -/
def State.oasisMarked (s : State) (a n : Nat) : Marked := (s.readOasis a n).zip ((List.range n).map fun i => s.oasisPoisoned (a + i) 1)
/-- Write DRAM; poisoned bytes spoil their words. -/
def State.putDram (s : State) (a : Nat) (bs : Marked) : State :=
  bs.bad.foldl (fun (u : State) i => u.poisonDram 8 (a + i) 1) (s.writeDram a (bs.map Prod.fst))
/-- Write Oasis; the granules of poisoned bytes are written with check bits that report them as uncorrectable (R336). -/
def State.putOasis (s : State) (a : Nat) (bs : Marked) : State :=
  bs.bad.foldl (fun (u : State) i => u.poisonOasis (a + i) 1) (s.writeOasis a (bs.map Prod.fst))

/-! ### Numbers in fields -/

/-- Bits hi to lo of v. -/
def bits (v hi lo : Nat) : Nat := v / 2 ^ lo % 2 ^ (hi + 1 - lo)
/-- Is bit i of v set? -/
def bitAt (v i : Nat) : Bool := decide (v / 2 ^ i % 2 = 1)
/-- The low `n` bits of a number, lowest first, and the number of a bit list. -/
def toBits : (n v : Nat) → List Bool
  | 0, _ => []
  | n + 1, v => (v % 2 == 1) :: toBits n (v / 2)
def ofBits : List Bool → Nat
  | [] => 0
  | b :: r => (if b then 1 else 0) + 2 * ofBits r
/-- The bits of one pixel, or of one byte, in the order in which they stand on the wire (R120). -/
def wireOrder (l : List Bool) : List Bool := if Config.wireMsbFirst then l.reverse else l
/-- `n` bytes of packed bits. -/
def packBytes : Nat → List Bool → List Byte
  | 0, _ => []
  | n + 1, l => BitVec.ofNat 8 (ofBits (wireOrder (l.take 8 ++ List.replicate (8 - l.length) false))) :: packBytes n (l.drop 8)

/-- A Boolean as a number. -/
def bit (b : Bool) : Nat := if b then 1 else 0
/-- v as two's complement of w bits. -/
def toSigned (w v : Nat) : Int := if v % 2 ^ w < 2 ^ (w - 1) then ((v % 2 ^ w : Nat) : Int) else ((v % 2 ^ w : Nat) : Int) - 2 ^ w
/-- The w-bit two's complement pattern of i. -/
def ofSigned (w : Nat) (i : Int) : Nat := (i % (2 ^ w : Int)).toNat
/-- Add with saturation at w bits. -/
def satAdd (w a b : Nat) : Nat := min (a + b) (2 ^ w - 1)
/-- Byte i of a list, 0 beyond its end. -/
def byteAt (bs : List Byte) (i : Nat) : Nat := (bs.getD i 0).toNat
/-- The little-endian number in bytes lo to lo + n − 1 (R3). -/
def fieldAt (bs : List Byte) (lo n : Nat) : Nat := ofLeBytes ((bs.drop lo).take n)
/-- Are all bytes lo to lo + n − 1 zero (R8)? -/
def zeroAt (bs : List Byte) (lo n : Nat) : Bool := ((bs.drop lo).take n).all fun b => b == 0
/-- Exactly n bytes: cut, or padded with zeros. -/
def padTo (n : Nat) (bs : List Byte) : List Byte := (bs.take n) ++ List.replicate (n - bs.length) 0
/-- Replace the bytes from lo by bs. -/
def patch (frame : List Byte) (lo : Nat) (bs : List Byte) : List Byte := frame.take lo ++ bs ++ frame.drop (lo + bs.length)

/-! ### Registers (R4, R489) -/

/-- The reset value of a BAR0 offset: its row's, and for the MSI-X table a masked vector (R493, R504). The upper word of an 8-byte
register is part of the value at its low offset. -/
def regDefault (off : Nat) : Nat :=
  if decide (0x8000 ≤ off) && decide (off < 0xA000) then (if off % 16 = 12 then 1 else 0)
  else match regFind off with
    | some r => r.reset
    | none => 0

/-- The stored value of a register. -/
def State.reg (s : State) (off : Nat) : Nat := s.regs.get (regDefault off) off
/-- Store a register's value. -/
def State.setReg (s : State) (off v : Nat) : State := { s with regs := s.regs.set (regDefault off) off v }
/-- Store a register's value where a condition holds. -/
def State.setRegIf (s : State) (c : Bool) (off v : Nat) : State := if c then s.setReg off v else s
/-- The registers of a block in [lo, hi) take their reset values. -/
def State.blockReset (s : State) (lo hi : Nat) : State := { s with regs := s.regs.filter fun p => decide (p.1 < lo) || decide (hi ≤ p.1) }
/-- Count in a 32-bit saturating register. -/
def State.count32 (s : State) (off n : Nat) : State := s.setReg off (satAdd 32 (s.reg off) n)
/-- Count in a 64-bit saturating register. -/
def State.count64 (s : State) (off n : Nat) : State := s.setReg off (satAdd 64 (s.reg off) n)
/-- Keep the largest value seen in a peak register. -/
def State.peak (s : State) (off v : Nat) : State := s.setReg off (max (s.reg off) v)

/-! ### Dictionary scalars (R461, R467) -/

/-- The stored value of a scalar entry, as its raw bits. -/
def State.od (s : State) (key : Nat) : Nat := s.dict.get (odDefault key) key
/-- Store a scalar entry's raw bits. -/
def State.setOd (s : State) (key v : Nat) : State := { s with dict := s.dict.set (odDefault key) key v }
/-- The width in bits of an entry. -/
def odWidth (key : Nat) : Nat := match odFind key with
  | some r => 8 * r.type.bytes
  | none => 0
/-- Count in a saturating entry. -/
def State.countOd (s : State) (key n : Nat) : State := s.setOd key (satAdd (odWidth key) (s.od key) n)
/-- The value of a BOOL entry. -/
def State.odFlag (s : State) (key : Nat) : Bool := s.od key != 0
/-- The stored bytes of an STR or DOMAIN entry. -/
def State.blob (s : State) (key : Nat) : List Byte := (sparseGet key s.blobs).getD []
def State.setBlob (s : State) (key : Nat) (bs : List Byte) : State :=
  { s with blobs := sparseSet key (if bs.isEmpty then none else some bs) s.blobs }

/-! ### Free values -/

/-- Take a fresh free value: its number, and the state that has taken it. -/
def State.takeFree (s : State) : W64 × State := (Config.freeWord s.freeCtr, { s with freeCtr := s.freeCtr + 1 })

/-- Counts whose amount the spec leaves to time that the model does not have (R180, R186, R188, R195 to R198, R340, R341, R352): a free amount enters
each 64-bit counter. -/
def State.countFree (s : State) (offs : List Nat) : State :=
  offs.foldl (fun (u : State) o => let (n, v) := u.takeFree; v.count64 o n.toNat) s

/-! ### Output -/

/-- Send a message. -/
def State.send (s : State) (o : Out) : State := { s with out := s.out ++ [o] }

/-! ### Events (R52, R53, R402, R403) -/

/-- Events with equal DT stand in source order, and within one source in order of occurrence (R53). -/
def insertEvent (e : EventRec) : List EventRec → List EventRec
  | [] => [e]
  | x :: r => if x.dt == e.dt && decide (e.source < x.source) then e :: x :: r else x :: insertEvent e r

/-- Raise an event record about a line or group whose LSN is given. -/
def State.eventAt (s : State) (lsn source type : Nat) (body : List Byte) : State :=
  { s with events := insertEvent ⟨s.dt, lsn, source, type, padTo 48 body⟩ s.events }
/-- Raise any other event record: it carries the LSN of the most recent trigger (R52). -/
def State.event (s : State) (source type : Nat) (body : List Byte) : State := s.eventAt s.web.lastLsn source type body
/-- The body of a status event (R403). -/
def statusBody (unit sub bitsUp value : Nat) : List Byte :=
  leBytes 2 unit ++ leBytes 1 sub ++ [0] ++ leBytes 4 bitsUp ++ leBytes 8 value
/-- A status event (R403, TYPE 0x01) about a line or group whose LSN is given. -/
def State.statusEventAt (s : State) (lsn source unit sub bitsUp value : Nat) : State :=
  s.eventAt lsn source 1 (statusBody unit sub bitsUp value)
/-- Any other status event: it carries the LSN of the most recent trigger (R52). -/
def State.statusEvent (s : State) (source unit sub bitsUp value : Nat) : State := s.statusEventAt s.web.lastLsn source unit sub bitsUp value
/-- Has an event that is limited to one per line group been written, under a key that names it, for a group? -/
def Map.told (m : Map) (key : Nat) (g : Int) : Bool := m.get 0 (key * 2 ^ 48 + (g % 2 ^ 48).toNat) == 1
/-- Note that it has. -/
def Map.tell (m : Map) (key : Nat) (g : Int) : Map := m.set 0 (key * 2 ^ 48 + (g % 2 ^ 48).toNat) 1
/-- The key of a rate limit: source, type and unit. -/
def rateKey (source type unit : Nat) : Nat := (source * 256 + type) * 65536 + unit
/-- Do something at most once per `ns` under a rate key. -/
def State.rateLimited (s : State) (key ns : Nat) (f : State → State) : State :=
  match sparseGet key s.dev.eventTimes with
  | some t => if s.dt < t + ns then s else f { s with dev := { s.dev with eventTimes := sparseSet key (some s.dt) s.dev.eventTimes } }
  | none => f { s with dev := { s.dev with eventTimes := sparseSet key (some s.dt) s.dev.eventTimes } }

/-! ### Device time -/

/-- A core's clock runs for a time at its frequency: its cycles are counted, in all and in each phase (R226). MHz times ns are 1/1000 cycle. -/
def Core.runClock (c : Core) (ns : Nat) : Core :=
  let n := c.mhz * ns
  { c with
    cycles := c.cycles + n
    loadCycles := c.loadCycles + (if c.phase = .load then n else 0)
    computeCycles := c.computeCycles + (if c.phase = .compute then n else 0)
    writeoutCycles := c.writeoutCycles + (if c.phase = .writeout then n else 0) }

/-- What one tick of the device-time clock adds to DT, in fs: 2 ns at the steered rate, 1 ns at half rate (R456, R535). -/
def Crv.tickFs (c : Crv) : Nat := match c.steer with
  | .half => 1000000
  | _ => (2000000 + 2 * c.ratePpm).toNat

/-- One tick of the device-time clock (R456, R535). The cores that are powered count their cycles, half as many
while their clocks are stretched (R545). DT stands still while a reset is held. -/
def State.tick (s : State) : State :=
  if s.dev.resetHeld then s
  else { s with
    dt := (s.dt + (s.crv.dtFrac + s.crv.tickFs) / 1000000) % 2 ^ 64
    crv := { s.crv with dtFrac := (s.crv.dtFrac + s.crv.tickFs) % 1000000 }
    cores := Vector.ofFn fun k => if s.pwr.cores.getLsbD k then s.cores[k].runClock (if s.pwr.stretchSince.isSome then 1 else 2) else s.cores[k] }

/-! ### Interrupts (R495 to R498) -/

/-- The register blocks that carry interrupt status bits. -/
inductive Block where
  | glb | cam (c : Nat) | fs (s : Nat) | core (k : Nat) | stream | oasis | dramc | cmd | ctx | det | side | crv | trim | pwr | saf | ledger
  deriving DecidableEq, Repr

/-- The block's INT_STATUS register; INT_ENABLE lies 4 bytes above it. -/
def Block.status : Block → Nat
  | .glb => Reg.glbIntStatus
  | .cam c => Reg.camIntStatus c
  | .fs s => Reg.fsIntStatus s
  | .core k => Reg.coreIntStatus k
  | .stream => Reg.streamIntStatus
  | .oasis => Reg.oasisIntStatus
  | .dramc => Reg.dramcIntStatus
  | .cmd => Reg.cmdIntStatus
  | .ctx => Reg.ctxIntStatus
  | .det => Reg.detIntStatus
  | .side => Reg.sideIntStatus
  | .crv => Reg.crvIntStatus
  | .trim => Reg.trimIntStatus
  | .pwr => Reg.pwrIntStatus
  | .saf => Reg.safIntStatus
  | .ledger => Reg.ledgerIntStatus

/-- The block's vector (R495). -/
def Block.vector : Block → Nat
  | .glb => 0
  | .cam c => 131 + c
  | .fs s => 147 + s
  | .core k => 151 + k
  | .stream => 183
  | .oasis | .dramc => 184
  | .cmd => 185
  | .ctx => 186
  | .det => 187
  | .side => 188
  | .crv => 189
  | .trim => 190
  | .pwr => 191
  | .saf | .ledger => 192

/-- The blocks that share the block's vector (R495). -/
def Block.sharers : Block → List Block
  | .oasis | .dramc => [.oasis, .dramc]
  | .saf | .ledger => [.saf, .ledger]
  | b => [b]

/-- Is any enabled status bit of the block's vector set (R496)? -/
def State.vectorActive (s : State) (b : Block) : Bool :=
  b.sharers.any fun x => Nat.land (s.reg x.status) (s.reg (x.status + 4)) != 0

/-- May the device master the bus (R500)? -/
def State.canDma (s : State) : Bool := s.pcie.linkUp && s.pcie.busMaster && !s.pcie.d3hot

/-- Insert a number into a strictly rising list. -/
def insertRising (n : Nat) : List Nat → List Nat
  | [] => [n]
  | x :: r => if n < x then n :: x :: r else if n = x then x :: r else x :: insertRising n r

/-- Send a vector's message, or set its pending bit while it or its function is masked or the device may not send (R496, R500). -/
def State.msixSend (s : State) (v : Nat) : State :=
  if !s.canDma || !s.pcie.msixEnable || s.pcie.msixFunctionMask || bitAt (s.reg (0x8000 + v * 16 + 12)) 0 then
    { s with pcie := { s.pcie with msixPending := insertRising v s.pcie.msixPending } }
  else
    let s := s.send (.msix v (s.reg (0x8000 + v * 16) + 2 ^ 32 * s.reg (0x8000 + v * 16 + 4)) (s.reg (0x8000 + v * 16 + 8)))
    let s := s.count64 Reg.glbMsixSent 1
    { s with pcie := { s.pcie with msixPending := s.pcie.msixPending.filter (· != v), lastSent := s.pcie.lastSent.set 0 v (s.dt + 1) } }

/-- Raise a vector: vectors 1 to 130 observe the holdoff after their last message (R497). -/
def State.msixRaise (s : State) (v : Nat) : State :=
  let last := s.pcie.lastSent.get 0 v
  if decide (1 ≤ v) && decide (v ≤ 130) && last != 0 && decide (s.dt + 1 < last + s.reg Reg.glbIrqHoldoff * 1000) then
    { s with pcie := { s.pcie with heldOff := insertRising v s.pcie.heldOff } }
  else s.msixSend v

/-- Change a block's status or enable register; its vector is raised when its OR goes from 0 to 1 (R496). -/
def State.intUpdate (s : State) (b : Block) (f : State → State) : State :=
  let t := f s
  if !s.vectorActive b && t.vectorActive b then t.msixRaise b.vector else t

/-- Set interrupt status bits of a block. -/
def State.raiseInt (s : State) (b : Block) (bitsUp : Nat) : State :=
  s.intUpdate b fun t => t.setReg b.status (Nat.lor (t.reg b.status) bitsUp)

/-- Set status bits and write the status event of R403 about them. -/
def State.raiseStatus (s : State) (b : Block) (bitsUp source unit sub value : Nat) : State :=
  (s.raiseInt b bitsUp).statusEvent source unit sub bitsUp value
/-- The same about a line or group whose LSN is given (R52). -/
def State.raiseStatusAt (s : State) (lsn : Nat) (b : Block) (bitsUp source unit sub value : Nat) : State :=
  (s.raiseInt b bitsUp).statusEventAt lsn source unit sub bitsUp value

/-! ### Oasis errors (R340, R341, R365, R367) -/

/-- Oasis serves an access: reads may be merged, and a request may be promoted (R340, R341). -/
def State.oasisUsed (s : State) : State := s.countFree [Reg.oasisMerged, Reg.oasisPromoted]
/-- An uncorrectable Oasis error at an address (R341, R367). -/
def State.oasisUncorrectable (s : State) (a : Nat) : State :=
  ((s.count64 Reg.oasisUncorr 1).setReg Reg.oasisErrAddr (a / 8 * 8)).raiseStatus .oasis 2 2 0 0xFF a
/-- A corrected Oasis error: it is counted and not rewritten, with an event where it is enabled, at most one in 1 ms (R341, R367). -/
def State.oasisCorrected (s : State) (a : Nat) : State :=
  let s := (s.count64 Reg.oasisCorrected 1).raiseInt .oasis 1
  if bitAt (s.reg Reg.oasisIntEnable) 0 then s.rateLimited (rateKey 2 0x43 0) 1000000 fun t => t.statusEvent 2 0 0xFF 1 a else s
/-- What a read of a granule meets: its first bad word, or a corrected error. -/
def State.granuleSeen (s : State) (g : Nat) : State :=
  match s.oasisPoison.find? fun b => b / 64 == g with
  | some b => s.oasisUncorrectable b
  | none => match s.oasisSingle.find? fun b => b / 64 == g with
    | some b => s.oasisCorrected b
    | none => s
/-- A read of [a, a + n) of Oasis: the errors that its granules show. -/
def State.oasisSeen (s : State) (a n : Nat) : State :=
  if s.oasisPoison.isEmpty && s.oasisSingle.isEmpty then s.oasisUsed else ((unitsOf 64 a n).foldl State.granuleSeen s).oasisUsed

end Sys2Proof.Machine
end

