-- ==== Sys2Proof/Machine/LedgerOps.lean ====
section
/-! DEFINITION. Appending to the ledger and retiring its entries (R581 to R585). -/

namespace Sys2Proof.Machine

/-- What an entry says, beside SEQ, DT, GEN and PREV (R581). -/
structure LedgerNote where
  kind : Nat
  origin : Origin := .internal
  flags : Nat := 0
  key : Nat := 0
  len : Nat := 0
  value : List Byte := []
  aux : List Byte := []
  lsn : Nat

/-- The ORIGIN code (R581). -/
def Origin.code : Origin → Nat
  | .host => 0
  | .caravan => 1
  | .internal => 2

/-- The 128 bytes of entry `seq` (R581). -/
def ledgerBytes (seq dt : Nat) (n : LedgerNote) (prev : List Byte) : List Byte :=
  leBytes 8 seq ++ leBytes 8 dt ++ leBytes 6 n.lsn ++ leBytes 1 1 ++ leBytes 1 n.kind ++ leBytes 1 n.origin.code ++ leBytes 1 n.flags ++
  leBytes 2 (n.key / 256) ++ leBytes 1 n.key ++ [0] ++ leBytes 2 (min n.len 0xFFFF) ++ padTo 32 n.value ++ padTo 32 n.aux ++ padTo 32 prev

/-- The ledger SRAM's size in entries (R585). -/
def ledgerCapacity : Nat := 32768

/-- Entries with a SEQ below this are retired: the spill ring has taken them, or ACK_SEQ covers them (R585). -/
def State.ledgerRetired (s : State) : Nat := max s.ledger.spilled (s.od Od.ledgerAckSeq + 1)

/-- Unretired entries held (R585). -/
def State.ledgerUnretired (s : State) : Nat := min (s.ledger.count - s.ledgerRetired) ledgerCapacity

/-- Raise LEDGER_HIGH or LEDGER_LOW as the unretired entries reach 24,576 or fall to 8,192 (R585, R591 type 0x13). -/
def State.ledgerLevel (s : State) : State :=
  let u := s.ledgerUnretired
  if !s.ledger.high && decide (24576 ≤ u) then
    (({ s with ledger := { s.ledger with high := true } }).raiseInt .ledger 1).event 9 0x13 (leBytes 4 1 ++ leBytes 4 u)
  else if s.ledger.high && decide (u ≤ 8192) then
    (({ s with ledger := { s.ledger with high := false } }).raiseInt .ledger 2).event 9 0x13 (leBytes 4 2 ++ leBytes 4 u)
  else s

/-- Append one entry; the overwrite of an unretired entry proceeds and counts in LOST (R583, R585). -/
def State.ledgerPush (s : State) (n : LedgerNote) : State :=
  let g := s.ledger
  let prev := if g.count = 0 then g.genesisPrev else g.headHash
  let bytes := ledgerBytes g.count s.dt n prev
  let victim := g.count - ledgerCapacity
  let lost := decide (ledgerCapacity ≤ g.count) && decide (s.ledgerRetired ≤ victim)
  let g' := { g with
    entries := (⟨g.count, bytes⟩ :: g.entries).take ledgerCapacity
    count := g.count + 1
    headHash := digest bytes
    lostUnnamed := if lost then g.lostUnnamed + 1 else g.lostUnnamed
    lostFirst := if lost && g.lostUnnamed == 0 then victim else g.lostFirst }
  let s := ({ s with ledger := g' }).count64 Reg.ledgerEntries 1
  let s := if lost then s.countOd Od.ledgerLost 1 else s
  s.ledgerLevel

/-- Append an entry, and name lost entries at most once per 1 ms (R585). Before the boot entry there is no chain (R470). -/
def State.ledgerAppend (s : State) (n : LedgerNote) : State :=
  if s.ledger.count = 0 && n.kind != 11 then s else
  let s := s.ledgerPush n
  let due := match s.ledger.lastLostEntry with
    | none => true
    | some t => decide (t + 1000000 ≤ s.dt)
  if s.ledger.lostUnnamed != 0 && due then
    let c := s.ledger.lostUnnamed
    let f := s.ledger.lostFirst
    let s := { s with ledger := { s.ledger with lostUnnamed := 0, lastLostEntry := some s.dt } }
    let s := s.ledgerPush { kind := 12, aux := leBytes 8 c ++ leBytes 8 f, lsn := s.web.lastLsn }
    (s.raiseInt .ledger 4).event 9 0x14 (leBytes 8 c ++ leBytes 8 f)
  else s

/-- The kind 1 or kind 2 entry of a scalar write (R465). -/
def State.ledgerWrite (s : State) (kind flags : Nat) (o : Origin) (key width value lsn : Nat) : State :=
  s.ledgerAppend { kind := kind, origin := o, flags := flags, key := key, len := width, value := leBytes width value, lsn := lsn }

/-- The entry of an STR or DOMAIN write: VALUE is the digest (R465). -/
def State.ledgerWriteBytes (s : State) (kind : Nat) (o : Origin) (key : Nat) (bs : List Byte) (lsn : Nat) : State :=
  s.ledgerAppend { kind := kind, origin := o, flags := 1, key := key, len := bs.length, value := digest bs, lsn := lsn }

end Sys2Proof.Machine
end

