-- ==== Sys2Proof/Machine/OdRules.lean ====
section
/-! DEFINITION. The status codes of R460, the range rules of dictionary entries and the checks of a write (R457, R461 to R463). -/

namespace Sys2Proof.Machine

/-- The status codes of R460. -/
inductive Status where
  | ok | pending | noEntry | readOnly | origin | state | range | type | notReady | generation | owner | busy | tableFull | malformed
  | configInvalid | notSchedulable | ticketUnknown | transition | notFound
  deriving DecidableEq, Repr

/-- Their codes. -/
def Status.code : Status → Nat
  | .ok => 0x00
  | .pending => 0x01
  | .noEntry => 0x02
  | .readOnly => 0x03
  | .origin => 0x04
  | .state => 0x05
  | .range => 0x06
  | .type => 0x07
  | .notReady => 0x08
  | .generation => 0x09
  | .owner => 0x0A
  | .busy => 0x0B
  | .tableFull => 0x0C
  | .malformed => 0x0D
  | .configInvalid => 0x0E
  | .notSchedulable => 0x0F
  | .ticketUnknown => 0x10
  | .transition => 0x11
  | .notFound => 0x12

/-- The state codes of R469. -/
def DevState.code : DevState → Nat
  | .boot => 0
  | .auth => 1
  | .preop => 2
  | .armed => 3
  | .run => 4
  | .hold => 5
  | .safe => 6

/-- The state of a code (R469). -/
def DevState.ofCode : Nat → Option DevState
  | 0 => some .boot
  | 1 => some .auth
  | 2 => some .preop
  | 3 => some .armed
  | 4 => some .run
  | 5 => some .hold
  | 6 => some .safe
  | _ => none

/-- ARMED, RUN or HOLD. -/
def DevState.live : DevState → Bool
  | .armed | .run | .hold => true
  | _ => false

/-- Has the device reached PREOP (R447, R463)? -/
def DevState.ready : DevState → Bool
  | .boot | .auth => false
  | _ => true

/-- Is n a power of two? -/
def isPow2 (n : Nat) : Bool := decide (n ≠ 0) && 2 ^ n.log2 == n

/-- Is a binary32 pattern a NaN? -/
def isNan32 (v : Nat) : Bool := bits v 30 23 == 255 && bits v 22 0 != 0
/-- Is a binary64 pattern a NaN? -/
def isNan64 (v : Nat) : Bool := bits v 62 52 == 2047 && bits v 51 0 != 0

/-- The fixed range of an entry. IOU_THRESH runs from 0.05 to 1.0: as non-negative binary32 patterns order as their values, from the first
pattern at or above 0.05 to that of 1.0 (R296). -/
def OdRange.has (v : Nat) : OdRange → Bool
  | .full => true
  | .span lo hi => decide (lo ≤ v) && decide (v ≤ hi)
  | .mult lo hi m => decide (lo ≤ v) && decide (v ≤ hi) && v % m == 0
  | .oneOf l => l.contains v
  | .pow2 lo hi zero => (zero && v == 0) || (isPow2 v && decide (lo ≤ v) && decide (v ≤ hi))
  | .zeroOr lo hi => v == 0 || (decide (lo ≤ v) && decide (v ≤ hi))
  | .aligned m => v % m == 0
  | .iou => decide (0x3D4CCCCD ≤ v) && decide (v ≤ 0x3F800000)

/-- The sensor rows n that a camera delivers per line cycle (R20, the table before R25). -/
def State.rowsPerCycle (s : State) (c : Nat) : Nat :=
  match s.od (Od.portArrangement c) with
  | 1 => 2
  | 2 => s.od (Od.portPhases c)
  | _ => 1

/-- T_lane of a port in ns (R61): W × b × n over 0.99 × L × p, rounded up. -/
def State.laneCycle (s : State) (c : Nat) : Nat :=
  let p := if s.od (Od.engLaneRate (c / 4)) = 0 then 10 else 25
  ceilDiv (100 * s.od (Od.portLineWidth c) * s.od (Od.portPixelBits c) * s.rowsPerCycle c) (99 * s.od (Od.portLaneCount c) * p)

/-- The minimum line-cycle period of a port in ns (R61). -/
def State.portMinCycle (s : State) (c : Nat) : Nat := max (2000 * s.rowsPerCycle c) (s.laneCycle c)

/-- MIN_CYCLE (0x2F00:08): the largest minimum line-cycle period of the enabled cameras; its default where none is enabled (R20, R21, R61). -/
def State.minCycle (s : State) : Nat :=
  (List.range 16).foldl (fun m c => if s.odFlag (Od.camEnable c) then max m (s.portMinCycle c) else m)
    (if (List.range 16).any (fun c => s.odFlag (Od.camEnable c)) then 0 else 2000)

/-- The range rules that name other entries (R462 step 7): R21, R95, R296, R328, R530, R589. -/
def State.odRelation (s : State) (key v : Nat) : Bool :=
  let i := key / 256
  let sub := key % 256
  if key = Od.webTimerPeriod then !(s.od Od.webLineSource == 1) || decide (s.minCycle ≤ v)
  else if decide (0x2000 ≤ i) && decide (i < 0x2010) then
    let c := i - 0x2000
    if sub = 7 then decide (v < 2 ^ s.od (Od.portPixelBits c))
    else if sub = 0xC then decide (2 * s.od (Od.portHbPeriod c) ≤ v)
    else true
  else if key = Od.detCarryLines then decide (v ≤ s.od Od.webLineGroup)
  else if key = Od.tokTokDeadline then decide (s.od Od.tokTokLag ≤ v)
  else if decide (0x6100 ≤ i) && decide (i < 0x6110) then
    let c := i - 0x6100
    if sub = 4 then decide (v ≤ s.od (Od.ffGainMax c))
    else if sub = 5 then decide (s.od (Od.ffGainMin c) ≤ v)
    else true
  else if key = Od.ledgerAckSeq then decide (s.od Od.ledgerAckSeq ≤ v) && decide (v + 1 ≤ max 1 s.ledger.count)
  else true

/-- Is a value in an entry's range (R461, R462 step 7)? -/
def State.odInRange (s : State) (key v : Nat) : Bool :=
  match odFind key with
  | none => false
  | some r =>
    (match r.type with
      | .bool => decide (v ≤ 1)
      | .f32 => !isNan32 v
      | .f64 => !isNan64 v
      | _ => true) && r.range.has v && s.odRelation key v

/-- The entries that a write may reach in SAFE (R463). -/
def odSafeWritable (key : Nat) : Bool :=
  key == Od.devOwner || key == Od.devStateRequest || key == Od.devOwnerRequest || key == Od.devOwnerSeize

/-- May an entry of this access be written in the present state (R463)? -/
def State.odStateAllows (s : State) (key : Nat) (a : OdAccess) : Bool :=
  match s.dev.state with
  | .boot | .auth => false
  | .preop => true
  | .armed | .run | .hold => a != .rwl
  | .safe => odSafeWritable key

/-- The origin's bit in the mask (R5). -/
def OdRow.admits (r : OdRow) : Origin → Bool
  | .host => r.host
  | .caravan => r.caravan
  | .internal => r.internal

/-- OWNER_SEIZE may act (R471): OWNER is 1 and the watchdog has expired or no controller is learned; in SAFE; or OWNER is already 0. -/
def State.seizeAllowed (s : State) : Bool :=
  s.od Od.devOwner == 0 || s.crv.expired || s.crv.mac.isNone || s.dev.state == .safe

/-- Steps 1 to 2 of R462. -/
def odDefined (key : Nat) : Status :=
  if decide (0xA000 ≤ key / 256) && decide (key / 256 < 0xF000) then .generation
  else if (odFind key).isNone then .noEntry else .ok

/-- Steps 3 to 8 of R462 for a value of `len` bytes. For ATTEST_NONCE the length is exactly 32 (R590). -/
def State.odWriteRules (s : State) (o : Origin) (key len v : Nat) : Status :=
  match odFind key with
  | none => .noEntry
  | some r =>
    if r.access = .ro then .readOnly
    else if !r.admits o then .origin
    else if !s.odStateAllows key r.access then .state
    else if !(match r.type with
      | .str => decide (len ≤ 255)
      | .domain => if key = Od.safAttestNonce then len == 32 else decide (len ≤ 65536)
      | t => len == t.bytes) then .type
    else if !(match r.type with
      | .str | .domain => true
      | _ => s.odInRange key v) then .range
    else if (key = Od.devOwner || key = Od.devStateRequest) && s.od Od.devOwner != (if o = .caravan then 1 else 0) then .owner
    else if key = Od.devOwnerSeize && v == 1 && !s.seizeAllowed then .state
    else .ok

/-- The checks of R462, in order. Before PREOP every write answers NOT_READY (R463); in RUN an access to the manufacturing-test range
answers STATE (R12, R463). -/
def State.odWriteCheck (s : State) (o : Origin) (key len v : Nat) : Status :=
  if !s.dev.state.ready then .notReady
  else if decide (0xF000 ≤ key / 256) then .state
  else match odDefined key with
    | .ok => s.odWriteRules o key len v
    | e => e

/-- A scalar RW entry of index 0x2000 to 0x7FFF is schedulable (R457). -/
def odSchedulable (key : Nat) : Bool :=
  match odFind key with
  | some r => r.access == .rw && r.type != .str && r.type != .domain && decide (0x2000 ≤ key / 256) && decide (key / 256 < 0x8000)
  | none => false

/-- The manufacturing-test range outside RUN, once the device is past BOOT and AUTH, where every door but this one answers NOT_READY: R463
leaves what the access does undefined. -/
def State.manufacturing (s : State) (key : Nat) : Bool :=
  decide (0xF000 ≤ key / 256) && decide (key / 256 < 0x10000) && s.dev.state.ready && s.dev.state != .run

end Sys2Proof.Machine
end

