-- ==== Sys2Proof/Machine/IngressOps.lean ====
section
/-! DEFINITION. The shared operations of camera ingress (R58 to R97): FIFO and memory-path space, the mirage banks, frames, rows and lines,
placeholders and drop runs, the pending list, and the control channel with discovery. -/

namespace Sys2Proof.Machine

/-! ### Access to the parts -/

def State.port (s : State) (c : PortIx) : Port := s.ports[c]
/-- Change one port. -/
def State.modPort (s : State) (c : PortIx) (f : Port → Port) : State := { s with ports := s.ports.set c (f s.ports[c]) }
def State.fsPort (s : State) (c : PortIx) : FsPort := s.fsPorts[c]
/-- Change the slice part of one port. -/
def State.modFs (s : State) (c : PortIx) (f : FsPort → FsPort) : State := { s with fsPorts := s.fsPorts.set c (f s.fsPorts[c]) }
def State.slice (s : State) (k : SliceIx) : Slice := s.slices[k]
/-- Change one slice. -/
def State.modSlice (s : State) (k : SliceIx) (f : Slice → Slice) : State := { s with slices := s.slices.set k (f s.slices[k]) }

/-- Is the camera enabled (0x2F10+c:01)? -/
def State.camEnabled (s : State) (c : PortIx) : Bool := s.odFlag (Od.camEnable c)
/-- The enabled ports, in order. -/
def State.enabledPorts (s : State) : List PortIx := (List.finRange 16).filter s.camEnabled
/-- ALONG_OFFSET of a camera. -/
def State.along (s : State) (c : PortIx) : Int := s.od (Od.camAlongOffset c)
/-- A of R39: the largest ALONG_OFFSET of the enabled cameras. -/
def State.alongMax (s : State) : Int := s.enabledPorts.foldl (fun m c => max m (s.along c)) 0
/-- LINE_GROUP. -/
def State.lineGroup (s : State) : Int := s.od Od.webLineGroup
/-- A number carried modulo 2^48. -/
def mod48 (i : Int) : Nat := (i % 2 ^ 48).toNat
/-- The web LSN of the line of camera c triggered at extended count x (R23). -/
def State.webLsn (s : State) (c : PortIx) (x : Int) : Nat := mod48 (x - s.along c)
/-- RUN or HOLD, where lines are delivered and recorded (R78). -/
def State.running (s : State) : Bool := s.dev.state == .run || s.dev.state == .hold
/-- Is a port linked: IDLE, FRAME or LINE? -/
def Port.linked (p : Port) : Bool := p.state == .idle || p.state == .frame || p.state == .line
/-- The slice that serves a port, and the port's local index (R98). -/
def sliceOf (c : PortIx) : SliceIx := ⟨c.val / 4, by omega⟩
def localOf (c : PortIx) : Fin 4 := ⟨c.val % 4, by omega⟩
def portOf (k : SliceIx) (l : Fin 4) : PortIx := ⟨4 * k.val + l.val, by omega⟩
/-- Is the port its slice's in-line camera (R99)? -/
def State.isInline (s : State) (c : PortIx) : Bool := s.camEnabled c && s.od (Od.fsInlinePort (sliceOf c)) == c.val % 4
/-- Is it a memory-path camera (R99)? -/
def State.isMp (s : State) (c : PortIx) : Bool := s.camEnabled c && !s.isInline c

/-! ### Slots of the input ring (R112 to R119, R358) -/

/-- SD_ACROSS and SD_ALONG (R112). -/
def State.fx (s : State) : Nat := s.od Od.fsOutSdAcross
def State.fa (s : State) : Nat := s.od Od.fsOutSdAlong
/-- The output line of a line with extended web LSN e. -/
def State.outLine (s : State) (e : Int) : Int := e / (s.fa : Int)
/-- A register of a port's part of the FS block. -/
def State.fsReg (s : State) (c : PortIx) (f : Nat → Nat → Nat) : Nat := s.reg (f (sliceOf c) (localOf c))
/-- Released slots of the ring that are not written (R118). -/
def State.ringFree (s : State) (c : PortIx) : Nat := s.fsReg c Reg.fsRingSlots - (s.fsPort c).written.length
/-- Is the port's ring extension enabled (R358)? -/
def State.extOn (s : State) (c : PortIx) : Bool := s.reg (Reg.extSlots c) != 0
/-- Is the port's extension full (R358)? -/
def State.extFull (s : State) (c : PortIx) : Bool := s.extOn c && decide (s.reg (Reg.extSlots c) ≤ (s.fsPort c).ext.length)
/-- Has the port a released slot beside `held` ones that are spoken for (R118, R358)? -/
def State.slotRoom (s : State) (c : PortIx) (held : Nat) : Bool :=
  if s.extOn c then decide ((s.fsPort c).landed.length + held < s.reg (Reg.extLandSlots c)) else decide (held < s.ringFree c)
/-- May the slice write output line m: its slot has been released, or is the one being written (R118, R358)? -/
def State.slotFree (s : State) (c : PortIx) (m : Int) : Bool :=
  (match (s.fsPort c).acc with
    | some a => a.m == m
    | none => false) || s.slotRoom c 0

/-- Is the in-line camera's next line ready while another line runs (R119)? Its slot is the one that the running line writes, or one beside it. -/
def State.inlineReady (s : State) (k : SliceIx) (run : SliceRun) (c : PortIx) : Bool :=
  match (s.port c).queue with
  | [] => false
  | l :: _ =>
    let own := portOf k run.port == c
    let m := s.outLine (l.x - s.along c)
    s.isInline c && (if own && s.outLine (run.line.x - s.along c) == m then true
      else if own then s.slotRoom c 1 else s.slotFree c m)

/-- The wait of FS_INLINE_WAIT_MAX begins when the in-line camera's next line becomes ready while another line runs (R119). -/
def State.noteWait (s : State) (k : SliceIx) : State :=
  match (s.slice k).run with
  | none => s
  | some run =>
    if (s.slice k).waitSince.isNone && (List.finRange 4).any fun i => s.inlineReady k run (portOf k i) then
      s.modSlice k fun z => { z with waitSince := some s.dt }
    else s

/-- Every slice looks anew at its in-line camera's next line. -/
def State.noteWaits (s : State) : State := (List.finRange 4).foldl (fun (u : State) (k : SliceIx) => u.noteWait k) s

/-- Lines that a port's input ring holds, those of its extension included, and its capacity less `groups` line groups, in output lines (R47, R358). -/
def State.ringLevel (s : State) (c : PortIx) : Nat := (s.fsPort c).written.length + (s.fsPort c).landed.length + (s.fsPort c).ext.length
def State.ringCapacity (s : State) (c : PortIx) : Nat := s.fsReg c Reg.fsRingSlots + s.reg (Reg.extSlots c)

/-- The marks of a port's input ring (R47): capacity less 2 line groups writes the event, capacity less 4 clears it. DESIGN CHOICE (log entry 104): the spec
gives the event no status bit, so that it is a status event of the slice with the port as SUB, BITS 0 and the lines held as VALUE. -/
def State.ringMark (s : State) (c : PortIx) : State :=
  let per := s.od Od.webLineGroup / max 1 s.fa
  let n := s.ringLevel c
  let cap := s.ringCapacity c
  if !(s.fsPort c).ringHigh && decide (cap ≤ n + 2 * per) then
    (s.modFs c fun p => { p with ringHigh := true }).statusEvent 1 (sliceOf c) (localOf c) 0 n
  else if (s.fsPort c).ringHigh && decide (n + 4 * per ≤ cap) then s.modFs c fun p => { p with ringHigh := false }
  else s

/-- Count in a CAM counter. -/
def State.camCount (s : State) (off n : Nat) : State := s.count32 off n
/-- Raise CAM_INT_STATUS bits without an event of their own. -/
def State.camInt (s : State) (c : PortIx) (b : Nat) : State := s.raiseInt (.cam c) b
/-- Raise CAM_INT_STATUS bits with their status event (R403). -/
def State.camStatus (s : State) (c : PortIx) (b : Nat) : State := s.raiseStatus (.cam c) b 0 c 0xFF 0

/-! ### FIFO and memory-path ring space (R47, R80, R120, R121) -/

/-- The FIFO bytes of a line (R81). -/
def State.lineFifoBytes (s : State) (c : PortIx) : Nat :=
  s.rowsPerCycle c * ceilDiv (s.od (Od.portLineWidth c) * s.od (Od.portPixelBits c)) 8
/-- The memory-path ring bytes of a line (R120). -/
def State.lineMpBytes (s : State) (c : PortIx) : Nat :=
  ceilDiv (16 + ceilDiv (s.od (Od.portLineWidth c) * s.od (Od.portPixelBits c) * s.rowsPerCycle c) 8) 64 * 64
/-- FS_MP_SIZE in bytes. -/
def State.mpSize (s : State) (c : PortIx) : Nat := s.reg (Reg.fsMpSize (sliceOf c) (localOf c)) * 2 ^ 20

/-- Occupy FIFO bytes; the high mark raises FIFO_HIGH. -/
def State.fifoTake (s : State) (c : PortIx) (n : Nat) : State :=
  let f := (s.port c).fifo + n
  let up := !(s.port c).fifoHigh && decide (196608 ≤ f)
  let s := (s.modPort c fun p => { p with fifo := f, fifoHigh := p.fifoHigh || up }).peak (Reg.camFifoPeak c) f
  if up then s.camStatus c 8 else s

/-- Free FIFO bytes; the low mark after the high mark raises FIFO_LOW (R47, R87). -/
def State.fifoFree (s : State) (c : PortIx) (n : Nat) : State :=
  let f := (s.port c).fifo - n
  let down := (s.port c).fifoHigh && decide (f ≤ 65536)
  let s := s.modPort c fun p => { p with fifo := f, fifoHigh := p.fifoHigh && !down }
  if down then s.camStatus c 16 else s

/-- Raise FS_INT_STATUS bits of a port's slice with their event (R130). -/
def State.fsStatusEvent (s : State) (c : PortIx) (b : Nat) : State := s.raiseStatus (.fs (sliceOf c)) b 1 (sliceOf c) (localOf c) 0
/-- The same about a line or a group: the event carries its web LSN (R52). -/
def State.fsStatusAt (s : State) (lsn : Nat) (c : PortIx) (b : Nat) : State := s.raiseStatusAt lsn (.fs (sliceOf c)) b 1 (sliceOf c) (localOf c) 0
/-- The first web LSN of a group (R33, R52). -/
def State.groupLsn (s : State) (g : Int) : Nat := mod48 (g * s.lineGroup)

/-- Count a line against the memory-path ring; the high mark of 75 % starts shedding (R120, R121). -/
def State.mpTake (s : State) (c : PortIx) (n : Nat) : State :=
  let l := (s.fsPort c).mpLevel + n
  let up := !(s.fsPort c).shed && decide (3 * s.mpSize c ≤ 4 * l) && decide (0 < n)
  let s := (s.modFs c fun p => { p with mpLevel := l, shed := p.shed || up }).peak (Reg.fsMpPeak (sliceOf c) (localOf c)) l
  if up then s.fsStatusEvent c 1 else s

/-- Free memory-path ring space; the low mark of 25 % ends shedding. -/
def State.mpFree (s : State) (c : PortIx) (n : Nat) : State :=
  let l := (s.fsPort c).mpLevel - n
  let down := (s.fsPort c).shed && decide (4 * l ≤ s.mpSize c)
  let s := s.modFs c fun p => { p with mpLevel := l, shed := p.shed && !down }
  if down then s.fsStatusEvent c 2 else s

/-! ### The mirage bank of ingress (R93, R94) -/

/-- The kind 2 entry of a pending write that takes effect (R465, R582). -/
def State.ledgerEffect (s : State) (v : MirageVal) (lsn : Nat) : State :=
  s.ledgerWrite 2 (if v.at_.isSome then 2 else 0) v.origin v.key (odWidth v.key / 8) v.value lsn

/-- Make mirage values live, oldest first. -/
def State.applyValues (s : State) (lsn : Nat) : List MirageVal → State
  | [] => s
  | v :: r => ((s.setOd v.key v.value).ledgerEffect v lsn).applyValues lsn r

/-- Apply the values of a port's mirage bank that a test picks. -/
def State.applyMirage (s : State) (c : PortIx) (pick : MirageVal → Bool) (x : Int) : State :=
  let due := (s.port c).mirage.filter pick
  let s := s.modPort c fun p => { p with mirage := p.mirage.filter fun v => !pick v }
  s.applyValues (s.webLsn c x) due

/-- The entries of a port's ingress mirage bank (R93), and of its slice's bank (R122). -/
def ingressKey (c : PortIx) (key : Nat) : Bool := key / 256 == 0x2000 + c.val && decide (6 ≤ key % 256) && decide (key % 256 ≤ 10)
def sliceKey (c : PortIx) (key : Nat) : Bool := key / 256 == 0x2200 + c.val && key % 256 != 15

/-- A scheduled write leaves the schedule table at its point and is checked again (R458). One that now fails is recorded as not applied; one that
holds is counted, and `f` applies it. -/
def State.schedLeave (s : State) (e : Sched) (f : State → State) : State :=
  let s := { s with doors := { s.doors with schedule := s.doors.schedule.filter fun x => x.handle != e.handle } }
  match s.odWriteCheck e.origin e.key (odWidth e.key / 8) e.value with
  | .ok => (f s).count64 Reg.crvSchedApplied 1
  | st =>
    let s := (s.count64 Reg.crvSchedRefused 1).raiseInt .crv 0x20
    let s := s.event 6 0x12 (leBytes 2 (e.key / 256) ++ leBytes 1 e.key ++ leBytes 1 st.code ++ leBytes 6 e.at_)
    s.ledgerAppend { kind := 3, origin := e.origin, flags := 2, key := e.key, len := 1, value := leBytes 1 st.code, lsn := s.web.lastLsn }

/-- A scheduled write as a value that waits. -/
def Sched.val (e : Sched) : MirageVal := ⟨e.key, e.value, some e.at_, e.origin⟩

/-- The scheduled writes that a test picks reach their point: each is checked again, and `f` applies it, in their order of acceptance (R458). -/
def State.takeScheduled (s : State) (pick : MirageVal → Bool) (f : State → MirageVal → State) : State :=
  (s.doors.schedule.filter fun e => pick e.val).foldl (fun (u : State) e => u.schedLeave e fun w => f w e.val) s

/-- Make the deferred values that a test picks live, about a line or group with web LSN `lsn` (R165, R297, R527); then the scheduled writes that it
picks (R458). -/
def State.takeDeferred (s : State) (pick : MirageVal → Bool) (lsn : Nat) : State :=
  let due := s.doors.deferred.filter pick
  let s := ({ s with doors := { s.doors with deferred := s.doors.deferred.filter fun v => !pick v } }).applyValues lsn due
  s.takeScheduled pick fun u v => u.applyValues lsn [v]

/-- Has a value's LSN, where it has one, been reached by `lsn`? -/
def lsnReached (lsn : Nat) (v : MirageVal) : Bool :=
  match v.at_ with
  | some a => a == lsn || precedes (BitVec.ofNat 48 a) (BitVec.ofNat 48 lsn)
  | none => true

/-- FRAME_LINES, FILL_VALUE and CHECK_POLICY, which apply at a frame open; the others apply at a trigger (R94). -/
def mirageAtFrame (v : MirageVal) : Bool := decide (6 ≤ v.key % 256) && decide (v.key % 256 ≤ 8)

/-- The scheduled values that a line with web LSN `lsn` reaches (R94, R123). -/
def dueAtLine (lsn : Nat) (v : MirageVal) : Bool :=
  match v.at_ with
  | some a => a == lsn || precedes (BitVec.ofNat 48 a) (BitVec.ofNat 48 lsn)
  | none => false

/-- The extended count of the next line of a port: its oldest pending entry's, or that of the next trigger. -/
def State.nextLineX (s : State) (c : PortIx) : Int :=
  match (s.port c).pend.head? with
  | some e => e.x
  | none => s.web.x

/-! ### Parameter sets of the front slice: binding (R122 to R124) -/

/-- Bind pending values, and the pending table where `table` holds, to the line at `first`, or to the frame's first line. A scheduled write that is bound stays
in the schedule table until its set goes live (R458). -/
def State.fsBind (s : State) (c : PortIx) (pick : MirageVal → Bool) (table : Bool) (first : Option Int) : State :=
  let f := s.fsPort c
  let vals := f.bank.filter pick ++ ((s.doors.schedule.map Sched.val).filter fun v => sliceKey c v.key && pick v)
  let t := table && f.tablePending
  if f.bound.isSome || (vals.isEmpty && !t) then s
  else
    let k := (f.lastSet + 1) % 256
    s.modFs c fun f => { f with
      bank := f.bank.filter fun v => !pick v
      tablePending := f.tablePending && !t
      lastSet := k
      bound := some ⟨k, vals, t, first⟩ }

/-- The first line of the frame opens: a set bound to the frame goes live with it. -/
def State.fsFirstLine (s : State) (c : PortIx) (x : Int) : State :=
  s.modFs c fun f => { f with bound := match f.bound with
    | some b => some { b with first := some (b.first.getD x) }
    | none => none }

/-! ### Passing lines to the front slice: drop runs and delivery (R48, R54, R87, R90, R91) -/

/-- Close the drop run of a port and write its record. -/
def State.closeRun (s : State) (c : PortIx) : State :=
  match (s.port c).run with
  | none => s
  | some r =>
    (s.modPort c fun p => { p with run := none }).eventAt (mod48 r.firstX) 0 2 (leBytes 1 c ++ leBytes 1 r.reason ++ leBytes 2 r.count)

/-- Enter a line in its port's drop run. -/
def State.extendRun (s : State) (c : PortIx) (l : CamLine) : State :=
  let s := match (s.port c).run with
    | some r =>
      if r.reason = l.reason && l.x == r.firstX + (r.count : Int) then
        s.modPort c fun p => { p with run := some { r with count := r.count + 1 } }
      else (s.closeRun c).modPort c fun p => { p with run := some ⟨l.reason, l.x, 1⟩ }
    | none => s.modPort c fun p => { p with run := some ⟨l.reason, l.x, 1⟩ }
  match (s.port c).run with
  | some r => if 65535 ≤ r.count then s.closeRun c else s
  | none => s

/-- Pass a line to the front slice. DESIGN CHOICE (log entry 95): a placeholder counts as a line that its camera has delivered (R37). -/
def State.emitLine (s : State) (c : PortIx) (l : CamLine) : State :=
  let s :=
    if l.reason = 0 then (s.closeRun c).camCount (Reg.camLinesRx c) 1
    else
      let s := (s.extendRun c l).camCount (Reg.camLinesDropped c) 1
      let s := (s.countOd (Od.portPortDropped c) 1).countOd Od.cntDroppedLines 1
      if l.reason = 9 then s.countOd (Od.fpShedLines c) 1 else s
  let s := { s with web := { s.web with
    firstSeen := s.web.firstSeen.set c (some ((s.web.firstSeen[c]).getD (l.x - s.along c))) } }
  (s.modPort c fun p => { p with queue := p.queue ++ [l] }).noteWait (sliceOf c)

/-- Release the held line, with FRAME_END where what follows closes its frame (R88). -/
def State.flushHeld (s : State) (c : PortIx) (frameEnd : Bool) : State :=
  match (s.port c).held with
  | none => s
  | some l => (s.modPort c fun p => { p with held := none }).emitLine c (if frameEnd then { l with flags := Nat.lor l.flags 0x40 } else l)

/-- The ingress values scheduled at the trigger LSN of a line take effect (R94). -/
def State.lineValues (s : State) (c : PortIx) (x : Int) : State :=
  s.takeScheduled (fun v => ingressKey c v.key && mirageAtFrame v && dueAtLine (mod48 x) v) fun u v => u.applyValues (s.webLsn c x) [v]

/-- The values that a line reaches as it takes its place in the order of its port: those scheduled at its trigger LSN, and for the slice those scheduled at its
web LSN, which are bound to it (R94, R123). -/
def State.lineReached (s : State) (c : PortIx) (x : Int) : State :=
  (s.lineValues c x).fsBind c (dueAtLine (s.webLsn c x)) false (some x)

/-- Pass the placeholders that no undelivered line precedes, oldest first. Each takes the FILL_VALUE in force for its line (R94). -/
def State.passPlaceholders (s : State) (c : PortIx) : List CamLine → State
  | [] => s
  | l :: r =>
    if (s.port c).pend.any fun e => decide (e.x < l.x) then s
    else
      let s := (s.flushHeld c false).lineReached c l.x
      let s := s.emitLine c { l with fill := s.od (Od.portFillValue c) }
      (s.modPort c fun p => { p with later := r }).passPlaceholders c r

/-- Insert a placeholder in LSN order. -/
def insertLine (l : CamLine) : List CamLine → List CamLine
  | [] => [l]
  | y :: r => if l.x < y.x then l :: y :: r else y :: insertLine l r

/-- A placeholder takes a line's place (R87), with the flags that the line already has; nothing is recorded of ARMED (R78). -/
def State.placeholder (s : State) (c : PortIx) (x : Int) (dt reason flags : Nat) : State :=
  if !s.running then (if (s.port c).pend.any fun e => decide (e.x < x) then s else s.lineReached c x)
  else
    let l : CamLine := { x := x, dt := dt, flags := Nat.lor flags 8, filled := true, fill := 0, rows := [], reason := reason, fifoBytes := 0,
                         mpBytes := 0, stored := none }
    let q := insertLine l (s.port c).later
    (s.modPort c fun p => { p with later := q }).passPlaceholders c q

/-- Free the space that an entry's line holds (R48). -/
def State.unreserve (s : State) (c : PortIx) (e : PendEntry) : State := (s.fifoFree c e.fifoBytes).mpFree c e.mpBytes

/-- The LINE_FLAGS that a line keeps when a placeholder takes its place (R88): those of its place in its frame, and CHECK_ERR where data that
failed its check value is replaced, the open row's included. -/
def State.keptFlags (s : State) (c : PortIx) (e : PendEntry) : Nat :=
  let rowBad := match (s.port c).row with
    | some r => r.entry == some e.x && r.check
    | none => false
  let last := e.marks != 0 && s.od (Od.portFrameLines c) != 0 && e.idx == s.od (Od.portFrameLines c)
  Nat.lor (Nat.lor (Nat.land e.flags 0xA0) (4 * bit (e.check || rowBad))) (0x40 * bit last)

/-- An entry is declared absent: it leaves the list, the rows that it still lacks are owed, its space is free, and a placeholder takes its line's place
(R48, R74, R76, R86). The reason is that for which the line had been dropped at its first row, else absent, or port down while the port is not linked. A
line of a malformed frame has had its placeholder since its first row opened (R85). -/
def State.absent (s : State) (c : PortIx) (e : PendEntry) : State :=
  let p := s.port c
  let kept := s.keptFlags c e
  let s := s.modPort c fun p => { p with
    pend := p.pend.filter fun f => f.x != e.x
    owed := p.owed + (s.rowsPerCycle c - e.marks)
    row := match p.row with
      | some r => some { r with entry := if r.entry = some e.x then none else r.entry }
      | none => none }
  let s := ((s.camCount (Reg.camAbsent c) 1).camInt c 0x400).unreserve c e
  if e.reason = 5 then s.passPlaceholders c (s.port c).later
  else s.placeholder c e.x e.dt (if e.reason != 0 then e.reason else if p.linked then 3 else 6) kept

/-- The oldest pending entry is declared absent (R74, R76). -/
def State.declareAbsent (s : State) (c : PortIx) : State :=
  match (s.port c).pend.find? fun e => decide (e.marks < s.rowsPerCycle c) with
  | none => s
  | some e => s.absent c e

/-! ### Frames (R77, R79, R83, R92) -/

/-- Open a frame. `start` holds at an image header or a first line marker, where the device resynchronises (R77), and not at a split. -/
def State.openFrame (s : State) (c : PortIx) (flags : Nat) (start : Bool) : State :=
  let s := if start then
      (s.camCount (Reg.camLostTrig c) (s.port c).owed).modPort c fun p => { p with owed := 0 }
    else s
  let s := s.applyMirage c (fun v => mirageAtFrame v && v.at_.isNone) (s.nextLineX c)
  let s := s.fsBind c (fun v => v.at_.isNone) true none
  let shed := s.running && s.isMp c && (s.fsPort c).shed
  let s := if shed then s.countOd (Od.fsShedFrames (sliceOf c)) 1 else s
  s.modPort c fun p => { p with
    state := .frame
    open_ := some { flags := flags, firstLsn := none, rows := 0, lines := 0, checkErrors := 0, malformed := 0, shed := shed } }

/-- Close the open frame with further flags, and write its record in RUN and HOLD (R78, R83, R92). -/
def State.closeFrame (s : State) (c : PortIx) (extra : Nat) : State :=
  let s := s.flushHeld c true
  match (s.port c).open_ with
  | none => s
  | some f =>
    let lim := s.od (Od.portFrameLines c)
    let short := lim != 0 && decide (f.lines < lim)
    let fl := Nat.lor (Nat.lor f.flags extra) (bit short + 64 * bit (f.checkErrors != 0))
    let s := if short then s.camCount (Reg.camShortFrames c) 1 else s
    let s := if bitAt extra 1 then s.camCount (Reg.camSplitFrames c) 1 else s
    let s := if bitAt extra 3 then s.camCount (Reg.camUntermFrames c) 1 else s
    let s := if s.running then
        s.eventAt (f.firstLsn.getD s.web.lastLsn) 0 3
          (leBytes 1 c ++ leBytes 1 fl ++ leBytes 2 f.checkErrors ++ leBytes 4 (min f.lines 0xFFFFFFFF) ++ leBytes 2 f.malformed)
      else s
    s.modPort c fun p => { p with open_ := none, state := if p.state = .frame then .idle else p.state }

/-- Change the open frame. -/
def State.modFrame (s : State) (c : PortIx) (f : Frame → Frame) : State := s.modPort c fun p => { p with open_ := p.open_.map f }

/-! ### Rows and lines (R75, R80, R82, R84, R88) -/

/-- Change an entry of the pending list. -/
def State.modEntry (s : State) (c : PortIx) (x : Int) (f : PendEntry → PendEntry) : State :=
  s.modPort c fun p => { p with pend := p.pend.map fun e => if e.x = x then f e else e }

/-- A line's first row opens: its flags, its frame's first line, the values scheduled at its trigger LSN or, for the slice, its web LSN, and the
admission of R80; a line of a malformed frame becomes a placeholder (R85). DESIGN CHOICE (log entry 100): a line triggered in ARMED whose first row opens in RUN, or that times out there, is a line of RUN. -/
def State.admitLine (s : State) (c : PortIx) (e : PendEntry) : State :=
  match (s.port c).open_ with
  | none => s
  | some f =>
    let s := (s.fsFirstLine c e.x).lineReached c e.x
    let first := f.lines == 1
    let flags := if first then 0x20 + 0x80 * bit (bitAt f.flags 2) else 0
    let s := s.modFrame c fun f => { f with firstLsn := some (f.firstLsn.getD (mod48 e.x)) }
    let fits := decide ((s.port c).fifo + s.lineFifoBytes c ≤ 262144)
    let mpFits := decide ((s.fsPort c).mpLevel + s.lineMpBytes c ≤ s.mpSize c)
    let set := fun (s : State) (reason fb mb : Nat) => s.modEntry c e.x fun e => { e with
      flags := flags, idx := f.lines, reason := reason, fifoBytes := fb, mpBytes := mb, discard := !s.running }
    if !s.running then set s 0 0 0
    else if bitAt f.flags 5 then
      let last := s.od (Od.portFrameLines c) != 0 && f.lines == s.od (Od.portFrameLines c)
      (set s 5 0 0).placeholder c e.x e.dt 5 (Nat.lor flags (0x40 * bit last))
    else if !fits then set s 2 0 0
    else if s.isMp c then
      if f.shed then set s 9 0 0
      else if !mpFits then ((set s 9 0 0).modFrame c fun f => { f with shed := true }).fsStatusEvent c 4
      else set ((s.fifoTake c (s.lineFifoBytes c)).mpTake c (s.lineMpBytes c)) 0 (s.lineFifoBytes c) (s.lineMpBytes c)
    else set (s.fifoTake c (s.lineFifoBytes c)) 0 (s.lineFifoBytes c) 0

/-- A terminated line waits for what follows it; one that closes its frame goes at once with FRAME_END (R88). -/
def State.holdLine (s : State) (c : PortIx) (l : CamLine) (closes : Bool) : State :=
  let s := s.flushHeld c false
  if closes then s.emitLine c { l with flags := Nat.lor l.flags 0x40 } else s.modPort c fun p => { p with held := some l }

/-- Count short and long lines (R82). -/
def State.countWidth (s : State) (c : PortIx) (flags : Nat) : State :=
  let s := if bitAt flags 0 then s.camCount (Reg.camShortLines c) 1 else s
  if bitAt flags 1 then s.camCount (Reg.camLongLines c) 1 else s

/-- All rows of a line are terminated: its short or long rows are counted (R82), CHECK_POLICY, its flags, and its way to the slice (R84, R88). DESIGN
CHOICE (log entry 101): the port's previous delivered line is the last one delivered with its own data. -/
def State.lineDone (s : State) (c : PortIx) (e : PendEntry) : State :=
  let s := (s.modPort c fun p => { p with pend := p.pend.filter fun f => f.x != e.x }).countWidth c e.flags
  let policy := s.od (Od.portCheckPolicy c)
  if e.discard || e.reason == 5 then s.passPlaceholders c (s.port c).later
  else
    let checked := if e.check then 4 else 0
    let keep := Nat.lor (Nat.land e.flags 0xA0) checked
    let replaced := e.check && policy != 0 && e.reason == 0
    let s := if replaced then s.unreserve c e else s
    let prev := if replaced && policy == 2 then (s.port c).prev else none
    let fill : CamLine := { x := e.x, dt := e.dt, flags := Nat.lor keep 8, filled := true, fill := s.od (Od.portFillValue c), rows := [],
                            reason := if replaced then 4 else e.reason, fifoBytes := 0, mpBytes := 0, stored := none }
    let closes := s.od (Od.portFrameLines c) != 0 && e.idx == s.od (Od.portFrameLines c)
    let s :=
      if e.reason = 0 && !replaced then
        (s.modPort c fun p => { p with prev := some e.rows }).holdLine c
          { fill with flags := Nat.lor e.flags checked, filled := false, rows := e.rows, fifoBytes := e.fifoBytes, mpBytes := e.mpBytes } closes
      else match prev with
        | some rows => s.holdLine c { fill with flags := Nat.lor keep 16, filled := false, rows := rows } closes
        | none => s.holdLine c fill closes
    s.passPlaceholders c (s.port c).later

/-- The open row is terminated (R79, R82). -/
def State.rowEnd (s : State) (c : PortIx) : State :=
  match (s.port c).row with
  | none => s
  | some r =>
    let s := s.modPort c fun p => { p with row := none, state := .frame }
    let w := s.od (Od.portLineWidth c)
    let short := decide (r.pixels.length < w)
    let row := r.pixels ++ List.replicate (w - r.pixels.length) (BitVec.ofNat 16 (s.od (Od.portFillValue c)))
    match r.entry with
    | none => s
    | some x =>
      let s := s.modEntry c x fun e => { e with
        rows := e.rows ++ [row]
        flags := Nat.lor e.flags (bit short + 2 * bit r.trunc)
        check := e.check || r.check }
      match (s.port c).pend.find? fun e => e.x == x with
      | some e => if e.rows.length = s.rowsPerCycle c then s.lineDone c e else s
      | none => s

/-- Pixel data of the open row (R79, R82). -/
def State.rowPixels (s : State) (c : PortIx) (vals : List W16) (bad : Bool) : State :=
  match (s.port c).row with
  | none => s
  | some r =>
    let room := s.od (Od.portLineWidth c) - r.pixels.length
    let r' : OpenRow := { r with
      pixels := r.pixels ++ vals.take room
      trunc := r.trunc || decide (room < vals.length)
      check := r.check || bad }
    let s := s.modPort c fun p => { p with row := some r' }
    if room ≤ vals.length then s.rowEnd c else s

/-- A malformed packet (R85): counted, also in the open frame. -/
def State.malformed (s : State) (c : PortIx) : State :=
  let s := (s.camCount (Reg.camMalformed c) 1).camInt c 0x40
  s.modFrame c fun f => { f with malformed := satAdd 16 f.malformed 1 }

/-! ### The control channel and discovery (R63 to R67) -/

/-- Finish the host's control-channel request (R66). -/
def State.ccFinish (s : State) (c : PortIx) (result ack : Nat) : State :=
  let s := s.modPort c fun p => { p with ccHost := none }
  (s.setReg (Reg.camCcStatus c) (result * 2 + ack * 256)).camInt c 0x200

/-- Send the host's request that has waited for discovery to end; without a link it fails with RESULT 3. -/
def State.ccRelease (s : State) (c : PortIx) : State :=
  match (s.port c).ccHost with
  | some r =>
    if r.sent then s
    else if (s.port c).linked then
      (s.modPort c fun p => { p with ccHost := some { r with sent := true } }).send (.ccRequest c r.write r.addr r.len r.data)
    else s.ccFinish c 3 0
  | none => s

/-- The port goes DOWN (R58, R79): its line is terminated, its frame closed with the unterminated flag. DESIGN CHOICE (log entry 99): DISC_CODE keeps
what it was until the next discovery starts. -/
def State.portDown (s : State) (c : PortIx) : State :=
  if (s.port c).state = .down then s
  else
    let s := (s.rowEnd c).closeFrame c 8
    ((s.modPort c fun p => { p with state := .down, step := .none, hbOk := false }).camStatus c 1).ccRelease c

/-- Discovery ends without a link (R63, R64, R79). -/
def State.discFail (s : State) (c : PortIx) (code : Nat) : State :=
  let s := (s.modPort c fun p => { p with state := .failed, step := .none }).setOd (Od.portDiscCode c) code
  (s.camStatus c 4).ccRelease c

/-- Send the discovery read of register `what`. -/
def State.discRead (s : State) (c : PortIx) (what : Nat) (step : DiscStep) : State :=
  (s.modPort c fun p => { p with step := step }).send (.ccRequest c false (Config.cxpAddr what) (Config.cxpLen what) [])

/-- The connection configuration that discovery writes and reads back (R63). -/
def State.discConfig (s : State) (c : PortIx) : List Byte :=
  Config.cxpConfig (s.od (Od.portLaneCount c)) (s.od (Od.engLaneRate (c.val / 4)))

/-- Discovery starts (R63); it waits while a host request holds the control channel (R66). -/
def State.discStart (s : State) (c : PortIx) : State :=
  let s := (s.modPort c fun p => { p with state := .discovery }).setOd (Od.portDiscCode c) 1
  match (s.port c).ccHost with
  | some r => if r.sent then s.modPort c fun p => { p with step := .waitSlot } else s.discRead c 0 .revision
  | none => s.discRead c 0 .revision

/-- Are all LANE_COUNT lanes of the port locked? -/
def State.allLocked (s : State) (c : PortIx) : Bool :=
  (List.range (s.od (Od.portLaneCount c))).all fun l => (s.port c).locks.getLsbD l

/-- Discovery succeeds (R63, R69, R79, R86). -/
def State.discDone (s : State) (c : PortIx) : State :=
  let s := (s.modPort c fun p => { p with
    state := .idle, step := .none, owed := 0, stream := none, recorded := some p.seenIdent }).setOd (Od.portDiscCode c) 2
  (s.camStatus c 2).ccRelease c

/-- An acknowledgement advances discovery (R63). -/
def State.discReply (s : State) (c : PortIx) (ack : Byte) (data : List Byte) : State :=
  if !Config.cxpAckOk ack then s.discFail c 3
  else match (s.port c).step with
    | .revision => (s.modPort c fun p => { p with seenRevision := data }).discRead c 1 .model
    | .model => (s.setBlob (Od.portCameraModel c) ((data.take 32).takeWhile (· != 0))).discRead c 2 .ident
    | .ident =>
      let s := s.modPort c fun p => { p with seenIdent := data }
      if Config.cxpMajor (s.port c).seenRevision ≠ 2 then s.discFail c 7
      else if (s.port c).recorded.isSome && (s.port c).recorded != some data then s.discFail c 6
      else
        (s.modPort c fun p => { p with step := .configure }).send (.ccRequest c true (Config.cxpAddr 3) (Config.cxpLen 3) (s.discConfig c))
    | .configure => if s.allLocked c then s.discRead c 3 .readback else s.modPort c fun p => { p with step := .lanes }
    | .readback => if data = s.discConfig c then s.discDone c else s.discFail c 5
    | _ => s

/-- Discard everything that ingress holds of a port (R78, R127): no line is pending, open, held or queued. -/
def State.clearPort (s : State) (c : PortIx) : State :=
  let s := s.closeRun c
  s.modPort c fun p => { p with
    pend := [], owed := 0, row := none, open_ := none, held := none, later := [], queue := [], fifo := 0, fifoHigh := false
    state := if p.linked then .idle else p.state }

end Sys2Proof.Machine
end

