-- ==== Sys2Proof/Machine/Rings.lean ====
section
/-! DEFINITION. Host rings (R368 to R371, R377, R400, R402): where a ring lies, its indices and its mirror, writing an entry with its producer index
and interrupt, and what becomes of entries that find a ring full. -/

namespace Sys2Proof.Machine

/-- Where a device-written ring's registers stand. -/
structure RingRegs where
  base : Nat
  slots : Nat
  slotSize : Nat
  pi : Nat
  ci : Nat
  mirror : Nat
  /-- The vector of an entry, where the entry raises one by itself (R505: results, events, statistics). -/
  vector : Option Nat

/-- A 64-bit address held in two registers. -/
def State.reg64 (s : State) (lo hi : Nat) : Nat := s.reg lo + 2 ^ 32 * s.reg hi

/-- The ring's registers (R405, R170). -/
def State.ringRegs (s : State) : DevRing → RingRegs
  | .completion q =>
    { base := s.reg64 (Reg.ccBaseLo q) (Reg.ccBaseHi q), slots := s.reg (Reg.ccSlots q), slotSize := 32, pi := Reg.ccPi q, ci := Reg.ccCi q,
      mirror := s.reg64 (Reg.ccMirrorLo q) (Reg.ccMirrorHi q), vector := none }
  | .result r =>
    { base := s.reg64 (Reg.resBaseLo r) (Reg.resBaseHi r), slots := s.reg (Reg.resSlots r), slotSize := 64 + s.reg (Reg.resBodyBytes r),
      pi := Reg.resPi r, ci := Reg.resCi r, mirror := s.reg64 (Reg.resMirrorLo r) (Reg.resMirrorHi r),
      vector := if bitAt (s.reg64 Reg.glbResIrqLo Reg.glbResIrqHi) r then some (65 + r.val) else none }
  | .event =>
    { base := s.reg64 Reg.cmdEvtBaseLo Reg.cmdEvtBaseHi, slots := s.reg Reg.cmdEvtSlots, slotSize := 64, pi := Reg.cmdEvtPi, ci := Reg.cmdEvtCi,
      mirror := s.reg64 Reg.cmdEvtMirrorLo Reg.cmdEvtMirrorHi, vector := if bitAt (s.reg Reg.glbRingIrq) 0 then some 129 else none }
  | .stats =>
    { base := s.od Od.qStatsRingBase, slots := s.od Od.qStatsRingSlots, slotSize := 64, pi := Reg.cmdStatsPi, ci := Reg.cmdStatsCi,
      mirror := s.reg64 Reg.cmdStatsMirrorLo Reg.cmdStatsMirrorHi, vector := if bitAt (s.reg Reg.glbRingIrq) 1 then some 130 else none }

/-- Entries in a ring: (PI − CI) mod 2^32. -/
def ringUsed (pi ci : Nat) : Nat := (pi + 2 ^ 32 - ci % 2 ^ 32) % 2 ^ 32

/-- May the device write an entry now: it may master the bus, the ring is enabled and not full (R368, R371, R500)? -/
def State.ringSpace (s : State) (r : DevRing) : Bool :=
  let g := s.ringRegs r
  s.canDma && g.slots != 0 && decide (ringUsed (s.reg g.pi) (s.reg g.ci) < g.slots)

/-- Write the mirror of a producer index where there is one (R369). -/
def State.writeMirror (s : State) (addr pi : Nat) : State := if addr = 0 then s else s.writeHost addr (leBytes 4 pi)

/-- Write one entry, then PI, then its mirror, then raise the ring's vector (R369). -/
def State.ringPut (s : State) (r : DevRing) (entry : List Byte) : State :=
  let g := s.ringRegs r
  let pi := s.reg g.pi
  let s := s.writeHost (g.base + pi % max 1 g.slots * g.slotSize) entry
  let s := s.setReg g.pi ((pi + 1) % 2 ^ 32)
  let s := (s.writeMirror g.mirror ((pi + 1) % 2 ^ 32)).count64 Reg.glbDmaWrBytes (entry.length + if g.mirror = 0 then 0 else 4)
  match g.vector with
  | some v => s.msixRaise v
  | none => s

/-- A statistics record (R170): written, lost where the ring is full, and none where it is off. -/
def State.statsPut (s : State) (entry : List Byte) : State :=
  if s.od Od.qStatsRingSlots = 0 then s
  else if s.ringSpace .stats then s.ringPut .stats entry
  else s.countOd Od.qStatsLost 1

/-- The 64 bytes of an event record (R402). -/
def eventBytes (e : EventRec) : List Byte :=
  leBytes 8 e.dt ++ leBytes 6 e.lsn ++ leBytes 1 e.source ++ leBytes 1 e.type ++ e.body

/-- The DT of the events-lost record: the present, or that of the oldest event that still waits, which it precedes, so that the ring keeps rising DT (R53).
DESIGN CHOICE (log entry 130). -/
def State.lostDt (s : State) : Nat := match s.events with
  | [] => s.dt
  | e :: _ => min s.dt e.dt

/-- An events-lost record is owed and a slot is free: it goes before any other event (R371). -/
def State.eventsLostPut (s : State) : State :=
  if s.cmd.eventsLost != 0 && s.ringSpace .event then
    let n := s.cmd.eventsLost
    let s := { s with cmd := { s.cmd with eventsLost := 0 } }
    s.ringPut .event (eventBytes ⟨s.lostDt, s.web.lastLsn, 3, 7, padTo 48 (leBytes 4 n)⟩)
  else s

/-- Write the oldest raised event, or discard it where the ring is full or disabled; while the device may not master the bus the ring behaves as full
(R371, R402, R500). -/
def State.eventPut (s : State) : State :=
  match s.events with
  | [] => s
  | e :: rest =>
    if !s.ringSpace .event then
      let s := { s with events := rest, cmd := { s.cmd with eventsLost := satAdd 32 s.cmd.eventsLost 1 } }
      (s.countOd Od.jobEventsLost 1).raiseInt .cmd 8
    else
      let s := s.eventsLostPut
      if s.ringSpace .event then ({ s with events := rest }).ringPut .event (eventBytes e) else s

/-- EVENT_RECORD_WRITE: the oldest raised event record goes to the event ring. -/
def execEventRecordWrite (s : State) : Result := .next (if s.dev.resetHeld then s else s.eventPut)

end Sys2Proof.Machine
end

