-- ==== Sys2Proof/Machine/TrimOps.lean ====
section
/-! DEFINITION. DRAM channels and their error handling (R333, R335, R338), and the shared operations of trimming: due units, forced row repairs and
windows (R509 to R516). -/

namespace Sys2Proof.Machine

/-- The channel that holds an address (R333). -/
def dramChannel (a : Nat) : Nat := Nat.xor (a / 2 ^ 8 % 128) (a / 2 ^ 15 % 128)
/-- The address of block i of a channel, in channel-address order: one block in each aligned 32 KiB region (R333). -/
def channelBlock (ch i : Nat) : Nat := i * 2 ^ 15 + Nat.xor ch (i % 128) * 2 ^ 8

/-- Change the trim sequencer. -/
def State.modTrim (s : State) (f : Trim → Trim) : State := { s with trim := f s.trim }

/-- Is an item about a unit: for DRAM_ROW the row of its block (R509)? -/
def TrimItem.is (x : TrimItem) (kind unit addr : Nat) : Bool :=
  x.kind == kind && (if kind = 4 then Config.dramRow (x.addr / 256) == Config.dramRow (addr / 256) else x.unit == unit)

/-- A unit becomes due; a unit that is due already stays due once (R512). -/
def State.trimDue (s : State) (kind unit addr : Nat) (forced : Bool) : State :=
  if s.trim.due.any fun x => x.is kind unit addr then s
  else s.modTrim fun t => { t with due := t.due ++ [⟨kind, unit, addr, forced, s.dt, false, 0⟩] }

/-- Does an item of DRAM_ROW run in the bank of a block (R515)? -/
def State.bankBusy (s : State) (addr : Nat) : Bool :=
  s.trim.running.any fun x => x.kind == 4 && Config.dramBank (x.addr / 256) == Config.dramBank (addr / 256)

/-- Is a DRAM block in a bank or a channel that an item holds (R509, R519)? -/
def State.blockHeld (s : State) (b : Nat) : Bool :=
  s.bankBusy (256 * b) || s.trim.running.any fun x => x.kind == 5 && x.unit == dramChannel (256 * b)
/-- Must an access to [a, a + n) of DRAM wait for an item to end (R519)? -/
def State.dramHeld (s : State) (a n : Nat) : Bool :=
  (s.trim.running.any fun x => x.kind == 4 || x.kind == 5) && (unitsOf 256 a n).any s.blockHeld

/-- A forced row repair starts (R515, R532). -/
def State.forceRow (s : State) (addr : Nat) : State :=
  let ch := dramChannel addr
  let s := s.modTrim fun t => { t with
    due := t.due.filter fun x => !x.is 4 ch addr
    running := t.running ++ [⟨4, ch, addr / 256 * 256, true, s.dt, false, s.dt⟩] }
  let s := (s.countOd Od.trimForcedRepairs 1).count64 Reg.trimForced 1
  (s.raiseInt .trim 8).event 8 0x12 (leBytes 1 ch ++ [0, 0, 0] ++ leBytes 8 (addr / 256 * 256))

/-- An uncorrectable error asks for a repair of its row, forced even where the row was due already (R335, R512, R515). -/
def State.repairRow (s : State) (addr : Nat) : State :=
  let ch := dramChannel addr
  if s.trim.running.any fun x => x.is 4 ch addr then s
  else if s.bankBusy addr || !(s.dev.state = .preop || s.dev.state.live) then
    (s.modTrim fun t => { t with due := t.due.map fun x => if x.is 4 ch addr then { x with forced := true } else x }).trimDue 4 ch addr true
  else s.forceRow addr

/-- A row repair has ended: a forced one that waited for its bank starts (R515). -/
def State.repairNext (s : State) (addr : Nat) : State :=
  if s.bankBusy addr || !(s.dev.state = .preop || s.dev.state.live) then s
  else match s.trim.due.find? fun x => x.kind == 4 && x.forced && Config.dramBank (x.addr / 256) == Config.dramBank (addr / 256) with
    | some x => s.forceRow x.addr
    | none => s

/-- A DRAM read meets an uncorrectable error (R335, R366). -/
def State.dramUncorrectable (s : State) (addr : Nat) (scrub atomic : Bool) : State :=
  let ch := dramChannel addr
  let a := addr / 256 * 256
  let s := s.count32 (Reg.dramcChUncorr ch) 1
  let s := ((s.setReg Reg.dramcErrAddrLo (a % 2 ^ 32)).setReg Reg.dramcErrAddrHi (a / 2 ^ 32)).setReg Reg.dramcErrInfo (ch + 256 * bit scrub + 512 * bit atomic)
  (s.raiseStatus .dramc 2 2 ch 0xFF a).repairRow a

/-- A scrub read of pass n meets a corrected error in a row: a row with errors in two consecutive passes is due (R512). -/
def State.rowError (s : State) (ch addr n : Nat) : State :=
  let row := Config.dramRow (addr / 256)
  let again := s.trim.rowErrors.any fun e => e.2.1 == row && e.2.2 + 1 == n
  let s := s.modTrim fun t => { t with rowErrors := (ch, row, n) :: t.rowErrors.filter fun e => e.2.1 != row && (e.1 != ch || decide (n ≤ e.2.2 + 1)) }
  if again then s.trimDue 4 ch (addr / 256 * 256) false else s

/-- A DRAM read meets a corrected error on a bond lane (R335, R367, R512); `pass` is the scrub pass of a scrub read, whose rows with errors are noted (R338,
R512). -/
def State.dramCorrected (s : State) (ch addr lane : Nat) (pass : Option Nat) : State :=
  let s := (s.count32 (Reg.dramcChCorrected ch) 1).raiseInt .dramc 1
  let s := if bitAt (s.reg Reg.dramcIntEnable) 0 then
      s.rateLimited (rateKey 2 0x41 ch) 1000000 fun t => t.statusEvent 2 ch 0xFF 1 addr
    else s
  let errs := (s.trim.laneErrors.filter fun e => decide (s.dt < e.2.2 + 1000000000)) ++ [(ch, lane, s.dt)]
  let s := s.modTrim fun t => { t with laneErrors := errs }
  let s := match pass with
    | some n => s.rowError ch addr n
    | none => s
  if 64 ≤ (errs.filter fun e => e.1 == ch && e.2.1 == lane).length then s.trimDue 5 ch 0 false else s

/-- Blocks of a channel (R338). -/
def channelBlocks : Nat := 786432
/-- What a read of a DRAM block meets (R335): an uncorrectable error, or a single-bit error, which is corrected and written back. -/
def State.blockSeen (s : State) (scrub atomic : Bool) (b : Nat) : State :=
  if s.dramPoisoned (256 * b) 256 then s.dramUncorrectable (256 * b) scrub atomic
  else match s.dramSingle.find? fun e => e.1 / 256 == b with
    | some e =>
      let ch := dramChannel (256 * b)
      { s with dramSingle := s.dramSingle.filter fun x => x.1 / 256 != b }.dramCorrected ch (256 * b) e.2
        (if scrub then some (Map.get s.trim.scrub 0 ch / channelBlocks) else none)
    | none => s
/-- A read of [a, a + n) of DRAM: the errors that its blocks show. -/
def State.dramSeen (s : State) (a n : Nat) (atomic : Bool) : State :=
  if s.dramPoison.isEmpty && s.dramSingle.isEmpty then s else (unitsOf 256 a n).foldl (State.blockSeen · false atomic) s

/-- The bit of the device state in STATES (R513). -/
def trimStateBit : DevState → Option Nat
  | .preop => some 0
  | .armed => some 1
  | .run => some 2
  | .hold => some 3
  | _ => none

/-- Is the window of a kind open (R513)? -/
def State.trimOpen (s : State) (kind : Nat) : Bool :=
  s.odFlag Od.trimTrimEnable && (match trimStateBit s.dev.state with
    | some b => bitAt (s.od (Od.trimKindStates kind)) b
    | none => false) && (s.dev.state != .run || s.odFlag Od.trimRunWindow) &&
  decide ((s.trim.running.filter fun x => x.kind == kind).length < s.od (Od.trimKindMaxConcurrent kind)) && !s.pwr.warning

/-- Does a supply warning keep an item from starting: any but a forced row repair (R544)? -/
def State.warningHolds (s : State) (x : TrimItem) : Bool := s.pwr.warning && !(x.forced && x.kind == 4)

/-- May a due item start, as far as its window goes (R513, R515)? A forced item needs none, but only a row repair starts while a supply warning is in
force (R544); a row repair waits for its bank. -/
def State.trimEligible (s : State) (x : TrimItem) : Bool :=
  !s.warningHolds x && !(s.trim.running.any fun y => y.is x.kind x.unit x.addr) && (x.kind != 4 || !s.bankBusy x.addr) && (x.forced || s.trimOpen x.kind) &&
  (x.forced || !(x.kind == 2 || x.kind == 3) || !s.trim.running.any fun y => y.kind == 2 || y.kind == 3) && (s.dev.state = .preop || s.dev.state.live)

/-- The item that starts next: a forced one, then in kind order, then in order of becoming due (R513). -/
def State.trimNext (s : State) : Option TrimItem :=
  let xs := s.trim.due.filter s.trimEligible
  match xs.find? fun x => x.forced with
  | some x => some x
  | none => (List.range 6).findSome? fun k => xs.find? fun x => x.kind == k

/-- The core of an item of kind 0 or 1. -/
def TrimItem.core (x : TrimItem) : Option Nat := if x.kind = 0 then some (x.unit / 8) else if x.kind = 1 then some x.unit else none

/-- Is a core held back from drawing, because an item waits for it to be idle (R517)? -/
def State.trimHolds (s : State) (k : CoreIx) : Bool := match s.trimNext with
  | some x => x.core == some k.val
  | none => false

end Sys2Proof.Machine
end

