-- ==== Sys2Proof/Machine/Quant.lean ====
section
/-! DEFINITION. Number formats and delayed scaling (R131 to R176): expansion to X24, quantisation, scale slots and their publication, statistics of
a group and its close. -/

namespace Sys2Proof.Machine

/-! ### Formats (R131 to R141) -/

/-- Element width in bits of a format code. -/
def fmtBits : Nat → Nat
  | 0 | 2 | 3 => 4
  | 8 | 9 | 11 => 16
  | 12 => 32
  | _ => 8
/-- A scaled format (FMT 0x0 to 0x7). -/
def fmtScaled (f : Nat) : Bool := decide (f ≤ 7)
/-- A format with a zero point (A4U, A8U). -/
def fmtZero (f : Nat) : Bool := f == 2 || f == 4
/-- The code maximum Q (R139, R162). -/
def fmtQ : Nat → Rat
  | 0 | 3 => 7
  | 1 | 5 => 127
  | 2 => 15
  | 4 => 255
  | 6 => 448
  | _ => 57344

/-- Scale and zero point that govern an element; `zr` marks a zero-range group of a published slot. -/
structure Scaling where
  scale : Nat
  zero : Nat
  zr : Bool
  deriving DecidableEq, Repr

/-- Is a BF16 pattern a valid scale (R138)? -/
def scaleValid (s : Nat) : Bool := decide (0x0080 ≤ s) && decide (s ≤ 0x7F7F)
/-- The value of a scale. -/
def scaleVal (s : Nat) : Rat := fmtBf16.mag s

/-- What an expansion counts (R137, R138, R141). -/
structure XCount where
  ftz : Nat := 0
  ovf : Nat := 0
  special : Nat := 0
  nan : Nat := 0
  deriving DecidableEq, Repr

def XCount.add (a b : XCount) : XCount := ⟨a.ftz + b.ftz, a.ovf + b.ovf, a.special + b.special, a.nan + b.nan⟩

/-- The largest X24 magnitude (R140). -/
def x24Max : Rat := (2 - pow2 (-15)) * pow2 127

/-- Write a value in X24 form (R141). -/
def toX24 : Fp → Fp × XCount
  | .nan => (.fin false 0, { nan := 1 })
  | .inf s => (.fin s x24Max, { ovf := 1 })
  | .fin s m =>
    if m = 0 then (.fin s 0, {})
    else if m < minNormal32 then (.fin s 0, { ftz := 1 })
    else if x24Max < m then (.fin s x24Max, { ovf := 1 })
    else (.fin s m, {})

/-- The exact value of a code (R134 to R137), before X24; a special code gives zero and its count. -/
def codeValue (fmt : Nat) (k : Scaling) (code : Nat) : Fp × XCount :=
  let sc := scaleVal k.scale
  match fmt with
  | 0 | 3 => (Fp.ofRat (sc * (toSigned 4 code : Rat)), {})
  | 1 | 5 => (Fp.ofRat (sc * (toSigned 8 code : Rat)), {})
  | 2 | 4 => (Fp.ofRat (sc * (((code : Int) - (k.zero : Int) : Int) : Rat)), {})
  | 6 =>
    if code % 128 = 127 then (Fp.zero, { special := 1 })
    else (Fp.ofRat ((if 128 ≤ code then -1 else 1) * fmtF8A.mag code * sc), {})
  | 7 =>
    if 124 ≤ code % 128 then (Fp.zero, { special := 1 })
    else (Fp.ofRat ((if 128 ≤ code then -1 else 1) * fmtF8B.mag code * sc), {})
  | 8 => (fmtBf16.decode code, {})
  | 9 => (fmtFp16.decode code, {})
  | 12 => (read32 code, {})
  | _ => (.fin false (code : Rat), {})

/-- Is the scaling of a scaled format invalid, so that its elements expand to zero (R138)? -/
def scalingBad (fmt : Nat) (k : Scaling) : Bool := fmtScaled fmt && !scaleValid k.scale

/-- An element at its exact value, as the vector engine reads it (R141, R261). A special code counts under an invalid scale too (R137, R138). -/
def exactValue (fmt : Nat) (k : Scaling) (code : Nat) : Fp × XCount :=
  let v := codeValue fmt k code
  (if scalingBad fmt k then Fp.zero else v.1, v.2)

/-- An element expanded to X24 (R141). -/
def expand (fmt : Nat) (k : Scaling) (code : Nat) : Fp × XCount :=
  let (v, c) := exactValue fmt k code
  let (x, d) := toX24 v
  (x, c.add d)

/-! ### Quantising (R154 to R156, R171) -/

/-- What the quantisation of one element gives: the code, saturated, non-finite. -/
structure QOut where
  code : Nat
  sat : Bool
  nonfinite : Bool
  deriving DecidableEq, Repr

/-- The zero code of a format: min(z, Q), or 0 (R139). -/
def zeroCode (fmt : Nat) (k : Scaling) : Nat := if fmt = 2 then min k.zero 15 else if fmt = 4 then min k.zero 255 else 0

/-- The range of codes written, as signed values (R131). -/
def codeRange : Nat → Int × Int
  | 0 | 3 => (-7, 7)
  | 1 | 5 => (-127, 127)
  | 2 => (0, 15)
  | _ => (0, 255)

/-- Quantise w (R154 to R156). In a zero-range group every element takes the zero code, and counts as saturated where it is finite and not zero
(R171, R172). DESIGN CHOICE (log entry 134): the zero-range mark goes before an invalid scale. DESIGN CHOICE (log entry 135): a w of -0 is 0 and takes code
0x00 in F8A and F8B. -/
def quantise (fmt : Nat) (k : Scaling) (w : Fp) : QOut :=
  if k.zr then ⟨zeroCode fmt k, w.isFin && w.toRat != 0, !w.isFin⟩
  else if !scaleValid k.scale then ⟨zeroCode fmt k, false, !w.isFin⟩
  else
    let sc := scaleVal k.scale
    let (lo, hi) := codeRange fmt
    match w with
    | .nan => ⟨zeroCode fmt k, false, true⟩
    | .inf neg =>
      if fmt = 6 then ⟨if neg then 0xFE else 0x7E, true, true⟩
      else if fmt = 7 then ⟨if neg then 0xFB else 0x7B, true, true⟩
      else ⟨ofSigned (fmtBits fmt) (if neg then lo else hi), true, true⟩
    | .fin _ _ =>
      if fmt = 6 ∨ fmt = 7 then
        let (c, sat) := toF8 (fmt == 7) (w.toRat / sc)
        ⟨c, sat, false⟩
      else
        let r := roundInt (w.toRat / sc) + (if fmtZero fmt then (k.zero : Int) else 0)
        let c := max lo (min hi r)
        ⟨ofSigned (fmtBits fmt) c, c != r, false⟩

/-- Round a scale quotient to BF16 under R162. -/
def scaleBf16 (q : Rat) : Nat :=
  let r := roundSig 8 none q
  if r < minNormal32 then 0x0080 else if fmtBf16.max < r then 0x7F7F else fmtBf16.pattern r

/-! ### Tensors, slots and publication (R158 to R164) -/

def State.tensor (s : State) (t : Nat) : Tensor := (sparseGet t s.tensors).getD Tensor.init
/-- Change one tensor. -/
def State.modTensor (s : State) (t : Nat) (f : Tensor → Tensor) : State := { s with tensors := sparseSet t (some (f (s.tensor t))) s.tensors }
/-- Groups of a tensor: ceil(CHANNELS / G). -/
def State.trkGroups (s : State) (t : Nat) : Nat := ceilDiv (s.od (Od.trkChannels t)) (s.od (Od.trkGroupSize t))
/-- Was the group closed as a short first part at an entry to HOLD, so that it has a second part (R38)? -/
def State.shortGroup (s : State) (g : Int) : Bool := s.web.shortParts.any fun p => p.1 == g
/-- The first line group that the device processes (R37); none before it is known. -/
def State.firstGroup (s : State) : Option Int :=
  s.enabledPorts.foldl (fun acc c => match acc, s.web.firstSeen[c] with
    | some m, some x => some (max m (x / s.lineGroup))
    | _, _ => none) (some (-(2 ^ 63 : Int)))

/-- Join two extents. -/
def Extent.join : Extent → Extent → Extent
  | none, b => b
  | a, none => a
  | some (h, l), some (k, m) => some (max h k, min l m)
/-- Enter a finite value. -/
def Extent.enter (e : Extent) (v : Rat) : Extent := Extent.join e (some (v, v))

/-- Scale and zero point of one group from its running extent (R162, R171). A group into which no finite value has come has no range: its scale
is a FREE VALUE among the valid scales, and its zero point one up to the code maximum, which no computed zero point exceeds (R138, R139). -/
def slotEntry (fmt margin free : Nat) (e : Extent) : SlotEntry :=
  match e with
  | none => ⟨0x0080 + free % 0x7F00, if fmtZero fmt then free / 0x7F00 % ((fmtQ fmt).num.toNat + 1) else 0, false⟩
  | some (hi, lo) =>
    let m : Rat := (margin : Rat) / 16384
    let q := fmtQ fmt
    if fmtZero fmt then
      let l := m * min lo 0
      let h := m * max hi 0
      if h - l = 0 then ⟨0x0080, 0, true⟩
      else
        let sc := scaleBf16 ((h - l) / q)
        ⟨sc, (min q.num (roundInt (-l / scaleVal sc))).toNat, false⟩
    else
      let a := max (if hi < 0 then -hi else hi) (if lo < 0 then -lo else lo)
      if a = 0 then ⟨0x0080, 0, true⟩ else ⟨scaleBf16 (m * a / q), 0, false⟩

/-- The entries of the initial slot, loaded by the driver (R164). DESIGN CHOICE (log entry 134): scale, zero point and zero-range bit stand as loaded. -/
def State.initialEntries (s : State) (t n : Nat) : List SlotEntry :=
  (List.range n).map fun j =>
    let w := ofLeBytes (s.readDram (s.od Od.qTrackBase + t * 65536 + 16384 + 16 + 4 * j) 4)
    ⟨w % 65536, w / 65536 % 256, bitAt w 24⟩

/-- The bytes of a slot (R164). -/
def slotBytes (lsn newest : Nat) (p : PubSlot) : List Byte :=
  leBytes 6 lsn ++ leBytes 1 p.flags ++ leBytes 1 p.used ++ leBytes 6 newest ++ [0, 0] ++
  p.entries.flatMap fun e => leBytes 4 (e.scale + 65536 * e.zero + 2 ^ 24 * bit e.zr)

/-- Publish the slot of group n (R161, R162, R164, R173, R359). Writes of WINDOW and MARGIN that are due at this publication take effect first
(R165). -/
def State.publish (s : State) (t : Nat) (n : Int) : State :=
  let s := s.takeDeferred (fun v => (v.key == Od.trkWindow t || v.key == Od.trkMargin t) && lsnReached (s.groupLsn n) v) (s.groupLsn n)
  let x := s.tensor t
  let k := s.trkGroups t
  let win := x.hist.filter fun h => decide (n - (s.od (Od.trkWindow t) : Int) ≤ h.1) && decide (h.1 ≤ n - 1)
  let lagged := !win.isEmpty && !(win.any fun h => h.1 == n - 1)
  let entries :=
    if win.isEmpty then s.initialEntries t k
    else (List.range k).map fun j =>
      slotEntry (s.od (Od.trkFormat t)) (s.od (Od.trkMargin t)) (Config.freeWord (s.freeCtr + j)).toNat
        (win.foldl (fun (e : Extent) h => e.join (h.2.getD j none)) none)
  let zeros := (entries.filter fun e => e.zr).length
  let slot : PubSlot :=
    { lgn := n, flags := bit win.isEmpty + 2 * bit lagged + 4 * bit (zeros != 0) + 8 * bit x.reset, used := win.length, entries := entries }
  let newest := match win with
    | h :: _ => s.groupLsn (win.foldl (fun m w => max m w.1) h.1)
    | [] => 0
  let bytes := slotBytes (s.groupLsn n) newest slot
  let i := (n % 16).toNat
  let s := if win.isEmpty then s.dramSeen (s.od Od.qTrackBase + t * 65536 + 16384) (16 + 4 * k) false else { s with freeCtr := s.freeCtr + k }
  let s := s.modTensor t fun y => { y with reset := false, slots := slot :: y.slots.filter fun p => decide (n - 16 < p.lgn) }
  let s := s.writeDram (s.od Od.qTrackBase + t * 65536 + i * 1024) bytes
  let pub := s.reg Reg.streamPubBase
  let s := if bitAt pub 0 && decide (t < s.reg Reg.streamPubCount) then s.writeOasis (bits pub 25 14 * 16384 + t * 16384 + i * 1024) bytes else s
  let s := if lagged then s.countOd Od.qLaggedGroups 1 else s
  s.countOd Od.qZeroRangeGroups zeros

/-- The published slot of group n. -/
def Tensor.slot (x : Tensor) (n : Int) : Option PubSlot := x.slots.find? fun p => p.lgn == n

/-- The first need of a slot publishes it (R161). -/
def State.needSlot (s : State) (t : Nat) (n : Int) : State := if ((s.tensor t).slot n).isSome then s else s.publish t n

/-- The scaling of channel group j under the slot of group n. -/
def State.trkScaling (s : State) (t : Nat) (n : Int) (j : Nat) : Scaling :=
  match (s.tensor t).slot n with
  | some p => match p.entries[j]? with
    | some e => ⟨e.scale, e.zero, e.zr⟩
    | none => ⟨0, 0, false⟩
  | none => ⟨0, 0, false⟩

/-! ### Statistics (R159, R160, R168 to R172) -/

/-- Empty statistics of a part of a group. -/
def QStats.empty (g : Int) (part2 : Bool) : QStats :=
  { lgn := g, part2 := part2, tiles := 0, ext := [], sse := 0, signal := 0, elements := 0, saturated := 0, nonfinite := 0, amax := 0 }

/-- Enter one element of channel group j (R159, R169, R172). -/
def QStats.enter (q : QStats) (fmt : Nat) (k : Scaling) (j : Nat) (w : Fp) (o : QOut) : QStats :=
  let ext := q.ext ++ List.replicate (j + 1 - q.ext.length) none
  let v := w.toRat
  let a := if v < 0 then -v else v
  let q1 : QStats := { q with
    ext := if w.isFin then ext.set j (Extent.enter (ext.getD j none) v) else ext
    saturated := q.saturated + bit o.sat
    nonfinite := q.nonfinite + bit o.nonfinite
    amax := if w.isFin then max q.amax a else q.amax }
  if k.zr || !w.isFin then q1
  else
    let back := (codeValue fmt k o.code).1.toRat
    let e := round64 (v - (if scaleValid k.scale then back else 0))
    { q1 with
      elements := q1.elements + 1
      sse := round64 (q1.sse + round64 (e * e))
      signal := round64 (q1.signal + round64 (v * v)) }

/-- Fold the statistics of a tile into its group (R159). -/
def QStats.fold (a b : QStats) : QStats :=
  { lgn := a.lgn
    part2 := a.part2
    tiles := a.tiles + 1
    ext := (List.range (max a.ext.length b.ext.length)).map fun j => Extent.join (a.ext.getD j none) (b.ext.getD j none)
    sse := round64 (a.sse + b.sse)
    signal := round64 (a.signal + b.signal)
    elements := a.elements + b.elements
    saturated := a.saturated + b.saturated
    nonfinite := a.nonfinite + b.nonfinite
    amax := max a.amax b.amax }

/-- Are these the statistics of a part of a group? -/
def QStats.isOf (q : QStats) (g : Int) (part2 : Bool) : Bool := q.lgn == g && q.part2 == part2

/-- A committed tile's statistics of tensor t enter its group; those of a part that has closed change nothing any more. -/
def State.foldStats (s : State) (t : Nat) (q : QStats) : State :=
  s.modTensor t fun x =>
    if x.closed.contains (q.lgn, q.part2) then x
    else
      let cur := (x.open_.find? fun o => o.isOf q.lgn q.part2).getD (QStats.empty q.lgn q.part2)
      { x with open_ := cur.fold q :: x.open_.filter fun o => !o.isOf q.lgn q.part2 }

/-- SHORT and CONTINUATION of a part of a group (R37, R38, R170, R400). -/
def State.partFlags (s : State) (g : Int) (part2 : Bool) : Nat :=
  let firstShort := match s.firstGroup with
    | some f => g == f && !(s.enabledPorts.all fun c => match s.web.firstSeen[c] with
        | some x => decide (x ≤ f * s.lineGroup)
        | none => true)
    | none => false
  bit (s.shortGroup g || firstShort) + 2 * bit part2

/-- What a statistics record takes from the slot under which its group was quantised (R170): FLAGS bits 1, 2, 5 and 6, SCALE_MIN, SCALE_MAX,
ZERO_RANGE and WINDOW_USED. -/
structure SlotUse where
  flags : Nat
  scaleMin : Nat
  scaleMax : Nat
  zeroRange : Nat
  used : Nat

/-- What the record of a group takes from its slot. Where no slot of the group was published, because nothing needed one and the group before has
not closed, R170 gives these fields no value: they are the FREE VALUE `free`. -/
def slotUse (free : Nat) : Option PubSlot → SlotUse
  | some p =>
    let scales := p.entries.map fun e => e.scale
    ⟨2 * bit (bitAt p.flags 1) + 4 * bit (bitAt p.flags 0) + 32 * bit (bitAt p.flags 3) + 64 * bit (bitAt p.flags 2),
      scales.foldl min (scales.headD 0), scales.foldl max 0, (p.entries.filter fun e => e.zr).length, p.used⟩
  | none => ⟨Nat.land (bits free 55 48) 0x66, bits free 15 0, bits free 31 16, bits free 47 32, bits free 63 56⟩

/-- The statistics record of a part of a group that closes (R170); `none_` says that no tile of it committed. -/
def State.statsRecord (s : State) (t : Nat) (q : QStats) (u : SlotUse) (stale none_ : Bool) : List Byte :=
  let fl := Nat.lor u.flags (bit stale + 8 * bit none_ + 16 * (s.partFlags q.lgn q.part2 % 2) + 32 * bit (stale && s.od (Od.trkStaleAction t) == 1))
  leBytes 8 s.dt ++ leBytes 6 (s.groupLsn q.lgn) ++ leBytes 1 t ++ leBytes 1 fl ++ leBytes 8 (bits64 q.sse) ++ leBytes 8 (bits64 q.signal) ++
  leBytes 8 q.elements ++ leBytes 8 q.saturated ++ leBytes 4 (min q.nonfinite 0xFFFFFFFF) ++ leBytes 4 (round32 q.amax).bits32 ++
  leBytes 2 u.scaleMin ++ leBytes 2 u.scaleMax ++ leBytes 2 u.zeroRange ++ leBytes 1 u.used ++ [0]

/-- Join the extents of two sets of groups of channels. -/
def joinExtents (a b : List Extent) : List Extent :=
  (List.range (max a.length b.length)).map fun j => Extent.join (a.getD j none) (b.getD j none)

/-- Enter a group's extents into a history of 8 groups, newest group first, whatever the order of closing; the second part of a group joins the
first (R160, R161). -/
def histEnter (g : Int) (ext : List Extent) : List (Int × List Extent) → List (Int × List Extent)
  | [] => [(g, ext)]
  | h :: r => if h.1 < g then (g, ext) :: h :: r else if h.1 = g then (g, joinExtents h.2 ext) :: r else h :: histEnter g ext r

/-- The key under which a tensor's stale event of a group is noted: at most one is raised (R168). -/
def staleKey (t : Nat) : Nat := 2 ^ 16 + t

/-- A stale group is reported once, whichever of its parts is stale first (R168). -/
def State.staleEvent (s : State) (t : Nat) (g : Int) (saturated : Nat) : State :=
  if s.cmd.lastEvent.told (staleKey t) g then s
  else
    let s := { s with cmd := { s.cmd with lastEvent := s.cmd.lastEvent.tell (staleKey t) g } }
    ((s.countOd Od.qStaleEvents 1).countOd (Od.trkStaleCount t) 1).eventAt (s.groupLsn g) 3 3 (leBytes 1 t ++ List.replicate 7 0 ++ leBytes 8 saturated)

/-- A part of group g of tensor t closes (R160, R168, R170): history, stale test, record, and the publication of group g + 1 (R161). DESIGN CHOICE (log
entry 136): SAT_TOTAL moves here. -/
def State.closeTracked (s : State) (t : Nat) (g : Int) (part2 : Bool) : State :=
  let x := s.tensor t
  let none_ := !s.cmd.committed.contains (g, part2)
  let q := (x.open_.find? fun o => o.isOf g part2).getD (QStats.empty g part2)
  let stale := decide (s.od (Od.trkSatLimit t) * q.elements < q.saturated * 1000000)
  let reset := stale && s.od (Od.trkStaleAction t) == 1
  let hist := if none_ then x.hist else (histEnter g q.ext x.hist).take 8
  let use := slotUse (Config.freeWord s.freeCtr).toNat (x.slot g)
  let s := { s with freeCtr := s.freeCtr + 1 }
  let s := s.modTensor t fun y => { y with
    open_ := y.open_.filter fun o => !o.isOf g part2
    closed := ((g, part2) :: y.closed).take 64
    hist := if reset then hist.filter fun h => h.1 == g else hist
    reset := y.reset || reset }
  let s := (s.setOd (Od.trkLastLsn t) (s.groupLsn g)).setOd (Od.trkLastSaturated t) q.saturated
  let s := s.setOd (Od.trkLastMse t) (if q.elements = 0 then 0 else (round32 (q.sse / q.elements)).bits32)
  let s := s.countOd (Od.trkSatTotal t) q.saturated
  let s := if stale then s.staleEvent t g q.saturated else s
  (s.statsPut (s.statsRecord t q use stale none_)).needSlot t (g + 1)

/-- Count what an instruction's expansions and conversions met (R137, R138, R141, R156, R157). -/
structure QCount where
  x : XCount := {}
  invalid : Nat := 0
  nonfinite : Nat := 0
  staticSat : Nat := 0

/-- Add the counts to the dictionary. -/
def State.countQ (s : State) (q : QCount) : State :=
  ((((((s.countOd Od.qExpandFtz q.x.ftz).countOd Od.qExpandOvf q.x.ovf).countOd Od.qF8Special q.x.special).countOd Od.qExpandNan q.x.nan).countOd
    Od.qScaleInvalid q.invalid).countOd Od.qNonfinite q.nonfinite).countOd Od.qStaticSat q.staticSat

end Sys2Proof.Machine
end

