-- ==== Sys2Proof/Machine/Views.lean ====
section
/-! DEFINITION. What a read of a dictionary entry returns where its value is computed from other state (R461 to R463, R478). -/

namespace Sys2Proof.Machine

/-- The identification word (R1). -/
def identWord : Nat := 0x74801420 + (if Config.gradeE then 0x1000 else 0)

/-- The entries answered before PREOP (R463, R479). -/
def odHardwired (key : Nat) : Bool :=
  key == Od.idIdent || key == Od.idSerial || key == Od.idRomVersion || key == Od.idGenMask || key == Od.devState || key == Od.crvSeat

/-- May an entry be read in the present state (R463)? -/
def State.odReadable (s : State) (key : Nat) : Bool := s.dev.state.ready || odHardwired key

/-! ### Supplies and clocks -/

/-- V_t in force (R543): while a target change is in progress, and for 100 µs after it is reached, the lower of the old and new targets. -/
def State.vt (s : State) : Nat :=
  match s.pwr.avsRequested with
  | some t => min t s.pwr.avsReached
  | none => match s.pwr.avsSettle with
    | some (old, t0) => if s.dt < t0 + 100000 then min old s.pwr.avsReached else s.pwr.avsReached
    | none => s.pwr.avsReached

/-- FREQ_CAP of a core: the smallest of the caps that the causes set (R551). -/
def State.freqCap (s : State) (k : Nat) : Nat :=
  min (min (s.pwr.warnCaps.toList.getD k 2200) s.pwr.limiterCap) (min (s.pwr.therm.caps.toList.getD k 2200) s.pwr.avsCap)

/-! ### Pins (R601) -/

/-- Is FAULT_N driven low: until the device first enters PREOP after a reset, and in SAFE? -/
def State.faultLow (s : State) : Bool := s.dev.resetHeld || !s.dev.state.ready || s.dev.state == .safe
/-- Is THERMTRIP_N driven low: while a thermal trip holds the reset (R553)? -/
def State.thermtripLow (s : State) : Bool := s.pwr.therm.tripHeld
/-- LASER_EN[5:0]: high while the engine's domain is powered (R538). -/
def State.laserEn (s : State) : BitVec 6 := s.pwr.engines

end Sys2Proof.Machine
end

