-- ==== Sys2Proof/Machine/LinkOps.lean ====
section
/-! DEFINITION. The shared operations of the Rolotte links (R407 to R433): the CRC, link states, messages and their queueing, halo sends, chain
values, barriers. -/

namespace Sys2Proof.Machine

/-! ### CRC-32 (R415) -/

/-- One bit of the reflected CRC. -/
def crcBit (c : W32) : W32 := if c.getLsbD 0 then (c >>> 1) ^^^ 0xEDB88320 else c >>> 1
/-- One byte. -/
def crcByte (c : W32) (b : Byte) : W32 := crcBit (crcBit (crcBit (crcBit (crcBit (crcBit (crcBit (crcBit (c ^^^ b.zeroExtend 32))))))))
/-- CRC-32 of IEEE 802.3. -/
def crc32 (bs : List Byte) : W32 := ~~~(bs.foldl crcByte 0xFFFFFFFF)

/-! ### Links and their states (R409 to R414) -/

/-- The code of a link state (R410). -/
def LinkState.code : LinkState → Nat
  | .down => 0
  | .lock => 1
  | .align => 2
  | .negotiate => 3
  | .linked => 4
  | .retrain => 5
  | .failed => 6

def State.link (s : State) (l : LinkIx) : Link := s.links[l]
/-- Change one link. -/
def State.modLink (s : State) (l : LinkIx) (f : Link → Link) : State := { s with links := s.links.set l (f s.links[l]) }
/-- Change one halo channel. -/
def State.modChan (s : State) (l : LinkIx) (ch : Fin 4) (f : HaloCh → HaloCh) : State :=
  s.modLink l fun x => { x with chans := x.chans.set ch (f x.chans[ch]) }
/-- The other link. -/
def otherLink (l : LinkIx) : LinkIx := if l = 0 then 1 else 0
/-- Number of lanes in a set. -/
def laneCount (b : BitVec 8) : Nat := ((List.range 8).filter fun i => b.getLsbD i).length
/-- The stripe count of the device (R34). -/
def State.stripes (s : State) : Nat := ceilDiv (s.od Od.webWindowWidth) (max 1 (s.od Od.webStripeWidth))
/-- The group of the most recent trigger. -/
def State.nowGroup (s : State) : Int := (s.web.x - 1) / s.lineGroup

/-- Raise SIDE_INT_STATUS bits with their status event (R437). -/
def State.sideStatus (s : State) (b : Nat) (l : LinkIx) : State := s.raiseStatus .side b 5 l 0xFF 0

/-- Raise a bit whose record is written once per link and line group (R437). -/
def State.sideLimited (s : State) (b : Nat) (l : LinkIx) (f : State → State) : State :=
  let s := s.raiseInt .side b
  if (s.link l).lastEvent.told b s.nowGroup then s else f (s.modLink l fun x => { x with lastEvent := x.lastEvent.tell b s.nowGroup })

/-- A message is refused (R412, R421): counted, with an event of type 0x10. -/
def State.refuseMsg (s : State) (l : LinkIx) (type status : Nat) : State :=
  (s.count64 (Reg.linkMsgRefused l) 1).sideLimited 0x40 l fun t => t.event 5 0x10 (leBytes 1 l ++ leBytes 1 type ++ leBytes 1 status)

/-- A DOWN link that is enabled and sees light begins to train, outside SAFE and while no trim item holds its wires (R409, R410, R519). -/
def State.linkStart (s : State) (l : LinkIx) : State :=
  if (s.link l).state = .down && (s.link l).light && s.odFlag (Od.linkLinkEnable l) && s.dev.state.ready && s.dev.state != .safe &&
      !s.trim.running.any (fun x => x.kind == 3 && x.unit == l.val) then
    s.modLink l fun x => { x with state := .lock, seen := false, active := 0, locked := 0 }
  else s

/-- The traffic of a link ends (R433): messages queued or partly received are discarded, and counted in ARMED, RUN and HOLD. -/
def State.linkDrop (s : State) (l : LinkIx) : State :=
  let x := s.link l
  let n := x.queue.length + (x.partials.toList.filter Option.isSome).length
  let s := s.modLink l fun x => { x with queue := [], partials := Vector.replicate 4 none, replay := [], resent := 0, resends := 0, chain := [] }
  if s.dev.state.live then s.count64 (Reg.linkMsgDiscarded l) n else s

/-- A link leaves for DOWN or FAILED: no lane counts as locked, and of the lanes excluded those stay so without which it had retrained to 4 lanes
(R414). -/
def State.linkEnd (s : State) (l : LinkIx) (dest : LinkState) (code : Option Nat) : State :=
  let was := (s.link l).state
  let s := (s.linkDrop l).modLink l fun x => { x with state := dest, active := 0, locked := 0, seen := false, excluded := x.kept }
  let s := match code with
    | some c => s.setOd (Od.linkFailCode l) c
    | none => s
  if was = .linked || was = .retrain then s.sideStatus (if l = 0 then 2 else 16) l else s

/-- A link goes DOWN and, where it may, trains again. -/
def State.linkToDown (s : State) (l : LinkIx) (code : Option Nat) : State := (s.linkEnd l .down code).linkStart l

/-- A link enters RETRAIN (R413, R414, R418): it keeps its replay buffer, sequence numbers and credits. -/
def State.linkRetrain (s : State) (l : LinkIx) : State :=
  (s.modLink l fun x => { x with state := .retrain, seen := false, resends := 0 }).count64 (Reg.linkRetrains l) 1

/-- The lane set that both sides can use (R412); none where there is no usable one. -/
def laneSet (own partner : BitVec 8) (degrade : Bool) : Option (BitVec 8) :=
  let both := own &&& partner
  if both = 0xFF then some 0xFF
  else if !degrade then none
  else if both &&& 0x0F = 0x0F then some 0x0F
  else if both &&& 0xF0 = 0xF0 then some 0xF0
  else none

/-- The lanes that a link offers. -/
def Link.offered (x : Link) : BitVec 8 := x.locked &&& ~~~x.excluded &&& ~~~x.unusable

/-! ### Messages (R420 to R423) -/

/-- The class of a message type (R419). -/
def msgClass (type : Nat) : Nat := match type with
  | 1 | 5 => 1
  | 2 => 2
  | 3 => 3
  | _ => 0

/-- The chain position of the device (R430): 0 where the West link is disabled, 0xFF while it is not known. -/
def State.chainPosition (s : State) : Nat :=
  if !s.odFlag (Od.linkLinkEnable 0) then 0
  else match (s.link 0).chain with
    | b :: _ => if byteAt b 0 = 0xFF then 0xFF else (byteAt b 0 + 1) % 256
    | [] => 0xFF

/-- The position in force (R431): the one fixed at the last entry to ARMED, 0xFF before any; until then the derived one. -/
def State.position (s : State) : Nat := if s.od Od.chainChainPosition = 0xFF then s.chainPosition else s.od Od.chainChainPosition

/-- The header of a message (R421). -/
def msgHeader (type origin sub len lgn flags : Nat) : List Byte :=
  [1] ++ leBytes 1 type ++ leBytes 1 origin ++ leBytes 1 sub ++ leBytes 4 len ++ leBytes 6 lgn ++ leBytes 1 flags ++ [0]

/-- Queue a message on a link that is LINKED or retrains. -/
def State.queueMsg (s : State) (l : LinkIx) (type sub lgn flags : Nat) (body : List Byte) : State :=
  if (s.link l).state = .linked || (s.link l).state = .retrain then
    let m : LinkMsg := { cls := msgClass type, lgn := lgn, own := true, bytes := msgHeader type s.position sub body.length lgn flags ++ body, gone := 0 }
    s.modLink l fun x => { x with queue := x.queue ++ [m] }
  else s

/-! ### Halo channels (R424, R425) -/

def hchEnabled (s : State) (l : LinkIx) (ch : Fin 4) : Bool := bitAt (s.reg (Reg.hchCtrl l ch)) 0
def hchTracked (s : State) (l : LinkIx) (ch : Fin 4) : Bool := bitAt (s.reg (Reg.hchCtrl l ch)) 1
def hchDeadline (s : State) (l : LinkIx) (ch : Fin 4) : Nat := bits (s.reg (Reg.hchCtrl l ch)) 10 8
def hchTensor (s : State) (l : LinkIx) (ch : Fin 4) : Nat := bits (s.reg (Reg.hchCtrl l ch)) 23 16
/-- The address of a ring's slot for group g. -/
def hchSlot (s : State) (l : LinkIx) (ch : Fin 4) (base : Nat) (g : Int) : Nat := base + (g % 8).toNat * (64 + s.reg (Reg.hchSlotBytes l ch))

/-- Send group g of a channel (R425, R422). DESIGN CHOICE (log entry 138): a tracked channel publishes the slot of g where it has not been published,
so that the message has entries. -/
def State.haloSend (s : State) (l : LinkIx) (ch : Fin 4) (g : Int) : State :=
  let a := hchSlot s l ch (s.reg (Reg.hchTxBase l ch)) g
  let absent := ofLeBytes (s.readOasis a 6) != s.groupLsn g
  let data := s.readOasis (a + 64) (s.reg (Reg.hchSlotBytes l ch))
  let s := s.oasisSeen a (64 + s.reg (Reg.hchSlotBytes l ch))
  let t := hchTensor s l ch
  let type := if hchTracked s l ch then 1 else 5
  let s := if hchTracked s l ch && !absent then s.needSlot t g else s
  let entries := ((s.tensor t).slot g).map fun p => p.entries
  let head := match entries with
    | some es => leBytes 1 t ++ [0] ++ leBytes 2 es.length ++ [0, 0, 0, 0] ++ es.flatMap fun e => leBytes 4 (e.scale + 65536 * e.zero + 2 ^ 24 * bit e.zr)
    | none => []
  let body := if absent then [] else if type = 1 then head ++ data else data
  let s := (s.queueMsg l type ch (mod48 g) (bit absent) body).modChan l ch fun h => { h with lastTx := some g }
  let s := s.setReg (Reg.hchLastTx l ch) (g % 2 ^ 32).toNat
  if absent then s.count32 (Reg.hchAbsent l ch) 1 else s

/-- The 16 newest groups: of those that are complete, and those whose first part a HOLD has closed (R38, R39). -/
def State.newestGroups (s : State) : List Int :=
  let parts := s.web.shortParts.map Prod.fst
  match s.web.completeGroup with
  | some c => (parts.filter fun g => decide (c - 16 < g)) ++ (List.range 16).map fun (i : Nat) => c - (i : Int)
  | none => parts

/-- TX_SYNC of a channel takes a value: the group it names is sent, where it is newer than the last one sent (R425). -/
def State.haloChanSync (s : State) (l : LinkIx) (ch : Fin 4) (v : Nat) : State :=
  match s.newestGroups.find? fun g => (g % 2 ^ 32).toNat == v with
  | none => s
  | some g =>
    match (s.link l).chans[ch].lastTx with
    | some t => if t < g then s.haloSend l ch g else s
    | none => s.haloSend l ch g

/-- The links and channels. -/
def allChans : List (LinkIx × Fin 4) := (List.finRange 2).flatMap fun l => (List.finRange 4).map fun ch => (l, ch)

/-- A synchronisation object took a value: the channels whose TX_SYNC it is act (R425). -/
def State.haloOnSync (s : State) (obj v : Nat) : State :=
  allChans.foldl (fun (u : State) c =>
    if hchEnabled u c.1 c.2 && bits (u.reg (Reg.hchSync c.1 c.2)) 13 0 == obj && ((u.link c.1).state == .linked || (u.link c.1).state == .retrain) then
      u.haloChanSync c.1 c.2 v else u) s

/-! ### The chain (R430) -/

/-- DEVICES and STRIPES of the newest CHAIN message on a link, 0 where the link is disabled or silent. -/
def State.chainSide (s : State) (l : LinkIx) : Nat × Nat :=
  if !s.odFlag (Od.linkLinkEnable l) then (0, 0)
  else match (s.link l).chain with
    | b :: _ => (byteAt b 1, fieldAt b 2 2)
    | [] => (0, 0)
/-- The chain length. -/
def State.chainLength (s : State) : Nat := 1 + (s.chainSide 0).1 + (s.chainSide 1).1
/-- The chain's stripe total. -/
def State.chainStripes (s : State) : Nat := s.stripes + (s.chainSide 0).2 + (s.chainSide 1).2
/-- The entries of the chain digest, in order (R430). -/
def chainKeys : List Nat :=
  [Od.webLineSource, Od.webLinePitch, Od.webLsnPreset, Od.webLineGroup, Od.tokTokPerStripe, Od.tokTokBytes, Od.tokTokLag, Od.tokTokDeadline,
   Od.detIouThresh, Od.detAgnostic, Od.detBorder, Od.detCarryLines]
/-- The chain digest. -/
def State.chainDigest (s : State) : Nat := ofLeBytes (shake256 (chainKeys.flatMap fun k => leBytes (odWidth k / 8) (s.od k)) 8)
/-- CHAIN_CHANGE: the digest changes in ARMED, RUN or HOLD, or it ceases to be a neighbour's (R430). -/
def State.chainWatch (old new : State) : State :=
  if old.chainDigest == new.chainDigest then new
  else if new.dev.state.live then new.raiseStatus .side 0x400 5 0xFFFF 0xFF 0
  else (List.finRange 2).foldl (fun (u : State) l => match (new.link l).chain with
    | b :: _ => if fieldAt b 12 8 == old.chainDigest then u.sideStatus 0x400 l else u
    | [] => u) new
/-- Is the chain settled? -/
def State.chainSettled (s : State) : Bool :=
  s.chainPosition != 0xFF && (List.finRange 2).all fun l => !s.odFlag (Od.linkLinkEnable l) || ((s.link l).state == .linked && (match (s.link l).chain with
    | a :: b :: _ => a == b
    | _ => false))
/-- Do the neighbours' digests equal the device's own? -/
def State.digestOk (s : State) : Bool :=
  (List.finRange 2).all fun l => !s.odFlag (Od.linkLinkEnable l) || (match (s.link l).chain with
    | b :: _ => fieldAt b 12 8 == s.chainDigest
    | [] => false)

/-- The body of the CHAIN message for a link (R430): it counts the devices on the sender's other side. -/
def State.chainBody (s : State) (l : LinkIx) : List Byte :=
  let far := s.chainSide (otherLink l)
  leBytes 1 s.position ++ leBytes 1 (1 + far.1) ++ leBytes 2 (s.stripes + far.2) ++ leBytes 4 (s.od Od.webWindowFirst) ++
  leBytes 4 (s.od Od.webWindowWidth) ++ leBytes 8 s.chainDigest ++ [0, 0, 0, 0]

/-- BARRIER for group g on each LINKED link (R432). -/
def State.sendBarrier (s : State) (g : Int) (lsn dt : Nat) : State :=
  (List.finRange 2).foldl (fun (u : State) l => if (u.link l).state = .linked then
    u.queueMsg l 4 0 (mod48 g) 0 (leBytes 6 lsn ++ [0, 0] ++ leBytes 8 dt) else u) s

/-- A message on each LINKED link. -/
def State.queueBoth (s : State) (type lgn : Nat) (body : List Byte) : State :=
  (List.finRange 2).foldl (fun (u : State) l => if (u.link l).state = .linked then u.queueMsg l type 0 lgn 0 body else u) s

end Sys2Proof.Machine
end

