-- ==== Sys2Proof/Machine/Slices.lean ====
section
/-! DEFINITION. The raw front slices (R98 to R130) and flat-field learning (R521 to R527): the correction chain, the choice of the next line,
parameter sets and tables, the write into the input ring, the memory-path ring and the learning of gains. -/

namespace Sys2Proof.Machine

/-! ### The correction chain (R102 to R110) -/

/-- A working value in 1/256 DN clamped to the working range, with a mark where the clamp changed it (R103). -/
def clampWork (v : Int) : Int × Bool :=
  if 8388607 < v then (8388607, true) else if v < -8388608 then (-8388608, true) else (v, false)

/-- The parameters of a line's corrections: those live on the port when the slice starts the line. -/
structure SliceCfg where
  w : Nat
  n : Nat
  arr : Nat
  cfa : Nat
  xt : Bool
  ped : Int
  kl : Nat → Int
  kr : Nat → Int
  kp : Nat → Int
  gi : Int
  giOff : Int
  ff : Bool
  method : Nat
  fill : Int

/-- The live parameters of a port. -/
def State.sliceCfg (s : State) (c : PortIx) : SliceCfg :=
  { w := s.od (Od.portLineWidth c)
    n := s.rowsPerCycle c
    arr := s.od (Od.portArrangement c)
    cfa := s.od (Od.fpCfaPattern c)
    xt := s.odFlag (Od.fpXtEnable c)
    ped := s.od (Od.fpXtPedestal c)
    kl := fun i => toSigned 16 (s.od (Od.fpXtLeft c i))
    kr := fun i => toSigned 16 (s.od (Od.fpXtRight c i))
    kp := fun i => toSigned 16 (s.od (Od.fpXtPartner c i))
    gi := s.od (Od.fpGiGain c)
    giOff := toSigned 16 (s.od (Od.fpGiOffset c))
    ff := s.odFlag (Od.fpFfEnable c)
    method := s.od (Od.fpDefectMethod c)
    fill := s.od (Od.portFillValue c) }

/-- The site of a pixel (R103). -/
def SliceCfg.site (k : SliceCfg) (r p : Nat) : Nat := if k.arr = 1 then 2 * r + p % 2 else 0

/-- The raw code of a pixel of a line; none outside the row. -/
def rawCode (rows : List (List W16)) (w r : Nat) (p : Int) : Option Int :=
  if p < 0 ∨ (w : Int) ≤ p then none else some (((rows.getD r []).getD p.toNat 0).toNat : Int)

/-- Stage 1 (R104). -/
def SliceCfg.crossTalk (k : SliceCfg) (rows : List (List W16)) (r p : Nat) : Int × Bool :=
  let x := (rawCode rows k.w r p).getD 0
  if !k.xt then (x * 256, false)
  else
    let term := fun (g : Int) (v : Option Int) => match v with
      | some u => g * (u - k.ped)
      | none => 0
    let st := k.site r p
    let sum := term (k.kl st) (rawCode rows k.w r ((p : Int) - 1)) + term (k.kr st) (rawCode rows k.w r ((p : Int) + 1)) +
      (if k.arr = 1 then term (k.kp st) (rawCode rows k.w (1 - r) p) else 0)
    clampWork (x * 256 - rne sum 64)

/-- Stage 2 (R105): the green site of row 1. -/
def SliceCfg.greenImbalance (k : SliceCfg) (r p : Nat) (y : Int) : Int × Bool :=
  let green := if k.cfa = 0 ∨ k.cfa = 3 then 2 else 3
  if k.arr = 1 ∧ k.site r p = green then clampWork (rne (y * k.gi + k.giOff * 32768) 32768) else (y, false)

/-- BLACK and GAIN of a table entry (R106). -/
def entryBlack (e : Nat) : Int := (e % 65536 : Nat)
def entryGain (e : Nat) : Nat := e / 65536 % 65536

/-- Stages 1 to 4 of a pixel: y3, y4, and whether a stage clamped; `gain` is the gain in force. -/
def SliceCfg.pixel (k : SliceCfg) (rows : List (List W16)) (entry gain : Nat) (r p : Nat) : Int × Int × Bool :=
  let (y1, a) := k.crossTalk rows r p
  let (y2, b) := k.greenImbalance r p y1
  let (y3, c) := clampWork (y2 - entryBlack entry * 16)
  let (y4, d) := if k.ff then clampWork (rne (y3 * (gain : Int)) 16384) else (y3, false)
  (y3, y4, a || b || c || d)

/-- The nearest qualifying pixel on one side (R108): y4 of the first of p ± step, …, p ± 4 step that lies in the row and is not defective. -/
def nearest (y4 : List Int) (bad : Nat → Bool) (p : Nat) (step : Int) : Option Int :=
  ([1, 2, 3, 4].map fun k => (p : Int) + step * k).findSome? fun q =>
    if q < 0 ∨ (y4.length : Int) ≤ q ∨ bad q.toNat then none else some (y4.getD q.toNat 0)

/-- The value of a defective pixel (R108), and whether no value was found. -/
def SliceCfg.defect (k : SliceCfg) (y4 : List Int) (bad : Nat → Bool) (stored : Option Int) (p : Nat) : Int × Bool :=
  let step : Int := if k.arr = 1 then 2 else 1
  let l := nearest y4 bad p (-step)
  let r := nearest y4 bad p step
  let found : Option Int := match k.method with
    | 0 => match l, r with
      | some a, some b => some (rne (a + b) 2)
      | some a, none => some a
      | none, x => x
    | 1 => match l with
      | some a => some a
      | none => r
    | _ => stored
  match found, stored with
  | some v, _ => (v, false)
  | none, some v => (v, true)
  | none, none => (k.fill * 256, true)

/-- Stages 1 to 5 of one row: values with their marks, and the number of pixels that fell back. -/
def SliceCfg.row (k : SliceCfg) (rows : List (List W16)) (entry gain : Nat → Nat) (store : Option (List (List Int))) (r : Nat) :
    List (Int × Bool) × Nat :=
  let px := (List.range k.w).map fun p => k.pixel rows (entry (r * k.w + p)) (gain (r * k.w + p)) r p
  let y4 := px.map fun t => t.2.1
  let bad := fun p => entryGain (entry (r * k.w + p)) == 0
  let out := (px.zip (List.range k.w)).map fun (t, p) =>
    if bad p then
      let (v, fell) := k.defect y4 bad (store.map fun st => (st.getD r []).getD p 0) p
      ((v, false), fell)
    else ((t.2.1, t.2.2), false)
  (out.map Prod.fst, (out.filter Prod.snd).length)

/-- Stage 7 (R109): the output code of a working value and whether it was clamped. -/
def outputCode (fmt shift pixelBits : Nat) (y : Int) : Nat × Bool :=
  match fmt with
  | 0 =>
    let v := rne (y * 2 ^ shift) 256
    if v < 0 then (0, true) else if 65535 < v then (65535, true) else (v.toNat, false)
  | 1 =>
    let q : Rat := (y : Rat) / (256 * 2 ^ pixelBits)
    (toFp16 (Fp.ofRat q), decide (65504 < (if q < 0 then -q else q)))
  | _ =>
    let v := rne y (2 ^ pixelBits)
    if v < 0 then (0, true) else if 255 < v then (255, true) else (v.toNat, false)

/-- Bytes of an output element. -/
def outBytes (fmt : Nat) : Nat := if fmt = 2 then 1 else 2

/-! ### Rings and slots (R112 to R118, R358) -/

/-- m mod n as a slot number. DESIGN CHOICE (log entry 102): m is taken on the extended count of R23, so that slots follow one another across 0 and the wrap
of the LSN. -/
def slotOf (m : Int) (n : Nat) : Nat := (m % (max 1 n : Int)).toNat
/-- Where output line m and its tag go: the ring slot, or the landing slot (R114, R358). -/
def State.slotAddr (s : State) (c : PortIx) (m : Int) : Nat × Nat :=
  let pitch := s.fsReg c Reg.fsRingPitch
  if s.extOn c then
    let a := s.reg (Reg.extLandBase c) + slotOf m (s.reg (Reg.extLandSlots c)) * (pitch + 64)
    (a, a + pitch)
  else
    let k := slotOf m (s.fsReg c Reg.fsRingSlots)
    (s.fsReg c Reg.fsRingBase + k * pitch, s.fsReg c Reg.fsTagBase + 16 * k)

/-! ### Tables and parameter sets (R122 to R126) -/

/-- The entries of a port's table: n × W. -/
def State.tableEntries (s : State) (c : PortIx) : Nat := s.rowsPerCycle c * s.od (Od.portLineWidth c)
/-- An entry without a correction: BLACK 0, GAIN 0x4000 (R126). -/
def tableDefault : Nat := 0x40000000
/-- The bytes of a table, for its digest (R125). -/
def tableBytes (t : Map) (n : Nat) : List Byte := (List.range n).flatMap fun i => leBytes 4 (t.get tableDefault i)
/-- The gain that a target map gives a table entry: the target, or the entry's own gain. -/
def targetGain (targets live : Map) (i : Nat) : Nat :=
  let t := targets.get 0 i
  if t = 0 then entryGain (live.get tableDefault i) else t
/-- The digest of a port's target gains (R526). -/
def State.targetDigest (s : State) (c : PortIx) : List Byte :=
  digest ((List.range (s.tableEntries c)).flatMap fun i => leBytes 2 (targetGain (s.fsPort c).ff.values (s.fsPort c).live i))

/-- The kind 7 entry of a ramp (R526). -/
def State.ffLedger (s : State) (c : PortIx) (event lsn : Nat) (digest : List Byte) : State :=
  s.ledgerAppend { kind := 7, flags := if digest.isEmpty then 0 else 1, len := digest.length, value := digest, aux := leBytes 1 c ++ leBytes 1 event, lsn := lsn }

/-- Learning stops: a ramp in progress is abandoned with its cause (R525); the stage becomes off. -/
def State.ffStop (s : State) (c : PortIx) (cause : Nat) : State :=
  let f := (s.fsPort c).ff
  let s := s.modFs c fun p => { p with ff := { p.ff with stage := .off, lines := 0, counted := 0, values := [] } }
  if f.stage = .ramping then
    (((s.raiseInt .trim 0x40).ffLedger c 3 f.lastLsn []).eventAt f.lastLsn 8 0x15 (leBytes 1 c ++ leBytes 1 cause))
  else s

/-- A table goes live (R125): the ramp ends, the ledger records it, and the mirage copy is refreshed. -/
def State.tableLive (s : State) (c : PortIx) (lsn : Nat) : State :=
  let s := s.ffStop c 1
  let n := s.tableEntries c
  let t := (s.fsPort c).mirror
  let s := s.modFs c fun p => { p with live := t, copyBusy := true }
  let s := s.ledgerAppend { kind := 5, flags := 1, len := 4 * n, value := digest (tableBytes t n), aux := leBytes 1 c ++ [0, 0, 0] ++ leBytes 4 n, lsn := lsn }
  s.fsStatusAt lsn c 0x10

/-- The values of a bound set: one that was scheduled leaves the schedule table only now, if it is still there, and is checked again (R458). -/
def State.applyBound (s : State) (lsn : Nat) : List MirageVal → State
  | [] => s
  | v :: r => match v.at_ with
    | none => (s.applyValues lsn [v]).applyBound lsn r
    | some _ => (s.takeScheduled (fun w => w == v) fun u w => u.applyValues lsn [w]).applyBound lsn r

/-- A bound set goes live (R122, R522): learning starts again. -/
def State.setLive (s : State) (c : PortIx) (b : BoundSet) (lsn : Nat) : State :=
  let s := (s.applyBound lsn b.values).setOd (Od.fpParamSet c) b.number
  let s := if b.table then s.tableLive c lsn else s
  let s := s.modFs c fun p => { p with
    bound := none
    ff := if p.ff.stage = .learning then { p.ff with stage := .off, lines := 0, counted := 0, values := [] } else p.ff }
  s.fsStatusAt lsn c 8

/-! ### Flat-field learning, line by line (R521 to R525) -/

/-- Is learning to run on the port (R521)? -/
def State.ffWanted (s : State) (c : PortIx) : Bool := s.dev.state == .run && s.odFlag (Od.ffFfLearn c) && s.odFlag (Od.fpFfEnable c)

/-- Start a period with the parameters now in force (R527). -/
def State.ffBegin (s : State) (c : PortIx) : State :=
  s.modFs c fun p => { p with ff := { p.ff with
    stage := .learning, lines := 0, counted := 0, values := []
    learnLines := s.od (Od.ffLearnLines c)
    rampLines := s.od (Od.ffRampLines c)
    gainMin := s.od (Od.ffGainMin c)
    gainMax := s.od (Od.ffGainMax c)
    minLevel := s.od (Od.ffMinLevel c) } }

/-- Is the next line of a port the first of a learning period, where it learns (R527)? -/
def FfPort.atStart (f : FfPort) : Bool := f.stage == .off || (f.stage == .learning && f.lines == 0)

/-- Before a line: learning stops where its conditions fail, an abandoned ramp with the LSN of its last line; a period starts where it may, with the writes
that have come due by its first line (R527); and a ramp takes its next step, whose first line makes the start records (R524, R526, R532). -/
def State.ffLine (s : State) (c : PortIx) (lsn : Nat) : State :=
  let s := s.takeDeferred (fun v => v.key / 256 == 0x6100 + c.val && lsnReached lsn v &&
    ((s.fsPort c).ff.atStart || (v.key == Od.ffFfLearn c && v.value == 0))) lsn
  let wanted := s.ffWanted c
  let s := if wanted then s else s.ffStop c (if !s.odFlag (Od.fpFfEnable c) then 2 else if !s.odFlag (Od.ffFfLearn c) then 3 else 4)
  let s := s.modFs c fun p => { p with ff := { p.ff with lastLsn := lsn } }
  if !wanted then s
  else if (s.fsPort c).ff.atStart then s.ffBegin c
  else match (s.fsPort c).ff.stage with
    | .ramping =>
      let s := s.modFs c fun p => { p with ff := { p.ff with lines := p.ff.lines + 1 } }
      if (s.fsPort c).ff.lines = 1 then
        let s := s.modFs c fun p => { p with ff := { p.ff with rampLsn := lsn } }
        let f := (s.fsPort c).ff
        ((s.raiseInt .trim 0x10).ffLedger c 1 lsn (s.targetDigest c)).eventAt lsn 8 0x13
          (leBytes 1 c ++ [0] ++ leBytes 4 f.rampLines ++ leBytes 4 f.clampedLast)
      else s
    | _ => s

/-- The gain that a line uses for a table entry (R107, R524). -/
def State.lineGain (s : State) (c : PortIx) (i : Nat) : Nat :=
  let p := s.fsPort c
  let g := entryGain (p.live.get tableDefault i)
  if p.ff.stage = .ramping then
    let t := targetGain p.ff.values p.live i
    ((g : Int) + rne (((t : Int) - (g : Int)) * (p.ff.lines : Int)) p.ff.rampLines).toNat
  else g

/-- A learning line advances the period; one that counts adds y3 of each pixel (R521). -/
def State.ffCount (s : State) (c : PortIx) (l : CamLine) (y3 : Nat → Nat → Int) : State :=
  let f := (s.fsPort c).ff
  if f.stage != .learning || decide (f.learnLines ≤ f.lines) then s
  else if Nat.land l.flags 0x1F != 0 then s.modFs c fun p => { p with ff := { p.ff with lines := p.ff.lines + 1 } }
  else
    let w := s.od (Od.portLineWidth c)
    let sums := (List.range (s.tableEntries c)).foldl (fun (m : Map) i =>
      let v := rne (y3 (i / w) (i % w)) 256
      m.set 0 i (m.get 0 i + (if v < 0 then 0 else min v.toNat 32767))) f.values
    s.modFs c fun p => { p with ff := { p.ff with lines := p.ff.lines + 1, counted := p.ff.counted + 1, values := sums } }

/-- After line RAMP_LINES the targets are live and copied to the mirage table, unless a table is pending there (R524, R526). -/
def State.ffRampEnd (s : State) (c : PortIx) (lsn : Nat) : State :=
  let p := s.fsPort c
  if p.ff.stage != .ramping || decide (p.ff.lines < p.ff.rampLines) then s
  else
    let dig := s.targetDigest c
    let live := (List.range (s.tableEntries c)).foldl (fun (m : Map) i =>
      m.set tableDefault i (m.get tableDefault i % 65536 + 65536 * targetGain p.ff.values p.live i)) p.live
    let keep := p.tablePending || (match p.bound with
      | some b => b.table
      | none => false)
    let s := s.modFs c fun p => { p with
      live := live
      mirror := if keep then p.mirror else live
      copyBusy := p.copyBusy || !keep
      ff := { p.ff with stage := .off, lines := 0, counted := 0, values := [] } }
    let s := (s.countOd (Od.ffRampsDone c) 1).raiseInt .trim 0x20
    (s.ffLedger c 2 lsn dig).eventAt lsn 8 0x14 (leBytes 1 c)

/-- Considered pixels of a row and site: inside the crop and not defective (R523). -/
def State.ffConsidered (s : State) (c : PortIx) (r site : Nat) : List Nat :=
  let k := s.sliceCfg c
  (List.range k.w).filter fun p => decide (s.od (Od.camCropFirst c) ≤ p) && decide (p ≤ s.od (Od.camCropLast c)) && k.site r p == site &&
    entryGain ((s.fsPort c).live.get tableDefault (r * k.w + p)) != 0

/-- The target gains of one row (R523): targets by index, clamped pixels, and whether it is a zero-range row. -/
def State.ffRow (s : State) (c : PortIx) (r : Nat) : List (Nat × Nat) × Nat × Bool :=
  let k := s.sliceCfg c
  let f := (s.fsPort c).ff
  let sites := if k.arr = 1 then [2 * r, 2 * r + 1] else [0]
  let sum : Nat → Nat := fun p => f.values.get 0 (r * k.w + p)
  let all := sites.flatMap fun st => s.ffConsidered c r st
  let same := match all with
    | [] => true
    | p :: ps => ps.all fun q => sum q == sum p
  let low := sites.any fun st =>
    let ps := s.ffConsidered c r st
    -- R / L below MIN_LEVEL, with R the mean of the sums
    !ps.isEmpty && decide ((ps.map sum).sum < f.minLevel * f.counted * ps.length)
  if same || low then ([], 0, true)
  else
    let out := sites.flatMap fun st =>
      let ps := s.ffConsidered c r st
      let total : Nat := (ps.map sum).sum
      (ps.filter fun p => sum p != 0).map fun p =>
        let t := (rne (16384 * (total : Int)) (ps.length * sum p)).toNat
        (r * k.w + p, if t < f.gainMin then (f.gainMin, true) else if f.gainMax < t then (f.gainMax, true) else (t, false))
    (out.map fun x => (x.1, x.2.1), (out.filter fun x => x.2.2).length, false)

/-- FF_PERIOD_END: after LEARN_LINES lines the targets are computed; a period without a counted line is discarded and a new one starts (R523). -/
def execFfPeriodEnd (port : PortIx) (s : State) : Result := .next (
  let f := (s.fsPort port).ff
  if s.dev.resetHeld || f.stage != .learning || decide (f.lines < f.learnLines) then s
  else if f.counted = 0 then
    s.ffBegin port
  else
    let rows : List (List (Nat × Nat) × Nat × Bool) := (List.range (s.rowsPerCycle port)).map (s.ffRow port)
    let targets := rows.foldl (fun (m : Map) r => r.1.foldl (fun m x => m.set 0 x.1 x.2) m) []
    let clamped : Nat := (rows.map fun r => r.2.1).sum
    let zeroRows := (rows.filter fun r => r.2.2).length
    let s := s.modFs port fun p => { p with ff := { p.ff with stage := .computing, lines := 0, values := targets, clampedLast := clamped } }
    let s := (s.countOd (Od.ffClamped port) clamped).countOd (Od.ffZeroRangeRows port) zeroRows
    if zeroRows = 0 then s else (s.raiseInt .trim 0x80).eventAt f.lastLsn 8 0x16 (leBytes 1 port ++ [0] ++ leBytes 2 zeroRows))

/-- FF_COMPUTE_DONE: the targets are ready; the ramp begins at the port's next line (R524). -/
def execFfComputeDone (port : PortIx) (s : State) : Result := .next (
  if s.dev.resetHeld || (s.fsPort port).ff.stage != .computing then s
  else s.modFs port fun p => { p with ff := { p.ff with stage := .ramping, lines := 0 } })

/-! ### Lines through the slice (R99, R117 to R119) -/

/-- Is a port's next line ready for its slice: in the FIFO, or for a memory-path camera in its DRAM ring, with its slot free (R118, R119)? -/
def State.lineReady (s : State) (c : PortIx) : Option CamLine :=
  match (s.port c).queue with
  | [] => none
  | l :: _ =>
    if s.slotFree c (s.outLine (l.x - s.along c)) && (s.isInline c || l.mpBytes == 0 || l.stored.isSome) then some l else none

/-- The memory-path port with the oldest ready line; ties go to the lowest (R119). -/
def State.oldestMp (s : State) (k : SliceIx) : Option PortIx :=
  ((List.finRange 4).map (portOf k)).foldl (fun best c =>
    if s.isInline c then best
    else match s.lineReady c, best with
      | none, b => b
      | some _, none => some c
      | some l, some b => match s.lineReady b with
        | some m => if l.x - s.along c < m.x - s.along b then some c else some b
        | none => some c) none

/-- The port whose line the slice starts next (R119). -/
def State.chooseLine (s : State) (k : SliceIx) : Option PortIx :=
  match ((List.finRange 4).map (portOf k)).find? fun c => s.isInline c && (s.lineReady c).isSome with
  | some c => some c
  | none => s.oldestMp k

/-- Raise the defect or saturation bit with at most one event per port per line group (R130). -/
def State.fsLimited (s : State) (c : PortIx) (b : Nat) (g : Int) (last : Option Int) : State :=
  if last = some g then s.raiseInt (.fs (sliceOf c)) b else s.fsStatusAt (s.groupLsn g) c b

/-- The pixels of a row read back from packed bits, `b` bits each. -/
def unpackRow (b : Nat) : Nat → List Bool → List W16
  | 0, _ => []
  | n + 1, bits => BitVec.ofNat 16 (ofBits (wireOrder (bits.take b))) :: unpackRow b n (bits.drop b)

/-- The rows of a line read back from packed bits. -/
def unpackRows (b w : Nat) : Nat → List Bool → List (List W16)
  | 0, _ => []
  | n + 1, bits => unpackRow b w bits :: unpackRows b w n (bits.drop (b * w))

/-- Read bytes of a memory-path ring from a byte offset, around the ring's end (R120). -/
def State.mpRead (s : State) (c : PortIx) (off n : Nat) : List Byte :=
  let base := s.fsReg c Reg.fsMpBaseLo + 2 ^ 32 * s.fsReg c Reg.fsMpBaseHi
  let room := min n (s.mpSize c - off)
  s.readDram (base + off) room ++ s.readDram base (n - room)

/-- The rows of a line as the slice reads them: from the FIFO, or back from the memory-path ring in DRAM (R99, R120). -/
def State.ringRows (s : State) (c : PortIx) (l : CamLine) : List (List W16) :=
  match l.stored with
  | none => l.rows
  | some off =>
    let bytes := (s.mpRead c off l.mpBytes).drop 16
    unpackRows (s.od (Od.portPixelBits c)) (s.od (Od.portLineWidth c)) (s.rowsPerCycle c) (bytes.flatMap fun b => wireOrder (toBits 8 b.toNat))

/-- The errors that reading a line back from the memory-path ring shows (R335). -/
def State.mpSeen (s : State) (c : PortIx) (l : CamLine) : State := match l.stored with
  | none => s
  | some off =>
    let base := s.fsReg c Reg.fsMpBaseLo + 2 ^ 32 * s.fsReg c Reg.fsMpBaseHi
    let room := min l.mpBytes (s.mpSize c - off)
    (s.dramSeen (base + off) room false).dramSeen base (l.mpBytes - room) false

/-- The slice starts a port's next line (R119, R122): a bound set goes live, learning takes its step, and stages 1 to 5 are computed. -/
def State.startLine (s : State) (c : PortIx) (l : CamLine) : State :=
  let k := sliceOf c
  let e := l.x - s.along c
  let lsn := mod48 e
  let s := match (s.slice k).waitSince with
    | some t => if s.isInline c then s.peak (Reg.fsInlineWaitMax k) ((s.dt - t) * 11 / 10) else s
    | none => s
  let raw := s.ringRows c l
  let s := s.mpSeen c l
  let switch := match (s.fsPort c).bound with
    | some b => match b.first with
      | some x => if x ≤ l.x then some b else none
      | none => none
    | none => none
  let s := match switch with
    | some b => s.setLive c b lsn
    | none => s
  let s := s.ffLine c lsn
  let cfg := s.sliceCfg c
  let fs := s.fsPort c
  let entry := fun i => fs.live.get tableDefault i
  let rows := if l.filled then [] else (List.range cfg.n).map fun r => cfg.row raw entry (s.lineGain c) fs.store r
  let values : List (List (Int × Bool)) := if l.filled then List.replicate cfg.n (List.replicate cfg.w (((l.fill * 256 : Nat) : Int), false)) else rows.map Prod.fst
  let fell : Nat := (rows.map Prod.snd).sum
  let ramp := fs.ff.stage == .ramping
  let s := s.ffCount c l fun r p => (cfg.pixel raw (entry (r * cfg.w + p)) 16384 r p).1
  let s := if fell = 0 then s else
    let g := e / s.lineGroup
    let s := (s.countOd (Od.fpDefectUnresolved c) fell).fsLimited c 0x20 g fs.defectGroup
    s.modFs c fun p => { p with defectGroup := some g }
  let s := if l.filled then s else s.modFs c fun p => { p with store := some (values.map fun r => r.map Prod.fst) }
  let s := s.modPort c fun p => { p with queue := p.queue.tail }
  let flags := bit switch.isSome + 4 * bit (fell != 0) + 8 * bit (s.isMp c) + 16 * bit ramp
  (s.modSlice k fun z => { z with run := some ⟨localOf c, l, flags, values⟩, waitSince := none }).noteWait k

/-- FS_LINE_START: an idle slice starts its in-line camera's next line, or the oldest memory-path line whose slot is free (R119). In SAFE it starts none
(R127); after a return to PREOP it works off the lines that ingress had admitted (R48). -/
def execFsLineStart (slice : SliceIx) (s : State) : Result := .next (
  if s.dev.resetHeld || !(s.dev.state.live || s.dev.state == .preop) || (s.slice slice).run.isSome then s
  else match s.chooseLine slice with
    | some c => match s.lineReady c with
      | some l => s.startLine c l
      | none => s
    | none => s)

/-- The output elements of a line: (byte offset in the slot, code), with the number of saturated pixels (R109, R112 to R114). -/
def State.lineElements (s : State) (c : PortIx) (l : CamLine) (values : List (List (Int × Bool))) : List (Nat × Nat) × Nat :=
  let fmt := s.od Od.fsOutOutFormat
  let e := l.x - s.along c
  let a := (e % (s.fa : Int)).toNat
  let first := s.od (Od.camCropFirst c)
  let last := s.od (Od.camCropLast c)
  let n := s.rowsPerCycle c
  let stride := s.od Od.fsOutChStride
  let out := (List.range (last + 1 - first)).flatMap fun q =>
    let p := if s.odFlag (Od.camMirror c) then last - q else first + q
    (List.range n).map fun r =>
      let (v, m) := (values.getD r []).getD p (0, false)
      let (code, clamped) := outputCode fmt (s.od Od.fsOutOutShift) (s.od (Od.portPixelBits c)) v
      (((q / s.fx) * stride + (a * s.fx + q % s.fx) * n + r) * outBytes fmt, code, !l.filled && (m || clamped))
  let used := n * s.fx * s.fa
  let zeros := (List.range ((last + 1 - first) / s.fx)).flatMap fun j =>
    (List.range (stride - used)).map fun k => ((j * stride + used + k) * outBytes fmt, 0)
  (out.map (fun t => (t.1, t.2.1)) ++ zeros, (out.filter fun t => t.2.2).length)

/-- The tag of an output line (R116). -/
def tagBytes (lsn : Nat) (a : TagAcc) (set : Nat) : List Byte :=
  leBytes 6 lsn ++ leBytes 1 a.flags ++ leBytes 1 a.fsFlags ++ leBytes 2 (min a.sat 0xFFFF) ++ leBytes 1 set ++ [0] ++ leBytes 4 a.dt

/-- Write the tag of a finished output line (R117): the line is in the ring, or landed for the extension (R358). -/
def State.writeTag (s : State) (c : PortIx) (a : TagAcc) : State :=
  let s := s.writeOasis (s.slotAddr c a.m).2 (tagBytes (mod48 (a.m * s.fa)) a (s.od (Od.fpParamSet c)))
  let gone := match (s.fsPort c).released with
    | some g => decide (a.m * s.fa / s.lineGroup ≤ g)
    | none => false
  (s.modFs c fun p => { p with
    acc := none
    landed := if s.extOn c then p.landed ++ [a.m] else p.landed
    written := if s.extOn c || gone then p.written else p.written ++ [a.m] }).ringMark c

/-- The slice finishes the line in process: pixel data, then after the last of f_a lines the tag; counters, and the line's space is free
(R100, R109, R116, R117). DESIGN CHOICE (log entry 103): FS_RING_WRPOS steps by one input line, and FS_BUSY_CYCLES saturates at 32 bits. -/
def State.finishLine (s : State) (k : SliceIx) (run : SliceRun) : State :=
  let c := portOf k run.port
  let l := run.line
  let e := l.x - s.along c
  let m := s.outLine e
  let fmt := s.od Od.fsOutOutFormat
  let (elems, sat) := s.lineElements c l run.values
  let base := (s.slotAddr c m).1
  let s := elems.foldl (fun (t : State) x => t.writeOasis (base + x.1) (leBytes (outBytes fmt) x.2)) s
  let old : TagAcc := match (s.fsPort c).acc with
    | some a => if a.m = m then a else ⟨m, 0, 0, 0, l.dt⟩
    | none => ⟨m, 0, 0, 0, l.dt⟩
  let acc : TagAcc := { old with
    flags := Nat.lor old.flags l.flags
    fsFlags := Nat.lor old.fsFlags (Nat.lor run.fsFlags (2 * bit (sat != 0)))
    sat := old.sat + sat }
  let s := s.modFs c fun p => { p with acc := some acc, wrpos := e + 1 }
  let s := if e % (s.fa : Int) = (s.fa : Int) - 1 then s.writeTag c acc else s
  let cost := ceilDiv (s.od (Od.portLineWidth c) * s.rowsPerCycle c) (if l.filled then 128 else 32) + 24
  let s := s.count32 (Reg.fsBusyCycles k) cost
  let s := s.count32 (if l.filled then Reg.fsPlaceholders k else if s.isInline c then Reg.fsLinesInline k else Reg.fsLinesMp k) 1
  let s := if sat = 0 then s else
    let g := e / s.lineGroup
    let s := (s.countOd (Od.fpSatPixels c) sat).fsLimited c 0x40 g (s.fsPort c).satGroup
    s.modFs c fun p => { p with satGroup := some g }
  let s := (s.fifoFree c l.fifoBytes).mpFree c l.mpBytes
  let s := s.ffRampEnd c (mod48 e)
  s.modSlice k fun z => { z with run := none }

/-- FS_LINE_WRITE: the slice ends the line it processes (R117). A line in process is finished in every state (R127). -/
def execFsLineWrite (slice : SliceIx) (s : State) : Result := .next (
  match (s.slice slice).run with
  | some r => if s.dev.resetHeld then s else s.finishLine slice r
  | none => s)

/-- Write a line into a memory-path ring at a byte offset, around the ring's end (R120). -/
def State.mpWrite (s : State) (c : PortIx) (off : Nat) (bs : List Byte) : State :=
  let base := s.fsReg c Reg.fsMpBaseLo + 2 ^ 32 * s.fsReg c Reg.fsMpBaseHi
  let room := s.mpSize c - off
  (s.writeDram (base + off) (bs.take room)).writeDram base (bs.drop room)

/-- A line as its memory-path ring holds it: 16 bytes of the device's own, then its pixels as packed on the wire, row after row (R120). -/
def State.packedLine (s : State) (c : PortIx) (l : CamLine) : List Byte :=
  padTo l.mpBytes ((List.range 16).map (Config.ringLineHead c l.x) ++
    packBytes ((l.rows.flatten.length * s.od (Od.portPixelBits c) + 7) / 8)
      (l.rows.flatten.flatMap fun p => wireOrder (toBits (s.od (Od.portPixelBits c)) p.toNat)))

/-- MEMORY_PATH_STORE: the oldest complete line of a memory-path camera moves from the FIFO to its DRAM ring (R99, R120). -/
def execMemoryPathStore (port : PortIx) (s : State) : Result := .next (
  if s.dev.resetHeld || !s.isMp port then s
  else match (s.port port).queue.find? fun l => l.mpBytes != 0 && l.stored.isNone with
    | none => s
    | some l =>
      let off := (s.fsPort port).mpNext
      let s := s.mpWrite port off (s.packedLine port l)
      let s := s.modFs port fun p => { p with mpNext := (off + l.mpBytes) % max 1 (s.mpSize port) }
      let s := s.modPort port fun p => { p with
        queue := p.queue.map fun y => if y.x = l.x then { y with stored := some off, fifoBytes := 0, rows := [] } else y }
      s.fifoFree port l.fifoBytes)

/-! ### The table window (R125, R126, R129) -/

/-- FS_TBL_DATA_ACCESS: read or write the entry at FS_TBL_INDEX, which then advances. A write during a copy or a reset of the table, or at an
index beyond it, is ignored and sets TBL_ERR; a read beyond the table gives a FREE VALUE. -/
def execFsTblDataAccess (slice : SliceIx) (write : Option W32) (s : State) : Result := .next (
  if s.dev.resetHeld || !s.dev.state.ready then s
  else
    let sel := s.reg (Reg.fsTblSel slice)
    let c := portOf slice ⟨sel % 4, Nat.mod_lt _ (by decide)⟩
    let i := s.reg (Reg.fsTblIndex slice)
    let p := s.fsPort c
    let s := s.setReg (Reg.fsTblIndex slice) ((i + 1) % 2 ^ 17)
    let beyond := decide (s.tableEntries c ≤ i)
    match write with
    | some v =>
      if p.copyBusy || (s.slice slice).initBusy || beyond then s.raiseInt (.fs slice) 0x80
      else s.modFs c fun p => { p with mirror := p.mirror.set tableDefault i v.toNat }
    | none =>
      if beyond then
        let (f, s) := s.takeFree
        s.send (.readData (f.toNat % 2 ^ 32))
      else s.send (.readData ((if bitAt sel 8 then p.live else p.mirror).get tableDefault i)))

/-- Tables of the ports in a mask are committed: pending, or live at once in PREOP (R122, R125). -/
def State.commitTables (s : State) (slice : SliceIx) (mask : BitVec 4) : State :=
  (List.finRange 4).foldl (fun (t : State) (l : Fin 4) =>
    if !mask.getLsbD l then t
    else if t.dev.state = .preop then t.tableLive (portOf slice l) t.web.lastLsn
    else t.modFs (portOf slice l) fun p => { p with tablePending := true }) s

/-- FS_TBL_COMMIT. -/
def execFsTblCommit (slice : SliceIx) (mask : BitVec 4) (s : State) : Result := .next (
  if s.dev.resetHeld || !s.dev.state.ready then s else s.commitTables slice mask)

/-- TABLE_COPY_DONE: the live table has been copied into the mirage copy (R125). -/
def execTableCopyDone (port : PortIx) (s : State) : Result := s.act fun s =>
  if (s.fsPort port).copyBusy then s.modFs port fun p => { p with mirror := p.live, copyBusy := false } else s

/-- TABLE_INIT_DONE: the reset of a slice's tables is finished (R126). -/
def execTableInitDone (slice : SliceIx) (s : State) : Result := s.act fun s => s.modSlice slice fun z => { z with initBusy := false }

/-- A change in PREOP that sizes a table resets both copies of every table of the slice (R126). -/
def State.resetTables (s : State) (k : SliceIx) : State :=
  let s := (List.finRange 4).foldl (fun (t : State) l => t.modFs (portOf k l) fun p => { p with live := [], mirror := [] }) s
  s.modSlice k fun z => { z with initBusy := true }

/-- Entry to PREOP (R122): a bound set, then pending values and a committed table, go live at once. -/
def State.fsPreop (s : State) (c : PortIx) : State :=
  let lsn := s.webLsn c (s.web.x - 1)
  let s := match (s.fsPort c).bound with
    | some b => s.setLive c b lsn
    | none => s
  let vals := (s.fsPort c).bank
  let s := (s.modFs c fun p => { p with bank := [] }).applyValues lsn vals
  if (s.fsPort c).tablePending then (s.modFs c fun p => { p with tablePending := false }).tableLive c lsn else s

/-- Entry to ARMED (R108, R127): rings and the previous-line store are emptied, and FS_RING_WRPOS is set. -/
def State.fsArmed (s : State) (c : PortIx) : State :=
  let fa : Int := s.fa
  s.modFs c fun p => { p with
    store := none, written := [], acc := none, released := none, landed := [], ext := [], extWaits := false, mpLevel := 0, mpNext := 0, shed := false, ringHigh := false
    defectGroup := none, satGroup := none
    wrpos := ((s.od Od.webLsnPreset : Int) - s.along c) / fa * fa }

/-- SLICE_LOAD in parts per thousand, rounded down (R101). -/
def State.sliceLoad (s : State) (k : SliceIx) : Nat :=
  let ports := ((List.finRange 4).map (portOf k)).filter s.camEnabled
  let q : Rat := ports.foldl (fun a c =>
    a + (10000 * (ceilDiv (s.od (Od.portLineWidth c) * s.rowsPerCycle c) 32 + 24) : Nat) / ((11 * s.portMinCycle c : Nat) : Rat)) 0
  q.floor.toNat

end Sys2Proof.Machine
end

