-- ==== Sys2Proof/Machine/WellOps.lean ====
section
/-! DEFINITION. Synchronisation objects (R387 to R390), wells and their tiles (R379 to R386), output streams with missed and result records
(R39 to R46, R360, R361, R400, R401), and the end of jobs (R394 to R399). -/

namespace Sys2Proof.Machine

/-! ### Cores -/

def State.core (s : State) (k : CoreIx) : Core := s.cores[k]
/-- Change one core. -/
def State.modCore (s : State) (k : CoreIx) (f : Core → Core) : State := { s with cores := s.cores.set k (f s.cores[k]) }
/-- Is the core enabled, powered and not taken by trimming or R182 (R224, 0x4000:03)? -/
def State.coreInService (s : State) (k : CoreIx) : Bool :=
  bitAt (s.od Od.coresCoreMask) k && s.pwr.cores.getLsbD k && !(s.core k).taken && !(s.core k).failed
/-- The fill level that a computing OPE has (R220): 0 while sand fill is stopped (R221). -/
def State.sandTop (s : State) : Nat := if s.odFlag Od.coresSandFill && !s.pwr.warning then 16 else 0
/-- Sand fill stops: every fill level is held at 0 (R221, R544); the level that R220 gives goes on. -/
def State.sandStop (s : State) : State := { s with cores := s.cores.map fun c => { c with sand := List.replicate 32 0 } }
/-- Number of OPEs in service. -/
def Core.opeCount (c : Core) : Nat := ((List.range 8).filter fun e => c.opes.getLsbD e).length
/-- Change the tile that a core holds. -/
def State.modTile (s : State) (k : CoreIx) (f : Tile → Tile) : State := s.modCore k fun c => { c with tile := c.tile.map f }

/-! ### Synchronisation objects (R387, R388) -/

/-- Change the command unit. -/
def State.modCmd (s : State) (f : CmdUnit → CmdUnit) : State := { s with cmd := f s.cmd }
/-- The value of an object. -/
def State.sync (s : State) (i : Nat) : Nat := s.cmd.syncs.get s.cmd.syncInit i
/-- Store an object's value; a halo channel that sends on it does (R425). -/
def State.setSync (s : State) (i v : Nat) : State :=
  (s.modCmd fun c => { c with syncs := c.syncs.set c.syncInit i (v % 2 ^ 32) }).haloOnSync i (v % 2 ^ 32)
/-- A signal: add (0) or set (1) (R387). -/
def State.signal (s : State) (i op v : Nat) : State := if op = 0 then s.setSync i (s.sync i + v) else s.setSync i v
/-- The wait condition (R388): v has reached the target t or passed it. -/
def waitHolds (v t : Nat) : Bool :=
  let d := (t + 2 ^ 32 - v % 2 ^ 32) % 2 ^ 32
  d == 0 || decide (2 ^ 31 ≤ d)
/-- A line group as a 32-bit count. -/
def lgn32 (g : Int) : Nat := (g % 2 ^ 32).toNat
/-- A target derived from a line group of a job whose first group is F holds at once where it precedes F (R389). -/
def State.groupWaitHolds (s : State) (obj t : Nat) (first : Option Int) : Bool :=
  waitHolds (s.sync obj) t || (match first with
    | some f =>
      let d := (lgn32 f + 2 ^ 32 - t % 2 ^ 32) % 2 ^ 32
      decide (1 ≤ d) && decide (d ≤ 2 ^ 31 - 1)
    | none => false)

/-! ### Command records (R372) -/

def Cmd.kind (c : Cmd) : Nat := byteAt c.bytes 1
def Cmd.flag (c : Cmd) (i : Nat) : Bool := bitAt (byteAt c.bytes 2) i
/-- A field of the record. -/
def Cmd.field (c : Cmd) (lo n : Nat) : Nat := fieldAt c.bytes lo n

/-- Change the commands that a test picks. -/
def State.mapCmds (s : State) (p : Cmd → Bool) (f : Cmd → Cmd) : State :=
  s.modCmd fun u => { u with cmds := u.cmds.map fun c => if p c then f c else c }
/-- The command in flight that holds a tag. -/
def State.cmdOf (s : State) (tag : Nat) : Option Cmd := s.cmd.cmds.find? fun c => c.tag == tag && !c.noTag
/-- Change the job of a tag. -/
def State.modJob (s : State) (tag : Nat) (f : Job → Job) : State :=
  s.mapCmds (fun c => c.tag == tag && !c.noTag) fun c => { c with job := c.job.map f }
/-- The running job of a tag. -/
def State.jobOf (s : State) (tag : Nat) : Option Job :=
  match s.cmdOf tag with
  | some c => if c.stage = .running then c.job else none
  | none => none
/-- The jobs whose wells and rings are bound, until their completion records are written (R379), with their tags. -/
def State.boundJobs (s : State) : List (Nat × Job) :=
  s.cmd.cmds.filterMap fun c => if c.stage = .read then none else c.job.map fun j => (c.tag, j)
/-- The running jobs with their tags. -/
def State.jobs (s : State) : List (Nat × Job) :=
  s.cmd.cmds.filterMap fun c => match c.job, c.stage with
    | some j, .running => some (c.tag, j)
    | _, _ => none

/-! ### Tiles (R379 to R385) -/

/-- F of a job; none while an automatic F is not known (R379). -/
def State.jobFirst (s : State) (j : Job) : Option Int := match j.first with
  | some f => some f
  | none => s.firstGroup
/-- Is group g in the job's range (R379), and not before the first group processed (R37)? -/
def State.jobHas (s : State) (j : Job) (g : Int) : Bool :=
  match s.jobFirst j with
  | none => false
  | some f => decide (f ≤ g) && (j.count == 0 || decide (g < f + (j.count : Int))) &&
      (match s.firstGroup with
        | some h => decide (h ≤ g)
        | none => false)
/-- Is a part of a group one that exists: the second part only of a group closed short at HOLD (R38)? -/
def State.partExists (s : State) (g : Int) (part2 : Bool) : Bool := !part2 || s.shortGroup g
/-- Is a tile's group complete for drawing (R38, R380)? -/
def State.partComplete (s : State) (g : Int) (part2 : Bool) : Bool :=
  (!part2 && s.shortGroup g) || (match s.web.completeGroup with
    | some c => decide (g ≤ c)
    | none => false)
/-- The record of a tile, as drawn or decided so far. -/
def Job.tile (j : Job) (g : Int) (part2 : Bool) (stripe : Nat) : WellTile :=
  (j.tiles.find? fun t => t.g == g && t.part2 == part2 && t.stripe == stripe).getD
    { g := g, part2 := part2, stripe := stripe, insts := [], won := none, finished := false, cancelled := false, reissue := false }
/-- Has group g + n completed? -/
def State.groupDone (s : State) (g : Int) (n : Nat) : Bool := match s.web.completeGroup with
  | some c => decide (g + (n : Int) ≤ c)
  | none => false
/-- Has a tile's cancellation been carried out? -/
def Job.tileCancelled (j : Job) (t : WellTile) : Bool := t.cancelled || (match j.cancelledTo with
  | some c => decide (t.g ≤ c)
  | none => false)
/-- Is a tile cancelled (R382, R385)? The completion of group g + 8 cancels it before any other effect of that trigger. -/
def State.tileCancelled (s : State) (j : Job) (t : WellTile) : Bool := j.tileCancelled t || s.groupDone t.g 8
/-- Is a tile finished or cancelled? -/
def State.tileOver (s : State) (j : Job) (t : WellTile) : Bool := t.finished || s.tileCancelled j t
/-- Store a tile's record. -/
def Job.setTile (j : Job) (t : WellTile) : Job :=
  { j with tiles := t :: j.tiles.filter fun u => !(u.g == t.g && u.part2 == t.part2 && u.stripe == t.stripe) }
/-- Are all tiles of a group, in every part, finished or cancelled (R347, R348, R357)? -/
def State.groupOver (s : State) (j : Job) (g : Int) : Bool :=
  !s.jobHas j g || ([false, true].all fun p => !s.partExists g p || (List.range s.stripes).all fun st => s.tileOver j (j.tile g p st))
/-- The same, counting only cancellations that have been carried out. -/
def State.groupClosed (s : State) (j : Job) (g : Int) : Bool :=
  !s.jobHas j g || ([false, true].all fun p => !s.partExists g p || (List.range s.stripes).all fun st =>
    (j.tile g p st).finished || j.tileCancelled (j.tile g p st))
/-- Are all tiles of a part of a group committed or cancelled (R160, R287)? A group closed short at HOLD has its first part complete at once, and
its second part when the group completes (R38). -/
def State.partCommitted (s : State) (g : Int) (part2 : Bool) : Bool :=
  s.partExists g part2 && s.partComplete g part2 &&
  s.jobs.all fun (_, j) => !s.jobHas j g ||
    (List.range s.stripes).all fun st => (j.tile g part2 st).won.isSome || s.tileCancelled j (j.tile g part2 st)
/-- Are all tiles of a group, in every part, committed or cancelled (R306)? -/
def State.groupCommitted (s : State) (g : Int) : Bool := s.partCommitted g false && (!s.shortGroup g || s.partCommitted g true)

/-- Is a tile drawable (R380)? -/
def State.drawable (s : State) (j : Job) (g : Int) (part2 : Bool) (st : Nat) : Bool :=
  let t := j.tile g part2 st
  s.jobHas j g && s.partExists g part2 && s.partComplete g part2 && t.insts.isEmpty && !s.tileOver j t &&
  (match j.gate with
    | some (o, v) => s.groupWaitHolds o ((lgn32 g + v) % 2 ^ 32) (s.jobFirst j)
    | none => true) && s.groupOver j (g - 16)

/-- The groups that a job's draw looks at, earliest first: from its oldest group that is not over, 17 groups on (R380, R382). -/
def State.jobWindow (s : State) (j : Job) : List Int :=
  match s.jobFirst j with
  | none => []
  | some f =>
    let lo := match j.cancelledTo with
      | some c => max f (c + 1)
      | none => f
    let lo := match s.firstGroup with
      | some h => max lo h
      | none => lo
    (List.range 17).map fun i => lo + (i : Int)

/-- A draw that a job offers: group, part, stripe, reissue. Reissues of the earliest group come first; inside a group, the lower stripe (R383). -/
def State.jobOffer (s : State) (j : Job) : Option (Int × Bool × Nat × Bool) :=
  let re := j.tiles.filter fun t => t.reissue && !s.tileOver j t && t.won.isNone
  match re.foldl (fun (best : Option WellTile) t => match best with
      | none => some t
      | some b => if t.g < b.g ∨ (t.g = b.g ∧ (b.part2 && !t.part2 || (b.part2 == t.part2 && decide (t.stripe < b.stripe)))) then some t else some b) none with
  | some t => some (t.g, t.part2, t.stripe, true)
  | none =>
    (s.jobWindow j).findSome? fun g => [false, true].findSome? fun p =>
      ((List.range s.stripes).find? fun st => s.drawable j g p st).map fun st => (g, p, st, false)

/-- May a core serve a job (R383)? -/
def State.coreServes (s : State) (k : CoreIx) (j : Job) : Bool :=
  (j.cores == 0 || bitAt j.cores k) && decide (j.opes ≤ (s.core k).opeCount) && j.refused.isNone

/-- The dispatcher's choice for a core (R383): reissues first, then the earliest group, then the bound job, then the lower well. -/
def State.dispatchChoice (s : State) (k : CoreIx) : Option Nat :=
  let bound := (s.core k).prog.map Prod.fst
  let offers := s.jobs.filterMap fun (tag, j) => if s.coreServes k j then (s.jobOffer j).map fun o => (tag, j.well, o) else none
  (offers.foldl (fun (best : Option (Nat × Nat × (Int × Bool × Nat × Bool))) x => match best with
    | none => some x
    | some b =>
      let (bt, bw, bg, _, _, br) := b
      let (xt, xw, xg, _, _, xr) := x
      let better := if xr != br then xr
        else if xg ≠ bg then decide (xg < bg)
        else if (bound == some xt) != (bound == some bt) then bound == some xt
        else decide (xw < bw)
      if better then some x else some b) none).map fun x => x.1

/-! ### The end of a tile on its core -/

/-- The core is idle after a tile, and parks where PARK is set (R218, R242); a parked core has no valid resident region (R200). -/
def State.coreIdle (s : State) (k : CoreIx) : State :=
  let s := s.modCore k fun c => { c with tile := none, job := none, phase := .idle }
  if s.odFlag (Od.corePark k) && !(s.core k).parked then
    (s.modCore k fun c => { c with parked := true, resident := [] }).raiseStatus (.core k) 0x20 3 k 0xFF 0
  else s

/-- An instance's part in its well tile changes. -/
def State.modWellTile (s : State) (t : Tile) (f : WellTile → WellTile) : State :=
  s.modJob t.tag fun j => j.setTile (f (j.tile t.g t.part2 t.stripe))

/-- An instance ends on its core. -/
def WellTile.endInst (w : WellTile) (tsn : Nat) : WellTile := { w with insts := w.insts.map fun i => if i.tsn = tsn then { i with ended := true } else i }

/-- Byte ranges become undefined. -/
def Mem.undefine (m : Mem) (rs : List (Nat × Nat)) : Mem := m.filter fun b => !rs.any fun r => decide (r.1 ≤ b.1) && decide (b.1 < r.1 + r.2)
/-- The tile memory that instructions in flight were writing: when they are stopped, what has landed of it is not known (R216). -/
def Tile.inFlight (t : Tile) : List (Nat × Nat) := t.flights.flatMap fun f => f.ranges

/-- A core that has stopped its tile receives no multicast copy (R353). -/
def State.leaveRounds (s : State) (k : CoreIx) : State := s.modCmd fun u => { u with streams := u.streams.map fun x => { x with
  rounds := x.rounds.map fun r => { r with joined := r.joined.filter fun j => j.1 != k.val } } }

/-- A cancellation ends a core's tile (R266, R396): no fault record, and its staged effects are discarded. What it has written to Oasis is then
undefined. -/
def State.stopTile (s : State) (k : CoreIx) : State :=
  match (s.core k).tile with
  | none => s
  | some t =>
    let s := { s with oasis := s.oasis.undefine t.stored }
    let s := (s.modCore k fun c => { c with tm := c.tm.undefine t.inFlight }).countOd Od.jobTilesCancelled 1
    let s := if t.commit = .undecided && !t.staged.isEmpty then s.count32 Reg.ctxDiscarded 1 else s
    ((s.leaveRounds k).modWellTile t fun w => w.endInst t.tsn).coreIdle k

/-- Stop the tiles of cores that a test picks. -/
def State.stopTiles (s : State) (p : Tile → Bool) : State :=
  (List.finRange 32).foldl (fun (u : State) k => match (u.core k).tile with
    | some t => if p t then u.stopTile k else u
    | none => u) s

/-! ### Streams and their slots (R344 to R356) -/

/-- A field of a stream descriptor. -/
def Stream.field (x : Stream) (lo n : Nat) : Nat := fieldAt x.desc lo n
/-- Has the stream's job ended? -/
def Stream.ended (x : Stream) : Bool := decide (4096 ≤ x.tag)
/-- The slots that are being filled. -/
def Stream.fills (x : Stream) : List (Nat × Int × SlotState) := x.slots.filter fun t => t.2.2 == .filling
def Stream.kind (x : Stream) : Nat := x.field 1 1
def Stream.flag (x : Stream) (i : Nat) : Bool := bitAt (x.field 2 1) i
def Stream.nslots (x : Stream) : Nat := 2 ^ x.field 4 1
def Stream.base (x : Stream) : Nat := x.field 8 4
def Stream.slotBytes (x : Stream) : Nat := x.field 12 4
def Stream.pitch (x : Stream) : Nat := x.field 36 4
/-- The slot number of a group. -/
def Stream.slotNo (x : Stream) (g : Int) : Nat := if x.flag 0 then 0 else (g % (x.nslots : Int)).toNat
/-- The address of a group's slot. -/
def Stream.slotAddr (x : Stream) (g : Int) : Nat := x.base + x.slotNo g * x.slotBytes
/-- The byte offset in a stream's byte space at which byte `off` of a group's slot lies (R346). -/
def Stream.source (x : Stream) (g : Int) (off : Nat) : Nat :=
  (if x.flag 0 then 0 else ((g + toSigned 32 (x.field 28 4)) % (max 1 (x.field 32 4) : Int)).toNat * x.pitch) + off

/-- The parts of a byte space that n bytes from an offset lie in: address, bytes, space. -/
def spaceParts : List (Nat × Nat × Nat) → Nat → Nat → List (Nat × Nat × Nat)
  | [], _, _ => []
  | (a, m, sp) :: r, off, n =>
    if m ≤ off then spaceParts r (off - m) n
    else (a + off, min n (m - off), sp) :: spaceParts r 0 (n - min n (m - off))

/-- Where a group's slot is spilled to in DRAM (R346). -/
def Stream.spillRanges (x : Stream) (g : Int) : List (Nat × Nat) := (spaceParts x.extents (x.source g 0) x.slotBytes).map fun e => (e.1, e.2.1)
/-- What a slot holds. -/
def Stream.slot (x : Stream) (n : Nat) : Option (Int × SlotState) := (x.slots.find? fun t => t.1 == n).map Prod.snd
/-- Set or free a slot. -/
def Stream.setSlot (x : Stream) (n : Nat) (v : Option (Int × SlotState)) : Stream :=
  { x with slots := (match v with
    | some (g, st) => [(n, g, st)]
    | none => []) ++ x.slots.filter fun t => t.1 != n }
/-- Change one stream of the stream table. -/
def State.modStream (s : State) (i : Nat) (f : Stream → Stream) : State :=
  s.modCmd fun c => { c with streams := match c.streams[i]? with
    | some x => c.streams.set i (f x)
    | none => c.streams }

/-- Fills are dropped (R355): of each, the reads that were issued complete, and their bytes are discarded. How many they are is open. -/
def State.dropFills (s : State) (slotBytes : Nat) : Nat → State
  | 0 => s
  | n + 1 =>
    let (f, s) := s.takeFree
    let lost := f.toNat % (slotBytes + 1)
    ((s.count64 Reg.streamBytesRead lost).count64 Reg.streamDiscardBytes lost).dropFills slotBytes n

/-- Free the FETCH slots whose groups are over (R347), and those of a missed group, whose fills are dropped and whose spill is skipped (R356). -/
def State.freeFetch (s : State) (tag : Nat) (missed : Option Int) : State :=
  match s.jobOf tag with
  | none => s
  | some j =>
    (List.range s.cmd.streams.length).foldl (fun (u : State) i => match u.cmd.streams[i]? with
      | some x =>
        if x.tag != tag then u
        else if x.kind == 1 then u.modStream i fun y => { y with slots := y.slots.filter fun t => !(missed == some t.2.1 && t.2.2 == .written) }
        else if x.kind == 0 && !x.flag 0 then
          let gone := x.slots.filter fun t => missed == some t.2.1 ||
            (List.range (x.field 5 1 + 1)).all fun d => u.groupOver j (t.2.1 + (d : Int))
          let drops := (x.fills.filter fun t => missed == some t.2.1).length
          (u.modStream i fun y => { y with slots := y.slots.filter fun t => !gone.contains t }).dropFills x.slotBytes drops
        else u
      | none => u) s

/-- Does a job hold the lines of group g of a camera: it reads the camera, ran when g completed, and has not finished every tile of groups g to
g + RING_KEEP (R357)? -/
def State.jobHolds (s : State) (j : Job) (c : PortIx) (g : Int) : Bool :=
  bitAt j.reads c && (match j.since with
    | some d => decide (d < g)
    | none => true) && !((List.range (s.reg (Reg.ringKeep c) + 1)).all fun d => s.groupOver j (g + (d : Int)))

/-- Release the input-ring slots of complete groups that no running job holds any more (R357, R118). -/
def State.releaseRings (s : State) : State :=
  match s.web.completeGroup with
  | none => s
  | some c =>
    (s.enabledPorts.foldl (fun (u : State) (p : PortIx) =>
      let lo : Int := match (u.fsPort p).released with
        | some r => r + 1
        | none => c - 40
      let rel := ((List.range 42).map fun (i : Nat) => lo + (i : Int)).takeWhile fun (g : Int) =>
        decide (g ≤ c) && u.jobs.all fun (_, j) => !u.jobHolds j p g
      match rel.getLast? with
      | none => u
      | some g => (u.modFs p fun f => { f with
          released := some g
          written := f.written.filter fun m => !decide (m * (u.fa : Int) / u.lineGroup ≤ g) }).ringMark p) s).noteWaits

/-! ### Output streams and result records (R39 to R46, R360, R361, R400, R401) -/

/-- Change the output streams of a job. -/
def State.modOuts (s : State) (tag : Nat) (f : OutStream → OutStream) : State := s.modJob tag fun j => { j with outs := j.outs.map f }

/-- Move an output stream past the record at its place. -/
def State.outNext (s : State) (o : OutStream) : OutStream :=
  if o.arg.isSome && decide (o.stripe + 1 < s.stripes) then { o with stripe := o.stripe + 1 }
  else if !o.part2 && s.shortGroup o.g then { o with part2 := true, stripe := 0 }
  else { o with g := o.g + 1, part2 := false, stripe := 0 }

/-- The 64-byte frame of a result record (R400). -/
def resultFrame (dt lsn kind flags : Nat) (g : Int) (stripe lateBy count tsn tag body seq : Nat) : List Byte :=
  leBytes 8 dt ++ leBytes 6 lsn ++ leBytes 1 kind ++ leBytes 1 flags ++ leBytes 6 (mod48 g) ++ leBytes 2 stripe ++ leBytes 1 lateBy ++ [0] ++
  leBytes 2 count ++ leBytes 4 tsn ++ leBytes 2 tag ++ [0, 0] ++ leBytes 4 body ++ leBytes 8 seq ++ List.replicate 16 0

/-- The newest group whose deadlines a write now comes after: a write in the cycle of a deadline's trigger counts as written before it (R41). -/
def State.lastComplete (s : State) : Option Int := s.web.completeGroup.map fun c => if s.web.completeDt = some s.dt then c - 1 else c
/-- LATE_BY of a record of group g written now (R40): 0 on time, else 1 to 5. -/
def State.lateBy (s : State) (g : Int) : Nat := match s.lastComplete with
  | some c => min 5 (c - (g + 2)).toNat
  | none => 0
/-- Does a record of group g written now come after its missed deadline (R40, R41)? -/
def State.missedBy (s : State) (g : Int) : Bool := match s.lastComplete with
  | some c => decide (g + 8 ≤ c)
  | none => false

/-- Is a group one of the 16 newest (R393)? DESIGN CHOICE (log entry 109): counted back from the newest complete group. -/
def State.newest16 (s : State) (g : Int) : Bool := !s.groupDone g 16
/-- The substituted sides of a stripe, or of every stripe for a list (R393). -/
def State.haloFlags (s : State) (g : Int) (stripe : Option Nat) : Nat :=
  (s.cmd.haloBits.filter fun h => h.1 == g && s.newest16 g && (match stripe with
    | some t => h.2.1 == t
    | none => true)).foldl (fun m h => Nat.lor m h.2.2) 0

/-- Pages of the spool that a record takes (R361). -/
def spoolPages (bytes : Nat) : Nat := ceilDiv bytes 4096
/-- Pages that the spool has: SPOOL_SIZE MiB of 4 KiB pages. -/
def State.spoolTotal (s : State) : Nat := s.od Od.webSpoolSize * 256

/-- Raise STREAM_INT_STATUS bits with their event (R367). -/
def State.streamStatus (s : State) (b unit value : Nat) : State := s.raiseStatus .stream b 2 unit 0xFF value

/-- The first page from p on, around the spool's end, that is not in use. -/
def pageFrom (total p : Nat) (used : List Nat) : Nat :=
  ((List.range (used.length + 1)).map fun i => (p + i) % total).find? (fun q => !used.contains q) |>.getD 0
/-- Choose n pages of the spool that are not in use; the spec does not say which ones a record takes, so each is a free choice. -/
def pickPages (total ctr : Nat) (used : List Nat) : Nat → List Nat
  | 0 => []
  | n + 1 =>
    let p := pageFrom total ((Config.freeWord ctr).toNat % total) used
    p :: pickPages total (ctr + 1) (p :: used) n

/-- Take spool pages; 75 % raises SPOOL_HIGH (R361). DESIGN CHOICE (log entry 98): SPOOL_PEAK is in MiB, to which a number of pages is
rounded up. -/
def State.spoolTake (s : State) (ps : List Nat) : State :=
  let used := ps ++ s.cmd.spoolUsed
  let u := used.length
  let up := !s.cmd.spoolHigh && decide (3 * s.spoolTotal ≤ 4 * u) && !ps.isEmpty
  let s := { s with freeCtr := s.freeCtr + ps.length }
  let s := s.modCmd fun c => { c with spoolUsed := used, spoolHigh := c.spoolHigh || up }
  let s := s.setOd Od.cntSpoolPeak (max (s.od Od.cntSpoolPeak) (ceilDiv u 256))
  if up then s.streamStatus 2 0 0 else s

/-- Free spool pages; 50 % raises SPOOL_LOW (R361). -/
def State.spoolFree (s : State) (ps : List Nat) : State :=
  let used := s.cmd.spoolUsed.filter fun p => !ps.contains p
  let down := s.cmd.spoolHigh && decide (2 * used.length ≤ s.spoolTotal)
  let s := s.modCmd fun c => { c with spoolUsed := used, spoolHigh := c.spoolHigh && !down }
  if down then s.streamStatus 4 0 0 else s

/-- Does a record wait for pages of the spool (R361, R364)? -/
def State.spoolWaiting (s : State) : Bool := s.jobs.any fun x => x.2.outs.any fun o => o.ready.any fun r => r.pages.isEmpty && r.waits

/-- Write one record to a result ring: slots are of 64 + RES_BODY_BYTES bytes (R400). -/
def State.resultPut (s : State) (r : ResIx) (mk : Nat → List Byte) : State :=
  let seq := s.cmd.seqs.get 0 r
  (s.ringPut (.result r) (mk seq)).modCmd fun c => { c with seqs := c.seqs.set 0 r ((seq + 1) % 2 ^ 64) }

/-- Write a missed or missed-run record (R42, R43, R400, R401). -/
def State.putMissed (s : State) (r : ResIx) (m : Owed) : State :=
  let x := m.run
  s.resultPut r fun seq =>
    resultFrame x.dt (s.groupLsn x.g) (if x.count = 1 then 2 else 3) (s.partFlags x.g x.part2) x.g (if m.list then 0xFFFF else x.stripe) 0 x.count 0 m.tag 0 seq
/-- The missed records of an output stream. -/
def OutStream.owed (o : OutStream) (tag : Nat) : List Owed := o.missed.map fun m => ⟨o.ring, tag, o.arg.isNone, true, m⟩
/-- Write the oldest missed or missed-run record of an output stream of a job, where the ring has a free slot (R42, R43, R401). -/
def State.missedPut (s : State) (tag : Nat) (o : OutStream) : State :=
  match o.owed tag with
  | [] => s
  | m :: _ =>
    let r : ResIx := ⟨o.ring % 64, Nat.mod_lt _ (by decide)⟩
    if !s.ringSpace (.result r) then s
    else (s.putMissed r m).modOuts tag fun x => if x.ring = o.ring then { x with missed := x.missed.drop 1 } else x

/-- Group g of an output stream is declared missed where it has a record that is not written (R42, R43). DESIGN CHOICE (log entry 149): a missed run
keeps DT of its first group's classification (R400). -/
def State.missGroup (s : State) (tag : Nat) (g : Int) (ring : Nat) : State :=
  match s.jobOf tag with
  | none => s
  | some j => match j.outs.find? fun o => o.ring == ring with
    | none => s
    | some o =>
      if g < o.g || !s.jobHas j g then s
      else
        let freed := (o.ready.filter fun r => decide (r.g ≤ g)).flatMap fun r => r.pages
        let entry : MissedRun := ⟨o.g, o.stripe, 1, o.part2, s.dt⟩
        let missed := match o.missed.getLast? with
          | some m =>
            if m.g + (m.count : Int) = o.g ∧ o.stripe = 0 ∧ !o.part2 ∧ m.count < 65535 then o.missed.dropLast ++ [{ m with count := m.count + 1 }]
            else o.missed ++ [entry]
          | none => [entry]
        let s := (s.spoolFree freed).countOd Od.cntMissedCount 1
        let s := s.modOuts tag fun x => if x.ring = ring then { x with
            missed := missed, g := g + 1, part2 := false, stripe := 0, ready := x.ready.filter fun r => decide (g < r.g) } else x
        match (s.jobOf tag).bind fun j => j.outs.find? fun x => x.ring == ring with
        | some x => s.missedPut tag x
        | none => s

/-! ### The end of commands (R394 to R399) -/

/-- End a command with a status; its completion record waits to be written. -/
def State.endCmd (s : State) (p : Cmd → Bool) (status detail : Nat) : State :=
  s.mapCmds (fun c => p c && (match c.stage with
    | .done _ _ => false
    | _ => true)) fun c => { c with stage := .done status detail }

/-- What remains of a stream whose job ends: the spills that were issued (R355). -/
def Stream.orphan (x : Stream) : Option Stream :=
  let left := x.slots.filter fun t => t.2.2 == .spilling
  if left.isEmpty then none else some { x with tag := 4096, slots := left, rounds := [] }

/-- The keys of events limited to one per line group that name a job are forgotten with it. -/
def State.forgetTold (s : State) (tag : Nat) : State := s.modCmd fun c => { c with lastEvent := c.lastEvent.filter fun e =>
  let key := e.1 / 2 ^ 48
  !(if 2 ^ 62 ≤ key then key % 65536 / 16 == tag else key == 2 ^ 61 + tag) }

/-- The streams of a job end (R355): its slots are freed, fills under way are dropped, spills that were issued go on, and what they were writing is
undefined (R396). -/
def State.dropStreams (s : State) (tag : Nat) : State :=
  let s := s.cmd.streams.foldl (fun (u : State) x => if x.tag = tag && x.kind == 0 then u.dropFills x.slotBytes x.fills.length else u) s
  let spills := (s.cmd.streams.filter fun x => x.tag == tag && x.kind == 1).flatMap fun x => (x.slots.filter fun t => t.2.2 == .spilling).flatMap fun t => x.spillRanges t.2.1
  let s := { s with dram := s.dram.undefine spills }
  (s.modCmd fun c => { c with streams := c.streams.filterMap fun x => if x.tag = tag then x.orphan else some x }).forgetTold tag

/-- Cores forget a job's program and regions; its tag may name another job next. A core bound to the job without a tile is then idle, and parks where
PARK is set (R218). -/
def State.forgetJob (s : State) (tag : Nat) : State :=
  let s := { s with cores := s.cores.map fun c => { c with resident := c.resident.filter fun r => r.1 != tag } }
  (List.finRange 32).foldl (fun (u : State) k =>
    let bound := (u.core k).job == some tag
    if (u.core k).prog.map Prod.fst = some tag || bound then
      let u := u.modCore k fun c => { c with prog := none, job := if bound then none else c.job }
      if bound && (u.core k).tile.isNone then u.coreIdle k else u
    else u) s

/-- The detection groups of a job are dropped. -/
def State.dropDetection (s : State) (tag : Nat) : State := { s with det := { s.det with slots := s.det.slots.filter fun d => d.tag != tag } }

/-- The slot that a result ring's next record would take is undefined (R396). -/
def State.slotUndefined (s : State) (r : ResIx) : State :=
  let g := s.ringRegs (.result r)
  { s with hostMem := s.hostMem.undefine [(g.base + s.reg g.pi % max 1 g.slots * g.slotSize, if g.slots = 0 then 0 else g.slotSize)] }

/-- Cancel a job (R396): its tiles stop, its streams end, nothing further is written; it completes with a status. -/
def State.cancelJob (s : State) (tag status : Nat) : State :=
  match s.jobOf tag with
  | none => s
  | some j =>
    let pages := (j.outs.flatMap fun o => o.ready).flatMap fun r => r.pages
    let s := (s.stopTiles fun t => t.tag == tag).spoolFree pages
    let s := j.outs.foldl (fun (u : State) o => u.slotUndefined ⟨o.ring % 64, Nat.mod_lt _ (by decide)⟩) s
    let s := ((s.dropDetection tag).dropStreams tag).endCmd (fun c => c.tag == tag && !c.noTag) status 0
    ((s.mapCmds (fun c => c.tag == tag && !c.noTag) fun c => { c with job := c.job.map fun j => { j with outs := j.outs.map fun o => { o with ready := [], missed := [] } } }).forgetJob tag).releaseRings

/-- The bytes that a copy was writing when it was stopped are undefined. DESIGN CHOICE (log entry 122): the spec does not say what has moved. -/
def State.copyUndefined (s : State) (c : CopyOp) : State :=
  let part := fun (sp : Nat) => (c.dst.filter fun e => e.2.2 == sp).map fun e => (e.1, e.2.1)
  { s with dram := s.dram.undefine (part 0), hostMem := s.hostMem.undefine (part 1), oasis := s.oasis.undefine (part 2) }

/-- Cancel a command before its commit point (R395, R396, R398): a job that has not started gives up what run-ahead bound for it, a copy stops, and a job
that has ended writes none of its missed records that still wait. -/
def State.cancelCmd (s : State) (c : Cmd) (status : Nat) : State :=
  if (s.jobOf c.tag).isSome && !c.noTag then s.cancelJob c.tag status
  else
    let s := if c.stage = .read && c.job.isSome then s.dropStreams c.tag else s
    let s := match c.copy, c.stage with
      | some op, .running => s.copyUndefined op
      | _, _ => s
    let s := if c.noTag then s else s.modCmd fun u => { u with owed := u.owed.filter fun m => !(m.tag == c.tag && m.inFlight) }
    s.mapCmds (fun x => x.queue == c.queue && x.index == c.index) fun x => { x with stage := .done status 0, job := if x.stage = .read then none else x.job }

/-- Is a status one of R375's refusals? -/
def refusalStatus (c : Cmd) (status : Nat) : Bool :=
  decide (2 ≤ status) && decide (status ≤ 5) || status == 7 || status == 8 || status == 0xB || (status == 0xA && c.kind == 0)

/-- Refuse a command (R375): it completes at once with its status, with an event and its count. -/
def State.refuseCmd (s : State) (c : Cmd) (status : Nat) : State :=
  let s := s.endCmd (fun x => x.queue == c.queue && x.index == c.index) status 0
  ((s.count64 Reg.cmdRefused 1).raiseInt .cmd 0x40).event 3 6 (leBytes 1 c.queue ++ leBytes 1 status ++ leBytes 2 c.tag ++ leBytes 4 c.index)

/-- Fix the first group of jobs for which it has become known (R37, R379): the records of groups that were never processed are passed over. -/
def State.fixFirst (s : State) : State :=
  match s.firstGroup with
  | none => s
  | some f => s.mapCmds (fun c => c.stage = .running) fun c => { c with job := c.job.map fun j => { j with
      first := some (j.first.getD f)
      outs := j.outs.map fun o => if o.g < f then { o with g := f, part2 := false, stripe := 0 } else o } }

end Sys2Proof.Machine
end

