-- ==== Sys2Proof/Machine/Program.lean ====
section
/-! DEFINITION. Tile programs (R228 to R273): the header, descriptors and instruction words, and the checks that a core makes when it loads one
(R231, R232, R237, R270, R272). -/

namespace Sys2Proof.Machine

/-! ### Layout (R228, R229) -/

abbrev Prog := List Byte

def Prog.descCount (p : Prog) : Nat := fieldAt p 2 2
def Prog.rdescCount (p : Prog) : Nat := byteAt p 4
def Prog.opes (p : Prog) : Nat := byteAt p 5
def Prog.instrCount (p : Prog) : Nat := fieldAt p 6 2
def Prog.bytes (p : Prog) : Nat := fieldAt p 8 4
def Prog.allocBase (p : Prog) : Nat := fieldAt p 0x10 4
def Prog.allocSize (p : Prog) : Nat := fieldAt p 0x14 4
def Prog.allocEnd (p : Prog) : Nat := p.allocBase + p.allocSize
def Prog.resCount (p : Prog) : Nat := byteAt p 0x18
/-- Base and size of a resident region. -/
def Prog.region (p : Prog) (i : Nat) : Nat × Nat := (fieldAt p (0x20 + 8 * i) 4, fieldAt p (0x24 + 8 * i) 4)
/-- I: where the instructions begin. -/
def Prog.instrBase (p : Prog) : Nat := ceilDiv (0x100 + 32 * p.descCount + 8 * p.rdescCount) 32 * 32
/-- A descriptor as 256 bits. -/
def Prog.desc (p : Prog) (i : Nat) : Nat := fieldAt p (0x100 + 32 * i) 32
/-- A rescale descriptor of the list. -/
def Prog.rdesc (p : Prog) (i : Nat) : Nat := fieldAt p (0x100 + 32 * p.descCount + 8 * i) 8
/-- An instruction as 256 bits. -/
def Prog.instr (p : Prog) (i : Nat) : Nat := fieldAt p (p.instrBase + 32 * i) 32

/-! ### Operand descriptors (R233, R234) -/

def dBase (d : Nat) : Nat := bits d 25 0
def dSpace (d : Nat) : Nat := bits d 27 26
def dFmt (d : Nat) : Nat := bits d 31 28
def dArg (d : Nat) : Nat := bits d 35 32
/-- Extents, as counts. -/
def dC (d : Nat) : Nat := bits d 51 36 + 1
def dX1 (d : Nat) : Nat := bits d 67 52 + 1
def dX2 (d : Nat) : Nat := bits d 83 68 + 1
def dP1 (d : Nat) : Nat := bits d 109 84
def dP2 (d : Nat) : Nat := bits d 135 110
def dP3 (d : Nat) : Nat := bits d 161 136
def dCblk (d : Nat) : Nat := bits d 163 162
/-- G, 0 for none. -/
def dG (d : Nat) : Nat := match bits d 165 164 with
  | 0 => 0
  | 1 => 32
  | 2 => 64
  | _ => 128
def dKind (d : Nat) : Nat := bits d 167 166
def dTensor (d : Nat) : Nat := bits d 175 168
def dScale (d : Nat) : Nat := bits d 197 176
def dZp (d : Nat) : Nat := bits d 219 198
def dPred1 (d : Nat) : Nat := bits d 223 220
def dPred2 (d : Nat) : Nat := bits d 227 224
def dPfill (d : Nat) : Bool := bitAt d 228
/-- Positions of a descriptor. -/
def dPositions (d : Nat) : Nat := dX1 d * dX2 d
/-- The channel block B (R234). -/
def dBlock (d : Nat) : Nat := match dCblk d with
  | 1 => 16
  | 2 => 32
  | _ => dC d
/-- Byte offset of the channel part of an element (R234). -/
def dChanOff (d c : Nat) : Nat := c % dBlock d * fmtBits (dFmt d) / 8 + c / dBlock d * dP3 d
/-- Byte offset of a flat position. -/
def dPosOff (d x : Nat) : Nat := x % dX1 d * dP1 d + x / dX1 d * dP2 d
/-- Bytes of one element, at least one. -/
def dElem (d : Nat) : Nat := max 1 (fmtBits (dFmt d) / 8)

/-! ### Instruction fields (R240 to R268) -/

def iOp (w : Nat) : Nat := bits w 255 248
def iGen (w : Nat) : Nat := bits w 247 246
def iEnd (w : Nat) : Bool := bitAt w 245
def iDep (w : Nat) : Nat := bits w 244 237

/-- The instruction classes of R212. -/
inductive IClass where
  | load | compute | writeout | neutral
  deriving DecidableEq, Repr

def opClass : Nat → IClass
  | 0x01 => .load
  | 0x02 | 0x31 => .writeout
  | 0x00 | 0x30 | 0x32 | 0x33 => .neutral
  | _ => .compute

/-- The opcodes of R240. -/
def opKnown (o : Nat) : Bool := [0x00, 0x01, 0x02, 0x10, 0x11, 0x12, 0x13, 0x14, 0x18, 0x19, 0x20, 0x21, 0x30, 0x31, 0x32, 0x33].contains o

/-- The reserved fields of an instruction are zero (R8, R240 to R268). -/
def iReservedOk (w : Nat) : Bool :=
  bits w 236 232 == 0 && (match iOp w with
    | 0x00 => bits w 195 0 == 0
    | 0x01 | 0x02 => bits w 77 0 == 0
    | 0x10 => bits w 73 0 == 0
    | 0x11 => bits w 9 0 == 0
    | 0x12 => bits w 53 0 == 0
    | 0x13 => bits w 142 0 == 0
    | 0x14 => bits w 100 0 == 0
    | 0x18 => bits w 154 0 == 0
    | 0x19 => bits w 207 0 == 0
    | 0x20 => bits w 179 0 == 0
    | 0x21 => bits w 171 0 == 0
    | 0x30 | 0x31 => bits w 231 0 == 0
    | 0x32 => bits w 162 0 == 0
    | _ => bits w 171 0 == 0)

/-- Sources that a TVEC operation uses (R260); none where it is unknown. -/
def vopSources (v : Nat) : Option Nat :=
  if decide (1 ≤ v) && decide (v ≤ 3) then some 2
  else if v = 4 ∨ v = 0xA then some 3
  else if v = 5 ∨ v = 6 ∨ v = 9 then some 2
  else if v = 7 ∨ v = 8 ∨ v = 0xB then some 1
  else if decide (0x10 ≤ v) && decide (v ≤ 0x12) then some 1
  else if decide (0x20 ≤ v) && decide (v ≤ 0x29) then some 1
  else none

/-- The descriptor indices that an instruction uses, with `true` where 0xFF (IMM) is allowed. -/
def iDescs (w : Nat) : List (Nat × Bool) :=
  match iOp w with
  | 0x01 | 0x02 => (if bits w 215 214 = 1 then [] else [(bits w 231 224, false)]) ++ [(bits w 223 216, false)]
  | 0x10 | 0x11 => [(bits w 219 212, false), (bits w 211 204, false), (bits w 203 196, false)] ++ (if bits w 224 223 = 2 then [(bits w 195 188, false)] else [])
  | 0x12 => [(bits w 224 217, false), (bits w 216 209, false), (bits w 208 201, false), (bits w 200 193, false), (bits w 192 185, false)]
  | 0x13 | 0x14 => [(bits w 231 224, false), (bits w 223 216, false), (bits w 215 208, false)]
  | 0x18 => (bits w 222 215, false) :: ([(bits w 214 207, true), (bits w 206 199, true), (bits w 198 191, true)].take ((vopSources (bits w 231 224)).getD 0))
  | 0x19 => [(bits w 231 224, false), (bits w 223 216, false)]
  | 0x20 => (if bits w 231 228 = 3 ∨ bits w 231 228 = 4 then [] else [(bits w 224 217, false)]) ++ [(bits w 216 209, false)]
  | 0x21 => [(bits w 227 220, false), (bits w 219 212, false)]
  | 0x32 => if bits w 172 171 = 0 then [] else [(bits w 170 163, false)]
  | _ => []

/-- A logical OPE range used by an instruction: first and count. -/
def iOpes (w : Nat) : Nat × Nat :=
  match iOp w with
  | 0x10 | 0x11 => (bits w 231 229, 1)
  | 0x12 => (bits w 231 229, 2 ^ bits w 228 227)
  | _ => (0, 0)

/-! ### What an instruction addresses in tile memory (R270) -/

/-- What an instruction addresses of one thing in tile memory: `size` bytes at each base + a + b, with a and b of the two lists. -/
structure Span where
  base : Nat
  as : List Nat
  bs : List Nat
  size : Nat

/-- The addresses of its items. -/
def Span.items (x : Span) : List Nat := x.as.flatMap fun a => x.bs.map fun b => x.base + a + b
/-- The lowest address and the end of the highest item. -/
def Span.lo (x : Span) : Nat := x.base + x.as.foldl min (x.as.headD 0) + x.bs.foldl min (x.bs.headD 0)
def Span.hi (x : Span) : Nat := x.base + x.as.foldl max 0 + x.bs.foldl max 0 + x.size
/-- The bytes [lo, hi). -/
def Span.run (lo hi : Nat) : Span := ⟨lo, [0], [0], hi - lo⟩

/-- An operand's elements at channels of a list and the given positions, with its scales and zero points; positions and channels beyond the extents are
never addressed. -/
def opdSpans (d : Nat) (cs xs : List Nat) : List Span :=
  let xs := xs.filter fun x => decide (x < dPositions d)
  let cs := cs.filter fun c => decide (c < dC d)
  if xs.isEmpty || cs.isEmpty then []
  else
    let g := max 1 (dG d)
    let per := ceilDiv (dC d) g
    ⟨dBase d, xs.map (dPosOff d), cs.map (dChanOff d), dElem d⟩ :: (match dKind d with
      | 1 => ⟨dScale d, xs.map fun x => 2 * per * x, cs.map fun c => 2 * (c / g), 2⟩ ::
          (if fmtZero (dFmt d) then [⟨dZp d, xs.map fun x => per * x, cs.map fun c => c / g, 1⟩] else [])
      | 2 => [Span.run (dScale d) (dScale d + 6), ⟨dScale d + 16, [0], cs.map fun c => 4 * (c / g), 4⟩]
      | _ => [])
/-- The same for channels c0 to c1. -/
def opdRanges (d c0 c1 : Nat) (xs : List Nat) : List Span := opdSpans d ((List.range (c1 + 1 - c0)).map (c0 + ·)) xs

/-- The rescale table of a slot (R151): address and count. -/
def rdBase (r : Nat) : Nat := bits r 21 4 * 16
def rdCount (r : Nat) : Nat := bits r 34 22
/-- Rows of the array in the mode of an instruction. -/
def iSide (w : Nat) : Nat := if bitAt w 228 then 16 else 32

/-- Positions start, start + 1, …, n of them. -/
def runOf (start n : Nat) : List Nat := (List.range n).map (start + ·)
/-- A positions and B positions of a TMM or TCONV over all repetitions (R250). -/
def mmRows (w : Nat) : List Nat := (List.range (bits w 115 108 + 1)).flatMap fun j => runOf (bits w 181 166 + j * bits w 89 74) (iSide w)
def mmCols (w : Nat) : List Nat := (List.range (bits w 115 108 + 1)).flatMap fun j => runOf (bits w 165 148 + j * bits w 107 90) (iSide w)

/-- The steps of a TMM or TCONV in order (R250, R251): tap row, tap column, A channel, B channel. A TMM has one tap. -/
def mmSteps (w : Nat) : List (Nat × Nat × Nat × Nat) :=
  let n := bits w 131 116 + 1
  let k0 := bits w 147 132
  if iOp w = 0x10 then (List.range n).map fun s => (0, 0, k0 + s, k0 + s)
  else (List.range (bits w 73 70 + 1)).flatMap fun ky => (List.range (bits w 69 66 + 1)).flatMap fun kx => (List.range n).map fun c =>
    (ky, kx, k0 + (ky * (bits w 69 66 + 1) + kx) * bits w 41 26 + c, bits w 25 10 + c)

/-- The input position of an output position and a tap (R274); none where it is padding or outside. Fields in the order SH, SW, DILH, DILW, PT, PL. -/
def tapPos (dout din : Nat) (f : Nat × Nat × Nat × Nat × Nat × Nat) (x ky kx : Nat) : Option Nat :=
  let (sh, sw, dh, dw, pt, pl) := f
  let ix : Int := (x % dX1 dout * (sw + 1) + kx * (dw + 1) : Nat) - (pl : Int)
  let iy : Int := (x / dX1 dout * (sh + 1) + ky * (dh + 1) : Nat) - (pt : Int)
  if ix < 0 ∨ (dX1 din : Int) ≤ ix ∨ iy < 0 ∨ (dX2 din : Int) ≤ iy then none else some (iy.toNat * dX1 din + ix.toNat)

def convFields (w : Nat) : Nat × Nat × Nat × Nat × Nat × Nat := (bits w 65 62, bits w 61 58, bits w 57 54, bits w 53 50, bits w 49 46, bits w 45 42)
def dwFields (w : Nat) : Nat × Nat × Nat × Nat × Nat × Nat := (bits w 192 189, bits w 188 185, bits w 184 181, bits w 180 177, bits w 176 173, bits w 172 169)

/-- B positions that a TMM or TCONV reads for array columns. -/
def mmBPos (p : Prog) (w : Nat) (cols : List Nat) : List Nat :=
  if iOp w = 0x10 then cols
  else
    let dout := p.desc (bits w 203 196)
    let db := p.desc (bits w 211 204)
    cols.flatMap fun x => if x < dPositions dout then
      (List.range (bits w 73 70 + 1)).flatMap fun ky => (List.range (bits w 69 66 + 1)).filterMap fun kx => tapPos dout db (convFields w) x ky kx
    else []

/-- Byte offset of an element of a blocked weight operand, in bits (R202). -/
def blockedBit (f k : Nat) (m r : Nat) : Nat := ((m / 64 * ceilDiv k 8 + r / 8) * 512 + r % 8 * 64 + m % 64) * fmtBits f

/-- Channels that a TDET uses for each anchor: box terms and class scores (R282, R283). -/
def detPer (w : Nat) : Nat := (if bits w 231 228 = 2 then 2 else 4) + bits w 179 172 + 1
/-- The most anchors that a TDET reads: those for which its head has channels, at most 16 (R284). -/
def detAnchors (p : Prog) (w : Nat) : Nat := min 16 (dC (p.desc (bits w 227 220)) / detPer w)

/-- The array rows that a TMM or TCONV writes to DOUT in repetition j, and the columns, as its channels and positions (R238, R250, R251): rows and columns
beyond the operands are off, and are written only under PFILL. -/
def mmOutRows (p : Prog) (w j : Nat) : List Nat :=
  let da := p.desc (bits w 219 212)
  let dout := p.desc (bits w 203 196)
  (runOf (bits w 181 166 + j * bits w 89 74) (iSide w)).filter fun m => (dPfill dout || decide (m < dPositions da)) && decide (m < dC dout)
def mmOutCols (p : Prog) (w j : Nat) : List Nat :=
  (runOf (bits w 165 148 + j * bits w 107 90) (iSide w)).filter fun n =>
    dPfill (p.desc (bits w 203 196)) || iOp w == 0x11 || decide (n < dPositions (p.desc (bits w 211 204)))
/-- The A channels of each tap. -/
def mmTaps (w : Nat) : List (List Nat) :=
  let n := bits w 131 116 + 1
  if iOp w = 0x10 then [runOf (bits w 147 132) n]
  else (List.range ((bits w 73 70 + 1) * (bits w 69 66 + 1))).map fun t => runOf (bits w 147 132 + t * bits w 41 26) n
/-- The rows of a TFUSE that lie within A1 (R254). -/
def fuseRows (p : Prog) (w : Nat) : List Nat := (List.range 32).filter fun i => decide (bits w 172 157 + i < dPositions (p.desc (bits w 224 217)))
/-- The rows and columns that it writes to DOUT, with PFILL those that are off too (R238, R254). -/
def fuseOutRows (p : Prog) (w : Nat) : List Nat := if dPfill (p.desc (bits w 192 185)) then List.range 32 else fuseRows p w
def fuseOutCols (p : Prog) (w : Nat) : List Nat := (List.range (bits w 111 103 + 1)).filter fun n =>
  dPfill (p.desc (bits w 192 185)) || decide (bits w 129 112 + n < dPositions (p.desc (bits w 200 193)))

/-- What an instruction can address in tile memory (R270), by repetition. -/
def iRanges (p : Prog) (w : Nat) : List Span :=
  let table := fun (slot : Nat) (cs : List Nat) =>
    if slot < p.rdescCount && !cs.isEmpty then [Span.mk (rdBase (p.rdesc slot)) [0] (cs.map (16 * ·)) 16] else []
  match iOp w with
  | 0x01 | 0x02 =>
    let d := p.desc (bits w 223 216)
    [⟨dBase d, (List.range (bits w 197 186 + 1)).map (· * dP1 d), [0], bits w 213 198 + 1⟩]
  | 0x10 | 0x11 =>
    let da := p.desc (bits w 219 212)
    let db := p.desc (bits w 211 204)
    let dout := p.desc (bits w 203 196)
    let bch := (mmSteps w).map fun t => t.2.2.2
    (List.range (bits w 115 108 + 1)).flatMap fun j =>
      let rows := runOf (bits w 181 166 + j * bits w 89 74) (iSide w)
      let cols := runOf (bits w 165 148 + j * bits w 107 90) (iSide w)
      let read := rows.filter fun m => decide (m < dPositions da) && decide (m < dC dout)
      (mmTaps w).flatMap (fun cs => opdSpans da cs rows) ++ opdSpans db bch.dedup (mmBPos p w cols) ++
      (if bitAt w 222 then opdSpans dout (mmOutRows p w j) (mmOutCols p w j) ++ (if bitAt w 221 then table (bits w 187 182) read else []) else []) ++
      (if bits w 224 223 = 2 then opdSpans (p.desc (bits w 195 188)) rows cols else [])
  | 0x12 =>
    let k1 := bits w 102 87
    let n1 := bits w 138 130
    let dout := p.desc (bits w 192 185)
    opdRanges (p.desc (bits w 224 217)) k1 (k1 + bits w 86 71) (runOf (bits w 172 157) 32) ++
    opdRanges (p.desc (bits w 216 209)) k1 (k1 + bits w 86 71) (runOf (bits w 156 139) (n1 + 1)) ++
    opdRanges (p.desc (bits w 208 201)) 0 n1 (List.range 32) ++
    opdRanges (p.desc (bits w 200 193)) (bits w 70 55) (bits w 70 55 + n1) (runOf (bits w 129 112) (bits w 111 103 + 1)) ++
    (if bitAt w 54 then opdSpans dout (fuseOutCols p w) (fuseOutRows p w) else opdSpans dout (fuseOutRows p w) (fuseOutCols p w)) ++
    table (bits w 184 179) (fuseRows p w) ++ table (bits w 178 173) (fuseRows p w)
  | 0x13 =>
    let da := p.desc (bits w 231 224)
    let db := p.desc (bits w 223 216)
    let dout := p.desc (bits w 215 208)
    let m := bits w 200 189
    let k := bits w 188 173
    let vs := runOf (bits w 160 143) (bits w 172 161 + 1)
    let per := ceilDiv (k + 1) (max 1 (dG da))
    let weights := (List.range (m + 1)).flatMap fun r => (List.range (k + 1)).map fun c => blockedBit (dFmt da) (k + 1) r c / 8
    ⟨dBase da, weights, [0], dElem da⟩ ::
    (if dKind da = 1 then Span.run (dScale da) (dScale da + 2 * (m + 1) * per) :: (if fmtZero (dFmt da) then [Span.run (dZp da) (dZp da + (m + 1) * per)] else [])
     else if dKind da = 2 then [Span.run (dScale da) (dScale da + 6), Span.run (dScale da + 16) (dScale da + 16 + 4 * per)] else []) ++
    opdRanges db 0 k vs ++ opdRanges dout 0 m (vs.filter fun x => dPfill dout || decide (x < dPositions db)) ++
    (if bitAt w 201 then table (bits w 207 202) (List.range (m + 1)) else [])
  | 0x14 =>
    let din := p.desc (bits w 231 224)
    let dout := p.desc (bits w 215 208)
    let c0 := bits w 168 153
    let c1 := c0 + bits w 152 137
    let outs := runOf (bits w 136 119) (bits w 118 101 + 1)
    let ins := outs.flatMap fun x => if x < dPositions dout then
        (List.range (bits w 200 197 + 1)).flatMap fun ky => (List.range (bits w 196 193 + 1)).filterMap fun kx => tapPos dout din (dwFields w) x ky kx
      else []
    opdRanges din c0 c1 ins ++ opdRanges (p.desc (bits w 223 216)) 0 ((bits w 200 197 + 1) * (bits w 196 193 + 1) - 1) (runOf c0 (c1 + 1 - c0)) ++
    opdRanges dout c0 c1 outs ++ (if bitAt w 201 then table (bits w 207 202) (runOf c0 (c1 + 1 - c0)) else [])
  | 0x18 => (iDescs w).flatMap fun x => if x.1 = 0xFF then [] else
      let d := p.desc x.1
      opdRanges d 0 (dC d - 1) (List.range (dPositions d))
  | 0x19 =>
    let d := p.desc (bits w 231 224)
    (iDescs w).flatMap (fun x => opdRanges (p.desc x.1) 0 (dC (p.desc x.1) - 1) (List.range (dPositions (p.desc x.1)))) ++
      (if bits w 209 208 = 0 then table (bits w 215 210) (List.range (dC d)) else [])
  | 0x21 =>
    let at_ := dBase (p.desc (bits w 219 212))
    -- The channels of the anchors that the head has room for (R282, R284).
    opdSpans (p.desc (bits w 227 220)) (List.range (detAnchors p w * detPer w)) (List.range (bits w 211 196 + 1)) ++
      [Span.run at_ (at_ + 16 + 4 * detAnchors p w)]
  | 0x32 =>
    let d := p.desc (bits w 170 163)
    if bits w 172 171 = 0 then [] else (opdRanges d 0 (dC d - 1) (List.range (dPositions d))).take 1
  | _ => []

/-- The same for a TCTX (R300), which depends on the dictionary. -/
def State.ctxRanges (s : State) (p : Prog) (w : Nat) : List Span :=
  let dk := p.desc (bits w 224 217)
  let dv := p.desc (bits w 216 209)
  let n := bits w 208 196 + 1
  let raw := fun len => [Span.run (dBase dv) (dBase dv + len)]
  match bits w 231 228 with
  | 0 | 1 => opdRanges dk 0 (dC dk - 1) (List.range n) ++ opdRanges dv 0 (dC dv - 1) (List.range n)
  | 2 => opdRanges dk 0 0 [0] ++ raw (s.od Od.stateStateBytes)
  | 3 => raw (s.od Od.stateStateBytes)
  | 4 => raw (s.od Od.tokTokPerStripe * s.od Od.tokTokBytes)
  | _ => opdRanges dk 0 1 (List.range n) ++ raw (n * s.od Od.tokTokBytes)

/-! ### The checks of a load (R231) -/

/-- A refusal: class, code, INDEX, OPCODE, ADDRESS, LIMIT (R273). -/
structure Refused where
  cls : Nat
  code : Nat
  index : Nat
  opcode : Nat
  addr : Nat
  limit : Nat
  deriving DecidableEq, Repr

/-- The first check that fails: each check is a failing condition with its class, its code and its LIMIT. DESIGN CHOICE (log entry 114): LIMIT is the
largest value that the offending field could have, where it exceeds one, and 0 otherwise. -/
def firstFail (index opcode : Nat) : List (Bool × Nat × Nat × Nat) → Option Refused
  | [] => none
  | (bad, c, k, l) :: r => if bad then some ⟨c, k, index, opcode, 0, l⟩ else firstFail index opcode r

/-- Do two regions overlap? An empty region overlaps nothing. -/
def regionsMeet (a b : Nat × Nat) : Bool := decide (0 < a.2) && decide (0 < b.2) && decide (a.1 < b.1 + b.2) && decide (b.1 < a.1 + a.2)

/-- The header (R229, R231). -/
def Prog.checkHeader (p : Prog) : Option Refused :=
  let n := min p.resCount 4
  let regs := (List.range n).map p.region
  let reserved := fieldAt p 0 2 / 4 != 0 || !zeroAt p 0x0C 4 || !zeroAt p 0x19 7 || !zeroAt p 0x58 168 ||
    ((List.range 4).any fun i => decide (p.resCount ≤ i) && !zeroAt p (0x20 + 8 * i) 8) ||
    (regs.any fun r => decide (2 ^ 22 ≤ r.1) || decide (2 ^ 23 ≤ r.2))
  let b := p.allocBase
  let allocEnd := b + p.allocSize
  let meet := (List.range n).any fun i => (List.range n).any fun j => decide (i < j) && regionsMeet (p.region i) (p.region j)
  firstFail 0xFFFE 0xFF [
    (fieldAt p 0 2 % 4 != 1, 1, 1, 0), (reserved, 1, 4, 0),
    (decide (255 < p.descCount), 1, 5, 255), (decide (64 < p.rdescCount), 1, 5, 64), (p.opes == 0, 1, 5, 0), (decide (8 < p.opes), 1, 5, 8),
    (decide (p.instrCount < 2), 1, 5, 0), (decide (1016 < p.instrCount), 1, 5, 1016),
    (p.bytes != p.instrBase + 32 * p.instrCount, 1, 7, 0), (decide (32768 < p.bytes), 1, 7, 32768),
    (decide (4 < p.resCount), 1, 0xB, 4), (b % 64 != 0 || p.allocSize % 64 != 0 || p.allocSize == 0, 1, 0xB, 0),
    (decide (0x300000 < allocEnd), 1, 0xB, 0x300000 - b), (regs.any fun r => r.1 % 64 != 0 || r.2 % 64 != 0 || decide (r.1 < b), 1, 0xB, 0),
    -- An empty region too has its base within the allocation (R229).
    (regs.any fun r => decide (allocEnd < r.1 + r.2) || decide (allocEnd ≤ r.1), 1, 0xB, allocEnd), (meet, 1, 0xB, 0)]

/-- A descriptor (R231, R233, R237). -/
def State.checkDesc (s : State) (p : Prog) (i : Nat) : Option Refused :=
  let d := p.desc i
  let f := dFmt d
  let t := dTensor d
  let fmtBad := (fmtScaled f && dKind d == 0) || (!fmtScaled f && dKind d != 0) || ((dG d == 0) != (dKind d == 0)) ||
    (dKind d == 2 && !(s.odFlag (Od.trkEnable t) && s.od (Od.trkFormat t) == f && s.od (Od.trkGroupSize t) == dG d)) ||
    (dZp d != 0 && !(dKind d == 1 && fmtZero f)) || (fmtBits f == 4 && dC d % 2 == 1 && dCblk d == 0)
  firstFail (0x8000 + i) 0xFF [(bits d 255 229 != 0, 1, 4, 0),
    (dSpace d == 0 && decide (2 ^ 22 ≤ dBase d), 1, 5, 2 ^ 22 - 1), (decide (2 ≤ dSpace d), 1, 5, 1), (dSpace d == 0 && dArg d != 0, 1, 5, 0),
    (dCblk d == 3, 1, 5, 2), (dKind d == 3, 1, 5, 2), (dKind d != 2 && t != 0, 1, 5, 0), (decide (8 < dPred1 d), 1, 5, 8), (decide (8 < dPred2 d), 1, 5, 8),
    (decide (13 ≤ f), 1, 6, 12), (fmtBad, 1, 6, 0)]

/-- A rescale descriptor (R151, R231). -/
def Prog.checkRdesc (p : Prog) (i : Nat) : Option Refused :=
  let r := p.rdesc i
  firstFail (0xC000 + i) 0xFF [(bits r 3 0 != 0 || bits r 63 35 != 0, 1, 4, 0), (rdCount r == 0, 2, 3, 0), (decide (4096 < rdCount r), 2, 3, 4096)]

/-- May two extents be combined in a TVEC: equal, or a broadcast source (R261)? -/
def bcastOk (src dst : Nat) : Bool := src == dst || src == 1

/-- The field ranges and extents of an instruction (code 0x05): failing conditions with their limits, in the order of its fields. -/
def State.iRangeChecks (s : State) (p : Prog) (w : Nat) : List (Bool × Nat) :=
  let sp0 := ((iDescs w).any fun x => x.1 != 0xFF && dSpace (p.desc x.1) != 0, 0)
  match iOp w with
  | 0x00 => [(decide (bits w 230 228 < 2), 0)]
  | 0x01 | 0x02 =>
    let mode := bits w 215 214
    let row := (bits w 105 90 + 1) * s.od Od.fsOutChStride * outBytes (s.od Od.fsOutOutFormat)
    [(dSpace (p.desc (bits w 223 216)) != 0, 0), (decide (2 ≤ mode), 1), (iOp w == 2 && mode == 1, 0),
     (mode == 1 && bits w 231 224 != 0, 0), (mode == 1 && bits w 213 198 + 1 != row, 0), (mode != 1 && dSpace (p.desc (bits w 231 224)) != 1, 0)]
  | 0x10 | 0x11 => [sp0, (!bitAt w 228 && bits w 227 226 != 0, 0), (bits w 224 223 == 3, 2), (bits w 224 223 != 2 && bits w 195 188 != 0, 0)]
  | 0x12 => [sp0, (bits w 231 229 % 2 ^ bits w 228 227 != 0, 0), (decide (2 ≤ bits w 226 225), 1)]
  | 0x13 => [sp0, (bits (p.desc (bits w 231 224)) 161 36 != 0, 0)]
  | 0x18 =>
    let v := bits w 231 224
    let n := (vopSources v).getD 0
    let srcs := [bits w 214 207, bits w 206 199, bits w 198 191]
    let dst := p.desc (bits w 222 215)
    let red := decide (0x10 ≤ v) && decide (v ≤ 0x12)
    let posOk := fun d => (dX1 d == dX1 dst && dX2 d == dX2 dst) || dPositions d == 1
    -- A reduction leaves one value along its axis, IMM included; along the other axis its source may be broadcast.
    let extBad := (red && (if bitAt w 155 then dPositions dst != 1 else dC dst != 1)) || (srcs.take n).any fun x => x != 0xFF && (
      let d := p.desc x
      if red then (if bitAt w 155 then !bcastOk (dC d) (dC dst) else !posOk d) else !(bcastOk (dC d) (dC dst) && posOk d))
    -- DEDUCED (log entry 115): a 4-bit source of a copy needs an even number of channels (R281).
    let odd := v == 0xB && bits w 214 207 != 0xFF && fmtBits (dFmt (p.desc (bits w 214 207))) == 4 && dC (p.desc (bits w 214 207)) % 2 == 1
    [((vopSources v).isNone, 0), (bitAt w 223 && decide (0x20 ≤ v), 0), sp0, ((srcs.drop n).any (· != 0), 0), (v == 9 && decide (6 ≤ bits w 158 156), 5),
     (extBad, 0), (odd, 0)]
  | 0x19 =>
    let a := p.desc (bits w 231 224)
    let b := p.desc (bits w 223 216)
    [sp0, (bits w 209 208 == 1 && bits w 215 210 != 0, 0), (decide (2 ≤ bits w 209 208), 1), (dC a != dC b || dX1 a != dX1 b || dX2 a != dX2 b, 0)]
  | 0x20 =>
    let op := bits w 231 228
    let n := bits w 208 196 + 1
    let dk := p.desc (bits w 224 217)
    let dv := p.desc (bits w 216 209)
    let al := bits w 195 180
    let keys := fun (lo hi : Nat) => !(dFmt dk == 0xB && decide (lo ≤ dC dk) && decide (dC dk ≤ hi) && dPositions dk == n)
    [(decide (6 ≤ op), 5), sp0, (match op with
      | 0 => keys 2 3 || !(decide (48 ≤ dC dv) && decide (dC dv ≤ 50) && dPositions dv == n) || al != 0
      | 1 => keys 2 2 || !(dC dv == 48 && dPositions dv == n && dFmt dv != 0xC) || decide (al < 0x3780) || decide (0x3F80 < al)
      | 2 => n != 1 || bits w 227 225 != 0 || !(dFmt dk == 0xB && dC dk == 1 && dPositions dk == 1) || al != 0 || s.od Od.stateStateBytes == 0
      | 3 => n != 1 || bits w 227 225 != 0 || bits w 224 217 != 0 || al != 0 || s.od Od.stateStateBytes == 0
      | 4 => n != s.od Od.tokTokPerStripe || bits w 227 225 != 0 || bits w 224 217 != 0 || al != 0
      | _ => keys 2 2 || decide (4096 < n) || bits w 227 225 != 0 || al != 0 || s.od Od.tokTokPerStripe == 0, 0)]
  | 0x21 => [(decide (3 ≤ bits w 231 228), 2), sp0]
  | 0x32 => [(bits w 172 171 == 3, 2), sp0]
  | _ => [sp0]

/-- The formats of an instruction (code 0x06, R237). -/
def iFormatBad (p : Prog) (w : Nat) : Bool :=
  let fp := fun i => dFmt (p.desc i) == 0xC
  match iOp w with
  | 0x10 | 0x11 => fp (bits w 219 212) || fp (bits w 211 204) || (bits w 224 223 == 2 && !fp (bits w 195 188))
  | 0x12 => fp (bits w 224 217) || fp (bits w 216 209) || fp (bits w 200 193) || !(dFmt (p.desc (bits w 208 201)) == 8 || dFmt (p.desc (bits w 208 201)) == 9)
  | 0x13 | 0x14 => fp (bits w 231 224) || fp (bits w 223 216)
  | 0x18 => bitAt w 223 && (iDescs w).any fun x => x.1 != 0xFF && dFmt (p.desc x.1) != 9
  | 0x19 => bits w 209 208 == 0 && !fp (bits w 231 224)
  | _ => false

/-- The reduction of an instruction leaves an operand's channels, or starts inside a group (class 2, code 0x05). -/
def iReduceChecks (p : Prog) (w : Nat) : List (Bool × Nat) :=
  -- Channels up to `top` of an operand, from one that begins a group.
  let read := fun (d first top : Nat) => [(decide (dC d ≤ top), dC d - 1), (dG d != 0 && first % dG d != 0, 0)]
  match iOp w with
  | 0x10 | 0x11 =>
    read (p.desc (bits w 219 212)) (bits w 147 132) (((mmSteps w).map fun t => t.2.2.1).foldl max 0) ++
    read (p.desc (bits w 211 204)) (if iOp w = 0x10 then bits w 147 132 else bits w 25 10) (((mmSteps w).map fun t => t.2.2.2).foldl max 0)
  | 0x12 =>
    let k := bits w 102 87
    read (p.desc (bits w 224 217)) k (k + bits w 86 71) ++ read (p.desc (bits w 216 209)) k (k + bits w 86 71) ++
    read (p.desc (bits w 200 193)) (bits w 70 55) (bits w 70 55 + bits w 138 130)
  | 0x13 => read (p.desc (bits w 223 216)) 0 (bits w 188 173)
  | 0x14 => read (p.desc (bits w 223 216)) 0 ((bits w 200 197 + 1) * (bits w 196 193 + 1) - 1)
  | _ => []

/-- A rescale slot is too short for the channels that an instruction writes (class 2, code 0x03, R252). -/
def iRescaleChecks (p : Prog) (w : Nat) : List (Bool × Nat) :=
  let short := fun (use : Bool) (slot top : Nat) =>
    let n := if slot < p.rdescCount then rdCount (p.rdesc slot) else 0
    (use && decide (n ≤ top), n - 1)
  match iOp w with
  | 0x10 | 0x11 =>
    let rows := (List.range (bits w 115 108 + 1)).flatMap (mmOutRows p w)
    [short (bitAt w 222 && bitAt w 221 && !rows.isEmpty) (bits w 187 182) (rows.foldl max 0)]
  | 0x12 =>
    [short (!(fuseRows p w).isEmpty) (bits w 184 179) ((fuseRows p w).foldl max 0), short (!(fuseOutRows p w).isEmpty) (bits w 178 173) ((fuseOutRows p w).foldl max 0)]
  | 0x13 => [short (bitAt w 201) (bits w 207 202) (min (bits w 200 189) (dC (p.desc (bits w 215 208)) - 1))]
  | 0x14 => [short (bitAt w 201) (bits w 207 202) (min (bits w 168 153 + bits w 152 137) (dC (p.desc (bits w 215 208)) - 1))]
  | 0x19 => [short (bits w 209 208 == 0) (bits w 215 210) (dC (p.desc (bits w 231 224)) - 1)]
  | _ => []

/-- The first thing addressed in tile memory that leaves the allocation (class 2, code 0x01): the lowest offending address of it that is addressed, and the
limit. -/
def firstOutside (p : Prog) : List Span → Option (Nat × Nat)
  | [] => none
  | x :: r =>
    if x.lo < p.allocBase then some (x.lo, p.allocBase)
    else if p.allocEnd < x.hi then
      let out := (x.items.filter fun a => decide (p.allocEnd < a + x.size)).map fun a => max a p.allocEnd
      some (out.foldl min (out.headD 0), p.allocEnd)
    else firstOutside p r

/-- Instruction i (R231, R232, R215): its opcode is judged first, then its fields, the structure, and the class 2 checks. -/
def State.checkInstr (s : State) (p : Prog) (i : Nat) : Option Refused :=
  let w := p.instr i
  let op := iOp w
  let last := i + 1 == p.instrCount
  let before := (List.range i).map p.instr
  let committed := before.any fun v => iOp v == 0x31
  let structure_ := (i == 0 && op != 0x30) || (i != 0 && op == 0x30) || (op == 0x31 && committed) || ((op == 2 || op == 0x33) && !committed) ||
    (iEnd w != last) || (last && !(committed || op == 0x31))
  let phase := committed && (opClass op == .load || opClass op == .compute)
  let (o0, on) := iOpes w
  let tag := fun (c k : Nat) (l : List (Bool × Nat)) => l.map fun x => (x.1, c, k, x.2)
  let c1 := firstFail i op ([
    (iGen w != 1, 1, 2, 0), (!opKnown op, 1, 3, 0), (!iReservedOk w, 1, 4, 0),
    ((iDescs w).any (fun x => decide (p.descCount ≤ x.1) && !(x.2 && x.1 == 0xFF)), 1, 9, p.descCount - 1),
    (decide (0 < on) && decide (p.opes < o0 + on), 1, 0xA, p.opes - 1)] ++
    tag 1 5 (s.iRangeChecks p w) ++ [(iFormatBad p w, 1, 6, 0), (structure_, 1, 8, 0), (phase, 3, 0, 0)])
  match c1 with
  | some r => some r
  | none =>
    match firstOutside p (if op = 0x20 then s.ctxRanges p w else iRanges p w) with
    | some (a, l) => some ⟨2, 1, i, op, a, l⟩
    | none =>
      let f := 2 ^ bits w 228 227
      firstFail i op (tag 2 3 (iRescaleChecks p w) ++ tag 2 5 (iReduceChecks p w) ++ [
        (op == 0x14 && (decide (8 < bits w 200 197) || decide (8 < bits w 196 193)), 2, 6, 8),
        (op == 0x12 && (decide (32 * f < bits w 138 130 + 1) || decide (32 * f < bits w 111 103 + 1)), 2, 7, 32 * f - 1)])

/-- The whole check, in byte order (R231). -/
def State.checkProgram (s : State) (p : Prog) : Option Refused :=
  match p.checkHeader with
  | some r => some r
  | none =>
    match (List.range p.descCount).findSome? (s.checkDesc p) with
    | some r => some r
    | none =>
      match (List.range p.rdescCount).findSome? p.checkRdesc with
      | some r => some r
      | none =>
        let used := 0x100 + 32 * p.descCount + 8 * p.rdescCount
        if !zeroAt p used (p.instrBase - used) then some ⟨1, 4, 0xFFFE, 0xFF, 0, 0⟩
        else (List.range p.instrCount).findSome? (s.checkInstr p)

/-- A program as it lies in Oasis (R228): its header gives its length, at most 32 KiB. -/
def State.readProgram (s : State) (addr : Nat) : Prog := s.readOasis addr (min 32768 (max 256 (fieldAt (s.readOasis addr 12) 8 4)))

/-- ADDRESS of a fault record (R273): an object index, 22 bits of a tile memory address, or 26 of an Oasis address. -/
def faultAddress (cls code addr : Nat) : Nat :=
  if cls = 2 ∧ code = 0xB then addr else if cls = 2 ∧ (code = 2 ∨ code = 0xA) ∨ cls = 4 then addr % 2 ^ 26 else addr % 2 ^ 22
/-- The 32-byte body of a fault record (R273). -/
def faultBody (core cls code opcode tag index tsn stripe unit rep addr limit : Nat) : List Byte :=
  leBytes 1 core ++ leBytes 1 cls ++ leBytes 1 code ++ leBytes 1 opcode ++ leBytes 2 tag ++ leBytes 2 index ++ leBytes 4 tsn ++ leBytes 2 stripe ++
  leBytes 1 unit ++ leBytes 1 rep ++ leBytes 8 (faultAddress cls code addr) ++ leBytes 4 limit ++ [0, 0, 0, 0]

/-! ### Which cameras a program reads (R357) -/

/-- First and last output column of a camera's placed window (R112). -/
def State.placedCols (s : State) (c : PortIx) : Int × Int :=
  let fx : Int := s.fx
  let o : Int := s.od (Od.camWebOrigin c)
  (o / fx, (o + (s.od (Od.camCropLast c) : Int) - (s.od (Od.camCropFirst c) : Int)) / fx)

/-- Output column of the stripe's column 0. -/
def State.stripeCol (s : State) (st : Nat) : Int := ((s.od Od.webWindowFirst + st * s.od Od.webStripeWidth : Nat) : Int) / (s.fx : Int)

/-- The mask of cameras whose rings a program's web-mode TLOADs reach, over every stripe. -/
def State.programReads (s : State) (p : Prog) : Nat :=
  let ws := ((List.range (min p.instrCount 1016)).map p.instr).filter fun w => iOp w == 1 && bits w 215 214 == 1
  (s.enabledPorts.filter fun c =>
    let (lo, hi) := s.placedCols c
    ws.any fun w => (List.range s.stripes).any fun st =>
      let a := s.stripeCol st + toSigned 16 (bits w 121 106)
      let b := a + (bits w 105 90 : Nat)
      decide (a ≤ hi) && decide (lo ≤ b)).foldl (fun m (c : PortIx) => m + 2 ^ c.val) 0

end Sys2Proof.Machine
end

