-- ==== Sys2Proof/Machine/Transc.lean ====
section
/-! DEFINITION. The transcendental unit (R208, R209): special inputs, and results that are free inside the error bound of R208. The exact functions
are computed on rationals with an error below 2^−130, far below every bound. -/

namespace Sys2Proof.Machine

/-- Cut a rational to a multiple of 2^−160. -/
def cut160 (q : Rat) : Rat := (q * (2 ^ 160 : Nat)).floor / (2 ^ 160 : Nat)

/-- sum over k of z^(2k+1) / (2k+1), the first n terms: the inverse hyperbolic tangent of z. -/
def atanhSum (z zz : Rat) (k : Nat) : Nat → Rat
  | 0 => 0
  | n + 1 => cut160 (z / (2 * k + 1 : Nat)) + atanhSum (cut160 (z * zz)) zz (k + 1) n
/-- ln m for m in [1, 2). -/
def lnUnit (m : Rat) : Rat :=
  let z := cut160 ((m - 1) / (m + 1))
  2 * atanhSum z (cut160 (z * z)) 0 60
/-- ln 2. -/
def ln2 : Rat := 2 * atanhSum (cut160 (1 / 3)) (cut160 (1 / 9)) 0 60
/-- ln y for y > 0. -/
def lnVal (y : Rat) : Rat :=
  let e := floorLog2 y
  lnUnit (y / pow2 e) + e * ln2
/-- e^t for a small t by its series: 1 + t/k (1 + t/(k+1) (…)). -/
def expSeries (t : Rat) (k : Nat) : Nat → Rat
  | 0 => 1
  | n + 1 => 1 + cut160 (t / k * expSeries t (k + 1) n)
/-- e^x, for |x| at most 2^12. -/
def expVal (x : Rat) : Rat :=
  let n := (x / ln2).floor
  pow2 n * expSeries (cut160 (x - n * ln2)) 1 50
/-- sqrt(2/π), to 2^−130. -/
def sqrtTwoOverPi : Rat := 7978845608028653558798921198687637369517172623298693153318516 / 10000000000000000000000000000000000000000000000000000000000000
/-- 1 / (1 + e^−x): where |x| is large it is 0 or 1 to within 2^−140. -/
def sigmoidVal (x : Rat) : Rat := if x < -100 then 0 else if 100 < x then 1 else 1 / (1 + expVal (-x))
/-- A square root to 2^−160 of its size, for q > 0. -/
def sqrtVal (q : Rat) : Rat :=
  let e := floorLog2 q / 2
  ((Nat.sqrt ((q / pow2 (2 * e)) * (2 ^ 320 : Nat)).floor.toNat : Nat) : Rat) / (2 ^ 160 : Nat) * pow2 e

/-- The exact value of function fn at x (R208), for a finite x at which it is a number: 0 2^x, 1 log2, 2 reciprocal, 3 reciprocal square root, 4 e^x,
5 sigmoid, 6 tanh, 7 SiLU, 8 GELU (tanh form), 9 softplus. Where 2^x or e^x leaves the range of binary32 it gives 2^2000 or 0. -/
def transcExact (fn : Nat) (x : Rat) : Rat :=
  match fn with
  | 0 => if 1000 < x then pow2 2000 else if x < -1000 then 0 else expVal (x * ln2)
  | 1 => lnVal x / ln2
  | 2 => 1 / x
  | 3 => 1 / sqrtVal x
  | 4 => if 1000 < x then pow2 2000 else if x < -1000 then 0 else expVal x
  | 5 => sigmoidVal x
  | 6 => 2 * sigmoidVal (2 * x) - 1
  | 7 => x * sigmoidVal x
  | 8 => x * sigmoidVal (2 * sqrtTwoOverPi * (x + 44715 / 1000000 * (x * x * x)))
  | _ => if 100 < x then x else if x < -100 then 0 else lnVal (1 + expVal x)

/-- The factor n of the error bound (R208). -/
def transcUlps (fn : Nat) : Nat := match fn with
  | 0 | 1 => 2
  | 2 | 3 => 1
  | 4 => 3
  | _ => 4

/-- The error bound at an exact value: the larger of n × ulp(y) and 2^−30 (R208). -/
def transcBound (fn : Nat) (y : Rat) : Rat :=
  let a := if y < 0 then -y else y
  max (if a = 0 then 0 else (transcUlps fn : Rat) * pow2 (floorLog2 a - 23)) (pow2 (-30))

/-- A result of the transcendental unit at a finite input: a FREE VALUE within the bound, the same for the same input everywhere; results below
2^−126 become zero of their sign (R208). A free pattern outside the bound stands for the exact value rounded once. -/
def transcValue (fn : Nat) (x : Fp) : Fp :=
  let y := transcExact fn x.toRat
  let r := read32 (Config.transcendental fn x.to32.bits32).toNat
  let d := r.toRat - y
  if r.isFin && decide ((if d < 0 then -d else d) ≤ transcBound fn y) then r
  else if y = 0 then .fin (x.sign && (fn == 7 || fn == 8)) 0 else round32 y

/-- The transcendental functions of TVEC (codes 0x20 to 0x29, less 0x20) and of R153 codes 3 to 7 (R208, R209). -/
def transc (fn : Nat) (x : Fp) : Fp :=
  let one : Fp := .fin false 1
  match x with
  | .nan => .nan
  | .inf false => if fn = 5 ∨ fn = 6 then one else if fn = 2 ∨ fn = 3 then Fp.zero else .inf false
  | .inf true => match fn with
    | 1 | 3 => .nan
    | 6 => .fin true 1
    | 2 | 7 | 8 => .fin true 0
    | _ => Fp.zero
  | .fin s m =>
    if m < minNormal32 then (match fn with
      | 0 | 4 => one
      | 1 => .inf true
      | 2 => .inf s
      | 3 => .inf false
      | 5 => .fin false (1 / 2)
      | 9 => transcValue 9 Fp.zero
      | _ => Fp.zero)
    else if s && (fn = 1 || fn = 3) then .nan
    else transcValue fn (.fin s m)

end Sys2Proof.Machine
end

