-- ==== Sys2Proof/Machine/TileData.lean ====
section
/-! DEFINITION. Operand data of tile instructions: elements in tile memory with the hazard of R243, scales and predicates (R233 to R238), rescale
entries and activations (R151 to R153, R208, R209), conversions on write (R252) and what an instruction gathers as it runs. -/

namespace Sys2Proof.Machine

/-! ### Reading tile memory -/

/-- Units: quad q of OPE e is 5e + q, and the OPE in full mode 5e + 4; then the other units of R244. -/
def unitMv : Nat := 40
def unitDw : Nat := 41
def unitVec : Nat := 42
def unitCtx : Nat := 43
def unitDet : Nat := 44
def unitPort : Nat := 45

/-- What an instruction sees of its core. -/
structure View where
  k : Nat
  tm : Mem
  epoch : Nat
  acc : Map
  prog : Prog
  slots : List Nat
  tile : Tile
  preds : List (Nat × Nat)
  units : List Nat
  /-- The number of the next free value: it names the undefined data of this instruction (R243). -/
  fresh : Nat

/-- Storage names for free values: tile memory read too early, accumulators. -/
def spaceHazard (k : Nat) : Nat := 64 + k
def spaceAcc (k : Nat) : Nat := 128 + k

/-- Are two units an OPE and itself, or one of its quads: two of its quads run streams of their own (R190)? -/
def sameEngine (a b : Nat) : Bool := decide (a < unitMv) && a / 5 == b / 5 && (a == b || a % 5 == 4 || b % 5 == 4)
/-- Is TFUSE the instruction in flight: it is in the groups of the OPEs and of the vector engine (R243)? -/
def Flight.fused (f : Flight) : Bool := Nat.land f.groups 5 == 5
/-- Does an instruction on the given units start only after one in flight has completed: one OPE or quad works in order (R198, R243), and a TFUSE
holds all its units until it completes (R244)? -/
def Flight.before (f : Flight) (units : List Nat) : Bool :=
  f.units.any fun a => units.any fun b => sameEngine a b || (f.fused && a == b)

/-- Is a byte being written by an earlier instruction whose completion nothing orders before this one (R243)? -/
def View.hazard (v : View) (a : Nat) : Bool :=
  v.tile.flights.any fun f => !f.before v.units && f.ranges.any fun r => decide (r.1 ≤ a) && decide (a < r.1 + r.2)

/-- A byte of tile memory as the instruction reads it (R183, R243): undefined data is a FREE VALUE. -/
def View.byte (v : View) (a : Nat) : Byte :=
  if v.hazard a then Config.freeByte (spaceHazard v.k) v.fresh a
  else (v.tm.byte? a).getD (Config.freeByte (spaceTile v.k) v.epoch a)
/-- n bytes. -/
def View.read (v : View) (a n : Nat) : List Byte := (List.range n).map fun i => v.byte (a + i)
/-- An n-byte number. -/
def View.num (v : View) (a n : Nat) : Nat := ofLeBytes (v.read a n)
/-- An accumulator cell; undefined ones are FREE VALUES (R189). -/
def View.cell (v : View) (i : Nat) : Nat :=
  (sparseGet i v.acc).getD (ofLeBytes ((List.range 4).map fun b => Config.freeByte (spaceAcc v.k) v.epoch (4 * i + b)))

/-! ### Elements (R133, R233 to R238) -/

/-- The code of an element. -/
def View.code (v : View) (d c x : Nat) : Nat :=
  let a := dBase d + dChanOff d c + dPosOff d x
  if fmtBits (dFmt d) = 4 then (if c % dBlock d % 2 = 0 then (v.byte a).toNat % 16 else (v.byte a).toNat / 16)
  else v.num a (dElem d)

/-- Where the scale entry of an element lies, none for an unscaled format (R235). -/
def scaleAt (d c x : Nat) : Option Nat :=
  match dKind d with
  | 1 => some (dScale d + 2 * (x * ceilDiv (dC d) (max 1 (dG d)) + c / max 1 (dG d)))
  | 2 => some (dScale d + 16 + 4 * (c / max 1 (dG d)))
  | _ => none

/-- Scale and zero point of an element (R235). -/
def View.scaling (v : View) (d c x : Nat) : Scaling :=
  match scaleAt d c x with
  | none => ⟨0, 0, false⟩
  | some a =>
    if dKind d = 1 then ⟨v.num a 2, if fmtZero (dFmt d) then v.num (dZp d + (a - dScale d) / 2) 1 else 0, false⟩
    else ⟨v.num a 2, v.num (a + 2) 1, bitAt (v.num (a + 3) 1) 0⟩

/-- Is an index on under a predicate field (R238)? -/
def View.predOn (v : View) (f i : Nat) : Bool :=
  f == 0 || (match v.preds[f - 1]? with
    | some (lo, hi) => decide (lo ≤ i) && decide (i < hi)
    | none => false)
/-- Is a flat position on (R238)? -/
def View.on (v : View) (d x : Nat) : Bool := decide (x < dPositions d) && v.predOn (dPred1 d) (x % dX1 d) && v.predOn (dPred2 d) (x / dX1 d)

/-- A multiplier operand's element (R141); off positions read +0 (R238). -/
def View.x24 (v : View) (d c x : Nat) : Fp := if v.on d x then (expand (dFmt d) (v.scaling d c x) (v.code d c x)).1 else Fp.zero
/-- An element at its exact value (R261). -/
def View.exact (v : View) (d c x : Nat) : Fp := (exactValue (dFmt d) (v.scaling d c x) (v.code d c x)).1
/-- An operand of FP32 lanes: one below 2^−126 is read as zero of its sign (R144, R205). -/
def lane32 : Fp → Fp
  | .fin s m => if m < minNormal32 then .fin s 0 else .fin s m
  | x => x

/-- What reading a set of elements counts, each element once for the instruction: expansion counts and the invalid scale entries (R137, R138, R141). -/
def View.counts (v : View) (toX : Bool) (d : Nat) (cs xs : List Nat) : XCount × List Nat :=
  ((xs.dedup.filter (v.on d)).flatMap fun x => cs.dedup.map fun c => (c, x)).foldl (fun (acc : XCount × List Nat) e =>
    let k := v.scaling d e.1 e.2
    let r := if toX then expand (dFmt d) k (v.code d e.1 e.2) else exactValue (dFmt d) k (v.code d e.1 e.2)
    (acc.1.add r.2, if scalingBad (dFmt d) k then acc.2 ++ (scaleAt d e.1 e.2).toList else acc.2)) ({}, [])

/-! ### Rescale (R151 to R153) -/

/-- The activation of R153. -/
def activation (act : Nat) (param y : Fp) : Fp :=
  match y with
  | .nan => .nan
  | _ => match act with
    | 0 => y
    | 1 => if Fp.zero.lt y then y else Fp.zero
    | 2 => if Fp.zero.le y then y else y.mul32 param
    | a => transc (a + 2) y

/-- Rescale entry c of a slot at its address. -/
def View.entryAddr (v : View) (slot c : Nat) : Nat := rdBase (v.slots.getD slot 0) + 16 * c
/-- Is the entry invalid (R153): ACT above 7 or a reserved field that is not zero? -/
def View.entryBad (v : View) (slot c : Nat) : Bool := decide (8 ≤ v.num (v.entryAddr slot c + 14) 1) || v.num (v.entryAddr slot c + 15) 1 != 0

/-- Steps 1 to 3 of R152. DESIGN CHOICE (log entry 137): a clamp that holds a NaN clamps nothing. -/
def View.rescale (v : View) (slot c : Nat) (a : Fp) : Fp :=
  let e := v.entryAddr slot c
  let y := a.fma32 (read32 (v.num e 4)) (read32 (v.num (e + 4) 4))
  let z := activation (v.num (e + 14) 1) (fmtBf16.decode (v.num (e + 12) 2)) y
  let lo := fmtBf16.decode (v.num (e + 8) 2)
  let hi := fmtBf16.decode (v.num (e + 10) 2)
  match z with
  | .nan => .nan
  | _ =>
    let m := if z.lt lo then lo else z
    if hi.lt m then hi else m

/-! ### What an instruction gathers -/

/-- The effect of an instruction as it builds up. -/
structure Fx where
  tm : Mem
  acc : Map
  /-- Written byte ranges: address and length. -/
  ranges : List (Nat × Nat)
  x : XCount
  /-- Invalid scale entries met, by address. -/
  invalid : List Nat
  nonfinite : Nat
  staticSat : Nat
  vecSat : Nat
  macs : Nat
  loads : Nat
  stats : List (Nat × QStats)
  /-- The first resource fault: code, address, limit, repetition. -/
  fault : Option (Nat × Nat × Nat × Nat)

def View.fx (v : View) : Fx :=
  { tm := v.tm, acc := v.acc, ranges := [], x := {}, invalid := [], nonfinite := 0, staticSat := 0, vecSat := 0, macs := 0, loads := 0, stats := [],
    fault := none }

/-- Enter counted elements. -/
def Fx.count (f : Fx) (c : XCount × List Nat) : Fx := { f with x := f.x.add c.1, invalid := f.invalid ++ c.2 }
/-- Enter a fault where none stands. -/
def Fx.fail (f : Fx) (bad : Bool) (code addr rep : Nat) : Fx := if bad && f.fault.isNone then { f with fault := some (code, addr, 0, rep) } else f
/-- Write bytes. -/
def Fx.bytes (f : Fx) (a : Nat) (bs : List Byte) : Fx := { f with tm := f.tm.write a bs, ranges := f.ranges ++ [(a, bs.length)] }

/-- Store a code at an element (R133). -/
def Fx.code (f : Fx) (v : View) (d c x code : Nat) : Fx :=
  let a := dBase d + dChanOff d c + dPosOff d x
  if fmtBits (dFmt d) = 4 then
    let old := ((f.tm.byte? a).getD (v.byte a)).toNat
    f.bytes a [BitVec.ofNat 8 (if c % dBlock d % 2 = 0 then old / 16 * 16 + code % 16 else old % 16 + code % 16 * 16)]
  else f.bytes a (leBytes (dElem d) code)

/-- The value of an unscaled format (R146, R252): code and non-finite. -/
def plainCode (fmt : Nat) (w : Fp) : Nat × Bool :=
  match fmt with
  | 8 => (toBf16 w, false)
  | 9 => (toFp16 w, false)
  | 12 => (w.to32.bits32, false)
  | f =>
    let top : Int := if f = 11 then 65535 else 255
    match w with
    | .nan => (0, true)
    | .inf s => (if s then 0 else top.toNat, true)
    | .fin _ _ => ((max 0 (min top (roundInt w.toRat))).toNat, false)

/-- Write a value at an output element (R238, R252): an off position is left alone, or takes the zero code under PFILL. Statistics enter those of
the descriptor's tensor (R159). `g` is the tile's group. -/
def Fx.put (f : Fx) (v : View) (d c x : Nat) (off : Bool) (w : Fp) : Fx :=
  if decide (dC d ≤ c) || decide (dPositions d ≤ x) then f
  else
    let k := v.scaling d c x
    if off || !v.on d x then (if dPfill d then f.code v d c x (zeroCode (dFmt d) k) else f)
    else if fmtScaled (dFmt d) then
      let q := quantise (dFmt d) k w
      let f := { f with nonfinite := f.nonfinite + bit q.nonfinite, staticSat := f.staticSat + bit (q.sat && dKind d == 1)
                        invalid := if scalingBad (dFmt d) k && !k.zr then f.invalid ++ (scaleAt d c x).toList else f.invalid }
      let f := if dKind d = 2 then
          let t := dTensor d
          let cur := ((f.stats.find? fun p => p.1 == t).map Prod.snd).getD (QStats.empty v.tile.g v.tile.part2)
          { f with stats := (t, cur.enter (dFmt d) k (c / max 1 (dG d)) w q) :: f.stats.filter fun p => p.1 != t }
        else f
      f.code v d c x q.code
    else
      let (code, nf) := plainCode (dFmt d) w
      { f.code v d c x code with nonfinite := f.nonfinite + bit nf }

/-- A tracked descriptor's copy must serve the tile's group (R236): resource fault 0x08 otherwise. -/
def Fx.slotCheck (f : Fx) (v : View) (ds : List Nat) : Fx :=
  ds.foldl (fun (g : Fx) d => g.fail (dKind d == 2 && v.num (dScale d) 6 != v.tile.firstLsn) 8 (dScale d) 0) f

/-- The rescale entries of a slot that an instruction reads in a repetition must be valid (R153): resource fault 0x04 otherwise. -/
def Fx.entryCheck (f : Fx) (v : View) (use : Bool) (slot rep : Nat) (cs : List Nat) : Fx :=
  if use then cs.foldl (fun (g : Fx) c => g.fail (v.entryBad slot c) 4 (v.entryAddr slot c) rep) f else f

/-! ### What an instruction reads (R182, R238): off positions are not read -/

/-- The scale and zero point of an element. -/
def scaleCells (d c x : Nat) : List (Nat × Nat) :=
  match scaleAt d c x with
  | none => []
  | some a => if dKind d = 1 then (a, 2) :: (if fmtZero (dFmt d) then [(dZp d + (a - dScale d) / 2, 1)] else []) else [(a, 4)]
/-- The elements of an operand at the given channels and on positions, with their scales and zero points. -/
def View.elemCells (v : View) (d : Nat) (cs xs : List Nat) : List (Nat × Nat) :=
  (xs.dedup.filter (v.on d)).flatMap fun x => (cs.dedup.filter fun c => decide (c < dC d)).flatMap fun c =>
    (dBase d + dChanOff d c + dPosOff d x, dElem d) :: scaleCells d c x
/-- The scales and zero points of outputs. -/
def View.outCells (v : View) (d : Nat) (cs xs : List Nat) : List (Nat × Nat) :=
  (xs.dedup.filter (v.on d)).flatMap fun x => (cs.dedup.filter fun c => decide (c < dC d)).flatMap fun c => scaleCells d c x
/-- The LSNs of the slot copies of tracked descriptors (R236). -/
def slotCells (ds : List Nat) : List (Nat × Nat) := (ds.filter fun d => dKind d == 2).map fun d => (dScale d, 6)
/-- Rescale entries. -/
def View.entryCells (v : View) (use : Bool) (slot : Nat) (cs : List Nat) : List (Nat × Nat) := if use then cs.map fun c => (v.entryAddr slot c, 16) else []

end Sys2Proof.Machine
end

