-- ==== Sys2Proof/Machine/TileCompute.lean ====
section
/-! DEFINITION. What the compute instructions calculate (R184 to R190, R201 to R211, R249 to R262, R274): each takes the view of its core and the
instruction word, and gives its whole effect on tile memory, accumulators and counts. -/

namespace Sys2Proof.Machine

/-- Distinct numbers. -/
def uniq (l : List Nat) : List Nat := l.dedup

/-! ### Matrix products (R184 to R188, R250, R251) -/

/-- The accumulator cell of array row i and column n of an OPE and bank; a quad's rows and columns are its quarter (R190). -/
def accIx (ope bank : Nat) (quad : Option Nat) (i n : Nat) : Nat :=
  match quad with
  | none => ope * 2048 + bank * 1024 + i * 32 + n
  | some q => ope * 2048 + bank * 1024 + (16 * (q / 2) + i) * 32 + 16 * (q % 2) + n

/-- The B position of a step (R250, R251): the column's own, or that of its tap. -/
def mmBAt (p : Prog) (w x ky kx : Nat) : Option Nat :=
  if iOp w = 0x10 then some x else tapPos (p.desc (bits w 203 196)) (p.desc (bits w 211 204)) (convFields w) x ky kx

/-- The partial sum with which a cell starts (R185). -/
def mmStart (v : View) (w ix : Nat) (acc : Map) (row col : Nat) : Fp :=
  match bits w 224 223 with
  | 0 => Fp.zero
  | 1 => read32 ((sparseGet ix acc).getD (v.cell ix))
  | _ =>
    let dl := v.prog.desc (bits w 195 188)
    if v.on dl col && decide (row < dC dl) then read32 (v.code dl row col) else Fp.zero

/-- One cell of one repetition: all its steps in order (R144, R184). -/
def mmCell (v : View) (w : Nat) (start : Fp) (row col : Nat) : Fp :=
  let da := v.prog.desc (bits w 219 212)
  let db := v.prog.desc (bits w 211 204)
  (mmSteps w).foldl (fun (a : Fp) t =>
    let b := match mmBAt v.prog w col t.1 t.2.1 with
      | some x => v.x24 db t.2.2.2 x
      | none => Fp.zero
    a.add32 ((v.x24 da t.2.2.1 row).mulExact b)) start

/-- One repetition of a TMM or TCONV on physical OPE `ope`. -/
def mmRep (v : View) (w ope : Nat) (f : Fx) (j : Nat) : Fx :=
  let side := iSide w
  let quad := if bitAt w 228 then some (bits w 227 226) else none
  let bank := (bits w 225 225 + (if bitAt w 220 then j else 0)) % 2
  let da := v.prog.desc (bits w 219 212)
  let db := v.prog.desc (bits w 211 204)
  let dout := v.prog.desc (bits w 203 196)
  let f := { f with macs := f.macs + side * side * (mmSteps w).length, loads := f.loads + bit (bits w 224 223 == 2) }
  (List.range side).foldl (fun (f : Fx) i => (List.range side).foldl (fun (f : Fx) n =>
    let row := bits w 181 166 + j * bits w 89 74 + i
    let col := bits w 165 148 + j * bits w 107 90 + n
    let ix := accIx ope bank quad i n
    let a := mmCell v w (mmStart v w ix f.acc row col) row col
    let f := { f with acc := sparseSet ix (some a.bits32) f.acc }
    if bitAt w 222 then
      let off := !v.on da row || (iOp w == 0x10 && !v.on db col)
      f.put v dout row col off (if bitAt w 221 && !off then v.rescale (bits w 187 182) row a else a)
    else f) f) f

/-- The tracked descriptors that a TMM or TCONV uses (R236): DOUT only where it drains. -/
def mmSlots (p : Prog) (w : Nat) : List Nat :=
  [p.desc (bits w 219 212), p.desc (bits w 211 204)] ++ (if bitAt w 222 then [p.desc (bits w 203 196)] else [])
/-- Does it drain through its rescale slot? -/
def mmRescales (w : Nat) : Bool := bitAt w 222 && bitAt w 221
/-- The bytes that the first n repetitions of a TMM or TCONV may write: where it drains, the elements of DOUT in their windows (R250). -/
def View.mmWrites (v : View) (w n : Nat) : List (Nat × Nat) :=
  let dout := v.prog.desc (bits w 203 196)
  if (iOp w = 0x10 ∨ iOp w = 0x11) ∧ bitAt w 222 then
    (List.range n).flatMap fun j =>
      ((runOf (bits w 165 148 + j * bits w 107 90) (iSide w)).filter fun x => decide (x < dPositions dout)).flatMap fun x =>
        ((runOf (bits w 181 166 + j * bits w 89 74) (iSide w)).filter fun c => decide (c < dC dout)).map fun c =>
          (dBase dout + dChanOff dout c + dPosOff dout x, dElem dout)
  else []
/-- The rescale entries that repetition j reads: the channels of its on rows. -/
def View.mmEntries (v : View) (w j : Nat) : List Nat :=
  (runOf (bits w 181 166 + j * bits w 89 74) (iSide w)).filter fun m => v.on (v.prog.desc (bits w 219 212)) m && decide (m < dC (v.prog.desc (bits w 203 196)))

/-- TMM and TCONV. -/
def mmFx (v : View) (w ope : Nat) : Fx :=
  let p := v.prog
  let da := p.desc (bits w 219 212)
  let db := p.desc (bits w 211 204)
  let f := (List.range (bits w 115 108 + 1)).foldl (fun (f : Fx) j => f.entryCheck v (mmRescales w) (bits w 187 182) j (v.mmEntries w j))
    (v.fx.slotCheck v (mmSlots p w))
  if f.fault.isSome then f
  else
    let f := (f.count (v.counts true da ((mmSteps w).map fun t => t.2.2.1) (mmRows w))).count (v.counts true db ((mmSteps w).map fun t => t.2.2.2) (mmBPos p w (mmCols w)))
    (List.range (bits w 115 108 + 1)).foldl (fun (f : Fx) j => mmRep v w ope f j) f

/-! ### The fused pair (R253 to R256) -/

/-- Sum in increasing index from +0, one rounding each (R207). -/
def sum32 (l : List Fp) : Fp := l.foldl Fp.add32 Fp.zero
/-- Maximum ignoring NaN; the canonical NaN where no number stands (R207). -/
def max32 (l : List Fp) : Fp := l.foldl (fun m x => match m, x with
  | .nan, y => y
  | y, .nan => y
  | a, b => if a.lt b then b else a) .nan
/-- Minimum, likewise. -/
def min32 (l : List Fp) : Fp := l.foldl (fun m x => match m, x with
  | .nan, y => y
  | y, .nan => y
  | a, b => if b.lt a then b else a) .nan

/-- The row function (R255) on the values of the on columns, in order. -/
def rowFunction (softmax : Bool) (ys : List Fp) : List Fp :=
  if !softmax then ys
  else
    let mx := max32 ys
    let es := ys.map fun y => transc 4 (y.add32 mx.neg)
    let r := transc 2 (sum32 es)
    es.map fun e => e.mul32 r

/-- TFUSE on physical OPEs `opes`. -/
def fuseFx (v : View) (w : Nat) (opes : List Nat) : Fx :=
  let p := v.prog
  let da := p.desc (bits w 224 217)
  let db := p.desc (bits w 216 209)
  let dp := p.desc (bits w 208 201)
  let d2 := p.desc (bits w 200 193)
  let dout := p.desc (bits w 192 185)
  let n1 := bits w 138 130 + 1
  let n2 := bits w 111 103 + 1
  let k1 := runOf (bits w 102 87) (bits w 86 71 + 1)
  let rowOn := fun (i : Nat) => v.on da (bits w 172 157 + i)
  let cols := List.range n1
  let colOn := fun (n : Nat) => v.on db (bits w 156 139 + n)
  let rows := (List.range 32).filter rowOn
  let f := ((v.fx.slotCheck v [da, db, dp, d2, dout]).entryCheck v true (bits w 184 179) 0 rows).entryCheck v true (bits w 178 173) 0 rows
  if f.fault.isSome then f
  else
    let f := ((f.count (v.counts true da k1 (runOf (bits w 172 157) 32))).count (v.counts true db k1 (runOf (bits w 156 139) n1))).count
      (v.counts true d2 (runOf (bits w 70 55) n1) (runOf (bits w 129 112) n2))
    let pcode := fun (i : Nat) =>
      let ys := (cols.filter colOn).map fun n =>
        v.rescale (bits w 184 179) i (k1.foldl (fun (a : Fp) c => a.add32 ((v.x24 da c (bits w 172 157 + i)).mulExact (v.x24 db c (bits w 156 139 + n)))) Fp.zero)
      let ps := rowFunction (bits w 226 225 == 1) ys
      cols.map fun n => if rowOn i && colOn n then (plainCode (dFmt dp) (ps.getD ((cols.filter colOn).idxOf n) Fp.zero)).1 else 0
    let f := (List.range 32).foldl (fun (f : Fx) i =>
      (cols.zip (pcode i)).foldl (fun (f : Fx) nc => if v.on dp i && decide (nc.1 < dC dp) then f.code v dp nc.1 i nc.2
        else if dPfill dp && decide (nc.1 < dC dp) && decide (i < dPositions dp) then f.code v dp nc.1 i 0 else f) f) f
    let f := { f with macs := f.macs + 32 * n1 * k1.length + 32 * n2 * n1 }
    let f := (List.range 32).foldl (fun (f : Fx) i =>
      let px := (pcode i).map (expand (dFmt dp) ⟨0, 0, false⟩)
      let pv := px.map Prod.fst
      let f := f.count (px.foldl (fun (a : XCount) x => a.add x.2) {}, [])
      (List.range n2).foldl (fun (f : Fx) n =>
        let off := !rowOn i || !v.on d2 (bits w 129 112 + n)
        let o := (cols.zip pv).foldl (fun (a : Fp) jp => a.add32 (jp.2.mulExact (v.x24 d2 (bits w 70 55 + jp.1) (bits w 129 112 + n)))) Fp.zero
        let y := v.rescale (bits w 178 173) i o
        if bitAt w 54 then f.put v dout n i off y else f.put v dout i n off y) f) f
    -- Both banks of every OPE used are undefined afterwards (R256).
    { f with acc := f.acc.filter fun c => !opes.contains (c.1 / 2048) }

/-! ### Matrix-vector path (R201, R202, R258) -/

/-- Element (m, k) of the blocked weights, expanded (R202, R258). -/
def View.blocked (v : View) (d m k kn : Nat) : (Fp × XCount) × Option Nat :=
  let b := blockedBit (dFmt d) kn m k
  let a := dBase d + b / 8
  let code := if fmtBits (dFmt d) = 4 then (if b % 8 = 0 then (v.byte a).toNat % 16 else (v.byte a).toNat / 16) else v.num a (dElem d)
  let g := max 1 (dG d)
  let at_ := match dKind d with
    | 1 => some (dScale d + 2 * (m * ceilDiv kn g + k / g))
    | 2 => some (dScale d + 16 + 4 * (k / g))
    | _ => none
  let sc : Scaling := match at_ with
    | none => ⟨0, 0, false⟩
    | some e =>
      if dKind d = 1 then ⟨v.num e 2, if fmtZero (dFmt d) then v.num (dZp d + m * ceilDiv kn g + k / g) 1 else 0, false⟩
      else ⟨v.num e 2, v.num (e + 2) 1, bitAt (v.num (e + 3) 1) 0⟩
  (expand (dFmt d) sc code, if scalingBad (dFmt d) sc then at_ else none)

/-- TMV. -/
def mvFx (v : View) (w : Nat) : Fx :=
  let p := v.prog
  let da := p.desc (bits w 231 224)
  let db := p.desc (bits w 223 216)
  let dout := p.desc (bits w 215 208)
  let m := bits w 200 189 + 1
  let kn := bits w 188 173 + 1
  let vs := runOf (bits w 160 143) (bits w 172 161 + 1)
  let f := (v.fx.slotCheck v [da, db, dout]).entryCheck v (bitAt w 201) (bits w 207 202) 0 (List.range m)
  if f.fault.isSome then f
  else
    let f := f.count (v.counts true db (List.range kn) vs)
    let f := (List.range m).foldl (fun (f : Fx) r => (List.range kn).foldl (fun (f : Fx) k =>
      let e := v.blocked da r k kn
      f.count (e.1.2, e.2.toList)) f) f
    let f := { f with macs := f.macs + m * kn * vs.length }
    vs.foldl (fun (f : Fx) x => (List.range m).foldl (fun (f : Fx) r =>
      let a := (List.range kn).foldl (fun (a : Fp) k => a.add32 ((v.blocked da r k kn).1.1.mulExact (v.x24 db k x))) Fp.zero
      f.put v dout r x (!v.on db x) (if bitAt w 201 then v.rescale (bits w 207 202) r a else a)) f) f

/-! ### Depth-wise path (R210, R259, R274) -/

/-- TDW. -/
def dwFx (v : View) (w : Nat) : Fx :=
  let p := v.prog
  let din := p.desc (bits w 231 224)
  let dwt := p.desc (bits w 223 216)
  let dout := p.desc (bits w 215 208)
  let kw := bits w 196 193 + 1
  let taps := (List.range (bits w 200 197 + 1)).flatMap fun ky => (List.range kw).map fun kx => (ky, kx)
  let cs := runOf (bits w 168 153) (bits w 152 137 + 1)
  let xs := runOf (bits w 136 119) (bits w 118 101 + 1)
  let f := (v.fx.slotCheck v [din, dwt, dout]).entryCheck v (bitAt w 201) (bits w 207 202) 0 cs
  if f.fault.isSome then f
  else
    let ins := (xs.filter fun x => decide (x < dPositions dout)).flatMap fun x => taps.filterMap fun t => tapPos dout din (dwFields w) x t.1 t.2
    let f := (f.count (v.counts true din cs ins)).count (v.counts true dwt (List.range taps.length) cs)
    let f := { f with macs := f.macs + cs.length * xs.length * taps.length }
    xs.foldl (fun (f : Fx) x => cs.foldl (fun (f : Fx) c =>
      let a := taps.foldl (fun (a : Fp) t =>
        let i := match tapPos dout din (dwFields w) x t.1 t.2 with
          | some y => v.x24 din c y
          | none => Fp.zero
        a.add32 (i.mulExact (v.x24 dwt (t.1 * kw + t.2) c))) Fp.zero
      f.put v dout c x false (if bitAt w 201 then v.rescale (bits w 207 202) c a else a)) f) f

/-! ### The vector engine (R204 to R209, R260 to R262) -/

/-- Round to binary16 in the FP16 lanes (R206): the value, and whether it was limited. -/
def lane16 (x : Fp) : Fp × Bool :=
  match x with
  | .nan => (.nan, false)
  | .inf s => (.fin s 65504, true)
  | .fin s m =>
    let r := roundSig 11 (some (-14)) m
    if 65504 < r then (.fin s 65504, true) else (.fin s r, false)
/-- An FP16 lane operand: an infinity reads as ±65,504 (R206, R261). -/
def operand16 : Fp → Fp
  | .inf s => .fin s 65504
  | x => x

/-- Exact a + b for the FP16 lanes. -/
def addExact : Fp → Fp → Fp
  | .fin s m, .fin t n => if m = 0 ∧ n = 0 then .fin (s && t) 0 else Fp.ofRat ((Fp.fin s m).toRat + (Fp.fin t n).toRat)
  | a, b => a.add32 b

/-- Minimum or maximum of two operands; a NaN operand gives a NaN (R205). -/
def minMax (mx : Bool) (a b : Fp) : Fp :=
  match a, b with
  | .nan, _ => .nan
  | _, .nan => .nan
  | a, b => if mx then (if a.lt b then b else a) else (if b.lt a then b else a)

/-- A comparison (R260): EQ, NE, LT, LE, GT, GE. -/
def compare (cond : Nat) (a b : Fp) : Bool :=
  match cond with
  | 0 => a.eqv b
  | 1 => !a.eqv b
  | 2 => a.lt b
  | 3 => a.le b
  | 4 => b.lt a
  | _ => b.le a

/-- The exact result of an elementwise operation, before its rounding (R260). -/
def vopExact (h : Bool) (op cond : Nat) (a b c : Fp) : Fp :=
  let add := fun x y => if h then addExact x y else Fp.add32 x y
  match op with
  | 0x01 => add a b
  | 0x02 => add a b.neg
  | 0x03 => a.mulExact b
  | 0x04 => add (a.mulExact b) c
  | 0x05 => minMax false a b
  | 0x06 => minMax true a b
  | 0x07 => a.abs
  | 0x08 => a.neg
  | 0x09 => if compare cond a b then .fin false 1 else Fp.zero
  | 0x0A => if a.eqv Fp.zero then c else b
  | 0x0B => a
  | o => transc (o - 0x20) a

/-- An elementwise result, rounded in its lanes (R205, R206). -/
def vop (h : Bool) (op cond : Nat) (a b c : Fp) : Fp × Bool :=
  if h then lane16 (vopExact true op cond (operand16 a) (operand16 b) (operand16 c)) else ((vopExact false op cond a b c).to32, false)

/-- An element as the lanes of a TVEC take it: FP32 lanes read a subnormal as zero (R205, R261). -/
def View.lane (v : View) (h : Bool) (d c x : Nat) : Fp := if h then v.exact d c x else lane32 (v.exact d c x)

/-- A source of TVEC at an output element: broadcast along extents of 1 (R261); 0xFF is IMM. -/
def View.source (v : View) (w ix c x : Nat) : Fp :=
  if ix = 0xFF then read32 (bits w 190 159)
  else
    let d := v.prog.desc ix
    v.lane (bitAt w 223) d (if dC d = 1 then 0 else c) (if dPositions d = 1 then 0 else x)

/-- Is an output position off because a source position is (R238)? -/
def View.sourceOff (v : View) (ixs : List Nat) (x : Nat) : Bool :=
  ixs.any fun ix => ix != 0xFF && (let d := v.prog.desc ix; !v.on d (if dPositions d = 1 then 0 else x))

/-- A reduction in its lanes (R206, R207): sum, maximum, minimum, and how often a result was limited. -/
def reduce (h : Bool) (op : Nat) (l : List Fp) : Fp × Nat :=
  let l := if h then l.map operand16 else l
  let out := fun (x : Fp) => if h then ((lane16 x).1, bit (lane16 x).2) else (x, 0)
  match op with
  | 0x10 => if h then l.foldl (fun (a : Fp × Nat) x => let r := lane16 (addExact a.1 x); (r.1, a.2 + bit r.2)) (Fp.zero, 0) else (sum32 l, 0)
  | 0x11 => out (max32 l)
  | _ => out (min32 l)

/-- TVEC. -/
def vecFx (v : View) (w : Nat) : Fx :=
  let p := v.prog
  let op := bits w 231 224
  let h := bitAt w 223
  let dst := p.desc (bits w 222 215)
  let ixs := [bits w 214 207, bits w 206 199, bits w 198 191].take ((vopSources op).getD 0)
  let srcs := (ixs.filter (· != 0xFF)).map p.desc
  let f := v.fx.slotCheck v (dst :: srcs)
  if f.fault.isSome then f
  else
    let f := srcs.foldl (fun (f : Fx) d => f.count (v.counts false d (List.range (dC d)) (List.range (dPositions d)))) f
    if decide (0x10 ≤ op) && decide (op ≤ 0x12) then
      let d := p.desc (ixs.headD 0)
      let imm := ixs.headD 0 == 0xFF
      if bitAt w 155 then
        (List.range (dC dst)).foldl (fun (f : Fx) c =>
          let xs := if imm then [0] else (List.range (dPositions d)).filter (v.on d)
          let r := reduce h op (xs.map fun x => if imm then read32 (bits w 190 159) else v.lane h d (if dC d = 1 then 0 else c) x)
          { f.put v dst c 0 false r.1 with vecSat := f.vecSat + (if v.on dst 0 then r.2 else 0) }) f
      else
        (List.range (dPositions dst)).foldl (fun (f : Fx) x =>
          let y := if dPositions d = 1 then 0 else x
          let off := (!imm && !v.on d y) || !v.on dst x
          let r := if off then (Fp.zero, 0) else reduce h op (if imm then [read32 (bits w 190 159)] else (List.range (dC d)).map fun c => v.lane h d c y)
          { f.put v dst 0 x off r.1 with vecSat := f.vecSat + r.2 }) f
    else
      (List.range (dPositions dst)).foldl (fun (f : Fx) x => (List.range (dC dst)).foldl (fun (f : Fx) c =>
        let off := v.sourceOff ixs x || !v.on dst x
        let r := if off then (Fp.zero, false) else
          vop h op (bits w 158 156) (v.source w (ixs.getD 0 0xFF) c x) (v.source w (ixs.getD 1 0xFF) c x) (v.source w (ixs.getD 2 0xFF) c x)
        { f.put v dst c x off r.1 with vecSat := f.vecSat + bit r.2 }) f) f

/-- TQNT. -/
def qntFx (v : View) (w : Nat) : Fx :=
  let p := v.prog
  let src := p.desc (bits w 231 224)
  let dst := p.desc (bits w 223 216)
  let re := bits w 209 208 == 0
  let f := (v.fx.slotCheck v [src, dst]).entryCheck v re (bits w 215 210) 0 (List.range (dC src))
  if f.fault.isSome then f
  else
    let f := f.count (v.counts (!re) src (List.range (dC src)) (List.range (dPositions src)))
    (List.range (dPositions src)).foldl (fun (f : Fx) x => (List.range (dC src)).foldl (fun (f : Fx) c =>
      let off := !v.on src x
      let y := if off then Fp.zero else if re then v.rescale (bits w 215 210) c (v.exact src c x) else v.x24 src c x
      f.put v dst c x off y) f) f

/-! ### The tile memory that an instruction reads (R182, R238) -/

/-- Repetition j of a TMM or TCONV. -/
def View.mmReads (v : View) (w j : Nat) : List (Nat × Nat) :=
  let p := v.prog
  let da := p.desc (bits w 219 212)
  let db := p.desc (bits w 211 204)
  let dout := p.desc (bits w 203 196)
  let rows := runOf (bits w 181 166 + j * bits w 89 74) (iSide w)
  let cols := runOf (bits w 165 148 + j * bits w 107 90) (iSide w)
  let bs := if iOp w = 0x10 then cols else cols.flatMap fun x => (mmSteps w).filterMap fun t => mmBAt p w x t.1 t.2.1
  v.elemCells da ((mmSteps w).map fun t => t.2.2.1) rows ++ v.elemCells db ((mmSteps w).map fun t => t.2.2.2) bs ++
  (if bits w 224 223 = 2 then v.elemCells (p.desc (bits w 195 188)) rows cols else []) ++
  (if bitAt w 222 then v.outCells dout (rows.filter (v.on da)) cols else []) ++ v.entryCells (mmRescales w) (bits w 187 182) (v.mmEntries w j)

/-- The weights of a TMV with their scales. -/
def blockedReads (d m kn : Nat) : List (Nat × Nat) :=
  (List.range m).flatMap fun r => (List.range kn).flatMap fun k =>
    let g := max 1 (dG d)
    let e := r * ceilDiv kn g + k / g
    (dBase d + blockedBit (dFmt d) kn r k / 8, dElem d) :: (match dKind d with
      | 1 => (dScale d + 2 * e, 2) :: (if fmtZero (dFmt d) then [(dZp d + e, 1)] else [])
      | 2 => [(dScale d + 16 + 4 * (k / g), 4)]
      | _ => [])

/-- All elements of an operand on its on positions. -/
def View.allCells (v : View) (d : Nat) : List (Nat × Nat) := v.elemCells d (List.range (dC d)) (List.range (dPositions d))
/-- The anchor table of a TDET (R284): its first 16 bytes, and 4 bytes per anchor where its head has channels for them. -/
def View.anchorCells (v : View) (w a : Nat) : List (Nat × Nat) := (a, 16) :: (if v.num (a + 4) 1 ≤ detAnchors v.prog w then [(a + 16, 4 * v.num (a + 4) 1)] else [])

/-- What an instruction reads, by repetition: address and length. Transfers and TCTX are not among them. -/
def View.reads (v : View) (w : Nat) : List (Nat × List (Nat × Nat)) :=
  let p := v.prog
  match iOp w with
  | 0x10 | 0x11 => (0, slotCells (mmSlots p w)) :: (List.range (bits w 115 108 + 1)).map fun j => (j, v.mmReads w j)
  | 0x12 =>
    let da := p.desc (bits w 224 217)
    let db := p.desc (bits w 216 209)
    let d2 := p.desc (bits w 200 193)
    let dout := p.desc (bits w 192 185)
    let k1 := runOf (bits w 102 87) (bits w 86 71 + 1)
    let n2 := bits w 111 103 + 1
    let rows := (List.range 32).filter fun i => v.on da (bits w 172 157 + i)
    [(0, slotCells [da, db, d2, dout] ++ v.elemCells da k1 (runOf (bits w 172 157) 32) ++ v.elemCells db k1 (runOf (bits w 156 139) (bits w 138 130 + 1)) ++
      v.elemCells d2 (runOf (bits w 70 55) (bits w 138 130 + 1)) (runOf (bits w 129 112) n2) ++
      (if bitAt w 54 then v.outCells dout (List.range n2) rows else v.outCells dout rows (List.range n2)) ++
      v.entryCells true (bits w 184 179) rows ++ v.entryCells true (bits w 178 173) rows)]
  | 0x13 =>
    let da := p.desc (bits w 231 224)
    let db := p.desc (bits w 223 216)
    let dout := p.desc (bits w 215 208)
    let m := bits w 200 189 + 1
    let kn := bits w 188 173 + 1
    let vs := runOf (bits w 160 143) (bits w 172 161 + 1)
    [(0, slotCells [da, db, dout] ++ blockedReads da m kn ++ v.elemCells db (List.range kn) vs ++ v.outCells dout (List.range m) vs ++
      v.entryCells (bitAt w 201) (bits w 207 202) (List.range m))]
  | 0x14 =>
    let din := p.desc (bits w 231 224)
    let dwt := p.desc (bits w 223 216)
    let dout := p.desc (bits w 215 208)
    let kw := bits w 196 193 + 1
    let taps := (List.range (bits w 200 197 + 1)).flatMap fun ky => (List.range kw).map fun kx => (ky, kx)
    let cs := runOf (bits w 168 153) (bits w 152 137 + 1)
    let xs := (runOf (bits w 136 119) (bits w 118 101 + 1)).filter fun x => decide (x < dPositions dout)
    [(0, slotCells [din, dwt, dout] ++ v.elemCells din cs (xs.flatMap fun x => taps.filterMap fun t => tapPos dout din (dwFields w) x t.1 t.2) ++
      v.elemCells dwt (List.range taps.length) cs ++ v.outCells dout cs xs ++ v.entryCells (bitAt w 201) (bits w 207 202) cs)]
  | 0x18 =>
    let dst := p.desc (bits w 222 215)
    let srcs := (([bits w 214 207, bits w 206 199, bits w 198 191].take ((vopSources (bits w 231 224)).getD 0)).filter (· != 0xFF)).map p.desc
    [(0, slotCells (dst :: srcs) ++ srcs.flatMap v.allCells ++ v.outCells dst (List.range (dC dst)) (List.range (dPositions dst)))]
  | 0x19 =>
    let src := p.desc (bits w 231 224)
    let dst := p.desc (bits w 223 216)
    [(0, slotCells [src, dst] ++ v.allCells src ++ v.outCells dst (List.range (dC dst)) (List.range (dPositions dst)) ++
      v.entryCells (bits w 209 208 == 0) (bits w 215 210) (List.range (dC src)))]
  | 0x21 =>
    let d := p.desc (bits w 227 220)
    [(0, slotCells [d] ++ v.anchorCells w (dBase (p.desc (bits w 219 212))) ++ v.elemCells d (List.range (dC d)) (List.range (bits w 211 196 + 1)))]
  | _ => []

end Sys2Proof.Machine
end

