-- ==== Sys2Proof/Machine/TileOps.lean ====
section
/-! DEFINITION. The sequencer and what every tile instruction shares (R199, R200, R213, R216, R241 to R248, R266, R273): issue, abandonment,
completion, addresses in Oasis, and the start of a tile. -/

namespace Sys2Proof.Machine

/-- Raise CORE_INT_STATUS bits with their status event (R227). -/
def State.coreStatus (s : State) (k : CoreIx) (b : Nat) : State := s.raiseStatus (.core k) b 3 k 0xFF 0

/-- PARK changes (R218): an idle core parks at once. -/
def State.parkEffect (s : State) (k : CoreIx) : State :=
  if s.odFlag (Od.corePark k) then
    if (s.core k).tile.isNone && (s.core k).job.isNone then s.coreIdle k else s
  else s.modCore k fun c => { c with parked := false }

/-- The tile that a core runs and the word of its next instruction; none while it waits or runs none. -/
def State.nextInstr (s : State) (k : CoreIx) : Option (Tile × Prog × Nat) :=
  match (s.core k).tile, (s.core k).prog with
  | some t, some (_, p) => if t.pc < Prog.instrCount p then some (t, p, Prog.instr p t.pc) else none
  | _, _ => none

/-- The OPEs among which a core counts logical ones: those in service, or those that were when its tile was drawn (DEDUCED, log entry 141). -/
def Core.mapped (c : Core) : BitVec 8 := match c.tile with
  | some t => t.opes
  | none => c.opes
/-- The physical OPE of a logical one: the (i + 1)-th in service (R192). -/
def Core.physical (c : Core) (i : Nat) : Nat := (((List.range 8).filter fun e => c.mapped.getLsbD e)).getD i 0

/-- The OPEs of a TFUSE. -/
def Core.fuseOpes (c : Core) (w : Nat) : List Nat := (List.range (2 ^ bits w 228 227)).map fun u => c.physical (bits w 231 229 + u)

/-- The units of an instruction; sequencer instructions do not queue (R244). -/
def Core.unitsOf (c : Core) (w : Nat) : List Nat :=
  match iOp w with
  | 0x01 | 0x02 => [unitPort]
  | 0x10 | 0x11 => [5 * c.physical (bits w 231 229) + (if bitAt w 228 then bits w 227 226 else 4)]
  | 0x12 => (c.fuseOpes w).map (fun o => 5 * o + 4) ++ [unitVec]
  | 0x13 => [unitMv]
  | 0x14 => [unitDw]
  | 0x18 | 0x19 => [unitVec]
  | 0x20 => [unitCtx]
  | 0x21 => [unitDet]
  | _ => []

/-- Queue depths (R244). -/
def unitDepth (u : Nat) : Nat :=
  if u = unitVec ∨ u = unitCtx then 4 else if u = unitPort then 16 else 2

/-- The instructions of a unit that must have completed for another to find queue room (R241, R244): all but the youngest, one fewer than the
depth. -/
def Tile.before (t : Tile) (u : Nat) : List Flight :=
  let l := t.flights.filter fun f => f.units.contains u
  l.take (l.length + 1 - unitDepth u)
/-- Do the units have queue room? An instruction that is known to be incomplete keeps its place, with those behind it. -/
def Tile.room (t : Tile) (us : List Nat) : Bool := us.all fun u => (t.before u).all fun f => !f.waits
/-- Has an instruction in flight completed, since its unit takes another? A drain may outlast its instruction's place in the queue (log entry 48). -/
def Tile.passed (t : Tile) (us : List Nat) (f : Flight) : Bool :=
  us.any fun u => (t.before u).contains f && !(decide (u < unitMv) && t.draining.any fun d => d.1 == u / 5)

/-- The dependence groups of an instruction (R243), as DEP bits. -/
def iGroups (w : Nat) : Nat :=
  128 + (match iOp w with
    | 0x10 | 0x11 => 1
    | 0x12 => 1 + 4
    | 0x13 => 2
    | 0x18 | 0x19 => 4
    | 0x14 => 8
    | 0x20 => 16
    | 0x21 => 32
    | 0x01 | 0x02 => 64
    | _ => 0)

/-- Does the phase rule let an instruction issue (R213, R242)? The first instruction of a class sets the phase. -/
def phaseOk (ph : CorePhase) (c : IClass) : Bool :=
  match ph, c with
  | _, .neutral => true
  | .idle, _ => true
  | .load, .load => true
  | .compute, .compute => true
  | .writeout, .writeout => true
  | _, _ => false

/-- The phase of a class. -/
def phaseOf (ph : CorePhase) : IClass → CorePhase
  | .load => .load
  | .compute => .compute
  | .writeout => .writeout
  | .neutral => ph

/-- May the next instruction issue, as far as its DEP mask goes (R243)? Drains, multicast copies and context requests end by commands of their own. -/
def Tile.depOk (t : Tile) (w : Nat) : Bool :=
  let d := iDep w
  !((bitAt d 0 || bitAt d 7) && !t.draining.isEmpty) && t.flights.all fun f => !f.waits || Nat.land f.groups d == 0
/-- Can every instruction in flight have completed? -/
def Tile.settled (t : Tile) : Bool := t.draining.isEmpty && t.flights.all fun f => !f.waits

/-- Instructions complete: they are no longer in flight, and the regions that they filled become valid (R199). -/
def State.retire (s : State) (k : CoreIx) (p : Flight → Bool) : State := s.modCore k fun c =>
  match c.tile with
  | none => c
  | some t =>
    let new := ((t.flights.filter p).flatMap fun f => f.regions).map fun r => (t.tag, r)
    { c with tile := some { t with flights := t.flights.filter fun f => !p f }
             resident := new.foldl (fun l r => if l.contains r then l else r :: l) c.resident }

/-- Run the core's next instruction where it is of the named opcode, nothing holds the core, the phase and dependence rules let it issue, and its
units have queue room (R241). The instructions that its DEP mask names, and those whose place in a queue it takes, have then completed. -/
def State.issue (s : State) (k : CoreIx) (op : Nat) (f : State → Tile → Prog → Nat → State) : State :=
  match s.nextInstr k with
  | none => s
  | some (t, p, w) =>
    let us := (s.core k).unitsOf w
    if iOp w != op || t.wait.isSome || !phaseOk (s.core k).phase (opClass op) || !t.depOk w || !t.room us then s
    else
      let s := (s.retire k fun g => Nat.land g.groups (iDep w) != 0 || t.passed us g).modCore k fun c => { c with phase := phaseOf c.phase (opClass op) }
      match (s.core k).tile with
      | none => s
      | some t => f s t p w

/-- The instruction is done as far as the sequencer goes. -/
def State.advance (s : State) (k : CoreIx) : State := s.modTile k fun t => { t with pc := t.pc + 1, wait := none }
/-- It has issued to its unit, where it is in flight. -/
def State.launch (s : State) (k : CoreIx) (w : Nat) (us : List Nat) (ranges regions : List (Nat × Nat)) (waits : Bool) : State :=
  (s.modTile k fun t => { t with flights := t.flights ++ [⟨t.pc, iGroups w, us, ranges, regions, waits⟩] }).advance k

/-- What an instruction sees of its core (R243). -/
def State.view (s : State) (k : CoreIx) (t : Tile) (p : Prog) (units : List Nat) : View :=
  let c := s.core k
  { k := k, tm := c.tm, epoch := c.epoch, acc := c.acc, prog := p, slots := c.slots, tile := t, preds := c.preds, units := units, fresh := s.freeCtr }

/-- Writes have changed tile memory: errors in the words that they overwrote are gone (R182). -/
def Core.writeTm (c : Core) (tm : Mem) (rs : List (Nat × Nat)) : Core :=
  { c with tm := tm, tmPoison := rs.foldl (fun l r => clearBad r.1 r.2 l) c.tmPoison, tmSingle := rs.foldl (fun l r => clearBad r.1 r.2 l) c.tmSingle }

/-! ### Abandonment (R216, R273) -/

/-- What a fault record says of the offending instruction (R273): OPCODE, INDEX, UNIT and REPEAT. -/
structure Blame where
  op : Nat
  index : Nat
  unit : Nat
  rep : Nat

/-- No instruction is at fault; a physical OPE may be. -/
def noBlame (unit : Nat) : Blame := ⟨0xFF, 0xFFFF, unit, 0⟩
/-- An instruction at an index of the program, in a repetition. -/
def Core.blame (c : Core) (index w rep : Nat) : Blame :=
  ⟨iOp w, index, if iOp w = 0x10 ∨ iOp w = 0x11 then c.physical (bits w 231 229) + 8 * bits w 227 226 + 32 else 0, rep⟩

/-- The core stops its tile, clears its resident regions and writes a fault record (R216, R273). Drains and transfers in flight are discarded: what
has landed of them is not known. The lease goes on. -/
def State.abandon (s : State) (k : CoreIx) (cls code addr limit : Nat) (b : Blame) : State :=
  match (s.core k).tile with
  | none => s
  | some t =>
    let body := faultBody k cls code b.op t.tag b.index t.tsn t.stripe b.unit b.rep addr limit
    let s := (s.countOd (Od.coreTilesAbandoned k) 1).raiseInt (.core k) 1
    let s := s.eventAt t.firstLsn 3 2 body
    let s := if t.staged.isEmpty then s else s.count32 Reg.ctxDiscarded 1
    let s := s.modCore k fun c => { c with tm := c.tm.undefine t.inFlight, resident := [], acc := [], accPoison := [], epoch := c.epoch + 1 }
    ((s.leaveRounds k).modWellTile t fun x => x.endInst t.tsn).coreIdle k

/-- The resident regions that hold an uncorrectable error lose their validity (R200). -/
def Core.dropAt (c : Core) (a : Nat) : Core :=
  { c with resident := c.resident.filter fun r => decide (a + 8 ≤ r.2.1) || decide (r.2.1 + r.2.2 ≤ a) }
/-- An uncorrectable tile memory error of a core is counted; 16 within 1 s take it out of service, and its regions lose their validity (R182, R200). -/
def State.tmUncorrectable (s : State) (k : CoreIx) : State :=
  let s := (s.count64 (Reg.coreTmUncorr k) 1).coreStatus k 2
  let recent := ((s.core k).uncorr.filter fun d => decide (s.dt < d + 1000000000)) ++ [s.dt]
  let s := s.modCore k fun c => { c with uncorr := recent }
  if 16 ≤ recent.length then (s.modCore k fun c => { c with failed := true, resident := [] }).coreStatus k 0x10 else s

/-- Words of tile memory with a single-bit error that reads touch are corrected in the data and counted, each once for the instruction (R182); there is
one event per core and line group (R227), here group g of the given first LSN. -/
def State.tmCorrectedAt (s : State) (k : CoreIx) (g : Int) (lsn : Nat) (cells : List (Nat × Nat)) : State :=
  let ws := (((s.core k).tmSingle.map fun b => b / 8).dedup.filter fun u => cells.any fun r => decide (u * 8 < r.1 + r.2) && decide (r.1 < (u + 1) * 8))
  if ws.isEmpty then s
  else
    let s := s.count64 (Reg.coreTmCorrected k) ws.length
    let key := 2 ^ 59 + k.val
    if s.cmd.lastEvent.told key g then s.raiseInt (.core k) 0x40
    else (s.modCmd fun u => { u with lastEvent := u.lastEvent.tell key g }).raiseStatusAt lsn (.core k) 0x40 3 k 0xFF 0
/-- The same, for reads of a tile. -/
def State.tmCorrected (s : State) (k : CoreIx) (t : Tile) (cells : List (Nat × Nat)) : State := s.tmCorrectedAt k t.g t.firstLsn cells

/-! ### Completing a compute instruction -/

/-- Banks that an instruction leaves draining (R187, R188). -/
def Core.drains (c : Core) (w : Nat) : List (Nat × Nat × Nat) :=
  if (iOp w = 0x10 ∨ iOp w = 0x11) ∧ bitAt w 222 then
    let o := c.physical (bits w 231 229)
    let q := if bitAt w 228 then bits w 227 226 else 4
    let b := bits w 225 225
    if bitAt w 220 && bits w 115 108 != 0 then [(o, q, b), (o, q, 1 - b)] else [(o, q, b)]
  else []

/-- The accumulator cells that an instruction writes whole: those of the OPE or quad of a matrix product in the banks of its repetitions (R185, R186), and
both banks of every OPE of a fused pair (R256). A parity error in them is gone (R189). -/
def Core.accWritten (c : Core) (w i : Nat) : Bool :=
  if iOp w = 0x10 ∨ iOp w = 0x11 then
    i / 2048 == c.physical (bits w 231 229) && (!bitAt w 228 || 2 * (i % 1024 / 512) + i % 32 / 16 == bits w 227 226) &&
      (i / 1024 % 2 == bits w 225 225 || (bitAt w 220 && bits w 115 108 != 0))
  else iOp w == 0x12 && (c.fuseOpes w).contains (i / 2048)

/-- The effect of an instruction: its writes stand, and its counts are entered. -/
def State.applyFx (s : State) (k : CoreIx) (w : Nat) (f : Fx) : State :=
  let s := s.countQ { x := f.x, invalid := f.invalid.dedup.length, nonfinite := f.nonfinite, staticSat := f.staticSat }
  let s := ((s.count64 (Reg.coreMacCount k) f.macs).count64 (Reg.coreStationaryLoads k) f.loads).count64 (Reg.coreVecSat k) f.vecSat
  let d := (s.core k).drains w
  let s := s.modCore k fun c => { c.writeTm f.tm f.ranges with
    acc := f.acc, accPoison := c.accPoison.filter fun i => !c.accWritten w i }
  let s := { s with freeCtr := s.freeCtr + 1 }
  s.modTile k fun x => { x with
    draining := x.draining ++ d
    stats := f.stats.foldl (fun l p => match l.find? fun q => q.1 == p.1 with
      | some q => (p.1, { q.2.fold p.2 with tiles := 0 }) :: l.filter fun r => r.1 != p.1
      | none => l ++ [p]) x.stats }

/-- The first word with an uncorrectable error that reads touch: repetition and address (R182). -/
def State.readsPoison (s : State) (k : CoreIx) (reads : List (Nat × List (Nat × Nat))) : Option (Nat × Nat) :=
  if (s.core k).tmPoison.isEmpty then none
  else reads.findSome? fun r => r.2.findSome? fun q =>
    ((s.core k).tmPoison.find? fun b => touches 8 q.1 q.2 [b]).map fun b => (r.1, b / 8 * 8)

/-- Those that a compute instruction moves: refused bank requests, and for matrix products the stalls, the waits for banks and the fill of gaps, the last
only while sand fill runs (R221). -/
def computeStalls (k : CoreIx) (fill : Bool) (op : Nat) : List Nat :=
  if op = 0x10 ∨ op = 0x11 ∨ op = 0x12 then
    [Reg.coreBankConflicts k, Reg.corePartialStall k, Reg.coreFullStall k, Reg.coreDrainWait k] ++ (if fill then [Reg.coreSandCycles k] else [])
  else [Reg.coreBankConflicts k]

/-- Tracked descriptors of an instruction need their group's slot (R161). -/
def State.needTracked (s : State) (t : Tile) (p : Prog) (w : Nat) : State :=
  (iDescs w).foldl (fun (u : State) x => let d := p.desc x.1
    if x.1 != 0xFF && dKind d == 2 then u.needSlot (dTensor d) t.g else u) s

/-- The first repetition in which a KEEP reads an accumulator cell of its OPE or quad that holds a parity error (R189): repetition 0 works on BANK,
and with TOGGLE repetition 1 on the other. -/
def State.readsParity (s : State) (k : CoreIx) (w : Nat) : Option Nat :=
  if (iOp w = 0x10 ∨ iOp w = 0x11) ∧ bits w 224 223 = 1 then
    let here := fun (i bank : Nat) => i / 2048 == (s.core k).physical (bits w 231 229) && i / 1024 % 2 == bank &&
      (!bitAt w 228 || 2 * (i % 1024 / 512) + i % 32 / 16 == bits w 227 226)
    let b := bits w 225 225
    if (s.core k).accPoison.any fun i => here i b then some 0
    else if bitAt w 220 && bits w 115 108 != 0 && (s.core k).accPoison.any fun i => here i (1 - b) then some 1
    else none
  else none

/-- What an abandoning instruction may have written is not known: those bytes too are undefined (R216). -/
def State.undefineTm (s : State) (k : CoreIx) (rs : List (Nat × Nat)) : State := s.modCore k fun c => { c with tm := c.tm.undefine rs }

/-- Run a compute instruction: errors of its memories first, then its resource faults, then its effect (R271). What it may have written by then is
undefined (R216): up to the repetition of an error that it reads, and in the repetitions before the one with a resource fault. -/
def State.compute (s : State) (k : CoreIx) (t : Tile) (p : Prog) (w index : Nat) (v : View) (reads : List (Nat × List (Nat × Nat))) (f : View → Fx) : State :=
  let s := s.tmCorrected k t (reads.flatMap Prod.snd)
  match s.readsPoison k reads with
  | some (rep, a) => ((s.undefineTm k ((f v).ranges ++ v.mmWrites w (rep + 1))).tmUncorrectable k).abandon k 4 0 a 0 ((s.core k).blame index w rep)
  | none =>
    match s.readsParity k w with
    | some rep =>
      (((((s.undefineTm k ((f v).ranges ++ v.mmWrites w (rep + 1))).count64 (Reg.coreAccParity k) 1).coreStatus k 4).abandon k 5 0 0 0
        ((s.core k).blame index w rep)).trimDue 0 (8 * k + (s.core k).physical (bits w 231 229)) 0 false)
    | none =>
      let s := s.needTracked t p w
      let x := f v
      match x.fault with
      | some (code, a, l, rep) => (s.undefineTm k (v.mmWrites w rep)).abandon k 2 code a l ((s.core k).blame index w rep)
      | none => (s.applyFx k w x).countFree (computeStalls k (s.sandTop != 0) (iOp w))

/-- Run the next instruction on its unit, where it is then in flight. -/
def State.runFx (s : State) (k : CoreIx) (t : Tile) (p : Prog) (w : Nat) (f : View → Fx) : State :=
  let us := (s.core k).unitsOf w
  let v := s.view k t p us
  (s.compute k t p w t.pc v (v.reads w) f).launch k w us (f v).ranges [] false

/-! ### Oasis addresses of transfers (R246, R345, R378) -/

/-- Base and span of an argument slot of a job: a region, or the slot ring of its stream; none where it is unbound. -/
def State.argSpan (s : State) (tag : Nat) (i : Nat) : Option (Nat × Nat) :=
  match (s.jobOf tag).bind fun j => j.args[i]? with
  | some a =>
    if a.kind = 1 then some (a.addr, a.len)
    else if a.kind = 2 then (s.cmd.streams.find? fun x => x.tag == tag && x.arg == i).map fun x => (x.base, x.nslots * x.slotBytes)
    else none
  | none => none

/-- The group that a transfer names (R246). -/
def xferGroup (t : Tile) (w : Nat) : Int := t.g + toSigned 4 (bits w 181 178)
/-- The stripe that it names; outside the device it moves nothing. -/
def xferStripe (t : Tile) (w : Nat) : Int := (t.stripe : Int) + toSigned 4 (bits w 185 182)

/-- The Oasis address of a linear transfer's row q within its argument, and its bytes (R246). -/
def xferOffset (t : Tile) (p : Prog) (w q : Nat) : Nat :=
  let d := p.desc (bits w 231 224)
  (xferStripe t w).toNat * bits w 177 152 + (xferGroup t w % (2 ^ bits w 125 122 : Int)).toNat * bits w 151 126 + dBase d + q * dP1 d

/-- Rows of a transfer: tile memory address and Oasis address. -/
def State.xferRows (t : Tile) (p : Prog) (w base : Nat) : List (Nat × Nat) :=
  let dt := p.desc (bits w 223 216)
  (List.range (bits w 197 186 + 1)).map fun q => (dBase dt + q * dP1 dt, base + xferOffset t p w q)

/-- The resource check of a linear transfer (R378, class 2 code 0x02): the offending Oasis address and the limit. -/
def State.xferBad (s : State) (t : Tile) (p : Prog) (w : Nat) : Option (Nat × Nat) :=
  if xferStripe t w < 0 ∨ (s.stripes : Int) ≤ xferStripe t w then none
  else
    match s.argSpan t.tag (dArg (p.desc (bits w 231 224))) with
    | none => some (0, 0)
    | some (base, len) =>
      ((State.xferRows t p w base).find? fun r => decide (base + len < r.2 + bits w 213 198 + 1)).map fun r => (r.2, base + len)

/-- The object that a TWAIT or TSIGNAL names (R267); none outside the device's stripes. -/
def State.syncObject (s : State) (t : Tile) (w : Nat) : Option Nat :=
  let st : Int := (t.stripe : Int) + toSigned 4 (bits w 209 206)
  if st < 0 ∨ (s.stripes : Int) ≤ st then none else some (bits w 231 218 + st.toNat * bits w 217 210)
/-- VALUE, with the group where LGN_REL is set. -/
def syncValue (t : Tile) (w : Nat) : Nat := if bitAt w 173 then (bits w 205 174 + lgn32 t.g) % 2 ^ 32 else bits w 205 174

/-! ### Drawing a tile (R239, R381) -/

/-- Valid columns of a stripe, in output columns (R35, R239). -/
def State.validCols (s : State) (st : Nat) : Nat :=
  let w := s.od Od.webStripeWidth
  let r := s.od Od.webWindowWidth - (s.stripes - 1) * w
  (if st + 1 = s.stripes then min r w else w) / max 1 s.fx

/-- The lines a to e − 1 of a group part that are present (R37, R38). -/
def State.partLines (s : State) (g : Int) (part2 : Bool) : Nat × Nat :=
  let lg := s.lineGroup
  let start := match s.enabledPorts.foldl (fun acc c => match acc, s.web.firstSeen[c] with
      | some m, some x => some (max m x)
      | _, _ => none) (some (g * lg)) with
    | some x => (max 0 (x - g * lg)).toNat
    | none => 0
  let cut := (s.web.shortParts.find? fun p => p.1 == g).map fun p => (p.2 + 1 - g * lg).toNat
  match cut with
  | none => (start, lg.toNat)
  | some n => if part2 then (n, lg.toNat) else (start, n)

/-- The predicate registers of a tile (R239). -/
def State.tilePreds (s : State) (p : Prog) (g : Int) (part2 : Bool) (st : Nat) : List (Nat × Nat) :=
  let (a, e) := s.partLines g part2
  let f := max 1 s.fa
  [(0, s.validCols st), (a / f, ceilDiv e f)] ++ (List.range 6).map fun i => (fieldAt p (0x40 + 4 * i) 2, fieldAt p (0x42 + 4 * i) 2)

end Sys2Proof.Machine
end

