-- ==== Sys2Proof/Machine/CtxOps.lean ====
section
/-! DEFINITION. What the cores and the links use of the context unit: its events, the token table (R303 to R308) and the staging area (R322). -/

namespace Sys2Proof.Machine

/-- Change the context unit. -/
def State.modCtx (s : State) (f : Ctx → Ctx) : State := { s with ctx := f s.ctx }

/-- Raise a context status bit that is about line group g: R331 writes one event per bit and group, or per further key. -/
def State.ctxGroupEvent (s : State) (b key unit : Nat) (g : Int) : State :=
  if s.ctx.lastEvent.told key g then s.raiseInt .ctx b
  else (s.modCtx fun c => { c with lastEvent := c.lastEvent.tell key g }).raiseStatusAt (s.groupLsn g) .ctx b 3 unit 0xFF 0

/-- The token slot that holds group g. -/
def State.tokSlot (s : State) (g : Int) : Option TokSlot := s.ctx.tokens.find? fun x => x.g == g
/-- Change the slot of group g; it is emptied when its first token is written (R305). -/
def State.modTok (s : State) (g : Int) (f : TokSlot → TokSlot) : State :=
  let cur := (s.tokSlot g).getD { g := g, present := [], frozen := false, sent := false }
  s.modCtx fun c => { c with tokens := f cur :: c.tokens.filter fun x => x.g % 16 != g % 16 }
/-- Is the slot of group g frozen, or taken by a later group? -/
def State.tokClosed (s : State) (g : Int) : Bool := s.ctx.tokens.any fun x => (x.g == g && x.frozen) || (x.g % 16 == g % 16 && decide (g < x.g))
/-- The address of token i of group g. -/
def State.tokAddr (s : State) (g : Int) (i : Nat) : Nat := s.od Od.tokTokBase + (g % 16).toNat * 2 ^ 20 + i * s.od Od.tokTokBytes

/-- Tokens of group g, from index `first`, become present; those of a frozen slot are late and are discarded (R306, R308). -/
def State.tokWrite (s : State) (g : Int) (first : Nat) (bs : List Byte) : State :=
  let n := bs.length / max 1 (s.od Od.tokTokBytes)
  if s.tokClosed g then (s.count32 Reg.ctxTokLate n).ctxGroupEvent 0x20 0x20 0 g
  else
    let n := min n (s.od Od.tokTokTotal - first)
    let new := (List.range n).map fun i => first + i
    let s := s.modTok g fun x => { x with present := x.present ++ new.filter fun i => !x.present.contains i }
    s.writeDram (s.tokAddr g first) (bs.take (n * s.od Od.tokTokBytes))

/-- A tile stages effects in its core's part of the staging area (R322). How they lie there is not stated: its bytes become undefined. -/
def State.stageArea (s : State) (k : CoreIx) : State :=
  let lo := s.od Od.ctxCtxStageBase + k * 2 ^ 21
  { s with dram := s.dram.forget lo (lo + 2 ^ 21) }

end Sys2Proof.Machine
end

