-- ==== Sys2Proof/Machine/Context.lean ====
section
/-! DEFINITION. The context unit (R300 to R331): phases, the Context Store, summary tokens and recurrent state, with its tile instructions. -/

namespace Sys2Proof.Machine

/-! ### Phases (R312 to R315) -/

/-- The phase bin of a period register for a threshold (R313). -/
def phaseBin (period prescale : Nat) (origin thr : Int) : Nat :=
  let len : Int := (period * 2 ^ prescale : Nat)
  let rel := (thr - origin * 65536) % len
  (rel * 2048 / len).toNat

/-- The bin of a period register in force. -/
def State.binOf (s : State) (p : Nat) (thr : Int) : Nat :=
  phaseBin (s.od (Od.periodPeriod p)) (s.od (Od.periodPrescale p)) (toSigned 64 (s.od (Od.periodOrigin p))) thr

/-- A clear of period registers starts (R324). -/
def State.ctxClear (s : State) (mask : BitVec 8) : State := s.modCtx fun c => { c with clearing := c.clearing ||| mask }

/-- A write of a period register takes effect at a trigger (R315): the epoch advances, with its event; a wrap starts a clear. -/
def State.periodEffect (s : State) (key v lsn : Nat) : State :=
  let p := key / 256 - 0x5010
  let e := (s.od (Od.periodEpoch p) + 1) % 256
  let s := ((s.setOd key v).setOd (Od.periodEpoch p) e).setOd (Od.periodEpochLsn p) lsn
  let s := s.raiseStatus .ctx 0x200 3 0 p 0
  if e = 0 then s.ctxClear ((1 : BitVec 8) <<< p) else s

/-- Is a key one of the period-register entries that wait for a trigger (R315)? -/
def isPeriodKey (key : Nat) : Bool :=
  decide (0x5010 ≤ key / 256) && decide (key / 256 < 0x5018) && decide (1 ≤ key % 256) && decide (key % 256 ≤ 4)

/-- The phase record of a trigger (R314). -/
def State.phaseRecord (s : State) (thr : Int) (lsn : Nat) : State :=
  let bins := (List.range 8).map fun p => if s.odFlag (Od.periodEnable p) then some (s.binOf p thr) else none
  let s := s.modCtx fun c => { c with records := (⟨lsn, bins⟩ :: c.records).take 8192 }
  (bins.zip (List.range 8)).foldl (fun (u : State) b => match b.1 with
    | some n => u.setOd (Od.periodPhaseBin b.2) n
    | none => u) s

/-! ### Entries of the Context Store (R302, R316, R317) -/

/-- The bin that a request uses, where it is not skipped (R302, R314). -/
def State.requestBin (s : State) (p : Nat) (x : Int) (w : Nat) : Option Nat :=
  let first : Int := s.od Od.webWindowFirst
  if !s.odFlag (Od.periodEnable p) || s.ctx.clearing.getLsbD p || precedes (BitVec.ofNat 48 w) (BitVec.ofNat 48 (s.od (Od.periodEpochLsn p))) ||
      decide (x < first) || decide (first + (s.od Od.webWindowWidth : Int) ≤ x) then none
  else match s.ctx.records.find? fun r => r.lsn == w with
    | some r => r.bins.getD p none
    | none => none

/-- The entry's address (R316). -/
def State.entryAddr (s : State) (p b : Nat) (x : Int) : Nat :=
  let xbin := ((x - (s.od Od.webWindowFirst : Int)) / (max 1 (s.od Od.ctxXbinWidth) : Int)).toNat
  s.od Od.ctxCtxBase + ((p * 2048 + b) * 1024 + xbin) * 64

/-- Is an entry valid (R317)? -/
def State.entryValid (s : State) (p a : Nat) (e : List Byte) : Bool :=
  bitAt (byteAt e 58) 0 && byteAt e 59 == s.od (Od.periodEpoch p) && scaleValid (fieldAt e 56 2) && byteAt e 58 / 4 == 0 && zeroAt e 60 4 && !s.dramPoisoned a 64

/-- The errors of an entry read: one that is uncorrectable is counted, with its event (R317, R335). -/
def State.entryEcc (s : State) (g : Int) (a : Nat) : State :=
  if s.dramPoisoned a 64 then ((s.dramSeen a 64 true).count32 Reg.ctxEcc 1).ctxGroupEvent 8 8 0 g else s.dramSeen a 64 true

/-- A request of LOOKUP or UPDATE (R301): position, period register, web coordinate, LSN, and the entry's address where it is not skipped. -/
structure CtxReq where
  i : Nat
  x : Int
  w : Nat
  addr : Option Nat

/-- The requests of an instruction. -/
def State.ctxRequests (s : State) (v : View) (w : Nat) : List CtxReq :=
  let dk := v.prog.desc (bits w 224 217)
  let p := bits w 227 225
  ((List.range (bits w 208 196 + 1)).filter (v.on dk)).map fun i =>
    let x : Int := (s.od Od.webWindowFirst + v.tile.stripe * s.od Od.webStripeWidth + v.code dk 0 i : Nat)
    let l := mod48 ((v.tile.firstLsn : Int) + toSigned 16 (v.code dk 1 i))
    { i := i, x := x, w := l, addr := (s.requestBin p x l).map fun b => s.entryAddr p b x }

/-- Count skipped requests (R302). -/
def State.countSkipped (s : State) (g : Int) (n : Nat) : State :=
  if n = 0 then s else (s.countOd Od.ctxSkipped n).ctxGroupEvent 1 1 0 g

/-- The values that a LOOKUP writes for a request, and its status (R302, R319). -/
def State.lookupResult (s : State) (p : Nat) (r : CtxReq) : List Fp × Nat :=
  let empty := List.replicate 49 Fp.zero ++ [Fp.fin false 65535]
  match r.addr with
  | none => (empty, 2)
  | some a =>
    let e := s.readDram a 64
    if s.entryValid p a e then
      let sc := scaleVal (fieldAt e 56 2)
      let age := (r.w + 2 ^ 48 - fieldAt e 50 6) % 2 ^ 48
      (((List.range 48).map fun k => Fp.ofRat (sc * (toSigned 8 (byteAt e k) : Rat))) ++ [.fin false (fieldAt e 48 2 : Rat), .fin false (min age 65535 : Nat)], 0)
    else (empty, 1)

/-- The effect of a LOOKUP on tile memory (R302, R319). -/
def State.lookupFx (s : State) (v : View) (w : Nat) (reqs : List CtxReq) : Fx :=
  let dk := v.prog.desc (bits w 224 217)
  let dv := v.prog.desc (bits w 216 209)
  let p := bits w 227 225
  (List.range (bits w 208 196 + 1)).foldl (fun (f : Fx) i =>
    match reqs.find? fun r => r.i == i with
    | some r =>
      let (vals, st) := s.lookupResult p r
      let f := (List.range (min 50 (dC dv))).foldl (fun (f : Fx) c => f.put v dv c i false (vals.getD c Fp.zero)) f
      if dC dk = 3 then f.code v dk 2 i st else f
    | none => (List.range (min 50 (dC dv))).foldl (fun (f : Fx) c => f.put v dv c i true Fp.zero) f) (v.fx.slotCheck v [dv])

/-- The tile memory that a TCTX reads. -/
def State.ctxReads (s : State) (v : View) (w : Nat) : List (Nat × Nat) :=
  let dk := v.prog.desc (bits w 224 217)
  let dv := v.prog.desc (bits w 216 209)
  let xs := List.range (bits w 208 196 + 1)
  match bits w 231 228 with
  | 0 => slotCells [dv] ++ v.elemCells dk [0, 1] xs ++ v.outCells dv (List.range (dC dv)) (xs.filter (v.on dk))
  | 1 => slotCells [dv] ++ v.elemCells dk [0, 1] xs ++ v.elemCells dv (List.range 48) (xs.filter (v.on dk))
  | 3 => [(dBase dv, s.od Od.stateStateBytes)]
  | 4 => [(dBase dv, s.od Od.tokTokPerStripe * s.od Od.tokTokBytes)]
  | 5 => v.elemCells dk [0] xs
  | _ => []

/-- The tile memory that a TCTX writes. -/
def State.ctxWrites (s : State) (p : Prog) (w : Nat) : List (Nat × Nat) :=
  let dk := p.desc (bits w 224 217)
  let dv := p.desc (bits w 216 209)
  let n := bits w 208 196 + 1
  let cell := fun (d c x : Nat) => (dBase d + dChanOff d c + dPosOff d x, dElem d)
  match bits w 231 228 with
  | 0 => (List.range n).flatMap fun x => (List.range (dC dv)).map (fun c => cell dv c x) ++ (if dC dk = 3 then [cell dk 2 x] else [])
  | 2 => [(dBase dv, s.od Od.stateStateBytes), cell dk 0 0]
  | 5 => (dBase dv, n * s.od Od.tokTokBytes) :: (List.range n).map (cell dk 1)
  | _ => []

/-- Run the instruction at the head of a core's context queue where it has the named operation (R241, R244). -/
def State.headCtx (s : State) (k : CoreIx) (op : Nat) (f : State → Tile → Prog → CtxOp → State) : State :=
  match (s.core k).tile, (s.core k).prog with
  | some t, some (_, p) => match t.ctxq with
    | o :: _ => if bits o.word 231 228 = op then f s t p o else s
    | [] => s
  | _, _ => s

/-- A TCTX of the named operation (R263): the core's next instruction, where it is one, enters the queue of the context port; then the instruction at
the queue's head runs, where it is one. -/
def State.issueCtx (s : State) (k : CoreIx) (op : Nat) (f : State → Tile → Prog → CtxOp → State) : State :=
  let s := match s.nextInstr k with
    | some (_, _, w) =>
      if bits w 231 228 = op then s.issue k 0x20 (fun s _ p w =>
        (s.modTile k fun t => { t with ctxq := t.ctxq ++ [CtxOp.mk w t.pc (s.od Od.stateStateDeadline) (s.core k).preds] }).launch k w [unitCtx] (s.ctxWrites p w) [] true)
      else s
    | none => s
  s.headCtx k op f

/-- What an instruction in the context queue sees: other instructions in flight are a hazard to it, and the predicates are those of its issue (R268). -/
def State.ctxView (s : State) (k : CoreIx) (t : Tile) (p : Prog) (o : CtxOp) : View :=
  { s.view k { t with flights := t.flights.filter fun f => f.index != o.index } p [unitCtx] with preds := o.preds }

/-- It completes: it leaves the queue, and its longest completion time, waits left out, is noted (R323). -/
def State.ctxDone (s : State) (k : CoreIx) (o : CtxOp) : State :=
  let s := s.modTile k fun t => { t with
    ctxq := t.ctxq.filter fun x => x.index != o.index
    flights := t.flights.map fun f => if f.index = o.index then { f with waits := false } else f }
  let (n, s) := s.takeFree
  s.peak Reg.ctxLatMax (n.toNat % 2 ^ 32)

/-- Its effect on the core, after which it has completed. -/
def State.ctxRun (s : State) (k : CoreIx) (t : Tile) (p : Prog) (o : CtxOp) (f : View → Fx) : State :=
  let v := s.ctxView k t p o
  (s.compute k t p o.word o.index v [(0, s.ctxReads v o.word)] f).ctxDone k o

/-- LOOKUP (R301, R302, R319); it waits for a bank or channel of its entries that is out (R519). -/
def execLookup (core : CoreIx) (s : State) : Result := s.act fun s => s.issueCtx core 0 fun s t p o =>
  let w := o.word
  let reqs := s.ctxRequests (s.ctxView core t p o) w
  if reqs.any fun r => r.addr.any fun a => s.dramHeld a 64 then s else
  let hits := (reqs.filter fun r => (s.lookupResult (bits w 227 225) r).2 == 0).length
  let u := s.ctxRun core t p o fun v => s.lookupFx v w reqs
  match (u.core core).tile with
  | none => u
  | some _ =>
    let u := (u.countOd Od.ctxLookups reqs.length).count32 Reg.ctxHits hits
    let u := u.countSkipped t.g (reqs.filter fun r => r.addr.isNone).length
    (reqs.filterMap fun r => r.addr).foldl (fun (x : State) a => x.entryEcc t.g a) u

/-! ### Staging (R322) -/

/-- UPDATE requests that a tile has staged. -/
def Tile.stagedUpdates (t : Tile) : Nat := (t.staged.filter fun x => match x with
  | .update _ => true
  | _ => false).length

/-- A tile stages effects; one that replaces another goes by a test for the old ones. -/
def State.stageEffects (s : State) (k : CoreIx) (old : Staged → Bool) (new : List Staged) : State :=
  if new.isEmpty || (s.core k).tile.isNone then s
  else (s.modTile k fun x => { x with staged := (x.staged.filter fun y => !old y) ++ new }).stageArea k

/-- UPDATE: its requests that are not skipped are staged, up to 16,384 per tile (R302, R320, R322). -/
def execUpdate (core : CoreIx) (s : State) : Result := s.act fun s => s.issueCtx core 1 fun s t p o =>
  let w := o.word
  let v := s.ctxView core t p o
  let dv := p.desc (bits w 216 209)
  let reqs := s.ctxRequests v w
  let alpha := (fmtBf16.decode (bits w 195 180)).toRat
  let all := reqs.filterMap fun r => r.addr.map fun a =>
    (Staged.update { p := bits w 227 225, addr := a, lsn := r.w, vec := (List.range 48).map fun c => (v.x24 dv c r.i).toRat, alpha := alpha })
  let room := 16384 - t.stagedUpdates
  let lost := all.length - room
  let u := s.ctxRun core t p o fun v => (v.fx.slotCheck v [dv]).count (v.counts true dv (List.range 48) (reqs.map fun r => r.i))
  match (u.core core).tile with
  | none => u
  | some _ =>
    let u := (u.stageEffects core (fun _ => false) (all.take room)).countSkipped t.g (reqs.filter fun r => r.addr.isNone).length
    let u := u.peak Reg.ctxStagePeak (t.stagedUpdates + min room all.length)
    if lost = 0 then u else (u.count32 Reg.ctxStageOvf lost).ctxGroupEvent 4 4 0 t.g

/-- STATE_STORE: the tile's state is held until it commits; a later one replaces it (R310). -/
def execStateStore (core : CoreIx) (s : State) : Result := s.act fun s => s.issueCtx core 3 fun s t p o =>
  let bs := (s.ctxView core t p o).read (dBase (p.desc (bits o.word 216 209))) (s.od Od.stateStateBytes)
  (s.ctxRun core t p o fun v => v.fx).stageEffects core (fun y => match y with
    | .state _ => true
    | _ => false) [.state bs]

/-- TOKEN_PUT: the tile's tokens are held until it commits; a later one replaces them (R306). -/
def execTokenPut (core : CoreIx) (s : State) : Result := s.act fun s => s.issueCtx core 4 fun s t p o =>
  let bs := (s.ctxView core t p o).read (dBase (p.desc (bits o.word 216 209))) (s.od Od.tokTokPerStripe * s.od Od.tokTokBytes)
  (s.ctxRun core t p o fun v => v.fx).stageEffects core (fun y => match y with
    | .tokens _ => true
    | _ => false) [.tokens bs]

/-! ### Recurrent state (R309 to R311) -/

/-- The address of the state of stripe st for group g. -/
def State.stateAddr (s : State) (g : Int) (st : Nat) : Nat :=
  s.od Od.stateStateBase + ((g % 16).toNat * s.stripes + st) * (64 + s.od Od.stateStateBytes)
/-- The stored state of a stripe for a group, none where none is. -/
def State.storedState (s : State) (g : Int) (st : Nat) : Option StoredState := s.ctx.stored.find? fun x => x.g == g && x.stripe == st
/-- Is a state stored? -/
def State.stateStored (s : State) (g : Int) (st : Nat) : Bool := (s.storedState g st).isSome
/-- Was a state stored no later than the completion of a group, or in its cycle (R311)? -/
def State.storedBy (s : State) (g : Int) (st : Nat) (deadline : Int) : Bool := match s.storedState g st with
  | some x => (match x.by_ with
    | some c => decide (c ≤ deadline)
    | none => true)
  | none => false
/-- The payload of a stored state. -/
def State.statePayload (s : State) (g : Int) (st : Nat) : List Byte := s.readDram (s.stateAddr g st + 64) (s.od Od.stateStateBytes)

/-- What STATE_LOAD returns without its deadline: payload and age; none while it waits (R311 steps 1 to 3). A state that was stored after the
deadline does not count. -/
def State.stateReady (s : State) (t : Tile) (d : Nat) : Option (List Byte × Nat) :=
  if s.firstGroup = some t.g then some (List.replicate (s.od Od.stateStateBytes) 0, 0)
  else if t.part2 && s.stateStored t.g t.stripe then some (s.statePayload t.g t.stripe, 0)
  else if s.storedBy (t.g - 1) t.stripe (t.g + (d : Int)) then some (s.statePayload (t.g - 1) t.stripe, 1)
  else none

/-- What STATE_LOAD returns at its deadline (R311 step 4): the newest state that was stored by then. -/
def State.stateOld (s : State) (t : Tile) (d : Nat) : List Byte × Nat :=
  match ([2, 3, 4] : List Nat).find? fun (n : Nat) => s.storedBy (t.g - (n : Int)) t.stripe (t.g + (d : Int)) with
  | some n => (s.statePayload (t.g - (n : Int)) t.stripe, n)
  | none => (List.replicate (s.od Od.stateStateBytes) 0, 0xFFFF)

/-- The errors that reading the state of an age shows (R335); none is read for the first group, or where none is stored. -/
def State.stateSeen (s : State) (t : Tile) (age : Nat) : State :=
  if age = 0xFFFF || s.firstGroup = some t.g then s else s.dramSeen (s.stateAddr (t.g - (age : Int)) t.stripe) (64 + s.od Od.stateStateBytes) false

/-- Must a STATE_LOAD of the state of an age wait for a bank or channel that is out (R519)? -/
def State.stateHeld (s : State) (t : Tile) (age : Nat) : Bool :=
  age != 0xFFFF && s.firstGroup != some t.g && s.dramHeld (s.stateAddr (t.g - (age : Int)) t.stripe) (64 + s.od Od.stateStateBytes)

/-- A STATE_LOAD completes: payload to DVEC, age to DKEY. -/
def State.stateLand (s : State) (k : CoreIx) (t : Tile) (p : Prog) (o : CtxOp) (r : List Byte × Nat) : State :=
  (s.stateSeen t r.2).ctxRun k t p o fun v => ((v.fx.bytes (dBase (p.desc (bits o.word 216 209))) r.1).code v (p.desc (bits o.word 224 217)) 0 0 r.2)

/-- The counts and the event of a return under step 4, one event per stripe and group (R311, R331). -/
def State.stateLate (s : State) (t : Tile) (age : Nat) : State :=
  let none_ := age == 0xFFFF
  let s := s.countOd (if none_ then Od.stateStateNone else Od.stateStateStale) 1
  let b := if none_ then 0x80 else 0x40
  s.ctxGroupEvent b (65536 + b * 65536 + t.stripe) t.stripe t.g

/-- A STATE_LOAD at the head of its queue completes with the state, or under step 4 when its deadline has passed; else it waits (R311). -/
def State.stateTry (s : State) (k : CoreIx) (t : Tile) (p : Prog) (o : CtxOp) : State :=
  match s.stateReady t o.deadline with
  | some r => if s.stateHeld t r.2 then s else s.stateLand k t p o r
  | none =>
    if s.groupDone t.g o.deadline && !s.stateHeld t (s.stateOld t o.deadline).2 then (s.stateLand k t p o (s.stateOld t o.deadline)).stateLate t (s.stateOld t o.deadline).2 else s

/-- STATE_LOAD: it completes when the state is there, or waits with the STATE_DEADLINE in force at its issue (R311, R329). -/
def execStateLoad (core : CoreIx) (s : State) : Result := s.act fun s => s.issueCtx core 2 fun s t p o => s.stateTry core t p o

/-- STATE_DEADLINE: the state deadline of a waiting STATE_LOAD passes; a state stored by then counts as stored (R311). -/
def execStateDeadline (core : CoreIx) (s : State) : Result := s.act fun s => s.headCtx core 2 fun s t p o =>
  if s.groupDone t.g o.deadline then s.stateTry core t p o else s

/-! ### Tokens (R303 to R308) -/

/-- TOKEN_DEADLINE: at the completion of group lgn + TOK_DEADLINE the slot of lgn freezes; the missing tokens are written as zeros (R308). -/
def execTokenDeadline (lgn : Int) (s : State) : Result := s.act fun s =>
  if s.od Od.tokTokPerStripe = 0 || !s.groupDone lgn (s.od Od.tokTokDeadline) || s.groupDone lgn 16 || s.tokClosed lgn then s
  else
    let missing := (List.range (s.od Od.tokTokTotal)).filter fun i => !(((s.tokSlot lgn).map fun x => x.present.contains i).getD false)
    let s := missing.foldl (fun (u : State) i => u.writeDram (u.tokAddr lgn i) (List.replicate (u.od Od.tokTokBytes) 0)) s
    let s := s.modTok lgn fun x => { x with frozen := true }
    if missing.isEmpty then s else (s.countOd Od.tokTokMissing missing.length).ctxGroupEvent 0x10 0x10 0 lgn

/-- Do tokens of a committed tile of group g still wait for their turn among the effects (R323)? -/
def State.tokensWait (s : State) (g : Int) : Bool := s.ctx.batches.any fun b => b.g == g && b.effects.any fun e => match e with
  | .tokens _ => true
  | _ => false

/-- TOKEN_SEND: once every local tile of the group has committed or been cancelled, or at the token deadline, the device sends its local tokens (R306,
R429). Before the deadline it waits for the tokens of committed tiles whose effects are still to be issued (R323). A local token that is not present
goes as zeros. -/
def execTokenSend (lgn : Int) (s : State) : Result := s.act fun s =>
  let n := s.od Od.tokTokPerStripe * s.stripes
  let slot := (s.tokSlot lgn).getD { g := lgn, present := [], frozen := false, sent := false }
  if n = 0 || slot.sent || s.groupDone lgn 16 || !((s.groupCommitted lgn && !s.tokensWait lgn) || s.groupDone lgn (s.od Od.tokTokDeadline)) then s
  else
    let first := s.od Od.tokStripeOffset * s.od Od.tokTokPerStripe
    let tb := s.od Od.tokTokBytes
    let bytes := (List.range n).flatMap fun i =>
      if slot.present.contains (first + i) then s.readDram (s.tokAddr lgn (first + i)) tb else List.replicate tb 0
    let s := (List.range n).foldl (fun (u : State) i => if slot.present.contains (first + i) then u.dramSeen (u.tokAddr lgn (first + i)) tb false else u) s
    (s.modTok lgn fun x => { x with sent := true }).queueBoth 2 (mod48 lgn) (leBytes 2 first ++ leBytes 2 n ++ [0, 0, 0, 0] ++ bytes)

/-- The status of a token request: present, missing, or out of range (R307). -/
def State.tokStatus (s : State) (g : Int) (i : Nat) : Nat :=
  if s.od Od.tokTokTotal ≤ i then 2 else if ((s.tokSlot g).map fun x => x.present.contains i).getD false then 0 else 1

/-- TOKEN_GET: it completes when every token it requests is present, or its slot is frozen; otherwise, and for a bank or channel of its tokens that is out,
it waits (R307, R308, R519). -/
def execTokenGet (core : CoreIx) (s : State) : Result := s.act fun s => s.issueCtx core 5 fun s t p o =>
  let w := o.word
  let g := t.g - (s.od Od.tokTokLag : Int)
  let v := s.ctxView core t p o
  let dk := p.desc (bits w 224 217)
  let base := dBase (p.desc (bits w 216 209))
  let tb := s.od Od.tokTokBytes
  let reqs := ((List.range (bits w 208 196 + 1)).filter (v.on dk)).map fun i => (i, v.code dk 0 i)
  let held := reqs.any fun r => s.tokStatus g r.2 == 0 && s.dramHeld (s.tokAddr g r.2) tb
  if !held && ((reqs.all fun r => s.tokStatus g r.2 != 1) || s.tokClosed g) then
    let u := reqs.foldl (fun (u : State) r => if s.tokStatus g r.2 = 0 then u.dramSeen (s.tokAddr g r.2) tb false else u) s
    u.ctxRun core t p o fun v => reqs.foldl (fun (f : Fx) r =>
      let st := s.tokStatus g r.2
      (f.bytes (base + r.1 * tb) (if st = 0 then s.readDram (s.tokAddr g r.2) tb else List.replicate tb 0)).code v dk 1 r.1 st) v.fx
  else s

/-! ### Applying effects (R318, R320 to R323) -/

/-- The updated entry (R320), and whether a clamp changed a code. `old` is the valid entry, none where it is empty. A y beyond binary32 is an infinity
(R143 step 3): the scale is then the largest, and the clamp cuts its code to ±127. -/
def updateEntry (old : Option (List Byte)) (warmup : Bool) (u : StagedUpdate) (epoch : Nat) : List Byte × Bool :=
  let e := old.getD []
  let n := if old.isSome then fieldAt e 48 2 else 0
  let sc : Rat := if old.isSome then scaleVal (fieldAt e 56 2) else 0
  let lg := if n + 1 = 2 ^ (n + 1).log2 then (n + 1).log2 else (n + 1).log2 + 1
  let a : Rat := if old.isNone then 1 else if warmup then max u.alpha (pow2 (-(lg : Int))) else u.alpha
  let ys := (List.range 48).map fun k =>
    let v : Rat := if old.isSome then sc * (toSigned 8 (byteAt e k) : Rat) else 0
    round32 (v + a * (u.vec.getD k 0 - v))
  let amax := ys.foldl (fun m y => max m y.abs.toRat) 0
  let new := if ys.all Fp.isFin then (if amax = 0 then 0x0080 else scaleBf16 (amax / 127)) else 0x7F7F
  let raw := ys.map fun y => match y with
    | .fin _ _ => if amax = 0 then 0 else roundInt (y.toRat / scaleVal new)
    | .inf neg => if neg then -128 else 128
    | .nan => 0
  let codes := raw.map fun r => max (-127) (min 127 r)
  let sat := codes != raw
  ((codes.map fun c => BitVec.ofNat 8 (ofSigned 8 c)) ++ leBytes 2 (min 65535 (n + 1)) ++ leBytes 6 u.lsn ++ leBytes 2 new ++ leBytes 1 (1 + 2 * bit sat) ++
    leBytes 1 epoch ++ [0, 0, 0, 0], sat)

/-- One UPDATE request reaches its entry's atomic engine (R318, R320). A request whose register has since been cleared, disabled or changed is
skipped (R302, R315, R324). -/
def State.applyUpdate (s : State) (g : Int) (u : StagedUpdate) : State :=
  if !s.odFlag (Od.periodEnable u.p) || s.ctx.clearing.getLsbD u.p || precedes (BitVec.ofNat 48 u.lsn) (BitVec.ofNat 48 (s.od (Od.periodEpochLsn u.p))) then
    s.countSkipped g 1
  else
    let e := s.readDram u.addr 64
    let valid := s.entryValid u.p u.addr e
    let (bs, sat) := updateEntry (if valid then some e else none) (s.odFlag (Od.periodWarmup u.p)) u (s.od (Od.periodEpoch u.p))
    let s := ((s.entryEcc g u.addr).writeDram u.addr bs).countOd Od.ctxUpdates 1
    if sat then (s.countOd Od.ctxSaturated 1).ctxGroupEvent 2 2 0 g else s

/-- One staged effect of a committed tile is applied (R306, R310, R320). -/
def State.applyStaged (s : State) (b : CtxBatch) : Staged → State
  | .update u => s.applyUpdate b.g u
  | .state bs =>
    let a := s.stateAddr b.g b.stripe
    let s := (s.writeDram (a + 64) bs).writeDram a (padTo 64 (leBytes 6 b.firstLsn ++ leBytes 1 (bit b.part2)))
    -- The state counts as stored when its header is first written: before the next completion, or in the cycle of the last one (R311).
    let now := s.web.completeGroup.map fun c => if s.web.completeDt = some s.dt then c else c + 1
    let by_ := match s.storedState b.g b.stripe with
      | some x => x.by_
      | none => now
    s.modCtx fun c => { c with stored := ⟨b.g, b.stripe, b.part2, by_⟩ :: c.stored.filter fun x => decide (b.g - 16 < x.g) && !(x.g == b.g && x.stripe == b.stripe) }
  | .tokens bs => s.tokWrite b.g ((s.od Od.tokStripeOffset + b.stripe) * s.od Od.tokTokPerStripe) bs

/-- Must an effect wait for a bank or channel that is out (R519)? -/
def State.effectHeld (s : State) (b : CtxBatch) : Staged → Bool
  | .update u => s.dramHeld u.addr 64
  | .state bs => s.dramHeld (s.stateAddr b.g b.stripe) (64 + bs.length)
  | .tokens bs => s.dramHeld (s.tokAddr b.g ((s.od Od.tokStripeOffset + b.stripe) * s.od Od.tokTokPerStripe)) bs.length

/-- CTX_EFFECTS_APPLY: the effects of the tile that committed first are applied, in the order in which they were staged (R321 to R323); they wait for a
bank or channel that is out (R519). -/
def execCtxEffectsApply (s : State) : Result := s.act fun s =>
  match s.ctx.batches with
  | [] => s
  | b :: rest => if b.effects.any (s.effectHeld b) then s else b.effects.foldl (fun (u : State) e => u.applyStaged b e) (s.modCtx fun c => { c with batches := rest })

/-! ### Clearing (R324) -/

/-- CTX_CLEAR_WRITE: a clear of the registers of the mask starts; the write is ledgered. -/
def execCtxClearWrite (value : W32) (s : State) : Result := s.act fun s =>
  if !s.dev.state.ready then s
  else
    let s := s.ledgerAppend { kind := 1, origin := .host, key := 0, len := 4, value := leBytes 4 (value.toNat % 256), lsn := s.web.lastLsn }
    if s.dev.state = .safe then s else s.ctxClear (value.truncate 8)

/-- Clear VALID in every one of a period register's 2,097,152 entries (R316, R324): FLAGS becomes 0. What the entry's other bytes hold then is not
stated, so they become undefined. -/
def State.clearEntries (s : State) (p : Nat) : State :=
  let lo := s.od Od.ctxCtxBase + p * 2 ^ 27
  let flags : Mem := (List.range (2 ^ 21)).map fun i => (lo + 64 * i + 58, 0)
  { s with
    dram := (s.dram.filter fun c => decide (c.1 < lo)) ++ flags ++ s.dram.filter fun c => decide (lo + 2 ^ 27 ≤ c.1)
    dramPoison := s.dramPoison.filter fun b => decide (b < lo) || decide (lo + 2 ^ 27 ≤ b)
    dramSingle := s.dramSingle.filter fun b => decide (b.1 < lo) || decide (lo + 2 ^ 27 ≤ b.1) }

/-- CTX_CLEAR_DONE: the running clear completes (R324). -/
def execCtxClearDone (s : State) : Result := s.act fun s =>
  if s.ctx.clearing = 0 then s
  else
    let m := s.ctx.clearing
    let s := (List.range 8).foldl (fun (u : State) p => if m.getLsbD p then u.clearEntries p else u) s
    (s.modCtx fun c => { c with clearing := 0 }).raiseStatus .ctx 0x100 3 0 0xFF 0

end Sys2Proof.Machine
end

