-- ==== Sys2Proof/Machine/DetOps.lean ====
section
/-! DEFINITION. Detection: the decoding of candidates, the candidate order and a group's slot (R282 to R286). -/

namespace Sys2Proof.Machine

/-- a precedes b in candidate order (R286). -/
def Box.before (a b : Box) : Bool :=
  if !(read32 a.score).eqv (read32 b.score) then (read32 b.score).lt (read32 a.score)
  else if a.cls ≠ b.cls then decide (a.cls < b.cls)
  else if a.x0 ≠ b.x0 then decide (a.x0 < b.x0)
  else if a.y0 ≠ b.y0 then decide (a.y0 < b.y0)
  else if a.x1 ≠ b.x1 then decide (a.x1 < b.x1)
  else if a.y1 ≠ b.y1 then decide (a.y1 < b.y1)
  else if a.device ≠ b.device then decide (a.device < b.device)
  else if a.stripe ≠ b.stripe then decide (a.stripe < b.stripe)
  else if a.pos ≠ b.pos then decide (a.pos < b.pos)
  else decide (a.anchor < b.anchor)

/-- Insert in candidate order. -/
def insertBox (b : Box) : List Box → List Box
  | [] => [b]
  | c :: r => if b.before c then b :: c :: r else c :: insertBox b r

/-- Change the detection unit. -/
def State.modDet (s : State) (f : Det → Det) : State := { s with det := f s.det }

/-- Raise a detection status bit, with one event per bit and line group (R299). -/
def State.detStatusEvent (s : State) (b : Nat) (g : Int) : State :=
  if s.det.lastEvent.told b g then s.raiseInt .det b
  else (s.modDet fun d => { d with lastEvent := d.lastEvent.tell b g }).raiseStatusAt (s.groupLsn g) .det b 4 0 0xFF 0

/-- The part of a group that a box belongs to. -/
def DetSlot.is (d : DetSlot) (g : Int) (part2 : Bool) : Bool := d.g == g && d.part2 == part2

/-- A won tile's candidates enter its group's slot, which keeps the first CAND_MAX (R286). -/
def State.detReceive (s : State) (t : Tile) : State :=
  if !t.tdet then s
  else
    let s := if s.det.slots.any fun d => d.is t.g t.part2 then s
      else s.modDet fun d => { d with slots := d.slots ++ [⟨t.g, t.part2, [], 0, 0, 0, 0, none, 0, false, 0, t.tag⟩] }
    let s := s.peak Reg.detSlotPeak s.det.slots.length
    let mx := s.od Od.detCandMax
    let cur := ((s.det.slots.find? fun d => d.is t.g t.part2).map fun d => d.cands).getD []
    let all := t.cands.foldl (fun l b => insertBox b l) cur
    let lost := all.length - mx
    let s := s.modDet fun d => { d with slots := d.slots.map fun x => if x.is t.g t.part2 then
      { x with cands := all.take mx, received := x.received + t.cands.length, flags := Nat.lor x.flags (bit (lost != 0)) } else x }
    let s := (s.count32 Reg.detCandidates t.cands.length).count32 Reg.detCandDiscarded lost
    if lost = 0 then s else s.detStatusEvent 1 t.g

/-- Round to an integer in 1/16 units, saturating to 32 bits (R285). -/
def edge16 (x : Fp) : Int :=
  match x with
  | .nan => 0
  | .inf s => if s then -(2 ^ 31) else 2 ^ 31 - 1
  | .fin _ _ => max (-(2 ^ 31)) (min (2 ^ 31 - 1) (roundInt (x.toRat * 16)))

/-- The anchor table of R284 is well formed for a head of C classes with T terms in `channels` channels. -/
def anchorOk (sx sy na r1 delay r2 channels per : Nat) : Bool :=
  decide (1 ≤ sx) && decide (sx ≤ 256) && decide (1 ≤ sy) && decide (sy ≤ 128) && decide (1 ≤ na) && decide (na ≤ 16) && r1 == 0 && decide (delay ≤ 4095) &&
  r2 == 0 && decide (na * per ≤ channels)

/-- The box of a candidate (R283): edges x0, y0, x1, y1. Its terms and anchor sizes are operands of FP32 operations: subnormal ones read as zero
(R205). -/
def boxEdges (dfmt : Nat) (terms : List Fp) (i1 i2 : Nat) (sx sy aw ah : Fp) : Fp × Fp × Fp × Fp :=
  let half : Fp := .fin false (1 / 2)
  let n := fun (v : Nat) => (Fp.fin false (v : Rat))
  let t := fun (i : Nat) => lane32 (terms.getD i Fp.zero)
  let aw := lane32 aw
  let ah := lane32 ah
  let pos := fun (x : Fp) => if x.lt Fp.zero then Fp.zero else x
  let a1 := (n i1).add32 half
  let a2 := (n i2).add32 half
  let centre := fun (cx cy w h : Fp) =>
    let hw := w.mul32 half
    let hh := h.mul32 half
    (cx.add32 hw.neg, cy.add32 hh.neg, cx.add32 hw, cy.add32 hh)
  match dfmt with
  | 0 => centre ((a1.mul32 sx).add32 ((t 0).mul32 aw)) ((a2.mul32 sy).add32 ((t 1).mul32 ah)) (aw.mul32 (transc 4 (t 2))) (ah.mul32 (transc 4 (t 3)))
  | 1 => ((a1.add32 (pos (t 0)).neg).mul32 sx, (a2.add32 (pos (t 1)).neg).mul32 sy, (a1.add32 (pos (t 2))).mul32 sx, (a2.add32 (pos (t 3))).mul32 sy)
  | _ => centre ((a1.add32 (t 0)).mul32 sx) ((a2.add32 (t 1)).mul32 sy) aw ah

/-- The candidates of a TDET (R282 to R285); none where the anchor table is bad. -/
def State.candidates (s : State) (v : View) (w : Nat) : Option (List Box) :=
  let d := v.prog.desc (bits w 227 220)
  let at_ := dBase (v.prog.desc (bits w 219 212))
  let tn := if bits w 231 228 = 2 then 2 else 4
  let cls := bits w 179 172 + 1
  let na := v.num (at_ + 4) 1
  let delay := v.num (at_ + 6) 2
  if !anchorOk (v.num at_ 2) (v.num (at_ + 2) 2) na (v.num (at_ + 5) 1) delay (v.num (at_ + 8) 8) (dC d) (tn + cls) then none
  else
    let sx : Fp := .fin false (v.num at_ 2 : Rat)
    let sy : Fp := .fin false (v.num (at_ + 2) 2 : Rat)
    let thresh := fmtBf16.decode (bits w 195 180)
    some (((List.range (bits w 211 196 + 1)).filter (v.on d)).flatMap fun x => (List.range na).filterMap fun a =>
      let base := a * (tn + cls)
      let scores := (List.range cls).map fun c => v.exact d (base + tn + c) x
      let best := max32 scores
      if !thresh.le best then none
      else
        let c := scores.findIdx fun y => y.eqv best
        let terms := (List.range tn).map fun k => v.exact d (base + k) x
        let i1 := x % dX1 d
        let i2 := x / dX1 d
        let (x0, y0, x1, y1) := boxEdges (bits w 231 228) terms i1 i2 sx sy (fmtBf16.decode (v.num (at_ + 16 + 4 * a) 2)) (fmtBf16.decode (v.num (at_ + 18 + 4 * a) 2))
        let ox : Int := (16 * (s.od Od.webWindowFirst + v.tile.stripe * s.od Od.webStripeWidth) : Nat)
        let oy : Int := (16 * delay : Nat)
        some { score := best.to32.bits32, cls := c, x0 := edge16 x0 + ox, y0 := edge16 y0 - oy, x1 := max (edge16 x0) (edge16 x1) + ox,
               y1 := max (edge16 y0) (edge16 y1) - oy, device := s.od Od.chainChainPosition, stripe := v.tile.stripe, pos := x, anchor := a,
               continues := false, border := false })

end Sys2Proof.Machine
end

