-- ==== Sys2Proof/Machine/Cores.lean ====
section
/-! DEFINITION. The cores' commands (R177 to R273): dispatch, every tile instruction but those of the context unit, phase changes, the end of a
tile, leases, and the cores' registers. -/

namespace Sys2Proof.Machine

/-! ### Dispatch and program load (R230, R231, R383) -/

/-- A job's program is refused (R231, R397): a fault record, and the job ends with status 0x06. -/
def State.refuseProgram (s : State) (k : CoreIx) (tag : Nat) (r : Refused) : State :=
  let s := s.event 3 2 (faultBody k r.cls r.code r.opcode tag r.index 0 0xFFFF 0 0 r.addr r.limit)
  let s := s.cancelJob tag 6
  s.mapCmds (fun c => c.tag == tag && !c.noTag) fun c => { c with stage := .done 6 r.cls }

/-- The core loads the program of a job, unless it holds it (R230). -/
def State.loadProgram (s : State) (k : CoreIx) (tag : Nat) (addr : Nat) : State :=
  if (s.core k).prog.map Prod.fst = some tag then s.modCore k fun c => { c with job := some tag }
  else
    let p := s.readProgram addr
    let s := s.oasisSeen addr p.length
    match s.checkProgram p with
    | some r => s.refuseProgram k tag r
    | none => s.modCore k fun c => { c with
        prog := some (tag, p.take p.bytes)
        slots := (List.range 64).map fun i => if i < p.rdescCount then p.rdesc i else 0
        job := some tag }

/-- CORE_DISPATCH: an idle core that is in service and not parked is bound to the job that the dispatcher chooses, and loads its program. -/
def execCoreDispatch (core : CoreIx) (s : State) : Result := s.act fun s =>
  let c := s.core core
  if !s.dev.state.live || !s.coreInService core || c.tile.isSome || c.job.isSome || s.odFlag (Od.corePark core) || s.trimHolds core then s
  else match s.dispatchChoice core with
    | none => s
    | some tag => match s.jobOf tag with
      | some j => s.loadProgram core tag j.prog
      | none => s

/-- Regions of another job that an allocation overlaps lose their validity (R200). -/
def Core.dropRegions (c : Core) (tag lo size : Nat) : Core :=
  { c with resident := c.resident.filter fun r => r.1 == tag || !regionsMeet r.2 (lo, size) }

/-- Draw a tile for a bound core (R239, R265, R381, R384). -/
def State.drawTile (s : State) (k : CoreIx) (tag : Nat) (j : Job) (p : Prog) : State :=
  match s.jobOffer j with
  | none => s.coreIdle k
  | some (g, p2, st, re) =>
    let tsn := s.cmd.tsn
    let w := j.tile g p2 st
    let w := { w with reissue := false, insts := w.insts ++ [⟨tsn, k, true, false⟩] }
    let s := s.modCmd fun c => { c with tsn := if tsn + 1 = 2 ^ 32 then 1 else tsn + 1 }
    let s := s.modJob tag fun j => { (j.setTile w) with flags := if re then Nat.lor j.flags 8 else j.flags }
    let s := if re then s.countOd Od.jobTilesReissued 1 else s
    s.modCore k fun c => { (c.dropRegions tag p.allocBase p.allocSize) with
      phase := .idle
      preds := s.tilePreds p g p2 st
      tile := some { tsn := tsn, tag := tag, g := g, part2 := p2, stripe := st, firstLsn := s.groupLsn g, opes := (s.core k).opes, pc := 1,
                     commit := .undecided, wait := none, subst := [], flights := [], ctxq := [], stored := [], draining := [], stats := [], staged := [],
                     cands := [], tdet := false, dataError := false } }

/-- May a bound core draw a tile of its job: it is not to park (R218), it is in service and has the OPEs that the job needs (R192, R265), and no trim
item waits for it to be idle (R517)? -/
def State.mayDraw (s : State) (k : CoreIx) (j : Job) : Bool :=
  !s.odFlag (Od.corePark k) && s.coreInService k && s.coreServes k j && !s.trimHolds k

/-- TDRAW: the bound core draws the next tile of its job's well; without one that it may have, it returns to the dispatcher. -/
def execTdraw (core : CoreIx) (s : State) : Result := s.act fun s =>
  match (s.core core).job, (s.core core).prog, (s.core core).tile with
  | some tag, some (t, p), none => if t = tag then (match s.fixFirst.jobOf tag with
      | some j => if s.fixFirst.mayDraw core j then s.fixFirst.drawTile core tag j p else s.fixFirst.coreIdle core
      | none => s.coreIdle core) else s
  | _, _, _ => s

/-! ### Sequencer instructions -/

/-- TNOP: with SETPR it writes a predicate register (R268). -/
def execTnop (core : CoreIx) (s : State) : Result := s.act fun s => s.issue core 0x00 fun s _ _ w =>
  let s := if bitAt w 231 then s.modCore core fun c => { c with preds := c.preds.set (bits w 230 228) (bits w 227 212, bits w 211 196) } else s
  s.advance core

/-- Is a value that a halo channel's RX_SYNC is awaited for that of a group the channel's order has passed over, so that its slot may hold another group's
data (R427, R428)? -/
def State.haloMissing (s : State) (o v : Nat) : Bool := allChans.any fun c =>
  hchEnabled s c.1 c.2 && bits (s.reg (Reg.hchSync c.1 c.2)) 29 16 == o && (s.link c.1).chans[c.2].passed.any fun g => lgn32 g == v

/-- Does the condition of a TWAIT hold (R388, R389)? A halo TWAIT never passes for a missing group (R428). -/
def State.twaitHolds (s : State) (t : Tile) (o v : Nat) (rel : Bool) (side : Nat) : Bool :=
  (side == 0 || !s.haloMissing o v) && (if rel then s.groupWaitHolds o v ((s.jobOf t.tag).bind s.jobFirst) else waitHolds (s.sync o) v)

/-- TWAIT: goes on when its condition holds, and otherwise holds the core (R267, R388, R389, R391). -/
def execTwait (core : CoreIx) (s : State) : Result := s.act fun s => s.issue core 0x32 fun s t _ w =>
  match s.syncObject t w with
  | none => s.advance core
  | some o =>
    if 16383 < o then s.abandon core 2 0xB o 16383 ((s.core core).blame t.pc w 0)
    else
      let v := syncValue t w
      if s.twaitHolds t o v (bitAt w 173) (bits w 172 171) then s.advance core
      else
        let job := ((s.jobOf t.tag).map fun j => j.halo).getD 0
        let d := if job = 0 then s.od Od.jobHaloDeadline else job
        s.modTile core fun t => { t with wait := some (.sync o v (bits w 172 171) d (bits w 170 163)) }

/-- TSIGNAL: after every earlier instruction, the object is added to or set (R267, R387). -/
def execTsignal (core : CoreIx) (s : State) : Result := s.act fun s => s.issue core 0x33 fun s t _ w =>
  if !t.settled then s
  else
    let s := s.retire core fun _ => true
    match s.syncObject t w with
    | none => s.advance core
    | some o => (s.signal o (bits w 172 172) (syncValue t w)).advance core

/-! ### Compute instructions -/

/-- Is an OPE out of service, or a bank that a matrix product names not free, or its OPE in the other mode with work in progress (R188, R190)? -/
def State.opeBusy (s : State) (k : CoreIx) (t : Tile) (w : Nat) : Bool :=
  let c := s.core k
  let o := c.physical (bits w 231 229)
  let q := if bitAt w 228 then bits w 227 226 else 4
  let both := bitAt w 220 && bits w 115 108 != 0
  t.draining.any fun d => d.1 == o &&
    (c.quad.getLsbD o != bitAt w 228 || ((d.2.1 == q) && (both || d.2.2 == bits w 225 225)))

/-- The OPE takes the mode that an instruction needs; a change leaves its banks undefined (R189, R190). -/
def State.opeMode (s : State) (k : CoreIx) (o : Nat) (quad : Bool) : State :=
  if (s.core k).quad.getLsbD o = quad then s
  else s.modCore k fun c => { c with
    quad := if quad then c.quad ||| ((1 : BitVec 8) <<< o) else c.quad &&& ~~~((1 : BitVec 8) <<< o)
    acc := c.acc.filter fun a => a.1 / 2048 != o
    accPoison := c.accPoison.filter fun i => i / 2048 != o
    epoch := c.epoch + 1 }

/-- The fill level of the OPEs or the quad on which a matrix product issues becomes full (R220). -/
def State.sandFull (s : State) (k : CoreIx) (p : Nat → Bool) : State :=
  s.modCore k fun c => { c with
    sand := c.sand.mapIdx fun i l => if p i then s.sandTop else l
    sandGoal := c.sandGoal.mapIdx fun i l => if p i then 16 else l }

/-- TMM and TCONV issue when their bank is free (R188). What another mode of the OPE had in flight has then completed (R190). -/
def State.matmul (s : State) (k : CoreIx) (op : Nat) : State := s.issue k op fun s t p w =>
  if s.opeBusy k t w then s
  else
    let o := (s.core k).physical (bits w 231 229)
    let quad := bitAt w 228
    let us := (s.core k).unitsOf w
    let s := if (s.core k).quad.getLsbD o = quad then s else s.retire k fun f => f.units.any fun u => u / 5 == o && !us.contains u
    let s := (s.opeMode k o quad).sandFull k fun i => if quad then i == 4 * o + bits w 227 226 else i / 4 == o
    match (s.core k).tile with
    | none => s
    | some t => s.runFx k t p w fun v => mmFx v w o

/-- TMM. -/
def execTmm (core : CoreIx) (s : State) : Result := s.act fun s => s.matmul core 0x10
/-- TCONV. -/
def execTconv (core : CoreIx) (s : State) : Result := s.act fun s => s.matmul core 0x11

/-- TFUSE issues only when its OPEs and the vector engine are idle (R244). -/
def execTfuse (core : CoreIx) (s : State) : Result := s.act fun s => s.issue core 0x12 fun s t p w =>
  let opes := (s.core core).fuseOpes w
  if t.draining.any fun d => opes.contains d.1 then s
  else
    let s := s.retire core fun f => f.units.any fun u => u == unitVec || (decide (u < unitMv) && opes.contains (u / 5))
    let s := (opes.foldl (fun (u : State) o => u.opeMode core o false) s).sandFull core fun i => opes.contains (i / 4)
    match (s.core core).tile with
    | none => s
    | some t => s.runFx core t p w fun v => fuseFx v w opes

/-- TMV. -/
def execTmv (core : CoreIx) (s : State) : Result := s.act fun s => s.issue core 0x13 fun s t p w => s.runFx core t p w fun v => mvFx v w
/-- TDW. -/
def execTdw (core : CoreIx) (s : State) : Result := s.act fun s => s.issue core 0x14 fun s t p w => s.runFx core t p w fun v => dwFx v w
/-- TVEC. -/
def execTvec (core : CoreIx) (s : State) : Result := s.act fun s => s.issue core 0x18 fun s t p w => s.runFx core t p w fun v => vecFx v w
/-- TQNT. -/
def execTqnt (core : CoreIx) (s : State) : Result := s.act fun s => s.issue core 0x19 fun s t p w => s.runFx core t p w fun v => qntFx v w

/-- TDET: the tile's candidates are decoded and held until its commit; a bad anchor table gives none (R264, R282 to R285). -/
def execTdet (core : CoreIx) (s : State) : Result := s.act fun s => s.issue core 0x21 fun s t p w =>
  let d := p.desc (bits w 227 220)
  let found := s.candidates (s.view core t p [unitDet]) w
  let s := s.runFx core t p w fun v => (v.fx.slotCheck v [d]).count (v.counts false d (List.range (dC d)) (List.range (bits w 211 196 + 1)))
  match (s.core core).tile, found with
  | none, _ => s
  | some _, none => ((s.count32 Reg.detAnchorErr 1).detStatusEvent 8 t.g).modTile core fun x => { x with tdet := true }
  | some _, some l => s.modTile core fun x => { x with tdet := true, cands := x.cands ++ l }

/-! ### Transfers (R199, R245 to R248, R347, R348, R353, R359, R360) -/

/-- Is a destination, given by its rows, wholly in one of the regions? -/
def inRegion (rows : List (Nat × Nat)) (n : Nat) (r : Nat × Nat) : Bool := rows.all fun q => decide (r.1 ≤ q.1) && decide (q.1 + n ≤ r.1 + r.2)

/-- Byte ranges of the positions of a substituted halo descriptor (R392). -/
def haloRanges (p : Prog) (t : Tile) : List (Nat × Nat) :=
  t.subst.flatMap fun h => let d := p.desc h.2.1
    (List.range (dPositions d)).flatMap fun x => (List.range (dC d)).map fun c => (dBase d + dChanOff d c + dPosOff d x, dElem d)

/-- Write loaded bytes, leaving out what a substituted halo covers. -/
def putLoaded (tm : Mem) (skip : List (Nat × Nat)) (a : Nat) (bs : List Byte) : Mem :=
  if skip.isEmpty then tm.write a bs
  else (bs.zip (List.range bs.length)).foldl (fun (m : Mem) b =>
    if skip.any fun r => decide (r.1 ≤ a + b.2) && decide (a + b.2 < r.1 + r.2) then m else m.setByte (a + b.2) b.1) tm

/-- The resident regions of the program that hold a load's whole destination: its completion makes them valid (R199). -/
def Prog.filled (p : Prog) (rows : List (Nat × Nat)) (n : Nat) : List (Nat × Nat) := ((List.range p.resCount).map p.region).filter (inRegion rows n)

/-- Is a load's destination wholly in a region that is valid for the job (R199, R248)? -/
def State.residentHit (s : State) (k : CoreIx) (t : Tile) (rows : List (Nat × Nat)) (n : Nat) : Bool :=
  (s.core k).resident.any fun r => r.1 == t.tag && inRegion rows n r.2

/-- Land loaded rows: (tile address, bytes). A poisoned granule is an uncorrectable tile memory error (R336); which rows have landed by then is not known
(R216). -/
def State.landRows (s : State) (k : CoreIx) (t : Tile) (p : Prog) (w : Nat) (poison : Option Nat) (rows : List (Nat × List Byte)) : State :=
  match poison with
  | some a => ((s.undefineTm k (rows.map fun r => (r.1, r.2.length))).tmUncorrectable k).abandon k 4 0 a 0 ((s.core k).blame t.pc w 0)
  | none =>
    let skip := haloRanges p t
    let tm := rows.foldl (fun m r => putLoaded m skip r.1 r.2) (s.core k).tm
    let rs := rows.map fun r => (r.1, r.2.length)
    let s := s.modCore k fun c => c.writeTm tm rs
    s.launch k w [unitPort] rs (p.filled (rows.map fun r => (r.1, 0)) (bits w 213 198 + 1)) false

/-- The FETCH slots that Oasis ranges touch are all FULL for a group (R347). A read of a group that KEEP does not keep for the tile's own does not wait:
it returns whatever the slot holds. -/
def State.fetchReady (s : State) (t : Tile) (rows : List (Nat × Nat)) (n : Nat) (g : Int) : Bool :=
  s.cmd.streams.all fun x => x.tag != t.tag || x.kind != 0 || x.flag 1 || (!x.flag 0 && decide (g + (x.field 5 1 : Int) < t.g)) ||
    (List.range x.nslots).all fun i =>
      let lo := x.base + i * x.slotBytes
      !(rows.any fun r => decide (r.2 < lo + x.slotBytes) && decide (lo < r.2 + n)) || (match x.slot i with
        | some (h, .full) => x.flag 0 || h == g
        | _ => false)

/-- Publish the tracked slots whose Oasis copies a load touches (R161, R359). -/
def State.pubNeed (s : State) (rows : List (Nat × Nat)) (n : Nat) (g : Int) : State :=
  let pub := s.reg Reg.streamPubBase
  if !bitAt pub 0 then s
  else
    let base := bits pub 25 14 * 16384
    (List.range (s.reg Reg.streamPubCount)).foldl (fun (u : State) m =>
      let lo := base + m * 16384 + (g % 16).toNat * 1024
      if u.odFlag (Od.trkEnable m) && rows.any (fun r => decide (r.2 < lo + 1024) && decide (lo < r.2 + n)) then u.needSlot m g else u) s

/-- The multicast stream of an argument slot. -/
def State.mcastOf (s : State) (tag arg : Nat) : Option Nat := s.cmd.streams.findIdx? fun x => x.tag == tag && x.arg == arg && x.flag 1

/-- Where byte i of a list's byte space lies: space and address (R343). -/
def extentAt : List (Nat × Nat × Nat) → Nat → Option (Nat × Nat)
  | [], _ => none
  | (a, n, sp) :: r, i => if i < n then some (sp, a + i) else extentAt r (i - n)

/-- A byte of a byte space, and whether it is poisoned. -/
def State.spaceByte (s : State) (l : List (Nat × Nat × Nat)) (i : Nat) : Byte × Bool :=
  match extentAt l i with
  | some (0, a) => ((s.readDram a 1).headD 0, s.dramPoisoned a 1)
  | some (1, a) => ((s.readHost a 1).headD 0, false)
  | some (_, a) => ((s.readOasis a 1).headD 0, s.oasisPoisoned a 1)
  | none => (0, false)

/-- What a read of n bytes of a byte space from an offset meets (R335, R341). -/
def State.spaceSeen (s : State) : List (Nat × Nat × Nat) → Nat → Nat → State
  | [], _, _ => s
  | (a, m, sp) :: r, off, n =>
    if m ≤ off then s.spaceSeen r (off - m) n
    else
      let k := min n (m - off)
      (match sp with
        | 0 => s.dramSeen (a + off) k false
        | 1 => s
        | _ => s.oasisSeen (a + off) k).spaceSeen r 0 (n - k)

/-- Must an access to n bytes of a byte space from an offset wait for a DRAM bank or channel that a trim item holds (R519)? -/
def State.spaceHeld (s : State) (l : List (Nat × Nat × Nat)) (off n : Nat) : Bool :=
  (spaceParts l off n).any fun e => e.2.2 == 0 && s.dramHeld e.1 e.2.1

/-- Pending requests of the stream engine may be merged while MERGE is 1 (R352). -/
def State.streamUsed (s : State) : State := if bitAt (s.reg Reg.streamCtrl) 8 then s.countFree [Reg.streamMerged] else s

/-- Raise a stream bit whose event is written once per stream and line group (R354, R367); a stream is known by its job and argument. -/
def State.streamLimited (s : State) (b : Nat) (x : Stream) (g : Int) : State :=
  let key := 2 ^ 62 + b * 65536 + x.tag % 4096 * 16 + x.arg
  if s.cmd.lastEvent.told key g then s.raiseInt .stream b
  else (s.modCmd fun c => { c with lastEvent := c.lastEvent.tell key g }).raiseStatusAt (s.groupLsn g) .stream b 2 x.arg 0xFF 0

/-- Bytes of copies. -/
def copyBytes (copies : List (Nat × Nat × Nat)) : Nat := (copies.map fun c => c.2.2).sum

/-- The engine reads the DRAM ranges of copies once (R353). -/
def State.readCopies (s : State) (x : Stream) (g : Int) (copies : List (Nat × Nat × Nat)) : State :=
  ((copies.foldl (fun (u : State) c => u.spaceSeen x.extents (x.source g c.2.1) c.2.2) s).count64 Reg.streamBytesRead (copyBytes copies)).streamUsed

/-- Deliver copies (tile address, slot offset, bytes) to a core: its TLOAD that waits for them completes (R353). -/
def State.deliver (s : State) (x : Stream) (g : Int) (k : CoreIx) (copies : List (Nat × Nat × Nat)) : State :=
  let data := copies.map fun c => (c.1, (List.range c.2.2).map fun i => s.spaceByte x.extents (x.source g (c.2.1 + i)))
  let rs := copies.map fun c => (c.1, c.2.2)
  match (s.core k).tile with
  | none => s
  | some t =>
    let mine := t.flights.find? fun f => f.waits && f.ranges == rs
    let bad := copies.find? fun c => (List.range c.2.2).any fun i => (s.spaceByte x.extents (x.source g (c.2.1 + i))).2
    match bad with
    | some c => ((s.streamLimited 0x80 x g).tmUncorrectable k).abandon k 4 0 (x.slotAddr g + c.2.1) 0
        ⟨0x01, (mine.map fun f => f.index).getD 0xFFFF, 0, 0⟩
    | none =>
      let p := ((s.core k).prog.map Prod.snd).getD []
      let skip := haloRanges p t
      let s := s.modCore k fun c => c.writeTm (data.foldl (fun m d => putLoaded m skip d.1 (d.2.map Prod.fst)) c.tm) rs
      s.modTile k fun y => { y with flights := y.flights.map fun f => if some f == mine then { f with waits := false } else f }

/-- A TLOAD joins the round of its range, or is served by unicast refetch once that has started, or is due to start because MCAST_N TLOADs have joined
(R353, R354). -/
def State.mcastJoin (s : State) (k : CoreIx) (t : Tile) (p : Prog) (w i : Nat) (rows : List (Nat × Nat)) : State :=
  match s.cmd.streams[i]? with
  | none => s
  | some x =>
    let g := xferGroup t w
    let n := bits w 213 198 + 1
    let lo := (rows.map Prod.snd).foldl min ((rows.map Prod.snd).headD 0)
    let hi := (rows.map Prod.snd).foldl max 0 + n
    let copies := rows.map fun r => (r.1, r.2 - x.slotAddr g, n)
    let s := s.launch k w [unitPort] (rows.map fun r => (r.1, n)) (p.filled rows n) true
    let isHit := fun (r : Round) => decide (r.g = g) && r.lo == lo && r.hi == hi
    match x.rounds.find? isHit with
    | none =>
      let r : Round := { g := g, lo := lo, hi := hi, joined := [(k.val, copies)], started := false }
      s.modStream i fun (x : Stream) => { x with rounds := x.rounds ++ [r] }
    | some r =>
      if r.started || byteAt x.desc 3 ≤ r.joined.length then ((s.readCopies x g copies).deliver x g k copies).count64 Reg.streamUnicastRefetch 1
      else
        let join := fun (q : Round) => if isHit q then { q with joined := q.joined ++ [(k.val, copies)] } else q
        s.modStream i fun (x : Stream) => { x with rounds := x.rounds.map join }

/-- A linear TLOAD (R246). -/
def State.loadLinear (s : State) (k : CoreIx) (t : Tile) (p : Prog) (w : Nat) : State :=
  let n := bits w 213 198 + 1
  let dst := (State.xferRows t p w 0).map fun r => (r.1, 0)
  let stOut := decide (xferStripe t w < 0) || decide ((s.stripes : Int) ≤ xferStripe t w)
  if stOut then s.landRows k t p w none (dst.map fun r => (r.1, List.replicate n 0))
  else match s.xferBad t p w with
    | some (a, l) => s.abandon k 2 2 a l ((s.core k).blame t.pc w 0)
    | none =>
      let arg := dArg (p.desc (bits w 231 224))
      let base := ((s.argSpan t.tag arg).map Prod.fst).getD 0
      let rows := State.xferRows t p w base
      match s.mcastOf t.tag arg with
      | some i => s.mcastJoin k t p w i rows
      | none =>
        let s := s.pubNeed rows n (xferGroup t w)
        if !s.fetchReady t rows n (xferGroup t w) then s
        else
          let bad := (rows.find? fun r => s.oasisPoisoned r.2 n).map Prod.snd
          (rows.foldl (fun (u : State) r => u.oasisSeen r.2 n) s).landRows k t p w bad (rows.map fun r => (r.1, s.readOasis r.2 n))

/-- A web-mode TLOAD (R247): the column's bytes from the ring of the camera whose placed window holds it, or zeros outside the device's window. -/
def State.loadWeb (s : State) (k : CoreIx) (t : Tile) (p : Prog) (w : Nat) : State :=
  let d := p.desc (bits w 223 216)
  let fa := max 1 s.fa
  let e := s.od Od.fsOutChStride * outBytes (s.od Od.fsOutOutFormat)
  let m0 := t.g * s.lineGroup / (fa : Int)
  let lo : Int := (s.od Od.webWindowFirst : Int) / (s.fx : Int)
  let hi : Int := ((s.od Od.webWindowFirst + s.od Od.webWindowWidth : Nat) : Int) / (s.fx : Int)
  let cols := (List.range (bits w 105 90 + 1)).map fun j => s.stripeCol t.stripe + toSigned 16 (bits w 121 106) + (j : Int)
  let camOf := fun (c : Int) => if decide (c < lo) || decide (hi ≤ c) then none else
    s.enabledPorts.find? fun q => decide ((s.placedCols q).1 ≤ c) && decide (c ≤ (s.placedCols q).2)
  let lines := (List.range (bits w 197 186 + 1)).map fun q => m0 + toSigned 12 (bits w 89 78) + (q : Int)
  let tagAt := fun (c : PortIx) (m : Int) => s.fsReg c Reg.fsTagBase + 16 * slotOf m (s.fsReg c Reg.fsRingSlots)
  let used := uniq ((cols.filterMap camOf).map fun c => c.val)
  let lostTag := lines.findSome? fun m => (used.map fun c => (⟨c % 16, Nat.mod_lt _ (by decide)⟩ : PortIx)).findSome? fun c =>
    if s.oasisPoisoned (tagAt c m) 16 then some (tagAt c m) else none
  let addr := fun (m c : Int) => match camOf c with
    | some q => some (s.fsReg q Reg.fsRingBase + slotOf m (s.fsReg q Reg.fsRingSlots) * s.fsReg q Reg.fsRingPitch + (c - (s.placedCols q).1).toNat * e)
    | none => none
  let bad := if lostTag.isSome then lostTag else lines.findSome? fun m => cols.findSome? fun c => match addr m c with
    | some a => if s.oasisPoisoned a e then some a else none
    | none => none
  let badTag := if bad.isSome then none else lines.findSome? fun m => (used.map fun c => (⟨c % 16, Nat.mod_lt _ (by decide)⟩ : PortIx)).findSome? fun c =>
    if ofLeBytes (s.readOasis (tagAt c m) 6) = mod48 (m * fa) then none else some (tagAt c m)
  match badTag with
  | some a => s.abandon k 2 0xA a 0 ((s.core k).blame t.pc w 0)
  | none =>
    let rows := (lines.zip (List.range lines.length)).map fun mq =>
      (dBase d + mq.2 * dP1 d, cols.flatMap fun c => match addr mq.1 c with
        | some a => s.readOasis a e
        | none => List.replicate e 0)
    let reads := lines.flatMap fun m => (used.map fun c => (tagAt ⟨c % 16, Nat.mod_lt _ (by decide)⟩ m, 16)) ++ cols.filterMap fun c => (addr m c).map fun a => (a, e)
    let s := (uniq (reads.flatMap fun r => unitsOf 64 r.1 r.2)).foldl (fun (u : State) g => u.oasisSeen (64 * g) 64) s
    s.landRows k t p w bad rows

/-- TLOAD: into a region that is valid for the job it moves nothing, in either mode (R199, R248). -/
def execTload (core : CoreIx) (s : State) : Result := s.act fun s => s.issue core 0x01 fun s t p w =>
  let n := bits w 213 198 + 1
  let dst := (State.xferRows t p w 0).map fun r => (r.1, 0)
  if s.residentHit core t dst n then (s.count64 (Reg.coreResidentHits core) (n * dst.length)).advance core
  else if bits w 215 214 = 1 then s.loadWeb core t p w else s.loadLinear core t p w

/-- The stream of a job whose slot a store touches: its index. -/
def State.storeStream (s : State) (t : Tile) (p : Prog) (w : Nat) : Option (Nat × Stream) :=
  let i := s.cmd.streams.findIdx? fun x => x.tag == t.tag && x.arg == dArg (p.desc (bits w 231 224))
  match i with
  | some i => (s.cmd.streams[i]?).map fun x => (i, x)
  | none => none

/-- Has another won tile of the job, of another group or the other part of it, stored into the slot of g, so that its record will lie there (R360)? -/
def State.slotStored (s : State) (t : Tile) (x : Stream) (g : Int) : Bool := s.cores.toList.any fun c => c.tile.any fun u =>
  u.tag == t.tag && u.commit == .won && !(u.g == t.g && u.part2 == t.part2) &&
    u.stored.any fun r => decide (r.1 < x.slotAddr g + x.slotBytes) && decide (x.slotAddr g < r.1 + r.2)

/-- Must a TSTORE wait: its SPILL slot is not free for the group, or records of another group, or of the other part of it, lie or are being stored in its
EGRESS slot (R348, R360)? -/
def State.storeHeld (s : State) (t : Tile) (x : Stream) (g : Int) : Bool :=
  if x.kind = 1 then (match x.slot (x.slotNo g) with
    | none => false
    | some (h, .written) => h != g
    | some _ => true)
  else if x.kind = 2 then (match s.jobOf t.tag with
    | some j => s.slotStored t x g ||
        j.outs.any fun o => o.arg == some x.arg && o.ready.any fun r => r.pages.isEmpty && !(r.g == g && r.part2 == t.part2) && x.slotNo r.g == x.slotNo g
    | none => false)
  else false

/-- TSTORE of a won tile: rows move to Oasis as read, an uncorrectable error sets the data-error flag (R182, R246, R266). -/
def execTstore (core : CoreIx) (s : State) : Result := s.act fun s => s.issue core 0x02 fun s t p w =>
  let n := bits w 213 198 + 1
  if t.commit != .won then s
  else if xferStripe t w < 0 ∨ (s.stripes : Int) ≤ xferStripe t w then s.advance core
  else
    let g := xferGroup t w
    let base := ((s.argSpan t.tag (dArg (p.desc (bits w 231 224)))).map Prod.fst).getD 0
    let rows := State.xferRows t p w base
    let target := s.storeStream t p w
    if (match target with
      | some (_, x) => s.storeHeld t x g
      | none => false) then s
    else
      let v := s.view core t p [unitPort]
      let cells := rows.map fun r => (r.1, n)
      let bad := ((s.core core).tmPoison.filter fun b => cells.any fun r => touches 8 r.1 r.2 [b]).map (· / 8) |>.dedup
      let s := match target with
        | some (i, x) => if x.kind = 1 then s.modStream i fun y => y.setSlot (y.slotNo g) (some (g, .written)) else s
        | none => s
      let s := (rows.foldl (fun (u : State) r => u.writeOasis r.2 (v.read r.1 n)) s).oasisUsed
      let s := bad.foldl (fun (u : State) b => (u.tmUncorrectable core).modCore core fun c => c.dropAt (8 * b)) (s.tmCorrected core t cells)
      let s := s.modTile core fun x => { x with dataError := x.dataError || !bad.isEmpty, stored := x.stored ++ rows.map fun r => (r.2, n) }
      ({ s with freeCtr := s.freeCtr + 1 }).launch core w [unitPort] [] [] false

/-! ### Commit (R266, R385) -/

/-- The run-time checks of the stores and signals that follow a TCOMMIT (R266 step 1): code, address, limit, and the index of the instruction. -/
def State.commitFault (s : State) (t : Tile) (p : Prog) : Option (Nat × Nat × Nat × Nat) :=
  ((List.range p.instrCount).filter (t.pc < ·)).findSome? fun i =>
    let w := p.instr i
    if iOp w = 0x02 then (s.xferBad t p w).map fun b => (2, b.1, b.2, i)
    else if iOp w = 0x33 then (match s.syncObject t w with
      | some o => if 16383 < o then some (0xB, o, 16383, i) else none
      | none => none)
    else none

/-- A won commit (R385, R266): the bit is set, leases end, statistics and candidates are taken, and the tile's staged effects, its tokens among them,
wait behind those of the tiles that committed before it (R322, R323). -/
def State.commitWon (s : State) (k : CoreIx) (t : Tile) : State :=
  let s := s.modWellTile t fun x => { x with won := some t.tsn, reissue := false, insts := x.insts.map fun i => { i with lease := false } }
  let s := s.modCmd fun u => { u with committed := if u.committed.contains (t.g, t.part2) then u.committed else ((t.g, t.part2) :: u.committed).take 64 }
  let s := t.stats.foldl (fun (u : State) q => u.foldStats q.1 q.2) s
  let s := if t.staged.isEmpty then s else s.modCtx fun c => { c with batches := c.batches ++ [⟨k, t.g, t.part2, t.stripe, t.firstLsn, t.tag, t.staged⟩] }
  let s := s.detReceive t
  (s.modTile k fun x => { x with commit := .won }).advance k

/-- A lost commit: the tile's effects are discarded and it is finished on its core. -/
def State.commitLost (s : State) (k : CoreIx) (t : Tile) (cancelled : Bool) : State :=
  let s := if cancelled then s.countOd Od.jobTilesCancelled 1
    else (s.countOd Od.jobDupDiscarded 1).modJob t.tag fun j => { j with dups := j.dups + 1 }
  let s := if t.staged.isEmpty then s else s.count32 Reg.ctxDiscarded 1
  (s.modWellTile t fun x => { x.endInst t.tsn with insts := (x.endInst t.tsn).insts.map fun i => if i.tsn = t.tsn then { i with lease := false } else i }).coreIdle k

/-- TCOMMIT: the checks of later stores, then the first-wins test. -/
def execTcommit (core : CoreIx) (s : State) : Result := s.act fun s => s.issue core 0x31 fun s t p _ =>
  match s.commitFault t p with
  | some (code, a, l, i) => s.abandon core 2 code a l ((s.core core).blame i (p.instr i) 0)
  | none => match s.jobOf t.tag with
    | none => s.stopTile core
    | some j =>
      let wt := j.tile t.g t.part2 t.stripe
      if wt.won.isSome then s.commitLost core t false
      else if s.tileCancelled j wt then s.commitLost core t true
      else s.commitWon core t

/-! ### Phases and the end of a tile -/

/-- Where a substituted halo's source column begins, relative to its BASE (R392). -/
def haloSource (side d : Nat) : Int := if side = 1 then (dX1 d * dP1 d : Nat) else -((dP1 d : Nat) : Int)
/-- The cells of a halo descriptor's columns: offsets of channel and line. -/
def haloCells (d : Nat) : List (Nat × Nat) := (List.range (dX2 d)).flatMap fun i2 => (List.range (dC d)).map fun c => (dChanOff d c, i2 * dP2 d)
/-- The first source address that leaves the allocation (class 2, code 0x01), where one does: its address, as the 22 bits that name a byte of tile memory
(DESIGN CHOICE, log entry 144, below address 0), and the limit. -/
def haloBad (p : Prog) (side d : Nat) : Option (Nat × Nat) :=
  ((haloCells d).map fun o => (dBase d : Int) + (o.1 : Int) + (o.2 : Int) + haloSource side d).findSome? fun (a : Int) =>
    if a < p.allocBase then some ((a % 2 ^ 22).toNat, p.allocBase)
    else if (p.allocEnd : Int) < a + dElem d then some ((max a p.allocEnd).toNat, p.allocEnd) else none
/-- Fill a substituted halo by edge replication (R392). -/
def haloFill (tm : Mem) (space epoch : Nat) (side d : Nat) : Mem :=
  (haloCells d).foldl (fun (m : Mem) o =>
    let a := ((dBase d : Int) + o.1 + o.2 + haloSource side d).toNat
    let bs := tm.read space epoch a (dElem d)
    (List.range (dX1 d)).foldl (fun (m : Mem) i1 => m.write (dBase d + o.1 + o.2 + i1 * dP1 d) bs) m) tm

/-- Fill one substituted side: a source with an uncorrectable error is that fault, and one outside the allocation is the resource fault 0x01; the first is
recorded where both hold (R271). What has been filled by then is undefined (R216). -/
def State.fillHalo (s : State) (k : CoreIx) (t : Tile) (p : Prog) (h : Nat × Nat × Bool) : State :=
  let d := p.desc h.2.1
  let cells := (haloCells d).map fun o => (((dBase d : Int) + o.1 + o.2 + haloSource h.1 d).toNat, dElem d)
  let out := (haloCells d).flatMap fun o => (List.range (dX1 d)).map fun i1 => (dBase d + o.1 + o.2 + i1 * dP1 d, dElem d)
  let s := s.tmCorrected k t cells
  match s.readsPoison k [(0, cells)] with
  | some (_, a) => ((s.undefineTm k out).tmUncorrectable k).abandon k 4 0 a 0 (noBlame 0)
  | none =>
    match haloBad p h.1 d with
    | some (a, l) => (s.undefineTm k out).abandon k 2 1 a l (noBlame 0)
    | none => (s.modCore k fun c => c.writeTm (haloFill c.tm (spaceTile k) c.epoch h.1 d) out).modTile k fun x => { x with
        subst := x.subst.map fun y => if y.1 = h.1 && y.2.1 == h.2.1 then (y.1, y.2.1, true) else y }

/-- Fill every substituted side that waits for it. -/
def State.fillHalos (s : State) (k : CoreIx) (t : Tile) (p : Prog) : State :=
  (t.subst.filter fun h => !h.2.2).foldl (fun (u : State) h => if (u.core k).tile.isSome then u.fillHalo k t p h else u) s

/-- PHASE_CHANGE: after the phase's last instruction has completed the core takes the phase of its next instruction (R213). -/
def execPhaseChange (core : CoreIx) (s : State) : Result := s.act fun s =>
  match s.nextInstr core with
  | none => s
  | some (t, p, w) =>
    let cl := opClass (iOp w)
    if phaseOk (s.core core).phase cl || !t.settled || t.wait.isSome then s
    else
      let fill := (s.core core).phase == .load && cl == .compute
      let s := (s.retire core fun _ => true).modCore core fun c => { c with phase := phaseOf c.phase cl }
      if fill then s.fillHalos core t p else s

/-- OPE_DRAIN_DONE: a drain has read its bank's last row, and the bank is free (R188). -/
def execOpeDrainDone (core : CoreIx) (ope : Fin 8) (quad : Option (Fin 4)) (bank : Bool) (s : State) : Result := s.act fun s =>
  s.modTile core fun t => { t with draining := t.draining.filter fun d =>
    !(d.1 == ope.val && d.2.1 == ((quad.map fun q => q.val).getD 4) && d.2.2 == bit bank) }

/-- A finished tile's records become ready (R360); `early` says that the on-time deadline has not passed
and an earlier record of the stream is outstanding (R44). -/
def State.recordsReady (s : State) (t : Tile) : State :=
  let early := match s.web.completeGroup with
    | some c => decide (c < t.g + 3)
    | none => true
  s.modOuts t.tag fun o =>
    let first := o.g == t.g && o.part2 == t.part2 && o.stripe == t.stripe
    if o.arg.isSome then { o with ready := o.ready ++ [⟨t.g, t.part2, t.stripe, t.tsn, 8 * bit t.dataError, [], [], early && !first, false⟩] } else o

/-- TILE_FINISH: every instruction has completed (R242). -/
def execTileFinish (core : CoreIx) (s : State) : Result := s.act fun s =>
  match (s.core core).tile, (s.core core).prog with
  | some t, some (_, p) =>
    if t.pc < Prog.instrCount p || !t.settled || t.commit != .won || s.groupDone t.g 8 then s
    else
      let s := s.retire core fun _ => true
      let s := s.modWellTile t fun x => { x.endInst t.tsn with finished := true }
      let s := s.modJob t.tag fun j => { j with finishedTiles := j.finishedTiles + 1, flags := Nat.lor j.flags (bit t.dataError) }
      let s := (s.countOd (Od.coreTilesRun core) 1).recordsReady t
      ((s.coreIdle core).freeFetch t.tag none).releaseRings
  | _, _ => s

/-! ### Waits, deadlines and leases -/

/-- Does the condition of a core's waiting TWAIT hold (R388, R389, R428)? -/
def State.coreWaitHolds (s : State) (k : CoreIx) (t : Tile) (o v side : Nat) : Bool :=
  s.twaitHolds t o v ((s.nextInstr k).any fun n => bitAt n.2.2 173) side

/-- HALO_DEADLINE: the deadline of a halo TWAIT passes first, and its side is substituted (R391 to R393). A condition that holds by then ends the wait
instead. -/
def execHaloDeadline (core : CoreIx) (s : State) : Result := s.act fun s =>
  match (s.core core).tile with
  | none => s
  | some t => match t.wait, s.web.completeGroup with
    | some (.sync o v side d hd), some c =>
      if side = 0 ∨ c < t.g + (d : Int) then s
      else if s.coreWaitHolds core t o v side then s.advance core
      else
        let s := s.modCmd fun u =>
          let old := ((u.haloBits.find? fun h => h.1 == t.g && h.2.1 == t.stripe).map fun h => h.2.2).getD 0
          { u with haloBits := (t.g, t.stripe, Nat.lor old (16 * side)) :: u.haloBits.filter fun h => !(h.1 == t.g && h.2.1 == t.stripe) && s.newest16 h.1 }
        let s := (s.countOd Od.jobHaloSubstituted 1).modJob t.tag fun j => { j with flags := Nat.lor j.flags 4 }
        let key := 2 ^ 60 + (side * 2048 + t.stripe)
        let s := if s.cmd.lastEvent.told key t.g then s.raiseInt .cmd 0x20
          else ((s.modCmd fun u => { u with lastEvent := u.lastEvent.tell key t.g }).raiseInt .cmd 0x20).eventAt t.firstLsn 3 5
            (leBytes 2 t.tag ++ leBytes 2 t.stripe ++ leBytes 4 t.tsn ++ leBytes 1 core ++ leBytes 1 side)
        (s.modTile core fun x => { x with subst := x.subst ++ [(side, hd, false)] }).advance core
    | _, _ => s

/-- Does a tile's core hold in a TWAIT, or in the wait of a TOKEN_GET or a STATE_LOAD at the head of its queue (R308, R311, R384)? -/
def Tile.holds (t : Tile) : Bool :=
  t.wait.isSome || t.ctxq.head?.any fun o => bits o.word 231 228 == 5 || bits o.word 231 228 == 2

/-- LEASE_EXPIRY: the live lease of an instance expires (R384); it stands still in HOLD and while the tile's core waits. -/
def execLeaseExpiry (tsn : W32) (s : State) : Result := s.act fun s =>
  let hit := s.jobs.findSome? fun (tag, j) => (j.tiles.find? fun w => w.insts.any fun i => i.tsn == tsn.toNat && i.lease).map fun w => (tag, j, w)
  match hit with
  | none => s
  | some (tag, j, w) =>
    let inst := w.insts.find? fun i => i.tsn == tsn.toNat
    let waits := (List.finRange 32).any fun k => match (s.core k).tile with
      | some t => t.tsn == tsn.toNat && t.holds
      | none => false
    if s.dev.state = .hold || waits || w.won.isSome || s.tileCancelled j w then s
    else
      let newer := (w.insts.getLast?.map fun i => i.tsn != tsn.toNat && i.lease).getD false
      let s := s.modJob tag fun j => j.setTile { w with
        reissue := w.reissue || !newer
        insts := w.insts.map fun i => if i.tsn = tsn.toNat then { i with lease := false } else i }
      let s := s.countOd Od.jobLeasesExpired 1
      let core := match inst with
        | some i => if i.ended then 0xFF else i.core
        | none => 0xFF
      let key := 2 ^ 61 + tag
      if s.cmd.lastEvent.told key w.g then s.raiseInt .cmd 0x10
      else ((s.modCmd fun u => { u with lastEvent := u.lastEvent.tell key w.g }).raiseInt .cmd 0x10).eventAt (s.groupLsn w.g) 3 4
        (leBytes 2 tag ++ leBytes 2 w.stripe ++ leBytes 4 tsn.toNat ++ leBytes 1 core)

/-! ### Core registers (R183, R218, R222, R223, R219 to R221) -/

/-- The frequency in force (R222, R544, R550). -/
def State.coreMhz (s : State) (k : CoreIx) : Nat := min (s.od (Od.coreFreqTarget k)) (s.freqCap k)

/-- Is a higher voltage asked for and not reached (R542)? A raised clock waits for it (DEDUCED, log entry 158). -/
def State.voltageRises (s : State) : Bool := match s.pwr.avsRequested with
  | some t => decide (s.pwr.avsReached < t)
  | none => false

/-- CLOCK_GLIDE_STEP: the clock moves 50 MHz towards the frequency in force (R223). The device raises the voltage before it raises a frequency (R542): a
clock does not rise while a higher target is asked for and not reached. Whether a frequency needs a higher target is for the speed monitors to show. -/
def execClockGlideStep (core : CoreIx) (s : State) : Result := s.act fun s =>
  if !s.pwr.cores.getLsbD core then s
  else s.modCore core fun c =>
    let f := s.coreMhz core
    { c with mhz := if c.mhz < f then (if s.voltageRises then c.mhz else min f (c.mhz + 50)) else if f < c.mhz then max f (c.mhz - 50) else c.mhz }

/-- The level that R220 gives after a step: it rises by 1 in a LOAD phase and falls by 1 otherwise. -/
def sandStep (load : Bool) (l : Nat) : Nat := if load then min 16 (l + 1) else l - 1

/-- SAND_FILL_STEP: a fill level rises by 1 in a LOAD phase and falls by 1 otherwise (R220); while sand fill is stopped it is held at 0 (R221), and after
that it first rises by 1 to the level that R220 gives (R546). The fill cycles of the block of 16 that begins are counted (R219): those of one OPE, or of
one quad. DESIGN CHOICE (log entry 142): outside a LOAD phase a level that still rises does not fall as well in the same step. -/
def execSandFillStep (core : CoreIx) (ope : Fin 8) (quad : Option (Fin 4)) (s : State) : Result := s.act fun s =>
  let i := 4 * ope.val + (quad.map fun q => q.val).getD 0
  let isHit := fun j => if quad.isSome then j == i else j / 4 == ope.val
  let load := (s.core core).phase == .load
  let goal := fun (c : Core) (j l : Nat) =>
    if isHit j && (load || s.sandTop = 0 || c.sand.getD j 0 == l) then sandStep load l else l
  let next := fun (c : Core) (j l : Nat) =>
    if !isHit j then l
    else if s.sandTop = 0 then 0
    else if l = c.sandGoal.getD j 0 then sandStep load l else min 16 (l + 1)
  let s := s.modCore core fun c => { c with sand := c.sand.mapIdx (next c), sandGoal := c.sandGoal.mapIdx (goal c) }
  s.count64 (Reg.coreSandCycles core) ((s.core core).sand.getD i 0)

/-- Is the tile memory window open (R183): the core idle and parked, or OFFLINE? -/
def State.tmOpen (s : State) (k : CoreIx) : Bool :=
  ((s.core k).tile.isNone && (s.core k).parked) || !s.coreInService k

/-- CORE_TM_DATA_ACCESS: 4 bytes at CORE_TM_ADDR, which then advances by 4; refused while the core runs (R183). A read meets the errors of its word
(R182): a corrected one is counted; for one that is uncorrectable, DESIGN CHOICE (log entry 143): it is counted and the data delivered as read. -/
def execCoreTmDataAccess (core : CoreIx) (write : Option W32) (s : State) : Result := s.act fun s =>
  if !s.dev.state.ready then s
  else if !s.tmOpen core then
    let s := s.setReg (Reg.coreTmStatus core) 1
    match write with
    | some _ => s
    | none => s.send (.readData 0)
  else
    let a := s.reg (Reg.coreTmAddr core)
    let s := (s.setReg (Reg.coreTmStatus core) 0).setReg (Reg.coreTmAddr core) ((a + 4) % 2 ^ 22)
    let inside := decide (a + 4 ≤ 0x300000)
    match write with
    | some v => if inside && s.pwr.cores.getLsbD core then s.modCore core fun c => c.writeTm (c.tm.write a (leBytes 4 v.toNat)) [(a, 4)] else s
    | none =>
      if inside && s.pwr.cores.getLsbD core then
        let v := ofLeBytes ((s.core core).tm.read (spaceTile core) (s.core core).epoch a 4)
        let s := if (s.core core).tmPoison.any fun b => touches 8 a 4 [b] then s.tmUncorrectable core else s.tmCorrectedAt core s.nowGroup s.web.lastLsn [(a, 4)]
        s.send (.readData v)
      else s.send (.readData 0)

end Sys2Proof.Machine
end

