-- ==== Sys2Proof/Machine/Detect.lean ====
section
/-! DEFINITION. Detection after a group's tiles: suppression, carrying over, border sets, the cross-device step and the list (R287 to R293). -/

namespace Sys2Proof.Machine

/-- tq of R288: IOU_THRESH × 2^24 rounded to an integer. -/
def State.iouTq (s : State) : Int := roundInt ((read32 (s.od Od.detIouThresh)).toRat * 16777216)

/-- The overlap of two boxes in one direction. -/
def overlap (a0 a1 b0 b1 : Int) : Int := max 0 (min a1 b1 - max a0 b0)
def Box.area (a : Box) : Int := (a.x1 - a.x0) * (a.y1 - a.y0)
/-- Do two boxes meet the threshold (R288)? -/
def Box.meets (tq : Int) (a b : Box) : Bool :=
  let inter := overlap a.x0 a.x1 b.x0 b.x1 * overlap a.y0 a.y1 b.y0 b.y1
  let union_ := a.area + b.area - inter
  if union_ = 0 then a.x0 == b.x0 && a.x1 == b.x1 && a.y0 == b.y0 && a.y1 == b.y1 else decide (tq * union_ ≤ inter * 16777216)
/-- Are two boxes of one class, or classes ignored (R288)? -/
def Box.sameClass (agnostic : Bool) (a b : Box) : Bool := agnostic || a.cls == b.cls

/-- Does a kept box continue a carried one (R289)? -/
def Box.continuesBox (tq : Int) (agnostic : Bool) (carry : Nat) (b c : Box) : Bool :=
  let w := min (b.x1 - b.x0) (c.x1 - c.x0)
  b.sameClass agnostic c && decide (b.y0 - c.y1 ≤ (16 * carry : Nat)) && decide (0 < w) && decide (tq * w ≤ (min b.x1 c.x1 - max b.x0 c.x0) * 16777216)

/-- One candidate of the pass of R288: kept boxes (in order), suppressed, truncated. -/
def suppressOne (tq : Int) (agnostic : Bool) (keepMax : Nat) (r : List Box × Nat × Nat) (c : Box) : List Box × Nat × Nat :=
  let (kept, sup, trunc) := r
  if keepMax ≤ kept.length then (kept, sup, trunc + 1)
  else if kept.any fun k => k.sameClass agnostic c && k.meets tq c then (kept, sup + 1, trunc)
  else (kept ++ [c], sup, trunc)

/-- The sides on which the device has a neighbour (R290). -/
def State.neighbours (s : State) : List LinkIx := (List.finRange 2).filter fun l => s.odFlag (Od.linkLinkEnable l)

/-- The border set of a side, in candidate order, and whether it was cut at 256 (R290). -/
def State.borderSet (s : State) (l : LinkIx) (kept : List Box) : List Box × Bool :=
  let first : Int := s.od Od.webWindowFirst
  let width : Int := s.od Od.webWindowWidth
  let b : Int := s.od Od.detBorder
  let all := kept.filter fun x => if l = 0 then decide (x.x0 < 16 * (first + b)) else decide (16 * (first + width - b) < x.x1)
  (all.take 256, decide (256 < all.length))

/-- A box record (R293). -/
def boxRecord (lsn : Nat) (b : Box) : List Byte :=
  leBytes 6 lsn ++ leBytes 1 b.cls ++ leBytes 1 (bit b.continues + 2 * bit b.border) ++ leBytes 4 (ofSigned 32 b.x0) ++ leBytes 4 (ofSigned 32 b.x1) ++
  leBytes 4 (ofSigned 32 b.y0) ++ leBytes 4 (ofSigned 32 b.y1) ++ leBytes 4 b.score ++ leBytes 2 b.stripe ++ leBytes 1 b.device ++ [0]

/-- The box of a record received from a neighbour. -/
def readBox (bs : List Byte) : Box :=
  { score := fieldAt bs 24 4, cls := byteAt bs 6, x0 := toSigned 32 (fieldAt bs 8 4), y0 := toSigned 32 (fieldAt bs 16 4), x1 := toSigned 32 (fieldAt bs 12 4),
    y1 := toSigned 32 (fieldAt bs 20 4), device := byteAt bs 30, stripe := fieldAt bs 28 2, pos := 0, anchor := 0, continues := bitAt (byteAt bs 7) 0,
    border := true }

/-- The list's bytes (R292). -/
def listBytes (lsn : Nat) (d : DetSlot) (kept : List Box) : List Byte :=
  leBytes 6 lsn ++ leBytes 1 d.flags ++ [0] ++ leBytes 2 kept.length ++ leBytes 2 (min d.received 0xFFFF) ++ leBytes 2 (min d.suppressed 0xFFFF) ++
  leBytes 2 d.dropped ++ List.replicate 16 0 ++ kept.flatMap (boxRecord lsn)

/-- A group's slot is done (R286, R289, R292): its list goes to the detection output stream of the job, and its boxes near the end are carried on. -/
def State.finishList (s : State) (d : DetSlot) (kept : List Box) : State :=
  let lg := s.lineGroup
  let carry := (kept.filter fun b => decide (16 * (lg - (d.carryLines : Int)) ≤ b.y1)).map fun b =>
    (d.g, { b with y0 := b.y0 - 16 * lg, y1 := b.y1 - 16 * lg })
  let early := match s.web.completeGroup with
    | some c => decide (c < d.g + 3)
    | none => true
  let rec_ := fun (first : Bool) => (⟨d.g, d.part2, 0, 0, 0, listBytes (s.groupLsn d.g) d kept, [], early && !first, false⟩ : ReadyRec)
  let s := s.modOuts d.tag fun o => if o.arg.isNone then { o with ready := o.ready ++ [rec_ (o.g == d.g && o.part2 == d.part2)] } else o
  s.modDet fun x => { x with
    slots := x.slots.filter fun y => !y.is d.g d.part2
    sets := x.sets.filter fun y => decide (d.g < y.g)
    carry := (x.carry.filter fun y => decide (d.g ≤ y.1 + 1)) ++ carry
    last := some d.g }

/-- The cross-device step (R290, R291): the device's border boxes that a neighbour's box precedes are dropped; sides without a set leave the list
unmerged. -/
def State.mergeGroup (s : State) (d : DetSlot) (kept : List Box) : State :=
  let tq := d.tq
  let ag := d.agnostic
  let have_ := s.neighbours.filter fun l => s.det.sets.any fun x => x.side == l.val && x.g == d.g
  let others := (s.det.sets.filter fun x => x.g == d.g).flatMap fun x => x.boxes
  let final := kept.filter fun b => !(b.border && others.any fun o => o.sameClass ag b && o.meets tq b && o.before b)
  let missing := s.neighbours.filter fun l => !have_.contains l
  let un := (missing.map fun l => if l = 0 then 8 else 16).sum
  let d := { d with flags := Nat.lor d.flags un, dropped := kept.length - final.length }
  let s := (s.count32 Reg.detBorderDropped d.dropped).count32 Reg.detUnmergedGroups missing.length
  (if missing.isEmpty then s else s.detStatusEvent 4 d.g).finishList d final

/-- The group whose slot waits in the cross-device step goes on once every neighbour's set is there (R290). -/
def State.mergeIfReady (s : State) (d : DetSlot) : State :=
  match d.kept with
  | none => s
  | some kept => if s.neighbours.all fun l => s.det.sets.any fun x => x.side == l.val && x.g == d.g then s.mergeGroup d kept else s

/-- May a part of a group be suppressed (R287): its tiles have committed or been cancelled, and every list before it is written or declared missed? A
group before the first of every running job with a detection list has none. -/
def State.maySuppress (s : State) (g : Int) (part2 : Bool) : Bool :=
  s.partCommitted g part2 && !s.groupDone g 8 && !s.det.slots.any (fun x => decide (x.g < g) || (x.g == g && part2 && !x.part2)) &&
  (if part2 then s.partCommitted g false
   else (s.det.last.any (fun l => decide (g - 1 ≤ l)) || !s.jobs.any fun x => s.jobHas x.2 (g - 1) && x.2.outs.any fun o => o.arg.isNone) &&
     (!s.shortGroup (g - 1) || s.partCommitted (g - 1) true))

/-- The most cycles that a suppression takes (R294): n candidates, k kept. -/
def suppressBound (n k : Nat) : Nat :=
  let m := max n 2
  ceilDiv n 8 * (if 2 ^ m.log2 = m then m.log2 else m.log2 + 1) + n * ceilDiv k 64 + 64

/-- Suppress a group's candidates, send its border sets, and go on where no set is waited for (R287 to R290, R297). -/
def State.suppressSlot (s : State) (d : DetSlot) : State :=
  let lgn := d.g
  let due := fun (v : MirageVal) => v.key / 256 == 0x5800 && lsnReached (s.groupLsn lgn) v
  let s := s.chainWatch (s.takeDeferred due (s.groupLsn lgn))
  let tq := s.iouTq
  let ag := s.odFlag Od.detAgnostic
  let (kept, sup, trunc) := d.cands.foldl (suppressOne tq ag (s.od Od.detKeepMax)) ([], 0, 0)
  let carried := (s.det.carry.filter fun c => c.1 == lgn - 1).map Prod.snd
  let kept := kept.map fun b => { b with continues := carried.any fun c => b.continuesBox tq ag (s.od Od.detCarryLines) c }
  let sets := s.neighbours.map fun l => (l, s.borderSet l kept)
  let cut := sets.any fun x => x.2.2
  let kept := kept.map fun b => { b with border := sets.any fun x => x.2.1.contains b }
  let d' : DetSlot := { d with
    flags := Nat.lor d.flags (2 * bit (trunc != 0) + 4 * bit (bitAt (s.partFlags lgn d.part2) 0) + 32 * bit cut), suppressed := sup, kept := some kept
    tq := tq, agnostic := ag, carryLines := s.od Od.detCarryLines }
  let s := s.modDet fun x => { x with slots := x.slots.map fun y => if y.is d.g d.part2 then d' else y }
  let s := ((s.count32 Reg.detSuppressed sup).count32 Reg.detKeepTrunc trunc).count32 Reg.detContinues (kept.filter fun b => b.continues).length
  let (time, s) := s.takeFree
  let s := s.peak Reg.detSuppressMax (time.toNat % (suppressBound d.cands.length kept.length + 1))
  let s := if trunc = 0 then s else s.detStatusEvent 2 lgn
  let s := sets.foldl (fun (u : State) x =>
    let bs := x.2.1.map fun b => { b with border := true }
    (u.queueMsg x.1 3 0 (mod48 lgn) (bit x.2.2) (leBytes 2 bs.length ++ List.replicate 6 0 ++ bs.flatMap (boxRecord (u.groupLsn lgn)))).count32
      Reg.detBorderSent bs.length) s
  s.mergeIfReady d'

/-- DET_SUPPRESS (R287 to R290): the part of the group that comes next, once its tiles have committed or been cancelled and the lists before it are
written or missed. -/
def execDetSuppress (lgn : Int) (s : State) : Result := s.act fun s =>
  match s.det.slots.find? fun d => d.g == lgn && !d.part2, s.det.slots.find? fun d => d.g == lgn && d.part2 with
  | some d, _ | none, some d => if d.kept.isNone && s.maySuppress lgn d.part2 then s.suppressSlot d else s
  | none, none => s

/-- DET_MERGE_DEADLINE: a neighbour's set has not arrived by the completion of group lgn + 2, and the group completes without it (R291). -/
def execDetMergeDeadline (lgn : Int) (s : State) : Result := s.act fun s =>
  match s.det.slots.find? fun d => d.g == lgn && d.kept.isSome with
  | some d => (match d.kept with
    | some kept => if s.groupDone lgn 2 then s.mergeGroup d kept else s
    | none => s)
  | none => s

/-- The detection slots of a group that is declared missed (R286, R295): its candidates are discarded, its border sets are sent empty with no list where
they have not been sent, and it carries nothing on. `unlisted`: a list of it has not been written, so also what it had carried on is discarded. -/
def State.detMissed (s : State) (g : Int) (unlisted : Bool) : State :=
  let sent := s.det.last.any (fun l => decide (g ≤ l)) || s.det.slots.any fun d => d.g == g && d.kept.isSome
  if sent && !unlisted then s
  else
    let s := s.modDet fun x => { x with
      slots := x.slots.filter fun y => y.g != g
      sets := x.sets.filter fun y => decide (g < y.g)
      carry := x.carry.filter fun y => y.1 != g
      last := some (max g (x.last.getD g)) }
    if sent then s else s.neighbours.foldl (fun (u : State) l => u.queueMsg l 3 0 (mod48 g) 2 (List.replicate 8 0)) s

end Sys2Proof.Machine
end

