-- ==== Sys2Proof/Machine/StreamOps.lean ====
section
/-! DEFINITION. Stream descriptors, block lists and argument blocks (R343 to R346, R378), and copies (R362). -/

namespace Sys2Proof.Machine

/-- An extent list: address, bytes, space. -/
abbrev Extents := List (Nat × Nat × Nat)

/-- Does [a, a + n) lie wholly in DRAM (R332)? -/
def inDram (a n : Nat) : Bool := decide (a + n ≤ dramBytes)
/-- Does [a, a + n) lie wholly within Oasis and in powered quadrants (R342)? -/
def State.inOasis (s : State) (a n : Nat) : Bool :=
  decide (a + n ≤ oasisBytes) && (List.range 4).all fun q => !(decide (a < (q + 1) * 2 ^ 24) && decide (q * 2 ^ 24 < a + n)) || s.pwr.quadrants.getLsbD q

/-- An entry of a block list is within bounds (R343). -/
def State.extentOk (s : State) (dramOnly : Bool) (e : List Byte) : Bool :=
  let a := fieldAt e 0 8
  let n := fieldAt e 8 4
  let sp := byteAt e 12
  a % 64 == 0 && n % 64 == 0 && decide (64 ≤ n) && zeroAt e 13 3 && (match sp with
    | 0 => inDram a n
    | 1 => !dramOnly
    | 2 => !dramOnly && s.inOasis a n
    | _ => false)

/-- Read a block list (R343); none where it is invalid, or poisoned (R336). -/
def State.readExtents (s : State) (dramOnly : Bool) (addr n : Nat) : Option Extents :=
  if addr % 64 != 0 || !inDram addr (16 * n) || s.dramPoisoned addr (16 * n) then none
  else
    let es := (List.range n).map fun i => s.readDram (addr + 16 * i) 16
    if es.all (s.extentOk dramOnly) then some (es.map fun e => (fieldAt e 0 8, fieldAt e 8 4, byteAt e 12)) else none

/-- Bytes of an extent list. -/
def extentsBytes (l : Extents) : Nat := (l.map fun e => e.2.1).sum

/-- Descriptor fields. -/
def sdKind (d : List Byte) : Nat := byteAt d 1
def sdFlag (d : List Byte) (i : Nat) : Bool := bitAt (byteAt d 2) i
def sdField (d : List Byte) (lo n : Nat) : Nat := fieldAt d lo n

/-- The reserved fields of a descriptor are zero, and its KIND is one of the four (R344). -/
def sdShape (d : List Byte) : Bool :=
  byteAt d 0 / 4 == 0 && decide (byteAt d 1 ≤ 3) && byteAt d 2 / 16 == 0 && byteAt d 7 == 0 && decide (sdField d 40 2 < 2 ^ 14) && decide (sdField d 42 2 < 2 ^ 14)

/-- The slot fields of a COPY are zero (R345). -/
def sdCopyZero (d : List Byte) : Bool :=
  byteAt d 2 % 4 == 0 && zeroAt d 3 4 && zeroAt d 8 8 && zeroAt d 28 12

/-- The fields of a descriptor are within their ranges (R344, R345), beside its lists. -/
def State.sdRanges (s : State) (d : List Byte) : Bool :=
  let k := sdKind d
  let mc := sdFlag d 1
  if k = 3 then
    sdCopyZero d && decide (1 ≤ sdField d 24 4) && decide (sdField d 24 4 ≤ 65536) && decide (1 ≤ sdField d 60 4) && decide (sdField d 60 4 ≤ 65536)
  else
    let slots := 2 ^ sdField d 4 1
    let sb := sdField d 12 4
    (if mc then k == 0 && decide (2 ≤ byteAt d 3) && decide (byteAt d 3 ≤ 32) else byteAt d 3 == 0 && byteAt d 6 == 0) &&
    decide (byteAt d 4 ≤ 8) && (!sdFlag d 0 || byteAt d 4 == 0) && decide (byteAt d 5 ≤ 7) && sdField d 8 4 % 64 == 0 && decide (sdField d 8 4 < 2 ^ 26) &&
    sb % 64 == 0 && decide (64 ≤ sb) && decide (sb ≤ 16777216) && sdField d 36 4 % 64 == 0 && zeroAt d 52 12 &&
    (if k = 2 then sdField d 24 4 == 0 && sdField d 32 4 == 0 && decide (s.stripes * sdField d 36 4 ≤ sb)
     else decide (1 ≤ sdField d 24 4) && decide (sdField d 24 4 ≤ 65536) && decide (1 ≤ sdField d 32 4) && decide (sdField d 32 4 ≤ 16777216)) &&
    (mc || s.inOasis (sdField d 8 4) (slots * sb))

/-- What reading a descriptor gives: its bytes with its source and destination lists, or the RESULT code of STREAM_COPY_STATUS that says what is wrong:
1 generation, 2 malformed, 3 invalid list (R345, R336, R364). -/
inductive Bound where
  | ok (desc : List Byte) (src dst : Extents)
  | bad (result : Nat)
  deriving DecidableEq, Repr

/-- The errors that reading a block list shows. -/
def State.listSeen (s : State) (addr n : Nat) : State :=
  if addr % 64 != 0 || !inDram addr (16 * n) then s else s.dramSeen addr (16 * n) false

/-- Read and check a stream descriptor (R345). -/
def State.bindDesc (s : State) (addr : Nat) : Bound :=
  if addr % 64 != 0 || !inDram addr 64 || s.dramPoisoned addr 64 then .bad 2
  else
    let d := s.readDram addr 64
    if byteAt d 0 % 4 != 1 then .bad 1
    else if !sdShape d || !s.sdRanges d then .bad 2
    else
      let k := sdKind d
      if k = 2 then .ok d [] []
      else match s.readExtents (k != 3) (sdField d 16 8) (sdField d 24 4) with
        | none => .bad 3
        | some src =>
          if k = 3 then (match s.readExtents false (sdField d 52 8) (sdField d 60 4) with
            | none => .bad 3
            | some dst => if extentsBytes src = extentsBytes dst then .ok d src dst else .bad 3)
          else if (sdField d 32 4 - 1) * sdField d 36 4 + sdField d 12 4 ≤ extentsBytes src then .ok d src [] else .bad 2

/-- The errors that reading a descriptor and its lists shows (R335): the lists of one that is valid itself, the second after a valid first. -/
def State.descSeen (s : State) (addr : Nat) : State :=
  if addr % 64 != 0 || !inDram addr 64 then s
  else
    let d := s.readDram addr 64
    let u := s.dramSeen addr 64 false
    if s.dramPoisoned addr 64 || byteAt d 0 % 4 != 1 || !sdShape d || !s.sdRanges d || sdKind d == 2 then u
    else
      let u := u.listSeen (sdField d 16 8) (sdField d 24 4)
      if sdKind d = 3 && (s.readExtents false (sdField d 16 8) (sdField d 24 4)).isSome then u.listSeen (sdField d 52 8) (sdField d 60 4) else u

/-! ### Argument blocks (R378) -/

/-- An entry of an argument block, none where it is malformed. -/
def readArg (e : List Byte) : Option Arg :=
  let a : Arg := { kind := byteAt e 0, ring := byteAt e 1, len := fieldAt e 4 4, addr := fieldAt e 8 8 }
  let ok := zeroAt e 2 2 && (match a.kind with
    | 0 => a.ring == 0
    | 1 => a.ring == 0 && a.len % 64 == 0 && decide (64 ≤ a.len) && decide (a.len ≤ 0x4000000) && a.addr % 64 == 0 && decide (a.addr < 2 ^ 26)
    | 2 => a.len == 0 && decide (a.ring ≤ 63)
    | _ => false)
  if ok then some a else none

/-- Where an argument block lies (R372): its bytes, or none where its address is invalid or its DRAM blocks are poisoned. -/
def State.argBlock (s : State) (a : Nat) : Option (List Byte) :=
  if a % 64 != 0 then none
  else if bitAt a 63 then some (s.readHost (a % 2 ^ 63) 256)
  else if inDram a 256 && !s.dramPoisoned a 256 then some (s.readDram a 256) else none

/-- The arguments of a job, with the streams that they bind; none where the block or a descriptor is invalid (R345, R375, R378). -/
def State.bindArgs (s : State) (tag a : Nat) : Option (List Arg × List Stream) :=
  match s.argBlock a with
  | none => none
  | some bs =>
    let args := (List.range 16).filterMap fun i => readArg ((bs.drop (16 * i)).take 16)
    if args.length != 16 then none
    else
      let idx := (List.range 16).filter fun i => ((args[i]?).map fun x => x.kind).getD 0 == 2
      let streams := idx.filterMap fun i =>
        match args[i]? with
        | none => none
        | some x => match s.bindDesc x.addr with
          | .bad _ => none
          | .ok d src _ =>
            if sdKind d = 3 || (sdKind d != 2 && x.ring != 0) then none
            else some ({ tag := tag, arg := i, ring := x.ring, desc := d, extents := src, slots := [], rounds := [], onceDone := false } : Stream)
      if streams.length = idx.length then some (args, streams) else none

/-- The errors that reading a job's argument block and descriptors shows (R335); a block in host memory counts as read from there (R507). -/
def State.argsSeen (s : State) (a : Nat) : State :=
  let u := if a % 64 != 0 then s else if bitAt a 63 then s.count64 Reg.glbDmaRdBytes 256 else if inDram a 256 then s.dramSeen a 256 false else s
  match s.argBlock a with
  | none => u
  | some bs =>
    let args := (List.range 16).filterMap fun i => readArg ((bs.drop (16 * i)).take 16)
    if args.length != 16 then u
    else (args.filter fun x => x.kind == 2).foldl (fun (v : State) x => v.descSeen x.addr) u

/-! ### Byte spaces and copies (R336, R362) -/

/-- Read bytes of a byte space from an offset, with their poison marks. -/
def State.spaceMarked (s : State) (l : Extents) (off n : Nat) : Marked := (List.range n).map fun i => s.spaceByte l (off + i)

/-- Write bytes into a byte space from an offset; poisoned bytes stay so (R336). -/
def State.spacePut (s : State) : Extents → Nat → Marked → State
  | [], _, _ => s
  | (a, n, sp) :: r, off, bs =>
    if n ≤ off then s.spacePut r (off - n) bs
    else
      let part := bs.take (n - off)
      (match sp with
        | 0 => s.putDram (a + off) part
        | 1 => s.writeHost (a + off) (part.map Prod.fst)
        | _ => s.putOasis (a + off) part).spacePut r 0 (bs.drop (n - off))

/-- Do a copy's wait and, where it touches host memory, its bus allow it to move (R362, R500), and the banks and channels it touches (R519)? -/
def State.copyFree (s : State) (c : CopyOp) : Bool :=
  !s.spaceHeld (c.src ++ c.dst) 0 (extentsBytes (c.src ++ c.dst)) &&
  (!sdFlag c.desc 2 || waitHolds (s.sync (sdField c.desc 40 2)) (sdField c.desc 44 4)) &&
  (s.canDma || !(c.src ++ c.dst).any fun e => e.2.2 == 1)

/-- Does a copy read host memory? -/
def CopyOp.readsHost (c : CopyOp) : Bool := c.src.any fun e => e.2.2 == 1

/-- Move a copy's bytes and give its signal (R362). -/
def State.copyMove (s : State) (c : CopyOp) : State :=
  let n := extentsBytes c.src
  let data := s.spaceMarked c.src 0 n
  let s := ((s.spaceSeen c.src 0 n).spacePut c.dst 0 data).streamUsed
  let s := if data.bad.isEmpty then s else s.streamStatus 0x80 0 0
  let amount := fun (l : Extents) (sp : Nat) => extentsBytes (l.filter fun e => e.2.2 == sp)
  let s := (s.count64 Reg.streamBytesRead (amount c.src 0)).count64 Reg.streamBytesWritten (amount c.dst 0)
  let s := (s.count64 Reg.glbDmaRdBytes (amount c.src 1)).count64 Reg.glbDmaWrBytes (amount c.dst 1)
  if sdFlag c.desc 3 then s.setSync (sdField c.desc 42 2) (sdField c.desc 48 4) else s

/-- The register copy ends with a RESULT (R364). -/
def State.regCopyEnd (s : State) (result : Nat) : State :=
  ((s.modCmd fun c => { c with regCopy := none }).setReg Reg.streamCopyStatus (2 * result)).streamStatus 0x20 0 0

end Sys2Proof.Machine
end

