-- ==== Sys2Proof/Machine/Streams.lean ====
section
/-! DEFINITION. The commands of memory and the stream engine (R333 to R362): refresh and scrub, fills and spills, run-ahead, multicast, the ring
extension, result records and the spool, copies, Oasis power, host access errors. -/

namespace Sys2Proof.Machine

/-! ### DRAM (R335 to R338) -/

/-- DRAM_REFRESH: a change of the refresh rate takes effect at the next refresh command, with its event (R337, R366). Which bank is refreshed changes
nothing else. -/
def execDramRefresh (_channel : Fin 128) (_bank : Nat) (s : State) : Result := s.act fun s =>
  let old := s.reg Reg.dramcStatus
  let hot := s.pwr.therm.hotStack
  if bitAt old 1 = hot then s
  else (s.setReg Reg.dramcStatus (old - 2 * bit (bitAt old 1) + 2 * bit hot)).raiseStatus .dramc (if hot then 4 else 8) 2 0 0xFF 0

/-- DRAMC_SCRUB_READ: the channel reads its next block, in which an error may newly show; what it finds is handled under R335, and the end of every
channel's pass is counted (R338). A bank under repair is skipped, and a channel that a trim item holds is not read (R519). -/
def execDramScrubRead (channel : Fin 128) (found : DramRead) (s : State) : Result := s.act fun s =>
  if !bitAt (s.reg Reg.dramcScrubCtrl) 0 || s.od Od.dramDramState != 2 || (s.trim.running.any fun x => x.kind == 5 && x.unit == channel.val) then s
  else
    let n := Map.get s.trim.scrub 0 channel
    let pos := n % channelBlocks
    let addr := channelBlock channel pos
    let passes := fun (t : State) => (List.range 128).foldl (fun m ch => min m (Map.get t.trim.scrub 0 ch / channelBlocks)) (Map.get t.trim.scrub 0 0 / channelBlocks)
    let before := passes s
    let s := if s.bankBusy addr then s else (match found with
      | .good => s
      | .corrected lane => { s with dramSingle := (addr, lane) :: s.dramSingle.filter fun e => e.1 != addr }
      | .uncorrectable => s.poisonDram 256 addr 256).blockSeen true false (addr / 256)
    let s := s.modTrim fun t => { t with scrub := Map.set t.scrub 0 channel (n + 1) }
    if before < passes s then (s.setReg Reg.dramcScrubPass (passes s)).raiseStatus .dramc 16 2 0 0xFF 0 else s

/-! ### Fills (R346, R347, R349, R351) -/

/-- The first group F of a job that runs, or that run-ahead has bound with its F given (R379, R389). -/
def State.boundFirst (s : State) (tag : Nat) : Option Int := match s.jobOf tag with
  | some j => s.jobFirst j
  | none => ((s.cmdOf tag).bind fun c => c.job).bind fun j => j.first

/-- May the fill of a stream's slot for a group start (R347, R349, R350)? -/
def State.fillReady (s : State) (x : Stream) (g : Int) : Bool :=
  let ready := !x.flag 2 || (if x.flag 0 then waitHolds (s.sync (x.field 40 2)) (x.field 44 4)
    else s.groupWaitHolds (x.field 40 2) ((lgn32 g + x.field 44 4) % 2 ^ 32) (s.boundFirst x.tag))
  let wanted := match s.jobOf x.tag with
    | some j => x.flag 0 || (s.jobHas j g && !((List.range (x.field 5 1 + 1)).all fun d => s.groupOver j (g + (d : Int))))
    | none => x.flag 0 || (match (s.cmdOf x.tag).bind fun c => c.job with
      | some j => (match j.first with
        | some f => decide (f ≤ g) && (j.count == 0 || decide (g < f + (j.count : Int)))
        | none => false)
      | none => false)
  x.kind == 0 && !x.flag 1 && ready && wanted && (x.slot (x.slotNo g)).isNone && !(x.flag 0 && x.onceDone)

/-- FETCH_FILL_START: the engine starts filling the slot of a group (R347). What the slot holds is undefined until it is FULL. -/
def execFetchFillStart (stream : Nat) (lgn : Int) (s : State) : Result := s.act fun s =>
  match s.cmd.streams[stream]? with
  | some x =>
    if s.dev.state.ready && s.dev.state != .safe && s.fillReady x lgn then
      { s with oasis := s.oasis.undefine [(x.slotAddr lgn, x.slotBytes)] }.modStream stream fun y => y.setSlot (y.slotNo lgn) (some (lgn, .filling))
    else s
  | none => s

/-- FETCH_FILL_DONE: the last granule has been written, and the slot is FULL (R346, R347, R351, R336); it waits for a bank or channel that is out
(R519). -/
def execFetchFillDone (stream : Nat) (lgn : Int) (s : State) : Result := s.act fun s =>
  match s.cmd.streams[stream]? with
  | none => s
  | some x =>
    if x.slot (x.slotNo lgn) != some (lgn, .filling) || s.spaceHeld x.extents (x.source lgn 0) x.slotBytes then s
    else
      let off := x.source lgn 0
      let data := s.spaceMarked x.extents off x.slotBytes
      let s := (((s.spaceSeen x.extents off x.slotBytes).putOasis (x.slotAddr lgn) data).oasisUsed).streamUsed
      let s := if data.bad.isEmpty then s else s.streamLimited 0x80 x lgn
      let s := s.modStream stream fun y => { y.setSlot (y.slotNo lgn) (some (lgn, .full)) with onceDone := y.onceDone || y.flag 0 }
      let s := s.count64 Reg.streamBytesRead x.slotBytes
      if !x.flag 0 && s.groupDone lgn 0 then
        let s := (s.count64 Reg.streamLateFills 1).raiseInt .stream 0x40
        if bitAt (s.reg Reg.streamIntEnable) 6 then s.streamLimited 0x40 x lgn else s
      else s

/-! ### Spills (R346, R348, R356) -/

/-- Are all tiles of a group finished? -/
def State.groupFinished (s : State) (j : Job) (g : Int) : Bool :=
  [false, true].all fun p => !s.partExists g p || (List.range s.stripes).all fun st => (j.tile g p st).finished

/-- SPILL_START: every tile of the slot's group is finished; no earlier group, whose tiles are drawn at most 16 groups before (R380), may still spill or has
a slot of the stream (R348). A group that was cancelled is skipped and its slot freed. -/
def execSpillStart (stream : Nat) (lgn : Int) (s : State) : Result := s.act fun s =>
  match s.cmd.streams[stream]? with
  | none => s
  | some x => match s.jobOf x.tag with
    | none => s
    | some j =>
      if x.kind != 1 || x.slot (x.slotNo lgn) != some (lgn, .written) || x.slots.any (fun t => decide (t.2.1 < lgn)) ||
          !((List.range 17).all fun n => s.groupOver j (lgn - (n : Int))) then s
      else if s.groupFinished j lgn then s.modStream stream fun y => y.setSlot (y.slotNo lgn) (some (lgn, .spilling))
      else s.modStream stream fun y => y.setSlot (y.slotNo lgn) none

/-- SPILL_DONE: the controller has accepted the last write; the slot is FREE, and DONE_SYNC is set (R348), but not for a job that has ended (R355): what
such a spill wrote is undefined (R396). A bank or channel that is out is waited for (R519). -/
def execSpillDone (stream : Nat) (lgn : Int) (s : State) : Result := s.act fun s =>
  match s.cmd.streams[stream]? with
  | none => s
  | some x =>
    if x.slot (x.slotNo lgn) != some (lgn, .spilling) || s.spaceHeld x.extents (x.source lgn 0) x.slotBytes then s
    else
      let data := s.oasisMarked (x.slotAddr lgn) x.slotBytes
      let s := s.oasisSeen (x.slotAddr lgn) x.slotBytes
      let s := (if x.ended then { s with dram := s.dram.undefine (x.spillRanges lgn) } else s.spacePut x.extents (x.source lgn 0) data).streamUsed
      let s := if data.bad.isEmpty then s else s.streamLimited 0x80 x lgn
      let s := (s.modStream stream fun y => y.setSlot (y.slotNo lgn) none).count64 Reg.streamBytesWritten x.slotBytes
      if x.ended then s.modCmd fun c => { c with streams := c.streams.filter fun y => !(y.ended && y.slots.isEmpty) }
      else if x.flag 3 then s.setSync (x.field 42 2) ((lgn32 lgn + x.field 48 4) % 2 ^ 32) else s

/-! ### Run-ahead (R350) -/

/-- The commands of a queue in flight, in ring order. -/
def State.queueCmds (s : State) (q : Nat) : List Cmd := s.cmd.cmds.filter fun c => c.queue == q
/-- Does the condition hold that a command waits for, if any? -/
def State.waitOpen (s : State) (c : Cmd) : Bool := !(c.flag 1 || c.kind == 3) || waitHolds (s.sync (c.field 44 2)) (c.field 48 4)

/-- The next JOB of a queue whose streams run-ahead may bind, or `none` and whether a stop holds it. -/
def State.runaheadNext (s : State) : List Cmd → List Cmd → Nat → Option Cmd × Bool
  | _, [], _ => (none, false)
  | before, c :: rest, n =>
    if n = 0 then (none, false)
    else if c.flag 0 && !before.isEmpty then (none, true)
    else if (c.stage = .read || c.stage = .waiting) && !s.waitOpen c then (none, true)
    else if c.stage = .read && c.kind == 0 && c.job.isNone && c.argsBad.isNone then (some c, false)
    else s.runaheadNext (before ++ [c]) rest (if c.stage = .read then n - 1 else n)

/-- A job as its command describes it (R372, R379), before it starts. -/
def Cmd.newJob (c : Cmd) (args : List Arg) : Job :=
  { well := byteAt c.bytes 6, detRing := byteAt c.bytes 7, prog := c.field 8 8, first := if c.field 24 6 = 2 ^ 48 - 1 then none else some (toSigned 48 (c.field 24 6)),
    count := c.field 32 4, lease := c.field 36 2, halo := byteAt c.bytes 30, gate := if bitAt (c.field 38 2) 14 then some (c.field 38 2 % 2 ^ 14, c.field 40 4) else none,
    cores := c.field 56 4, args := args, tiles := [], cancelledTo := none, missedGroups := 0, outs := [], opes := 0, reads := 0, since := none,
    finishedTiles := 0, dups := 0, flags := 0, refused := none }

/-- Bind the streams of a job's arguments. -/
def State.bindJob (s : State) (c : Cmd) (args : List Arg) (streams : List Stream) : State :=
  (s.mapCmds (fun x => x.queue == c.queue && x.index == c.index) fun x => { x with job := some (c.newJob args) }).modCmd fun u => { u with streams := u.streams ++ streams }

/-- The command at which run-ahead of a queue stops, if it does. -/
def State.runaheadStop (s : State) : List Cmd → List Cmd → Nat → Option Cmd
  | _, [], _ => none
  | before, c :: rest, n =>
    if n = 0 then none
    else if (c.flag 0 && !before.isEmpty) || ((c.stage = .read || c.stage = .waiting) && !s.waitOpen c) then some c
    else s.runaheadStop (before ++ [c]) rest (if c.stage = .read then n - 1 else n)

/-- Run-ahead stops at a command, which counts once, or does not stop. -/
def State.noteStop (s : State) (q : Nat) (c : Option Cmd) : State :=
  let old := s.cmd.stops.find? fun x => x.1 == q
  let new := c.map fun x => (q, x.index)
  let s := s.modCmd fun u => { u with stops := new.toList ++ u.stops.filter fun x => x.1 != q }
  if new.isSome && old != new then s.count64 Reg.streamRunaheadStops 1 else s

/-- STREAM_RUNAHEAD: the engine reaches the next JOB of the queue and binds its streams, or stops (R350). A structure that is not valid is left for the
command's start (R345, R375). An argument block in host memory is not read while the device may not master the bus (R500). -/
def execStreamRunahead (queue : QueueIx) (s : State) : Result := s.act fun s =>
  if !s.dev.state.live then s
  else
    let n := max 1 (bits (s.reg Reg.streamCtrl) 6 0)
    match s.runaheadNext [] (s.queueCmds queue) n with
    | (some c, _) =>
      if bitAt (c.field 16 8) 63 && !s.canDma then s
      else (match s.bindArgs c.tag (c.field 16 8) with
      | some (args, streams) => ((s.argsSeen (c.field 16 8)).bindJob c args streams).noteStop queue none
      | none => (s.argsSeen (c.field 16 8)).mapCmds (fun x => x.queue == c.queue && x.index == c.index) fun x => { x with argsBad := some 7 })
    | (none, _) => s.noteStop queue (s.runaheadStop [] (s.queueCmds queue) n)

/-! ### Multicast (R353, R354) -/

/-- The cut-outs of a stream: counted, with one slow-receiver event per stream and group (R354). -/
def State.mcastCut (s : State) (x : Stream) (n : Nat) (g : Int) : State := if n = 0 then s else (s.count64 Reg.streamMcastCutout n).streamLimited 1 x g

/-- Is it the round of another's range and group? -/
def Round.is (r q : Round) : Bool := q.g == r.g && q.lo == r.lo && q.hi == r.hi

/-- The round whose delivery starts next (R353): the oldest open one that MCAST_N TLOADs have joined, or else the oldest open one, whose slack runs out
first. -/
def Stream.nextRound (x : Stream) : Option Round :=
  match x.rounds.find? fun r => !r.started && decide (byteAt x.desc 3 ≤ r.joined.length) with
  | some r => some r
  | none => x.rounds.find? fun r => !r.started

/-- MCAST_DELIVERY_START: the round is read from DRAM once and delivered to every joined core (R353, R354); it waits for a bank or channel that is out
(R519). Of the started rounds the newest stands last. -/
def execMcastDeliveryStart (stream : Nat) (s : State) : Result := s.act fun s =>
  match s.cmd.streams[stream]? with
  | none => s
  | some x => match x.nextRound with
    | none => s
    | some r => if ((r.joined.map Prod.snd).headD []).any fun c => s.spaceHeld x.extents (x.source r.g c.2.1) c.2.2 then s else
      let s := s.readCopies x r.g ((r.joined.map Prod.snd).headD [])
      let s := s.modStream stream fun y => { y with rounds := (y.rounds.filter fun q => !r.is q) ++ [{ r with started := true }] }
      let s := r.joined.foldl (fun (u : State) j => u.deliver x r.g ⟨j.1 % 32, Nat.mod_lt _ (by decide)⟩ j.2) s
      (s.count64 Reg.streamMcastRounds 1).mcastCut x (byteAt x.desc 3 - r.joined.length) r.g

/-- MCAST_CUTOUT: a receiver that has held a delivery too long is cut out of the newest round that it receives, and gets the rest by its own refetch
(R354); how much that is is open. -/
def execMcastCutout (stream : Nat) (core : CoreIx) (s : State) : Result := s.act fun s =>
  match s.cmd.streams[stream]? with
  | none => s
  | some x => match x.rounds.reverse.find? fun r => r.started && r.joined.any fun j => j.1 == core.val with
    | none => s
    | some r =>
      let copies := ((r.joined.find? fun j => j.1 == core.val).map fun j => j.2).getD []
      let s := s.modStream stream fun y => { y with rounds := y.rounds.map fun q => if r.is q then { q with joined := q.joined.filter fun j => j.1 != core.val } else q }
      let (f, s) := s.takeFree
      ((s.count64 Reg.streamBytesRead (f.toNat % (copyBytes copies + 1))).count64 Reg.streamUnicastRefetch 1).mcastCut x 1 r.g

/-! ### The ring extension (R358) -/

/-- Base of a port's extension in DRAM. -/
def State.extBase (s : State) (c : PortIx) : Nat := s.reg (Reg.extBaseLo c) + 2 ^ 32 * s.reg (Reg.extBaseHi c)
/-- Bytes of a landed or extended line: its pixels and its tag granule. -/
def State.extLine (s : State) (c : PortIx) : Nat := s.fsReg c Reg.fsRingPitch + 64
/-- Address of line m in the extension. -/
def State.extAddr (s : State) (c : PortIx) (m : Int) : Nat := s.extBase c + slotOf m (s.reg (Reg.extSlots c)) * s.extLine c
/-- Write a line into its ring slot: pixel data, then the tag. -/
def State.ringLine (s : State) (c : PortIx) (m : Int) (line : Marked) : State :=
  let pitch := s.fsReg c Reg.fsRingPitch
  let k := slotOf m (s.fsReg c Reg.fsRingSlots)
  let s := s.putOasis (s.fsReg c Reg.fsRingBase + k * pitch) (line.take pitch)
  let s := s.putOasis (s.fsReg c Reg.fsTagBase + 16 * k) ((line.drop pitch).take 16)
  let gone := match (s.fsPort c).released with
    | some g => decide (m * s.fa / s.lineGroup ≤ g)
    | none => false
  if gone then s else s.modFs c fun p => { p with written := p.written ++ [m] }

/-- Raise POISON for a port's lines, with one event per port and line group (R336, R367). -/
def State.linePoison (s : State) (c : PortIx) (m : Int) : State :=
  let g := m * (s.fa : Int) / (s.lineGroup : Int)
  let key := 2 ^ 58 + c.val
  if s.cmd.lastEvent.told key g then s.raiseInt .stream 0x80
  else (s.modCmd fun u => { u with lastEvent := u.lastEvent.tell key g }).raiseStatusAt (s.groupLsn g) .stream 0x80 2 c 0xFF 0

/-- LANDING_COPY: the oldest landed line goes to its ring slot, or to the extension while the slot is not released or older lines wait there. A copy
that finds the extension full waits, and EXT_FULL is raised; a bank or channel that is out is waited for (R519). -/
def execLandingCopy (port : PortIx) (s : State) : Result := s.act fun s =>
  if !s.extOn port || !s.dev.state.live then s
  else match (s.fsPort port).landed with
    | [] => s
    | m :: rest =>
      let a := (s.slotAddr port m).1
      let line := s.oasisMarked a (s.extLine port)
      let direct := (s.fsPort port).ext.isEmpty && decide (0 < s.ringFree port)
      if !direct && s.extFull port then
        if (s.fsPort port).extWaits then s else (s.modFs port fun p => { p with extWaits := true }).streamStatus 0x10 port 0
      else if !direct && s.dramHeld (s.extAddr port m) (s.extLine port) then s
      else
        let s := (s.oasisSeen a line.length).streamUsed
        let s := if line.bad.isEmpty then s else s.linePoison port m
        let s := s.modFs port fun p => { p with landed := rest }
        if direct then s.ringLine port m line
        else
          let s := (s.modFs port fun p => { p with ext := p.ext ++ [m] }).putDram (s.extAddr port m) line
          (s.peak (Reg.extPeak port) (s.fsPort port).ext.length).count64 Reg.streamBytesWritten line.length

/-- EXTENSION_REFILL: the oldest line of the extension goes to its ring slot, once that is released and no bank or channel of it is out (R519). -/
def execExtensionRefill (port : PortIx) (s : State) : Result := s.act fun s =>
  if !s.dev.state.live then s
  else match (s.fsPort port).ext with
    | [] => s
    | m :: rest =>
      if s.ringFree port = 0 || s.dramHeld (s.extAddr port m) (s.extLine port) then s
      else
        let a := s.extAddr port m
        let line := s.dramMarked a (s.extLine port)
        let s := ((s.dramSeen a line.length false).modFs port fun p => { p with ext := rest, extWaits := false }).ringLine port m line
        let s := if line.bad.isEmpty then s else s.linePoison port m
        (s.count64 Reg.streamBytesRead line.length).streamUsed

/-! ### Result records and the spool (R39 to R46, R360, R361, R393, R400) -/

/-- The job and the output stream bound to a result ring. -/
def State.outOf (s : State) (r : ResIx) : Option (Nat × Job × OutStream) :=
  s.jobs.findSome? fun x => (x.2.outs.find? fun o => o.ring == r.val).map fun o => (x.1, x.2, o)

/-- The record of a stream whose turn it is, where it is ready. -/
def OutStream.next (o : OutStream) : Option ReadyRec := o.ready.find? fun r => r.g == o.g && r.part2 == o.part2 && r.stripe == o.stripe

/-- Where the body of a record lies in Oasis (R360): its stream's slot. -/
def State.bodyAt (s : State) (tag : Nat) (o : OutStream) (r : ReadyRec) : Nat :=
  match s.cmd.streams.find? fun x => x.tag == tag && some x.arg == o.arg with
  | some x => x.slotAddr r.g + r.stripe * o.pitch
  | none => 0

/-- Base of the spool in DRAM (R361). -/
def State.spoolBase (s : State) : Nat := s.reg Reg.streamSpoolBaseLo + 2 ^ 32 * s.reg Reg.streamSpoolBaseHi
/-- The byte space of a spooled record: its pages in order, its frame in the first 64 bytes and its body after it. -/
def State.spoolExtents (s : State) (ps : List Nat) : Extents := ps.map fun p => (s.spoolBase + p * 4096, 4096, 0)

/-- The length of a record's body. -/
def OutStream.bodyBytes (o : OutStream) (r : ReadyRec) : Nat := if o.arg.isNone then r.body.length else o.pitch
/-- A record's body, with its poison marks: a list is held in its record until it is spooled, another body in its Oasis slot. -/
def State.recordBody (s : State) (tag : Nat) (o : OutStream) (r : ReadyRec) : Marked :=
  if !r.pages.isEmpty then s.spaceMarked (s.spoolExtents r.pages) 64 (o.bodyBytes r)
  else if o.arg.isNone then r.body.map fun b => (b, false)
  else s.oasisMarked (s.bodyAt tag o r) o.pitch
/-- The errors that reading it shows (R335, R341). -/
def State.recordSeen (s : State) (tag : Nat) (o : OutStream) (r : ReadyRec) : State :=
  if !r.pages.isEmpty then s.spaceSeen (s.spoolExtents r.pages) 64 (o.bodyBytes r)
  else if o.arg.isNone then s else s.oasisSeen (s.bodyAt tag o r) o.pitch

/-- Write the record whose turn it is (R40, R44, R45, R400). -/
def State.writeRecord (s : State) (ring : ResIx) (tag : Nat) (o : OutStream) (r : ReadyRec) : State :=
  let late := s.lateBy r.g
  let held := r.early && late != 0
  let list := o.arg.isNone
  let marked := s.recordBody tag o r
  let body := marked.map Prod.fst
  let s := s.recordSeen tag o r
  let s := if r.pages.isEmpty then s else s.streamUsed.count64 Reg.streamBytesRead body.length
  let s := if marked.bad.isEmpty then s else s.modJob tag fun j => { j with flags := Nat.lor j.flags 1 }
  let fl := s.partFlags r.g r.part2 + 4 * bit held + r.flags + 16 * bit (bitAt (s.haloFlags r.g (if list then none else some r.stripe)) 4) +
    32 * bit (bitAt (s.haloFlags r.g (if list then none else some r.stripe)) 5)
  let s := s.resultPut ring fun seq =>
    resultFrame s.dt (s.groupLsn r.g) (bit list) fl r.g (if list then 0xFFFF else r.stripe) late 0 r.tsn tag body.length seq ++ body
  let s := (s.countOd Od.cntLateCount (bit (late != 0))).countOd Od.cntHeldCount (bit held)
  let s := if list then
      ((((s.countOd Od.detGroupsListed 1).countOd Od.detBoxesListed (fieldAt body 8 2)).setReg Reg.detLastLsnLo (s.groupLsn r.g % 2 ^ 32)).setReg Reg.detLastLsnHi
        (s.groupLsn r.g / 2 ^ 32))
    else s
  let done := fun (u : State) (x : OutStream) => if x.ring = o.ring then
      { u.outNext x with ready := x.ready.filter fun y => !(y.g == r.g && y.part2 == r.part2 && y.stripe == r.stripe) } else x
  (s.modOuts tag (done s)).spoolFree r.pages

/-- The oldest missed record that a completed job left to be written to a ring (R394). -/
def State.owedPut (s : State) (ring : ResIx) (m : Owed) : State :=
  (s.putMissed ring m).modCmd fun c => { c with owed := c.owed.erase m }

/-- RESULT_RECORD_WRITE: the ring's oldest missed record is written, or else the record whose turn it is (R43, R45, R360), but none of a group that is
to be declared missed (R382); a spooled record waits for a bank or channel that is out (R519). -/
def execResultRecordWrite (ring : ResIx) (s : State) : Result := s.act fun s =>
  let s := s.fixFirst
  if !s.ringSpace (.result ring) then s
  else match s.cmd.owed.find? fun m => m.ring == ring.val with
    | some m => s.owedPut ring m
    | none => match s.outOf ring with
      | none => s
      | some (tag, _, o) =>
        if !o.missed.isEmpty then s.missedPut tag o
        else match o.next with
          | some r =>
            if s.missedBy r.g || (!r.pages.isEmpty && s.spaceHeld (s.spoolExtents r.pages) 64 (o.bodyBytes r)) then s else s.writeRecord ring tag o r
          | none => s

/-- SPOOL_COPY: the stream's first ready record that cannot be written directly goes to the spool; too few pages leave it in its Oasis slot and raise
SPOOL_FULL (R360, R361). Pages in a bank or channel that is out are waited for (R519). -/
def execSpoolCopy (ring : ResIx) (s : State) : Result := s.act fun s =>
  let s := s.fixFirst
  match s.outOf ring with
  | none => s
  | some (tag, _, o) =>
    match o.ready.find? fun r => r.pages.isEmpty && !s.groupDone r.g 8 with
    | none => s
    | some r =>
      let direct := o.next == some r && o.missed.isEmpty && s.ringSpace (.result ring)
      let body := s.recordBody tag o r
      let n := spoolPages (64 + body.length)
      let setRec := fun (u : State) (q : ReadyRec) =>
        u.modOuts tag fun x => if x.ring = o.ring then { x with ready := x.ready.map fun y => if y = r then q else y } else x
      let ps := pickPages s.spoolTotal s.freeCtr s.cmd.spoolUsed n
      if direct then s
      else if s.spoolTotal < s.cmd.spoolUsed.length + n then
        if s.spoolTotal = 0 || r.waits then s else (setRec s { r with waits := true }).streamStatus 8 0 0
      else if s.spaceHeld (s.spoolExtents ps) 0 (64 + body.length) then s
      else
        let s := (s.recordSeen tag o r).streamUsed
        let s := if body.bad.isEmpty then s else s.modJob tag fun j => { j with flags := Nat.lor j.flags 1 }
        let s := (setRec s { r with pages := ps, waits := false }).spoolTake ps
        let s := { s with dram := s.dram.undefine [(s.spoolBase + ps.headD 0 * 4096, 64)] }.spacePut (s.spoolExtents ps) 64 body
        (s.count64 Reg.streamSpoolBytes body.length).count64 Reg.streamBytesWritten body.length

/-! ### Copies (R362) -/

/-- STREAM_COPY_GO: a register copy is checked and begins; in SAFE it finishes at once with RESULT 6. -/
def execStreamCopyGo (value : W32) (s : State) : Result := s.act fun s =>
  if !value.getLsbD 0 || !s.dev.state.ready || s.cmd.regCopy.isSome then s
  else if s.dev.state = .safe then s.regCopyEnd 6
  else if s.od Od.dramDramState != 2 then s.regCopyEnd 5
  else
    let a := s.reg Reg.streamCopyDescLo + 2 ^ 32 * s.reg Reg.streamCopyDescHi
    let r := s.bindDesc a
    let s := s.descSeen a
    match r with
    | .bad r => s.regCopyEnd r
    | .ok d src dst =>
      if sdKind d != 3 then s.regCopyEnd 2
      else (s.modCmd fun c => { c with regCopy := some { desc := d, src := src, dst := dst } }).setReg Reg.streamCopyStatus 1

/-- COPY_DONE: the last destination write of a copy has been accepted. -/
def execCopyDone (copy : CopyId) (s : State) : Result := s.act fun s =>
  match copy with
  | .register => (match s.cmd.regCopy with
    | some c => if s.copyFree c then (s.copyMove c).regCopyEnd 0 else s
    | none => s)
  | .command tag => (match s.cmdOf tag.toNat with
    | some c => (match c.copy, c.stage with
      | some op, .running => if s.copyFree op then (s.copyMove op).endCmd (fun x => x.queue == c.queue && x.index == c.index) 0 0 else s
      | _, _ => s)
    | none => s)

/-! ### Oasis power and host errors -/

/-- OASIS_QPOWER_WRITE: in PREOP, quadrants are powered as the mask says; one that is powered down loses its contents (R342). -/
def execOasisQpowerWrite (value : W32) (s : State) : Result := s.act fun s =>
  if s.dev.state != .preop then s
  else
    let new : BitVec 4 := value.truncate 4
    let kept := fun (a : Nat) => new.getLsbD (oasisQuadrant a) && s.pwr.quadrants.getLsbD (oasisQuadrant a)
    ({ s with
      pwr := { s.pwr with quadrants := new }
      oasis := s.oasis.filter fun c => kept c.1
      oasisPoison := s.oasisPoison.filter kept
      oasisSingle := s.oasisSingle.filter kept }).setReg Reg.oasisQpower new.toNat

/-- A queue stops with a cause (R370, R398, R405, R501); one that SAFE has stopped stays so until its SLOTS is written. -/
def State.stopQueue (s : State) (q cause : Nat) : State :=
  if s.reg (Reg.cqStatus q) = 14 then s else (s.setReg (Reg.cqStatus q) (2 + 4 * cause)).raiseStatus .cmd 1 3 q 0xFF 0

/-- Record a host access error (R501, R507, R508). -/
def State.dmaError (s : State) (request queue : Nat) (kind : HostErrorKind) (addr : W64) : State :=
  let k := match kind with
    | .unsupportedRequest => 1
    | .completerAbort => 2
    | .completionTimeout => 3
    | .poisoned => 4
  let s := (s.setReg Reg.glbDmaErrAddrLo (addr.toNat % 2 ^ 32)).setReg Reg.glbDmaErrAddrHi (addr.toNat / 2 ^ 32)
  let s := ((s.setReg Reg.glbDmaErrInfo (k + 256 * request + 65536 * queue)).count64 Reg.glbDmaErrors 1).raiseInt .glb 2
  s.rateLimited (rateKey 2 0x42 0) 1000000 fun t => t.statusEvent 2 0xFFFF 0xFF 2 addr.toNat

/-- The queue's command whose start comes next (R376). -/
def State.headCmd (s : State) (q : Nat) : Option Cmd := (s.queueCmds q).find? fun c => c.stage = .read

/-- Does the CMD block take writes (R406)? -/
def State.cmdOpen (s : State) : Bool := s.dev.state.ready && s.dev.state != .safe

/-- The queue's next command, where it is of a kind and may start (R376, R398). -/
def State.startable (s : State) (q kind : Nat) : Option Cmd :=
  match s.headCmd q with
  | none => none
  | some c =>
    let before := (s.queueCmds q).takeWhile fun x => x.stage != .read
    if s.cmdOpen && c.kind == kind && before.all (fun x => x.stage != .waiting) && (!c.flag 0 || before.isEmpty) &&
      (c.kind == 3 || !c.flag 1 || waitHolds (s.sync (c.field 44 2)) (c.field 48 4)) then some c else none

/-- The command of a queue whose argument block the device is reading from host memory (R350, R375): that of the JOB that starts, or else of the one that
run-ahead reaches, and whether it starts. -/
def State.argsRead (s : State) (q : Nat) : Option (Cmd × Bool) :=
  let wants := fun (c : Cmd) => bitAt (c.field 16 8) 63 && c.job.isNone && c.argsBad.isNone
  match s.startable q 0 with
  | some c => if wants c then some (c, true) else none
  | none =>
    if s.dev.state.live then
      match (s.runaheadNext [] (s.queueCmds q) (max 1 (bits (s.reg Reg.streamCtrl) 6 0))).1 with
      | some c => if wants c then some (c, false) else none
      | none => none
    else none

/-- Is a queue's next record there to be read, and room for it among the commands in flight (R370, R374)? -/
def State.recordDue (s : State) (q : QueueIx) : Bool :=
  s.cmdOpen && s.canDma && s.reg (Reg.cqSlots q) != 0 && !bitAt (s.reg (Reg.cqStatus q)) 1 && s.reg (Reg.cqPi q) != s.reg (Reg.cqCi q) &&
    decide (s.cmd.cmds.length < 4096)

/-- A record that could not be read is refused (R375) and its queue stops (R501). DESIGN CHOICE (log entry 151): its place in the ring counts as read, and
the tag shown is a free value, as none was read. -/
def State.recordLost (s : State) (q : QueueIx) : State :=
  let ci := s.reg (Reg.cqCi q)
  let (n, s) := s.takeFree
  let c : Cmd := { queue := q, index := ci, tag := n.toNat % 4096, bytes := List.replicate 64 0, stage := .read, noTag := true, argsBad := none, job := none,
                   copy := none }
  (((s.setReg (Reg.cqCi q) ((ci + 1) % 2 ^ 32)).modCmd fun u => { u with cmds := u.cmds ++ [c] }).refuseCmd c 0x0A).stopQueue q 2

/-- HOST_ACCESS_ERROR: a read of host memory fails (R501): of a command record, of the argument block of a JOB that starts or that run-ahead reaches, which
is then left for its start, or of a copy's source. -/
def execHostAccessError (req : HostRequest) (kind : HostErrorKind) (addr : W64) (s : State) : Result := s.act fun s =>
  if !s.canDma || !s.dev.state.ready then s
  else match req with
    | .commandRecord q => if s.recordDue q then (s.dmaError 0 q kind addr).recordLost q else s
    | .argumentBlock q => (match s.argsRead q with
      | some (c, true) => (s.dmaError 1 q kind addr).refuseCmd c 0x0A
      | some (c, false) => (s.dmaError 1 q kind addr).mapCmds (fun x => x.queue == c.queue && x.index == c.index) fun x => { x with argsBad := some 0x0A }
      | none => s)
    | .copyExtent .register => (match s.cmd.regCopy with
      | some op => if op.readsHost then ((s.dmaError 2 0 kind addr).copyUndefined op).regCopyEnd 4 else s
      | none => s)
    | .copyExtent (.command tag) => (match s.cmdOf tag.toNat with
      | some c => (match c.copy, c.stage with
        | some op, .running =>
          if op.readsHost then ((s.dmaError 2 c.queue kind addr).copyUndefined op).endCmd (fun x => x.queue == c.queue && x.index == c.index) 0x0A 0 else s
        | _, _ => s)
      | none => s)

end Sys2Proof.Machine
end

