-- ==== Sys2Proof/Machine/Commands.lean ====
section
/-! DEFINITION. Command queues (R368 to R378, R394 to R399), wells at the start and end of jobs and at a group's cancellation (R379, R382), and the
registers of the CMD block that act (R387, R395, R405). -/

namespace Sys2Proof.Machine

/-! ### Reading records (R370, R372 to R375) -/

/-- CQ_PI_WRITE: the host's producer index, or the end of the queue with cause 1 where it passes the ring (R370). -/
def execCqPiWrite (queue : QueueIx) (pi : W32) (s : State) : Result := s.act fun s =>
  if !s.cmdOpen then s
  else if s.reg (Reg.cqSlots queue) < ringUsed pi.toNat (s.reg (Reg.cqCi queue)) then s.stopQueue queue 1
  else s.setReg (Reg.cqPi queue) pi.toNat

/-- The reserved fields of a record are zero (R8, R372, R373), for its KIND. -/
def recordReserved (b : List Byte) (kind : Nat) : Bool :=
  byteAt b 0 / 4 == 0 && byteAt b 2 / 16 == 0 && byteAt b 3 == 0 && decide (fieldAt b 4 2 < 4096) && byteAt b 31 == 0 && decide (fieldAt b 38 2 < 2 ^ 15) &&
  decide (fieldAt b 44 2 < 2 ^ 14) && decide (fieldAt b 46 2 < 2 ^ 15) && zeroAt b 60 4 &&
  (kind == 0 || (byteAt b 6 == 0 && byteAt b 7 == 0 && zeroAt b 16 15 && zeroAt b 32 6)) && (kind == 0 || kind == 1 || zeroAt b 8 8) &&
  (kind != 2 || (!bitAt (byteAt b 2) 1 && !bitAt (byteAt b 2) 2 && zeroAt b 44 2 && zeroAt b 48 4)) &&
  (kind != 3 || (!bitAt (byteAt b 2) 1 && !bitAt (byteAt b 2) 2 && zeroAt b 46 2 && zeroAt b 52 4))

/-- KIND and the ranges of the fields (R372). -/
def recordRanges (b : List Byte) : Bool :=
  decide (byteAt b 1 ≤ 3) &&
  (byteAt b 1 != 0 || (
    (decide (byteAt b 7 ≤ 63) || byteAt b 7 == 0xFF) && fieldAt b 8 8 % 64 == 0 && decide (fieldAt b 8 8 < 2 ^ 26) &&
    fieldAt b 16 8 % 64 == 0 && (bitAt (fieldAt b 16 8) 63 || decide (fieldAt b 16 8 < 2 ^ 35)) && decide (byteAt b 30 ≤ 6) &&
    (fieldAt b 36 2 == 0 || decide (10 ≤ fieldAt b 36 2))))

/-- The status of a record's own checks (R372): generation, reserved fields, KIND and ranges; 0 where it passes. -/
def recordStatus (b : List Byte) : Nat :=
  if byteAt b 0 % 4 != 1 then 2 else if recordReserved b (byteAt b 1) && recordRanges b then 0 else 3

/-- COMMAND_READ: the queue's next record is read and checked (R372, R374, R375). -/
def execCommandRead (queue : QueueIx) (s : State) : Result := s.act fun s =>
  let ci := s.reg (Reg.cqCi queue)
  let slots := s.reg (Reg.cqSlots queue)
  if !s.recordDue queue then s
  else
    let b := s.readHost (s.reg64 (Reg.cqBaseLo queue) (Reg.cqBaseHi queue) + ci % slots * 64) 64
    let tag := fieldAt b 4 2 % 4096
    let used := (s.cmdOf tag).isSome
    let st := if recordStatus b != 0 then recordStatus b else if used then 4 else 0
    let c : Cmd := { queue := queue, index := ci, tag := tag, bytes := b, stage := .read, noTag := used, argsBad := none, job := none, copy := none }
    let s := (s.setReg (Reg.cqCi queue) ((ci + 1) % 2 ^ 32)).count64 Reg.glbDmaRdBytes 64
    let s := s.modCmd fun u => { u with cmds := u.cmds ++ [c], ended := u.ended.filter fun t => t != tag }
    if st = 0 then s else s.refuseCmd c st

/-! ### Starting commands (R375, R376, R378, R379) -/

/-- Change one command. -/
def State.modCmdRec (s : State) (c : Cmd) (f : Cmd → Cmd) : State := s.mapCmds (fun x => x.queue == c.queue && x.index == c.index) f

/-- A job is refused at its start (R375): what run-ahead bound for it ends (R355). -/
def State.refuseJob (s : State) (c : Cmd) (status : Nat) : State :=
  ((s.dropStreams c.tag).modCmdRec c fun x => { x with job := none }).refuseCmd c status

/-- Is a well bound to a job in flight (R375)? -/
def State.wellBusy (s : State) (w : Nat) : Bool := s.cmd.cmds.any fun c => c.stage != .read && c.job.any fun j => j.well == w
/-- Can a result ring not take a stream whose records have a body of n bytes (R375, R378)? -/
def State.ringBad (s : State) (r n : Nat) : Bool :=
  let i : ResIx := ⟨r % 64, Nat.mod_lt _ (by decide)⟩
  s.reg (Reg.resSlots i) == 0 || decide (s.reg (Reg.resBodyBytes i) < n) ||
    s.cmd.cmds.any fun c => c.stage != .read && c.job.any fun j => j.outs.any fun o => o.ring == r

/-- Pages of the spool that one line group of an output stream takes (R50). -/
def State.groupPages (s : State) (o : OutStream) : Nat :=
  if o.arg.isSome then s.stripes * spoolPages (64 + o.pitch) else spoolPages (64 + 32 + 32 * s.od Od.detKeepMax)

/-- The undersize event names the bits of UNDERSIZE that are newly set (R50). DESIGN CHOICE (log entry 97): a condition that fails again
while its bit is still set raises no further event, for which BITS would be 0. -/
def State.undersize (s : State) (new : Nat) : State :=
  let old := s.od Od.cntUndersize
  if Nat.lor old new = old then s
  else (s.setOd Od.cntUndersize (Nat.lor old new)).statusEvent 0 0 0xFF (Nat.lor old new - old) 0

/-- The spool condition of R50, checked at each job start. -/
def State.spoolCheck (s : State) : State :=
  let pages := (s.jobs.map fun x => (x.2.outs.map s.groupPages).sum).sum
  if s.spoolTotal < 9 * pages then s.undersize 2 else s

/-- The output streams of a job that starts (R378), from group g. -/
def jobOuts (detRing : Nat) (streams : List Stream) (g : Int) : List OutStream :=
  ((streams.filter fun x => x.kind == 2).map fun x =>
    { ring := x.ring, arg := some x.arg, pitch := x.pitch, g := g, part2 := false, stripe := 0, ready := [], missed := [] }) ++
  (if detRing = 0xFF then [] else [{ ring := detRing, arg := none, pitch := 0, g := g, part2 := false, stripe := 0, ready := [], missed := [] }])

/-- Groups of the job's range that are cancelled before it starts (R379): those from its first group on, not before the first group processed. -/
def State.skippedGroups (s : State) (j : Job) : Nat := match j.first, s.firstGroup, j.cancelledTo with
  | some f, some h, some c =>
    let top := if j.count = 0 then c else min c (f + (j.count : Int) - 1)
    (top + 1 - max f h).toNat
  | _, _, _ => 0

/-- The job as it starts (R357, R379). -/
def State.startJob (s : State) (c : Cmd) (j : Job) (streams : List Stream) : State :=
  let p := s.readProgram j.prog
  let valid := (s.checkProgram p).isNone
  let first := match j.first, s.web.completeGroup with
    | some f, _ => some f
    | none, some g => if s.web.runGroup then some (g + 1) else s.firstGroup
    | none, none => s.firstGroup
  let gone := s.web.completeGroup.map (· - 8)
  let from_ := match first, gone with
    | some f, some g => max f (g + 1)
    | some f, none => f
    | none, _ => -(2 ^ 63 : Int)
  let j := { j with first := first, cancelledTo := gone, outs := jobOuts j.detRing streams from_, opes := p.opes, reads := if valid then s.programReads p else 0,
                    since := s.web.completeGroup }
  let s := s.modCmdRec c fun x => { x with stage := .running, job := some { j with missedGroups := s.skippedGroups j } }
  s.fixFirst.spoolCheck

/-- The remaining checks of a JOB and its start, with its arguments at hand. -/
def State.tryJob (s : State) (c : Cmd) (j : Job) : State :=
  let streams := s.cmd.streams.filter fun x => x.tag == c.tag
  let outs := jobOuts j.detRing streams 0
  let twice := (outs.map fun o => o.ring).dedup.length != outs.length
  let bad := outs.any fun o => o.arg.isSome && s.ringBad o.ring o.pitch
  if twice || bad then s.refuseJob c 0x0B else s.startJob c j streams

/-- JOB_START: the well, the state, the detection ring, the arguments, and the result rings are checked, and the job starts (R375, R378, R379). The
argument block is read once, by run-ahead or now (R350). -/
def execJobStart (queue : QueueIx) (s : State) : Result := s.act fun s =>
  match s.startable queue 0 with
  | none => s
  | some c =>
    if bitAt (c.field 16 8) 63 && c.job.isNone && c.argsBad.isNone && !s.canDma then s
    else if s.wellBusy (byteAt c.bytes 6) then s.refuseJob c 5
    else if !s.dev.state.live then s.refuseJob c 8
    else if byteAt c.bytes 7 != 0xFF && s.ringBad (byteAt c.bytes 7) (32 + 32 * s.od Od.detKeepMax) then s.refuseJob c 0x0B
    else match c.job with
      | some j => s.tryJob c j
      | none => match c.argsBad, s.bindArgs c.tag (c.field 16 8) with
        | some st, _ => s.refuseJob c st
        | none, none => (s.argsSeen (c.field 16 8)).refuseJob c 7
        | none, some (args, streams) => ((s.argsSeen (c.field 16 8)).bindJob c args streams).tryJob c (c.newJob args)

/-- COPY_COMMAND: the copy's descriptor is read and checked, and the copy begins (R362, R373, R375). -/
def execCopyCommand (queue : QueueIx) (s : State) : Result := s.act fun s =>
  match s.startable queue 1 with
  | none => s
  | some c =>
    if s.od Od.dramDramState != 2 then s.refuseCmd c 7
    else
      let r := s.bindDesc (c.field 8 8)
      let s := s.descSeen (c.field 8 8)
      match r with
      | .bad _ => s.refuseCmd c 7
      | .ok d src dst =>
        if sdKind d != 3 then s.refuseCmd c 7
        else s.modCmdRec c fun x => { x with stage := .running, copy := some { desc := d, src := src, dst := dst } }

/-- SIGNAL_COMMAND: it performs OP with SIGNAL_VALUE on SIGNAL_SYNC and completes at once (R373). -/
def execSignalCommand (queue : QueueIx) (s : State) : Result := s.act fun s =>
  match s.startable queue 2 with
  | none => s
  | some c => (s.signal (c.field 46 2 % 2 ^ 14) (bit (bitAt (c.field 46 2) 14)) (c.field 52 4)).endCmd (fun x => x.queue == c.queue && x.index == c.index) 0 0

/-- WAIT_COMMAND: it starts, and completes at once where its condition already holds (R373). -/
def execWaitCommand (queue : QueueIx) (s : State) : Result := s.act fun s =>
  match s.startable queue 3 with
  | none => s
  | some c =>
    if waitHolds (s.sync (c.field 44 2)) (c.field 48 4) then s.endCmd (fun x => x.queue == c.queue && x.index == c.index) 0 0
    else s.modCmdRec c fun x => { x with stage := .waiting }

/-- SYNC_WAIT_SATISFIED: the waiter's condition holds, and it goes on (R388). Wells, fills and copies look at their conditions when they act. -/
def execSyncWaitSatisfied (w : Waiter) (s : State) : Result := s.act fun s =>
  match w with
  | .core k => (match (s.core k).tile with
    | some t => (match t.wait with
      | some (.sync o v side _ _) =>
        if s.coreWaitHolds k t o v side then s.advance k else s
      | _ => s)
    | none => s)
  | .queue q => (match (s.queueCmds q).find? fun c => c.stage = .waiting with
    | some c => if s.cmdOpen && waitHolds (s.sync (c.field 44 2)) (c.field 48 4) then s.endCmd (fun x => x.queue == c.queue && x.index == c.index) 0 0 else s
    | none => s)
  | .well _ => s
  | .stream _ => s
  | .registerCopy => s

/-! ### Completion (R377, R394, R399) -/

/-- Is every group of a bounded job's range finished in every tile or cancelled (R394)? -/
def State.jobOver (s : State) (j : Job) : Bool :=
  match s.jobFirst j, s.firstGroup with
  | some f, some h =>
    let top := f + (j.count : Int) - 1
    let lo := max (max f h) (match j.cancelledTo with
      | some c => c + 1
      | none => f)
    j.count != 0 && (decide (top < lo) || (s.groupDone top 0 && (List.range (top + 1 - lo).toNat).all fun i => s.groupClosed j (lo + (i : Int))))
  | _, _ => false

/-- Is every record of a job's streams written or declared missed (R394)? -/
def State.outsDone (s : State) (j : Job) : Bool :=
  match s.jobFirst j with
  | some f => j.outs.all fun o => decide (f + (j.count : Int) ≤ o.g)
  | none => false

/-- JOB_COMPLETE: every group is over, every record written or declared missed, every spill accepted, every context effect applied (R394). Missed
records that wait for space in their rings are still written. -/
def execJobComplete (tag : BitVec 12) (s : State) : Result := s.act fun s =>
  let s := s.fixFirst
  match s.jobOf tag.toNat with
  | none => s
  | some j =>
    let spilled := s.cmd.streams.all fun x => x.tag != tag.toNat || x.kind != 1 || x.slots.isEmpty
    if s.jobOver j && s.outsDone j && spilled && s.ctx.batches.all fun b => b.tag != tag.toNat then
      let s := s.modCmd fun u => { u with owed := u.owed ++ j.outs.flatMap fun o => o.owed tag.toNat }
      (((s.dropStreams tag.toNat).endCmd (fun c => c.tag == tag.toNat && !c.noTag) 0 0).forgetJob tag.toNat).releaseRings
    else s

/-- The 32 bytes of a completion record (R399). -/
def State.completionBytes (s : State) (c : Cmd) (status detail : Nat) : List Byte :=
  let f := (c.job.map fun j => Nat.lor j.flags (2 * bit (j.missedGroups != 0))).getD 0
  leBytes 8 s.dt ++ leBytes 6 s.web.lastLsn ++ leBytes 1 c.queue ++ leBytes 1 status ++ leBytes 2 c.tag ++ leBytes 1 f ++ leBytes 1 detail ++
  leBytes 4 c.index ++ leBytes 4 (min ((c.job.map fun j => j.finishedTiles).getD 0) 0xFFFFFFFF) ++
  leBytes 2 (min ((c.job.map fun j => j.missedGroups).getD 0) 0xFFFF) ++ leBytes 2 (min ((c.job.map fun j => j.dups).getD 0) 0xFFFF)

/-- COMPLETION_RECORD_WRITE: the queue's oldest ended command has its record written; its tag and its well are free, and a command that completed
signals (R374, R377, R379, R395, R399). -/
def execCompletionRecordWrite (queue : QueueIx) (s : State) : Result := s.act fun s =>
  let done := (s.queueCmds queue).findSome? fun c => match c.stage with
    | .done st d => some (c, st, d)
    | _ => none
  match done with
  | none => s
  | some (c, st, d) =>
    if !s.ringSpace (.completion queue) then s
    else
      let s := (s.ringPut (.completion queue) (s.completionBytes c st d)).count64 Reg.cmdCompleted 1
      let s := s.modCmd fun u => { u with
        cmds := u.cmds.filter fun x => !(x.queue == c.queue && x.index == c.index)
        owed := u.owed.map fun m => if m.tag = c.tag && !c.noTag then { m with inFlight := false } else m
        ended := if c.noTag then u.ended else c.tag :: u.ended.filter fun t => t != c.tag }
      let s := if c.flag 3 || refusalStatus c st then s.msixRaise (1 + queue) else s
      if st = 0 && c.flag 2 then s.signal (c.field 46 2 % 2 ^ 14) (bit (bitAt (c.field 46 2) 14)) (c.field 52 4) else s

/-! ### Ring registers (R368 to R371, R405) -/

/-- The number of a ring in its kind. -/
def ringNumber : DevRing → Nat
  | .completion q => q
  | .result r => r
  | .event => 0
  | .stats => 0

/-- RING_CI_WRITE: slots free up, or the write is ignored and reported where it passes PI (R370, R371). -/
def execRingCiWrite (ring : DevRing) (ci : W32) (s : State) : Result := s.act fun s =>
  let g := s.ringRegs ring
  if !s.cmdOpen then s
  else if ringUsed (s.reg g.pi) (s.reg g.ci) < ringUsed (s.reg g.pi) ci.toNat then s.raiseStatus .cmd 4 3 (ringNumber ring) 0xFF 0
  else
    let s := s.setReg g.ci ci.toNat
    match ring with
    | .event => s.eventsLostPut
    | _ => s

/-- Is n 0 or a power of two from lo to hi? -/
def slotsOk (n lo hi : Nat) : Bool := n == 0 || (decide (lo ≤ n) && decide (n ≤ hi) && 2 ^ Nat.log2 n == n)

/-- The size of a ring is set and its indices return to 0; a stopped queue may run again (R368, R371, R398). A size out of range is ignored. The size of
the statistics ring is a dictionary entry (R170). -/
def State.ringSize (s : State) (ring : AnyRing) (n : Nat) : State :=
  match ring with
  | .command q =>
    if !slotsOk n 16 65536 then s
    else (((s.setReg (Reg.cqSlots q) n).setReg (Reg.cqPi q) 0).setReg (Reg.cqCi q) 0).setReg (Reg.cqStatus q) 0
  | .device (.completion q) => if !slotsOk n 16 65536 then s else ((s.setReg (Reg.ccSlots q) n).setReg (Reg.ccPi q) 0).setReg (Reg.ccCi q) 0
  | .device (.result r) =>
    if !slotsOk n 16 1048576 then s
    else (((s.setReg (Reg.resSlots r) n).setReg (Reg.resPi r) 0).setReg (Reg.resCi r) 0).modCmd fun c => { c with seqs := c.seqs.set 0 r 0 }
  | .device .event =>
    if !slotsOk n 64 1048576 then s else (((s.setReg Reg.cmdEvtSlots n).setReg Reg.cmdEvtPi 0).setReg Reg.cmdEvtCi 0).eventsLostPut
  | .device .stats => s

/-- RING_SLOTS_WRITE: only in PREOP (R371). -/
def execRingSlotsWrite (ring : AnyRing) (slots : W32) (s : State) : Result := s.act fun s =>
  if s.dev.state != .preop then s else s.ringSize ring slots.toNat

/-! ### Abort, synchronisation registers, restart (R387, R395, R396, R405) -/

/-- CMD_ABORT: one tag, or every command of a queue, is cancelled (R395). RESULT says so; or that the tag's command had passed its commit point; or that
nothing was in flight. DEDUCED (log entry 52): a tag counts as complete until a record that is read uses it again. -/
def execCmdAbort (value : W32) (s : State) : Result := s.act fun s =>
  let v := value.toNat
  if !s.cmdOpen || !bitAt v 16 then s
  else
    let all := bitAt v 17
    let cs := if all then s.queueCmds (bits v 23 18) else (s.cmdOf (bits v 11 0)).toList
    let result := if !cs.isEmpty then 0 else if !all && s.cmd.ended.contains (bits v 11 0) then 1 else 2
    ((cs.foldl (fun (u : State) c => u.cancelCmd c 1) s).setReg Reg.cmdAbortStatus (2 * result)).raiseInt .cmd 2

/-- CMD_SYNC_VALUE: a write sets the object that CMD_SYNC_INDEX names (R387). -/
def execCmdSyncValueWrite (value : W32) (s : State) : Result := s.act fun s =>
  if s.cmdOpen then s.signal (bits (s.reg Reg.cmdSyncIndex) 13 0) 1 value.toNat else s

/-- CMD_SYNC_ADD: the written value is added to the object that CMD_SYNC_INDEX names (R387). -/
def execCmdSyncAdd (value : W32) (s : State) : Result := s.act fun s =>
  if s.cmdOpen then s.signal (bits (s.reg Reg.cmdSyncIndex) 13 0) 0 value.toNat else s

/-- CQ_CTRL.RESTART: STOPPED is cleared for causes 1 and 2 (R405). -/
def execCqRestart (queue : QueueIx) (s : State) : Result := s.act fun s =>
  let st := s.reg (Reg.cqStatus queue)
  if s.cmdOpen && bitAt st 1 && (bits st 3 2 == 1 || bits st 3 2 == 2) then s.setReg (Reg.cqStatus queue) 0 else s

/-! ### Cancellation of a group, close of a tracked group (R160, R382) -/

/-- A running job's group g is declared missed where it is not finished (R42, R355, R356, R382). -/
def State.cancelGroup (s : State) (g : Int) (x : Nat × Job) : State :=
  match s.jobOf x.1 with
  | none => s
  | some j =>
    let lost := s.jobHas j g && !s.groupClosed j g
    let s := s.modJob x.1 fun j => { j with cancelledTo := some g, missedGroups := j.missedGroups + bit lost }
    let missed := lost || (s.jobHas j g && j.outs.any fun o => decide (o.g ≤ g))
    let s := s.stopTiles fun t => t.tag == x.1 && t.g == g && t.commit == .won
    let s := s.freeFetch x.1 (if missed then some g else none)
    let s := (j.outs.map fun o => o.ring).foldl (fun (u : State) r => u.missGroup x.1 g r) s
    if j.detRing != 0xFF && s.jobHas j g then s.detMissed g (j.outs.any fun o => o.arg.isNone && decide (o.g ≤ g)) else s

/-- Groups up to `lgn` are cancelled in every job that has not cancelled them yet, and what is not written of them is declared missed (R42, R382). -/
def State.cancelTo (s : State) (lgn : Int) : State := match s.firstGroup with
  | none => s
  | some h =>
    (s.jobs.foldl (fun (u : State) x =>
      let lo := max h (match x.2.cancelledTo with
        | some c => c + 1
        | none => h)
      (List.range (lgn + 1 - lo).toNat).foldl (fun (w : State) i => w.cancelGroup (lo + (i : Int)) x) u) s).releaseRings

/-- GROUP_CANCEL: at the completion of group lgn + 8, every tile of groups up to lgn is cancelled, and what is not written is declared missed (R42, R382). -/
def execGroupCancel (lgn : Int) (s : State) : Result := s.act fun s =>
  let s := s.fixFirst
  if s.groupDone lgn 8 then s.cancelTo lgn else s

/-- The part of a group that a tensor closes next: the first, then the second of a group closed short at HOLD (R38, R160); none where the tiles of
that part have not all committed or been cancelled, or where both have closed. -/
def State.closingPart (s : State) (t : Nat) (g : Int) : Option Bool :=
  [false, true].find? fun p => !(s.tensor t).closed.contains (g, p) && s.partCommitted g p

/-- TRACKED_GROUP_CLOSE: every tile of the group has committed or been cancelled, and the tensor's group closes (R160). -/
def execTrackedGroupClose (tensor : Fin 256) (lgn : Int) (s : State) : Result := s.act fun s =>
  let known := match s.firstGroup with
    | some h => decide (h ≤ lgn)
    | none => false
  if s.dev.state.live && s.odFlag (Od.trkEnable tensor) && known then
    match s.closingPart tensor lgn with
    | some p => s.closeTracked tensor lgn p
    | none => s
  else s

end Sys2Proof.Machine
end

