-- ==== Sys2Proof/Machine/Web.lean ====
section
/-! DEFINITION. Line triggers and their sources (R14 to R24, R39, R70, R71, R74, R91, R312 to R315, R432). -/

namespace Sys2Proof.Machine

/-! ### What a trigger does -/

/-- Is the port the reference port of camera mode (R73): the lowest-numbered enabled one? -/
def State.isReference (s : State) (c : PortIx) : Bool := s.od Od.webLineSource == 2 && s.enabledPorts.head? == some c

/-- Does a trigger come too soon for a camera (R20)? -/
def State.withheld (s : State) (c : PortIx) : Bool := match s.web.lastTrigger[c] with
  | some t => decide (s.dt < t + s.portMinCycle c)
  | none => false

/-- Pending entries that count against the list of 64 (R74): those still short of a row. -/
def State.pendCount (s : State) (c : PortIx) : Nat := ((s.port c).pend.filter fun e => decide (e.marks < s.rowsPerCycle c)).length

/-- The trigger reaches a camera that it is not withheld from (R72 to R74). -/
def State.triggerPort (s : State) (x : Int) (c : PortIx) : State :=
  let s := if 64 ≤ s.pendCount c then s.declareAbsent c else s
  let e : PendEntry := { x := x, dt := s.dt, marks := 0, rows := [], flags := 0, check := false, idx := 0, fifoBytes := 0, mpBytes := 0, reason := 0, discard := false }
  let s := s.modPort c fun p => { p with pend := p.pend ++ [e] }
  let s := { s with web := { s.web with lastTrigger := s.web.lastTrigger.set c (some s.dt) } }
  if (s.port c).linked && s.odFlag (Od.portTriggerEnable c) && !s.isReference c then s.send (.triggerPacket c (mod48 x) s.dt) else s

/-- Every enabled camera is triggered, or the trigger is withheld from it with a placeholder of reason overspeed (R20). -/
def State.triggerPorts (s : State) (x : Int) : State :=
  let late := s.enabledPorts.filter s.withheld
  let s := (s.enabledPorts.filter fun c => !late.contains c).foldl (fun (u : State) c => u.triggerPort x c) s
  let s := late.foldl (fun (u : State) c => u.placeholder c x u.dt 1 0) s
  if late.isEmpty then s else s.countOd Od.webOverspeedCount 1

/-- The values that take effect at a trigger (R94, R315): LINE_TIMEOUT and TRIGGER_ENABLE of every port, and the period registers. -/
def State.triggerValues (s : State) (x : Int) : State :=
  let lsn := mod48 x
  let period := fun (u : State) (v : MirageVal) => (u.periodEffect v.key v.value lsn).ledgerEffect v lsn
  let s := (List.finRange 16).foldl (fun (u : State) c =>
    let vs := (u.port c).mirage.filter fun v => !mirageAtFrame v
    let u := (u.modPort c fun p => { p with mirage := p.mirage.filter mirageAtFrame }).applyValues lsn vs
    u.takeScheduled (fun v => ingressKey c v.key && !mirageAtFrame v && dueAtLine lsn v) fun w v => w.applyValues lsn [v]) s
  let ps := s.doors.deferred.filter fun v => isPeriodKey v.key
  let s := ps.foldl period { s with doors := { s.doors with deferred := s.doors.deferred.filter fun v => !isPeriodKey v.key } }
  s.takeScheduled (fun v => isPeriodKey v.key && dueAtLine lsn v) period

/-- The drop runs that a group's completion closes (R91): those with a line of a complete group, so that a run goes on beyond a group boundary in a
further record. -/
def State.closeRuns (s : State) (g : Int) : State :=
  s.enabledPorts.foldl (fun (u : State) c => match (u.port c).run with
    | some r => if (r.firstX - u.along c) / u.lineGroup ≤ g then u.closeRun c else u
    | none => u) s

/-- The group that a trigger with extended count x completes (R39). -/
def State.completes (s : State) (x : Int) : Option Int :=
  let n := x - s.alongMax + 1
  if n % s.lineGroup = 0 then some (n / s.lineGroup - 1) else none

/-- The group completes: its drop runs close and released input slots free up (R39, R91, R357). -/
def State.groupComplete (s : State) (g : Int) : State :=
  (({ s with web := { s.web with completeGroup := some g, completeDt := some s.dt, runGroup := s.web.runGroup || s.dev.state == DevState.run } }).closeRuns
    g).releaseRings

/-- A line trigger at position `thr` (R14, R20, R22, R23, R39, R72, R74, R312, R432). -/
def State.trigger (s : State) (thr : Int) : State :=
  let x := s.web.x
  let lsn := mod48 x
  let s := s.triggerValues x
  let s := { s with web := { s.web with x := x + 1, lastLsn := lsn, triggered := true } }
  let s := s.phaseRecord thr lsn
  let s := s.triggerPorts x
  let s := match s.completes x with
    | some g => s.groupComplete g
    | none => s
  let s := if (x + 1) % s.lineGroup = 0 then s.sendBarrier (x / s.lineGroup) lsn s.dt else s
  if mod48 (x + 1) = 0 then s.event 0 6 [] else s

/-- Do triggers come in the present state (R78)? -/
def State.triggering (s : State) : Bool := s.dev.state == .armed || s.dev.state == .run

/-- A trigger of timer or camera mode, whose position is notional (R312). -/
def State.plainTrigger (s : State) : State :=
  let thr := s.ctx.thr
  let s := s.trigger thr
  s.modCtx fun c => { c with thr := thr + s.od Od.webLinePitch }

/-! ### The sources -/

/-- The count of a change of one encoder input, by DECODE and INVERT (R70): `a` and `b` are the levels before it, `a'` and `b'` after it. Forward is
the direction in which A leads B: A rises while B is low and falls while B is high, B rises while A is high and falls while A is low. -/
def State.decoded (s : State) (a b a' b' : Bool) : Option Bool :=
  let onA := a != a'
  let forward := (if onA then a' != b' else a' == b') != s.odFlag Od.encInvert
  match s.od Od.encDecode with
  | 0 => if onA && a' == forward then some forward else none
  | 1 => if onA then some forward else none
  | _ => if a != a' || b != b' then some forward else none

/-- Levels of A and B that pass the glitch filter, having stood for `ns` ns, become the decoder's reference (R70). -/
def State.encSample (s : State) (a b : Bool) : State := { s with web := { s.web with encLevels := some (a, b) } }

/-- One decoded count moves the position and may trigger (R15 to R18). -/
def State.count (s : State) (dir : Bool) : State :=
  let s := { s with web := { s.web with pos := s.web.pos + (if dir then 1 else -1), windowCounts := s.web.windowCounts + 1 } }
  if s.web.pos ≤ s.web.high then s
  else
    let s := { s with web := { s.web with high := s.web.pos } }
    if !s.triggering || s.od Od.webLineSource != 0 || s.web.high * 65536 < s.web.next then s
    else
      let s := s.trigger s.web.next
      { s with web := { s.web with next := s.web.next + (s.od Od.webLinePitch : Int) } }

/-- ENCODER_COUNT: the encoder inputs take the levels of the sample, one of which has changed (R70). A pulse shorter than
FILTER_NS is rejected; the first levels after a reset are the reference and count nothing. -/
def execEncoderCount (sample : EncSample) (s : State) : Result := s.act fun s =>
  if sample.ns < s.od Od.encFilterNs then s
  else match s.web.encLevels with
    | none => s.encSample sample.a sample.b
    | some (p, q) =>
      if p != sample.a && q != sample.b then s
      else match s.decoded p q sample.a sample.b with
        | some dir => (s.encSample sample.a sample.b).count dir
        | none => s.encSample sample.a sample.b

/-- ENCODER_ILLEGAL_TRANSITION: in a sample that passes the glitch filter both inputs have changed: the position stays, and the transition is counted,
with one event at most each 1 ms (R70, R71). Before the decoder's first sample there is none. -/
def execEncoderIllegalTransition (s : State) : Result := s.act fun s =>
  match s.web.encLevels with
    | none => s
    | some (p, q) =>
      let s := (s.encSample (!p) (!q)).countOd Od.encEncErrors 1
      s.rateLimited (rateKey 0 5 0) 1000000 fun t => t.event 0 5 (leBytes 4 (t.od Od.encEncErrors))

/-- COUNT_RATE_WINDOW: the decoded counts of 1 ms become the rate (R71). -/
def execCountRateWindow (s : State) : Result := s.act fun s =>
  let n := s.web.windowCounts
  ({ s with web := { s.web with windowCounts := 0 } }).setOd Od.encCountRate (min (n * 1000) 0xFFFFFFFF)

/-- LINE_TIMER_EXPIRY: the line timer triggers in timer mode (R14, R19, R21). -/
def execLineTimerExpiry (s : State) : Result := s.act fun s =>
  if s.od Od.webLineSource != 1 || !s.triggering then s
  else ({ s with web := { s.web with timerStart := s.dt } }).plainTrigger

end Sys2Proof.Machine
end

