-- ==== Sys2Proof/Machine/Ingress.lean ====
section
/-! DEFINITION. The commands of camera ingress (R58 to R97): light and lane lock, discovery, the control channel, heartbeats, camera packets and the
timeouts of lines. -/

namespace Sys2Proof.Machine

/-! ### Light, lanes and discovery (R58, R60, R63, R79) -/

/-- The engine of a port (R60). -/
def engineOf (c : PortIx) : EngineIx := ⟨c.val / 4, by omega⟩

/-- LIGHT_OK rises (R58, R407, R609): a camera engine's lanes may lock; a side link starts to train. -/
def execLightOkRise (engine : EngineIx) (s : State) : Result := s.act fun s =>
  if !s.pwr.engines.getLsbD engine then s
  else if engine.val < 4 then s.setOd (Od.engLightOk engine) 1
  else
    let l : LinkIx := ⟨(engine.val - 4) % 2, Nat.mod_lt _ (by decide)⟩
    (s.modLink l fun x => { x with light := true }).linkStart l

/-- LIGHT_OK falls (R58, R79, R407, R414): every port of a camera engine loses its lanes and goes down; a side link that runs retrains. -/
def State.lightFall (s : State) (engine : EngineIx) : State :=
  if engine.val < 4 then
    (List.finRange 4).foldl (fun (u : State) i =>
      let c := portOf ⟨engine.val % 4, Nat.mod_lt _ (by decide)⟩ i
      (u.portDown c).modPort c fun p => { p with locks := 0 }) (s.setOd (Od.engLightOk engine) 0)
  else
    let l : LinkIx := ⟨(engine.val - 4) % 2, Nat.mod_lt _ (by decide)⟩
    let s := s.modLink l fun x => { x with light := false, locked := 0 }
    if (s.link l).state = .linked then (s.modLink l fun x => { x with excluded := x.excluded ||| x.active }).linkRetrain l else s

/-- LIGHT_OK_FALL. -/
def execLightOkFall (engine : EngineIx) (s : State) : Result := s.act fun s => s.lightFall engine

/-- May a receive lane of a port lock: the engine has light, the port uses the lane, its die-to-die wire works, and no item holds the engine
(R58, R60, R510, R519)? -/
def State.laneMayLock (s : State) (c : PortIx) (lane : Fin 4) : Bool :=
  let e := engineOf c
  s.odFlag (Od.engLightOk e) && decide (lane.val < s.od (Od.portLaneCount c)) &&
  !(s.trim.dead.any fun d => d.1 == e.val && Config.wireLane d.1 d.2 == 4 * (c.val % 4) + lane.val) &&
  !(s.trim.running.any fun x => x.kind == 2 && x.unit == e.val)

/-- Does the device speak to cameras in its state (R63)? -/
def State.camerasServed (s : State) : Bool := s.dev.state == .preop || s.dev.state.live

/-- LANE_LOCK_GAIN: a master connection's lock starts discovery; the last lane's ends step 4 (R63, R79). -/
def execLaneLockGain (port : PortIx) (lane : Fin 4) (s : State) : Result := s.act fun s =>
  if !s.laneMayLock port lane || (s.port port).locks.getLsbD lane then s
  else
    let s := s.modPort port fun p => { p with locks := p.locks ||| BitVec.ofNat 4 (2 ^ lane.val) }
    let p := s.port port
    if (p.state = .down || p.state = .failed) && lane.val = 0 && s.camerasServed then s.discStart port
    else if p.step = .lanes && s.allLocked port then s.discRead port 3 .readback
    else s

/-- Does the loss of a lane take the port down: in DISCOVERY until step 4 has seen every lane, only the master connection's (R63)? -/
def Port.lossCounts (p : Port) (lane laneCount : Nat) : Bool :=
  if p.state = .discovery && p.step != .readback then lane == 0 else decide (lane < laneCount)

/-- LANE_LOCK_LOSS (R63, R79). A failed port whose lock is lost goes DOWN and starts again when it locks. -/
def execLaneLockLoss (port : PortIx) (lane : Fin 4) (s : State) : Result := s.act fun s =>
  if !(s.port port).locks.getLsbD lane then s
  else
    let counts := (s.port port).lossCounts lane (s.od (Od.portLaneCount port))
    let s := s.modPort port fun p => { p with locks := p.locks &&& ~~~(BitVec.ofNat 4 (2 ^ lane.val)) }
    if counts then s.portDown port else s

/-- DISCOVERY_LOCK_TIMEOUT: not every lane locked within 100 ms (R63, DISC_CODE 4). -/
def execDiscoveryLockTimeout (port : PortIx) (s : State) : Result := s.act fun s =>
  if (s.port port).step = .lanes then s.discFail port 4 else s

/-! ### The control channel (R66, R67, R97) -/

/-- Is a request of the host on the wire? -/
def Port.hostSent (p : Port) : Bool := match p.ccHost with
  | some r => r.sent
  | none => false

/-- Does discovery wait for a reply? -/
def Port.discWaits (p : Port) : Bool := match p.step with
  | .revision | .model | .ident | .configure | .readback => true
  | _ => false

/-- Discovery that waited for the control channel starts (R66). -/
def State.discResume (s : State) (c : PortIx) : State := if (s.port c).step = .waitSlot then s.discRead c 0 .revision else s

/-- Store a read reply into CAM_CC_DATA. -/
def State.setCcData (s : State) (c : PortIx) (bs : List Byte) : State :=
  (List.range (ceilDiv bs.length 4)).foldl (fun (u : State) i => u.setReg (Reg.camCcData c i) (fieldAt bs (4 * i) 4)) s

/-- CC_REPLY: an acknowledgement finishes the host's request or advances discovery (R63, R66). -/
def execCcReply (port : PortIx) (ack : Byte) (data : List Byte) (s : State) : Result := s.act fun s =>
  match (s.port port).ccHost with
  | some r =>
    if r.sent then
      let ok := Config.cxpAckOk ack
      let s := if ok && !r.write then s.setCcData port (padTo r.len data) else s
      (s.ccFinish port (if ok then 0 else 1) (if ok then 0 else ack.toNat)).discResume port
    else if (s.port port).discWaits then s.discReply port ack data else s
  | none => if (s.port port).discWaits then s.discReply port ack data else s

/-- CC_TIMEOUT: no reply within 200 ms (R63, R66). -/
def execCcTimeout (port : PortIx) (s : State) : Result := s.act fun s =>
  if (s.port port).hostSent then (s.ccFinish port 2 0).discResume port
  else if (s.port port).discWaits then s.discFail port 3 else s

/-- A GO of the control-channel mailbox (R66, R67, R96, R97). -/
def State.ccGo (s : State) (c : PortIx) (write : Bool) : State :=
  if (s.port c).ccHost.isSome then s
  else
    let len := s.reg (Reg.camCcLen c)
    let addr := s.reg (Reg.camCcAddr c)
    let data := ((List.range 16).flatMap fun i => leBytes 4 (s.reg (Reg.camCcData c i))).take len
    if !s.camerasServed then s.ccFinish c 4 0
    else if len % 4 != 0 || len < 4 || 64 < len then s.ccFinish c 5 0
    else if !(s.port c).linked && (s.port c).state != .discovery then s.ccFinish c 3 0
    else
      let s := if write then s.ledgerAppend { kind := 4, origin := .host, aux := leBytes 1 c ++ [0, 0, 0] ++ leBytes 4 addr ++ leBytes 4 len ++ padTo 8 (data.take 8),
                                              lsn := s.web.lastLsn } else s
      let now := (s.port c).linked
      let s := s.modPort c fun p => { p with ccHost := some ⟨write, addr, len, if write then data else [], now⟩ }
      let s := s.setReg (Reg.camCcStatus c) 1
      if now then s.send (.ccRequest c write addr len (if write then data else [])) else s

/-- CAM_CC_READ. -/
def execCamCcRead (port : PortIx) (s : State) : Result := s.act fun s => s.ccGo port false
/-- CAM_CC_WRITE. -/
def execCamCcWrite (port : PortIx) (s : State) : Result := s.act fun s => s.ccGo port true

/-! ### Heartbeats and camera events (R68, R69) -/

/-- HEARTBEAT_SEND: each HB_PERIOD on a linked port. -/
def execHeartbeatSend (port : PortIx) (s : State) : Result := s.act fun s =>
  if (s.port port).linked then s.send (.heartbeat port s.dt) else s

/-- HEARTBEAT_RECEIVE. -/
def execHeartbeatReceive (port : PortIx) (s : State) : Result := s.act fun s =>
  if (s.port port).linked then s.modPort port fun p => { p with hbOk := true } else s

/-- HEARTBEAT_TIMEOUT: the port stays linked (R68). -/
def execHeartbeatTimeout (port : PortIx) (s : State) : Result := s.act fun s =>
  if (s.port port).linked then
    ((s.modPort port fun p => { p with hbOk := false }).camCount (Reg.camHbMissed port) 1).camStatus port 0x80
  else s

/-- CAMERA_EVENT_PACKET: acknowledged and forwarded (R69). -/
def execCameraEventPacket (port : PortIx) (payload : List Byte) (s : State) : Result := s.act fun s =>
  if !(s.port port).linked then s
  else
    let s := ((s.send (.eventAck port)).camCount (Reg.camEventsRx port) 1).camInt port 0x100
    s.event 0 4 (leBytes 1 port ++ leBytes 1 (bit (decide (32 < payload.length))) ++ leBytes 2 (min payload.length 0xFFFF) ++ payload.take 32)

/-! ### Stream packets (R69, R75, R78, R79) -/

/-- Does a port take stream packets (R78, R79)? -/
def State.streaming (s : State) (c : PortIx) : Bool := (s.port c).linked && s.dev.state.live

/-- A stream packet of a known type on a linked port: the first identifier after discovery is the port's, another is foreign, in every device state
(R69). Outside ARMED, RUN and HOLD the packet does nothing else (log entry 29). -/
def State.onStream (s : State) (c : PortIx) (stream : Byte) (f : State → State) : State :=
  if !(s.port c).linked then s
  else
    let id := (s.port c).stream.getD stream
    if stream = id then
      let s := s.modPort c fun p => { p with stream := some id }
      if s.dev.state.live then f s else s
    else s.malformed c

/-- A line is due to begin: the frame splits in front of line FRAME_LINES + 1 (R83). The number of the row's frame is counted. -/
def State.countRow (s : State) (c : PortIx) : State :=
  match (s.port c).open_ with
  | none => s
  | some f =>
    let n := s.rowsPerCycle c
    if f.rows % n != 0 then s.modFrame c fun f => { f with rows := f.rows + 1 }
    else
      let lim := s.od (Od.portFrameLines c)
      let s := if lim != 0 && f.lines == lim then
          (s.closeFrame c 2).openFrame c (4 + (if bitAt f.flags 5 then 32 else 0)) false
        else s
      s.modFrame c fun f => { f with rows := f.rows + 1, lines := f.lines + 1 }

/-- Is the row that the open frame has counted last the first row of its line (R25)? -/
def State.lineStarts (s : State) (c : PortIx) : Bool := match (s.port c).open_ with
  | some f => (f.rows + s.rowsPerCycle c - 1) % s.rowsPerCycle c == 0
  | none => true

/-- In camera mode a line of the reference port is the line trigger, at its first row (R14, R73). -/
def State.cameraTrigger (s : State) (c : PortIx) : State :=
  if s.isReference c && s.triggering && s.lineStarts c && s.pendCount c == 0 && (s.port c).owed == 0 then s.plainTrigger else s

/-- The line whose first row opens next: that of the oldest pending entry, or in camera mode the line that the reference port triggers itself (R73, R75). -/
def State.openingLine (s : State) (c : PortIx) : Option Int :=
  if (s.port c).owed != 0 then none
  else match (s.port c).pend.find? fun e => decide (e.marks < s.rowsPerCycle c) with
    | some e => if e.marks = 0 then some e.x else none
    | none => if s.isReference c && s.triggering then some s.web.x else none

/-- Values scheduled at the LSN of the line that opens now apply from that line, its split at FRAME_LINES included (R94). -/
def State.openingValues (s : State) (c : PortIx) : State := match s.openingLine c with
  | some x => s.lineValues c x
  | none => s

/-- Would a line find no room at its first row (R80)? -/
def State.lineBlocked (s : State) (c : PortIx) : Bool :=
  decide (262144 < (s.port c).fifo + s.lineFifoBytes c) || (s.isMp c && decide (s.mpSize c < (s.fsPort c).mpLevel + s.lineMpBytes c))

/-- Before the drop of a line is decided, missed declarations that are due are made, and the ring space that they free is there for it
(R51; DEDUCED, log entry 159). -/
def State.missedFirst (s : State) (c : PortIx) : State := match s.web.completeGroup with
  | some g => if s.running && s.lineBlocked c then s.cancelTo (g - 8) else s
  | none => s

/-- An accepted row: stale, of the oldest pending entry, or unsolicited (R75). The entry that it belongs to. -/
def State.matchRow (s : State) (c : PortIx) : Option Int × State :=
  if (s.port c).owed != 0 then
    (none, (s.modPort c fun p => { p with owed := p.owed - 1 }).camCount (Reg.camStale c) 1)
  else match (s.port c).pend.find? fun e => decide (e.marks < s.rowsPerCycle c) with
    | some e =>
      let s := s.modEntry c e.x fun e => { e with marks := e.marks + 1 }
      (some e.x, if e.marks = 0 then (s.missedFirst c).admitLine c e else s)
    | none => (none, (s.camCount (Reg.camUnsolicited c) 1).camInt c 0x800)

/-- Open a row in state FRAME; `check` says that its marker was lost to a failed check value (R79, R84). -/
def State.rowOpen (s : State) (c : PortIx) (check : Bool) : State :=
  let s := ((((s.openingValues c).countRow c).flushHeld c false).cameraTrigger c)
  let (entry, s) := s.matchRow c
  s.modPort c fun p => { p with row := some { entry := entry, pixels := [], check := check, trunc := false }, state := .line }

/-- A packet that fails its check value is counted in every state (R84); in ARMED, RUN and HOLD it is taken as the line that it may hide (R79). -/
def State.badPacket (s : State) (c : PortIx) (lane : Fin 4) (pixels : List W16) : State :=
  let s := ((s.camCount (Reg.camCheckErrLane c lane) 1).camCount (Reg.camCheckErrPort c) 1).camInt c 0x20
  let s := s.modFrame c fun f => { f with checkErrors := satAdd 16 f.checkErrors 1 }
  if !s.streaming c then s else
  match (s.port c).state with
  | .frame => s.rowOpen c true
  | .line => s.rowPixels c pixels true
  | _ => s

/-- Pixel values as a packet of b bits a pixel can carry them. -/
def packPixels (b : Nat) (ps : List W16) : List W16 := ps.map fun p => BitVec.ofNat 16 (p.toNat % 2 ^ b)

/-- Does an image header carry the port's pixel format (R85)? -/
def State.headerFits (s : State) (c : PortIx) (pixelBits arrangement : Byte) : Bool :=
  pixelBits.toNat == s.od (Od.portPixelBits c) && arrangement.toNat == s.od (Od.portArrangement c)

/-- IMAGE_HEADER: opens a frame and ends what was open; a format that differs makes the frame malformed (R79, R85). `failedOn` is the lane on which
it arrived with a bad check value, where it did. -/
def execImageHeader (port : PortIx) (stream pixelBits arrangement : Byte) (failedOn : Option (Fin 4)) (s : State) : Result := s.act fun s =>
  match failedOn with
  | some lane => s.badPacket port lane []
  | none =>
    let foreign := (s.port port).linked && (s.port port).stream.getD stream != stream
    let ok := s.headerFits port pixelBits arrangement
    let s := s.onStream port stream fun s =>
      let s := s.rowEnd port
      (if (s.port port).open_.isSome then s.closeFrame port 8 else s).openFrame port (if ok then 0 else 32) true
    if foreign || ok then s else s.malformed port

/-- LINE_MARKER (R79). -/
def execLineMarker (port : PortIx) (stream : Byte) (s : State) : Result := s.act fun s =>
  s.onStream port stream fun s =>
    let s := if (s.port port).state = .idle then s.openFrame port 16 true else s.rowEnd port
    s.rowOpen port false

/-- PIXEL_DATA_PACKET (R79, R82). -/
def execPixelDataPacket (port : PortIx) (stream : Byte) (pixels : List W16) (s : State) : Result := s.act fun s =>
  s.onStream port stream fun s =>
    if (s.port port).state = .line then s.rowPixels port (packPixels (s.od (Od.portPixelBits port)) pixels) false
    else s.camCount (Reg.camOrphan port) 1

/-- CHECK_FAILED_PACKET (R79, R84). -/
def execCheckFailedPacket (port : PortIx) (lane : Fin 4) (pixels : List W16) (s : State) : Result := s.act fun s =>
  s.badPacket port lane (packPixels (s.od (Od.portPixelBits port)) pixels)

/-- FRAME_END (R79). -/
def execFrameEnd (port : PortIx) (stream : Byte) (s : State) : Result := s.act fun s =>
  s.onStream port stream fun s => (s.rowEnd port).closeFrame port 0

/-- MALFORMED_PACKET (R62, R69, R85): counted in every state. -/
def execMalformedPacket (port : PortIx) (s : State) : Result := s.act fun s => s.malformed port

/-! ### Timeouts (R76, R79, R88) -/

/-- LINE_DATA_TIMEOUT: no data for LINE_TIMEOUT ends the open row (R79). -/
def execLineDataTimeout (port : PortIx) (s : State) : Result := s.act fun s => s.rowEnd port

/-- LINE_TIMEOUT_ABSENT: the oldest pending entry is declared absent (R76, R86). -/
def execLineTimeoutAbsent (port : PortIx) (s : State) : Result := s.act fun s => s.declareAbsent port

/-- LINE_RELEASE_TIMEOUT: the held line goes without FRAME_END (R88). -/
def execLineReleaseTimeout (port : PortIx) (s : State) : Result := s.act fun s => s.flushHeld port false

end Sys2Proof.Machine
end

