-- ==== Sys2Proof/Machine/Trim.lean ====
section
/-! DEFINITION. The commands of trimming and telemetry (R509 to R520, R529, R534). -/

namespace Sys2Proof.Machine

/-! ### The map (R510, R531) -/

/-- Byte i of TRIM_MAP. -/
def State.trimByte (s : State) (i : Nat) : Nat := Map.get s.trim.map (Config.trimMapFused i).toNat i
/-- Write bytes of TRIM_MAP. -/
def State.setTrimBytes (s : State) (i : Nat) : List Nat → State
  | [] => s
  | v :: r => (s.modTrim fun t => { t with map := Map.set t.map (Config.trimMapFused i).toNat i v }).setTrimBytes (i + 1) r
/-- TRIM_MAP. -/
def State.trimMap (s : State) : List Byte := (List.range 2864).map fun i => BitVec.ofNat 8 (s.trimByte i)
/-- SPARES_MIN of a kind. -/
def State.sparesMin (s : State) (k : Nat) : Nat := Map.get s.trim.spares (Config.sparesMinFused k).toNat k
/-- A unit of a kind has n spares left. -/
def State.spareSeen (s : State) (k n : Nat) : State :=
  s.modTrim fun t => { t with spares := Map.set t.spares (Config.sparesMinFused k).toNat k (min n (s.sparesMin k)) }
/-- An OPE has n spare columns left, which both kinds that act on columns report (R509, R530). -/
def State.columnsSeen (s : State) (n : Nat) : State := (s.spareSeen 0 n).spareSeen 1 n

/-- The columns that an OPE excludes at present: EXCL_A and EXCL_B, 0xFF in both while it is out of service. -/
def State.colMap (s : State) (u : Nat) : Nat × Nat := (s.trimByte (2 * u), s.trimByte (2 * u + 1))
/-- A third faulty column keeps an OPE out of service (R191). -/
def State.thirdFault (s : State) (u : Nat) : Bool := s.colMap u == (0xFF, 0xFF)

/-- The excluded pair of an OPE after its test (R510): the faulty columns, those excluded at present, then the highest-numbered good ones. -/
def chooseColumns (old : Nat × Nat) (faulty : List Nat) : Nat × Nat :=
  let present := [min old.1 old.2, max old.1 old.2].filter fun c => decide (c < 34)
  let all := (faulty ++ present ++ ((List.range 34).reverse)).eraseDups
  match all with
  | a :: b :: _ => (min a b, max a b)
  | _ => old

/-- Test the columns of one OPE: the new map, and whether spares are exhausted. -/
def State.trimColumns (s : State) (u : Nat) (faulty : List Nat) : State :=
  let f := (faulty.filter fun c => decide (c < 34)).eraseDups
  let new := if 3 ≤ f.length then (0xFF, 0xFF) else chooseColumns (s.colMap u) f
  (s.setTrimBytes (2 * u) [new.1, new.2]).columnsSeen (2 - f.length)

/-- Fill the unused spares of a list with newly failed elements: the list, and those for which no spare is left. -/
def fillSpares (unused : Nat) (list faulty : List Nat) : List Nat × List Nat :=
  faulty.foldl (fun (a : List Nat × List Nat) f =>
    if a.1.contains f then a
    else match a.1.findIdx? (· == unused) with
      | some i => (a.1.set i f, a.2)
      | none => (a.1, a.2 ++ [f])) (list, [])

/-- Train the wires of an engine (R510): 6 spares on a camera engine, 4 on a side engine. -/
def State.trimWires (s : State) (e : Nat) (faulty : List Nat) (kind : Nat) : State × Bool :=
  let n := if e < 4 then 6 else 4
  let old := (List.range n).map fun i => s.trimByte (512 + 8 * e + i)
  let (new, lost) := fillSpares 0xFF old faulty.eraseDups
  let s := (s.setTrimBytes (512 + 8 * e) new).spareSeen kind (new.filter (· == 0xFF)).length
  let s := s.modTrim fun t => { t with dead := t.dead ++ (lost.map fun w => (e, w)).filter fun d => !t.dead.contains d }
  let s := if e < 4 then s else lost.foldl (fun (u : State) w => u.modLink (if e = 4 then 0 else 1) fun x =>
    { x with unusable := x.unusable ||| BitVec.ofNat 8 (2 ^ (Config.wireLane e w % 8)) }) s
  (s, !lost.isEmpty)

/-- Repair a row (R510): one more spare row of its bank, where one is left. -/
def State.trimRow (s : State) (addr : Nat) : State × Bool :=
  let bank := Config.dramBank (addr / 256)
  let used := Map.get s.trim.bankRows (Config.spareRowsFused bank).val bank
  if 16 ≤ used then (s, true)
  else
    let at_ := 2608 + 2 * dramChannel addr
    let n := (s.trimByte at_ + 256 * s.trimByte (at_ + 1) + 1) % 65536
    let s := (s.setTrimBytes at_ [n % 256, n / 256]).spareSeen 4 (15 - used)
    (s.modTrim fun t => { t with
      bankRows := Map.set t.bankRows (Config.spareRowsFused bank).val bank (used + 1)
      rowErrors := t.rowErrors.filter fun r => r.2.1 != Config.dramRow (addr / 256) }, false)

/-- Test the bond lanes of a channel (R510): 8 spares. -/
def State.trimLanes (s : State) (ch : Nat) (faulty : List Nat) : State × Bool :=
  let at_ := 560 + 16 * ch
  let old := (List.range 8).map fun i => s.trimByte (at_ + 2 * i) + 256 * s.trimByte (at_ + 2 * i + 1)
  let (new, lost) := fillSpares 0xFFFF old faulty.eraseDups
  ((s.setTrimBytes at_ (new.flatMap fun l => [l % 256, l / 256])).spareSeen 5 (new.filter (· == 0xFFFF)).length, !lost.isEmpty)

/-! ### Taking and returning units (R517 to R520) -/

/-- The OPEs that the program of a core's tile uses. -/
def State.tileOpes (s : State) (k : CoreIx) : List Nat := match (s.core k).prog with
  | some (_, p) => (List.range (Prog.opes p)).map (s.core k).physical
  | none => []

/-- A core's index. -/
def coreIx (n : Nat) : CoreIx := ⟨n % 32, Nat.mod_lt _ (by decide)⟩
/-- An item's unit leaves service (R200, R217, R227, R517, R519): a tile that it was working on in a load or compute phase is abandoned. -/
def State.trimTake (s : State) (x : TrimItem) : State :=
  match x.kind with
  | 0 =>
    let k := coreIx (x.unit / 8)
    let e := x.unit % 8
    let hit := (s.core k).tile.isSome && (s.core k).phase != .writeout && (s.tileOpes k).contains e
    let s := if hit then s.abandon k 6 0 0 0 (noBlame (32 + e)) else s
    let s := if (s.core k).opes.getLsbD e then s.coreStatus k 8 else s
    s.modCore k fun c => { c with opes := c.opes &&& ~~~(BitVec.ofNat 8 (2 ^ e)), trimBusy := c.trimBusy ||| BitVec.ofNat 8 (2 ^ e) }
  | 1 =>
    let k := coreIx x.unit
    let s := if (s.core k).tile.isSome then s.abandon k 6 0 0 0 (noBlame 0) else s
    let s := if (s.core k).opes != 0 then s.coreStatus k 8 else s
    let s := if s.coreInService k then s.coreStatus k 0x10 else s
    s.modCore k fun c => { c with taken := true, opes := 0, trimBusy := 0xFF, resident := [] }
  | 2 => (List.finRange 4).foldl (fun (u : State) l =>
      let c := portOf ⟨x.unit % 4, Nat.mod_lt _ (by decide)⟩ l
      (u.portDown c).modPort c fun p => { p with locks := 0 }) s
  | 3 => s.linkEnd ⟨x.unit % 2, Nat.mod_lt _ (by decide)⟩ .down none
  | _ => s

/-- The OPEs of a core that running items hold: their own, or all of them while the core is swept (R509). -/
def State.heldOpes (s : State) (k : CoreIx) : BitVec 8 :=
  if s.trim.running.any fun x => x.kind == 1 && x.unit == k.val then 0xFF
  else (List.range 8).foldl (fun (m : BitVec 8) e =>
    if s.trim.running.any fun x => x.kind == 0 && x.unit == 8 * k.val + e then m ||| BitVec.ofNat 8 (2 ^ e) else m) 0
/-- OPEs of a core return to service where their maps allow it and no other item holds them (R191, R518). -/
def State.opesReturn (s : State) (k : CoreIx) (es : List Nat) : State :=
  let back := es.foldl (fun (m : BitVec 8) e => if s.thirdFault (8 * k.val + e) then m else m ||| BitVec.ofNat 8 (2 ^ e)) 0
  let held := s.heldOpes k
  s.modCore k fun c => { c with
    taken := s.trim.running.any fun x => x.kind == 1 && x.unit == k.val
    opes := (c.opes ||| back) &&& ~~~held
    trimBusy := held }

/-- The unit of an item that has ended returns to service with its map (R518). -/
def State.trimReturn (s : State) (x : TrimItem) : State :=
  match x.kind with
  | 0 => s.opesReturn (coreIx (x.unit / 8)) [x.unit % 8]
  | 1 => s.opesReturn (coreIx x.unit) (List.range 8)
  | 3 => s.linkStart ⟨x.unit % 2, Nat.mod_lt _ (by decide)⟩
  | _ => s

/-- Can an item's unit be taken now (R217, R517, R544)? A routine item waits for its core to be idle, a forced take of a core for the end of its write-out. -/
def State.trimReady (s : State) (x : TrimItem) : Bool :=
  !s.warningHolds x && match x.core with
  | none => true
  | some k =>
    let c := s.core (coreIx k)
    if x.forced then x.kind == 0 || c.phase != .writeout else c.tile.isNone && c.job.isNone

/-- Start an item: its unit leaves service now. A forced row repair is counted and recorded as such (R515, R532). -/
def State.trimStart (s : State) (x : TrimItem) : State :=
  if x.kind = 4 && x.forced then s.forceRow x.addr
  else (s.modTrim fun t => { t with
    due := t.due.filter fun y => !y.is x.kind x.unit x.addr, running := t.running ++ [{ x with took := s.dt }] }).trimTake x

/-! ### The commands -/

/-- Finish TRIM_CMD with a RESULT (R533, R534). -/
def State.trimCmdEnd (s : State) (result : Nat) : State := (s.setReg Reg.trimCmdStatus (2 * result)).raiseInt .trim 0x100

/-- Is a TRIM_CMD unit valid for its kind (R509)? -/
def trimUnitOk (kind unit : Nat) : Bool := match kind with
  | 0 | 4 => true
  | 1 => decide (unit < 32)
  | 2 => decide (unit < 4)
  | 3 => decide (unit < 2)
  | 5 => decide (unit < 128)
  | _ => false

/-- The item that a TRIM_CMD names: a row repair acts on the block in DRAMC_ERR_ADDR (R516). -/
def State.trimCmdItem (s : State) (v : Nat) (forced : Bool) : TrimItem :=
  let kind := bits v 2 0
  let addr := (s.reg Reg.dramcErrAddrLo + 2 ^ 32 * s.reg Reg.dramcErrAddrHi) / 256 * 256
  { kind := kind, unit := if kind = 4 then dramChannel addr else bits v 11 4, addr := if kind = 4 then addr else 0, forced := forced, since := s.dt, overdue := false, took := 0 }

/-- TRIM_CMD with GO and without FORCE: the unit becomes due (R512, R534). -/
def execTrimCmdMakeDue (value : W32) (s : State) : Result := s.act fun s =>
  let v := value.toNat
  if !s.dev.state.ready || !bitAt v 16 || bitAt v 17 || bitAt (s.reg Reg.trimCmdStatus) 0 then s
  else
    let x := s.trimCmdItem v false
    if !trimUnitOk x.kind (bits v 11 4) then s.trimCmdEnd 2
    else if !s.odFlag Od.trimTrimEnable then s.trimCmdEnd 4
    else if s.trim.running.any fun y => y.is x.kind x.unit x.addr then s.trimCmdEnd 3
    else (s.trimDue x.kind x.unit x.addr false).trimCmdEnd 0

/-- TRIM_CMD with GO and FORCE: the item starts at once, whatever its window (R516, R517, R534). DEDUCED (log entry 146): while a supply warning is in
force it waits, BUSY, as R544 lets no item but a forced row repair start. -/
def execTrimCmdForce (value : W32) (s : State) : Result := s.act fun s =>
  let v := value.toNat
  if !s.dev.state.ready || !bitAt v 16 || !bitAt v 17 || bitAt (s.reg Reg.trimCmdStatus) 0 then s
  else
    let x := s.trimCmdItem v true
    if !trimUnitOk x.kind (bits v 11 4) then s.trimCmdEnd 2
    else if s.dev.state = .safe then s.trimCmdEnd 1
    else if (s.trim.running.any fun y => y.is x.kind x.unit x.addr) || (x.kind == 4 && s.bankBusy x.addr) then s.trimCmdEnd 3
    else
      let s := if x.kind = 4 then s else s.count64 Reg.trimForced 1
      if s.trimReady x then (s.trimStart x).trimCmdEnd 0
      else (s.modTrim fun t => { t with due := t.due.filter (fun y => !y.is x.kind x.unit x.addr) ++ [x] }).setReg Reg.trimCmdStatus 1

/-- TRIM_ROTATION_DUE: the next OPE of the rotation becomes due (R512). -/
def execTrimRotationDue (s : State) : Result := s.act fun s =>
  if s.od (Od.trimKindPeriod 0) = 0 then s
  else (s.trimDue 0 (s.trim.turn % 256) 0 false).modTrim fun t => { t with turn := (t.turn + 1) % 256 }

/-- D2D_ERROR_THRESHOLD: 16 die-to-die parity errors within 1 s make the engine due (R512). TRIM_D2D_ERR also counts the errors that came too slowly to
reach the threshold before; no command shows them, so their number is a FREE VALUE (log entry 145). -/
def execD2dErrorThreshold (engine : EngineIx) (s : State) : Result := s.act fun s =>
  let (n, s) := s.takeFree
  (s.count32 (Reg.trimD2dErr engine) (16 + n.toNat % 2 ^ 32)).trimDue (if engine.val < 4 then 2 else 3) (if engine.val < 4 then engine.val else engine.val - 4) 0 false

/-- TRIM_ITEM_START: the next item starts, once its unit can be taken (R513, R515, R517). -/
def execTrimItemStart (s : State) : Result := s.act fun s =>
  match s.trimNext with
  | none => s
  | some x =>
    if !s.trimReady x then s
    else
      let s := s.trimStart x
      if x.forced && bitAt (s.reg Reg.trimCmdStatus) 0 then s.trimCmdEnd 0 else s

/-- The result of an item on the map: the state, and whether spares are exhausted. `faulty` names the faulty columns (of a whole core: OPE × 64 +
column), wires or bond lanes. -/
def State.trimApply (s : State) (x : TrimItem) (faulty : List Nat) : State × Bool :=
  match x.kind with
  | 0 => let t := s.trimColumns x.unit faulty
         (t, t.thirdFault x.unit)
  | 1 =>
    let t := (List.range 8).foldl (fun (u : State) e => u.trimColumns (8 * x.unit + e) ((faulty.filter fun f => f / 64 == e).map (· % 64))) s
    -- A third faulty column that the sweep finds puts an OPE out of service (R191, R227).
    let found := (List.range 8).any fun e => t.thirdFault (8 * x.unit + e) && !s.thirdFault (8 * x.unit + e)
    (if found then t.coreStatus (coreIx x.unit) 8 else t, (List.range 8).any fun e => t.thirdFault (8 * x.unit + e))
  | 2 => s.trimWires (x.unit % 4) faulty 2
  | 3 => s.trimWires (4 + x.unit % 2) faulty 3
  | 4 => s.trimRow x.addr
  | _ => s.trimLanes (x.unit % 128) faulty

/-- The out-of-service time and the outcome of an item that has ended are recorded (R532, R533). -/
def State.trimRecord (s : State) (x : TrimItem) (outcome outNs : Nat) : State :=
  ((s.count64 Reg.trimOutNs outNs).setReg Reg.trimLastItem (x.kind + 16 * (x.unit % 256) + 4096 * outcome)).event 8 0x10
    (leBytes 1 x.kind ++ leBytes 1 outcome ++ leBytes 2 x.unit ++ leBytes 4 outNs)
/-- The end of an item that has completed is counted and recorded (R511, R532, R533). -/
def State.trimEnd (s : State) (x : TrimItem) (outcome outNs : Nat) : State :=
  ((s.countOd Od.trimItemsDone 1).raiseInt .trim (1 + 4 * bit (outcome == 2))).trimRecord x outcome outNs

/-- TRIM_ITEM_DONE: the item's unit returns with its new map, which is ledgered where it changed (R510, R511, R518). -/
def execTrimItemDone (kind : Fin 6) (unit : Nat) (faulty : List Nat) (outNs : W32) (s : State) : Result := s.act fun s =>
  match s.trim.running.find? fun x => x.kind == kind.val && x.unit == unit with
  | none => s
  | some x =>
    let old := s.trim.map
    let (t, lost) := s.trimApply x faulty
    let t := t.modTrim fun q => { q with running := q.running.erase x }
    let changed := t.trim.map != old
    let outcome := if lost then 2 else if changed then 1 else 0
    let t := t.trimReturn x
    let t := if changed then t.ledgerAppend { kind := 6, flags := 1, key := Od.trimTrimMap, len := 2864, value := digest t.trimMap,
                                              aux := leBytes 1 x.kind ++ leBytes 1 outcome ++ leBytes 2 x.unit, lsn := t.web.lastLsn } else t
    let t := t.trimEnd x outcome outNs.toNat
    if x.kind = 4 then t.repairNext x.addr else t

/-- An item that was due takes its place again among those that are, in order of becoming due (R513, R520). -/
def insertDue (x : TrimItem) : List TrimItem → List TrimItem
  | [] => [x]
  | y :: r => if x.since < y.since then x :: y :: r else y :: insertDue x r

/-- A running item stops (R520): its unit returns with its previous map and stays due, and no ledger entry is made. A link stays DOWN, as every link is in
SAFE (R410). -/
def State.trimStopped (s : State) (x : TrimItem) : State :=
  let s := s.modTrim fun t => { t with running := t.running.erase x }
  let s := if x.kind = 3 then s else s.trimReturn x
  let s := if s.trim.due.any fun y => y.is x.kind x.unit x.addr then s
    else s.modTrim fun t => { t with due := insertDue { x with forced := false, took := 0 } t.due }
  s.trimRecord x 3 (min (s.dt - x.took) 0xFFFFFFFF)

/-- At entry to SAFE, running items but row and lane repairs stop (R520). -/
def State.trimStop (s : State) : State := (s.trim.running.filter fun x => x.kind < 4).foldl State.trimStopped s

/-- TRIM_OVERDUE: the unit has been due for OVERDUE_LIMIT without its item starting (R514). -/
def execTrimOverdue (kind : Fin 6) (unit : Nat) (s : State) : Result := s.act fun s =>
  match s.trim.due.find? fun x => x.kind == kind.val && x.unit == unit && !x.overdue with
  | none => s
  | some x =>
    let secs := max ((s.dt - x.since) / 1000000000) (s.od (Od.trimKindOverdueLimit kind))
    let s := s.modTrim fun t => { t with due := t.due.map fun y => if y = x then { y with overdue := true } else y }
    ((s.count64 Reg.trimOverdueEvents 1).raiseInt .trim 2).event 8 0x11 (leBytes 1 kind ++ [0] ++ leBytes 2 unit ++ leBytes 4 secs)

/-- The figures that a telemetry sample reports and that nothing else in this model sets: MAC_UTIL of the cores, as their dictionary keys, and
DRAMC_CH_UTIL of the channels, as their register offsets (R224, R366, R529). -/
def telemetryKey (k : Nat) : Bool := (List.range 32).any fun i => k == Od.coreMacUtil i
def telemetryReg (off : Nat) : Bool := (List.range 128).any fun i => off == Reg.dramcChUtil i

/-- TELEMETRY_SAMPLE: the figures of the shadow copies become those that a read returns, in ‰ (R529). -/
def execTelemetrySample (values : List (Nat × Nat)) (s : State) : Result := s.act fun s =>
  values.foldl (fun (u : State) v =>
    if telemetryKey v.1 then u.setOd v.1 (min v.2 1000) else if telemetryReg v.1 then u.setReg v.1 (min v.2 1000) else u) s

end Sys2Proof.Machine
end

