-- ==== Sys2Proof/Machine/OdViews.lean ====
section
/-! DEFINITION. What a read of a dictionary entry returns: the stored value, or a value computed from other state (R56, R95, R101, R128, R224, R404,
R430, R434, R478, R530, R560, R589, R590). -/

namespace Sys2Proof.Machine

/-- A set of numbers below n as a mask. -/
def maskOf (n : Nat) (p : Nat → Bool) : Nat := ((List.range n).map fun i => if p i then 2 ^ i else 0).sum

/-- CORES_IN_SERVICE (0x4000:03). -/
def State.coresInService (s : State) : Nat := maskOf 32 fun k => s.coreInService (coreIx k)

/-- PENDING of a port (0x2000+c:10): FRAME_LINES, FILL_VALUE, CHECK_POLICY, LINE_TIMEOUT, TRIGGER_ENABLE. -/
def State.portPendingBits (s : State) (c : PortIx) : Nat := maskOf 5 fun i => (s.port c).mirage.any fun v => v.key % 256 == 6 + i

/-- PARAM_PENDING of a port (R124). -/
def State.paramPending (s : State) (c : PortIx) : Nat :=
  let f := s.fsPort c
  bit (!f.bank.isEmpty) + 2 * bit f.tablePending + 4 * bit f.bound.isSome

/-- A port's number. -/
def portIx (n : Nat) : PortIx := ⟨n % 16, Nat.mod_lt _ (by decide)⟩
/-- A link's number. -/
def linkIx (n : Nat) : LinkIx := ⟨n % 2, Nat.mod_lt _ (by decide)⟩

/-- The stages of learning as FF_STATE. -/
def FfStage.code : FfStage → Nat
  | .off => 0
  | .learning => 1
  | .computing => 2
  | .ramping => 3

/-- The web, camera and front-slice entries that are computed. DESIGN CHOICE (log entry 131): LANE_PERIOD
is T_lane at all times. -/
def State.viewWeb (s : State) (key : Nat) : Option Nat :=
  let i := key / 256
  let sub := key % 256
  if key = Od.webLsnCurrent then some s.web.lastLsn
  else if key = Od.webEncoderPosition then some (ofSigned 64 s.web.pos)
  else if key = Od.webMinCycle then some s.minCycle
  else if key = Od.webStripeCount then some s.stripes
  else if decide (0x2000 ≤ i) && decide (i < 0x2010) then
    (if sub = 0x0D then some (s.laneCycle (i % 16)) else if sub = 0x10 then some (s.portPendingBits (portIx i)) else none)
  else if decide (0x2200 ≤ i) && decide (i < 0x2210) && sub = 0x14 then some (s.paramPending (portIx i))
  else none

/-- The core and job entries that are computed. -/
def State.viewCores (s : State) (key : Nat) : Option Nat :=
  let i := key / 256
  let sub := key % 256
  if key = Od.coresCoresInService then some s.coresInService
  else if decide (0x4100 ≤ i) && decide (i < 0x4120) then
    let k := coreIx (i - 0x4100)
    let on := s.pwr.cores.getLsbD k
    (match sub with
    | 2 => some (if on then (s.core k).mhz else 0)
    | 3 => some (s.freqCap k)
    | 4 => some (if on then (s.core k).opes.toNat else 0)
    | _ => none)
  else if key = Od.jobSyncInit then some s.cmd.syncInit
  else if key = Od.jobInFlight then some s.cmd.cmds.length
  else none

/-- CHAIN_POSITION: the chain is not known before PREOP (its default); from then on it is derived, and the first entry to ARMED fixes it (R430, R431). -/
def State.positionView (s : State) : Nat := if s.dev.state.ready then s.position else 0xFF

/-- The link entries that are computed. -/
def State.viewLinks (s : State) (key : Nat) : Option Nat :=
  let i := key / 256
  let sub := key % 256
  if key = Od.chainChainPosition then some s.positionView
  else if key = Od.chainChainLength then some (min s.chainLength 255)
  else if key = Od.chainChainStripes then some (s.chainStripes % 65536)
  else if key = Od.chainChainDigest then some s.chainDigest
  else if key = Od.chainChainSettled then some (bit s.chainSettled)
  else if decide (0x1C10 ≤ i) && decide (i < 0x1C12) then
    let x := s.link (linkIx i)
    (match sub with
    | 3 => some x.state.code
    | 4 => some (laneCount x.active)
    | _ => none)
  else none

/-- VDD_MEASURED: the lowest reading of the last 1 ms, or the last reading where none is so new; 0 before the first (R560). -/
def State.vddMeasured (s : State) : Nat :=
  match s.pwr.readings with
  | [] => 0
  | r :: rs => ((rs.filter fun x => decide (s.dt < x.1 + 1000000)).map Prod.snd).foldl min r.2

/-- The device, trimming, power, ledger and Saffron entries that are computed. -/
def State.viewSystem (s : State) (key : Nat) : Option Nat :=
  let i := key / 256
  let sub := key % 256
  if key = Od.idIdent then some identWord
  else if key = Od.idSerial then some Config.serial.toNat
  else if key = Od.idRomVersion then some Config.romVersion.toNat
  else if key = Od.idDtNow then some s.dt
  else if key = Od.devState then some s.dev.state.code
  else if key = Od.crvSchedUsed then some s.doors.schedule.length
  else if key = Od.trimOverdueNow then some (s.trim.due.filter fun x => x.overdue).length
  else if decide (0x6010 ≤ i) && decide (i < 0x6016) then
    (match sub with
    | 5 => some (s.trim.due.filter fun x => x.kind == i - 0x6010).length
    | 6 => some (s.sparesMin (i - 0x6010))
    | _ => none)
  else if decide (0x6100 ≤ i) && decide (i < 0x6110) && sub = 7 then some (s.fsPort (portIx i)).ff.stage.code
  else if key = Od.vddVddTarget then some s.vt
  else if key = Od.vddVddMeasured then some s.vddMeasured
  else if key = Od.vddResetReason then some s.pwr.reason
  else if key = Od.vddResetCount then some s.pwr.resets
  else if key = Od.thermGradeMin then some (if Config.gradeE then ofSigned 16 (-20) else 0)
  else if key = Od.ledgerHeadSeq then some (s.ledger.count - 1)
  else if key = Od.ledgerHeld then some s.ledger.entries.length
  else if key = Od.ledgerUnretired then some s.ledgerUnretired
  else if key = Od.safSecFused then some s.saf.secFused
  else if key = Od.safKeysRevoked then some s.saf.revoked.toNat
  else none

/-- A scalar entry's value as a read returns it. -/
def State.odView (s : State) (key : Nat) : Nat :=
  match s.viewWeb key with
  | some v => v
  | none => match s.viewCores key with
    | some v => v
    | none => match s.viewLinks key with
      | some v => v
      | none => (s.viewSystem key).getD (s.od key)

/-- The characters of a name. -/
def nameBytes (n : String) : List Byte := n.toList.map fun c => BitVec.ofNat 8 c.toNat
/-- VENDOR (R478). -/
def vendorName : List Byte := nameBytes "Kalweing Microsystems"
/-- PRODUCT: the orderable code (R478). -/
def productName : List Byte := nameBytes (if Config.gradeE then "TV-7480-22E" else "TV-7480-22C")

/-- The bytes of an STR or DOMAIN entry as a read returns them. -/
def State.blobView (s : State) (key : Nat) : List Byte :=
  if key = Od.idVendor then vendorName
  else if key = Od.idProduct then productName
  else if key = Od.trimTrimMap then s.trimMap
  else if key = Od.ledgerHeadHash then s.ledger.headHash
  else if key = Od.ledgerGenesisPrev then s.ledger.genesisPrev
  else if key / 256 = 0x8100 then ((s.ledger.entries.map fun e => e.bytes)[key % 256]?).getD []
  else if key = Od.safIdentityCert then Config.identityCert
  else s.blob key

end Sys2Proof.Machine
end

