-- ==== Sys2Proof/Machine/Domains.lean ====
section
/-! DEFINITION. The switched power domains (R538, R539, R554): a domain that powers down loses its state, one that powers up starts from its reset
values. The register block of a core, a front slice or the detection unit is part of its domain (DEDUCED, log entry 125). -/

namespace Sys2Proof.Machine

/-- The registers of a core's block, of a slice's and of the detection unit's take their reset values (R489, R539). -/
def State.coreRegs (s : State) (k : CoreIx) : State := s.blockReset (0x1000000 + k.val * 0x40000) (0x1000000 + (k.val + 1) * 0x40000)
def State.sliceRegs (s : State) (k : SliceIx) : State := s.blockReset (0x200000 + k.val * 0x40000) (0x200000 + (k.val + 1) * 0x40000)
def State.detRegs (s : State) : State := s.blockReset 0x2500000 0x2600000

/-- A core's domain powers down: tile memory, accumulators and regions are lost (R200, R539). -/
def State.coreDown (s : State) (k : CoreIx) : State :=
  let s := s.modCore k fun c => { Core.init with
    taken := c.taken, failed := c.failed, opes := c.opes, trimBusy := c.trimBusy, epoch := c.epoch + 1 }
  let s := s.coreRegs k
  { s with pwr := { s.pwr with cores := s.pwr.cores &&& ~~~(BitVec.ofNat 32 (2 ^ k.val)) } }

/-- OPEs of a core that the trim map leaves in service (R191, R192). -/
def State.goodOpes (s : State) (k : CoreIx) : BitVec 8 := BitVec.ofNat 8 (maskOf 8 fun e => !s.thirdFault (8 * k.val + e))

/-- A core's domain powers up (R539): its clock starts at 800 MHz (DESIGN CHOICE) and glides. -/
def State.coreUp (s : State) (k : CoreIx) : State :=
  let good := s.goodOpes k
  let s := s.modCore k fun c => { Core.init with
    taken := c.taken, failed := c.failed, trimBusy := c.trimBusy, epoch := c.epoch + 1, mhz := 800
    opes := if c.taken then 0 else good &&& ~~~c.trimBusy }
  ({ s with pwr := { s.pwr with cores := s.pwr.cores ||| BitVec.ofNat 32 (2 ^ k.val) } }).coreRegs k |>.parkEffect k

/-- The cores are powered as CORE_MASK says (R538). -/
def State.powerCores (s : State) : State :=
  (List.finRange 32).foldl (fun (u : State) (k : CoreIx) =>
    let want := bitAt (u.od Od.coresCoreMask) k
    let on := u.pwr.cores.getLsbD k
    if want && !on then u.coreUp k else if !want && on then u.coreDown k else u) s

/-- A slice's domain powers down or up: its tables return to BLACK 0 and GAIN 0x4000, and what it holds of lines is lost (R539). -/
def State.sliceLost (s : State) (k : SliceIx) : State :=
  let s := (List.finRange 4).foldl (fun (u : State) (l : Fin 4) => u.modFs (portOf k l) fun p => { p with
    live := [], mirror := [], tablePending := false, copyBusy := false, bank := [], bound := none, store := none, acc := none, ff := FfPort.init }) s
  (s.modSlice k fun _ => Slice.init).sliceRegs k

/-- The slices are powered while one of their ports is enabled (R538). -/
def State.powerSlices (s : State) : State :=
  (List.finRange 4).foldl (fun (u : State) (k : SliceIx) =>
    let want := (List.finRange 4).any fun (l : Fin 4) => u.camEnabled (portOf k l)
    let on := u.pwr.slices.getLsbD k
    if want = on then u
    else
      let u := u.sliceLost k
      { u with pwr := { u.pwr with slices := u.pwr.slices ^^^ BitVec.ofNat 4 (2 ^ k.val) } }) s

/-- An optical engine powers down: its light and its lanes are lost (R539). -/
def State.engineDown (s : State) (e : EngineIx) : State :=
  let s := s.lightFall e
  let s := { s with pwr := { s.pwr with engines := s.pwr.engines &&& ~~~(BitVec.ofNat 6 (2 ^ e.val)) } }
  if e.val < 4 then s
  else
    let l := linkIx (e.val - 4)
    if (s.link l).state = .down then s else s.linkEnd l .down none

/-- The engines are powered as OPT_POWER says (R538). -/
def State.powerEngines (s : State) : State :=
  (List.finRange 6).foldl (fun (u : State) (e : EngineIx) =>
    let want := bitAt (u.od Od.optOptPower) e
    let on := u.pwr.engines.getLsbD e
    if want && !on then { u with pwr := { u.pwr with engines := u.pwr.engines ||| BitVec.ofNat 6 (2 ^ e.val) } }
    else if !want && on then u.engineDown e else u) s

/-- Entry to PREOP powers the domains as their settings say (R538, R554). -/
def State.powerPreop (s : State) : State :=
  let s := (s.powerCores.powerSlices).powerEngines
  if s.pwr.detection then s else { s with pwr := { s.pwr with detection := true }, det := Det.init }.detRegs

/-- A thermal SAFE powers down every core, front slice and the detection unit (R554). -/
def State.powerThermal (s : State) : State :=
  let s := (List.finRange 32).foldl (fun (u : State) (k : CoreIx) => if u.pwr.cores.getLsbD k then u.coreDown k else u) s
  let s := (List.finRange 4).foldl (fun (u : State) (k : SliceIx) => if u.pwr.slices.getLsbD k then u.sliceLost k else u) s
  { s with pwr := { s.pwr with slices := 0, detection := false }, det := Det.init }.detRegs

end Sys2Proof.Machine
end

