-- ==== Sys2Proof/Machine/OdEffects.lean ====
section
/-! DEFINITION. What an accepted write of a dictionary entry does: where it waits and what else it does than store its value, entry by entry (R93,
R94, R122, R123, R126, R165, R218, R221, R297, R315, R324, R409, R430, R440, R454, R462, R465, R538, R585, R590). -/

namespace Sys2Proof.Machine

/-- TIME_STATE changes (R456, R480 type 0x17, R502): the event at most once per 1 s, the CARAVAN bits, and under TIME_SOURCE 2 the GLB bits. -/
def State.setTimeState (s : State) (new : Nat) (offset : Int) (ptm : Bool) : State :=
  let old := s.od Od.crvTimeState
  if old = new then s else
  let s := s.setOd Od.crvTimeState new
  let lock := new == 2
  let s := if lock then s.raiseInt .crv 8 else if old = 2 then s.raiseInt .crv 0x10 else s
  let s := if ptm then (if lock then s.raiseInt .glb 0x20 else if old = 2 then s.raiseInt .glb 0x40 else s) else s
  s.rateLimited (rateKey 6 0x17 0) 1000000000 fun t =>
    t.event 6 0x17 (leBytes 1 old ++ leBytes 1 new ++ [0, 0] ++ leBytes 4 (ofSigned 32 offset))

/-- Generation of an attestation starts, or starts again with a new nonce (R576). -/
def State.startAttestation (s : State) (nonce : List Byte) : State :=
  ({ s with saf := { s.saf with attesting := some nonce } }).setOd Od.safAttestState 1

/-! ### Effects at once -/

/-- TIME_SOURCE changes (R454, R456): the new source has measured nothing yet, so TIME_STATE starts at free-running or acquiring, and at holdover
under Caravan while the watchdog is expired. -/
def State.timeSourceEffect (s : State) (v : Nat) : State :=
  let s := { s with crv := { s.crv with lockRun := 0, steer := .none, ratePpm := 0 }, pcie := { s.pcie with ptmGood := 0, ptmFails := 0, ptmT1 := none } }
  s.setTimeState (if v = 0 then 0 else if v = 1 && s.crv.expired then 3 else 1) (toSigned 32 (s.od Od.crvTimeOffset)) (v == 2)

/-- CONTROLLER_FORGET (R440): no controller is learned, and the watchdog is not armed, so a holdover under Caravan ends (R453, R456). -/
def State.forgetController (s : State) : State :=
  let s := if s.od Od.crvTimeSource = 1 && s.crv.expired then s.setTimeState 1 (toSigned 32 (s.od Od.crvTimeOffset)) false else s
  ({ s with crv := { s.crv with mac := none, armed := false, expired := false, lastCycle := none, prev := none } }).setOd Od.crvControllerMac 0

/-- A camera or front-slice entry changes in PREOP: the tables that it sizes are reset (R126), lanes beyond LANE_COUNT are not in use (R60), and an
enabled port powers its slice, whose tables are then reset (R126, R538). -/
def State.cameraEffect (s : State) (c : PortIx) (key v : Nat) : State :=
  if key = Od.camEnable c then s.powerSlices.resetTables (sliceOf c)
  else if key = Od.portLineWidth c || key = Od.portArrangement c || key = Od.portPhases c then s.resetTables (sliceOf c)
  else if key = Od.portLaneCount c then s.modPort c fun p => { p with locks := p.locks &&& BitVec.ofNat 4 (2 ^ v - 1) }
  else s

/-- LINK_ENABLE is written (R409, R413): the link goes DOWN, or starts where it sees light. -/
def State.linkEnableEffect (s : State) (l : LinkIx) (v : Nat) : State :=
  if v = 0 then
    let s := s.modLink l fun x => { x with excluded := 0, kept := 0 }
    if (s.link l).state = .down then s else s.linkEnd l .down none
  else s.linkStart l

/-- CORE_MASK is written (R182, R538): a core set in it serves again after a failure. -/
def State.coreMaskEffect (s : State) (v : Nat) : State :=
  ((List.finRange 32).foldl (fun (u : State) (k : CoreIx) =>
    if bitAt v k then u.modCore k fun c => { c with failed := false } else u) s).powerCores

/-- A period register's entry is written outside ARMED, RUN and HOLD (R315): the value is stored, and the epoch advances as at a trigger; EPOCH_LSN
keeps its value. -/
def State.periodPreop (s : State) (key : Nat) : State :=
  let p := key / 256 - 0x5010
  let e := (s.od (Od.periodEpoch p) + 1) % 256
  let s := (s.setOd (Od.periodEpoch p) e).raiseStatus .ctx 0x200 3 0 p 0
  if e = 0 then s.ctxClear ((1 : BitVec 8) <<< p) else s

/-- The effect of a scalar write beside its stored value. -/
def State.odEffect (s : State) (key old v : Nat) : State :=
  let i := key / 256
  if decide (0x2000 ≤ i) && decide (i < 0x2010) then (if old = v then s else s.cameraEffect (portIx i) key v)
  else if decide (0x2F10 ≤ i) && decide (i < 0x2F20) then (if old = v then s else s.cameraEffect (portIx i) key v)
  else if decide (0x4100 ≤ i) && decide (i < 0x4120) then (if key % 256 = 5 then s.parkEffect (coreIx (i - 0x4100)) else s)
  else if key = Od.coresCoreMask then s.coreMaskEffect v
  else if key = Od.coresSandFill then (if v = 0 then s.sandStop else s)
  else if key = Od.ctxCtxBase then s.ctxClear 0xFF
  else if isPeriodKey key then (if s.dev.state.live then s else s.periodPreop key)
  else if decide (0x1C10 ≤ i) && decide (i < 0x1C12) then (if key % 256 = 1 then s.linkEnableEffect (linkIx i) v else s)
  else if key = Od.crvControllerForget then (if v = 1 then s.forgetController else s)
  else if key = Od.crvTimeSource then (if old = v then s else s.timeSourceEffect v)
  else if key = Od.optOptPower then s.powerEngines
  else if key = Od.ledgerSpillSlots then (s.setReg Reg.ledgerSpillPi 0).setReg Reg.ledgerSpillCi 0
  else if key = Od.qStatsRingSlots then (s.setReg Reg.cmdStatsPi 0).setReg Reg.cmdStatsCi 0
  else if key = Od.ledgerAckSeq then s.ledgerLevel
  else s

/-- The effect of an STR or DOMAIN write. -/
def State.blobEffect (s : State) (key : Nat) (bs : List Byte) : State :=
  if key = Od.safAttestNonce then s.startAttestation bs else s.setBlob key bs

/-! ### Values that wait -/

/-- Hold a value: an unscheduled one replaces every held value of its entry, a scheduled one those of its LSN (R93, R122). -/
def holdValue (v : MirageVal) (l : List MirageVal) : List MirageVal :=
  (l.filter fun x => !(x.key == v.key && (v.at_.isNone || x.at_ == v.at_))) ++ [v]

/-- Where a write waits in ARMED, RUN and HOLD. -/
inductive WriteWait where
  | none
  /-- The ingress mirage bank (R93), the slice's (R122), and the list of other values held (R165, R297, R315, R527). -/
  | port (c : PortIx)
  | slice (c : PortIx)
  | held
  deriving DecidableEq, Repr

/-- Where the write of an entry waits; `scheduled` says that it comes from the schedule table. -/
def writeWait (key : Nat) (scheduled : Bool) : WriteWait :=
  let i := key / 256
  let sub := key % 256
  if decide (0x2000 ≤ i) && decide (i < 0x2010) && decide (6 ≤ sub) && decide (sub ≤ 10) then .port (portIx i)
  else if decide (0x2200 ≤ i) && decide (i < 0x2210) && sub != 15 then .slice (portIx i)
  else if decide (0x3100 ≤ i) && decide (i < 0x3200) && (sub == 5 || sub == 6) then .held
  else if isPeriodKey key then .held
  else if scheduled && (i == 0x5800 || (decide (0x6100 ≤ i) && decide (i < 0x6110))) then .held
  else .none

/-- Store a value and do what its entry does. A write-only entry stores nothing. -/
def State.odPut (s : State) (key v : Nat) : State :=
  let old := s.od key
  let t := match odFind key with
    | some r => if r.access = OdAccess.wo then s else s.setOd key v
    | none => s
  let u := t.odEffect key old v
  if chainKeys.contains key then s.chainWatch u else u

/-- A scheduled LINE_PITCH takes effect at the trigger carrying its LSN, so that the threshold after that trigger already lies one new pitch
further (R15, R458). -/
def State.pitchAt (s : State) (at_ old v : Nat) : State :=
  if s.web.triggered && s.web.lastLsn == at_ then
    let d : Int := (v : Int) - old
    { s with web := { s.web with next := s.web.next + d }, ctx := { s.ctx with thr := s.ctx.thr + v - old } }
  else s

/-- Make an accepted write effective, or hold it until its entry's point; a scheduled one comes here at its trigger, where its entry has no later point
(R458). The kind 2 entry follows a write that did not take effect when it was
accepted (R465). -/
def State.odStore (s : State) (o : Origin) (key v : Nat) (at_ : Option Nat) : State :=
  let m : MirageVal := ⟨key, v, at_, o⟩
  let w := if s.dev.state.live then writeWait key at_.isSome else .none
  match w with
  | .port c =>
    if at_.isNone && (s.port c).state == .idle && mirageAtFrame m then
      let s := s.modPort c fun p => { p with mirage := p.mirage.filter fun x => x.key != key }
      (s.setOd key v).ledgerEffect m (s.webLsn c (s.nextLineX c))
    else s.modPort c fun p => { p with mirage := holdValue m p.mirage }
  | .slice c => s.modFs c fun p => { p with bank := holdValue m p.bank }
  | .held => { s with doors := { s.doors with deferred := holdValue m s.doors.deferred } }
  | .none =>
    match at_ with
    | none => s.odPut key v
    | some a =>
      let old := s.od key
      let s := s.odPut key v
      (if key = Od.webLinePitch then s.pitchAt a old v else s).ledgerEffect m a

end Sys2Proof.Machine
end

