-- ==== Sys2Proof/Machine/Dictionary.lean ====
section
/-! DEFINITION. The object dictionary's doors: the write of R462, scheduled writes (R457 to R459), segmented values (R451), the BAR4 window
(R475, R476), the mailbox (R477) and DESCRIBE (R468); requests for a transition (R470) and the control owner (R471). -/

namespace Sys2Proof.Machine

/-! ### Transitions and the owner -/

/-- Record a refused transition (R470, R480 type 0x16). -/
def State.refuseTransition (s : State) (requested : Nat) (st : Status) : State :=
  let s := s.setOd Od.devLastRefusal st.code
  let cf := if st = .configInvalid then s.od Od.cntConfigFault else 0
  (s.raiseInt .crv 0x200).event 6 0x16 (leBytes 1 requested ++ leBytes 1 st.code ++ [0, 0] ++ leBytes 4 cf)

/-- Is a transition from one state to another in the table of R470? -/
def transitionAllowed : DevState → DevState → Bool
  | .preop, .armed => true
  | .armed, .run => true
  | .run, .hold => true
  | .hold, .run => true
  | .armed, .preop | .run, .preop | .hold, .preop => true
  | .preop, .safe | .armed, .safe | .run, .safe | .hold, .safe => true
  | .safe, .preop => true
  | _, _ => false

/-- A request for a transition, after its write was accepted (R470): the status, and the state in which the transition is in progress. After an
AUTH in which no slot verified, only the recovery path of R580 is open, so SAFE is left by a reset alone (R572). A cause of SAFE that has arisen is a
transition in progress. -/
def State.requestTransition (s : State) (target : DevState) (door : Door) : Status × State :=
  if s.dev.request.isSome || s.dev.safeCause.isSome then (.busy, s.refuseTransition target.code .busy)
  else if target = s.dev.state then (.ok, s)
  else if transitionAllowed s.dev.state target && !(s.dev.state = .safe && s.saf.image.isNone) then
    (.pending, { s with dev := { s.dev with request := some ⟨target, door⟩ } })
  else (.transition, s.refuseTransition target.code .transition)

/-- Control passes to another owner (R471): event 0x13, OWNER_CHANGE and a kind 9 entry. `by_` is 0 for a handover, 1 for a seize. -/
def State.changeOwner (s : State) (new by_ : Nat) : State :=
  let old := s.od Od.devOwner
  if old = new then s else
  let s := (s.setOd Od.devOwner new).raiseInt .crv 0x40
  let s := s.event 6 0x13 (leBytes 1 old ++ leBytes 1 new ++ leBytes 1 by_)
  s.ledgerAppend { kind := 9, aux := leBytes 1 old ++ leBytes 1 new ++ leBytes 1 by_, lsn := s.web.lastLsn }

/-! ### Writes -/

/-- Count a refused write or request (R457, R462). -/
def State.countRefused (s : State) : State := s.countOd Od.crvRequestsRefused 1

/-- Store and act on an accepted scalar write (R462, R465, R471). The kind 1 entry stands before the effect. -/
def State.odAccept (s : State) (o : Origin) (flags key v : Nat) (door : Door) : Status × State :=
  let s := s.ledgerWrite 1 flags o key (odWidth key / 8) v s.web.lastLsn
  if key = Od.devOwner then (.ok, s.changeOwner v 0)
  else if key = Od.devStateRequest then
    match DevState.ofCode v with
    | some t => s.requestTransition t door
    | none => (.range, s)
  else if key = Od.devOwnerRequest then
    (.ok, if v = 1 then (s.raiseInt .crv 0x80).event 6 0x14 (leBytes 1 (if o = .caravan then 1 else 0)) else s)
  else if key = Od.devOwnerSeize then (.ok, if v = 1 then s.changeOwner 0 1 else s)
  else (.ok, s.odStore o key v none)

/-- A scalar write through a door (R462). -/
def State.odWrite (s : State) (o : Origin) (key len v : Nat) (door : Door) : Status × State :=
  match s.odWriteCheck o key len v with
  | .ok => s.odAccept o 0 key v door
  | e => (e, s.countRefused)

/-- The checks of a write of a scalar: one that names an STR or DOMAIN entry answers TYPE (R460, R462 step 6). -/
def State.odScalarCheck (s : State) (o : Origin) (key len v : Nat) : Status :=
  match s.odWriteCheck o key len v, odFind key with
  | .ok, some r => if r.type.bytes = 0 then .type else .ok
  | e, _ => e

/-- A write of a whole STR or DOMAIN value (R451, R462, R465). -/
def State.odWriteBytes (s : State) (o : Origin) (key : Nat) (bs : List Byte) : Status × State :=
  match s.odWriteCheck o key bs.length 0 with
  | .ok => (.ok, (s.ledgerWriteBytes 1 o key bs s.web.lastLsn).blobEffect key bs)
  | e => (e, s.countRefused)

/-- The status of a request of malformed shape: an index that no such request reaches answers its own status first (R10, R12, R463). -/
def State.malformedStatus (s : State) (key : Nat) : Status :=
  if !s.dev.state.ready then .notReady
  else if decide (0xF000 ≤ key / 256) then .state
  else if odDefined key = .generation then .generation
  else .malformed

/-- Count a write where its status refuses it. -/
def State.countRefusal (s : State) (st : Status) : State := if st = .ok || st = .pending then s else s.countRefused

/-! ### Segments (R451) -/

/-- The maximum length of an STR or DOMAIN value; none for a scalar. -/
def OdType.maxBytes : OdType → Option Nat
  | .str => some 255
  | .domain => some 65536
  | _ => none

/-- One segment of a staged value: its status, the staging after it, and the whole value where LAST submits it. In RUN a segment for the
manufacturing-test range answers STATE (R12, R463). -/
def stageSegment (st : Option Staging) (key offset : Nat) (data : List Byte) (last : Bool) :
    Status × Option Staging × Option (List Byte) :=
  if decide (0xF000 ≤ key / 256) then (.state, st, none) else
  match odDefined key, odFind key with
  | .ok, some r =>
    match r.type.maxBytes with
    | none => (.type, st, none)
    | some m =>
      let cur : Option (List Byte) := if offset = 0 then some [] else match st with
        | some g => if g.key = key && g.bytes.length == offset then some g.bytes else none
        | none => none
      match cur with
      | none => (.malformed, none, none)
      | some bs =>
        if m < bs.length + data.length then (.range, st, none)
        else if last then (.ok, none, some (bs ++ data))
        else (.ok, some ⟨key, bs ++ data⟩, none)
  | e, _ => (if e = .ok then .noEntry else e, st, none)

/-! ### The schedule table (R457 to R459) -/

/-- Has the trigger carrying LSN `at` already occurred (R22, R457)? -/
def State.lsnPassed (s : State) (at_ : Nat) : Bool := precedes (BitVec.ofNat 48 at_) (BitVec.ofInt 48 s.web.x)

/-- The lowest free handle. -/
def freeHandle (t : List Sched) : Option Nat := (List.range 64).find? fun h => !(t.any fun e => e.handle == h)

/-- The checks of a WRITE_AT, in the order of R457. -/
def State.writeAtCheck (s : State) (o : Origin) (key len v : Nat) : Status :=
  if !s.dev.state.ready then .notReady
  else if decide (0xF000 ≤ key / 256) then .state
  else match odDefined key with
    | .ok => if !s.dev.state.live then .state else if !odSchedulable key then .notSchedulable else s.odWriteRules o key len v
    | e => e

/-- A WRITE_AT (R457): status, schedule handle, LATE, and the state. -/
def State.writeAt (s : State) (o : Origin) (key len v at_ : Nat) : Status × Nat × Bool × State :=
  match s.writeAtCheck o key len v with
  | .ok =>
    if s.lsnPassed at_ then
      let (st, t) := s.odAccept o 2 key v .none
      (st, 0, true, t)
    else
      let same := s.doors.schedule.find? fun e => e.key == key && e.at_ == at_
      match (match same with
        | some e => some e.handle
        | none => freeHandle s.doors.schedule) with
      | none => (.tableFull, 0, false, s.countRefused)
      | some h =>
        let rest := s.doors.schedule.filter fun e => e.handle != h
        let s := s.ledgerWrite 1 2 o key (odWidth key / 8) v s.web.lastLsn
        (.ok, h, false, { s with doors := { s.doors with schedule := rest ++ [⟨h, key, at_, v, o⟩] } })
  | e => (e, 0, false, s.countRefused)

/-- CANCEL_AT (R459). An index of another generation answers GENERATION, and in RUN one of the manufacturing-test range STATE (R12, R463). -/
def State.cancelAt (s : State) (key at_ : Nat) : Status × State :=
  if !s.dev.state.ready then (.notReady, s)
  else if decide (0xF000 ≤ key / 256) then (.state, s)
  else if odDefined key = .generation then (.generation, s)
  else if s.doors.schedule.any fun e => e.key == key && e.at_ == at_ then
    (.ok, { s with doors := { s.doors with schedule := s.doors.schedule.filter fun e => !(e.key == key && e.at_ == at_) } })
  else (.notFound, s)

/-- Empty the schedule table, counting its entries; one event, also where it held none (R459, R480 type 0x18). -/
def State.discardSchedule (s : State) : State :=
  let n := s.doors.schedule.length
  let s := { s with doors := { s.doors with schedule := [] } }
  (s.count64 Reg.crvSchedDiscarded n).event 6 0x18 (leBytes 1 n)

/-- Is the moment of a scheduled write reached: the next trigger carries its LSN, or one that did has occurred? Writes of one LSN take effect in
order of acceptance, and those of an earlier LSN first (R458). -/
def State.schedDue (s : State) (e : Sched) : Bool :=
  let reached := fun (x : Sched) => s.lsnPassed x.at_ || x.at_ == mod48 s.web.x
  let before := s.doors.schedule.takeWhile fun x => x.handle != e.handle
  reached e && !(before.any fun x => x.at_ == e.at_) && !(s.doors.schedule.any fun x => precedes (BitVec.ofNat 48 x.at_) (BitVec.ofNat 48 e.at_) && reached x)

/-- The scheduled write of a handle reaches its trigger (R458): it is checked again and applied, or recorded as not applied. One whose chapter gives it a
later point stays in the table until that point takes it. -/
def State.applyScheduled (s : State) (h : Nat) : State :=
  match s.doors.schedule.find? fun e => e.handle == h with
  | none => s
  | some e =>
    if !s.schedDue e || writeWait e.key true != .none then s else
    s.schedLeave e fun t => t.odStore e.origin e.key e.value (some e.at_)

/-- SCHEDULED_WRITE_APPLY: the scheduled write of a handle whose trigger has come (R458). -/
def execScheduledWriteApply (handle : Fin 64) (s : State) : Result := .next (if s.dev.resetHeld then s else s.applyScheduled handle)

/-! ### DESCRIBE (R468) -/

/-- The type code of R461. -/
def OdType.code : OdType → Nat
  | .bool => 1
  | .u8 => 2
  | .u16 => 3
  | .u32 => 4
  | .u64 => 5
  | .i8 => 6
  | .i16 => 7
  | .i32 => 8
  | .i64 => 9
  | .f32 => 0xA
  | .f64 => 0xB
  | .str => 0xC
  | .domain => 0xD

/-- The access code of R468. -/
def OdAccess.code : OdAccess → Nat
  | .ro => 0
  | .rw => 1
  | .wo => 2
  | .rwl => 3

/-- The 8 bytes of DESCRIBE. -/
def describeRow (key : Nat) (r : OdRow) : List Byte :=
  let scalar := r.type.maxBytes.isNone
  leBytes 1 r.type.code ++ leBytes 1 r.access.code ++ leBytes 1 (bit r.host + 2 * bit r.caravan + 4 * bit r.internal) ++
  leBytes 1 (bit scalar + 2 * bit (scalar && key != Od.devStateRequest) + 4 * bit (odSchedulable key) +
    8 * bit (r.access != .ro || r.internal)) ++
  leBytes 4 (r.type.maxBytes.getD r.type.bytes)

/-- DESCRIBE of an entry. -/
def State.describe (s : State) (key : Nat) : Status × List Byte :=
  if !s.dev.state.ready then (.notReady, [])
  else if decide (0xF000 ≤ key / 256) then (.state, [])
  else match odDefined key, odFind key with
    | .ok, some r => (.ok, describeRow key r)
    | e, _ => (if e = .ok then .noEntry else e, [])

/-! ### The BAR4 window (R475, R476) -/

/-- The status of a read of a scalar or of a byte string (R462 steps 1 and 2, R463). -/
def State.odReadCheck (s : State) (key : Nat) : Status :=
  if !s.odReadable key then .notReady
  else if decide (0xF000 ≤ key / 256) then .state
  else odDefined key

/-- A scalar extended to 8 bytes: sign-extended where its type is signed (R475). -/
def State.odView64 (s : State) (key : Nat) : Nat :=
  match odFind key with
  | none => 0
  | some r =>
    if r.access = OdAccess.wo then 0
    else if r.type.signed then ofSigned 64 (toSigned (8 * r.type.bytes) (s.odView key)) else s.odView key % 2 ^ (8 * r.type.bytes)

/-- Record the outcome of a BAR4 write (R476). -/
def State.bar4Status (s : State) (key : Nat) (st : Status) : State :=
  let s := s.setReg Reg.glbOdWStatus (st.code + 2 ^ 8 * (key % 256) + 2 ^ 16 * (key / 256 % 65536))
  if st = .ok || st = .pending then s.setReg Reg.glbOdWCount ((s.reg Reg.glbOdWCount + 1) % 2 ^ 32) else s

/-- A BAR4 write is refused: it is counted as any refused write is (R462, R476). -/
def State.bar4Refuse (s : State) (key : Nat) (st : Status) : State := s.countRefused.bar4Status key st

/-- A low word that waits for its high word is discarded with MALFORMED by any other BAR4 access (R476). -/
def State.bar4Discard (s : State) (except : Option Nat) : State :=
  match s.doors.bar4Low with
  | none => s
  | some (k, _) =>
    if except = some k then s
    else ({ s with doors := { s.doors with bar4Low := none } }).bar4Refuse k .malformed

/-- A scalar write through BAR4 with its status recorded. -/
def State.bar4Scalar (s : State) (key len v : Nat) : State :=
  let (st, t) := s.odWrite .host key len v .bar4
  t.bar4Status key (if st = .pending then .ok else st)

/-- A BAR4 write of `size` bytes at `offset` (R476). An index of another generation answers GENERATION whatever the shape of the access (R10, R12). -/
def State.bar4Write (s : State) (offset size : Nat) (value : W64) : State :=
  let key := offset / 0x800 * 256 + offset % 0x800 / 8
  let highHalf := size == 4 && offset % 8 == 4
  let s := s.bar4Discard (if highHalf then some key else none)
  if size = 1 || size = 2 || offset % size != 0 || !(size == 4 || size == 8) then s.bar4Refuse key (s.malformedStatus key)
  else match odFind key with
    | none =>
      let st := s.odWriteCheck .host key 0 0
      s.bar4Refuse key (if st = .ok then .noEntry else st)
    | some r =>
      let w := r.type.bytes
      if w = 0 then s.bar4Refuse key .type
      else if w = 8 then
        if size = 8 then s.bar4Scalar key 8 value.toNat
        else if highHalf then
          match s.doors.bar4Low with
          | some (_, lo) =>
            let s := { s with doors := { s.doors with bar4Low := none } }
            s.bar4Scalar key 8 (lo.toNat + 2 ^ 32 * (value.toNat % 2 ^ 32))
          | none => s.bar4Refuse key .malformed
        else { s with doors := { s.doors with bar4Low := some (key, value.truncate 32) } }
      else if highHalf then s.bar4Refuse key .malformed
      else
        let v := value.toNat % 2 ^ (8 * size)
        let raw := v % 2 ^ (8 * w)
        let fits := if r.type.signed then ofSigned (8 * size) (toSigned (8 * w) raw) == v else raw == v
        if fits then s.bar4Scalar key w raw
        else
          let st := s.odWriteCheck .host key w raw
          s.bar4Refuse key (if st = .ok || st = .owner then .range else st)

/-- BAR4_WRITE. An access to the manufacturing-test range outside RUN is refused by the model: R463 gives it no defined effect. -/
def execBar4Write (offset size : Nat) (value : W64) (s : State) : Result :=
  if s.dev.resetHeld then .next s
  else if s.manufacturing (offset / 0x800 * 256) then .refused (.manufacturingTest (offset / 0x800)) else .next (s.bar4Write offset size value)

/-- A BAR4 read of `size` bytes (R475). -/
def State.bar4Read (s : State) (offset size : Nat) : State :=
  let key := offset / 0x800 * 256 + offset % 0x800 / 8
  let s := s.bar4Discard none
  let scalar := match odFind key with
    | some r => decide (0 < r.type.bytes)
    | none => false
  let shape := (size == 4 || size == 8) && offset % size == 0
  if s.odReadCheck key = .ok && scalar && shape then
    let v := s.odView64 key
    if size = 8 then s.send (.readData v)
    else if offset % 8 = 0 then
      ({ s with doors := { s.doors with bar4Latch := some (key, BitVec.ofNat 32 (v / 2 ^ 32)) } }).send (.readData (v % 2 ^ 32))
    else match s.doors.bar4Latch with
      | some (k, hi) =>
        if k = key then ({ s with doors := { s.doors with bar4Latch := none } }).send (.readData hi.toNat)
        else s.send (.readData (v / 2 ^ 32))
      | none => s.send (.readData (v / 2 ^ 32))
  else (s.setReg Reg.glbOdRErr 1).send (.readData 0)

/-- BAR4_READ. -/
def execBar4Read (offset size : Nat) (s : State) : Result :=
  if s.dev.resetHeld then .next s
  else if s.manufacturing (offset / 0x800 * 256) then .refused (.manufacturingTest (offset / 0x800)) else .next (s.bar4Read offset size)

/-! ### The mailbox (R477) -/

/-- The entry that GLB_OD_MB_ADDR names. -/
def State.mbKey (s : State) : Nat := bits (s.reg Reg.glbOdMbAddr) 23 8 * 256 + bits (s.reg Reg.glbOdMbAddr) 7 0
/-- The LSN in GLB_OD_MB_AT. -/
def State.mbAt (s : State) : Nat := s.reg Reg.glbOdMbAtLo + 2 ^ 32 * s.reg Reg.glbOdMbAtHi
/-- The first n bytes of GLB_OD_MB_DATA. -/
def State.mbData (s : State) (n : Nat) : List Byte :=
  ((List.range (ceilDiv n 4)).flatMap fun i => leBytes 4 (s.reg (Reg.glbOdMbData i))).take n
/-- Set words of the mailbox data from its start. -/
def State.setMbWords (s : State) (i : Nat) : List Nat → State
  | [] => s
  | w :: ws => (s.setReg (Reg.glbOdMbData i) w).setMbWords (i + 1) ws
/-- The 4-byte words of a byte list, the last padded with zeros. -/
def toWords (n : Nat) (bs : List Byte) : List Nat := (List.range n).map fun i => fieldAt bs (4 * i) 4
/-- Store bytes into GLB_OD_MB_DATA. -/
def State.setMbData (s : State) (bs : List Byte) : State := s.setMbWords 0 (toWords (ceilDiv bs.length 4) bs)

/-- BUSY falls with a status (R477): MB_DONE is raised. -/
def State.mbFinish (s : State) (st : Status) (late : Bool) (handle : Nat) : State :=
  let s := { s with doors := { s.doors with mbBusy := false } }
  (s.setReg Reg.glbOdMbStatus (2 ^ 8 * st.code + 2 ^ 16 * bit late + 2 ^ 24 * handle)).raiseInt .glb 0x10

/-- The bytes of an entry as a mailbox or segmented read sees them. DESIGN CHOICE (log entry 94): the zero of its type that a write-only DOMAIN entry
reads as (R5) is the empty value. -/
def State.odBytes (s : State) (key : Nat) : List Byte :=
  match odFind key with
  | none => []
  | some r =>
    if r.access = OdAccess.wo then List.replicate r.type.bytes 0
    else if r.type.maxBytes.isSome then s.blobView key else leBytes r.type.bytes (s.odView key)

/-- Mailbox READ. -/
def State.mbRead (s : State) : State :=
  let key := s.mbKey
  let off := s.reg Reg.glbOdMbOffset
  match s.odReadCheck key with
  | .ok =>
    let v := s.odBytes key
    let scalar := match odFind key with
      | some r => r.type.maxBytes.isNone
      | none => false
    if scalar && off != 0 then s.mbFinish .malformed false 0
    else
      let part := (v.drop off).take 4096
      (((s.setMbData part).setReg Reg.glbOdMbLen part.length).setReg Reg.glbOdMbTotal v.length).mbFinish .ok false 0
  | e => s.mbFinish e false 0

/-- A malformed write request of the mailbox: more bytes than MB_DATA holds, or a scalar at an offset or without LAST (R477). -/
def State.mbMalformed (s : State) (last : Bool) : Bool :=
  decide (4096 < s.reg Reg.glbOdMbLen) ||
  match odFind s.mbKey with
  | some r => r.type.maxBytes.isNone && (s.reg Reg.glbOdMbOffset != 0 || !last)
  | none => false

/-- Mailbox WRITE: a scalar, or a segment of an STR or DOMAIN value. -/
def State.mbWrite (s : State) (last : Bool) : State :=
  let key := s.mbKey
  let off := s.reg Reg.glbOdMbOffset
  let len := s.reg Reg.glbOdMbLen
  let scalar := match odFind key with
    | some r => r.type.maxBytes.isNone
    | none => true
  if !s.dev.state.ready || s.mbMalformed last then s.countRefused.mbFinish (s.malformedStatus key) false 0
  else if scalar then
    let (st, t) := s.odWrite .host key len (ofLeBytes (s.mbData len)) .mailbox
    if st = .pending then
      ({ t with doors := { t.doors with mbBusy := true } }).setReg Reg.glbOdMbStatus 1
    else t.mbFinish st false 0
  else
    let (st, g, whole) := stageSegment s.doors.mbStaging key off (s.mbData len) last
    let s := { s with doors := { s.doors with mbStaging := g } }
    match whole with
    | some v =>
      let (st', t) := s.odWriteBytes .host key v
      t.mbFinish st' false 0
    | none => (s.countRefusal st).mbFinish st false 0

/-- Mailbox WRITE_AT (R457): as WRITE for a scalar. -/
def State.mbWriteAt (s : State) (last : Bool) : State :=
  let key := s.mbKey
  let len := s.reg Reg.glbOdMbLen
  if s.mbMalformed last then s.countRefused.mbFinish (s.malformedStatus key) false 0
  else
    let (st, h, late, t) := s.writeAt .host key len (ofLeBytes (s.mbData len)) s.mbAt
    t.mbFinish st late h

/-- Mailbox CANCEL_AT (R459). -/
def State.mbCancelAt (s : State) : State :=
  let (st, t) := s.cancelAt s.mbKey s.mbAt
  t.mbFinish st false 0

/-- Mailbox DESCRIBE (R468). -/
def State.mbDescribe (s : State) : State :=
  let (st, bs) := s.describe s.mbKey
  (if st = .ok then s.setMbData bs else s).mbFinish st false 0

/-- A GO of the mailbox: ignored while BUSY; outside RUN an access to the manufacturing-test range has no defined effect (R463, R477). -/
def State.mailboxGo (s : State) (f : State → State) : Result :=
  if s.doors.mbBusy || s.dev.resetHeld then .next s
  else if s.manufacturing s.mbKey then .refused (.manufacturingTest (s.mbKey / 256))
  else .next (f s)

def execMbRead (s : State) : Result := s.mailboxGo State.mbRead
def execMbWrite (last : Bool) (s : State) : Result := s.mailboxGo fun t => t.mbWrite last
def execMbWriteAt (last : Bool) (s : State) : Result := s.mailboxGo fun t => t.mbWriteAt last
def execMbCancelAt (s : State) : Result := s.mailboxGo State.mbCancelAt
def execMbDescribe (s : State) : Result := s.mailboxGo State.mbDescribe

end Sys2Proof.Machine
end

