-- ==== Sys2Proof/Machine/StateHooks.lean ====
section
/-! DEFINITION. What the units do at each change of the device state (R470): the checks of a request to enter ARMED and the entry actions that the
units' chapters give. -/

namespace Sys2Proof.Machine

/-! ### The checks of a request to enter ARMED, each with the entry it names -/

/-- The first number that fails a check, with its entry. -/
def firstFault {α : Type} (l : List α) (bad : α → Bool) (key : α → Nat) : Option Nat := (l.find? bad).map key

/-- The first fault of a list of checks. -/
def firstSome : List (Option Nat) → Option Nat
  | [] => none
  | some k :: _ => some k
  | none :: r => firstSome r

/-- The placed crop window of a camera: first and last web coordinate (R27). -/
def State.cropWindow (s : State) (c : PortIx) : Nat × Nat :=
  let o := s.od (Od.camWebOrigin c)
  (o, o + (s.od (Od.camCropLast c) - s.od (Od.camCropFirst c)))

/-- Do two crop windows share a coordinate; the lowest one shared? -/
def sharedCoord (a b : Nat × Nat) : Option Nat := if max a.1 b.1 ≤ min a.2 b.2 then some (max a.1 b.1) else none

/-- The pairs of ports that overlap: the lowest coordinate covered twice and the higher-numbered port (R30). -/
def State.cropOverlaps (s : State) : List (Nat × PortIx) :=
  s.enabledPorts.flatMap fun a => s.enabledPorts.filterMap fun b =>
    if a.val < b.val then (sharedCoord (s.cropWindow a) (s.cropWindow b)).map fun x => (x, b) else none

/-- The pair whose shared coordinate is lowest; at one coordinate, the two lowest-numbered of its ports. -/
def lowestOverlap : List (Nat × PortIx) → Option (Nat × PortIx)
  | [] => none
  | p :: r => match lowestOverlap r with
    | some q => if q.1 < p.1 || (q.1 == p.1 && decide (q.2.val < p.2.val)) then some q else some p
    | none => some p

/-- R30: the web window and its crop windows. -/
def State.checkWindow (s : State) : Option Nat :=
  let first := s.od Od.webWindowFirst
  let width := s.od Od.webWindowWidth
  let ports := s.enabledPorts
  firstSome [
    if 16777216 < first + width then some Od.webWindowWidth else none,
    firstFault ports (fun c => decide (s.od (Od.camCropLast c) < s.od (Od.camCropFirst c)) || decide (s.od (Od.portLineWidth c) ≤ s.od (Od.camCropLast c)))
      (fun c => Od.camCropLast c),
    firstFault ports (fun c => decide ((s.cropWindow c).1 < first) || decide (first + width ≤ (s.cropWindow c).2)) (fun c => Od.camWebOrigin c),
    (lowestOverlap s.cropOverlaps).map fun p => Od.camWebOrigin p.2,
    if (ports.map fun c => (s.cropWindow c).2 + 1 - (s.cropWindow c).1).sum < width then some Od.webWindowFirst else none ]

/-- R113: channels, and multiples of f_x; a channel count above 32 or CH_STRIDE names CH_STRIDE. -/
def State.checkRegroup (s : State) : Option Nat :=
  let chans := fun (c : PortIx) => s.rowsPerCycle c * s.fx * s.fa
  firstSome [
    if s.enabledPorts.any fun c => decide (32 < chans c) || decide (s.od Od.fsOutChStride < chans c) then some Od.fsOutChStride else none,
    firstFault s.enabledPorts (fun c => s.od (Od.camWebOrigin c) % s.fx != 0) (fun c => Od.camWebOrigin c),
    firstFault s.enabledPorts (fun c => (s.od (Od.camCropLast c) + 1 - s.od (Od.camCropFirst c)) % s.fx != 0) (fun c => Od.camCropLast c),
    if s.od Od.webWindowFirst % s.fx != 0 then some Od.webWindowFirst else none,
    if s.od Od.webWindowWidth % s.fx != 0 then some Od.webWindowWidth else none ]

/-- The bytes of an output line of a port (R114, R115). -/
def State.outLineBytes (s : State) (c : PortIx) : Nat :=
  (s.od (Od.camCropLast c) + 1 - s.od (Od.camCropFirst c)) / s.fx * s.od Od.fsOutChStride * outBytes (s.od Od.fsOutOutFormat)

/-- R115: the ring of a port is sized in whole line groups, and its pitch holds a line. -/
def State.ringShapeBad (s : State) (c : PortIx) : Bool :=
  let per := s.od Od.webLineGroup / s.fa
  let slots := s.fsReg c Reg.fsRingSlots
  let pitch := s.fsReg c Reg.fsRingPitch
  slots % per != 0 || decide (slots < 2 * per) || pitch % 64 != 0 || decide (pitch < s.outLineBytes c)

/-- The entry that names a port for the register checks of R115 and R363. -/
def portKey (c : PortIx) : Nat := Od.portLaneCount c

/-- An area of Oasis or DRAM: address, bytes, and the entry that names it. -/
structure Area where
  base : Nat
  size : Nat
  key : Nat

/-- Do two areas overlap? -/
def Area.meets (a b : Area) : Bool := decide (a.base < b.base + b.size) && decide (b.base < a.base + a.size)

/-- The first area that breaks its bounds or overlaps an earlier one. -/
def areaFault (inside : Area → Bool) : List Area → List Area → Option Nat
  | _, [] => none
  | seen, a :: r => if !inside a || seen.any (fun b => a.meets b) then some a.key else areaFault inside (seen ++ [a]) r

/-- The published-slot area (R359); no port is concerned, so TRACK_BASE names it. -/
def State.pubArea (s : State) : List Area :=
  let pub := s.reg Reg.streamPubBase
  if bitAt pub 0 then [⟨bits pub 25 14 * 16384, s.reg Reg.streamPubCount * 16384, Od.qTrackBase⟩] else []

/-- The Oasis areas of R363, by port. -/
def State.oasisAreas (s : State) : List Area :=
  (s.enabledPorts.flatMap fun c =>
    let slots := s.fsReg c Reg.fsRingSlots
    let land : List Area := if s.extOn c then [⟨s.reg (Reg.extLandBase c), s.reg (Reg.extLandSlots c) * (s.fsReg c Reg.fsRingPitch + 64), portKey c⟩] else []
    [⟨s.fsReg c Reg.fsRingBase, slots * s.fsReg c Reg.fsRingPitch, portKey c⟩, ⟨s.fsReg c Reg.fsTagBase, slots * 16, portKey c⟩] ++ land) ++ s.pubArea

/-- The DRAM areas that ring extensions and the spool must not touch, in use or not (R363). DEDUCED (log entry 39): with STATE_BYTES 0 there is no state
area. -/
def State.fixedDramAreas (s : State) : List Area :=
  [⟨s.od Od.qTrackBase, 2 ^ 24, 0⟩, ⟨s.od Od.ctxCtxBase, 2 ^ 30, 0⟩, ⟨s.od Od.ctxCtxStageBase, 2 ^ 26, 0⟩, ⟨s.od Od.tokTokBase, 2 ^ 24, 0⟩] ++
  (if s.od Od.stateStateBytes = 0 then [] else [⟨s.od Od.stateStateBase, 16 * s.stripes * (64 + s.od Od.stateStateBytes), 0⟩])

/-- R363. -/
def State.checkAreas (s : State) : Option Nat :=
  let exts := (s.enabledPorts.filter s.extOn).map fun (c : PortIx) =>
    (⟨s.reg (Reg.extBaseLo c) + 2 ^ 32 * s.reg (Reg.extBaseHi c), s.reg (Reg.extSlots c) * (s.fsReg c Reg.fsRingPitch + 64), portKey c⟩ : Area)
  let spool : List Area := if s.od Od.webSpoolSize = 0 then [] else
    [⟨s.reg Reg.streamSpoolBaseLo + 2 ^ 32 * s.reg Reg.streamSpoolBaseHi, s.od Od.webSpoolSize * 2 ^ 20, Od.webSpoolSize⟩]
  firstSome [
    areaFault (fun a => s.inOasis a.base a.size) [] s.oasisAreas,
    areaFault (fun a => inDram a.base a.size) s.fixedDramAreas (exts ++ spool) ]

/-- R304: the token table's bounds. -/
def State.checkTokens (s : State) : Option Nat :=
  let total := s.od Od.tokTokPerStripe * s.chainStripes
  if 4096 < total then some Od.tokTokPerStripe else if 2 ^ 20 < total * s.od Od.tokTokBytes then some Od.tokTokBytes else none

/-- R316, R324, R329: the Context Store, a clear that runs, and the areas in use. -/
def State.checkContext (s : State) : Option Nat :=
  let base := s.od Od.ctxCtxBase
  firstSome [
    if 1024 < ceilDiv (s.od Od.webWindowWidth) (max 1 (s.od Od.ctxXbinWidth)) then some Od.ctxXbinWidth else none,
    if base % 2 ^ 30 != 0 || !inDram base (2 ^ 30) then some Od.ctxCtxBase else none,
    if s.ctx.clearing != 0 then some Od.ctxCtxBase else none,
    if s.od Od.stateStateBytes != 0 && !inDram (s.od Od.stateStateBase) (16 * s.stripes * (64 + s.od Od.stateStateBytes)) then some Od.stateStateBase else none,
    if s.od Od.tokTokPerStripe != 0 && !inDram (s.od Od.tokTokBase) (2 ^ 24) then some Od.tokTokBase else none,
    if ((List.range 8).any (fun p => s.odFlag (Od.periodEnable p)) || s.od Od.stateStateBytes != 0 || s.od Od.tokTokPerStripe != 0) &&
        (s.od Od.ctxCtxStageBase % 2 ^ 26 != 0 || !inDram (s.od Od.ctxCtxStageBase) (2 ^ 26)) then some Od.ctxCtxStageBase else none ]

/-- The newest CHAIN body of a link. -/
def State.chainNewest (s : State) (l : LinkIx) : List Byte := ((s.link l).chain.head?).getD []

/-- R431: the chain, where a link is enabled. -/
def State.checkChain (s : State) : Option Nat :=
  let ls := (List.finRange 2).filter fun (l : LinkIx) => s.odFlag (Od.linkLinkEnable l)
  let first := s.od Od.webWindowFirst
  let abut := fun (l : LinkIx) =>
    let b := s.chainNewest l
    if l.val = 0 then fieldAt b 4 4 + fieldAt b 8 4 == first else first + s.od Od.webWindowWidth == fieldAt b 4 4
  let steady := fun (l : LinkIx) => match (s.link l).chain with
    | a :: b :: _ => a == b
    | _ => false
  if ls.isEmpty then none
  else firstSome [
    firstFault ls (fun l => (s.link l).state != .linked) (fun l => Od.linkLinkEnable l),
    if !s.chainSettled || decide (16 < s.chainLength) then
      some (Od.linkLinkEnable (((ls.find? fun l => !steady l).getD (ls.headD 0)).val)) else none,
    if ls.any fun l => !abut l then some Od.webWindowFirst else none,
    if !s.digestOk then some Od.chainChainDigest else none,
    if s.od Od.webLineSource != 0 then some Od.webLineSource else none ]

/-- The rings of a halo channel. -/
def State.haloAreas (s : State) (l : LinkIx) (ch : Fin 4) : List Area :=
  let n := 8 * (64 + s.reg (Reg.hchSlotBytes l ch))
  [⟨s.reg (Reg.hchTxBase l ch), n, Od.linkLinkEnable l⟩, ⟨s.reg (Reg.hchRxBase l ch), n, Od.linkLinkEnable l⟩]

/-- R436: the halo channels that are enabled. -/
def State.checkHalo (s : State) : Option Nat :=
  let cs := allChans.filter fun c => hchEnabled s c.1 c.2
  let shape := fun (c : LinkIx × Fin 4) =>
    let d := hchDeadline s c.1 c.2
    let t := hchTensor s c.1 c.2
    let per := s.od (Od.trkChannels t) * fmtBits (s.od (Od.trkFormat t))
    decide (1 ≤ d) && decide (d ≤ 6) &&
    (!hchTracked s c.1 c.2 || (s.odFlag (Od.trkEnable t) && s.reg (Reg.hchSlotBytes c.1 c.2) * 8 % max 1 per == 0))
  firstSome [
    areaFault (fun a => s.inOasis a.base a.size) s.oasisAreas (cs.flatMap fun c => s.haloAreas c.1 c.2),
    firstFault cs (fun c => !shape c) (fun c => Od.linkLinkEnable c.1) ]

/-- The first entry that fails a check made at a request to enter ARMED, in the order of the rules; none where all pass. The relation of HB_TIMEOUT to
HB_PERIOD (R95) is none of them (log entry 36). -/
def State.armedCheck (s : State) : Option Nat :=
  let ports := s.enabledPorts
  firstSome [
    if s.od Od.webLineSource = 1 && decide (s.od Od.webTimerPeriod < s.minCycle) then some Od.webTimerPeriod else none,
    s.checkWindow,
    if 1024 < s.stripes then some Od.webStripeWidth else none,
    firstFault ports (fun c => s.od (Od.portDiscCode c) != 2) (fun c => Od.portDiscCode c),
    firstFault ports (fun c => s.od (Od.portArrangement c) != 2 && s.od (Od.portPhases c) != 1) (fun c => Od.portPhases c),
    firstFault ports (fun c => decide (262144 < s.lineFifoBytes c)) (fun c => Od.portLineWidth c),
    firstFault (List.finRange 4) (fun k => decide (950 < s.sliceLoad k)) (fun k => Od.fsInlinePort k),
    s.checkRegroup,
    firstFault ports s.ringShapeBad portKey,
    firstFault (List.finRange 4)
      (fun k => decide (131072 < ((((List.finRange 4).map (portOf k)).filter s.camEnabled).map s.tableEntries).sum)) (fun k => Od.fsInlinePort k),
    if (List.range 256).any (fun t => s.odFlag (Od.trkEnable t)) && (s.od Od.qTrackBase % 65536 != 0 || !inDram (s.od Od.qTrackBase) (2 ^ 24)) then
      some Od.qTrackBase else none,
    s.checkTokens,
    s.checkContext,
    s.checkAreas,
    s.checkChain,
    s.checkHalo,
    if s.od Od.dramDramState = 3 then some Od.dramDramState else none ]

/-- What a request to enter ARMED reports before its checks: SLICE_LOAD (R101). -/
def State.armedReport (s : State) : State :=
  (List.finRange 4).foldl (fun (u : State) (k : SliceIx) => u.setOd (Od.fsSliceLoad k) (s.sliceLoad k)) s

/-! ### Entry to ARMED -/

/-- Is the dictionary entry a counter that resets at entry to ARMED (R57, R95, R128, R176, R225, R297, R328, R404, R434, R530)? -/
def odArmedClear (key : Nat) : Bool :=
  let i := key / 256
  let sub := key % 256
  let in_ := fun lo hi => decide (lo ≤ sub) && decide (sub ≤ hi)
  if i = 0x4F01 then in_ 1 6
  else if decide (0x2000 ≤ i) && decide (i < 0x2010) then sub == 0x11
  else if decide (0x2100 ≤ i) && decide (i < 0x2104) then sub == 3
  else if decide (0x2200 ≤ i) && decide (i < 0x2210) then in_ 0x16 0x18
  else if i = 0x3000 then in_ 4 0xE
  else if decide (0x3100 ≤ i) && decide (i < 0x3200) then in_ 9 0xD
  else if decide (0x4100 ≤ i) && decide (i < 0x4120) then in_ 6 7
  else if i = 0x5800 then in_ 7 8
  else if i = 0x5000 then in_ 4 7
  else if i = 0x5100 then sub == 8
  else if i = 0x5200 then in_ 4 5
  else if i = 0x4200 then in_ 5 0xA
  else if i = 0x1C00 then sub == 6
  else if i = 0x6000 then sub == 3 || sub == 6
  else if decide (0x6100 ≤ i) && decide (i < 0x6110) then in_ 8 0xA
  else false

/-- Every camera port. -/
def State.eachPort (s : State) (f : State → PortIx → State) : State := (List.finRange 16).foldl f s

/-- The input-ring condition of R50. -/
def State.ringCheck (s : State) : State :=
  let small := s.enabledPorts.any fun c =>
    decide ((((s.fsReg c Reg.fsRingSlots + s.reg (Reg.extSlots c)) * s.fa : Nat) : Int) <
      ((10 + s.reg (Reg.ringKeep c) % 4 : Nat) : Int) * s.lineGroup + s.alongMax)
  if small then s.undersize 1 else s

/-- The line group that LSN_PRESET lies in. -/
def State.presetGroup (s : State) : Int := (s.od Od.webLsnPreset : Int) / s.lineGroup

/-- A link at entry to ARMED: its halo channels start their order at the first group in which a line can lie (R23, R427), and the BARRIER of the group of
LSN_PRESET is the first awaited (R432). -/
def State.armLink (s : State) (l : LinkIx) : State :=
  let g := ((s.od Od.webLsnPreset : Int) - s.alongMax) / s.lineGroup
  s.modLink l fun x => { x with chans := Vector.replicate 4 { HaloCh.init with next := g }, barrierAt := s.presetGroup - 1, lastEvent := [] }

/-- Tile memory and accumulators become undefined, and a core that errors put out of service returns (R182, R183, R189). -/
def Core.blank (c : Core) : Core := { c with
  failed := false, uncorr := [], tm := [], acc := [], tmPoison := [], tmSingle := [], accPoison := [], resident := [], epoch := c.epoch + 1 }
/-- At entry to ARMED resident regions lose their validity (R200), and the cycle counters become 0 (R226). -/
def Core.armed (c : Core) : Core := { c with resident := [], cycles := 0, loadCycles := 0, computeCycles := 0, writeoutCycles := 0 }
/-- A slice that holds no line. -/
def Slice.empty (z : Slice) : Slice := { z with run := none, waitSince := none }

/-- The units' actions at entry to ARMED (R50, R108, R127, R167, R200, R325, R390, R427, R431). -/
def State.armedUnits (s : State) : State :=
  let s := s.eachPort fun u c => ((u.clearPort c).modPort c fun p => { p with prev := none }).fsArmed c
  let s := { s with slices := s.slices.map Slice.empty }
  let init := ((s.presetGroup - 512) % 2 ^ 32).toNat
  let s := s.modCmd fun u => { u with syncs := [], syncInit := init, tsn := 1, committed := [], haloBits := [], lastEvent := [] }
  let s := s.modCtx fun c => { c with records := [], thr := 0, batches := [], tokens := [], stored := [], lastEvent := [] }
  let s := { s with tensors := [], det := Det.init, cores := s.cores.map Core.armed }
  let s := (s.armLink 0).armLink 1
  let t := s.chainStripes * s.od Od.tokTokPerStripe
  let s := ((s.setOd Od.chainChainPosition s.chainPosition).setOd Od.tokTokTotal t).setOd Od.tokStripeOffset (s.chainSide 0).2
  s.ringCheck

/-! ### Entry to PREOP -/

/-- Every JOB in flight is cancelled with a status (R398), also one that has ended and whose record is not written (R374); the other commands continue.
DESIGN CHOICE (log entry 150): one that was refused keeps the status of its refusal, with which it completed at once (R375). -/
def State.cancelJobs (s : State) (status : Nat) : State :=
  (s.cmd.cmds.filter fun c => c.kind == 0 && (match c.stage with
    | .done st _ => !refusalStatus c st
    | _ => true)).foldl (fun (u : State) c => u.cancelCmd c status) s

/-- The values that wait in a port's mirage banks take effect at each entry to PREOP (R94, R122). -/
def State.pendingPreop (s : State) (c : PortIx) (x : Int) : State := (s.applyMirage c (fun _ => true) x).fsPreop c

/-- A port at the return to PREOP (R48, R80, R87, R91, R92, R94, R122): every line that has not been delivered is replaced by a placeholder, an admitted one
included, what the port has passed on is kept, and pending values take effect. DESIGN CHOICE (log entry 128): such a line is declared absent, and a frame
that is open ends without a record or a count. -/
def State.portPreop (s : State) (c : PortIx) : State :=
  let x := s.nextLineX c
  let s := s.flushHeld c false
  let s := ((s.port c).pend.foldl (fun (u : State) e => u.absent c e) s).closeRun c
  let s := s.modPort c fun p => { p with
    pend := [], owed := 0, row := none, open_ := none, later := [], prev := none, state := if p.linked then .idle else p.state }
  s.pendingPreop c x

/-- Values held for a later point take effect (R465): those of period registers as at a trigger (R315); the chain digest may change (R430). -/
def State.heldPreop (s : State) : State :=
  let vs := s.doors.deferred
  let s := { s with doors := { s.doors with deferred := [] } }
  s.chainWatch <| vs.foldl (fun (u : State) v =>
    (if isPeriodKey v.key then u.periodEffect v.key v.value u.web.lastLsn else u.setOd v.key v.value).ledgerEffect v u.web.lastLsn) s

/-- The units' actions at entry to PREOP, made before the state changes. Flat-field ramps end when the device leaves RUN (R525). Pending values take
effect at every entry, from SAFE too. -/
def State.preopUnits (s : State) : State :=
  let s := if s.dev.state.live then
      (s.cancelJobs 9).eachPort fun u c => (u.portPreop c).ffStop c 4
    else s.eachPort fun u c => u.pendingPreop c (u.nextLineX c)
  let s := s.heldPreop
  let s := s.eachPort fun u c => u.modPort c fun p => { p with recorded := none }
  s.powerPreop

/-- The units' actions once PREOP holds: the cameras of locked ports are discovered, those that were linked anew (R63), links train (R410), and after a reset the first sweep is due (R512). -/
def State.preopAfter (s : State) : State :=
  let s := s.eachPort fun u c =>
    if (u.port c).locks.getLsbD 0 && (u.port c).state != .discovery then u.discStart c else u
  let s := (s.linkStart 0).linkStart 1
  if s.trim.swept then s
  else
    let s := s.modTrim fun t => { t with swept := true }
    let s := (List.range 32).foldl (fun (u : State) k => u.trimDue 1 k 0 false) s
    let s := (List.range 4).foldl (fun (u : State) k => u.trimDue 2 k 0 false) s
    (List.range 2).foldl (fun (u : State) k => u.trimDue 3 k 0 false) s

/-! ### Entry to SAFE and HOLD -/

/-- Commands in flight end with no completion record, and their tags are freed (R398, R504). -/
def State.dropCommands (s : State) : State :=
  let s := s.cancelJobs 9
  s.modCmd fun u => { u with cmds := [], streams := u.streams.filter fun x => x.ended, stops := [] }

/-- A queue stops at entry to SAFE (R398). -/
def State.queueSafe (s : State) (q : Nat) : State :=
  if s.reg (Reg.cqSlots q) = 0 then s.setReg (Reg.cqStatus q) 14 else s.stopQueue q 3

/-- The units' actions at entry to SAFE (R48, R127, R325, R398, R410, R520, R525, R554). -/
def State.safeUnits (s : State) : State :=
  let s := s.dropCommands
  let s := (List.range 64).foldl (fun (u : State) q => u.queueSafe q) s
  let s := s.modCtx fun c => { c with batches := [] }
  let s := s.eachPort fun u c => ((u.clearPort c).modFs c fun p => { p with mpLevel := 0, shed := false }).ffStop c 4
  let s := (List.finRange 2).foldl (fun (u : State) (l : LinkIx) => if (u.link l).state = .down then u else u.linkEnd l .down none) s
  let s := s.trimStop
  if s.od Od.devSafeReason = 4 then s.powerThermal else s

/-- The units' actions at entry to HOLD: the group that is only partly received closes as a short group (R38), and ramps end (R525). DESIGN CHOICE
(log entry 96): a group that a HOLD has already closed short is not closed again by a second HOLD; R38 names two parts only. DESIGN CHOICE (log
entry 129): the group closes short also while an enabled camera has delivered no line yet. -/
def State.holdUnits (s : State) : State :=
  let e := s.web.x - 1 - s.alongMax
  let g := e / s.lineGroup
  let processed := match s.firstGroup with
    | some f => decide (f ≤ g)
    | none => true
  let partial_ := s.web.triggered && (e + 1) % s.lineGroup != 0 && processed && !s.shortGroup g
  let s := if partial_ then { s with web := { s.web with shortParts := s.web.shortParts ++ [(g, e)] } } else s
  s.eachPort fun u c => u.ffStop c 4

/-! ### Resets -/

/-- Every ring of the device. -/
def allRings : List AnyRing :=
  (List.finRange 64).flatMap (fun i => [AnyRing.command i, .device (.completion i), .device (.result i)]) ++ [.device .event]

/-- Steps 1 to 3 of a Function Level Reset (R504): commands are cancelled and their tags freed, rings are disabled. -/
def State.flrUnits (s : State) : State :=
  let s := s.dropCommands
  let s := allRings.foldl (fun (u : State) r => u.ringSize r 0) s
  -- Tile memories and accumulators are undefined after any reset (R183, R189).
  let s := { s with cores := s.cores.map Core.blank }
  ((s.setOd Od.qStatsRingSlots 0).setReg Reg.cmdStatsPi 0).setReg Reg.cmdStatsCi 0

/-- The state of the units after a conventional reset, given the state before it: tile memories are undefined anew (R183, R555). -/
def State.resetUnits (old new : State) : State :=
  { new with cores := Vector.ofFn fun k => { Core.init with epoch := old.cores[k].epoch + 1 } }

end Sys2Proof.Machine
end

