-- ==== Sys2Proof/Machine/DevStates.lean ====
section
/-! DEFINITION. The device states: transitions with their records (R469, R470, R474), the entry to ARMED (R19, R57), HOLD and the return from it
(R38, R473). -/

namespace Sys2Proof.Machine

/-- Answer the transition in progress through its door (R447, R470, R477). -/
def State.finishRequest (s : State) (st : Status) : State :=
  match s.dev.request with
  | none => s
  | some r =>
    let s := { s with dev := { s.dev with request := none } }
    match r.door with
    | .mailbox => s.mbFinish st false 0
    | .ticket t =>
      { s with crv := { s.crv with tickets := s.crv.tickets.map fun k =>
          if k.number = t then { k with answer := some (leBytes 1 st.code), age := 0 } else k } }
    | _ => s

/-- The device enters a state: STATE_DT, STATE_LSN, the interrupt bits, event 0x15 and the kind 8 entry (R470, R480, R582). -/
def State.enter (s : State) (new : DevState) (reason : Nat) : State :=
  let old := s.dev.state
  let s := { s with dev := { s.dev with state := new } }
  let s := (s.setOd Od.devStateDt s.dt).setOd Od.devStateLsn s.web.lastLsn
  let s := (s.raiseInt .glb 1).raiseInt .crv 0x100
  let body := leBytes 1 old.code ++ leBytes 1 new.code ++ leBytes 2 reason
  let s := s.event 6 0x15 body
  s.ledgerAppend { kind := 8, aux := body, lsn := s.web.lastLsn }

/-- Remove the registers whose counters reset at a moment. -/
def State.clearRegs (s : State) (c : RegClear) : State :=
  { s with regs := s.regs.filter fun p => match regFind p.1 with
      | some r => r.clear != c
      | none => true }

/-- The entry to ARMED in the web model (R19, R23): LSN_PRESET is loaded and the thresholds start at the present position. -/
def State.armWeb (s : State) : State :=
  let pitch := s.od Od.webLinePitch
  { s with web := { s.web with
      x := s.od Od.webLsnPreset
      triggered := false
      high := s.web.pos
      next := s.web.pos * 65536 + pitch
      timerStart := s.dt
      lastTrigger := Vector.replicate 16 none
      completeGroup := none
      completeDt := none
      runGroup := false
      firstSeen := Vector.replicate 16 none
      shortParts := [] } }

/-- ARMED_ENTRY: a request to enter ARMED is checked; the device enters ARMED, or refuses with CONFIG_INVALID and names the entry (R470). -/
def execArmedEntry (s : State) : Result := s.act fun s =>
  match s.dev.request with
  | some ⟨.armed, _⟩ =>
    let s := s.armedReport
    match s.armedCheck with
    | some key => ((s.setOd Od.cntConfigFault key).refuseTransition DevState.armed.code .configInvalid).finishRequest .configInvalid
    | none =>
      let s := { s.clearRegs .armed with dict := s.dict.filter fun p => !odArmedClear p.1 }
      let s := s.discardSchedule
      (s.armWeb.armedUnits.enter .armed 0).finishRequest .ok
  | _ => s

/-- RUN_ENTRY: the device enters RUN from ARMED (R470). -/
def execRunEntry (s : State) : Result := s.act fun s =>
  match s.dev.request, s.dev.state with
  | some ⟨.run, _⟩, .armed => (s.enter .run 0).finishRequest .ok
  | _, _ => s

/-- HOLD_ENTRY: triggers stop and groups that are partly received close as short groups (R38, R470, R473). -/
def execHoldEntry (s : State) : Result := s.act fun s =>
  match s.dev.request, s.dev.state with
  | some ⟨.hold, _⟩, .run => (s.holdUnits.enter .hold 0).finishRequest .ok
  | _, _ => s

/-- HOLD_EXIT: the return to RUN sets next = (high << 16) + LINE_PITCH and restarts the line timer; the LSN continues (R473). -/
def execHoldExit (s : State) : Result := s.act fun s =>
  match s.dev.request, s.dev.state with
  | some ⟨.run, _⟩, .hold =>
    let s := { s with web := { s.web with
      next := s.web.high * 65536 + (s.od Od.webLinePitch : Int)
      timerStart := s.dt } }
    (s.enter .run 0).finishRequest .ok
  | _, _ => s

/-- The device enters PREOP: jobs end, pending values take effect, the schedule table is emptied (R398, R459, R470). -/
def State.toPreop (s : State) : State := (s.preopUnits.discardSchedule.enter .preop 0).preopAfter

/-- PREOP_ENTRY: the entry to PREOP that was requested. -/
def execPreopEntry (s : State) : Result := s.act fun s =>
  match s.dev.request with
  | some ⟨.preop, _⟩ => s.toPreop.finishRequest .ok
  | _ => s

/-- A transition in progress is overtaken by one that the device makes itself: it is refused with STATE, unless it asked for the same state (R470). -/
def State.overtake (s : State) (goal : DevState) : State := match s.dev.request with
  | some r => if r.target = goal then s else (s.refuseTransition r.target.code .state).finishRequest .state
  | none => s

/-- The device enters SAFE with a reason (R474). -/
def State.toSafe (s : State) (reason : Nat) : State :=
  let s := (s.overtake .safe).setOd Od.devSafeReason reason
  let s := s.safeUnits.discardSchedule
  (({ s with dev := { s.dev with safeCause := none } }).enter .safe reason).finishRequest .ok

/-- SAFE_ENTRY: on the owner's request, on a cause of R474 that has arisen, or on an internal error. -/
def execSafeEntry (internalError : Bool) (s : State) : Result := s.act fun s =>
  if !s.dev.state.ready || s.dev.state = .safe then s
  else match s.dev.safeCause, s.dev.request with
    | some c, _ => s.toSafe c
    | none, some ⟨.safe, _⟩ => s.toSafe 1
    | none, _ => if internalError then s.toSafe 7 else s

/-- A cause of R474 arises: the entry to SAFE is pending. The first cause stands. -/
def State.causeSafe (s : State) (reason : Nat) : State :=
  if s.dev.state.ready && s.dev.state != .safe && s.dev.safeCause.isNone then
    { s with dev := { s.dev with safeCause := some reason } }
  else s

end Sys2Proof.Machine
end

