-- ==== Sys2Proof/Machine/Reset.lean ====
section
/-! DEFINITION. Resets and start-up (R487, R503 to R505, R538, R541, R555 to R559). -/

namespace Sys2Proof.Machine

/-- Flash address of a slot (R564). -/
def slotBase (slot : Nat) : Nat := (slot + 1) * 0x1000000

/-- Write the flash. -/
def State.writeFlash (s : State) (a : Nat) (bs : List Byte) : State := { s with saf := { s.saf with flash := s.saf.flash.write a bs } }

/-- Does a dictionary counter or value keep its content over a conventional reset: it counts since power-up, or is the seat (R441, R478,
R559, R560)? -/
def odPowerKept (key : Nat) : Bool :=
  key == Od.crvSeat || key == Od.crvRequestsRefused || key == Od.crvLostCycles || key == Od.vddWarnCount || key == Od.vddWarnLongest ||
  key == Od.plPowerPeak || key == Od.plEnergy || key == Od.thermTPeak

/-- The flash after a reset: a PROGRAM that it cuts off leaves a partial image, which fails verification (R579). DESIGN CHOICE (log entry 152): its first
four bytes are erased, and what the rest of the slot holds is undefined. -/
def State.cutProgram (s : State) : State := match s.saf.op with
  | some o =>
    if o.flashing then
      { s with saf := { s.saf with flash := s.saf.flash.forget (slotBase o.slot) (slotBase o.slot + 0x1000000) } }.writeFlash (slotBase o.slot)
        [0xFF, 0xFF, 0xFF, 0xFF]
    else s
  | none => s

/-- A conventional reset takes effect, its cause lasting (R555, R557, R559). -/
def State.conventionalReset (s : State) (reason rail : Nat) : State :=
  let s := s.cutProgram
  let new : State := { State.reset with
    dev := { State.resetDev with resetHeld := true, powerGood := s.dev.powerGood }
    regs := s.regs.filter fun p => match regFind p.1 with
      | some r => r.clear == .power
      | none => false
    dict := s.dict.filter fun p => odPowerKept p.1
    crv := { State.resetCrv with port0Up := s.crv.port0Up, port1Up := s.crv.port1Up, forwarding := s.crv.forwarding }
    saf := { State.resetSaf with flash := s.saf.flash, secFused := s.saf.secFused, revoked := s.saf.revoked }
    pwr := { State.resetPwr with
      energyUj := s.pwr.energyUj, reason := reason, prevReason := s.pwr.reason, rail := if reason = 4 then rail else s.pwr.rail, resets := satAdd 32 s.pwr.resets 1 }
    hostMem := s.hostMem, out := s.out, memEpoch := s.memEpoch + 1, freeCtr := s.freeCtr, pending := s.pending }
  s.resetUnits new

/-- A reset condition: it resets the device. While the device is held in reset by another cause, the lower code is recorded (R556). -/
def State.resetBy (s : State) (reason rail : Nat) : State :=
  if !s.dev.resetHeld then s.conventionalReset reason rail
  else if s.dev.powerGood && decide (reason < s.pwr.reason) then
    { s with pwr := { s.pwr with reason := reason, rail := if reason = 4 then rail else s.pwr.rail } }
  else s

/-- The device resets, or records a further cause. -/
def State.resetCause (s : State) (reason rail : Nat) : Result := .next (s.resetBy reason rail)

/-- POWER_ON_RESET: PWR_GOOD rises after it was low; everything resets with reason 0x01 (R555). Flash and fuses are not the device's
volatile state. -/
def execPowerOnReset (s : State) : Result :=
  if s.dev.powerGood then .next s
  else
    let s := s.cutProgram
    let new : State := { State.reset with
      dev := { State.resetDev with resetHeld := true }
      saf := { State.resetSaf with flash := s.saf.flash, secFused := s.saf.secFused, revoked := s.saf.revoked }
      hostMem := s.hostMem, out := s.out, memEpoch := s.memEpoch + 1, freeCtr := s.freeCtr, pending := s.pending }
    .next (s.resetUnits new)

/-- PWR_GOOD_FALL: the whole device is held in reset, the always-on domain included (R541). -/
def execPwrGoodFall (s : State) : Result :=
  let s := s.cutProgram
  let new : State := { State.reset with
    dev := { State.resetDev with resetHeld := true, powerGood := false }
    saf := { State.resetSaf with flash := s.saf.flash, secFused := s.saf.secFused, revoked := s.saf.revoked }
    hostMem := s.hostMem, out := s.out, memEpoch := s.memEpoch + 1, freeCtr := s.freeCtr, pending := s.pending }
  .next (s.resetUnits new)

/-- PERST_ASSERT: a conventional reset with reason 0x02 (R555, R556). -/
def execPerstAssert (s : State) : Result := s.resetCause 2 0

/-- SYS_REFCLK_LOSS: a conventional reset with reason 0x07 (R556). -/
def execSysRefclkLoss (s : State) : Result := s.resetCause 7 0

/-- RESET_END: T0 of R558. BOOT runs; the PCIe domain and the optical engines of OPT_POWER are powered and DRAM training starts. It is held
off while PWR_GOOD is low or a thermal trip holds the reset (R541, R553). -/
def execResetEnd (s : State) : Result :=
  if !s.dev.powerGood || s.pwr.therm.tripHeld || s.dev.state != .boot || s.pwr.pcie then .next s
  else
    let s := { s with
      dev := { s.dev with resetHeld := false }
      pwr := { s.pwr with pcie := true, engines := BitVec.ofNat 6 (s.od Od.optOptPower) } }
    .next (s.setOd Od.dramDramState 1)

/-- The turnaround node: forwarding has begun, and CARAVAN1's link is down (R439). -/
def State.turnaround (s : State) : Bool := s.crv.forwarding && !s.crv.port1Up

/-- TURNAROUND of CRV_STATUS has changed: at most one status event per 1 s (R481, R482). -/
def State.turnaroundChanged (s : State) : State :=
  (s.raiseInt .crv 4).rateLimited (rateKey 6 1 2) 1000000000 fun t => t.statusEvent 6 0 0xFF 4 0

/-- CARAVAN_FORWARDING_BEGIN: forwarding and the hardwired responders start (R479, R558 step 1). A node whose CARAVAN1 link is down becomes the turnaround
node, so that TURNAROUND changes (R481). -/
def execCaravanForwardingBegin (s : State) : Result :=
  .next (if !s.dev.powerGood || s.crv.forwarding then s
  else
    let s := { s with crv := { s.crv with forwarding := true } }
    if s.turnaround then s.turnaroundChanged else s)

/-- The first entry to PREOP or SAFE after a reset writes the AUTH event and the reset event (R557, R562 type 0x14, R572, R591 type 0x10). -/
def State.firstEntry (s : State) : State :=
  if s.dev.firstEntryDone then s
  else
    let (c0, c1, c2) := s.saf.codes
    let slot := match s.saf.image with
      | some i => i.slot
      | none => 0xFF
    let s := { s with dev := { s.dev with firstEntryDone := true } }
    let s := s.event 9 0x10 (leBytes 1 slot ++ leBytes 1 c0 ++ leBytes 1 c1 ++ leBytes 1 c2 ++ leBytes 4 (s.od Od.idFwVersion))
    s.event 7 0x14 (leBytes 1 s.pwr.reason ++ leBytes 1 s.pwr.prevReason ++ leBytes 1 s.pwr.rail ++ [0] ++ leBytes 4 s.pwr.resets)

/-- The transition out of AUTH, or out of BOOT where a failed self-test skips AUTH (R470, R558 step 8, R559, R571, R572): PREOP when an image verified and DRAM
is done, SAFE when none verified or DRAM failed; the device waits in AUTH while DRAM trains. -/
def State.leaveAuth (s : State) : State :=
  if s.dev.state.ready || !s.dev.authEnded then s
  else if s.saf.image.isNone then ((s.setOd Od.devSafeReason 6).safeUnits.discardSchedule.enter .safe 6).firstEntry
  else match s.od Od.dramDramState with
    | 2 => (s.preopUnits.discardSchedule.enter .preop 0).firstEntry.preopAfter
    | 3 => ((s.setOd Od.devSafeReason 5).safeUnits.discardSchedule.enter .safe 5).firstEntry
    | _ => s

/-- DRAM_INIT_DONE: initialisation and training finish, done or failed (R558 step 7). -/
def execDramInitDone (ok : Bool) (s : State) : Result := s.act fun s =>
  if s.od Od.dramDramState != 1 then s
  else
    let s := s.setOd Od.dramDramState (if ok then 2 else 3)
    if s.dev.state = .auth then s.leaveAuth else s

/-- BOOT_WATCHDOG_EXPIRY: BOOT and AUTH not ended 2 s after the reset: a reset with reason 0x09, or SAFE with reason 0x0006 where the reset
before was already such a one (R556). -/
def execBootWatchdogExpiry (s : State) : Result := s.act fun s =>
  if s.dev.state.ready then s
  else if s.pwr.reason = 9 then ((s.setOd Od.devSafeReason 6).safeUnits.discardSchedule.enter .safe 6).firstEntry
  else s.conventionalReset 9 0

/-- PTM Enable is cleared: with TIME_SOURCE 2 TIME_STATE goes into holdover (R502). -/
def State.ptmOff (s : State) : State :=
  let on := s.pcie.ptmEnable
  let s := { s with pcie := { s.pcie with ptmEnable := false, ptmT1 := none } }
  if on && s.od Od.crvTimeSource == 2 then
    ({ s with pcie := { s.pcie with ptmGood := 0 } }).setTimeState 3 (toSigned 32 (s.od Od.crvTimeOffset)) true
  else s

/-- A Function Level Reset (R504), also the effect of a Hot Reset (R503). -/
def State.functionLevelReset (s : State) : State :=
  let s := s.flrUnits.ptmOff
  let s := { s with doors := { s.doors with schedule := s.doors.schedule.filter fun e => e.origin != Origin.host } }
  let s := { s with
    regs := s.regs.filter fun p => decide (p.1 < 0x8000) || decide (0xA000 ≤ p.1)
    pcie := { s.pcie with
      busMaster := false, d3hot := false, msixEnable := false, msixFunctionMask := false, msixPending := [], heldOff := [], cfg := [] } }
  let s := s.clearRegs .flr
  let s := if s.dev.state.live then (s.overtake .preop).toPreop.finishRequest .ok else s
  s.setReg Reg.glbResetStatus 1

/-- FUNCTION_LEVEL_RESET: a configuration write, without effect while the device answers with Retry Status (R487). -/
def execFunctionLevelReset (s : State) : Result := s.act fun s => if s.dev.state.ready then s.functionLevelReset else s

/-- HOT_RESET: the effect of a Function Level Reset, followed by link retraining (R503). -/
def execHotReset (s : State) : Result := s.act fun s =>
  let s := s.functionLevelReset
  { s with pcie := { s.pcie with linkUp := false, speed := 0, width := 0 } }

/-- GLB_RESET_WRITE: ACTION 0x02 with KEY 0xA5 performs a conventional reset with reason 0x06; any other is ignored (R503). -/
def execGlbResetWrite (value : W32) (s : State) : Result := s.act fun s =>
  if value.toNat % 65536 = 0xA502 then s.conventionalReset 6 0 else s

/-! ### Configuration space (R484 to R488) -/

/-- Send every message whose pending bit is set and that is no longer held back (R496, R500). -/
def State.flushMsix (s : State) : State := s.pcie.msixPending.foldl (fun t v => t.msixSend v) s

/-- Bus Master Enable changes; pending messages go out when the device may master the bus again (R500). -/
def State.setBusMaster (s : State) (on : Bool) : State :=
  let s := { s with pcie := { s.pcie with busMaster := on } }
  if on then s.flushMsix else s

/-- MSI-X Enable and Function Mask change (R496). -/
def State.setMsixControl (s : State) (enable functionMask : Bool) : State :=
  let s := { s with pcie := { s.pcie with msixEnable := enable, msixFunctionMask := functionMask } }
  if enable && !functionMask then s.flushMsix else s

/-- The bits of a 4-byte configuration register that a write sets and a read returns: address bits of the BARs (R488), the Command register beside
Bus Master Enable, Device Control and Device Control 2 (Max_Payload_Size, Max_Read_Request_Size, tags and Completion Timeout, R485, R499), the ASPM
control. Places, and the default of Device Control, are those of the PCI Express Base Specification (PRESUMED, log entry 123). -/
def cfgMask (r : Nat) : Nat :=
  if r = 0x04 then 0x542
  else if r = 0x0C || r = 0x3C then 0xFF
  else if r = 0x10 || r = 0x18 then 0xFC000000
  else if r = 0x20 then 0xF8000000
  else if r = 0x14 || r = 0x1C || r = 0x24 then 0xFFFFFFFF
  else if r = Config.pcieCap + 8 then 0x7FFF
  else if r = Config.pcieCap + 0x10 then 3
  else if r = Config.pcieCap + 0x28 then 0x101F
  else 0
/-- What those bits are after a conventional reset and a Function Level Reset. -/
def cfgReset (r : Nat) : Nat := if r = Config.pcieCap + 8 && cfgMask r == 0x7FFF then 0x2810 else 0
/-- The written bits of a configuration register. -/
def State.cfg (s : State) (r : Nat) : Nat := s.pcie.cfg.get (cfgReset r) r
def State.setCfg (s : State) (r v : Nat) : State :=
  { s with pcie := { s.pcie with cfg := s.pcie.cfg.set (cfgReset r) r (Nat.land v (cfgMask r)) } }

/-- The other bits of a 4-byte configuration register that the spec gives, and their value (R484 to R486, R488). The place of each register is that of the
PCI Express Base Specification, which the spec names (PRESUMED, log entry 123): Vendor and Device ID at 0x00, Command at 0x04, Revision ID and Class Code at
0x08, Header Type in 0x0C, the BARs at 0x10 to 0x24, the Subsystem IDs at 0x2C, the expansion ROM base at 0x30, Interrupt Pin in 0x3C; in the PCI Express
capability the Device Capabilities at 4, Link Capabilities at 0xC, Link Control and Status at 0x10 and Device Capabilities 2 at 0x24. A 64-bit BAR
has type bits 0b100 and its size's low bits read 0. -/
def State.configKnown (s : State) (r : Nat) : Nat × Nat :=
  let all := 2 ^ 32 - 1
  if r = 0x00 then (all, 0x1F3C + 2 ^ 16 * 0x7480)
  else if r = 0x04 then (4, 4 * bit s.pcie.busMaster)
  else if r = 0x08 then (all, bits identWord 7 0 + 2 ^ 8 * 0x120000)
  else if r = 0x0C then (2 ^ 16 * 0xFF, 0)
  else if r = 0x10 || r = 0x18 then (2 ^ 26 - 1, 4)
  else if r = 0x20 then (2 ^ 27 - 1, 4)
  else if r = 0x2C then (all, 0x1F3C + 2 ^ 16 * (if Config.gradeE then 2 else 1))
  else if r = 0x30 then (all, 0)
  else if r = 0x3C then (2 ^ 8 * 0xFF, 0)
  else if r = Config.serialCap + 4 then (all, Config.serial.toNat % 2 ^ 32)
  else if r = Config.serialCap + 8 then (all, Config.serial.toNat / 2 ^ 32)
  else if r = Config.msixCap then
    (2 ^ 16 * 0xC7FF, 2 ^ 16 * (511 + 2 ^ 14 * bit s.pcie.msixFunctionMask + 2 ^ 15 * bit s.pcie.msixEnable))
  else if r = Config.msixCap + 4 then (all, 0x8000)
  else if r = Config.msixCap + 8 then (all, 0xA000)
  -- D1, D2 and PME are not supported; PowerState, No_Soft_Reset, PME_En
  else if r = Config.pmCap then (0xFE0000FF, 0x01)
  else if r = Config.pmCap + 4 then (0x810B, 3 * bit s.pcie.d3hot + 8)
  -- an Endpoint; payload 512, Extended Tag, Function Level Reset; 32.0 GT/s, x16, ASPM L1; timeout ranges A to D, disable, 10-bit tags
  else if r = Config.pcieCap then (0xFF00FF, 0x20010)
  else if r = Config.pcieCap + 4 then (0x10000027, 0x10000022)
  else if r = Config.pcieCap + 8 then (0x8000, 0)
  else if r = Config.pcieCap + 0xC then (0xFFF, 5 + 2 ^ 4 * 16 + 2 ^ 10 * 2)
  else if r = Config.pcieCap + 0x10 then (0x3FF0000, 2 ^ 16 * s.pcie.speed.toNat + 2 ^ 20 * s.pcie.width.toNat)
  else if r = Config.pcieCap + 0x24 then (0x3001F, 0x3001F)
  -- a requester, no responder or root; granularity 2 ns; PTM Enable
  else if r = Config.ptmCap then (0xFFFF, 0x1F)
  else if r = Config.ptmCap + 4 then (0xFF07, 0x201)
  else if r = Config.ptmCap + 8 then (1, bit s.pcie.ptmEnable)
  else (0, 0)

/-- A read of a configuration register: the bits that the spec does not give are free. -/
def State.configRead (s : State) (r : Nat) : State :=
  let (free, s) := s.takeFree
  let (known, v) := s.configKnown r
  let kept := cfgMask r - Nat.land (cfgMask r) known
  s.send (.configData (v + Nat.land (s.cfg r) kept + Nat.land (free.toNat % 2 ^ 32) (2 ^ 32 - 1 - known - kept)))

/-- PowerState is written: D3hot, or D0 again (R500, R505). -/
def State.setPower (s : State) (d3hot : Bool) : State :=
  let s := { s with pcie := { s.pcie with d3hot := d3hot } }
  if d3hot then s else s.flushMsix

/-- PTM Enable is written (R502). -/
def State.setPtm (s : State) (on : Bool) : State := if on then { s with pcie := { s.pcie with ptmEnable := true } } else s.ptmOff

/-- A write of a configuration register: what it keeps, and what Bus Master Enable, the MSI-X Message Control, PowerState, PTM Enable and Initiate
Function Level Reset do (R496, R500, R502, R504). -/
def State.configWrite (s : State) (r v : Nat) : State :=
  let s := s.setCfg r v
  if r = 0x04 then s.setBusMaster (bitAt v 2)
  else if r = Config.msixCap then s.setMsixControl (bitAt v 31) (bitAt v 30)
  else if r = Config.pmCap + 4 then (if v % 4 = 3 then s.setPower true else if v % 4 = 0 then s.setPower false else s)
  else if r = Config.ptmCap + 8 then s.setPtm (bitAt v 0)
  else if r = Config.pcieCap + 8 && bitAt v 15 then s.functionLevelReset
  else s

/-- CONFIG_REQUEST (R487): Retry Status with no effect until the device enters PREOP or SAFE; answered normally from then on (R486). -/
def execConfigRequest (access : ConfigAccess) (s : State) : Result := s.act fun s =>
  if !s.pcie.linkUp then s
  else if !s.dev.state.ready then s.send .configRetry
  else match access with
    | .read r => s.configRead r
    | .write r v => (s.configWrite r v.toNat).send .configNormal
    | .msixControl e f => (s.setMsixControl e f).send .configNormal

end Sys2Proof.Machine
end

