-- ==== Sys2Proof/Machine/Pcie.lean ====
section
/-! DEFINITION. PCI Express: the link, bus mastering, the Oasis window, MSI-X and device time over PTM (R483, R490, R494 to R502, R505). -/

namespace Sys2Proof.Machine

/-- The highest speed, as GLB_LINK codes it, and the widest width that the device has in common with a link partner of this speed and width; 0 for none
(R483, R507). -/
def commonSpeed (speed : Nat) : Nat := min speed 5
def commonWidth (width : Nat) : Nat := ([16, 8, 4, 2, 1].find? fun w => decide (w ≤ width)).getD 0

/-- PCIE_LINK_CHANGE: the link trains to what it has in common with a partner that offers a speed and a width, or goes down; going down from DL_Active has the
effect of a Function Level Reset (R483, R487, R503, R507 LINK_CHANGE, R508). -/
def execPcieLinkChange (up : Bool) (speed : BitVec 4) (width : BitVec 5) (s : State) : Result := s.act fun s =>
  if !s.pwr.pcie then s else
  let up := up && speed != 0 && width != 0
  let speed := BitVec.ofNat 4 (commonSpeed speed.toNat)
  let width := BitVec.ofNat 5 (commonWidth width.toNat)
  let down := s.pcie.linkUp && !up
  let changed := s.pcie.linkUp != up || s.pcie.speed != speed || s.pcie.width != width
  let s := if down then s.functionLevelReset else s
  let s := { s with pcie := { s.pcie with
    linkUp := up, speed := if up then speed else 0, width := if up then width else 0,
    linkedSinceReset := s.pcie.linkedSinceReset || up } }
  if changed then s.raiseStatus .glb 8 2 0xFFFF 0xFF 0 else s

/-- BUS_MASTER_CHANGE: Bus Master Enable changes; pending messages go out when the device may master the bus again (R500). -/
def execBusMasterChange (on : Bool) (s : State) : Result := s.act fun s =>
  if !s.dev.state.ready then s else s.setBusMaster on

/-- D3HOT_ENTRY: the effect of R500 and nothing more (R505). While the device answers with Retry Status the write has no effect (R487). -/
def execD3hotEntry (s : State) : Result := s.act fun s => if s.dev.state.ready then s.setPower true else s

/-- D3HOT_TO_D0: no reset; DMA and messages resume (R500, R503). -/
def execD3hotToD0 (s : State) : Result := s.act fun s => s.setPower false

/-- An access of a shape that its window does not take: a write is discarded, a read returns 0xFFFF_FFFF, and ACCESS_ERR is set (R490, R492, R494). -/
def State.badAccess (s : State) (isWrite : Bool) : State := (if isWrite then s else s.send (.readData 0xFFFFFFFF)).raiseInt .glb 4

/-- BAR0_BAD_ACCESS (R490). -/
def execBar0BadAccess (isWrite : Bool) (s : State) : Result := s.act fun s => s.badAccess isWrite

/-- A write of less than a granule reads the granule, puts the bytes in and writes it back (R494): the errors that the read shows are reported, a corrected
one is gone with the write, and an uncorrectable one stays (R341). -/
def State.mergeOasis (s : State) (a : Nat) (bs : List Byte) : State :=
  let g := a / 64 * 64
  let spoilt := s.oasisPoisoned g 64
  let s := (s.oasisSeen g 64).writeOasis a bs
  let s := { s with oasisSingle := clearBad g 64 s.oasisSingle }
  if spoilt then s.poisonOasis g 64 else s

/-- OASIS_WINDOW_ACCESS: BAR2 offset 0x200_0000 + o reaches Oasis byte GLB_OASIS_WIN.BASE × 1 MiB + o (R494). -/
def execOasisWindowAccess (offset size : Nat) (write : Option (List Byte)) (s : State) : Result := s.act fun s =>
  if !s.dev.state.ready then s else
  let a := s.reg Reg.glbOasisWin * 2 ^ 20 + offset
  let inside := decide (offset + size ≤ 2 ^ 25) && decide (a + size ≤ oasisBytes)
  match write with
  | none =>
    if inside && (size == 4 || size == 8) && offset % size == 0 then
      (s.oasisSeen a size).send (.readBytes (s.readOasis a size) (s.oasisPoisoned a size))
    else s.badAccess false
  | some bs =>
    let whole := decide (1 ≤ bs.length) && decide (a % 64 + bs.length ≤ 64)
    if inside && bs.length == size && whole && (decide (size ≤ 64)) then
      if size = 64 then s.writeOasis a bs else s.mergeOasis a bs
    else s.badAccess true

/-- MSIX_UNMASK: a vector's mask bit is cleared; a pending message is sent (R496). -/
def execMsixUnmask (vector : Fin 512) (s : State) : Result := s.act fun s =>
  let off := 0x8000 + vector.val * 16 + 12
  let s := s.setReg off (s.reg off / 2 * 2)
  if s.pcie.msixPending.contains vector.val then s.msixSend vector.val else s

/-- IRQ_HOLDOFF_EXPIRY: the causes held on a vector send one message (R497). -/
def execIrqHoldoffExpiry (vector : Fin 512) (s : State) : Result := s.act fun s =>
  if s.pcie.heldOff.contains vector.val then
    { s with pcie := { s.pcie with heldOff := s.pcie.heldOff.filter (· != vector.val) } }.msixSend vector.val
  else s

/-! ### Device time over PTM (R502) -/

/-- The rate takes a new value within ±500 ppm that slows DT where it is ahead and speeds it up where it is behind (R456); its size is free (log
entry 139). -/
def State.steerRate (s : State) (e : Int) : State :=
  let (n, s) := s.takeFree
  let r : Int := (n.toNat % 501 : Nat)
  { s with crv := { s.crv with steer := .rate, ratePpm := if 0 < e then -r else if e < 0 then r else 0 } }

/-- Steer DT by an error e (R456): in PREOP an error beyond 10 µs steps DT forward or halves its rate; an error within it, and any error in ARMED, RUN and HOLD,
steers the rate. The table gives no action for an error beyond 10 µs in SAFE: DT goes on as it was steered last (DESIGN CHOICE, log entry 124). -/
def State.steerBy (s : State) (e : Int) : State :=
  if s.dev.state = .preop && decide (e < -10000) then
    { s with dt := (s.dt + (-e).toNat) % 2 ^ 64, crv := { s.crv with steer := .rate } }
  else if s.dev.state = .preop && decide (10000 < e) then { s with crv := { s.crv with steer := .half } }
  else if s.dev.state.live || (decide (-10000 ≤ e) && decide (e ≤ 10000)) then s.steerRate e
  else s

/-- PTM_DIALOGUE_START: with TIME_SOURCE 2 and PTM Enable set, a request leaves and t1 is taken (R502). -/
def execPtmDialogueStart (s : State) : Result := s.act fun s =>
  if s.dev.state.ready && s.od Od.crvTimeSource == 2 && s.pcie.ptmEnable && s.pcie.linkUp && s.pcie.ptmT1.isNone then
    ({ s with pcie := { s.pcie with ptmT1 := some s.dt } }).send (.ptmRequest s.dt)
  else s

/-- PTM_DIALOGUE_DONE: the response carries t2 and t3; d and e are formed, reported and DT is steered (R502). -/
def execPtmDialogueDone (t2 t3 : W64) (s : State) : Result := s.act fun s =>
  match s.pcie.ptmT1 with
  | none => s
  | some t1 =>
    let d : Int := (((s.dt : Int) - t1) - ((t3.toNat : Int) - t2.toNat)) / 2
    let e : Int := ((t1 : Int) + d) - t2.toNat
    let good := if decide (-100 ≤ e) && decide (e ≤ 100) then s.pcie.ptmGood + 1 else 0
    let s := { s with pcie := { s.pcie with ptmT1 := none, ptmFails := 0, ptmGood := good } }
    let s := ((s.setReg Reg.glbPtmOffset (ofSigned 32 e)).setReg Reg.glbPtmDelay (ofSigned 32 d)).setOd Od.crvTimeOffset (ofSigned 32 e)
    let s := s.steerBy e
    let st := s.od Od.crvTimeState
    let new := if 16 ≤ good then 2 else if st = 2 && decide (-1000 ≤ e) && decide (e ≤ 1000) then 2 else 1
    s.setTimeState new e true

/-- PTM_DIALOGUE_FAIL: no response within 1 ms; three failures in a row put TIME_STATE into holdover (R502). -/
def execPtmDialogueFail (s : State) : Result := s.act fun s =>
  match s.pcie.ptmT1 with
  | none => s
  | some _ =>
    let n := s.pcie.ptmFails + 1
    let s := { s with pcie := { s.pcie with ptmT1 := none, ptmFails := n, ptmGood := 0 } }
    let s := s.count32 Reg.glbPtmFails 1
    if 3 ≤ n then s.setTimeState 3 (toSigned 32 (s.od Od.crvTimeOffset)) true else s

/-- PTM_ENABLE_CHANGE: clearing PTM Enable puts TIME_STATE into holdover under TIME_SOURCE 2 (R502). -/
def execPtmEnableChange (on : Bool) (s : State) : Result := s.act fun s =>
  if s.dev.state.ready then s.setPtm on else s

end Sys2Proof.Machine
end

