-- ==== Sys2Proof/Machine/Caravan.lean ====
section
/-! DEFINITION. The Caravan node: forwarding and processing of frames, slots, tickets, the watchdog and time over Caravan (R438 to R456). -/

namespace Sys2Proof.Machine

/-! ### Frames (R440, R442). A frame is given from its destination address up to the byte before its FCS. -/

/-- The source address of an Ethernet frame, in 802.3 order (R3). -/
def frameSource (f : List Byte) : Nat := ((f.drop 6).take 6).foldl (fun a b => a * 256 + b.toNat) 0
/-- Is it an untagged frame with EtherType 0x88B5, of at most 1,518 bytes with its FCS (R440)? -/
def frameIsCaravan (f : List Byte) : Bool :=
  decide (14 ≤ f.length) && decide (f.length + 4 ≤ 1518) && byteAt f 12 == 0x88 && byteAt f 13 == 0xB5
/-- Where the Caravan header begins. -/
def headerAt : Nat := 14
/-- Where slot i begins. -/
def slotAt (i : Nat) : Nat := 14 + 32 + 32 * i
/-- SLOTS of the frame. -/
def frameSlots (f : List Byte) : Nat := byteAt f (headerAt + 2)
/-- CYCLE, TIME, ECHO and ROLL of the frame. -/
def frameCycle (f : List Byte) : Nat := fieldAt f (headerAt + 4) 4
def frameTime (f : List Byte) : Nat := fieldAt f (headerAt + 8) 8
def frameEcho (f : List Byte) : Nat := fieldAt f (headerAt + 16) 8
def frameRoll (f : List Byte) : Nat := fieldAt f (headerAt + 24) 8
/-- A frame that R442 does not refuse. -/
def frameValid (f : List Byte) : Bool :=
  byteAt f headerAt == 1 && byteAt f (headerAt + 1) == 1 && byteAt f (headerAt + 3) == 0 && decide (frameSlots f ≤ 45) &&
  decide (14 + 32 + 32 * frameSlots f ≤ f.length)

/-! ### Slots (R443 to R446) -/

/-- The fields of a slot. -/
structure Slot where
  addr : Nat
  cmd : Nat
  last : Bool
  cmdRes : Nat
  status : Nat
  index : Nat
  sub : Nat
  ticket : Nat
  replier : Nat
  res9 : Nat
  len : Nat
  res11 : Nat
  at_ : Nat
  offset : Nat
  total : Nat
  res22 : Nat
  data : List Byte
  deriving DecidableEq, Repr

/-- Read a slot's 32 bytes. -/
def Slot.parse (b : List Byte) : Slot :=
  { addr := fieldAt b 0 2, cmd := byteAt b 2 % 16, last := bitAt (byteAt b 2) 4, cmdRes := byteAt b 2 / 32, status := byteAt b 3,
    index := fieldAt b 4 2, sub := byteAt b 6, ticket := byteAt b 7, replier := byteAt b 8, res9 := byteAt b 9, len := byteAt b 10,
    res11 := byteAt b 11, at_ := fieldAt b 12 6, offset := fieldAt b 12 4, total := fieldAt b 18 4, res22 := fieldAt b 22 2,
    data := (b.drop 24).take 8 }

/-- The key of the slot's entry. -/
def Slot.key (t : Slot) : Nat := t.index * 256 + t.sub

/-- Which request fields a command uses: INDEX and SUB, LEN and DATA, AT, OFFSET, TICKET, LAST (R444). -/
def slotUses (cmd : Nat) : Bool × Bool × Bool × Bool × Bool × Bool :=
  match cmd with
  | 1 => (true, false, false, false, false, false)
  | 2 => (true, true, false, false, false, false)
  | 3 => (true, true, true, false, false, false)
  | 4 => (true, false, true, false, false, false)
  | 5 => (true, false, false, false, false, false)
  | 6 => (true, false, false, true, false, false)
  | 7 => (true, true, false, true, false, true)
  | 8 => (false, false, false, false, true, false)
  | 9 => (true, false, false, false, false, false)
  | _ => (false, false, false, false, false, false)

/-- A malformed slot (R446, R445 for broadcasts). A NOP is addressed to no node: every field of it but REPLIER is 0 (R444). A broadcast slot that a node
before this one has failed arrives with that node's STATUS and REPLIER, which R445 keeps: it is not malformed for them (DESIGN CHOICE, log entry 93). -/
def Slot.malformed (t : Slot) : Bool :=
  let (ix, ld, a, o, tk, la) := slotUses t.cmd
  let failedBefore := t.addr == 0xFFFF && t.status != 0
  decide (0xA < t.cmd) || t.cmdRes != 0 || (t.status != 0 && !failedBefore) || t.res9 != 0 || t.res11 != 0 || t.res22 != 0 || t.total != 0 ||
  (t.replier != 0xFF && !failedBefore) || decide (8 < t.len) || (!la && t.last) || (!tk && t.ticket != 0) ||
  (!ix && (t.index != 0 || t.sub != 0)) || (!ld && (t.len != 0 || t.data.any (· != 0))) ||
  (!a && !o && t.at_ != 0) || (o && decide (2 ^ 32 ≤ t.at_)) || (ld && (t.data.drop t.len).any (· != 0)) ||
  (t.cmd == 9 && (t.addr != 0xFFFE || decide (63 < t.sub) || t.index != 0)) ||
  (t.cmd == 0 && t.addr != 0) || (t.cmd == 7 && t.len == 0) || (t.cmd == 10 && t.addr != 0xFFFF) ||
  (t.addr == 0xFFFF && !(t.cmd == 2 || t.cmd == 3 || t.cmd == 4 || t.cmd == 10))

/-- Does the slot address this node, which holds `seat` (R445)? MUSTER slots are handled apart. -/
def State.slotAddressed (s : State) (seat : Nat) (t : Slot) : Bool :=
  let station := s.od Od.crvStation
  t.addr == 0xFFFF || (seat != 0xFF && t.addr == 0x8000 + seat) || (station != 0 && t.addr == station)

/-- The REPLIER that a node with this seat writes. -/
def replier (seat : Nat) : Nat := if seat = 0xFF then 0xFE else seat

/-- The seat after a slot: a MUSTER that no node has taken gives one to a node without, an UNSEAT takes it (R441). -/
def seatAfter (seat : Nat) (b : List Byte) : Nat :=
  let t := Slot.parse b
  if t.malformed then seat
  else if t.cmd = 9 then (if seat = 0xFF && t.replier == 0xFF then t.sub else seat)
  else if t.cmd = 10 then 0xFF
  else seat

/-- An answer of a slot: STATUS, TICKET, LEN, TOTAL and DATA. -/
structure SlotAnswer where
  status : Status
  ticket : Nat := 0
  len : Nat := 0
  total : Nat := 0
  data : List Byte := []
  deriving DecidableEq, Repr

/-- The bytes of an answer as a ticket stores it: STATUS, LEN, TOTAL (4), DATA (8). -/
def SlotAnswer.store (a : SlotAnswer) : List Byte := leBytes 1 a.status.code ++ leBytes 1 a.len ++ leBytes 4 a.total ++ padTo 8 a.data

/-- Write an answer into a slot: TICKET as the command states, REPLIER, and LEN, TOTAL and DATA of the answer. -/
def writeAnswer (b : List Byte) (st tk rep len total : Nat) (data : List Byte) : List Byte :=
  let b := patch (patch (patch b 3 (leBytes 1 st)) 7 (leBytes 1 tk)) 8 (leBytes 1 rep)
  patch (patch (patch b 10 (leBytes 1 len)) 18 (leBytes 4 total)) 24 (padTo 8 data)

/-- What a slot asks to be done at the end of the frame (R449): a write, a scheduled write, a cancel, a segment, a slow request, a seat. -/
inductive SlotWork where
  | write (t : Slot)
  | writeAt (t : Slot)
  | cancelAt (t : Slot)
  | segment (t : Slot)
  | slow (number : Byte) (t : Slot) (bytes : List Byte)
  | seat (n : Nat)
  | unseat
  | fetched (number : Byte)
  deriving DecidableEq, Repr

/-- SEAT_CHANGE: at most one status event per 1 s (R441, R482). -/
def State.setSeat (s : State) (n : Nat) : State :=
  if s.od Od.crvSeat = n then s else
  let s := (s.setOd Od.crvSeat n).raiseInt .crv 0x800
  s.rateLimited (rateKey 6 1 11) 1000000000 fun t => t.statusEvent 6 0 0xFF 0x800 0

/-- A slow request is accepted: its ticket is held. -/
def State.holdTicket (s : State) (n : Byte) (slot : List Byte) (staged : Nat × List Byte) : State :=
  ({ s with crv := { s.crv with
    tickets := s.crv.tickets ++ [Ticket.mk n slot none 0 staged], nextTicket := BitVec.ofNat 8 (n.toNat % 255 + 1) } }).count64 Reg.crvSlotsSlow 1

/-- Work of a slot at the end of its frame, in slot order (R449). A segment with LAST ends the staging here; its value is submitted as a slow request. -/
def State.slotWork (s : State) : SlotWork → State
  | .write t => (s.odWrite .caravan t.key t.len (ofLeBytes (t.data.take t.len)) .none).2
  | .writeAt t => (s.writeAt .caravan t.key t.len (ofLeBytes (t.data.take t.len)) t.at_).2.2.2
  | .cancelAt t => (s.cancelAt t.key t.at_).2
  | .segment t =>
    let (_, g, _) := stageSegment s.doors.crvStaging t.key t.offset (t.data.take t.len) t.last
    { s with doors := { s.doors with crvStaging := g } }
  | .slow n t b =>
    if t.cmd = 7 then
      let (st, g, whole) := stageSegment s.doors.crvStaging t.key t.offset (t.data.take t.len) t.last
      (({ s with doors := { s.doors with crvStaging := g } }).countRefusal st).holdTicket n b (st.code, whole.getD [])
    else s.holdTicket n b (0, [])
  | .seat n => s.setSeat n
  | .unseat => s.setSeat 0xFF
  | .fetched n => { s with crv := { s.crv with tickets := s.crv.tickets.filter fun k => k.number != n } }

/-- The status that the checks of a fast command give before the frame's end (R449, R450): reads see the values before the frame's
writes; a write is checked, as the schedule and the staging are used, after the work of the frame's earlier slots (`sh`), as it will be carried out. -/
def State.slotStatus (s sh : State) (t : Slot) : SlotAnswer :=
  let v := ofLeBytes (t.data.take t.len)
  match t.cmd with
  | 1 =>
    match s.odReadCheck t.key, odFind t.key with
    | .ok, some r =>
      if r.type.maxBytes.isSome then { status := .type }
      else { status := .ok, len := r.type.bytes, data := s.odBytes t.key }
    | e, _ => { status := if e = .ok then .noEntry else e }
  | 2 => { status := sh.odScalarCheck .caravan t.key t.len v }
  | 3 =>
    let (st, h, late, _) := sh.writeAt .caravan t.key t.len v t.at_
    { status := st, len := if st = .ok then 2 else 0, data := if st = .ok then leBytes 1 h ++ leBytes 1 (bit late) else [] }
  | 4 => { status := (sh.cancelAt t.key t.at_).1 }
  | 5 =>
    let (st, d) := s.describe t.key
    { status := st, len := d.length, data := d }
  | 7 =>
    let (st, _, _) := stageSegment sh.doors.crvStaging t.key t.offset (t.data.take t.len) t.last
    { status := st }
  | _ => { status := .ok }

/-- The answer of a SEG_READ (R444, R451). -/
def State.segRead (s : State) (t : Slot) : SlotAnswer :=
  match s.odReadCheck t.key, odFind t.key with
  | .ok, some r =>
    if r.type.maxBytes.isNone then { status := .type }
    else
      let v := s.odBytes t.key
      let part := (v.drop t.offset).take 8
      { status := .ok, len := part.length, total := v.length, data := part }
  | e, _ => { status := if e = .ok then .noEntry else e }

/-- Is a slot's command slow (R444)? Its checks are made when it is worked, and its status is fetched with RESULT. -/
def Slot.slow (t : Slot) : Bool := t.cmd == 6 || (t.cmd == 7 && t.last) || (t.cmd == 2 && t.key == Od.devStateRequest)

/-- Before PREOP only MUSTER, UNSEAT and fast READs of the hardwired entries are answered (R447, R479). -/
def State.slotReady (s : State) (t : Slot) : Bool :=
  s.dev.state.ready || t.cmd == 10 || (t.cmd == 1 && odHardwired t.key)

/-- Does the slot reach index 0xA000 to 0xEFFF with a command that names an entry (R446)? -/
def Slot.generation (t : Slot) : Bool :=
  decide (1 ≤ t.cmd) && decide (t.cmd ≤ 7) && decide (0xA000 ≤ t.index) && decide (t.index < 0xF000)

/-- What processing one slot has built up: the state with its counters, the slot bytes after it, whether a slot addressed to this node
failed, the work for the frame's end, the seat, the tickets given, and the state with the work of the slots so far. -/
structure SlotStep where
  state : State
  slots : List (List Byte)
  failed : Bool
  work : List SlotWork
  seat : Nat
  given : Nat
  shadow : State

/-- Act on one slot on the return pass (R441, R443 to R448). Reads see the values before the frame's writes (R450). A MUSTER slot addresses the first
node without a seat that meets it, malformed or not. DESIGN CHOICE (log entry 93): the generation is judged first (R10) from PREOP on; before PREOP a malformed
slot answers MALFORMED (R446) and any other NOT_READY (R447), an index of another generation included (R463). -/
def slotStep (fcsOk : Bool) (acc : SlotStep) (b : List Byte) : SlotStep :=
  let s := acc.state
  let t := Slot.parse b
  let pass : SlotStep := { acc with slots := acc.slots ++ [b] }
  if t.cmd = 9 && t.addr == 0xFFFE then
    if acc.seat = 0xFF && t.replier == 0xFF then
      if t.malformed then
        { acc with
          slots := acc.slots ++ [writeAnswer b Status.malformed.code 0 0xFE 0 0 []], failed := true
          state := s.count64 Reg.crvSlotsFast 1 }
      else
        { acc with
          slots := acc.slots ++ [writeAnswer b 0 0 t.sub 8 0 (leBytes 8 Config.serial.toNat)]
          work := acc.work ++ [.seat t.sub], seat := seatAfter acc.seat b
          state := s.count64 Reg.crvSlotsFast 1 }
    else pass
  else if !s.slotAddressed acc.seat t then pass
  else if t.cmd = 10 && !t.malformed then { pass with work := acc.work ++ [.unseat], seat := seatAfter acc.seat b }
  else
    let broadcast := t.addr == 0xFFFF
    let answer (a : SlotAnswer) (work : List SlotWork) (given : Nat) (count : State → State) : SlotStep :=
      let bad := a.status != .ok && a.status != .pending
      let b' := if broadcast then
          (if bad && t.status == 0 then patch (patch b 3 (leBytes 1 a.status.code)) 8 (leBytes 1 (replier acc.seat)) else b)
        else writeAnswer b a.status.code a.ticket (replier acc.seat) a.len a.total a.data
      { acc with state := count s, slots := acc.slots ++ [b'], failed := acc.failed || bad, work := acc.work ++ work,
                 given := acc.given + given,
                 shadow := work.foldl State.slotWork acc.shadow }
    let fast := fun u : State => u.count64 Reg.crvSlotsFast 1
    let refusedToo := fun (st : Status) (u : State) =>
      if (t.cmd == 2 || t.cmd == 3 || t.cmd == 7) && fcsOk then (fast u).countRefusal st else fast u
    let held := s.crv.tickets.filter fun k => !acc.work.contains (.fetched k.number)
    let asked := acc.work.any fun w => match w with
      | .slow n _ _ => n.toNat == t.ticket
      | _ => false
    if t.generation && s.dev.state.ready then answer { status := .generation } [] 0 (refusedToo .generation)
    else if t.malformed then answer { status := .malformed } [] 0 (refusedToo .malformed)
    else if !s.slotReady t then answer { status := .notReady } [] 0 (refusedToo .notReady)
    else if t.cmd = 8 then
      match held.find? fun k => k.number.toNat == t.ticket with
      | none => answer { status := if asked then .pending else .ticketUnknown, ticket := t.ticket } [] 0 fast
      | some k => match k.answer with
        | none => answer { status := .pending, ticket := t.ticket } [] 0 fast
        | some r =>
          let b' := writeAnswer b (byteAt r 0) t.ticket (replier acc.seat) (byteAt r 1) (fieldAt r 2 4) (r.drop 6)
          { acc with state := fast s, slots := acc.slots ++ [b'], failed := acc.failed || decide (1 < byteAt r 0),
                     work := acc.work ++ [.fetched k.number] }
    else if t.slow then
      if 16 ≤ held.length + acc.given then answer { status := .busy } [] 0 (refusedToo .busy)
      else
        let n := (s.crv.nextTicket.toNat + acc.given - 1) % 255 + 1
        answer { status := .pending, ticket := n } [.slow (BitVec.ofNat 8 n) t b] 1 id
    else
      let a := s.slotStatus acc.shadow t
      let w : List SlotWork := if a.status != .ok then [] else match t.cmd with
        | 2 => [.write t]
        | 3 => [.writeAt t]
        | 4 => [.cancelAt t]
        | 7 => [.segment t]
        | _ => []
      let w := if t.cmd = 7 && a.status = .malformed then [.segment t] else w
      answer a w 0 (refusedToo a.status)

/-- Process every slot in order. -/
def slotSteps (fcsOk : Bool) : SlotStep → List (List Byte) → SlotStep
  | acc, [] => acc
  | acc, b :: bs => slotSteps fcsOk (slotStep fcsOk acc b) bs

/-! ### The cycle and the time (R453 to R456) -/

/-- d of R455: the mean of the newest 16 samples, rounded down; `samples` holds each of them twice over. -/
def pathDelay (samples : List Int) : Option Int :=
  if samples.isEmpty then none else some ((samples.take 16).foldl (· + ·) 0 / (2 * (samples.take 16).length : Int))

/-- The controller is learned from the first valid CYCLE frame (R440). -/
def State.learn (s : State) (f : List Byte) : State :=
  if s.crv.mac.isNone then ({ s with crv := { s.crv with mac := some (frameSource f) } }).setOd Od.crvControllerMac (frameSource f) else s

/-- The watchdog is armed by two consecutive CYCLE frames (R453). -/
def State.armWatchdog (s : State) : State := { s with crv := { s.crv with armed := true } }

/-- The cycle period of consecutive frames, from arrival to arrival, and the frames lost between others (R453). -/
def State.measurePeriod (s : State) (n a : Nat) : State :=
  match s.crv.lastCycle with
  | some (m, t) =>
    let gap := (n + 2 ^ 32 - m) % 2 ^ 32
    if gap = 1 then
      let p := (a + 2 ^ 64 - t) % 2 ^ 64
      (s.armWatchdog.setOd Od.crvCyclePeriod (p % 2 ^ 32)).setReg Reg.crvPeriod (p % 2 ^ 32)
    else if gap = 0 then s
    else s.countOd Od.crvLostCycles (gap - 1)
  | none => s

/-- The CYCLE frames that did not arrive between the last one and frame n. -/
def State.lostCycles (s : State) (n : Nat) : Nat := match s.crv.lastCycle with
  | some (m, _) => (n + 2 ^ 32 - m) % 2 ^ 32 - 1
  | none => 0

/-- An expired watchdog is restored (R453). -/
def State.restoreWatchdog (s : State) (n : Nat) : State :=
  if s.crv.expired then
    (({ s with crv := { s.crv with expired := false } }).raiseInt .crv 2).event 6 0x11 (leBytes 4 n ++ leBytes 4 (s.lostCycles n))
  else s

/-- A sample of the path delay joins the newest 16. -/
def State.addSample (s : State) (x : Int) : State := { s with crv := { s.crv with samples := (x :: s.crv.samples).take 16 } }

/-- The path delay (R455): a sample needs the frame before, processed with a good FCS, and a nonzero ECHO. -/
def State.measureDelay (s : State) (f : List Byte) : State :=
  match s.crv.prev with
  | some q =>
    if q.processed && frameCycle f == (q.cycle + 1) % 2 ^ 32 && frameEcho f != 0 then
      let s := s.addSample (((frameEcho f : Int) - q.time) - ((q.b : Int) - q.a))
      match pathDelay s.crv.samples with
      | some d => (s.setOd Od.crvPathDelay (ofSigned 32 d)).setReg Reg.crvPathDelay (ofSigned 32 d)
      | none => s
    else s
  | none => s

/-- What the next frame needs of this one, which leaves at DT `b`. -/
def State.keepCycle (s : State) (f : List Byte) (a b : Nat) : State :=
  { s with crv := { s.crv with
    lastCycle := some (frameCycle f, a), prev := some ⟨frameCycle f, frameTime f, a, b, true⟩,
    outbound := s.crv.outbound.filter fun q => q.1 != frameCycle f } }

/-- The run of frames with |e| at most 100 ns. -/
def State.setLockRun (s : State) (n : Nat) : State := { s with crv := { s.crv with lockRun := n } }

/-- DT is steered by the frame, with TIME_SOURCE 1 (R456). -/
def State.steerFrame (s : State) (f : List Byte) (a : Nat) : State :=
  if s.od Od.crvTimeSource != 1 || !s.dev.state.ready then s
  else match pathDelay s.crv.samples with
    | none => (s.setLockRun 0).setTimeState 1 0 false
    | some d =>
      let e : Int := (a : Int) - ((frameTime f : Int) + d)
      let run := if decide (-100 ≤ e) && decide (e ≤ 100) then s.crv.lockRun + 1 else 0
      let s := ((s.setLockRun run).setOd Od.crvTimeOffset (ofSigned 32 e)).setReg Reg.crvTimeOffset (ofSigned 32 e)
      let s := s.steerBy e
      let st := s.od Od.crvTimeState
      let stay := st == 2 && decide (-1000 ≤ e) && decide (e ≤ 1000)
      s.setTimeState (if 16 ≤ run || stay then 2 else 1) e false

/-- A valid CYCLE frame with a good FCS arrives (R440, R453, R455, R456): the controller is learned, the period and the path delay are measured, the
watchdog restored, and DT steered. `a` is the DT of its outbound arrival, `b` that at which it leaves on its return. -/
def State.cycleSeen (s : State) (f : List Byte) (a b : Nat) : State :=
  let n := frameCycle f
  (((((s.learn f).setReg Reg.crvCycle n).measurePeriod n a).restoreWatchdog n).measureDelay f |>.keepCycle f a b).steerFrame f a

/-! ### Sending frames on (R452) -/

/-- The time in ns that a frame takes on the wire: 0.08 us a byte, its preamble, start delimiter, FCS and gap included (R452). -/
def wireTime (frame : List Byte) : Nat := 80 * (frame.length + 24)
/-- The DT at which a port can begin to send one more frame. -/
def State.portFree (s : State) (port : Nat) : Nat :=
  ((s.crv.sending.filter fun x => x.1 == port).map fun x => x.2.2.1).foldl max s.dt
/-- Does a frame fit: its port sends nothing, or the buffer of 2 KiB has room for it beside the frames that wait (R452)? Nothing waits while a reset
holds DT. -/
def State.frameFits (s : State) (port : Nat) (frame : List Byte) : Bool :=
  s.dev.resetHeld || s.portFree port == s.dt ||
    decide (((s.crv.sending.filter fun x => decide (s.dt < x.2.1)).map fun x => x.2.2.2).sum + frame.length ≤ 2048)
/-- Send a frame on, when its port is free. -/
def State.sendFrame (s : State) (port : Nat) (frame : List Byte) (fcsOk : Bool) : State :=
  let t := s.portFree port
  let q := s.crv.sending.filter fun x => decide (s.dt < x.2.2.1)
  { s with crv := { s.crv with sending := if s.dev.resetHeld then [] else q ++ [(port, t, t + wireTime frame, frame.length)] } }.send (.caravanFrame port frame fcsOk)
/-- The port on which a frame goes on: back towards the controller on port 0, outwards on port 1 while its link is up (R439). -/
def State.frameWay (s : State) (outbound : Bool) : Nat := if outbound && s.crv.port1Up then 1 else 0

/-! ### The commands -/

/-- A completed ticket grows older by one valid CYCLE frame (R448). -/
def ticketOlder (k : Ticket) : Ticket := if k.answer.isSome then { k with age := k.age + 1 } else k

/-- Every completed ticket grows older. -/
def State.ageTickets (s : State) : State := { s with crv := { s.crv with tickets := s.crv.tickets.map ticketOlder } }

/-- A frame that this node's rules let it act on (R440): a Caravan frame of the learned controller, or of any source while none is learned. -/
def State.frameOurs (s : State) (f : List Byte) : Bool :=
  frameIsCaravan f && (match s.crv.mac with
    | some m => frameSource f == m
    | none => frameValid f)

/-- CARAVAN_PORT_LINK_CHANGE: the link of a port changes. With CARAVAN1's, the node changes between forwarding and turning around and discards its samples
(R439, R455, R481, R482). -/
def execCaravanPortLinkChange (change : CaravanLink) (s : State) : Result :=
  .next (if !s.dev.powerGood then s
  else if change.inner then { s with crv := { s.crv with port0Up := change.up } }
  else if s.crv.port1Up = change.up then s
  else
    let s := { s with crv := { s.crv with port1Up := change.up, samples := [], prev := none, outbound := [] } }
    let s := (s.setOd Od.crvPathDelay 0).setReg Reg.crvPathDelay 0
    if s.crv.forwarding then s.turnaroundChanged else s)

/-- The slots of a frame, each with its bytes (R442). -/
def frameSlotList (frame : List Byte) : List (List Byte) :=
  (List.range (frameSlots frame)).map fun i => (frame.drop (slotAt i)).take 32

/-- The first slot, if any, with a command for this node, seated as the slots before it leave it, on a manufacturing-test entry outside RUN (R463). -/
def State.manufacturingFrom (s : State) : Nat → List (List Byte) → Option (List Byte)
  | _, [] => none
  | seat, b :: r =>
    let t := Slot.parse b
    if s.slotAddressed seat t && !t.malformed && decide (1 ≤ t.cmd) && decide (t.cmd ≤ 7) && s.manufacturing t.key then some b
    else s.manufacturingFrom (seatAfter seat b) r
def State.manufacturingSlot (s : State) (slots : List (List Byte)) : Option (List Byte) := s.manufacturingFrom (s.od Od.crvSeat) slots

/-- The frame as this node sends it on: its slots answered, and its roll-call bit set (R443, R445). -/
def SlotStep.frame (acc : SlotStep) (frame : List Byte) : List Byte :=
  let roll := if acc.seat != 0xFF && !acc.failed then Nat.lor (frameRoll frame) (2 ^ acc.seat) else frameRoll frame
  patch (patch frame (headerAt + 24) (leBytes 8 roll)) (slotAt 0) acc.slots.flatten

/-- The outbound arrival of the frame's cycle, or the present time where this node turned it around (R455). -/
def State.outboundArrival (s : State) (frame : List Byte) : Nat :=
  match s.crv.outbound.find? fun q => q.1 == frameCycle frame with
  | some q => q.2
  | none => s.dt

/-- The end of a processed frame whose check value was right: it counts, its cycle is learned, and the work of its slots is done (R448, R450). -/
def State.frameGood (s : State) (frame : List Byte) (leaves : Nat) (work : List SlotWork) : State :=
  work.foldl State.slotWork ((s.ageTickets.count64 Reg.crvFramesOk 1).cycleSeen frame (s.outboundArrival frame) leaves)

/-- The end of a processed frame whose check value was wrong: it is counted and reported, and its slots do no work (R444). -/
def State.frameBad (s : State) : State :=
  ((s.count64 Reg.crvFcsErr 1).raiseInt .crv 0x400).rateLimited (rateKey 6 1 10) 1000000000 fun t => t.statusEvent 6 0 0xFF 0x400 0

/-- The slots of a frame of this node's controller in turn, then the frame sent on and the end of its processing (R439, R442 to R450). -/
def State.frameWorked (s : State) (frame : List Byte) (fcsOk : Bool) : State :=
  let acc := slotSteps fcsOk ⟨s, [], false, [], s.od Od.crvSeat, 0, s⟩ (frameSlotList frame)
  let t := acc.state.sendFrame 0 (acc.frame frame) fcsOk
  if fcsOk then t.frameGood frame (s.portFree 0) acc.work else t.frameBad

/-- A frame of CARAVAN_FRAME_PROCESS (R439, R440, R442, R452): one that does not fit is dropped, a foreign or a refused one is counted and forwarded
unchanged, and any other is processed. -/
def State.frameTaken (s : State) (frame : List Byte) (fcsOk : Bool) : Result :=
  if !s.frameFits 0 frame then .next (s.count64 Reg.crvOverflowDrop 1)
  else if !s.frameOurs frame then .next ((s.count64 Reg.crvForeign 1).sendFrame 0 frame fcsOk)
  else if !frameValid frame then .next ((s.count64 Reg.crvFrameRefused 1).sendFrame 0 frame fcsOk)
  else match s.manufacturingSlot (frameSlotList frame) with
    | some b => .refused (.manufacturingTest (Slot.parse b).index)
    | none => .next (s.frameWorked frame fcsOk)

/-- CARAVAN_FRAME_PROCESS: a frame on its return pass, or at the turnaround node (R439, R442 to R450). -/
def execCaravanFrameProcess (frame : List Byte) (fcsOk : Bool) (s : State) : Result :=
  if s.crv.forwarding then s.frameTaken frame fcsOk else .next s

/-- What an outbound frame, or a foreign one in either pass, leaves behind (R440, R442, R455): a foreign and a refused frame are counted, any other leaves
its arrival time. -/
def State.frameNoted (s : State) (frame : List Byte) : State :=
  if !s.frameOurs frame then s.count64 Reg.crvForeign 1
  else if !frameValid frame then s.count64 Reg.crvFrameRefused 1
  else { s with crv := { s.crv with outbound := ((frameCycle frame, s.dt) :: s.crv.outbound).take 16 } }

/-- CARAVAN_FRAME_FORWARD: an outbound frame, or a foreign frame in its pass, is forwarded unchanged, with its FCS as received (R439, R440, R449, R455); one that
does not fit is dropped (R452). A frame of this node's controller that is on its return pass, or that the turnaround node receives, is not forwarded but
processed (R439). -/
def execCaravanFrameForward (frame : WireFrame) (outbound : Bool) (s : State) : Result :=
  if !s.crv.forwarding then .next s
  else if s.frameOurs frame.bytes && !(outbound && s.crv.port1Up) then s.frameTaken frame.bytes frame.fcsOk
  else .next (if !s.frameFits (s.frameWay outbound) frame.bytes then s.count64 Reg.crvOverflowDrop 1
    else (s.frameNoted frame.bytes).sendFrame (s.frameWay outbound) frame.bytes frame.fcsOk)

/-- Store an answer that is a status code alone. -/
def State.answerCode (s : State) (n : Byte) (code : Nat) : State :=
  { s with crv := { s.crv with tickets := s.crv.tickets.map fun k => if k.number = n then { k with answer := some (leBytes 1 code), age := 0 } else k } }

/-- Store a ticket's answer. -/
def State.answerTicket (s : State) (n : Byte) (a : SlotAnswer) : State :=
  { s with crv := { s.crv with tickets := s.crv.tickets.map fun k =>
      if k.number = n then { k with answer := some a.store, age := 0 } else k } }

/-- CRV_SLOW_REQUEST_DONE: a slow request is worked and its result stored for its ticket (R447). A write of STATE_REQUEST completes when the
transition is done or refused. -/
def execCrvSlowRequestDone (ticket : Byte) (s : State) : Result := s.act fun s =>
  match s.crv.tickets.find? fun k => k.number == ticket && k.answer.isNone with
  | none => s
  | some k =>
    let t := Slot.parse k.slot
    match t.cmd with
    | 6 => s.answerTicket ticket (s.segRead t)
    | 7 =>
      if k.staged.1 != 0 then s.answerCode ticket k.staged.1
      else
        let (st, u) := s.odWriteBytes .caravan t.key k.staged.2
        u.answerTicket ticket { status := st }
    | _ =>
      if s.dev.request.any fun r => r.door == .ticket ticket then s
      else
        let (st, u) := s.odWrite .caravan t.key t.len (ofLeBytes (t.data.take t.len)) (.ticket ticket)
        if st = .pending then u else u.answerTicket ticket { status := st }

/-- CRV_TICKET_EXPIRY: a result that 16 further valid CYCLE frames have passed unfetched is discarded (R448). -/
def execCrvTicketExpiry (ticket : Byte) (s : State) : Result := s.act fun s =>
  if s.crv.tickets.any fun k => k.number == ticket && k.answer.isSome && decide (16 ≤ k.age) then
    ({ s with crv := { s.crv with tickets := s.crv.tickets.filter fun k => k.number != ticket } }).count64 Reg.crvTicketsExpired 1
  else s

/-- CRV_WATCHDOG_EXPIRY: no valid CYCLE frame for WATCHDOG × P after the last one (R453). -/
def execCrvWatchdogExpiry (s : State) : Result := s.act fun s =>
  if !s.crv.armed || s.crv.expired then s
  else
    let cyc := match s.crv.lastCycle with
      | some (n, _) => n
      | none => 0
    let s := { s with crv := { s.crv with expired := true, lockRun := 0 } }
    let s := (s.raiseInt .crv 1).count64 Reg.crvWatchdogExpired 1
    let s := s.event 6 0x10 (leBytes 4 cyc ++ leBytes 4 (s.od Od.crvCyclePeriod))
    let s := if s.od Od.crvTimeSource = 1 then s.setTimeState 3 (toSigned 32 (s.od Od.crvTimeOffset)) false else s
    if s.od Od.crvLossAction = 1 && s.dev.state.live then s.causeSafe 3 else s

end Sys2Proof.Machine
end

