-- ==== Sys2Proof/Machine/Links.lean ====
section
/-! DEFINITION. The commands of the Rolotte links (R409 to R433): training, flits and replay, messages and their effects. -/

namespace Sys2Proof.Machine

/-! ### Training (R410 to R414) -/

/-- LINK_LANES_LOCKED: receive lanes have bit and block lock (R410). -/
def execLinkLanesLocked (link : LinkIx) (lanes : BitVec 8) (s : State) : Result := s.act fun s =>
  let x := s.link link
  if !x.light || lanes = 0 then s
  else if x.state = .lock then s.modLink link fun x => { x with state := .align, locked := lanes }
  else if x.state = .retrain then s.modLink link fun x => { x with locked := lanes }
  else s

/-- LINK_DESKEW_DONE: the locked lanes are deskewed (R410). -/
def execLinkDeskewDone (link : LinkIx) (s : State) : Result := s.act fun s =>
  if (s.link link).state = .align then s.modLink link fun x => { x with state := .negotiate } else s

/-- The training message that a link sends (R411). -/
def State.trainingMessage (s : State) (l : LinkIx) : List Byte :=
  [1, 1] ++ leBytes 1 (s.link l).offered.toNat ++ leBytes 1 (bit (s.link l).seen) ++ leBytes 4 identWord ++ List.replicate 56 0

/-- Does a link exchange training messages? -/
def Link.negotiates (x : Link) : Bool := x.state == .negotiate || x.state == .retrain

/-- TRAINING_MESSAGE_SEND: one copy on every locked lane, each 1 µs (R411). -/
def execTrainingMessageSend (link : LinkIx) (s : State) : Result := s.act fun s =>
  if (s.link link).negotiates then s.send (.training link (s.trainingMessage link)) else s

/-- The link fails (R410, R412). -/
def State.linkFail (s : State) (l : LinkIx) (code : Nat) : State := s.linkEnd l .failed (some code)

/-- The link reaches LINKED on a lane set (R413, R414, R418): from NEGOTIATE it starts fresh, from RETRAIN it resends what is not acknowledged, and on 4
lanes it stays without those excluded. The BARRIER of the present group is the first awaited (R432). -/
def State.linkUp (s : State) (l : LinkIx) (lanes : BitVec 8) : State :=
  let retrained := (s.link l).state == .retrain
  let now := s.nowGroup
  let fresh := fun (x : Link) => if retrained then { x with resent := 0 } else
    { x with txSeq := 0, replay := [], resent := 0, rxSeq := 0, nakOwed := false, discarded := false, sent := Vector.replicate 4 0, freed := Vector.replicate 4 0,
             released := Vector.replicate 4 0, buffered := Vector.replicate 4 0, creditTurn := 0, queue := [], partials := Vector.replicate 4 none }
  let resends := retrained && !(s.link l).replay.isEmpty
  let s := s.modLink l fun x => { fresh x with
    state := .linked, active := lanes, resends := 0, barrierAt := now - 1, kept := if retrained && laneCount lanes = 4 then x.excluded else x.kept }
  let s := (s.setOd (Od.linkFailCode l) 0).count64 (Reg.linkReplays l) (bit resends)
  let s := s.sideStatus (if l = 0 then 1 else 8) l
  if retrained && laneCount lanes = 4 then s.sideStatus (if l = 0 then 4 else 32) l else s

/-- TRAINING_MESSAGE_RX: a partner's training message is refused, or negotiation goes on with it (R411, R412). The reserved bits are
those of R411, of GEN_MASK (R11) and of IDENT (R1). -/
def execTrainingMessageRx (link : LinkIx) (message : List Byte) (s : State) : Result := s.act fun s =>
  let m := padTo 64 message
  if !(s.link link).negotiates then s
  else if byteAt m 0 % 4 != 1 then s.refuseMsg link 0 1
  else if byteAt m 0 / 4 != 0 || byteAt m 1 / 8 != 0 || byteAt m 3 / 2 != 0 || byteAt m 5 % 4 != 0 || !zeroAt m 8 56 then s.refuseMsg link 0 2
  else
    let negotiating := (s.link link).state == .negotiate
    let s := s.setOd (Od.linkPartnerIdent link) (fieldAt m 4 4)
    if byteAt m 1 % 2 = 0 then (if negotiating then s.linkFail link 2 else s)
    else if fieldAt m 6 2 != 0x7480 then (if negotiating then s.linkFail link 3 else s)
    else
      let partner := BitVec.ofNat 8 (byteAt m 2)
      let theirs := bitAt (byteAt m 3) 0
      let s := s.modLink link fun x => { x with seen := true }
      if !theirs then s
      else match laneSet (s.link link).offered partner (s.odFlag (Od.linkDegradeAllow link)) with
        | some lanes => s.linkUp link lanes
        | none => if negotiating then s.linkFail link 5 else s

/-- LINK_TRAIN_TIMEOUT: 100 ms in LOCK, ALIGN and NEGOTIATE (R410). -/
def execLinkTrainTimeout (link : LinkIx) (s : State) : Result := s.act fun s =>
  let x := s.link link
  if x.state = .lock || x.state = .align || x.state = .negotiate then s.linkFail link (if x.light then 4 else 1) else s

/-- LINK_FAILED_EXPIRY: a failed link goes DOWN after 100 ms, and trains again where it may (R410). -/
def execLinkFailedExpiry (link : LinkIx) (s : State) : Result := s.act fun s =>
  if (s.link link).state = .failed then s.linkToDown link none else s

/-- LINK_RETRAIN_TIMEOUT: 50 µs pass in RETRAIN without agreement (R410). -/
def execLinkRetrainTimeout (link : LinkIx) (s : State) : Result := s.act fun s =>
  if (s.link link).state = .retrain then s.linkToDown link (some 6) else s

/-- LANE_FAULT: an active lane loses lock or has 16 sync-header errors within 1 ms; the link retrains without it (R414). DEDUCED (log entry 153): the lane
counts as locked no more. -/
def execLaneFault (link : LinkIx) (lane : Fin 8) (s : State) : Result := s.act fun s =>
  let x := s.link link
  if x.state = .linked && x.active.getLsbD lane then
    (s.modLink link fun x => { x with
      excluded := x.excluded ||| BitVec.ofNat 8 (2 ^ lane.val), locked := x.locked &&& ~~~(BitVec.ofNat 8 (2 ^ lane.val)) }).linkRetrain link
  else s

/-- LINK_CTRL.RETRAIN: a LINKED link retrains with every lane offered (R414). -/
def execLinkCtrlRetrain (link : LinkIx) (value : W32) (s : State) : Result := s.act fun s =>
  if s.dev.state.ready && value.getLsbD 0 && (s.link link).state = .linked then (s.modLink link fun x => { x with excluded := 0, kept := 0 }).linkRetrain link else s

/-! ### Flits (R415 to R420) -/

/-- Receive buffers in flits (R419). -/
def creditSize (c : Nat) : Nat := match c with
  | 0 => 16
  | 1 => 192
  | 2 => 128
  | _ => 64
/-- Free credits of a class. -/
def Link.credits (x : Link) (c : Fin 4) : Nat := creditSize c - (x.sent[c] + 256 - x.freed[c]) % 256

/-- A flit's bytes with its CRC (R415). -/
def flitBytes (seq ack crclass credits flags cls : Nat) (payload : List Byte) : List Byte :=
  let b := leBytes 2 seq ++ leBytes 2 ack ++ leBytes 1 crclass ++ leBytes 1 credits ++ leBytes 1 flags ++ leBytes 1 cls ++ padTo 244 payload
  b ++ leBytes 4 (crc32 b).toNat

/-- Send a flit with the fields that every flit carries: ACK, NAK, and the credits of the class whose turn it is (R417 to R419). -/
def State.sendFlit (s : State) (l : LinkIx) (seq flags cls : Nat) (payload : List Byte) : State :=
  let x := s.link l
  let turn : Fin 4 := ⟨x.creditTurn % 4, Nat.mod_lt _ (by decide)⟩
  let f := flitBytes seq ((x.rxSeq + 65535) % 65536) turn (x.released[turn] % 256) (flags + bit x.nakOwed) cls payload
  (s.send (.flit l f)).modLink l fun x => { x with nakOwed := false, creditTurn := (x.creditTurn + 1) % 4 }

/-- A resend begins (R418): from the oldest flit that is not acknowledged, where there is one. Where eight in a row have made no progress, the link goes to
RETRAIN instead. -/
def State.resend (s : State) (l : LinkIx) : State :=
  if (s.link l).replay.isEmpty then s
  else if 8 ≤ (s.link l).resends then s.linkRetrain l
  else (s.modLink l fun x => { x with resent := 0, resends := x.resends + 1 }).count64 (Reg.linkReplays l) 1

/-- Does message a go before message b: the earlier LGN, then the lower class, then own tokens (R423)? -/
def LinkMsg.before (a b : LinkMsg) : Bool :=
  if a.lgn % 2 ^ 48 != b.lgn % 2 ^ 48 then precedes (BitVec.ofNat 48 a.lgn) (BitVec.ofNat 48 b.lgn)
  else if a.cls != b.cls then decide (a.cls < b.cls)
  else a.own && !b.own

/-- The message of a class whose flit may go next: the one begun, or the first in order (R420, R423). -/
def Link.classNext (x : Link) (c : Fin 4) : Option LinkMsg :=
  if x.credits c = 0 then none
  else
    let ms := x.queue.filter fun m => m.cls == c.val
    match ms.find? fun m => m.gone != 0 with
    | some m => some m
    | none => ms.foldl (fun (b : Option LinkMsg) m => match b with
      | some y => if m.before y then some m else some y
      | none => some m) none

/-- The transmitter's choice (R423). -/
def Link.chooseMsg (x : Link) : Option LinkMsg :=
  match x.classNext 0 with
  | some m => some m
  | none => ([1, 2, 3] : List (Fin 4)).foldl (fun (b : Option LinkMsg) c => match b, x.classNext c with
    | some y, some m => if m.before y then some m else some y
    | none, m => m
    | b, none => b) none

/-- Replace the first message equal to m. -/
def setMsg (m : LinkMsg) (new : Option LinkMsg) : List LinkMsg → List LinkMsg
  | [] => []
  | x :: r => if x = m then new.toList ++ r else x :: setMsg m new r

/-- FLIT_TRANSMIT: a resend goes on, a new flit of the chosen message goes, or an IDLE flit (R417, R418, R420, R423). -/
def execFlitTransmit (link : LinkIx) (s : State) : Result := s.act fun s =>
  let x := s.link link
  if x.state != .linked then s
  else match x.replay[x.resent]? with
    | some (seq, f) =>
      let s := s.sendFlit link seq (bits (byteAt f 6) 3 2 * 4) (byteAt f 7) ((f.drop 8).take 244)
      (s.modLink link fun x => { x with resent := x.resent + 1 }).count64 (Reg.linkFlitsTx link) 1
    | none =>
      match if 512 ≤ x.replay.length then none else x.chooseMsg with
      | none => s.sendFlit link x.txSeq 2 0 []
      | some m =>
        let payload := padTo 244 ((m.bytes.drop m.gone).take 244)
        let last := decide (m.bytes.length ≤ m.gone + 244)
        let flags := 4 * bit (m.gone == 0) + 8 * bit last
        let f := flitBytes x.txSeq 0 0 0 flags m.cls payload
        let c : Fin 4 := ⟨m.cls % 4, Nat.mod_lt _ (by decide)⟩
        let s := s.sendFlit link x.txSeq flags m.cls payload
        (s.modLink link fun y => { y with
          txSeq := (y.txSeq + 1) % 65536
          replay := y.replay ++ [(y.txSeq, f)]
          resent := y.resent + 1
          sent := y.sent.set c ((y.sent[c] + 1) % 256)
          queue := setMsg m (if last then none else some { m with gone := m.gone + 244 }) y.queue }).count64 (Reg.linkFlitsTx link) 1

/-- Body lengths and reserved fields of a whole message (R421, R422): none where it passes, else the status of its refusal. -/
def State.msgStatus (s : State) (l : LinkIx) (cls : Nat) (payload : List Byte) : Option Nat :=
  let type := byteAt payload 1
  let sub := byteAt payload 3
  let len := fieldAt payload 4 4
  let flags := byteAt payload 14
  let b := (payload.drop 16).take len
  let sb := s.reg (Reg.hchSlotBytes l sub)
  let absent := bitAt flags 0
  let body := match type with
    | 1 => flags / 2 == 0 && decide (sub ≤ 3) && (if absent then len == 0 else byteAt b 1 == 0 && zeroAt b 4 4 && len == 8 + 4 * fieldAt b 2 2 + sb &&
        (List.range (fieldAt b 2 2)).all fun j => decide (byteAt b (11 + 4 * j) < 2))
    | 2 => flags == 0 && sub == 0 && zeroAt b 4 4 && len == 8 + fieldAt b 2 2 * s.od Od.tokTokBytes
    | 3 => flags / 4 == 0 && sub == 0 && decide (fieldAt b 0 2 ≤ 256) && zeroAt b 2 6 && len == 8 + 32 * fieldAt b 0 2 &&
        (List.range (fieldAt b 0 2)).all fun i => decide (byteAt b (15 + 32 * i) < 4) && byteAt b (39 + 32 * i) == 0
    | 4 => flags == 0 && sub == 0 && zeroAt b 6 2 && len == 16
    | 5 => flags / 2 == 0 && decide (sub ≤ 3) && (if absent then len == 0 else len == sb)
    | 6 => flags == 0 && fieldAt payload 8 6 == 0 && (match sub with
      | 1 => zeroAt b 20 4 && len == 24
      | 2 | 3 => len == 8
      | _ => false)
    | _ => false
  if byteAt payload 0 % 4 != 1 then some 1
  else if byteAt payload 0 / 4 != 0 || byteAt payload 15 != 0 || 2097152 < len || payload.length != ceilDiv (16 + len) 244 * 244 || !body || msgClass type != cls then some 2
  else none

/-- The bytes that have arrived of a class's message. -/
def Link.setPartial (x : Link) (c : Fin 4) (p : Option (List Byte)) : Link := { x with partials := x.partials.set c p }

/-- Up to n flits of a class leave the receive buffer, and their credits are released (R419). -/
def Link.passOn (x : Link) (c : Fin 4) (n : Nat) : Link :=
  { x with buffered := x.buffered.set c (x.buffered[c] - n), released := x.released.set c ((x.released[c] + min n x.buffered[c]) % 256) }

/-- A flit's payload joins the message of its class; a whole message is refused or waits to take effect (R419 to R421). The buffer holds the flits of a
message until it takes effect or is refused; DESIGN CHOICE (log entry 154): of a message that would fill the buffer, one flit is passed on for each
that arrives. A flit that belongs to no message is dropped. -/
def State.assemble (s : State) (l : LinkIx) (f : List Byte) : State :=
  let cls : Fin 4 := ⟨byteAt f 7 % 4, Nat.mod_lt _ (by decide)⟩
  let part := (f.drop 8).take 244
  let sofar := if bitAt (byteAt f 6) 2 then some part else (s.link l).partials[cls].map fun p => p ++ part
  match sofar with
  | none => s.modLink l fun x => x.passOn cls 1
  | some p =>
    if !bitAt (byteAt f 6) 3 then
      s.modLink l fun x => (if creditSize cls ≤ x.buffered[cls] then x.passOn cls 1 else x).setPartial cls (some p)
    else
      let s := s.modLink l fun x => x.setPartial cls none
      match s.msgStatus l cls p with
      | some st => (s.modLink l fun x => x.passOn cls (ceilDiv p.length 244)).refuseMsg l (byteAt p 1) st
      | none => s.modLink l fun x => { x with inbox := x.inbox ++ [(cls.val, p.take (16 + fieldAt p 4 4))] }

/-- ACK, and credits, as an accepted flit reports them (R418, R419). -/
def Link.heard (x : Link) (f : List Byte) : Link :=
  let ack := fieldAt f 2 2
  let n := match x.replay.findIdx? fun r => r.1 == ack with
    | some i => i + 1
    | none => 0
  let c : Fin 4 := ⟨byteAt f 4 % 4, Nat.mod_lt _ (by decide)⟩
  { x with replay := x.replay.drop n, resent := x.resent - n, resends := if n = 0 then x.resends else 0, freed := x.freed.set c (byteAt f 5) }

/-- FLIT_RECEIVE: a flit is accepted where its CRC is good and its SEQ is the one expected, and discarded otherwise (R417, R418). -/
def execFlitReceive (link : LinkIx) (flit : List Byte) (s : State) : Result := s.act fun s =>
  let f := padTo 256 flit
  let x := s.link link
  if x.state != .linked then s
  else
    let good := (crc32 (f.take 252)).toNat == fieldAt f 252 4
    if !good || fieldAt f 0 2 != x.rxSeq then
      (s.modLink link fun x => { x with nakOwed := x.nakOwed || !x.discarded, discarded := true }).count64 (if good then Reg.linkSeqErr link else Reg.linkCrcErr link) 1
    else
      let idle := bitAt (byteAt f 6) 1
      let c : Fin 4 := ⟨byteAt f 7 % 4, Nat.mod_lt _ (by decide)⟩
      let s := s.modLink link fun x => { x.heard f with discarded := false }
      let s := s.count64 (Reg.linkFlitsRx link) 1
      let s := if idle then s else (s.modLink link fun x => { x with rxSeq := (x.rxSeq + 1) % 65536, buffered := x.buffered.set c (x.buffered[c] + 1) }).assemble link f
      if bitAt (byteAt f 6) 0 then s.resend link else s

/-- REPLAY_TIMEOUT: ACK has not advanced for 5 µs (R418). -/
def execReplayTimeout (link : LinkIx) (s : State) : Result := s.act fun s =>
  if (s.link link).state = .linked && !(s.link link).replay.isEmpty then s.resend link else s

/-- REPLAY_PROGRESS_TIMEOUT: 100 µs without progress while flits are not acknowledged (R418). -/
def execReplayProgressTimeout (link : LinkIx) (s : State) : Result := s.act fun s =>
  if (s.link link).state = .linked && !(s.link link).replay.isEmpty then s.linkRetrain link else s

/-! ### Messages that have arrived (R421 to R432) -/

/-- Take the first whole message of a type, and for MGMT of a subtype; its flits leave the receive buffer (R419). -/
def State.takeMsg (s : State) (l : LinkIx) (p : List Byte → Bool) (f : State → List Byte → State) : State :=
  match (s.link l).inbox.find? fun m => p m.2 with
  | none => s
  | some m => f (s.modLink l fun x => { x with inbox := x.inbox.erase m }.passOn ⟨m.1 % 4, Nat.mod_lt _ (by decide)⟩ (ceilDiv m.2.length 244)) m.2

/-- Is a message of a type? -/
def isType (t : Nat) (m : List Byte) : Bool := byteAt m 1 == t
/-- Is it a MGMT message of a subtype? -/
def isMgmt (sub : Nat) (m : List Byte) : Bool := byteAt m 1 == 6 && byteAt m 3 == sub

/-- The group that a 48-bit LGN names: the nearest to the present one. -/
def State.extGroup (s : State) (lgn : Nat) : Int := s.nowGroup + toSigned 48 ((lgn + 2 ^ 48 - mod48 s.nowGroup) % 2 ^ 48)

/-- Has the line trigger come that follows the completion of group g + n (R427)? -/
def State.pastDone (s : State) (g : Int) (n : Nat) : Bool := s.groupDone g n && decide ((g + (n : Int) + 1) * s.lineGroup + s.alongMax < s.web.x)

/-- Advance a channel's order of groups (R427): over written ones and, where `gaps`, over those whose deadline has passed. Its result: the next group, the
later ones written, those passed over, and the newest written group reached. -/
def State.orderGroups (s : State) (dl : Nat) (gaps : Bool) : Nat → HaloCh → Option Int → HaloCh × Option Int
  | 0, h, r => (h, r)
  | n + 1, h, r =>
    if h.written.contains h.next then
      s.orderGroups dl gaps n { h with next := h.next + 1, written := h.written.filter (· != h.next) } (some h.next)
    else if gaps && s.pastDone h.next dl then s.orderGroups dl gaps n { h with next := h.next + 1, passed := (h.next :: h.passed).take 16 } r
    else (h, r)

/-- Set RX_SYNC of a channel as far as its order has come (R427); gaps are passed at the line trigger that follows their deadline. -/
def State.rxOrder (s : State) (l : LinkIx) (ch : Fin 4) (gaps : Bool) : State :=
  let h := (s.link l).chans[ch]
  let steps := match s.web.completeGroup with
    | some c => (c - h.next).toNat + h.written.length + 2
    | none => h.written.length + 1
  let r := s.orderGroups (hchDeadline s l ch) gaps steps h none
  let s := s.modChan l ch fun _ => r.1
  match r.2 with
  | some g => (s.setSync (bits (s.reg (Reg.hchSync l ch)) 29 16) (lgn32 g)).setReg (Reg.hchLastRx l ch) (lgn32 g)
  | none => s

/-- Element k of packed codes of w bits. -/
def packedCode (bs : List Byte) (w k : Nat) : Nat := if w = 4 then byteAt bs (k / 2) / 16 ^ (k % 2) % 16 else byteAt bs k
/-- Codes of w bits packed into bytes. -/
def packCodes (w : Nat) : List Nat → List Byte
  | [] => []
  | [a] => [BitVec.ofNat 8 a]
  | a :: b :: r => if w = 4 then BitVec.ofNat 8 (a + 16 * b) :: packCodes w r else BitVec.ofNat 8 a :: packCodes w (b :: r)

/-- Convert halo data of tensor t from the producer's entries to the device's own slot of group g, each element from its exact value with one
rounding (R145, R166); and the number of special codes among it (R137). -/
def State.requantise (s : State) (t : Nat) (g : Int) (entries data : List Byte) : List Byte × Nat :=
  let fmt := s.od (Od.trkFormat t)
  let w := fmtBits fmt
  let chans := max 1 (s.od (Od.trkChannels t))
  let size := max 1 (s.od (Od.trkGroupSize t))
  let cells := (List.range (data.length * 8 / w)).map fun k =>
    let j := k % chans / size
    let e := fieldAt entries (4 * j) 4
    let v := exactValue fmt ⟨e % 65536, e / 65536 % 256, bitAt e 24⟩ (packedCode data w k)
    ((quantise fmt (s.trkScaling t g j) v.1).code, v.2.special)
  (packCodes w (cells.map Prod.fst), (cells.map Prod.snd).sum)

/-- Write an accepted message's data and then its tag into the receive slot of group g (R426). -/
def State.rxSlot (s : State) (l : LinkIx) (ch : Fin 4) (g : Int) (data : List Byte) : State :=
  let a := hchSlot s l ch (s.reg (Reg.hchRxBase l ch)) g
  let s := (s.writeOasis (a + 64) data).writeOasis a (leBytes 6 (s.groupLsn g))
  (s.modChan l ch fun h => { h with written := h.written ++ [g] }).rxOrder l ch false

/-- A HALO or CTXEDGE message takes effect at its EOM (R426). -/
def State.haloRx (s : State) (l : LinkIx) (m : List Byte) (tracked : Bool) : State :=
  let ch : Fin 4 := ⟨byteAt m 3 % 4, Nat.mod_lt _ (by decide)⟩
  let g := s.extGroup (fieldAt m 8 6)
  let b := m.drop 16
  let t := hchTensor s l ch
  if !s.dev.state.live || !hchEnabled s l ch || hchTracked s l ch != tracked then s
  else if s.groupDone g (hchDeadline s l ch) then (s.count64 (Reg.linkLateMsgs l) 1).sideLimited 0x80 l fun u => u.statusEvent 5 l 0xFF 0x80 0
  else if bitAt (byteAt m 14) 0 then s.count32 (Reg.hchAbsent l ch) 1
  else if !tracked then s.rxSlot l ch g b
  else if byteAt b 0 != t || fieldAt b 2 2 != s.trkGroups t then s
  else
    let n := fieldAt b 2 2
    let s := s.needSlot t g
    let r := s.requantise t g ((b.drop 8).take (4 * n)) (b.drop (8 + 4 * n))
    (s.countQ { x := { special := r.2 } }).rxSlot l ch g r.1

/-- HALO_MSG_RX: requantised into the receive slot (R166, R426). -/
def execHaloMsgRx (link : LinkIx) (s : State) : Result := s.act fun s => s.takeMsg link (isType 1) fun s m => s.haloRx link m true

/-- CTXEDGE_MSG_RX: copied unchanged into the receive slot (R426). -/
def execCtxedgeMsgRx (link : LinkIx) (s : State) : Result := s.act fun s => s.takeMsg link (isType 5) fun s m => s.haloRx link m false

/-- HALO_CHANNEL_DEADLINE: at the line trigger that follows the completion of group lgn + DEADLINE, later groups no longer wait for lgn (R427). -/
def execHaloChannelDeadline (link : LinkIx) (ch : Fin 4) (lgn : Int) (s : State) : Result := s.act fun s =>
  if s.dev.state.live && hchEnabled s link ch && s.pastDone lgn (hchDeadline s link ch) then s.rxOrder link ch true else s

/-- TOKENS_MSG_RX: the tokens are written into their slot, and the message goes on over the other link; a frozen slot takes neither (R306, R308, R429).
DESIGN CHOICE (log entry 155): outside ARMED, RUN and HOLD, or with no token table in use, they are only sent on. -/
def execTokensMsgRx (link : LinkIx) (s : State) : Result := s.act fun s => s.takeMsg link (isType 2) fun s m =>
    let g := s.extGroup (fieldAt m 8 6)
    let other := otherLink link
    let send := !s.tokClosed g && (s.link other).state == .linked
    let s := if s.tokClosed g || (s.dev.state.live && s.od Od.tokTokPerStripe != 0) then s.tokWrite g (fieldAt m 16 2) (m.drop 24) else s
    if send then s.modLink other fun x => { x with queue := x.queue ++ [{ cls := 2, lgn := fieldAt m 8 6, own := false, bytes := m, gone := 0 }] } else s

/-- BOXES_MSG_RX: a neighbour's border set is kept for its group, or is late (R290, R291). -/
def execBoxesMsgRx (link : LinkIx) (s : State) : Result := s.act fun s => s.takeMsg link (isType 3) fun s m =>
  if !s.dev.state.live then s
  else
    let g := s.extGroup (fieldAt m 8 6)
    let n := fieldAt m 16 2
    let late := s.groupDone g 2 || (match s.det.last with
      | some l => decide (g < l) || (g == l && !s.shortGroup g)
      | none => false)
    if late then (s.count32 Reg.detLateBoxes 1).detStatusEvent 16 g
    else
      let bs := (List.range n).map fun i => readBox ((m.drop (24 + 32 * i)).take 32)
      let s := s.modDet fun d => { d with sets := { side := link, g := g, boxes := bs } :: d.sets.filter fun x => !(x.side == link.val && x.g == g) }
      match s.det.slots.find? fun d => d.g == g && d.kept.isSome with
      | some d => s.mergeIfReady d
      | none => s

/-- BARRIER_MSG_RX: the neighbour's LSN is compared with the device's own (R432). Its group is the newest heard of: the present one, or the one before. -/
def execBarrierMsgRx (link : LinkIx) (s : State) : Result := s.act fun s => s.takeMsg link (isType 4) fun s m =>
  let rx := fieldAt m 16 6
  let now := s.nowGroup
  let s := s.modLink link fun x => { x with barrierAt := max (now - 1) (min now (s.extGroup (fieldAt m 8 6))) }
  let d := toSigned 48 ((rx + 2 ^ 48 - s.web.lastLsn) % 2 ^ 48)
  if -1 ≤ d ∧ d ≤ 1 then s
  else
    let s := ((s.countOd Od.chainLsnMismatch 1).raiseInt .side 0x100).event 5 0x11 (leBytes 1 link ++ [0] ++ leBytes 6 rx ++ leBytes 6 s.web.lastLsn)
    if s.od Od.chainBarrierAction = 1 && s.dev.state.ready && s.dev.safeCause.isNone then { s with dev := { s.dev with safeCause := some 2 } } else s

/-- NEIGHBOUR_SILENT: the BARRIERs of three line groups in a row, all of them over, have not come; HOLD counts no silence (R432). -/
def execNeighbourSilent (link : LinkIx) (s : State) : Result := s.act fun s =>
  let now := s.nowGroup
  if (s.dev.state = .armed || s.dev.state = .run) && (s.link link).state = .linked && (s.link link).barrierAt + 4 ≤ now then
    (s.modLink link fun x => { x with barrierAt := now - 1 }).sideStatus 0x200 link
  else s

/-- CHAIN_MSG_RX: the last two bodies are kept; a digest that newly differs raises CHAIN_CHANGE (R430). -/
def execChainMsgRx (link : LinkIx) (s : State) : Result := s.act fun s => s.takeMsg link (isMgmt 1) fun s m =>
  let b := m.drop 16
  let own := s.chainDigest
  let before := match (s.link link).chain with
    | p :: _ => fieldAt p 12 8 != own
    | [] => false
  let s := s.modLink link fun x => { x with chain := b :: x.chain.take 1 }
  if fieldAt b 12 8 != own && !before then s.sideStatus 0x400 link else s

/-- CHAIN_MSG_SEND: every 100 µs, and within 1 µs of a change (R430). -/
def execChainMsgSend (link : LinkIx) (s : State) : Result := s.act fun s =>
  if (s.link link).state = .linked then s.queueMsg link 6 1 0 0 (s.chainBody link) else s

/-- PING_SEND: one each 1 ms (R422). -/
def execPingSend (link : LinkIx) (s : State) : Result := s.act fun s =>
  if (s.link link).state = .linked then s.queueMsg link 6 2 0 0 (leBytes 8 s.dt) else s

/-- PING_RX: answered with a PONG that carries its DT (R422). -/
def execPingRx (link : LinkIx) (s : State) : Result := s.act fun s => s.takeMsg link (isMgmt 2) fun s m =>
  s.queueMsg link 6 3 0 0 ((m.drop 16).take 8)

/-- PONG_RX: the round trip of the latest PONG (R422). -/
def execPongRx (link : LinkIx) (s : State) : Result := s.act fun s => s.takeMsg link (isMgmt 3) fun s m =>
  s.setOd (Od.linkRtt link) ((s.dt + 2 ^ 64 - fieldAt m 16 8) % 2 ^ 64 % 2 ^ 32)

end Sys2Proof.Machine
end

