-- ==== Sys2Proof/Machine/RegViews.lean ====
section
/-! DEFINITION. What a read of a BAR0 register returns where its value is computed from other state, block by block (R96, R129, R226, R298, R330, R364
to R366, R405, R435, R477, R481, R507, R533, R561, R592, R593). -/

namespace Sys2Proof.Machine

/-- The states of a port as CAM_STATUS.STATE (R96). -/
def PortState.code : PortState → Nat
  | .down => 0
  | .discovery => 1
  | .idle => 2
  | .frame => 3
  | .line => 4
  | .failed => 5

/-- An entry's value as a register of 32 bits shows it: at the register's largest value where it is larger. -/
def State.od32 (s : State) (key : Nat) : Nat := min (s.odView key) (2 ^ 32 - 1)

/-- GLB (R477, R507). -/
def State.viewGlb (s : State) (o : Nat) : Option Nat := match o with
  | 0x0 => some identWord
  | 0x4 => some (s.dev.state.code + 8 * s.od Od.devOwner + 16 * bit s.dev.request.isSome)
  | 0x10 => some (s.pcie.speed.toNat + 2 ^ 4 * s.pcie.width.toNat + 2 ^ 9 * bit s.pcie.ptmEnable + 2 ^ 10 * bit s.pcie.busMaster + 2 ^ 11 * bit s.pcie.d3hot)
  | 0x74 => some (s.reg Reg.glbResetStatus % 2 + 2 ^ 8 * s.pwr.reason)
  | 0x418 => some (s.reg Reg.glbOdMbStatus / 2 * 2 + bit s.doors.mbBusy)
  | _ => none

/-- CAM (R96). Lanes below LANE_COUNT of an enabled port are in use. DESIGN CHOICE (log entry 132): owed rows above 1,023 show as 1,023. -/
def State.viewCam (s : State) (c : PortIx) (o : Nat) : Option Nat :=
  let p := s.port c
  match o with
  | 0x0 => some (p.state.code + 2 ^ 3 * bit (s.camEnabled c) + 2 ^ 4 * bit p.fifoHigh + 2 ^ 5 * bit p.hbOk +
      2 ^ 6 * bit (s.odFlag (Od.engLightOk (c / 4))) + 2 ^ 7 * bit (s.portPendingBits c != 0) + 2 ^ 8 * s.od (Od.portDiscCode c))
  | 0x4 => some (p.locks.toNat + 2 ^ 4 * (if s.camEnabled c then 2 ^ s.od (Od.portLaneCount c) - 1 else 0))
  | 0x10 => some p.fifo
  | 0x18 => some (s.pendCount c + 2 ^ 16 * min p.owed 1023)
  | _ => none

/-- The per-port registers of FS (R129). -/
def State.viewFsPort (s : State) (c : PortIx) (o : Nat) : Option Nat :=
  let f := s.fsPort c
  match o with
  | 0x10 => some (s.ringFree c)
  | 0x18 => some (mod48 f.wrpos % 2 ^ 32)
  | 0x1C => some (mod48 f.wrpos / 2 ^ 32)
  | 0x2C => some f.mpLevel
  | _ => none

/-- FS (R129). DESIGN CHOICE (log entry 133): FS_TBL_STATUS.USED is the sum modulo 2^18. -/
def State.viewFs (s : State) (k : SliceIx) (o : Nat) : Option Nat :=
  let ports := (List.finRange 4).map (portOf k)
  let mask := fun (p : PortIx → Bool) => maskOf 4 fun i => p (portOf k ⟨i % 4, Nat.mod_lt _ (by decide)⟩)
  let inl := s.od (Od.fsInlinePort k)
  if 0x1000 ≤ o then s.viewFsPort (portOf k ⟨(o - 0x1000) / 0x100 % 4, Nat.mod_lt _ (by decide)⟩) (o % 0x100)
  else match o with
  | 0x0 => some (bit (s.slice k).run.isSome + 2 * bit (ports.any s.isInline) + 2 ^ 2 * (if ports.any s.isInline then inl else 0) + 2 ^ 4 * mask s.isMp +
      2 ^ 8 * mask fun c => (s.fsPort c).shed)
  | 0x110 => some (mask (fun c => (s.fsPort c).tablePending) + 2 ^ 4 * mask (fun c => (s.fsPort c).copyBusy) + 2 ^ 8 * bit (s.slice k).initBusy +
      2 ^ 12 * (((ports.filter s.camEnabled).map s.tableEntries).sum % 2 ^ 18))
  | _ => none

/-- CORE_STATUS.PHASE. -/
def CorePhase.code : CorePhase → Nat
  | .idle => 0
  | .load => 1
  | .compute => 2
  | .writeout => 3

/-- A cycle counter that is kept in 1/1000 cycle (R226). -/
def countOf (n : Nat) : Nat := min (n / 1000) (2 ^ 64 - 1)

/-- CORE (R226). A core that is powered down shows 0 in FREQ_ACTUAL and OPE_STATUS. Where an OPE is out of service, EXCL_A and EXCL_B are the low bits of
TRIM_MAP's bytes. -/
def State.viewCore (s : State) (k : CoreIx) (o : Nat) : Option Nat :=
  let c := s.core k
  let on := s.pwr.cores.getLsbD k
  let serves := s.coreInService k
  if 0x1000 ≤ o then some (c.slots.getD ((o - 0x1000) / 8) 0)
  else if 0x40 ≤ o ∧ o < 0x60 then
    let u := 8 * k.val + (o - 0x40) / 4
    some ((s.colMap u).1 % 64 + 2 ^ 8 * ((s.colMap u).2 % 64) + 2 ^ 16 * bit (s.thirdFault u))
  else match o with
  | 0x0 => some ((if serves then c.phase.code else 5) + 2 ^ 3 * bit c.parked + 2 ^ 4 * bit serves + 2 ^ 5 * bit on + 2 ^ 6 * bit (c.sand.any fun l => l != 0) +
      2 ^ 7 * bit (on && c.mhz != s.coreMhz k))
  | 0xC => some (s.od (Od.corePark k))
  | 0x10 => some (s.od (Od.coreFreqTarget k))
  | 0x14 => some (if on then c.mhz + 2 ^ 16 * s.freqCap k else 0)
  | 0x20 => some (if on then c.opes.toNat + 2 ^ 8 * c.quad.toNat + 2 ^ 16 * c.trimBusy.toNat else 0)
  | 0x24 => some (match c.tile with
    | some t => t.tsn
    | none => 0)
  | 0x28 => some (match c.tile with
    | some t => t.tag + 2 ^ 16
    | none => 0)
  | 0x2C => some (match c.resident with
    | r :: _ => r.1 + 2 ^ 31
    | [] => 0)
  | 0x100 => some (countOf c.cycles)
  | 0x108 => some (countOf c.loadCycles)
  | 0x110 => some (countOf c.computeCycles)
  | 0x118 => some (countOf c.writeoutCycles)
  | 0x158 => some (s.od (Od.coreTilesRun k))
  | 0x160 => some (s.od (Od.coreTilesAbandoned k))
  | _ => none

/-- A cross-device step waits for the border set of a link (R290, R298). -/
def State.detWaits (s : State) (l : LinkIx) : Bool :=
  s.det.slots.any fun d => d.kept.isSome && s.neighbours.contains l && !s.det.sets.any fun x => x.side == l.val && x.g == d.g

/-- DET (R298). A group's slot is the one of its number modulo 8. -/
def State.viewDet (s : State) (o : Nat) : Option Nat :=
  if o = 0 then
    some (maskOf 8 (fun i => s.det.slots.any fun d => (d.g % 8).toNat == i) + 2 ^ 9 * bit (s.detWaits 0) + 2 ^ 10 * bit (s.detWaits 1))
  else none

/-- CTX (R330). -/
def State.viewCtx (s : State) (o : Nat) : Option Nat :=
  let waits := fun (op : Nat) => (List.finRange 32).any fun k => match (s.core k).tile with
    | some t => (match t.ctxq with
      | o :: _ => bits o.word 231 228 == op
      | [] => false)
    | none => false
  if 0x100 ≤ o then
    let p := (o - 0x100) / 4
    some (s.od (Od.periodPhaseBin p) % 2 ^ 11 + 2 ^ 16 * s.od (Od.periodEpoch p) + 2 ^ 24 * s.od (Od.periodEnable p))
  else match o with
  | 0x0 => some (bit (s.ctx.clearing != 0) + 2 * bit (waits 5) + 4 * bit (waits 2) + 8 * bit (!s.ctx.batches.isEmpty))
  | 0x10 => some s.ctx.clearing.toNat
  | 0x20 => some (s.od32 Od.ctxLookups)
  | 0x28 => some (s.od32 Od.ctxUpdates)
  | 0x2C => some (s.od32 Od.ctxSkipped)
  | 0x30 => some (s.od32 Od.ctxSaturated)
  | 0x40 => some (s.od32 Od.tokTokMissing)
  | 0x48 => some (s.od32 Od.stateStateStale)
  | 0x4C => some (s.od32 Od.stateStateNone)
  | _ => none

/-- Is the run-ahead of some queue stopped (R350)? -/
def State.runaheadStopped (s : State) : Bool :=
  (List.range 64).any fun q => (s.runaheadNext [] (s.queueCmds q) (max 1 (bits (s.reg Reg.streamCtrl) 6 0))).2

/-- STREAM (R364). The EXT_FULL bits are stored. -/
def State.viewStream (s : State) (o : Nat) : Option Nat :=
  if 0x1000 ≤ o then
    (if o % 0x40 = 0x18 then some (s.fsPort (portIx ((o - 0x1000) / 0x40))).ext.length else none)
  else match o with
  | 0x0 => some (bit s.runaheadStopped + 2 * bit s.cmd.regCopy.isSome + 4 * bit s.cmd.spoolHigh + 8 * bit s.spoolWaiting +
      ((List.finRange 4).map fun (k : SliceIx) => 2 ^ (4 + k.val) * bit ((List.finRange 4).any fun i => s.extFull (portOf k i))).sum)
  | 0x18 => some s.cmd.spoolUsed.length
  | _ => none

/-- DRAMC (R366). -/
def State.viewDramc (s : State) (o : Nat) : Option Nat :=
  if o = 0 then
    let done := s.od Od.dramDramState == 2
    some (bit done + 2 * bit (bitAt (s.reg Reg.dramcStatus) 1) + 4 * bit (done && bitAt (s.reg Reg.dramcScrubCtrl) 0) + 2 ^ 8 * (s.od Od.thermTStack % 256))
  else none

/-- CQ_STATUS (R405): WAITING while a command of the queue, started or held by FLAGS.WAIT, waits for a synchronisation object, BARRIER while its next
command waits for the earlier ones. -/
def State.viewQueue (s : State) (q : Nat) : Nat :=
  let cs := s.queueCmds q
  let waiting := (cs.any fun c => c.stage == .waiting) || (cs.find? fun c => c.stage = .read).any fun c => !s.waitOpen c
  let barrier := match cs.find? fun c => c.stage = .read with
    | some c => c.flag 0 && !((cs.takeWhile fun x => x.index != c.index).isEmpty)
    | none => false
  s.reg (Reg.cqStatus q) / 2 * 2 % 16 + bit (s.reg (Reg.cqSlots q) != 0) + 2 ^ 4 * bit waiting + 2 ^ 5 * bit barrier

/-- RES_STATUS (R405). -/
def State.viewResult (s : State) (r : ResIx) : Nat :=
  let owed := s.cmd.owed.any fun m => m.ring == r.val
  match s.boundJobs.find? fun x => x.2.outs.any fun o => o.ring == r.val with
  | some (tag, j) =>
    1 + 2 * tag + 2 ^ 13 * bit (!s.ringSpace (.result r) && (owed || j.outs.any fun o => o.ring == r.val && (!o.ready.isEmpty || !o.missed.isEmpty)))
  | none => 2 ^ 13 * bit (!s.ringSpace (.result r) && owed)

/-- The oldest group of a job that is not wholly drawn (R405), within its window. -/
def State.nextGroup (s : State) (j : Job) : Int :=
  let undrawn := fun (g : Int) => [false, true].any fun p => s.partExists g p && (List.range s.stripes).any fun st =>
    (j.tile g p st).insts.isEmpty && !s.tileOver j (j.tile g p st)
  match (s.jobWindow j).find? undrawn with
  | some g => g
  | none => ((s.jobWindow j).getLast?).getD ((s.jobFirst j).getD 0)

/-- WELL_STATUS, WELL_NEXT and WELL_REISSUE (R405). -/
def State.viewWell (s : State) (w o : Nat) : Nat :=
  match s.boundJobs.find? fun x => x.2.well == w with
  | none => 0
  | some (tag, j) =>
    let g := s.nextGroup j
    match o with
    | 0x0 => 1 + 2 * tag + 2 ^ 13 * bit (match j.gate with
        | some (b, v) => !s.groupWaitHolds b ((lgn32 g + v) % 2 ^ 32) (s.jobFirst j)
        | none => false)
    | 0x4 => mod48 g % 2 ^ 32
    | 0x8 => mod48 g / 2 ^ 32
    | _ => (j.tiles.filter fun t => t.reissue && !s.tileOver j t).length % 2 ^ 11

/-- CMD (R405). -/
def State.viewCmd (s : State) (o : Nat) : Option Nat :=
  if 0x4000 ≤ o then some (s.viewWell ((o - 0x4000) / 0x10) (o % 0x10))
  else if 0x2000 ≤ o then (if o % 0x40 = 0x20 then some (s.viewResult ⟨(o - 0x2000) / 0x40 % 64, Nat.mod_lt _ (by decide)⟩) else none)
  else if 0x1000 ≤ o then (if o % 0x40 = 0x14 then some (s.viewQueue ((o - 0x1000) / 0x40)) else none)
  else match o with
  | 0x0 => some (s.cmd.cmds.length + 2 ^ 13 * bit ((List.range 64).any fun q => s.reg (Reg.cqStatus q) == 14))
  | 0x14 => some (s.reg Reg.cmdAbortStatus / 2 * 2 + bit s.cmd.abortBusy)
  | 0x84 => some (s.sync (s.reg Reg.cmdSyncIndex))
  | 0x100 => some (s.od Od.jobLeasesExpired)
  | 0x108 => some (s.od Od.jobTilesReissued)
  | 0x110 => some (s.od Od.jobDupDiscarded)
  | 0x118 => some (s.od Od.jobTilesCancelled)
  | 0x120 => some (s.od Od.jobHaloSubstituted)
  | 0x128 => some (s.od Od.jobEventsLost)
  | _ => none

/-- The registers of a link (R435). The credits of a link that carries no flits read 0. -/
def State.viewLinkRegs (s : State) (l : LinkIx) (o : Nat) : Option Nat :=
  let x := s.link l
  let flows := x.state == .linked || x.state == .retrain
  match o with
  | 0x0 => some (x.state.code + 2 ^ 3 * bit x.light + 2 ^ 4 * s.od (Od.linkFailCode l) + 2 ^ 8 * x.active.toNat + 2 ^ 16 * x.locked.toNat)
  | 0x8 => some (s.od (Od.linkPartnerIdent l))
  | 0xC => some (s.od (Od.linkRtt l))
  | 0x10 => some (if flows then ((List.finRange 4).map fun (c : Fin 4) => 2 ^ (8 * c.val) * min (x.credits c) 255).sum else 0)
  | _ => none

/-- SIDE (R435). -/
def State.viewSide (s : State) (o : Nat) : Option Nat :=
  if 0x1000 ≤ o then s.viewLinkRegs (linkIx ((o - 0x1000) / 0x400)) (o % 0x400)
  else if o = 0 then
    some (s.positionView + 2 ^ 8 * (min s.chainLength 31) +
      (if s.dev.state.ready then 2 ^ 13 * bit s.chainSettled + 2 ^ 14 * bit s.digestOk else 0))
  else none

/-- CARAVAN (R481). -/
def State.viewCrv (s : State) (o : Nat) : Option Nat :=
  let seat := s.od Od.crvSeat
  match o with
  | 0x0 => some (bit s.crv.port0Up + 2 * bit s.crv.port1Up + 4 * bit s.turnaround + 8 * bit s.crv.mac.isSome +
      16 * bit (s.crv.armed && !s.crv.expired) + 2 ^ 5 * s.od Od.crvTimeState + (if seat = 0xFF then 0 else 2 ^ 8 * seat + 2 ^ 14) + 2 ^ 16 * s.od Od.crvStation)
  | 0x1C => some (s.crv.mac.getD 0 % 2 ^ 32)
  | 0x20 => some (s.crv.mac.getD 0 / 2 ^ 32)
  | 0x24 => some s.doors.schedule.length
  | 0x28 => some s.crv.tickets.length
  | _ => none

/-- TRIM (R533). -/
def State.viewTrim (s : State) (o : Nat) : Option Nat :=
  if 0x400 ≤ o ∧ o < 0x500 then
    let c := portIx ((o - 0x400) / 0x10)
    let f := (s.fsPort c).ff
    (match o % 0x10 with
    | 0x0 => some (f.stage.code + 2 ^ 8 * min f.lines (2 ^ 17 - 1))
    | 0x4 => some (f.rampLsn % 2 ^ 32)
    | 0x8 => some (f.rampLsn / 2 ^ 32)
    | _ => some f.clampedLast)
  else if 0x20 ≤ o ∧ o < 0x38 then
    let due := s.trim.due.filter fun x => x.kind == (o - 0x20) / 4
    some (due.length + 2 ^ 16 * (due.filter fun x => x.overdue).length)
  else match o with
  | 0x0 => some (bit (!s.trim.running.isEmpty) + 2 * min s.trim.running.length 2047 + 2 ^ 12 * maskOf 6 s.trimOpen)
  | 0x100 => some (s.od Od.trimItemsDone)
  | _ => none

/-- The smallest of a list of caps. -/
def lowestCap (l : List Nat) : Nat := l.foldl min 2200

/-- PWRCLK (R561). -/
def State.viewPwr (s : State) (o : Nat) : Option Nat := match o with
  | 0x0 => some (bit s.pwr.warning + 2 * bit (s.pwr.dip || s.pwr.limitFast) + 4 * bit s.pwr.limitFast + 8 * bit (decide (s.pwr.limiterCap < 2200)) +
      16 * bit (!s.pwr.therm.capSensors.isEmpty) + 32 * bit s.pwr.therm.stackCap + 64 * bit s.pwr.avsRequested.isSome + 2 ^ 7 * s.od Od.dramDramState)
  | 0xC => some (s.vt + s.reg Reg.pwrVdd / 2 ^ 16 * 2 ^ 16)
  | 0x10 => some s.pwr.cores.toNat
  | 0x14 => some (s.pwr.slices.toNat + 2 ^ 4 * s.pwr.quadrants.toNat + 2 ^ 8 * s.pwr.engines.toNat + 2 ^ 14 * bit s.pwr.detection + 2 ^ 15 * bit s.pwr.pcie)
  | 0x18 => some (lowestCap s.pwr.warnCaps.toList + 2 ^ 16 * s.pwr.limiterCap)
  | 0x1C => some (lowestCap s.pwr.therm.caps.toList + 2 ^ 16 * s.pwr.avsCap)
  | 0x20 => some (s.pwr.reason + 2 ^ 8 * s.pwr.prevReason + 2 ^ 16 * s.pwr.rail + 2 ^ 20 * min s.pwr.resets 4095)
  | 0x24 => some (s.od Od.plPowerNow + 2 ^ 16 * s.pwr.lastMean)
  | 0x100 => some (s.od Od.vddWarnCount)
  | 0x108 => some (satAdd 64 (s.reg Reg.pwrStretchNs) (match s.pwr.stretchSince with
      | some t => s.dt - t
      | none => 0))
  | _ => none

/-- SAFFRON (R592). FLASH_BUSY holds while an operation that writes flash runs. -/
def State.viewSaf (s : State) (o : Nat) : Option Nat :=
  if 0x200 ≤ o then some (fieldAt (padTo 64 (s.blob Od.safImageDigest)) (o - 0x200) 4)
  else match o with
  | 0x0 => some ((match s.saf.image with
      | some i => i.slot
      | none => 3) + 4 * bit s.saf.image.isSome + 8 * bit s.saf.attesting.isSome + 16 * bit (s.saf.op.any fun p => p.op == 2 || p.op == 3) +
      2 ^ 5 * s.saf.revoked.toNat)
  | 0x20 => some (s.od Od.safAuthResult)
  | 0x24 => some (s.od Od.safSecVersion % 128 + 2 ^ 16 * s.saf.secFused)
  | 0x28 => some (s.od Od.safBootCount)
  | _ => none

/-- LEDGER (R593). -/
def State.viewLedger (s : State) (o : Nat) : Option Nat :=
  let head := s.ledger.count - 1
  let slots := s.od Od.ledgerSpillSlots
  if 0x1000 ≤ o then some (fieldAt (padTo 128 s.ledger.readWindow) (o - 0x1000) 4)
  else if 0x100 ≤ o ∧ o < 0x120 then some (fieldAt (padTo 32 s.ledger.headHash) (o - 0x100) 4)
  else match o with
  | 0x0 => some (bit s.ledger.high + 2 * bit (slots != 0) +
      4 * bit (slots != 0 && decide (slots ≤ ringUsed (s.reg Reg.ledgerSpillPi) (s.reg Reg.ledgerSpillCi)) && decide (s.ledger.spilled < s.ledger.count)))
  | 0x10 => some (head % 2 ^ 32)
  | 0x14 => some (head / 2 ^ 32)
  | 0x18 => some s.ledgerUnretired
  | 0x30 => some (s.od Od.ledgerAckSeq % 2 ^ 32)
  | 0x34 => some (s.od Od.ledgerAckSeq / 2 ^ 32)
  | 0x210 => some (s.od Od.ledgerLost)
  | _ => none

/-- The computed value of a register, by block (R489). -/
def State.viewReg (s : State) (off : Nat) : Option Nat :=
  if off < 0x100000 then s.viewGlb off
  else if off < 0x200000 then s.viewCam (portIx ((off - 0x100000) / 0x10000)) (off % 0x10000)
  else if off < 0x300000 then s.viewFs ⟨(off - 0x200000) / 0x40000 % 4, Nat.mod_lt _ (by decide)⟩ (off % 0x40000)
  else if off < 0x2000000 then s.viewCore (coreIx ((off - 0x1000000) / 0x40000)) (off % 0x40000)
  else if off < 0x2100000 then s.viewStream (off - 0x2000000)
  else if off < 0x2200000 then (if off = 0x2100000 then some s.pwr.quadrants.toNat else none)
  else if off < 0x2300000 then s.viewDramc (off - 0x2200000)
  else if off < 0x2400000 then s.viewCmd (off - 0x2300000)
  else if off < 0x2500000 then s.viewCtx (off - 0x2400000)
  else if off < 0x2600000 then s.viewDet (off - 0x2500000)
  else if off < 0x2700000 then s.viewSide (off - 0x2600000)
  else if off < 0x2800000 then s.viewCrv (off - 0x2700000)
  else if off < 0x2900000 then s.viewTrim (off - 0x2800000)
  else if off < 0x2A00000 then s.viewPwr (off - 0x2900000)
  else if off < 0x2B00000 then s.viewSaf (off - 0x2A00000)
  else s.viewLedger (off - 0x2B00000)

/-- The value of a register as a read returns it: all its bits, at its first offset. -/
def State.regView (s : State) (off : Nat) : Nat := (s.viewReg off).getD (s.reg off)

end Sys2Proof.Machine
end

