-- ==== Sys2Proof/Machine/Saffron.lean ====
section
/-! DEFINITION. Saffron: the boot record, image verification, AUTH, attestation, firmware operations and the integrity check (R563 to R580), and
the ledger's spill ring and read window (R585 to R587). -/

namespace Sys2Proof.Machine

/-! ### The boot record (R565) -/

/-- A boot record copy's fields. -/
structure BootRecord where
  seq : Nat
  slot : Nat
  count : Nat
  deriving DecidableEq, Repr

/-- Read the flash; its free bytes do not change with the device's resets. -/
def State.readFlash (s : State) (a n : Nat) : List Byte := s.saf.flash.read spaceFlash 0 a n
/-- A valid copy: MAGIC, CHECK and the reserved fields are correct. -/
def parseRecord (b : List Byte) : Option BootRecord :=
  if fieldAt b 0 4 == 0x44524254 && zeroAt b 9 3 && zeroAt b 16 16 && digest (b.take 32) == (b.drop 32).take 32 then
    some ⟨fieldAt b 4 4, byteAt b 8, fieldAt b 12 4⟩
  else none

/-- The 64 bytes of a record. -/
def recordBytes (r : BootRecord) : List Byte :=
  let b := leBytes 4 0x44524254 ++ leBytes 4 r.seq ++ leBytes 1 r.slot ++ [0, 0, 0] ++ leBytes 4 r.count ++ List.replicate 16 0
  b ++ digest b

/-- The record in use and the copy that the next write goes to (R565). -/
def State.bootRecord (s : State) : BootRecord × Nat :=
  match parseRecord (s.readFlash 0 64), parseRecord (s.readFlash 0x10000 64) with
  | some a, some b => if precedes (BitVec.ofNat 32 a.seq) (BitVec.ofNat 32 b.seq) then (b, 0) else (a, 1)
  | some a, none => (a, 1)
  | none, some b => (b, 0)
  | none, none => (⟨0, 0, 0⟩, 0)

/-- Write a record over a copy. -/
def State.writeBootRecord (s : State) (copy : Nat) (r : BootRecord) : State := s.writeFlash (copy * 0x10000) (recordBytes r)

/-! ### Images (R566 to R570) -/

/-- A section: offset, length, target. -/
def sectionOf (h : List Byte) (i : Nat) : Nat × Nat × Nat :=
  (fieldAt h (0x60 + 8 * i) 4, fieldAt h (0x64 + 8 * i) 3, byteAt h (0x67 + 8 * i))

/-- The capacity of a target (R568); none for a target that does not exist. -/
def targetCapacity : Nat → Option Nat
  | 0 => some (2 ^ 20)
  | 1 => some (8 * 2 ^ 20)
  | 2 => some (2 ^ 20)
  | 3 => some (512 * 1024)
  | 4 => some (512 * 1024)
  | _ => none

/-- Reserved header fields zero and fields in range (R567, R570 step 4). -/
def headerFields (h : List Byte) : Bool :=
  let n := fieldAt h 0x0E 2
  let p := fieldAt h 0x10 4
  byteAt h 4 / 4 == 0 && decide (byteAt h 5 ≤ 3) && zeroAt h 6 2 && decide (fieldAt h 0x0C 2 ≤ 64) && decide (1 ≤ n) && decide (n ≤ 16) &&
  p % 64 == 0 && decide (64 ≤ p) && decide (p ≤ 16773120) && zeroAt h 0x14 12 && zeroAt h (0x60 + 8 * n) (128 - 8 * n) && zeroAt h 0xE0 32 &&
  (List.range n).all fun i => (sectionOf h i).1 % 64 == 0

/-- The sections of an image are valid (R568). -/
def sectionsValid (h : List Byte) : Bool :=
  let p := fieldAt h 0x10 4
  let l := (List.range (fieldAt h 0x0E 2)).map (sectionOf h)
  let apart := fun (i j : Nat) =>
    let a := l.getD i (0, 0, 0)
    let b := l.getD j (0, 0, 0)
    i == j || decide (a.1 + a.2.1 ≤ b.1) || decide (b.1 + b.2.1 ≤ a.1)
  (l.all fun x => decide (x.1 + x.2.1 ≤ p) && (targetCapacity x.2.2).isSome) &&
  ((List.range l.length).all fun i => (List.range l.length).all fun j => apart i j) &&
  (List.range 5).all fun t =>
    let mine := l.filter fun x => x.2.2 == t
    !mine.isEmpty && decide ((mine.map fun x => x.2.1).sum ≤ (targetCapacity t).getD 0)

/-- Verify an image (R570): its AUTH code. `read` gives bytes of the image; `whole` says that a payload of that many bytes can be read. -/
def State.verifyImage (s : State) (complete : Bool) (whole : Nat → Bool) (read : Nat → Nat → List Byte) : Nat :=
  let h := read 0 256
  let key := read 0x100 1793
  let p := fieldAt h 0x10 4
  if !complete then 2
  else if fieldAt h 0 4 != 0x57464654 then 3
  else if byteAt h 4 % 4 != 1 then 4
  else if !headerFields h then 5
  else if s.saf.revoked.getLsbD (byteAt h 5) || digest key != Config.keyDigest (byteAt h 5) then 6
  else if !Config.falconVerify key h (read 0x900 1280) then 8
  else if fieldAt h 0x0C 2 < s.saf.secFused then 9
  else if !whole p then 2
  else if shake256 (read 0x1000 p) 64 != (h.drop 0x20).take 64 then 10
  else if !sectionsValid h then 11
  else 1

/-- What a verified image's header says. -/
def runImageOf (slot : Nat) (h : List Byte) : RunImage :=
  { slot := slot, keyIndex := byteAt h 5, fwVersion := fieldAt h 8 4, secVersion := fieldAt h 0x0C 2, payloadDigest := (h.drop 0x20).take 64 }

/-- The AUTH code of a slot in flash. -/
def State.verifySlot (s : State) (boot slot : Nat) : Nat :=
  s.verifyImage (Config.flashReadCompletes boot slot) (fun _ => true) fun o n => s.readFlash (slotBase slot + o) n

/-! ### AUTH (R571, R572) -/

/-- Try the slots in order until one verifies: the codes and the slot. -/
def State.trySlots (s : State) (boot : Nat) : List Nat → (Nat → Nat) → (Nat → Nat) × Option Nat
  | [], codes => (codes, none)
  | x :: r, codes =>
    let c := s.verifySlot boot x
    let codes := fun i => if i = x then c else codes i
    if c = 1 then (codes, some x) else s.trySlots boot r codes

/-- The alias key's seed (R574). -/
def aliasSeed (payloadDigest : List Byte) : List Byte := shake256 (Config.deviceSecret ++ [2] ++ payloadDigest) 48
/-- The identity key's seed (R574). -/
def identitySeed : List Byte := shake256 (Config.deviceSecret ++ [1]) 48

/-- The alias certificate (R575), signed with the device identity key. -/
def aliasCert (i : RunImage) (seed : List Byte) : List Byte :=
  let body := [1, 2] ++ leBytes 2 i.secVersion ++ leBytes 4 identWord ++ leBytes 8 Config.serial.toNat ++ [0xFF] ++ List.replicate 15 0 ++
    i.payloadDigest.take 32 ++ padTo 1793 (Config.falconPublicKey seed) ++ List.replicate 63 0
  body ++ padTo 1280 (Config.falconSign identitySeed body)

/-- The boot entry of the ledger (R582 kind 11, R583): it starts the chain. -/
def State.bootEntry (s : State) (bootCount slot : Nat) (codes : Nat × Nat × Nat) (fw : Nat) (dig : List Byte) : State :=
  let g := digest (leBytes 8 Config.serial.toNat ++ leBytes 4 bootCount)
  let s := { s with ledger := { s.ledger with genesisPrev := g } }
  let aux := leBytes 1 s.pwr.reason ++ leBytes 1 slot ++ leBytes 1 codes.1 ++ leBytes 1 codes.2.1 ++ leBytes 1 codes.2.2 ++ [0, 0, 0] ++
    leBytes 4 bootCount ++ leBytes 4 fw
  s.ledgerAppend { kind := 11, len := 32, value := dig.take 32, lsn := s.web.lastLsn, aux := aux }

/-- The outcome of AUTH is recorded (R571 steps 3 and 4, R590). -/
def State.authOutcome (s : State) (bootCount : Nat) (codes : Nat × Nat × Nat) (img : Option RunImage) : State :=
  let seed := aliasSeed ((img.map fun i => i.payloadDigest).getD [])
  let s := { s with
    saf := { s.saf with image := img, codes := codes, aliasSeed := seed }
    dev := { s.dev with authEnded := true } }
  let s := (s.setOd Od.safBootCount bootCount).setOd Od.safAuthResult (codes.1 + 2 ^ 8 * codes.2.1 + 2 ^ 16 * codes.2.2)
  let s := match img with
    | some i =>
      let s := ((s.setOd Od.safBootSlot i.slot).setOd Od.safSecVersion i.secVersion).setOd Od.idFwVersion i.fwVersion
      (s.setBlob Od.safImageDigest i.payloadDigest).setBlob Od.safAliasCert (aliasCert i seed)
    | none => s.raiseInt .saf 4
  s.bootEntry bootCount ((img.map fun i => i.slot).getD 0xFF) codes ((img.map fun i => i.fwVersion).getD 0)
    ((img.map fun i => i.payloadDigest).getD [])

/-- AUTH_BEGIN: the boot ROM finishes; BOOT to AUTH is recorded in STATE_DT and STATE_LSN only (R470, R558). A self-test that fails skips AUTH, with code 12
for every slot, and is an AUTH failure (R571). -/
def execAuthBegin (s : State) : Result := s.act fun s =>
  if s.dev.state != .boot || !s.pwr.pcie || s.dev.authEnded then s
  else if !Config.selfTestPasses (s.bootRecord.1.count + 1) then (s.authOutcome 0 (12, 12, 12) none).leaveAuth
  else (({ s with dev := { s.dev with state := .auth } }).setOd Od.devStateDt s.dt).setOd Od.devStateLsn s.web.lastLsn

/-- AUTH_END: the boot record is written back once, the slots are tried in order, the outcome recorded, and the device leaves AUTH when DRAM is
done (R558, R571, R572). -/
def execAuthEnd (s : State) : Result := s.act fun s =>
  if s.dev.state != .auth || s.dev.authEnded then s
  else
    let (rec, copy) := s.bootRecord
    let count := (rec.count + 1) % 2 ^ 32
    let s := s.writeBootRecord copy { rec with seq := (rec.seq + 1) % 2 ^ 32, count := count }
    let pref := rec.slot % 2
    let (codes, slot) := s.trySlots count [pref, 1 - pref, 2] fun _ => 0
    let img := slot.map fun x => runImageOf x (s.readFlash (slotBase x) 256)
    (s.authOutcome count (codes 0, codes 1, codes 2) img).leaveAuth

/-! ### Firmware operations (R578, R579) -/

/-- SAF_CMD_STATUS. -/
def State.safStatus (s : State) (busy : Bool) (result code : Nat) : State :=
  s.setReg Reg.safCmdStatus (bit busy + 2 * result + 2 ^ 8 * code)

/-- An operation finishes: status, CMD_DONE, the event, and for operations 2 to 6 one ledger entry with origin host (R578, R591). -/
def State.safFinish (s : State) (op slot result code : Nat) : State :=
  let s := ({ s with saf := { s.saf with op := none } }).safStatus false result code
  let body := leBytes 1 op ++ leBytes 1 slot ++ leBytes 1 result ++ leBytes 1 code
  let s := (s.raiseInt .saf 1).event 9 0x11 body
  if 2 ≤ op && decide (op ≤ 6) then
    s.ledgerAppend { kind := 10, origin := .host, aux := body ++ leBytes 4 (s.od Od.idFwVersion), lsn := s.web.lastLsn }
  else s

/-- The image bytes that SAF_LOAD_ADDR and SAF_LOAD_LEN name, where the arguments are legal (R592). -/
def State.loadedImage (s : State) : Option (List Byte) :=
  let a := s.reg Reg.safLoadAddr
  let n := s.reg Reg.safLoadLen
  if 4160 ≤ n && decide (n ≤ 16777216) && decide (a + n ≤ oasisBytes) then some (s.readOasis a n) else none

/-- Does the Oasis range of the image hold no uncorrectable error? Poisoned data are no completed read (R336, R341, R570 step 1; DEDUCED, log entry 127). -/
def State.loadedClean (s : State) : Bool := !s.oasisPoisoned (s.reg Reg.safLoadAddr) (s.reg Reg.safLoadLen)

/-- The read pass of Oasis over the image (R341, R579). -/
def State.imageSeen (s : State) : State := match s.loadedImage with
  | some b => s.oasisSeen (s.reg Reg.safLoadAddr) b.length
  | none => s

/-- The verification of the image bytes that a read pass took. -/
def State.verifyBytes (s : State) (image : List Byte) (clean : Bool) : Nat :=
  s.verifyImage clean (fun p => decide (0x1000 + p ≤ image.length)) fun o n => (image.drop o).take n

/-- A write of SAF_CMD with an operation (R578, R573, R592). `start` gives a result to finish with at once, or the operation that runs. -/
def State.safCommand (s : State) (op : Nat) (value : W32) (start : State → Nat → Nat → Nat ⊕ SafOp) : State :=
  if !s.dev.state.ready then s
  else
    let s := { s with saf := { s.saf with cmdWritten := true } }
    let v := value.toNat
    if !bitAt v 16 || s.saf.op.isSome || v % 16 != op then s
    else
      let slot := bits v 5 4
      if (op == 5 || op == 6) && s.dev.state != .preop then s.safFinish op slot 1 0
      else match start s slot (bits v 15 8) with
        | .inl result => s.safFinish op slot result 0
        | .inr o =>
          let s := if op ≤ 2 then s.imageSeen else s
          ({ s with saf := { s.saf with op := some o } }).safStatus true 0 0

/-- SAF_VERIFY: verifies the image in Oasis (R578 operation 1). -/
def execSafVerify (value : W32) (s : State) : Result := s.act fun s => s.safCommand 1 value fun t slot key =>
  match t.loadedImage with
  | some b => .inr ⟨1, slot, key, b, t.loadedClean, false⟩
  | none => .inl 2

/-- SAF_PROGRAM: verifies the image in Oasis, then erases and programs SLOT and verifies it from flash; slot 2 needs KEY 0x5A (R578 operation 2).
What is programmed is what one read pass of Oasis took (R579). -/
def execSafProgram (value : W32) (s : State) : Result := s.act fun s => s.safCommand 2 value fun t slot key =>
  if 2 < slot then .inl 2
  else if slot = 2 && key != 0x5A then .inl 5
  else match t.loadedImage with
    | some b => .inr { op := 2, slot, key, image := b, clean := t.loadedClean, flashing := t.verifyBytes b t.loadedClean == 1 }
    | none => .inl 2

/-- SAF_SET_BOOT: verifies slot 0 or 1 from flash, then writes the boot record (R578 operation 3). -/
def execSafSetBoot (value : W32) (s : State) : Result := s.act fun s => s.safCommand 3 value fun _ slot key =>
  if 1 < slot then .inl 2 else .inr ⟨3, slot, key, [], true, false⟩

/-- SAF_REBOOT: with KEY 0xA5, a conventional reset with reason 0x08 (R578 operation 4). -/
def execSafReboot (value : W32) (s : State) : Result := s.act fun s =>
  let v := value.toNat
  if s.dev.state.ready && bitAt v 16 && s.saf.op.isNone && v % 16 == 4 && bits v 15 8 == 0xA5 then
    (s.safFinish 4 (bits v 5 4) 0 0).conventionalReset 8 0
  else s.safCommand 4 value fun _ _ _ => .inl 5

/-- SAF_COMMIT_VERSION: advances SEC_FUSED to the running image's SEC_VERSION (R578 operation 5). -/
def execSafCommitVersion (value : W32) (s : State) : Result := s.act fun s => s.safCommand 5 value fun _ slot key => .inr ⟨5, slot, key, [], true, false⟩

/-- SAF_REVOKE: sets REVOKED for KEY, only when it is below the running image's KEY_INDEX (R578 operation 6). -/
def execSafRevoke (value : W32) (s : State) : Result := s.act fun s => s.safCommand 6 value fun t slot key =>
  match t.saf.image with
  | some i => if key < i.keyIndex then .inr ⟨6, slot, key, [], true, false⟩ else .inl 2
  | none => .inl 2

/-- SAF_ATTEST: an attestation with the nonce in SAF_NONCE (R576, R578 operation 7). -/
def execSafAttest (value : W32) (s : State) : Result := s.act fun s =>
  let go := s.dev.state.ready && bitAt value.toNat 16 && s.saf.op.isNone && value.toNat % 16 == 7
  let s := s.safCommand 7 value fun _ _ _ => .inl 0
  if go then s.startAttestation ((List.range 8).flatMap fun i => leBytes 4 (s.reg (Reg.safNonce i))) else s

/-- SAF_OP_DONE: the operation in progress finishes; `flashOk` says that its flash accesses succeeded (R578, R579). -/
def execSafOpDone (flashOk : Bool) (s : State) : Result := s.act fun s =>
  match s.saf.op with
  | none => s
  | some o =>
    match o.op with
    | 1 =>
      let c := s.verifyBytes o.image o.clean
      s.safFinish 1 o.slot (if c = 1 then 0 else 3) c
    | 2 =>
      let c := s.verifyBytes o.image o.clean
      if c != 1 then s.safFinish 2 o.slot 3 c
      else
        let base := slotBase o.slot
        let s := { s with saf := { s.saf with flash := s.saf.flash.forget base (base + 0x1000000) } }
        if !flashOk then s.safFinish 2 o.slot 4 0
        else
          let s := s.writeFlash base o.image
          let c2 := s.verifyImage true (fun _ => true) fun a n => s.readFlash (base + a) n
          s.safFinish 2 o.slot (if c2 = 1 then 0 else 3) c2
    | 3 =>
      let c := s.verifyImage flashOk (fun _ => true) fun a n => s.readFlash (slotBase o.slot + a) n
      if !flashOk then s.safFinish 3 o.slot 4 0
      else if c != 1 then s.safFinish 3 o.slot 3 c
      else
        let (rec, copy) := s.bootRecord
        (s.writeBootRecord copy { rec with seq := (rec.seq + 1) % 2 ^ 32, slot := o.slot }).safFinish 3 o.slot 0 c
    | 5 =>
      let v := ((s.saf.image.map fun i => i.secVersion).getD 0)
      ({ s with saf := { s.saf with secFused := max s.saf.secFused v } }).safFinish 5 o.slot 0 0
    | 6 => ({ s with saf := { s.saf with revoked := s.saf.revoked ||| BitVec.ofNat 4 (2 ^ o.key) } }).safFinish 6 o.slot 0 0
    | _ => s.safFinish o.op o.slot 0 0

/-! ### Attestation (R576, R577) and integrity (R573) -/

/-- The first 256 bytes of a report (R577). -/
def State.reportBody (s : State) (nonce trimMap : List Byte) : List Byte :=
  let img := s.saf.image
  [1, 0, 0, 0] ++ leBytes 4 identWord ++ leBytes 8 Config.serial.toNat ++ padTo 32 nonce ++ leBytes 8 s.dt ++ leBytes 6 s.web.lastLsn ++
  leBytes 1 s.dev.state.code ++ leBytes 1 ((img.map fun i => i.slot).getD 0xFF) ++ leBytes 4 (s.od Od.idFwVersion) ++
  leBytes 4 Config.romVersion.toNat ++ leBytes 2 ((img.map fun i => i.secVersion).getD 0) ++ leBytes 2 s.saf.secFused ++
  leBytes 4 (s.od Od.safBootCount) ++ padTo 64 ((img.map fun i => i.payloadDigest).getD []) ++ leBytes 8 (s.ledger.count - 1) ++
  padTo 32 s.ledger.headHash ++ digest trimMap ++ leBytes 1 s.saf.revoked.toNat ++ leBytes 1 (s.od Od.devOwner) ++ List.replicate 38 0

/-- ATTESTATION_DONE: the signed report is ready (R576). -/
def execAttestationDone (s : State) : Result := s.act fun s =>
  match s.saf.attesting with
  | none => s
  | some nonce =>
    let body := s.reportBody nonce (s.blobView Od.trimTrimMap)
    let s := s.setBlob Od.safAttestReport (body ++ padTo 1280 (Config.falconSign s.saf.aliasSeed body))
    let s := ({ s with saf := { s.saf with attesting := none } }).setOd Od.safAttestState 2
    (s.raiseInt .saf 2).event 9 0x12 (padTo 8 nonce)

/-- INTEGRITY_CHECK: every 1 s the loaded memories are hashed again; `mismatch` names the target whose hash differs (R573). -/
def execIntegrityCheck (mismatch : Option Byte) (s : State) : Result := s.act fun s =>
  match mismatch with
  | none => s
  | some t =>
    if !s.dev.state.ready then s
    else
      let s := s.ledgerAppend { kind := 13, aux := [t], lsn := s.web.lastLsn }
      let s := (s.raiseInt .saf 8).event 9 0x15 [t]
      { s with saf := { s.saf with integrityPending := true, cmdWritten := false } }.causeSafe 6

/-- INTEGRITY_RESET_TIMEOUT: 100 ms after an integrity failure without a write of SAF_CMD, a conventional reset with reason 0x08 (R573). -/
def execIntegrityResetTimeout (s : State) : Result := s.act fun s =>
  if s.saf.integrityPending && !s.saf.cmdWritten then s.conventionalReset 8 0 else s

/-! ### The ledger's ways out (R586, R587) -/

/-- The ledger entry with a SEQ, where the SRAM holds it. -/
def State.ledgerEntry (s : State) (seq : Nat) : Option (List Byte) := (s.ledger.entries.find? fun e => e.seq == seq).map fun e => e.bytes

/-- LEDGER_SPILL_COPY: the next entry in SEQ order is copied into the host spill ring, then PI and its mirror are written (R369, R498, R586). A full
ring, or R500, holds the copy back. -/
def execLedgerSpillCopy (s : State) : Result := s.act fun s =>
  let slots := s.od Od.ledgerSpillSlots
  let pi := s.reg Reg.ledgerSpillPi
  let full := decide (slots ≤ (pi + 2 ^ 32 - s.reg Reg.ledgerSpillCi) % 2 ^ 32)
  -- entries overwritten before they were copied are skipped: the SRAM no longer holds them
  let next := max s.ledger.spilled (s.ledger.count - ledgerCapacity)
  if slots = 0 || full || !s.canDma || !s.dev.state.ready then s
  else match s.ledgerEntry next with
    | none => s
    | some b =>
      let s := s.writeHost (s.od Od.ledgerSpillBase + (pi % slots) * 128) b
      let s := s.setReg Reg.ledgerSpillPi ((pi + 1) % 2 ^ 32)
      let mirror := s.reg Reg.ledgerSpillMirrorLo + 2 ^ 32 * s.reg Reg.ledgerSpillMirrorHi
      let s := if mirror = 0 then s else s.writeHost mirror (leBytes 4 (s.reg Reg.ledgerSpillPi))
      let s := (s.count64 Reg.ledgerSpilled 1).count64 Reg.glbDmaWrBytes (128 + if mirror = 0 then 0 else 4)
      ({ s with ledger := { s.ledger with spilled := next + 1 } }).ledgerLevel

/-- LEDGER_SPILL_CI_WRITE: a CI that would pass PI is ignored and sets INDEX_ERR (R586); ignored before PREOP (R594). -/
def execLedgerSpillCiWrite (ci : W32) (s : State) : Result := s.act fun s =>
  if !s.dev.state.ready then s
  else
    let pi := s.reg Reg.ledgerSpillPi
    let old := s.reg Reg.ledgerSpillCi
    if (ci.toNat + 2 ^ 32 - old) % 2 ^ 32 ≤ (pi + 2 ^ 32 - old) % 2 ^ 32 then s.setReg Reg.ledgerSpillCi ci.toNat
    else s.raiseInt .ledger 8

/-- The read window takes the entry of a SEQ, or VALID falls (R587). -/
def State.loadWindow (s : State) (seq : Nat) : State :=
  match s.ledgerEntry seq with
  | some b => ({ s with ledger := { s.ledger with readWindow := b } }).setReg Reg.ledgerReadStatus 1
  | none => s.setReg Reg.ledgerReadStatus 0

/-- LEDGER_READ_SEQ_WRITE: both words of READ_SEQ are written, the high word last, which loads the window (R587, R593, R594). -/
def execLedgerReadSeqWrite (seq : W64) (s : State) : Result := s.act fun s =>
  if !s.dev.state.ready then s
  else ((s.setReg Reg.ledgerReadSeqLo (seq.toNat % 2 ^ 32)).setReg Reg.ledgerReadSeqHi (seq.toNat / 2 ^ 32)).loadWindow seq.toNat

end Sys2Proof.Machine
end

