-- ==== Sys2Proof/Machine/Registers.lean ====
section
/-! DEFINITION. Host reads and writes of BAR0 registers by their access code (R4, R7, R226, R489, R490, R493), and the two core registers that
are dictionary entries (R218, R222). -/

namespace Sys2Proof.Machine

/-! ### Which registers are open -/

/-- The CMD block reads 0 and ignores writes in BOOT, AUTH and SAFE, but for a read of CMD_STATUS (R406); the SAFFRON and TRIM blocks do in BOOT and AUTH
(R534, R592). -/
def State.blockClosed (s : State) (off : Nat) : Bool :=
  if 0x2300000 ≤ off ∧ off < 0x2400000 then !s.dev.state.ready || s.dev.state == .safe
  else if (0x2800000 ≤ off ∧ off < 0x2900000) ∨ (0x2A00000 ≤ off ∧ off < 0x2B00000) then !s.dev.state.ready
  else false

/-- Every block that has interrupt registers. -/
def allBlocks : List Block :=
  [.glb] ++ (List.range 16).map Block.cam ++ (List.range 4).map Block.fs ++ (List.range 32).map Block.core ++
  [.stream, .oasis, .dramc, .cmd, .ctx, .det, .side, .crv, .trim, .pwr, .saf, .ledger]

/-- The block whose INT_STATUS or INT_ENABLE register stands at an offset. -/
def blockAt (off : Nat) : Option Block := allBlocks.find? fun b => b.status == off || b.status + 4 == off

/-- First offsets of the RW registers whose write has a row of its own in the command table. -/
def ownWriteRows : List Nat :=
  [Reg.fsTblData 0, Reg.coreCtrl 0, Reg.coreFreqTarget 0, Reg.coreTmData 0, Reg.oasisQpower, Reg.cmdEvtSlots, Reg.cmdEvtCi, Reg.cmdStatsCi,
   Reg.cmdSyncValue, Reg.cqSlots 0, Reg.cqPi 0, Reg.ccSlots 0, Reg.ccCi 0, Reg.resSlots 0, Reg.resCi 0, Reg.ledgerSpillCi, Reg.ledgerReadSeqHi]

/-- First offsets of the ring base registers, writable in PREOP only (R368). -/
def ringBaseRows : List Nat :=
  [Reg.cmdEvtBaseLo, Reg.cmdEvtBaseHi, Reg.cqBaseLo 0, Reg.cqBaseHi 0, Reg.ccBaseLo 0, Reg.ccBaseHi 0, Reg.resBaseLo 0, Reg.resBaseHi 0]

/-- Does the register, given by its row's first offset, refuse the value, so that the write is ignored (R129, R364, R405, R435, R507)? -/
def regRefuses (base v : Nat) : Bool :=
  if base = Reg.glbIrqHoldoff then decide (1000 < v)
  else if base = Reg.glbOasisWin then decide (32 < v)
  else if base = Reg.glbPtmCtrl then v == 0
  else if base = Reg.fsMpSize 0 0 then decide (v < 4) || decide (1024 < v)
  else if base = Reg.extLandSlots 0 then decide (v < 2) || decide (256 < v)
  else if base = Reg.extSlots 0 then decide (1048576 < v)
  else if base = Reg.streamCtrl then bits v 6 0 == 0 || decide (64 < bits v 6 0)
  else if base = Reg.streamPubCount then decide (256 < v)
  else if base = Reg.hchSlotBytes 0 0 then decide (v < 64) || decide (2 ^ 20 < v) || v % 64 != 0
  else if base = Reg.resBodyBytes 0 then decide (2 ^ 20 < v) || v % 64 != 0
  else false

/-! ### Writes -/

/-- A 4-byte write into the MSI-X table (R493): the vector control keeps its mask bit only, and a pending vector is sent once it is unmasked. -/
def State.writeMsixTable (s : State) (off v : Nat) : State :=
  if off % 16 = 12 then
    let n := (off - 0x8000) / 16
    let s := s.setReg off (v % 2)
    if v % 2 = 0 ∧ s.pcie.msixPending.contains n then s.msixSend n else s
  else s.setReg off (if off % 16 = 0 then v / 4 * 4 else v)

/-- A write of an RW register without a row of its own. -/
def State.writeRw (s : State) (r : RegRow) (off v : Nat) : State :=
  let v := Nat.land v r.mask
  if ownWriteRows.contains r.base || ((r.preopOnly || ringBaseRows.contains r.base) && s.dev.state != .preop) || regRefuses r.base v then s
  else match blockAt off with
    | some b => s.intUpdate b fun t => t.setReg off v
    | none => s.setReg off v

/-- A write of a W1C register: each 1 clears its bit. -/
def State.writeW1c (s : State) (r : RegRow) (off v : Nat) : State :=
  let left := fun (old : Nat) => old - Nat.land old (Nat.land v r.mask)
  match blockAt off with
  | some b => s.intUpdate b fun t => t.setReg off (left (t.reg off))
  | none => s.setReg off (left (s.reg off))

/-- A write of a WO register that none of its rows names: a mailbox GO with an undefined OP ends MALFORMED (R477), a SAF_CMD with one ends with
RESULT 2 (R592). -/
def State.writeWo (s : State) (r : RegRow) (v : Nat) : State :=
  if r.base = Reg.glbOdMbCmd then
    (if bitAt v 8 && !s.doors.mbBusy && (v % 16 == 0 || decide (5 < v % 16)) then s.mbFinish .malformed false 0 else s)
  else if r.base = Reg.safCmd then
    (if 1 ≤ v % 16 ∧ v % 16 ≤ 7 then s
    else
      let s := { s with saf := { s.saf with cmdWritten := true } }
      if bitAt v 16 && s.saf.op.isNone then s.safFinish (v % 16) (bits v 5 4) 2 0 else s)
  else s

/-- A host write of 4 bytes at a BAR0 offset (R4, R490). In BOOT and AUTH the host does not reach BAR0 (R362, R487). -/
def State.writeReg (s : State) (off v : Nat) : State :=
  if !s.dev.state.ready || s.blockClosed off || off % 4 != 0 then s
  else if 0x8000 ≤ off ∧ off < 0xA000 then s.writeMsixTable off v
  else match regFind off with
    | none => s
    | some r => match r.access with
      | .rw => s.writeRw r off v
      | .w1c => s.writeW1c r off v
      | .wo => s.writeWo r v
      | .ro | .rc => s

/-- A core register that is a dictionary entry (R218, R222): a host write of the entry, ignored where the dictionary would refuse it. -/
def State.coreEntryWrite (s : State) (key v : Nat) : State :=
  if s.odWriteCheck .host key (odWidth key / 8) v = .ok then (s.odAccept .host 0 key v .none).2 else s

/-- CORE_PARK_WRITE: PARK stops or resumes the core's drawing of tiles (R218). -/
def execCoreParkWrite (core : CoreIx) (value : W32) (s : State) : Result := s.act fun s => s.coreEntryWrite (Od.corePark core) (value.toNat % 2)

/-- FREQ_TARGET_WRITE: a target that is no multiple of 50 MHz or is out of range is refused (R222). -/
def execFreqTargetWrite (core : CoreIx) (value : W32) (s : State) : Result := s.act fun s =>
  s.coreEntryWrite (Od.coreFreqTarget core) (value.toNat % 2 ^ 12)

/-! ### Reads -/

/-- First offsets of the 64-bit registers that are no counters, so that a read of the low word latches nothing. -/
def plainWideRows : List Nat := [Reg.coreRescaleDesc 0 0]

/-- A read of a word of a 64-bit register: the low word latches the high word for the next read of the high word (R226). -/
def State.readWide (s : State) (r : RegRow) (off : Nat) : Nat × State :=
  let low := off / 8 * 8
  let latched := if off = low then none else sparseGet low s.pcie.counterLatch
  match latched with
  | some h => (h.toNat, { s with pcie := { s.pcie with counterLatch := sparseSet low none s.pcie.counterLatch } })
  | none =>
    let v := s.regView low
    if off != low then (v / 2 ^ 32, s)
    else if plainWideRows.contains r.base then (v % 2 ^ 32, s)
    else (v % 2 ^ 32, { s with pcie := { s.pcie with counterLatch := sparseSet low (some (BitVec.ofNat 32 (v / 2 ^ 32))) s.pcie.counterLatch } })

/-- A word of the MSI-X pending-bit array. -/
def State.pendingWord (s : State) (i : Nat) : Nat := maskOf 32 fun b => s.pcie.msixPending.contains (32 * i + b)

/-- What a peak register holds after a read: a level that lasts is the highest since that read as well (R96, R129, R364); any other starts at 0. -/
def State.levelNow (s : State) (off : Nat) : Nat :=
  let at_ := fun (c : PortIx) => [(Reg.camFifoPeak c, (s.port c).fifo), (Reg.fsMpPeak (sliceOf c) (localOf c), (s.fsPort c).mpLevel),
    (Reg.extPeak c, (s.fsPort c).ext.length)]
  match ((List.finRange 16).flatMap at_).find? fun x => x.1 == off with
  | some x => x.2
  | none => 0

/-- The value that a listed register answers with, and the state after the read. -/
def State.readListed (s : State) (r : RegRow) (off : Nat) : Nat × State :=
  match r.access with
  | .wo => (0, s)
  | .rc => (s.regView off, s.setReg off (s.levelNow off))
  | _ => if r.size = 8 then s.readWide r off else (s.regView off, s)

/-- A host read of 4 bytes at a BAR0 offset (R4, R490). FS_TBL_DATA and CORE_TM_DATA have read commands of their own. -/
def State.readReg (s : State) (off : Nat) : State :=
  if off % 4 != 0 then s
  else if s.blockClosed off && off != Reg.cmdStatus then s.send (.readData 0)
  else if 0x8000 ≤ off ∧ off < 0xA000 then s.send (.readData (s.reg off))
  else if 0xA000 ≤ off ∧ off < 0xA040 then s.send (.readData (s.pendingWord ((off - 0xA000) / 4)))
  else match regFind off with
    | none => s.send (.readData 0)
    | some r =>
      if r.base = Reg.fsTblData 0 || r.base = Reg.coreTmData 0 then s
      else
        let (v, t) := s.readListed r off
        t.send (.readData v)

end Sys2Proof.Machine
end

