-- ==== Sys2Proof/Machine/HostAccess.lean ====
section
/-! DEFINITION. Host accesses of BAR0 and of the doorbells of BAR2 by their shape (R489 to R493): each 4-byte word has the effect of its register, those with
a command of their own included. -/

namespace Sys2Proof.Machine

/-- The second thing happens where the first answers a next state. -/
def andThen (r : Result) (f : State → Result) : Result := match r with
  | .next s => f s
  | .fault x => .fault x
  | .refused x => .refused x

/-- The instance of a register array that an offset falls in. -/
def RegRow.index (r : RegRow) (off : Nat) : Nat := match r.dims with
  | (n, stride) :: _ => (off - r.base) / stride % n
  | [] => 0

/-- A queue, a result ring or a slice by its number. -/
def queueIx (n : Nat) : QueueIx := ⟨n % 64, Nat.mod_lt _ (by decide)⟩
def sliceIx (n : Nat) : SliceIx := ⟨n % 4, Nat.mod_lt _ (by decide)⟩

/-- A write of GLB_OD_MB_CMD (R477). -/
def mbCommand (v : Nat) (s : State) : Option Result :=
  if !bitAt v 8 then none
  else match v % 16 with
    | 1 => some (execMbRead s)
    | 2 => some (execMbWrite (bitAt v 9) s)
    | 3 => some (execMbWriteAt (bitAt v 9) s)
    | 4 => some (execMbCancelAt s)
    | 5 => some (execMbDescribe s)
    | _ => none

/-- A write of SAF_CMD (R578). -/
def safWrite (v : Nat) (s : State) : Option Result :=
  let w : W32 := BitVec.ofNat 32 v
  match v % 16 with
  | 1 => some (execSafVerify w s)
  | 2 => some (execSafProgram w s)
  | 3 => some (execSafSetBoot w s)
  | 4 => some (execSafReboot w s)
  | 5 => some (execSafCommitVersion w s)
  | 6 => some (execSafRevoke w s)
  | 7 => some (execSafAttest w s)
  | _ => none

/-- The command that a write of a word is, where its register has one: the CMD block's rings, queues and synchronisation (R368 to R371, R387, R395, R405). -/
def cmdWrite (base i v : Nat) (s : State) : Option Result :=
  let w : W32 := BitVec.ofNat 32 v
  if base = Reg.cqPi 0 then some (execCqPiWrite (queueIx i) w s)
  else if base = Reg.ccCi 0 then some (execRingCiWrite (.completion (queueIx i)) w s)
  else if base = Reg.resCi 0 then some (execRingCiWrite (.result (queueIx i)) w s)
  else if base = Reg.cmdEvtCi then some (execRingCiWrite .event w s)
  else if base = Reg.cmdStatsCi then some (execRingCiWrite .stats w s)
  else if base = Reg.cqSlots 0 then some (execRingSlotsWrite (.command (queueIx i)) w s)
  else if base = Reg.ccSlots 0 then some (execRingSlotsWrite (.device (.completion (queueIx i))) w s)
  else if base = Reg.resSlots 0 then some (execRingSlotsWrite (.device (.result (queueIx i))) w s)
  else if base = Reg.cmdEvtSlots then some (execRingSlotsWrite (.device .event) w s)
  else if base = Reg.cqCtrl 0 then (if bitAt v 0 then some (execCqRestart (queueIx i) s) else none)
  else if base = Reg.cmdAbort then some (execCmdAbort w s)
  else if base = Reg.cmdSyncValue then some (execCmdSyncValueWrite w s)
  else if base = Reg.cmdSyncAdd then some (execCmdSyncAdd w s)
  else none

/-- The command that a write of a word is, where its register has one. -/
def ownWrite (base i v : Nat) (s : State) : Option Result :=
  let w : W32 := BitVec.ofNat 32 v
  if base = Reg.camCcCmd 0 then (if bitAt v 0 then some (if bitAt v 1 then execCamCcWrite (portIx i) s else execCamCcRead (portIx i) s) else none)
  else if base = Reg.fsTblData 0 then some (execFsTblDataAccess (sliceIx i) (some w) s)
  else if base = Reg.fsTblCommit 0 then some (execFsTblCommit (sliceIx i) (BitVec.ofNat 4 v) s)
  else if base = Reg.coreCtrl 0 then some (execCoreParkWrite (coreIx i) w s)
  else if base = Reg.coreFreqTarget 0 then some (execFreqTargetWrite (coreIx i) w s)
  else if base = Reg.coreTmData 0 then some (execCoreTmDataAccess (coreIx i) (some w) s)
  else if base = Reg.oasisQpower then some (execOasisQpowerWrite w s)
  else if base = Reg.streamCopyCmd then some (execStreamCopyGo w s)
  else if base = Reg.ctxClear then some (execCtxClearWrite w s)
  else if base = Reg.linkCtrl 0 then some (execLinkCtrlRetrain (linkIx i) w s)
  else if base = Reg.trimCmd then some (if bitAt v 17 then execTrimCmdForce w s else execTrimCmdMakeDue w s)
  else if base = Reg.ledgerSpillCi then some (execLedgerSpillCiWrite w s)
  else if base = Reg.ledgerReadSeqHi then some (execLedgerReadSeqWrite (BitVec.ofNat 64 (s.reg Reg.ledgerReadSeqLo + 2 ^ 32 * v)) s)
  else if base = Reg.glbReset then some (execGlbResetWrite w s)
  else if base = Reg.glbOdMbCmd then mbCommand v s
  else if base = Reg.safCmd then safWrite v s
  else cmdWrite base i v s

/-- A write of the aligned 4-byte word at a BAR0 offset. -/
def wordWrite (off v : Nat) (s : State) : Result :=
  if s.dev.resetHeld || !s.dev.state.ready || s.blockClosed off then .next s
  else match regFind off with
    | some r => (ownWrite r.base (r.index off) v s).getD (.next (s.writeReg off v))
    | none => .next (s.writeReg off v)

/-- A read of the aligned 4-byte word at a BAR0 offset. -/
def wordRead (off : Nat) (s : State) : Result :=
  if s.dev.resetHeld then .next s
  else match regFind off with
    | some r =>
      if r.base = Reg.fsTblData 0 then execFsTblDataAccess (sliceIx (r.index off)) none s
      else if r.base = Reg.coreTmData 0 then execCoreTmDataAccess (coreIx (r.index off)) none s
      else .next (s.readReg off)
    | none => .next (s.readReg off)

/-- The BAR0 offset of the CMD register that a doorbell offset of BAR2 aliases (R491). -/
def doorbellReg (off : Nat) : Option Nat :=
  let q := off / 0x1000
  if off % 0x1000 = 0 then
    (if off < 0x40000 then some (Reg.cqPi q) else if off < 0x80000 then some (Reg.resCi (q - 0x40)) else if off = 0x80000 then some Reg.cmdEvtCi else none)
  else if off % 0x1000 = 4 then
    (if off < 0x40000 then some (Reg.ccCi q) else if off = 0x80004 then some Reg.cmdStatsCi else none)
  else none

/-- Where an access of BAR0 or BAR2 goes: the aligned words that it is carried out as, lowest first; none where its shape is refused (R490 to R493). -/
def accessWords (a : HostAccess) : Option (List Nat) :=
  if a.doorbell then (if a.size = 4 then (doorbellReg a.offset).map fun o => [o] else none)
  else if a.size = 4 && a.offset % 4 == 0 then some [a.offset]
  else if a.size = 8 && a.offset % 8 == 0 then some [a.offset, a.offset + 4]
  else none

/-- Write words, lowest first. -/
def wordsWrite (v : Nat) : List Nat → State → Result
  | [], s => .next s
  | o :: r, s => andThen (wordWrite o (v % 2 ^ 32) s) (wordsWrite (v / 2 ^ 32) r)
/-- Read words, lowest first. -/
def wordsRead : List Nat → State → Result
  | [], s => .next s
  | o :: r, s => andThen (wordRead o s) (wordsRead r)

/-- Does an access reach the Oasis window of BAR2 (R491)? -/
def accessWindow (a : HostAccess) : Bool := a.doorbell && decide (2 ^ 25 ≤ a.offset)

/-- A host write of up to 8 bytes (R490 to R494). In BOOT and AUTH the host does not reach the BARs (R487). -/
def hostWrite (a : HostAccess) (value : W64) (s : State) : Result :=
  if s.dev.resetHeld || !s.dev.state.ready then .next s
  else if accessWindow a then execOasisWindowAccess (a.offset - 2 ^ 25) a.size (some (leBytes a.size value.toNat)) s
  else match accessWords a with
    | some ws => wordsWrite value.toNat ws s
    | none => .next (s.badAccess true)

/-- A host read of up to 8 bytes (R490 to R494). DESIGN CHOICE (log entry 140): the two words of an 8-byte read are answered one after the other, the low
word first. -/
def hostRead (a : HostAccess) (s : State) : Result :=
  if s.dev.resetHeld then .next s
  else if accessWindow a then execOasisWindowAccess (a.offset - 2 ^ 25) a.size none s
  else match accessWords a with
    | some ws => wordsRead ws s
    | none => .next (s.badAccess false)

/-- GENERIC_REGISTER_WRITE: a write to a register acts by its access code, or as the command that its own row names. -/
def execGenericRegisterWrite (access : HostAccess) (value : W64) (s : State) : Result := hostWrite access value s

/-- REGISTER_READ_CLEAR: a read of an RC register returns and clears its value. -/
def execRegisterReadClear (access : HostAccess) (s : State) : Result := hostRead access s

/-- LOW_WORD_READ: a read of a word of a 64-bit counter (R226), or of any other register. -/
def execLowWordRead (access : HostAccess) (s : State) : Result := hostRead access s

end Sys2Proof.Machine
end

