-- ==== Sys2Proof/Machine/Power.lean ====
section
/-! DEFINITION. Supply dips, the adaptive core voltage, power limits and temperature (R542 to R554). -/

namespace Sys2Proof.Machine

/-- A reading of VDD_CORE is recorded (PWR_VDD, VDD_MEASURED). -/
def State.readVdd (s : State) (mv : Nat) : State :=
  let s := s.setReg Reg.pwrVdd (s.vt + 2 ^ 16 * mv)
  { s with pwr := { s.pwr with warnMin := if s.pwr.warning then min mv s.pwr.warnMin else s.pwr.warnMin, readings := (s.dt, mv) :: s.pwr.readings.filter fun r => decide (s.dt < r.1 + 1000000) } }

/-- The core clocks are stretched while VDD_CORE is below the clear level or the fast limit acts (R545, R550): PWR_STRETCH_NS follows. -/
def State.restretch (s : State) : State :=
  match s.pwr.dip || s.pwr.limitFast, s.pwr.stretchSince with
  | true, none => { s with pwr := { s.pwr with stretchSince := some s.dt } }
  | false, some t => ({ s with pwr := { s.pwr with stretchSince := none } }).count64 Reg.pwrStretchNs (s.dt - t)
  | _, _ => s

/-- The cores whose FREQ_CAP a change of the causes has changed each make a kind 1 entry of the device's own: the entry's mask holds I (R224, R465,
R551). -/
def State.capsNoted (old new : State) : State :=
  (List.range 32).foldl (fun (u : State) k =>
    if old.freqCap k = u.freqCap k then u else u.ledgerWrite 1 0 .internal (Od.coreFreqCap k) 2 (u.freqCap k) u.web.lastLsn) new

/-- Act on an event that may change the caps. -/
def State.actCaps (s : State) (f : State → State) : Result := s.act fun s => s.capsNoted (f s)

/-- SUPPLY_WARNING: VDD_CORE reads `mv` at a core domain. Below the warning level the clocks stretch; from PREOP on a warning comes into force:
caps fall by WARN_STEP, sand fill stops, the event is written (R543, R544, R549). -/
def execSupplyWarning (mv : W16) (s : State) : Result := s.actCaps fun s =>
  let vt := s.vt
  let s := s.readVdd mv.toNat
  if 94 * vt ≤ 100 * mv.toNat then s
  else
    let s := { s with pwr := { s.pwr with dip := true } }.restretch
    if !s.dev.state.ready || s.pwr.warning then s
    else
      let step := s.od Od.vddWarnStep
      let caps := (Vector.finRange 32).map fun k => max 800 (s.freqCap k.val - step)
      let s := { s with pwr := { s.pwr with warning := true, warnSince := s.dt, warnMin := mv.toNat, warnCaps := caps } }.sandStop
      ((s.raiseInt .pwr 1).countOd Od.vddWarnCount 1).event 7 0x10 (leBytes 2 vt ++ leBytes 2 mv.toNat)

/-- STRETCH_END: VDD_CORE rises above the clear level (R546). -/
def execStretchEnd (mv : W16) (s : State) : Result := s.act fun s =>
  let vt := s.vt
  let s := s.readVdd mv.toNat
  if 95 * vt < 100 * mv.toNat then { s with pwr := { s.pwr with dip := false } }.restretch else s

/-- The duration of the warning in force, in ns, in its 32 bits. -/
def State.warnNs (s : State) : Nat := min (s.dt - s.pwr.warnSince) 0xFFFFFFFF

/-- WARNING_CLEAR: VDD_CORE has stayed above the clear level for `quietNs` without a break, at least 10 µs, and reads `mv`: the warning is cleared,
with its duration and the lowest voltage seen (R546). -/
def execWarningClear (quietNs : W32) (mv : W16) (s : State) : Result := s.actCaps fun s =>
  if !s.pwr.warning || s.pwr.dip || decide (quietNs.toNat < 10000) then s
  else
    let s := s.readVdd mv.toNat
    let (ns, low) := (s.warnNs, s.pwr.warnMin)
    let s := { s with pwr := { s.pwr with warning := false, warnCaps := Vector.replicate 32 2200 } }
    let s := (s.raiseInt .pwr 2).setReg Reg.pwrWarnLast ns
    let s := s.setOd Od.vddWarnLongest (max (s.od Od.vddWarnLongest) ns)
    s.event 7 0x11 (leBytes 4 ns ++ leBytes 2 low)

/-- VDD_RESET_LEVEL: VDD_CORE at or below 0.88 × V_t for 50 ns: a conventional reset with reason 0x03 (R543, R548). -/
def execVddResetLevel (mv : W16) (s : State) : Result :=
  if 100 * mv.toNat ≤ 88 * s.vt then s.resetCause 3 0 else s.act fun s => s.readVdd mv.toNat

/-- RAIL_MONITOR_FALL: another rail below its monitor for 1 µs: a reset with reason 0x04, the rail recorded (R548, R561). -/
def execRailMonitorFall (rail : Fin 5) (s : State) : Result := s.resetCause 4 rail.val

/-! ### Adaptive voltage (R542) -/

/-- Has every core clock come down to the frequency in force? -/
def State.clocksDown (s : State) : Bool := (List.finRange 32).all fun k => !s.pwr.cores.getLsbD k || decide ((s.core k).mhz ≤ s.coreMhz k)

/-- AVS_TARGET_CHANGE: the device asks for a target of 650 to 850 mV in steps of 5 mV; with AVS_MODE 1 the target is VDD_FIXED_MV. It lowers the voltage
only after the clocks have come down. -/
def execAvsTargetChange (mv : W16) (s : State) : Result := s.act fun s =>
  let v := mv.toNat
  let legal := decide (650 ≤ v) && decide (v ≤ 850) && v % 5 == 0 && (s.od Od.vddAvsMode == 0 || v == s.od Od.vddVddFixedMv)
  if !s.pwr.pcie || !legal || (decide (v < s.pwr.avsReached) && !s.clocksDown) then s
  else
    ({ s with pwr := { s.pwr with avsRequested := some v } }).send (.avsRequest v)

/-- AVS_TARGET_REACHED: the regulator reports the target reached. With AVS_MODE 1 every core is capped at the frequency for which the speed monitors show
margin at the fixed voltage (R542): what they show is not given, so the cap is a FREE VALUE among the steps of R222 (log entry 84). -/
def execAvsTargetReached (s : State) : Result := s.actCaps fun s =>
  match s.pwr.avsRequested with
  | none => s
  | some t =>
    let (f, s) := if s.od Od.vddAvsMode = 0 then (28, s) else (s.takeFree.1.toNat % 29, s.takeFree.2)
    { s with pwr := { s.pwr with avsRequested := none, avsSettle := some (s.pwr.avsReached, s.dt), avsReached := t, avsCap := 800 + 50 * f } }

/-- AVS_TIMEOUT: the target is not reported reached within 100 µs. The last target reached is kept, and every core is capped at the frequency
which that target supports; the spec gives no figure for it, so it is a FREE VALUE among the steps of R222. -/
def execAvsTimeout (readingMv : W16) (s : State) : Result := s.actCaps fun s =>
  match s.pwr.avsRequested with
  | none => s
  | some t =>
    let (f, s) := s.takeFree
    let s := { s with pwr := { s.pwr with avsRequested := none, avsCap := 800 + 50 * (f.toNat % 29) } }
    (s.raiseInt .pwr 0x100).event 7 0x15 (leBytes 2 t ++ leBytes 2 readingMv.toNat)

/-! ### Power limits (R550) -/

/-- The event of a power limit, at most one per kind per 1 ms (R562 type 0x13). -/
def State.powerEvent (s : State) (kind watts : Nat) : State :=
  s.rateLimited (rateKey 7 0x13 kind) 1000000 fun t => t.event 7 0x13 (leBytes 1 kind ++ [0] ++ leBytes 2 watts)

/-- POWER_ESTIMATE: the estimate of 1 µs; the fast limit acts above 400 W and ends at or below 380 W. POWER_NOW is the mean of 1,000 estimates. -/
def execPowerEstimate (watts : W16) (s : State) : Result := s.act fun s =>
  let w := watts.toNat
  let uj := s.pwr.energyUj + w
  let s := { s with pwr := { s.pwr with powerSum := s.pwr.powerSum + w, powerCount := s.pwr.powerCount + 1, energyUj := uj % 1000 } }
  let s := (s.countOd Od.plEnergy (uj / 1000)).setOd Od.plPowerPeak (max (s.od Od.plPowerPeak) w)
  let s := if s.pwr.powerCount = 1000 then
      ({ s with pwr := { s.pwr with powerSum := 0, powerCount := 0 } }).setOd Od.plPowerNow (s.pwr.powerSum / 1000)
    else s
  if 400 < w then
    let raised := !s.pwr.limitFast
    let s := { s with pwr := { s.pwr with limitFast := true } }.restretch
    if raised then (s.raiseInt .pwr 4).powerEvent 1 w else s
  else if w ≤ 380 then { s with pwr := { s.pwr with limitFast := false } }.restretch
  else s

/-- SUSTAINED_CAP_STEP: every 1 ms the limiter cap falls by 50 MHz while the mean of the last 10 ms exceeds PL_SUSTAINED, and rises by 50 MHz up to
2,200 MHz while it is below 95 % of it. A cap never falls below 800 MHz (R222, R553). -/
def execSustainedCapStep (meanWatts : W16) (s : State) : Result := s.actCaps fun s =>
  let m := meanWatts.toNat
  let pl := s.od Od.plPlSustained
  let cap := s.pwr.limiterCap
  let new := if pl < m then max 800 (cap - 50) else if 100 * m < 95 * pl then min 2200 (cap + 50) else cap
  let s := { s with pwr := { s.pwr with limiterCap := new, lastMean := m } }
  let s := if cap < 2200 then s.count64 Reg.pwrLimitNs 1000000 else s
  if cap = 2200 && decide (new < 2200) then (s.raiseInt .pwr 8).powerEvent 2 m else s

/-! ### Temperature (R552 to R554) -/

/-- Is junction sensor n in a powered domain (R552)? -/
def State.sensorValid (s : State) (n : Nat) : Bool :=
  if n < 32 then s.pwr.cores.getLsbD n
  else if n < 36 then s.pwr.quadrants.getLsbD (n - 32)
  else if n < 40 then s.pwr.slices.getLsbD (n - 36)
  else if n < 46 then s.pwr.engines.getLsbD (n - 40)
  else if n = 46 then s.pwr.detection else s.pwr.pcie

/-- The level event of a sensor (R562 type 0x12): levels 1 and 2 at most once per sensor per 1 s, the others always. -/
def State.thermalEvent (s : State) (sensor level : Nat) (t16 : Int) : State :=
  let body := leBytes 1 sensor ++ leBytes 1 level ++ leBytes 2 (ofSigned 16 t16)
  if level ≤ 2 then s.rateLimited (rateKey 7 0x12 (sensor * 8 + level)) 1000000000 fun t => t.event 7 0x12 body
  else s.event 7 0x12 body

/-- The valid sensors of a sample with their temperatures in 1/16 °C. -/
def State.validSensors (s : State) (junction : List W16) : List (Nat × Int) :=
  ((List.range 48).filter s.sensorValid).map fun n => (n, toSigned 16 (junction.getD n 0).toNat)

/-- The hottest of a list, none when it is empty. -/
def hottest : List (Nat × Int) → Option (Nat × Int)
  | [] => none
  | x :: r => match hottest r with
    | some y => if y.2 ≤ x.2 then some x else some y
    | none => some x

/-- Store the sensor registers and the dictionary's temperatures (R560, R561). -/
def State.storeSensors (s : State) (junction stack : List W16) : State :=
  let s := (List.range 48).foldl (fun (t : State) n =>
    t.setReg (Reg.pwrTsense n) (if s.sensorValid n then (junction.getD n 0).toNat + 2 ^ 16 else 0)) s
  let s := (List.range 16).foldl (fun (t : State) n => t.setReg (Reg.pwrTstack n) ((stack.getD n 0).toNat + 2 ^ 16)) s
  let s := match hottest (s.validSensors junction) with
    | some (_, x) =>
      let c := x / 16
      let peak := if toSigned 16 (s.od Od.thermTPeak) < c then c else toSigned 16 (s.od Od.thermTPeak)
      (s.setOd Od.thermTJunction (ofSigned 16 c)).setOd Od.thermTPeak (ofSigned 16 peak)
    | none => s
  match hottest ((List.range 16).map fun n => (n, toSigned 16 (stack.getD n 0).toNat)) with
  | some (_, x) => s.setOd Od.thermTStack (ofSigned 16 (x / 16))
  | none => s

/-- The core-cap level over one junction sensor (R553). Each sensor has its own (DEDUCED, log entry 157). -/
def State.capLevel (s : State) (n : Nat) (x : Int) : State :=
  let cap : Int := toSigned 16 (s.od Od.thermTCap) * 16
  if cap < x && !s.pwr.therm.capSensors.contains n then
    let first := s.pwr.therm.capSensors.isEmpty
    let s := { s with pwr := { s.pwr with therm := { s.pwr.therm with capSensors := insertRising n s.pwr.therm.capSensors } } }
    (if first then s.raiseInt .pwr 0x10 else s).thermalEvent n 1 x
  else if x < cap - 48 && s.pwr.therm.capSensors.contains n then
    ({ s with pwr := { s.pwr with therm := { s.pwr.therm with capSensors := s.pwr.therm.capSensors.filter (· != n) } } }).thermalEvent n 2 x
  else s

/-- A thermal SAFE (R553, R554): the level event and the cause of R474, once until SAFE is entered. -/
def State.thermalSafe (s : State) (sensor : Nat) (x : Int) : State :=
  if s.dev.safeCause = some 4 then s else (s.thermalEvent sensor 4 x).causeSafe 4

/-- A sensor that is not valid any more takes no part. -/
def State.keepSensors (s : State) (v : List (Nat × Int)) : State :=
  { s with pwr := { s.pwr with therm := { s.pwr.therm with capSensors := s.pwr.therm.capSensors.filter fun n => v.any fun p => p.1 == n } } }

/-- Is the operating limit exceeded, and is it too cold (R553)? -/
def State.setOperating (s : State) (b : Bool) : State := { s with pwr := { s.pwr with therm := { s.pwr.therm with operating := b } } }
def State.setCold (s : State) (b : Bool) : State := { s with pwr := { s.pwr with therm := { s.pwr.therm with cold := b } } }

/-- The levels that the hottest junction sensor reaches or leaves (R553). -/
def State.hotLevel (s : State) (n : Nat) (x : Int) : State :=
  let s := if 105 * 16 < x && !s.pwr.therm.operating then ((s.setOperating true).raiseInt .pwr 0x40).thermalEvent n 3 x
    else if x < 102 * 16 then s.setOperating false else s
  if 110 * 16 < x && s.dev.state != .safe then s.thermalSafe n x else s

/-- The levels that the coldest junction sensor reaches or leaves (R553). -/
def State.coldLevel (s : State) (n : Nat) (x : Int) : State :=
  let lo : Int := if Config.gradeE then -20 * 16 else 0
  if x < lo && !s.pwr.therm.cold then ((s.setCold true).raiseInt .pwr 0x80).thermalEvent n 5 x
  else if lo + 48 < x then s.setCold false else s

/-- The levels that the hottest and coldest junction sensors reach or leave (R553). -/
def State.junctionLevels (s : State) (v : List (Nat × Int)) : State :=
  let s := (v.foldl (fun t p => t.capLevel p.1 p.2) s).keepSensors v
  let s := match hottest v with
    | none => s
    | some (n, x) => s.hotLevel n x
  match hottest (v.map fun p => (p.1, -p.2)) with
  | none => s
  | some (n, y) => s.coldLevel n (-y)

/-- The levels of the stack sensors (R337, R553). -/
def State.stackLevels (s : State) (v : List (Nat × Int)) : State :=
  match hottest v with
  | none => s
  | some (n, x) =>
    let hot := if 85 * 16 < x then true else if x < 83 * 16 then false else s.pwr.therm.hotStack
    let since := if 95 * 16 < x then some (s.pwr.therm.stackHotSince.getD s.dt) else none
    let capWas := s.pwr.therm.stackCap
    let cap := if 92 * 16 < x then true else if x < 89 * 16 then false else capWas
    let s := { s with pwr := { s.pwr with therm := { s.pwr.therm with hotStack := hot, stackHotSince := since, stackCap := cap } } }
    let s := if !capWas && cap then (s.raiseInt .pwr 0x20).thermalEvent (0x80 + n) 1 x
      else if capWas && !cap then s.thermalEvent (0x80 + n) 2 x else s
    match since with
    | some t => if t + 1000000 ≤ s.dt && s.dev.state != .safe then s.thermalSafe (0x80 + n) x else s
    | none => s

/-- THERMAL_SAMPLE: every 100 µs the 48 junction and 16 stack sensors are sampled, in 1/16 °C (R552, R553). Under a thermal trip the sample only ends
the trip, once every sensor is below 100 °C. A trip joins the causes of a reset that lasts (R556). -/
def execThermalSample (junction stack : List W16) (s : State) : Result :=
  .next (
    let all := ((List.range 48).map fun n => (n, toSigned 16 (junction.getD n 0).toNat))
    let stk := ((List.range 16).map fun n => (n, toSigned 16 (stack.getD n 0).toNat))
    if s.pwr.therm.tripHeld then
      if all.all (fun p => decide (p.2 < 1600)) && stk.all (fun p => decide (p.2 < 1600)) then
        { s with pwr := { s.pwr with therm := { s.pwr.therm with tripHeld := false } } }
      else s
    else
      let v := s.validSensors junction
      if v.any (fun p => decide (120 * 16 < p.2)) || stk.any (fun p => decide (105 * 16 < p.2)) then
        let s := s.resetBy 5 0
        { s with pwr := { s.pwr with therm := { s.pwr.therm with tripHeld := s.dev.powerGood } } }
      else if s.dev.resetHeld then s
      else ((s.storeSensors junction stack).junctionLevels v).stackLevels stk)

/-- THERMAL_CAP_STEP: every 1 ms each core's thermal cap falls by 50 MHz, to no less than 800 MHz, or rises by 50 MHz (R553). -/
def execThermalCapStep (s : State) : Result := s.actCaps fun s =>
  let t := s.pwr.therm
  let everyCore := t.stackCap || t.capSensors.any fun n => decide (32 ≤ n)
  let caps := (Vector.finRange 32).map fun k =>
    let c := t.caps[k]
    if everyCore || t.capSensors.contains k.val then max 800 (c - 50) else min 2200 (c + 50)
  let s := { s with pwr := { s.pwr with therm := { t with caps := caps } } }
  if t.caps.toList.any fun c => decide (c < 2200) then s.count64 Reg.pwrThermNs 1000000 else s

end Sys2Proof.Machine
end

