-- ==== Sys2Proof/Machine/Dispatch.lean ====
section
/-! DEFINITION. The effect of each command, one arm per command. -/

namespace Sys2Proof.Machine

/-- The effect of a command on everything but the queue. -/
def exec (i : Instr) (s : State) : Host.Outcome State Fault Refusal :=
  match i with
  | .encoderCount sample => Sys2Proof.Machine.execEncoderCount sample s
  | .encoderIllegalTransition => Sys2Proof.Machine.execEncoderIllegalTransition s
  | .countRateWindow => Sys2Proof.Machine.execCountRateWindow s
  | .lineTimerExpiry => Sys2Proof.Machine.execLineTimerExpiry s
  | .groupCancel lgn => Sys2Proof.Machine.execGroupCancel lgn s
  | .scheduledWriteApply handle => Sys2Proof.Machine.execScheduledWriteApply handle s
  | .tokenDeadline lgn => Sys2Proof.Machine.execTokenDeadline lgn s
  | .stateDeadline core => Sys2Proof.Machine.execStateDeadline core s
  | .haloDeadline core => Sys2Proof.Machine.execHaloDeadline core s
  | .haloChannelDeadline link ch lgn => Sys2Proof.Machine.execHaloChannelDeadline link ch lgn s
  | .detMergeDeadline lgn => Sys2Proof.Machine.execDetMergeDeadline lgn s
  | .neighbourSilent link => Sys2Proof.Machine.execNeighbourSilent link s
  | .lightOkRise engine => Sys2Proof.Machine.execLightOkRise engine s
  | .lightOkFall engine => Sys2Proof.Machine.execLightOkFall engine s
  | .laneLockGain port lane => Sys2Proof.Machine.execLaneLockGain port lane s
  | .laneLockLoss port lane => Sys2Proof.Machine.execLaneLockLoss port lane s
  | .discoveryLockTimeout port => Sys2Proof.Machine.execDiscoveryLockTimeout port s
  | .ccReply port ack data => Sys2Proof.Machine.execCcReply port ack data s
  | .ccTimeout port => Sys2Proof.Machine.execCcTimeout port s
  | .camCcRead port => Sys2Proof.Machine.execCamCcRead port s
  | .camCcWrite port => Sys2Proof.Machine.execCamCcWrite port s
  | .heartbeatSend port => Sys2Proof.Machine.execHeartbeatSend port s
  | .heartbeatReceive port => Sys2Proof.Machine.execHeartbeatReceive port s
  | .heartbeatTimeout port => Sys2Proof.Machine.execHeartbeatTimeout port s
  | .cameraEventPacket port payload => Sys2Proof.Machine.execCameraEventPacket port payload s
  | .imageHeader port stream pixelBits arrangement failedOn => Sys2Proof.Machine.execImageHeader port stream pixelBits arrangement failedOn s
  | .lineMarker port stream => Sys2Proof.Machine.execLineMarker port stream s
  | .pixelDataPacket port stream pixels => Sys2Proof.Machine.execPixelDataPacket port stream pixels s
  | .checkFailedPacket port lane pixels => Sys2Proof.Machine.execCheckFailedPacket port lane pixels s
  | .frameEnd port stream => Sys2Proof.Machine.execFrameEnd port stream s
  | .malformedPacket port => Sys2Proof.Machine.execMalformedPacket port s
  | .lineDataTimeout port => Sys2Proof.Machine.execLineDataTimeout port s
  | .lineTimeoutAbsent port => Sys2Proof.Machine.execLineTimeoutAbsent port s
  | .lineReleaseTimeout port => Sys2Proof.Machine.execLineReleaseTimeout port s
  | .fsLineStart slice => Sys2Proof.Machine.execFsLineStart slice s
  | .fsLineWrite slice => Sys2Proof.Machine.execFsLineWrite slice s
  | .memoryPathStore port => Sys2Proof.Machine.execMemoryPathStore port s
  | .fsTblDataAccess slice write => Sys2Proof.Machine.execFsTblDataAccess slice write s
  | .fsTblCommit slice mask => Sys2Proof.Machine.execFsTblCommit slice mask s
  | .tableCopyDone port => Sys2Proof.Machine.execTableCopyDone port s
  | .tableInitDone slice => Sys2Proof.Machine.execTableInitDone slice s
  | .ffPeriodEnd port => Sys2Proof.Machine.execFfPeriodEnd port s
  | .ffComputeDone port => Sys2Proof.Machine.execFfComputeDone port s
  | .trackedGroupClose tensor lgn => Sys2Proof.Machine.execTrackedGroupClose tensor lgn s
  | .coreDispatch core => Sys2Proof.Machine.execCoreDispatch core s
  | .tnop core => Sys2Proof.Machine.execTnop core s
  | .tload core => Sys2Proof.Machine.execTload core s
  | .tstore core => Sys2Proof.Machine.execTstore core s
  | .tmm core => Sys2Proof.Machine.execTmm core s
  | .tconv core => Sys2Proof.Machine.execTconv core s
  | .tfuse core => Sys2Proof.Machine.execTfuse core s
  | .tmv core => Sys2Proof.Machine.execTmv core s
  | .tdw core => Sys2Proof.Machine.execTdw core s
  | .tvec core => Sys2Proof.Machine.execTvec core s
  | .tqnt core => Sys2Proof.Machine.execTqnt core s
  | .lookup core => Sys2Proof.Machine.execLookup core s
  | .update core => Sys2Proof.Machine.execUpdate core s
  | .stateLoad core => Sys2Proof.Machine.execStateLoad core s
  | .stateStore core => Sys2Proof.Machine.execStateStore core s
  | .tokenPut core => Sys2Proof.Machine.execTokenPut core s
  | .tokenGet core => Sys2Proof.Machine.execTokenGet core s
  | .tdet core => Sys2Proof.Machine.execTdet core s
  | .tdraw core => Sys2Proof.Machine.execTdraw core s
  | .tcommit core => Sys2Proof.Machine.execTcommit core s
  | .twait core => Sys2Proof.Machine.execTwait core s
  | .tsignal core => Sys2Proof.Machine.execTsignal core s
  | .syncWaitSatisfied w => Sys2Proof.Machine.execSyncWaitSatisfied w s
  | .phaseChange core => Sys2Proof.Machine.execPhaseChange core s
  | .opeDrainDone core ope quad bank => Sys2Proof.Machine.execOpeDrainDone core ope quad bank s
  | .tileFinish core => Sys2Proof.Machine.execTileFinish core s
  | .coreParkWrite core value => Sys2Proof.Machine.execCoreParkWrite core value s
  | .freqTargetWrite core value => Sys2Proof.Machine.execFreqTargetWrite core value s
  | .clockGlideStep core => Sys2Proof.Machine.execClockGlideStep core s
  | .sandFillStep core ope quad => Sys2Proof.Machine.execSandFillStep core ope quad s
  | .coreTmDataAccess core write => Sys2Proof.Machine.execCoreTmDataAccess core write s
  | .leaseExpiry tsn => Sys2Proof.Machine.execLeaseExpiry tsn s
  | .detSuppress lgn => Sys2Proof.Machine.execDetSuppress lgn s
  | .ctxEffectsApply => Sys2Proof.Machine.execCtxEffectsApply s
  | .tokenSend lgn => Sys2Proof.Machine.execTokenSend lgn s
  | .ctxClearWrite value => Sys2Proof.Machine.execCtxClearWrite value s
  | .ctxClearDone => Sys2Proof.Machine.execCtxClearDone s
  | .dramRefresh channel bank => Sys2Proof.Machine.execDramRefresh channel bank s
  | .dramScrubRead channel found => Sys2Proof.Machine.execDramScrubRead channel found s
  | .fetchFillStart stream lgn => Sys2Proof.Machine.execFetchFillStart stream lgn s
  | .fetchFillDone stream lgn => Sys2Proof.Machine.execFetchFillDone stream lgn s
  | .spillStart stream lgn => Sys2Proof.Machine.execSpillStart stream lgn s
  | .spillDone stream lgn => Sys2Proof.Machine.execSpillDone stream lgn s
  | .streamRunahead queue => Sys2Proof.Machine.execStreamRunahead queue s
  | .mcastDeliveryStart stream => Sys2Proof.Machine.execMcastDeliveryStart stream s
  | .mcastCutout stream core => Sys2Proof.Machine.execMcastCutout stream core s
  | .landingCopy port => Sys2Proof.Machine.execLandingCopy port s
  | .extensionRefill port => Sys2Proof.Machine.execExtensionRefill port s
  | .resultRecordWrite ring => Sys2Proof.Machine.execResultRecordWrite ring s
  | .spoolCopy ring => Sys2Proof.Machine.execSpoolCopy ring s
  | .streamCopyGo value => Sys2Proof.Machine.execStreamCopyGo value s
  | .copyDone copy => Sys2Proof.Machine.execCopyDone copy s
  | .oasisQpowerWrite value => Sys2Proof.Machine.execOasisQpowerWrite value s
  | .cqPiWrite queue pi => Sys2Proof.Machine.execCqPiWrite queue pi s
  | .commandRead queue => Sys2Proof.Machine.execCommandRead queue s
  | .jobStart queue => Sys2Proof.Machine.execJobStart queue s
  | .copyCommand queue => Sys2Proof.Machine.execCopyCommand queue s
  | .signalCommand queue => Sys2Proof.Machine.execSignalCommand queue s
  | .waitCommand queue => Sys2Proof.Machine.execWaitCommand queue s
  | .jobComplete tag => Sys2Proof.Machine.execJobComplete tag s
  | .completionRecordWrite queue => Sys2Proof.Machine.execCompletionRecordWrite queue s
  | .ringCiWrite ring ci => Sys2Proof.Machine.execRingCiWrite ring ci s
  | .ringSlotsWrite ring slots => Sys2Proof.Machine.execRingSlotsWrite ring slots s
  | .eventRecordWrite => Sys2Proof.Machine.execEventRecordWrite s
  | .cmdAbort value => Sys2Proof.Machine.execCmdAbort value s
  | .cmdSyncValueWrite value => Sys2Proof.Machine.execCmdSyncValueWrite value s
  | .cmdSyncAdd value => Sys2Proof.Machine.execCmdSyncAdd value s
  | .cqRestart queue => Sys2Proof.Machine.execCqRestart queue s
  | .linkLanesLocked link lanes => Sys2Proof.Machine.execLinkLanesLocked link lanes s
  | .linkDeskewDone link => Sys2Proof.Machine.execLinkDeskewDone link s
  | .trainingMessageSend link => Sys2Proof.Machine.execTrainingMessageSend link s
  | .trainingMessageRx link message => Sys2Proof.Machine.execTrainingMessageRx link message s
  | .linkTrainTimeout link => Sys2Proof.Machine.execLinkTrainTimeout link s
  | .linkFailedExpiry link => Sys2Proof.Machine.execLinkFailedExpiry link s
  | .linkRetrainTimeout link => Sys2Proof.Machine.execLinkRetrainTimeout link s
  | .laneFault link lane => Sys2Proof.Machine.execLaneFault link lane s
  | .linkCtrlRetrain link value => Sys2Proof.Machine.execLinkCtrlRetrain link value s
  | .flitReceive link flit => Sys2Proof.Machine.execFlitReceive link flit s
  | .flitTransmit link => Sys2Proof.Machine.execFlitTransmit link s
  | .replayTimeout link => Sys2Proof.Machine.execReplayTimeout link s
  | .replayProgressTimeout link => Sys2Proof.Machine.execReplayProgressTimeout link s
  | .haloMsgRx link => Sys2Proof.Machine.execHaloMsgRx link s
  | .ctxedgeMsgRx link => Sys2Proof.Machine.execCtxedgeMsgRx link s
  | .tokensMsgRx link => Sys2Proof.Machine.execTokensMsgRx link s
  | .boxesMsgRx link => Sys2Proof.Machine.execBoxesMsgRx link s
  | .barrierMsgRx link => Sys2Proof.Machine.execBarrierMsgRx link s
  | .chainMsgRx link => Sys2Proof.Machine.execChainMsgRx link s
  | .chainMsgSend link => Sys2Proof.Machine.execChainMsgSend link s
  | .pingSend link => Sys2Proof.Machine.execPingSend link s
  | .pingRx link => Sys2Proof.Machine.execPingRx link s
  | .pongRx link => Sys2Proof.Machine.execPongRx link s
  | .caravanPortLinkChange change => Sys2Proof.Machine.execCaravanPortLinkChange change s
  | .caravanFrameForward frame outbound => Sys2Proof.Machine.execCaravanFrameForward frame outbound s
  | .caravanFrameProcess frame fcsOk => Sys2Proof.Machine.execCaravanFrameProcess frame fcsOk s
  | .crvSlowRequestDone ticket => Sys2Proof.Machine.execCrvSlowRequestDone ticket s
  | .crvTicketExpiry ticket => Sys2Proof.Machine.execCrvTicketExpiry ticket s
  | .crvWatchdogExpiry => Sys2Proof.Machine.execCrvWatchdogExpiry s
  | .bar4Write offset size value => Sys2Proof.Machine.execBar4Write offset size value s
  | .mbRead => Sys2Proof.Machine.execMbRead s
  | .mbWrite last => Sys2Proof.Machine.execMbWrite last s
  | .mbWriteAt last => Sys2Proof.Machine.execMbWriteAt last s
  | .mbCancelAt => Sys2Proof.Machine.execMbCancelAt s
  | .mbDescribe => Sys2Proof.Machine.execMbDescribe s
  | .armedEntry => Sys2Proof.Machine.execArmedEntry s
  | .runEntry => Sys2Proof.Machine.execRunEntry s
  | .holdEntry => Sys2Proof.Machine.execHoldEntry s
  | .holdExit => Sys2Proof.Machine.execHoldExit s
  | .preopEntry => Sys2Proof.Machine.execPreopEntry s
  | .safeEntry internalError => Sys2Proof.Machine.execSafeEntry internalError s
  | .powerOnReset => Sys2Proof.Machine.execPowerOnReset s
  | .perstAssert => Sys2Proof.Machine.execPerstAssert s
  | .resetEnd => Sys2Proof.Machine.execResetEnd s
  | .dramInitDone ok => Sys2Proof.Machine.execDramInitDone ok s
  | .authEnd => Sys2Proof.Machine.execAuthEnd s
  | .bootWatchdogExpiry => Sys2Proof.Machine.execBootWatchdogExpiry s
  | .configRequest access => Sys2Proof.Machine.execConfigRequest access s
  | .pcieLinkChange up speed width => Sys2Proof.Machine.execPcieLinkChange up speed width s
  | .functionLevelReset => Sys2Proof.Machine.execFunctionLevelReset s
  | .hotReset => Sys2Proof.Machine.execHotReset s
  | .glbResetWrite value => Sys2Proof.Machine.execGlbResetWrite value s
  | .d3hotEntry => Sys2Proof.Machine.execD3hotEntry s
  | .busMasterChange on => Sys2Proof.Machine.execBusMasterChange on s
  | .bar0BadAccess isWrite => Sys2Proof.Machine.execBar0BadAccess isWrite s
  | .oasisWindowAccess offset size write => Sys2Proof.Machine.execOasisWindowAccess offset size write s
  | .msixUnmask vector => Sys2Proof.Machine.execMsixUnmask vector s
  | .irqHoldoffExpiry vector => Sys2Proof.Machine.execIrqHoldoffExpiry vector s
  | .hostAccessError req kind addr => Sys2Proof.Machine.execHostAccessError req kind addr s
  | .ptmDialogueStart => Sys2Proof.Machine.execPtmDialogueStart s
  | .ptmDialogueDone t2 t3 => Sys2Proof.Machine.execPtmDialogueDone t2 t3 s
  | .ptmDialogueFail => Sys2Proof.Machine.execPtmDialogueFail s
  | .trimCmdMakeDue value => Sys2Proof.Machine.execTrimCmdMakeDue value s
  | .trimCmdForce value => Sys2Proof.Machine.execTrimCmdForce value s
  | .trimRotationDue => Sys2Proof.Machine.execTrimRotationDue s
  | .d2dErrorThreshold engine => Sys2Proof.Machine.execD2dErrorThreshold engine s
  | .trimItemStart => Sys2Proof.Machine.execTrimItemStart s
  | .trimItemDone kind unit faulty outNs => Sys2Proof.Machine.execTrimItemDone kind unit faulty outNs s
  | .trimOverdue kind unit => Sys2Proof.Machine.execTrimOverdue kind unit s
  | .telemetrySample values => Sys2Proof.Machine.execTelemetrySample values s
  | .supplyWarning mv => Sys2Proof.Machine.execSupplyWarning mv s
  | .stretchEnd mv => Sys2Proof.Machine.execStretchEnd mv s
  | .warningClear quietNs mv => Sys2Proof.Machine.execWarningClear quietNs mv s
  | .vddResetLevel mv => Sys2Proof.Machine.execVddResetLevel mv s
  | .railMonitorFall rail => Sys2Proof.Machine.execRailMonitorFall rail s
  | .avsTargetChange mv => Sys2Proof.Machine.execAvsTargetChange mv s
  | .avsTargetReached => Sys2Proof.Machine.execAvsTargetReached s
  | .avsTimeout readingMv => Sys2Proof.Machine.execAvsTimeout readingMv s
  | .powerEstimate watts => Sys2Proof.Machine.execPowerEstimate watts s
  | .sustainedCapStep meanWatts => Sys2Proof.Machine.execSustainedCapStep meanWatts s
  | .thermalSample junction stack => Sys2Proof.Machine.execThermalSample junction stack s
  | .thermalCapStep => Sys2Proof.Machine.execThermalCapStep s
  | .sysRefclkLoss => Sys2Proof.Machine.execSysRefclkLoss s
  | .safVerify value => Sys2Proof.Machine.execSafVerify value s
  | .safProgram value => Sys2Proof.Machine.execSafProgram value s
  | .safSetBoot value => Sys2Proof.Machine.execSafSetBoot value s
  | .safReboot value => Sys2Proof.Machine.execSafReboot value s
  | .safCommitVersion value => Sys2Proof.Machine.execSafCommitVersion value s
  | .safRevoke value => Sys2Proof.Machine.execSafRevoke value s
  | .safAttest value => Sys2Proof.Machine.execSafAttest value s
  | .safOpDone flashOk => Sys2Proof.Machine.execSafOpDone flashOk s
  | .attestationDone => Sys2Proof.Machine.execAttestationDone s
  | .integrityCheck mismatch => Sys2Proof.Machine.execIntegrityCheck mismatch s
  | .integrityResetTimeout => Sys2Proof.Machine.execIntegrityResetTimeout s
  | .ledgerSpillCopy => Sys2Proof.Machine.execLedgerSpillCopy s
  | .ledgerSpillCiWrite ci => Sys2Proof.Machine.execLedgerSpillCiWrite ci s
  | .ledgerReadSeqWrite seq => Sys2Proof.Machine.execLedgerReadSeqWrite seq s
  | .genericRegisterWrite access value => Sys2Proof.Machine.execGenericRegisterWrite access value s
  | .registerReadClear access => Sys2Proof.Machine.execRegisterReadClear access s
  | .pwrGoodFall => Sys2Proof.Machine.execPwrGoodFall s
  | .authBegin => Sys2Proof.Machine.execAuthBegin s
  | .caravanForwardingBegin => Sys2Proof.Machine.execCaravanForwardingBegin s
  | .d3hotToD0 => Sys2Proof.Machine.execD3hotToD0 s
  | .ptmEnableChange on => Sys2Proof.Machine.execPtmEnableChange on s
  | .bar4Read offset size => Sys2Proof.Machine.execBar4Read offset size s
  | .lowWordRead access => Sys2Proof.Machine.execLowWordRead access s

end Sys2Proof.Machine
end

