-- ==== Sys2Proof/Machine/Frames.lean ====
section
/-! DEFINITION. The parts of the state, and which of them each command may change: the frame of every command, in the terms that statements use. -/

namespace Sys2Proof.Machine

/-- The parts of the state. Some fields of the state are several parts: `dev` is the device state, the rest of it, and the times of the last rate-limited
events; `web` is the encoder, the line sequence, and the rest; `pcie` is the messages that wait, and the rest; `ledger` has its chain, `saf` its flash. -/
inductive Part where
  | dt | devState | dev | rate | enc | line | web | ports | fsPorts | slices | tensors | cores | cmd | ctx | det | links | trim
  | regs | dict | blobs | doors | irq | pcie | crv | chain | ledger | flash | saf | pwr | hostMem | dram | oasis | poison | events | out | free
  deriving DecidableEq, Repr

/-- The part of the web model that triggers alone advance (R22, R23). -/
@[reducible] def Web.line (w : Web) : Int × Nat × Bool := (w.x, w.lastLsn, w.triggered)
/-- The ledger's chain. -/
@[reducible] def Ledger.chain (g : Ledger) : List LedgerEntry × Nat × List Byte := (g.entries, g.count, g.headHash)

/-- The part is the same in both states. -/
@[reducible] def Part.same : Part → State → State → Prop
  | .dt, s, t => t.dt = s.dt
  | .devState, s, t => t.dev.state = s.dev.state
  | .dev, s, t => t.dev.request = s.dev.request ∧ t.dev.safeCause = s.dev.safeCause ∧ t.dev.resetHeld = s.dev.resetHeld ∧
      t.dev.powerGood = s.dev.powerGood ∧ t.dev.firstEntryDone = s.dev.firstEntryDone ∧ t.dev.authEnded = s.dev.authEnded
  | .rate, s, t => t.dev.eventTimes = s.dev.eventTimes
  | .enc, s, t => t.web.pos = s.web.pos ∧ t.web.high = s.web.high ∧ t.web.next = s.web.next ∧ t.web.timerStart = s.web.timerStart ∧
      t.web.windowCounts = s.web.windowCounts ∧ t.web.encLevels = s.web.encLevels
  | .line, s, t => t.web.line = s.web.line
  | .web, s, t => t.web.lastTrigger = s.web.lastTrigger ∧ t.web.completeGroup = s.web.completeGroup ∧ t.web.completeDt = s.web.completeDt ∧ t.web.firstSeen = s.web.firstSeen ∧
      t.web.shortParts = s.web.shortParts ∧ t.web.runGroup = s.web.runGroup
  | .ports, s, t => t.ports = s.ports
  | .fsPorts, s, t => t.fsPorts = s.fsPorts
  | .slices, s, t => t.slices = s.slices
  | .tensors, s, t => t.tensors = s.tensors
  | .cores, s, t => t.cores = s.cores
  | .cmd, s, t => t.cmd = s.cmd
  | .ctx, s, t => t.ctx = s.ctx
  | .det, s, t => t.det = s.det
  | .links, s, t => t.links = s.links
  | .trim, s, t => t.trim = s.trim
  | .regs, s, t => t.regs = s.regs
  | .dict, s, t => t.dict = s.dict
  | .blobs, s, t => t.blobs = s.blobs
  | .doors, s, t => t.doors = s.doors
  | .irq, s, t => t.pcie.msixPending = s.pcie.msixPending ∧ t.pcie.heldOff = s.pcie.heldOff ∧ t.pcie.lastSent = s.pcie.lastSent
  | .pcie, s, t => t.pcie.linkUp = s.pcie.linkUp ∧ t.pcie.speed = s.pcie.speed ∧ t.pcie.width = s.pcie.width ∧
      t.pcie.linkedSinceReset = s.pcie.linkedSinceReset ∧ t.pcie.busMaster = s.pcie.busMaster ∧ t.pcie.d3hot = s.pcie.d3hot ∧
      t.pcie.ptmEnable = s.pcie.ptmEnable ∧ t.pcie.msixEnable = s.pcie.msixEnable ∧ t.pcie.msixFunctionMask = s.pcie.msixFunctionMask ∧
      t.pcie.cfg = s.pcie.cfg ∧ t.pcie.counterLatch = s.pcie.counterLatch ∧ t.pcie.ptmT1 = s.pcie.ptmT1 ∧ t.pcie.ptmGood = s.pcie.ptmGood ∧ t.pcie.ptmFails = s.pcie.ptmFails
  | .crv, s, t => t.crv = s.crv
  | .chain, s, t => t.ledger.chain = s.ledger.chain
  | .ledger, s, t => t.ledger.genesisPrev = s.ledger.genesisPrev ∧ t.ledger.spilled = s.ledger.spilled ∧ t.ledger.high = s.ledger.high ∧
      t.ledger.lostUnnamed = s.ledger.lostUnnamed ∧ t.ledger.lostFirst = s.ledger.lostFirst ∧ t.ledger.lastLostEntry = s.ledger.lastLostEntry ∧
      t.ledger.readWindow = s.ledger.readWindow
  | .flash, s, t => t.saf.flash = s.saf.flash
  | .saf, s, t => t.saf.secFused = s.saf.secFused ∧ t.saf.revoked = s.saf.revoked ∧ t.saf.image = s.saf.image ∧ t.saf.codes = s.saf.codes ∧
      t.saf.op = s.saf.op ∧ t.saf.aliasSeed = s.saf.aliasSeed ∧ t.saf.attesting = s.saf.attesting ∧
      t.saf.integrityPending = s.saf.integrityPending ∧ t.saf.cmdWritten = s.saf.cmdWritten
  | .pwr, s, t => t.pwr = s.pwr
  | .hostMem, s, t => t.hostMem = s.hostMem
  | .dram, s, t => t.dram = s.dram
  | .oasis, s, t => t.oasis = s.oasis
  | .poison, s, t => t.dramPoison = s.dramPoison ∧ t.oasisPoison = s.oasisPoison ∧ t.dramSingle = s.dramSingle ∧ t.oasisSingle = s.oasisSingle
  | .events, s, t => t.events = s.events
  | .out, s, t => t.out = s.out
  | .free, s, t => t.memEpoch = s.memEpoch ∧ t.freeCtr = s.freeCtr

/-- Every part. -/
def Part.all : List Part :=
  [.dt, .devState, .dev, .rate, .enc, .line, .web, .ports, .fsPorts, .slices, .tensors, .cores, .cmd, .ctx, .det, .links, .trim, .regs, .dict, .blobs, .doors,
   .irq, .pcie, .crv, .chain, .ledger, .flash, .saf, .pwr, .hostMem, .dram, .oasis, .poison, .events, .out, .free]

end Sys2Proof.Machine

namespace Sys2Proof

/-- The parts of the state that a command may change. Every other part is as before in any next state that the command answers. -/
def Instr.touches : Instr → List Machine.Part
  | .encoderCount _ | .lineTimerExpiry =>
    [.enc, .line, .web, .ports, .fsPorts, .slices, .ctx, .links, .regs, .dict, .doors, .irq, .chain, .ledger, .events, .out]
  | .encoderIllegalTransition => [.rate, .enc, .dict, .events]
  | .countRateWindow => [.enc, .dict]
  | .groupCancel _ => [.fsPorts, .slices, .cores, .cmd, .det, .links, .regs, .dict, .irq, .hostMem, .oasis, .events, .out, .free]
  | .scheduledWriteApply _ =>
    [.rate, .enc, .web, .ports, .fsPorts, .slices, .cores, .ctx, .links, .regs, .dict, .doors, .irq, .pcie, .crv, .chain, .ledger, .pwr,
     .events, .out]
  | .tokenDeadline _ => [.ctx, .regs, .dict, .irq, .dram, .poison, .events, .out]
  | .stateDeadline _ | .lookup _ | .update _ | .stateLoad _ =>
    [.rate, .tensors, .cores, .cmd, .ctx, .trim, .regs, .dict, .doors, .irq, .chain, .ledger, .dram, .oasis, .poison, .events, .out, .free]
  | .haloDeadline _ | .tdraw _ | .twait _ | .phaseChange _ => [.cores, .cmd, .regs, .dict, .irq, .events, .out]
  | .haloChannelDeadline _ _ _ | .signalCommand _ | .cmdSyncValueWrite _ | .cmdSyncAdd _ | .haloMsgRx _ | .ctxedgeMsgRx _ =>
    [.rate, .tensors, .cmd, .links, .trim, .regs, .dict, .doors, .irq, .chain, .ledger, .dram, .oasis, .poison, .events, .out, .free]
  | .detMergeDeadline _ => [.cmd, .det, .regs, .irq, .events, .out]
  | .neighbourSilent _ | .flitReceive _ _ | .chainMsgRx _ => [.links, .regs, .irq, .events, .out]
  | .lightOkRise _ | .pongRx _ => [.links, .dict]
  | .lightOkFall _ => [.web, .ports, .fsPorts, .slices, .links, .regs, .dict, .doors, .irq, .chain, .ledger, .events, .out]
  | .laneLockGain _ _ => [.ports, .dict, .out]
  | .laneLockLoss _ _ | .pixelDataPacket _ _ _ | .frameEnd _ _ | .lineDataTimeout _ | .lineTimeoutAbsent _ =>
    [.web, .ports, .fsPorts, .slices, .regs, .dict, .doors, .irq, .chain, .ledger, .events, .out]
  | .discoveryLockTimeout _ | .ccTimeout _ => [.ports, .regs, .dict, .irq, .events, .out]
  | .ccReply _ _ _ => [.ports, .regs, .dict, .blobs, .irq, .events, .out]
  | .camCcRead _ | .camCcWrite _ => [.ports, .regs, .dict, .irq, .chain, .ledger, .events, .out]
  | .heartbeatSend _ | .trainingMessageSend _ => [.out]
  | .heartbeatReceive _ => [.ports]
  | .heartbeatTimeout _ => [.ports, .regs, .irq, .events, .out]
  | .cameraEventPacket _ _ | .dramRefresh _ _ | .cqPiWrite _ _ => [.regs, .irq, .events, .out]
  | .imageHeader _ _ _ _ _ | .lineMarker _ _ | .checkFailedPacket _ _ _ =>
    [.line, .web, .ports, .fsPorts, .slices, .cores, .cmd, .ctx, .det, .links, .regs, .dict, .doors, .irq, .chain, .ledger, .hostMem, .oasis,
     .events, .out, .free]
  | .malformedPacket _ => [.ports, .regs, .irq, .out]
  | .lineReleaseTimeout _ => [.web, .ports, .slices, .regs, .dict, .events]
  | .fsLineStart _ => [.rate, .ports, .fsPorts, .slices, .trim, .regs, .dict, .doors, .irq, .chain, .ledger, .poison, .events, .out]
  | .fsLineWrite _ => [.ports, .fsPorts, .slices, .regs, .dict, .irq, .chain, .ledger, .oasis, .poison, .events, .out]
  | .memoryPathStore _ => [.ports, .fsPorts, .regs, .irq, .dram, .poison, .events, .out]
  | .fsTblDataAccess _ _ => [.fsPorts, .regs, .irq, .out, .free]
  | .fsTblCommit _ _ => [.fsPorts, .regs, .dict, .irq, .chain, .ledger, .events, .out]
  | .tableCopyDone _ | .ffComputeDone _ => [.fsPorts]
  | .tableInitDone _ => [.slices]
  | .ffPeriodEnd _ => [.fsPorts, .regs, .dict, .irq, .events, .out]
  | .trackedGroupClose _ _ =>
    [.rate, .tensors, .cmd, .trim, .regs, .dict, .doors, .irq, .chain, .ledger, .hostMem, .dram, .oasis, .poison, .events, .out, .free]
  | .coreDispatch _ => [.rate, .fsPorts, .slices, .cores, .cmd, .det, .regs, .dict, .irq, .hostMem, .dram, .oasis, .events, .out, .free]
  | .tnop _ | .opeDrainDone _ _ _ _ | .clockGlideStep _ => [.cores]
  | .tload _ | .tmm _ | .tconv _ | .tfuse _ | .tmv _ | .tdw _ | .tvec _ | .tqnt _ | .stateStore _ | .tokenPut _ | .tokenGet _ =>
    [.rate, .tensors, .cores, .cmd, .trim, .regs, .dict, .doors, .irq, .chain, .ledger, .dram, .oasis, .poison, .events, .out, .free]
  | .tstore _ => [.cores, .cmd, .regs, .irq, .oasis, .poison, .events, .out, .free]
  | .tdet _ =>
    [.rate, .tensors, .cores, .cmd, .det, .trim, .regs, .dict, .doors, .irq, .chain, .ledger, .dram, .oasis, .poison, .events, .out, .free]
  | .tcommit _ => [.tensors, .cores, .cmd, .ctx, .det, .regs, .dict, .irq, .oasis, .events, .out]
  | .tsignal _ =>
    [.rate, .tensors, .cores, .cmd, .links, .trim, .regs, .dict, .doors, .irq, .chain, .ledger, .dram, .oasis, .poison, .events, .out, .free]
  | .syncWaitSatisfied _ => [.cores, .cmd]
  | .tileFinish _ => [.fsPorts, .slices, .cores, .cmd, .regs, .dict, .irq, .events, .out, .free]
  | .coreParkWrite _ _ | .freqTargetWrite _ _ | .bar4Write _ _ _ | .mbWriteAt _ =>
    [.dev, .rate, .enc, .web, .ports, .fsPorts, .slices, .cores, .ctx, .links, .regs, .dict, .doors, .irq, .pcie, .crv, .chain, .ledger, .pwr,
     .events, .out]
  | .sandFillStep _ _ _ => [.cores, .regs]
  | .coreTmDataAccess _ _ => [.cores, .cmd, .regs, .irq, .events, .out]
  | .leaseExpiry _ => [.cmd, .regs, .dict, .irq, .events, .out]
  | .detSuppress _ => [.cmd, .det, .links, .regs, .dict, .doors, .irq, .chain, .ledger, .events, .out, .free]
  | .ctxEffectsApply => [.rate, .ctx, .trim, .regs, .dict, .irq, .dram, .poison, .events, .out]
  | .tokenSend _ => [.rate, .ctx, .links, .trim, .regs, .dict, .irq, .poison, .events, .out]
  | .ctxClearWrite _ => [.ctx, .regs, .dict, .irq, .chain, .ledger, .events, .out]
  | .ctxClearDone => [.ctx, .regs, .irq, .dram, .poison, .events, .out]
  | .dramScrubRead _ _ => [.rate, .trim, .regs, .dict, .irq, .poison, .events, .out]
  | .fetchFillStart _ _ => [.cmd, .oasis]
  | .fetchFillDone _ _ => [.rate, .cmd, .trim, .regs, .dict, .irq, .oasis, .poison, .events, .out, .free]
  | .spillStart _ _ | .waitCommand _ => [.cmd]
  | .spillDone _ _ | .copyDone _ | .completionRecordWrite _ =>
    [.rate, .tensors, .cmd, .links, .trim, .regs, .dict, .doors, .irq, .chain, .ledger, .hostMem, .dram, .oasis, .poison, .events, .out, .free]
  | .streamRunahead _ | .streamCopyGo _ | .copyCommand _ => [.rate, .cmd, .trim, .regs, .dict, .irq, .poison, .events, .out]
  | .mcastDeliveryStart _ => [.rate, .cores, .cmd, .trim, .regs, .dict, .irq, .poison, .events, .out, .free]
  | .mcastCutout _ _ => [.cmd, .regs, .irq, .events, .out, .free]
  | .landingCopy _ => [.rate, .fsPorts, .cmd, .regs, .irq, .dram, .oasis, .poison, .events, .out, .free]
  | .extensionRefill _ => [.rate, .fsPorts, .cmd, .trim, .regs, .dict, .irq, .oasis, .poison, .events, .out, .free]
  | .resultRecordWrite _ => [.rate, .cmd, .trim, .regs, .dict, .irq, .hostMem, .poison, .events, .out, .free]
  | .spoolCopy _ => [.rate, .cmd, .trim, .regs, .dict, .irq, .hostMem, .dram, .oasis, .poison, .events, .out, .free]
  | .oasisQpowerWrite _ => [.regs, .pwr, .oasis, .poison]
  | .commandRead _ => [.cmd, .regs, .irq, .events, .out]
  | .jobStart _ => [.rate, .cmd, .trim, .regs, .dict, .irq, .dram, .poison, .events, .out, .free]
  | .jobComplete _ => [.fsPorts, .slices, .cores, .cmd, .regs, .irq, .dram, .events, .out, .free]
  | .ringCiWrite _ _ => [.cmd, .regs, .irq, .hostMem, .events, .out]
  | .ringSlotsWrite _ _ => [.cmd, .regs, .irq, .hostMem, .out]
  | .eventRecordWrite => [.cmd, .regs, .dict, .irq, .hostMem, .events, .out]
  | .cmdAbort _ => [.fsPorts, .slices, .cores, .cmd, .det, .regs, .dict, .irq, .hostMem, .dram, .oasis, .events, .out, .free]
  | .cqRestart _ => [.regs]
  | .linkLanesLocked _ _ | .linkDeskewDone _ | .chainMsgSend _ | .pingSend _ | .pingRx _ => [.links]
  | .trainingMessageRx _ _ | .linkTrainTimeout _ | .linkFailedExpiry _ | .linkRetrainTimeout _ => [.links, .regs, .dict, .irq, .events, .out]
  | .laneFault _ _ | .linkCtrlRetrain _ _ | .replayTimeout _ | .replayProgressTimeout _ => [.links, .regs]
  | .flitTransmit _ => [.links, .regs, .out]
  | .tokensMsgRx _ => [.ctx, .links, .regs, .irq, .dram, .poison, .events, .out]
  | .boxesMsgRx _ => [.cmd, .det, .links, .regs, .irq, .events, .out]
  | .barrierMsgRx _ => [.dev, .links, .regs, .dict, .irq, .events, .out]
  | .caravanPortLinkChange _ => [.rate, .regs, .dict, .irq, .crv, .events, .out]
  | .caravanFrameForward _ _ | .caravanFrameProcess _ _ =>
    [.dt, .dev, .rate, .enc, .web, .ports, .fsPorts, .slices, .cores, .ctx, .links, .regs, .dict, .doors, .irq, .pcie, .crv, .chain, .ledger,
     .pwr, .events, .out, .free]
  | .crvSlowRequestDone _ | .mbWrite _ =>
    [.dev, .rate, .enc, .web, .ports, .fsPorts, .slices, .cores, .ctx, .links, .regs, .dict, .blobs, .doors, .irq, .pcie, .crv, .chain, .ledger,
     .saf, .pwr, .events, .out]
  | .crvTicketExpiry _ => [.regs, .crv]
  | .crvWatchdogExpiry => [.dev, .rate, .regs, .dict, .irq, .crv, .events, .out]
  | .mbRead | .mbCancelAt | .mbDescribe => [.regs, .doors, .irq, .out]
  | .armedEntry =>
    [.devState, .dev, .enc, .line, .web, .ports, .fsPorts, .slices, .tensors, .cores, .cmd, .ctx, .det, .links, .regs, .dict, .doors, .irq,
     .crv, .chain, .ledger, .events, .out]
  | .runEntry => [.devState, .dev, .regs, .dict, .doors, .irq, .crv, .chain, .ledger, .events, .out]
  | .holdEntry => [.devState, .dev, .web, .fsPorts, .regs, .dict, .doors, .irq, .crv, .chain, .ledger, .events, .out]
  | .holdExit => [.devState, .dev, .enc, .regs, .dict, .doors, .irq, .crv, .chain, .ledger, .events, .out]
  | .preopEntry =>
    [.devState, .dev, .web, .ports, .fsPorts, .slices, .cores, .cmd, .ctx, .det, .links, .trim, .regs, .dict, .doors, .irq, .crv, .chain,
     .ledger, .pwr, .hostMem, .dram, .oasis, .events, .out, .free]
  | .safeEntry _ =>
    [.devState, .dev, .ports, .fsPorts, .slices, .cores, .cmd, .ctx, .det, .links, .trim, .regs, .dict, .doors, .irq, .crv, .chain, .ledger,
     .pwr, .hostMem, .dram, .oasis, .events, .out, .free]
  | .powerOnReset | .perstAssert | .bootWatchdogExpiry | .glbResetWrite _ | .vddResetLevel _ | .railMonitorFall _ | .thermalSample _ _
  | .sysRefclkLoss | .safReboot _ | .integrityResetTimeout | .genericRegisterWrite _ _ | .pwrGoodFall =>
    [.dt, .devState, .dev, .rate, .enc, .line, .web, .ports, .fsPorts, .slices, .tensors, .cores, .cmd, .ctx, .det, .links, .trim, .regs, .dict,
     .blobs, .doors, .irq, .pcie, .crv, .chain, .ledger, .flash, .saf, .pwr, .hostMem, .dram, .oasis, .poison, .events, .out, .free]
  | .resetEnd => [.dev, .dict, .pwr]
  | .dramInitDone _ =>
    [.devState, .dev, .web, .ports, .fsPorts, .slices, .cores, .cmd, .ctx, .det, .links, .trim, .regs, .dict, .doors, .irq, .chain, .ledger,
     .pwr, .hostMem, .dram, .oasis, .events, .out, .free]
  | .authEnd =>
    [.devState, .dev, .web, .ports, .fsPorts, .slices, .cores, .cmd, .ctx, .det, .links, .trim, .regs, .dict, .blobs, .doors, .irq, .chain,
     .ledger, .flash, .saf, .pwr, .hostMem, .dram, .oasis, .events, .out, .free]
  | .configRequest _ | .pcieLinkChange _ _ _ | .functionLevelReset | .hotReset =>
    [.devState, .dev, .rate, .web, .ports, .fsPorts, .slices, .cores, .cmd, .ctx, .det, .links, .trim, .regs, .dict, .doors, .irq, .pcie, .crv,
     .chain, .ledger, .pwr, .hostMem, .dram, .oasis, .events, .out, .free]
  | .d3hotEntry | .busMasterChange _ | .d3hotToD0 => [.regs, .irq, .pcie, .out]
  | .bar0BadAccess _ | .msixUnmask _ | .irqHoldoffExpiry _ | .ledgerSpillCiWrite _ => [.regs, .irq, .out]
  | .oasisWindowAccess _ _ _ => [.rate, .regs, .irq, .oasis, .poison, .events, .out, .free]
  | .hostAccessError _ _ _ => [.rate, .cmd, .regs, .irq, .hostMem, .dram, .oasis, .events, .out, .free]
  | .ptmDialogueStart => [.pcie, .out]
  | .ptmDialogueDone _ _ => [.dt, .rate, .regs, .dict, .irq, .pcie, .crv, .events, .out, .free]
  | .ptmDialogueFail | .ptmEnableChange _ => [.rate, .regs, .dict, .irq, .pcie, .events, .out]
  | .trimCmdMakeDue _ => [.trim, .regs, .irq, .out]
  | .trimCmdForce _ | .trimItemStart =>
    [.web, .ports, .fsPorts, .slices, .cores, .cmd, .links, .trim, .regs, .dict, .doors, .irq, .chain, .ledger, .events, .out]
  | .trimRotationDue => [.trim]
  | .d2dErrorThreshold _ => [.trim, .regs, .free]
  | .trimItemDone _ _ _ _ => [.cores, .links, .trim, .regs, .dict, .irq, .chain, .ledger, .events, .out]
  | .trimOverdue _ _ => [.trim, .regs, .irq, .events, .out]
  | .telemetrySample _ => [.regs, .dict]
  | .supplyWarning _ => [.cores, .regs, .dict, .irq, .chain, .ledger, .pwr, .events, .out]
  | .stretchEnd _ => [.regs, .pwr]
  | .warningClear _ _ | .thermalCapStep => [.regs, .dict, .irq, .chain, .ledger, .pwr, .events, .out]
  | .avsTargetChange _ => [.pwr, .out]
  | .avsTargetReached | .avsTimeout _ => [.regs, .dict, .irq, .chain, .ledger, .pwr, .events, .out, .free]
  | .powerEstimate _ => [.rate, .regs, .dict, .irq, .pwr, .events, .out]
  | .sustainedCapStep _ => [.rate, .regs, .dict, .irq, .chain, .ledger, .pwr, .events, .out]
  | .safVerify _ | .safProgram _ | .safSetBoot _ | .safCommitVersion _ | .safRevoke _ | .safAttest _ =>
    [.rate, .regs, .dict, .irq, .chain, .ledger, .saf, .events, .out, .free]
  | .safOpDone _ => [.regs, .dict, .irq, .chain, .ledger, .flash, .saf, .events, .out]
  | .attestationDone => [.regs, .dict, .blobs, .irq, .saf, .events, .out]
  | .integrityCheck _ => [.dev, .regs, .dict, .irq, .chain, .ledger, .saf, .events, .out]
  | .ledgerSpillCopy => [.regs, .irq, .ledger, .hostMem, .events, .out]
  | .ledgerReadSeqWrite _ => [.regs, .ledger]
  | .registerReadClear _ | .lowWordRead _ => [.rate, .fsPorts, .cores, .cmd, .regs, .irq, .pcie, .oasis, .poison, .events, .out, .free]
  | .authBegin =>
    [.devState, .dev, .web, .ports, .fsPorts, .slices, .cores, .cmd, .ctx, .det, .links, .trim, .regs, .dict, .blobs, .doors, .irq, .chain,
     .ledger, .saf, .pwr, .hostMem, .dram, .oasis, .events, .out, .free]
  | .caravanForwardingBegin => [.rate, .regs, .irq, .crv, .events, .out]
  | .bar4Read _ _ => [.regs, .dict, .doors, .out]

end Sys2Proof
end

