-- ==== Sys2Proof/Safety.lean ====
section
/-! DEFINITION. What a sound state is, in the terms that statements use: every store in its canonical form, and the ledger's hash chain unbroken. -/

namespace Sys2Proof.Machine

/-- A map in canonical form: keys strictly rising, and no key listed at its default. -/
def Map.canon (d : Nat → Nat) (m : Map) : Bool := keysRise m && m.all fun p => p.2 != d p.1

/-- Values of variable length in canonical form: keys strictly rising, and no empty value listed. -/
def Blobs.canon (m : Blobs) : Bool := keysRise m && m.all fun p => !p.2.isEmpty

/-- Every memory and every sparse store is in its canonical form, so that equal contents are equal data. -/
def State.wf (s : State) : Bool :=
  s.hostMem.wf && s.dram.wf && s.oasis.wf && s.saf.flash.wf && s.regs.canon regDefault && s.dict.canon odDefault && s.blobs.canon

/-- A run of ledger entries, newest first, of which the newest has SEQ n − 1: SEQs fall by one, each entry's bytes begin with its SEQ, and the PREV
of each is the hash of the entry below it (R581, R583). -/
def ledgerLinked : Nat → List LedgerEntry → Prop
  | _, [] => True
  | n, e :: r => e.seq + 1 = n ∧ e.bytes.length = 128 ∧ e.bytes.take 8 = leBytes 8 e.seq ∧
      (match r with
        | [] => True
        | f :: _ => e.bytes.drop 96 = digest f.bytes) ∧ ledgerLinked (n - 1) r

/-- The ledger holds the newest entries of one unbroken chain: as many as were appended, up to 32,768, and HEAD_HASH is the hash of the newest. -/
def State.chainSound (s : State) : Prop :=
  s.ledger.entries.length = min s.ledger.count ledgerCapacity ∧ ledgerLinked s.ledger.count s.ledger.entries ∧
  ∀ e, s.ledger.entries.head? = some e → s.ledger.headHash = digest e.bytes

/-- The device is not held in reset (R541, R555). -/
def State.awake (s : State) : Prop := s.dev.resetHeld = false

/-- A command that answers a next state with a property. -/
def Answers (c : Instr) (s : State) (p : State → Prop) : Prop := ∃ t, exec c s = .next t ∧ p t

end Sys2Proof.Machine
end

