-- ==== Sys2Proof/Certificates/Slice0/Obligations.lean ====
section
/-! DEFINITION. The statements about the model. -/

open Sys2Proof Sys2Proof.Machine

/-! ### The machine as a whole -/

/-- With a command at the front of the queue, a step is that command's meaning on the state with the queue's rest. -/
def Obligations.StepRunsTheFrontCommand : Prop :=
  ∀ (s : State) (c : Instr) (rest : List Instr), step { s with pending := c :: rest } = exec c { s with pending := rest }

/-- With no command waiting, a step is a tick of device time: 2 ns, 1 ns while DT is steered at half rate, or 2 ns at a rate that is off by the steered parts per
million (here in fs, of which the part below 1 ns is kept). In it every core that is powered counts the cycles of its clock, half as many while its clock is
stretched, in all and in its phase (here in thousandths: MHz times ns); nothing else changes, and nothing at all while a reset is held. That an empty queue is a
tick is the model's choice (log entry 2). -/
def Obligations.IdleStepTicksDeviceTime : Prop :=
  ∀ s : State, s.pending = [] →
    (s.awake → ∃ t, step s = .next t ∧
      let fs := s.crv.dtFrac + if s.crv.steer = .half then 1000000 else (2000000 + 2 * s.crv.ratePpm).toNat
      t = { s with dt := (s.dt + fs / 1000000) % 2 ^ 64, crv := { s.crv with dtFrac := fs % 1000000 }, cores := t.cores } ∧
      ∀ k : CoreIx, t.core k = if s.pwr.cores.getLsbD k = true then
          let n := (s.core k).mhz * if s.pwr.stretchSince.isSome = true then 1 else 2
          { s.core k with
            cycles := (s.core k).cycles + n
            loadCycles := (s.core k).loadCycles + if (s.core k).phase = .load then n else 0
            computeCycles := (s.core k).computeCycles + if (s.core k).phase = .compute then n else 0
            writeoutCycles := (s.core k).writeoutCycles + if (s.core k).phase = .writeout then n else 0 }
        else s.core k) ∧
    (¬ s.awake → step s = .next s)

/-- The commands that can name an entry of the manufacturing-test range. -/
def reachesManufacturingTest : Instr → Bool
  | .bar4Write _ _ _ | .bar4Read _ _ | .mbRead | .mbWrite _ | .mbWriteAt _ | .mbCancelAt | .mbDescribe
  | .genericRegisterWrite _ _ | .caravanFrameForward _ _ | .caravanFrameProcess _ _ => true
  | _ => false

/-- Every command answers a next state in every state, but for those that can name an entry of the manufacturing-test range. -/
def Obligations.EveryOtherCommandAnswers : Prop :=
  ∀ (c : Instr) (s : State), reachesManufacturingTest c = false → Answers c s fun _ => True

/-- No command faults, and a refusal is always an access to the manufacturing-test range outside RUN, whose effect R463 leaves undefined. -/
def Obligations.OnlyManufacturingTestIsRefused : Prop :=
  ∀ (c : Instr) (s : State), (∀ f, exec c s ≠ .fault f) ∧
    ∀ r, exec c s = .refused r → s.dev.state ≠ .run ∧ ∃ i, r = .manufacturingTest i ∧ 0xF000 ≤ i ∧ i ≤ 0xFFFF

/-- A command changes only the parts that it touches, and never the queue behind it. -/
def Obligations.CommandsKeepWhatTheyDoNotTouch : Prop :=
  ∀ (c : Instr) (s t : State), exec c s = .next t → t.pending = s.pending ∧ ∀ p : Part, p ∉ c.touches → p.same s t

/-- Every step keeps every memory and every store in its canonical form. -/
def Obligations.StepKeepsTheCanonicalForm : Prop := ∀ s t : State, s.wf = true → step s = .next t → t.wf = true

/-- The state after reset is canonical and its ledger holds nothing: BOOT with DT 0 and reset reason 0x01, every register and every entry at the reset value of its
row, every vector masked, every Oasis quadrant powered and no other switched domain (R467, R493, R504, R555, R557). -/
def Obligations.ResetIsSound : Prop :=
  State.reset.wf = true ∧ State.reset.chainSound ∧ State.reset.dev.state = .boot ∧ State.reset.dt = 0 ∧ State.reset.pwr.reason = 1 ∧
  (∀ off, State.reset.reg off = regDefault off) ∧ (∀ key, State.reset.od key = odDefault key) ∧
  (∀ v : Fin 512, State.reset.reg (0x8000 + v.val * 16 + 12) = 1) ∧ State.reset.od Od.webLinePitch = 0x10000 ∧ State.reset.od Od.webTimerPeriod = 2000 ∧
  State.reset.pwr.quadrants = 15 ∧ State.reset.pwr.cores = 0 ∧ State.reset.pwr.slices = 0 ∧ State.reset.pwr.detection = false ∧
  State.reset.events = [] ∧ State.reset.pending = []

/-- Every step keeps the ledger's hash chain unbroken. -/
def Obligations.StepKeepsTheLedgerChain : Prop := ∀ s t : State, s.chainSound → step s = .next t → t.chainSound

/-- The changes of device state that a command can make (R470, R504, R555, R556, R558). -/
def stateMoves : Instr → State → State → Prop
  | .authBegin, s, t => s.dev.state = .boot ∧ (t.dev.state = .auth ∨ t.dev.state = .safe)
  | .authEnd, s, t => s.dev.state = .auth ∧ (t.dev.state = .preop ∨ t.dev.state = .safe)
  | .dramInitDone _, s, t => s.dev.state = .auth ∧ (t.dev.state = .preop ∨ t.dev.state = .safe)
  | .bootWatchdogExpiry, s, t => (s.dev.state = .boot ∨ s.dev.state = .auth) ∧ (t.dev.state = .safe ∨ t.dev.state = .boot)
  | .armedEntry, s, t => (∃ d, s.dev.request = some ⟨.armed, d⟩) ∧ t.dev.state = .armed
  | .runEntry, s, t => s.dev.state = .armed ∧ t.dev.state = .run
  | .holdEntry, s, t => s.dev.state = .run ∧ t.dev.state = .hold
  | .holdExit, s, t => s.dev.state = .hold ∧ t.dev.state = .run
  | .preopEntry, s, t => (∃ d, s.dev.request = some ⟨.preop, d⟩) ∧ t.dev.state = .preop
  | .safeEntry _, s, t => (s.dev.state = .preop ∨ s.dev.state = .armed ∨ s.dev.state = .run ∨ s.dev.state = .hold) ∧ t.dev.state = .safe
  | .functionLevelReset, s, t => (s.dev.state = .armed ∨ s.dev.state = .run ∨ s.dev.state = .hold) ∧ t.dev.state = .preop
  | .hotReset, s, t => (s.dev.state = .armed ∨ s.dev.state = .run ∨ s.dev.state = .hold) ∧ t.dev.state = .preop
  | .pcieLinkChange _ _ _, s, t | .configRequest _, s, t => (s.dev.state = .armed ∨ s.dev.state = .run ∨ s.dev.state = .hold) ∧ t.dev.state = .preop
  | .powerOnReset, _, t | .pwrGoodFall, _, t | .perstAssert, _, t | .sysRefclkLoss, _, t | .glbResetWrite _, _, t | .safReboot _, _, t
  | .genericRegisterWrite _ _, _, t | .vddResetLevel _, _, t | .railMonitorFall _, _, t | .thermalSample _ _, _, t | .integrityResetTimeout, _, t => t.dev.state = .boot
  | _, _, _ => False

/-- The device state changes only by the transitions of R470, by a Function Level Reset and by a reset, each by its own command. -/
def Obligations.StateChangesOnlyByTransitions : Prop :=
  ∀ (c : Instr) (s t : State), exec c s = .next t → t.dev.state ≠ s.dev.state → stateMoves c s t

/-- The commands that act while the device is held in reset: those that begin or end a reset or are the cause of another, the sensors that can end a thermal
trip, and Caravan forwarding, which starts before the reset ends. -/
def actsInReset : Instr → Bool
  | .powerOnReset | .pwrGoodFall | .perstAssert | .sysRefclkLoss | .vddResetLevel _ | .railMonitorFall _ | .resetEnd | .thermalSample _ _ | .caravanForwardingBegin
  | .caravanPortLinkChange _ | .caravanFrameForward _ _ | .caravanFrameProcess _ _ => true
  | _ => false

/-- While the device is held in reset, a further reset condition leaves the lower of the two reason codes (R556), and every command that does not act then
changes nothing. -/
def Obligations.NothingHappensInReset : Prop :=
  (∀ (c : Instr) (s : State), actsInReset c = false → ¬ s.awake → exec c s = .next s) ∧
  ∀ s : State, ¬ s.awake → s.dev.powerGood = true →
    exec .perstAssert s = .next { s with pwr := { s.pwr with reason := min 2 s.pwr.reason } } ∧
    exec .sysRefclkLoss s = .next { s with pwr := { s.pwr with reason := min 7 s.pwr.reason } } ∧
    (∀ mv : W16, 100 * mv.toNat ≤ 88 * s.vt → exec (.vddResetLevel mv) s = .next { s with pwr := { s.pwr with reason := min 3 s.pwr.reason } }) ∧
    ∀ rail : Fin 5, exec (.railMonitorFall rail) s =
      .next (if 4 < s.pwr.reason then { s with pwr := { s.pwr with reason := 4, rail := rail.val } } else s)

/-! ### The web model and the encoder -/

/-- A change of one encoder input that passes the glitch filter counts where DECODE counts its edge: forward, A leading B, or in reverse, the two exchanged by
INVERT. The count moves the position, and a position that reaches a new threshold in ARMED or RUN triggers a line that carries the current LSN. A shorter pulse
changes nothing, and the first levels after a reset are the reference (R15, R17, R70). -/
def encoderCountFollowsThePosition : Prop :=
  (∀ (s : State) (a b p q : Bool) (ns : Nat), s.awake → s.od Od.encFilterNs ≤ ns → s.web.encLevels = some (p, q) → (a = p ∨ b = q) →
    Answers (.encoderCount ⟨a, b, ns⟩) s fun t =>
      let onA := a != p
      let forward := (if onA = true then a != b else a == b) != s.odFlag Od.encInvert
      let counted := if s.od Od.encDecode = 0 then onA && a == forward else if s.od Od.encDecode = 1 then onA else onA || b != q
      t.web.pos = s.web.pos + (if counted = true then if forward = true then 1 else -1 else 0) ∧ t.web.high = (if counted = true then max s.web.high t.web.pos else s.web.high) ∧
      t.web.encLevels = some (a, b) ∧
      (if s.web.high < t.web.pos ∧ (s.dev.state = .armed ∨ s.dev.state = .run) ∧ s.od Od.webLineSource = 0 ∧ s.web.next ≤ t.web.pos * 65536 ∧ counted = true then
        t.web.x = s.web.x + 1 ∧ t.web.lastLsn = mod48 s.web.x ∧ t.web.triggered = true ∧ t.web.next = s.web.next + t.od Od.webLinePitch
      else t.web.x = s.web.x ∧ t.web.lastLsn = s.web.lastLsn ∧ t.web.triggered = s.web.triggered ∧ t.web.next = s.web.next)) ∧
  ∀ (s : State) (a b : Bool) (ns : Nat), s.awake →
    (ns < s.od Od.encFilterNs → Answers (.encoderCount ⟨a, b, ns⟩) s fun t => t = s) ∧
    (s.od Od.encFilterNs ≤ ns → s.web.encLevels = none →
      Answers (.encoderCount ⟨a, b, ns⟩) s fun t => t = { s with web := { s.web with encLevels := some (a, b) } })

/-- In timer mode each expiry of the line timer in ARMED or RUN is a line trigger; illegal encoder transitions and the count rate are reported and
move no position (R14, R71). Conjoined with `encoderCountFollowsThePosition`. -/
def Obligations.PositionTimerAndTriggers : Prop :=
  encoderCountFollowsThePosition ∧
  (∀ s : State, s.awake → s.od Od.webLineSource = 1 → (s.dev.state = .armed ∨ s.dev.state = .run) →
    Answers .lineTimerExpiry s fun t => t.web.x = s.web.x + 1 ∧ t.web.lastLsn = mod48 s.web.x ∧ t.web.triggered = true ∧ t.web.pos = s.web.pos) ∧
  (∀ (s : State) (a b : Bool), s.wf = true → s.awake → s.web.encLevels = some (!a, !b) →
    Answers .encoderIllegalTransition s fun t =>
      t.od Od.encEncErrors = min (s.od Od.encEncErrors + 1) (2 ^ 32 - 1) ∧ t.web = { s.web with encLevels := some (a, b) } ∧
      ((∀ at_, sparseGet (rateKey 0 5 0) s.dev.eventTimes = some at_ → at_ + 1000000 ≤ s.dt) → ∃ e ∈ t.events, e.source = 0 ∧ e.type = 5 ∧ e.dt = s.dt)) ∧
  (∀ s : State, s.wf = true → s.awake →
    Answers .countRateWindow s fun t =>
      t.od Od.encCountRate = min (s.web.windowCounts * 1000) (2 ^ 32 - 1) ∧ t.web = { s.web with windowCounts := 0 })

/-- The LSN counter advances by exactly 1 at a line trigger and at no other time: whatever the command, the extended count either stays, or goes up by
one with the LSN that the line carries; only the entry to ARMED and a reset load it (R14, R23). -/
def Obligations.OnlyTriggersAdvanceTheLine : Prop :=
  ∀ (c : Instr) (s t : State), exec c s = .next t → c ≠ .armedEntry → s.awake → t.awake →
    (t.web.x = s.web.x ∧ t.web.lastLsn = s.web.lastLsn ∧ t.web.triggered = s.web.triggered) ∨
    (t.web.x = s.web.x + 1 ∧ t.web.lastLsn = mod48 s.web.x ∧ t.web.triggered = true ∧ (s.dev.state = .armed ∨ s.dev.state = .run))

/-- LINE_PITCH takes 0x0001_0000 to 0xFFFF_FFFF through every door that may write it; a BAR4 write of such a value stores it, one below is answered RANGE and the old
value stays; and one count makes at most one trigger (R16). -/
def Obligations.LinePitchIsAtLeastOne : Prop :=
  (∀ (s : State) (o : Origin) (v : Nat), o ≠ .internal → (s.dev.state = .preop ∨ s.dev.state.live = true) →
    s.odWriteCheck o Od.webLinePitch 4 v = if 0x10000 ≤ v ∧ v ≤ 0xFFFFFFFF then .ok else .range) ∧
  (∀ (s : State) (v : W64), s.wf = true → s.awake → (s.dev.state = .preop ∨ s.dev.state.live = true) → s.doors.bar4Low = none →
    Answers (.bar4Write (0x2F00 * 0x800 + 2 * 8) 4 v) s fun t =>
      if 0x10000 ≤ v.toNat % 2 ^ 32 then t.od Od.webLinePitch = v.toNat % 2 ^ 32 ∧ t.reg Reg.glbOdWStatus = 0x2F000200
      else t.od Od.webLinePitch = s.od Od.webLinePitch ∧ t.reg Reg.glbOdWStatus = 0x2F000206) ∧
  ∀ (s : State) (a b : Bool) (ns : Nat), Answers (.encoderCount ⟨a, b, ns⟩) s fun t => t.web.x = s.web.x ∨ t.web.x = s.web.x + 1

/-! ### Camera ingress -/

/-- LIGHT_OK rises and falls with the light of a camera engine; its fall takes the four ports of that engine down, and no other. A lane locks and is
lost one at a time: the master connection's lock starts discovery, and a loss that counts takes the port down (R58, R60, R63, R79). -/
def lightAndLaneLocks : Prop :=
  (∀ (s : State) (e : EngineIx), s.wf = true → s.awake → s.pwr.engines.getLsbD e = true → e.val < 4 →
    Answers (.lightOkRise e) s fun t => t.odFlag (Od.engLightOk e) = true ∧ t.ports = s.ports) ∧
  (∀ (s : State) (e : EngineIx), s.wf = true → s.awake → e.val < 4 →
    Answers (.lightOkFall e) s fun t =>
      (∀ c, engineOf c = e → (t.port c).locks = 0 ∧ (t.port c).state = .down) ∧ ∀ c, engineOf c ≠ e → t.port c = s.port c) ∧
  (∀ (s : State) (c : PortIx) (lane : Fin 4), s.awake → s.laneMayLock c lane = true → (s.port c).locks.getLsbD lane = false →
    Answers (.laneLockGain c lane) s fun t =>
      (t.port c).locks = (s.port c).locks ||| BitVec.ofNat 4 (2 ^ lane.val) ∧
      (lane.val = 0 → ((s.port c).state = .down ∨ (s.port c).state = .failed) → s.camerasServed = true → (s.port c).ccHost = none →
        (t.port c).state = .discovery ∧ (t.port c).step = .revision ∧
        t.out = s.out ++ [.ccRequest c false (Config.cxpAddr 0) (Config.cxpLen 0) []])) ∧
  (∀ (s : State) (c : PortIx) (lane : Fin 4), s.awake → (s.port c).locks.getLsbD lane = true →
    Answers (.laneLockLoss c lane) s fun t =>
      (t.port c).locks = (s.port c).locks &&& ~~~(BitVec.ofNat 4 (2 ^ lane.val)) ∧
      (t.port c).state = if (s.port c).lossCounts lane (s.od (Od.portLaneCount c)) then .down else (s.port c).state)

/-- Discovery reads the revision, the model and the identifier, configures the camera, waits for every lane, and reads the configuration back; each
way to fail has its code, and a read-back that agrees links the port (R63, R64). Conjoined with `lightAndLaneLocks`. -/
def Obligations.LocksAndDiscovery : Prop :=
  lightAndLaneLocks ∧
  (∀ (s : State) (c : PortIx) (ack : Byte) (data : List Byte), s.wf = true → s.awake → (s.port c).ccHost = none → (s.port c).discWaits = true →
    Answers (.ccReply c ack data) s fun t =>
      (Config.cxpAckOk ack = false → (t.port c).state = .failed ∧ t.od (Od.portDiscCode c) = 3) ∧
      (Config.cxpAckOk ack = true →
        ((s.port c).step = .revision → (t.port c).step = .model ∧ (t.port c).seenRevision = data) ∧
        ((s.port c).step = .model → (t.port c).step = .ident) ∧
        ((s.port c).step = .ident →
          if Config.cxpMajor (s.port c).seenRevision ≠ 2 then (t.port c).state = .failed ∧ t.od (Od.portDiscCode c) = 7
          else if (s.port c).recorded.isSome = true ∧ (s.port c).recorded ≠ some data then (t.port c).state = .failed ∧ t.od (Od.portDiscCode c) = 6
          else (t.port c).step = .configure ∧ (t.port c).seenIdent = data) ∧
        ((s.port c).step = .configure → (t.port c).step = if s.allLocked c then .readback else .lanes) ∧
        ((s.port c).step = .readback →
          if data = s.discConfig c then
            (t.port c).state = .idle ∧ (t.port c).recorded = some (s.port c).seenIdent ∧ t.od (Od.portDiscCode c) = 2
          else (t.port c).state = .failed ∧ t.od (Od.portDiscCode c) = 5))) ∧
  (∀ (s : State) (c : PortIx), s.wf = true → s.awake → (s.port c).ccHost = none → (s.port c).discWaits = true →
    Answers (.ccTimeout c) s fun t => (t.port c).state = .failed ∧ t.od (Od.portDiscCode c) = 3) ∧
  (∀ (s : State) (c : PortIx), s.wf = true → s.awake → (s.port c).step = .lanes →
    Answers (.discoveryLockTimeout c) s fun t => (t.port c).state = .failed ∧ t.od (Od.portDiscCode c) = 4)

/-- The command of the control-channel mailbox for a GO with WRITE or without. -/
def ccCommand (c : PortIx) : Bool → Instr
  | true => .camCcWrite c
  | false => .camCcRead c

/-- A linked port sends heartbeats with the device time, takes the camera's, counts a missed one and stays linked, and acknowledges and forwards a
camera's event packet (R68, R69). -/
def heartbeatsAndCameraEvents : Prop :=
  ∀ (s : State) (c : PortIx), s.wf = true → s.awake → (s.port c).linked = true →
    Answers (.heartbeatSend c) s (fun t => t = s.send (.heartbeat c s.dt)) ∧
    Answers (.heartbeatReceive c) s (fun t => t.port c = { s.port c with hbOk := true } ∧ t.out = s.out) ∧
    Answers (.heartbeatTimeout c) s (fun t => t.port c = { s.port c with hbOk := false } ∧
      t.reg (Reg.camHbMissed c) = satAdd 32 (s.reg (Reg.camHbMissed c)) 1 ∧ ∃ e ∈ t.events, e.source = 0 ∧ e.type = 1 ∧ e.dt = s.dt) ∧
    ∀ payload, Answers (.cameraEventPacket c payload) s fun t =>
      t.port c = s.port c ∧ .eventAck c ∈ t.out.drop s.out.length ∧
      t.reg (Reg.camEventsRx c) = satAdd 32 (s.reg (Reg.camEventsRx c)) 1 ∧
      ∃ e ∈ t.events, e.source = 0 ∧ e.type = 4 ∧ e.dt = s.dt ∧
        e.body = padTo 48 (leBytes 1 c ++ leBytes 1 (bit (decide (32 < payload.length))) ++ leBytes 2 (min payload.length 0xFFFF) ++ payload.take 32)

/-- A GO of an idle control-channel mailbox: outside the states that serve cameras it ends with RESULT 4, with a length that is not 4 to 64 and a
multiple of 4 with RESULT 5, on a port that has no link with RESULT 3; otherwise BUSY is set, and on a linked port the request goes out. A write is
ledgered. An acknowledgement, or none within 200 ms, ends the request (R66, R67, R97). Conjoined with `heartbeatsAndCameraEvents`. -/
def Obligations.ControlChannelAndHeartbeats : Prop :=
  heartbeatsAndCameraEvents ∧
  (∀ (s : State) (c : PortIx) (write : Bool), s.wf = true → s.awake → (s.port c).ccHost = none →
    Answers (ccCommand c write) s fun t =>
      let len := s.reg (Reg.camCcLen c)
      if s.camerasServed = false then t.reg (Reg.camCcStatus c) = 8 ∧ t.port c = s.port c
      else if len % 4 ≠ 0 ∨ len < 4 ∨ 64 < len then t.reg (Reg.camCcStatus c) = 10 ∧ t.port c = s.port c
      else if (s.port c).linked = false ∧ (s.port c).state ≠ .discovery then t.reg (Reg.camCcStatus c) = 6 ∧ t.port c = s.port c
      else t.reg (Reg.camCcStatus c) = 1 ∧
        (∃ r, (t.port c).ccHost = some r ∧ r.write = write ∧ r.addr = s.reg (Reg.camCcAddr c) ∧ r.len = len ∧ r.sent = (s.port c).linked) ∧
        ((s.port c).linked = true → ∃ d, t.out.getLast? = some (.ccRequest c write (s.reg (Reg.camCcAddr c)) len d)) ∧
        (write = true → 0 < s.ledger.count → s.ledger.count < t.ledger.count)) ∧
  (∀ (s : State) (c : PortIx) (r : CcHost) (ack : Byte) (data : List Byte), s.wf = true → s.awake → (s.port c).ccHost = some r → r.sent = true →
    Answers (.ccReply c ack data) s fun t =>
      (t.port c).ccHost = none ∧
      t.reg (Reg.camCcStatus c) = (if Config.cxpAckOk ack then 0 else 2 + ack.toNat * 256) ∧
      (Config.cxpAckOk ack = true → r.write = false → r.len ≤ 64 → ∀ i, i < ceilDiv r.len 4 →
        t.reg (Reg.camCcData c i) = fieldAt (padTo r.len data) (4 * i) 4)) ∧
  (∀ (s : State) (c : PortIx) (r : CcHost), s.wf = true → s.awake → (s.port c).ccHost = some r → r.sent = true →
    Answers (.ccTimeout c) s fun t => (t.port c).ccHost = none ∧ t.reg (Reg.camCcStatus c) = 4)

/-- The stream identifier is the port's: the first one after discovery, or the same as before (R69). -/
def ownStream (s : State) (c : PortIx) (stream : Byte) : Prop :=
  s.streaming c = true ∧ ((s.port c).stream = none ∨ (s.port c).stream = some stream)

/-- An image header opens a frame, which is malformed where the format differs; a line marker opens a row; an end of frame closes what is open; a
malformed packet is counted in every device state, in the open frame too; a packet of a foreign stream is a malformed packet, and the first identifier on a linked
port is the port's, outside ARMED, RUN and HOLD too, where a packet does nothing else (R69, R78, R79, R85). -/
def Obligations.StreamPacketsMoveThePort : Prop :=
  (∀ (s : State) (c : PortIx) (stream bitsOf arrangement : Byte), s.awake → ownStream s c stream →
    Answers (.imageHeader c stream bitsOf arrangement none) s fun t =>
      let ok := bitsOf.toNat = s.od (Od.portPixelBits c) ∧ arrangement.toNat = s.od (Od.portArrangement c)
      (t.port c).state = .frame ∧ (t.port c).row = none ∧
      ∃ f, (t.port c).open_ = some f ∧ f.lines = 0 ∧ f.checkErrors = 0 ∧
        (ok → f.flags = 0 ∧ f.malformed = 0) ∧ (¬ ok → f.flags = 32 ∧ f.malformed = 1)) ∧
  (∀ (s : State) (c : PortIx) (stream : Byte), s.awake → ownStream s c stream →
    Answers (.lineMarker c stream) s fun t =>
      (t.port c).state = .line ∧ ∃ r, (t.port c).row = some r ∧ r.pixels = [] ∧ r.check = false ∧ r.trunc = false) ∧
  (∀ (s : State) (c : PortIx) (stream : Byte), s.awake → ownStream s c stream → (s.port c).open_.isSome = true →
    ((s.port c).state = .frame ∨ (s.port c).state = .line ∧ (s.port c).row.isSome = true) →
    Answers (.frameEnd c stream) s fun t => (t.port c).state = .idle ∧ (t.port c).row = none ∧ (t.port c).open_ = none) ∧
  (∀ (s : State) (c : PortIx), s.wf = true → s.awake →
    Answers (.malformedPacket c) s fun t =>
      t.reg (Reg.camMalformed c) = satAdd 32 (s.reg (Reg.camMalformed c)) 1 ∧
      t.port c = { s.port c with open_ := (s.port c).open_.map fun f => { f with malformed := satAdd 16 f.malformed 1 } }) ∧
  (∀ (s : State) (c : PortIx) (own stream : Byte), s.wf = true → s.awake → (s.port c).linked = true → (s.port c).stream = some own → own ≠ stream →
    Answers (.lineMarker c stream) s fun t =>
      t.reg (Reg.camMalformed c) = satAdd 32 (s.reg (Reg.camMalformed c)) 1 ∧ (t.port c).state = (s.port c).state ∧ (t.port c).row = (s.port c).row) ∧
  (∀ (s : State) (c : PortIx) (stream : Byte), s.awake → (s.port c).linked = true → s.dev.state.live = false → (s.port c).stream = none →
    Answers (.lineMarker c stream) s fun t => t = s.modPort c fun p => { p with stream := some stream })

/-- No data for LINE_TIMEOUT ends the open row; the oldest line that still waits for a row is declared absent, and its missing rows are owed; a held
line goes on to the front slice (R76, R79, R86, R88). -/
def lineTimeouts : Prop :=
  ∀ (s : State) (c : PortIx), s.awake →
    (∀ r, (s.port c).row = some r → Answers (.lineDataTimeout c) s fun t => (t.port c).state = .frame ∧ (t.port c).row = none) ∧
    (∀ e, ((s.port c).pend.find? fun e => decide (e.marks < s.rowsPerCycle c)) = some e →
      Answers (.lineTimeoutAbsent c) s fun t =>
        (t.port c).pend = ((s.port c).pend.filter fun f => f.x != e.x) ∧
        (t.port c).owed = (s.port c).owed + (s.rowsPerCycle c - e.marks)) ∧
    (∀ l, (s.port c).held = some l →
      Answers (.lineReleaseTimeout c) s fun t => (t.port c).held = none ∧ (t.port c).queue = (s.port c).queue ++ [l])

/-- Pixel data of the open row joins it, and the row ends with its last pixel; without a row it is an orphan. A packet that fails its check value
marks the open row, or opens one whose marker was lost (the model's reading, log entry 28); outside a frame, and in a state in which rows are discarded, it
is only counted (R79, R82, R84). Conjoined with `lineTimeouts`. -/
def Obligations.PixelDataAndLineTimeouts : Prop :=
  lineTimeouts ∧
  (∀ (s : State) (c : PortIx) (stream : Byte) (pixels : List W16) (r : OpenRow), s.awake → ownStream s c stream →
    (s.port c).state = .line → (s.port c).row = some r →
    Answers (.pixelDataPacket c stream pixels) s fun t =>
      if s.od (Od.portLineWidth c) - r.pixels.length ≤ pixels.length then (t.port c).state = .frame ∧ (t.port c).row = none
      else (t.port c).state = .line ∧
        (t.port c).row = some { r with pixels := r.pixels ++ packPixels (s.od (Od.portPixelBits c)) pixels }) ∧
  (∀ (s : State) (c : PortIx) (stream : Byte) (pixels : List W16), s.wf = true → s.awake → ownStream s c stream → (s.port c).state ≠ .line →
    Answers (.pixelDataPacket c stream pixels) s fun t =>
      t.reg (Reg.camOrphan c) = satAdd 32 (s.reg (Reg.camOrphan c)) 1 ∧ (t.port c).row = (s.port c).row ∧ (t.port c).open_ = (s.port c).open_) ∧
  (∀ (s : State) (c : PortIx) (lane : Fin 4) (pixels : List W16) (r : OpenRow), s.awake → s.streaming c = true →
    (s.port c).state = .line → (s.port c).row = some r → pixels.length < s.od (Od.portLineWidth c) - r.pixels.length →
    Answers (.checkFailedPacket c lane pixels) s fun t =>
      (t.port c).row = some { r with pixels := r.pixels ++ packPixels (s.od (Od.portPixelBits c)) pixels, check := true }) ∧
  (∀ (s : State) (c : PortIx) (lane : Fin 4) (pixels : List W16), s.awake → s.streaming c = true → (s.port c).state = .frame →
    Answers (.checkFailedPacket c lane pixels) s fun t =>
      (t.port c).state = .line ∧ ∃ r, (t.port c).row = some r ∧ r.pixels = [] ∧ r.check = true) ∧
  (∀ (s : State) (c : PortIx) (lane : Fin 4) (pixels : List W16), s.wf = true → s.awake → (s.streaming c = false ∨ (s.port c).state = .idle) →
    Answers (.checkFailedPacket c lane pixels) s fun t =>
      t.reg (Reg.camCheckErrLane c lane) = satAdd 32 (s.reg (Reg.camCheckErrLane c lane)) 1 ∧
      t.reg (Reg.camCheckErrPort c) = satAdd 32 (s.reg (Reg.camCheckErrPort c)) 1 ∧
      (t.port c).state = (s.port c).state ∧ (t.port c).row = (s.port c).row)

/-- The commands of camera ingress that concern one port and pull no line trigger. -/
def onePort (c : PortIx) : Instr → Prop
  | .laneLockGain d _ | .laneLockLoss d _ | .discoveryLockTimeout d | .ccReply d _ _ | .ccTimeout d | .camCcRead d | .camCcWrite d
  | .heartbeatSend d | .heartbeatReceive d | .heartbeatTimeout d | .cameraEventPacket d _ | .imageHeader d _ _ _ none | .pixelDataPacket d _ _
  | .frameEnd d _ | .malformedPacket d | .lineDataTimeout d | .lineTimeoutAbsent d | .lineReleaseTimeout d => d = c
  | _ => False

/-- What happens on one camera port leaves every other port, in ingress and in the front slice, as it is. -/
def Obligations.PortsAreIndependent : Prop :=
  ∀ (c d : PortIx) (i : Instr) (s t : State), onePort c i → d ≠ c → exec i s = .next t → t.port d = s.port d ∧ t.fsPort d = s.fsPort d

/-! ### The front slices and flat-field learning -/

/-- An idle slice takes the next line of the port that R119 chooses; the line that it ends leaves it idle with FS_RING_WRPOS behind that line, and writes
only the line's elements and, with the last of a group of input lines, its tag (R114 to R119). -/
def Obligations.SlicesTakeAndEndLines : Prop :=
  (∀ (s : State) (k : SliceIx) (c : PortIx) (l : CamLine), s.awake → (s.dev.state.live = true ∨ s.dev.state = .preop) → (s.slice k).run = none →
    s.chooseLine k = some c → s.lineReady c = some l →
    Answers (.fsLineStart k) s fun t =>
      (∃ r, (t.slice k).run = some r ∧ portOf k r.port = c ∧ r.line = l) ∧ (t.port c).queue = (s.port c).queue.tail) ∧
  (∀ (s : State) (k : SliceIx) (r : SliceRun), s.awake → (s.slice k).run = some r →
    Answers (.fsLineWrite k) s fun t =>
      let c := portOf k r.port
      let e := r.line.x - s.along c
      (t.slice k).run = none ∧ (t.fsPort c).wrpos = e + 1 ∧ t.dram = s.dram ∧
      ∀ a, (∀ x ∈ (s.lineElements c r.line r.values).1,
          a < (s.slotAddr c (s.outLine e)).1 + x.1 ∨ (s.slotAddr c (s.outLine e)).1 + x.1 + outBytes (s.od Od.fsOutOutFormat) ≤ a) →
        (a < (s.slotAddr c (s.outLine e)).2 ∨ (s.slotAddr c (s.outLine e)).2 + 16 ≤ a) → t.oasis.byte? a = s.oasis.byte? a)

/-- The oldest complete line of a memory-path camera moves to the ring at the next offset: it is marked as stored there, its FIFO bytes are free, and no
byte of DRAM outside the ring's part changes (R99, R120). -/
def Obligations.MemoryPathLinesAreStored : Prop :=
  ∀ (s : State) (c : PortIx) (l : CamLine), s.awake → s.isMp c = true →
    ((s.port c).queue.find? fun y => y.mpBytes != 0 && y.stored.isNone) = some l →
    Answers (.memoryPathStore c) s fun t =>
      let base := s.fsReg c Reg.fsMpBaseLo + 2 ^ 32 * s.fsReg c Reg.fsMpBaseHi
      let off := (s.fsPort c).mpNext
      let room := s.mpSize c - off
      (t.port c).queue = ((s.port c).queue.map fun y => if y.x = l.x then { y with stored := some off, fifoBytes := 0, rows := [] } else y) ∧
      (t.port c).fifo = (s.port c).fifo - l.fifoBytes ∧ (t.fsPort c).mpNext = (off + l.mpBytes) % max 1 (s.mpSize c) ∧ t.oasis = s.oasis ∧
      t.dram = (s.dram.write (base + off) ((s.packedLine c l).take room)).write base ((s.packedLine c l).drop room) ∧
      ∀ a, (a < base + off ∨ base + off + min l.mpBytes room ≤ a) → (a < base ∨ base + (l.mpBytes - room) ≤ a) → t.dram.byte? a = s.dram.byte? a

/-- The table window reads and writes one entry and moves on; a write that may not be made raises TBL_ERR and changes no table. A committed table waits, or is
live at once in PREOP; the copy back and the reset of the tables end (R122, R125, R126, R129). -/
def Obligations.CalibrationTables : Prop :=
  (∀ (s : State) (k : SliceIx) (v : W32), s.wf = true → s.awake → s.dev.state.ready = true →
    Answers (.fsTblDataAccess k (some v)) s fun t =>
      let c := portOf k ⟨s.reg (Reg.fsTblSel k) % 4, Nat.mod_lt _ (by decide)⟩
      let i := s.reg (Reg.fsTblIndex k)
      t.reg (Reg.fsTblIndex k) = (i + 1) % 2 ^ 17 ∧
      if (s.fsPort c).copyBusy = true ∨ (s.slice k).initBusy = true ∨ s.tableEntries c ≤ i then
        t.fsPorts = s.fsPorts ∧ bitAt (t.reg (Reg.fsIntStatus k)) 7 = true
      else t.fsPort c = { s.fsPort c with mirror := (s.fsPort c).mirror.set tableDefault i v.toNat }) ∧
  (∀ (s : State) (k : SliceIx), s.wf = true → s.awake → s.dev.state.ready = true →
    s.reg (Reg.fsTblIndex k) < s.tableEntries (portOf k ⟨s.reg (Reg.fsTblSel k) % 4, Nat.mod_lt _ (by decide)⟩) →
    Answers (.fsTblDataAccess k none) s fun t =>
      let p := s.fsPort (portOf k ⟨s.reg (Reg.fsTblSel k) % 4, Nat.mod_lt _ (by decide)⟩)
      t.out = s.out ++ [.readData ((if bitAt (s.reg (Reg.fsTblSel k)) 8 then p.live else p.mirror).get tableDefault (s.reg (Reg.fsTblIndex k)))] ∧
      t.reg (Reg.fsTblIndex k) = (s.reg (Reg.fsTblIndex k) + 1) % 2 ^ 17 ∧ t.fsPorts = s.fsPorts) ∧
  (∀ (s : State) (k : SliceIx) (mask : BitVec 4), s.awake → s.dev.state.ready = true →
    Answers (.fsTblCommit k mask) s fun t => ∀ l : Fin 4,
      if mask.getLsbD l = false then t.fsPort (portOf k l) = s.fsPort (portOf k l)
      else if s.dev.state = .preop then
        (t.fsPort (portOf k l)).live = (s.fsPort (portOf k l)).mirror ∧ (t.fsPort (portOf k l)).copyBusy = true ∧
        (t.fsPort (portOf k l)).ff.stage = .off
      else t.fsPort (portOf k l) = { s.fsPort (portOf k l) with tablePending := true }) ∧
  (∀ (s : State) (c : PortIx), s.awake → (s.fsPort c).copyBusy = true →
    Answers (.tableCopyDone c) s fun t => t.fsPort c = { s.fsPort c with mirror := (s.fsPort c).live, copyBusy := false }) ∧
  (∀ (s : State) (k : SliceIx), s.awake → Answers (.tableInitDone k) s fun t => t.slice k = { s.slice k with initBusy := false } ∧ t.fsPorts = s.fsPorts)

/-- The end of a learning period computes the targets, or starts again where no line counted; the computation's end begins the ramp at the port's
next line (R523, R524). -/
def Obligations.FlatFieldStages : Prop :=
  (∀ (s : State) (c : PortIx), s.awake → (s.fsPort c).ff.stage = .learning → (s.fsPort c).ff.learnLines ≤ (s.fsPort c).ff.lines →
    Answers (.ffPeriodEnd c) s fun t =>
      (t.fsPort c).ff.stage = (if (s.fsPort c).ff.counted = 0 then .learning else .computing) ∧ (t.fsPort c).ff.lines = 0 ∧
      (t.fsPort c).live = (s.fsPort c).live) ∧
  (∀ (s : State) (c : PortIx), s.awake → (s.fsPort c).ff.stage = .computing →
    Answers (.ffComputeDone c) s fun t => t.fsPort c = { s.fsPort c with ff := { (s.fsPort c).ff with stage := .ramping, lines := 0 } })

/-- A part of a tracked group closes once every tile of it has committed or been cancelled, the first part of a group before its second: it leaves the open parts,
LAST_LSN and LAST_SATURATED tell of it, and the slot of the group after it is published. Where no part is due the command changes nothing (R160, R161, R170). -/
def Obligations.TrackedGroupsClose : Prop :=
  ∀ (s : State) (k : Fin 256) (g h : Int), s.wf = true → s.awake → s.dev.state.live = true → s.odFlag (Od.trkEnable k) = true → s.firstGroup = some h → h ≤ g →
    (∀ part2 : Bool, s.partCommitted g part2 = true → (s.tensor k).closed.contains (g, part2) = false →
      (part2 = true → (s.tensor k).closed.contains (g, false) = true) →
      Answers (.trackedGroupClose k g) s fun t =>
        (t.tensor k).closed.contains (g, part2) = true ∧ (∀ q ∈ (t.tensor k).open_, ¬ (q.lgn = g ∧ q.part2 = part2)) ∧
        ((t.tensor k).slot (g + 1)).isSome = true ∧ t.od (Od.trkLastLsn k) = s.groupLsn g ∧
        t.od (Od.trkLastSaturated k) = match (s.tensor k).open_.find? fun o => o.lgn == g && o.part2 == part2 with
          | some q => q.saturated
          | none => 0) ∧
    ((∀ part2 : Bool, (s.tensor k).closed.contains (g, part2) = true ∨ s.partCommitted g part2 = false) →
      Answers (.trackedGroupClose k g) s fun t => t = s)

/-- Quantising under a valid scale: an integer format's code lies in the range that its rule writes, and one that is not marked saturated or
non-finite lies at most half a step from the value (R131, R154 to R156). -/
def Obligations.QuantisedCodesAreNear : Prop :=
  ∀ (fmt : Nat) (k : Scaling) (w : Fp), fmt ≤ 5 → scaleValid k.scale = true → k.zr = false →
    let q := quantise fmt k w
    let v : Int := if fmtZero fmt then (q.code : Int) else toSigned (fmtBits fmt) q.code
    (codeRange fmt).1 ≤ v ∧ v ≤ (codeRange fmt).2 ∧
    (q.sat = false → q.nonfinite = false → ∃ d : Rat, d = w.toRat / scaleVal k.scale - ((v - if fmtZero fmt then (k.zero : Int) else 0 : Int) : Rat) ∧
      -(1 / 2 : Rat) ≤ d ∧ d ≤ 1 / 2)

/-! ### Cores and tile instructions -/

/-- The core's next instruction is of the opcode, it waits for no object, the phase and dependence rules let it issue, and its units have queue room
(R213, R241 to R244). -/
def mayIssue (s : State) (k : CoreIx) (op : Nat) (t : Tile) (p : Prog) (w : Nat) : Prop :=
  s.nextInstr k = some (t, p, w) ∧ iOp w = op ∧ t.wait = none ∧ phaseOk (s.core k).phase (opClass op) = true ∧ t.depOk w = true ∧
    t.room ((s.core k).unitsOf w) = true

/-- The tile as its next instruction finds it: what the DEP mask names, and what has left its units' queues, has completed (R241, R243). -/
def issueTile (s : State) (k : CoreIx) (t : Tile) (w : Nat) : Tile :=
  { t with flights := t.flights.filter fun g => !(Nat.land g.groups (iDep w) != 0 || t.passed ((s.core k).unitsOf w) g) }

/-- The state as the instruction finds it, in its phase. -/
def issueState (s : State) (k : CoreIx) (op : Nat) (t : Tile) (w : Nat) : State :=
  (s.retire k fun g => Nat.land g.groups (iDep w) != 0 || t.passed ((s.core k).unitsOf w) g).modCore k fun c => { c with phase := phaseOf c.phase (opClass op) }

/-- What a compute instruction leaves when it has run: its effect on tile memory and accumulators, itself in flight behind the tile's others, its banks draining,
the tile one instruction on, and every other core as before. -/
def completed (s : State) (k : CoreIx) (t : Tile) (w : Nat) (fx : Fx) (r : State) : Prop :=
  (r.core k).tm = fx.tm ∧ (r.core k).acc = fx.acc ∧
  (∃ st, (r.core k).tile = some { t with
    pc := t.pc + 1, wait := none, stats := st, draining := t.draining ++ (s.core k).drains w
    flights := t.flights ++ [⟨t.pc, iGroups w, (s.core k).unitsOf w, fx.ranges, [], false⟩] }) ∧
  ∀ j, j ≠ k → r.core j = s.core j

/-- A compute instruction reads no word with an uncorrectable error and meets no resource fault (R182, R189, R271). -/
def sound (s : State) (k : CoreIx) (v : View) (w : Nat) (fx : Fx) : Prop :=
  s.readsPoison k (v.reads w) = none ∧ s.readsParity k w = none ∧ fx.fault = none

/-- The engine instructions that only compute: core, opcode and effect. -/
def engineOp : Instr → Option (CoreIx × Nat × (View → Nat → Fx))
  | .tmv k => some (k, 0x13, mvFx)
  | .tdw k => some (k, 0x14, dwFx)
  | .tvec k => some (k, 0x18, vecFx)
  | .tqnt k => some (k, 0x19, qntFx)
  | _ => none

/-- An engine instruction that may issue, reads no bad word and meets no resource fault completes: tile memory and the accumulators become what its
effect says, and the tile moves on by one instruction; one that reads a bad word ends its tile with a fault record, and the core is idle
(R182, R216, R242 to R244, R248 to R262). -/
def Obligations.EngineInstructionsComplete : Prop :=
  ∀ (i : Instr) (k : CoreIx) (op : Nat) (f : View → Nat → Fx) (s : State) (t : Tile) (p : Prog) (w : Nat), engineOp i = some (k, op, f) → s.awake →
    mayIssue s k op t p w →
    let u := issueState s k op t w
    let v := u.view k (issueTile s k t w) p ((s.core k).unitsOf w)
    (sound u k v w (f v w) → Answers i s (completed s k (issueTile s k t w) w (f v w))) ∧
    ((u.readsPoison k (v.reads w)).isSome = true → Answers i s fun r =>
      (r.core k).tile = none ∧ (r.core k).job = none ∧ (r.core k).resident = [] ∧ (∀ j, j ≠ k → r.core j = s.core j) ∧
      ∃ e ∈ r.events, e.source = 3 ∧ e.type = 2 ∧ e.lsn = t.firstLsn)

/-- A matrix product issues when its bank is free; its OPE takes the mode that it needs, and the fill level of what it issues on goes to the top
(R188, R190, R220, R250). A fused block issues when its OPEs and the vector engine can be idle (R244). -/
def Obligations.MatrixInstructionsComplete : Prop :=
  (∀ (conv : Bool) (k : CoreIx) (s : State) (t : Tile) (p : Prog) (w : Nat), s.awake → mayIssue s k (if conv then 0x11 else 0x10) t p w →
    let u0 := issueState s k (if conv then 0x11 else 0x10) t w
    u0.opeBusy k (issueTile s k t w) w = false →
    let o := (s.core k).physical (bits w 231 229)
    let quad := bitAt w 228
    let us := (s.core k).unitsOf w
    let same := (s.core k).quad.getLsbD o == quad
    let t1 := if same then issueTile s k t w else
      { issueTile s k t w with flights := (issueTile s k t w).flights.filter fun f => !(f.units.any fun u => u / 5 == o && !us.contains u) }
    let u := (if same then u0 else u0.retire k fun f => f.units.any fun u => u / 5 == o && !us.contains u).opeMode k o quad
    let v := u.view k t1 p us
    let fx := mmFx v w o
    sound u k v w fx →
    Answers (if conv then .tconv k else .tmm k) s fun r => completed s k t1 w fx r ∧ (r.core k).quad.getLsbD o = quad ∧
      (r.core k).sand = (s.core k).sand.mapIdx fun i l => if (if quad then i == 4 * o + bits w 227 226 else i / 4 == o) then s.sandTop else l) ∧
  (∀ (k : CoreIx) (s : State) (t : Tile) (p : Prog) (w : Nat), s.awake → mayIssue s k 0x12 t p w →
    let opes := (s.core k).fuseOpes w
    (t.draining.any fun d => opes.contains d.1) = false →
    let t1 := { issueTile s k t w with flights := (issueTile s k t w).flights.filter fun f =>
      !(f.units.any fun u => u == unitVec || (decide (u < unitMv) && opes.contains (u / 5))) }
    let u := opes.foldl (fun (u : State) o => u.opeMode k o false) ((issueState s k 0x12 t w).retire k fun f =>
      f.units.any fun u => u == unitVec || (decide (u < unitMv) && opes.contains (u / 5)))
    let v := u.view k t1 p ((s.core k).unitsOf w)
    let fx := fuseFx v w opes
    sound u k v w fx → Answers (.tfuse k) s fun r => completed s k t1 w fx r ∧
      (r.core k).sand = (s.core k).sand.mapIdx fun i l => if opes.contains (i / 4) then s.sandTop else l)

/-- Sequencer instructions: TNOP sets a predicate, TWAIT goes on or waits for its object, TSIGNAL adds to it or sets it once nothing is outstanding; a wait
that is met goes on, a phase follows its last instruction, with substituted halos filled before COMPUTE, a drain frees its bank, and a halo deadline substitutes
its side unless the condition holds by then (R213, R267, R268, R388, R391 to R393). -/
def Obligations.SequencerInstructions : Prop :=
  (∀ (s : State) (k : CoreIx) (t : Tile) (p : Prog) (w : Nat), s.awake → mayIssue s k 0 t p w →
    Answers (.tnop k) s fun r => (r.core k).tile = some { issueTile s k t w with pc := t.pc + 1, wait := none } ∧ (r.core k).tm = (s.core k).tm ∧
      (r.core k).preds = if bitAt w 231 = true then (s.core k).preds.set (bits w 230 228) (bits w 227 212, bits w 211 196) else (s.core k).preds) ∧
  (∀ (s : State) (k : CoreIx) (t : Tile) (p : Prog) (w : Nat), s.awake → mayIssue s k 0x32 t p w → (∀ o, s.syncObject t w = some o → o ≤ 16383) →
    Answers (.twait k) s fun r =>
      let v := syncValue t w
      let job := ((s.jobOf t.tag).map Job.halo).getD 0
      (r.core k).tile = some (match s.syncObject t w with
        | none => { issueTile s k t w with pc := t.pc + 1, wait := none }
        | some o =>
          if s.twaitHolds t o v (bitAt w 173) (bits w 172 171) = true then
            { issueTile s k t w with pc := t.pc + 1, wait := none }
          else { issueTile s k t w with wait := some (.sync o v (bits w 172 171) (if job = 0 then s.od Od.jobHaloDeadline else job) (bits w 170 163)) })) ∧
  (∀ (s : State) (k : CoreIx) (t : Tile) (p : Prog) (w : Nat), s.awake → mayIssue s k 0x33 t p w → t.settled = true →
    Answers (.tsignal k) s fun r => (r.core k).tile = some { t with pc := t.pc + 1, wait := none, flights := [] } ∧
      r.cmd.syncs = match s.syncObject t w with
        | none => s.cmd.syncs
        | some o => s.cmd.syncs.set s.cmd.syncInit o ((if bits w 172 172 = 0 then s.sync o + syncValue t w else syncValue t w) % 2 ^ 32)) ∧
  (∀ (s : State) (k : CoreIx) (t : Tile) (o v side d h : Nat), s.awake → (s.core k).tile = some t → t.wait = some (.sync o v side d h) →
    s.coreWaitHolds k t o v side = true →
    Answers (.syncWaitSatisfied (.core k)) s fun r => (r.core k).tile = some { t with pc := t.pc + 1, wait := none }) ∧
  (∀ (s : State) (k : CoreIx) (t : Tile) (p : Prog) (w : Nat), s.awake → s.nextInstr k = some (t, p, w) →
    phaseOk (s.core k).phase (opClass (iOp w)) = false → t.settled = true → t.wait = none →
    (t.subst = [] → Answers (.phaseChange k) s fun r =>
      (r.core k).phase = phaseOf (s.core k).phase (opClass (iOp w)) ∧ (r.core k).tile = some { t with flights := [] } ∧ (r.core k).tm = (s.core k).tm) ∧
    ∀ side hd, t.subst = [(side, hd, false)] → (s.core k).phase = .load → opClass (iOp w) = .compute → haloBad p side (p.desc hd) = none →
      (s.core k).tmPoison = [] →
      Answers (.phaseChange k) s fun r => (r.core k).phase = .compute ∧ (r.core k).tile = some { t with flights := [], subst := [(side, hd, true)] } ∧
        (r.core k).tm = haloFill (s.core k).tm (spaceTile k) (s.core k).epoch side (p.desc hd)) ∧
  (∀ (s : State) (k : CoreIx) (o : Fin 8) (q : Option (Fin 4)) (b : Bool) (t : Tile), s.awake → (s.core k).tile = some t →
    Answers (.opeDrainDone k o q b) s fun r => ∃ x, (r.core k).tile = some x ∧
      (o.val, (q.map fun y => y.val).getD 4, bit b) ∉ x.draining ∧
      ∀ d, d ≠ (o.val, (q.map fun y => y.val).getD 4, bit b) → (d ∈ x.draining ↔ d ∈ t.draining)) ∧
  (∀ (s : State) (k : CoreIx) (t : Tile) (o v side d h : Nat) (c : Int), s.awake → (s.core k).tile = some t → t.wait = some (.sync o v side d h) →
    side ≠ 0 → s.web.completeGroup = some c → t.g + (d : Int) ≤ c →
    Answers (.haloDeadline k) s fun r =>
      if s.coreWaitHolds k t o v side = true then (r.core k).tile = some { t with pc := t.pc + 1, wait := none } ∧ r.cmd.haloBits = s.cmd.haloBits
      else (r.core k).tile = some { t with pc := t.pc + 1, wait := none, subst := t.subst ++ [(side, h, false)] } ∧
        ∃ x ∈ r.cmd.haloBits, x.1 = t.g ∧ x.2.1 = t.stripe ∧ Nat.land x.2.2 (16 * side) = 16 * side)

/-- Output lines that a web-mode load reads (R247). -/
def webLines (s : State) (t : Tile) (w : Nat) : List Int :=
  (List.range (bits w 197 186 + 1)).map fun q => t.g * s.lineGroup / (max 1 s.fa : Nat) + toSigned 12 (bits w 89 78) + (q : Int)
/-- The columns that it reads. -/
def webCols (s : State) (t : Tile) (w : Nat) : List Int :=
  (List.range (bits w 105 90 + 1)).map fun j => s.stripeCol t.stripe + toSigned 16 (bits w 121 106) + (j : Int)
/-- The camera whose placed window holds a column of the device's window. -/
def webCam (s : State) (c : Int) : Option PortIx :=
  if c < (s.od Od.webWindowFirst : Int) / (s.fx : Int) ∨ ((s.od Od.webWindowFirst + s.od Od.webWindowWidth : Nat) : Int) / (s.fx : Int) ≤ c then none
  else s.enabledPorts.find? fun q => decide ((s.placedCols q).1 ≤ c) && decide (c ≤ (s.placedCols q).2)
/-- The bytes of a column of a line: from its camera's ring, or zeros outside the device's window. -/
def webBytes (s : State) (m c : Int) : List Byte :=
  let e := s.od Od.fsOutChStride * outBytes (s.od Od.fsOutOutFormat)
  match webCam s c with
  | some q => s.readOasis (s.fsReg q Reg.fsRingBase + slotOf m (s.fsReg q Reg.fsRingSlots) * s.fsReg q Reg.fsRingPitch + (c - (s.placedCols q).1).toNat * e) e
  | none => List.replicate e 0

/-- The lease of an instance ends once, in no tile that waits and in no tile that is won, and its tile can then be reissued; the clock glides in steps of 50 MHz,
and a fill level moves by one, its cycles counted; the tile-memory window moves on by 4 bytes and is refused while the core runs
(R183, R219, R220, R223, R384). -/
def coreHousekeeping : Prop :=
  (∀ (s : State) (n : W32) (tag : Nat) (j : Job) (w : WellTile), s.awake →
    (s.jobs.findSome? fun x => (x.2.tiles.find? fun w => w.insts.any fun i => i.tsn == n.toNat && i.lease).map fun w => (x.1, x.2, w)) = some (tag, j, w) →
    s.jobOf tag = some j → s.dev.state ≠ .hold → (∀ k t, (s.core k).tile = some t → t.tsn = n.toNat → t.holds = false) → w.won = none →
    s.tileCancelled j w = false →
    Answers (.leaseExpiry n) s fun r => ∃ j', r.jobOf tag = some j' ∧
      let w' := j'.tile w.g w.part2 w.stripe
      w'.insts = (w.insts.map fun i => if i.tsn = n.toNat then { i with lease := false } else i) ∧ w'.won = none ∧
      w'.reissue = (w.reissue || !((w.insts.getLast?.map fun i => i.tsn != n.toNat && i.lease).getD false)) ∧ r.cores = s.cores) ∧
  (∀ (s : State) (k : CoreIx), s.awake → s.pwr.cores.getLsbD k = true →
    Answers (.clockGlideStep k) s fun r => r.core k = { s.core k with
      mhz := if (s.core k).mhz < s.coreMhz k then (if s.voltageRises = true then (s.core k).mhz else min (s.coreMhz k) ((s.core k).mhz + 50))
        else max (s.coreMhz k) ((s.core k).mhz - 50) }) ∧
  (∀ (s : State) (k : CoreIx) (o : Fin 8) (q : Option (Fin 4)), s.awake →
    let i := 4 * o.val + (q.map fun x => x.val).getD 0
    let level := fun (x l : Nat) =>
      if s.odFlag Od.coresSandFill = false ∨ s.pwr.warning = true then 0
      else if (s.core k).phase = .load ∨ l ≠ (s.core k).sandGoal.getD x 0 then min 16 (l + 1) else l - 1
    Answers (.sandFillStep k o q) s fun r =>
      (r.core k).sand = (s.core k).sand.mapIdx (fun x l => if (if q.isSome = true then x == i else x / 4 == o.val) = true then level x l else l) ∧
      (s.wf = true → r.reg (Reg.coreSandCycles k) = satAdd 64 (s.reg (Reg.coreSandCycles k)) ((r.core k).sand.getD i 0))) ∧
  (∀ (s : State) (k : CoreIx) (v : W32), s.wf = true → s.awake → s.dev.state.ready = true → s.tmOpen k = true → s.pwr.cores.getLsbD k = true →
    s.reg (Reg.coreTmAddr k) + 4 ≤ 0x300000 →
    Answers (.coreTmDataAccess k (some v)) s (fun r =>
      (r.core k).tm = (s.core k).tm.write (s.reg (Reg.coreTmAddr k)) (leBytes 4 v.toNat) ∧ r.reg (Reg.coreTmAddr k) = s.reg (Reg.coreTmAddr k) + 4) ∧
    Answers (.coreTmDataAccess k none) s (fun r =>
      .readData (ofLeBytes ((s.core k).tm.read (spaceTile k) (s.core k).epoch (s.reg (Reg.coreTmAddr k)) 4)) ∈ r.out.drop s.out.length ∧
      (r.core k).tm = (s.core k).tm ∧ (r.core k).acc = (s.core k).acc ∧ r.reg (Reg.coreTmAddr k) = s.reg (Reg.coreTmAddr k) + 4)) ∧
  (∀ (s : State) (k : CoreIx) (v : Option W32), s.wf = true → s.awake → s.dev.state.ready = true → s.tmOpen k = false →
    Answers (.coreTmDataAccess k v) s fun r => r.cores = s.cores ∧ r.reg (Reg.coreTmStatus k) = 1)

/-- An idle core is bound to the job that the dispatcher chooses, with its program, and draws a tile with a TSN of its own; transfers load and store rows; a tile
commits first or not at all, and its core is idle at its end. The first instance to commit wins its tile, and no later one changes that
(R182, R230, R239, R242, R246, R266, R381, R383, R385, R386). Conjoined with `coreHousekeeping`. -/
def Obligations.TilesRunAndCommitOnce : Prop :=
  coreHousekeeping ∧
  (∀ (s : State) (k : CoreIx) (tag : Nat) (j : Job), s.awake → s.dev.state.live = true → s.coreInService k = true → (s.core k).tile = none →
    (s.core k).job = none → s.odFlag (Od.corePark k) = false → s.trimHolds k = false → s.dispatchChoice k = some tag → s.jobOf tag = some j →
    let held := (s.core k).prog.map Prod.fst = some tag
    let p := s.readProgram j.prog
    (held → Answers (.coreDispatch k) s fun r => r.core k = { s.core k with job := some tag }) ∧
    (¬ held → s.checkProgram p = none → Answers (.coreDispatch k) s fun r => r.core k = { s.core k with
      job := some tag, prog := some (tag, p.take p.bytes), slots := (List.range 64).map fun i => if i < p.rdescCount then p.rdesc i else 0 })) ∧
  (∀ (s : State) (k : CoreIx) (tag : Nat) (p : Prog) (j : Job) (g : Int) (p2 : Bool) (st : Nat) (re : Bool), s.awake → (s.core k).job = some tag →
    (s.core k).prog = some (tag, p) → (s.core k).tile = none → s.fixFirst.jobOf tag = some j → s.fixFirst.mayDraw k j = true →
    s.fixFirst.jobOffer j = some (g, p2, st, re) →
    Answers (.tdraw k) s fun r =>
      (∃ x, (r.core k).tile = some x ∧ x.tsn = s.cmd.tsn ∧ x.tag = tag ∧ x.g = g ∧ x.part2 = p2 ∧ x.stripe = st ∧ x.pc = 1 ∧ x.commit = .undecided ∧
        x.opes = (s.core k).opes ∧ x.flights = [] ∧ x.staged = [] ∧ x.cands = []) ∧ (r.core k).phase = .idle ∧
      r.cmd.tsn = if s.cmd.tsn + 1 = 2 ^ 32 then 1 else s.cmd.tsn + 1) ∧
  (∀ (s : State) (k : CoreIx) (t : Tile) (p : Prog) (w : Nat), s.awake → mayIssue s k 1 t p w →
    let n := bits w 213 198 + 1
    let dst := (State.xferRows t p w 0).map fun r => (r.1, 0)
    let t1 := issueTile s k t w
    let u := issueState s k 1 t w
    let landed := fun (rows : List (Nat × List Byte)) (r : State) =>
      (r.core k).tm = rows.foldl (fun m x => putLoaded m (haloRanges p t1) x.1 x.2) (s.core k).tm ∧
      (r.core k).tile = some { t1 with pc := t.pc + 1, wait := none, flights := t1.flights ++
        [⟨t.pc, iGroups w, [unitPort], rows.map fun x => (x.1, x.2.length), p.filled (rows.map fun x => (x.1, 0)) n, false⟩] } ∧
      ∀ j, j ≠ k → r.core j = s.core j
    (u.residentHit k t1 dst n = true → Answers (.tload k) s fun r =>
      (r.core k).tm = (s.core k).tm ∧ (r.core k).tile = some { t1 with pc := t.pc + 1, wait := none } ∧
      (s.wf = true → r.reg (Reg.coreResidentHits k) = satAdd 64 (s.reg (Reg.coreResidentHits k)) (n * dst.length))) ∧
    (u.residentHit k t1 dst n = false → bits w 215 214 = 1 → s.oasisPoison = [] →
      (∀ m ∈ webLines s t w, ∀ c ∈ webCols s t w, ∀ q, webCam s c = some q →
        ofLeBytes (s.readOasis (s.fsReg q Reg.fsTagBase + 16 * slotOf m (s.fsReg q Reg.fsRingSlots)) 6) = mod48 (m * (max 1 s.fa : Nat))) →
      Answers (.tload k) s (landed ((webLines s t w).mapIdx fun i m =>
        (dBase (p.desc (bits w 223 216)) + i * dP1 (p.desc (bits w 223 216)), (webCols s t w).flatMap (webBytes s m))))) ∧
    (u.residentHit k t1 dst n = false → bits w 215 214 ≠ 1 → (xferStripe t w < 0 ∨ (s.stripes : Int) ≤ xferStripe t w) →
      Answers (.tload k) s (landed (dst.map fun x => (x.1, List.replicate n 0)))) ∧
    (u.residentHit k t1 dst n = false → bits w 215 214 ≠ 1 → 0 ≤ xferStripe t w → xferStripe t w < s.stripes →
      let base := ((s.argSpan t.tag (dArg (p.desc (bits w 231 224)))).map Prod.fst).getD 0
      let rows := State.xferRows t p w base
      let x := u.pubNeed rows n (xferGroup t w)
      s.xferBad t p w = none → s.mcastOf t.tag (dArg (p.desc (bits w 231 224))) = none → x.fetchReady t1 rows n (xferGroup t w) = true →
      (∀ q ∈ rows, x.oasisPoisoned q.2 n = false) →
      Answers (.tload k) s (landed (rows.map fun q => (q.1, x.readOasis q.2 n))))) ∧
  (∀ (s : State) (k : CoreIx) (t : Tile) (p : Prog) (w : Nat), s.awake → mayIssue s k 2 t p w → t.commit = .won →
    let n := bits w 213 198 + 1
    let t1 := issueTile s k t w
    let u := issueState s k 2 t w
    let rows := State.xferRows t p w (((s.argSpan t.tag (dArg (p.desc (bits w 231 224)))).map Prod.fst).getD 0)
    ((xferStripe t w < 0 ∨ (s.stripes : Int) ≤ xferStripe t w) →
      Answers (.tstore k) s fun r => r.oasis = s.oasis ∧ (r.core k).tile = some { t1 with pc := t.pc + 1, wait := none }) ∧
    (0 ≤ xferStripe t w → xferStripe t w < s.stripes →
      (∀ i x, s.storeStream t p w = some (i, x) → u.storeHeld t1 x (xferGroup t w) = false) →
      Answers (.tstore k) s fun r =>
        r.oasis = (rows.foldl (fun (y : State) x => y.writeOasis x.2 ((u.view k t1 p [unitPort]).read x.1 n)) s).oasis ∧
        (∀ a, (∀ x ∈ rows, a < x.2 ∨ x.2 + n ≤ a) → r.oasis.byte? a = s.oasis.byte? a) ∧ (r.core k).tm = (s.core k).tm ∧
        (r.core k).tile = some { t1 with
          pc := t.pc + 1, wait := none, stored := t.stored ++ rows.map fun x => (x.2, n)
          dataError := t.dataError || ((s.core k).tmPoison.any fun b => rows.any fun x => touches 8 x.1 n [b])
          flights := t1.flights ++ [⟨t.pc, iGroups w, [unitPort], [], [], false⟩] })) ∧
  (∀ (s : State) (k : CoreIx) (t : Tile) (p : Prog) (w : Nat) (j : Job), s.awake → mayIssue s k 0x31 t p w → s.commitFault t p = none →
    s.jobOf t.tag = some j →
    Answers (.tcommit k) s fun r => ∃ j', r.jobOf t.tag = some j' ∧
      let wt := j.tile t.g t.part2 t.stripe
      let wt' := j'.tile t.g t.part2 t.stripe
      if wt.won.isSome ∨ s.tileCancelled j wt = true then
        wt'.won = wt.won ∧ (r.core k).tile = none ∧ r.ctx.batches = s.ctx.batches ∧ r.det.slots = s.det.slots ∧ r.tensors = s.tensors
      else wt'.won = some t.tsn ∧ (r.core k).tile = some { issueTile s k t w with commit := .won, pc := t.pc + 1, wait := none } ∧
        r.ctx.batches.map CtxBatch.effects = s.ctx.batches.map CtxBatch.effects ++ (if t.staged.isEmpty = true then [] else [t.staged])) ∧
  (∀ (s : State) (k : CoreIx) (t : Tile) (tag : Nat) (p : Prog) (j : Job), s.awake → (s.core k).tile = some t → (s.core k).prog = some (tag, p) →
    Prog.instrCount p ≤ t.pc → t.settled = true → t.commit = .won → s.groupDone t.g 8 = false → s.jobOf t.tag = some j →
    Answers (.tileFinish k) s fun r => (r.core k).tile = none ∧ (r.core k).job = none ∧ (r.core k).phase = .idle ∧
      ∃ j', r.jobOf t.tag = some j' ∧ (j'.tile t.g t.part2 t.stripe).finished = true)

/-! ### Context and detection -/

/-- The tile whose TCTX enters the queue of the context port (R241, R244, R329). -/
def ctxTile (s : State) (k : CoreIx) (t : Tile) (p : Prog) (w : Nat) : Tile :=
  { issueTile s k t w with
    pc := t.pc + 1, wait := none, ctxq := t.ctxq ++ [CtxOp.mk w t.pc (s.od Od.stateStateDeadline) (s.core k).preds]
    flights := (issueTile s k t w).flights ++ [⟨t.pc, iGroups w, [unitCtx], s.ctxWrites p w, [], true⟩] }
/-- The state in which it stands there. -/
def ctxState (s : State) (k : CoreIx) (t : Tile) (p : Prog) (w : Nat) : State := (issueState s k 0x20 t w).modTile k fun _ => ctxTile s k t p w

/-- An instruction of the named operation is at the head of the core's context queue: it was there, or the core's next instruction issues into an empty
queue. The command runs it in the state u. -/
def ctxRuns (s : State) (k : CoreIx) (op : Nat) (u : State) (t : Tile) (p : Prog) (o : CtxOp) : Prop :=
  (∃ rest, t.ctxq = o :: rest) ∧ bits o.word 231 228 = op ∧ (u.core k).tile = some t ∧ (∃ tag, (u.core k).prog = some (tag, p)) ∧
  ((∃ t0 p0 w, mayIssue s k 0x20 t0 p0 w ∧ bits w 231 228 = op ∧ u = ctxState s k t0 p0 w) ∨
    (¬ (∃ t0 p0 w, mayIssue s k 0x20 t0 p0 w ∧ bits w 231 228 = op) ∧ u = s))

/-- It completes with an effect on the core: it has left the queue, nothing waits for it any more, and no other core has changed. -/
def ctxCompleted (s : State) (k : CoreIx) (t : Tile) (o : CtxOp) (fx : Fx) (staged : List Staged) (r : State) : Prop :=
  (r.core k).tm = fx.tm ∧ (r.core k).acc = fx.acc ∧
  (∃ st, (r.core k).tile = some { t with
    stats := st, staged := staged, ctxq := t.ctxq.filter fun x => x.index != o.index
    flights := t.flights.map fun f => if f.index = o.index then { f with waits := false } else f }) ∧
  ∀ j, j ≠ k → r.core j = s.core j

/-- It reads no word with an uncorrectable error and meets no resource fault. -/
def ctxSound (s : State) (k : CoreIx) (v : View) (o : CtxOp) (fx : Fx) : Prop := s.readsPoison k [(0, s.ctxReads v o.word)] = none ∧ fx.fault = none

/-- What a STATE_LOAD writes: the payload and its age. -/
def stateFx (s : State) (k : CoreIx) (t : Tile) (p : Prog) (o : CtxOp) (r : List Byte × Nat) : Fx :=
  let v := (s.stateSeen t r.2).ctxView k t p o
  (v.fx.bytes (dBase (p.desc (bits o.word 216 209))) r.1).code v (p.desc (bits o.word 224 217)) 0 0 r.2

/-- At the head of its core's context queue, LOOKUP completes with the values of R319; UPDATE, STATE_STORE and TOKEN_PUT stage their effect until the
tile commits; STATE_LOAD and TOKEN_GET complete once what they ask for is there or is closed to them, and wait in the queue until then; one that reads DRAM waits too while
its bank or channel is out of service
(R302, R306, R307, R310, R311, R322). -/
def Obligations.ContextInstructions : Prop :=
  (∀ (s : State) (k : CoreIx) (op : Nat) (u : State) (t : Tile) (p : Prog) (o : CtxOp), s.awake → ctxRuns s k op u t p o →
    let w := o.word
    let v := u.ctxView k t p o
    let dk := p.desc (bits w 224 217)
    let dv := p.desc (bits w 216 209)
    let n := bits w 208 196 + 1
    (op = 0 → let reqs := u.ctxRequests v w
      let fx := u.lookupFx v w reqs
      let held := reqs.any fun r => r.addr.any fun a => s.dramHeld a 64
      (held = false → ctxSound u k v o fx → Answers (.lookup k) s (ctxCompleted s k t o fx t.staged)) ∧
      (held = true → Answers (.lookup k) s fun r => r = u)) ∧
    (op = 1 → let reqs := u.ctxRequests v w
      let fx := (v.fx.slotCheck v [dv]).count (v.counts true dv (List.range 48) (reqs.map fun r => r.i))
      let all := reqs.filterMap fun r => r.addr.map fun a => Staged.update
        { p := bits w 227 225, addr := a, lsn := r.w, vec := (List.range 48).map fun c => (v.x24 dv c r.i).toRat, alpha := (fmtBf16.decode (bits w 195 180)).toRat }
      ctxSound u k v o fx → Answers (.update k) s (ctxCompleted s k t o fx (t.staged ++ all.take (16384 - t.stagedUpdates)))) ∧
    (op = 3 → ctxSound u k v o v.fx → Answers (.stateStore k) s (ctxCompleted s k t o v.fx ((t.staged.filter fun y => match y with
      | .state _ => false
      | _ => true) ++ [.state (v.read (dBase dv) (s.od Od.stateStateBytes))]))) ∧
    (op = 4 → ctxSound u k v o v.fx → Answers (.tokenPut k) s (ctxCompleted s k t o v.fx ((t.staged.filter fun y => match y with
      | .tokens _ => false
      | _ => true) ++ [.tokens (v.read (dBase dv) (s.od Od.tokTokPerStripe * s.od Od.tokTokBytes))]))) ∧
    (op = 2 →
      (∀ x, s.stateReady t o.deadline = some x → s.stateHeld t x.2 = false → ctxSound u k v o (stateFx u k t p o x) →
        Answers (.stateLoad k) s (ctxCompleted s k t o (stateFx u k t p o x) t.staged)) ∧
      (s.stateReady t o.deadline = none → s.groupDone t.g o.deadline = true → s.stateHeld t (s.stateOld t o.deadline).2 = false → ctxSound u k v o (stateFx u k t p o (s.stateOld t o.deadline)) →
        Answers (.stateLoad k) s (ctxCompleted s k t o (stateFx u k t p o (s.stateOld t o.deadline)) t.staged)) ∧
      ((∀ x, s.stateReady t o.deadline = some x → s.stateHeld t x.2 = true) →
        (s.stateReady t o.deadline = none → s.groupDone t.g o.deadline = true → s.stateHeld t (s.stateOld t o.deadline).2 = true) →
        Answers (.stateLoad k) s fun r => r = u)) ∧
    (op = 5 → let g := t.g - (s.od Od.tokTokLag : Int)
      let reqs := ((List.range n).filter (v.on dk)).map fun i => (i, v.code dk 0 i)
      let held := reqs.any fun r => s.tokStatus g r.2 == 0 && s.dramHeld (s.tokAddr g r.2) (s.od Od.tokTokBytes)
      let ready := !held && ((reqs.all fun r => s.tokStatus g r.2 != 1) || s.tokClosed g)
      let seen := reqs.foldl (fun (x : State) r => if s.tokStatus g r.2 = 0 then x.dramSeen (s.tokAddr g r.2) (s.od Od.tokTokBytes) false else x) u
      let v' := seen.ctxView k t p o
      let fx := reqs.foldl (fun (f : Fx) q =>
        (f.bytes (dBase dv + q.1 * s.od Od.tokTokBytes) (if s.tokStatus g q.2 = 0 then s.readDram (s.tokAddr g q.2) (s.od Od.tokTokBytes)
          else List.replicate (s.od Od.tokTokBytes) 0)).code v' dk 1 q.1 (s.tokStatus g q.2)) v'.fx
      (ready = true → ctxSound u k v o fx → Answers (.tokenGet k) s (ctxCompleted s k t o fx t.staged)) ∧
      (ready = false → Answers (.tokenGet k) s fun r => r = u))) ∧
  ∀ (s : State) (k : CoreIx) (t : Tile) (p : Prog) (o : CtxOp) (tag : Nat) (rest : List CtxOp), s.awake → (s.core k).tile = some t →
    (s.core k).prog = some (tag, p) → t.ctxq = o :: rest → bits o.word 231 228 = 2 → s.groupDone t.g o.deadline = true →
    let x := (s.stateReady t o.deadline).getD (s.stateOld t o.deadline)
    s.stateHeld t x.2 = false → ctxSound s k (s.ctxView k t p o) o (stateFx s k t p o x) → Answers (.stateDeadline k) s (ctxCompleted s k t o (stateFx s k t p o x) t.staged)

/-- At its deadline a token slot freezes and takes no token of its group any more; the device's own tokens are sent once, on each LINKED link
(R306, R308, R429). -/
def tokenSlots : Prop :=
  (∀ (s : State) (g : Int), s.awake → s.od Od.tokTokPerStripe ≠ 0 → s.groupDone g (s.od Od.tokTokDeadline) = true → s.groupDone g 16 = false →
    s.tokClosed g = false →
    Answers (.tokenDeadline g) s fun t => t.tokClosed g = true ∧ t.ctx.batches = s.ctx.batches ∧ t.oasis = s.oasis ∧
      ∀ h, h % 16 ≠ g % 16 → t.tokSlot h = s.tokSlot h) ∧
  (∀ (s : State) (g : Int), s.awake → s.od Od.tokTokPerStripe * s.stripes ≠ 0 → (∀ x, s.tokSlot g = some x → x.sent = false) → s.groupDone g 16 = false →
    (s.groupCommitted g = true ∧ s.tokensWait g = false ∨ s.groupDone g (s.od Od.tokTokDeadline) = true) →
    Answers (.tokenSend g) s fun t => (∃ x, t.tokSlot g = some x ∧ x.sent = true) ∧
      ∀ l, (t.link l).queue.length = (s.link l).queue.length + if (s.link l).state = .linked then 1 else 0)

/-- The effects of the tile that committed first are taken from the batches, in order, unless they wait for a bank or channel of DRAM that is out of service; an
update whose register is in force writes the 64 bytes of its entry and nothing else, a recurrent state is stored with its header, and tokens become present in
their slot. A clear in progress ends with every entry of its registers invalid (R310, R317, R318, R320, R324). Conjoined with `tokenSlots`. -/
def Obligations.ContextStoreAndTokenSlots : Prop :=
  tokenSlots ∧
  (∀ (s : State) (b : CtxBatch) (rest : List CtxBatch), s.awake → s.ctx.batches = b :: rest → b.effects.any (s.effectHeld b) = true →
    Answers .ctxEffectsApply s fun t => t = s) ∧
  (∀ (s : State) (b : CtxBatch) (rest : List CtxBatch), s.awake → s.ctx.batches = b :: rest → b.effects.any (s.effectHeld b) = false →
    Answers .ctxEffectsApply s fun t => t.ctx.batches = rest ∧
      ∀ u, b.effects = [.update u] → s.odFlag (Od.periodEnable u.p) = true → s.ctx.clearing.getLsbD u.p = false →
        precedes (BitVec.ofNat 48 u.lsn) (BitVec.ofNat 48 (s.od (Od.periodEpochLsn u.p))) = false →
        t.dram = s.dram.write u.addr (updateEntry (if s.entryValid u.p u.addr (s.readDram u.addr 64) then some (s.readDram u.addr 64) else none)
          (s.odFlag (Od.periodWarmup u.p)) u (s.od (Od.periodEpoch u.p))).1 ∧
        (∀ a, (a < u.addr ∨ u.addr + 64 ≤ a) → t.dram.byte? a = s.dram.byte? a)) ∧
  (∀ (s : State) (b : CtxBatch) (rest : List CtxBatch) (bs : List Byte), s.awake → s.ctx.batches = b :: rest → b.effects = [.state bs] →
    s.effectHeld b (.state bs) = false →
    Answers .ctxEffectsApply s fun t => t.ctx.batches = rest ∧ t.stateStored b.g b.stripe = true ∧
      let a := s.stateAddr b.g b.stripe
      t.dram = (s.dram.write (a + 64) bs).write a (padTo 64 (leBytes 6 b.firstLsn ++ leBytes 1 (bit b.part2)))) ∧
  (∀ (s : State) (b : CtxBatch) (rest : List CtxBatch) (bs : List Byte), s.awake → s.ctx.batches = b :: rest → b.effects = [.tokens bs] →
    s.effectHeld b (.tokens bs) = false → s.tokClosed b.g = false → 0 < s.od Od.tokTokBytes →
    let first := (s.od Od.tokStripeOffset + b.stripe) * s.od Od.tokTokPerStripe
    let n := min (bs.length / s.od Od.tokTokBytes) (s.od Od.tokTokTotal - first)
    Answers .ctxEffectsApply s fun t => t.ctx.batches = rest ∧
      (∃ x, t.tokSlot b.g = some x ∧ ∀ i, i ∈ x.present ↔ (first ≤ i ∧ i < first + n) ∨ ∃ y, s.tokSlot b.g = some y ∧ i ∈ y.present) ∧
      t.dram = s.dram.write (s.tokAddr b.g first) (bs.take (n * s.od Od.tokTokBytes))) ∧
  (∀ (s : State) (v : W32), s.awake → s.dev.state.ready = true → s.dev.state ≠ .safe →
    Answers (.ctxClearWrite v) s fun t => t.ctx = { s.ctx with clearing := s.ctx.clearing ||| v.truncate 8 } ∧ t.dram = s.dram ∧
      (0 < s.ledger.count → s.ledger.count < t.ledger.count)) ∧
  (∀ (s : State), s.awake → s.ctx.clearing ≠ 0 →
    Answers .ctxClearDone s fun t => t.ctx.clearing = 0 ∧
      (∀ p, p < 8 → s.ctx.clearing.getLsbD p = true → ∀ i, i < 2 ^ 21 →
        t.dram.byte? (s.od Od.ctxCtxBase + p * 2 ^ 27 + 64 * i + 58) = some 0) ∧
      ∀ a, (∀ p, p < 8 → s.ctx.clearing.getLsbD p = true → a < s.od Od.ctxCtxBase + p * 2 ^ 27 ∨ s.od Od.ctxCtxBase + p * 2 ^ 27 + 2 ^ 27 ≤ a) →
        t.dram.byte? a = s.dram.byte? a)

/-- The list of a group's part stands ready at the end of its job's detection stream (R292). -/
def listReady (r : State) (d : DetSlot) (lsn : Nat) (kept : List Box) : Prop :=
  ∀ j, r.jobOf d.tag = some j → ∀ o ∈ j.outs, o.arg = none → ∃ x, o.ready.getLast? = some x ∧ x.g = d.g ∧ x.part2 = d.part2 ∧ x.body = listBytes lsn d kept

/-- TDET decodes the tile's candidates and holds them; a bad anchor table gives none and is reported (R264, R282, R284). Suppression takes a group's
slot on by the pass of R288, and a group whose neighbours' sets are all there, or whose deadline for them has passed, has its list ready for its job's detection
stream and its slot free, with the boxes of its border that a neighbour's box precedes left out (R287 to R292). -/
def Obligations.DetectionRuns : Prop :=
  (∀ (s : State) (k : CoreIx) (t : Tile) (p : Prog) (w : Nat), s.wf = true → s.awake → mayIssue s k 0x21 t p w →
    let d := p.desc (bits w 227 220)
    let t1 := issueTile s k t w
    let u := issueState s k 0x21 t w
    let v := u.view k t1 p [unitDet]
    let fx := (v.fx.slotCheck v [d]).count (v.counts false d (List.range (dC d)) (List.range (bits w 211 196 + 1)))
    sound u k v w fx →
    Answers (.tdet k) s fun r => (r.core k).tm = (s.core k).tm ∧
      (∃ st, (r.core k).tile = some { t1 with
        pc := t.pc + 1, wait := none, stats := st, tdet := true, cands := t.cands ++ (u.candidates v w).getD []
        flights := t1.flights ++ [⟨t.pc, iGroups w, [unitDet], [], [], false⟩] }) ∧
      r.reg Reg.detAnchorErr = satAdd 32 (s.reg Reg.detAnchorErr) (if (u.candidates v w).isNone then 1 else 0)) ∧
  (∀ (s : State) (g : Int) (d : DetSlot), s.awake →
    ((s.det.slots.find? fun d => d.g == g && !d.part2) = some d ∨
      ((s.det.slots.find? fun d => d.g == g && !d.part2) = none ∧ (s.det.slots.find? fun d => d.g == g && d.part2) = some d)) →
    d.kept = none → s.maySuppress g d.part2 = true →
    Answers (.detSuppress g) s fun r =>
      let u := s.chainWatch (s.takeDeferred (fun v => v.key / 256 == 0x5800 && lsnReached (s.groupLsn g) v) (s.groupLsn g))
      let pass := d.cands.foldl (suppressOne u.iouTq (u.odFlag Od.detAgnostic) (u.od Od.detKeepMax)) ([], 0, 0)
      if (u.neighbours.all fun l => s.det.sets.any fun x => x.side == l.val && x.g == g) = true then
        (∀ x ∈ r.det.slots, x.is g d.part2 = false) ∧ r.det.last = some g ∧ ∀ x ∈ r.det.sets, g < x.g
      else ∃ d' ∈ r.det.slots, d'.is g d.part2 = true ∧ d'.suppressed = pass.2.1 ∧ d'.tq = u.iouTq ∧ ∃ kb, d'.kept = some kb ∧
        kb.map (fun b => (b.score, b.cls, b.x0, b.y0, b.x1, b.y1)) = pass.1.map fun b => (b.score, b.cls, b.x0, b.y0, b.x1, b.y1)) ∧
  (∀ (s : State) (g : Int) (d : DetSlot) (kept : List Box), s.awake → (s.det.slots.find? fun d => d.g == g && d.kept.isSome) = some d → d.kept = some kept →
    s.groupDone g 2 = true →
    Answers (.detMergeDeadline g) s fun r =>
      let missing := s.neighbours.filter fun l => !s.det.sets.any fun x => x.side == l.val && x.g == g
      let others := (s.det.sets.filter fun x => x.g == g).flatMap fun x => x.boxes
      let final := kept.filter fun b => !(b.border && others.any fun o => o.sameClass d.agnostic b && o.meets d.tq b && o.before b)
      let d' := { d with flags := Nat.lor d.flags ((missing.map fun l => if l = 0 then 8 else 16).sum), dropped := kept.length - final.length }
      r.det.slots = (s.det.slots.filter fun x => !x.is d.g d.part2) ∧ r.det.last = some g ∧ r.det.sets = (s.det.sets.filter fun x => decide (g < x.g)) ∧
      listReady r d' (s.groupLsn g) final)

/-- The pass of R288: at most KEEP_MAX boxes are kept, in candidate order; no kept box meets the threshold with an earlier one of its class; and every
candidate is kept, suppressed or cut. -/
def Obligations.SuppressionKeepsApart : Prop :=
  ∀ (tq : Int) (agnostic : Bool) (keepMax : Nat) (cands : List Box),
    let r := cands.foldl (suppressOne tq agnostic keepMax) ([], 0, 0)
    r.1.length ≤ keepMax ∧ r.1.Sublist cands ∧ r.1.Pairwise (fun a b => (a.sameClass agnostic b && a.meets tq b) = false) ∧
    r.1.length + r.2.1 + r.2.2 = cands.length

/-! ### The Rolotte links -/

/-- Training: light starts an enabled link, locked lanes align it, deskew lets it negotiate, training messages go out, and a partner's message that
agrees brings it to LINKED on the common lanes, from NEGOTIATE with everything fresh and from RETRAIN with the replay buffer kept. One with a foreign generation
or a reserved field that is not zero is refused and counted. What ends or repeats
training has its state and its FAIL_CODE: no lane then counts as locked, and of the excluded lanes those stay so without which the link had retrained to 4
lanes (R409 to R414; a lane that a fault took counts as locked no more: 153, the model's choice). -/
def Obligations.LinkTraining : Prop :=
  (∀ (s : State) (l : LinkIx), s.awake → s.pwr.engines.getLsbD (4 + l.val) = true → (s.link l).state = .down → s.odFlag (Od.linkLinkEnable l) = true →
    s.dev.state.ready = true → s.dev.state ≠ .safe → (s.trim.running.any fun x => x.kind == 3 && x.unit == l.val) = false →
    Answers (.lightOkRise ⟨4 + l.val, by omega⟩) s fun t => (t.link l).state = .lock ∧ (t.link l).light = true ∧ (t.link l).active = 0 ∧ (t.link l).locked = 0) ∧
  (∀ (s : State) (l : LinkIx) (lanes : BitVec 8), s.awake → (s.link l).light = true → lanes ≠ 0 → (s.link l).state = .lock →
    Answers (.linkLanesLocked l lanes) s fun t => t.link l = { s.link l with state := .align, locked := lanes }) ∧
  (∀ (s : State) (l : LinkIx), s.awake → (s.link l).state = .align →
    Answers (.linkDeskewDone l) s fun t => t.link l = { s.link l with state := .negotiate }) ∧
  (∀ (s : State) (l : LinkIx), s.awake → (s.link l).negotiates = true →
    Answers (.trainingMessageSend l) s fun t => t.out = s.out ++ [.training l (s.trainingMessage l)] ∧ t.links = s.links) ∧
  (∀ (s : State) (l : LinkIx) (m : List Byte), s.awake → (s.link l).negotiates = true → m.length = 64 → byteAt m 0 = 1 → byteAt m 1 % 2 = 1 →
    byteAt m 1 / 8 = 0 → byteAt m 3 = 1 → byteAt m 5 % 4 = 0 → fieldAt m 6 2 = 0x7480 → zeroAt m 8 56 = true →
    Answers (.trainingMessageRx l m) s fun t =>
      match laneSet (s.link l).offered (BitVec.ofNat 8 (byteAt m 2)) (s.odFlag (Od.linkDegradeAllow l)) with
      | some lanes => (t.link l).state = .linked ∧ (t.link l).active = lanes ∧ (t.link l).barrierAt = s.nowGroup - 1 ∧
          if (s.link l).state = .retrain then
            (t.link l).replay = (s.link l).replay ∧ (t.link l).txSeq = (s.link l).txSeq ∧ (t.link l).rxSeq = (s.link l).rxSeq ∧ (t.link l).resent = 0 ∧
              (t.link l).kept = (if laneCount lanes = 4 then (s.link l).excluded else (s.link l).kept)
          else (t.link l).kept = (s.link l).kept ∧ (t.link l).replay = [] ∧ (t.link l).txSeq = 0 ∧ (t.link l).rxSeq = 0 ∧ (t.link l).queue = []
      | none => (t.link l).state = if (s.link l).state = .retrain then .retrain else .failed) ∧
  (∀ (s : State) (l : LinkIx) (m : List Byte), s.wf = true → s.awake → (s.link l).negotiates = true → m.length = 64 →
    (byteAt m 0 % 4 ≠ 1 ∨ byteAt m 0 / 4 ≠ 0 ∨ byteAt m 1 / 8 ≠ 0 ∨ byteAt m 3 / 2 ≠ 0 ∨ byteAt m 5 % 4 ≠ 0 ∨ zeroAt m 8 56 = false) →
    Answers (.trainingMessageRx l m) s fun t => (t.link l).state = (s.link l).state ∧ (t.link l).seen = (s.link l).seen ∧
      t.reg (Reg.linkMsgRefused l) = satAdd 64 (s.reg (Reg.linkMsgRefused l)) 1) ∧
  (∀ (s : State) (l : LinkIx), s.wf = true → s.awake → ((s.link l).state = .lock ∨ (s.link l).state = .align ∨ (s.link l).state = .negotiate) →
    Answers (.linkTrainTimeout l) s fun t => (t.link l).state = .failed ∧ (t.link l).locked = 0 ∧
      (t.link l).excluded = (s.link l).kept ∧ t.od (Od.linkFailCode l) = if (s.link l).light then 4 else 1) ∧
  (∀ (s : State) (l : LinkIx), s.awake → (s.link l).state = .failed →
    Answers (.linkFailedExpiry l) s fun t => (t.link l).state = .down ∨ (t.link l).state = .lock ∧ (s.link l).light = true) ∧
  (∀ (s : State) (l : LinkIx), s.wf = true → s.awake → (s.link l).state = .retrain →
    Answers (.linkRetrainTimeout l) s fun t =>
      ((t.link l).state = .down ∨ (t.link l).state = .lock) ∧ (t.link l).replay = [] ∧ (t.link l).locked = 0 ∧
      (t.link l).excluded = (s.link l).kept ∧ t.od (Od.linkFailCode l) = 6) ∧
  (∀ (s : State) (l : LinkIx) (lane : Fin 8), s.awake → (s.link l).state = .linked → (s.link l).active.getLsbD lane = true →
    Answers (.laneFault l lane) s fun t => (t.link l).state = .retrain ∧ (t.link l).replay = (s.link l).replay ∧
      (t.link l).excluded = (s.link l).excluded ||| BitVec.ofNat 8 (2 ^ lane.val) ∧ (t.link l).locked.getLsbD lane = false) ∧
  (∀ (s : State) (l : LinkIx) (v : W32), s.awake → s.dev.state.ready = true → v.getLsbD 0 = true → (s.link l).state = .linked →
    Answers (.linkCtrlRetrain l v) s fun t => (t.link l).state = .retrain ∧ (t.link l).excluded = 0 ∧ (t.link l).kept = 0 ∧ (t.link l).replay = (s.link l).replay)

/-- A LINKED link accepts the flit whose CRC is good and whose SEQ is the expected one, and discards every other; it sends one whole flit at a time; an
acknowledgement that does not come starts a resend, the eighth in a row without progress is the last before the link retrains, and a NAK with nothing to
resend starts none (R415, R417, R418). -/
def Obligations.FlitsAndReplay : Prop :=
  (∀ (s : State) (l : LinkIx) (f : List Byte), s.awake → (s.link l).state = .linked → f.length = 256 →
    (crc32 (f.take 252)).toNat = fieldAt f 252 4 → fieldAt f 0 2 = (s.link l).rxSeq → (bitAt (byteAt f 6) 0 = false ∨ (s.link l).replay = []) →
    Answers (.flitReceive l f) s fun t =>
      (t.link l).discarded = false ∧ (t.link l).state = .linked ∧ (t.link l).resends ≤ (s.link l).resends ∧
      (t.link l).rxSeq = if bitAt (byteAt f 6) 1 then (s.link l).rxSeq else ((s.link l).rxSeq + 1) % 65536) ∧
  (∀ (s : State) (l : LinkIx) (f : List Byte), s.awake → (s.link l).state = .linked → f.length = 256 →
    ((crc32 (f.take 252)).toNat ≠ fieldAt f 252 4 ∨ fieldAt f 0 2 ≠ (s.link l).rxSeq) →
    Answers (.flitReceive l f) s fun t =>
      t.link l = { s.link l with nakOwed := (s.link l).nakOwed || !(s.link l).discarded, discarded := true }) ∧
  (∀ (s : State) (l : LinkIx), s.awake → (s.link l).state = .linked →
    Answers (.flitTransmit l) s fun t => ∃ f, t.out = s.out ++ [.flit l f] ∧ f.length = 256 ∧ (t.link l).state = .linked ∧ (t.link l).nakOwed = false ∧
      ((s.link l).replay.length ≤ (s.link l).resent → (s.link l).queue = [] → (t.link l).txSeq = (s.link l).txSeq ∧ (t.link l).replay = (s.link l).replay)) ∧
  (∀ (s : State) (l : LinkIx), s.awake → (s.link l).state = .linked → (s.link l).replay ≠ [] →
    Answers (.replayTimeout l) s (fun t => (t.link l).replay = (s.link l).replay ∧
      (if 8 ≤ (s.link l).resends then (t.link l).state = .retrain else (t.link l).state = .linked ∧ (t.link l).resent = 0 ∧ (t.link l).resends = (s.link l).resends + 1)) ∧
    Answers (.replayProgressTimeout l) s (fun t => (t.link l).state = .retrain ∧ (t.link l).replay = (s.link l).replay))

/-- The slot of a halo message: its channel. -/
def haloChannel (m : List Byte) : Fin 4 := ⟨byteAt m 3 % 4, Nat.mod_lt _ (by decide)⟩

/-- A message takes effect once, and leaves the inbox. HALO and CTXEDGE data are written, with their tag, into the slot of their group where the channel takes
them in time, HALO data requantised and CTXEDGE data as they are. A message moves the channel's order past groups that are written; the line trigger
after a group's deadline moves it past that group too, up to the first that is neither; RX_SYNC takes the newest written group that is reached
(R166, R426, R427). -/
def Obligations.HaloMessagesArrive : Prop :=
  (∀ (s : State) (l : LinkIx) (cls : Nat) (m : List Byte) (tracked : Bool), s.awake →
    ((s.link l).inbox.find? fun x => isType (if tracked then 1 else 5) x.2) = some (cls, m) →
    Answers (if tracked then .haloMsgRx l else .ctxedgeMsgRx l) s fun t =>
      (t.link l).inbox = (s.link l).inbox.erase (cls, m) ∧
      let ch := haloChannel m
      let g := s.extGroup (fieldAt m 8 6)
      let n := fieldAt m 18 2
      (s.dev.state.live = true → hchEnabled s l ch = true → hchTracked s l ch = tracked → s.groupDone g (hchDeadline s l ch) = false →
        bitAt (byteAt m 14) 0 = false → (tracked = true → byteAt m 16 = hchTensor s l ch ∧ n = s.trkGroups (hchTensor s l ch)) →
        (g ∈ (t.link l).chans[ch].written ∨ g < (t.link l).chans[ch].next) ∧
        (∀ x, (s.link l).chans[ch].next ≤ x → x < (t.link l).chans[ch].next → x = g ∨ x ∈ (s.link l).chans[ch].written) ∧
        (t.link l).chans[ch].passed = (s.link l).chans[ch].passed ∧
        (bitAt (s.reg Reg.streamPubBase) 0 = false →
          let a := hchSlot s l ch (s.reg (Reg.hchRxBase l ch)) g
          let data := if tracked then
              ((s.needSlot (hchTensor s l ch) g).requantise (hchTensor s l ch) g ((m.drop 24).take (4 * n)) (m.drop (24 + 4 * n))).1
            else m.drop 16
          t.oasis = s.oasisPut (s.oasisPut s.oasis (a + 64) data) a (leBytes 6 (s.groupLsn g))))) ∧
  (∀ (s : State) (l : LinkIx) (ch : Fin 4) (g : Int), s.awake → s.dev.state.live = true → hchEnabled s l ch = true →
    s.pastDone g (hchDeadline s l ch) = true →
    Answers (.haloChannelDeadline l ch g) s fun t =>
      let h := (s.link l).chans[ch]
      let h' := (t.link l).chans[ch]
      h.next ≤ h'.next ∧ (∀ x, h.next ≤ x → x < h'.next → x ∈ h.written ∨ s.pastDone x (hchDeadline s l ch) = true) ∧
      h'.next ∉ h.written ∧ s.pastDone h'.next (hchDeadline s l ch) = false ∧
      h'.written = (h.written.filter fun x => !(decide (h.next ≤ x) && decide (x < h'.next))) ∧
      ∀ x ∈ h.written, h.next ≤ x → x < h'.next → (∀ y ∈ h.written, y < h'.next → y ≤ x) →
        t.cmd.syncs = s.cmd.syncs.set s.cmd.syncInit (bits (s.reg (Reg.hchSync l ch)) 29 16) (lgn32 x % 2 ^ 32))

/-- Tokens become present in their group's slot and go on to the other link, those of a frozen slot are late and go nowhere, and where no table is in use
they only go on (155, the model's choice); border sets are kept for their group, complete its
list or are late; a neighbour's barrier is compared with
the device's own LSN in every state, and a neighbour that sends none for three whole groups is reported (R290, R291, R306, R429, R432). -/
def Obligations.GroupMessagesArrive : Prop :=
  (∀ (s : State) (l : LinkIx) (cls : Nat) (m : List Byte), s.awake → ((s.link l).inbox.find? fun x => isType 2 x.2) = some (cls, m) →
    s.dev.state.live = true → s.od Od.tokTokPerStripe ≠ 0 → s.tokClosed (s.extGroup (fieldAt m 8 6)) = false →
    Answers (.tokensMsgRx l) s fun t =>
      (t.link l).inbox = (s.link l).inbox.erase (cls, m) ∧
      (∀ i, i < (m.drop 24).length / max 1 (s.od Od.tokTokBytes) → fieldAt m 16 2 + i < s.od Od.tokTokTotal →
        ∃ x, t.tokSlot (s.extGroup (fieldAt m 8 6)) = some x ∧ fieldAt m 16 2 + i ∈ x.present) ∧
      (t.link (otherLink l)).queue = (s.link (otherLink l)).queue ++
        (if (s.link (otherLink l)).state = .linked then [{ cls := 2, lgn := fieldAt m 8 6, own := false, bytes := m, gone := 0 }] else [])) ∧
  (∀ (s : State) (l : LinkIx) (cls : Nat) (m : List Byte), s.wf = true → s.awake → ((s.link l).inbox.find? fun x => isType 2 x.2) = some (cls, m) →
    (s.tokClosed (s.extGroup (fieldAt m 8 6)) = true →
      Answers (.tokensMsgRx l) s fun t => (t.link l).inbox = (s.link l).inbox.erase (cls, m) ∧ t.link (otherLink l) = s.link (otherLink l) ∧
        t.dram = s.dram ∧ t.reg Reg.ctxTokLate = satAdd 32 (s.reg Reg.ctxTokLate) ((m.drop 24).length / max 1 (s.od Od.tokTokBytes))) ∧
    (s.tokClosed (s.extGroup (fieldAt m 8 6)) = false → (s.dev.state.live = false ∨ s.od Od.tokTokPerStripe = 0) →
      Answers (.tokensMsgRx l) s fun t => (t.link l).inbox = (s.link l).inbox.erase (cls, m) ∧ t.dram = s.dram ∧ t.ctx = s.ctx ∧
        (t.link (otherLink l)).queue = (s.link (otherLink l)).queue ++
          (if (s.link (otherLink l)).state = .linked then [{ cls := 2, lgn := fieldAt m 8 6, own := false, bytes := m, gone := 0 }] else []))) ∧
  (∀ (s : State) (l : LinkIx) (cls : Nat) (m : List Byte), s.awake → ((s.link l).inbox.find? fun x => isType 3 x.2) = some (cls, m) →
    s.wf = true → s.dev.state.live = true →
    let g := s.extGroup (fieldAt m 8 6)
    let late := s.groupDone g 2 = true ∨ ∃ x, s.det.last = some x ∧ (g < x ∨ (g = x ∧ s.shortGroup g = false))
    (¬ late → (s.det.slots.find? fun d => d.g == g && d.kept.isSome) = none →
      Answers (.boxesMsgRx l) s fun t => (t.link l).inbox = (s.link l).inbox.erase (cls, m) ∧ t.det.slots = s.det.slots ∧
        t.det.sets = { side := l.val, g := g, boxes := (List.range (fieldAt m 16 2)).map fun i => readBox ((m.drop (24 + 32 * i)).take 32) } ::
          s.det.sets.filter fun x => !(x.side == l.val && x.g == g)) ∧
    (∀ d, ¬ late → (s.det.slots.find? fun d => d.g == g && d.kept.isSome) = some d →
      (∀ k ∈ s.neighbours, k = l ∨ (s.det.sets.any fun x => x.side == k.val && x.g == g) = true) →
      Answers (.boxesMsgRx l) s fun t => (t.link l).inbox = (s.link l).inbox.erase (cls, m) ∧
        t.det.slots = (s.det.slots.filter fun x => !x.is g d.part2) ∧ t.det.last = some g) ∧
    (late → Answers (.boxesMsgRx l) s fun t => (t.link l).inbox = (s.link l).inbox.erase (cls, m) ∧ t.det.sets = s.det.sets ∧ t.det.slots = s.det.slots ∧
      t.reg Reg.detLateBoxes = satAdd 32 (s.reg Reg.detLateBoxes) 1)) ∧
  (∀ (s : State) (l : LinkIx) (cls : Nat) (m : List Byte), s.wf = true → s.awake → ((s.link l).inbox.find? fun x => isType 4 x.2) = some (cls, m) →
    Answers (.barrierMsgRx l) s fun t =>
      (t.link l).inbox = (s.link l).inbox.erase (cls, m) ∧ (t.link l).barrierAt = max (s.nowGroup - 1) (min s.nowGroup (s.extGroup (fieldAt m 8 6))) ∧
      let d := toSigned 48 ((fieldAt m 16 6 + 2 ^ 48 - s.web.lastLsn) % 2 ^ 48)
      if d < -1 ∨ 1 < d then
        t.od Od.chainLsnMismatch = satAdd (odWidth Od.chainLsnMismatch) (s.od Od.chainLsnMismatch) 1 ∧
        (s.od Od.chainBarrierAction = 1 → s.dev.state.ready = true → s.dev.safeCause = none → t.dev.safeCause = some 2)
      else t.dev = s.dev ∧ t.dict = s.dict) ∧
  (∀ (s : State) (l : LinkIx), s.awake → (s.dev.state = .armed ∨ s.dev.state = .run) → (s.link l).state = .linked →
    (s.link l).barrierAt + 4 ≤ s.nowGroup →
    Answers (.neighbourSilent l) s fun t => t.link l = { s.link l with barrierAt := s.nowGroup - 1 } ∧ ∃ e ∈ t.events, e.source = 5 ∧ e.type = 1 ∧ e.dt = s.dt)

/-- A LINKED link queues its CHAIN message and its PING; a PING is answered with a PONG of the same DT, which waits over a RETRAIN; the last two CHAIN
bodies are kept, and a PONG gives the round trip. A message that has taken effect leaves the receive buffer, and its flits' credits are released
(R413, R419, R422, R430). -/
def Obligations.ManagementMessages : Prop :=
  (∀ (s : State) (l : LinkIx), s.awake → (s.link l).state = .linked →
    Answers (.chainMsgSend l) s (fun t => ∃ m, (t.link l).queue = (s.link l).queue ++ [m] ∧ m.bytes.drop 16 = s.chainBody l) ∧
    Answers (.pingSend l) s (fun t => ∃ m, (t.link l).queue = (s.link l).queue ++ [m] ∧ m.bytes.drop 16 = leBytes 8 s.dt)) ∧
  (∀ (s : State) (l : LinkIx) (cls : Nat) (m : List Byte), s.awake → ((s.link l).state = .linked ∨ (s.link l).state = .retrain) →
    ((s.link l).inbox.find? fun x => isMgmt 2 x.2) = some (cls, m) →
    Answers (.pingRx l) s fun t => (t.link l).inbox = (s.link l).inbox.erase (cls, m) ∧
      (∃ a, (t.link l).queue = (s.link l).queue ++ [a] ∧ a.bytes.drop 16 = (m.drop 16).take 8) ∧
      (cls < 4 → (t.link l).released.toList[cls]? = (s.link l).released.toList[cls]?.map fun n =>
        (n + min (ceilDiv m.length 244) ((s.link l).buffered.toList[cls]?.getD 0)) % 256)) ∧
  (∀ (s : State) (l : LinkIx) (cls : Nat) (m : List Byte), s.awake → ((s.link l).inbox.find? fun x => isMgmt 1 x.2) = some (cls, m) →
    Answers (.chainMsgRx l) s fun t =>
      (t.link l).inbox = (s.link l).inbox.erase (cls, m) ∧ (t.link l).chain = m.drop 16 :: (s.link l).chain.take 1) ∧
  (∀ (s : State) (l : LinkIx) (cls : Nat) (m : List Byte), s.wf = true → s.awake → ((s.link l).inbox.find? fun x => isMgmt 3 x.2) = some (cls, m) →
    Answers (.pongRx l) s fun t => (t.link l).inbox = (s.link l).inbox.erase (cls, m) ∧
      t.od (Od.linkRtt l) = (s.dt + 2 ^ 64 - fieldAt m 16 8) % 2 ^ 64 % 2 ^ 32)

/-! ### Memory, streams and copies -/

/-- The refresh rate follows the stack's heat at the next refresh; a scrub read moves its channel on by one block, counts what it finds,
writes back what it can correct and leaves the rest marked, skips a block whose bank is under repair, and waits while a trim item holds its channel; in PREOP a
quadrant that is not kept powered loses every byte, and the others keep theirs (R335, R337, R338, R342, R519). -/
def Obligations.DramAndOasisUpkeep : Prop :=
  (∀ (s : State) (ch : Fin 128) (b : Nat), s.wf = true → s.awake →
    Answers (.dramRefresh ch b) s fun t => bitAt (t.reg Reg.dramcStatus) 1 = s.pwr.therm.hotStack ∧ t.dram = s.dram ∧
      (bitAt (s.reg Reg.dramcStatus) 1 = s.pwr.therm.hotStack → t = s)) ∧
  (∀ (s : State) (ch : Fin 128) (found : DramRead), s.awake → bitAt (s.reg Reg.dramcScrubCtrl) 0 = true → s.od Od.dramDramState = 2 →
    (s.trim.running.any fun x => x.kind == 5 && x.unit == ch.val) = false →
    Answers (.dramScrubRead ch found) s fun t =>
      Map.get t.trim.scrub 0 ch = Map.get s.trim.scrub 0 ch + 1 ∧ t.dram = s.dram ∧
      let block := channelBlock ch (Map.get s.trim.scrub 0 ch % channelBlocks)
      if s.bankBusy block = true then t.dramPoison = s.dramPoison ∧ t.dramSingle = s.dramSingle else
      (found = .uncorrectable → t.dramPoisoned block 256 = true ∧
        (s.wf = true → t.reg (Reg.dramcChUncorr ch) = satAdd 32 (s.reg (Reg.dramcChUncorr ch)) 1)) ∧
      ((∃ l, found = .corrected l) → s.dramPoisoned block 256 = false → (∀ e ∈ t.dramSingle, e.1 / 256 ≠ block / 256) ∧
        (s.wf = true → t.reg (Reg.dramcChCorrected ch) = satAdd 32 (s.reg (Reg.dramcChCorrected ch)) 1))) ∧
  (∀ (s : State) (ch : Fin 128) (found : DramRead), s.awake → (s.trim.running.any fun x => x.kind == 5 && x.unit == ch.val) = true →
    Answers (.dramScrubRead ch found) s fun t => t = s) ∧
  (∀ (s : State) (v : W32), s.awake → s.dev.state = .preop →
    Answers (.oasisQpowerWrite v) s fun t => t.pwr.quadrants = v.truncate 4 ∧ ∀ a, t.oasis.byte? a =
      if (v.truncate 4 : BitVec 4).getLsbD (oasisQuadrant a) = true ∧ s.oasisOn a = true then s.oasis.byte? a else none)

/-- A stream's slot is filled, full, spilled and free again in the order of R347 and R348. A fill writes its slot and nothing else of Oasis; a spill writes the
slot's bytes to the block list, and no other byte of DRAM, and what one writes whose job has ended is undefined; both wait while a trim item holds a bank or
a channel that they need (R346 to R348, R355, R396, R519). -/
def Obligations.StreamSlots : Prop :=
  (∀ (s : State) (i : Nat) (g : Int) (x : Stream), s.awake → s.cmd.streams[i]? = some x → s.dev.state.ready = true → s.dev.state ≠ .safe →
    s.fillReady x g = true →
    Answers (.fetchFillStart i g) s fun t => (∃ y, t.cmd.streams[i]? = some y ∧ y.slot (x.slotNo g) = some (g, .filling)) ∧
      ∀ a, t.oasis.byte? a = if x.slotAddr g ≤ a ∧ a < x.slotAddr g + x.slotBytes then none else s.oasis.byte? a) ∧
  (∀ (s : State) (i : Nat) (g : Int) (x : Stream), s.awake → s.cmd.streams[i]? = some x → x.slot (x.slotNo g) = some (g, .filling) →
    s.spaceHeld x.extents (x.source g 0) x.slotBytes = false →
    Answers (.fetchFillDone i g) s fun t =>
      (∃ y, t.cmd.streams[i]? = some y ∧ y.slot (x.slotNo g) = some (g, .full)) ∧
      t.oasis = (s.writeOasis (x.slotAddr g) ((List.range x.slotBytes).map fun n => (s.spaceByte x.extents (x.source g 0 + n)).1)).oasis ∧
      ∀ a, (a < x.slotAddr g ∨ x.slotAddr g + x.slotBytes ≤ a) → t.oasis.byte? a = s.oasis.byte? a) ∧
  (∀ (s : State) (i : Nat) (g : Int) (x : Stream) (j : Job), s.awake → s.cmd.streams[i]? = some x → s.jobOf x.tag = some j → x.kind = 1 →
    x.slot (x.slotNo g) = some (g, .written) → (∀ n : Nat, n < 17 → s.groupOver j (g - (n : Int)) = true) → (∀ t ∈ x.slots, g ≤ t.2.1) →
    Answers (.spillStart i g) s fun t => ∃ y, t.cmd.streams[i]? = some y ∧
      y.slot (x.slotNo g) = if s.groupFinished j g then some (g, .spilling) else none) ∧
  (∀ (s : State) (i : Nat) (g : Int) (x : Stream), s.awake → s.cmd.streams[i]? = some x → x.slot (x.slotNo g) = some (g, .spilling) →
    s.spaceHeld x.extents (x.source g 0) x.slotBytes = false →
    Answers (.spillDone i g) s fun t =>
      (∀ a, (∀ n, n < x.slotBytes → ∀ sp, extentAt x.extents (x.source g 0 + n) ≠ some (sp, a)) → t.dram.byte? a = s.dram.byte? a) ∧
      (x.ended = false → ∃ y, t.cmd.streams[i]? = some y ∧ y.slot (x.slotNo g) = none) ∧
      (x.ended = true → ∀ y ∈ t.cmd.streams, y.ended = true → y.slots ≠ []) ∧
      (x.ended = false → x.flag 3 = true → t.cmd.syncs = s.cmd.syncs.set s.cmd.syncInit (x.field 42 2) ((lgn32 g + x.field 48 4) % 2 ^ 32)) ∧
      (x.ended = true → t.dram = s.dram.undefine (x.spillRanges g) ∧ t.cmd.syncs = s.cmd.syncs) ∧
      (x.ended = false → t.dram = (s.spacePut x.extents (x.source g 0) (s.oasisMarked (x.slotAddr g) x.slotBytes)).dram ∧
        (x.flag 3 = false → t.cmd.syncs = s.cmd.syncs))) ∧
  (∀ (s : State) (i : Nat) (g : Int) (x : Stream), s.awake → s.cmd.streams[i]? = some x → s.spaceHeld x.extents (x.source g 0) x.slotBytes = true →
    Answers (.fetchFillDone i g) s (fun t => t = s) ∧ Answers (.spillDone i g) s (fun t => t = s))

/-- The next JOB that run-ahead of a queue reaches, within RUNAHEAD_JOBS. -/
def runaheadJob (s : State) (q : QueueIx) : Option Cmd := (s.runaheadNext [] (s.queueCmds q) (max 1 (bits (s.reg Reg.streamCtrl) 6 0))).1

/-- Run-ahead binds the streams of the next job that it reaches, leaves a job whose structures are not valid to its start, or stops at a command and counts
that once; a multicast round is read once and delivered to the cores that joined, the fullest first, and a core that holds delivery is cut out of the newest
round it receives (R350, R353, R354). -/
def Obligations.RunAheadAndMulticast : Prop :=
  (∀ (s : State) (q : QueueIx) (c : Cmd) (args : List Arg) (streams : List Stream), s.awake → s.dev.state.live = true → runaheadJob s q = some c →
    (bitAt (c.field 16 8) 63 = true → s.canDma = true) → s.bindArgs c.tag (c.field 16 8) = some (args, streams) →
    Answers (.streamRunahead q) s fun t => t.cmd.streams = s.cmd.streams ++ streams ∧
      ∀ x ∈ t.cmd.cmds, x.queue = c.queue → x.index = c.index → x.job = some (c.newJob args)) ∧
  (∀ (s : State) (q : QueueIx) (c : Cmd), s.awake → s.dev.state.live = true → runaheadJob s q = some c →
    (bitAt (c.field 16 8) 63 = true → s.canDma = true) → s.bindArgs c.tag (c.field 16 8) = none →
    Answers (.streamRunahead q) s fun t => t.cmd.streams = s.cmd.streams ∧ ∀ x ∈ t.cmd.cmds, x.queue = c.queue → x.index = c.index → x.argsBad = some 7) ∧
  (∀ (s : State) (q : QueueIx), s.wf = true → s.awake → s.dev.state.live = true → runaheadJob s q = none →
    Answers (.streamRunahead q) s fun t =>
      let new := (s.runaheadStop [] (s.queueCmds q) (max 1 (bits (s.reg Reg.streamCtrl) 6 0))).map fun x => (q.val, x.index)
      (t.cmd.stops.find? fun x => x.1 == q.val) = new ∧ t.cmd.streams = s.cmd.streams ∧
      t.reg Reg.streamRunaheadStops = if new.isSome = true ∧ (s.cmd.stops.find? fun x => x.1 == q.val) ≠ new then
        satAdd 64 (s.reg Reg.streamRunaheadStops) 1 else s.reg Reg.streamRunaheadStops) ∧
  (∀ (s : State) (i : Nat) (x : Stream) (r : Round), s.wf = true → s.awake → s.cmd.streams[i]? = some x → x.nextRound = some r →
    (∀ c ∈ (r.joined.map Prod.snd).headD [], s.spaceHeld x.extents (x.source r.g c.2.1) c.2.2 = false) →
    Answers (.mcastDeliveryStart i) s fun t =>
      ((∃ q ∈ x.rounds, q.started = false ∧ byteAt x.desc 3 ≤ q.joined.length) → byteAt x.desc 3 ≤ r.joined.length) ∧
      (∃ y, t.cmd.streams[i]? = some y ∧ ∀ q ∈ y.rounds, q.g = r.g → q.lo = r.lo → q.hi = r.hi → q.started = true) ∧
      t.reg Reg.streamMcastRounds = satAdd 64 (s.reg Reg.streamMcastRounds) 1 ∧
      ((∀ j ∈ r.joined, j.1 < 32 ∧ ∀ c ∈ j.2, ∀ n, n < c.2.2 → (s.spaceByte x.extents (x.source r.g (c.2.1 + n))).2 = false) →
        (r.joined.map Prod.fst).Nodup → ∀ k : CoreIx, ∀ copies tl, (k.val, copies) ∈ r.joined → (s.core k).tile = some tl →
          (t.core k).tm = copies.foldl (fun m c => putLoaded m (haloRanges (((s.core k).prog.map Prod.snd).getD []) tl) c.1
            ((List.range c.2.2).map fun n => (s.spaceByte x.extents (x.source r.g (c.2.1 + n))).1)) (s.core k).tm)) ∧
  (∀ (s : State) (i : Nat) (k : CoreIx) (x : Stream) (r : Round), s.wf = true → s.awake → s.cmd.streams[i]? = some x →
    (x.rounds.reverse.find? fun r => r.started && r.joined.any fun j => j.1 == k.val) = some r →
    Answers (.mcastCutout i k) s fun t =>
      (∃ y, t.cmd.streams[i]? = some y ∧ ∀ q ∈ y.rounds, q.g = r.g → q.lo = r.lo → q.hi = r.hi → ∀ j ∈ q.joined, j.1 ≠ k.val) ∧
      t.reg Reg.streamUnicastRefetch = satAdd 64 (s.reg Reg.streamUnicastRefetch) 1 ∧
      t.reg Reg.streamMcastCutout = satAdd 64 (s.reg Reg.streamMcastCutout) 1)

/-- What Oasis holds when a line has gone to its ring slot: its pixels, and its tag (R114, R358). -/
def ringTakes (s : State) (c : PortIx) (m : Int) (line : List Byte) : Mem :=
  let pitch := s.fsReg c Reg.fsRingPitch
  let k := slotOf m (s.fsReg c Reg.fsRingSlots)
  ((s.writeOasis (s.fsReg c Reg.fsRingBase + k * pitch) (line.take pitch)).writeOasis (s.fsReg c Reg.fsTagBase + 16 * k) ((line.drop pitch).take 16)).oasis

/-- The oldest landed line goes to its ring slot, or behind the lines of the extension, or waits where that is full; the oldest line of the extension goes to
its ring slot. Only the slot that takes it is written; a bank or channel that a trim item holds is waited for (R358, R519). -/
def Obligations.RingExtensions : Prop :=
  (∀ (s : State) (c : PortIx) (m : Int) (rest : List Int), s.awake → s.extOn c = true → s.dev.state.live = true → (s.fsPort c).landed = m :: rest →
    (s.fsPort c).ext = [] → 0 < s.ringFree c →
    Answers (.landingCopy c) s fun t => (t.fsPort c).landed = rest ∧ (t.fsPort c).ext = [] ∧ t.dram = s.dram ∧
      t.oasis = ringTakes s c m (s.readOasis (s.slotAddr c m).1 (s.extLine c))) ∧
  (∀ (s : State) (c : PortIx) (m : Int) (rest : List Int), s.awake → s.extOn c = true → s.dev.state.live = true → (s.fsPort c).landed = m :: rest →
    ((s.fsPort c).ext ≠ [] ∨ s.ringFree c = 0) →
    Answers (.landingCopy c) s fun t =>
      if s.extFull c = true then (t.fsPort c).landed = m :: rest ∧ (t.fsPort c).ext = (s.fsPort c).ext ∧ (t.fsPort c).extWaits = true ∧ t.dram = s.dram ∧
        t.oasis = s.oasis
      else if s.dramHeld (s.extAddr c m) (s.extLine c) = true then t = s
      else
        let line := s.readOasis (s.slotAddr c m).1 (s.extLine c)
        (t.fsPort c).landed = rest ∧ (t.fsPort c).ext = (s.fsPort c).ext ++ [m] ∧ t.oasis = s.oasis ∧ t.dram = s.dram.write (s.extAddr c m) line ∧
        ∀ a, (a < s.extAddr c m ∨ s.extAddr c m + s.extLine c ≤ a) → t.dram.byte? a = s.dram.byte? a) ∧
  (∀ (s : State) (c : PortIx) (m : Int) (rest : List Int), s.awake → s.dev.state.live = true → (s.fsPort c).ext = m :: rest → s.ringFree c ≠ 0 →
    s.dramHeld (s.extAddr c m) (s.extLine c) = false →
    Answers (.extensionRefill c) s fun t => (t.fsPort c).ext = rest ∧ (t.fsPort c).extWaits = false ∧ t.dram = s.dram ∧
      t.oasis = ringTakes s c m (s.readDram (s.extAddr c m) (s.extLine c)))

/-- What memory holds when a copy has moved its bytes. -/
def copied (s : State) (c : CopyOp) : State := s.spacePut c.dst 0 (s.spaceMarked c.src 0 (extentsBytes c.src))

/-- A register copy is checked when it is given and begins; it and the copy of a command move their bytes, give their signal and end; a copy whose descriptor
is refused, or in SAFE, moves nothing (R362, R364). -/
def Obligations.CopiesMoveAndEnd : Prop :=
  (∀ (s : State) (v : W32) (d : List Byte) (src dst : Extents), s.wf = true → s.awake → v.getLsbD 0 = true → s.dev.state.ready = true →
    s.dev.state ≠ .safe → s.od Od.dramDramState = 2 → s.cmd.regCopy = none →
    s.bindDesc (s.reg Reg.streamCopyDescLo + 2 ^ 32 * s.reg Reg.streamCopyDescHi) = .ok d src dst → sdKind d = 3 →
    Answers (.streamCopyGo v) s fun t => t.cmd.regCopy = some { desc := d, src := src, dst := dst } ∧ t.reg Reg.streamCopyStatus = 1 ∧
      t.dram = s.dram ∧ t.oasis = s.oasis ∧ t.hostMem = s.hostMem) ∧
  (∀ (s : State) (v : W32), s.wf = true → s.awake → v.getLsbD 0 = true → s.dev.state.ready = true → s.cmd.regCopy = none →
    (s.dev.state = .safe → Answers (.streamCopyGo v) s fun t => t.reg Reg.streamCopyStatus = 12 ∧ t.cmd = s.cmd ∧ t.dram = s.dram) ∧
    (s.dev.state ≠ .safe → s.od Od.dramDramState ≠ 2 →
      Answers (.streamCopyGo v) s fun t => t.reg Reg.streamCopyStatus = 10 ∧ t.cmd = s.cmd ∧ t.dram = s.dram) ∧
    (∀ r, s.dev.state ≠ .safe → s.od Od.dramDramState = 2 → s.bindDesc (s.reg Reg.streamCopyDescLo + 2 ^ 32 * s.reg Reg.streamCopyDescHi) = .bad r →
      Answers (.streamCopyGo v) s fun t => t.reg Reg.streamCopyStatus = 2 * r ∧ t.cmd.regCopy = none ∧ t.dram = s.dram)) ∧
  (∀ (s : State) (c : CopyOp), s.wf = true → s.awake → s.cmd.regCopy = some c → s.copyFree c = true →
    Answers (.copyDone .register) s fun t => t.cmd.regCopy = none ∧ t.reg Reg.streamCopyStatus = 0 ∧ t.hostMem = (copied s c).hostMem ∧
      t.dram = (copied s c).dram ∧
      t.cmd.syncs = (if sdFlag c.desc 3 then s.cmd.syncs.set s.cmd.syncInit (sdField c.desc 42 2) (sdField c.desc 48 4 % 2 ^ 32) else s.cmd.syncs) ∧
      (sdFlag c.desc 3 = false → t.oasis = (copied s c).oasis)) ∧
  (∀ (s : State) (tag : BitVec 12) (c : Cmd) (op : CopyOp), s.awake → s.cmdOf tag.toNat = some c → c.copy = some op → c.stage = .running →
    s.copyFree op = true →
    Answers (.copyDone (.command tag)) s fun t => (∃ x ∈ t.cmd.cmds, x.queue = c.queue ∧ x.index = c.index ∧ x.stage = .done 0 0) ∧
      t.hostMem = (copied s op).hostMem ∧ t.dram = (copied s op).dram ∧ (sdFlag op.desc 3 = false → t.oasis = (copied s op).oasis))

/-! ### Commands, rings and records -/

/-- Where a device-written ring's next entry goes. -/
def entryAt (s : State) (r : DevRing) : Nat :=
  (s.ringRegs r).base + s.reg (s.ringRegs r).pi % max 1 (s.ringRegs r).slots * (s.ringRegs r).slotSize

/-- A record has been written as its ring's next entry, then the mirror where there is one, and no other byte of the host's memory has changed. -/
def entryWritten (s t : State) (r : DevRing) (entry : List Byte) : Prop :=
  t.hostMem = ((s.writeHost (entryAt s r) entry).writeMirror (s.ringRegs r).mirror ((s.reg (s.ringRegs r).pi + 1) % 2 ^ 32)).hostMem ∧
  ∀ a, (a < entryAt s r ∨ entryAt s r + entry.length ≤ a) → ((s.ringRegs r).mirror = 0 ∨ a < (s.ringRegs r).mirror ∨ (s.ringRegs r).mirror + 4 ≤ a) →
    t.hostMem.byte? a = s.hostMem.byte? a

/-- The producer index of a ring has moved on by one. -/
def producedOne (s t : State) (r : DevRing) : Prop := t.reg (s.ringRegs r).pi = (s.reg (s.ringRegs r).pi + 1) % 2 ^ 32

/-- The frame of a result record of group g written now, as far as it tells when and what: DT, KIND, the group, LATE_BY and COUNT (R400). -/
def frameOf (frame : List Byte) (dt kind : Nat) (g : Int) (late count : Nat) : Prop :=
  frame.length = 64 ∧ frame.take 8 = leBytes 8 dt ∧ (frame.drop 14).take 1 = leBytes 1 kind ∧ (frame.drop 16).take 6 = leBytes 6 (mod48 g) ∧
  (frame.drop 24).take 1 = leBytes 1 late ∧ (frame.drop 26).take 2 = leBytes 2 count

/-- Records go to their rings one at a time: each moves its ring's producer index on by one and writes its entry, the mirror, and nothing else of host
memory. A result record holds its frame and its body; a missed record keeps the DT at which its group was declared missed; a record that cannot be
written goes to the spool, or waits for its pages (R360, R361, R368, R369, R377, R399 to R402). -/
def Obligations.RecordsReachTheirRings : Prop :=
  (∀ (s : State) (e : EventRec) (rest : List EventRec), s.wf = true → s.awake → s.events = e :: rest → s.ringSpace .event = true → s.cmd.eventsLost = 0 →
    Answers .eventRecordWrite s fun t => t.events = rest ∧ producedOne s t .event ∧ entryWritten s t .event (eventBytes e)) ∧
  (∀ (s : State) (e : EventRec) (rest : List EventRec), s.awake → s.events = e :: rest → s.ringSpace .event = false →
    Answers .eventRecordWrite s fun t => t.events = rest ∧ t.cmd.eventsLost = satAdd 32 s.cmd.eventsLost 1 ∧ t.hostMem = s.hostMem) ∧
  (∀ (s : State) (e : EventRec) (rest : List EventRec), s.awake → s.events = e :: rest → s.ringSpace .event = true → s.cmd.eventsLost ≠ 0 →
    Answers .eventRecordWrite s fun t => t.cmd.eventsLost = 0 ∧ (t.events = rest ∨ t.events = e :: rest)) ∧
  (∀ (s : State) (q : QueueIx) (c : Cmd) (st d : Nat), s.wf = true → s.awake →
    ((s.queueCmds q).findSome? fun c => match c.stage with
      | .done st d => some (c, st, d)
      | _ => none) = some (c, st, d) → s.ringSpace (.completion q) = true →
    Answers (.completionRecordWrite q) s fun t => producedOne s t (.completion q) ∧ entryWritten s t (.completion q) (s.completionBytes c st d) ∧
      t.cmd.cmds = (s.cmd.cmds.filter fun x => !(x.queue == c.queue && x.index == c.index)) ∧
      t.cmd.syncs = if st = 0 ∧ c.flag 2 = true then s.cmd.syncs.set s.cmd.syncInit (c.field 46 2 % 2 ^ 14)
          ((if bitAt (c.field 46 2) 14 then c.field 52 4 else s.sync (c.field 46 2 % 2 ^ 14) + c.field 52 4) % 2 ^ 32)
        else s.cmd.syncs) ∧
  (∀ (s : State) (r : ResIx) (m : Owed), s.wf = true → s.awake → s.ringSpace (.result r) = true → (s.cmd.owed.find? fun m => m.ring == r.val) = some m →
    Answers (.resultRecordWrite r) s fun t => producedOne s t (.result r) ∧ t.cmd.owed = s.cmd.owed.erase m ∧
      ∃ frame, frameOf frame m.run.dt (if m.run.count = 1 then 2 else 3) m.run.g 0 m.run.count ∧ entryWritten s t (.result r) frame) ∧
  (∀ (s : State) (r : ResIx) (tag : Nat) (j : Job) (o : OutStream) (m : MissedRun) (rest : List MissedRun), s.wf = true → s.awake →
    s.fixFirst.outOf r = some (tag, j, o) → (s.cmd.owed.find? fun m => m.ring == r.val) = none → s.ringSpace (.result r) = true → o.missed = m :: rest →
    Answers (.resultRecordWrite r) s fun t => producedOne s t (.result r) ∧
      ∃ frame, frameOf frame m.dt (if m.count = 1 then 2 else 3) m.g 0 m.count ∧ entryWritten s t (.result r) frame) ∧
  (∀ (s : State) (r : ResIx) (tag : Nat) (j : Job) (o : OutStream) (x : ReadyRec), s.wf = true → s.awake → s.fixFirst.outOf r = some (tag, j, o) →
    (s.cmd.owed.find? fun m => m.ring == r.val) = none → s.ringSpace (.result r) = true → o.missed = [] → o.next = some x → s.missedBy x.g = false →
    (x.pages ≠ [] → s.spaceHeld (s.spoolExtents x.pages) 64 (o.bodyBytes x) = false) →
    Answers (.resultRecordWrite r) s fun t => producedOne s t (.result r) ∧
      ∃ frame, frameOf frame s.dt (bit o.arg.isNone) x.g (s.lateBy x.g) 0 ∧
        entryWritten s t (.result r) (frame ++ (s.fixFirst.recordBody tag o x).map Prod.fst)) ∧
  (∀ (s : State) (r : ResIx) (tag : Nat) (j : Job) (o : OutStream) (x : ReadyRec), s.awake → s.fixFirst.outOf r = some (tag, j, o) →
    s.fixFirst.jobOf tag = some j →
    (o.ready.find? fun x => x.pages.isEmpty && !s.groupDone x.g 8) = some x → (o.next ≠ some x ∨ o.missed ≠ [] ∨ s.ringSpace (.result r) = false) →
    let body := s.fixFirst.recordBody tag o x
    let n := spoolPages (64 + body.length)
    let ps := pickPages s.spoolTotal s.freeCtr s.cmd.spoolUsed n
    (s.cmd.spoolUsed.length + n ≤ s.spoolTotal → s.spaceHeld (s.spoolExtents ps) 0 (64 + body.length) = false →
      Answers (.spoolCopy r) s fun t => t.cmd.spoolUsed = ps ++ s.cmd.spoolUsed ∧ ps.length = n ∧ (∀ p ∈ ps, p < s.spoolTotal ∧ p ∉ s.cmd.spoolUsed) ∧
        t.oasis = s.oasis ∧ (s.wf = true → t.reg Reg.streamSpoolBytes = satAdd 64 (s.reg Reg.streamSpoolBytes) body.length)) ∧
    (s.spoolTotal < s.cmd.spoolUsed.length + n →
      Answers (.spoolCopy r) s fun t => t.cmd.spoolUsed = s.cmd.spoolUsed ∧ t.dram = s.dram ∧ (s.spoolTotal ≠ 0 → t.spoolWaiting = true)))

/-- A command as it stands among those in flight. -/
def inFlight (t : State) (c : Cmd) (st : CmdStage) : Prop := ∃ x ∈ t.cmd.cmds, x.queue = c.queue ∧ x.index = c.index ∧ x.tag = c.tag ∧ x.stage = st

/-- The host's producer index is taken or stops the queue; the next record is read once, and refused with its status where it fails a check; a queue that an
error stopped goes on at RESTART (R370, R372, R374, R375, R398, R405). -/
def Obligations.QueuesAreRead : Prop :=
  (∀ (s : State) (q : QueueIx) (pi : W32), s.awake → s.cmdOpen = true → ringUsed pi.toNat (s.reg (Reg.cqCi q)) ≤ s.reg (Reg.cqSlots q) →
    Answers (.cqPiWrite q pi) s fun t => t = s.setReg (Reg.cqPi q) pi.toNat) ∧
  (∀ (s : State) (q : QueueIx) (pi : W32), s.wf = true → s.awake → s.cmdOpen = true → s.reg (Reg.cqSlots q) < ringUsed pi.toNat (s.reg (Reg.cqCi q)) →
    Answers (.cqPiWrite q pi) s fun t => t.reg (Reg.cqPi q) = s.reg (Reg.cqPi q) ∧
      if s.reg (Reg.cqStatus q) = 14 then t = s else t.reg (Reg.cqStatus q) = 6 ∧ bitAt (t.reg Reg.cmdIntStatus) 0 = true) ∧
  (∀ (s : State) (q : QueueIx), s.wf = true → s.awake → s.cmdOpen = true → s.canDma = true → s.reg (Reg.cqSlots q) ≠ 0 →
    bitAt (s.reg (Reg.cqStatus q)) 1 = false → s.reg (Reg.cqPi q) ≠ s.reg (Reg.cqCi q) → s.cmd.cmds.length < 4096 →
    let b := s.readHost (s.reg64 (Reg.cqBaseLo q) (Reg.cqBaseHi q) + s.reg (Reg.cqCi q) % s.reg (Reg.cqSlots q) * 64) 64
    let reads := fun (t : State) (st : CmdStage) => t.reg (Reg.cqCi q) = (s.reg (Reg.cqCi q) + 1) % 2 ^ 32 ∧ t.cmd.cmds.length = s.cmd.cmds.length + 1 ∧
      ∃ c ∈ t.cmd.cmds, c.queue = q.val ∧ c.index = s.reg (Reg.cqCi q) ∧ c.bytes = b ∧ c.tag = fieldAt b 4 2 % 4096 ∧ c.stage = st
    (recordStatus b = 0 → s.cmdOf (fieldAt b 4 2 % 4096) = none → Answers (.commandRead q) s fun t => reads t .read) ∧
    (recordStatus b = 0 → s.cmdOf (fieldAt b 4 2 % 4096) ≠ none → Answers (.commandRead q) s fun t => reads t (.done 4 0)) ∧
    (recordStatus b ≠ 0 → Answers (.commandRead q) s fun t => reads t (.done (recordStatus b) 0))) ∧
  (∀ (s : State) (q : QueueIx), s.wf = true → s.awake → s.cmdOpen = true → bitAt (s.reg (Reg.cqStatus q)) 1 = true →
    (bits (s.reg (Reg.cqStatus q)) 3 2 = 1 ∨ bits (s.reg (Reg.cqStatus q)) 3 2 = 2) →
    Answers (.cqRestart q) s fun t => t.reg (Reg.cqStatus q) = 0 ∧ t.cmd = s.cmd)

/-- The job of a command with its arguments bound: by run-ahead before, or now (R350). -/
def boundJob (s : State) (c : Cmd) : Option (State × Job) := match c.job, c.argsBad with
  | some j, _ => some (s, j)
  | none, some _ => none
  | none, none => (s.bindArgs c.tag (c.field 16 8)).map fun a => ((s.argsSeen (c.field 16 8)).bindJob c a.1 a.2, c.newJob a.1)

/-- Does a JOB pass the checks that come before its arguments: its well, the state, and the detection ring (R375)? -/
def jobPasses (s : State) (c : Cmd) : Prop :=
  s.wellBusy (byteAt c.bytes 6) = false ∧ s.dev.state.live = true ∧
  (byteAt c.bytes 7 = 0xFF ∨ s.ringBad (byteAt c.bytes 7) (32 + 32 * s.od Od.detKeepMax) = false)

/-- The output streams that a command's job binds (R378). -/
def boundOuts (s1 : State) (c : Cmd) (j : Job) : List OutStream := jobOuts j.detRing (s1.cmd.streams.filter fun x => x.tag == c.tag) 0

/-- At the completion of group lgn + 8 every group up to lgn is cancelled in every job that runs (R42, R382). -/
def lateGroupsAreCancelled : Prop :=
  ∀ (s : State) (g h : Int), s.awake → s.fixFirst.firstGroup = some h → h ≤ g → s.fixFirst.groupDone g 8 = true →
    Answers (.groupCancel g) s fun t => ∀ tag j, t.jobOf tag = some j → (∃ c, j.cancelledTo = some c ∧ g ≤ c) ∧
      ∀ w : WellTile, w.g ≤ g → j.tileCancelled w = true

/-- The command at the head of its queue starts where its checks pass, and is refused with the status of R375 where they do not, a job whose arguments could not
be read with the status that was found. A SIGNAL completes at once, a
WAIT when its condition holds; a job ends when nothing of it is outstanding (R373, R375, R387, R388, R394). Conjoined with `lateGroupsAreCancelled`. -/
def Obligations.CommandsStartAndComplete : Prop :=
  lateGroupsAreCancelled ∧
  (∀ (s : State) (q : QueueIx) (c : Cmd), s.awake → s.startable q 0 = some c →
    (bitAt (c.field 16 8) 63 = true → c.job = none → c.argsBad = none → s.canDma = true) →
    (∀ s1 j, jobPasses s c → boundJob s c = some (s1, j) → ((boundOuts s1 c j).map fun o => o.ring).Nodup →
      (∀ o ∈ boundOuts s1 c j, o.arg.isSome = true → s1.ringBad o.ring o.pitch = false) → Answers (.jobStart q) s fun t => inFlight t c .running) ∧
    (s.wellBusy (byteAt c.bytes 6) = true → Answers (.jobStart q) s fun t => inFlight t c (.done 5 0)) ∧
    (s.wellBusy (byteAt c.bytes 6) = false → s.dev.state.live = false → Answers (.jobStart q) s fun t => inFlight t c (.done 8 0)) ∧
    (s.wellBusy (byteAt c.bytes 6) = false → s.dev.state.live = true → byteAt c.bytes 7 ≠ 0xFF →
      s.ringBad (byteAt c.bytes 7) (32 + 32 * s.od Od.detKeepMax) = true → Answers (.jobStart q) s fun t => inFlight t c (.done 11 0)) ∧
    (∀ st, jobPasses s c → c.job = none → c.argsBad = some st → Answers (.jobStart q) s fun t => inFlight t c (.done st 0)) ∧
    (jobPasses s c → c.job = none → c.argsBad = none → s.bindArgs c.tag (c.field 16 8) = none → Answers (.jobStart q) s fun t => inFlight t c (.done 7 0)) ∧
    (∀ s1 j, jobPasses s c → boundJob s c = some (s1, j) → (¬ ((boundOuts s1 c j).map fun o => o.ring).Nodup ∨
      ∃ o ∈ boundOuts s1 c j, o.arg.isSome = true ∧ s1.ringBad o.ring o.pitch = true) → Answers (.jobStart q) s fun t => inFlight t c (.done 11 0))) ∧
  (∀ (s : State) (q : QueueIx) (c : Cmd), s.awake → s.startable q 1 = some c →
    (∀ d src dst, s.od Od.dramDramState = 2 → s.bindDesc (c.field 8 8) = .ok d src dst → sdKind d = 3 →
      Answers (.copyCommand q) s fun t => ∃ x ∈ t.cmd.cmds, x.queue = c.queue ∧ x.index = c.index ∧ x.stage = .running ∧
        x.copy = some { desc := d, src := src, dst := dst }) ∧
    ((s.od Od.dramDramState ≠ 2 ∨ ∀ d src dst, s.bindDesc (c.field 8 8) = .ok d src dst → sdKind d ≠ 3) →
      Answers (.copyCommand q) s fun t => inFlight t c (.done 7 0))) ∧
  (∀ (s : State) (q : QueueIx) (c : Cmd), s.awake → s.startable q 2 = some c →
    Answers (.signalCommand q) s fun t => inFlight t c (.done 0 0) ∧
      t.cmd.syncs = s.cmd.syncs.set s.cmd.syncInit (c.field 46 2 % 2 ^ 14)
        ((if bitAt (c.field 46 2) 14 then c.field 52 4 else s.sync (c.field 46 2 % 2 ^ 14) + c.field 52 4) % 2 ^ 32)) ∧
  (∀ (s : State) (q : QueueIx) (c : Cmd), s.awake → s.startable q 3 = some c →
    (waitHolds (s.sync (c.field 44 2)) (c.field 48 4) = true → Answers (.waitCommand q) s fun t => inFlight t c (.done 0 0)) ∧
    (waitHolds (s.sync (c.field 44 2)) (c.field 48 4) = false → Answers (.waitCommand q) s fun t => inFlight t c .waiting)) ∧
  (∀ (s : State) (q : QueueIx) (c : Cmd), s.awake → s.cmdOpen = true → ((s.queueCmds q).find? fun c => c.stage = .waiting) = some c →
    waitHolds (s.sync (c.field 44 2)) (c.field 48 4) = true →
    Answers (.syncWaitSatisfied (.queue q)) s fun t => inFlight t c (.done 0 0)) ∧
  (∀ (s : State) (tag : BitVec 12) (j : Job), s.awake → s.fixFirst.jobOf tag.toNat = some j → s.fixFirst.jobOver j = true → s.fixFirst.outsDone j = true →
    (∀ x ∈ s.cmd.streams, x.tag = tag.toNat → x.kind = 1 → x.slots = []) → (∀ b ∈ s.ctx.batches, b.tag ≠ tag.toNat) →
    Answers (.jobComplete tag) s fun t => t.jobOf tag.toNat = none ∧ t.cmd.owed = (s.cmd.owed ++ j.outs.flatMap fun o => o.owed tag.toNat) ∧ (∃ x ∈ t.cmd.cmds, x.tag = tag.toNat ∧ x.stage = .done 0 0) ∧
      (∀ x ∈ t.cmd.streams, x.tag ≠ tag.toNat) ∧ ∀ k, (t.core k).prog.map Prod.fst ≠ some tag.toNat)

/-- The host frees entries, sizes rings in PREOP, aborts commands, and sets and adds to synchronisation objects; a consumer index that passes the producer's is
refused and reported (R370, R371, R387, R395, R405). -/
def Obligations.HostHandlesRings : Prop :=
  (∀ (s : State) (r : DevRing) (ci : W32), s.wf = true → s.awake → s.cmdOpen = true → (r = .event → s.cmd.eventsLost = 0) →
    Answers (.ringCiWrite r ci) s fun t =>
      let g := s.ringRegs r
      if ringUsed (s.reg g.pi) (s.reg g.ci) < ringUsed (s.reg g.pi) ci.toNat then t.reg g.ci = s.reg g.ci ∧ bitAt (t.reg Reg.cmdIntStatus) 2 = true
      else t = s.setReg g.ci ci.toNat) ∧
  (∀ (s : State) (q : QueueIx) (n : W32), s.wf = true → s.awake → s.dev.state = .preop → slotsOk n.toNat 16 65536 = true →
    Answers (.ringSlotsWrite (.command q) n) s (fun t =>
      t.reg (Reg.cqSlots q) = n.toNat ∧ t.reg (Reg.cqPi q) = 0 ∧ t.reg (Reg.cqCi q) = 0 ∧ t.reg (Reg.cqStatus q) = 0) ∧
    Answers (.ringSlotsWrite (.device (.completion q)) n) s (fun t =>
      t.reg (Reg.ccSlots q) = n.toNat ∧ t.reg (Reg.ccPi q) = 0 ∧ t.reg (Reg.ccCi q) = 0)) ∧
  (∀ (s : State) (n : W32), s.wf = true → s.awake → s.dev.state = .preop →
    (∀ r : ResIx, slotsOk n.toNat 16 1048576 = true → Answers (.ringSlotsWrite (.device (.result r)) n) s fun t =>
      t.reg (Reg.resSlots r) = n.toNat ∧ t.reg (Reg.resPi r) = 0 ∧ t.reg (Reg.resCi r) = 0) ∧
    (slotsOk n.toNat 64 1048576 = true → Answers (.ringSlotsWrite (.device .event) n) s fun t =>
      t.reg Reg.cmdEvtSlots = n.toNat ∧ t.reg Reg.cmdEvtCi = 0 ∧
      (n ≠ 0 → s.canDma = true → t.cmd.eventsLost = 0) ∧ t.reg Reg.cmdEvtPi = if s.canDma = true ∧ n ≠ 0 ∧ s.cmd.eventsLost ≠ 0 then 1 else 0)) ∧
  (∀ (s : State) (r : AnyRing) (n : W32), s.awake → s.dev.state ≠ .preop → Answers (.ringSlotsWrite r n) s fun t => t = s) ∧
  (∀ (s : State) (v : W32), s.wf = true → s.awake → s.cmdOpen = true → v.getLsbD 16 = true → v.getLsbD 17 = false →
    Answers (.cmdAbort v) s fun t => bitAt (t.reg Reg.cmdIntStatus) 1 = true ∧ match s.cmdOf (bits v.toNat 11 0) with
      | none => t.reg Reg.cmdAbortStatus = (if s.cmd.ended.contains (bits v.toNat 11 0) = true then 2 else 4) ∧ t.cmd = s.cmd
      | some c => t.reg Reg.cmdAbortStatus = 0 ∧ inFlight t c (.done 1 0)) ∧
  (∀ (s : State) (v : W32), s.wf = true → s.awake → s.cmdOpen = true → v.getLsbD 16 = true → v.getLsbD 17 = true →
    Answers (.cmdAbort v) s fun t => t.reg Reg.cmdAbortStatus = (if s.queueCmds (bits v.toNat 23 18) = [] then 4 else 0) ∧
      ∀ c ∈ s.queueCmds (bits v.toNat 23 18), ((∀ st d, c.stage ≠ .done st d) ∨ s.jobOf c.tag = none) → inFlight t c (.done 1 0)) ∧
  (∀ (s : State) (v : W32), s.awake → s.cmdOpen = true →
    let o := bits (s.reg Reg.cmdSyncIndex) 13 0
    Answers (.cmdSyncValueWrite v) s (fun t => t.cmd.syncs = s.cmd.syncs.set s.cmd.syncInit o (v.toNat % 2 ^ 32)) ∧
    Answers (.cmdSyncAdd v) s (fun t => t.cmd.syncs = s.cmd.syncs.set s.cmd.syncInit o ((s.sync o + v.toNat) % 2 ^ 32)))

/-- A PI that would give more than S entries stops its command queue with cause 1, where SAFE has not stopped it already (R398); a CI that would pass the PI of a device-written ring is ignored and sets
CMD_INT_STATUS.INDEX_ERR (R370). -/
def Obligations.RingIndexErrors : Prop :=
  (∀ (s : State) (q : QueueIx) (pi : W32), s.wf = true → s.awake → s.cmdOpen = true →
    s.reg (Reg.cqSlots q) < ringUsed pi.toNat (s.reg (Reg.cqCi q)) →
    Answers (.cqPiWrite q pi) s fun t => bitAt (t.reg (Reg.cqStatus q)) 1 = true ∧
      bits (t.reg (Reg.cqStatus q)) 3 2 = (if s.reg (Reg.cqStatus q) = 14 then 3 else 1) ∧ t.reg (Reg.cqPi q) = s.reg (Reg.cqPi q) ∧ t.cmd = s.cmd) ∧
  (∀ (s : State) (r : DevRing) (ci : W32), s.wf = true → s.awake → s.cmdOpen = true →
    let g := s.ringRegs r
    ringUsed (s.reg g.pi) (s.reg g.ci) < ringUsed (s.reg g.pi) ci.toNat →
    Answers (.ringCiWrite r ci) s fun t => t.reg g.ci = s.reg g.ci ∧ t.reg g.pi = s.reg g.pi ∧ bitAt (t.reg Reg.cmdIntStatus) 2 = true ∧ t.cmd = s.cmd)

/-! ### The Caravan node and the dictionary's doors -/

/-- A frame goes out on its port when the port is free (R452). -/
def sentFrame (s t : State) (port : Nat) (f : List Byte) : Prop :=
  t.crv.sending = if s.dev.resetHeld = true then [] else
    (s.crv.sending.filter fun x => decide (s.dt < x.2.2.1)) ++ [(port, s.portFree port, s.portFree port + 80 * (f.length + 24), f.length)]

/-- Frames that are not this node's, or that it only forwards, leave unchanged, with their check value as it came; a frame that it processes leaves with its
slots answered, and one whose check value is wrong does nothing else but count. A frame for which its port has no room is dropped and counted, and a frame of
this node's controller on its return pass is processed and not forwarded. A change of the outer port's link discards the samples of the path delay, one of the
inner port's is only seen, and forwarding begins before the reset ends (R439, R440, R442, R449, R452, R455, R479, R481). -/
def caravanFramesPassOn : Prop :=
  (∀ (s : State) (f : List Byte) (ok outbound : Bool), s.crv.forwarding = true →
    let way := if outbound = true ∧ s.crv.port1Up = true then 1 else 0
    (s.frameOurs f = true → way = 0 → exec (.caravanFrameForward ⟨f, ok⟩ outbound) s = exec (.caravanFrameProcess f ok) s) ∧
    (s.frameOurs f = false ∨ way = 1 → s.frameFits way f = false →
      Answers (.caravanFrameForward ⟨f, ok⟩ outbound) s fun t => t.out = s.out ∧ t.dict = s.dict ∧ t.crv = s.crv ∧
        t.reg Reg.crvOverflowDrop = satAdd 64 (s.reg Reg.crvOverflowDrop) 1) ∧
    (s.frameOurs f = false ∨ way = 1 → s.frameFits way f = true →
      Answers (.caravanFrameForward ⟨f, ok⟩ outbound) s fun t => t.out = s.out ++ [.caravanFrame way f ok] ∧ t.dict = s.dict ∧ sentFrame s t way f ∧
        (s.frameOurs f = false → t.reg Reg.crvForeign = satAdd 64 (s.reg Reg.crvForeign) 1) ∧
        (s.frameOurs f = true → frameValid f = false → t.reg Reg.crvFrameRefused = satAdd 64 (s.reg Reg.crvFrameRefused) 1) ∧
        (s.frameOurs f = true → frameValid f = true → t.regs = s.regs ∧ t.crv.outbound = ((frameCycle f, s.dt) :: s.crv.outbound).take 16))) ∧
  (∀ (s : State) (f : List Byte) (ok : Bool), s.crv.forwarding = true →
    (s.frameFits 0 f = false →
      Answers (.caravanFrameProcess f ok) s fun t => t.out = s.out ∧ t.dict = s.dict ∧ t.crv = s.crv ∧
        t.reg Reg.crvOverflowDrop = satAdd 64 (s.reg Reg.crvOverflowDrop) 1) ∧
    (s.frameFits 0 f = true → (s.frameOurs f = false ∨ frameValid f = false) →
      Answers (.caravanFrameProcess f ok) s fun t => t.out = s.out ++ [.caravanFrame 0 f ok] ∧ t.dict = s.dict ∧ sentFrame s t 0 f ∧
        let r := if s.frameOurs f = true then Reg.crvFrameRefused else Reg.crvForeign
        t.reg r = satAdd 64 (s.reg r) 1)) ∧
  (∀ (s : State) (f : List Byte), s.crv.forwarding = true → s.frameFits 0 f = true → s.frameOurs f = true → frameValid f = true →
    s.manufacturingSlot (frameSlotList f) = none →
    let acc := fun (ok : Bool) => slotSteps ok ⟨s, [], false, [], s.od Od.crvSeat, 0, s⟩ (frameSlotList f)
    Answers (.caravanFrameProcess f true) s (fun t =>
      t = (((acc true).state.sendFrame 0 ((acc true).frame f) true).frameGood f (s.portFree 0) (acc true).work)) ∧
    Answers (.caravanFrameProcess f false) s fun t =>
      Out.caravanFrame 0 ((acc false).frame f) false ∈ t.out ∧ t.dict = s.dict ∧ t.crv = { s.crv with sending := t.crv.sending } ∧ t.doors = s.doors ∧
        t.reg Reg.crvFcsErr = satAdd 64 (s.reg Reg.crvFcsErr) 1) ∧
  (∀ (s : State) (up : Bool), s.wf = true → s.dev.powerGood = true → s.crv.port1Up ≠ up →
    Answers (.caravanPortLinkChange ⟨false, up⟩) s fun t => t.crv = { s.crv with port1Up := up, samples := [], prev := none, outbound := [] } ∧
      t.od Od.crvPathDelay = 0 ∧ t.reg Reg.crvPathDelay = 0 ∧ (s.crv.forwarding = true → bitAt (t.reg Reg.crvIntStatus) 2 = true)) ∧
  (∀ (s : State) (up : Bool), s.dev.powerGood = true →
    Answers (.caravanPortLinkChange ⟨true, up⟩) s fun t => t = { s with crv := { s.crv with port0Up := up } }) ∧
  (∀ s : State, s.dev.powerGood = true → s.crv.forwarding = false →
    Answers .caravanForwardingBegin s fun t => t.crv.forwarding = true ∧ t.crv.port0Up = s.crv.port0Up ∧ t.crv.port1Up = s.crv.port1Up ∧ t.dict = s.dict ∧
      (s.crv.port1Up = false → bitAt (t.reg Reg.crvIntStatus) 2 = true))

/-- A slow request's ticket holds its answer until it has been fetched, or 16 further cycles have passed: the part of a value that a SEG_READ asks for, or the
status of the value that a last segment submitted; an expired watchdog is counted, stops the lock and, as
LOSS_ACTION says, brings the device to SAFE (R448, R451, R453, R474). A write that waits for its trigger is applied or refused at it, once, where its entry has
no later point; where it has one it stays in the table until that point (R458). Conjoined with `caravanFramesPassOn`. -/
def Obligations.CaravanFramesAndTickets : Prop :=
  caravanFramesPassOn ∧
  (∀ (s : State) (n : Byte) (k : Ticket), s.awake → (s.crv.tickets.find? fun k => k.number == n && k.answer.isNone) = some k →
    let q := Slot.parse k.slot
    let stored := fun (t : State) (bs : List Byte) => ∀ x ∈ t.crv.tickets, x.number = n → x.age = 0 ∧ x.answer = some bs
    (∀ r, q.cmd = 6 → s.odReadCheck q.key = .ok → odFind q.key = some r → r.type.maxBytes.isSome = true →
      Answers (.crvSlowRequestDone n) s fun t =>
        let v := s.odBytes q.key
        let part := (v.drop q.offset).take 8
        stored t (SlotAnswer.store { status := .ok, len := part.length, total := v.length, data := part })) ∧
    (∀ r, q.cmd = 6 → s.odReadCheck q.key = .ok → odFind q.key = some r → r.type.maxBytes = none →
      Answers (.crvSlowRequestDone n) s fun t => stored t (SlotAnswer.store { status := .type })) ∧
    (q.cmd = 6 → s.odReadCheck q.key ≠ .ok →
      Answers (.crvSlowRequestDone n) s fun t => stored t (SlotAnswer.store { status := s.odReadCheck q.key })) ∧
    (q.cmd = 7 → k.staged.1 = 0 →
      Answers (.crvSlowRequestDone n) s fun t => stored t (SlotAnswer.store { status := (s.odWriteBytes .caravan q.key k.staged.2).1 })) ∧
    (q.cmd = 7 → k.staged.1 ≠ 0 → Answers (.crvSlowRequestDone n) s fun t => stored t (leBytes 1 k.staged.1) ∧ t.dict = s.dict) ∧
    (q.cmd ≠ 6 → q.cmd ≠ 7 → Answers (.crvSlowRequestDone n) s fun t =>
      (∀ x ∈ t.crv.tickets, x.number = n → x.answer.isSome = true) ∨ ∃ target, t.dev.request = some ⟨target, .ticket n⟩)) ∧
  (∀ (s : State) (n : Byte), s.awake → (s.crv.tickets.any fun k => k.number == n && k.answer.isSome && decide (16 ≤ k.age)) = true →
    Answers (.crvTicketExpiry n) s fun t =>
      t.crv.tickets = (s.crv.tickets.filter fun k => k.number != n) ∧ t.reg Reg.crvTicketsExpired = satAdd 64 (s.reg Reg.crvTicketsExpired) 1) ∧
  (∀ s : State, s.awake → s.crv.armed = true → s.crv.expired = false →
    Answers .crvWatchdogExpiry s fun t => t.crv.expired = true ∧ t.crv.lockRun = 0 ∧ t.crv.tickets = s.crv.tickets ∧
      t.reg Reg.crvWatchdogExpired = satAdd 64 (s.reg Reg.crvWatchdogExpired) 1 ∧
      (s.od Od.crvTimeSource = 1 → t.od Od.crvTimeState = 3) ∧
      t.dev.safeCause = if s.od Od.crvLossAction = 1 ∧ s.dev.state.live = true ∧ s.dev.safeCause = none then some 3 else s.dev.safeCause) ∧
  (∀ (s : State) (h : Fin 64) (e : Sched), s.wf = true → s.awake → (s.doors.schedule.find? fun e => e.handle == h.val) = some e → s.schedDue e = true →
    let u := { s with doors := { s.doors with schedule := s.doors.schedule.filter fun x => x.handle != h.val } }
    (writeWait e.key true ≠ .none → Answers (.scheduledWriteApply h) s fun t => t = s) ∧
    (writeWait e.key true = .none → u.odWriteCheck e.origin e.key (odWidth e.key / 8) e.value ≠ .ok →
      Answers (.scheduledWriteApply h) s fun t => t.doors.schedule = u.doors.schedule ∧
        t.reg Reg.crvSchedRefused = satAdd 64 (s.reg Reg.crvSchedRefused) 1 ∧ (∃ x ∈ t.events, x.source = 6 ∧ x.type = 0x12 ∧ x.dt = s.dt) ∧
        (e.key ≠ Od.ledgerLost → t.od e.key = s.od e.key)) ∧
    (writeWait e.key true = .none → odSchedulable e.key = true → u.odWriteCheck e.origin e.key (odWidth e.key / 8) e.value = .ok →
      Answers (.scheduledWriteApply h) s fun t => t.doors.schedule = u.doors.schedule ∧ t.od e.key = e.value ∧
        t.reg Reg.crvSchedApplied = satAdd 64 (s.reg Reg.crvSchedApplied) 1 ∧
        (e.key = Od.webLinePitch →
          t.web.next = if s.web.triggered = true ∧ s.web.lastLsn = e.at_ then s.web.next + ((e.value : Int) - s.od Od.webLinePitch) else s.web.next)))

/-- What GLB_OD_W_STATUS holds after a BAR4 write of an entry. -/
def bar4Word (key : Nat) (st : Status) : Nat := st.code + 2 ^ 8 * (key % 256) + 2 ^ 16 * (key / 256 % 65536)

/-- The status of a scalar write through BAR4: a transition that is only begun counts as accepted. -/
def bar4Code (s : State) (key len v : Nat) : Status :=
  if (s.odWrite .host key len v .bar4).1 = .pending then .ok else (s.odWrite .host key len v .bar4).1

/-- The BAR4 window: a whole scalar is written at once, a 64-bit one also by its low word and then its high word; another shape is MALFORMED, and the outcome
stands in GLB_OD_W_STATUS. Before PREOP it is NOT_READY, an index of another generation answers GENERATION and one of the manufacturing-test range STATE,
whatever the shape.
A readable scalar is read whole, or by words of one value; anything else reads 0 and sets the error register (R10, R475, R476). -/
def Obligations.Bar4WindowReadsAndWrites : Prop :=
  (∀ (s : State) (off size w : Nat) (v : W64) (r : OdRow), s.wf = true → s.awake →
    let key := off / 0x800 * 256 + off % 0x800 / 8
    s.manufacturing (off / 0x800 * 256) = false → off % 8 = 0 → s.doors.bar4Low = none → odFind key = some r → r.type.bytes = w →
    (w = 8 ∧ size = 8 ∨ 0 < w ∧ w < 8 ∧ (size = 4 ∨ size = 8) ∧ r.type.signed = false ∧ v.toNat < 2 ^ (8 * w)) →
    Answers (.bar4Write off size v) s fun t => t.reg Reg.glbOdWStatus = bar4Word key (bar4Code s key w v.toNat) ∧
      (s.odWriteCheck .host key w v.toNat ∉ [.ok, .pending] → t.reg Reg.glbOdWCount = s.reg Reg.glbOdWCount)) ∧
  (∀ (s : State) (off size : Nat) (v : W64), s.wf = true → s.awake → s.manufacturing (off / 0x800 * 256) = false → s.doors.bar4Low = none →
    (size = 1 ∨ size = 2) →
    let key := off / 0x800 * 256 + off % 0x800 / 8
    Answers (.bar4Write off size v) s fun t =>
      t.reg Reg.glbOdWStatus = bar4Word key (if s.dev.state.ready = false then .notReady else if 0xF000 ≤ key / 256 then .state
        else if odDefined key = .generation then .generation else .malformed) ∧
      t.od Od.crvRequestsRefused = satAdd (odWidth Od.crvRequestsRefused) (s.od Od.crvRequestsRefused) 1 ∧
      (∀ k, k ≠ Od.crvRequestsRefused → t.od k = s.od k) ∧ t.doors = s.doors ∧ t.reg Reg.glbOdWCount = s.reg Reg.glbOdWCount) ∧
  (∀ (s : State) (off : Nat) (lo hi : W64) (r : OdRow), s.wf = true → s.awake →
    let key := off / 0x800 * 256 + off % 0x800 / 8
    let held := { s with doors := { s.doors with bar4Low := some (key, lo.truncate 32) } }
    s.manufacturing (off / 0x800 * 256) = false → off % 8 = 0 → s.doors.bar4Low = none → odFind key = some r → r.type.bytes = 8 →
    Answers (.bar4Write off 4 lo) s (fun t => t = held) ∧
    Answers (.bar4Write (off + 4) 4 hi) held fun t =>
      t.reg Reg.glbOdWStatus = bar4Word key (bar4Code s key 8 (lo.toNat % 2 ^ 32 + 2 ^ 32 * (hi.toNat % 2 ^ 32)))) ∧
  (∀ (s : State) (off : Nat) (r : OdRow), s.awake →
    let key := off / 0x800 * 256 + off % 0x800 / 8
    s.manufacturing (off / 0x800 * 256) = false → off % 8 = 0 → s.doors.bar4Low = none → s.odReadCheck key = .ok → odFind key = some r → 0 < r.type.bytes →
    Answers (.bar4Read off 8) s (fun t => t = s.send (.readData (s.odView64 key))) ∧
    Answers (.bar4Read off 4) s (fun t => t.out = s.out ++ [.readData (s.odView64 key % 2 ^ 32)] ∧ t.dict = s.dict ∧
      t.doors.bar4Latch = some (key, BitVec.ofNat 32 (s.odView64 key / 2 ^ 32))) ∧
    ∀ hi, s.doors.bar4Latch = some (key, hi) → Answers (.bar4Read (off + 4) 4) s fun t => t.out = s.out ++ [.readData hi.toNat] ∧ t.doors.bar4Latch = none) ∧
  (∀ (s : State) (off size : Nat), s.wf = true → s.awake → s.manufacturing (off / 0x800 * 256) = false → s.doors.bar4Low = none →
    s.odReadCheck (off / 0x800 * 256 + off % 0x800 / 8) ≠ .ok →
    Answers (.bar4Read off size) s fun t => t.out = s.out ++ [.readData 0] ∧ t.reg Reg.glbOdRErr = 1 ∧ t.dict = s.dict)

/-- GLB_OD_MB_STATUS with BUSY clear. -/
def mbWord (st : Status) (late : Bool) (handle : Nat) : Nat := 2 ^ 8 * st.code + 2 ^ 16 * bit late + 2 ^ 24 * handle

/-- The mailbox: each operation ends with its status, LATE and handle in GLB_OD_MB_STATUS, a transition excepted that is only begun; a read leaves its bytes,
their number and the value's length; a request of the wrong shape answers as its index does first, and is counted; a GO while BUSY is ignored (R10, R12, R457,
R459, R462, R468, R477). -/
def Obligations.MailboxOperationsEnd : Prop :=
  (∀ s : State, s.doors.mbBusy = true → ∀ c ∈ [Instr.mbRead, .mbWrite true, .mbWrite false, .mbWriteAt true, .mbWriteAt false, .mbCancelAt, .mbDescribe],
    Answers c s fun t => t = s) ∧
  (∀ s : State, s.wf = true → s.awake → s.doors.mbBusy = false → s.manufacturing s.mbKey = false →
    let key := s.mbKey
    let v := ofLeBytes (s.mbData (s.reg Reg.glbOdMbLen))
    let len := s.reg Reg.glbOdMbLen
    Answers .mbRead s (fun t => t.doors.mbBusy = false ∧ t.dict = s.dict ∧
      (s.odReadCheck key ≠ .ok → t.reg Reg.glbOdMbStatus = mbWord (s.odReadCheck key) false 0) ∧
      (∀ r, s.odReadCheck key = .ok → odFind key = some r → r.type.maxBytes = none → s.reg Reg.glbOdMbOffset = 0 →
        t.reg Reg.glbOdMbStatus = mbWord .ok false 0 ∧ t.reg Reg.glbOdMbLen = (s.odBytes key).length ∧
        t.reg Reg.glbOdMbTotal = (s.odBytes key).length ∧ t.mbData (s.odBytes key).length = s.odBytes key)) ∧
    (s.dev.state.ready = false → ∀ last, Answers (.mbWrite last) s fun t => t.doors.mbBusy = false ∧ t.reg Reg.glbOdMbStatus = mbWord .notReady false 0) ∧
    (s.dev.state.ready = true → 4096 < len → ∀ last,
      let st := if 0xF000 ≤ key / 256 then Status.state else if odDefined key = .generation then .generation else .malformed
      let turned := fun (t : State) => t.doors.mbBusy = false ∧ t.reg Reg.glbOdMbStatus = mbWord st false 0 ∧
        t.od Od.crvRequestsRefused = satAdd (odWidth Od.crvRequestsRefused) (s.od Od.crvRequestsRefused) 1 ∧
        ∀ k, k ≠ Od.crvRequestsRefused → t.od k = s.od k
      Answers (.mbWrite last) s turned ∧ Answers (.mbWriteAt last) s turned) ∧
    (∀ r, s.dev.state.ready = true → odFind key = some r → r.type.maxBytes = none → s.reg Reg.glbOdMbOffset = 0 → len ≤ 4096 →
      Answers (.mbWrite true) s fun t =>
        if (s.odWrite .host key len v .mailbox).1 = .pending then t.doors.mbBusy = true ∧ t.reg Reg.glbOdMbStatus = 1
        else t.doors.mbBusy = false ∧ t.reg Reg.glbOdMbStatus = mbWord (s.odWrite .host key len v .mailbox).1 false 0) ∧
    (s.writeAtCheck .host key len v = .ok → len ≤ 4096 → s.reg Reg.glbOdMbOffset = 0 → s.lsnPassed s.mbAt = false →
      Answers (.mbWriteAt true) s fun t => t.doors.mbBusy = false ∧
        (∀ h, (s.doors.schedule.find? fun e => e.key == key && e.at_ == s.mbAt) = none → freeHandle s.doors.schedule = some h →
          t.doors.schedule = s.doors.schedule.filter (fun e => e.handle != h) ++ [⟨h, key, s.mbAt, v, .host⟩] ∧
          t.reg Reg.glbOdMbStatus = mbWord .ok false h) ∧
        ((s.doors.schedule.find? fun e => e.key == key && e.at_ == s.mbAt) = none → freeHandle s.doors.schedule = none →
          t.doors.schedule = s.doors.schedule ∧ t.reg Reg.glbOdMbStatus = mbWord .tableFull false 0)) ∧
    (s.dev.state.ready = true →
      Answers .mbCancelAt s fun t => t.doors.mbBusy = false ∧
        if 0xF000 ≤ key / 256 then t.doors.schedule = s.doors.schedule ∧ t.reg Reg.glbOdMbStatus = mbWord .state false 0
        else if odDefined key = .generation then t.doors.schedule = s.doors.schedule ∧ t.reg Reg.glbOdMbStatus = mbWord .generation false 0
        else t.doors.schedule = (s.doors.schedule.filter fun e => !(e.key == key && e.at_ == s.mbAt)) ∧
          t.reg Reg.glbOdMbStatus = mbWord (if s.doors.schedule.any (fun e => e.key == key && e.at_ == s.mbAt) = true then .ok else .notFound) false 0) ∧
    (∀ r, s.dev.state.ready = true → key / 256 < 0xA000 → odFind key = some r →
      Answers .mbDescribe s fun t => t.doors.mbBusy = false ∧ t.mbData 8 = describeRow key r ∧ t.reg Reg.glbOdMbStatus = mbWord .ok false 0))

/-! ### Device states and resets -/

/-- The schedule table is empty, with its event (R459). -/
def scheduleGone (s t : State) : Prop := t.doors.schedule = [] ∧ ∃ e ∈ t.events, e.source = 6 ∧ e.type = 0x18 ∧ e.dt = s.dt

/-- The device is in a state with its request answered, and the change is recorded: STATE_DT, STATE_LSN and the state-change event. -/
def arrived (s t : State) (new : DevState) : Prop :=
  t.dev.state = new ∧ t.dev.request = none ∧ t.od Od.devStateDt = s.dt ∧ t.od Od.devStateLsn = s.web.lastLsn ∧
  ∃ e ∈ t.events, e.source = 6 ∧ e.type = 0x15 ∧ e.dt = s.dt

/-- A requested transition is made with its entry actions, or refused with the entry at fault named: the entry to ARMED loads the LSN and the threshold, HOLD
and the return from it keep the LSN, and the entries to ARMED, PREOP and SAFE empty the schedule table; a request that SAFE overtakes is answered STATE (R19, R23, R459, R470, R473, R474). -/
def transitionsAreMade : Prop :=
  (∀ (s : State) (d : Door), s.wf = true → s.awake → s.dev.request = some ⟨.armed, d⟩ →
    Answers .armedEntry s fun t => match s.armedReport.armedCheck with
      | some key => t.dev.state = s.dev.state ∧ t.dev.request = none ∧ t.od Od.cntConfigFault = key ∧ t.od Od.devLastRefusal = 0x0E
      | none => arrived s t .armed ∧ t.web.x = s.od Od.webLsnPreset ∧ t.web.triggered = false ∧ t.web.pos = s.web.pos ∧ t.web.high = s.web.pos ∧
          t.web.next = s.web.pos * 65536 + s.od Od.webLinePitch ∧ scheduleGone s t) ∧
  (∀ (s : State) (d : Door), s.wf = true → s.awake → s.dev.request = some ⟨.run, d⟩ → s.dev.state = .armed →
    Answers .runEntry s fun t => arrived s t .run ∧ t.web = s.web) ∧
  (∀ (s : State) (d : Door), s.wf = true → s.awake → s.dev.request = some ⟨.hold, d⟩ → s.dev.state = .run →
    Answers .holdEntry s fun t => arrived s t .hold ∧ t.web.x = s.web.x ∧ t.web.lastLsn = s.web.lastLsn) ∧
  (∀ (s : State) (d : Door), s.wf = true → s.awake → s.dev.request = some ⟨.run, d⟩ → s.dev.state = .hold →
    Answers .holdExit s fun t => arrived s t .run ∧
      t.web = { s.web with next := s.web.high * 65536 + (s.od Od.webLinePitch : Int), timerStart := s.dt }) ∧
  (∀ (s : State) (d : Door), s.wf = true → s.awake → s.dev.request = some ⟨.preop, d⟩ →
    Answers .preopEntry s fun t => t.dev.state = .preop ∧ t.dev.request = none ∧ scheduleGone s t) ∧
  (∀ (s : State) (internal : Bool) (reason : Nat), s.wf = true → s.awake → s.dev.state.ready = true → s.dev.state ≠ .safe →
    (s.dev.safeCause = some reason ∨
      s.dev.safeCause = none ∧ ((∃ d, s.dev.request = some ⟨.safe, d⟩) ∧ reason = 1 ∨
        (∀ d, s.dev.request ≠ some ⟨.safe, d⟩) ∧ internal = true ∧ reason = 7)) →
    Answers (.safeEntry internal) s fun t => t.dev.state = .safe ∧ t.dev.request = none ∧ t.dev.safeCause = none ∧
      t.od Od.devSafeReason = reason ∧ scheduleGone s t ∧ t.cmd.cmds = [] ∧
      ∀ r, s.dev.request = some r → r.target ≠ .safe → t.od Od.devLastRefusal = Status.state.code)

/-- Start-up: BOOT ends in AUTH, or in SAFE where the self-test fails, and AUTH ends in PREOP once an image has verified and DRAM is done, or in SAFE with its reason; a boot that does not end is reset,
and the second time goes to SAFE (R470, R556, R558, R571, R572). Conjoined with `transitionsAreMade`. -/
def Obligations.StartUpAndTransitions : Prop :=
  transitionsAreMade ∧
  (∀ s : State, s.wf = true → s.awake → s.dev.state = .boot → s.pwr.pcie = true → s.dev.authEnded = false →
    Answers .authBegin s fun t =>
      if Config.selfTestPasses (s.bootRecord.1.count + 1) = true then
        t.dev.state = .auth ∧ t.od Od.devStateDt = s.dt ∧ t.od Od.devStateLsn = s.web.lastLsn ∧ t.events = s.events ∧ t.ledger = s.ledger
      else t.dev.state = .safe ∧ t.od Od.devSafeReason = 6 ∧ t.saf.codes = (12, 12, 12) ∧ t.saf.image = none) ∧
  (∀ s : State, s.wf = true → s.awake → s.dev.state = .auth → s.dev.authEnded = false →
    Answers .authEnd s fun t => t.dev.authEnded = true ∧
      (t.saf.image = none → t.dev.state = .safe ∧ t.od Od.devSafeReason = 6) ∧
      (t.saf.image ≠ none → t.dev.state = if s.od Od.dramDramState = 2 then .preop else if s.od Od.dramDramState = 3 then .safe else .auth)) ∧
  (∀ (s : State) (ok : Bool), s.wf = true → s.awake → s.od Od.dramDramState = 1 →
    Answers (.dramInitDone ok) s fun t => t.od Od.dramDramState = (if ok then 2 else 3) ∧
      (s.dev.state = .auth → s.dev.authEnded = true → s.saf.image ≠ none → if ok then t.dev.state = .preop else t.dev.state = .safe ∧ t.od Od.devSafeReason = 5) ∧
      (s.dev.state ≠ .auth ∨ s.dev.authEnded = false → t.dev.state = s.dev.state)) ∧
  (∀ s : State, s.wf = true → s.awake → s.dev.state.ready = false →
    Answers .bootWatchdogExpiry s fun t =>
      if s.pwr.reason = 9 then t.dev.state = .safe ∧ t.od Od.devSafeReason = 6
      else t.dev.state = .boot ∧ t.dev.resetHeld = true ∧ t.pwr.reason = 9)

/-- A Function Level Reset has taken effect. -/
def flrDone (s t : State) : Prop :=
  t.reg Reg.glbResetStatus = 1 ∧ t.pcie.busMaster = false ∧ t.pcie.msixEnable = false ∧ t.pcie.d3hot = false ∧ t.cmd.cmds = [] ∧
  t.pcie.cfg = [] ∧ (∀ e ∈ t.doors.schedule, e.origin ≠ .host) ∧ (s.dev.state.live = true → t.dev.request = none) ∧
  (∀ r, s.dev.state.live = true → s.dev.request = some r → r.door = .mailbox → t.doors.mbBusy = false) ∧ t.dev.state = if s.dev.state.live = true then .preop else s.dev.state

/-- A conventional reset has taken effect: the device is held in BOOT with its reason recorded, what counts since power-up is kept with the flash and the fuses,
and every other register and entry is at its reset value (R555, R557, R559). A slot that a PROGRAM was writing is left partial (R579; 152, the model's
choice). -/
def resetBy (reason : Nat) (s t : State) : Prop :=
  t.dev.state = .boot ∧ t.dev.resetHeld = true ∧ t.dev.powerGood = s.dev.powerGood ∧ t.dt = 0 ∧ t.web = State.reset.web ∧ t.events = [] ∧
  t.dram = [] ∧ t.oasis = [] ∧ t.hostMem = s.hostMem ∧ t.cmd = State.reset.cmd ∧ t.ledger = State.reset.ledger ∧
  t.saf.flash = s.cutProgram.saf.flash ∧ ((∀ o, s.saf.op = some o → o.flashing = false) → t.saf.flash = s.saf.flash) ∧
  t.saf.secFused = s.saf.secFused ∧ t.saf.revoked = s.saf.revoked ∧
  t.pwr.reason = reason ∧ t.pwr.prevReason = s.pwr.reason ∧ t.pwr.resets = satAdd 32 s.pwr.resets 1 ∧
  (∀ key, t.od key = if odPowerKept key = true then s.od key else odDefault key) ∧
  ∀ off, t.reg off = if (regFind off).any (fun r => r.clear == .power) = true then s.reg off else regDefault off

/-- A Function Level Reset, a Hot Reset and a link that goes down each cancel what the host has under way, disable its rings and its mastering of the bus, and
bring the device back to PREOP from ARMED, RUN and HOLD, with the request in progress answered; before PREOP the configuration write that asks for one has no
effect. A link comes up at the highest speed and width in common (R483, R487, R503, R504). -/
def functionLevelResets : Prop :=
  ∀ s : State, s.wf = true → s.awake →
    (s.dev.state.ready = true → Answers .functionLevelReset s fun t => flrDone s t) ∧
    (s.dev.state.ready = false → Answers .functionLevelReset s fun t => t = s) ∧
    Answers .hotReset s (fun t => flrDone s t ∧ t.pcie.linkUp = false) ∧
    ∀ (speed : BitVec 4) (width : BitVec 5), s.pwr.pcie = true →
      (speed ≠ 0 → width ≠ 0 → Answers (.pcieLinkChange true speed width) s fun t => t.pcie.linkUp = true ∧
        t.pcie.speed.toNat = min speed.toNat 5 ∧ t.pcie.width.toNat ∈ [1, 2, 4, 8, 16] ∧ t.pcie.width ≤ width ∧
        (∀ w ∈ [1, 2, 4, 8, 16], w ≤ width.toNat → w ≤ t.pcie.width.toNat) ∧ t.dev = s.dev ∧ t.dict = s.dict) ∧
      Answers (.pcieLinkChange false speed width) s fun t => t.pcie.linkUp = false ∧ (s.pcie.linkUp = true → flrDone s t)

/-- Every cause of a conventional reset makes one, with its own reason, and what does not reach its cause makes none (R503, R541, R548, R555, R556, R573, R578). Conjoined with `functionLevelResets`. -/
def Obligations.EveryKindOfReset : Prop :=
  functionLevelResets ∧
  (∀ s : State, s.awake →
    Answers .perstAssert s (resetBy 2 s) ∧ Answers .sysRefclkLoss s (resetBy 7 s) ∧
    (∀ v : W32, v.toNat % 65536 = 0xA502 → Answers (.glbResetWrite v) s (resetBy 6 s)) ∧
    (∀ v : W32, v.toNat % 65536 ≠ 0xA502 → Answers (.glbResetWrite v) s fun t => t = s) ∧
    (∀ mv : W16, 100 * mv.toNat ≤ 88 * s.vt → Answers (.vddResetLevel mv) s (resetBy 3 s)) ∧
    (∀ mv : W16, 88 * s.vt < 100 * mv.toNat → Answers (.vddResetLevel mv) s fun t => t.dev = s.dev ∧ t.dict = s.dict ∧
      t.pwr = { s.pwr with
        warnMin := if s.pwr.warning then min mv.toNat s.pwr.warnMin else s.pwr.warnMin
        readings := (s.dt, mv.toNat) :: s.pwr.readings.filter fun r => decide (s.dt < r.1 + 1000000) }) ∧
    (∀ rail : Fin 5, Answers (.railMonitorFall rail) s fun t => resetBy 4 s t ∧ t.pwr.rail = rail.val) ∧
    (s.saf.integrityPending = true → s.saf.cmdWritten = false → Answers .integrityResetTimeout s (resetBy 8 s)) ∧
    (s.saf.cmdWritten = true → Answers .integrityResetTimeout s fun t => t = s)) ∧
  (∀ s : State, s.dev.powerGood = false →
    Answers .powerOnReset s fun t => t.dev = { State.reset.dev with resetHeld := true } ∧ t.pwr = State.reset.pwr ∧ t.regs = [] ∧ t.dict = [] ∧ t.dt = 0 ∧
      t.dram = [] ∧ t.oasis = [] ∧ t.ledger = State.reset.ledger ∧ t.saf.flash = s.cutProgram.saf.flash ∧ t.saf.secFused = s.saf.secFused) ∧
  (∀ s : State, Answers .pwrGoodFall s fun t => t.dev.powerGood = false ∧ t.dev.resetHeld = true ∧ t.regs = [] ∧ t.dict = [] ∧ t.pwr = State.reset.pwr) ∧
  (∀ s : State, s.wf = true → s.dev.powerGood = true → s.pwr.therm.tripHeld = false → s.dev.state = .boot → s.pwr.pcie = false →
    Answers .resetEnd s fun t => t.dev.resetHeld = false ∧ t.dev.state = .boot ∧ t.pwr.pcie = true ∧ t.od Od.dramDramState = 1)

/-! ### The host's link, messages and device time -/

/-- May a message of a vector be sent at once (R496, R500)? -/
def sendable (s : State) (v : Nat) : Prop :=
  s.canDma = true ∧ s.pcie.msixEnable = true ∧ s.pcie.msixFunctionMask = false ∧ bitAt (s.reg (0x8000 + v * 16 + 12)) 0 = false

/-- The message of a vector, as its table entry gives it. -/
def vectorMessage (s : State) (v : Nat) : Out :=
  .msix v (s.reg (0x8000 + v * 16) + 2 ^ 32 * s.reg (0x8000 + v * 16 + 4)) (s.reg (0x8000 + v * 16 + 8))

/-- Configuration requests are retried before PREOP and answered from then on: a read with the identity and the BAR addresses, a write with what it keeps and
with the effect of Bus Master Enable, MSI-X, PowerState, PTM Enable and Initiate Function Level Reset; the Oasis window reads and writes Oasis where the access
is in bounds, a part of a granule with its poison kept, and
otherwise reports it; a message that was held back goes out once nothing holds it back (R341, R486 to R488, R490, R494, R496, R497, R500, R502, R504). The place
of each register of configuration space is the model's choice (log entry 123). -/
def Obligations.HostLinkAndMessages : Prop :=
  (∀ (s : State) (a : ConfigAccess), s.awake → s.pcie.linkUp = true → s.dev.state.ready = false → Answers (.configRequest a) s fun t => t = s.send .configRetry) ∧
  (∀ (s : State) (r : Nat), s.awake → s.pcie.linkUp = true → s.dev.state.ready = true →
    Answers (.configRequest (.read r)) s fun t => t.dev = s.dev ∧ t.dict = s.dict ∧ t.pcie = s.pcie ∧ t.regs = s.regs ∧
      ∃ v, t.out = s.out ++ [.configData v] ∧
        (r = 0 → v = 0x74801F3C) ∧ (r = 8 → v = 0x12000000 + bits identWord 7 0) ∧
        (r = 0x2C → v = 0x1F3C + 2 ^ 16 * (if Config.gradeE = true then 2 else 1)) ∧ (r = 4 → bitAt v 2 = s.pcie.busMaster) ∧
        (r = 0x0C → bits v 23 16 = 0) ∧ (r = 0x3C → bits v 15 8 = 0) ∧ (r = 0x30 → v = 0) ∧
        (r = 0x10 ∨ r = 0x18 → v = 4 + Nat.land (s.cfg r) 0xFC000000) ∧ (r = 0x20 → v = 4 + Nat.land (s.cfg r) 0xF8000000) ∧
        (r = 0x14 ∨ r = 0x1C ∨ r = 0x24 → v = Nat.land (s.cfg r) 0xFFFFFFFF)) ∧
  (∀ (s : State) (r : Nat) (v : W32), s.wf = true → keysRise s.pcie.cfg = true → s.awake → s.pcie.linkUp = true → s.dev.state.ready = true →
    Answers (.configRequest (.write r v)) s fun t => t.out.getLast? = some .configNormal ∧
      ((r ≠ Config.pcieCap + 8 ∨ bitAt v.toNat 15 = false) → t.cfg r = Nat.land v.toNat (cfgMask r) ∧ ∀ q, q ≠ r → t.cfg q = s.cfg q) ∧
      (r = 4 → t.pcie.busMaster = bitAt v.toNat 2) ∧
      (r ≠ 4 → r = Config.msixCap → t.pcie.msixEnable = bitAt v.toNat 31 ∧ t.pcie.msixFunctionMask = bitAt v.toNat 30) ∧
      (r ≠ 4 → r ≠ Config.msixCap → r = Config.pmCap + 4 → (v.toNat % 4 = 3 → t.pcie.d3hot = true) ∧ (v.toNat % 4 = 0 → t.pcie.d3hot = false)) ∧
      (r ≠ 4 → r ≠ Config.msixCap → r ≠ Config.pmCap + 4 → r = Config.ptmCap + 8 → t.pcie.ptmEnable = bitAt v.toNat 0) ∧
      (r ≠ 4 → r ≠ Config.msixCap → r ≠ Config.pmCap + 4 → r ≠ Config.ptmCap + 8 →
        if r = Config.pcieCap + 8 ∧ bitAt v.toNat 15 = true then flrDone s t else t = (s.setCfg r v.toNat).send .configNormal)) ∧
  (∀ (s : State) (e f : Bool), s.awake → s.pcie.linkUp = true → s.dev.state.ready = true →
    Answers (.configRequest (.msixControl e f)) s fun t =>
      t.out.getLast? = some .configNormal ∧ t.pcie.msixEnable = e ∧ t.pcie.msixFunctionMask = f ∧ t.dict = s.dict) ∧
  (∀ (s : State) (w : Bool), s.wf = true → s.awake →
    Answers (.bar0BadAccess w) s fun t => bitAt (t.reg Reg.glbIntStatus) 2 = true ∧ t.dict = s.dict ∧
      (w = false → Out.readData 0xFFFFFFFF ∈ t.out)) ∧
  (∀ (s : State) (o n : Nat), s.wf = true → s.awake → s.dev.state.ready = true →
    let a := s.reg Reg.glbOasisWin * 2 ^ 20 + o
    (o + n ≤ 2 ^ 25 → a + n ≤ oasisBytes → (n = 4 ∨ n = 8) → o % n = 0 →
      Answers (.oasisWindowAccess o n none) s fun t => t = (s.oasisSeen a n).send (.readBytes (s.readOasis a n) (s.oasisPoisoned a n))) ∧
    (∀ bs : List Byte, bs.length = n → o + n ≤ 2 ^ 25 → a + n ≤ oasisBytes → 1 ≤ n → a % 64 + n ≤ 64 →
      Answers (.oasisWindowAccess o n (some bs)) s fun t => t.oasis = (s.writeOasis a bs).oasis ∧ (n = 64 → t = s.writeOasis a bs) ∧
        (n ≠ 64 → t.oasisPoisoned (a / 64 * 64) 64 = s.oasisPoisoned (a / 64 * 64) 64)) ∧
    (∀ w, (2 ^ 25 < o + n ∨ oasisBytes < a + n) →
      Answers (.oasisWindowAccess o n w) s fun t => t.oasis = s.oasis ∧ bitAt (t.reg Reg.glbIntStatus) 2 = true)) ∧
  (∀ s : State, s.awake →
    Answers .d3hotToD0 s (fun t => t.pcie.d3hot = false ∧ t.dict = s.dict ∧
      ∀ v ∈ s.pcie.msixPending, sendable { s with pcie := { s.pcie with d3hot := false } } v → v ∉ t.pcie.msixPending) ∧
    ∀ on, s.dev.state.ready = true →
      Answers (.busMasterChange on) s fun t => t.pcie.busMaster = on ∧ t.dict = s.dict ∧
        ∀ v ∈ s.pcie.msixPending, sendable { s with pcie := { s.pcie with busMaster := on } } v → v ∉ t.pcie.msixPending) ∧
  (∀ (s : State) (v : Fin 512), s.wf = true → s.awake →
    let off := 0x8000 + v.val * 16 + 12
    Answers (.msixUnmask v) s (fun t => t.reg off = s.reg off / 2 * 2 ∧
      (v.val ∈ s.pcie.msixPending → sendable (s.setReg off (s.reg off / 2 * 2)) v → t.out = s.out ++ [vectorMessage s v] ∧ v.val ∉ t.pcie.msixPending)) ∧
    (v.val ∈ s.pcie.heldOff → Answers (.irqHoldoffExpiry v) s fun t => v.val ∉ t.pcie.heldOff ∧
      (sendable s v → t.out = s.out ++ [vectorMessage s v]) ∧ (¬ sendable s v → v.val ∈ t.pcie.msixPending)))

/-- Entering D3hot keeps the device state, the dictionary and all work inside the device: nothing changes but that the function is in D3hot, in which it issues no
DMA and sends no message (R505). -/
def Obligations.D3hotKeepsEverything : Prop :=
  ∀ s : State, s.awake → s.dev.state.ready = true →
    Answers .d3hotEntry s fun t => t = { s with pcie := { s.pcie with d3hot := true } } ∧ t.canDma = false ∧ ∀ v, ¬ sendable t v

/-- A failed read of host memory is recorded and ends what read it: a command record is refused and stops its queue (its place in the ring counts as read:
151, the model's choice), an argument block refuses the command that starts, or is left for the start of the one that run-ahead reached, and an extent
ends its copy (R375, R501). A PTM dialogue measures the offset and the delay, and failures put the time into holdover (R502). -/
def Obligations.HostErrorsAndPtm : Prop :=
  (∀ (s : State) (kind : HostErrorKind) (a : W64), s.wf = true → s.awake → s.canDma = true → s.dev.state.ready = true →
    (∀ q : QueueIx, s.dev.state ≠ .safe → bitAt (s.reg (Reg.cqStatus q)) 1 = false → s.reg (Reg.cqSlots q) ≠ 0 → s.reg (Reg.cqPi q) ≠ s.reg (Reg.cqCi q) →
      s.cmd.cmds.length < 4096 →
      Answers (.hostAccessError (.commandRecord q) kind a) s fun t => t.reg (Reg.cqStatus q) = 10 ∧
        t.reg (Reg.cqCi q) = (s.reg (Reg.cqCi q) + 1) % 2 ^ 32 ∧ t.cmd.cmds.length = s.cmd.cmds.length + 1 ∧
        (∃ c ∈ t.cmd.cmds, c.queue = q.val ∧ c.index = s.reg (Reg.cqCi q) ∧ c.stage = .done 0x0A 0) ∧
        t.reg Reg.cmdRefused = satAdd 64 (s.reg Reg.cmdRefused) 1 ∧ (∃ e ∈ t.events, e.source = 3 ∧ e.type = 6 ∧ e.dt = s.dt) ∧
        t.reg Reg.glbDmaErrAddrLo = a.toNat % 2 ^ 32 ∧ t.reg Reg.glbDmaErrAddrHi = a.toNat / 2 ^ 32 ∧
        t.reg Reg.glbDmaErrors = satAdd 64 (s.reg Reg.glbDmaErrors) 1) ∧
    (∀ (q : QueueIx) (c : Cmd), s.startable q 0 = some c → bitAt (c.field 16 8) 63 = true → c.job = none → c.argsBad = none →
      Answers (.hostAccessError (.argumentBlock q) kind a) s fun t => inFlight t c (.done 0x0A 0) ∧
        t.reg Reg.cmdRefused = satAdd 64 (s.reg Reg.cmdRefused) 1) ∧
    (∀ (q : QueueIx) (c : Cmd), s.startable q 0 = none → s.dev.state.live = true → runaheadJob s q = some c → bitAt (c.field 16 8) 63 = true →
      Answers (.hostAccessError (.argumentBlock q) kind a) s fun t => t.cmd.cmds.length = s.cmd.cmds.length ∧
        ∀ x ∈ t.cmd.cmds, x.queue = c.queue → x.index = c.index → x.argsBad = some 0x0A) ∧
    (∀ q : QueueIx, s.argsRead q = none → Answers (.hostAccessError (.argumentBlock q) kind a) s fun t => t = s) ∧
    (∀ op, s.cmd.regCopy = some op → op.readsHost = true →
      Answers (.hostAccessError (.copyExtent .register) kind a) s fun t => t.cmd.regCopy = none ∧ t.reg Reg.streamCopyStatus = 8 ∧
        ∀ x, t.dram.byte? x = if (op.dst.any fun e => e.2.2 == 0 && decide (e.1 ≤ x) && decide (x < e.1 + e.2.1)) = true then none else s.dram.byte? x) ∧
    (∀ (tag : BitVec 12) (c : Cmd) (op : CopyOp), s.cmdOf tag.toNat = some c → c.copy = some op → op.readsHost = true → c.stage = .running →
      Answers (.hostAccessError (.copyExtent (.command tag)) kind a) s fun t =>
        ∃ x ∈ t.cmd.cmds, x.queue = c.queue ∧ x.index = c.index ∧ x.stage = .done 0x0A 0)) ∧
  (∀ s : State, s.awake → s.dev.state.ready = true → s.od Od.crvTimeSource = 2 → s.pcie.ptmEnable = true → s.pcie.linkUp = true → s.pcie.ptmT1 = none →
    Answers .ptmDialogueStart s fun t => t.pcie.ptmT1 = some s.dt ∧ t.out = s.out ++ [.ptmRequest s.dt]) ∧
  (∀ (s : State) (t1 : Nat) (t2 t3 : W64), s.wf = true → s.awake → s.pcie.ptmT1 = some t1 →
    let d : Int := (((s.dt : Int) - t1) - ((t3.toNat : Int) - t2.toNat)) / 2
    let e : Int := ((t1 : Int) + d) - t2.toNat
    Answers (.ptmDialogueDone t2 t3) s fun t => t.reg Reg.glbPtmOffset = ofSigned 32 e ∧ t.reg Reg.glbPtmDelay = ofSigned 32 d ∧
      t.od Od.crvTimeOffset = ofSigned 32 e ∧ t.pcie.ptmT1 = none ∧ t.pcie.ptmFails = 0 ∧
      t.pcie.ptmGood = (if -100 ≤ e ∧ e ≤ 100 then s.pcie.ptmGood + 1 else 0) ∧
      (15 ≤ s.pcie.ptmGood → -100 ≤ e → e ≤ 100 → t.od Od.crvTimeState = 2) ∧
      t.dt = if s.dev.state = .preop ∧ e < -10000 then (s.dt + (-e).toNat) % 2 ^ 64 else s.dt) ∧
  (∀ (s : State) (t1 : Nat), s.awake → s.pcie.ptmT1 = some t1 →
    Answers .ptmDialogueFail s fun t => t.pcie.ptmT1 = none ∧ t.pcie.ptmFails = s.pcie.ptmFails + 1 ∧ t.pcie.ptmGood = 0 ∧
      t.reg Reg.glbPtmFails = satAdd 32 (s.reg Reg.glbPtmFails) 1 ∧ (2 ≤ s.pcie.ptmFails → t.od Od.crvTimeState = 3)) ∧
  (∀ (s : State) (on : Bool), s.awake → s.dev.state.ready = true →
    Answers (.ptmEnableChange on) s fun t => t.pcie.ptmEnable = on ∧
      (s.pcie.ptmEnable = true → on = false → s.od Od.crvTimeSource = 2 → t.od Od.crvTimeState = 3) ∧ (on = true → t.dict = s.dict))

/-! ### Trimming -/

/-- A unit becomes due by command, by its turn or by errors; the item that comes next takes its unit and runs; its end returns the unit, with the faulty columns of
an OPE excluded by its map where two exclusions suffice; a forced row repair is counted as such; while a supply warning holds, only that starts (a forced item
of another kind waits: 146, the model's reading); a unit that waits too long is reported once (R510 to R518, R532, R534, R544). -/
def Obligations.TrimmingProceeds : Prop :=
  (∀ (s : State) (v : W32), s.wf = true → s.awake → s.dev.state.ready = true → bitAt v.toNat 16 = true → bitAt (s.reg Reg.trimCmdStatus) 0 = false →
    trimUnitOk (bits v.toNat 2 0) (bits v.toNat 11 4) = true →
    (bitAt v.toNat 17 = false →
      let x := s.trimCmdItem v.toNat false
      Answers (.trimCmdMakeDue v) s fun t =>
        if s.odFlag Od.trimTrimEnable = false then t.reg Reg.trimCmdStatus = 8 ∧ t.trim = s.trim
        else if s.trim.running.any (fun y => y.is x.kind x.unit x.addr) = true then t.reg Reg.trimCmdStatus = 6 ∧ t.trim = s.trim
        else t.reg Reg.trimCmdStatus = 0 ∧ (t.trim.due.any fun y => y.is x.kind x.unit x.addr) = true) ∧
    (bitAt v.toNat 17 = true → s.dev.state ≠ .safe →
      let x := s.trimCmdItem v.toNat true
      Answers (.trimCmdForce v) s fun t =>
        if (s.trim.running.any fun y => y.is x.kind x.unit x.addr) = true ∨ x.kind = 4 ∧ s.bankBusy x.addr = true then
          t.reg Reg.trimCmdStatus = 6 ∧ t.trim = s.trim
        else t.reg Reg.trimForced = satAdd 64 (s.reg Reg.trimForced) 1 ∧
          if s.trimReady x = true then t.reg Reg.trimCmdStatus = 0 ∧ { x with took := s.dt } ∈ t.trim.running ∧
            (x.kind = 4 → t.od Od.trimForcedRepairs = satAdd (odWidth Od.trimForcedRepairs) (s.od Od.trimForcedRepairs) 1 ∧
              ∃ e ∈ t.events, e.source = 8 ∧ e.type = 0x12 ∧ e.dt = s.dt)
          else t.reg Reg.trimCmdStatus = 1 ∧ x ∈ t.trim.due)) ∧
  (∀ (s : State) (x : TrimItem), s.pwr.warning = true → ¬ (x.forced = true ∧ x.kind = 4) → s.trimReady x = false ∧ s.trimEligible x = false) ∧
  (∀ s : State, s.awake → s.od (Od.trimKindPeriod 0) ≠ 0 →
    Answers .trimRotationDue s fun t => t.trim.turn = (s.trim.turn + 1) % 256 ∧ (t.trim.due.any fun y => y.is 0 (s.trim.turn % 256) 0) = true) ∧
  (∀ (s : State) (e : EngineIx), s.awake →
    Answers (.d2dErrorThreshold e) s fun t => satAdd 32 (s.reg (Reg.trimD2dErr e)) 16 ≤ t.reg (Reg.trimD2dErr e) ∧
      (t.trim.due.any fun y => y.is (if e.val < 4 then 2 else 3) (if e.val < 4 then e.val else e.val - 4) 0) = true) ∧
  (∀ (s : State) (x : TrimItem), s.awake → s.trimNext = some x → s.trimReady x = true →
    Answers .trimItemStart s fun t => (∀ y ∈ t.trim.due, y.is x.kind x.unit x.addr = false) ∧
      (t.trim.running.any fun y => y.is x.kind x.unit x.addr) = true ∧ (x.kind ≠ 4 ∨ x.forced = false → { x with took := s.dt } ∈ t.trim.running) ∧
      (x.kind = 1 → (t.core (coreIx x.unit)).taken = true)) ∧
  (∀ (s : State) (k : Fin 6) (u : Nat) (faulty : List Nat) (out : W32) (x : TrimItem), s.awake →
    (s.trim.running.find? fun x => x.kind == k.val && x.unit == u) = some x →
    Answers (.trimItemDone k u faulty out) s fun t => (k ≠ 4 → t.trim.running = s.trim.running.erase x) ∧ (∀ y ∈ s.trim.running.erase x, y ∈ t.trim.running) ∧ (∃ e ∈ t.events, e.source = 8 ∧ e.type = 0x10 ∧ e.dt = s.dt) ∧
      (k = 0 → keysRise s.trim.map = true → (faulty.filter fun c => decide (c < 34)).eraseDups.length ≤ 2 → ∀ f ∈ faulty, f < 34 → f = (t.colMap u).1 ∨ f = (t.colMap u).2)) ∧
  (∀ (s : State) (k : Fin 6) (u : Nat) (x : TrimItem), s.awake → (s.trim.due.find? fun x => x.kind == k.val && x.unit == u && !x.overdue) = some x →
    Answers (.trimOverdue k u) s fun t => { x with overdue := true } ∈ t.trim.due ∧ t.trim.due.length = s.trim.due.length ∧
      t.reg Reg.trimOverdueEvents = satAdd 64 (s.reg Reg.trimOverdueEvents) 1 ∧ ∃ e ∈ t.events, e.source = 8 ∧ e.type = 0x11 ∧ e.dt = s.dt) ∧
  (∀ (s : State) (k : CoreIx) (v : Nat), s.wf = true → s.awake →
    Answers (.telemetrySample [(Od.coreMacUtil k, v)]) s fun t => t.od (Od.coreMacUtil k) = min v 1000 ∧ t.regs = s.regs)

/-! ### Supplies, power and heat -/

/-- A dip of VDD_CORE below its warning level stretches the clocks and lowers every cap until it has cleared; the voltage follows the regulator, and falls only once the clocks have come down (R542, R544 to R546,
R549). -/
def suppliesWarnAndClear : Prop :=
  (∀ (s : State) (mv : W16), s.wf = true → s.awake → 100 * mv.toNat < 94 * s.vt →
    Answers (.supplyWarning mv) s fun t => t.pwr.dip = true ∧ t.pwr.stretchSince.isSome = true ∧
      (s.dev.state.ready = true → s.pwr.warning = false →
        t.pwr.warning = true ∧ t.pwr.warnSince = s.dt ∧ (∀ k : CoreIx, t.pwr.warnCaps[k] = max 800 (s.freqCap k - s.od Od.vddWarnStep)) ∧ ∃ e ∈ t.events, e.source = 7 ∧ e.type = 0x10 ∧ e.dt = s.dt) ∧
      (s.dev.state.ready = false ∨ s.pwr.warning = true → t.pwr.warning = s.pwr.warning ∧ t.pwr.warnCaps = s.pwr.warnCaps)) ∧
  (∀ (s : State) (mv : W16), s.wf = true → s.awake → 94 * s.vt ≤ 100 * mv.toNat →
    Answers (.supplyWarning mv) s fun t => t.events = s.events ∧ t.dict = s.dict ∧ t.reg Reg.pwrVdd = s.vt + 2 ^ 16 * mv.toNat ∧ t.vddMeasured ≤ mv.toNat ∧
      t.pwr = { s.pwr with
        warnMin := if s.pwr.warning then min mv.toNat s.pwr.warnMin else s.pwr.warnMin
        readings := (s.dt, mv.toNat) :: s.pwr.readings.filter fun r => decide (s.dt < r.1 + 1000000) }) ∧
  (∀ (s : State) (mv : W16), s.awake → 95 * s.vt < 100 * mv.toNat →
    Answers (.stretchEnd mv) s fun t => t.pwr.dip = false ∧ (s.pwr.limitFast = false → t.pwr.stretchSince = none) ∧ t.pwr.warning = s.pwr.warning) ∧
  (∀ (s : State) (quiet : W32) (mv : W16), s.wf = true → s.awake → s.pwr.warning = true → s.pwr.dip = false →
    (10000 ≤ quiet.toNat → Answers (.warningClear quiet mv) s fun t =>
      let ns := min (s.dt - s.pwr.warnSince) 0xFFFFFFFF
      t.pwr.warning = false ∧ (∀ k : CoreIx, t.pwr.warnCaps[k] = 2200) ∧ t.reg Reg.pwrWarnLast = ns ∧
      t.od Od.vddWarnLongest = max (s.od Od.vddWarnLongest) ns ∧
      ∃ e ∈ t.events, e.source = 7 ∧ e.type = 0x11 ∧ e.dt = s.dt ∧ e.body.take 6 = leBytes 4 ns ++ leBytes 2 (min mv.toNat s.pwr.warnMin)) ∧
    (quiet.toNat < 10000 → Answers (.warningClear quiet mv) s fun t => t = s)) ∧
  (∀ (s : State) (mv : W16), s.awake → s.pwr.pcie = true →
    Answers (.avsTargetChange mv) s fun t =>
      if 650 ≤ mv.toNat ∧ mv.toNat ≤ 850 ∧ mv.toNat % 5 = 0 ∧ (s.od Od.vddAvsMode = 0 ∨ mv.toNat = s.od Od.vddVddFixedMv) ∧
          (s.pwr.avsReached ≤ mv.toNat ∨ ∀ k : CoreIx, s.pwr.cores.getLsbD k = true → (s.core k).mhz ≤ s.coreMhz k) then
        t = ({ s with pwr := { s.pwr with avsRequested := some mv.toNat } }).send (.avsRequest mv.toNat)
      else t = s) ∧
  (∀ (s : State) (mv : Nat) (reading : W16), s.awake → s.pwr.avsRequested = some mv →
    Answers .avsTargetReached s (fun t => t.pwr.avsRequested = none ∧ t.pwr.avsReached = mv ∧ t.pwr.avsSettle = some (s.pwr.avsReached, s.dt) ∧
      800 ≤ t.pwr.avsCap ∧ t.pwr.avsCap ≤ 2200 ∧ t.pwr.avsCap % 50 = 0 ∧ (s.od Od.vddAvsMode = 0 → t.pwr.avsCap = 2200)) ∧
    Answers (.avsTimeout reading) s fun t => t.pwr.avsRequested = none ∧ t.pwr.avsReached = s.pwr.avsReached ∧ 800 ≤ t.pwr.avsCap ∧ t.pwr.avsCap ≤ 2200 ∧
      t.pwr.avsCap % 50 = 0 ∧ ∃ e ∈ t.events, e.source = 7 ∧ e.type = 0x15 ∧ e.dt = s.dt)

/-- The power limits act on the estimate and on its mean; a sample of the sensors trips the device, brings it to SAFE, or ends a trip; the thermal caps follow the
sensors that are too hot (R550, R553, R554). Conjoined with `suppliesWarnAndClear`. -/
def Obligations.SuppliesPowerAndHeat : Prop :=
  suppliesWarnAndClear ∧
  (∀ (s : State) (w : W16), s.wf = true → s.awake →
    Answers (.powerEstimate w) s fun t => t.od Od.plPowerPeak = max (s.od Od.plPowerPeak) w.toNat ∧
      t.pwr.limitFast = if 400 < w.toNat then true else if w.toNat ≤ 380 then false else s.pwr.limitFast) ∧
  (∀ (s : State) (w : W16), s.awake →
    Answers (.sustainedCapStep w) s fun t => t.pwr.lastMean = w.toNat ∧ t.pwr.limiterCap =
      if s.od Od.plPlSustained < w.toNat then max 800 (s.pwr.limiterCap - 50)
      else if 100 * w.toNat < 95 * s.od Od.plPlSustained then min 2200 (s.pwr.limiterCap + 50) else s.pwr.limiterCap) ∧
  (∀ s : State, s.awake →
    Answers .thermalCapStep s fun t => ∀ k : CoreIx, t.pwr.therm.caps[k] =
      if s.pwr.therm.stackCap = true ∨ (∃ n ∈ s.pwr.therm.capSensors, 32 ≤ n) ∨ k.val ∈ s.pwr.therm.capSensors then max 800 (s.pwr.therm.caps[k] - 50)
      else min 2200 (s.pwr.therm.caps[k] + 50)) ∧
  (∀ (s : State) (junction stack : List W16),
    let temp := fun (l : List W16) (n : Nat) => toSigned 16 (l.getD n 0).toNat
    (s.pwr.therm.tripHeld = true →
      Answers (.thermalSample junction stack) s fun t =>
        t.pwr.therm.tripHeld = true ↔ (∃ n, n < 48 ∧ 1600 ≤ temp junction n) ∨ ∃ n, n < 16 ∧ 1600 ≤ temp stack n) ∧
    (s.pwr.therm.tripHeld = false → s.awake →
      ((∃ n, n < 48 ∧ s.sensorValid n = true ∧ 120 * 16 < temp junction n) ∨ (∃ n, n < 16 ∧ 105 * 16 < temp stack n) →
        Answers (.thermalSample junction stack) s fun t => resetBy 5 s t ∧ t.pwr.therm.tripHeld = s.dev.powerGood) ∧
      ((∀ n, n < 48 → temp junction n ≤ 120 * 16) → (∀ n, n < 16 → temp stack n ≤ 105 * 16) →
        Answers (.thermalSample junction stack) s fun t => t.dev.resetHeld = false ∧ t.dev.state = s.dev.state ∧
          ((∃ n, n < 48 ∧ s.sensorValid n = true ∧ 110 * 16 < temp junction n) → s.dev.state.ready = true → s.dev.state ≠ .safe → s.dev.safeCause = none →
            t.dev.safeCause = some 4))))

/-! ### Firmware, the ledger and registers -/

/-- A write of SAF_CMD with GO gives this operation while none runs, after AUTH. -/
def safGo (s : State) (op : Nat) (v : W32) : Prop :=
  s.dev.state.ready = true ∧ s.saf.op = none ∧ bitAt v.toNat 16 = true ∧ v.toNat % 16 = op

/-- Each firmware operation starts where its arguments allow it and ends with its result; SEC_FUSED and REVOKED only grow, and a slot is programmed only with an image
that has verified. A mismatch of a loaded memory brings the device to SAFE, and a report signs the device's state (R573, R576 to R579). -/
def Obligations.FirmwareOperations : Prop :=
  (∀ (s : State) (v : W32), s.wf = true → s.awake →
    let slot := bits v.toNat 5 4
    let key := bits v.toNat 15 8
    (safGo s 1 v → Answers (.safVerify v) s fun t => match s.loadedImage with
      | some b => t.saf.op = some ⟨1, slot, key, b, s.loadedClean, false⟩ ∧ t.reg Reg.safCmdStatus = 1
      | none => t.saf.op = none ∧ t.reg Reg.safCmdStatus = 4) ∧
    (safGo s 2 v → Answers (.safProgram v) s fun t =>
      if 2 < slot then t.saf.op = none ∧ t.reg Reg.safCmdStatus = 4
      else if slot = 2 ∧ key ≠ 0x5A then t.saf.op = none ∧ t.reg Reg.safCmdStatus = 10
      else match s.loadedImage with
        | some b => t.saf.op = some ⟨2, slot, key, b, s.loadedClean, s.verifyBytes b s.loadedClean == 1⟩ ∧ t.reg Reg.safCmdStatus = 1
        | none => t.saf.op = none ∧ t.reg Reg.safCmdStatus = 4) ∧
    (safGo s 3 v → Answers (.safSetBoot v) s fun t =>
      if slot ≤ 1 then t.saf.op = some ⟨3, slot, key, [], true, false⟩ ∧ t.reg Reg.safCmdStatus = 1
      else t.saf.op = none ∧ t.reg Reg.safCmdStatus = 4) ∧
    (safGo s 4 v → Answers (.safReboot v) s fun t =>
      if key = 0xA5 then t.dev.state = .boot ∧ t.dev.resetHeld = true ∧ t.pwr.reason = 8
      else t.dev = s.dev ∧ t.saf.op = none ∧ t.reg Reg.safCmdStatus = 10) ∧
    (safGo s 5 v → Answers (.safCommitVersion v) s fun t =>
      if s.dev.state = .preop then t.saf.op = some ⟨5, slot, key, [], true, false⟩ ∧ t.reg Reg.safCmdStatus = 1
      else t.saf.op = none ∧ t.reg Reg.safCmdStatus = 2) ∧
    (∀ i, safGo s 6 v → s.dev.state = .preop → s.saf.image = some i → Answers (.safRevoke v) s fun t =>
      if key < i.keyIndex then t.saf.op = some ⟨6, slot, key, [], true, false⟩ ∧ t.reg Reg.safCmdStatus = 1
      else t.saf.op = none ∧ t.reg Reg.safCmdStatus = 4 ∧ t.saf.revoked = s.saf.revoked) ∧
    (safGo s 7 v → Answers (.safAttest v) s fun t =>
      t.od Od.safAttestState = 1 ∧ t.saf.attesting = some ((List.range 8).flatMap fun i => leBytes 4 (s.reg (Reg.safNonce i))))) ∧
  (∀ (s : State) (ok : Bool) (o : SafOp), s.wf = true → s.awake → s.saf.op = some o →
    Answers (.safOpDone ok) s fun t => t.saf.op = none ∧ (∃ e ∈ t.events, e.source = 9 ∧ e.type = 0x11 ∧ e.dt = s.dt) ∧
      (o.op = 1 → t.saf.flash = s.saf.flash ∧ t.reg Reg.safCmdStatus = 2 * (if s.verifyBytes o.image o.clean = 1 then 0 else 3) + 2 ^ 8 * s.verifyBytes o.image o.clean) ∧
      (o.op = 2 → s.verifyBytes o.image o.clean ≠ 1 → t.saf.flash = s.saf.flash) ∧
      (o.op = 2 → s.verifyBytes o.image o.clean = 1 → ok = true → t.readFlash (slotBase o.slot) o.image.length = o.image) ∧
      (o.op = 5 → t.saf.secFused = max s.saf.secFused ((s.saf.image.map fun i => i.secVersion).getD 0) ∧ t.reg Reg.safCmdStatus = 0) ∧
      (o.op = 6 → t.saf.revoked = s.saf.revoked ||| BitVec.ofNat 4 (2 ^ o.key) ∧ t.reg Reg.safCmdStatus = 0) ∧
      (o.op ≠ 5 → t.saf.secFused = s.saf.secFused) ∧ (o.op ≠ 6 → t.saf.revoked = s.saf.revoked)) ∧
  (∀ (s : State) (nonce : List Byte), s.wf = true → s.awake → s.saf.attesting = some nonce →
    let body := s.reportBody nonce (s.blobView Od.trimTrimMap)
    Answers .attestationDone s fun t => t.saf.attesting = none ∧ t.od Od.safAttestState = 2 ∧
      t.blob Od.safAttestReport = body ++ padTo 1280 (Config.falconSign s.saf.aliasSeed body)) ∧
  (∀ (s : State) (target : Byte), s.awake → s.dev.state.ready = true →
    Answers (.integrityCheck (some target)) s (fun t => t.saf.integrityPending = true ∧ t.saf.cmdWritten = false ∧
      (s.dev.state ≠ .safe → s.dev.safeCause = none → t.dev.safeCause = some 6)) ∧
    Answers (.integrityCheck none) s fun t => t = s)

/-- The ledger's entries leave in SEQ order: each into the next slot of the host's ring, while it has room and the device may write; the host frees slots, and
reads any entry still held through the window (R369, R586, R587). -/
def Obligations.LedgerEntriesLeaveInOrder : Prop :=
  (∀ (s : State) (b : List Byte), s.wf = true → s.awake → s.dev.state.ready = true → s.canDma = true → s.od Od.ledgerSpillSlots ≠ 0 →
    (s.reg Reg.ledgerSpillPi + 2 ^ 32 - s.reg Reg.ledgerSpillCi) % 2 ^ 32 < s.od Od.ledgerSpillSlots →
    let next := max s.ledger.spilled (s.ledger.count - ledgerCapacity)
    let pi := s.reg Reg.ledgerSpillPi
    let mirror := s.reg Reg.ledgerSpillMirrorLo + 2 ^ 32 * s.reg Reg.ledgerSpillMirrorHi
    s.ledgerEntry next = some b →
    Answers .ledgerSpillCopy s fun t => t.reg Reg.ledgerSpillPi = (pi + 1) % 2 ^ 32 ∧ t.ledger.spilled = next + 1 ∧ t.ledger.entries = s.ledger.entries ∧
      t.hostMem = (let m := s.hostMem.write (s.od Od.ledgerSpillBase + pi % s.od Od.ledgerSpillSlots * 128) b
        if mirror = 0 then m else m.write mirror (leBytes 4 ((pi + 1) % 2 ^ 32)))) ∧
  (∀ s : State, s.awake → s.od Od.ledgerSpillSlots ≠ 0 →
    (s.od Od.ledgerSpillSlots ≤ (s.reg Reg.ledgerSpillPi + 2 ^ 32 - s.reg Reg.ledgerSpillCi) % 2 ^ 32 ∨ s.canDma = false) →
    Answers .ledgerSpillCopy s fun t => t = s) ∧
  (∀ (s : State) (ci : W32), s.wf = true → s.awake → s.dev.state.ready = true →
    let pi := s.reg Reg.ledgerSpillPi
    let old := s.reg Reg.ledgerSpillCi
    Answers (.ledgerSpillCiWrite ci) s fun t =>
      if (ci.toNat + 2 ^ 32 - old) % 2 ^ 32 ≤ (pi + 2 ^ 32 - old) % 2 ^ 32 then t = s.setReg Reg.ledgerSpillCi ci.toNat
      else t.reg Reg.ledgerSpillCi = old ∧ bitAt (t.reg Reg.ledgerIntStatus) 3 = true) ∧
  (∀ (s : State) (seq : W64), s.wf = true → s.awake → s.dev.state.ready = true →
    Answers (.ledgerReadSeqWrite seq) s fun t => match s.ledgerEntry seq.toNat with
      | some b => t.ledger = { s.ledger with readWindow := b } ∧ t.reg Reg.ledgerReadStatus = 1
      | none => t.ledger = s.ledger ∧ t.reg Reg.ledgerReadStatus = 0)

/-- Is a register reached by its access code alone, after AUTH: a word of BAR0 outside the MSI-X tables, in a block that is open? -/
def openReg (s : State) (off : Nat) (r : RegRow) : Prop :=
  s.dev.state.ready = true ∧ s.blockClosed off = false ∧ off % 4 = 0 ∧ (off < 0x8000 ∨ 0xA040 ≤ off) ∧ regFind off = some r

/-- A register is written and read by its access code: RW stores the defined bits of a legal value, W1C clears the bits written as 1, RC clears when it is read
(a peak starts again at the level that stands, R96, R129), and the two words of a 64-bit counter are of one moment (R4, R7, R226, R490). A core's PARK and
FREQ_TARGET are its dictionary entries (R218, R222). -/
def Obligations.RegistersActByTheirAccess : Prop :=
  (∀ (s : State) (off : Nat) (v : W64) (r : RegRow), s.wf = true → s.awake → openReg s off r →
    let w := v.toNat % 2 ^ 32
    ownWrite r.base (r.index off) w s = none →
    (r.access = .rw → (r.preopOnly || ringBaseRows.contains r.base) = false ∨ s.dev.state = .preop → regRefuses r.base (Nat.land w r.mask) = false →
      Answers (.genericRegisterWrite ⟨false, off, 4⟩ v) s fun t =>
        t.reg off = Nat.land w r.mask ∧ (blockAt off = none → t = s.setReg off (Nat.land w r.mask))) ∧
    (r.access = .rw → ((r.preopOnly || ringBaseRows.contains r.base) = true ∧ s.dev.state ≠ .preop ∨ regRefuses r.base (Nat.land w r.mask) = true) →
      Answers (.genericRegisterWrite ⟨false, off, 4⟩ v) s fun t => t = s) ∧
    (r.access = .w1c →
      Answers (.genericRegisterWrite ⟨false, off, 4⟩ v) s fun t => t.reg off = s.reg off - Nat.land (s.reg off) (Nat.land w r.mask) ∧ t.dict = s.dict) ∧
    (r.access = .ro ∨ r.access = .rc → Answers (.genericRegisterWrite ⟨false, off, 4⟩ v) s fun t => t = s)) ∧
  (∀ (s : State) (off : Nat) (r : RegRow), s.wf = true → s.awake → openReg s off r → r.access = .rc →
    r.base ≠ Reg.fsTblData 0 → r.base ≠ Reg.coreTmData 0 →
    Answers (.registerReadClear ⟨false, off, 4⟩) s fun t =>
      t.out = s.out ++ [.readData (s.regView off)] ∧ t.reg off = s.levelNow off ∧ t.dict = s.dict) ∧
  (∀ (s : State) (off : Nat) (r : RegRow), s.awake → openReg s off r → r.access = .ro → r.size = 8 → off % 8 = 0 →
    plainWideRows.contains r.base = false → r.base ≠ Reg.fsTblData 0 → r.base ≠ Reg.coreTmData 0 →
    Answers (.lowWordRead ⟨false, off, 4⟩) s fun t => t.out = s.out ++ [.readData (s.regView off % 2 ^ 32)] ∧ t.regs = s.regs ∧
      ∀ u : State, t.pcie.counterLatch = u.pcie.counterLatch → u.awake → openReg u (off + 4) r →
        Answers (.lowWordRead ⟨false, off + 4, 4⟩) u fun w => w.out = u.out ++ [.readData (s.regView off / 2 ^ 32 % 2 ^ 32)]) ∧
  (∀ (s : State) (k : CoreIx) (v : W32), s.wf = true → s.awake →
    (s.odWriteCheck .host (Od.corePark k) 1 (v.toNat % 2) = .ok → Answers (.coreParkWrite k v) s fun t => t.od (Od.corePark k) = v.toNat % 2) ∧
    (s.odWriteCheck .host (Od.coreFreqTarget k) 2 (v.toNat % 2 ^ 12) = .ok →
      Answers (.freqTargetWrite k v) s fun t => t.od (Od.coreFreqTarget k) = v.toNat % 2 ^ 12) ∧
    (s.odWriteCheck .host (Od.coreFreqTarget k) 2 (v.toNat % 2 ^ 12) ≠ .ok → Answers (.freqTargetWrite k v) s fun t => t = s)) ∧
  (∀ (s : State) (a : HostAccess) (v : W64), s.awake →
    (s.dev.state.ready = false → Answers (.genericRegisterWrite a v) s fun t => t = s) ∧
    (s.wf = true → s.dev.state.ready = true → accessWindow a = false → accessWords a = none →
      Answers (.genericRegisterWrite a v) s (fun t => bitAt (t.reg Reg.glbIntStatus) 2 = true ∧ t.dict = s.dict) ∧
      Answers (.lowWordRead a) s fun t => .readData 0xFFFFFFFF ∈ t.out.drop s.out.length ∧ bitAt (t.reg Reg.glbIntStatus) 2 = true ∧ t.dict = s.dict)) ∧
  (∀ (s : State) (off : Nat) (v : W64), off % 8 = 0 →
    exec (.genericRegisterWrite ⟨false, off, 8⟩ v) s =
      (match exec (.genericRegisterWrite ⟨false, off, 4⟩ v) s with
        | .next t => exec (.genericRegisterWrite ⟨false, off + 4, 4⟩ (v >>> 32)) t
        | e => e) ∧
    exec (.lowWordRead ⟨false, off, 8⟩) s =
      match exec (.lowWordRead ⟨false, off, 4⟩) s with
        | .next t => exec (.lowWordRead ⟨false, off + 4, 4⟩) t
        | e => e) ∧
  ∀ (s : State) (q : QueueIx) (v : W64), s.awake → s.dev.state.ready = true → s.dev.state ≠ .safe →
    let w := v.setWidth 32
    let page := q.val * 0x1000
    exec (.genericRegisterWrite ⟨true, page, 4⟩ v) s = exec (.cqPiWrite q w) s ∧
    exec (.genericRegisterWrite ⟨true, page + 4, 4⟩ v) s = exec (.ringCiWrite (.completion q) w) s ∧
    exec (.genericRegisterWrite ⟨true, 0x40000 + page, 4⟩ v) s = exec (.ringCiWrite (.result q) w) s ∧
    exec (.genericRegisterWrite ⟨true, 0x80000, 4⟩ v) s = exec (.ringCiWrite .event w) s ∧
    exec (.genericRegisterWrite ⟨true, 0x80004, 4⟩ v) s = exec (.ringCiWrite .stats w) s ∧
    exec (.genericRegisterWrite ⟨false, Reg.cqPi q, 4⟩ v) s = exec (.cqPiWrite q w) s ∧
    exec (.lowWordRead ⟨true, page, 4⟩) s = exec (.lowWordRead ⟨false, Reg.cqPi q, 4⟩) s
end

