-- ==== Sys2Proof/Laws/Bytes.lean ====
section
/-! SUPPORT. Lengths of byte strings: little-endian numbers, padded fields, digests and ledger entries. -/

namespace Sys2Proof.Machine

@[simp] theorem leBytes_length (k n : Nat) : (leBytes k n).length = k := by
  induction k generalizing n with
  | zero => rfl
  | succ k ih => simp [leBytes, ih]

@[simp] theorem padTo_length (n : Nat) (bs : List Byte) : (padTo n bs).length = n := by
  simp only [padTo, List.length_append, List.length_take, List.length_replicate]
  omega

/-- A field that is full already is not changed. -/
theorem padTo_full (bs : List Byte) : padTo bs.length bs = bs := by simp [padTo]

theorem turn_length (n : Nat) (p : List W64) : (turn n p).length = p.length := by simp [turn]; omega

theorem mixColumns_length (a : List W64) (h : a.length = 25) : (mixColumns (planesOf 5 a)).flatten.length = 25 := by
  simp [mixColumns, planesOf, turn_length, h]

theorem walkLanes_length (n t x y : Nat) (hand : W64) (a : List W64) : (walkLanes n t x y hand a).length = a.length := by
  induction n generalizing t x y hand a with
  | zero => rfl
  | succ n ih => simp [walkLanes, ih]

theorem bendPlane_length (p : List W64) : (bendPlane p).length = p.length := by simp [bendPlane, turn_length]

theorem bent_length (a : List W64) (h : a.length = 25) : ((planesOf 5 a).map bendPlane).flatten.length = 25 := by
  simp [planesOf, bendPlane_length, h]

theorem permuteRounds_length (n r : Nat) (a : List W64) (h : a.length = 25) : (permuteRounds n r a).length = 25 := by
  induction n generalizing r a with
  | zero => exact h
  | succ n ih =>
    refine ih _ _ ?_
    rw [List.length_set]
    exact bent_length _ ((walkLanes_length _ _ _ _ _ _).trans (mixColumns_length a h))

theorem keccakAbsorbAll_length (n : Nat) (a : List W64) (bs : List Byte) (h : a.length = 25) : (keccakAbsorbAll n a bs).length = 25 := by
  induction n generalizing a bs with
  | zero => exact h
  | succ n ih => exact ih _ _ (permuteRounds_length _ _ _ (by simp))
theorem flatMap_le_length (l : List W64) : (l.flatMap fun x => leBytes 8 x.toNat).length = 8 * l.length := by
  induction l with
  | nil => rfl
  | cons x r ih => rw [List.flatMap_cons, List.length_append, ih, leBytes_length, List.length_cons]; omega

/-- A digest has 32 bytes. -/
@[simp] theorem digest_length (bs : List Byte) : (digest bs).length = 32 := by
  unfold digest shake256
  extract_lets p
  have h := keccakAbsorbAll_length (p.length / 136) (List.replicate 25 0) p (by simp)
  generalize keccakAbsorbAll (p.length / 136) (List.replicate 25 0) p = a at h
  have e : 32 / 136 + 1 = 1 := rfl
  rw [e, keccakSqueeze, keccakSqueeze, List.append_nil, List.length_take, flatMap_le_length, List.length_take, h]
  rfl

/-- A ledger entry has 128 bytes. -/
@[simp] theorem ledgerBytes_length (seq dt : Nat) (n : LedgerNote) (prev : List Byte) : (ledgerBytes seq dt n prev).length = 128 := by
  simp [ledgerBytes]

/-- A ledger entry begins with its SEQ. -/
theorem ledgerBytes_seq (seq dt : Nat) (n : LedgerNote) (prev : List Byte) : (ledgerBytes seq dt n prev).take 8 = leBytes 8 seq := by
  unfold ledgerBytes
  simp only [List.append_assoc]
  exact List.take_left' (leBytes_length 8 seq)

/-- A ledger entry ends with its PREV. -/
theorem ledgerBytes_prev (seq dt : Nat) (n : LedgerNote) (prev : List Byte) : (ledgerBytes seq dt n prev).drop 96 = padTo 32 prev := by
  unfold ledgerBytes
  exact List.drop_left' (by simp)

end Sys2Proof.Machine
end

