-- ==== Sys2Proof/Laws/Store.lean ====
section
/-! SUPPORT. The sparse stores and memories: what is read after a write, and that every operation keeps the canonical form. -/

namespace Sys2Proof.Machine

/-! ### Sparse stores -/

/-- A key set to a value holds it. -/
theorem sparseGet_set_self {α : Type} (k : Nat) (x : α) (m : List (Nat × α)) : sparseGet k (sparseSet k (some x) m) = some x := by
  induction m with
  | nil => simp [sparseSet, sparseGet]
  | cons c r ih =>
    obtain ⟨j, y⟩ := c
    simp only [sparseSet]
    split
    · simp [sparseGet]
    · split
      · simp [sparseGet]
      · simp [sparseGet, ih, *]

/-- Every other key keeps its value. -/
theorem sparseGet_set_other {α : Type} {k n : Nat} (h : n ≠ k) (v : Option α) (m : List (Nat × α)) :
    sparseGet n (sparseSet k v m) = sparseGet n m := by
  induction m with
  | nil => cases v <;> simp [sparseSet, sparseGet, h]
  | cons c r ih =>
    obtain ⟨j, y⟩ := c
    simp only [sparseSet]
    split
    · cases v <;> simp [sparseGet, h]
    · split
      · rename_i hk
        subst hk
        cases v <;> simp [sparseGet, h]
      · simp [sparseGet, ih]

/-- Every key of a list lies above a bound. -/
def keysAbove {α : Type} (b : Nat) (m : List (Nat × α)) : Prop := ∀ c ∈ m, b < c.1

/-- Strictly rising keys, one entry at a time. -/
theorem keysRise_cons {α : Type} (c : Nat × α) (m : List (Nat × α)) : keysRise (c :: m) = true ↔ keysAbove c.1 m ∧ keysRise m = true := by
  induction m generalizing c with
  | nil => simp [keysRise, keysAbove]
  | cons d r ih =>
    obtain ⟨j, y⟩ := c
    obtain ⟨k, z⟩ := d
    simp only [keysRise, Bool.and_eq_true, decide_eq_true_eq]
    constructor
    · rintro ⟨hjk, hr⟩
      refine ⟨?_, hr⟩
      intro e he
      rcases List.mem_cons.mp he with rfl | he
      · exact hjk
      · exact Nat.lt_trans hjk (((ih (k, z)).mp hr).1 e he)
    · rintro ⟨ha, hr⟩
      exact ⟨ha (k, z) (by simp), hr⟩

/-- Setting a key above a bound keeps all keys above it. -/
theorem keysAbove_set {α : Type} {b k : Nat} (hb : b < k) (v : Option α) (m : List (Nat × α)) (h : keysAbove b m) : keysAbove b (sparseSet k v m) := by
  induction m with
  | nil => cases v <;> simp [sparseSet, keysAbove, hb]
  | cons c r ih =>
    obtain ⟨j, y⟩ := c
    have hr : keysAbove b r := fun e he => h e (List.mem_cons_of_mem _ he)
    have hj : b < j := h (j, y) (by simp)
    simp only [sparseSet]
    split
    · cases v
      · exact h
      · intro e he
        rcases List.mem_cons.mp he with rfl | he
        · exact hb
        · exact h e he
    · split
      · cases v
        · exact hr
        · intro e he
          rcases List.mem_cons.mp he with rfl | he
          · exact hb
          · exact hr e he
      · intro e he
        rcases List.mem_cons.mp he with rfl | he
        · exact hj
        · exact ih hr e he

/-- Setting a key keeps the keys strictly rising. -/
theorem keysRise_set {α : Type} (k : Nat) (v : Option α) (m : List (Nat × α)) (h : keysRise m = true) : keysRise (sparseSet k v m) = true := by
  induction m with
  | nil => cases v <;> simp [sparseSet, keysRise]
  | cons c r ih =>
    obtain ⟨j, y⟩ := c
    have hc := (keysRise_cons _ _).mp h
    simp only [sparseSet]
    split
    · rename_i hkj
      cases v
      · exact h
      · refine (keysRise_cons _ _).mpr ⟨?_, h⟩
        intro e he
        rcases List.mem_cons.mp he with rfl | he
        · exact hkj
        · exact Nat.lt_trans hkj (hc.1 e he)
    · split
      · rename_i hkj
        subst hkj
        cases v
        · exact hc.2
        · exact (keysRise_cons _ _).mpr ⟨hc.1, hc.2⟩
      · refine (keysRise_cons _ _).mpr ⟨?_, ih hc.2⟩
        exact keysAbove_set (by show j < k; omega) v r hc.1

/-- Dropping entries keeps the keys strictly rising. -/
theorem keysRise_filter {α : Type} (p : Nat × α → Bool) (m : List (Nat × α)) (h : keysRise m = true) : keysRise (m.filter p) = true := by
  induction m with
  | nil => rfl
  | cons c r ih =>
    have hc := (keysRise_cons _ _).mp h
    simp only [List.filter_cons]
    split
    · refine (keysRise_cons _ _).mpr ⟨?_, ih hc.2⟩
      intro e he
      exact hc.1 e (List.mem_filter.mp he).1
    · exact ih hc.2

/-- Two rising stores with every key of the first below every key of the second join to a rising store. -/
theorem keysRise_append {α : Type} (a b : List (Nat × α)) (ha : keysRise a = true) (hb : keysRise b = true) (h : ∀ x ∈ a, ∀ y ∈ b, x.1 < y.1) :
    keysRise (a ++ b) = true := by
  induction a with
  | nil => exact hb
  | cons c r ih =>
    have hc := (keysRise_cons _ _).mp ha
    refine (keysRise_cons _ _).mpr ⟨?_, ih hc.2 fun x hx => h x (List.mem_cons_of_mem _ hx)⟩
    intro e he
    rcases List.mem_append.mp he with he | he
    · exact hc.1 e he
    · exact h c (by simp) e he

/-- A key below every key of a store is not listed. -/
theorem sparseGet_above {α : Type} {k : Nat} (m : List (Nat × α)) (h : keysAbove k m) : sparseGet k m = none := by
  induction m with
  | nil => rfl
  | cons c r ih =>
    obtain ⟨j, y⟩ := c
    have hj : k < j := h (j, y) (by simp)
    have : k ≠ j := by omega
    simp [sparseGet, this, ih fun e he => h e (List.mem_cons_of_mem _ he)]

/-- In a rising store a removed key is not listed. -/
theorem sparseGet_remove {α : Type} (k : Nat) (m : List (Nat × α)) (h : keysRise m = true) : sparseGet k (sparseSet k none m) = none := by
  induction m with
  | nil => rfl
  | cons c r ih =>
    obtain ⟨j, y⟩ := c
    have hc := (keysRise_cons _ _).mp h
    simp only [sparseSet]
    split
    · rename_i hkj
      refine sparseGet_above _ ?_
      intro e he
      rcases List.mem_cons.mp he with rfl | he
      · exact hkj
      · exact Nat.lt_trans hkj (hc.1 e he)
    · split
      · rename_i hkj
        subst hkj
        exact sparseGet_above _ hc.1
      · simp [sparseGet, *, ih hc.2]

/-! ### Maps of numbers -/

/-- A key set in a rising map reads as set. -/
theorem Map.get_set_self (m : Map) (d k v : Nat) (h : keysRise m = true) : (m.set d k v).get d k = v := by
  unfold Map.set Map.get
  split
  · rename_i hv
    rw [sparseGet_remove k m h, hv]
    rfl
  · rw [sparseGet_set_self]
    rfl

/-- Every other key keeps its number. -/
theorem Map.get_set_other (m : Map) (d e k n v : Nat) (h : n ≠ k) : (m.set d k v).get e n = m.get e n := by
  unfold Map.set Map.get
  rw [sparseGet_set_other h]

/-- A set keeps the keys strictly rising. -/
theorem Map.set_rise (m : Map) (d k v : Nat) (h : keysRise m = true) : keysRise (m.set d k v) = true := keysRise_set _ _ _ h

/-! ### Memory -/

/-- A byte write keeps the canonical form. -/
theorem Mem.wf_setByte (m : Mem) (a : Nat) (b : Byte) (h : m.wf = true) : (m.setByte a b).wf = true := keysRise_set _ _ _ h

/-- A write keeps the canonical form. -/
theorem Mem.wf_write (m : Mem) (a : Nat) (bs : List Byte) (h : m.wf = true) : (m.write a bs).wf = true := by
  induction bs generalizing m a with
  | nil => exact h
  | cons b r ih => exact ih _ _ (Mem.wf_setByte m a b h)

/-- Forgetting a range keeps the canonical form. -/
theorem Mem.wf_forget (m : Mem) (lo hi : Nat) (h : m.wf = true) : (m.forget lo hi).wf = true := keysRise_filter _ _ h

/-- The empty memory is canonical. -/
theorem Mem.wf_nil : Mem.wf [] = true := rfl

/-- A written byte reads back. -/
theorem Mem.byte_setByte_self (m : Mem) (a : Nat) (b : Byte) : (m.setByte a b).byte? a = some b := sparseGet_set_self _ _ _

/-- A byte write leaves every other byte. -/
theorem Mem.byte_setByte_other (m : Mem) {a n : Nat} (h : n ≠ a) (b : Byte) : (m.setByte a b).byte? n = m.byte? n := sparseGet_set_other h _ _

/-- A write leaves every byte outside its range. -/
theorem Mem.byte_write_outside (m : Mem) (a n : Nat) (bs : List Byte) (h : n < a ∨ a + bs.length ≤ n) : (m.write a bs).byte? n = m.byte? n := by
  induction bs generalizing m a with
  | nil => rfl
  | cons b r ih =>
    have hn : n ≠ a := by
      rcases h with h | h
      · omega
      · simp only [List.length_cons] at h
        omega
    have hr : n < a + 1 ∨ a + 1 + r.length ≤ n := by
      rcases h with h | h
      · omega
      · simp only [List.length_cons] at h
        omega
    show (Mem.write (m.setByte a b) (a + 1) r).byte? n = m.byte? n
    rw [ih _ _ hr, Mem.byte_setByte_other m hn]

/-- A write is read back byte by byte. -/
theorem Mem.byte_write_inside (m : Mem) (a i : Nat) (bs : List Byte) (h : i < bs.length) : (m.write a bs).byte? (a + i) = some bs[i] := by
  induction bs generalizing m a i with
  | nil => simp at h
  | cons b r ih =>
    show (Mem.write (m.setByte a b) (a + 1) r).byte? (a + i) = _
    cases i with
    | zero =>
      rw [Mem.byte_write_outside _ _ _ _ (Or.inl (by omega))]
      simpa using Mem.byte_setByte_self m a b
    | succ j =>
      have := ih (m.setByte a b) (a + 1) j (by simpa using h)
      rw [show a + (j + 1) = a + 1 + j by omega, this]
      rfl

/-! ### Registers and scalars -/

/-- A stored register reads back. -/
theorem State.reg_setReg_self (s : State) (o v : Nat) (h : keysRise s.regs = true) : (s.setReg o v).reg o = v := Map.get_set_self _ _ _ _ h

/-- Storing a register leaves every other one. -/
@[simp] theorem State.reg_setReg_other (s : State) {o n : Nat} (h : n ≠ o) (v : Nat) : (s.setReg o v).reg n = s.reg n := Map.get_set_other _ _ _ _ _ _ h

/-- A stored scalar entry reads back. -/
theorem State.od_setOd_self (s : State) (k v : Nat) (h : keysRise s.dict = true) : (s.setOd k v).od k = v := Map.get_set_self _ _ _ _ h

/-- Storing an entry leaves every other one. -/
@[simp] theorem State.od_setOd_other (s : State) {k n : Nat} (h : n ≠ k) (v : Nat) : (s.setOd k v).od n = s.od n := Map.get_set_other _ _ _ _ _ _ h

end Sys2Proof.Machine
end

