-- ==== Sys2Proof/Laws/Inv.lean ====
section
/-! SUPPORT. One notion for whole-machine laws: a predicate on states with the list of the parts of the state that it lets change. Every operation of
the model then has one lemma (Laws/Keeps…): it keeps every such predicate that lets the operation's own parts change. With the predicate
'nothing else has changed' this is the operation's frame; with a predicate on the stores it is an invariant. -/

namespace Sys2Proof.Machine

/-- What a record update may do to a part: anything, but a store only loses entries, and a chain only ends. -/
@[reducible] def Part.less : Part → State → State → Prop
  | .regs, s, t => ∃ p, t.regs = s.regs.filter p
  | .dict, s, t => ∃ p, t.dict = s.dict.filter p
  | .blobs, s, t => ∃ p, t.blobs = s.blobs.filter p
  | .hostMem, s, t => ∃ p, t.hostMem = s.hostMem.filter p
  | .dram, s, t => ∃ p, t.dram = s.dram.filter p
  | .oasis, s, t => ∃ p, t.oasis = s.oasis.filter p
  | .flash, s, t => ∃ p, t.saf.flash = s.saf.flash.filter p
  | .chain, _, t => t.ledger.entries = [] ∧ t.ledger.count = 0
  | _, _, _ => True

/-- A predicate on states, and the parts that it lets change. -/
structure Inv where
  P : State → Prop
  parts : List Part
  upd : ∀ s t : State, t.pending = s.pending → (∀ p : Part, p.same s t ∨ (p ∈ parts ∧ p.less s t)) → P s → P t
  setReg : .regs ∈ parts → ∀ s o v, P s → P (s.setReg o v)
  setOd : .dict ∈ parts → ∀ s k v, P s → P (s.setOd k v)
  setBlob : .blobs ∈ parts → ∀ s k v, P s → P (s.setBlob k v)
  hostWrite : .hostMem ∈ parts → ∀ s a bs, P s → P { s with hostMem := s.hostMem.write a bs }
  dramWrite : .dram ∈ parts → ∀ s a bs, P s → P { s with dram := s.dram.write a bs }
  dramFill : .dram ∈ parts → ∀ s lo hi mid, lo ≤ hi → keysRise mid = true → (∀ c ∈ mid, lo ≤ c.1 ∧ c.1 < hi) → P s →
    P { s with dram := (s.dram.filter fun c => decide (c.1 < lo)) ++ mid ++ s.dram.filter fun c => decide (hi ≤ c.1) }
  oasisByte : .oasis ∈ parts → ∀ s a b, P s → P { s with oasis := s.oasis.setByte a b }
  flashWrite : .flash ∈ parts → ∀ s a bs, P s → P (s.writeFlash a bs)
  link : .chain ∈ parts → .ledger ∈ parts → ∀ (s : State) (g : Ledger) n prev, g.entries = (⟨s.ledger.count, ledgerBytes s.ledger.count s.dt n prev⟩ :: s.ledger.entries).take ledgerCapacity →
    (s.ledger.count ≠ 0 → prev = s.ledger.headHash) → g.count = s.ledger.count + 1 →
    g.headHash = digest (ledgerBytes s.ledger.count s.dt n prev) → P s → P { s with ledger := g }

/-- The predicate lets all these parts change. -/
@[reducible] def Inv.has (I : Inv) (l : List Part) : Prop := ∀ p ∈ l, p ∈ I.parts

/-- A shorter list of parts is let change too. -/
theorem Inv.has.sub {I : Inv} {l m : List Part} (h : I.has l) (hm : (m.all fun p => l.contains p) = true) : I.has m := by
  intro p hp
  have := List.all_eq_true.mp hm p hp
  exact h p (by simpa using this)

/-- A result keeps a predicate: a next state meets it. -/
def Inv.ok (I : Inv) (r : Result) : Prop := ∀ t, r = .next t → I.P t

theorem Inv.ok_next {I : Inv} {s : State} (h : I.P s) : I.ok (.next s) := by
  intro t ht
  cases ht
  exact h

theorem Inv.ok_refused {I : Inv} (r : Refusal) : I.ok (.refused r) := by
  intro t ht
  cases ht

theorem Inv.ok_act {I : Inv} {s : State} {f : State → State} (h : I.P s) (hf : ∀ u, I.P u → I.P (f u)) : I.ok (s.act f) := by
  refine Inv.ok_next ?_
  split
  · exact h
  · exact hf s h

/-- A record update keeps a predicate that lets the updated parts change. -/
theorem Inv.set {I : Inv} {s : State} {dt : Nat} {dev : Dev} {web : Web} {ports : Vector Port 16} {fsPorts : Vector FsPort 16} {slices : Vector Slice 4} {tensors : List (Nat × Tensor)} {cores : Vector Core 32} {cmd : CmdUnit} {ctx : Ctx} {det : Det} {links : Vector Link 2} {trim : Trim} {regs : Map} {dict : Map} {blobs : Blobs} {doors : Doors} {pcie : Pcie} {crv : Crv} {ledger : Ledger} {saf : Saf} {pwr : Pwr} {hostMem : Mem} {dram : Mem} {oasis : Mem} {dramPoison : List Nat} {oasisPoison : List Nat} {dramSingle : List (Nat × Nat)} {oasisSingle : List Nat} {events : List EventRec} {out : List Out} {memEpoch : Nat} {freeCtr : Nat}
    (hp : ∀ p : Part, p.same s ⟨dt, dev, web, ports, fsPorts, slices, tensors, cores, cmd, ctx, det, links, trim, regs, dict, blobs, doors, pcie, crv, ledger, saf, pwr, hostMem, dram, oasis, dramPoison, oasisPoison, dramSingle, oasisSingle, events, out, memEpoch, freeCtr, s.pending⟩ ∨ (p ∈ I.parts ∧ p.less s ⟨dt, dev, web, ports, fsPorts, slices, tensors, cores, cmd, ctx, det, links, trim, regs, dict, blobs, doors, pcie, crv, ledger, saf, pwr, hostMem, dram, oasis, dramPoison, oasisPoison, dramSingle, oasisSingle, events, out, memEpoch, freeCtr, s.pending⟩)) (h : I.P s) :
    I.P ⟨dt, dev, web, ports, fsPorts, slices, tensors, cores, cmd, ctx, det, links, trim, regs, dict, blobs, doors, pcie, crv, ledger, saf, pwr, hostMem, dram, oasis, dramPoison, oasisPoison, dramSingle, oasisSingle, events, out, memEpoch, freeCtr, s.pending⟩ := I.upd s _ rfl hp h

/-- Either branch. -/
theorem Inv.ite {I : Inv} {c : Prop} [Decidable c] {a b : State} (ha : I.P a) (hb : I.P b) : I.P (if c then a else b) := by
  split
  · exact ha
  · exact hb

theorem Inv.ok_ite {I : Inv} {c : Prop} [Decidable c] {a b : Result} (ha : I.ok a) (hb : I.ok b) : I.ok (if c then a else b) := by
  split
  · exact ha
  · exact hb

/-- A fold keeps a predicate that each of its steps keeps. -/
theorem Inv.foldl {I : Inv} {α : Type} {f : State → α → State} {l : List α} {s : State} (h : I.P s) (hf : ∀ u x, I.P u → I.P (f u x)) :
    I.P (l.foldl f s) := by
  induction l generalizing s with
  | nil => exact h
  | cons a r ih => exact ih (hf s a h)

end Sys2Proof.Machine
end

