-- ==== Sys2Proof/Laws/KeepsPrim.lean ====
section
/-! SUPPORT. The primitive operations on the stores and the ledger keep every predicate that lets their parts change. -/

namespace Sys2Proof.Machine

theorem State.setReg_keeps {I : Inv} {s : State} (hE : I.has [.regs]) (h : I.P s) {off v : Nat} : I.P (s.setReg off v) :=
  I.setReg (hE _ (by simp)) s off v h

theorem State.setOd_keeps {I : Inv} {s : State} (hE : I.has [.dict]) (h : I.P s) {key v : Nat} : I.P (s.setOd key v) :=
  I.setOd (hE _ (by simp)) s key v h

theorem State.setBlob_keeps {I : Inv} {s : State} (hE : I.has [.blobs]) (h : I.P s) {key : Nat} {bs : List Byte} : I.P (s.setBlob key bs) :=
  I.setBlob (hE _ (by simp)) s key bs h

theorem State.writeHost_keeps {I : Inv} {s : State} (hE : I.has [.hostMem]) (h : I.P s) {a : Nat} {bs : List Byte} : I.P (s.writeHost a bs) :=
  I.hostWrite (hE _ (by simp)) s a bs h

/-- A change of parts that no invariant looks into. -/
theorem Inv.poison {I : Inv} {s : State} (hE : I.has [.poison]) (h : I.P s) (a b : List Nat) (c : List (Nat × Nat)) (d : List Nat) :
    I.P { s with dramPoison := a, oasisPoison := b, dramSingle := c, oasisSingle := d } := by
  refine I.upd s _ rfl (fun p => ?_) h
  cases p <;> first
    | exact Or.inl rfl | exact Or.inl ⟨rfl, rfl⟩ | exact Or.inl ⟨rfl, rfl, rfl⟩ | exact Or.inl ⟨rfl, rfl, rfl, rfl⟩ | exact Or.inl ⟨rfl, rfl, rfl, rfl, rfl⟩
    | exact Or.inl ⟨rfl, rfl, rfl, rfl, rfl, rfl⟩ | exact Or.inl ⟨rfl, rfl, rfl, rfl, rfl, rfl, rfl⟩ | exact Or.inl ⟨rfl, rfl, rfl, rfl, rfl, rfl, rfl, rfl, rfl⟩
    | exact Or.inl ⟨rfl, rfl, rfl, rfl, rfl, rfl, rfl, rfl, rfl, rfl, rfl, rfl, rfl, rfl⟩
    | exact Or.inr ⟨hE _ (by decide), True.intro⟩

/-- A change of `dt`. -/
theorem Inv.dt {I : Inv} {s : State} (hE : I.has [.dt]) (h : I.P s) (x : Nat) : I.P { s with dt := x } := by
  refine I.upd s _ rfl (fun p => ?_) h
  cases p <;> first
    | exact Or.inl rfl | exact Or.inl ⟨rfl, rfl⟩ | exact Or.inl ⟨rfl, rfl, rfl⟩ | exact Or.inl ⟨rfl, rfl, rfl, rfl⟩ | exact Or.inl ⟨rfl, rfl, rfl, rfl, rfl⟩
    | exact Or.inl ⟨rfl, rfl, rfl, rfl, rfl, rfl⟩ | exact Or.inl ⟨rfl, rfl, rfl, rfl, rfl, rfl, rfl⟩ | exact Or.inl ⟨rfl, rfl, rfl, rfl, rfl, rfl, rfl, rfl, rfl⟩
    | exact Or.inl ⟨rfl, rfl, rfl, rfl, rfl, rfl, rfl, rfl, rfl, rfl, rfl, rfl, rfl, rfl⟩
    | exact Or.inr ⟨hE _ (by decide), True.intro⟩

/-- A change of `ports`. -/
theorem Inv.ports {I : Inv} {s : State} (hE : I.has [.ports]) (h : I.P s) (x : Vector Port 16) : I.P { s with ports := x } := by
  refine I.upd s _ rfl (fun p => ?_) h
  cases p <;> first
    | exact Or.inl rfl | exact Or.inl ⟨rfl, rfl⟩ | exact Or.inl ⟨rfl, rfl, rfl⟩ | exact Or.inl ⟨rfl, rfl, rfl, rfl⟩ | exact Or.inl ⟨rfl, rfl, rfl, rfl, rfl⟩
    | exact Or.inl ⟨rfl, rfl, rfl, rfl, rfl, rfl⟩ | exact Or.inl ⟨rfl, rfl, rfl, rfl, rfl, rfl, rfl⟩ | exact Or.inl ⟨rfl, rfl, rfl, rfl, rfl, rfl, rfl, rfl, rfl⟩
    | exact Or.inl ⟨rfl, rfl, rfl, rfl, rfl, rfl, rfl, rfl, rfl, rfl, rfl, rfl, rfl, rfl⟩
    | exact Or.inr ⟨hE _ (by decide), True.intro⟩

/-- A change of `fsPorts`. -/
theorem Inv.fsPorts {I : Inv} {s : State} (hE : I.has [.fsPorts]) (h : I.P s) (x : Vector FsPort 16) : I.P { s with fsPorts := x } := by
  refine I.upd s _ rfl (fun p => ?_) h
  cases p <;> first
    | exact Or.inl rfl | exact Or.inl ⟨rfl, rfl⟩ | exact Or.inl ⟨rfl, rfl, rfl⟩ | exact Or.inl ⟨rfl, rfl, rfl, rfl⟩ | exact Or.inl ⟨rfl, rfl, rfl, rfl, rfl⟩
    | exact Or.inl ⟨rfl, rfl, rfl, rfl, rfl, rfl⟩ | exact Or.inl ⟨rfl, rfl, rfl, rfl, rfl, rfl, rfl⟩ | exact Or.inl ⟨rfl, rfl, rfl, rfl, rfl, rfl, rfl, rfl, rfl⟩
    | exact Or.inl ⟨rfl, rfl, rfl, rfl, rfl, rfl, rfl, rfl, rfl, rfl, rfl, rfl, rfl, rfl⟩
    | exact Or.inr ⟨hE _ (by decide), True.intro⟩

/-- A change of `slices`. -/
theorem Inv.slices {I : Inv} {s : State} (hE : I.has [.slices]) (h : I.P s) (x : Vector Slice 4) : I.P { s with slices := x } := by
  refine I.upd s _ rfl (fun p => ?_) h
  cases p <;> first
    | exact Or.inl rfl | exact Or.inl ⟨rfl, rfl⟩ | exact Or.inl ⟨rfl, rfl, rfl⟩ | exact Or.inl ⟨rfl, rfl, rfl, rfl⟩ | exact Or.inl ⟨rfl, rfl, rfl, rfl, rfl⟩
    | exact Or.inl ⟨rfl, rfl, rfl, rfl, rfl, rfl⟩ | exact Or.inl ⟨rfl, rfl, rfl, rfl, rfl, rfl, rfl⟩ | exact Or.inl ⟨rfl, rfl, rfl, rfl, rfl, rfl, rfl, rfl, rfl⟩
    | exact Or.inl ⟨rfl, rfl, rfl, rfl, rfl, rfl, rfl, rfl, rfl, rfl, rfl, rfl, rfl, rfl⟩
    | exact Or.inr ⟨hE _ (by decide), True.intro⟩

/-- A change of `tensors`. -/
theorem Inv.tensors {I : Inv} {s : State} (hE : I.has [.tensors]) (h : I.P s) (x : List (Nat × Tensor)) : I.P { s with tensors := x } := by
  refine I.upd s _ rfl (fun p => ?_) h
  cases p <;> first
    | exact Or.inl rfl | exact Or.inl ⟨rfl, rfl⟩ | exact Or.inl ⟨rfl, rfl, rfl⟩ | exact Or.inl ⟨rfl, rfl, rfl, rfl⟩ | exact Or.inl ⟨rfl, rfl, rfl, rfl, rfl⟩
    | exact Or.inl ⟨rfl, rfl, rfl, rfl, rfl, rfl⟩ | exact Or.inl ⟨rfl, rfl, rfl, rfl, rfl, rfl, rfl⟩ | exact Or.inl ⟨rfl, rfl, rfl, rfl, rfl, rfl, rfl, rfl, rfl⟩
    | exact Or.inl ⟨rfl, rfl, rfl, rfl, rfl, rfl, rfl, rfl, rfl, rfl, rfl, rfl, rfl, rfl⟩
    | exact Or.inr ⟨hE _ (by decide), True.intro⟩

/-- A change of `cores`. -/
theorem Inv.cores {I : Inv} {s : State} (hE : I.has [.cores]) (h : I.P s) (x : Vector Core 32) : I.P { s with cores := x } := by
  refine I.upd s _ rfl (fun p => ?_) h
  cases p <;> first
    | exact Or.inl rfl | exact Or.inl ⟨rfl, rfl⟩ | exact Or.inl ⟨rfl, rfl, rfl⟩ | exact Or.inl ⟨rfl, rfl, rfl, rfl⟩ | exact Or.inl ⟨rfl, rfl, rfl, rfl, rfl⟩
    | exact Or.inl ⟨rfl, rfl, rfl, rfl, rfl, rfl⟩ | exact Or.inl ⟨rfl, rfl, rfl, rfl, rfl, rfl, rfl⟩ | exact Or.inl ⟨rfl, rfl, rfl, rfl, rfl, rfl, rfl, rfl, rfl⟩
    | exact Or.inl ⟨rfl, rfl, rfl, rfl, rfl, rfl, rfl, rfl, rfl, rfl, rfl, rfl, rfl, rfl⟩
    | exact Or.inr ⟨hE _ (by decide), True.intro⟩

/-- A change of `cmd`. -/
theorem Inv.cmd {I : Inv} {s : State} (hE : I.has [.cmd]) (h : I.P s) (x : CmdUnit) : I.P { s with cmd := x } := by
  refine I.upd s _ rfl (fun p => ?_) h
  cases p <;> first
    | exact Or.inl rfl | exact Or.inl ⟨rfl, rfl⟩ | exact Or.inl ⟨rfl, rfl, rfl⟩ | exact Or.inl ⟨rfl, rfl, rfl, rfl⟩ | exact Or.inl ⟨rfl, rfl, rfl, rfl, rfl⟩
    | exact Or.inl ⟨rfl, rfl, rfl, rfl, rfl, rfl⟩ | exact Or.inl ⟨rfl, rfl, rfl, rfl, rfl, rfl, rfl⟩ | exact Or.inl ⟨rfl, rfl, rfl, rfl, rfl, rfl, rfl, rfl, rfl⟩
    | exact Or.inl ⟨rfl, rfl, rfl, rfl, rfl, rfl, rfl, rfl, rfl, rfl, rfl, rfl, rfl, rfl⟩
    | exact Or.inr ⟨hE _ (by decide), True.intro⟩

/-- A change of `ctx`. -/
theorem Inv.ctx {I : Inv} {s : State} (hE : I.has [.ctx]) (h : I.P s) (x : Ctx) : I.P { s with ctx := x } := by
  refine I.upd s _ rfl (fun p => ?_) h
  cases p <;> first
    | exact Or.inl rfl | exact Or.inl ⟨rfl, rfl⟩ | exact Or.inl ⟨rfl, rfl, rfl⟩ | exact Or.inl ⟨rfl, rfl, rfl, rfl⟩ | exact Or.inl ⟨rfl, rfl, rfl, rfl, rfl⟩
    | exact Or.inl ⟨rfl, rfl, rfl, rfl, rfl, rfl⟩ | exact Or.inl ⟨rfl, rfl, rfl, rfl, rfl, rfl, rfl⟩ | exact Or.inl ⟨rfl, rfl, rfl, rfl, rfl, rfl, rfl, rfl, rfl⟩
    | exact Or.inl ⟨rfl, rfl, rfl, rfl, rfl, rfl, rfl, rfl, rfl, rfl, rfl, rfl, rfl, rfl⟩
    | exact Or.inr ⟨hE _ (by decide), True.intro⟩

/-- A change of `det`. -/
theorem Inv.det {I : Inv} {s : State} (hE : I.has [.det]) (h : I.P s) (x : Det) : I.P { s with det := x } := by
  refine I.upd s _ rfl (fun p => ?_) h
  cases p <;> first
    | exact Or.inl rfl | exact Or.inl ⟨rfl, rfl⟩ | exact Or.inl ⟨rfl, rfl, rfl⟩ | exact Or.inl ⟨rfl, rfl, rfl, rfl⟩ | exact Or.inl ⟨rfl, rfl, rfl, rfl, rfl⟩
    | exact Or.inl ⟨rfl, rfl, rfl, rfl, rfl, rfl⟩ | exact Or.inl ⟨rfl, rfl, rfl, rfl, rfl, rfl, rfl⟩ | exact Or.inl ⟨rfl, rfl, rfl, rfl, rfl, rfl, rfl, rfl, rfl⟩
    | exact Or.inl ⟨rfl, rfl, rfl, rfl, rfl, rfl, rfl, rfl, rfl, rfl, rfl, rfl, rfl, rfl⟩
    | exact Or.inr ⟨hE _ (by decide), True.intro⟩

/-- A change of `links`. -/
theorem Inv.links {I : Inv} {s : State} (hE : I.has [.links]) (h : I.P s) (x : Vector Link 2) : I.P { s with links := x } := by
  refine I.upd s _ rfl (fun p => ?_) h
  cases p <;> first
    | exact Or.inl rfl | exact Or.inl ⟨rfl, rfl⟩ | exact Or.inl ⟨rfl, rfl, rfl⟩ | exact Or.inl ⟨rfl, rfl, rfl, rfl⟩ | exact Or.inl ⟨rfl, rfl, rfl, rfl, rfl⟩
    | exact Or.inl ⟨rfl, rfl, rfl, rfl, rfl, rfl⟩ | exact Or.inl ⟨rfl, rfl, rfl, rfl, rfl, rfl, rfl⟩ | exact Or.inl ⟨rfl, rfl, rfl, rfl, rfl, rfl, rfl, rfl, rfl⟩
    | exact Or.inl ⟨rfl, rfl, rfl, rfl, rfl, rfl, rfl, rfl, rfl, rfl, rfl, rfl, rfl, rfl⟩
    | exact Or.inr ⟨hE _ (by decide), True.intro⟩

/-- A change of `trim`. -/
theorem Inv.trim {I : Inv} {s : State} (hE : I.has [.trim]) (h : I.P s) (x : Trim) : I.P { s with trim := x } := by
  refine I.upd s _ rfl (fun p => ?_) h
  cases p <;> first
    | exact Or.inl rfl | exact Or.inl ⟨rfl, rfl⟩ | exact Or.inl ⟨rfl, rfl, rfl⟩ | exact Or.inl ⟨rfl, rfl, rfl, rfl⟩ | exact Or.inl ⟨rfl, rfl, rfl, rfl, rfl⟩
    | exact Or.inl ⟨rfl, rfl, rfl, rfl, rfl, rfl⟩ | exact Or.inl ⟨rfl, rfl, rfl, rfl, rfl, rfl, rfl⟩ | exact Or.inl ⟨rfl, rfl, rfl, rfl, rfl, rfl, rfl, rfl, rfl⟩
    | exact Or.inl ⟨rfl, rfl, rfl, rfl, rfl, rfl, rfl, rfl, rfl, rfl, rfl, rfl, rfl, rfl⟩
    | exact Or.inr ⟨hE _ (by decide), True.intro⟩

/-- A change of `doors`. -/
theorem Inv.doors {I : Inv} {s : State} (hE : I.has [.doors]) (h : I.P s) (x : Doors) : I.P { s with doors := x } := by
  refine I.upd s _ rfl (fun p => ?_) h
  cases p <;> first
    | exact Or.inl rfl | exact Or.inl ⟨rfl, rfl⟩ | exact Or.inl ⟨rfl, rfl, rfl⟩ | exact Or.inl ⟨rfl, rfl, rfl, rfl⟩ | exact Or.inl ⟨rfl, rfl, rfl, rfl, rfl⟩
    | exact Or.inl ⟨rfl, rfl, rfl, rfl, rfl, rfl⟩ | exact Or.inl ⟨rfl, rfl, rfl, rfl, rfl, rfl, rfl⟩ | exact Or.inl ⟨rfl, rfl, rfl, rfl, rfl, rfl, rfl, rfl, rfl⟩
    | exact Or.inl ⟨rfl, rfl, rfl, rfl, rfl, rfl, rfl, rfl, rfl, rfl, rfl, rfl, rfl, rfl⟩
    | exact Or.inr ⟨hE _ (by decide), True.intro⟩

/-- A change of `crv`. -/
theorem Inv.crv {I : Inv} {s : State} (hE : I.has [.crv]) (h : I.P s) (x : Crv) : I.P { s with crv := x } := by
  refine I.upd s _ rfl (fun p => ?_) h
  cases p <;> first
    | exact Or.inl rfl | exact Or.inl ⟨rfl, rfl⟩ | exact Or.inl ⟨rfl, rfl, rfl⟩ | exact Or.inl ⟨rfl, rfl, rfl, rfl⟩ | exact Or.inl ⟨rfl, rfl, rfl, rfl, rfl⟩
    | exact Or.inl ⟨rfl, rfl, rfl, rfl, rfl, rfl⟩ | exact Or.inl ⟨rfl, rfl, rfl, rfl, rfl, rfl, rfl⟩ | exact Or.inl ⟨rfl, rfl, rfl, rfl, rfl, rfl, rfl, rfl, rfl⟩
    | exact Or.inl ⟨rfl, rfl, rfl, rfl, rfl, rfl, rfl, rfl, rfl, rfl, rfl, rfl, rfl, rfl⟩
    | exact Or.inr ⟨hE _ (by decide), True.intro⟩

/-- A change of `pwr`. -/
theorem Inv.pwr {I : Inv} {s : State} (hE : I.has [.pwr]) (h : I.P s) (x : Pwr) : I.P { s with pwr := x } := by
  refine I.upd s _ rfl (fun p => ?_) h
  cases p <;> first
    | exact Or.inl rfl | exact Or.inl ⟨rfl, rfl⟩ | exact Or.inl ⟨rfl, rfl, rfl⟩ | exact Or.inl ⟨rfl, rfl, rfl, rfl⟩ | exact Or.inl ⟨rfl, rfl, rfl, rfl, rfl⟩
    | exact Or.inl ⟨rfl, rfl, rfl, rfl, rfl, rfl⟩ | exact Or.inl ⟨rfl, rfl, rfl, rfl, rfl, rfl, rfl⟩ | exact Or.inl ⟨rfl, rfl, rfl, rfl, rfl, rfl, rfl, rfl, rfl⟩
    | exact Or.inl ⟨rfl, rfl, rfl, rfl, rfl, rfl, rfl, rfl, rfl, rfl, rfl, rfl, rfl, rfl⟩
    | exact Or.inr ⟨hE _ (by decide), True.intro⟩

/-- A change of `events`. -/
theorem Inv.events {I : Inv} {s : State} (hE : I.has [.events]) (h : I.P s) (x : List EventRec) : I.P { s with events := x } := by
  refine I.upd s _ rfl (fun p => ?_) h
  cases p <;> first
    | exact Or.inl rfl | exact Or.inl ⟨rfl, rfl⟩ | exact Or.inl ⟨rfl, rfl, rfl⟩ | exact Or.inl ⟨rfl, rfl, rfl, rfl⟩ | exact Or.inl ⟨rfl, rfl, rfl, rfl, rfl⟩
    | exact Or.inl ⟨rfl, rfl, rfl, rfl, rfl, rfl⟩ | exact Or.inl ⟨rfl, rfl, rfl, rfl, rfl, rfl, rfl⟩ | exact Or.inl ⟨rfl, rfl, rfl, rfl, rfl, rfl, rfl, rfl, rfl⟩
    | exact Or.inl ⟨rfl, rfl, rfl, rfl, rfl, rfl, rfl, rfl, rfl, rfl, rfl, rfl, rfl, rfl⟩
    | exact Or.inr ⟨hE _ (by decide), True.intro⟩

/-- A change of `out`. -/
theorem Inv.out {I : Inv} {s : State} (hE : I.has [.out]) (h : I.P s) (x : List Out) : I.P { s with out := x } := by
  refine I.upd s _ rfl (fun p => ?_) h
  cases p <;> first
    | exact Or.inl rfl | exact Or.inl ⟨rfl, rfl⟩ | exact Or.inl ⟨rfl, rfl, rfl⟩ | exact Or.inl ⟨rfl, rfl, rfl, rfl⟩ | exact Or.inl ⟨rfl, rfl, rfl, rfl, rfl⟩
    | exact Or.inl ⟨rfl, rfl, rfl, rfl, rfl, rfl⟩ | exact Or.inl ⟨rfl, rfl, rfl, rfl, rfl, rfl, rfl⟩ | exact Or.inl ⟨rfl, rfl, rfl, rfl, rfl, rfl, rfl, rfl, rfl⟩
    | exact Or.inl ⟨rfl, rfl, rfl, rfl, rfl, rfl, rfl, rfl, rfl, rfl, rfl, rfl, rfl, rfl⟩
    | exact Or.inr ⟨hE _ (by decide), True.intro⟩

/-- A step of the line sequence. -/
theorem Inv.line {I : Inv} {s : State} (hE : I.has [.line]) (h : I.P s) (x : Int) (n : Nat) (b : Bool) :
    I.P { s with web := { s.web with x := x, lastLsn := n, triggered := b } } := by
  refine I.upd s _ rfl (fun p => ?_) h
  cases p <;> first
    | exact Or.inl rfl | exact Or.inl ⟨rfl, rfl⟩ | exact Or.inl ⟨rfl, rfl, rfl⟩ | exact Or.inl ⟨rfl, rfl, rfl, rfl⟩ | exact Or.inl ⟨rfl, rfl, rfl, rfl, rfl⟩
    | exact Or.inl ⟨rfl, rfl, rfl, rfl, rfl, rfl⟩ | exact Or.inl ⟨rfl, rfl, rfl, rfl, rfl, rfl, rfl⟩ | exact Or.inl ⟨rfl, rfl, rfl, rfl, rfl, rfl, rfl, rfl, rfl⟩
    | exact Or.inl ⟨rfl, rfl, rfl, rfl, rfl, rfl, rfl, rfl, rfl, rfl, rfl, rfl, rfl, rfl⟩
    | exact Or.inr ⟨hE _ (by decide), True.intro⟩

/-- A reset: every store of the new state holds entries of the old one only. -/
theorem Inv.fresh {I : Inv} {s t : State} (hE : I.has Part.all) (h : I.P s) (hp : t.pending = s.pending) (hl : ∀ p : Part, p.less s t) : I.P t :=
  I.upd s t hp (fun p => Or.inr ⟨hE p (by cases p <;> decide), hl p⟩) h

/-- A change of `pcie`. -/
theorem Inv.pcie {I : Inv} {s : State} (hE : I.has [.irq, .pcie]) (h : I.P s) (x : Pcie) : I.P { s with pcie := x } := by
  refine I.upd s _ rfl (fun p => ?_) h
  cases p <;> first
    | exact Or.inl rfl | exact Or.inl ⟨rfl, rfl⟩ | exact Or.inl ⟨rfl, rfl, rfl⟩ | exact Or.inl ⟨rfl, rfl, rfl, rfl⟩ | exact Or.inl ⟨rfl, rfl, rfl, rfl, rfl⟩
    | exact Or.inl ⟨rfl, rfl, rfl, rfl, rfl, rfl⟩ | exact Or.inl ⟨rfl, rfl, rfl, rfl, rfl, rfl, rfl⟩ | exact Or.inl ⟨rfl, rfl, rfl, rfl, rfl, rfl, rfl, rfl, rfl⟩
    | exact Or.inl ⟨rfl, rfl, rfl, rfl, rfl, rfl, rfl, rfl, rfl, rfl, rfl, rfl, rfl, rfl⟩
    | exact Or.inr ⟨hE _ (by decide), True.intro⟩

theorem State.writeDram_keeps {I : Inv} {s : State} (hE : I.has [.dram, .poison]) (h : I.P s) {a : Nat} {bs : List Byte} : I.P (s.writeDram a bs) :=
  Inv.poison (hE.sub rfl) (I.dramWrite (hE _ (by simp)) s a bs h) _ _ _ _

theorem State.oasisPut_keeps {I : Inv} {s : State} (hE : I.has [.oasis]) (bs : List Byte) (m : Mem) (a : Nat) (h : I.P { s with oasis := m }) :
    I.P { s with oasis := s.oasisPut m a bs } := by
  induction bs generalizing m a with
  | nil => exact h
  | cons b r ih =>
    unfold State.oasisPut
    refine ih _ _ ?_
    split
    · exact I.oasisByte (hE _ (by simp)) { s with oasis := m } a b h
    · exact h

theorem State.writeOasis_keeps {I : Inv} {s : State} (hE : I.has [.oasis, .poison]) (h : I.P s) {a : Nat} {bs : List Byte} : I.P (s.writeOasis a bs) :=
  Inv.poison (hE.sub rfl) (State.oasisPut_keeps (hE.sub rfl) bs s.oasis a h) _ _ _ _

theorem State.writeFlash_keeps {I : Inv} {s : State} (hE : I.has [.flash]) (h : I.P s) {a : Nat} {bs : List Byte} : I.P (s.writeFlash a bs) :=
  I.flashWrite (hE _ (by simp)) s a bs h

end Sys2Proof.Machine
end

