-- ==== Sys2Proof/Laws/KeepsOps.lean ====
section
/-! SUPPORT. The operations of Machine/Ops.lean keep every predicate that lets their parts change. -/

set_option linter.unreachableTactic false
set_option linter.unusedTactic false

namespace Sys2Proof.Machine

theorem State.poisonOasis_keeps {I : Inv} {s : State} (hE : I.has [.poison]) (h : I.P s) {a : Nat} {n : Nat}  :
    I.P (State.poisonOasis s a n) := by
  unfold State.poisonOasis
  try dsimp only
  repeat' first
    | with_reducible assumption
    | intro _
    | dsimp only
    | (with_reducible refine Inv.set (fun p => ?_) ?_
       · fail_if_success with_reducible (cases p <;> first
           | exact Or.inl rfl | exact Or.inl ⟨rfl, rfl⟩ | exact Or.inl ⟨rfl, rfl, rfl⟩ | exact Or.inl ⟨rfl, rfl, rfl, rfl⟩ | exact Or.inl ⟨rfl, rfl, rfl, rfl, rfl⟩
           | exact Or.inl ⟨rfl, rfl, rfl, rfl, rfl, rfl⟩ | exact Or.inl ⟨rfl, rfl, rfl, rfl, rfl, rfl, rfl⟩ | exact Or.inl ⟨rfl, rfl, rfl, rfl, rfl, rfl, rfl, rfl, rfl⟩
           | exact Or.inl ⟨rfl, rfl, rfl, rfl, rfl, rfl, rfl, rfl, rfl, rfl, rfl, rfl, rfl, rfl⟩)
         with_reducible (cases p <;> first
           | exact Or.inl rfl | exact Or.inl ⟨rfl, rfl⟩ | exact Or.inl ⟨rfl, rfl, rfl⟩ | exact Or.inl ⟨rfl, rfl, rfl, rfl⟩ | exact Or.inl ⟨rfl, rfl, rfl, rfl, rfl⟩
           | exact Or.inl ⟨rfl, rfl, rfl, rfl, rfl, rfl⟩ | exact Or.inl ⟨rfl, rfl, rfl, rfl, rfl, rfl, rfl⟩ | exact Or.inl ⟨rfl, rfl, rfl, rfl, rfl, rfl, rfl, rfl, rfl⟩
           | exact Or.inl ⟨rfl, rfl, rfl, rfl, rfl, rfl, rfl, rfl, rfl, rfl, rfl, rfl, rfl, rfl⟩
           | exact Or.inr ⟨hE _ (by decide), True.intro⟩ | exact Or.inr ⟨hE _ (by decide), _, rfl⟩))
    | fail

theorem State.poisonDram_keeps {I : Inv} {s : State} (hE : I.has [.poison]) (h : I.P s) {size : Nat} {a : Nat} {n : Nat}  :
    I.P (State.poisonDram s size a n) := by
  unfold State.poisonDram
  try dsimp only
  repeat' first
    | with_reducible assumption
    | intro _
    | dsimp only
    | (with_reducible refine Inv.set (fun p => ?_) ?_
       · fail_if_success with_reducible (cases p <;> first
           | exact Or.inl rfl | exact Or.inl ⟨rfl, rfl⟩ | exact Or.inl ⟨rfl, rfl, rfl⟩ | exact Or.inl ⟨rfl, rfl, rfl, rfl⟩ | exact Or.inl ⟨rfl, rfl, rfl, rfl, rfl⟩
           | exact Or.inl ⟨rfl, rfl, rfl, rfl, rfl, rfl⟩ | exact Or.inl ⟨rfl, rfl, rfl, rfl, rfl, rfl, rfl⟩ | exact Or.inl ⟨rfl, rfl, rfl, rfl, rfl, rfl, rfl, rfl, rfl⟩
           | exact Or.inl ⟨rfl, rfl, rfl, rfl, rfl, rfl, rfl, rfl, rfl, rfl, rfl, rfl, rfl, rfl⟩)
         with_reducible (cases p <;> first
           | exact Or.inl rfl | exact Or.inl ⟨rfl, rfl⟩ | exact Or.inl ⟨rfl, rfl, rfl⟩ | exact Or.inl ⟨rfl, rfl, rfl, rfl⟩ | exact Or.inl ⟨rfl, rfl, rfl, rfl, rfl⟩
           | exact Or.inl ⟨rfl, rfl, rfl, rfl, rfl, rfl⟩ | exact Or.inl ⟨rfl, rfl, rfl, rfl, rfl, rfl, rfl⟩ | exact Or.inl ⟨rfl, rfl, rfl, rfl, rfl, rfl, rfl, rfl, rfl⟩
           | exact Or.inl ⟨rfl, rfl, rfl, rfl, rfl, rfl, rfl, rfl, rfl, rfl, rfl, rfl, rfl, rfl⟩
           | exact Or.inr ⟨hE _ (by decide), True.intro⟩ | exact Or.inr ⟨hE _ (by decide), _, rfl⟩))
    | fail

theorem State.putDram_keeps {I : Inv} {s : State} (hE : I.has [.dram, .poison]) (h : I.P s) {a : Nat} {bs : Marked}  :
    I.P (State.putDram s a bs) := by
  unfold State.putDram
  try dsimp only
  repeat' first
    | with_reducible assumption
    | intro _
    | with_reducible refine State.poisonDram_keeps (hE.sub rfl) ?_
    | with_reducible refine State.writeDram_keeps (hE.sub rfl) ?_
    | with_reducible refine Inv.foldl ?_ ?_
    | dsimp only

theorem State.putOasis_keeps {I : Inv} {s : State} (hE : I.has [.oasis, .poison]) (h : I.P s) {a : Nat} {bs : Marked}  :
    I.P (State.putOasis s a bs) := by
  unfold State.putOasis
  try dsimp only
  repeat' first
    | with_reducible assumption
    | intro _
    | with_reducible refine State.poisonOasis_keeps (hE.sub rfl) ?_
    | with_reducible refine State.writeOasis_keeps (hE.sub rfl) ?_
    | with_reducible refine Inv.foldl ?_ ?_
    | dsimp only

theorem State.setRegIf_keeps {I : Inv} {s : State} (hE : I.has [.regs]) (h : I.P s) {c : Bool} {off : Nat} {v : Nat}  :
    I.P (State.setRegIf s c off v) := by
  unfold State.setRegIf
  try dsimp only
  repeat' first
    | with_reducible assumption
    | intro _
    | with_reducible refine State.setReg_keeps (hE.sub rfl) ?_
    | with_reducible refine Inv.ite ?_ ?_
    | split
    | dsimp only

theorem State.blockReset_keeps {I : Inv} {s : State} (hE : I.has [.regs]) (h : I.P s) {lo : Nat} {hi : Nat}  :
    I.P (State.blockReset s lo hi) := by
  unfold State.blockReset
  try dsimp only
  repeat' first
    | with_reducible assumption
    | intro _
    | dsimp only
    | (with_reducible refine Inv.set (fun p => ?_) ?_
       · fail_if_success with_reducible (cases p <;> first
           | exact Or.inl rfl | exact Or.inl ⟨rfl, rfl⟩ | exact Or.inl ⟨rfl, rfl, rfl⟩ | exact Or.inl ⟨rfl, rfl, rfl, rfl⟩ | exact Or.inl ⟨rfl, rfl, rfl, rfl, rfl⟩
           | exact Or.inl ⟨rfl, rfl, rfl, rfl, rfl, rfl⟩ | exact Or.inl ⟨rfl, rfl, rfl, rfl, rfl, rfl, rfl⟩ | exact Or.inl ⟨rfl, rfl, rfl, rfl, rfl, rfl, rfl, rfl, rfl⟩
           | exact Or.inl ⟨rfl, rfl, rfl, rfl, rfl, rfl, rfl, rfl, rfl, rfl, rfl, rfl, rfl, rfl⟩)
         with_reducible (cases p <;> first
           | exact Or.inl rfl | exact Or.inl ⟨rfl, rfl⟩ | exact Or.inl ⟨rfl, rfl, rfl⟩ | exact Or.inl ⟨rfl, rfl, rfl, rfl⟩ | exact Or.inl ⟨rfl, rfl, rfl, rfl, rfl⟩
           | exact Or.inl ⟨rfl, rfl, rfl, rfl, rfl, rfl⟩ | exact Or.inl ⟨rfl, rfl, rfl, rfl, rfl, rfl, rfl⟩ | exact Or.inl ⟨rfl, rfl, rfl, rfl, rfl, rfl, rfl, rfl, rfl⟩
           | exact Or.inl ⟨rfl, rfl, rfl, rfl, rfl, rfl, rfl, rfl, rfl, rfl, rfl, rfl, rfl, rfl⟩
           | exact Or.inr ⟨hE _ (by decide), True.intro⟩ | exact Or.inr ⟨hE _ (by decide), _, rfl⟩))
    | fail

theorem State.count32_keeps {I : Inv} {s : State} (hE : I.has [.regs]) (h : I.P s) {off : Nat} {n : Nat}  :
    I.P (State.count32 s off n) := by
  unfold State.count32
  try dsimp only
  repeat' first
    | with_reducible assumption
    | intro _
    | with_reducible refine State.setReg_keeps (hE.sub rfl) ?_
    | dsimp only

theorem State.count64_keeps {I : Inv} {s : State} (hE : I.has [.regs]) (h : I.P s) {off : Nat} {n : Nat}  :
    I.P (State.count64 s off n) := by
  unfold State.count64
  try dsimp only
  repeat' first
    | with_reducible assumption
    | intro _
    | with_reducible refine State.setReg_keeps (hE.sub rfl) ?_
    | dsimp only

theorem State.peak_keeps {I : Inv} {s : State} (hE : I.has [.regs]) (h : I.P s) {off : Nat} {v : Nat}  :
    I.P (State.peak s off v) := by
  unfold State.peak
  try dsimp only
  repeat' first
    | with_reducible assumption
    | intro _
    | with_reducible refine State.setReg_keeps (hE.sub rfl) ?_
    | dsimp only

theorem State.countOd_keeps {I : Inv} {s : State} (hE : I.has [.dict]) (h : I.P s) {key : Nat} {n : Nat}  :
    I.P (State.countOd s key n) := by
  unfold State.countOd
  try dsimp only
  repeat' first
    | with_reducible assumption
    | intro _
    | with_reducible refine State.setOd_keeps (hE.sub rfl) ?_
    | dsimp only

theorem State.takeFree_keeps {I : Inv} {s : State} (hE : I.has [.free]) (h : I.P s)   {a t} (e : State.takeFree s = (a, t)) :
    I.P t := by
  unfold State.takeFree at e
  revert e
  repeat' first
    | (with_reducible (intro e; cases e))
    | split
    | dsimp only
    | with_reducible assumption
    | intro _
    | with_reducible refine Inv.ite ?_ ?_
    | split
    | dsimp only
    | (with_reducible refine Inv.set (fun p => ?_) ?_
       · fail_if_success with_reducible (cases p <;> first
           | exact Or.inl rfl | exact Or.inl ⟨rfl, rfl⟩ | exact Or.inl ⟨rfl, rfl, rfl⟩ | exact Or.inl ⟨rfl, rfl, rfl, rfl⟩ | exact Or.inl ⟨rfl, rfl, rfl, rfl, rfl⟩
           | exact Or.inl ⟨rfl, rfl, rfl, rfl, rfl, rfl⟩ | exact Or.inl ⟨rfl, rfl, rfl, rfl, rfl, rfl, rfl⟩ | exact Or.inl ⟨rfl, rfl, rfl, rfl, rfl, rfl, rfl, rfl, rfl⟩
           | exact Or.inl ⟨rfl, rfl, rfl, rfl, rfl, rfl, rfl, rfl, rfl, rfl, rfl, rfl, rfl, rfl⟩)
         with_reducible (cases p <;> first
           | exact Or.inl rfl | exact Or.inl ⟨rfl, rfl⟩ | exact Or.inl ⟨rfl, rfl, rfl⟩ | exact Or.inl ⟨rfl, rfl, rfl, rfl⟩ | exact Or.inl ⟨rfl, rfl, rfl, rfl, rfl⟩
           | exact Or.inl ⟨rfl, rfl, rfl, rfl, rfl, rfl⟩ | exact Or.inl ⟨rfl, rfl, rfl, rfl, rfl, rfl, rfl⟩ | exact Or.inl ⟨rfl, rfl, rfl, rfl, rfl, rfl, rfl, rfl, rfl⟩
           | exact Or.inl ⟨rfl, rfl, rfl, rfl, rfl, rfl, rfl, rfl, rfl, rfl, rfl, rfl, rfl, rfl⟩
           | exact Or.inr ⟨hE _ (by decide), True.intro⟩ | exact Or.inr ⟨hE _ (by decide), _, rfl⟩))
    | fail

theorem State.takeFree_snd {I : Inv} {s : State} (hE : I.has [.free]) (h : I.P s)  :
    I.P (State.takeFree s).2 :=
  State.takeFree_keeps hE h rfl

theorem State.countFree_keeps {I : Inv} {s : State} (hE : I.has [.regs, .free]) (h : I.P s) {offs : List Nat}  :
    I.P (State.countFree s offs) := by
  unfold State.countFree
  try dsimp only
  repeat' first
    | with_reducible assumption
    | intro _
    | with_reducible refine State.takeFree_snd (hE.sub rfl) ?_
    | with_reducible refine State.takeFree_keeps (hE.sub rfl) ?_ (by with_reducible assumption)
    | with_reducible refine State.count64_keeps (hE.sub rfl) ?_
    | with_reducible refine Inv.foldl ?_ ?_
    | with_reducible refine Inv.ite ?_ ?_
    | split
    | dsimp only

theorem State.send_keeps {I : Inv} {s : State} (hE : I.has [.out]) (h : I.P s) {o : Out}  :
    I.P (State.send s o) := by
  unfold State.send
  try dsimp only
  repeat' first
    | with_reducible assumption
    | intro _
    | dsimp only
    | with_reducible refine Inv.out (hE.sub rfl) ?_ _
    | (with_reducible refine Inv.set (fun p => ?_) ?_
       · fail_if_success with_reducible (cases p <;> first
           | exact Or.inl rfl | exact Or.inl ⟨rfl, rfl⟩ | exact Or.inl ⟨rfl, rfl, rfl⟩ | exact Or.inl ⟨rfl, rfl, rfl, rfl⟩ | exact Or.inl ⟨rfl, rfl, rfl, rfl, rfl⟩
           | exact Or.inl ⟨rfl, rfl, rfl, rfl, rfl, rfl⟩ | exact Or.inl ⟨rfl, rfl, rfl, rfl, rfl, rfl, rfl⟩ | exact Or.inl ⟨rfl, rfl, rfl, rfl, rfl, rfl, rfl, rfl, rfl⟩
           | exact Or.inl ⟨rfl, rfl, rfl, rfl, rfl, rfl, rfl, rfl, rfl, rfl, rfl, rfl, rfl, rfl⟩)
         with_reducible (cases p <;> first
           | exact Or.inl rfl | exact Or.inl ⟨rfl, rfl⟩ | exact Or.inl ⟨rfl, rfl, rfl⟩ | exact Or.inl ⟨rfl, rfl, rfl, rfl⟩ | exact Or.inl ⟨rfl, rfl, rfl, rfl, rfl⟩
           | exact Or.inl ⟨rfl, rfl, rfl, rfl, rfl, rfl⟩ | exact Or.inl ⟨rfl, rfl, rfl, rfl, rfl, rfl, rfl⟩ | exact Or.inl ⟨rfl, rfl, rfl, rfl, rfl, rfl, rfl, rfl, rfl⟩
           | exact Or.inl ⟨rfl, rfl, rfl, rfl, rfl, rfl, rfl, rfl, rfl, rfl, rfl, rfl, rfl, rfl⟩
           | exact Or.inr ⟨hE _ (by decide), True.intro⟩ | exact Or.inr ⟨hE _ (by decide), _, rfl⟩))
    | fail

theorem State.eventAt_keeps {I : Inv} {s : State} (hE : I.has [.events]) (h : I.P s) {lsn : Nat} {source : Nat} {type : Nat} {body : List Byte}  :
    I.P (State.eventAt s lsn source type body) := by
  unfold State.eventAt
  try dsimp only
  repeat' first
    | with_reducible assumption
    | intro _
    | dsimp only
    | with_reducible refine Inv.events (hE.sub rfl) ?_ _
    | (with_reducible refine Inv.set (fun p => ?_) ?_
       · fail_if_success with_reducible (cases p <;> first
           | exact Or.inl rfl | exact Or.inl ⟨rfl, rfl⟩ | exact Or.inl ⟨rfl, rfl, rfl⟩ | exact Or.inl ⟨rfl, rfl, rfl, rfl⟩ | exact Or.inl ⟨rfl, rfl, rfl, rfl, rfl⟩
           | exact Or.inl ⟨rfl, rfl, rfl, rfl, rfl, rfl⟩ | exact Or.inl ⟨rfl, rfl, rfl, rfl, rfl, rfl, rfl⟩ | exact Or.inl ⟨rfl, rfl, rfl, rfl, rfl, rfl, rfl, rfl, rfl⟩
           | exact Or.inl ⟨rfl, rfl, rfl, rfl, rfl, rfl, rfl, rfl, rfl, rfl, rfl, rfl, rfl, rfl⟩)
         with_reducible (cases p <;> first
           | exact Or.inl rfl | exact Or.inl ⟨rfl, rfl⟩ | exact Or.inl ⟨rfl, rfl, rfl⟩ | exact Or.inl ⟨rfl, rfl, rfl, rfl⟩ | exact Or.inl ⟨rfl, rfl, rfl, rfl, rfl⟩
           | exact Or.inl ⟨rfl, rfl, rfl, rfl, rfl, rfl⟩ | exact Or.inl ⟨rfl, rfl, rfl, rfl, rfl, rfl, rfl⟩ | exact Or.inl ⟨rfl, rfl, rfl, rfl, rfl, rfl, rfl, rfl, rfl⟩
           | exact Or.inl ⟨rfl, rfl, rfl, rfl, rfl, rfl, rfl, rfl, rfl, rfl, rfl, rfl, rfl, rfl⟩
           | exact Or.inr ⟨hE _ (by decide), True.intro⟩ | exact Or.inr ⟨hE _ (by decide), _, rfl⟩))
    | fail

theorem State.event_keeps {I : Inv} {s : State} (hE : I.has [.events]) (h : I.P s) {source : Nat} {type : Nat} {body : List Byte}  :
    I.P (State.event s source type body) := by
  unfold State.event
  try dsimp only
  repeat' first
    | with_reducible assumption
    | intro _
    | with_reducible refine State.eventAt_keeps (hE.sub rfl) ?_
    | dsimp only

theorem State.statusEventAt_keeps {I : Inv} {s : State} (hE : I.has [.events]) (h : I.P s) {lsn : Nat} {source : Nat} {unit : Nat} {sub : Nat} {bitsUp : Nat} {value : Nat}  :
    I.P (State.statusEventAt s lsn source unit sub bitsUp value) := by
  unfold State.statusEventAt
  try dsimp only
  repeat' first
    | with_reducible assumption
    | intro _
    | with_reducible refine State.eventAt_keeps (hE.sub rfl) ?_
    | dsimp only

theorem State.statusEvent_keeps {I : Inv} {s : State} (hE : I.has [.events]) (h : I.P s) {source : Nat} {unit : Nat} {sub : Nat} {bitsUp : Nat} {value : Nat}  :
    I.P (State.statusEvent s source unit sub bitsUp value) := by
  unfold State.statusEvent
  try dsimp only
  repeat' first
    | with_reducible assumption
    | intro _
    | with_reducible refine State.statusEventAt_keeps (hE.sub rfl) ?_
    | dsimp only

theorem State.rateLimited_keeps {I : Inv} {s : State} (hE : I.has [.rate]) (h : I.P s) {key : Nat} {ns : Nat} {f : State → State} (hf : ∀ (u : State), I.P u → I.P (f u)) :
    I.P (State.rateLimited s key ns f) := by
  unfold State.rateLimited
  try dsimp only
  repeat' first
    | with_reducible assumption
    | intro _
    | refine hf _ ?_
    | with_reducible refine Inv.ite ?_ ?_
    | split
    | dsimp only
    | (with_reducible refine Inv.set (fun p => ?_) ?_
       · fail_if_success with_reducible (cases p <;> first
           | exact Or.inl rfl | exact Or.inl ⟨rfl, rfl⟩ | exact Or.inl ⟨rfl, rfl, rfl⟩ | exact Or.inl ⟨rfl, rfl, rfl, rfl⟩ | exact Or.inl ⟨rfl, rfl, rfl, rfl, rfl⟩
           | exact Or.inl ⟨rfl, rfl, rfl, rfl, rfl, rfl⟩ | exact Or.inl ⟨rfl, rfl, rfl, rfl, rfl, rfl, rfl⟩ | exact Or.inl ⟨rfl, rfl, rfl, rfl, rfl, rfl, rfl, rfl, rfl⟩
           | exact Or.inl ⟨rfl, rfl, rfl, rfl, rfl, rfl, rfl, rfl, rfl, rfl, rfl, rfl, rfl, rfl⟩)
         with_reducible (cases p <;> first
           | exact Or.inl rfl | exact Or.inl ⟨rfl, rfl⟩ | exact Or.inl ⟨rfl, rfl, rfl⟩ | exact Or.inl ⟨rfl, rfl, rfl, rfl⟩ | exact Or.inl ⟨rfl, rfl, rfl, rfl, rfl⟩
           | exact Or.inl ⟨rfl, rfl, rfl, rfl, rfl, rfl⟩ | exact Or.inl ⟨rfl, rfl, rfl, rfl, rfl, rfl, rfl⟩ | exact Or.inl ⟨rfl, rfl, rfl, rfl, rfl, rfl, rfl, rfl, rfl⟩
           | exact Or.inl ⟨rfl, rfl, rfl, rfl, rfl, rfl, rfl, rfl, rfl, rfl, rfl, rfl, rfl, rfl⟩
           | exact Or.inr ⟨hE _ (by decide), True.intro⟩ | exact Or.inr ⟨hE _ (by decide), _, rfl⟩))
    | fail

theorem State.tick_keeps {I : Inv} {s : State} (hE : I.has [.dt, .cores, .crv]) (h : I.P s) : I.P (State.tick s) := by
  unfold State.tick
  split
  · exact h
  · exact Inv.cores (hE.sub rfl) (Inv.crv (hE.sub rfl) (Inv.dt (hE.sub rfl) h _) _) _

theorem State.msixSend_keeps {I : Inv} {s : State} (hE : I.has [.regs, .irq, .out]) (h : I.P s) {v : Nat}  :
    I.P (State.msixSend s v) := by
  unfold State.msixSend
  try dsimp only
  repeat' first
    | with_reducible assumption
    | intro _
    | with_reducible refine State.count64_keeps (hE.sub rfl) ?_
    | with_reducible refine State.send_keeps (hE.sub rfl) ?_
    | with_reducible refine Inv.ite ?_ ?_
    | split
    | dsimp only
    | (with_reducible refine Inv.set (fun p => ?_) ?_
       · fail_if_success with_reducible (cases p <;> first
           | exact Or.inl rfl | exact Or.inl ⟨rfl, rfl⟩ | exact Or.inl ⟨rfl, rfl, rfl⟩ | exact Or.inl ⟨rfl, rfl, rfl, rfl⟩ | exact Or.inl ⟨rfl, rfl, rfl, rfl, rfl⟩
           | exact Or.inl ⟨rfl, rfl, rfl, rfl, rfl, rfl⟩ | exact Or.inl ⟨rfl, rfl, rfl, rfl, rfl, rfl, rfl⟩ | exact Or.inl ⟨rfl, rfl, rfl, rfl, rfl, rfl, rfl, rfl, rfl⟩
           | exact Or.inl ⟨rfl, rfl, rfl, rfl, rfl, rfl, rfl, rfl, rfl, rfl, rfl, rfl, rfl, rfl⟩)
         with_reducible (cases p <;> first
           | exact Or.inl rfl | exact Or.inl ⟨rfl, rfl⟩ | exact Or.inl ⟨rfl, rfl, rfl⟩ | exact Or.inl ⟨rfl, rfl, rfl, rfl⟩ | exact Or.inl ⟨rfl, rfl, rfl, rfl, rfl⟩
           | exact Or.inl ⟨rfl, rfl, rfl, rfl, rfl, rfl⟩ | exact Or.inl ⟨rfl, rfl, rfl, rfl, rfl, rfl, rfl⟩ | exact Or.inl ⟨rfl, rfl, rfl, rfl, rfl, rfl, rfl, rfl, rfl⟩
           | exact Or.inl ⟨rfl, rfl, rfl, rfl, rfl, rfl, rfl, rfl, rfl, rfl, rfl, rfl, rfl, rfl⟩
           | exact Or.inr ⟨hE _ (by decide), True.intro⟩ | exact Or.inr ⟨hE _ (by decide), _, rfl⟩))
    | fail

theorem State.msixRaise_keeps {I : Inv} {s : State} (hE : I.has [.regs, .irq, .out]) (h : I.P s) {v : Nat}  :
    I.P (State.msixRaise s v) := by
  unfold State.msixRaise
  try dsimp only
  repeat' first
    | with_reducible assumption
    | intro _
    | with_reducible refine State.msixSend_keeps (hE.sub rfl) ?_
    | with_reducible refine Inv.ite ?_ ?_
    | split
    | dsimp only
    | (with_reducible refine Inv.set (fun p => ?_) ?_
       · fail_if_success with_reducible (cases p <;> first
           | exact Or.inl rfl | exact Or.inl ⟨rfl, rfl⟩ | exact Or.inl ⟨rfl, rfl, rfl⟩ | exact Or.inl ⟨rfl, rfl, rfl, rfl⟩ | exact Or.inl ⟨rfl, rfl, rfl, rfl, rfl⟩
           | exact Or.inl ⟨rfl, rfl, rfl, rfl, rfl, rfl⟩ | exact Or.inl ⟨rfl, rfl, rfl, rfl, rfl, rfl, rfl⟩ | exact Or.inl ⟨rfl, rfl, rfl, rfl, rfl, rfl, rfl, rfl, rfl⟩
           | exact Or.inl ⟨rfl, rfl, rfl, rfl, rfl, rfl, rfl, rfl, rfl, rfl, rfl, rfl, rfl, rfl⟩)
         with_reducible (cases p <;> first
           | exact Or.inl rfl | exact Or.inl ⟨rfl, rfl⟩ | exact Or.inl ⟨rfl, rfl, rfl⟩ | exact Or.inl ⟨rfl, rfl, rfl, rfl⟩ | exact Or.inl ⟨rfl, rfl, rfl, rfl, rfl⟩
           | exact Or.inl ⟨rfl, rfl, rfl, rfl, rfl, rfl⟩ | exact Or.inl ⟨rfl, rfl, rfl, rfl, rfl, rfl, rfl⟩ | exact Or.inl ⟨rfl, rfl, rfl, rfl, rfl, rfl, rfl, rfl, rfl⟩
           | exact Or.inl ⟨rfl, rfl, rfl, rfl, rfl, rfl, rfl, rfl, rfl, rfl, rfl, rfl, rfl, rfl⟩
           | exact Or.inr ⟨hE _ (by decide), True.intro⟩ | exact Or.inr ⟨hE _ (by decide), _, rfl⟩))
    | fail

theorem State.intUpdate_keeps {I : Inv} {s : State} (hE : I.has [.regs, .irq, .out]) (h : I.P s) {b : Block} {f : State → State} (hf : ∀ (u : State), I.P u → I.P (f u)) :
    I.P (State.intUpdate s b f) := by
  unfold State.intUpdate
  try dsimp only
  repeat' first
    | with_reducible assumption
    | intro _
    | refine hf _ ?_
    | with_reducible refine State.msixRaise_keeps (hE.sub rfl) ?_
    | with_reducible refine Inv.ite ?_ ?_
    | split
    | dsimp only

theorem State.raiseInt_keeps {I : Inv} {s : State} (hE : I.has [.regs, .irq, .out]) (h : I.P s) {b : Block} {bitsUp : Nat}  :
    I.P (State.raiseInt s b bitsUp) := by
  unfold State.raiseInt
  try dsimp only
  repeat' first
    | with_reducible assumption
    | intro _
    | with_reducible refine State.intUpdate_keeps (hE.sub rfl) ?_ ?_
    | with_reducible refine State.setReg_keeps (hE.sub rfl) ?_
    | dsimp only

theorem State.raiseStatus_keeps {I : Inv} {s : State} (hE : I.has [.regs, .irq, .events, .out]) (h : I.P s) {b : Block} {bitsUp : Nat} {source : Nat} {unit : Nat} {sub : Nat} {value : Nat}  :
    I.P (State.raiseStatus s b bitsUp source unit sub value) := by
  unfold State.raiseStatus
  try dsimp only
  repeat' first
    | with_reducible assumption
    | intro _
    | with_reducible refine State.statusEvent_keeps (hE.sub rfl) ?_
    | with_reducible refine State.raiseInt_keeps (hE.sub rfl) ?_
    | dsimp only

theorem State.raiseStatusAt_keeps {I : Inv} {s : State} (hE : I.has [.regs, .irq, .events, .out]) (h : I.P s) {lsn : Nat} {b : Block} {bitsUp : Nat} {source : Nat} {unit : Nat} {sub : Nat} {value : Nat}  :
    I.P (State.raiseStatusAt s lsn b bitsUp source unit sub value) := by
  unfold State.raiseStatusAt
  try dsimp only
  repeat' first
    | with_reducible assumption
    | intro _
    | with_reducible refine State.statusEventAt_keeps (hE.sub rfl) ?_
    | with_reducible refine State.raiseInt_keeps (hE.sub rfl) ?_
    | dsimp only

theorem State.oasisUsed_keeps {I : Inv} {s : State} (hE : I.has [.regs, .free]) (h : I.P s)   :
    I.P (State.oasisUsed s) := by
  unfold State.oasisUsed
  try dsimp only
  repeat' first
    | with_reducible assumption
    | intro _
    | with_reducible refine State.countFree_keeps (hE.sub rfl) ?_
    | dsimp only

theorem State.oasisUncorrectable_keeps {I : Inv} {s : State} (hE : I.has [.regs, .irq, .events, .out]) (h : I.P s) {a : Nat}  :
    I.P (State.oasisUncorrectable s a) := by
  unfold State.oasisUncorrectable
  try dsimp only
  repeat' first
    | with_reducible assumption
    | intro _
    | with_reducible refine State.raiseStatus_keeps (hE.sub rfl) ?_
    | with_reducible refine State.count64_keeps (hE.sub rfl) ?_
    | with_reducible refine State.setReg_keeps (hE.sub rfl) ?_
    | dsimp only

theorem State.oasisCorrected_keeps {I : Inv} {s : State} (hE : I.has [.rate, .regs, .irq, .events, .out]) (h : I.P s) {a : Nat}  :
    I.P (State.oasisCorrected s a) := by
  unfold State.oasisCorrected
  try dsimp only
  repeat' first
    | with_reducible assumption
    | intro _
    | with_reducible refine State.statusEvent_keeps (hE.sub rfl) ?_
    | with_reducible refine State.rateLimited_keeps (hE.sub rfl) ?_ ?_
    | with_reducible refine State.raiseInt_keeps (hE.sub rfl) ?_
    | with_reducible refine State.count64_keeps (hE.sub rfl) ?_
    | with_reducible refine Inv.ite ?_ ?_
    | split
    | dsimp only

theorem State.granuleSeen_keeps {I : Inv} {s : State} (hE : I.has [.rate, .regs, .irq, .events, .out]) (h : I.P s) {g : Nat}  :
    I.P (State.granuleSeen s g) := by
  unfold State.granuleSeen
  try dsimp only
  repeat' first
    | with_reducible assumption
    | intro _
    | with_reducible refine State.oasisUncorrectable_keeps (hE.sub rfl) ?_
    | with_reducible refine State.oasisCorrected_keeps (hE.sub rfl) ?_
    | with_reducible refine Inv.ite ?_ ?_
    | split
    | dsimp only

theorem State.oasisSeen_keeps {I : Inv} {s : State} (hE : I.has [.rate, .regs, .irq, .events, .out, .free]) (h : I.P s) {a : Nat} {n : Nat}  :
    I.P (State.oasisSeen s a n) := by
  unfold State.oasisSeen
  try dsimp only
  repeat' first
    | with_reducible assumption
    | intro _
    | with_reducible refine State.granuleSeen_keeps (hE.sub rfl) ?_
    | with_reducible refine State.oasisUsed_keeps (hE.sub rfl) ?_
    | with_reducible refine Inv.foldl ?_ ?_
    | with_reducible refine Inv.ite ?_ ?_
    | split
    | dsimp only

end Sys2Proof.Machine
end

