-- ==== Sys2Proof/Laws/KeepsLedgerOps.lean ====
section
/-! SUPPORT. The operations of Machine/LedgerOps.lean keep every predicate that lets their parts change. -/

set_option linter.unreachableTactic false
set_option linter.unusedTactic false

namespace Sys2Proof.Machine

theorem State.ledgerLevel_keeps {I : Inv} {s : State} (hE : I.has [.regs, .irq, .ledger, .events, .out]) (h : I.P s)   :
    I.P (State.ledgerLevel s) := by
  unfold State.ledgerLevel
  try dsimp only
  repeat' first
    | with_reducible assumption
    | intro _
    | with_reducible refine State.raiseInt_keeps (hE.sub rfl) ?_
    | with_reducible refine State.event_keeps (hE.sub rfl) ?_
    | with_reducible refine Inv.ite ?_ ?_
    | split
    | dsimp only
    | (with_reducible refine Inv.set (fun p => ?_) ?_
       · fail_if_success with_reducible (cases p <;> first
           | exact Or.inl rfl | exact Or.inl ⟨rfl, rfl⟩ | exact Or.inl ⟨rfl, rfl, rfl⟩ | exact Or.inl ⟨rfl, rfl, rfl, rfl⟩ | exact Or.inl ⟨rfl, rfl, rfl, rfl, rfl⟩
           | exact Or.inl ⟨rfl, rfl, rfl, rfl, rfl, rfl⟩ | exact Or.inl ⟨rfl, rfl, rfl, rfl, rfl, rfl, rfl⟩ | exact Or.inl ⟨rfl, rfl, rfl, rfl, rfl, rfl, rfl, rfl, rfl⟩
           | exact Or.inl ⟨rfl, rfl, rfl, rfl, rfl, rfl, rfl, rfl, rfl, rfl, rfl, rfl, rfl, rfl⟩)
         with_reducible (cases p <;> first
           | exact Or.inl rfl | exact Or.inl ⟨rfl, rfl⟩ | exact Or.inl ⟨rfl, rfl, rfl⟩ | exact Or.inl ⟨rfl, rfl, rfl, rfl⟩ | exact Or.inl ⟨rfl, rfl, rfl, rfl, rfl⟩
           | exact Or.inl ⟨rfl, rfl, rfl, rfl, rfl, rfl⟩ | exact Or.inl ⟨rfl, rfl, rfl, rfl, rfl, rfl, rfl⟩ | exact Or.inl ⟨rfl, rfl, rfl, rfl, rfl, rfl, rfl, rfl, rfl⟩
           | exact Or.inl ⟨rfl, rfl, rfl, rfl, rfl, rfl, rfl, rfl, rfl, rfl, rfl, rfl, rfl, rfl⟩
           | exact Or.inr ⟨hE _ (by decide), True.intro⟩ | exact Or.inr ⟨hE _ (by decide), _, rfl⟩))
    | fail

/-- One entry joins the chain (R583): its PREV is the newest entry's hash. -/
theorem State.ledgerPush_keeps {I : Inv} {s : State} (hE : I.has [.regs, .dict, .irq, .chain, .ledger, .events, .out]) (h : I.P s) {n : LedgerNote} : I.P (State.ledgerPush s n) := by
  unfold State.ledgerPush
  dsimp only
  refine State.ledgerLevel_keeps (hE.sub rfl) ?_
  have key : I.P { s with ledger := { s.ledger with
      entries := (⟨s.ledger.count, ledgerBytes s.ledger.count s.dt n (if s.ledger.count = 0 then s.ledger.genesisPrev else s.ledger.headHash)⟩ ::
        s.ledger.entries).take ledgerCapacity
      count := s.ledger.count + 1
      headHash := digest (ledgerBytes s.ledger.count s.dt n (if s.ledger.count = 0 then s.ledger.genesisPrev else s.ledger.headHash)) } } :=
    I.link (hE _ (by decide)) (hE _ (by decide)) s _ n _ rfl (fun h0 => if_neg h0) rfl rfl h
  split
  · refine State.countOd_keeps (hE.sub rfl) (State.count64_keeps (hE.sub rfl) ?_)
    refine I.upd { s with ledger := { s.ledger with entries := _, count := _, headHash := _ } } _ rfl (fun p => ?_) key
    cases p <;> first
      | exact Or.inl rfl | exact Or.inl ⟨rfl, rfl⟩ | exact Or.inl ⟨rfl, rfl, rfl⟩ | exact Or.inl ⟨rfl, rfl, rfl, rfl⟩ | exact Or.inl ⟨rfl, rfl, rfl, rfl, rfl⟩
      | exact Or.inl ⟨rfl, rfl, rfl, rfl, rfl, rfl⟩ | exact Or.inl ⟨rfl, rfl, rfl, rfl, rfl, rfl, rfl⟩ | exact Or.inl ⟨rfl, rfl, rfl, rfl, rfl, rfl, rfl, rfl, rfl⟩
      | exact Or.inl ⟨rfl, rfl, rfl, rfl, rfl, rfl, rfl, rfl, rfl, rfl, rfl, rfl, rfl, rfl⟩
      | exact Or.inr ⟨hE _ (by decide), True.intro⟩
  · refine State.count64_keeps (hE.sub rfl) ?_
    refine I.upd { s with ledger := { s.ledger with entries := _, count := _, headHash := _ } } _ rfl (fun p => ?_) key
    cases p <;> first
      | exact Or.inl rfl | exact Or.inl ⟨rfl, rfl⟩ | exact Or.inl ⟨rfl, rfl, rfl⟩ | exact Or.inl ⟨rfl, rfl, rfl, rfl⟩ | exact Or.inl ⟨rfl, rfl, rfl, rfl, rfl⟩
      | exact Or.inl ⟨rfl, rfl, rfl, rfl, rfl, rfl⟩ | exact Or.inl ⟨rfl, rfl, rfl, rfl, rfl, rfl, rfl⟩ | exact Or.inl ⟨rfl, rfl, rfl, rfl, rfl, rfl, rfl, rfl, rfl⟩
      | exact Or.inl ⟨rfl, rfl, rfl, rfl, rfl, rfl, rfl, rfl, rfl, rfl, rfl, rfl, rfl, rfl⟩
      | exact Or.inr ⟨hE _ (by decide), True.intro⟩

theorem State.ledgerAppend_keeps {I : Inv} {s : State} (hE : I.has [.regs, .dict, .irq, .chain, .ledger, .events, .out]) (h : I.P s) {n : LedgerNote}  :
    I.P (State.ledgerAppend s n) := by
  unfold State.ledgerAppend
  repeat' first
    | with_reducible assumption
    | (extract_lets +onlyGivenNames v
       first
         | (have hv : I.P v := by
              dsimp only [v]
              repeat' first
                | with_reducible assumption
                | intro _
                | with_reducible refine State.ledgerPush_keeps (hE.sub rfl) ?_
                | with_reducible refine State.raiseInt_keeps (hE.sub rfl) ?_
                | with_reducible refine State.event_keeps (hE.sub rfl) ?_
                | with_reducible refine Inv.ite ?_ ?_
                | split
                | dsimp only
                | (with_reducible refine Inv.set (fun p => ?_) ?_
                   · fail_if_success with_reducible (cases p <;> first
                       | exact Or.inl rfl | exact Or.inl ⟨rfl, rfl⟩ | exact Or.inl ⟨rfl, rfl, rfl⟩ | exact Or.inl ⟨rfl, rfl, rfl, rfl⟩ | exact Or.inl ⟨rfl, rfl, rfl, rfl, rfl⟩
                       | exact Or.inl ⟨rfl, rfl, rfl, rfl, rfl, rfl⟩ | exact Or.inl ⟨rfl, rfl, rfl, rfl, rfl, rfl, rfl⟩ | exact Or.inl ⟨rfl, rfl, rfl, rfl, rfl, rfl, rfl, rfl, rfl⟩
                       | exact Or.inl ⟨rfl, rfl, rfl, rfl, rfl, rfl, rfl, rfl, rfl, rfl, rfl, rfl, rfl, rfl⟩)
                     with_reducible (cases p <;> first
                       | exact Or.inl rfl | exact Or.inl ⟨rfl, rfl⟩ | exact Or.inl ⟨rfl, rfl, rfl⟩ | exact Or.inl ⟨rfl, rfl, rfl, rfl⟩ | exact Or.inl ⟨rfl, rfl, rfl, rfl, rfl⟩
                       | exact Or.inl ⟨rfl, rfl, rfl, rfl, rfl, rfl⟩ | exact Or.inl ⟨rfl, rfl, rfl, rfl, rfl, rfl, rfl⟩ | exact Or.inl ⟨rfl, rfl, rfl, rfl, rfl, rfl, rfl, rfl, rfl⟩
                       | exact Or.inl ⟨rfl, rfl, rfl, rfl, rfl, rfl, rfl, rfl, rfl, rfl, rfl, rfl, rfl, rfl⟩
                       | exact Or.inr ⟨hE _ (by decide), True.intro⟩ | exact Or.inr ⟨hE _ (by decide), _, rfl⟩))
                | fail
            clear_value v)
         | (try dsimp only [v]
            clear v))
    | intro _
    | with_reducible refine State.ledgerPush_keeps (hE.sub rfl) ?_
    | with_reducible refine State.raiseInt_keeps (hE.sub rfl) ?_
    | with_reducible refine State.event_keeps (hE.sub rfl) ?_
    | with_reducible refine Inv.ite ?_ ?_
    | split
    | dsimp only
    | (with_reducible refine Inv.set (fun p => ?_) ?_
       · fail_if_success with_reducible (cases p <;> first
           | exact Or.inl rfl | exact Or.inl ⟨rfl, rfl⟩ | exact Or.inl ⟨rfl, rfl, rfl⟩ | exact Or.inl ⟨rfl, rfl, rfl, rfl⟩ | exact Or.inl ⟨rfl, rfl, rfl, rfl, rfl⟩
           | exact Or.inl ⟨rfl, rfl, rfl, rfl, rfl, rfl⟩ | exact Or.inl ⟨rfl, rfl, rfl, rfl, rfl, rfl, rfl⟩ | exact Or.inl ⟨rfl, rfl, rfl, rfl, rfl, rfl, rfl, rfl, rfl⟩
           | exact Or.inl ⟨rfl, rfl, rfl, rfl, rfl, rfl, rfl, rfl, rfl, rfl, rfl, rfl, rfl, rfl⟩)
         with_reducible (cases p <;> first
           | exact Or.inl rfl | exact Or.inl ⟨rfl, rfl⟩ | exact Or.inl ⟨rfl, rfl, rfl⟩ | exact Or.inl ⟨rfl, rfl, rfl, rfl⟩ | exact Or.inl ⟨rfl, rfl, rfl, rfl, rfl⟩
           | exact Or.inl ⟨rfl, rfl, rfl, rfl, rfl, rfl⟩ | exact Or.inl ⟨rfl, rfl, rfl, rfl, rfl, rfl, rfl⟩ | exact Or.inl ⟨rfl, rfl, rfl, rfl, rfl, rfl, rfl, rfl, rfl⟩
           | exact Or.inl ⟨rfl, rfl, rfl, rfl, rfl, rfl, rfl, rfl, rfl, rfl, rfl, rfl, rfl, rfl⟩
           | exact Or.inr ⟨hE _ (by decide), True.intro⟩ | exact Or.inr ⟨hE _ (by decide), _, rfl⟩))
    | fail

theorem State.ledgerWrite_keeps {I : Inv} {s : State} (hE : I.has [.regs, .dict, .irq, .chain, .ledger, .events, .out]) (h : I.P s) {kind : Nat} {flags : Nat} {o : Origin} {key : Nat} {width : Nat} {value : Nat} {lsn : Nat}  :
    I.P (State.ledgerWrite s kind flags o key width value lsn) := by
  unfold State.ledgerWrite
  try dsimp only
  repeat' first
    | with_reducible assumption
    | intro _
    | with_reducible refine State.ledgerAppend_keeps (hE.sub rfl) ?_
    | dsimp only

theorem State.ledgerWriteBytes_keeps {I : Inv} {s : State} (hE : I.has [.regs, .dict, .irq, .chain, .ledger, .events, .out]) (h : I.P s) {kind : Nat} {o : Origin} {key : Nat} {bs : List Byte} {lsn : Nat}  :
    I.P (State.ledgerWriteBytes s kind o key bs lsn) := by
  unfold State.ledgerWriteBytes
  try dsimp only
  repeat' first
    | with_reducible assumption
    | intro _
    | with_reducible refine State.ledgerAppend_keeps (hE.sub rfl) ?_
    | dsimp only

end Sys2Proof.Machine
end

