-- ==== Sys2Proof/Laws/KeepsIngressOps.lean ====
section
/-! SUPPORT. The operations of Machine/IngressOps.lean keep every predicate that lets their parts change. -/

set_option linter.unreachableTactic false
set_option linter.unusedTactic false

namespace Sys2Proof.Machine

theorem State.modPort_keeps {I : Inv} {s : State} (hE : I.has [.ports]) (h : I.P s) {c : PortIx} {f : Port → Port}  :
    I.P (State.modPort s c f) := by
  unfold State.modPort
  try dsimp only
  repeat' first
    | with_reducible assumption
    | intro _
    | dsimp only
    | with_reducible refine Inv.ports (hE.sub rfl) ?_ _
    | (with_reducible refine Inv.set (fun p => ?_) ?_
       · fail_if_success with_reducible (cases p <;> first
           | exact Or.inl rfl | exact Or.inl ⟨rfl, rfl⟩ | exact Or.inl ⟨rfl, rfl, rfl⟩ | exact Or.inl ⟨rfl, rfl, rfl, rfl⟩ | exact Or.inl ⟨rfl, rfl, rfl, rfl, rfl⟩
           | exact Or.inl ⟨rfl, rfl, rfl, rfl, rfl, rfl⟩ | exact Or.inl ⟨rfl, rfl, rfl, rfl, rfl, rfl, rfl⟩ | exact Or.inl ⟨rfl, rfl, rfl, rfl, rfl, rfl, rfl, rfl, rfl⟩
           | exact Or.inl ⟨rfl, rfl, rfl, rfl, rfl, rfl, rfl, rfl, rfl, rfl, rfl, rfl, rfl, rfl⟩)
         with_reducible (cases p <;> first
           | exact Or.inl rfl | exact Or.inl ⟨rfl, rfl⟩ | exact Or.inl ⟨rfl, rfl, rfl⟩ | exact Or.inl ⟨rfl, rfl, rfl, rfl⟩ | exact Or.inl ⟨rfl, rfl, rfl, rfl, rfl⟩
           | exact Or.inl ⟨rfl, rfl, rfl, rfl, rfl, rfl⟩ | exact Or.inl ⟨rfl, rfl, rfl, rfl, rfl, rfl, rfl⟩ | exact Or.inl ⟨rfl, rfl, rfl, rfl, rfl, rfl, rfl, rfl, rfl⟩
           | exact Or.inl ⟨rfl, rfl, rfl, rfl, rfl, rfl, rfl, rfl, rfl, rfl, rfl, rfl, rfl, rfl⟩
           | exact Or.inr ⟨hE _ (by decide), True.intro⟩ | exact Or.inr ⟨hE _ (by decide), _, rfl⟩))
    | fail

theorem State.modFs_keeps {I : Inv} {s : State} (hE : I.has [.fsPorts]) (h : I.P s) {c : PortIx} {f : FsPort → FsPort}  :
    I.P (State.modFs s c f) := by
  unfold State.modFs
  try dsimp only
  repeat' first
    | with_reducible assumption
    | intro _
    | dsimp only
    | with_reducible refine Inv.fsPorts (hE.sub rfl) ?_ _
    | (with_reducible refine Inv.set (fun p => ?_) ?_
       · fail_if_success with_reducible (cases p <;> first
           | exact Or.inl rfl | exact Or.inl ⟨rfl, rfl⟩ | exact Or.inl ⟨rfl, rfl, rfl⟩ | exact Or.inl ⟨rfl, rfl, rfl, rfl⟩ | exact Or.inl ⟨rfl, rfl, rfl, rfl, rfl⟩
           | exact Or.inl ⟨rfl, rfl, rfl, rfl, rfl, rfl⟩ | exact Or.inl ⟨rfl, rfl, rfl, rfl, rfl, rfl, rfl⟩ | exact Or.inl ⟨rfl, rfl, rfl, rfl, rfl, rfl, rfl, rfl, rfl⟩
           | exact Or.inl ⟨rfl, rfl, rfl, rfl, rfl, rfl, rfl, rfl, rfl, rfl, rfl, rfl, rfl, rfl⟩)
         with_reducible (cases p <;> first
           | exact Or.inl rfl | exact Or.inl ⟨rfl, rfl⟩ | exact Or.inl ⟨rfl, rfl, rfl⟩ | exact Or.inl ⟨rfl, rfl, rfl, rfl⟩ | exact Or.inl ⟨rfl, rfl, rfl, rfl, rfl⟩
           | exact Or.inl ⟨rfl, rfl, rfl, rfl, rfl, rfl⟩ | exact Or.inl ⟨rfl, rfl, rfl, rfl, rfl, rfl, rfl⟩ | exact Or.inl ⟨rfl, rfl, rfl, rfl, rfl, rfl, rfl, rfl, rfl⟩
           | exact Or.inl ⟨rfl, rfl, rfl, rfl, rfl, rfl, rfl, rfl, rfl, rfl, rfl, rfl, rfl, rfl⟩
           | exact Or.inr ⟨hE _ (by decide), True.intro⟩ | exact Or.inr ⟨hE _ (by decide), _, rfl⟩))
    | fail

theorem State.modSlice_keeps {I : Inv} {s : State} (hE : I.has [.slices]) (h : I.P s) {k : SliceIx} {f : Slice → Slice}  :
    I.P (State.modSlice s k f) := by
  unfold State.modSlice
  try dsimp only
  repeat' first
    | with_reducible assumption
    | intro _
    | dsimp only
    | with_reducible refine Inv.slices (hE.sub rfl) ?_ _
    | (with_reducible refine Inv.set (fun p => ?_) ?_
       · fail_if_success with_reducible (cases p <;> first
           | exact Or.inl rfl | exact Or.inl ⟨rfl, rfl⟩ | exact Or.inl ⟨rfl, rfl, rfl⟩ | exact Or.inl ⟨rfl, rfl, rfl, rfl⟩ | exact Or.inl ⟨rfl, rfl, rfl, rfl, rfl⟩
           | exact Or.inl ⟨rfl, rfl, rfl, rfl, rfl, rfl⟩ | exact Or.inl ⟨rfl, rfl, rfl, rfl, rfl, rfl, rfl⟩ | exact Or.inl ⟨rfl, rfl, rfl, rfl, rfl, rfl, rfl, rfl, rfl⟩
           | exact Or.inl ⟨rfl, rfl, rfl, rfl, rfl, rfl, rfl, rfl, rfl, rfl, rfl, rfl, rfl, rfl⟩)
         with_reducible (cases p <;> first
           | exact Or.inl rfl | exact Or.inl ⟨rfl, rfl⟩ | exact Or.inl ⟨rfl, rfl, rfl⟩ | exact Or.inl ⟨rfl, rfl, rfl, rfl⟩ | exact Or.inl ⟨rfl, rfl, rfl, rfl, rfl⟩
           | exact Or.inl ⟨rfl, rfl, rfl, rfl, rfl, rfl⟩ | exact Or.inl ⟨rfl, rfl, rfl, rfl, rfl, rfl, rfl⟩ | exact Or.inl ⟨rfl, rfl, rfl, rfl, rfl, rfl, rfl, rfl, rfl⟩
           | exact Or.inl ⟨rfl, rfl, rfl, rfl, rfl, rfl, rfl, rfl, rfl, rfl, rfl, rfl, rfl, rfl⟩
           | exact Or.inr ⟨hE _ (by decide), True.intro⟩ | exact Or.inr ⟨hE _ (by decide), _, rfl⟩))
    | fail

theorem State.noteWait_keeps {I : Inv} {s : State} (hE : I.has [.slices]) (h : I.P s) {k : SliceIx}  :
    I.P (State.noteWait s k) := by
  unfold State.noteWait
  try dsimp only
  repeat' first
    | with_reducible assumption
    | intro _
    | with_reducible refine State.modSlice_keeps (hE.sub rfl) ?_
    | with_reducible refine Inv.ite ?_ ?_
    | split
    | dsimp only

theorem State.noteWaits_keeps {I : Inv} {s : State} (hE : I.has [.slices]) (h : I.P s)   :
    I.P (State.noteWaits s) := by
  unfold State.noteWaits
  try dsimp only
  repeat' first
    | with_reducible assumption
    | intro _
    | with_reducible refine State.noteWait_keeps (hE.sub rfl) ?_
    | with_reducible refine Inv.foldl ?_ ?_
    | dsimp only

theorem State.ringMark_keeps {I : Inv} {s : State} (hE : I.has [.fsPorts, .events]) (h : I.P s) {c : PortIx}  :
    I.P (State.ringMark s c) := by
  unfold State.ringMark
  try dsimp only
  repeat' first
    | with_reducible assumption
    | intro _
    | with_reducible refine State.statusEvent_keeps (hE.sub rfl) ?_
    | with_reducible refine State.modFs_keeps (hE.sub rfl) ?_
    | with_reducible refine Inv.ite ?_ ?_
    | split
    | dsimp only

theorem State.camCount_keeps {I : Inv} {s : State} (hE : I.has [.regs]) (h : I.P s) {off : Nat} {n : Nat}  :
    I.P (State.camCount s off n) := by
  unfold State.camCount
  try dsimp only
  repeat' first
    | with_reducible assumption
    | intro _
    | with_reducible refine State.count32_keeps (hE.sub rfl) ?_
    | dsimp only

theorem State.camInt_keeps {I : Inv} {s : State} (hE : I.has [.regs, .irq, .out]) (h : I.P s) {c : PortIx} {b : Nat}  :
    I.P (State.camInt s c b) := by
  unfold State.camInt
  try dsimp only
  repeat' first
    | with_reducible assumption
    | intro _
    | with_reducible refine State.raiseInt_keeps (hE.sub rfl) ?_
    | dsimp only

theorem State.camStatus_keeps {I : Inv} {s : State} (hE : I.has [.regs, .irq, .events, .out]) (h : I.P s) {c : PortIx} {b : Nat}  :
    I.P (State.camStatus s c b) := by
  unfold State.camStatus
  try dsimp only
  repeat' first
    | with_reducible assumption
    | intro _
    | with_reducible refine State.raiseStatus_keeps (hE.sub rfl) ?_
    | dsimp only

theorem State.fifoTake_keeps {I : Inv} {s : State} (hE : I.has [.ports, .regs, .irq, .events, .out]) (h : I.P s) {c : PortIx} {n : Nat}  :
    I.P (State.fifoTake s c n) := by
  unfold State.fifoTake
  try dsimp only
  repeat' first
    | with_reducible assumption
    | intro _
    | with_reducible refine State.camStatus_keeps (hE.sub rfl) ?_
    | with_reducible refine State.modPort_keeps (hE.sub rfl) ?_
    | with_reducible refine State.peak_keeps (hE.sub rfl) ?_
    | with_reducible refine Inv.ite ?_ ?_
    | split
    | dsimp only

theorem State.fifoFree_keeps {I : Inv} {s : State} (hE : I.has [.ports, .regs, .irq, .events, .out]) (h : I.P s) {c : PortIx} {n : Nat}  :
    I.P (State.fifoFree s c n) := by
  unfold State.fifoFree
  try dsimp only
  repeat' first
    | with_reducible assumption
    | intro _
    | with_reducible refine State.camStatus_keeps (hE.sub rfl) ?_
    | with_reducible refine State.modPort_keeps (hE.sub rfl) ?_
    | with_reducible refine Inv.ite ?_ ?_
    | split
    | dsimp only

theorem State.fsStatusEvent_keeps {I : Inv} {s : State} (hE : I.has [.regs, .irq, .events, .out]) (h : I.P s) {c : PortIx} {b : Nat}  :
    I.P (State.fsStatusEvent s c b) := by
  unfold State.fsStatusEvent
  try dsimp only
  repeat' first
    | with_reducible assumption
    | intro _
    | with_reducible refine State.raiseStatus_keeps (hE.sub rfl) ?_
    | dsimp only

theorem State.fsStatusAt_keeps {I : Inv} {s : State} (hE : I.has [.regs, .irq, .events, .out]) (h : I.P s) {lsn : Nat} {c : PortIx} {b : Nat}  :
    I.P (State.fsStatusAt s lsn c b) := by
  unfold State.fsStatusAt
  try dsimp only
  repeat' first
    | with_reducible assumption
    | intro _
    | with_reducible refine State.raiseStatusAt_keeps (hE.sub rfl) ?_
    | dsimp only

theorem State.mpTake_keeps {I : Inv} {s : State} (hE : I.has [.fsPorts, .regs, .irq, .events, .out]) (h : I.P s) {c : PortIx} {n : Nat}  :
    I.P (State.mpTake s c n) := by
  unfold State.mpTake
  try dsimp only
  repeat' first
    | with_reducible assumption
    | intro _
    | with_reducible refine State.fsStatusEvent_keeps (hE.sub rfl) ?_
    | with_reducible refine State.modFs_keeps (hE.sub rfl) ?_
    | with_reducible refine State.peak_keeps (hE.sub rfl) ?_
    | with_reducible refine Inv.ite ?_ ?_
    | split
    | dsimp only

theorem State.mpFree_keeps {I : Inv} {s : State} (hE : I.has [.fsPorts, .regs, .irq, .events, .out]) (h : I.P s) {c : PortIx} {n : Nat}  :
    I.P (State.mpFree s c n) := by
  unfold State.mpFree
  try dsimp only
  repeat' first
    | with_reducible assumption
    | intro _
    | with_reducible refine State.fsStatusEvent_keeps (hE.sub rfl) ?_
    | with_reducible refine State.modFs_keeps (hE.sub rfl) ?_
    | with_reducible refine Inv.ite ?_ ?_
    | split
    | dsimp only

theorem State.ledgerEffect_keeps {I : Inv} {s : State} (hE : I.has [.regs, .dict, .irq, .chain, .ledger, .events, .out]) (h : I.P s) {v : MirageVal} {lsn : Nat}  :
    I.P (State.ledgerEffect s v lsn) := by
  unfold State.ledgerEffect
  try dsimp only
  repeat' first
    | with_reducible assumption
    | intro _
    | with_reducible refine State.ledgerWrite_keeps (hE.sub rfl) ?_
    | with_reducible refine Inv.ite ?_ ?_
    | split
    | dsimp only

theorem State.applyValues_keeps {I : Inv} {s : State} (hE : I.has [.regs, .dict, .irq, .chain, .ledger, .events, .out]) (h : I.P s) {lsn : Nat} {l : List MirageVal} :
    I.P (State.applyValues s lsn l) := by
  induction l generalizing s lsn with
  | nil => simpa only [State.applyValues] using h
  | cons a r ih =>
    simp only [State.applyValues]
    repeat' first
      | with_reducible assumption
      | intro _
      | refine ih ?_
      | with_reducible refine State.ledgerEffect_keeps (hE.sub rfl) ?_
      | with_reducible refine State.setOd_keeps (hE.sub rfl) ?_
      | with_reducible refine Inv.ite ?_ ?_
      | split
      | dsimp only

theorem State.applyMirage_keeps {I : Inv} {s : State} (hE : I.has [.ports, .regs, .dict, .irq, .chain, .ledger, .events, .out]) (h : I.P s) {c : PortIx} {pick : MirageVal → Bool} {x : Int}  :
    I.P (State.applyMirage s c pick x) := by
  unfold State.applyMirage
  try dsimp only
  repeat' first
    | with_reducible assumption
    | intro _
    | with_reducible refine State.applyValues_keeps (hE.sub rfl) ?_
    | with_reducible refine State.modPort_keeps (hE.sub rfl) ?_
    | with_reducible refine Inv.ite ?_ ?_
    | split
    | dsimp only

theorem State.schedLeave_keeps {I : Inv} {s : State} (hE : I.has [.regs, .dict, .doors, .irq, .chain, .ledger, .events, .out]) (h : I.P s) {e : Sched} {f : State → State} (hf : ∀ (u : State), I.P u → I.P (f u)) :
    I.P (State.schedLeave s e f) := by
  unfold State.schedLeave
  try dsimp only
  repeat' first
    | with_reducible assumption
    | intro _
    | refine hf _ ?_
    | with_reducible refine State.ledgerAppend_keeps (hE.sub rfl) ?_
    | with_reducible refine State.raiseInt_keeps (hE.sub rfl) ?_
    | with_reducible refine State.count64_keeps (hE.sub rfl) ?_
    | with_reducible refine State.event_keeps (hE.sub rfl) ?_
    | with_reducible refine Inv.ite ?_ ?_
    | split
    | dsimp only
    | with_reducible refine Inv.doors (hE.sub rfl) ?_ _
    | (with_reducible refine Inv.set (fun p => ?_) ?_
       · fail_if_success with_reducible (cases p <;> first
           | exact Or.inl rfl | exact Or.inl ⟨rfl, rfl⟩ | exact Or.inl ⟨rfl, rfl, rfl⟩ | exact Or.inl ⟨rfl, rfl, rfl, rfl⟩ | exact Or.inl ⟨rfl, rfl, rfl, rfl, rfl⟩
           | exact Or.inl ⟨rfl, rfl, rfl, rfl, rfl, rfl⟩ | exact Or.inl ⟨rfl, rfl, rfl, rfl, rfl, rfl, rfl⟩ | exact Or.inl ⟨rfl, rfl, rfl, rfl, rfl, rfl, rfl, rfl, rfl⟩
           | exact Or.inl ⟨rfl, rfl, rfl, rfl, rfl, rfl, rfl, rfl, rfl, rfl, rfl, rfl, rfl, rfl⟩)
         with_reducible (cases p <;> first
           | exact Or.inl rfl | exact Or.inl ⟨rfl, rfl⟩ | exact Or.inl ⟨rfl, rfl, rfl⟩ | exact Or.inl ⟨rfl, rfl, rfl, rfl⟩ | exact Or.inl ⟨rfl, rfl, rfl, rfl, rfl⟩
           | exact Or.inl ⟨rfl, rfl, rfl, rfl, rfl, rfl⟩ | exact Or.inl ⟨rfl, rfl, rfl, rfl, rfl, rfl, rfl⟩ | exact Or.inl ⟨rfl, rfl, rfl, rfl, rfl, rfl, rfl, rfl, rfl⟩
           | exact Or.inl ⟨rfl, rfl, rfl, rfl, rfl, rfl, rfl, rfl, rfl, rfl, rfl, rfl, rfl, rfl⟩
           | exact Or.inr ⟨hE _ (by decide), True.intro⟩ | exact Or.inr ⟨hE _ (by decide), _, rfl⟩))
    | fail

theorem State.takeScheduled_keeps {I : Inv} {s : State} (hE : I.has [.regs, .dict, .doors, .irq, .chain, .ledger, .events, .out]) (h : I.P s) {pick : MirageVal → Bool} {f : State → MirageVal → State} (hf : ∀ (u : State) (a1 : MirageVal), I.P u → I.P (f u a1)) :
    I.P (State.takeScheduled s pick f) := by
  unfold State.takeScheduled
  try dsimp only
  repeat' first
    | with_reducible assumption
    | intro _
    | refine hf _ _ ?_
    | with_reducible refine State.schedLeave_keeps (hE.sub rfl) ?_ ?_
    | with_reducible refine Inv.foldl ?_ ?_
    | dsimp only

theorem State.takeDeferred_keeps {I : Inv} {s : State} (hE : I.has [.regs, .dict, .doors, .irq, .chain, .ledger, .events, .out]) (h : I.P s) {pick : MirageVal → Bool} {lsn : Nat}  :
    I.P (State.takeDeferred s pick lsn) := by
  unfold State.takeDeferred
  try dsimp only
  repeat' first
    | with_reducible assumption
    | intro _
    | with_reducible refine State.takeScheduled_keeps (hE.sub rfl) ?_ ?_
    | with_reducible refine State.applyValues_keeps (hE.sub rfl) ?_
    | with_reducible refine Inv.ite ?_ ?_
    | split
    | dsimp only
    | with_reducible refine Inv.doors (hE.sub rfl) ?_ _
    | (with_reducible refine Inv.set (fun p => ?_) ?_
       · fail_if_success with_reducible (cases p <;> first
           | exact Or.inl rfl | exact Or.inl ⟨rfl, rfl⟩ | exact Or.inl ⟨rfl, rfl, rfl⟩ | exact Or.inl ⟨rfl, rfl, rfl, rfl⟩ | exact Or.inl ⟨rfl, rfl, rfl, rfl, rfl⟩
           | exact Or.inl ⟨rfl, rfl, rfl, rfl, rfl, rfl⟩ | exact Or.inl ⟨rfl, rfl, rfl, rfl, rfl, rfl, rfl⟩ | exact Or.inl ⟨rfl, rfl, rfl, rfl, rfl, rfl, rfl, rfl, rfl⟩
           | exact Or.inl ⟨rfl, rfl, rfl, rfl, rfl, rfl, rfl, rfl, rfl, rfl, rfl, rfl, rfl, rfl⟩)
         with_reducible (cases p <;> first
           | exact Or.inl rfl | exact Or.inl ⟨rfl, rfl⟩ | exact Or.inl ⟨rfl, rfl, rfl⟩ | exact Or.inl ⟨rfl, rfl, rfl, rfl⟩ | exact Or.inl ⟨rfl, rfl, rfl, rfl, rfl⟩
           | exact Or.inl ⟨rfl, rfl, rfl, rfl, rfl, rfl⟩ | exact Or.inl ⟨rfl, rfl, rfl, rfl, rfl, rfl, rfl⟩ | exact Or.inl ⟨rfl, rfl, rfl, rfl, rfl, rfl, rfl, rfl, rfl⟩
           | exact Or.inl ⟨rfl, rfl, rfl, rfl, rfl, rfl, rfl, rfl, rfl, rfl, rfl, rfl, rfl, rfl⟩
           | exact Or.inr ⟨hE _ (by decide), True.intro⟩ | exact Or.inr ⟨hE _ (by decide), _, rfl⟩))
    | fail

theorem State.fsBind_keeps {I : Inv} {s : State} (hE : I.has [.fsPorts]) (h : I.P s) {c : PortIx} {pick : MirageVal → Bool} {table : Bool} {first : Option Int}  :
    I.P (State.fsBind s c pick table first) := by
  unfold State.fsBind
  try dsimp only
  repeat' first
    | with_reducible assumption
    | intro _
    | with_reducible refine State.modFs_keeps (hE.sub rfl) ?_
    | with_reducible refine Inv.ite ?_ ?_
    | split
    | dsimp only

theorem State.fsFirstLine_keeps {I : Inv} {s : State} (hE : I.has [.fsPorts]) (h : I.P s) {c : PortIx} {x : Int}  :
    I.P (State.fsFirstLine s c x) := by
  unfold State.fsFirstLine
  try dsimp only
  repeat' first
    | with_reducible assumption
    | intro _
    | with_reducible refine State.modFs_keeps (hE.sub rfl) ?_
    | with_reducible refine Inv.ite ?_ ?_
    | split
    | dsimp only

theorem State.closeRun_keeps {I : Inv} {s : State} (hE : I.has [.ports, .events]) (h : I.P s) {c : PortIx}  :
    I.P (State.closeRun s c) := by
  unfold State.closeRun
  try dsimp only
  repeat' first
    | with_reducible assumption
    | intro _
    | with_reducible refine State.eventAt_keeps (hE.sub rfl) ?_
    | with_reducible refine State.modPort_keeps (hE.sub rfl) ?_
    | with_reducible refine Inv.ite ?_ ?_
    | split
    | dsimp only

theorem State.extendRun_keeps {I : Inv} {s : State} (hE : I.has [.ports, .events]) (h : I.P s) {c : PortIx} {l : CamLine}  :
    I.P (State.extendRun s c l) := by
  unfold State.extendRun
  try dsimp only
  repeat' first
    | with_reducible assumption
    | intro _
    | with_reducible refine State.closeRun_keeps (hE.sub rfl) ?_
    | with_reducible refine State.modPort_keeps (hE.sub rfl) ?_
    | with_reducible refine Inv.ite ?_ ?_
    | split
    | dsimp only

theorem State.emitLine_keeps {I : Inv} {s : State} (hE : I.has [.web, .ports, .slices, .regs, .dict, .events]) (h : I.P s) {c : PortIx} {l : CamLine}  :
    I.P (State.emitLine s c l) := by
  unfold State.emitLine
  try dsimp only
  repeat' first
    | with_reducible assumption
    | intro _
    | with_reducible refine State.extendRun_keeps (hE.sub rfl) ?_
    | with_reducible refine State.noteWait_keeps (hE.sub rfl) ?_
    | with_reducible refine State.closeRun_keeps (hE.sub rfl) ?_
    | with_reducible refine State.camCount_keeps (hE.sub rfl) ?_
    | with_reducible refine State.countOd_keeps (hE.sub rfl) ?_
    | with_reducible refine State.modPort_keeps (hE.sub rfl) ?_
    | with_reducible refine Inv.ite ?_ ?_
    | split
    | dsimp only
    | (with_reducible refine Inv.set (fun p => ?_) ?_
       · fail_if_success with_reducible (cases p <;> first
           | exact Or.inl rfl | exact Or.inl ⟨rfl, rfl⟩ | exact Or.inl ⟨rfl, rfl, rfl⟩ | exact Or.inl ⟨rfl, rfl, rfl, rfl⟩ | exact Or.inl ⟨rfl, rfl, rfl, rfl, rfl⟩
           | exact Or.inl ⟨rfl, rfl, rfl, rfl, rfl, rfl⟩ | exact Or.inl ⟨rfl, rfl, rfl, rfl, rfl, rfl, rfl⟩ | exact Or.inl ⟨rfl, rfl, rfl, rfl, rfl, rfl, rfl, rfl, rfl⟩
           | exact Or.inl ⟨rfl, rfl, rfl, rfl, rfl, rfl, rfl, rfl, rfl, rfl, rfl, rfl, rfl, rfl⟩)
         with_reducible (cases p <;> first
           | exact Or.inl rfl | exact Or.inl ⟨rfl, rfl⟩ | exact Or.inl ⟨rfl, rfl, rfl⟩ | exact Or.inl ⟨rfl, rfl, rfl, rfl⟩ | exact Or.inl ⟨rfl, rfl, rfl, rfl, rfl⟩
           | exact Or.inl ⟨rfl, rfl, rfl, rfl, rfl, rfl⟩ | exact Or.inl ⟨rfl, rfl, rfl, rfl, rfl, rfl, rfl⟩ | exact Or.inl ⟨rfl, rfl, rfl, rfl, rfl, rfl, rfl, rfl, rfl⟩
           | exact Or.inl ⟨rfl, rfl, rfl, rfl, rfl, rfl, rfl, rfl, rfl, rfl, rfl, rfl, rfl, rfl⟩
           | exact Or.inr ⟨hE _ (by decide), True.intro⟩ | exact Or.inr ⟨hE _ (by decide), _, rfl⟩))
    | fail

theorem State.flushHeld_keeps {I : Inv} {s : State} (hE : I.has [.web, .ports, .slices, .regs, .dict, .events]) (h : I.P s) {c : PortIx} {frameEnd : Bool}  :
    I.P (State.flushHeld s c frameEnd) := by
  unfold State.flushHeld
  try dsimp only
  repeat' first
    | with_reducible assumption
    | intro _
    | with_reducible refine State.emitLine_keeps (hE.sub rfl) ?_
    | with_reducible refine State.modPort_keeps (hE.sub rfl) ?_
    | with_reducible refine Inv.ite ?_ ?_
    | split
    | dsimp only

theorem State.lineValues_keeps {I : Inv} {s : State} (hE : I.has [.regs, .dict, .doors, .irq, .chain, .ledger, .events, .out]) (h : I.P s) {c : PortIx} {x : Int}  :
    I.P (State.lineValues s c x) := by
  unfold State.lineValues
  try dsimp only
  repeat' first
    | with_reducible assumption
    | intro _
    | with_reducible refine State.takeScheduled_keeps (hE.sub rfl) ?_ ?_
    | with_reducible refine State.applyValues_keeps (hE.sub rfl) ?_
    | dsimp only

theorem State.lineReached_keeps {I : Inv} {s : State} (hE : I.has [.fsPorts, .regs, .dict, .doors, .irq, .chain, .ledger, .events, .out]) (h : I.P s) {c : PortIx} {x : Int}  :
    I.P (State.lineReached s c x) := by
  unfold State.lineReached
  try dsimp only
  repeat' first
    | with_reducible assumption
    | intro _
    | with_reducible refine State.lineValues_keeps (hE.sub rfl) ?_
    | with_reducible refine State.fsBind_keeps (hE.sub rfl) ?_
    | dsimp only

theorem State.passPlaceholders_keeps {I : Inv} {s : State} (hE : I.has [.web, .ports, .fsPorts, .slices, .regs, .dict, .doors, .irq, .chain, .ledger, .events, .out]) (h : I.P s) {c : PortIx} {l : List CamLine} :
    I.P (State.passPlaceholders s c l) := by
  induction l generalizing s c with
  | nil => simpa only [State.passPlaceholders] using h
  | cons a r ih =>
    simp only [State.passPlaceholders]
    repeat' first
      | with_reducible assumption
      | intro _
      | refine ih ?_
      | with_reducible refine State.lineReached_keeps (hE.sub rfl) ?_
      | with_reducible refine State.flushHeld_keeps (hE.sub rfl) ?_
      | with_reducible refine State.emitLine_keeps (hE.sub rfl) ?_
      | with_reducible refine State.modPort_keeps (hE.sub rfl) ?_
      | with_reducible refine Inv.ite ?_ ?_
      | split
      | dsimp only

theorem State.placeholder_keeps {I : Inv} {s : State} (hE : I.has [.web, .ports, .fsPorts, .slices, .regs, .dict, .doors, .irq, .chain, .ledger, .events, .out]) (h : I.P s) {c : PortIx} {x : Int} {dt : Nat} {reason : Nat} {flags : Nat}  :
    I.P (State.placeholder s c x dt reason flags) := by
  unfold State.placeholder
  try dsimp only
  repeat' first
    | with_reducible assumption
    | intro _
    | with_reducible refine State.passPlaceholders_keeps (hE.sub rfl) ?_
    | with_reducible refine State.lineReached_keeps (hE.sub rfl) ?_
    | with_reducible refine State.modPort_keeps (hE.sub rfl) ?_
    | with_reducible refine Inv.ite ?_ ?_
    | split
    | dsimp only

theorem State.unreserve_keeps {I : Inv} {s : State} (hE : I.has [.ports, .fsPorts, .regs, .irq, .events, .out]) (h : I.P s) {c : PortIx} {e : PendEntry}  :
    I.P (State.unreserve s c e) := by
  unfold State.unreserve
  try dsimp only
  repeat' first
    | with_reducible assumption
    | intro _
    | with_reducible refine State.fifoFree_keeps (hE.sub rfl) ?_
    | with_reducible refine State.mpFree_keeps (hE.sub rfl) ?_
    | dsimp only

theorem State.absent_keeps {I : Inv} {s : State} (hE : I.has [.web, .ports, .fsPorts, .slices, .regs, .dict, .doors, .irq, .chain, .ledger, .events, .out]) (h : I.P s) {c : PortIx} {e : PendEntry}  :
    I.P (State.absent s c e) := by
  unfold State.absent
  repeat' first
    | with_reducible assumption
    | (extract_lets +onlyGivenNames v
       first
         | (have hv : I.P v := by
              dsimp only [v]
              repeat' first
                | with_reducible assumption
                | intro _
                | with_reducible refine State.passPlaceholders_keeps (hE.sub rfl) ?_
                | with_reducible refine State.placeholder_keeps (hE.sub rfl) ?_
                | with_reducible refine State.unreserve_keeps (hE.sub rfl) ?_
                | with_reducible refine State.camCount_keeps (hE.sub rfl) ?_
                | with_reducible refine State.modPort_keeps (hE.sub rfl) ?_
                | with_reducible refine State.camInt_keeps (hE.sub rfl) ?_
                | with_reducible refine Inv.ite ?_ ?_
                | split
                | dsimp only
            clear_value v)
         | (try dsimp only [v]
            clear v))
    | intro _
    | with_reducible refine State.passPlaceholders_keeps (hE.sub rfl) ?_
    | with_reducible refine State.placeholder_keeps (hE.sub rfl) ?_
    | with_reducible refine State.unreserve_keeps (hE.sub rfl) ?_
    | with_reducible refine State.camCount_keeps (hE.sub rfl) ?_
    | with_reducible refine State.modPort_keeps (hE.sub rfl) ?_
    | with_reducible refine State.camInt_keeps (hE.sub rfl) ?_
    | with_reducible refine Inv.ite ?_ ?_
    | split
    | dsimp only

theorem State.declareAbsent_keeps {I : Inv} {s : State} (hE : I.has [.web, .ports, .fsPorts, .slices, .regs, .dict, .doors, .irq, .chain, .ledger, .events, .out]) (h : I.P s) {c : PortIx}  :
    I.P (State.declareAbsent s c) := by
  unfold State.declareAbsent
  try dsimp only
  repeat' first
    | with_reducible assumption
    | intro _
    | with_reducible refine State.absent_keeps (hE.sub rfl) ?_
    | with_reducible refine Inv.ite ?_ ?_
    | split
    | dsimp only

theorem State.openFrame_keeps {I : Inv} {s : State} (hE : I.has [.ports, .fsPorts, .regs, .dict, .irq, .chain, .ledger, .events, .out]) (h : I.P s) {c : PortIx} {flags : Nat} {start : Bool}  :
    I.P (State.openFrame s c flags start) := by
  unfold State.openFrame
  try dsimp only
  repeat' first
    | with_reducible assumption
    | intro _
    | with_reducible refine State.applyMirage_keeps (hE.sub rfl) ?_
    | with_reducible refine State.camCount_keeps (hE.sub rfl) ?_
    | with_reducible refine State.countOd_keeps (hE.sub rfl) ?_
    | with_reducible refine State.modPort_keeps (hE.sub rfl) ?_
    | with_reducible refine State.fsBind_keeps (hE.sub rfl) ?_
    | with_reducible refine Inv.ite ?_ ?_
    | split
    | dsimp only

theorem State.closeFrame_keeps {I : Inv} {s : State} (hE : I.has [.web, .ports, .slices, .regs, .dict, .events]) (h : I.P s) {c : PortIx} {extra : Nat}  :
    I.P (State.closeFrame s c extra) := by
  unfold State.closeFrame
  repeat' first
    | with_reducible assumption
    | (extract_lets +onlyGivenNames v
       first
         | (have hv : I.P v := by
              dsimp only [v]
              repeat' first
                | with_reducible assumption
                | intro _
                | with_reducible refine State.flushHeld_keeps (hE.sub rfl) ?_
                | with_reducible refine State.camCount_keeps (hE.sub rfl) ?_
                | with_reducible refine State.modPort_keeps (hE.sub rfl) ?_
                | with_reducible refine State.eventAt_keeps (hE.sub rfl) ?_
                | with_reducible refine Inv.ite ?_ ?_
                | split
                | dsimp only
            clear_value v)
         | (try dsimp only [v]
            clear v))
    | intro _
    | with_reducible refine State.flushHeld_keeps (hE.sub rfl) ?_
    | with_reducible refine State.camCount_keeps (hE.sub rfl) ?_
    | with_reducible refine State.modPort_keeps (hE.sub rfl) ?_
    | with_reducible refine State.eventAt_keeps (hE.sub rfl) ?_
    | with_reducible refine Inv.ite ?_ ?_
    | split
    | dsimp only

theorem State.modFrame_keeps {I : Inv} {s : State} (hE : I.has [.ports]) (h : I.P s) {c : PortIx} {f : Frame → Frame}  :
    I.P (State.modFrame s c f) := by
  unfold State.modFrame
  try dsimp only
  repeat' first
    | with_reducible assumption
    | intro _
    | with_reducible refine State.modPort_keeps (hE.sub rfl) ?_
    | dsimp only

theorem State.modEntry_keeps {I : Inv} {s : State} (hE : I.has [.ports]) (h : I.P s) {c : PortIx} {x : Int} {f : PendEntry → PendEntry}  :
    I.P (State.modEntry s c x f) := by
  unfold State.modEntry
  try dsimp only
  repeat' first
    | with_reducible assumption
    | intro _
    | with_reducible refine State.modPort_keeps (hE.sub rfl) ?_
    | with_reducible refine Inv.ite ?_ ?_
    | split
    | dsimp only

theorem State.admitLine_keeps {I : Inv} {s : State} (hE : I.has [.web, .ports, .fsPorts, .slices, .regs, .dict, .doors, .irq, .chain, .ledger, .events, .out]) (h : I.P s) {c : PortIx} {e : PendEntry}  :
    I.P (State.admitLine s c e) := by
  unfold State.admitLine
  repeat' first
    | with_reducible assumption
    | (extract_lets +onlyGivenNames v
       first
         | (have hv : I.P v := by
              dsimp only [v]
              repeat' first
                | with_reducible assumption
                | intro _
                | with_reducible refine State.fsStatusEvent_keeps (hE.sub rfl) ?_
                | with_reducible refine State.fsFirstLine_keeps (hE.sub rfl) ?_
                | with_reducible refine State.placeholder_keeps (hE.sub rfl) ?_
                | with_reducible refine State.lineReached_keeps (hE.sub rfl) ?_
                | with_reducible refine State.fifoTake_keeps (hE.sub rfl) ?_
                | with_reducible refine State.modEntry_keeps (hE.sub rfl) ?_
                | with_reducible refine State.modFrame_keeps (hE.sub rfl) ?_
                | with_reducible refine State.mpTake_keeps (hE.sub rfl) ?_
                | with_reducible refine Inv.ite ?_ ?_
                | split
                | dsimp only
            clear_value v)
         | (try dsimp only [v]
            clear v))
    | intro _
    | with_reducible refine State.fsStatusEvent_keeps (hE.sub rfl) ?_
    | with_reducible refine State.fsFirstLine_keeps (hE.sub rfl) ?_
    | with_reducible refine State.placeholder_keeps (hE.sub rfl) ?_
    | with_reducible refine State.lineReached_keeps (hE.sub rfl) ?_
    | with_reducible refine State.fifoTake_keeps (hE.sub rfl) ?_
    | with_reducible refine State.modEntry_keeps (hE.sub rfl) ?_
    | with_reducible refine State.modFrame_keeps (hE.sub rfl) ?_
    | with_reducible refine State.mpTake_keeps (hE.sub rfl) ?_
    | with_reducible refine Inv.ite ?_ ?_
    | split
    | dsimp only

theorem State.holdLine_keeps {I : Inv} {s : State} (hE : I.has [.web, .ports, .slices, .regs, .dict, .events]) (h : I.P s) {c : PortIx} {l : CamLine} {closes : Bool}  :
    I.P (State.holdLine s c l closes) := by
  unfold State.holdLine
  try dsimp only
  repeat' first
    | with_reducible assumption
    | intro _
    | with_reducible refine State.flushHeld_keeps (hE.sub rfl) ?_
    | with_reducible refine State.emitLine_keeps (hE.sub rfl) ?_
    | with_reducible refine State.modPort_keeps (hE.sub rfl) ?_
    | with_reducible refine Inv.ite ?_ ?_
    | split
    | dsimp only

theorem State.countWidth_keeps {I : Inv} {s : State} (hE : I.has [.regs]) (h : I.P s) {c : PortIx} {flags : Nat}  :
    I.P (State.countWidth s c flags) := by
  unfold State.countWidth
  try dsimp only
  repeat' first
    | with_reducible assumption
    | intro _
    | with_reducible refine State.camCount_keeps (hE.sub rfl) ?_
    | with_reducible refine Inv.ite ?_ ?_
    | split
    | dsimp only

theorem State.lineDone_keeps {I : Inv} {s : State} (hE : I.has [.web, .ports, .fsPorts, .slices, .regs, .dict, .doors, .irq, .chain, .ledger, .events, .out]) (h : I.P s) {c : PortIx} {e : PendEntry}  :
    I.P (State.lineDone s c e) := by
  unfold State.lineDone
  repeat' first
    | with_reducible assumption
    | (extract_lets +onlyGivenNames v
       first
         | (have hv : I.P v := by
              dsimp only [v]
              repeat' first
                | with_reducible assumption
                | intro _
                | with_reducible refine State.passPlaceholders_keeps (hE.sub rfl) ?_
                | with_reducible refine State.countWidth_keeps (hE.sub rfl) ?_
                | with_reducible refine State.unreserve_keeps (hE.sub rfl) ?_
                | with_reducible refine State.holdLine_keeps (hE.sub rfl) ?_
                | with_reducible refine State.modPort_keeps (hE.sub rfl) ?_
                | with_reducible refine Inv.ite ?_ ?_
                | split
                | dsimp only
            clear_value v)
         | (try dsimp only [v]
            clear v))
    | intro _
    | with_reducible refine State.passPlaceholders_keeps (hE.sub rfl) ?_
    | with_reducible refine State.countWidth_keeps (hE.sub rfl) ?_
    | with_reducible refine State.unreserve_keeps (hE.sub rfl) ?_
    | with_reducible refine State.holdLine_keeps (hE.sub rfl) ?_
    | with_reducible refine State.modPort_keeps (hE.sub rfl) ?_
    | with_reducible refine Inv.ite ?_ ?_
    | split
    | dsimp only

theorem State.rowEnd_keeps {I : Inv} {s : State} (hE : I.has [.web, .ports, .fsPorts, .slices, .regs, .dict, .doors, .irq, .chain, .ledger, .events, .out]) (h : I.P s) {c : PortIx}  :
    I.P (State.rowEnd s c) := by
  unfold State.rowEnd
  repeat' first
    | with_reducible assumption
    | (extract_lets +onlyGivenNames v
       first
         | (have hv : I.P v := by
              dsimp only [v]
              repeat' first
                | with_reducible assumption
                | intro _
                | with_reducible refine State.modEntry_keeps (hE.sub rfl) ?_
                | with_reducible refine State.lineDone_keeps (hE.sub rfl) ?_
                | with_reducible refine State.modPort_keeps (hE.sub rfl) ?_
                | with_reducible refine Inv.ite ?_ ?_
                | split
                | dsimp only
            clear_value v)
         | (try dsimp only [v]
            clear v))
    | intro _
    | with_reducible refine State.modEntry_keeps (hE.sub rfl) ?_
    | with_reducible refine State.lineDone_keeps (hE.sub rfl) ?_
    | with_reducible refine State.modPort_keeps (hE.sub rfl) ?_
    | with_reducible refine Inv.ite ?_ ?_
    | split
    | dsimp only

theorem State.rowPixels_keeps {I : Inv} {s : State} (hE : I.has [.web, .ports, .fsPorts, .slices, .regs, .dict, .doors, .irq, .chain, .ledger, .events, .out]) (h : I.P s) {c : PortIx} {vals : List W16} {bad : Bool}  :
    I.P (State.rowPixels s c vals bad) := by
  unfold State.rowPixels
  try dsimp only
  repeat' first
    | with_reducible assumption
    | intro _
    | with_reducible refine State.modPort_keeps (hE.sub rfl) ?_
    | with_reducible refine State.rowEnd_keeps (hE.sub rfl) ?_
    | with_reducible refine Inv.ite ?_ ?_
    | split
    | dsimp only

theorem State.malformed_keeps {I : Inv} {s : State} (hE : I.has [.ports, .regs, .irq, .out]) (h : I.P s) {c : PortIx}  :
    I.P (State.malformed s c) := by
  unfold State.malformed
  try dsimp only
  repeat' first
    | with_reducible assumption
    | intro _
    | with_reducible refine State.modFrame_keeps (hE.sub rfl) ?_
    | with_reducible refine State.camCount_keeps (hE.sub rfl) ?_
    | with_reducible refine State.camInt_keeps (hE.sub rfl) ?_
    | with_reducible refine Inv.ite ?_ ?_
    | split
    | dsimp only

theorem State.ccFinish_keeps {I : Inv} {s : State} (hE : I.has [.ports, .regs, .irq, .out]) (h : I.P s) {c : PortIx} {result : Nat} {ack : Nat}  :
    I.P (State.ccFinish s c result ack) := by
  unfold State.ccFinish
  try dsimp only
  repeat' first
    | with_reducible assumption
    | intro _
    | with_reducible refine State.modPort_keeps (hE.sub rfl) ?_
    | with_reducible refine State.camInt_keeps (hE.sub rfl) ?_
    | with_reducible refine State.setReg_keeps (hE.sub rfl) ?_
    | with_reducible refine Inv.ite ?_ ?_
    | split
    | dsimp only

theorem State.ccRelease_keeps {I : Inv} {s : State} (hE : I.has [.ports, .regs, .irq, .out]) (h : I.P s) {c : PortIx}  :
    I.P (State.ccRelease s c) := by
  unfold State.ccRelease
  try dsimp only
  repeat' first
    | with_reducible assumption
    | intro _
    | with_reducible refine State.ccFinish_keeps (hE.sub rfl) ?_
    | with_reducible refine State.modPort_keeps (hE.sub rfl) ?_
    | with_reducible refine State.send_keeps (hE.sub rfl) ?_
    | with_reducible refine Inv.ite ?_ ?_
    | split
    | dsimp only

theorem State.portDown_keeps {I : Inv} {s : State} (hE : I.has [.web, .ports, .fsPorts, .slices, .regs, .dict, .doors, .irq, .chain, .ledger, .events, .out]) (h : I.P s) {c : PortIx}  :
    I.P (State.portDown s c) := by
  unfold State.portDown
  try dsimp only
  repeat' first
    | with_reducible assumption
    | intro _
    | with_reducible refine State.closeFrame_keeps (hE.sub rfl) ?_
    | with_reducible refine State.ccRelease_keeps (hE.sub rfl) ?_
    | with_reducible refine State.camStatus_keeps (hE.sub rfl) ?_
    | with_reducible refine State.modPort_keeps (hE.sub rfl) ?_
    | with_reducible refine State.rowEnd_keeps (hE.sub rfl) ?_
    | with_reducible refine Inv.ite ?_ ?_
    | split
    | dsimp only

theorem State.discFail_keeps {I : Inv} {s : State} (hE : I.has [.ports, .regs, .dict, .irq, .events, .out]) (h : I.P s) {c : PortIx} {code : Nat}  :
    I.P (State.discFail s c code) := by
  unfold State.discFail
  try dsimp only
  repeat' first
    | with_reducible assumption
    | intro _
    | with_reducible refine State.ccRelease_keeps (hE.sub rfl) ?_
    | with_reducible refine State.camStatus_keeps (hE.sub rfl) ?_
    | with_reducible refine State.modPort_keeps (hE.sub rfl) ?_
    | with_reducible refine State.setOd_keeps (hE.sub rfl) ?_
    | with_reducible refine Inv.ite ?_ ?_
    | split
    | dsimp only

theorem State.discRead_keeps {I : Inv} {s : State} (hE : I.has [.ports, .out]) (h : I.P s) {c : PortIx} {what : Nat} {step : DiscStep}  :
    I.P (State.discRead s c what step) := by
  unfold State.discRead
  try dsimp only
  repeat' first
    | with_reducible assumption
    | intro _
    | with_reducible refine State.modPort_keeps (hE.sub rfl) ?_
    | with_reducible refine State.send_keeps (hE.sub rfl) ?_
    | dsimp only

theorem State.discStart_keeps {I : Inv} {s : State} (hE : I.has [.ports, .dict, .out]) (h : I.P s) {c : PortIx}  :
    I.P (State.discStart s c) := by
  unfold State.discStart
  try dsimp only
  repeat' first
    | with_reducible assumption
    | intro _
    | with_reducible refine State.discRead_keeps (hE.sub rfl) ?_
    | with_reducible refine State.modPort_keeps (hE.sub rfl) ?_
    | with_reducible refine State.setOd_keeps (hE.sub rfl) ?_
    | with_reducible refine Inv.ite ?_ ?_
    | split
    | dsimp only

theorem State.discDone_keeps {I : Inv} {s : State} (hE : I.has [.ports, .regs, .dict, .irq, .events, .out]) (h : I.P s) {c : PortIx}  :
    I.P (State.discDone s c) := by
  unfold State.discDone
  try dsimp only
  repeat' first
    | with_reducible assumption
    | intro _
    | with_reducible refine State.ccRelease_keeps (hE.sub rfl) ?_
    | with_reducible refine State.camStatus_keeps (hE.sub rfl) ?_
    | with_reducible refine State.modPort_keeps (hE.sub rfl) ?_
    | with_reducible refine State.setOd_keeps (hE.sub rfl) ?_
    | with_reducible refine Inv.ite ?_ ?_
    | split
    | dsimp only

theorem State.discReply_keeps {I : Inv} {s : State} (hE : I.has [.ports, .regs, .dict, .blobs, .irq, .events, .out]) (h : I.P s) {c : PortIx} {ack : Byte} {data : List Byte}  :
    I.P (State.discReply s c ack data) := by
  unfold State.discReply
  try dsimp only
  repeat' first
    | with_reducible assumption
    | intro _
    | with_reducible refine State.discDone_keeps (hE.sub rfl) ?_
    | with_reducible refine State.discRead_keeps (hE.sub rfl) ?_
    | with_reducible refine State.discFail_keeps (hE.sub rfl) ?_
    | with_reducible refine State.modPort_keeps (hE.sub rfl) ?_
    | with_reducible refine State.setBlob_keeps (hE.sub rfl) ?_
    | with_reducible refine State.send_keeps (hE.sub rfl) ?_
    | with_reducible refine Inv.ite ?_ ?_
    | split
    | dsimp only

theorem State.clearPort_keeps {I : Inv} {s : State} (hE : I.has [.ports, .events]) (h : I.P s) {c : PortIx}  :
    I.P (State.clearPort s c) := by
  unfold State.clearPort
  try dsimp only
  repeat' first
    | with_reducible assumption
    | intro _
    | with_reducible refine State.closeRun_keeps (hE.sub rfl) ?_
    | with_reducible refine State.modPort_keeps (hE.sub rfl) ?_
    | with_reducible refine Inv.ite ?_ ?_
    | split
    | dsimp only

end Sys2Proof.Machine
end

