-- ==== Sys2Proof/Laws/KeepsRings.lean ====
section
/-! SUPPORT. The operations of Machine/Rings.lean keep every predicate that lets their parts change. -/

set_option linter.unreachableTactic false
set_option linter.unusedTactic false

namespace Sys2Proof.Machine

theorem State.writeMirror_keeps {I : Inv} {s : State} (hE : I.has [.hostMem]) (h : I.P s) {addr : Nat} {pi : Nat}  :
    I.P (State.writeMirror s addr pi) := by
  unfold State.writeMirror
  try dsimp only
  repeat' first
    | with_reducible assumption
    | intro _
    | with_reducible refine State.writeHost_keeps (hE.sub rfl) ?_
    | with_reducible refine Inv.ite ?_ ?_
    | split
    | dsimp only

theorem State.ringPut_keeps {I : Inv} {s : State} (hE : I.has [.regs, .irq, .hostMem, .out]) (h : I.P s) {r : DevRing} {entry : List Byte}  :
    I.P (State.ringPut s r entry) := by
  unfold State.ringPut
  try dsimp only
  repeat' first
    | with_reducible assumption
    | intro _
    | with_reducible refine State.writeMirror_keeps (hE.sub rfl) ?_
    | with_reducible refine State.writeHost_keeps (hE.sub rfl) ?_
    | with_reducible refine State.msixRaise_keeps (hE.sub rfl) ?_
    | with_reducible refine State.count64_keeps (hE.sub rfl) ?_
    | with_reducible refine State.setReg_keeps (hE.sub rfl) ?_
    | with_reducible refine Inv.ite ?_ ?_
    | split
    | dsimp only

theorem State.statsPut_keeps {I : Inv} {s : State} (hE : I.has [.regs, .dict, .irq, .hostMem, .out]) (h : I.P s) {entry : List Byte}  :
    I.P (State.statsPut s entry) := by
  unfold State.statsPut
  try dsimp only
  repeat' first
    | with_reducible assumption
    | intro _
    | with_reducible refine State.countOd_keeps (hE.sub rfl) ?_
    | with_reducible refine State.ringPut_keeps (hE.sub rfl) ?_
    | with_reducible refine Inv.ite ?_ ?_
    | split
    | dsimp only

theorem State.eventsLostPut_keeps {I : Inv} {s : State} (hE : I.has [.cmd, .regs, .irq, .hostMem, .out]) (h : I.P s)   :
    I.P (State.eventsLostPut s) := by
  unfold State.eventsLostPut
  try dsimp only
  repeat' first
    | with_reducible assumption
    | intro _
    | with_reducible refine State.ringPut_keeps (hE.sub rfl) ?_
    | with_reducible refine Inv.ite ?_ ?_
    | split
    | dsimp only
    | with_reducible refine Inv.cmd (hE.sub rfl) ?_ _
    | (with_reducible refine Inv.set (fun p => ?_) ?_
       · fail_if_success with_reducible (cases p <;> first
           | exact Or.inl rfl | exact Or.inl ⟨rfl, rfl⟩ | exact Or.inl ⟨rfl, rfl, rfl⟩ | exact Or.inl ⟨rfl, rfl, rfl, rfl⟩ | exact Or.inl ⟨rfl, rfl, rfl, rfl, rfl⟩
           | exact Or.inl ⟨rfl, rfl, rfl, rfl, rfl, rfl⟩ | exact Or.inl ⟨rfl, rfl, rfl, rfl, rfl, rfl, rfl⟩ | exact Or.inl ⟨rfl, rfl, rfl, rfl, rfl, rfl, rfl, rfl, rfl⟩
           | exact Or.inl ⟨rfl, rfl, rfl, rfl, rfl, rfl, rfl, rfl, rfl, rfl, rfl, rfl, rfl, rfl⟩)
         with_reducible (cases p <;> first
           | exact Or.inl rfl | exact Or.inl ⟨rfl, rfl⟩ | exact Or.inl ⟨rfl, rfl, rfl⟩ | exact Or.inl ⟨rfl, rfl, rfl, rfl⟩ | exact Or.inl ⟨rfl, rfl, rfl, rfl, rfl⟩
           | exact Or.inl ⟨rfl, rfl, rfl, rfl, rfl, rfl⟩ | exact Or.inl ⟨rfl, rfl, rfl, rfl, rfl, rfl, rfl⟩ | exact Or.inl ⟨rfl, rfl, rfl, rfl, rfl, rfl, rfl, rfl, rfl⟩
           | exact Or.inl ⟨rfl, rfl, rfl, rfl, rfl, rfl, rfl, rfl, rfl, rfl, rfl, rfl, rfl, rfl⟩
           | exact Or.inr ⟨hE _ (by decide), True.intro⟩ | exact Or.inr ⟨hE _ (by decide), _, rfl⟩))
    | fail

theorem State.eventPut_keeps {I : Inv} {s : State} (hE : I.has [.cmd, .regs, .dict, .irq, .hostMem, .events, .out]) (h : I.P s)   :
    I.P (State.eventPut s) := by
  unfold State.eventPut
  repeat' first
    | with_reducible assumption
    | (extract_lets +onlyGivenNames v
       first
         | (have hv : I.P v := by
              dsimp only [v]
              repeat' first
                | with_reducible assumption
                | intro _
                | with_reducible refine State.eventsLostPut_keeps (hE.sub rfl) ?_
                | with_reducible refine State.raiseInt_keeps (hE.sub rfl) ?_
                | with_reducible refine State.ringPut_keeps (hE.sub rfl) ?_
                | with_reducible refine State.countOd_keeps (hE.sub rfl) ?_
                | with_reducible refine Inv.ite ?_ ?_
                | split
                | dsimp only
                | with_reducible refine Inv.events (hE.sub rfl) ?_ _
                | with_reducible refine Inv.cmd (hE.sub rfl) ?_ _
                | (with_reducible refine Inv.set (fun p => ?_) ?_
                   · fail_if_success with_reducible (cases p <;> first
                       | exact Or.inl rfl | exact Or.inl ⟨rfl, rfl⟩ | exact Or.inl ⟨rfl, rfl, rfl⟩ | exact Or.inl ⟨rfl, rfl, rfl, rfl⟩ | exact Or.inl ⟨rfl, rfl, rfl, rfl, rfl⟩
                       | exact Or.inl ⟨rfl, rfl, rfl, rfl, rfl, rfl⟩ | exact Or.inl ⟨rfl, rfl, rfl, rfl, rfl, rfl, rfl⟩ | exact Or.inl ⟨rfl, rfl, rfl, rfl, rfl, rfl, rfl, rfl, rfl⟩
                       | exact Or.inl ⟨rfl, rfl, rfl, rfl, rfl, rfl, rfl, rfl, rfl, rfl, rfl, rfl, rfl, rfl⟩)
                     with_reducible (cases p <;> first
                       | exact Or.inl rfl | exact Or.inl ⟨rfl, rfl⟩ | exact Or.inl ⟨rfl, rfl, rfl⟩ | exact Or.inl ⟨rfl, rfl, rfl, rfl⟩ | exact Or.inl ⟨rfl, rfl, rfl, rfl, rfl⟩
                       | exact Or.inl ⟨rfl, rfl, rfl, rfl, rfl, rfl⟩ | exact Or.inl ⟨rfl, rfl, rfl, rfl, rfl, rfl, rfl⟩ | exact Or.inl ⟨rfl, rfl, rfl, rfl, rfl, rfl, rfl, rfl, rfl⟩
                       | exact Or.inl ⟨rfl, rfl, rfl, rfl, rfl, rfl, rfl, rfl, rfl, rfl, rfl, rfl, rfl, rfl⟩
                       | exact Or.inr ⟨hE _ (by decide), True.intro⟩ | exact Or.inr ⟨hE _ (by decide), _, rfl⟩))
                | fail
            clear_value v)
         | (try dsimp only [v]
            clear v))
    | intro _
    | with_reducible refine State.eventsLostPut_keeps (hE.sub rfl) ?_
    | with_reducible refine State.raiseInt_keeps (hE.sub rfl) ?_
    | with_reducible refine State.ringPut_keeps (hE.sub rfl) ?_
    | with_reducible refine State.countOd_keeps (hE.sub rfl) ?_
    | with_reducible refine Inv.ite ?_ ?_
    | split
    | dsimp only
    | with_reducible refine Inv.events (hE.sub rfl) ?_ _
    | with_reducible refine Inv.cmd (hE.sub rfl) ?_ _
    | (with_reducible refine Inv.set (fun p => ?_) ?_
       · fail_if_success with_reducible (cases p <;> first
           | exact Or.inl rfl | exact Or.inl ⟨rfl, rfl⟩ | exact Or.inl ⟨rfl, rfl, rfl⟩ | exact Or.inl ⟨rfl, rfl, rfl, rfl⟩ | exact Or.inl ⟨rfl, rfl, rfl, rfl, rfl⟩
           | exact Or.inl ⟨rfl, rfl, rfl, rfl, rfl, rfl⟩ | exact Or.inl ⟨rfl, rfl, rfl, rfl, rfl, rfl, rfl⟩ | exact Or.inl ⟨rfl, rfl, rfl, rfl, rfl, rfl, rfl, rfl, rfl⟩
           | exact Or.inl ⟨rfl, rfl, rfl, rfl, rfl, rfl, rfl, rfl, rfl, rfl, rfl, rfl, rfl, rfl⟩)
         with_reducible (cases p <;> first
           | exact Or.inl rfl | exact Or.inl ⟨rfl, rfl⟩ | exact Or.inl ⟨rfl, rfl, rfl⟩ | exact Or.inl ⟨rfl, rfl, rfl, rfl⟩ | exact Or.inl ⟨rfl, rfl, rfl, rfl, rfl⟩
           | exact Or.inl ⟨rfl, rfl, rfl, rfl, rfl, rfl⟩ | exact Or.inl ⟨rfl, rfl, rfl, rfl, rfl, rfl, rfl⟩ | exact Or.inl ⟨rfl, rfl, rfl, rfl, rfl, rfl, rfl, rfl, rfl⟩
           | exact Or.inl ⟨rfl, rfl, rfl, rfl, rfl, rfl, rfl, rfl, rfl, rfl, rfl, rfl, rfl, rfl⟩
           | exact Or.inr ⟨hE _ (by decide), True.intro⟩ | exact Or.inr ⟨hE _ (by decide), _, rfl⟩))
    | fail

theorem execEventRecordWrite_ok {I : Inv} {s : State} (hE : I.has [.cmd, .regs, .dict, .irq, .hostMem, .events, .out]) (h : I.P s)   :
    I.ok (execEventRecordWrite s) := by
  unfold execEventRecordWrite
  try dsimp only
  repeat' first
    | with_reducible assumption
    | with_reducible refine Inv.ok_act ?_ ?_
    | with_reducible refine Inv.ok_next ?_
    | with_reducible exact Inv.ok_refused _
    | with_reducible refine Inv.ok_ite ?_ ?_
    | with_reducible refine State.eventPut_keeps (hE.sub rfl) ?_
    | with_reducible refine Inv.ite ?_ ?_
    | split
    | intro _
    | dsimp only

end Sys2Proof.Machine
end

