-- ==== Sys2Proof/Laws/KeepsTrimOps.lean ====
section
/-! SUPPORT. The operations of Machine/TrimOps.lean keep every predicate that lets their parts change. -/

set_option linter.unreachableTactic false
set_option linter.unusedTactic false

namespace Sys2Proof.Machine

theorem State.modTrim_keeps {I : Inv} {s : State} (hE : I.has [.trim]) (h : I.P s) {f : Trim → Trim}  :
    I.P (State.modTrim s f) := by
  unfold State.modTrim
  try dsimp only
  repeat' first
    | with_reducible assumption
    | intro _
    | dsimp only
    | with_reducible refine Inv.trim (hE.sub rfl) ?_ _
    | (with_reducible refine Inv.set (fun p => ?_) ?_
       · fail_if_success with_reducible (cases p <;> first
           | exact Or.inl rfl | exact Or.inl ⟨rfl, rfl⟩ | exact Or.inl ⟨rfl, rfl, rfl⟩ | exact Or.inl ⟨rfl, rfl, rfl, rfl⟩ | exact Or.inl ⟨rfl, rfl, rfl, rfl, rfl⟩
           | exact Or.inl ⟨rfl, rfl, rfl, rfl, rfl, rfl⟩ | exact Or.inl ⟨rfl, rfl, rfl, rfl, rfl, rfl, rfl⟩ | exact Or.inl ⟨rfl, rfl, rfl, rfl, rfl, rfl, rfl, rfl, rfl⟩
           | exact Or.inl ⟨rfl, rfl, rfl, rfl, rfl, rfl, rfl, rfl, rfl, rfl, rfl, rfl, rfl, rfl⟩)
         with_reducible (cases p <;> first
           | exact Or.inl rfl | exact Or.inl ⟨rfl, rfl⟩ | exact Or.inl ⟨rfl, rfl, rfl⟩ | exact Or.inl ⟨rfl, rfl, rfl, rfl⟩ | exact Or.inl ⟨rfl, rfl, rfl, rfl, rfl⟩
           | exact Or.inl ⟨rfl, rfl, rfl, rfl, rfl, rfl⟩ | exact Or.inl ⟨rfl, rfl, rfl, rfl, rfl, rfl, rfl⟩ | exact Or.inl ⟨rfl, rfl, rfl, rfl, rfl, rfl, rfl, rfl, rfl⟩
           | exact Or.inl ⟨rfl, rfl, rfl, rfl, rfl, rfl, rfl, rfl, rfl, rfl, rfl, rfl, rfl, rfl⟩
           | exact Or.inr ⟨hE _ (by decide), True.intro⟩ | exact Or.inr ⟨hE _ (by decide), _, rfl⟩))
    | fail

theorem State.trimDue_keeps {I : Inv} {s : State} (hE : I.has [.trim]) (h : I.P s) {kind : Nat} {unit : Nat} {addr : Nat} {forced : Bool}  :
    I.P (State.trimDue s kind unit addr forced) := by
  unfold State.trimDue
  try dsimp only
  repeat' first
    | with_reducible assumption
    | intro _
    | with_reducible refine State.modTrim_keeps (hE.sub rfl) ?_
    | with_reducible refine Inv.ite ?_ ?_
    | split
    | dsimp only
    | (with_reducible refine Inv.set (fun p => ?_) ?_
       · fail_if_success with_reducible (cases p <;> first
           | exact Or.inl rfl | exact Or.inl ⟨rfl, rfl⟩ | exact Or.inl ⟨rfl, rfl, rfl⟩ | exact Or.inl ⟨rfl, rfl, rfl, rfl⟩ | exact Or.inl ⟨rfl, rfl, rfl, rfl, rfl⟩
           | exact Or.inl ⟨rfl, rfl, rfl, rfl, rfl, rfl⟩ | exact Or.inl ⟨rfl, rfl, rfl, rfl, rfl, rfl, rfl⟩ | exact Or.inl ⟨rfl, rfl, rfl, rfl, rfl, rfl, rfl, rfl, rfl⟩
           | exact Or.inl ⟨rfl, rfl, rfl, rfl, rfl, rfl, rfl, rfl, rfl, rfl, rfl, rfl, rfl, rfl⟩)
         with_reducible (cases p <;> first
           | exact Or.inl rfl | exact Or.inl ⟨rfl, rfl⟩ | exact Or.inl ⟨rfl, rfl, rfl⟩ | exact Or.inl ⟨rfl, rfl, rfl, rfl⟩ | exact Or.inl ⟨rfl, rfl, rfl, rfl, rfl⟩
           | exact Or.inl ⟨rfl, rfl, rfl, rfl, rfl, rfl⟩ | exact Or.inl ⟨rfl, rfl, rfl, rfl, rfl, rfl, rfl⟩ | exact Or.inl ⟨rfl, rfl, rfl, rfl, rfl, rfl, rfl, rfl, rfl⟩
           | exact Or.inl ⟨rfl, rfl, rfl, rfl, rfl, rfl, rfl, rfl, rfl, rfl, rfl, rfl, rfl, rfl⟩
           | exact Or.inr ⟨hE _ (by decide), True.intro⟩ | exact Or.inr ⟨hE _ (by decide), _, rfl⟩))
    | fail

theorem State.forceRow_keeps {I : Inv} {s : State} (hE : I.has [.trim, .regs, .dict, .irq, .events, .out]) (h : I.P s) {addr : Nat}  :
    I.P (State.forceRow s addr) := by
  unfold State.forceRow
  try dsimp only
  repeat' first
    | with_reducible assumption
    | intro _
    | with_reducible refine State.raiseInt_keeps (hE.sub rfl) ?_
    | with_reducible refine State.countOd_keeps (hE.sub rfl) ?_
    | with_reducible refine State.modTrim_keeps (hE.sub rfl) ?_
    | with_reducible refine State.count64_keeps (hE.sub rfl) ?_
    | with_reducible refine State.event_keeps (hE.sub rfl) ?_
    | with_reducible refine Inv.ite ?_ ?_
    | split
    | dsimp only
    | (with_reducible refine Inv.set (fun p => ?_) ?_
       · fail_if_success with_reducible (cases p <;> first
           | exact Or.inl rfl | exact Or.inl ⟨rfl, rfl⟩ | exact Or.inl ⟨rfl, rfl, rfl⟩ | exact Or.inl ⟨rfl, rfl, rfl, rfl⟩ | exact Or.inl ⟨rfl, rfl, rfl, rfl, rfl⟩
           | exact Or.inl ⟨rfl, rfl, rfl, rfl, rfl, rfl⟩ | exact Or.inl ⟨rfl, rfl, rfl, rfl, rfl, rfl, rfl⟩ | exact Or.inl ⟨rfl, rfl, rfl, rfl, rfl, rfl, rfl, rfl, rfl⟩
           | exact Or.inl ⟨rfl, rfl, rfl, rfl, rfl, rfl, rfl, rfl, rfl, rfl, rfl, rfl, rfl, rfl⟩)
         with_reducible (cases p <;> first
           | exact Or.inl rfl | exact Or.inl ⟨rfl, rfl⟩ | exact Or.inl ⟨rfl, rfl, rfl⟩ | exact Or.inl ⟨rfl, rfl, rfl, rfl⟩ | exact Or.inl ⟨rfl, rfl, rfl, rfl, rfl⟩
           | exact Or.inl ⟨rfl, rfl, rfl, rfl, rfl, rfl⟩ | exact Or.inl ⟨rfl, rfl, rfl, rfl, rfl, rfl, rfl⟩ | exact Or.inl ⟨rfl, rfl, rfl, rfl, rfl, rfl, rfl, rfl, rfl⟩
           | exact Or.inl ⟨rfl, rfl, rfl, rfl, rfl, rfl, rfl, rfl, rfl, rfl, rfl, rfl, rfl, rfl⟩
           | exact Or.inr ⟨hE _ (by decide), True.intro⟩ | exact Or.inr ⟨hE _ (by decide), _, rfl⟩))
    | fail

theorem State.repairRow_keeps {I : Inv} {s : State} (hE : I.has [.trim, .regs, .dict, .irq, .events, .out]) (h : I.P s) {addr : Nat}  :
    I.P (State.repairRow s addr) := by
  unfold State.repairRow
  try dsimp only
  repeat' first
    | with_reducible assumption
    | intro _
    | with_reducible refine State.forceRow_keeps (hE.sub rfl) ?_
    | with_reducible refine State.modTrim_keeps (hE.sub rfl) ?_
    | with_reducible refine State.trimDue_keeps (hE.sub rfl) ?_
    | with_reducible refine Inv.ite ?_ ?_
    | split
    | dsimp only
    | (with_reducible refine Inv.set (fun p => ?_) ?_
       · fail_if_success with_reducible (cases p <;> first
           | exact Or.inl rfl | exact Or.inl ⟨rfl, rfl⟩ | exact Or.inl ⟨rfl, rfl, rfl⟩ | exact Or.inl ⟨rfl, rfl, rfl, rfl⟩ | exact Or.inl ⟨rfl, rfl, rfl, rfl, rfl⟩
           | exact Or.inl ⟨rfl, rfl, rfl, rfl, rfl, rfl⟩ | exact Or.inl ⟨rfl, rfl, rfl, rfl, rfl, rfl, rfl⟩ | exact Or.inl ⟨rfl, rfl, rfl, rfl, rfl, rfl, rfl, rfl, rfl⟩
           | exact Or.inl ⟨rfl, rfl, rfl, rfl, rfl, rfl, rfl, rfl, rfl, rfl, rfl, rfl, rfl, rfl⟩)
         with_reducible (cases p <;> first
           | exact Or.inl rfl | exact Or.inl ⟨rfl, rfl⟩ | exact Or.inl ⟨rfl, rfl, rfl⟩ | exact Or.inl ⟨rfl, rfl, rfl, rfl⟩ | exact Or.inl ⟨rfl, rfl, rfl, rfl, rfl⟩
           | exact Or.inl ⟨rfl, rfl, rfl, rfl, rfl, rfl⟩ | exact Or.inl ⟨rfl, rfl, rfl, rfl, rfl, rfl, rfl⟩ | exact Or.inl ⟨rfl, rfl, rfl, rfl, rfl, rfl, rfl, rfl, rfl⟩
           | exact Or.inl ⟨rfl, rfl, rfl, rfl, rfl, rfl, rfl, rfl, rfl, rfl, rfl, rfl, rfl, rfl⟩
           | exact Or.inr ⟨hE _ (by decide), True.intro⟩ | exact Or.inr ⟨hE _ (by decide), _, rfl⟩))
    | fail

theorem State.repairNext_keeps {I : Inv} {s : State} (hE : I.has [.trim, .regs, .dict, .irq, .events, .out]) (h : I.P s) {addr : Nat}  :
    I.P (State.repairNext s addr) := by
  unfold State.repairNext
  try dsimp only
  repeat' first
    | with_reducible assumption
    | intro _
    | with_reducible refine State.forceRow_keeps (hE.sub rfl) ?_
    | with_reducible refine Inv.ite ?_ ?_
    | split
    | dsimp only

theorem State.dramUncorrectable_keeps {I : Inv} {s : State} (hE : I.has [.trim, .regs, .dict, .irq, .events, .out]) (h : I.P s) {addr : Nat} {scrub : Bool} {atomic : Bool}  :
    I.P (State.dramUncorrectable s addr scrub atomic) := by
  unfold State.dramUncorrectable
  try dsimp only
  repeat' first
    | with_reducible assumption
    | intro _
    | with_reducible refine State.raiseStatus_keeps (hE.sub rfl) ?_
    | with_reducible refine State.repairRow_keeps (hE.sub rfl) ?_
    | with_reducible refine State.count32_keeps (hE.sub rfl) ?_
    | with_reducible refine State.setReg_keeps (hE.sub rfl) ?_
    | with_reducible refine Inv.ite ?_ ?_
    | split
    | dsimp only

theorem State.rowError_keeps {I : Inv} {s : State} (hE : I.has [.trim]) (h : I.P s) {ch : Nat} {addr : Nat} {n : Nat}  :
    I.P (State.rowError s ch addr n) := by
  unfold State.rowError
  try dsimp only
  repeat' first
    | with_reducible assumption
    | intro _
    | with_reducible refine State.trimDue_keeps (hE.sub rfl) ?_
    | with_reducible refine State.modTrim_keeps (hE.sub rfl) ?_
    | with_reducible refine Inv.ite ?_ ?_
    | split
    | dsimp only
    | (with_reducible refine Inv.set (fun p => ?_) ?_
       · fail_if_success with_reducible (cases p <;> first
           | exact Or.inl rfl | exact Or.inl ⟨rfl, rfl⟩ | exact Or.inl ⟨rfl, rfl, rfl⟩ | exact Or.inl ⟨rfl, rfl, rfl, rfl⟩ | exact Or.inl ⟨rfl, rfl, rfl, rfl, rfl⟩
           | exact Or.inl ⟨rfl, rfl, rfl, rfl, rfl, rfl⟩ | exact Or.inl ⟨rfl, rfl, rfl, rfl, rfl, rfl, rfl⟩ | exact Or.inl ⟨rfl, rfl, rfl, rfl, rfl, rfl, rfl, rfl, rfl⟩
           | exact Or.inl ⟨rfl, rfl, rfl, rfl, rfl, rfl, rfl, rfl, rfl, rfl, rfl, rfl, rfl, rfl⟩)
         with_reducible (cases p <;> first
           | exact Or.inl rfl | exact Or.inl ⟨rfl, rfl⟩ | exact Or.inl ⟨rfl, rfl, rfl⟩ | exact Or.inl ⟨rfl, rfl, rfl, rfl⟩ | exact Or.inl ⟨rfl, rfl, rfl, rfl, rfl⟩
           | exact Or.inl ⟨rfl, rfl, rfl, rfl, rfl, rfl⟩ | exact Or.inl ⟨rfl, rfl, rfl, rfl, rfl, rfl, rfl⟩ | exact Or.inl ⟨rfl, rfl, rfl, rfl, rfl, rfl, rfl, rfl, rfl⟩
           | exact Or.inl ⟨rfl, rfl, rfl, rfl, rfl, rfl, rfl, rfl, rfl, rfl, rfl, rfl, rfl, rfl⟩
           | exact Or.inr ⟨hE _ (by decide), True.intro⟩ | exact Or.inr ⟨hE _ (by decide), _, rfl⟩))
    | fail

theorem State.dramCorrected_keeps {I : Inv} {s : State} (hE : I.has [.rate, .trim, .regs, .irq, .events, .out]) (h : I.P s) {ch : Nat} {addr : Nat} {lane : Nat} {pass : Option Nat}  :
    I.P (State.dramCorrected s ch addr lane pass) := by
  unfold State.dramCorrected
  repeat' first
    | with_reducible assumption
    | (extract_lets +onlyGivenNames v
       first
         | (have hv : I.P v := by
              dsimp only [v]
              repeat' first
                | with_reducible assumption
                | intro _
                | with_reducible refine State.statusEvent_keeps (hE.sub rfl) ?_
                | with_reducible refine State.rateLimited_keeps (hE.sub rfl) ?_ ?_
                | with_reducible refine State.rowError_keeps (hE.sub rfl) ?_
                | with_reducible refine State.raiseInt_keeps (hE.sub rfl) ?_
                | with_reducible refine State.modTrim_keeps (hE.sub rfl) ?_
                | with_reducible refine State.count32_keeps (hE.sub rfl) ?_
                | with_reducible refine State.trimDue_keeps (hE.sub rfl) ?_
                | with_reducible refine Inv.ite ?_ ?_
                | split
                | dsimp only
                | (with_reducible refine Inv.set (fun p => ?_) ?_
                   · fail_if_success with_reducible (cases p <;> first
                       | exact Or.inl rfl | exact Or.inl ⟨rfl, rfl⟩ | exact Or.inl ⟨rfl, rfl, rfl⟩ | exact Or.inl ⟨rfl, rfl, rfl, rfl⟩ | exact Or.inl ⟨rfl, rfl, rfl, rfl, rfl⟩
                       | exact Or.inl ⟨rfl, rfl, rfl, rfl, rfl, rfl⟩ | exact Or.inl ⟨rfl, rfl, rfl, rfl, rfl, rfl, rfl⟩ | exact Or.inl ⟨rfl, rfl, rfl, rfl, rfl, rfl, rfl, rfl, rfl⟩
                       | exact Or.inl ⟨rfl, rfl, rfl, rfl, rfl, rfl, rfl, rfl, rfl, rfl, rfl, rfl, rfl, rfl⟩)
                     with_reducible (cases p <;> first
                       | exact Or.inl rfl | exact Or.inl ⟨rfl, rfl⟩ | exact Or.inl ⟨rfl, rfl, rfl⟩ | exact Or.inl ⟨rfl, rfl, rfl, rfl⟩ | exact Or.inl ⟨rfl, rfl, rfl, rfl, rfl⟩
                       | exact Or.inl ⟨rfl, rfl, rfl, rfl, rfl, rfl⟩ | exact Or.inl ⟨rfl, rfl, rfl, rfl, rfl, rfl, rfl⟩ | exact Or.inl ⟨rfl, rfl, rfl, rfl, rfl, rfl, rfl, rfl, rfl⟩
                       | exact Or.inl ⟨rfl, rfl, rfl, rfl, rfl, rfl, rfl, rfl, rfl, rfl, rfl, rfl, rfl, rfl⟩
                       | exact Or.inr ⟨hE _ (by decide), True.intro⟩ | exact Or.inr ⟨hE _ (by decide), _, rfl⟩))
                | fail
            clear_value v)
         | (try dsimp only [v]
            clear v))
    | intro _
    | with_reducible refine State.statusEvent_keeps (hE.sub rfl) ?_
    | with_reducible refine State.rateLimited_keeps (hE.sub rfl) ?_ ?_
    | with_reducible refine State.rowError_keeps (hE.sub rfl) ?_
    | with_reducible refine State.raiseInt_keeps (hE.sub rfl) ?_
    | with_reducible refine State.modTrim_keeps (hE.sub rfl) ?_
    | with_reducible refine State.count32_keeps (hE.sub rfl) ?_
    | with_reducible refine State.trimDue_keeps (hE.sub rfl) ?_
    | with_reducible refine Inv.ite ?_ ?_
    | split
    | dsimp only
    | (with_reducible refine Inv.set (fun p => ?_) ?_
       · fail_if_success with_reducible (cases p <;> first
           | exact Or.inl rfl | exact Or.inl ⟨rfl, rfl⟩ | exact Or.inl ⟨rfl, rfl, rfl⟩ | exact Or.inl ⟨rfl, rfl, rfl, rfl⟩ | exact Or.inl ⟨rfl, rfl, rfl, rfl, rfl⟩
           | exact Or.inl ⟨rfl, rfl, rfl, rfl, rfl, rfl⟩ | exact Or.inl ⟨rfl, rfl, rfl, rfl, rfl, rfl, rfl⟩ | exact Or.inl ⟨rfl, rfl, rfl, rfl, rfl, rfl, rfl, rfl, rfl⟩
           | exact Or.inl ⟨rfl, rfl, rfl, rfl, rfl, rfl, rfl, rfl, rfl, rfl, rfl, rfl, rfl, rfl⟩)
         with_reducible (cases p <;> first
           | exact Or.inl rfl | exact Or.inl ⟨rfl, rfl⟩ | exact Or.inl ⟨rfl, rfl, rfl⟩ | exact Or.inl ⟨rfl, rfl, rfl, rfl⟩ | exact Or.inl ⟨rfl, rfl, rfl, rfl, rfl⟩
           | exact Or.inl ⟨rfl, rfl, rfl, rfl, rfl, rfl⟩ | exact Or.inl ⟨rfl, rfl, rfl, rfl, rfl, rfl, rfl⟩ | exact Or.inl ⟨rfl, rfl, rfl, rfl, rfl, rfl, rfl, rfl, rfl⟩
           | exact Or.inl ⟨rfl, rfl, rfl, rfl, rfl, rfl, rfl, rfl, rfl, rfl, rfl, rfl, rfl, rfl⟩
           | exact Or.inr ⟨hE _ (by decide), True.intro⟩ | exact Or.inr ⟨hE _ (by decide), _, rfl⟩))
    | fail

theorem State.blockSeen_keeps {I : Inv} {s : State} (hE : I.has [.rate, .trim, .regs, .dict, .irq, .poison, .events, .out]) (h : I.P s) {scrub : Bool} {atomic : Bool} {b : Nat}  :
    I.P (State.blockSeen s scrub atomic b) := by
  unfold State.blockSeen
  try dsimp only
  repeat' first
    | with_reducible assumption
    | intro _
    | with_reducible refine State.dramUncorrectable_keeps (hE.sub rfl) ?_
    | with_reducible refine State.dramCorrected_keeps (hE.sub rfl) ?_
    | with_reducible refine Inv.ite ?_ ?_
    | split
    | dsimp only
    | (with_reducible refine Inv.set (fun p => ?_) ?_
       · fail_if_success with_reducible (cases p <;> first
           | exact Or.inl rfl | exact Or.inl ⟨rfl, rfl⟩ | exact Or.inl ⟨rfl, rfl, rfl⟩ | exact Or.inl ⟨rfl, rfl, rfl, rfl⟩ | exact Or.inl ⟨rfl, rfl, rfl, rfl, rfl⟩
           | exact Or.inl ⟨rfl, rfl, rfl, rfl, rfl, rfl⟩ | exact Or.inl ⟨rfl, rfl, rfl, rfl, rfl, rfl, rfl⟩ | exact Or.inl ⟨rfl, rfl, rfl, rfl, rfl, rfl, rfl, rfl, rfl⟩
           | exact Or.inl ⟨rfl, rfl, rfl, rfl, rfl, rfl, rfl, rfl, rfl, rfl, rfl, rfl, rfl, rfl⟩)
         with_reducible (cases p <;> first
           | exact Or.inl rfl | exact Or.inl ⟨rfl, rfl⟩ | exact Or.inl ⟨rfl, rfl, rfl⟩ | exact Or.inl ⟨rfl, rfl, rfl, rfl⟩ | exact Or.inl ⟨rfl, rfl, rfl, rfl, rfl⟩
           | exact Or.inl ⟨rfl, rfl, rfl, rfl, rfl, rfl⟩ | exact Or.inl ⟨rfl, rfl, rfl, rfl, rfl, rfl, rfl⟩ | exact Or.inl ⟨rfl, rfl, rfl, rfl, rfl, rfl, rfl, rfl, rfl⟩
           | exact Or.inl ⟨rfl, rfl, rfl, rfl, rfl, rfl, rfl, rfl, rfl, rfl, rfl, rfl, rfl, rfl⟩
           | exact Or.inr ⟨hE _ (by decide), True.intro⟩ | exact Or.inr ⟨hE _ (by decide), _, rfl⟩))
    | fail

theorem State.dramSeen_keeps {I : Inv} {s : State} (hE : I.has [.rate, .trim, .regs, .dict, .irq, .poison, .events, .out]) (h : I.P s) {a : Nat} {n : Nat} {atomic : Bool}  :
    I.P (State.dramSeen s a n atomic) := by
  unfold State.dramSeen
  try dsimp only
  repeat' first
    | with_reducible assumption
    | intro _
    | with_reducible refine State.blockSeen_keeps (hE.sub rfl) ?_
    | with_reducible refine Inv.foldl ?_ ?_
    | with_reducible refine Inv.ite ?_ ?_
    | split
    | dsimp only

end Sys2Proof.Machine
end

