-- ==== Sys2Proof/Laws/KeepsQuant.lean ====
section
/-! SUPPORT. The operations of Machine/Quant.lean keep every predicate that lets their parts change. -/

set_option linter.unreachableTactic false
set_option linter.unusedTactic false

namespace Sys2Proof.Machine

theorem State.modTensor_keeps {I : Inv} {s : State} (hE : I.has [.tensors]) (h : I.P s) {t : Nat} {f : Tensor → Tensor}  :
    I.P (State.modTensor s t f) := by
  unfold State.modTensor
  try dsimp only
  repeat' first
    | with_reducible assumption
    | intro _
    | dsimp only
    | with_reducible refine Inv.tensors (hE.sub rfl) ?_ _
    | (with_reducible refine Inv.set (fun p => ?_) ?_
       · fail_if_success with_reducible (cases p <;> first
           | exact Or.inl rfl | exact Or.inl ⟨rfl, rfl⟩ | exact Or.inl ⟨rfl, rfl, rfl⟩ | exact Or.inl ⟨rfl, rfl, rfl, rfl⟩ | exact Or.inl ⟨rfl, rfl, rfl, rfl, rfl⟩
           | exact Or.inl ⟨rfl, rfl, rfl, rfl, rfl, rfl⟩ | exact Or.inl ⟨rfl, rfl, rfl, rfl, rfl, rfl, rfl⟩ | exact Or.inl ⟨rfl, rfl, rfl, rfl, rfl, rfl, rfl, rfl, rfl⟩
           | exact Or.inl ⟨rfl, rfl, rfl, rfl, rfl, rfl, rfl, rfl, rfl, rfl, rfl, rfl, rfl, rfl⟩)
         with_reducible (cases p <;> first
           | exact Or.inl rfl | exact Or.inl ⟨rfl, rfl⟩ | exact Or.inl ⟨rfl, rfl, rfl⟩ | exact Or.inl ⟨rfl, rfl, rfl, rfl⟩ | exact Or.inl ⟨rfl, rfl, rfl, rfl, rfl⟩
           | exact Or.inl ⟨rfl, rfl, rfl, rfl, rfl, rfl⟩ | exact Or.inl ⟨rfl, rfl, rfl, rfl, rfl, rfl, rfl⟩ | exact Or.inl ⟨rfl, rfl, rfl, rfl, rfl, rfl, rfl, rfl, rfl⟩
           | exact Or.inl ⟨rfl, rfl, rfl, rfl, rfl, rfl, rfl, rfl, rfl, rfl, rfl, rfl, rfl, rfl⟩
           | exact Or.inr ⟨hE _ (by decide), True.intro⟩ | exact Or.inr ⟨hE _ (by decide), _, rfl⟩))
    | fail

theorem State.publish_keeps {I : Inv} {s : State} (hE : I.has [.rate, .tensors, .trim, .regs, .dict, .doors, .irq, .chain, .ledger, .dram, .oasis, .poison, .events, .out, .free]) (h : I.P s) {t : Nat} {n : Int}  :
    I.P (State.publish s t n) := by
  unfold State.publish
  repeat' first
    | with_reducible assumption
    | (extract_lets +onlyGivenNames v
       first
         | (have hv : I.P v := by
              dsimp only [v]
              repeat' first
                | with_reducible assumption
                | intro _
                | with_reducible refine State.takeDeferred_keeps (hE.sub rfl) ?_
                | with_reducible refine State.writeOasis_keeps (hE.sub rfl) ?_
                | with_reducible refine State.modTensor_keeps (hE.sub rfl) ?_
                | with_reducible refine State.writeDram_keeps (hE.sub rfl) ?_
                | with_reducible refine State.dramSeen_keeps (hE.sub rfl) ?_
                | with_reducible refine State.countOd_keeps (hE.sub rfl) ?_
                | with_reducible refine Inv.foldl ?_ ?_
                | with_reducible refine Inv.ite ?_ ?_
                | split
                | dsimp only
                | (with_reducible refine Inv.set (fun p => ?_) ?_
                   · fail_if_success with_reducible (cases p <;> first
                       | exact Or.inl rfl | exact Or.inl ⟨rfl, rfl⟩ | exact Or.inl ⟨rfl, rfl, rfl⟩ | exact Or.inl ⟨rfl, rfl, rfl, rfl⟩ | exact Or.inl ⟨rfl, rfl, rfl, rfl, rfl⟩
                       | exact Or.inl ⟨rfl, rfl, rfl, rfl, rfl, rfl⟩ | exact Or.inl ⟨rfl, rfl, rfl, rfl, rfl, rfl, rfl⟩ | exact Or.inl ⟨rfl, rfl, rfl, rfl, rfl, rfl, rfl, rfl, rfl⟩
                       | exact Or.inl ⟨rfl, rfl, rfl, rfl, rfl, rfl, rfl, rfl, rfl, rfl, rfl, rfl, rfl, rfl⟩)
                     with_reducible (cases p <;> first
                       | exact Or.inl rfl | exact Or.inl ⟨rfl, rfl⟩ | exact Or.inl ⟨rfl, rfl, rfl⟩ | exact Or.inl ⟨rfl, rfl, rfl, rfl⟩ | exact Or.inl ⟨rfl, rfl, rfl, rfl, rfl⟩
                       | exact Or.inl ⟨rfl, rfl, rfl, rfl, rfl, rfl⟩ | exact Or.inl ⟨rfl, rfl, rfl, rfl, rfl, rfl, rfl⟩ | exact Or.inl ⟨rfl, rfl, rfl, rfl, rfl, rfl, rfl, rfl, rfl⟩
                       | exact Or.inl ⟨rfl, rfl, rfl, rfl, rfl, rfl, rfl, rfl, rfl, rfl, rfl, rfl, rfl, rfl⟩
                       | exact Or.inr ⟨hE _ (by decide), True.intro⟩ | exact Or.inr ⟨hE _ (by decide), _, rfl⟩))
                | fail
            clear_value v)
         | (try dsimp only [v]
            clear v))
    | intro _
    | with_reducible refine State.takeDeferred_keeps (hE.sub rfl) ?_
    | with_reducible refine State.writeOasis_keeps (hE.sub rfl) ?_
    | with_reducible refine State.modTensor_keeps (hE.sub rfl) ?_
    | with_reducible refine State.writeDram_keeps (hE.sub rfl) ?_
    | with_reducible refine State.dramSeen_keeps (hE.sub rfl) ?_
    | with_reducible refine State.countOd_keeps (hE.sub rfl) ?_
    | with_reducible refine Inv.foldl ?_ ?_
    | with_reducible refine Inv.ite ?_ ?_
    | split
    | dsimp only
    | (with_reducible refine Inv.set (fun p => ?_) ?_
       · fail_if_success with_reducible (cases p <;> first
           | exact Or.inl rfl | exact Or.inl ⟨rfl, rfl⟩ | exact Or.inl ⟨rfl, rfl, rfl⟩ | exact Or.inl ⟨rfl, rfl, rfl, rfl⟩ | exact Or.inl ⟨rfl, rfl, rfl, rfl, rfl⟩
           | exact Or.inl ⟨rfl, rfl, rfl, rfl, rfl, rfl⟩ | exact Or.inl ⟨rfl, rfl, rfl, rfl, rfl, rfl, rfl⟩ | exact Or.inl ⟨rfl, rfl, rfl, rfl, rfl, rfl, rfl, rfl, rfl⟩
           | exact Or.inl ⟨rfl, rfl, rfl, rfl, rfl, rfl, rfl, rfl, rfl, rfl, rfl, rfl, rfl, rfl⟩)
         with_reducible (cases p <;> first
           | exact Or.inl rfl | exact Or.inl ⟨rfl, rfl⟩ | exact Or.inl ⟨rfl, rfl, rfl⟩ | exact Or.inl ⟨rfl, rfl, rfl, rfl⟩ | exact Or.inl ⟨rfl, rfl, rfl, rfl, rfl⟩
           | exact Or.inl ⟨rfl, rfl, rfl, rfl, rfl, rfl⟩ | exact Or.inl ⟨rfl, rfl, rfl, rfl, rfl, rfl, rfl⟩ | exact Or.inl ⟨rfl, rfl, rfl, rfl, rfl, rfl, rfl, rfl, rfl⟩
           | exact Or.inl ⟨rfl, rfl, rfl, rfl, rfl, rfl, rfl, rfl, rfl, rfl, rfl, rfl, rfl, rfl⟩
           | exact Or.inr ⟨hE _ (by decide), True.intro⟩ | exact Or.inr ⟨hE _ (by decide), _, rfl⟩))
    | fail

theorem State.needSlot_keeps {I : Inv} {s : State} (hE : I.has [.rate, .tensors, .trim, .regs, .dict, .doors, .irq, .chain, .ledger, .dram, .oasis, .poison, .events, .out, .free]) (h : I.P s) {t : Nat} {n : Int}  :
    I.P (State.needSlot s t n) := by
  unfold State.needSlot
  try dsimp only
  repeat' first
    | with_reducible assumption
    | intro _
    | with_reducible refine State.publish_keeps (hE.sub rfl) ?_
    | with_reducible refine Inv.ite ?_ ?_
    | split
    | dsimp only

theorem State.foldStats_keeps {I : Inv} {s : State} (hE : I.has [.tensors]) (h : I.P s) {t : Nat} {q : QStats}  :
    I.P (State.foldStats s t q) := by
  unfold State.foldStats
  try dsimp only
  repeat' first
    | with_reducible assumption
    | intro _
    | with_reducible refine State.modTensor_keeps (hE.sub rfl) ?_
    | with_reducible refine Inv.ite ?_ ?_
    | split
    | dsimp only

theorem State.staleEvent_keeps {I : Inv} {s : State} (hE : I.has [.cmd, .dict, .events]) (h : I.P s) {t : Nat} {g : Int} {saturated : Nat}  :
    I.P (State.staleEvent s t g saturated) := by
  unfold State.staleEvent
  try dsimp only
  repeat' first
    | with_reducible assumption
    | intro _
    | with_reducible refine State.countOd_keeps (hE.sub rfl) ?_
    | with_reducible refine State.eventAt_keeps (hE.sub rfl) ?_
    | with_reducible refine Inv.ite ?_ ?_
    | split
    | dsimp only
    | with_reducible refine Inv.cmd (hE.sub rfl) ?_ _
    | (with_reducible refine Inv.set (fun p => ?_) ?_
       · fail_if_success with_reducible (cases p <;> first
           | exact Or.inl rfl | exact Or.inl ⟨rfl, rfl⟩ | exact Or.inl ⟨rfl, rfl, rfl⟩ | exact Or.inl ⟨rfl, rfl, rfl, rfl⟩ | exact Or.inl ⟨rfl, rfl, rfl, rfl, rfl⟩
           | exact Or.inl ⟨rfl, rfl, rfl, rfl, rfl, rfl⟩ | exact Or.inl ⟨rfl, rfl, rfl, rfl, rfl, rfl, rfl⟩ | exact Or.inl ⟨rfl, rfl, rfl, rfl, rfl, rfl, rfl, rfl, rfl⟩
           | exact Or.inl ⟨rfl, rfl, rfl, rfl, rfl, rfl, rfl, rfl, rfl, rfl, rfl, rfl, rfl, rfl⟩)
         with_reducible (cases p <;> first
           | exact Or.inl rfl | exact Or.inl ⟨rfl, rfl⟩ | exact Or.inl ⟨rfl, rfl, rfl⟩ | exact Or.inl ⟨rfl, rfl, rfl, rfl⟩ | exact Or.inl ⟨rfl, rfl, rfl, rfl, rfl⟩
           | exact Or.inl ⟨rfl, rfl, rfl, rfl, rfl, rfl⟩ | exact Or.inl ⟨rfl, rfl, rfl, rfl, rfl, rfl, rfl⟩ | exact Or.inl ⟨rfl, rfl, rfl, rfl, rfl, rfl, rfl, rfl, rfl⟩
           | exact Or.inl ⟨rfl, rfl, rfl, rfl, rfl, rfl, rfl, rfl, rfl, rfl, rfl, rfl, rfl, rfl⟩
           | exact Or.inr ⟨hE _ (by decide), True.intro⟩ | exact Or.inr ⟨hE _ (by decide), _, rfl⟩))
    | fail

theorem State.closeTracked_keeps {I : Inv} {s : State} (hE : I.has [.rate, .tensors, .cmd, .trim, .regs, .dict, .doors, .irq, .chain, .ledger, .hostMem, .dram, .oasis, .poison, .events, .out, .free]) (h : I.P s) {t : Nat} {g : Int} {part2 : Bool}  :
    I.P (State.closeTracked s t g part2) := by
  unfold State.closeTracked
  repeat' first
    | with_reducible assumption
    | (extract_lets +onlyGivenNames v
       first
         | (have hv : I.P v := by
              dsimp only [v]
              repeat' first
                | with_reducible assumption
                | intro _
                | with_reducible refine State.staleEvent_keeps (hE.sub rfl) ?_
                | with_reducible refine State.modTensor_keeps (hE.sub rfl) ?_
                | with_reducible refine State.statsPut_keeps (hE.sub rfl) ?_
                | with_reducible refine State.needSlot_keeps (hE.sub rfl) ?_
                | with_reducible refine State.countOd_keeps (hE.sub rfl) ?_
                | with_reducible refine State.setOd_keeps (hE.sub rfl) ?_
                | with_reducible refine Inv.ite ?_ ?_
                | split
                | dsimp only
                | (with_reducible refine Inv.set (fun p => ?_) ?_
                   · fail_if_success with_reducible (cases p <;> first
                       | exact Or.inl rfl | exact Or.inl ⟨rfl, rfl⟩ | exact Or.inl ⟨rfl, rfl, rfl⟩ | exact Or.inl ⟨rfl, rfl, rfl, rfl⟩ | exact Or.inl ⟨rfl, rfl, rfl, rfl, rfl⟩
                       | exact Or.inl ⟨rfl, rfl, rfl, rfl, rfl, rfl⟩ | exact Or.inl ⟨rfl, rfl, rfl, rfl, rfl, rfl, rfl⟩ | exact Or.inl ⟨rfl, rfl, rfl, rfl, rfl, rfl, rfl, rfl, rfl⟩
                       | exact Or.inl ⟨rfl, rfl, rfl, rfl, rfl, rfl, rfl, rfl, rfl, rfl, rfl, rfl, rfl, rfl⟩)
                     with_reducible (cases p <;> first
                       | exact Or.inl rfl | exact Or.inl ⟨rfl, rfl⟩ | exact Or.inl ⟨rfl, rfl, rfl⟩ | exact Or.inl ⟨rfl, rfl, rfl, rfl⟩ | exact Or.inl ⟨rfl, rfl, rfl, rfl, rfl⟩
                       | exact Or.inl ⟨rfl, rfl, rfl, rfl, rfl, rfl⟩ | exact Or.inl ⟨rfl, rfl, rfl, rfl, rfl, rfl, rfl⟩ | exact Or.inl ⟨rfl, rfl, rfl, rfl, rfl, rfl, rfl, rfl, rfl⟩
                       | exact Or.inl ⟨rfl, rfl, rfl, rfl, rfl, rfl, rfl, rfl, rfl, rfl, rfl, rfl, rfl, rfl⟩
                       | exact Or.inr ⟨hE _ (by decide), True.intro⟩ | exact Or.inr ⟨hE _ (by decide), _, rfl⟩))
                | fail
            clear_value v)
         | (try dsimp only [v]
            clear v))
    | intro _
    | with_reducible refine State.staleEvent_keeps (hE.sub rfl) ?_
    | with_reducible refine State.modTensor_keeps (hE.sub rfl) ?_
    | with_reducible refine State.statsPut_keeps (hE.sub rfl) ?_
    | with_reducible refine State.needSlot_keeps (hE.sub rfl) ?_
    | with_reducible refine State.countOd_keeps (hE.sub rfl) ?_
    | with_reducible refine State.setOd_keeps (hE.sub rfl) ?_
    | with_reducible refine Inv.ite ?_ ?_
    | split
    | dsimp only
    | (with_reducible refine Inv.set (fun p => ?_) ?_
       · fail_if_success with_reducible (cases p <;> first
           | exact Or.inl rfl | exact Or.inl ⟨rfl, rfl⟩ | exact Or.inl ⟨rfl, rfl, rfl⟩ | exact Or.inl ⟨rfl, rfl, rfl, rfl⟩ | exact Or.inl ⟨rfl, rfl, rfl, rfl, rfl⟩
           | exact Or.inl ⟨rfl, rfl, rfl, rfl, rfl, rfl⟩ | exact Or.inl ⟨rfl, rfl, rfl, rfl, rfl, rfl, rfl⟩ | exact Or.inl ⟨rfl, rfl, rfl, rfl, rfl, rfl, rfl, rfl, rfl⟩
           | exact Or.inl ⟨rfl, rfl, rfl, rfl, rfl, rfl, rfl, rfl, rfl, rfl, rfl, rfl, rfl, rfl⟩)
         with_reducible (cases p <;> first
           | exact Or.inl rfl | exact Or.inl ⟨rfl, rfl⟩ | exact Or.inl ⟨rfl, rfl, rfl⟩ | exact Or.inl ⟨rfl, rfl, rfl, rfl⟩ | exact Or.inl ⟨rfl, rfl, rfl, rfl, rfl⟩
           | exact Or.inl ⟨rfl, rfl, rfl, rfl, rfl, rfl⟩ | exact Or.inl ⟨rfl, rfl, rfl, rfl, rfl, rfl, rfl⟩ | exact Or.inl ⟨rfl, rfl, rfl, rfl, rfl, rfl, rfl, rfl, rfl⟩
           | exact Or.inl ⟨rfl, rfl, rfl, rfl, rfl, rfl, rfl, rfl, rfl, rfl, rfl, rfl, rfl, rfl⟩
           | exact Or.inr ⟨hE _ (by decide), True.intro⟩ | exact Or.inr ⟨hE _ (by decide), _, rfl⟩))
    | fail

theorem State.countQ_keeps {I : Inv} {s : State} (hE : I.has [.dict]) (h : I.P s) {q : QCount}  :
    I.P (State.countQ s q) := by
  unfold State.countQ
  try dsimp only
  repeat' first
    | with_reducible assumption
    | intro _
    | with_reducible refine State.countOd_keeps (hE.sub rfl) ?_
    | dsimp only

end Sys2Proof.Machine
end

