-- ==== Sys2Proof/Laws/KeepsLinkOps.lean ====
section
/-! SUPPORT. The operations of Machine/LinkOps.lean keep every predicate that lets their parts change. -/

set_option linter.unreachableTactic false
set_option linter.unusedTactic false

namespace Sys2Proof.Machine

theorem State.modLink_keeps {I : Inv} {s : State} (hE : I.has [.links]) (h : I.P s) {l : LinkIx} {f : Link → Link}  :
    I.P (State.modLink s l f) := by
  unfold State.modLink
  try dsimp only
  repeat' first
    | with_reducible assumption
    | intro _
    | dsimp only
    | with_reducible refine Inv.links (hE.sub rfl) ?_ _
    | (with_reducible refine Inv.set (fun p => ?_) ?_
       · fail_if_success with_reducible (cases p <;> first
           | exact Or.inl rfl | exact Or.inl ⟨rfl, rfl⟩ | exact Or.inl ⟨rfl, rfl, rfl⟩ | exact Or.inl ⟨rfl, rfl, rfl, rfl⟩ | exact Or.inl ⟨rfl, rfl, rfl, rfl, rfl⟩
           | exact Or.inl ⟨rfl, rfl, rfl, rfl, rfl, rfl⟩ | exact Or.inl ⟨rfl, rfl, rfl, rfl, rfl, rfl, rfl⟩ | exact Or.inl ⟨rfl, rfl, rfl, rfl, rfl, rfl, rfl, rfl, rfl⟩
           | exact Or.inl ⟨rfl, rfl, rfl, rfl, rfl, rfl, rfl, rfl, rfl, rfl, rfl, rfl, rfl, rfl⟩)
         with_reducible (cases p <;> first
           | exact Or.inl rfl | exact Or.inl ⟨rfl, rfl⟩ | exact Or.inl ⟨rfl, rfl, rfl⟩ | exact Or.inl ⟨rfl, rfl, rfl, rfl⟩ | exact Or.inl ⟨rfl, rfl, rfl, rfl, rfl⟩
           | exact Or.inl ⟨rfl, rfl, rfl, rfl, rfl, rfl⟩ | exact Or.inl ⟨rfl, rfl, rfl, rfl, rfl, rfl, rfl⟩ | exact Or.inl ⟨rfl, rfl, rfl, rfl, rfl, rfl, rfl, rfl, rfl⟩
           | exact Or.inl ⟨rfl, rfl, rfl, rfl, rfl, rfl, rfl, rfl, rfl, rfl, rfl, rfl, rfl, rfl⟩
           | exact Or.inr ⟨hE _ (by decide), True.intro⟩ | exact Or.inr ⟨hE _ (by decide), _, rfl⟩))
    | fail

theorem State.modChan_keeps {I : Inv} {s : State} (hE : I.has [.links]) (h : I.P s) {l : LinkIx} {ch : Fin 4} {f : HaloCh → HaloCh}  :
    I.P (State.modChan s l ch f) := by
  unfold State.modChan
  try dsimp only
  repeat' first
    | with_reducible assumption
    | intro _
    | with_reducible refine State.modLink_keeps (hE.sub rfl) ?_
    | dsimp only

theorem State.sideStatus_keeps {I : Inv} {s : State} (hE : I.has [.regs, .irq, .events, .out]) (h : I.P s) {b : Nat} {l : LinkIx}  :
    I.P (State.sideStatus s b l) := by
  unfold State.sideStatus
  try dsimp only
  repeat' first
    | with_reducible assumption
    | intro _
    | with_reducible refine State.raiseStatus_keeps (hE.sub rfl) ?_
    | dsimp only

theorem State.sideLimited_keeps {I : Inv} {s : State} (hE : I.has [.links, .regs, .irq, .out]) (h : I.P s) {b : Nat} {l : LinkIx} {f : State → State} (hf : ∀ (u : State), I.P u → I.P (f u)) :
    I.P (State.sideLimited s b l f) := by
  unfold State.sideLimited
  try dsimp only
  repeat' first
    | with_reducible assumption
    | intro _
    | refine hf _ ?_
    | with_reducible refine State.raiseInt_keeps (hE.sub rfl) ?_
    | with_reducible refine State.modLink_keeps (hE.sub rfl) ?_
    | with_reducible refine Inv.ite ?_ ?_
    | split
    | dsimp only

theorem State.refuseMsg_keeps {I : Inv} {s : State} (hE : I.has [.links, .regs, .irq, .events, .out]) (h : I.P s) {l : LinkIx} {type : Nat} {status : Nat}  :
    I.P (State.refuseMsg s l type status) := by
  unfold State.refuseMsg
  try dsimp only
  repeat' first
    | with_reducible assumption
    | intro _
    | with_reducible refine State.sideLimited_keeps (hE.sub rfl) ?_ ?_
    | with_reducible refine State.count64_keeps (hE.sub rfl) ?_
    | with_reducible refine State.event_keeps (hE.sub rfl) ?_
    | dsimp only

theorem State.linkStart_keeps {I : Inv} {s : State} (hE : I.has [.links]) (h : I.P s) {l : LinkIx}  :
    I.P (State.linkStart s l) := by
  unfold State.linkStart
  try dsimp only
  repeat' first
    | with_reducible assumption
    | intro _
    | with_reducible refine State.modLink_keeps (hE.sub rfl) ?_
    | with_reducible refine Inv.ite ?_ ?_
    | split
    | dsimp only

theorem State.linkDrop_keeps {I : Inv} {s : State} (hE : I.has [.links, .regs]) (h : I.P s) {l : LinkIx}  :
    I.P (State.linkDrop s l) := by
  unfold State.linkDrop
  try dsimp only
  repeat' first
    | with_reducible assumption
    | intro _
    | with_reducible refine State.modLink_keeps (hE.sub rfl) ?_
    | with_reducible refine State.count64_keeps (hE.sub rfl) ?_
    | with_reducible refine Inv.ite ?_ ?_
    | split
    | dsimp only

theorem State.linkEnd_keeps {I : Inv} {s : State} (hE : I.has [.links, .regs, .dict, .irq, .events, .out]) (h : I.P s) {l : LinkIx} {dest : LinkState} {code : Option Nat}  :
    I.P (State.linkEnd s l dest code) := by
  unfold State.linkEnd
  repeat' first
    | with_reducible assumption
    | (extract_lets +onlyGivenNames v
       first
         | (have hv : I.P v := by
              dsimp only [v]
              repeat' first
                | with_reducible assumption
                | intro _
                | with_reducible refine State.sideStatus_keeps (hE.sub rfl) ?_
                | with_reducible refine State.linkDrop_keeps (hE.sub rfl) ?_
                | with_reducible refine State.modLink_keeps (hE.sub rfl) ?_
                | with_reducible refine State.setOd_keeps (hE.sub rfl) ?_
                | with_reducible refine Inv.ite ?_ ?_
                | split
                | dsimp only
            clear_value v)
         | (try dsimp only [v]
            clear v))
    | intro _
    | with_reducible refine State.sideStatus_keeps (hE.sub rfl) ?_
    | with_reducible refine State.linkDrop_keeps (hE.sub rfl) ?_
    | with_reducible refine State.modLink_keeps (hE.sub rfl) ?_
    | with_reducible refine State.setOd_keeps (hE.sub rfl) ?_
    | with_reducible refine Inv.ite ?_ ?_
    | split
    | dsimp only

theorem State.linkToDown_keeps {I : Inv} {s : State} (hE : I.has [.links, .regs, .dict, .irq, .events, .out]) (h : I.P s) {l : LinkIx} {code : Option Nat}  :
    I.P (State.linkToDown s l code) := by
  unfold State.linkToDown
  try dsimp only
  repeat' first
    | with_reducible assumption
    | intro _
    | with_reducible refine State.linkStart_keeps (hE.sub rfl) ?_
    | with_reducible refine State.linkEnd_keeps (hE.sub rfl) ?_
    | dsimp only

theorem State.linkRetrain_keeps {I : Inv} {s : State} (hE : I.has [.links, .regs]) (h : I.P s) {l : LinkIx}  :
    I.P (State.linkRetrain s l) := by
  unfold State.linkRetrain
  try dsimp only
  repeat' first
    | with_reducible assumption
    | intro _
    | with_reducible refine State.modLink_keeps (hE.sub rfl) ?_
    | with_reducible refine State.count64_keeps (hE.sub rfl) ?_
    | dsimp only

theorem State.queueMsg_keeps {I : Inv} {s : State} (hE : I.has [.links]) (h : I.P s) {l : LinkIx} {type : Nat} {sub : Nat} {lgn : Nat} {flags : Nat} {body : List Byte}  :
    I.P (State.queueMsg s l type sub lgn flags body) := by
  unfold State.queueMsg
  try dsimp only
  repeat' first
    | with_reducible assumption
    | intro _
    | with_reducible refine State.modLink_keeps (hE.sub rfl) ?_
    | with_reducible refine Inv.ite ?_ ?_
    | split
    | dsimp only

theorem State.haloSend_keeps {I : Inv} {s : State} (hE : I.has [.rate, .tensors, .links, .trim, .regs, .dict, .doors, .irq, .chain, .ledger, .dram, .oasis, .poison, .events, .out, .free]) (h : I.P s) {l : LinkIx} {ch : Fin 4} {g : Int}  :
    I.P (State.haloSend s l ch g) := by
  unfold State.haloSend
  repeat' first
    | with_reducible assumption
    | (extract_lets +onlyGivenNames v
       first
         | (have hv : I.P v := by
              dsimp only [v]
              repeat' first
                | with_reducible assumption
                | intro _
                | with_reducible refine State.oasisSeen_keeps (hE.sub rfl) ?_
                | with_reducible refine State.needSlot_keeps (hE.sub rfl) ?_
                | with_reducible refine State.queueMsg_keeps (hE.sub rfl) ?_
                | with_reducible refine State.modChan_keeps (hE.sub rfl) ?_
                | with_reducible refine State.count32_keeps (hE.sub rfl) ?_
                | with_reducible refine State.setReg_keeps (hE.sub rfl) ?_
                | with_reducible refine Inv.ite ?_ ?_
                | split
                | dsimp only
            clear_value v)
         | (try dsimp only [v]
            clear v))
    | intro _
    | with_reducible refine State.oasisSeen_keeps (hE.sub rfl) ?_
    | with_reducible refine State.needSlot_keeps (hE.sub rfl) ?_
    | with_reducible refine State.queueMsg_keeps (hE.sub rfl) ?_
    | with_reducible refine State.modChan_keeps (hE.sub rfl) ?_
    | with_reducible refine State.count32_keeps (hE.sub rfl) ?_
    | with_reducible refine State.setReg_keeps (hE.sub rfl) ?_
    | with_reducible refine Inv.ite ?_ ?_
    | split
    | dsimp only

theorem State.haloChanSync_keeps {I : Inv} {s : State} (hE : I.has [.rate, .tensors, .links, .trim, .regs, .dict, .doors, .irq, .chain, .ledger, .dram, .oasis, .poison, .events, .out, .free]) (h : I.P s) {l : LinkIx} {ch : Fin 4} {v : Nat}  :
    I.P (State.haloChanSync s l ch v) := by
  unfold State.haloChanSync
  try dsimp only
  repeat' first
    | with_reducible assumption
    | intro _
    | with_reducible refine State.haloSend_keeps (hE.sub rfl) ?_
    | with_reducible refine Inv.ite ?_ ?_
    | split
    | dsimp only

theorem State.haloOnSync_keeps {I : Inv} {s : State} (hE : I.has [.rate, .tensors, .links, .trim, .regs, .dict, .doors, .irq, .chain, .ledger, .dram, .oasis, .poison, .events, .out, .free]) (h : I.P s) {obj : Nat} {v : Nat}  :
    I.P (State.haloOnSync s obj v) := by
  unfold State.haloOnSync
  try dsimp only
  repeat' first
    | with_reducible assumption
    | intro _
    | with_reducible refine State.haloChanSync_keeps (hE.sub rfl) ?_
    | with_reducible refine Inv.foldl ?_ ?_
    | with_reducible refine Inv.ite ?_ ?_
    | split
    | dsimp only

theorem State.chainWatch_keeps {I : Inv} {old : State} (hE : I.has [.regs, .irq, .events, .out]) (h : I.P old) {new : State} (h_new : I.P new) :
    I.P (State.chainWatch old new) := by
  unfold State.chainWatch
  try dsimp only
  repeat' first
    | with_reducible assumption
    | intro _
    | with_reducible refine State.raiseStatus_keeps (hE.sub rfl) ?_
    | with_reducible refine State.sideStatus_keeps (hE.sub rfl) ?_
    | with_reducible refine Inv.foldl ?_ ?_
    | with_reducible refine Inv.ite ?_ ?_
    | split
    | dsimp only

theorem State.sendBarrier_keeps {I : Inv} {s : State} (hE : I.has [.links]) (h : I.P s) {g : Int} {lsn : Nat} {dt : Nat}  :
    I.P (State.sendBarrier s g lsn dt) := by
  unfold State.sendBarrier
  try dsimp only
  repeat' first
    | with_reducible assumption
    | intro _
    | with_reducible refine State.queueMsg_keeps (hE.sub rfl) ?_
    | with_reducible refine Inv.foldl ?_ ?_
    | with_reducible refine Inv.ite ?_ ?_
    | split
    | dsimp only

theorem State.queueBoth_keeps {I : Inv} {s : State} (hE : I.has [.links]) (h : I.P s) {type : Nat} {lgn : Nat} {body : List Byte}  :
    I.P (State.queueBoth s type lgn body) := by
  unfold State.queueBoth
  try dsimp only
  repeat' first
    | with_reducible assumption
    | intro _
    | with_reducible refine State.queueMsg_keeps (hE.sub rfl) ?_
    | with_reducible refine Inv.foldl ?_ ?_
    | with_reducible refine Inv.ite ?_ ?_
    | split
    | dsimp only

end Sys2Proof.Machine
end

