-- ==== Sys2Proof/Laws/KeepsSlices.lean ====
section
/-! SUPPORT. The operations of Machine/Slices.lean keep every predicate that lets their parts change. -/

set_option linter.unreachableTactic false
set_option linter.unusedTactic false

namespace Sys2Proof.Machine

theorem State.ffLedger_keeps {I : Inv} {s : State} (hE : I.has [.regs, .dict, .irq, .chain, .ledger, .events, .out]) (h : I.P s) {c : PortIx} {event : Nat} {lsn : Nat} {digest : List Byte}  :
    I.P (State.ffLedger s c event lsn digest) := by
  unfold State.ffLedger
  try dsimp only
  repeat' first
    | with_reducible assumption
    | intro _
    | with_reducible refine State.ledgerAppend_keeps (hE.sub rfl) ?_
    | with_reducible refine Inv.ite ?_ ?_
    | split
    | dsimp only

theorem State.ffStop_keeps {I : Inv} {s : State} (hE : I.has [.fsPorts, .regs, .dict, .irq, .chain, .ledger, .events, .out]) (h : I.P s) {c : PortIx} {cause : Nat}  :
    I.P (State.ffStop s c cause) := by
  unfold State.ffStop
  try dsimp only
  repeat' first
    | with_reducible assumption
    | intro _
    | with_reducible refine State.ffLedger_keeps (hE.sub rfl) ?_
    | with_reducible refine State.raiseInt_keeps (hE.sub rfl) ?_
    | with_reducible refine State.eventAt_keeps (hE.sub rfl) ?_
    | with_reducible refine State.modFs_keeps (hE.sub rfl) ?_
    | with_reducible refine Inv.ite ?_ ?_
    | split
    | dsimp only

theorem State.tableLive_keeps {I : Inv} {s : State} (hE : I.has [.fsPorts, .regs, .dict, .irq, .chain, .ledger, .events, .out]) (h : I.P s) {c : PortIx} {lsn : Nat}  :
    I.P (State.tableLive s c lsn) := by
  unfold State.tableLive
  try dsimp only
  repeat' first
    | with_reducible assumption
    | intro _
    | with_reducible refine State.ledgerAppend_keeps (hE.sub rfl) ?_
    | with_reducible refine State.fsStatusAt_keeps (hE.sub rfl) ?_
    | with_reducible refine State.ffStop_keeps (hE.sub rfl) ?_
    | with_reducible refine State.modFs_keeps (hE.sub rfl) ?_
    | with_reducible refine Inv.ite ?_ ?_
    | split
    | dsimp only

theorem State.applyBound_keeps {I : Inv} {s : State} (hE : I.has [.regs, .dict, .doors, .irq, .chain, .ledger, .events, .out]) (h : I.P s) {lsn : Nat} {l : List MirageVal} :
    I.P (State.applyBound s lsn l) := by
  induction l generalizing s lsn with
  | nil => simpa only [State.applyBound] using h
  | cons a r ih =>
    simp only [State.applyBound]
    repeat' first
      | with_reducible assumption
      | intro _
      | refine ih ?_
      | with_reducible refine State.takeScheduled_keeps (hE.sub rfl) ?_ ?_
      | with_reducible refine State.applyValues_keeps (hE.sub rfl) ?_
      | with_reducible refine Inv.ite ?_ ?_
      | split
      | dsimp only

theorem State.setLive_keeps {I : Inv} {s : State} (hE : I.has [.fsPorts, .regs, .dict, .doors, .irq, .chain, .ledger, .events, .out]) (h : I.P s) {c : PortIx} {b : BoundSet} {lsn : Nat}  :
    I.P (State.setLive s c b lsn) := by
  unfold State.setLive
  try dsimp only
  repeat' first
    | with_reducible assumption
    | intro _
    | with_reducible refine State.fsStatusAt_keeps (hE.sub rfl) ?_
    | with_reducible refine State.applyBound_keeps (hE.sub rfl) ?_
    | with_reducible refine State.tableLive_keeps (hE.sub rfl) ?_
    | with_reducible refine State.modFs_keeps (hE.sub rfl) ?_
    | with_reducible refine State.setOd_keeps (hE.sub rfl) ?_
    | with_reducible refine Inv.ite ?_ ?_
    | split
    | dsimp only

theorem State.ffBegin_keeps {I : Inv} {s : State} (hE : I.has [.fsPorts]) (h : I.P s) {c : PortIx}  :
    I.P (State.ffBegin s c) := by
  unfold State.ffBegin
  try dsimp only
  repeat' first
    | with_reducible assumption
    | intro _
    | with_reducible refine State.modFs_keeps (hE.sub rfl) ?_
    | dsimp only

theorem State.ffLine_keeps {I : Inv} {s : State} (hE : I.has [.fsPorts, .regs, .dict, .doors, .irq, .chain, .ledger, .events, .out]) (h : I.P s) {c : PortIx} {lsn : Nat}  :
    I.P (State.ffLine s c lsn) := by
  unfold State.ffLine
  repeat' first
    | with_reducible assumption
    | (extract_lets +onlyGivenNames v
       first
         | (have hv : I.P v := by
              dsimp only [v]
              repeat' first
                | with_reducible assumption
                | intro _
                | with_reducible refine State.takeDeferred_keeps (hE.sub rfl) ?_
                | with_reducible refine State.ffLedger_keeps (hE.sub rfl) ?_
                | with_reducible refine State.raiseInt_keeps (hE.sub rfl) ?_
                | with_reducible refine State.ffBegin_keeps (hE.sub rfl) ?_
                | with_reducible refine State.eventAt_keeps (hE.sub rfl) ?_
                | with_reducible refine State.ffStop_keeps (hE.sub rfl) ?_
                | with_reducible refine State.modFs_keeps (hE.sub rfl) ?_
                | with_reducible refine Inv.ite ?_ ?_
                | split
                | dsimp only
            clear_value v)
         | (try dsimp only [v]
            clear v))
    | intro _
    | with_reducible refine State.takeDeferred_keeps (hE.sub rfl) ?_
    | with_reducible refine State.ffLedger_keeps (hE.sub rfl) ?_
    | with_reducible refine State.raiseInt_keeps (hE.sub rfl) ?_
    | with_reducible refine State.ffBegin_keeps (hE.sub rfl) ?_
    | with_reducible refine State.eventAt_keeps (hE.sub rfl) ?_
    | with_reducible refine State.ffStop_keeps (hE.sub rfl) ?_
    | with_reducible refine State.modFs_keeps (hE.sub rfl) ?_
    | with_reducible refine Inv.ite ?_ ?_
    | split
    | dsimp only

theorem State.ffCount_keeps {I : Inv} {s : State} (hE : I.has [.fsPorts]) (h : I.P s) {c : PortIx} {l : CamLine} {y3 : Nat → Nat → Int}  :
    I.P (State.ffCount s c l y3) := by
  unfold State.ffCount
  try dsimp only
  repeat' first
    | with_reducible assumption
    | intro _
    | with_reducible refine State.modFs_keeps (hE.sub rfl) ?_
    | with_reducible refine Inv.foldl ?_ ?_
    | with_reducible refine Inv.ite ?_ ?_
    | split
    | dsimp only

theorem State.ffRampEnd_keeps {I : Inv} {s : State} (hE : I.has [.fsPorts, .regs, .dict, .irq, .chain, .ledger, .events, .out]) (h : I.P s) {c : PortIx} {lsn : Nat}  :
    I.P (State.ffRampEnd s c lsn) := by
  unfold State.ffRampEnd
  repeat' first
    | with_reducible assumption
    | (extract_lets +onlyGivenNames v
       first
         | (have hv : I.P v := by
              dsimp only [v]
              repeat' first
                | with_reducible assumption
                | intro _
                | with_reducible refine State.ffLedger_keeps (hE.sub rfl) ?_
                | with_reducible refine State.raiseInt_keeps (hE.sub rfl) ?_
                | with_reducible refine State.countOd_keeps (hE.sub rfl) ?_
                | with_reducible refine State.eventAt_keeps (hE.sub rfl) ?_
                | with_reducible refine State.modFs_keeps (hE.sub rfl) ?_
                | with_reducible refine Inv.foldl ?_ ?_
                | with_reducible refine Inv.ite ?_ ?_
                | split
                | dsimp only
            clear_value v)
         | (try dsimp only [v]
            clear v))
    | intro _
    | with_reducible refine State.ffLedger_keeps (hE.sub rfl) ?_
    | with_reducible refine State.raiseInt_keeps (hE.sub rfl) ?_
    | with_reducible refine State.countOd_keeps (hE.sub rfl) ?_
    | with_reducible refine State.eventAt_keeps (hE.sub rfl) ?_
    | with_reducible refine State.modFs_keeps (hE.sub rfl) ?_
    | with_reducible refine Inv.foldl ?_ ?_
    | with_reducible refine Inv.ite ?_ ?_
    | split
    | dsimp only

theorem execFfPeriodEnd_ok {I : Inv} {s : State} (hE : I.has [.fsPorts, .regs, .dict, .irq, .events, .out]) (h : I.P s) {port : PortIx}  :
    I.ok (execFfPeriodEnd port s) := by
  unfold execFfPeriodEnd
  repeat' first
    | with_reducible assumption
    | (extract_lets +onlyGivenNames v
       first
         | (have hv : I.P v := by
              dsimp only [v]
              repeat' first
                | with_reducible assumption
                | with_reducible refine Inv.ok_act ?_ ?_
                | with_reducible refine Inv.ok_next ?_
                | with_reducible exact Inv.ok_refused _
                | with_reducible refine Inv.ok_ite ?_ ?_
                | with_reducible refine State.raiseInt_keeps (hE.sub rfl) ?_
                | with_reducible refine State.countOd_keeps (hE.sub rfl) ?_
                | with_reducible refine State.ffBegin_keeps (hE.sub rfl) ?_
                | with_reducible refine State.eventAt_keeps (hE.sub rfl) ?_
                | with_reducible refine State.modFs_keeps (hE.sub rfl) ?_
                | with_reducible refine Inv.foldl ?_ ?_
                | with_reducible refine Inv.ite ?_ ?_
                | split
                | intro _
                | dsimp only
            clear_value v)
         | (try dsimp only [v]
            clear v))
    | with_reducible refine Inv.ok_act ?_ ?_
    | with_reducible refine Inv.ok_next ?_
    | with_reducible exact Inv.ok_refused _
    | with_reducible refine Inv.ok_ite ?_ ?_
    | with_reducible refine State.raiseInt_keeps (hE.sub rfl) ?_
    | with_reducible refine State.countOd_keeps (hE.sub rfl) ?_
    | with_reducible refine State.ffBegin_keeps (hE.sub rfl) ?_
    | with_reducible refine State.eventAt_keeps (hE.sub rfl) ?_
    | with_reducible refine State.modFs_keeps (hE.sub rfl) ?_
    | with_reducible refine Inv.foldl ?_ ?_
    | with_reducible refine Inv.ite ?_ ?_
    | split
    | intro _
    | dsimp only

theorem execFfComputeDone_ok {I : Inv} {s : State} (hE : I.has [.fsPorts]) (h : I.P s) {port : PortIx}  :
    I.ok (execFfComputeDone port s) := by
  unfold execFfComputeDone
  try dsimp only
  repeat' first
    | with_reducible assumption
    | with_reducible refine Inv.ok_act ?_ ?_
    | with_reducible refine Inv.ok_next ?_
    | with_reducible exact Inv.ok_refused _
    | with_reducible refine Inv.ok_ite ?_ ?_
    | with_reducible refine State.modFs_keeps (hE.sub rfl) ?_
    | with_reducible refine Inv.ite ?_ ?_
    | split
    | intro _
    | dsimp only

theorem State.fsLimited_keeps {I : Inv} {s : State} (hE : I.has [.regs, .irq, .events, .out]) (h : I.P s) {c : PortIx} {b : Nat} {g : Int} {last : Option Int}  :
    I.P (State.fsLimited s c b g last) := by
  unfold State.fsLimited
  try dsimp only
  repeat' first
    | with_reducible assumption
    | intro _
    | with_reducible refine State.fsStatusAt_keeps (hE.sub rfl) ?_
    | with_reducible refine State.raiseInt_keeps (hE.sub rfl) ?_
    | with_reducible refine Inv.ite ?_ ?_
    | split
    | dsimp only

theorem State.mpSeen_keeps {I : Inv} {s : State} (hE : I.has [.rate, .trim, .regs, .dict, .irq, .poison, .events, .out]) (h : I.P s) {c : PortIx} {l : CamLine}  :
    I.P (State.mpSeen s c l) := by
  unfold State.mpSeen
  try dsimp only
  repeat' first
    | with_reducible assumption
    | intro _
    | with_reducible refine State.dramSeen_keeps (hE.sub rfl) ?_
    | with_reducible refine Inv.ite ?_ ?_
    | split
    | dsimp only

theorem State.startLine_keeps {I : Inv} {s : State} (hE : I.has [.rate, .ports, .fsPorts, .slices, .trim, .regs, .dict, .doors, .irq, .chain, .ledger, .poison, .events, .out]) (h : I.P s) {c : PortIx} {l : CamLine}  :
    I.P (State.startLine s c l) := by
  unfold State.startLine
  repeat' first
    | with_reducible assumption
    | (extract_lets +onlyGivenNames v
       first
         | (have hv : I.P v := by
              dsimp only [v]
              repeat' first
                | with_reducible assumption
                | intro _
                | with_reducible refine State.fsLimited_keeps (hE.sub rfl) ?_
                | with_reducible refine State.noteWait_keeps (hE.sub rfl) ?_
                | with_reducible refine State.modSlice_keeps (hE.sub rfl) ?_
                | with_reducible refine State.ffCount_keeps (hE.sub rfl) ?_
                | with_reducible refine State.modPort_keeps (hE.sub rfl) ?_
                | with_reducible refine State.countOd_keeps (hE.sub rfl) ?_
                | with_reducible refine State.setLive_keeps (hE.sub rfl) ?_
                | with_reducible refine State.mpSeen_keeps (hE.sub rfl) ?_
                | with_reducible refine State.ffLine_keeps (hE.sub rfl) ?_
                | with_reducible refine State.modFs_keeps (hE.sub rfl) ?_
                | with_reducible refine State.peak_keeps (hE.sub rfl) ?_
                | with_reducible refine Inv.ite ?_ ?_
                | split
                | dsimp only
            clear_value v)
         | (try dsimp only [v]
            clear v))
    | intro _
    | with_reducible refine State.fsLimited_keeps (hE.sub rfl) ?_
    | with_reducible refine State.noteWait_keeps (hE.sub rfl) ?_
    | with_reducible refine State.modSlice_keeps (hE.sub rfl) ?_
    | with_reducible refine State.ffCount_keeps (hE.sub rfl) ?_
    | with_reducible refine State.modPort_keeps (hE.sub rfl) ?_
    | with_reducible refine State.countOd_keeps (hE.sub rfl) ?_
    | with_reducible refine State.setLive_keeps (hE.sub rfl) ?_
    | with_reducible refine State.mpSeen_keeps (hE.sub rfl) ?_
    | with_reducible refine State.ffLine_keeps (hE.sub rfl) ?_
    | with_reducible refine State.modFs_keeps (hE.sub rfl) ?_
    | with_reducible refine State.peak_keeps (hE.sub rfl) ?_
    | with_reducible refine Inv.ite ?_ ?_
    | split
    | dsimp only

theorem execFsLineStart_ok {I : Inv} {s : State} (hE : I.has [.rate, .ports, .fsPorts, .slices, .trim, .regs, .dict, .doors, .irq, .chain, .ledger, .poison, .events, .out]) (h : I.P s) {slice : SliceIx}  :
    I.ok (execFsLineStart slice s) := by
  unfold execFsLineStart
  try dsimp only
  repeat' first
    | with_reducible assumption
    | with_reducible refine Inv.ok_act ?_ ?_
    | with_reducible refine Inv.ok_next ?_
    | with_reducible exact Inv.ok_refused _
    | with_reducible refine Inv.ok_ite ?_ ?_
    | with_reducible refine State.startLine_keeps (hE.sub rfl) ?_
    | with_reducible refine Inv.ite ?_ ?_
    | split
    | intro _
    | dsimp only

theorem State.writeTag_keeps {I : Inv} {s : State} (hE : I.has [.fsPorts, .oasis, .poison, .events]) (h : I.P s) {c : PortIx} {a : TagAcc}  :
    I.P (State.writeTag s c a) := by
  unfold State.writeTag
  try dsimp only
  repeat' first
    | with_reducible assumption
    | intro _
    | with_reducible refine State.writeOasis_keeps (hE.sub rfl) ?_
    | with_reducible refine State.ringMark_keeps (hE.sub rfl) ?_
    | with_reducible refine State.modFs_keeps (hE.sub rfl) ?_
    | with_reducible refine Inv.ite ?_ ?_
    | split
    | dsimp only

theorem State.finishLine_keeps {I : Inv} {s : State} (hE : I.has [.ports, .fsPorts, .slices, .regs, .dict, .irq, .chain, .ledger, .oasis, .poison, .events, .out]) (h : I.P s) {k : SliceIx} {run : SliceRun}  :
    I.P (State.finishLine s k run) := by
  unfold State.finishLine
  repeat' first
    | with_reducible assumption
    | (extract_lets +onlyGivenNames v
       first
         | (have hv : I.P v := by
              dsimp only [v]
              repeat' first
                | with_reducible assumption
                | intro _
                | with_reducible refine State.writeOasis_keeps (hE.sub rfl) ?_
                | with_reducible refine State.ffRampEnd_keeps (hE.sub rfl) ?_
                | with_reducible refine State.fsLimited_keeps (hE.sub rfl) ?_
                | with_reducible refine State.writeTag_keeps (hE.sub rfl) ?_
                | with_reducible refine State.fifoFree_keeps (hE.sub rfl) ?_
                | with_reducible refine State.modSlice_keeps (hE.sub rfl) ?_
                | with_reducible refine State.count32_keeps (hE.sub rfl) ?_
                | with_reducible refine State.countOd_keeps (hE.sub rfl) ?_
                | with_reducible refine State.mpFree_keeps (hE.sub rfl) ?_
                | with_reducible refine State.modFs_keeps (hE.sub rfl) ?_
                | with_reducible refine Inv.foldl ?_ ?_
                | with_reducible refine Inv.ite ?_ ?_
                | split
                | dsimp only
            clear_value v)
         | (try dsimp only [v]
            clear v))
    | intro _
    | with_reducible refine State.writeOasis_keeps (hE.sub rfl) ?_
    | with_reducible refine State.ffRampEnd_keeps (hE.sub rfl) ?_
    | with_reducible refine State.fsLimited_keeps (hE.sub rfl) ?_
    | with_reducible refine State.writeTag_keeps (hE.sub rfl) ?_
    | with_reducible refine State.fifoFree_keeps (hE.sub rfl) ?_
    | with_reducible refine State.modSlice_keeps (hE.sub rfl) ?_
    | with_reducible refine State.count32_keeps (hE.sub rfl) ?_
    | with_reducible refine State.countOd_keeps (hE.sub rfl) ?_
    | with_reducible refine State.mpFree_keeps (hE.sub rfl) ?_
    | with_reducible refine State.modFs_keeps (hE.sub rfl) ?_
    | with_reducible refine Inv.foldl ?_ ?_
    | with_reducible refine Inv.ite ?_ ?_
    | split
    | dsimp only

theorem execFsLineWrite_ok {I : Inv} {s : State} (hE : I.has [.ports, .fsPorts, .slices, .regs, .dict, .irq, .chain, .ledger, .oasis, .poison, .events, .out]) (h : I.P s) {slice : SliceIx}  :
    I.ok (execFsLineWrite slice s) := by
  unfold execFsLineWrite
  try dsimp only
  repeat' first
    | with_reducible assumption
    | with_reducible refine Inv.ok_act ?_ ?_
    | with_reducible refine Inv.ok_next ?_
    | with_reducible exact Inv.ok_refused _
    | with_reducible refine Inv.ok_ite ?_ ?_
    | with_reducible refine State.finishLine_keeps (hE.sub rfl) ?_
    | with_reducible refine Inv.ite ?_ ?_
    | split
    | intro _
    | dsimp only

theorem State.mpWrite_keeps {I : Inv} {s : State} (hE : I.has [.dram, .poison]) (h : I.P s) {c : PortIx} {off : Nat} {bs : List Byte}  :
    I.P (State.mpWrite s c off bs) := by
  unfold State.mpWrite
  try dsimp only
  repeat' first
    | with_reducible assumption
    | intro _
    | with_reducible refine State.writeDram_keeps (hE.sub rfl) ?_
    | with_reducible refine Inv.ite ?_ ?_
    | split
    | dsimp only

theorem execMemoryPathStore_ok {I : Inv} {s : State} (hE : I.has [.ports, .fsPorts, .regs, .irq, .dram, .poison, .events, .out]) (h : I.P s) {port : PortIx}  :
    I.ok (execMemoryPathStore port s) := by
  unfold execMemoryPathStore
  repeat' first
    | with_reducible assumption
    | (extract_lets +onlyGivenNames v
       first
         | (have hv : I.P v := by
              dsimp only [v]
              repeat' first
                | with_reducible assumption
                | with_reducible refine Inv.ok_act ?_ ?_
                | with_reducible refine Inv.ok_next ?_
                | with_reducible exact Inv.ok_refused _
                | with_reducible refine Inv.ok_ite ?_ ?_
                | with_reducible refine State.fifoFree_keeps (hE.sub rfl) ?_
                | with_reducible refine State.modPort_keeps (hE.sub rfl) ?_
                | with_reducible refine State.mpWrite_keeps (hE.sub rfl) ?_
                | with_reducible refine State.modFs_keeps (hE.sub rfl) ?_
                | with_reducible refine Inv.ite ?_ ?_
                | split
                | intro _
                | dsimp only
            clear_value v)
         | (try dsimp only [v]
            clear v))
    | with_reducible refine Inv.ok_act ?_ ?_
    | with_reducible refine Inv.ok_next ?_
    | with_reducible exact Inv.ok_refused _
    | with_reducible refine Inv.ok_ite ?_ ?_
    | with_reducible refine State.fifoFree_keeps (hE.sub rfl) ?_
    | with_reducible refine State.modPort_keeps (hE.sub rfl) ?_
    | with_reducible refine State.mpWrite_keeps (hE.sub rfl) ?_
    | with_reducible refine State.modFs_keeps (hE.sub rfl) ?_
    | with_reducible refine Inv.ite ?_ ?_
    | split
    | intro _
    | dsimp only

theorem execFsTblDataAccess_ok {I : Inv} {s : State} (hE : I.has [.fsPorts, .regs, .irq, .out, .free]) (h : I.P s) {slice : SliceIx} {write : Option W32}  :
    I.ok (execFsTblDataAccess slice write s) := by
  unfold execFsTblDataAccess
  try dsimp only
  repeat' first
    | with_reducible assumption
    | with_reducible refine Inv.ok_act ?_ ?_
    | with_reducible refine Inv.ok_next ?_
    | with_reducible exact Inv.ok_refused _
    | with_reducible refine Inv.ok_ite ?_ ?_
    | with_reducible refine State.raiseInt_keeps (hE.sub rfl) ?_
    | with_reducible refine State.takeFree_snd (hE.sub rfl) ?_
    | with_reducible refine State.takeFree_keeps (hE.sub rfl) ?_ (by with_reducible assumption)
    | with_reducible refine State.setReg_keeps (hE.sub rfl) ?_
    | with_reducible refine State.modFs_keeps (hE.sub rfl) ?_
    | with_reducible refine State.send_keeps (hE.sub rfl) ?_
    | with_reducible refine Inv.ite ?_ ?_
    | split
    | intro _
    | dsimp only

theorem State.commitTables_keeps {I : Inv} {s : State} (hE : I.has [.fsPorts, .regs, .dict, .irq, .chain, .ledger, .events, .out]) (h : I.P s) {slice : SliceIx} {mask : BitVec 4}  :
    I.P (State.commitTables s slice mask) := by
  unfold State.commitTables
  try dsimp only
  repeat' first
    | with_reducible assumption
    | intro _
    | with_reducible refine State.tableLive_keeps (hE.sub rfl) ?_
    | with_reducible refine State.modFs_keeps (hE.sub rfl) ?_
    | with_reducible refine Inv.foldl ?_ ?_
    | with_reducible refine Inv.ite ?_ ?_
    | split
    | dsimp only

theorem execFsTblCommit_ok {I : Inv} {s : State} (hE : I.has [.fsPorts, .regs, .dict, .irq, .chain, .ledger, .events, .out]) (h : I.P s) {slice : SliceIx} {mask : BitVec 4}  :
    I.ok (execFsTblCommit slice mask s) := by
  unfold execFsTblCommit
  try dsimp only
  repeat' first
    | with_reducible assumption
    | with_reducible refine Inv.ok_act ?_ ?_
    | with_reducible refine Inv.ok_next ?_
    | with_reducible exact Inv.ok_refused _
    | with_reducible refine Inv.ok_ite ?_ ?_
    | with_reducible refine State.commitTables_keeps (hE.sub rfl) ?_
    | with_reducible refine Inv.ite ?_ ?_
    | split
    | intro _
    | dsimp only

theorem execTableCopyDone_ok {I : Inv} {s : State} (hE : I.has [.fsPorts]) (h : I.P s) {port : PortIx}  :
    I.ok (execTableCopyDone port s) := by
  unfold execTableCopyDone
  try dsimp only
  repeat' first
    | with_reducible assumption
    | with_reducible refine Inv.ok_act ?_ ?_
    | with_reducible refine Inv.ok_next ?_
    | with_reducible exact Inv.ok_refused _
    | with_reducible refine Inv.ok_ite ?_ ?_
    | with_reducible refine State.modFs_keeps (hE.sub rfl) ?_
    | with_reducible refine Inv.ite ?_ ?_
    | split
    | intro _
    | dsimp only

theorem execTableInitDone_ok {I : Inv} {s : State} (hE : I.has [.slices]) (h : I.P s) {slice : SliceIx}  :
    I.ok (execTableInitDone slice s) := by
  unfold execTableInitDone
  try dsimp only
  repeat' first
    | with_reducible assumption
    | with_reducible refine Inv.ok_act ?_ ?_
    | with_reducible refine Inv.ok_next ?_
    | with_reducible exact Inv.ok_refused _
    | with_reducible refine Inv.ok_ite ?_ ?_
    | with_reducible refine State.modSlice_keeps (hE.sub rfl) ?_
    | intro _
    | dsimp only

theorem State.resetTables_keeps {I : Inv} {s : State} (hE : I.has [.fsPorts, .slices]) (h : I.P s) {k : SliceIx}  :
    I.P (State.resetTables s k) := by
  unfold State.resetTables
  try dsimp only
  repeat' first
    | with_reducible assumption
    | intro _
    | with_reducible refine State.modSlice_keeps (hE.sub rfl) ?_
    | with_reducible refine State.modFs_keeps (hE.sub rfl) ?_
    | with_reducible refine Inv.foldl ?_ ?_
    | with_reducible refine Inv.ite ?_ ?_
    | split
    | dsimp only

theorem State.fsPreop_keeps {I : Inv} {s : State} (hE : I.has [.fsPorts, .regs, .dict, .doors, .irq, .chain, .ledger, .events, .out]) (h : I.P s) {c : PortIx}  :
    I.P (State.fsPreop s c) := by
  unfold State.fsPreop
  try dsimp only
  repeat' first
    | with_reducible assumption
    | intro _
    | with_reducible refine State.applyValues_keeps (hE.sub rfl) ?_
    | with_reducible refine State.tableLive_keeps (hE.sub rfl) ?_
    | with_reducible refine State.setLive_keeps (hE.sub rfl) ?_
    | with_reducible refine State.modFs_keeps (hE.sub rfl) ?_
    | with_reducible refine Inv.ite ?_ ?_
    | split
    | dsimp only

theorem State.fsArmed_keeps {I : Inv} {s : State} (hE : I.has [.fsPorts]) (h : I.P s) {c : PortIx}  :
    I.P (State.fsArmed s c) := by
  unfold State.fsArmed
  try dsimp only
  repeat' first
    | with_reducible assumption
    | intro _
    | with_reducible refine State.modFs_keeps (hE.sub rfl) ?_
    | with_reducible refine Inv.ite ?_ ?_
    | split
    | dsimp only

end Sys2Proof.Machine
end

