-- ==== Sys2Proof/Laws/KeepsTileOps.lean ====
section
/-! SUPPORT. The operations of Machine/TileOps.lean keep every predicate that lets their parts change. -/

set_option linter.unreachableTactic false
set_option linter.unusedTactic false

namespace Sys2Proof.Machine

theorem State.coreStatus_keeps {I : Inv} {s : State} (hE : I.has [.regs, .irq, .events, .out]) (h : I.P s) {k : CoreIx} {b : Nat}  :
    I.P (State.coreStatus s k b) := by
  unfold State.coreStatus
  try dsimp only
  repeat' first
    | with_reducible assumption
    | intro _
    | with_reducible refine State.raiseStatus_keeps (hE.sub rfl) ?_
    | dsimp only

theorem State.parkEffect_keeps {I : Inv} {s : State} (hE : I.has [.cores, .regs, .irq, .events, .out]) (h : I.P s) {k : CoreIx}  :
    I.P (State.parkEffect s k) := by
  unfold State.parkEffect
  try dsimp only
  repeat' first
    | with_reducible assumption
    | intro _
    | with_reducible refine State.coreIdle_keeps (hE.sub rfl) ?_
    | with_reducible refine State.modCore_keeps (hE.sub rfl) ?_
    | with_reducible refine Inv.ite ?_ ?_
    | split
    | dsimp only

theorem State.retire_keeps {I : Inv} {s : State} (hE : I.has [.cores]) (h : I.P s) {k : CoreIx} {p : Flight → Bool}  :
    I.P (State.retire s k p) := by
  unfold State.retire
  try dsimp only
  repeat' first
    | with_reducible assumption
    | intro _
    | with_reducible refine State.modCore_keeps (hE.sub rfl) ?_
    | with_reducible refine Inv.foldl ?_ ?_
    | with_reducible refine Inv.ite ?_ ?_
    | split
    | dsimp only
    | (with_reducible refine Inv.set (fun p => ?_) ?_
       · fail_if_success with_reducible (cases p <;> first
           | exact Or.inl rfl | exact Or.inl ⟨rfl, rfl⟩ | exact Or.inl ⟨rfl, rfl, rfl⟩ | exact Or.inl ⟨rfl, rfl, rfl, rfl⟩ | exact Or.inl ⟨rfl, rfl, rfl, rfl, rfl⟩
           | exact Or.inl ⟨rfl, rfl, rfl, rfl, rfl, rfl⟩ | exact Or.inl ⟨rfl, rfl, rfl, rfl, rfl, rfl, rfl⟩ | exact Or.inl ⟨rfl, rfl, rfl, rfl, rfl, rfl, rfl, rfl, rfl⟩
           | exact Or.inl ⟨rfl, rfl, rfl, rfl, rfl, rfl, rfl, rfl, rfl, rfl, rfl, rfl, rfl, rfl⟩)
         with_reducible (cases p <;> first
           | exact Or.inl rfl | exact Or.inl ⟨rfl, rfl⟩ | exact Or.inl ⟨rfl, rfl, rfl⟩ | exact Or.inl ⟨rfl, rfl, rfl, rfl⟩ | exact Or.inl ⟨rfl, rfl, rfl, rfl, rfl⟩
           | exact Or.inl ⟨rfl, rfl, rfl, rfl, rfl, rfl⟩ | exact Or.inl ⟨rfl, rfl, rfl, rfl, rfl, rfl, rfl⟩ | exact Or.inl ⟨rfl, rfl, rfl, rfl, rfl, rfl, rfl, rfl, rfl⟩
           | exact Or.inl ⟨rfl, rfl, rfl, rfl, rfl, rfl, rfl, rfl, rfl, rfl, rfl, rfl, rfl, rfl⟩
           | exact Or.inr ⟨hE _ (by decide), True.intro⟩ | exact Or.inr ⟨hE _ (by decide), _, rfl⟩))
    | fail

theorem State.issue_keeps {I : Inv} {s : State} (hE : I.has [.cores]) (h : I.P s) {k : CoreIx} {op : Nat} {f : State → Tile → Prog → Nat → State} (hf : ∀ (u : State) (a1 : Tile) (a2 : Prog) (a3 : Nat), I.P u → I.P (f u a1 a2 a3)) :
    I.P (State.issue s k op f) := by
  unfold State.issue
  try dsimp only
  repeat' first
    | with_reducible assumption
    | intro _
    | refine hf _ _ _ _ ?_
    | with_reducible refine State.modCore_keeps (hE.sub rfl) ?_
    | with_reducible refine State.retire_keeps (hE.sub rfl) ?_
    | with_reducible refine Inv.ite ?_ ?_
    | split
    | dsimp only

theorem State.advance_keeps {I : Inv} {s : State} (hE : I.has [.cores]) (h : I.P s) {k : CoreIx}  :
    I.P (State.advance s k) := by
  unfold State.advance
  try dsimp only
  repeat' first
    | with_reducible assumption
    | intro _
    | with_reducible refine State.modTile_keeps (hE.sub rfl) ?_
    | dsimp only
    | (with_reducible refine Inv.set (fun p => ?_) ?_
       · fail_if_success with_reducible (cases p <;> first
           | exact Or.inl rfl | exact Or.inl ⟨rfl, rfl⟩ | exact Or.inl ⟨rfl, rfl, rfl⟩ | exact Or.inl ⟨rfl, rfl, rfl, rfl⟩ | exact Or.inl ⟨rfl, rfl, rfl, rfl, rfl⟩
           | exact Or.inl ⟨rfl, rfl, rfl, rfl, rfl, rfl⟩ | exact Or.inl ⟨rfl, rfl, rfl, rfl, rfl, rfl, rfl⟩ | exact Or.inl ⟨rfl, rfl, rfl, rfl, rfl, rfl, rfl, rfl, rfl⟩
           | exact Or.inl ⟨rfl, rfl, rfl, rfl, rfl, rfl, rfl, rfl, rfl, rfl, rfl, rfl, rfl, rfl⟩)
         with_reducible (cases p <;> first
           | exact Or.inl rfl | exact Or.inl ⟨rfl, rfl⟩ | exact Or.inl ⟨rfl, rfl, rfl⟩ | exact Or.inl ⟨rfl, rfl, rfl, rfl⟩ | exact Or.inl ⟨rfl, rfl, rfl, rfl, rfl⟩
           | exact Or.inl ⟨rfl, rfl, rfl, rfl, rfl, rfl⟩ | exact Or.inl ⟨rfl, rfl, rfl, rfl, rfl, rfl, rfl⟩ | exact Or.inl ⟨rfl, rfl, rfl, rfl, rfl, rfl, rfl, rfl, rfl⟩
           | exact Or.inl ⟨rfl, rfl, rfl, rfl, rfl, rfl, rfl, rfl, rfl, rfl, rfl, rfl, rfl, rfl⟩
           | exact Or.inr ⟨hE _ (by decide), True.intro⟩ | exact Or.inr ⟨hE _ (by decide), _, rfl⟩))
    | fail

theorem State.launch_keeps {I : Inv} {s : State} (hE : I.has [.cores]) (h : I.P s) {k : CoreIx} {w : Nat} {us : List Nat} {ranges : List (Nat × Nat)} {regions : List (Nat × Nat)} {waits : Bool}  :
    I.P (State.launch s k w us ranges regions waits) := by
  unfold State.launch
  try dsimp only
  repeat' first
    | with_reducible assumption
    | intro _
    | with_reducible refine State.advance_keeps (hE.sub rfl) ?_
    | with_reducible refine State.modTile_keeps (hE.sub rfl) ?_
    | dsimp only
    | (with_reducible refine Inv.set (fun p => ?_) ?_
       · fail_if_success with_reducible (cases p <;> first
           | exact Or.inl rfl | exact Or.inl ⟨rfl, rfl⟩ | exact Or.inl ⟨rfl, rfl, rfl⟩ | exact Or.inl ⟨rfl, rfl, rfl, rfl⟩ | exact Or.inl ⟨rfl, rfl, rfl, rfl, rfl⟩
           | exact Or.inl ⟨rfl, rfl, rfl, rfl, rfl, rfl⟩ | exact Or.inl ⟨rfl, rfl, rfl, rfl, rfl, rfl, rfl⟩ | exact Or.inl ⟨rfl, rfl, rfl, rfl, rfl, rfl, rfl, rfl, rfl⟩
           | exact Or.inl ⟨rfl, rfl, rfl, rfl, rfl, rfl, rfl, rfl, rfl, rfl, rfl, rfl, rfl, rfl⟩)
         with_reducible (cases p <;> first
           | exact Or.inl rfl | exact Or.inl ⟨rfl, rfl⟩ | exact Or.inl ⟨rfl, rfl, rfl⟩ | exact Or.inl ⟨rfl, rfl, rfl, rfl⟩ | exact Or.inl ⟨rfl, rfl, rfl, rfl, rfl⟩
           | exact Or.inl ⟨rfl, rfl, rfl, rfl, rfl, rfl⟩ | exact Or.inl ⟨rfl, rfl, rfl, rfl, rfl, rfl, rfl⟩ | exact Or.inl ⟨rfl, rfl, rfl, rfl, rfl, rfl, rfl, rfl, rfl⟩
           | exact Or.inl ⟨rfl, rfl, rfl, rfl, rfl, rfl, rfl, rfl, rfl, rfl, rfl, rfl, rfl, rfl⟩
           | exact Or.inr ⟨hE _ (by decide), True.intro⟩ | exact Or.inr ⟨hE _ (by decide), _, rfl⟩))
    | fail

theorem State.abandon_keeps {I : Inv} {s : State} (hE : I.has [.cores, .cmd, .regs, .dict, .irq, .events, .out]) (h : I.P s) {k : CoreIx} {cls : Nat} {code : Nat} {addr : Nat} {limit : Nat} {b : Blame}  :
    I.P (State.abandon s k cls code addr limit b) := by
  unfold State.abandon
  try dsimp only
  repeat' first
    | with_reducible assumption
    | intro _
    | with_reducible refine State.modWellTile_keeps (hE.sub rfl) ?_
    | with_reducible refine State.leaveRounds_keeps (hE.sub rfl) ?_
    | with_reducible refine State.raiseInt_keeps (hE.sub rfl) ?_
    | with_reducible refine State.coreIdle_keeps (hE.sub rfl) ?_
    | with_reducible refine State.countOd_keeps (hE.sub rfl) ?_
    | with_reducible refine State.modCore_keeps (hE.sub rfl) ?_
    | with_reducible refine State.eventAt_keeps (hE.sub rfl) ?_
    | with_reducible refine State.count32_keeps (hE.sub rfl) ?_
    | with_reducible refine Inv.ite ?_ ?_
    | split
    | dsimp only

theorem State.tmUncorrectable_keeps {I : Inv} {s : State} (hE : I.has [.cores, .regs, .irq, .events, .out]) (h : I.P s) {k : CoreIx}  :
    I.P (State.tmUncorrectable s k) := by
  unfold State.tmUncorrectable
  try dsimp only
  repeat' first
    | with_reducible assumption
    | intro _
    | with_reducible refine State.coreStatus_keeps (hE.sub rfl) ?_
    | with_reducible refine State.modCore_keeps (hE.sub rfl) ?_
    | with_reducible refine State.count64_keeps (hE.sub rfl) ?_
    | with_reducible refine Inv.ite ?_ ?_
    | split
    | dsimp only

theorem State.tmCorrectedAt_keeps {I : Inv} {s : State} (hE : I.has [.cmd, .regs, .irq, .events, .out]) (h : I.P s) {k : CoreIx} {g : Int} {lsn : Nat} {cells : List (Nat × Nat)}  :
    I.P (State.tmCorrectedAt s k g lsn cells) := by
  unfold State.tmCorrectedAt
  try dsimp only
  repeat' first
    | with_reducible assumption
    | intro _
    | with_reducible refine State.raiseStatusAt_keeps (hE.sub rfl) ?_
    | with_reducible refine State.raiseInt_keeps (hE.sub rfl) ?_
    | with_reducible refine State.count64_keeps (hE.sub rfl) ?_
    | with_reducible refine State.modCmd_keeps (hE.sub rfl) ?_
    | with_reducible refine Inv.ite ?_ ?_
    | split
    | dsimp only
    | (with_reducible refine Inv.set (fun p => ?_) ?_
       · fail_if_success with_reducible (cases p <;> first
           | exact Or.inl rfl | exact Or.inl ⟨rfl, rfl⟩ | exact Or.inl ⟨rfl, rfl, rfl⟩ | exact Or.inl ⟨rfl, rfl, rfl, rfl⟩ | exact Or.inl ⟨rfl, rfl, rfl, rfl, rfl⟩
           | exact Or.inl ⟨rfl, rfl, rfl, rfl, rfl, rfl⟩ | exact Or.inl ⟨rfl, rfl, rfl, rfl, rfl, rfl, rfl⟩ | exact Or.inl ⟨rfl, rfl, rfl, rfl, rfl, rfl, rfl, rfl, rfl⟩
           | exact Or.inl ⟨rfl, rfl, rfl, rfl, rfl, rfl, rfl, rfl, rfl, rfl, rfl, rfl, rfl, rfl⟩)
         with_reducible (cases p <;> first
           | exact Or.inl rfl | exact Or.inl ⟨rfl, rfl⟩ | exact Or.inl ⟨rfl, rfl, rfl⟩ | exact Or.inl ⟨rfl, rfl, rfl, rfl⟩ | exact Or.inl ⟨rfl, rfl, rfl, rfl, rfl⟩
           | exact Or.inl ⟨rfl, rfl, rfl, rfl, rfl, rfl⟩ | exact Or.inl ⟨rfl, rfl, rfl, rfl, rfl, rfl, rfl⟩ | exact Or.inl ⟨rfl, rfl, rfl, rfl, rfl, rfl, rfl, rfl, rfl⟩
           | exact Or.inl ⟨rfl, rfl, rfl, rfl, rfl, rfl, rfl, rfl, rfl, rfl, rfl, rfl, rfl, rfl⟩
           | exact Or.inr ⟨hE _ (by decide), True.intro⟩ | exact Or.inr ⟨hE _ (by decide), _, rfl⟩))
    | fail

theorem State.tmCorrected_keeps {I : Inv} {s : State} (hE : I.has [.cmd, .regs, .irq, .events, .out]) (h : I.P s) {k : CoreIx} {t : Tile} {cells : List (Nat × Nat)}  :
    I.P (State.tmCorrected s k t cells) := by
  unfold State.tmCorrected
  try dsimp only
  repeat' first
    | with_reducible assumption
    | intro _
    | with_reducible refine State.tmCorrectedAt_keeps (hE.sub rfl) ?_
    | dsimp only

theorem State.applyFx_keeps {I : Inv} {s : State} (hE : I.has [.cores, .regs, .dict, .free]) (h : I.P s) {k : CoreIx} {w : Nat} {f : Fx}  :
    I.P (State.applyFx s k w f) := by
  unfold State.applyFx
  try dsimp only
  repeat' first
    | with_reducible assumption
    | intro _
    | with_reducible refine State.modTile_keeps (hE.sub rfl) ?_
    | with_reducible refine State.modCore_keeps (hE.sub rfl) ?_
    | with_reducible refine State.count64_keeps (hE.sub rfl) ?_
    | with_reducible refine State.countQ_keeps (hE.sub rfl) ?_
    | with_reducible refine Inv.foldl ?_ ?_
    | with_reducible refine Inv.ite ?_ ?_
    | split
    | dsimp only
    | (with_reducible refine Inv.set (fun p => ?_) ?_
       · fail_if_success with_reducible (cases p <;> first
           | exact Or.inl rfl | exact Or.inl ⟨rfl, rfl⟩ | exact Or.inl ⟨rfl, rfl, rfl⟩ | exact Or.inl ⟨rfl, rfl, rfl, rfl⟩ | exact Or.inl ⟨rfl, rfl, rfl, rfl, rfl⟩
           | exact Or.inl ⟨rfl, rfl, rfl, rfl, rfl, rfl⟩ | exact Or.inl ⟨rfl, rfl, rfl, rfl, rfl, rfl, rfl⟩ | exact Or.inl ⟨rfl, rfl, rfl, rfl, rfl, rfl, rfl, rfl, rfl⟩
           | exact Or.inl ⟨rfl, rfl, rfl, rfl, rfl, rfl, rfl, rfl, rfl, rfl, rfl, rfl, rfl, rfl⟩)
         with_reducible (cases p <;> first
           | exact Or.inl rfl | exact Or.inl ⟨rfl, rfl⟩ | exact Or.inl ⟨rfl, rfl, rfl⟩ | exact Or.inl ⟨rfl, rfl, rfl, rfl⟩ | exact Or.inl ⟨rfl, rfl, rfl, rfl, rfl⟩
           | exact Or.inl ⟨rfl, rfl, rfl, rfl, rfl, rfl⟩ | exact Or.inl ⟨rfl, rfl, rfl, rfl, rfl, rfl, rfl⟩ | exact Or.inl ⟨rfl, rfl, rfl, rfl, rfl, rfl, rfl, rfl, rfl⟩
           | exact Or.inl ⟨rfl, rfl, rfl, rfl, rfl, rfl, rfl, rfl, rfl, rfl, rfl, rfl, rfl, rfl⟩
           | exact Or.inr ⟨hE _ (by decide), True.intro⟩ | exact Or.inr ⟨hE _ (by decide), _, rfl⟩))
    | fail

theorem State.needTracked_keeps {I : Inv} {s : State} (hE : I.has [.rate, .tensors, .trim, .regs, .dict, .doors, .irq, .chain, .ledger, .dram, .oasis, .poison, .events, .out, .free]) (h : I.P s) {t : Tile} {p : Prog} {w : Nat}  :
    I.P (State.needTracked s t p w) := by
  unfold State.needTracked
  try dsimp only
  repeat' first
    | with_reducible assumption
    | intro _
    | with_reducible refine State.needSlot_keeps (hE.sub rfl) ?_
    | with_reducible refine Inv.foldl ?_ ?_
    | with_reducible refine Inv.ite ?_ ?_
    | split
    | dsimp only

theorem State.undefineTm_keeps {I : Inv} {s : State} (hE : I.has [.cores]) (h : I.P s) {k : CoreIx} {rs : List (Nat × Nat)}  :
    I.P (State.undefineTm s k rs) := by
  unfold State.undefineTm
  try dsimp only
  repeat' first
    | with_reducible assumption
    | intro _
    | with_reducible refine State.modCore_keeps (hE.sub rfl) ?_
    | dsimp only

theorem State.compute_keeps {I : Inv} {s : State} (hE : I.has [.rate, .tensors, .cores, .cmd, .trim, .regs, .dict, .doors, .irq, .chain, .ledger, .dram, .oasis, .poison, .events, .out, .free]) (h : I.P s) {k : CoreIx} {t : Tile} {p : Prog} {w : Nat} {index : Nat} {v : View} {reads : List (Nat × List (Nat × Nat))} {f : View → Fx}  :
    I.P (State.compute s k t p w index v reads f) := by
  unfold State.compute
  repeat' first
    | with_reducible assumption
    | (extract_lets +onlyGivenNames v
       first
         | (have hv : I.P v := by
              dsimp only [v]
              repeat' first
                | with_reducible assumption
                | intro _
                | with_reducible refine State.tmUncorrectable_keeps (hE.sub rfl) ?_
                | with_reducible refine State.needTracked_keeps (hE.sub rfl) ?_
                | with_reducible refine State.tmCorrected_keeps (hE.sub rfl) ?_
                | with_reducible refine State.undefineTm_keeps (hE.sub rfl) ?_
                | with_reducible refine State.coreStatus_keeps (hE.sub rfl) ?_
                | with_reducible refine State.countFree_keeps (hE.sub rfl) ?_
                | with_reducible refine State.abandon_keeps (hE.sub rfl) ?_
                | with_reducible refine State.count64_keeps (hE.sub rfl) ?_
                | with_reducible refine State.applyFx_keeps (hE.sub rfl) ?_
                | with_reducible refine State.trimDue_keeps (hE.sub rfl) ?_
                | with_reducible refine Inv.ite ?_ ?_
                | split
                | dsimp only
            clear_value v)
         | (try dsimp only [v]
            clear v))
    | intro _
    | with_reducible refine State.tmUncorrectable_keeps (hE.sub rfl) ?_
    | with_reducible refine State.needTracked_keeps (hE.sub rfl) ?_
    | with_reducible refine State.tmCorrected_keeps (hE.sub rfl) ?_
    | with_reducible refine State.undefineTm_keeps (hE.sub rfl) ?_
    | with_reducible refine State.coreStatus_keeps (hE.sub rfl) ?_
    | with_reducible refine State.countFree_keeps (hE.sub rfl) ?_
    | with_reducible refine State.abandon_keeps (hE.sub rfl) ?_
    | with_reducible refine State.count64_keeps (hE.sub rfl) ?_
    | with_reducible refine State.applyFx_keeps (hE.sub rfl) ?_
    | with_reducible refine State.trimDue_keeps (hE.sub rfl) ?_
    | with_reducible refine Inv.ite ?_ ?_
    | split
    | dsimp only

theorem State.runFx_keeps {I : Inv} {s : State} (hE : I.has [.rate, .tensors, .cores, .cmd, .trim, .regs, .dict, .doors, .irq, .chain, .ledger, .dram, .oasis, .poison, .events, .out, .free]) (h : I.P s) {k : CoreIx} {t : Tile} {p : Prog} {w : Nat} {f : View → Fx}  :
    I.P (State.runFx s k t p w f) := by
  unfold State.runFx
  try dsimp only
  repeat' first
    | with_reducible assumption
    | intro _
    | with_reducible refine State.compute_keeps (hE.sub rfl) ?_
    | with_reducible refine State.launch_keeps (hE.sub rfl) ?_
    | with_reducible refine Inv.ite ?_ ?_
    | split
    | dsimp only

end Sys2Proof.Machine
end

