-- ==== Sys2Proof/Laws/KeepsContext.lean ====
section
/-! SUPPORT. The operations of Machine/Context.lean keep every predicate that lets their parts change. -/

set_option linter.unreachableTactic false
set_option linter.unusedTactic false

namespace Sys2Proof.Machine

theorem State.ctxClear_keeps {I : Inv} {s : State} (hE : I.has [.ctx]) (h : I.P s) {mask : BitVec 8}  :
    I.P (State.ctxClear s mask) := by
  unfold State.ctxClear
  try dsimp only
  repeat' first
    | with_reducible assumption
    | intro _
    | with_reducible refine State.modCtx_keeps (hE.sub rfl) ?_
    | dsimp only

theorem State.periodEffect_keeps {I : Inv} {s : State} (hE : I.has [.ctx, .regs, .dict, .irq, .events, .out]) (h : I.P s) {key : Nat} {v : Nat} {lsn : Nat}  :
    I.P (State.periodEffect s key v lsn) := by
  unfold State.periodEffect
  try dsimp only
  repeat' first
    | with_reducible assumption
    | intro _
    | with_reducible refine State.raiseStatus_keeps (hE.sub rfl) ?_
    | with_reducible refine State.ctxClear_keeps (hE.sub rfl) ?_
    | with_reducible refine State.setOd_keeps (hE.sub rfl) ?_
    | with_reducible refine Inv.ite ?_ ?_
    | split
    | dsimp only

theorem State.phaseRecord_keeps {I : Inv} {s : State} (hE : I.has [.ctx, .dict]) (h : I.P s) {thr : Int} {lsn : Nat}  :
    I.P (State.phaseRecord s thr lsn) := by
  unfold State.phaseRecord
  try dsimp only
  repeat' first
    | with_reducible assumption
    | intro _
    | with_reducible refine State.modCtx_keeps (hE.sub rfl) ?_
    | with_reducible refine State.setOd_keeps (hE.sub rfl) ?_
    | with_reducible refine Inv.foldl ?_ ?_
    | with_reducible refine Inv.ite ?_ ?_
    | split
    | dsimp only

theorem State.entryEcc_keeps {I : Inv} {s : State} (hE : I.has [.rate, .ctx, .trim, .regs, .dict, .irq, .poison, .events, .out]) (h : I.P s) {g : Int} {a : Nat}  :
    I.P (State.entryEcc s g a) := by
  unfold State.entryEcc
  try dsimp only
  repeat' first
    | with_reducible assumption
    | intro _
    | with_reducible refine State.ctxGroupEvent_keeps (hE.sub rfl) ?_
    | with_reducible refine State.dramSeen_keeps (hE.sub rfl) ?_
    | with_reducible refine State.count32_keeps (hE.sub rfl) ?_
    | with_reducible refine Inv.ite ?_ ?_
    | split
    | dsimp only

theorem State.countSkipped_keeps {I : Inv} {s : State} (hE : I.has [.ctx, .regs, .dict, .irq, .events, .out]) (h : I.P s) {g : Int} {n : Nat}  :
    I.P (State.countSkipped s g n) := by
  unfold State.countSkipped
  try dsimp only
  repeat' first
    | with_reducible assumption
    | intro _
    | with_reducible refine State.ctxGroupEvent_keeps (hE.sub rfl) ?_
    | with_reducible refine State.countOd_keeps (hE.sub rfl) ?_
    | with_reducible refine Inv.ite ?_ ?_
    | split
    | dsimp only

theorem State.headCtx_keeps {I : Inv} {s : State} (hE : I.has []) (h : I.P s) {k : CoreIx} {op : Nat} {f : State → Tile → Prog → CtxOp → State} (hf : ∀ (u : State) (a1 : Tile) (a2 : Prog) (a3 : CtxOp), I.P u → I.P (f u a1 a2 a3)) :
    I.P (State.headCtx s k op f) := by
  unfold State.headCtx
  try dsimp only
  repeat' first
    | with_reducible assumption
    | intro _
    | refine hf _ _ _ _ ?_
    | with_reducible refine Inv.ite ?_ ?_
    | split
    | dsimp only

theorem State.issueCtx_keeps {I : Inv} {s : State} (hE : I.has [.cores]) (h : I.P s) {k : CoreIx} {op : Nat} {f : State → Tile → Prog → CtxOp → State} (hf : ∀ (u : State) (a1 : Tile) (a2 : Prog) (a3 : CtxOp), I.P u → I.P (f u a1 a2 a3)) :
    I.P (State.issueCtx s k op f) := by
  unfold State.issueCtx
  try dsimp only
  repeat' first
    | with_reducible assumption
    | intro _
    | refine hf _ _ _ _ ?_
    | with_reducible refine State.modTile_keeps (hE.sub rfl) ?_
    | with_reducible refine State.headCtx_keeps (hE.sub rfl) ?_ ?_
    | with_reducible refine State.launch_keeps (hE.sub rfl) ?_
    | with_reducible refine State.issue_keeps (hE.sub rfl) ?_ ?_
    | with_reducible refine Inv.ite ?_ ?_
    | split
    | dsimp only
    | (with_reducible refine Inv.set (fun p => ?_) ?_
       · fail_if_success with_reducible (cases p <;> first
           | exact Or.inl rfl | exact Or.inl ⟨rfl, rfl⟩ | exact Or.inl ⟨rfl, rfl, rfl⟩ | exact Or.inl ⟨rfl, rfl, rfl, rfl⟩ | exact Or.inl ⟨rfl, rfl, rfl, rfl, rfl⟩
           | exact Or.inl ⟨rfl, rfl, rfl, rfl, rfl, rfl⟩ | exact Or.inl ⟨rfl, rfl, rfl, rfl, rfl, rfl, rfl⟩ | exact Or.inl ⟨rfl, rfl, rfl, rfl, rfl, rfl, rfl, rfl, rfl⟩
           | exact Or.inl ⟨rfl, rfl, rfl, rfl, rfl, rfl, rfl, rfl, rfl, rfl, rfl, rfl, rfl, rfl⟩)
         with_reducible (cases p <;> first
           | exact Or.inl rfl | exact Or.inl ⟨rfl, rfl⟩ | exact Or.inl ⟨rfl, rfl, rfl⟩ | exact Or.inl ⟨rfl, rfl, rfl, rfl⟩ | exact Or.inl ⟨rfl, rfl, rfl, rfl, rfl⟩
           | exact Or.inl ⟨rfl, rfl, rfl, rfl, rfl, rfl⟩ | exact Or.inl ⟨rfl, rfl, rfl, rfl, rfl, rfl, rfl⟩ | exact Or.inl ⟨rfl, rfl, rfl, rfl, rfl, rfl, rfl, rfl, rfl⟩
           | exact Or.inl ⟨rfl, rfl, rfl, rfl, rfl, rfl, rfl, rfl, rfl, rfl, rfl, rfl, rfl, rfl⟩
           | exact Or.inr ⟨hE _ (by decide), True.intro⟩ | exact Or.inr ⟨hE _ (by decide), _, rfl⟩))
    | fail

theorem State.ctxDone_keeps {I : Inv} {s : State} (hE : I.has [.cores, .regs, .free]) (h : I.P s) {k : CoreIx} {o : CtxOp}  :
    I.P (State.ctxDone s k o) := by
  unfold State.ctxDone
  try dsimp only
  repeat' first
    | with_reducible assumption
    | intro _
    | with_reducible refine State.takeFree_snd (hE.sub rfl) ?_
    | with_reducible refine State.takeFree_keeps (hE.sub rfl) ?_ (by with_reducible assumption)
    | with_reducible refine State.modTile_keeps (hE.sub rfl) ?_
    | with_reducible refine State.peak_keeps (hE.sub rfl) ?_
    | with_reducible refine Inv.ite ?_ ?_
    | split
    | dsimp only
    | (with_reducible refine Inv.set (fun p => ?_) ?_
       · fail_if_success with_reducible (cases p <;> first
           | exact Or.inl rfl | exact Or.inl ⟨rfl, rfl⟩ | exact Or.inl ⟨rfl, rfl, rfl⟩ | exact Or.inl ⟨rfl, rfl, rfl, rfl⟩ | exact Or.inl ⟨rfl, rfl, rfl, rfl, rfl⟩
           | exact Or.inl ⟨rfl, rfl, rfl, rfl, rfl, rfl⟩ | exact Or.inl ⟨rfl, rfl, rfl, rfl, rfl, rfl, rfl⟩ | exact Or.inl ⟨rfl, rfl, rfl, rfl, rfl, rfl, rfl, rfl, rfl⟩
           | exact Or.inl ⟨rfl, rfl, rfl, rfl, rfl, rfl, rfl, rfl, rfl, rfl, rfl, rfl, rfl, rfl⟩)
         with_reducible (cases p <;> first
           | exact Or.inl rfl | exact Or.inl ⟨rfl, rfl⟩ | exact Or.inl ⟨rfl, rfl, rfl⟩ | exact Or.inl ⟨rfl, rfl, rfl, rfl⟩ | exact Or.inl ⟨rfl, rfl, rfl, rfl, rfl⟩
           | exact Or.inl ⟨rfl, rfl, rfl, rfl, rfl, rfl⟩ | exact Or.inl ⟨rfl, rfl, rfl, rfl, rfl, rfl, rfl⟩ | exact Or.inl ⟨rfl, rfl, rfl, rfl, rfl, rfl, rfl, rfl, rfl⟩
           | exact Or.inl ⟨rfl, rfl, rfl, rfl, rfl, rfl, rfl, rfl, rfl, rfl, rfl, rfl, rfl, rfl⟩
           | exact Or.inr ⟨hE _ (by decide), True.intro⟩ | exact Or.inr ⟨hE _ (by decide), _, rfl⟩))
    | fail

theorem State.ctxRun_keeps {I : Inv} {s : State} (hE : I.has [.rate, .tensors, .cores, .cmd, .trim, .regs, .dict, .doors, .irq, .chain, .ledger, .dram, .oasis, .poison, .events, .out, .free]) (h : I.P s) {k : CoreIx} {t : Tile} {p : Prog} {o : CtxOp} {f : View → Fx}  :
    I.P (State.ctxRun s k t p o f) := by
  unfold State.ctxRun
  try dsimp only
  repeat' first
    | with_reducible assumption
    | intro _
    | with_reducible refine State.compute_keeps (hE.sub rfl) ?_
    | with_reducible refine State.ctxDone_keeps (hE.sub rfl) ?_
    | with_reducible refine Inv.ite ?_ ?_
    | split
    | dsimp only

theorem execLookup_ok {I : Inv} {s : State} (hE : I.has [.rate, .tensors, .cores, .cmd, .ctx, .trim, .regs, .dict, .doors, .irq, .chain, .ledger, .dram, .oasis, .poison, .events, .out, .free]) (h : I.P s) {core : CoreIx}  :
    I.ok (execLookup core s) := by
  unfold execLookup
  try dsimp only
  repeat' first
    | with_reducible assumption
    | with_reducible refine Inv.ok_act ?_ ?_
    | with_reducible refine Inv.ok_next ?_
    | with_reducible exact Inv.ok_refused _
    | with_reducible refine Inv.ok_ite ?_ ?_
    | with_reducible refine State.countSkipped_keeps (hE.sub rfl) ?_
    | with_reducible refine State.issueCtx_keeps (hE.sub rfl) ?_ ?_
    | with_reducible refine State.entryEcc_keeps (hE.sub rfl) ?_
    | with_reducible refine State.countOd_keeps (hE.sub rfl) ?_
    | with_reducible refine State.count32_keeps (hE.sub rfl) ?_
    | with_reducible refine State.ctxRun_keeps (hE.sub rfl) ?_
    | with_reducible refine Inv.foldl ?_ ?_
    | with_reducible refine Inv.ite ?_ ?_
    | split
    | intro _
    | dsimp only

theorem State.stageEffects_keeps {I : Inv} {s : State} (hE : I.has [.cores, .dram]) (h : I.P s) {k : CoreIx} {old : Staged → Bool} {new : List Staged}  :
    I.P (State.stageEffects s k old new) := by
  unfold State.stageEffects
  try dsimp only
  repeat' first
    | with_reducible assumption
    | intro _
    | with_reducible refine State.stageArea_keeps (hE.sub rfl) ?_
    | with_reducible refine State.modTile_keeps (hE.sub rfl) ?_
    | with_reducible refine Inv.ite ?_ ?_
    | split
    | dsimp only

theorem execUpdate_ok {I : Inv} {s : State} (hE : I.has [.rate, .tensors, .cores, .cmd, .ctx, .trim, .regs, .dict, .doors, .irq, .chain, .ledger, .dram, .oasis, .poison, .events, .out, .free]) (h : I.P s) {core : CoreIx}  :
    I.ok (execUpdate core s) := by
  unfold execUpdate
  try dsimp only
  repeat' first
    | with_reducible assumption
    | with_reducible refine Inv.ok_act ?_ ?_
    | with_reducible refine Inv.ok_next ?_
    | with_reducible exact Inv.ok_refused _
    | with_reducible refine Inv.ok_ite ?_ ?_
    | with_reducible refine State.ctxGroupEvent_keeps (hE.sub rfl) ?_
    | with_reducible refine State.stageEffects_keeps (hE.sub rfl) ?_
    | with_reducible refine State.countSkipped_keeps (hE.sub rfl) ?_
    | with_reducible refine State.issueCtx_keeps (hE.sub rfl) ?_ ?_
    | with_reducible refine State.count32_keeps (hE.sub rfl) ?_
    | with_reducible refine State.ctxRun_keeps (hE.sub rfl) ?_
    | with_reducible refine State.peak_keeps (hE.sub rfl) ?_
    | with_reducible refine Inv.ite ?_ ?_
    | split
    | intro _
    | dsimp only

theorem execStateStore_ok {I : Inv} {s : State} (hE : I.has [.rate, .tensors, .cores, .cmd, .trim, .regs, .dict, .doors, .irq, .chain, .ledger, .dram, .oasis, .poison, .events, .out, .free]) (h : I.P s) {core : CoreIx}  :
    I.ok (execStateStore core s) := by
  unfold execStateStore
  try dsimp only
  repeat' first
    | with_reducible assumption
    | with_reducible refine Inv.ok_act ?_ ?_
    | with_reducible refine Inv.ok_next ?_
    | with_reducible exact Inv.ok_refused _
    | with_reducible refine Inv.ok_ite ?_ ?_
    | with_reducible refine State.stageEffects_keeps (hE.sub rfl) ?_
    | with_reducible refine State.issueCtx_keeps (hE.sub rfl) ?_ ?_
    | with_reducible refine State.ctxRun_keeps (hE.sub rfl) ?_
    | with_reducible refine Inv.ite ?_ ?_
    | split
    | intro _
    | dsimp only

theorem execTokenPut_ok {I : Inv} {s : State} (hE : I.has [.rate, .tensors, .cores, .cmd, .trim, .regs, .dict, .doors, .irq, .chain, .ledger, .dram, .oasis, .poison, .events, .out, .free]) (h : I.P s) {core : CoreIx}  :
    I.ok (execTokenPut core s) := by
  unfold execTokenPut
  try dsimp only
  repeat' first
    | with_reducible assumption
    | with_reducible refine Inv.ok_act ?_ ?_
    | with_reducible refine Inv.ok_next ?_
    | with_reducible exact Inv.ok_refused _
    | with_reducible refine Inv.ok_ite ?_ ?_
    | with_reducible refine State.stageEffects_keeps (hE.sub rfl) ?_
    | with_reducible refine State.issueCtx_keeps (hE.sub rfl) ?_ ?_
    | with_reducible refine State.ctxRun_keeps (hE.sub rfl) ?_
    | with_reducible refine Inv.ite ?_ ?_
    | split
    | intro _
    | dsimp only

theorem State.stateSeen_keeps {I : Inv} {s : State} (hE : I.has [.rate, .trim, .regs, .dict, .irq, .poison, .events, .out]) (h : I.P s) {t : Tile} {age : Nat}  :
    I.P (State.stateSeen s t age) := by
  unfold State.stateSeen
  try dsimp only
  repeat' first
    | with_reducible assumption
    | intro _
    | with_reducible refine State.dramSeen_keeps (hE.sub rfl) ?_
    | with_reducible refine Inv.ite ?_ ?_
    | split
    | dsimp only

theorem State.stateLand_keeps {I : Inv} {s : State} (hE : I.has [.rate, .tensors, .cores, .cmd, .trim, .regs, .dict, .doors, .irq, .chain, .ledger, .dram, .oasis, .poison, .events, .out, .free]) (h : I.P s) {k : CoreIx} {t : Tile} {p : Prog} {o : CtxOp} {r : List Byte × Nat}  :
    I.P (State.stateLand s k t p o r) := by
  unfold State.stateLand
  try dsimp only
  repeat' first
    | with_reducible assumption
    | intro _
    | with_reducible refine State.stateSeen_keeps (hE.sub rfl) ?_
    | with_reducible refine State.ctxRun_keeps (hE.sub rfl) ?_
    | dsimp only

theorem State.stateLate_keeps {I : Inv} {s : State} (hE : I.has [.ctx, .regs, .dict, .irq, .events, .out]) (h : I.P s) {t : Tile} {age : Nat}  :
    I.P (State.stateLate s t age) := by
  unfold State.stateLate
  try dsimp only
  repeat' first
    | with_reducible assumption
    | intro _
    | with_reducible refine State.ctxGroupEvent_keeps (hE.sub rfl) ?_
    | with_reducible refine State.countOd_keeps (hE.sub rfl) ?_
    | with_reducible refine Inv.ite ?_ ?_
    | split
    | dsimp only

theorem State.stateTry_keeps {I : Inv} {s : State} (hE : I.has [.rate, .tensors, .cores, .cmd, .ctx, .trim, .regs, .dict, .doors, .irq, .chain, .ledger, .dram, .oasis, .poison, .events, .out, .free]) (h : I.P s) {k : CoreIx} {t : Tile} {p : Prog} {o : CtxOp}  :
    I.P (State.stateTry s k t p o) := by
  unfold State.stateTry
  try dsimp only
  repeat' first
    | with_reducible assumption
    | intro _
    | with_reducible refine State.stateLate_keeps (hE.sub rfl) ?_
    | with_reducible refine State.stateLand_keeps (hE.sub rfl) ?_
    | with_reducible refine Inv.ite ?_ ?_
    | split
    | dsimp only

theorem execStateLoad_ok {I : Inv} {s : State} (hE : I.has [.rate, .tensors, .cores, .cmd, .ctx, .trim, .regs, .dict, .doors, .irq, .chain, .ledger, .dram, .oasis, .poison, .events, .out, .free]) (h : I.P s) {core : CoreIx}  :
    I.ok (execStateLoad core s) := by
  unfold execStateLoad
  try dsimp only
  repeat' first
    | with_reducible assumption
    | with_reducible refine Inv.ok_act ?_ ?_
    | with_reducible refine Inv.ok_next ?_
    | with_reducible exact Inv.ok_refused _
    | with_reducible refine Inv.ok_ite ?_ ?_
    | with_reducible refine State.stateTry_keeps (hE.sub rfl) ?_
    | with_reducible refine State.issueCtx_keeps (hE.sub rfl) ?_ ?_
    | intro _
    | dsimp only

theorem execStateDeadline_ok {I : Inv} {s : State} (hE : I.has [.rate, .tensors, .cores, .cmd, .ctx, .trim, .regs, .dict, .doors, .irq, .chain, .ledger, .dram, .oasis, .poison, .events, .out, .free]) (h : I.P s) {core : CoreIx}  :
    I.ok (execStateDeadline core s) := by
  unfold execStateDeadline
  try dsimp only
  repeat' first
    | with_reducible assumption
    | with_reducible refine Inv.ok_act ?_ ?_
    | with_reducible refine Inv.ok_next ?_
    | with_reducible exact Inv.ok_refused _
    | with_reducible refine Inv.ok_ite ?_ ?_
    | with_reducible refine State.stateTry_keeps (hE.sub rfl) ?_
    | with_reducible refine State.headCtx_keeps (hE.sub rfl) ?_ ?_
    | with_reducible refine Inv.ite ?_ ?_
    | split
    | intro _
    | dsimp only

theorem execTokenDeadline_ok {I : Inv} {s : State} (hE : I.has [.ctx, .regs, .dict, .irq, .dram, .poison, .events, .out]) (h : I.P s) {lgn : Int}  :
    I.ok (execTokenDeadline lgn s) := by
  unfold execTokenDeadline
  try dsimp only
  repeat' first
    | with_reducible assumption
    | with_reducible refine Inv.ok_act ?_ ?_
    | with_reducible refine Inv.ok_next ?_
    | with_reducible exact Inv.ok_refused _
    | with_reducible refine Inv.ok_ite ?_ ?_
    | with_reducible refine State.ctxGroupEvent_keeps (hE.sub rfl) ?_
    | with_reducible refine State.writeDram_keeps (hE.sub rfl) ?_
    | with_reducible refine State.countOd_keeps (hE.sub rfl) ?_
    | with_reducible refine State.modTok_keeps (hE.sub rfl) ?_
    | with_reducible refine Inv.foldl ?_ ?_
    | with_reducible refine Inv.ite ?_ ?_
    | split
    | intro _
    | dsimp only

theorem execTokenSend_ok {I : Inv} {s : State} (hE : I.has [.rate, .ctx, .links, .trim, .regs, .dict, .irq, .poison, .events, .out]) (h : I.P s) {lgn : Int}  :
    I.ok (execTokenSend lgn s) := by
  unfold execTokenSend
  try dsimp only
  repeat' first
    | with_reducible assumption
    | with_reducible refine Inv.ok_act ?_ ?_
    | with_reducible refine Inv.ok_next ?_
    | with_reducible exact Inv.ok_refused _
    | with_reducible refine Inv.ok_ite ?_ ?_
    | with_reducible refine State.queueBoth_keeps (hE.sub rfl) ?_
    | with_reducible refine State.dramSeen_keeps (hE.sub rfl) ?_
    | with_reducible refine State.modTok_keeps (hE.sub rfl) ?_
    | with_reducible refine Inv.foldl ?_ ?_
    | with_reducible refine Inv.ite ?_ ?_
    | split
    | intro _
    | dsimp only

theorem execTokenGet_ok {I : Inv} {s : State} (hE : I.has [.rate, .tensors, .cores, .cmd, .trim, .regs, .dict, .doors, .irq, .chain, .ledger, .dram, .oasis, .poison, .events, .out, .free]) (h : I.P s) {core : CoreIx}  :
    I.ok (execTokenGet core s) := by
  unfold execTokenGet
  try dsimp only
  repeat' first
    | with_reducible assumption
    | with_reducible refine Inv.ok_act ?_ ?_
    | with_reducible refine Inv.ok_next ?_
    | with_reducible exact Inv.ok_refused _
    | with_reducible refine Inv.ok_ite ?_ ?_
    | with_reducible refine State.issueCtx_keeps (hE.sub rfl) ?_ ?_
    | with_reducible refine State.dramSeen_keeps (hE.sub rfl) ?_
    | with_reducible refine State.ctxRun_keeps (hE.sub rfl) ?_
    | with_reducible refine Inv.foldl ?_ ?_
    | with_reducible refine Inv.ite ?_ ?_
    | split
    | intro _
    | dsimp only

theorem State.applyUpdate_keeps {I : Inv} {s : State} (hE : I.has [.rate, .ctx, .trim, .regs, .dict, .irq, .dram, .poison, .events, .out]) (h : I.P s) {g : Int} {u : StagedUpdate}  :
    I.P (State.applyUpdate s g u) := by
  unfold State.applyUpdate
  try dsimp only
  repeat' first
    | with_reducible assumption
    | intro _
    | with_reducible refine State.ctxGroupEvent_keeps (hE.sub rfl) ?_
    | with_reducible refine State.countSkipped_keeps (hE.sub rfl) ?_
    | with_reducible refine State.writeDram_keeps (hE.sub rfl) ?_
    | with_reducible refine State.entryEcc_keeps (hE.sub rfl) ?_
    | with_reducible refine State.countOd_keeps (hE.sub rfl) ?_
    | with_reducible refine Inv.ite ?_ ?_
    | split
    | dsimp only

theorem State.applyStaged_keeps {I : Inv} {s : State} (hE : I.has [.rate, .ctx, .trim, .regs, .dict, .irq, .dram, .poison, .events, .out]) (h : I.P s) {b : CtxBatch} {l : Staged} :
    I.P (State.applyStaged s b l) := by
  cases l <;> simp only [State.applyStaged]
  all_goals repeat' first
    | with_reducible assumption
    | intro _
    | with_reducible refine State.applyUpdate_keeps (hE.sub rfl) ?_
    | with_reducible refine State.writeDram_keeps (hE.sub rfl) ?_
    | with_reducible refine State.tokWrite_keeps (hE.sub rfl) ?_
    | with_reducible refine State.modCtx_keeps (hE.sub rfl) ?_
    | with_reducible refine Inv.ite ?_ ?_
    | split
    | dsimp only

theorem execCtxEffectsApply_ok {I : Inv} {s : State} (hE : I.has [.rate, .ctx, .trim, .regs, .dict, .irq, .dram, .poison, .events, .out]) (h : I.P s)   :
    I.ok (execCtxEffectsApply s) := by
  unfold execCtxEffectsApply
  try dsimp only
  repeat' first
    | with_reducible assumption
    | with_reducible refine Inv.ok_act ?_ ?_
    | with_reducible refine Inv.ok_next ?_
    | with_reducible exact Inv.ok_refused _
    | with_reducible refine Inv.ok_ite ?_ ?_
    | with_reducible refine State.applyStaged_keeps (hE.sub rfl) ?_
    | with_reducible refine State.modCtx_keeps (hE.sub rfl) ?_
    | with_reducible refine Inv.foldl ?_ ?_
    | with_reducible refine Inv.ite ?_ ?_
    | split
    | intro _
    | dsimp only

theorem execCtxClearWrite_ok {I : Inv} {s : State} (hE : I.has [.ctx, .regs, .dict, .irq, .chain, .ledger, .events, .out]) (h : I.P s) {value : W32}  :
    I.ok (execCtxClearWrite value s) := by
  unfold execCtxClearWrite
  try dsimp only
  repeat' first
    | with_reducible assumption
    | with_reducible refine Inv.ok_act ?_ ?_
    | with_reducible refine Inv.ok_next ?_
    | with_reducible exact Inv.ok_refused _
    | with_reducible refine Inv.ok_ite ?_ ?_
    | with_reducible refine State.ledgerAppend_keeps (hE.sub rfl) ?_
    | with_reducible refine State.ctxClear_keeps (hE.sub rfl) ?_
    | with_reducible refine Inv.ite ?_ ?_
    | split
    | intro _
    | dsimp only

/-- The bytes that a clear leaves in a period register's area, in rising order. -/
theorem clearFlags_rise (lo n : Nat) : keysRise ((List.range n).map fun i => ((lo + 64 * i + 58, 0) : Nat × Byte)) = true := by
  have h : ∀ (k a : Nat), keysRise ((List.range' a k).map fun i => ((lo + 64 * i + 58, 0) : Nat × Byte)) = true := by
    intro k
    induction k with
    | zero => intro a; rfl
    | succ k ih =>
      intro a
      rw [List.range'_succ, List.map_cons]
      refine (keysRise_cons _ _).mpr ⟨?_, ih (a + 1)⟩
      intro c hc
      obtain ⟨i, hi, rfl⟩ := List.mem_map.mp hc
      have := List.mem_range'_1.mp hi
      show lo + 64 * a + 58 < lo + 64 * i + 58
      omega
  rw [List.range_eq_range']
  exact h n 0

theorem State.clearEntries_keeps {I : Inv} {s : State} (hE : I.has [.dram, .poison]) (h : I.P s) {p : Nat} : I.P (s.clearEntries p) := by
  unfold State.clearEntries
  dsimp only
  refine Inv.poison (hE.sub rfl) (I.dramFill (hE _ (by simp)) s (s.od Od.ctxCtxBase + p * 2 ^ 27) (s.od Od.ctxCtxBase + p * 2 ^ 27 + 2 ^ 27) _
    (Nat.le_add_right _ _) (clearFlags_rise _ _) ?_ h) _ _ _ _
  intro c hc
  obtain ⟨i, hi, rfl⟩ := List.mem_map.mp hc
  have := List.mem_range.mp hi
  constructor
  · show _ ≤ _ + 64 * i + 58
    omega
  · show _ + 64 * i + 58 < _
    omega

theorem execCtxClearDone_ok {I : Inv} {s : State} (hE : I.has [.ctx, .regs, .irq, .dram, .poison, .events, .out]) (h : I.P s)   :
    I.ok (execCtxClearDone s) := by
  unfold execCtxClearDone
  try dsimp only
  repeat' first
    | with_reducible assumption
    | with_reducible refine Inv.ok_act ?_ ?_
    | with_reducible refine Inv.ok_next ?_
    | with_reducible exact Inv.ok_refused _
    | with_reducible refine Inv.ok_ite ?_ ?_
    | with_reducible refine State.clearEntries_keeps (hE.sub rfl) ?_
    | with_reducible refine State.raiseStatus_keeps (hE.sub rfl) ?_
    | with_reducible refine State.modCtx_keeps (hE.sub rfl) ?_
    | with_reducible refine Inv.foldl ?_ ?_
    | with_reducible refine Inv.ite ?_ ?_
    | split
    | intro _
    | dsimp only

end Sys2Proof.Machine
end

