-- ==== Sys2Proof/Laws/KeepsCores.lean ====
section
/-! SUPPORT. The operations of Machine/Cores.lean keep every predicate that lets their parts change. -/

set_option linter.unreachableTactic false
set_option linter.unusedTactic false

namespace Sys2Proof.Machine

theorem State.refuseProgram_keeps {I : Inv} {s : State} (hE : I.has [.fsPorts, .slices, .cores, .cmd, .det, .regs, .dict, .irq, .hostMem, .dram, .oasis, .events, .out, .free]) (h : I.P s) {k : CoreIx} {tag : Nat} {r : Refused}  :
    I.P (State.refuseProgram s k tag r) := by
  unfold State.refuseProgram
  try dsimp only
  repeat' first
    | with_reducible assumption
    | intro _
    | with_reducible refine State.cancelJob_keeps (hE.sub rfl) ?_
    | with_reducible refine State.mapCmds_keeps (hE.sub rfl) ?_
    | with_reducible refine State.event_keeps (hE.sub rfl) ?_
    | with_reducible refine Inv.ite ?_ ?_
    | split
    | dsimp only

theorem State.loadProgram_keeps {I : Inv} {s : State} (hE : I.has [.rate, .fsPorts, .slices, .cores, .cmd, .det, .regs, .dict, .irq, .hostMem, .dram, .oasis, .events, .out, .free]) (h : I.P s) {k : CoreIx} {tag : Nat} {addr : Nat}  :
    I.P (State.loadProgram s k tag addr) := by
  unfold State.loadProgram
  try dsimp only
  repeat' first
    | with_reducible assumption
    | intro _
    | with_reducible refine State.refuseProgram_keeps (hE.sub rfl) ?_
    | with_reducible refine State.oasisSeen_keeps (hE.sub rfl) ?_
    | with_reducible refine State.modCore_keeps (hE.sub rfl) ?_
    | with_reducible refine Inv.ite ?_ ?_
    | split
    | dsimp only

theorem execCoreDispatch_ok {I : Inv} {s : State} (hE : I.has [.rate, .fsPorts, .slices, .cores, .cmd, .det, .regs, .dict, .irq, .hostMem, .dram, .oasis, .events, .out, .free]) (h : I.P s) {core : CoreIx}  :
    I.ok (execCoreDispatch core s) := by
  unfold execCoreDispatch
  try dsimp only
  repeat' first
    | with_reducible assumption
    | with_reducible refine Inv.ok_act ?_ ?_
    | with_reducible refine Inv.ok_next ?_
    | with_reducible exact Inv.ok_refused _
    | with_reducible refine Inv.ok_ite ?_ ?_
    | with_reducible refine State.loadProgram_keeps (hE.sub rfl) ?_
    | with_reducible refine Inv.ite ?_ ?_
    | split
    | intro _
    | dsimp only

theorem State.drawTile_keeps {I : Inv} {s : State} (hE : I.has [.cores, .cmd, .regs, .dict, .irq, .events, .out]) (h : I.P s) {k : CoreIx} {tag : Nat} {j : Job} {p : Prog}  :
    I.P (State.drawTile s k tag j p) := by
  unfold State.drawTile
  repeat' first
    | with_reducible assumption
    | (extract_lets +onlyGivenNames v
       first
         | (have hv : I.P v := by
              dsimp only [v]
              repeat' first
                | with_reducible assumption
                | intro _
                | with_reducible refine State.coreIdle_keeps (hE.sub rfl) ?_
                | with_reducible refine State.countOd_keeps (hE.sub rfl) ?_
                | with_reducible refine State.modCore_keeps (hE.sub rfl) ?_
                | with_reducible refine State.modJob_keeps (hE.sub rfl) ?_
                | with_reducible refine State.modCmd_keeps (hE.sub rfl) ?_
                | with_reducible refine Inv.ite ?_ ?_
                | split
                | dsimp only
            clear_value v)
         | (try dsimp only [v]
            clear v))
    | intro _
    | with_reducible refine State.coreIdle_keeps (hE.sub rfl) ?_
    | with_reducible refine State.countOd_keeps (hE.sub rfl) ?_
    | with_reducible refine State.modCore_keeps (hE.sub rfl) ?_
    | with_reducible refine State.modJob_keeps (hE.sub rfl) ?_
    | with_reducible refine State.modCmd_keeps (hE.sub rfl) ?_
    | with_reducible refine Inv.ite ?_ ?_
    | split
    | dsimp only

theorem execTdraw_ok {I : Inv} {s : State} (hE : I.has [.cores, .cmd, .regs, .dict, .irq, .events, .out]) (h : I.P s) {core : CoreIx}  :
    I.ok (execTdraw core s) := by
  unfold execTdraw
  try dsimp only
  repeat' first
    | with_reducible assumption
    | with_reducible refine Inv.ok_act ?_ ?_
    | with_reducible refine Inv.ok_next ?_
    | with_reducible exact Inv.ok_refused _
    | with_reducible refine Inv.ok_ite ?_ ?_
    | with_reducible refine State.coreIdle_keeps (hE.sub rfl) ?_
    | with_reducible refine State.drawTile_keeps (hE.sub rfl) ?_
    | with_reducible refine State.fixFirst_keeps (hE.sub rfl) ?_
    | with_reducible refine Inv.ite ?_ ?_
    | split
    | intro _
    | dsimp only

theorem execTnop_ok {I : Inv} {s : State} (hE : I.has [.cores]) (h : I.P s) {core : CoreIx}  :
    I.ok (execTnop core s) := by
  unfold execTnop
  try dsimp only
  repeat' first
    | with_reducible assumption
    | with_reducible refine Inv.ok_act ?_ ?_
    | with_reducible refine Inv.ok_next ?_
    | with_reducible exact Inv.ok_refused _
    | with_reducible refine Inv.ok_ite ?_ ?_
    | with_reducible refine State.advance_keeps (hE.sub rfl) ?_
    | with_reducible refine State.modCore_keeps (hE.sub rfl) ?_
    | with_reducible refine State.issue_keeps (hE.sub rfl) ?_ ?_
    | with_reducible refine Inv.ite ?_ ?_
    | split
    | intro _
    | dsimp only

theorem execTwait_ok {I : Inv} {s : State} (hE : I.has [.cores, .cmd, .regs, .dict, .irq, .events, .out]) (h : I.P s) {core : CoreIx}  :
    I.ok (execTwait core s) := by
  unfold execTwait
  try dsimp only
  repeat' first
    | with_reducible assumption
    | with_reducible refine Inv.ok_act ?_ ?_
    | with_reducible refine Inv.ok_next ?_
    | with_reducible exact Inv.ok_refused _
    | with_reducible refine Inv.ok_ite ?_ ?_
    | with_reducible refine State.advance_keeps (hE.sub rfl) ?_
    | with_reducible refine State.modTile_keeps (hE.sub rfl) ?_
    | with_reducible refine State.abandon_keeps (hE.sub rfl) ?_
    | with_reducible refine State.issue_keeps (hE.sub rfl) ?_ ?_
    | with_reducible refine Inv.ite ?_ ?_
    | split
    | intro _
    | dsimp only
    | (with_reducible refine Inv.set (fun p => ?_) ?_
       · fail_if_success with_reducible (cases p <;> first
           | exact Or.inl rfl | exact Or.inl ⟨rfl, rfl⟩ | exact Or.inl ⟨rfl, rfl, rfl⟩ | exact Or.inl ⟨rfl, rfl, rfl, rfl⟩ | exact Or.inl ⟨rfl, rfl, rfl, rfl, rfl⟩
           | exact Or.inl ⟨rfl, rfl, rfl, rfl, rfl, rfl⟩ | exact Or.inl ⟨rfl, rfl, rfl, rfl, rfl, rfl, rfl⟩ | exact Or.inl ⟨rfl, rfl, rfl, rfl, rfl, rfl, rfl, rfl, rfl⟩
           | exact Or.inl ⟨rfl, rfl, rfl, rfl, rfl, rfl, rfl, rfl, rfl, rfl, rfl, rfl, rfl, rfl⟩)
         with_reducible (cases p <;> first
           | exact Or.inl rfl | exact Or.inl ⟨rfl, rfl⟩ | exact Or.inl ⟨rfl, rfl, rfl⟩ | exact Or.inl ⟨rfl, rfl, rfl, rfl⟩ | exact Or.inl ⟨rfl, rfl, rfl, rfl, rfl⟩
           | exact Or.inl ⟨rfl, rfl, rfl, rfl, rfl, rfl⟩ | exact Or.inl ⟨rfl, rfl, rfl, rfl, rfl, rfl, rfl⟩ | exact Or.inl ⟨rfl, rfl, rfl, rfl, rfl, rfl, rfl, rfl, rfl⟩
           | exact Or.inl ⟨rfl, rfl, rfl, rfl, rfl, rfl, rfl, rfl, rfl, rfl, rfl, rfl, rfl, rfl⟩
           | exact Or.inr ⟨hE _ (by decide), True.intro⟩ | exact Or.inr ⟨hE _ (by decide), _, rfl⟩))
    | fail

theorem execTsignal_ok {I : Inv} {s : State} (hE : I.has [.rate, .tensors, .cores, .cmd, .links, .trim, .regs, .dict, .doors, .irq, .chain, .ledger, .dram, .oasis, .poison, .events, .out, .free]) (h : I.P s) {core : CoreIx}  :
    I.ok (execTsignal core s) := by
  unfold execTsignal
  try dsimp only
  repeat' first
    | with_reducible assumption
    | with_reducible refine Inv.ok_act ?_ ?_
    | with_reducible refine Inv.ok_next ?_
    | with_reducible exact Inv.ok_refused _
    | with_reducible refine Inv.ok_ite ?_ ?_
    | with_reducible refine State.advance_keeps (hE.sub rfl) ?_
    | with_reducible refine State.signal_keeps (hE.sub rfl) ?_
    | with_reducible refine State.retire_keeps (hE.sub rfl) ?_
    | with_reducible refine State.issue_keeps (hE.sub rfl) ?_ ?_
    | with_reducible refine Inv.ite ?_ ?_
    | split
    | intro _
    | dsimp only

theorem State.opeMode_keeps {I : Inv} {s : State} (hE : I.has [.cores]) (h : I.P s) {k : CoreIx} {o : Nat} {quad : Bool}  :
    I.P (State.opeMode s k o quad) := by
  unfold State.opeMode
  try dsimp only
  repeat' first
    | with_reducible assumption
    | intro _
    | with_reducible refine State.modCore_keeps (hE.sub rfl) ?_
    | with_reducible refine Inv.ite ?_ ?_
    | split
    | dsimp only

theorem State.sandFull_keeps {I : Inv} {s : State} (hE : I.has [.cores]) (h : I.P s) {k : CoreIx} {p : Nat → Bool}  :
    I.P (State.sandFull s k p) := by
  unfold State.sandFull
  try dsimp only
  repeat' first
    | with_reducible assumption
    | intro _
    | with_reducible refine State.modCore_keeps (hE.sub rfl) ?_
    | with_reducible refine Inv.ite ?_ ?_
    | split
    | dsimp only

theorem State.matmul_keeps {I : Inv} {s : State} (hE : I.has [.rate, .tensors, .cores, .cmd, .trim, .regs, .dict, .doors, .irq, .chain, .ledger, .dram, .oasis, .poison, .events, .out, .free]) (h : I.P s) {k : CoreIx} {op : Nat}  :
    I.P (State.matmul s k op) := by
  unfold State.matmul
  repeat' first
    | with_reducible assumption
    | (extract_lets +onlyGivenNames v
       first
         | (have hv : I.P v := by
              dsimp only [v]
              repeat' first
                | with_reducible assumption
                | intro _
                | with_reducible refine State.sandFull_keeps (hE.sub rfl) ?_
                | with_reducible refine State.opeMode_keeps (hE.sub rfl) ?_
                | with_reducible refine State.retire_keeps (hE.sub rfl) ?_
                | with_reducible refine State.issue_keeps (hE.sub rfl) ?_ ?_
                | with_reducible refine State.runFx_keeps (hE.sub rfl) ?_
                | with_reducible refine Inv.ite ?_ ?_
                | split
                | dsimp only
            clear_value v)
         | (try dsimp only [v]
            clear v))
    | intro _
    | with_reducible refine State.sandFull_keeps (hE.sub rfl) ?_
    | with_reducible refine State.opeMode_keeps (hE.sub rfl) ?_
    | with_reducible refine State.retire_keeps (hE.sub rfl) ?_
    | with_reducible refine State.issue_keeps (hE.sub rfl) ?_ ?_
    | with_reducible refine State.runFx_keeps (hE.sub rfl) ?_
    | with_reducible refine Inv.ite ?_ ?_
    | split
    | dsimp only

theorem execTmm_ok {I : Inv} {s : State} (hE : I.has [.rate, .tensors, .cores, .cmd, .trim, .regs, .dict, .doors, .irq, .chain, .ledger, .dram, .oasis, .poison, .events, .out, .free]) (h : I.P s) {core : CoreIx}  :
    I.ok (execTmm core s) := by
  unfold execTmm
  try dsimp only
  repeat' first
    | with_reducible assumption
    | with_reducible refine Inv.ok_act ?_ ?_
    | with_reducible refine Inv.ok_next ?_
    | with_reducible exact Inv.ok_refused _
    | with_reducible refine Inv.ok_ite ?_ ?_
    | with_reducible refine State.matmul_keeps (hE.sub rfl) ?_
    | intro _
    | dsimp only

theorem execTconv_ok {I : Inv} {s : State} (hE : I.has [.rate, .tensors, .cores, .cmd, .trim, .regs, .dict, .doors, .irq, .chain, .ledger, .dram, .oasis, .poison, .events, .out, .free]) (h : I.P s) {core : CoreIx}  :
    I.ok (execTconv core s) := by
  unfold execTconv
  try dsimp only
  repeat' first
    | with_reducible assumption
    | with_reducible refine Inv.ok_act ?_ ?_
    | with_reducible refine Inv.ok_next ?_
    | with_reducible exact Inv.ok_refused _
    | with_reducible refine Inv.ok_ite ?_ ?_
    | with_reducible refine State.matmul_keeps (hE.sub rfl) ?_
    | intro _
    | dsimp only

theorem execTfuse_ok {I : Inv} {s : State} (hE : I.has [.rate, .tensors, .cores, .cmd, .trim, .regs, .dict, .doors, .irq, .chain, .ledger, .dram, .oasis, .poison, .events, .out, .free]) (h : I.P s) {core : CoreIx}  :
    I.ok (execTfuse core s) := by
  unfold execTfuse
  try dsimp only
  repeat' first
    | with_reducible assumption
    | with_reducible refine Inv.ok_act ?_ ?_
    | with_reducible refine Inv.ok_next ?_
    | with_reducible exact Inv.ok_refused _
    | with_reducible refine Inv.ok_ite ?_ ?_
    | with_reducible refine State.sandFull_keeps (hE.sub rfl) ?_
    | with_reducible refine State.opeMode_keeps (hE.sub rfl) ?_
    | with_reducible refine State.retire_keeps (hE.sub rfl) ?_
    | with_reducible refine State.issue_keeps (hE.sub rfl) ?_ ?_
    | with_reducible refine State.runFx_keeps (hE.sub rfl) ?_
    | with_reducible refine Inv.foldl ?_ ?_
    | with_reducible refine Inv.ite ?_ ?_
    | split
    | intro _
    | dsimp only

theorem execTmv_ok {I : Inv} {s : State} (hE : I.has [.rate, .tensors, .cores, .cmd, .trim, .regs, .dict, .doors, .irq, .chain, .ledger, .dram, .oasis, .poison, .events, .out, .free]) (h : I.P s) {core : CoreIx}  :
    I.ok (execTmv core s) := by
  unfold execTmv
  try dsimp only
  repeat' first
    | with_reducible assumption
    | with_reducible refine Inv.ok_act ?_ ?_
    | with_reducible refine Inv.ok_next ?_
    | with_reducible exact Inv.ok_refused _
    | with_reducible refine Inv.ok_ite ?_ ?_
    | with_reducible refine State.issue_keeps (hE.sub rfl) ?_ ?_
    | with_reducible refine State.runFx_keeps (hE.sub rfl) ?_
    | intro _
    | dsimp only

theorem execTdw_ok {I : Inv} {s : State} (hE : I.has [.rate, .tensors, .cores, .cmd, .trim, .regs, .dict, .doors, .irq, .chain, .ledger, .dram, .oasis, .poison, .events, .out, .free]) (h : I.P s) {core : CoreIx}  :
    I.ok (execTdw core s) := by
  unfold execTdw
  try dsimp only
  repeat' first
    | with_reducible assumption
    | with_reducible refine Inv.ok_act ?_ ?_
    | with_reducible refine Inv.ok_next ?_
    | with_reducible exact Inv.ok_refused _
    | with_reducible refine Inv.ok_ite ?_ ?_
    | with_reducible refine State.issue_keeps (hE.sub rfl) ?_ ?_
    | with_reducible refine State.runFx_keeps (hE.sub rfl) ?_
    | intro _
    | dsimp only

theorem execTvec_ok {I : Inv} {s : State} (hE : I.has [.rate, .tensors, .cores, .cmd, .trim, .regs, .dict, .doors, .irq, .chain, .ledger, .dram, .oasis, .poison, .events, .out, .free]) (h : I.P s) {core : CoreIx}  :
    I.ok (execTvec core s) := by
  unfold execTvec
  try dsimp only
  repeat' first
    | with_reducible assumption
    | with_reducible refine Inv.ok_act ?_ ?_
    | with_reducible refine Inv.ok_next ?_
    | with_reducible exact Inv.ok_refused _
    | with_reducible refine Inv.ok_ite ?_ ?_
    | with_reducible refine State.issue_keeps (hE.sub rfl) ?_ ?_
    | with_reducible refine State.runFx_keeps (hE.sub rfl) ?_
    | intro _
    | dsimp only

theorem execTqnt_ok {I : Inv} {s : State} (hE : I.has [.rate, .tensors, .cores, .cmd, .trim, .regs, .dict, .doors, .irq, .chain, .ledger, .dram, .oasis, .poison, .events, .out, .free]) (h : I.P s) {core : CoreIx}  :
    I.ok (execTqnt core s) := by
  unfold execTqnt
  try dsimp only
  repeat' first
    | with_reducible assumption
    | with_reducible refine Inv.ok_act ?_ ?_
    | with_reducible refine Inv.ok_next ?_
    | with_reducible exact Inv.ok_refused _
    | with_reducible refine Inv.ok_ite ?_ ?_
    | with_reducible refine State.issue_keeps (hE.sub rfl) ?_ ?_
    | with_reducible refine State.runFx_keeps (hE.sub rfl) ?_
    | intro _
    | dsimp only

theorem execTdet_ok {I : Inv} {s : State} (hE : I.has [.rate, .tensors, .cores, .cmd, .det, .trim, .regs, .dict, .doors, .irq, .chain, .ledger, .dram, .oasis, .poison, .events, .out, .free]) (h : I.P s) {core : CoreIx}  :
    I.ok (execTdet core s) := by
  unfold execTdet
  try dsimp only
  repeat' first
    | with_reducible assumption
    | with_reducible refine Inv.ok_act ?_ ?_
    | with_reducible refine Inv.ok_next ?_
    | with_reducible exact Inv.ok_refused _
    | with_reducible refine Inv.ok_ite ?_ ?_
    | with_reducible refine State.detStatusEvent_keeps (hE.sub rfl) ?_
    | with_reducible refine State.modTile_keeps (hE.sub rfl) ?_
    | with_reducible refine State.count32_keeps (hE.sub rfl) ?_
    | with_reducible refine State.issue_keeps (hE.sub rfl) ?_ ?_
    | with_reducible refine State.runFx_keeps (hE.sub rfl) ?_
    | with_reducible refine Inv.ite ?_ ?_
    | split
    | intro _
    | dsimp only

theorem State.landRows_keeps {I : Inv} {s : State} (hE : I.has [.cores, .cmd, .regs, .dict, .irq, .events, .out]) (h : I.P s) {k : CoreIx} {t : Tile} {p : Prog} {w : Nat} {poison : Option Nat} {rows : List (Nat × List Byte)}  :
    I.P (State.landRows s k t p w poison rows) := by
  unfold State.landRows
  try dsimp only
  repeat' first
    | with_reducible assumption
    | intro _
    | with_reducible refine State.tmUncorrectable_keeps (hE.sub rfl) ?_
    | with_reducible refine State.undefineTm_keeps (hE.sub rfl) ?_
    | with_reducible refine State.abandon_keeps (hE.sub rfl) ?_
    | with_reducible refine State.modCore_keeps (hE.sub rfl) ?_
    | with_reducible refine State.launch_keeps (hE.sub rfl) ?_
    | with_reducible refine Inv.foldl ?_ ?_
    | with_reducible refine Inv.ite ?_ ?_
    | split
    | dsimp only

theorem State.pubNeed_keeps {I : Inv} {s : State} (hE : I.has [.rate, .tensors, .trim, .regs, .dict, .doors, .irq, .chain, .ledger, .dram, .oasis, .poison, .events, .out, .free]) (h : I.P s) {rows : List (Nat × Nat)} {n : Nat} {g : Int}  :
    I.P (State.pubNeed s rows n g) := by
  unfold State.pubNeed
  try dsimp only
  repeat' first
    | with_reducible assumption
    | intro _
    | with_reducible refine State.needSlot_keeps (hE.sub rfl) ?_
    | with_reducible refine Inv.foldl ?_ ?_
    | with_reducible refine Inv.ite ?_ ?_
    | split
    | dsimp only

theorem State.spaceSeen_keeps {I : Inv} {s : State} (hE : I.has [.rate, .trim, .regs, .dict, .irq, .poison, .events, .out, .free]) (h : I.P s)  {l : List (Nat × Nat × Nat)} {m : Nat} {n : Nat} :
    I.P (State.spaceSeen s l m n) := by
  induction l generalizing s m n with
  | nil => simpa only [State.spaceSeen] using h
  | cons a r ih =>
    simp only [State.spaceSeen]
    repeat' first
      | with_reducible assumption
      | intro _
      | refine ih ?_
      | with_reducible refine State.oasisSeen_keeps (hE.sub rfl) ?_
      | with_reducible refine State.dramSeen_keeps (hE.sub rfl) ?_
      | with_reducible refine Inv.ite ?_ ?_
      | split
      | dsimp only

theorem State.streamUsed_keeps {I : Inv} {s : State} (hE : I.has [.regs, .free]) (h : I.P s)   :
    I.P (State.streamUsed s) := by
  unfold State.streamUsed
  try dsimp only
  repeat' first
    | with_reducible assumption
    | intro _
    | with_reducible refine State.countFree_keeps (hE.sub rfl) ?_
    | with_reducible refine Inv.ite ?_ ?_
    | split
    | dsimp only

theorem State.streamLimited_keeps {I : Inv} {s : State} (hE : I.has [.cmd, .regs, .irq, .events, .out]) (h : I.P s) {b : Nat} {x : Stream} {g : Int}  :
    I.P (State.streamLimited s b x g) := by
  unfold State.streamLimited
  try dsimp only
  repeat' first
    | with_reducible assumption
    | intro _
    | with_reducible refine State.raiseStatusAt_keeps (hE.sub rfl) ?_
    | with_reducible refine State.raiseInt_keeps (hE.sub rfl) ?_
    | with_reducible refine State.modCmd_keeps (hE.sub rfl) ?_
    | with_reducible refine Inv.ite ?_ ?_
    | split
    | dsimp only

theorem State.readCopies_keeps {I : Inv} {s : State} (hE : I.has [.rate, .trim, .regs, .dict, .irq, .poison, .events, .out, .free]) (h : I.P s) {x : Stream} {g : Int} {copies : List (Nat × Nat × Nat)}  :
    I.P (State.readCopies s x g copies) := by
  unfold State.readCopies
  try dsimp only
  repeat' first
    | with_reducible assumption
    | intro _
    | with_reducible refine State.streamUsed_keeps (hE.sub rfl) ?_
    | with_reducible refine State.spaceSeen_keeps (hE.sub rfl) ?_
    | with_reducible refine State.count64_keeps (hE.sub rfl) ?_
    | with_reducible refine Inv.foldl ?_ ?_
    | dsimp only

theorem State.deliver_keeps {I : Inv} {s : State} (hE : I.has [.cores, .cmd, .regs, .dict, .irq, .events, .out]) (h : I.P s) {x : Stream} {g : Int} {k : CoreIx} {copies : List (Nat × Nat × Nat)}  :
    I.P (State.deliver s x g k copies) := by
  unfold State.deliver
  try dsimp only
  repeat' first
    | with_reducible assumption
    | intro _
    | with_reducible refine State.tmUncorrectable_keeps (hE.sub rfl) ?_
    | with_reducible refine State.streamLimited_keeps (hE.sub rfl) ?_
    | with_reducible refine State.modTile_keeps (hE.sub rfl) ?_
    | with_reducible refine State.abandon_keeps (hE.sub rfl) ?_
    | with_reducible refine State.modCore_keeps (hE.sub rfl) ?_
    | with_reducible refine Inv.foldl ?_ ?_
    | with_reducible refine Inv.ite ?_ ?_
    | split
    | dsimp only

theorem State.mcastJoin_keeps {I : Inv} {s : State} (hE : I.has [.rate, .cores, .cmd, .trim, .regs, .dict, .irq, .poison, .events, .out, .free]) (h : I.P s) {k : CoreIx} {t : Tile} {p : Prog} {w : Nat} {i : Nat} {rows : List (Nat × Nat)}  :
    I.P (State.mcastJoin s k t p w i rows) := by
  unfold State.mcastJoin
  try dsimp only
  repeat' first
    | with_reducible assumption
    | intro _
    | with_reducible refine State.readCopies_keeps (hE.sub rfl) ?_
    | with_reducible refine State.modStream_keeps (hE.sub rfl) ?_
    | with_reducible refine State.count64_keeps (hE.sub rfl) ?_
    | with_reducible refine State.deliver_keeps (hE.sub rfl) ?_
    | with_reducible refine State.launch_keeps (hE.sub rfl) ?_
    | with_reducible refine Inv.foldl ?_ ?_
    | with_reducible refine Inv.ite ?_ ?_
    | split
    | dsimp only

theorem State.loadLinear_keeps {I : Inv} {s : State} (hE : I.has [.rate, .tensors, .cores, .cmd, .trim, .regs, .dict, .doors, .irq, .chain, .ledger, .dram, .oasis, .poison, .events, .out, .free]) (h : I.P s) {k : CoreIx} {t : Tile} {p : Prog} {w : Nat}  :
    I.P (State.loadLinear s k t p w) := by
  unfold State.loadLinear
  try dsimp only
  repeat' first
    | with_reducible assumption
    | intro _
    | with_reducible refine State.oasisSeen_keeps (hE.sub rfl) ?_
    | with_reducible refine State.mcastJoin_keeps (hE.sub rfl) ?_
    | with_reducible refine State.landRows_keeps (hE.sub rfl) ?_
    | with_reducible refine State.pubNeed_keeps (hE.sub rfl) ?_
    | with_reducible refine State.abandon_keeps (hE.sub rfl) ?_
    | with_reducible refine Inv.foldl ?_ ?_
    | with_reducible refine Inv.ite ?_ ?_
    | split
    | dsimp only

theorem State.loadWeb_keeps {I : Inv} {s : State} (hE : I.has [.rate, .cores, .cmd, .regs, .dict, .irq, .events, .out, .free]) (h : I.P s) {k : CoreIx} {t : Tile} {p : Prog} {w : Nat}  :
    I.P (State.loadWeb s k t p w) := by
  unfold State.loadWeb
  try dsimp only
  repeat' first
    | with_reducible assumption
    | intro _
    | with_reducible refine State.oasisSeen_keeps (hE.sub rfl) ?_
    | with_reducible refine State.landRows_keeps (hE.sub rfl) ?_
    | with_reducible refine State.abandon_keeps (hE.sub rfl) ?_
    | with_reducible refine Inv.foldl ?_ ?_
    | with_reducible refine Inv.ite ?_ ?_
    | split
    | dsimp only

theorem execTload_ok {I : Inv} {s : State} (hE : I.has [.rate, .tensors, .cores, .cmd, .trim, .regs, .dict, .doors, .irq, .chain, .ledger, .dram, .oasis, .poison, .events, .out, .free]) (h : I.P s) {core : CoreIx}  :
    I.ok (execTload core s) := by
  unfold execTload
  try dsimp only
  repeat' first
    | with_reducible assumption
    | with_reducible refine Inv.ok_act ?_ ?_
    | with_reducible refine Inv.ok_next ?_
    | with_reducible exact Inv.ok_refused _
    | with_reducible refine Inv.ok_ite ?_ ?_
    | with_reducible refine State.loadLinear_keeps (hE.sub rfl) ?_
    | with_reducible refine State.advance_keeps (hE.sub rfl) ?_
    | with_reducible refine State.loadWeb_keeps (hE.sub rfl) ?_
    | with_reducible refine State.count64_keeps (hE.sub rfl) ?_
    | with_reducible refine State.issue_keeps (hE.sub rfl) ?_ ?_
    | with_reducible refine Inv.ite ?_ ?_
    | split
    | intro _
    | dsimp only

theorem execTstore_ok {I : Inv} {s : State} (hE : I.has [.cores, .cmd, .regs, .irq, .oasis, .poison, .events, .out, .free]) (h : I.P s) {core : CoreIx}  :
    I.ok (execTstore core s) := by
  unfold execTstore
  repeat' first
    | with_reducible assumption
    | (extract_lets +onlyGivenNames v
       first
         | (have hv : I.P v := by
              dsimp only [v]
              repeat' first
                | with_reducible assumption
                | with_reducible refine Inv.ok_act ?_ ?_
                | with_reducible refine Inv.ok_next ?_
                | with_reducible exact Inv.ok_refused _
                | with_reducible refine Inv.ok_ite ?_ ?_
                | with_reducible refine State.tmUncorrectable_keeps (hE.sub rfl) ?_
                | with_reducible refine State.tmCorrected_keeps (hE.sub rfl) ?_
                | with_reducible refine State.writeOasis_keeps (hE.sub rfl) ?_
                | with_reducible refine State.modStream_keeps (hE.sub rfl) ?_
                | with_reducible refine State.oasisUsed_keeps (hE.sub rfl) ?_
                | with_reducible refine State.modCore_keeps (hE.sub rfl) ?_
                | with_reducible refine State.advance_keeps (hE.sub rfl) ?_
                | with_reducible refine State.modTile_keeps (hE.sub rfl) ?_
                | with_reducible refine State.launch_keeps (hE.sub rfl) ?_
                | with_reducible refine State.issue_keeps (hE.sub rfl) ?_ ?_
                | with_reducible refine Inv.foldl ?_ ?_
                | with_reducible refine Inv.ite ?_ ?_
                | split
                | intro _
                | dsimp only
                | (with_reducible refine Inv.set (fun p => ?_) ?_
                   · fail_if_success with_reducible (cases p <;> first
                       | exact Or.inl rfl | exact Or.inl ⟨rfl, rfl⟩ | exact Or.inl ⟨rfl, rfl, rfl⟩ | exact Or.inl ⟨rfl, rfl, rfl, rfl⟩ | exact Or.inl ⟨rfl, rfl, rfl, rfl, rfl⟩
                       | exact Or.inl ⟨rfl, rfl, rfl, rfl, rfl, rfl⟩ | exact Or.inl ⟨rfl, rfl, rfl, rfl, rfl, rfl, rfl⟩ | exact Or.inl ⟨rfl, rfl, rfl, rfl, rfl, rfl, rfl, rfl, rfl⟩
                       | exact Or.inl ⟨rfl, rfl, rfl, rfl, rfl, rfl, rfl, rfl, rfl, rfl, rfl, rfl, rfl, rfl⟩)
                     with_reducible (cases p <;> first
                       | exact Or.inl rfl | exact Or.inl ⟨rfl, rfl⟩ | exact Or.inl ⟨rfl, rfl, rfl⟩ | exact Or.inl ⟨rfl, rfl, rfl, rfl⟩ | exact Or.inl ⟨rfl, rfl, rfl, rfl, rfl⟩
                       | exact Or.inl ⟨rfl, rfl, rfl, rfl, rfl, rfl⟩ | exact Or.inl ⟨rfl, rfl, rfl, rfl, rfl, rfl, rfl⟩ | exact Or.inl ⟨rfl, rfl, rfl, rfl, rfl, rfl, rfl, rfl, rfl⟩
                       | exact Or.inl ⟨rfl, rfl, rfl, rfl, rfl, rfl, rfl, rfl, rfl, rfl, rfl, rfl, rfl, rfl⟩
                       | exact Or.inr ⟨hE _ (by decide), True.intro⟩ | exact Or.inr ⟨hE _ (by decide), _, rfl⟩))
                | fail
            clear_value v)
         | (try dsimp only [v]
            clear v))
    | with_reducible refine Inv.ok_act ?_ ?_
    | with_reducible refine Inv.ok_next ?_
    | with_reducible exact Inv.ok_refused _
    | with_reducible refine Inv.ok_ite ?_ ?_
    | with_reducible refine State.tmUncorrectable_keeps (hE.sub rfl) ?_
    | with_reducible refine State.tmCorrected_keeps (hE.sub rfl) ?_
    | with_reducible refine State.writeOasis_keeps (hE.sub rfl) ?_
    | with_reducible refine State.modStream_keeps (hE.sub rfl) ?_
    | with_reducible refine State.oasisUsed_keeps (hE.sub rfl) ?_
    | with_reducible refine State.modCore_keeps (hE.sub rfl) ?_
    | with_reducible refine State.advance_keeps (hE.sub rfl) ?_
    | with_reducible refine State.modTile_keeps (hE.sub rfl) ?_
    | with_reducible refine State.launch_keeps (hE.sub rfl) ?_
    | with_reducible refine State.issue_keeps (hE.sub rfl) ?_ ?_
    | with_reducible refine Inv.foldl ?_ ?_
    | with_reducible refine Inv.ite ?_ ?_
    | split
    | intro _
    | dsimp only
    | (with_reducible refine Inv.set (fun p => ?_) ?_
       · fail_if_success with_reducible (cases p <;> first
           | exact Or.inl rfl | exact Or.inl ⟨rfl, rfl⟩ | exact Or.inl ⟨rfl, rfl, rfl⟩ | exact Or.inl ⟨rfl, rfl, rfl, rfl⟩ | exact Or.inl ⟨rfl, rfl, rfl, rfl, rfl⟩
           | exact Or.inl ⟨rfl, rfl, rfl, rfl, rfl, rfl⟩ | exact Or.inl ⟨rfl, rfl, rfl, rfl, rfl, rfl, rfl⟩ | exact Or.inl ⟨rfl, rfl, rfl, rfl, rfl, rfl, rfl, rfl, rfl⟩
           | exact Or.inl ⟨rfl, rfl, rfl, rfl, rfl, rfl, rfl, rfl, rfl, rfl, rfl, rfl, rfl, rfl⟩)
         with_reducible (cases p <;> first
           | exact Or.inl rfl | exact Or.inl ⟨rfl, rfl⟩ | exact Or.inl ⟨rfl, rfl, rfl⟩ | exact Or.inl ⟨rfl, rfl, rfl, rfl⟩ | exact Or.inl ⟨rfl, rfl, rfl, rfl, rfl⟩
           | exact Or.inl ⟨rfl, rfl, rfl, rfl, rfl, rfl⟩ | exact Or.inl ⟨rfl, rfl, rfl, rfl, rfl, rfl, rfl⟩ | exact Or.inl ⟨rfl, rfl, rfl, rfl, rfl, rfl, rfl, rfl, rfl⟩
           | exact Or.inl ⟨rfl, rfl, rfl, rfl, rfl, rfl, rfl, rfl, rfl, rfl, rfl, rfl, rfl, rfl⟩
           | exact Or.inr ⟨hE _ (by decide), True.intro⟩ | exact Or.inr ⟨hE _ (by decide), _, rfl⟩))
    | fail

theorem State.commitWon_keeps {I : Inv} {s : State} (hE : I.has [.tensors, .cores, .cmd, .ctx, .det, .regs, .irq, .events, .out]) (h : I.P s) {k : CoreIx} {t : Tile}  :
    I.P (State.commitWon s k t) := by
  unfold State.commitWon
  try dsimp only
  repeat' first
    | with_reducible assumption
    | intro _
    | with_reducible refine State.modWellTile_keeps (hE.sub rfl) ?_
    | with_reducible refine State.detReceive_keeps (hE.sub rfl) ?_
    | with_reducible refine State.foldStats_keeps (hE.sub rfl) ?_
    | with_reducible refine State.advance_keeps (hE.sub rfl) ?_
    | with_reducible refine State.modTile_keeps (hE.sub rfl) ?_
    | with_reducible refine State.modCmd_keeps (hE.sub rfl) ?_
    | with_reducible refine State.modCtx_keeps (hE.sub rfl) ?_
    | with_reducible refine Inv.foldl ?_ ?_
    | with_reducible refine Inv.ite ?_ ?_
    | split
    | dsimp only
    | (with_reducible refine Inv.set (fun p => ?_) ?_
       · fail_if_success with_reducible (cases p <;> first
           | exact Or.inl rfl | exact Or.inl ⟨rfl, rfl⟩ | exact Or.inl ⟨rfl, rfl, rfl⟩ | exact Or.inl ⟨rfl, rfl, rfl, rfl⟩ | exact Or.inl ⟨rfl, rfl, rfl, rfl, rfl⟩
           | exact Or.inl ⟨rfl, rfl, rfl, rfl, rfl, rfl⟩ | exact Or.inl ⟨rfl, rfl, rfl, rfl, rfl, rfl, rfl⟩ | exact Or.inl ⟨rfl, rfl, rfl, rfl, rfl, rfl, rfl, rfl, rfl⟩
           | exact Or.inl ⟨rfl, rfl, rfl, rfl, rfl, rfl, rfl, rfl, rfl, rfl, rfl, rfl, rfl, rfl⟩)
         with_reducible (cases p <;> first
           | exact Or.inl rfl | exact Or.inl ⟨rfl, rfl⟩ | exact Or.inl ⟨rfl, rfl, rfl⟩ | exact Or.inl ⟨rfl, rfl, rfl, rfl⟩ | exact Or.inl ⟨rfl, rfl, rfl, rfl, rfl⟩
           | exact Or.inl ⟨rfl, rfl, rfl, rfl, rfl, rfl⟩ | exact Or.inl ⟨rfl, rfl, rfl, rfl, rfl, rfl, rfl⟩ | exact Or.inl ⟨rfl, rfl, rfl, rfl, rfl, rfl, rfl, rfl, rfl⟩
           | exact Or.inl ⟨rfl, rfl, rfl, rfl, rfl, rfl, rfl, rfl, rfl, rfl, rfl, rfl, rfl, rfl⟩
           | exact Or.inr ⟨hE _ (by decide), True.intro⟩ | exact Or.inr ⟨hE _ (by decide), _, rfl⟩))
    | fail

theorem State.commitLost_keeps {I : Inv} {s : State} (hE : I.has [.cores, .cmd, .regs, .dict, .irq, .events, .out]) (h : I.P s) {k : CoreIx} {t : Tile} {cancelled : Bool}  :
    I.P (State.commitLost s k t cancelled) := by
  unfold State.commitLost
  repeat' first
    | with_reducible assumption
    | (extract_lets +onlyGivenNames v
       first
         | (have hv : I.P v := by
              dsimp only [v]
              repeat' first
                | with_reducible assumption
                | intro _
                | with_reducible refine State.modWellTile_keeps (hE.sub rfl) ?_
                | with_reducible refine State.coreIdle_keeps (hE.sub rfl) ?_
                | with_reducible refine State.countOd_keeps (hE.sub rfl) ?_
                | with_reducible refine State.count32_keeps (hE.sub rfl) ?_
                | with_reducible refine State.modJob_keeps (hE.sub rfl) ?_
                | with_reducible refine Inv.ite ?_ ?_
                | split
                | dsimp only
            clear_value v)
         | (try dsimp only [v]
            clear v))
    | intro _
    | with_reducible refine State.modWellTile_keeps (hE.sub rfl) ?_
    | with_reducible refine State.coreIdle_keeps (hE.sub rfl) ?_
    | with_reducible refine State.countOd_keeps (hE.sub rfl) ?_
    | with_reducible refine State.count32_keeps (hE.sub rfl) ?_
    | with_reducible refine State.modJob_keeps (hE.sub rfl) ?_
    | with_reducible refine Inv.ite ?_ ?_
    | split
    | dsimp only

theorem execTcommit_ok {I : Inv} {s : State} (hE : I.has [.tensors, .cores, .cmd, .ctx, .det, .regs, .dict, .irq, .oasis, .events, .out]) (h : I.P s) {core : CoreIx}  :
    I.ok (execTcommit core s) := by
  unfold execTcommit
  try dsimp only
  repeat' first
    | with_reducible assumption
    | with_reducible refine Inv.ok_act ?_ ?_
    | with_reducible refine Inv.ok_next ?_
    | with_reducible exact Inv.ok_refused _
    | with_reducible refine Inv.ok_ite ?_ ?_
    | with_reducible refine State.commitLost_keeps (hE.sub rfl) ?_
    | with_reducible refine State.commitWon_keeps (hE.sub rfl) ?_
    | with_reducible refine State.stopTile_keeps (hE.sub rfl) ?_
    | with_reducible refine State.abandon_keeps (hE.sub rfl) ?_
    | with_reducible refine State.issue_keeps (hE.sub rfl) ?_ ?_
    | with_reducible refine Inv.ite ?_ ?_
    | split
    | intro _
    | dsimp only

theorem State.fillHalo_keeps {I : Inv} {s : State} (hE : I.has [.cores, .cmd, .regs, .dict, .irq, .events, .out]) (h0 : I.P s) {k : CoreIx} {t : Tile} {p : Prog} {h : Nat × Nat × Bool}  :
    I.P (State.fillHalo s k t p h) := by
  unfold State.fillHalo
  try dsimp only
  repeat' first
    | with_reducible assumption
    | intro _
    | with_reducible refine State.tmUncorrectable_keeps (hE.sub rfl) ?_
    | with_reducible refine State.tmCorrected_keeps (hE.sub rfl) ?_
    | with_reducible refine State.undefineTm_keeps (hE.sub rfl) ?_
    | with_reducible refine State.modCore_keeps (hE.sub rfl) ?_
    | with_reducible refine State.abandon_keeps (hE.sub rfl) ?_
    | with_reducible refine State.modTile_keeps (hE.sub rfl) ?_
    | with_reducible refine Inv.ite ?_ ?_
    | split
    | dsimp only

theorem State.fillHalos_keeps {I : Inv} {s : State} (hE : I.has [.cores, .cmd, .regs, .dict, .irq, .events, .out]) (h : I.P s) {k : CoreIx} {t : Tile} {p : Prog}  :
    I.P (State.fillHalos s k t p) := by
  unfold State.fillHalos
  try dsimp only
  repeat' first
    | with_reducible assumption
    | intro _
    | with_reducible refine State.fillHalo_keeps (hE.sub rfl) ?_
    | with_reducible refine Inv.foldl ?_ ?_
    | with_reducible refine Inv.ite ?_ ?_
    | split
    | dsimp only

theorem execPhaseChange_ok {I : Inv} {s : State} (hE : I.has [.cores, .cmd, .regs, .dict, .irq, .events, .out]) (h : I.P s) {core : CoreIx}  :
    I.ok (execPhaseChange core s) := by
  unfold execPhaseChange
  try dsimp only
  repeat' first
    | with_reducible assumption
    | with_reducible refine Inv.ok_act ?_ ?_
    | with_reducible refine Inv.ok_next ?_
    | with_reducible exact Inv.ok_refused _
    | with_reducible refine Inv.ok_ite ?_ ?_
    | with_reducible refine State.fillHalos_keeps (hE.sub rfl) ?_
    | with_reducible refine State.modCore_keeps (hE.sub rfl) ?_
    | with_reducible refine State.retire_keeps (hE.sub rfl) ?_
    | with_reducible refine Inv.ite ?_ ?_
    | split
    | intro _
    | dsimp only

theorem execOpeDrainDone_ok {I : Inv} {s : State} (hE : I.has [.cores]) (h : I.P s) {core : CoreIx} {ope : Fin 8} {quad : Option (Fin 4)} {bank : Bool}  :
    I.ok (execOpeDrainDone core ope quad bank s) := by
  unfold execOpeDrainDone
  try dsimp only
  repeat' first
    | with_reducible assumption
    | with_reducible refine Inv.ok_act ?_ ?_
    | with_reducible refine Inv.ok_next ?_
    | with_reducible exact Inv.ok_refused _
    | with_reducible refine Inv.ok_ite ?_ ?_
    | with_reducible refine State.modTile_keeps (hE.sub rfl) ?_
    | intro _
    | dsimp only
    | (with_reducible refine Inv.set (fun p => ?_) ?_
       · fail_if_success with_reducible (cases p <;> first
           | exact Or.inl rfl | exact Or.inl ⟨rfl, rfl⟩ | exact Or.inl ⟨rfl, rfl, rfl⟩ | exact Or.inl ⟨rfl, rfl, rfl, rfl⟩ | exact Or.inl ⟨rfl, rfl, rfl, rfl, rfl⟩
           | exact Or.inl ⟨rfl, rfl, rfl, rfl, rfl, rfl⟩ | exact Or.inl ⟨rfl, rfl, rfl, rfl, rfl, rfl, rfl⟩ | exact Or.inl ⟨rfl, rfl, rfl, rfl, rfl, rfl, rfl, rfl, rfl⟩
           | exact Or.inl ⟨rfl, rfl, rfl, rfl, rfl, rfl, rfl, rfl, rfl, rfl, rfl, rfl, rfl, rfl⟩)
         with_reducible (cases p <;> first
           | exact Or.inl rfl | exact Or.inl ⟨rfl, rfl⟩ | exact Or.inl ⟨rfl, rfl, rfl⟩ | exact Or.inl ⟨rfl, rfl, rfl, rfl⟩ | exact Or.inl ⟨rfl, rfl, rfl, rfl, rfl⟩
           | exact Or.inl ⟨rfl, rfl, rfl, rfl, rfl, rfl⟩ | exact Or.inl ⟨rfl, rfl, rfl, rfl, rfl, rfl, rfl⟩ | exact Or.inl ⟨rfl, rfl, rfl, rfl, rfl, rfl, rfl, rfl, rfl⟩
           | exact Or.inl ⟨rfl, rfl, rfl, rfl, rfl, rfl, rfl, rfl, rfl, rfl, rfl, rfl, rfl, rfl⟩
           | exact Or.inr ⟨hE _ (by decide), True.intro⟩ | exact Or.inr ⟨hE _ (by decide), _, rfl⟩))
    | fail

theorem State.recordsReady_keeps {I : Inv} {s : State} (hE : I.has [.cmd]) (h : I.P s) {t : Tile}  :
    I.P (State.recordsReady s t) := by
  unfold State.recordsReady
  try dsimp only
  repeat' first
    | with_reducible assumption
    | intro _
    | with_reducible refine State.modOuts_keeps (hE.sub rfl) ?_
    | with_reducible refine Inv.ite ?_ ?_
    | split
    | dsimp only

theorem execTileFinish_ok {I : Inv} {s : State} (hE : I.has [.fsPorts, .slices, .cores, .cmd, .regs, .dict, .irq, .events, .out, .free]) (h : I.P s) {core : CoreIx}  :
    I.ok (execTileFinish core s) := by
  unfold execTileFinish
  try dsimp only
  repeat' first
    | with_reducible assumption
    | with_reducible refine Inv.ok_act ?_ ?_
    | with_reducible refine Inv.ok_next ?_
    | with_reducible exact Inv.ok_refused _
    | with_reducible refine Inv.ok_ite ?_ ?_
    | with_reducible refine State.releaseRings_keeps (hE.sub rfl) ?_
    | with_reducible refine State.recordsReady_keeps (hE.sub rfl) ?_
    | with_reducible refine State.modWellTile_keeps (hE.sub rfl) ?_
    | with_reducible refine State.freeFetch_keeps (hE.sub rfl) ?_
    | with_reducible refine State.coreIdle_keeps (hE.sub rfl) ?_
    | with_reducible refine State.countOd_keeps (hE.sub rfl) ?_
    | with_reducible refine State.modJob_keeps (hE.sub rfl) ?_
    | with_reducible refine State.retire_keeps (hE.sub rfl) ?_
    | with_reducible refine Inv.ite ?_ ?_
    | split
    | intro _
    | dsimp only

theorem execHaloDeadline_ok {I : Inv} {s : State} (hE : I.has [.cores, .cmd, .regs, .dict, .irq, .events, .out]) (h : I.P s) {core : CoreIx}  :
    I.ok (execHaloDeadline core s) := by
  unfold execHaloDeadline
  repeat' first
    | with_reducible assumption
    | (extract_lets +onlyGivenNames v
       first
         | (have hv : I.P v := by
              dsimp only [v]
              repeat' first
                | with_reducible assumption
                | with_reducible refine Inv.ok_act ?_ ?_
                | with_reducible refine Inv.ok_next ?_
                | with_reducible exact Inv.ok_refused _
                | with_reducible refine Inv.ok_ite ?_ ?_
                | with_reducible refine State.raiseInt_keeps (hE.sub rfl) ?_
                | with_reducible refine State.countOd_keeps (hE.sub rfl) ?_
                | with_reducible refine State.advance_keeps (hE.sub rfl) ?_
                | with_reducible refine State.modTile_keeps (hE.sub rfl) ?_
                | with_reducible refine State.eventAt_keeps (hE.sub rfl) ?_
                | with_reducible refine State.modJob_keeps (hE.sub rfl) ?_
                | with_reducible refine State.modCmd_keeps (hE.sub rfl) ?_
                | with_reducible refine Inv.ite ?_ ?_
                | split
                | intro _
                | dsimp only
                | (with_reducible refine Inv.set (fun p => ?_) ?_
                   · fail_if_success with_reducible (cases p <;> first
                       | exact Or.inl rfl | exact Or.inl ⟨rfl, rfl⟩ | exact Or.inl ⟨rfl, rfl, rfl⟩ | exact Or.inl ⟨rfl, rfl, rfl, rfl⟩ | exact Or.inl ⟨rfl, rfl, rfl, rfl, rfl⟩
                       | exact Or.inl ⟨rfl, rfl, rfl, rfl, rfl, rfl⟩ | exact Or.inl ⟨rfl, rfl, rfl, rfl, rfl, rfl, rfl⟩ | exact Or.inl ⟨rfl, rfl, rfl, rfl, rfl, rfl, rfl, rfl, rfl⟩
                       | exact Or.inl ⟨rfl, rfl, rfl, rfl, rfl, rfl, rfl, rfl, rfl, rfl, rfl, rfl, rfl, rfl⟩)
                     with_reducible (cases p <;> first
                       | exact Or.inl rfl | exact Or.inl ⟨rfl, rfl⟩ | exact Or.inl ⟨rfl, rfl, rfl⟩ | exact Or.inl ⟨rfl, rfl, rfl, rfl⟩ | exact Or.inl ⟨rfl, rfl, rfl, rfl, rfl⟩
                       | exact Or.inl ⟨rfl, rfl, rfl, rfl, rfl, rfl⟩ | exact Or.inl ⟨rfl, rfl, rfl, rfl, rfl, rfl, rfl⟩ | exact Or.inl ⟨rfl, rfl, rfl, rfl, rfl, rfl, rfl, rfl, rfl⟩
                       | exact Or.inl ⟨rfl, rfl, rfl, rfl, rfl, rfl, rfl, rfl, rfl, rfl, rfl, rfl, rfl, rfl⟩
                       | exact Or.inr ⟨hE _ (by decide), True.intro⟩ | exact Or.inr ⟨hE _ (by decide), _, rfl⟩))
                | fail
            clear_value v)
         | (try dsimp only [v]
            clear v))
    | with_reducible refine Inv.ok_act ?_ ?_
    | with_reducible refine Inv.ok_next ?_
    | with_reducible exact Inv.ok_refused _
    | with_reducible refine Inv.ok_ite ?_ ?_
    | with_reducible refine State.raiseInt_keeps (hE.sub rfl) ?_
    | with_reducible refine State.countOd_keeps (hE.sub rfl) ?_
    | with_reducible refine State.advance_keeps (hE.sub rfl) ?_
    | with_reducible refine State.modTile_keeps (hE.sub rfl) ?_
    | with_reducible refine State.eventAt_keeps (hE.sub rfl) ?_
    | with_reducible refine State.modJob_keeps (hE.sub rfl) ?_
    | with_reducible refine State.modCmd_keeps (hE.sub rfl) ?_
    | with_reducible refine Inv.ite ?_ ?_
    | split
    | intro _
    | dsimp only
    | (with_reducible refine Inv.set (fun p => ?_) ?_
       · fail_if_success with_reducible (cases p <;> first
           | exact Or.inl rfl | exact Or.inl ⟨rfl, rfl⟩ | exact Or.inl ⟨rfl, rfl, rfl⟩ | exact Or.inl ⟨rfl, rfl, rfl, rfl⟩ | exact Or.inl ⟨rfl, rfl, rfl, rfl, rfl⟩
           | exact Or.inl ⟨rfl, rfl, rfl, rfl, rfl, rfl⟩ | exact Or.inl ⟨rfl, rfl, rfl, rfl, rfl, rfl, rfl⟩ | exact Or.inl ⟨rfl, rfl, rfl, rfl, rfl, rfl, rfl, rfl, rfl⟩
           | exact Or.inl ⟨rfl, rfl, rfl, rfl, rfl, rfl, rfl, rfl, rfl, rfl, rfl, rfl, rfl, rfl⟩)
         with_reducible (cases p <;> first
           | exact Or.inl rfl | exact Or.inl ⟨rfl, rfl⟩ | exact Or.inl ⟨rfl, rfl, rfl⟩ | exact Or.inl ⟨rfl, rfl, rfl, rfl⟩ | exact Or.inl ⟨rfl, rfl, rfl, rfl, rfl⟩
           | exact Or.inl ⟨rfl, rfl, rfl, rfl, rfl, rfl⟩ | exact Or.inl ⟨rfl, rfl, rfl, rfl, rfl, rfl, rfl⟩ | exact Or.inl ⟨rfl, rfl, rfl, rfl, rfl, rfl, rfl, rfl, rfl⟩
           | exact Or.inl ⟨rfl, rfl, rfl, rfl, rfl, rfl, rfl, rfl, rfl, rfl, rfl, rfl, rfl, rfl⟩
           | exact Or.inr ⟨hE _ (by decide), True.intro⟩ | exact Or.inr ⟨hE _ (by decide), _, rfl⟩))
    | fail

theorem execLeaseExpiry_ok {I : Inv} {s : State} (hE : I.has [.cmd, .regs, .dict, .irq, .events, .out]) (h : I.P s) {tsn : W32}  :
    I.ok (execLeaseExpiry tsn s) := by
  unfold execLeaseExpiry
  repeat' first
    | with_reducible assumption
    | (extract_lets +onlyGivenNames v
       first
         | (have hv : I.P v := by
              dsimp only [v]
              repeat' first
                | with_reducible assumption
                | with_reducible refine Inv.ok_act ?_ ?_
                | with_reducible refine Inv.ok_next ?_
                | with_reducible exact Inv.ok_refused _
                | with_reducible refine Inv.ok_ite ?_ ?_
                | with_reducible refine State.raiseInt_keeps (hE.sub rfl) ?_
                | with_reducible refine State.countOd_keeps (hE.sub rfl) ?_
                | with_reducible refine State.eventAt_keeps (hE.sub rfl) ?_
                | with_reducible refine State.modCmd_keeps (hE.sub rfl) ?_
                | with_reducible refine State.modJob_keeps (hE.sub rfl) ?_
                | with_reducible refine Inv.ite ?_ ?_
                | split
                | intro _
                | dsimp only
                | (with_reducible refine Inv.set (fun p => ?_) ?_
                   · fail_if_success with_reducible (cases p <;> first
                       | exact Or.inl rfl | exact Or.inl ⟨rfl, rfl⟩ | exact Or.inl ⟨rfl, rfl, rfl⟩ | exact Or.inl ⟨rfl, rfl, rfl, rfl⟩ | exact Or.inl ⟨rfl, rfl, rfl, rfl, rfl⟩
                       | exact Or.inl ⟨rfl, rfl, rfl, rfl, rfl, rfl⟩ | exact Or.inl ⟨rfl, rfl, rfl, rfl, rfl, rfl, rfl⟩ | exact Or.inl ⟨rfl, rfl, rfl, rfl, rfl, rfl, rfl, rfl, rfl⟩
                       | exact Or.inl ⟨rfl, rfl, rfl, rfl, rfl, rfl, rfl, rfl, rfl, rfl, rfl, rfl, rfl, rfl⟩)
                     with_reducible (cases p <;> first
                       | exact Or.inl rfl | exact Or.inl ⟨rfl, rfl⟩ | exact Or.inl ⟨rfl, rfl, rfl⟩ | exact Or.inl ⟨rfl, rfl, rfl, rfl⟩ | exact Or.inl ⟨rfl, rfl, rfl, rfl, rfl⟩
                       | exact Or.inl ⟨rfl, rfl, rfl, rfl, rfl, rfl⟩ | exact Or.inl ⟨rfl, rfl, rfl, rfl, rfl, rfl, rfl⟩ | exact Or.inl ⟨rfl, rfl, rfl, rfl, rfl, rfl, rfl, rfl, rfl⟩
                       | exact Or.inl ⟨rfl, rfl, rfl, rfl, rfl, rfl, rfl, rfl, rfl, rfl, rfl, rfl, rfl, rfl⟩
                       | exact Or.inr ⟨hE _ (by decide), True.intro⟩ | exact Or.inr ⟨hE _ (by decide), _, rfl⟩))
                | fail
            clear_value v)
         | (try dsimp only [v]
            clear v))
    | with_reducible refine Inv.ok_act ?_ ?_
    | with_reducible refine Inv.ok_next ?_
    | with_reducible exact Inv.ok_refused _
    | with_reducible refine Inv.ok_ite ?_ ?_
    | with_reducible refine State.raiseInt_keeps (hE.sub rfl) ?_
    | with_reducible refine State.countOd_keeps (hE.sub rfl) ?_
    | with_reducible refine State.eventAt_keeps (hE.sub rfl) ?_
    | with_reducible refine State.modCmd_keeps (hE.sub rfl) ?_
    | with_reducible refine State.modJob_keeps (hE.sub rfl) ?_
    | with_reducible refine Inv.ite ?_ ?_
    | split
    | intro _
    | dsimp only
    | (with_reducible refine Inv.set (fun p => ?_) ?_
       · fail_if_success with_reducible (cases p <;> first
           | exact Or.inl rfl | exact Or.inl ⟨rfl, rfl⟩ | exact Or.inl ⟨rfl, rfl, rfl⟩ | exact Or.inl ⟨rfl, rfl, rfl, rfl⟩ | exact Or.inl ⟨rfl, rfl, rfl, rfl, rfl⟩
           | exact Or.inl ⟨rfl, rfl, rfl, rfl, rfl, rfl⟩ | exact Or.inl ⟨rfl, rfl, rfl, rfl, rfl, rfl, rfl⟩ | exact Or.inl ⟨rfl, rfl, rfl, rfl, rfl, rfl, rfl, rfl, rfl⟩
           | exact Or.inl ⟨rfl, rfl, rfl, rfl, rfl, rfl, rfl, rfl, rfl, rfl, rfl, rfl, rfl, rfl⟩)
         with_reducible (cases p <;> first
           | exact Or.inl rfl | exact Or.inl ⟨rfl, rfl⟩ | exact Or.inl ⟨rfl, rfl, rfl⟩ | exact Or.inl ⟨rfl, rfl, rfl, rfl⟩ | exact Or.inl ⟨rfl, rfl, rfl, rfl, rfl⟩
           | exact Or.inl ⟨rfl, rfl, rfl, rfl, rfl, rfl⟩ | exact Or.inl ⟨rfl, rfl, rfl, rfl, rfl, rfl, rfl⟩ | exact Or.inl ⟨rfl, rfl, rfl, rfl, rfl, rfl, rfl, rfl, rfl⟩
           | exact Or.inl ⟨rfl, rfl, rfl, rfl, rfl, rfl, rfl, rfl, rfl, rfl, rfl, rfl, rfl, rfl⟩
           | exact Or.inr ⟨hE _ (by decide), True.intro⟩ | exact Or.inr ⟨hE _ (by decide), _, rfl⟩))
    | fail

theorem execClockGlideStep_ok {I : Inv} {s : State} (hE : I.has [.cores]) (h : I.P s) {core : CoreIx}  :
    I.ok (execClockGlideStep core s) := by
  unfold execClockGlideStep
  try dsimp only
  repeat' first
    | with_reducible assumption
    | with_reducible refine Inv.ok_act ?_ ?_
    | with_reducible refine Inv.ok_next ?_
    | with_reducible exact Inv.ok_refused _
    | with_reducible refine Inv.ok_ite ?_ ?_
    | with_reducible refine State.modCore_keeps (hE.sub rfl) ?_
    | with_reducible refine Inv.ite ?_ ?_
    | split
    | intro _
    | dsimp only

theorem execSandFillStep_ok {I : Inv} {s : State} (hE : I.has [.cores, .regs]) (h : I.P s) {core : CoreIx} {ope : Fin 8} {quad : Option (Fin 4)}  :
    I.ok (execSandFillStep core ope quad s) := by
  unfold execSandFillStep
  try dsimp only
  repeat' first
    | with_reducible assumption
    | with_reducible refine Inv.ok_act ?_ ?_
    | with_reducible refine Inv.ok_next ?_
    | with_reducible exact Inv.ok_refused _
    | with_reducible refine Inv.ok_ite ?_ ?_
    | with_reducible refine State.modCore_keeps (hE.sub rfl) ?_
    | with_reducible refine State.count64_keeps (hE.sub rfl) ?_
    | with_reducible refine Inv.ite ?_ ?_
    | split
    | intro _
    | dsimp only

theorem execCoreTmDataAccess_ok {I : Inv} {s : State} (hE : I.has [.cores, .cmd, .regs, .irq, .events, .out]) (h : I.P s) {core : CoreIx} {write : Option W32}  :
    I.ok (execCoreTmDataAccess core write s) := by
  unfold execCoreTmDataAccess
  repeat' first
    | with_reducible assumption
    | (extract_lets +onlyGivenNames v
       first
         | (have hv : I.P v := by
              dsimp only [v]
              repeat' first
                | with_reducible assumption
                | with_reducible refine Inv.ok_act ?_ ?_
                | with_reducible refine Inv.ok_next ?_
                | with_reducible exact Inv.ok_refused _
                | with_reducible refine Inv.ok_ite ?_ ?_
                | with_reducible refine State.tmUncorrectable_keeps (hE.sub rfl) ?_
                | with_reducible refine State.tmCorrectedAt_keeps (hE.sub rfl) ?_
                | with_reducible refine State.modCore_keeps (hE.sub rfl) ?_
                | with_reducible refine State.setReg_keeps (hE.sub rfl) ?_
                | with_reducible refine State.send_keeps (hE.sub rfl) ?_
                | with_reducible refine Inv.ite ?_ ?_
                | split
                | intro _
                | dsimp only
            clear_value v)
         | (try dsimp only [v]
            clear v))
    | with_reducible refine Inv.ok_act ?_ ?_
    | with_reducible refine Inv.ok_next ?_
    | with_reducible exact Inv.ok_refused _
    | with_reducible refine Inv.ok_ite ?_ ?_
    | with_reducible refine State.tmUncorrectable_keeps (hE.sub rfl) ?_
    | with_reducible refine State.tmCorrectedAt_keeps (hE.sub rfl) ?_
    | with_reducible refine State.modCore_keeps (hE.sub rfl) ?_
    | with_reducible refine State.setReg_keeps (hE.sub rfl) ?_
    | with_reducible refine State.send_keeps (hE.sub rfl) ?_
    | with_reducible refine Inv.ite ?_ ?_
    | split
    | intro _
    | dsimp only

end Sys2Proof.Machine
end

