-- ==== Sys2Proof/Laws/KeepsDetect.lean ====
section
/-! SUPPORT. The operations of Machine/Detect.lean keep every predicate that lets their parts change. -/

set_option linter.unreachableTactic false
set_option linter.unusedTactic false

namespace Sys2Proof.Machine

theorem State.finishList_keeps {I : Inv} {s : State} (hE : I.has [.cmd, .det]) (h : I.P s) {d : DetSlot} {kept : List Box}  :
    I.P (State.finishList s d kept) := by
  unfold State.finishList
  try dsimp only
  repeat' first
    | with_reducible assumption
    | intro _
    | with_reducible refine State.modOuts_keeps (hE.sub rfl) ?_
    | with_reducible refine State.modDet_keeps (hE.sub rfl) ?_
    | with_reducible refine Inv.ite ?_ ?_
    | split
    | dsimp only

theorem State.mergeGroup_keeps {I : Inv} {s : State} (hE : I.has [.cmd, .det, .regs, .irq, .events, .out]) (h : I.P s) {d : DetSlot} {kept : List Box}  :
    I.P (State.mergeGroup s d kept) := by
  unfold State.mergeGroup
  try dsimp only
  repeat' first
    | with_reducible assumption
    | intro _
    | with_reducible refine State.detStatusEvent_keeps (hE.sub rfl) ?_
    | with_reducible refine State.finishList_keeps (hE.sub rfl) ?_
    | with_reducible refine State.count32_keeps (hE.sub rfl) ?_
    | with_reducible refine Inv.ite ?_ ?_
    | split
    | dsimp only

theorem State.mergeIfReady_keeps {I : Inv} {s : State} (hE : I.has [.cmd, .det, .regs, .irq, .events, .out]) (h : I.P s) {d : DetSlot}  :
    I.P (State.mergeIfReady s d) := by
  unfold State.mergeIfReady
  try dsimp only
  repeat' first
    | with_reducible assumption
    | intro _
    | with_reducible refine State.mergeGroup_keeps (hE.sub rfl) ?_
    | with_reducible refine Inv.ite ?_ ?_
    | split
    | dsimp only

theorem State.suppressSlot_keeps {I : Inv} {s : State} (hE : I.has [.cmd, .det, .links, .regs, .dict, .doors, .irq, .chain, .ledger, .events, .out, .free]) (h : I.P s) {d : DetSlot}  :
    I.P (State.suppressSlot s d) := by
  unfold State.suppressSlot
  try dsimp only
  repeat' first
    | with_reducible assumption
    | intro _
    | with_reducible refine State.detStatusEvent_keeps (hE.sub rfl) ?_
    | with_reducible refine State.takeDeferred_keeps (hE.sub rfl) ?_
    | with_reducible refine State.mergeIfReady_keeps (hE.sub rfl) ?_
    | with_reducible refine State.chainWatch_keeps (hE.sub rfl) ?_ ?_
    | with_reducible refine State.takeFree_snd (hE.sub rfl) ?_
    | with_reducible refine State.takeFree_keeps (hE.sub rfl) ?_ (by with_reducible assumption)
    | with_reducible refine State.queueMsg_keeps (hE.sub rfl) ?_
    | with_reducible refine State.count32_keeps (hE.sub rfl) ?_
    | with_reducible refine State.modDet_keeps (hE.sub rfl) ?_
    | with_reducible refine State.peak_keeps (hE.sub rfl) ?_
    | with_reducible refine Inv.foldl ?_ ?_
    | with_reducible refine Inv.ite ?_ ?_
    | split
    | dsimp only

theorem execDetSuppress_ok {I : Inv} {s : State} (hE : I.has [.cmd, .det, .links, .regs, .dict, .doors, .irq, .chain, .ledger, .events, .out, .free]) (h : I.P s) {lgn : Int}  :
    I.ok (execDetSuppress lgn s) := by
  unfold execDetSuppress
  try dsimp only
  repeat' first
    | with_reducible assumption
    | with_reducible refine Inv.ok_act ?_ ?_
    | with_reducible refine Inv.ok_next ?_
    | with_reducible exact Inv.ok_refused _
    | with_reducible refine Inv.ok_ite ?_ ?_
    | with_reducible refine State.suppressSlot_keeps (hE.sub rfl) ?_
    | with_reducible refine Inv.ite ?_ ?_
    | split
    | intro _
    | dsimp only

theorem execDetMergeDeadline_ok {I : Inv} {s : State} (hE : I.has [.cmd, .det, .regs, .irq, .events, .out]) (h : I.P s) {lgn : Int}  :
    I.ok (execDetMergeDeadline lgn s) := by
  unfold execDetMergeDeadline
  try dsimp only
  repeat' first
    | with_reducible assumption
    | with_reducible refine Inv.ok_act ?_ ?_
    | with_reducible refine Inv.ok_next ?_
    | with_reducible exact Inv.ok_refused _
    | with_reducible refine Inv.ok_ite ?_ ?_
    | with_reducible refine State.mergeGroup_keeps (hE.sub rfl) ?_
    | with_reducible refine Inv.ite ?_ ?_
    | split
    | intro _
    | dsimp only

theorem State.detMissed_keeps {I : Inv} {s : State} (hE : I.has [.det, .links]) (h : I.P s) {g : Int} {unlisted : Bool}  :
    I.P (State.detMissed s g unlisted) := by
  unfold State.detMissed
  try dsimp only
  repeat' first
    | with_reducible assumption
    | intro _
    | with_reducible refine State.queueMsg_keeps (hE.sub rfl) ?_
    | with_reducible refine State.modDet_keeps (hE.sub rfl) ?_
    | with_reducible refine Inv.foldl ?_ ?_
    | with_reducible refine Inv.ite ?_ ?_
    | split
    | dsimp only

end Sys2Proof.Machine
end

