-- ==== Sys2Proof/Laws/KeepsStreamOps.lean ====
section
/-! SUPPORT. The operations of Machine/StreamOps.lean keep every predicate that lets their parts change. -/

set_option linter.unreachableTactic false
set_option linter.unusedTactic false

namespace Sys2Proof.Machine

theorem State.listSeen_keeps {I : Inv} {s : State} (hE : I.has [.rate, .trim, .regs, .dict, .irq, .poison, .events, .out]) (h : I.P s) {addr : Nat} {n : Nat}  :
    I.P (State.listSeen s addr n) := by
  unfold State.listSeen
  try dsimp only
  repeat' first
    | with_reducible assumption
    | intro _
    | with_reducible refine State.dramSeen_keeps (hE.sub rfl) ?_
    | with_reducible refine Inv.ite ?_ ?_
    | split
    | dsimp only

theorem State.descSeen_keeps {I : Inv} {s : State} (hE : I.has [.rate, .trim, .regs, .dict, .irq, .poison, .events, .out]) (h : I.P s) {addr : Nat}  :
    I.P (State.descSeen s addr) := by
  unfold State.descSeen
  try dsimp only
  repeat' first
    | with_reducible assumption
    | intro _
    | with_reducible refine State.listSeen_keeps (hE.sub rfl) ?_
    | with_reducible refine State.dramSeen_keeps (hE.sub rfl) ?_
    | with_reducible refine Inv.ite ?_ ?_
    | split
    | dsimp only

theorem State.argsSeen_keeps {I : Inv} {s : State} (hE : I.has [.rate, .trim, .regs, .dict, .irq, .poison, .events, .out]) (h : I.P s) {a : Nat}  :
    I.P (State.argsSeen s a) := by
  unfold State.argsSeen
  try dsimp only
  repeat' first
    | with_reducible assumption
    | intro _
    | with_reducible refine State.descSeen_keeps (hE.sub rfl) ?_
    | with_reducible refine State.dramSeen_keeps (hE.sub rfl) ?_
    | with_reducible refine State.count64_keeps (hE.sub rfl) ?_
    | with_reducible refine Inv.foldl ?_ ?_
    | with_reducible refine Inv.ite ?_ ?_
    | split
    | dsimp only

theorem State.spacePut_keeps {I : Inv} {s : State} (hE : I.has [.hostMem, .dram, .oasis, .poison]) (h : I.P s)  {l : Extents} {m : Nat} {n : Marked} :
    I.P (State.spacePut s l m n) := by
  induction l generalizing s m n with
  | nil => simpa only [State.spacePut] using h
  | cons a r ih =>
    simp only [State.spacePut]
    repeat' first
      | with_reducible assumption
      | intro _
      | refine ih ?_
      | with_reducible refine State.writeHost_keeps (hE.sub rfl) ?_
      | with_reducible refine State.putOasis_keeps (hE.sub rfl) ?_
      | with_reducible refine State.putDram_keeps (hE.sub rfl) ?_
      | with_reducible refine Inv.ite ?_ ?_
      | split
      | dsimp only

theorem State.copyMove_keeps {I : Inv} {s : State} (hE : I.has [.rate, .tensors, .cmd, .links, .trim, .regs, .dict, .doors, .irq, .chain, .ledger, .hostMem, .dram, .oasis, .poison, .events, .out, .free]) (h : I.P s) {c : CopyOp}  :
    I.P (State.copyMove s c) := by
  unfold State.copyMove
  try dsimp only
  repeat' first
    | with_reducible assumption
    | intro _
    | with_reducible refine State.streamStatus_keeps (hE.sub rfl) ?_
    | with_reducible refine State.streamUsed_keeps (hE.sub rfl) ?_
    | with_reducible refine State.spaceSeen_keeps (hE.sub rfl) ?_
    | with_reducible refine State.spacePut_keeps (hE.sub rfl) ?_
    | with_reducible refine State.setSync_keeps (hE.sub rfl) ?_
    | with_reducible refine State.count64_keeps (hE.sub rfl) ?_
    | with_reducible refine Inv.ite ?_ ?_
    | split
    | dsimp only

theorem State.regCopyEnd_keeps {I : Inv} {s : State} (hE : I.has [.cmd, .regs, .irq, .events, .out]) (h : I.P s) {result : Nat}  :
    I.P (State.regCopyEnd s result) := by
  unfold State.regCopyEnd
  try dsimp only
  repeat' first
    | with_reducible assumption
    | intro _
    | with_reducible refine State.streamStatus_keeps (hE.sub rfl) ?_
    | with_reducible refine State.modCmd_keeps (hE.sub rfl) ?_
    | with_reducible refine State.setReg_keeps (hE.sub rfl) ?_
    | dsimp only

end Sys2Proof.Machine
end

