-- ==== Sys2Proof/Laws/KeepsStreams.lean ====
section
/-! SUPPORT. The operations of Machine/Streams.lean keep every predicate that lets their parts change. -/

set_option linter.unreachableTactic false
set_option linter.unusedTactic false

namespace Sys2Proof.Machine

theorem execDramRefresh_ok {I : Inv} {s : State} (hE : I.has [.regs, .irq, .events, .out]) (h : I.P s) {_channel : Fin 128} {_bank : Nat}  :
    I.ok (execDramRefresh _channel _bank s) := by
  unfold execDramRefresh
  try dsimp only
  repeat' first
    | with_reducible assumption
    | with_reducible refine Inv.ok_act ?_ ?_
    | with_reducible refine Inv.ok_next ?_
    | with_reducible exact Inv.ok_refused _
    | with_reducible refine Inv.ok_ite ?_ ?_
    | with_reducible refine State.raiseStatus_keeps (hE.sub rfl) ?_
    | with_reducible refine State.setReg_keeps (hE.sub rfl) ?_
    | with_reducible refine Inv.ite ?_ ?_
    | split
    | intro _
    | dsimp only

theorem execDramScrubRead_ok {I : Inv} {s : State} (hE : I.has [.rate, .trim, .regs, .dict, .irq, .poison, .events, .out]) (h : I.P s) {channel : Fin 128} {found : DramRead}  :
    I.ok (execDramScrubRead channel found s) := by
  unfold execDramScrubRead
  repeat' first
    | with_reducible assumption
    | (extract_lets +onlyGivenNames v
       first
         | (have hv : I.P v := by
              dsimp only [v]
              repeat' first
                | with_reducible assumption
                | with_reducible refine Inv.ok_act ?_ ?_
                | with_reducible refine Inv.ok_next ?_
                | with_reducible exact Inv.ok_refused _
                | with_reducible refine Inv.ok_ite ?_ ?_
                | with_reducible refine State.raiseStatus_keeps (hE.sub rfl) ?_
                | with_reducible refine State.poisonDram_keeps (hE.sub rfl) ?_
                | with_reducible refine State.blockSeen_keeps (hE.sub rfl) ?_
                | with_reducible refine State.modTrim_keeps (hE.sub rfl) ?_
                | with_reducible refine State.setReg_keeps (hE.sub rfl) ?_
                | with_reducible refine Inv.foldl ?_ ?_
                | with_reducible refine Inv.ite ?_ ?_
                | split
                | intro _
                | dsimp only
                | (with_reducible refine Inv.set (fun p => ?_) ?_
                   · fail_if_success with_reducible (cases p <;> first
                       | exact Or.inl rfl | exact Or.inl ⟨rfl, rfl⟩ | exact Or.inl ⟨rfl, rfl, rfl⟩ | exact Or.inl ⟨rfl, rfl, rfl, rfl⟩ | exact Or.inl ⟨rfl, rfl, rfl, rfl, rfl⟩
                       | exact Or.inl ⟨rfl, rfl, rfl, rfl, rfl, rfl⟩ | exact Or.inl ⟨rfl, rfl, rfl, rfl, rfl, rfl, rfl⟩ | exact Or.inl ⟨rfl, rfl, rfl, rfl, rfl, rfl, rfl, rfl, rfl⟩
                       | exact Or.inl ⟨rfl, rfl, rfl, rfl, rfl, rfl, rfl, rfl, rfl, rfl, rfl, rfl, rfl, rfl⟩)
                     with_reducible (cases p <;> first
                       | exact Or.inl rfl | exact Or.inl ⟨rfl, rfl⟩ | exact Or.inl ⟨rfl, rfl, rfl⟩ | exact Or.inl ⟨rfl, rfl, rfl, rfl⟩ | exact Or.inl ⟨rfl, rfl, rfl, rfl, rfl⟩
                       | exact Or.inl ⟨rfl, rfl, rfl, rfl, rfl, rfl⟩ | exact Or.inl ⟨rfl, rfl, rfl, rfl, rfl, rfl, rfl⟩ | exact Or.inl ⟨rfl, rfl, rfl, rfl, rfl, rfl, rfl, rfl, rfl⟩
                       | exact Or.inl ⟨rfl, rfl, rfl, rfl, rfl, rfl, rfl, rfl, rfl, rfl, rfl, rfl, rfl, rfl⟩
                       | exact Or.inr ⟨hE _ (by decide), True.intro⟩ | exact Or.inr ⟨hE _ (by decide), _, rfl⟩))
                | fail
            clear_value v)
         | (try dsimp only [v]
            clear v))
    | with_reducible refine Inv.ok_act ?_ ?_
    | with_reducible refine Inv.ok_next ?_
    | with_reducible exact Inv.ok_refused _
    | with_reducible refine Inv.ok_ite ?_ ?_
    | with_reducible refine State.raiseStatus_keeps (hE.sub rfl) ?_
    | with_reducible refine State.poisonDram_keeps (hE.sub rfl) ?_
    | with_reducible refine State.blockSeen_keeps (hE.sub rfl) ?_
    | with_reducible refine State.modTrim_keeps (hE.sub rfl) ?_
    | with_reducible refine State.setReg_keeps (hE.sub rfl) ?_
    | with_reducible refine Inv.foldl ?_ ?_
    | with_reducible refine Inv.ite ?_ ?_
    | split
    | intro _
    | dsimp only
    | (with_reducible refine Inv.set (fun p => ?_) ?_
       · fail_if_success with_reducible (cases p <;> first
           | exact Or.inl rfl | exact Or.inl ⟨rfl, rfl⟩ | exact Or.inl ⟨rfl, rfl, rfl⟩ | exact Or.inl ⟨rfl, rfl, rfl, rfl⟩ | exact Or.inl ⟨rfl, rfl, rfl, rfl, rfl⟩
           | exact Or.inl ⟨rfl, rfl, rfl, rfl, rfl, rfl⟩ | exact Or.inl ⟨rfl, rfl, rfl, rfl, rfl, rfl, rfl⟩ | exact Or.inl ⟨rfl, rfl, rfl, rfl, rfl, rfl, rfl, rfl, rfl⟩
           | exact Or.inl ⟨rfl, rfl, rfl, rfl, rfl, rfl, rfl, rfl, rfl, rfl, rfl, rfl, rfl, rfl⟩)
         with_reducible (cases p <;> first
           | exact Or.inl rfl | exact Or.inl ⟨rfl, rfl⟩ | exact Or.inl ⟨rfl, rfl, rfl⟩ | exact Or.inl ⟨rfl, rfl, rfl, rfl⟩ | exact Or.inl ⟨rfl, rfl, rfl, rfl, rfl⟩
           | exact Or.inl ⟨rfl, rfl, rfl, rfl, rfl, rfl⟩ | exact Or.inl ⟨rfl, rfl, rfl, rfl, rfl, rfl, rfl⟩ | exact Or.inl ⟨rfl, rfl, rfl, rfl, rfl, rfl, rfl, rfl, rfl⟩
           | exact Or.inl ⟨rfl, rfl, rfl, rfl, rfl, rfl, rfl, rfl, rfl, rfl, rfl, rfl, rfl, rfl⟩
           | exact Or.inr ⟨hE _ (by decide), True.intro⟩ | exact Or.inr ⟨hE _ (by decide), _, rfl⟩))
    | fail

theorem execFetchFillStart_ok {I : Inv} {s : State} (hE : I.has [.cmd, .oasis]) (h : I.P s) {stream : Nat} {lgn : Int}  :
    I.ok (execFetchFillStart stream lgn s) := by
  unfold execFetchFillStart
  try dsimp only
  repeat' first
    | with_reducible assumption
    | with_reducible refine Inv.ok_act ?_ ?_
    | with_reducible refine Inv.ok_next ?_
    | with_reducible exact Inv.ok_refused _
    | with_reducible refine Inv.ok_ite ?_ ?_
    | with_reducible refine State.modStream_keeps (hE.sub rfl) ?_
    | with_reducible refine Inv.ite ?_ ?_
    | split
    | intro _
    | dsimp only
    | (with_reducible refine Inv.set (fun p => ?_) ?_
       · fail_if_success with_reducible (cases p <;> first
           | exact Or.inl rfl | exact Or.inl ⟨rfl, rfl⟩ | exact Or.inl ⟨rfl, rfl, rfl⟩ | exact Or.inl ⟨rfl, rfl, rfl, rfl⟩ | exact Or.inl ⟨rfl, rfl, rfl, rfl, rfl⟩
           | exact Or.inl ⟨rfl, rfl, rfl, rfl, rfl, rfl⟩ | exact Or.inl ⟨rfl, rfl, rfl, rfl, rfl, rfl, rfl⟩ | exact Or.inl ⟨rfl, rfl, rfl, rfl, rfl, rfl, rfl, rfl, rfl⟩
           | exact Or.inl ⟨rfl, rfl, rfl, rfl, rfl, rfl, rfl, rfl, rfl, rfl, rfl, rfl, rfl, rfl⟩)
         with_reducible (cases p <;> first
           | exact Or.inl rfl | exact Or.inl ⟨rfl, rfl⟩ | exact Or.inl ⟨rfl, rfl, rfl⟩ | exact Or.inl ⟨rfl, rfl, rfl, rfl⟩ | exact Or.inl ⟨rfl, rfl, rfl, rfl, rfl⟩
           | exact Or.inl ⟨rfl, rfl, rfl, rfl, rfl, rfl⟩ | exact Or.inl ⟨rfl, rfl, rfl, rfl, rfl, rfl, rfl⟩ | exact Or.inl ⟨rfl, rfl, rfl, rfl, rfl, rfl, rfl, rfl, rfl⟩
           | exact Or.inl ⟨rfl, rfl, rfl, rfl, rfl, rfl, rfl, rfl, rfl, rfl, rfl, rfl, rfl, rfl⟩
           | exact Or.inr ⟨hE _ (by decide), True.intro⟩ | exact Or.inr ⟨hE _ (by decide), _, rfl⟩))
    | fail

theorem execFetchFillDone_ok {I : Inv} {s : State} (hE : I.has [.rate, .cmd, .trim, .regs, .dict, .irq, .oasis, .poison, .events, .out, .free]) (h : I.P s) {stream : Nat} {lgn : Int}  :
    I.ok (execFetchFillDone stream lgn s) := by
  unfold execFetchFillDone
  repeat' first
    | with_reducible assumption
    | (extract_lets +onlyGivenNames v
       first
         | (have hv : I.P v := by
              dsimp only [v]
              repeat' first
                | with_reducible assumption
                | with_reducible refine Inv.ok_act ?_ ?_
                | with_reducible refine Inv.ok_next ?_
                | with_reducible exact Inv.ok_refused _
                | with_reducible refine Inv.ok_ite ?_ ?_
                | with_reducible refine State.streamLimited_keeps (hE.sub rfl) ?_
                | with_reducible refine State.streamUsed_keeps (hE.sub rfl) ?_
                | with_reducible refine State.modStream_keeps (hE.sub rfl) ?_
                | with_reducible refine State.oasisUsed_keeps (hE.sub rfl) ?_
                | with_reducible refine State.spaceSeen_keeps (hE.sub rfl) ?_
                | with_reducible refine State.raiseInt_keeps (hE.sub rfl) ?_
                | with_reducible refine State.putOasis_keeps (hE.sub rfl) ?_
                | with_reducible refine State.count64_keeps (hE.sub rfl) ?_
                | with_reducible refine Inv.ite ?_ ?_
                | split
                | intro _
                | dsimp only
            clear_value v)
         | (try dsimp only [v]
            clear v))
    | with_reducible refine Inv.ok_act ?_ ?_
    | with_reducible refine Inv.ok_next ?_
    | with_reducible exact Inv.ok_refused _
    | with_reducible refine Inv.ok_ite ?_ ?_
    | with_reducible refine State.streamLimited_keeps (hE.sub rfl) ?_
    | with_reducible refine State.streamUsed_keeps (hE.sub rfl) ?_
    | with_reducible refine State.modStream_keeps (hE.sub rfl) ?_
    | with_reducible refine State.oasisUsed_keeps (hE.sub rfl) ?_
    | with_reducible refine State.spaceSeen_keeps (hE.sub rfl) ?_
    | with_reducible refine State.raiseInt_keeps (hE.sub rfl) ?_
    | with_reducible refine State.putOasis_keeps (hE.sub rfl) ?_
    | with_reducible refine State.count64_keeps (hE.sub rfl) ?_
    | with_reducible refine Inv.ite ?_ ?_
    | split
    | intro _
    | dsimp only

theorem execSpillStart_ok {I : Inv} {s : State} (hE : I.has [.cmd]) (h : I.P s) {stream : Nat} {lgn : Int}  :
    I.ok (execSpillStart stream lgn s) := by
  unfold execSpillStart
  try dsimp only
  repeat' first
    | with_reducible assumption
    | with_reducible refine Inv.ok_act ?_ ?_
    | with_reducible refine Inv.ok_next ?_
    | with_reducible exact Inv.ok_refused _
    | with_reducible refine Inv.ok_ite ?_ ?_
    | with_reducible refine State.modStream_keeps (hE.sub rfl) ?_
    | with_reducible refine Inv.ite ?_ ?_
    | split
    | intro _
    | dsimp only

theorem execSpillDone_ok {I : Inv} {s : State} (hE : I.has [.rate, .tensors, .cmd, .links, .trim, .regs, .dict, .doors, .irq, .chain, .ledger, .hostMem, .dram, .oasis, .poison, .events, .out, .free]) (h : I.P s) {stream : Nat} {lgn : Int}  :
    I.ok (execSpillDone stream lgn s) := by
  unfold execSpillDone
  repeat' first
    | with_reducible assumption
    | (extract_lets +onlyGivenNames v
       first
         | (have hv : I.P v := by
              dsimp only [v]
              repeat' first
                | with_reducible assumption
                | with_reducible refine Inv.ok_act ?_ ?_
                | with_reducible refine Inv.ok_next ?_
                | with_reducible exact Inv.ok_refused _
                | with_reducible refine Inv.ok_ite ?_ ?_
                | with_reducible refine State.streamLimited_keeps (hE.sub rfl) ?_
                | with_reducible refine State.streamUsed_keeps (hE.sub rfl) ?_
                | with_reducible refine State.oasisSeen_keeps (hE.sub rfl) ?_
                | with_reducible refine State.modStream_keeps (hE.sub rfl) ?_
                | with_reducible refine State.spacePut_keeps (hE.sub rfl) ?_
                | with_reducible refine State.setSync_keeps (hE.sub rfl) ?_
                | with_reducible refine State.count64_keeps (hE.sub rfl) ?_
                | with_reducible refine State.modCmd_keeps (hE.sub rfl) ?_
                | with_reducible refine Inv.ite ?_ ?_
                | split
                | intro _
                | dsimp only
                | (with_reducible refine Inv.set (fun p => ?_) ?_
                   · fail_if_success with_reducible (cases p <;> first
                       | exact Or.inl rfl | exact Or.inl ⟨rfl, rfl⟩ | exact Or.inl ⟨rfl, rfl, rfl⟩ | exact Or.inl ⟨rfl, rfl, rfl, rfl⟩ | exact Or.inl ⟨rfl, rfl, rfl, rfl, rfl⟩
                       | exact Or.inl ⟨rfl, rfl, rfl, rfl, rfl, rfl⟩ | exact Or.inl ⟨rfl, rfl, rfl, rfl, rfl, rfl, rfl⟩ | exact Or.inl ⟨rfl, rfl, rfl, rfl, rfl, rfl, rfl, rfl, rfl⟩
                       | exact Or.inl ⟨rfl, rfl, rfl, rfl, rfl, rfl, rfl, rfl, rfl, rfl, rfl, rfl, rfl, rfl⟩)
                     with_reducible (cases p <;> first
                       | exact Or.inl rfl | exact Or.inl ⟨rfl, rfl⟩ | exact Or.inl ⟨rfl, rfl, rfl⟩ | exact Or.inl ⟨rfl, rfl, rfl, rfl⟩ | exact Or.inl ⟨rfl, rfl, rfl, rfl, rfl⟩
                       | exact Or.inl ⟨rfl, rfl, rfl, rfl, rfl, rfl⟩ | exact Or.inl ⟨rfl, rfl, rfl, rfl, rfl, rfl, rfl⟩ | exact Or.inl ⟨rfl, rfl, rfl, rfl, rfl, rfl, rfl, rfl, rfl⟩
                       | exact Or.inl ⟨rfl, rfl, rfl, rfl, rfl, rfl, rfl, rfl, rfl, rfl, rfl, rfl, rfl, rfl⟩
                       | exact Or.inr ⟨hE _ (by decide), True.intro⟩ | exact Or.inr ⟨hE _ (by decide), _, rfl⟩))
                | fail
            clear_value v)
         | (try dsimp only [v]
            clear v))
    | with_reducible refine Inv.ok_act ?_ ?_
    | with_reducible refine Inv.ok_next ?_
    | with_reducible exact Inv.ok_refused _
    | with_reducible refine Inv.ok_ite ?_ ?_
    | with_reducible refine State.streamLimited_keeps (hE.sub rfl) ?_
    | with_reducible refine State.streamUsed_keeps (hE.sub rfl) ?_
    | with_reducible refine State.oasisSeen_keeps (hE.sub rfl) ?_
    | with_reducible refine State.modStream_keeps (hE.sub rfl) ?_
    | with_reducible refine State.spacePut_keeps (hE.sub rfl) ?_
    | with_reducible refine State.setSync_keeps (hE.sub rfl) ?_
    | with_reducible refine State.count64_keeps (hE.sub rfl) ?_
    | with_reducible refine State.modCmd_keeps (hE.sub rfl) ?_
    | with_reducible refine Inv.ite ?_ ?_
    | split
    | intro _
    | dsimp only
    | (with_reducible refine Inv.set (fun p => ?_) ?_
       · fail_if_success with_reducible (cases p <;> first
           | exact Or.inl rfl | exact Or.inl ⟨rfl, rfl⟩ | exact Or.inl ⟨rfl, rfl, rfl⟩ | exact Or.inl ⟨rfl, rfl, rfl, rfl⟩ | exact Or.inl ⟨rfl, rfl, rfl, rfl, rfl⟩
           | exact Or.inl ⟨rfl, rfl, rfl, rfl, rfl, rfl⟩ | exact Or.inl ⟨rfl, rfl, rfl, rfl, rfl, rfl, rfl⟩ | exact Or.inl ⟨rfl, rfl, rfl, rfl, rfl, rfl, rfl, rfl, rfl⟩
           | exact Or.inl ⟨rfl, rfl, rfl, rfl, rfl, rfl, rfl, rfl, rfl, rfl, rfl, rfl, rfl, rfl⟩)
         with_reducible (cases p <;> first
           | exact Or.inl rfl | exact Or.inl ⟨rfl, rfl⟩ | exact Or.inl ⟨rfl, rfl, rfl⟩ | exact Or.inl ⟨rfl, rfl, rfl, rfl⟩ | exact Or.inl ⟨rfl, rfl, rfl, rfl, rfl⟩
           | exact Or.inl ⟨rfl, rfl, rfl, rfl, rfl, rfl⟩ | exact Or.inl ⟨rfl, rfl, rfl, rfl, rfl, rfl, rfl⟩ | exact Or.inl ⟨rfl, rfl, rfl, rfl, rfl, rfl, rfl, rfl, rfl⟩
           | exact Or.inl ⟨rfl, rfl, rfl, rfl, rfl, rfl, rfl, rfl, rfl, rfl, rfl, rfl, rfl, rfl⟩
           | exact Or.inr ⟨hE _ (by decide), True.intro⟩ | exact Or.inr ⟨hE _ (by decide), _, rfl⟩))
    | fail

theorem State.bindJob_keeps {I : Inv} {s : State} (hE : I.has [.cmd]) (h : I.P s) {c : Cmd} {args : List Arg} {streams : List Stream}  :
    I.P (State.bindJob s c args streams) := by
  unfold State.bindJob
  try dsimp only
  repeat' first
    | with_reducible assumption
    | intro _
    | with_reducible refine State.mapCmds_keeps (hE.sub rfl) ?_
    | with_reducible refine State.modCmd_keeps (hE.sub rfl) ?_
    | dsimp only
    | (with_reducible refine Inv.set (fun p => ?_) ?_
       · fail_if_success with_reducible (cases p <;> first
           | exact Or.inl rfl | exact Or.inl ⟨rfl, rfl⟩ | exact Or.inl ⟨rfl, rfl, rfl⟩ | exact Or.inl ⟨rfl, rfl, rfl, rfl⟩ | exact Or.inl ⟨rfl, rfl, rfl, rfl, rfl⟩
           | exact Or.inl ⟨rfl, rfl, rfl, rfl, rfl, rfl⟩ | exact Or.inl ⟨rfl, rfl, rfl, rfl, rfl, rfl, rfl⟩ | exact Or.inl ⟨rfl, rfl, rfl, rfl, rfl, rfl, rfl, rfl, rfl⟩
           | exact Or.inl ⟨rfl, rfl, rfl, rfl, rfl, rfl, rfl, rfl, rfl, rfl, rfl, rfl, rfl, rfl⟩)
         with_reducible (cases p <;> first
           | exact Or.inl rfl | exact Or.inl ⟨rfl, rfl⟩ | exact Or.inl ⟨rfl, rfl, rfl⟩ | exact Or.inl ⟨rfl, rfl, rfl, rfl⟩ | exact Or.inl ⟨rfl, rfl, rfl, rfl, rfl⟩
           | exact Or.inl ⟨rfl, rfl, rfl, rfl, rfl, rfl⟩ | exact Or.inl ⟨rfl, rfl, rfl, rfl, rfl, rfl, rfl⟩ | exact Or.inl ⟨rfl, rfl, rfl, rfl, rfl, rfl, rfl, rfl, rfl⟩
           | exact Or.inl ⟨rfl, rfl, rfl, rfl, rfl, rfl, rfl, rfl, rfl, rfl, rfl, rfl, rfl, rfl⟩
           | exact Or.inr ⟨hE _ (by decide), True.intro⟩ | exact Or.inr ⟨hE _ (by decide), _, rfl⟩))
    | fail

theorem State.noteStop_keeps {I : Inv} {s : State} (hE : I.has [.cmd, .regs]) (h : I.P s) {q : Nat} {c : Option Cmd}  :
    I.P (State.noteStop s q c) := by
  unfold State.noteStop
  try dsimp only
  repeat' first
    | with_reducible assumption
    | intro _
    | with_reducible refine State.count64_keeps (hE.sub rfl) ?_
    | with_reducible refine State.modCmd_keeps (hE.sub rfl) ?_
    | with_reducible refine Inv.ite ?_ ?_
    | split
    | dsimp only
    | (with_reducible refine Inv.set (fun p => ?_) ?_
       · fail_if_success with_reducible (cases p <;> first
           | exact Or.inl rfl | exact Or.inl ⟨rfl, rfl⟩ | exact Or.inl ⟨rfl, rfl, rfl⟩ | exact Or.inl ⟨rfl, rfl, rfl, rfl⟩ | exact Or.inl ⟨rfl, rfl, rfl, rfl, rfl⟩
           | exact Or.inl ⟨rfl, rfl, rfl, rfl, rfl, rfl⟩ | exact Or.inl ⟨rfl, rfl, rfl, rfl, rfl, rfl, rfl⟩ | exact Or.inl ⟨rfl, rfl, rfl, rfl, rfl, rfl, rfl, rfl, rfl⟩
           | exact Or.inl ⟨rfl, rfl, rfl, rfl, rfl, rfl, rfl, rfl, rfl, rfl, rfl, rfl, rfl, rfl⟩)
         with_reducible (cases p <;> first
           | exact Or.inl rfl | exact Or.inl ⟨rfl, rfl⟩ | exact Or.inl ⟨rfl, rfl, rfl⟩ | exact Or.inl ⟨rfl, rfl, rfl, rfl⟩ | exact Or.inl ⟨rfl, rfl, rfl, rfl, rfl⟩
           | exact Or.inl ⟨rfl, rfl, rfl, rfl, rfl, rfl⟩ | exact Or.inl ⟨rfl, rfl, rfl, rfl, rfl, rfl, rfl⟩ | exact Or.inl ⟨rfl, rfl, rfl, rfl, rfl, rfl, rfl, rfl, rfl⟩
           | exact Or.inl ⟨rfl, rfl, rfl, rfl, rfl, rfl, rfl, rfl, rfl, rfl, rfl, rfl, rfl, rfl⟩
           | exact Or.inr ⟨hE _ (by decide), True.intro⟩ | exact Or.inr ⟨hE _ (by decide), _, rfl⟩))
    | fail

theorem execStreamRunahead_ok {I : Inv} {s : State} (hE : I.has [.rate, .cmd, .trim, .regs, .dict, .irq, .poison, .events, .out]) (h : I.P s) {queue : QueueIx}  :
    I.ok (execStreamRunahead queue s) := by
  unfold execStreamRunahead
  try dsimp only
  repeat' first
    | with_reducible assumption
    | with_reducible refine Inv.ok_act ?_ ?_
    | with_reducible refine Inv.ok_next ?_
    | with_reducible exact Inv.ok_refused _
    | with_reducible refine Inv.ok_ite ?_ ?_
    | with_reducible refine State.argsSeen_keeps (hE.sub rfl) ?_
    | with_reducible refine State.noteStop_keeps (hE.sub rfl) ?_
    | with_reducible refine State.bindJob_keeps (hE.sub rfl) ?_
    | with_reducible refine State.mapCmds_keeps (hE.sub rfl) ?_
    | with_reducible refine Inv.ite ?_ ?_
    | split
    | intro _
    | dsimp only

theorem State.mcastCut_keeps {I : Inv} {s : State} (hE : I.has [.cmd, .regs, .irq, .events, .out]) (h : I.P s) {x : Stream} {n : Nat} {g : Int}  :
    I.P (State.mcastCut s x n g) := by
  unfold State.mcastCut
  try dsimp only
  repeat' first
    | with_reducible assumption
    | intro _
    | with_reducible refine State.streamLimited_keeps (hE.sub rfl) ?_
    | with_reducible refine State.count64_keeps (hE.sub rfl) ?_
    | with_reducible refine Inv.ite ?_ ?_
    | split
    | dsimp only

theorem execMcastDeliveryStart_ok {I : Inv} {s : State} (hE : I.has [.rate, .cores, .cmd, .trim, .regs, .dict, .irq, .poison, .events, .out, .free]) (h : I.P s) {stream : Nat}  :
    I.ok (execMcastDeliveryStart stream s) := by
  unfold execMcastDeliveryStart
  repeat' first
    | with_reducible assumption
    | (extract_lets +onlyGivenNames v
       first
         | (have hv : I.P v := by
              dsimp only [v]
              repeat' first
                | with_reducible assumption
                | with_reducible refine Inv.ok_act ?_ ?_
                | with_reducible refine Inv.ok_next ?_
                | with_reducible exact Inv.ok_refused _
                | with_reducible refine Inv.ok_ite ?_ ?_
                | with_reducible refine State.readCopies_keeps (hE.sub rfl) ?_
                | with_reducible refine State.modStream_keeps (hE.sub rfl) ?_
                | with_reducible refine State.mcastCut_keeps (hE.sub rfl) ?_
                | with_reducible refine State.count64_keeps (hE.sub rfl) ?_
                | with_reducible refine State.deliver_keeps (hE.sub rfl) ?_
                | with_reducible refine Inv.foldl ?_ ?_
                | with_reducible refine Inv.ite ?_ ?_
                | split
                | intro _
                | dsimp only
            clear_value v)
         | (try dsimp only [v]
            clear v))
    | with_reducible refine Inv.ok_act ?_ ?_
    | with_reducible refine Inv.ok_next ?_
    | with_reducible exact Inv.ok_refused _
    | with_reducible refine Inv.ok_ite ?_ ?_
    | with_reducible refine State.readCopies_keeps (hE.sub rfl) ?_
    | with_reducible refine State.modStream_keeps (hE.sub rfl) ?_
    | with_reducible refine State.mcastCut_keeps (hE.sub rfl) ?_
    | with_reducible refine State.count64_keeps (hE.sub rfl) ?_
    | with_reducible refine State.deliver_keeps (hE.sub rfl) ?_
    | with_reducible refine Inv.foldl ?_ ?_
    | with_reducible refine Inv.ite ?_ ?_
    | split
    | intro _
    | dsimp only

theorem execMcastCutout_ok {I : Inv} {s : State} (hE : I.has [.cmd, .regs, .irq, .events, .out, .free]) (h : I.P s) {stream : Nat} {core : CoreIx}  :
    I.ok (execMcastCutout stream core s) := by
  unfold execMcastCutout
  try dsimp only
  repeat' first
    | with_reducible assumption
    | with_reducible refine Inv.ok_act ?_ ?_
    | with_reducible refine Inv.ok_next ?_
    | with_reducible exact Inv.ok_refused _
    | with_reducible refine Inv.ok_ite ?_ ?_
    | with_reducible refine State.modStream_keeps (hE.sub rfl) ?_
    | with_reducible refine State.mcastCut_keeps (hE.sub rfl) ?_
    | with_reducible refine State.takeFree_snd (hE.sub rfl) ?_
    | with_reducible refine State.takeFree_keeps (hE.sub rfl) ?_ (by with_reducible assumption)
    | with_reducible refine State.count64_keeps (hE.sub rfl) ?_
    | with_reducible refine Inv.ite ?_ ?_
    | split
    | intro _
    | dsimp only

theorem State.ringLine_keeps {I : Inv} {s : State} (hE : I.has [.fsPorts, .oasis, .poison]) (h : I.P s) {c : PortIx} {m : Int} {line : Marked}  :
    I.P (State.ringLine s c m line) := by
  unfold State.ringLine
  try dsimp only
  repeat' first
    | with_reducible assumption
    | intro _
    | with_reducible refine State.putOasis_keeps (hE.sub rfl) ?_
    | with_reducible refine State.modFs_keeps (hE.sub rfl) ?_
    | with_reducible refine Inv.ite ?_ ?_
    | split
    | dsimp only

theorem State.linePoison_keeps {I : Inv} {s : State} (hE : I.has [.cmd, .regs, .irq, .events, .out]) (h : I.P s) {c : PortIx} {m : Int}  :
    I.P (State.linePoison s c m) := by
  unfold State.linePoison
  try dsimp only
  repeat' first
    | with_reducible assumption
    | intro _
    | with_reducible refine State.raiseStatusAt_keeps (hE.sub rfl) ?_
    | with_reducible refine State.raiseInt_keeps (hE.sub rfl) ?_
    | with_reducible refine State.modCmd_keeps (hE.sub rfl) ?_
    | with_reducible refine Inv.ite ?_ ?_
    | split
    | dsimp only
    | (with_reducible refine Inv.set (fun p => ?_) ?_
       · fail_if_success with_reducible (cases p <;> first
           | exact Or.inl rfl | exact Or.inl ⟨rfl, rfl⟩ | exact Or.inl ⟨rfl, rfl, rfl⟩ | exact Or.inl ⟨rfl, rfl, rfl, rfl⟩ | exact Or.inl ⟨rfl, rfl, rfl, rfl, rfl⟩
           | exact Or.inl ⟨rfl, rfl, rfl, rfl, rfl, rfl⟩ | exact Or.inl ⟨rfl, rfl, rfl, rfl, rfl, rfl, rfl⟩ | exact Or.inl ⟨rfl, rfl, rfl, rfl, rfl, rfl, rfl, rfl, rfl⟩
           | exact Or.inl ⟨rfl, rfl, rfl, rfl, rfl, rfl, rfl, rfl, rfl, rfl, rfl, rfl, rfl, rfl⟩)
         with_reducible (cases p <;> first
           | exact Or.inl rfl | exact Or.inl ⟨rfl, rfl⟩ | exact Or.inl ⟨rfl, rfl, rfl⟩ | exact Or.inl ⟨rfl, rfl, rfl, rfl⟩ | exact Or.inl ⟨rfl, rfl, rfl, rfl, rfl⟩
           | exact Or.inl ⟨rfl, rfl, rfl, rfl, rfl, rfl⟩ | exact Or.inl ⟨rfl, rfl, rfl, rfl, rfl, rfl, rfl⟩ | exact Or.inl ⟨rfl, rfl, rfl, rfl, rfl, rfl, rfl, rfl, rfl⟩
           | exact Or.inl ⟨rfl, rfl, rfl, rfl, rfl, rfl, rfl, rfl, rfl, rfl, rfl, rfl, rfl, rfl⟩
           | exact Or.inr ⟨hE _ (by decide), True.intro⟩ | exact Or.inr ⟨hE _ (by decide), _, rfl⟩))
    | fail

theorem execLandingCopy_ok {I : Inv} {s : State} (hE : I.has [.rate, .fsPorts, .cmd, .regs, .irq, .dram, .oasis, .poison, .events, .out, .free]) (h : I.P s) {port : PortIx}  :
    I.ok (execLandingCopy port s) := by
  unfold execLandingCopy
  repeat' first
    | with_reducible assumption
    | (extract_lets +onlyGivenNames v
       first
         | (have hv : I.P v := by
              dsimp only [v]
              repeat' first
                | with_reducible assumption
                | with_reducible refine Inv.ok_act ?_ ?_
                | with_reducible refine Inv.ok_next ?_
                | with_reducible exact Inv.ok_refused _
                | with_reducible refine Inv.ok_ite ?_ ?_
                | with_reducible refine State.streamStatus_keeps (hE.sub rfl) ?_
                | with_reducible refine State.linePoison_keeps (hE.sub rfl) ?_
                | with_reducible refine State.streamUsed_keeps (hE.sub rfl) ?_
                | with_reducible refine State.oasisSeen_keeps (hE.sub rfl) ?_
                | with_reducible refine State.ringLine_keeps (hE.sub rfl) ?_
                | with_reducible refine State.count64_keeps (hE.sub rfl) ?_
                | with_reducible refine State.putDram_keeps (hE.sub rfl) ?_
                | with_reducible refine State.modFs_keeps (hE.sub rfl) ?_
                | with_reducible refine State.peak_keeps (hE.sub rfl) ?_
                | with_reducible refine Inv.ite ?_ ?_
                | split
                | intro _
                | dsimp only
            clear_value v)
         | (try dsimp only [v]
            clear v))
    | with_reducible refine Inv.ok_act ?_ ?_
    | with_reducible refine Inv.ok_next ?_
    | with_reducible exact Inv.ok_refused _
    | with_reducible refine Inv.ok_ite ?_ ?_
    | with_reducible refine State.streamStatus_keeps (hE.sub rfl) ?_
    | with_reducible refine State.linePoison_keeps (hE.sub rfl) ?_
    | with_reducible refine State.streamUsed_keeps (hE.sub rfl) ?_
    | with_reducible refine State.oasisSeen_keeps (hE.sub rfl) ?_
    | with_reducible refine State.ringLine_keeps (hE.sub rfl) ?_
    | with_reducible refine State.count64_keeps (hE.sub rfl) ?_
    | with_reducible refine State.putDram_keeps (hE.sub rfl) ?_
    | with_reducible refine State.modFs_keeps (hE.sub rfl) ?_
    | with_reducible refine State.peak_keeps (hE.sub rfl) ?_
    | with_reducible refine Inv.ite ?_ ?_
    | split
    | intro _
    | dsimp only

theorem execExtensionRefill_ok {I : Inv} {s : State} (hE : I.has [.rate, .fsPorts, .cmd, .trim, .regs, .dict, .irq, .oasis, .poison, .events, .out, .free]) (h : I.P s) {port : PortIx}  :
    I.ok (execExtensionRefill port s) := by
  unfold execExtensionRefill
  repeat' first
    | with_reducible assumption
    | (extract_lets +onlyGivenNames v
       first
         | (have hv : I.P v := by
              dsimp only [v]
              repeat' first
                | with_reducible assumption
                | with_reducible refine Inv.ok_act ?_ ?_
                | with_reducible refine Inv.ok_next ?_
                | with_reducible exact Inv.ok_refused _
                | with_reducible refine Inv.ok_ite ?_ ?_
                | with_reducible refine State.streamUsed_keeps (hE.sub rfl) ?_
                | with_reducible refine State.linePoison_keeps (hE.sub rfl) ?_
                | with_reducible refine State.ringLine_keeps (hE.sub rfl) ?_
                | with_reducible refine State.dramSeen_keeps (hE.sub rfl) ?_
                | with_reducible refine State.count64_keeps (hE.sub rfl) ?_
                | with_reducible refine State.modFs_keeps (hE.sub rfl) ?_
                | with_reducible refine Inv.ite ?_ ?_
                | split
                | intro _
                | dsimp only
            clear_value v)
         | (try dsimp only [v]
            clear v))
    | with_reducible refine Inv.ok_act ?_ ?_
    | with_reducible refine Inv.ok_next ?_
    | with_reducible exact Inv.ok_refused _
    | with_reducible refine Inv.ok_ite ?_ ?_
    | with_reducible refine State.streamUsed_keeps (hE.sub rfl) ?_
    | with_reducible refine State.linePoison_keeps (hE.sub rfl) ?_
    | with_reducible refine State.ringLine_keeps (hE.sub rfl) ?_
    | with_reducible refine State.dramSeen_keeps (hE.sub rfl) ?_
    | with_reducible refine State.count64_keeps (hE.sub rfl) ?_
    | with_reducible refine State.modFs_keeps (hE.sub rfl) ?_
    | with_reducible refine Inv.ite ?_ ?_
    | split
    | intro _
    | dsimp only

theorem State.recordSeen_keeps {I : Inv} {s : State} (hE : I.has [.rate, .trim, .regs, .dict, .irq, .poison, .events, .out, .free]) (h : I.P s) {tag : Nat} {o : OutStream} {r : ReadyRec}  :
    I.P (State.recordSeen s tag o r) := by
  unfold State.recordSeen
  try dsimp only
  repeat' first
    | with_reducible assumption
    | intro _
    | with_reducible refine State.oasisSeen_keeps (hE.sub rfl) ?_
    | with_reducible refine State.spaceSeen_keeps (hE.sub rfl) ?_
    | with_reducible refine Inv.ite ?_ ?_
    | split
    | dsimp only

theorem State.writeRecord_keeps {I : Inv} {s : State} (hE : I.has [.rate, .cmd, .trim, .regs, .dict, .irq, .hostMem, .poison, .events, .out, .free]) (h : I.P s) {ring : ResIx} {tag : Nat} {o : OutStream} {r : ReadyRec}  :
    I.P (State.writeRecord s ring tag o r) := by
  unfold State.writeRecord
  repeat' first
    | with_reducible assumption
    | (extract_lets +onlyGivenNames v
       first
         | (have hv : I.P v := by
              dsimp only [v]
              repeat' first
                | with_reducible assumption
                | intro _
                | with_reducible refine State.streamUsed_keeps (hE.sub rfl) ?_
                | with_reducible refine State.recordSeen_keeps (hE.sub rfl) ?_
                | with_reducible refine State.resultPut_keeps (hE.sub rfl) ?_
                | with_reducible refine State.spoolFree_keeps (hE.sub rfl) ?_
                | with_reducible refine State.count64_keeps (hE.sub rfl) ?_
                | with_reducible refine State.countOd_keeps (hE.sub rfl) ?_
                | with_reducible refine State.modOuts_keeps (hE.sub rfl) ?_
                | with_reducible refine State.modJob_keeps (hE.sub rfl) ?_
                | with_reducible refine State.setReg_keeps (hE.sub rfl) ?_
                | with_reducible refine Inv.ite ?_ ?_
                | split
                | dsimp only
            clear_value v)
         | (try dsimp only [v]
            clear v))
    | intro _
    | with_reducible refine State.streamUsed_keeps (hE.sub rfl) ?_
    | with_reducible refine State.recordSeen_keeps (hE.sub rfl) ?_
    | with_reducible refine State.resultPut_keeps (hE.sub rfl) ?_
    | with_reducible refine State.spoolFree_keeps (hE.sub rfl) ?_
    | with_reducible refine State.count64_keeps (hE.sub rfl) ?_
    | with_reducible refine State.countOd_keeps (hE.sub rfl) ?_
    | with_reducible refine State.modOuts_keeps (hE.sub rfl) ?_
    | with_reducible refine State.modJob_keeps (hE.sub rfl) ?_
    | with_reducible refine State.setReg_keeps (hE.sub rfl) ?_
    | with_reducible refine Inv.ite ?_ ?_
    | split
    | dsimp only

theorem State.owedPut_keeps {I : Inv} {s : State} (hE : I.has [.cmd, .regs, .irq, .hostMem, .out]) (h : I.P s) {ring : ResIx} {m : Owed}  :
    I.P (State.owedPut s ring m) := by
  unfold State.owedPut
  try dsimp only
  repeat' first
    | with_reducible assumption
    | intro _
    | with_reducible refine State.putMissed_keeps (hE.sub rfl) ?_
    | with_reducible refine State.modCmd_keeps (hE.sub rfl) ?_
    | dsimp only

theorem execResultRecordWrite_ok {I : Inv} {s : State} (hE : I.has [.rate, .cmd, .trim, .regs, .dict, .irq, .hostMem, .poison, .events, .out, .free]) (h : I.P s) {ring : ResIx}  :
    I.ok (execResultRecordWrite ring s) := by
  unfold execResultRecordWrite
  try dsimp only
  repeat' first
    | with_reducible assumption
    | with_reducible refine Inv.ok_act ?_ ?_
    | with_reducible refine Inv.ok_next ?_
    | with_reducible exact Inv.ok_refused _
    | with_reducible refine Inv.ok_ite ?_ ?_
    | with_reducible refine State.writeRecord_keeps (hE.sub rfl) ?_
    | with_reducible refine State.missedPut_keeps (hE.sub rfl) ?_
    | with_reducible refine State.fixFirst_keeps (hE.sub rfl) ?_
    | with_reducible refine State.owedPut_keeps (hE.sub rfl) ?_
    | with_reducible refine Inv.ite ?_ ?_
    | split
    | intro _
    | dsimp only

theorem execSpoolCopy_ok {I : Inv} {s : State} (hE : I.has [.rate, .cmd, .trim, .regs, .dict, .irq, .hostMem, .dram, .oasis, .poison, .events, .out, .free]) (h : I.P s) {ring : ResIx}  :
    I.ok (execSpoolCopy ring s) := by
  unfold execSpoolCopy
  repeat' first
    | with_reducible assumption
    | (extract_lets +onlyGivenNames v
       first
         | (have hv : I.P v := by
              dsimp only [v]
              repeat' first
                | with_reducible assumption
                | with_reducible refine Inv.ok_act ?_ ?_
                | with_reducible refine Inv.ok_next ?_
                | with_reducible exact Inv.ok_refused _
                | with_reducible refine Inv.ok_ite ?_ ?_
                | with_reducible refine State.streamStatus_keeps (hE.sub rfl) ?_
                | with_reducible refine State.streamUsed_keeps (hE.sub rfl) ?_
                | with_reducible refine State.recordSeen_keeps (hE.sub rfl) ?_
                | with_reducible refine State.spoolTake_keeps (hE.sub rfl) ?_
                | with_reducible refine State.spacePut_keeps (hE.sub rfl) ?_
                | with_reducible refine State.fixFirst_keeps (hE.sub rfl) ?_
                | with_reducible refine State.count64_keeps (hE.sub rfl) ?_
                | with_reducible refine State.modOuts_keeps (hE.sub rfl) ?_
                | with_reducible refine State.modJob_keeps (hE.sub rfl) ?_
                | with_reducible refine Inv.ite ?_ ?_
                | split
                | intro _
                | dsimp only
                | (with_reducible refine Inv.set (fun p => ?_) ?_
                   · fail_if_success with_reducible (cases p <;> first
                       | exact Or.inl rfl | exact Or.inl ⟨rfl, rfl⟩ | exact Or.inl ⟨rfl, rfl, rfl⟩ | exact Or.inl ⟨rfl, rfl, rfl, rfl⟩ | exact Or.inl ⟨rfl, rfl, rfl, rfl, rfl⟩
                       | exact Or.inl ⟨rfl, rfl, rfl, rfl, rfl, rfl⟩ | exact Or.inl ⟨rfl, rfl, rfl, rfl, rfl, rfl, rfl⟩ | exact Or.inl ⟨rfl, rfl, rfl, rfl, rfl, rfl, rfl, rfl, rfl⟩
                       | exact Or.inl ⟨rfl, rfl, rfl, rfl, rfl, rfl, rfl, rfl, rfl, rfl, rfl, rfl, rfl, rfl⟩)
                     with_reducible (cases p <;> first
                       | exact Or.inl rfl | exact Or.inl ⟨rfl, rfl⟩ | exact Or.inl ⟨rfl, rfl, rfl⟩ | exact Or.inl ⟨rfl, rfl, rfl, rfl⟩ | exact Or.inl ⟨rfl, rfl, rfl, rfl, rfl⟩
                       | exact Or.inl ⟨rfl, rfl, rfl, rfl, rfl, rfl⟩ | exact Or.inl ⟨rfl, rfl, rfl, rfl, rfl, rfl, rfl⟩ | exact Or.inl ⟨rfl, rfl, rfl, rfl, rfl, rfl, rfl, rfl, rfl⟩
                       | exact Or.inl ⟨rfl, rfl, rfl, rfl, rfl, rfl, rfl, rfl, rfl, rfl, rfl, rfl, rfl, rfl⟩
                       | exact Or.inr ⟨hE _ (by decide), True.intro⟩ | exact Or.inr ⟨hE _ (by decide), _, rfl⟩))
                | fail
            clear_value v)
         | (try dsimp only [v]
            clear v))
    | with_reducible refine Inv.ok_act ?_ ?_
    | with_reducible refine Inv.ok_next ?_
    | with_reducible exact Inv.ok_refused _
    | with_reducible refine Inv.ok_ite ?_ ?_
    | with_reducible refine State.streamStatus_keeps (hE.sub rfl) ?_
    | with_reducible refine State.streamUsed_keeps (hE.sub rfl) ?_
    | with_reducible refine State.recordSeen_keeps (hE.sub rfl) ?_
    | with_reducible refine State.spoolTake_keeps (hE.sub rfl) ?_
    | with_reducible refine State.spacePut_keeps (hE.sub rfl) ?_
    | with_reducible refine State.fixFirst_keeps (hE.sub rfl) ?_
    | with_reducible refine State.count64_keeps (hE.sub rfl) ?_
    | with_reducible refine State.modOuts_keeps (hE.sub rfl) ?_
    | with_reducible refine State.modJob_keeps (hE.sub rfl) ?_
    | with_reducible refine Inv.ite ?_ ?_
    | split
    | intro _
    | dsimp only
    | (with_reducible refine Inv.set (fun p => ?_) ?_
       · fail_if_success with_reducible (cases p <;> first
           | exact Or.inl rfl | exact Or.inl ⟨rfl, rfl⟩ | exact Or.inl ⟨rfl, rfl, rfl⟩ | exact Or.inl ⟨rfl, rfl, rfl, rfl⟩ | exact Or.inl ⟨rfl, rfl, rfl, rfl, rfl⟩
           | exact Or.inl ⟨rfl, rfl, rfl, rfl, rfl, rfl⟩ | exact Or.inl ⟨rfl, rfl, rfl, rfl, rfl, rfl, rfl⟩ | exact Or.inl ⟨rfl, rfl, rfl, rfl, rfl, rfl, rfl, rfl, rfl⟩
           | exact Or.inl ⟨rfl, rfl, rfl, rfl, rfl, rfl, rfl, rfl, rfl, rfl, rfl, rfl, rfl, rfl⟩)
         with_reducible (cases p <;> first
           | exact Or.inl rfl | exact Or.inl ⟨rfl, rfl⟩ | exact Or.inl ⟨rfl, rfl, rfl⟩ | exact Or.inl ⟨rfl, rfl, rfl, rfl⟩ | exact Or.inl ⟨rfl, rfl, rfl, rfl, rfl⟩
           | exact Or.inl ⟨rfl, rfl, rfl, rfl, rfl, rfl⟩ | exact Or.inl ⟨rfl, rfl, rfl, rfl, rfl, rfl, rfl⟩ | exact Or.inl ⟨rfl, rfl, rfl, rfl, rfl, rfl, rfl, rfl, rfl⟩
           | exact Or.inl ⟨rfl, rfl, rfl, rfl, rfl, rfl, rfl, rfl, rfl, rfl, rfl, rfl, rfl, rfl⟩
           | exact Or.inr ⟨hE _ (by decide), True.intro⟩ | exact Or.inr ⟨hE _ (by decide), _, rfl⟩))
    | fail

theorem execStreamCopyGo_ok {I : Inv} {s : State} (hE : I.has [.rate, .cmd, .trim, .regs, .dict, .irq, .poison, .events, .out]) (h : I.P s) {value : W32}  :
    I.ok (execStreamCopyGo value s) := by
  unfold execStreamCopyGo
  try dsimp only
  repeat' first
    | with_reducible assumption
    | with_reducible refine Inv.ok_act ?_ ?_
    | with_reducible refine Inv.ok_next ?_
    | with_reducible exact Inv.ok_refused _
    | with_reducible refine Inv.ok_ite ?_ ?_
    | with_reducible refine State.regCopyEnd_keeps (hE.sub rfl) ?_
    | with_reducible refine State.descSeen_keeps (hE.sub rfl) ?_
    | with_reducible refine State.modCmd_keeps (hE.sub rfl) ?_
    | with_reducible refine State.setReg_keeps (hE.sub rfl) ?_
    | with_reducible refine Inv.ite ?_ ?_
    | split
    | intro _
    | dsimp only

theorem execCopyDone_ok {I : Inv} {s : State} (hE : I.has [.rate, .tensors, .cmd, .links, .trim, .regs, .dict, .doors, .irq, .chain, .ledger, .hostMem, .dram, .oasis, .poison, .events, .out, .free]) (h : I.P s) {copy : CopyId}  :
    I.ok (execCopyDone copy s) := by
  unfold execCopyDone
  try dsimp only
  repeat' first
    | with_reducible assumption
    | with_reducible refine Inv.ok_act ?_ ?_
    | with_reducible refine Inv.ok_next ?_
    | with_reducible exact Inv.ok_refused _
    | with_reducible refine Inv.ok_ite ?_ ?_
    | with_reducible refine State.regCopyEnd_keeps (hE.sub rfl) ?_
    | with_reducible refine State.copyMove_keeps (hE.sub rfl) ?_
    | with_reducible refine State.endCmd_keeps (hE.sub rfl) ?_
    | with_reducible refine Inv.ite ?_ ?_
    | split
    | intro _
    | dsimp only

theorem execOasisQpowerWrite_ok {I : Inv} {s : State} (hE : I.has [.regs, .pwr, .oasis, .poison]) (h : I.P s) {value : W32}  :
    I.ok (execOasisQpowerWrite value s) := by
  unfold execOasisQpowerWrite
  try dsimp only
  repeat' first
    | with_reducible assumption
    | with_reducible refine Inv.ok_act ?_ ?_
    | with_reducible refine Inv.ok_next ?_
    | with_reducible exact Inv.ok_refused _
    | with_reducible refine Inv.ok_ite ?_ ?_
    | with_reducible refine State.setReg_keeps (hE.sub rfl) ?_
    | with_reducible refine Inv.ite ?_ ?_
    | split
    | intro _
    | dsimp only
    | with_reducible refine Inv.pwr (hE.sub rfl) ?_ _
    | (with_reducible refine Inv.set (fun p => ?_) ?_
       · fail_if_success with_reducible (cases p <;> first
           | exact Or.inl rfl | exact Or.inl ⟨rfl, rfl⟩ | exact Or.inl ⟨rfl, rfl, rfl⟩ | exact Or.inl ⟨rfl, rfl, rfl, rfl⟩ | exact Or.inl ⟨rfl, rfl, rfl, rfl, rfl⟩
           | exact Or.inl ⟨rfl, rfl, rfl, rfl, rfl, rfl⟩ | exact Or.inl ⟨rfl, rfl, rfl, rfl, rfl, rfl, rfl⟩ | exact Or.inl ⟨rfl, rfl, rfl, rfl, rfl, rfl, rfl, rfl, rfl⟩
           | exact Or.inl ⟨rfl, rfl, rfl, rfl, rfl, rfl, rfl, rfl, rfl, rfl, rfl, rfl, rfl, rfl⟩)
         with_reducible (cases p <;> first
           | exact Or.inl rfl | exact Or.inl ⟨rfl, rfl⟩ | exact Or.inl ⟨rfl, rfl, rfl⟩ | exact Or.inl ⟨rfl, rfl, rfl, rfl⟩ | exact Or.inl ⟨rfl, rfl, rfl, rfl, rfl⟩
           | exact Or.inl ⟨rfl, rfl, rfl, rfl, rfl, rfl⟩ | exact Or.inl ⟨rfl, rfl, rfl, rfl, rfl, rfl, rfl⟩ | exact Or.inl ⟨rfl, rfl, rfl, rfl, rfl, rfl, rfl, rfl, rfl⟩
           | exact Or.inl ⟨rfl, rfl, rfl, rfl, rfl, rfl, rfl, rfl, rfl, rfl, rfl, rfl, rfl, rfl⟩
           | exact Or.inr ⟨hE _ (by decide), True.intro⟩ | exact Or.inr ⟨hE _ (by decide), _, rfl⟩))
    | fail

theorem State.stopQueue_keeps {I : Inv} {s : State} (hE : I.has [.regs, .irq, .events, .out]) (h : I.P s) {q : Nat} {cause : Nat}  :
    I.P (State.stopQueue s q cause) := by
  unfold State.stopQueue
  try dsimp only
  repeat' first
    | with_reducible assumption
    | intro _
    | with_reducible refine State.raiseStatus_keeps (hE.sub rfl) ?_
    | with_reducible refine State.setReg_keeps (hE.sub rfl) ?_
    | with_reducible refine Inv.ite ?_ ?_
    | split
    | dsimp only

theorem State.dmaError_keeps {I : Inv} {s : State} (hE : I.has [.rate, .regs, .irq, .events, .out]) (h : I.P s) {request : Nat} {queue : Nat} {kind : HostErrorKind} {addr : W64}  :
    I.P (State.dmaError s request queue kind addr) := by
  unfold State.dmaError
  try dsimp only
  repeat' first
    | with_reducible assumption
    | intro _
    | with_reducible refine State.statusEvent_keeps (hE.sub rfl) ?_
    | with_reducible refine State.rateLimited_keeps (hE.sub rfl) ?_ ?_
    | with_reducible refine State.raiseInt_keeps (hE.sub rfl) ?_
    | with_reducible refine State.count64_keeps (hE.sub rfl) ?_
    | with_reducible refine State.setReg_keeps (hE.sub rfl) ?_
    | with_reducible refine Inv.ite ?_ ?_
    | split
    | dsimp only

theorem State.recordLost_keeps {I : Inv} {s : State} (hE : I.has [.cmd, .regs, .irq, .events, .out, .free]) (h : I.P s) {q : QueueIx}  :
    I.P (State.recordLost s q) := by
  unfold State.recordLost
  try dsimp only
  repeat' first
    | with_reducible assumption
    | intro _
    | with_reducible refine State.refuseCmd_keeps (hE.sub rfl) ?_
    | with_reducible refine State.stopQueue_keeps (hE.sub rfl) ?_
    | with_reducible refine State.takeFree_snd (hE.sub rfl) ?_
    | with_reducible refine State.takeFree_keeps (hE.sub rfl) ?_ (by with_reducible assumption)
    | with_reducible refine State.modCmd_keeps (hE.sub rfl) ?_
    | with_reducible refine State.setReg_keeps (hE.sub rfl) ?_
    | with_reducible refine Inv.ite ?_ ?_
    | split
    | dsimp only
    | (with_reducible refine Inv.set (fun p => ?_) ?_
       · fail_if_success with_reducible (cases p <;> first
           | exact Or.inl rfl | exact Or.inl ⟨rfl, rfl⟩ | exact Or.inl ⟨rfl, rfl, rfl⟩ | exact Or.inl ⟨rfl, rfl, rfl, rfl⟩ | exact Or.inl ⟨rfl, rfl, rfl, rfl, rfl⟩
           | exact Or.inl ⟨rfl, rfl, rfl, rfl, rfl, rfl⟩ | exact Or.inl ⟨rfl, rfl, rfl, rfl, rfl, rfl, rfl⟩ | exact Or.inl ⟨rfl, rfl, rfl, rfl, rfl, rfl, rfl, rfl, rfl⟩
           | exact Or.inl ⟨rfl, rfl, rfl, rfl, rfl, rfl, rfl, rfl, rfl, rfl, rfl, rfl, rfl, rfl⟩)
         with_reducible (cases p <;> first
           | exact Or.inl rfl | exact Or.inl ⟨rfl, rfl⟩ | exact Or.inl ⟨rfl, rfl, rfl⟩ | exact Or.inl ⟨rfl, rfl, rfl, rfl⟩ | exact Or.inl ⟨rfl, rfl, rfl, rfl, rfl⟩
           | exact Or.inl ⟨rfl, rfl, rfl, rfl, rfl, rfl⟩ | exact Or.inl ⟨rfl, rfl, rfl, rfl, rfl, rfl, rfl⟩ | exact Or.inl ⟨rfl, rfl, rfl, rfl, rfl, rfl, rfl, rfl, rfl⟩
           | exact Or.inl ⟨rfl, rfl, rfl, rfl, rfl, rfl, rfl, rfl, rfl, rfl, rfl, rfl, rfl, rfl⟩
           | exact Or.inr ⟨hE _ (by decide), True.intro⟩ | exact Or.inr ⟨hE _ (by decide), _, rfl⟩))
    | fail

theorem execHostAccessError_ok {I : Inv} {s : State} (hE : I.has [.rate, .cmd, .regs, .irq, .hostMem, .dram, .oasis, .events, .out, .free]) (h : I.P s) {req : HostRequest} {kind : HostErrorKind} {addr : W64}  :
    I.ok (execHostAccessError req kind addr s) := by
  unfold execHostAccessError
  try dsimp only
  repeat' first
    | with_reducible assumption
    | with_reducible refine Inv.ok_act ?_ ?_
    | with_reducible refine Inv.ok_next ?_
    | with_reducible exact Inv.ok_refused _
    | with_reducible refine Inv.ok_ite ?_ ?_
    | with_reducible refine State.copyUndefined_keeps (hE.sub rfl) ?_
    | with_reducible refine State.regCopyEnd_keeps (hE.sub rfl) ?_
    | with_reducible refine State.recordLost_keeps (hE.sub rfl) ?_
    | with_reducible refine State.refuseCmd_keeps (hE.sub rfl) ?_
    | with_reducible refine State.dmaError_keeps (hE.sub rfl) ?_
    | with_reducible refine State.mapCmds_keeps (hE.sub rfl) ?_
    | with_reducible refine State.endCmd_keeps (hE.sub rfl) ?_
    | with_reducible refine Inv.ite ?_ ?_
    | split
    | intro _
    | dsimp only

end Sys2Proof.Machine
end

