-- ==== Sys2Proof/Laws/KeepsCommands.lean ====
section
/-! SUPPORT. The operations of Machine/Commands.lean keep every predicate that lets their parts change. -/

set_option linter.unreachableTactic false
set_option linter.unusedTactic false

namespace Sys2Proof.Machine

theorem execCqPiWrite_ok {I : Inv} {s : State} (hE : I.has [.regs, .irq, .events, .out]) (h : I.P s) {queue : QueueIx} {pi : W32}  :
    I.ok (execCqPiWrite queue pi s) := by
  unfold execCqPiWrite
  try dsimp only
  repeat' first
    | with_reducible assumption
    | with_reducible refine Inv.ok_act ?_ ?_
    | with_reducible refine Inv.ok_next ?_
    | with_reducible exact Inv.ok_refused _
    | with_reducible refine Inv.ok_ite ?_ ?_
    | with_reducible refine State.stopQueue_keeps (hE.sub rfl) ?_
    | with_reducible refine State.setReg_keeps (hE.sub rfl) ?_
    | with_reducible refine Inv.ite ?_ ?_
    | split
    | intro _
    | dsimp only

theorem execCommandRead_ok {I : Inv} {s : State} (hE : I.has [.cmd, .regs, .irq, .events, .out]) (h : I.P s) {queue : QueueIx}  :
    I.ok (execCommandRead queue s) := by
  unfold execCommandRead
  repeat' first
    | with_reducible assumption
    | (extract_lets +onlyGivenNames v
       first
         | (have hv : I.P v := by
              dsimp only [v]
              repeat' first
                | with_reducible assumption
                | with_reducible refine Inv.ok_act ?_ ?_
                | with_reducible refine Inv.ok_next ?_
                | with_reducible exact Inv.ok_refused _
                | with_reducible refine Inv.ok_ite ?_ ?_
                | with_reducible refine State.refuseCmd_keeps (hE.sub rfl) ?_
                | with_reducible refine State.count64_keeps (hE.sub rfl) ?_
                | with_reducible refine State.modCmd_keeps (hE.sub rfl) ?_
                | with_reducible refine State.setReg_keeps (hE.sub rfl) ?_
                | with_reducible refine Inv.ite ?_ ?_
                | split
                | intro _
                | dsimp only
                | (with_reducible refine Inv.set (fun p => ?_) ?_
                   · fail_if_success with_reducible (cases p <;> first
                       | exact Or.inl rfl | exact Or.inl ⟨rfl, rfl⟩ | exact Or.inl ⟨rfl, rfl, rfl⟩ | exact Or.inl ⟨rfl, rfl, rfl, rfl⟩ | exact Or.inl ⟨rfl, rfl, rfl, rfl, rfl⟩
                       | exact Or.inl ⟨rfl, rfl, rfl, rfl, rfl, rfl⟩ | exact Or.inl ⟨rfl, rfl, rfl, rfl, rfl, rfl, rfl⟩ | exact Or.inl ⟨rfl, rfl, rfl, rfl, rfl, rfl, rfl, rfl, rfl⟩
                       | exact Or.inl ⟨rfl, rfl, rfl, rfl, rfl, rfl, rfl, rfl, rfl, rfl, rfl, rfl, rfl, rfl⟩)
                     with_reducible (cases p <;> first
                       | exact Or.inl rfl | exact Or.inl ⟨rfl, rfl⟩ | exact Or.inl ⟨rfl, rfl, rfl⟩ | exact Or.inl ⟨rfl, rfl, rfl, rfl⟩ | exact Or.inl ⟨rfl, rfl, rfl, rfl, rfl⟩
                       | exact Or.inl ⟨rfl, rfl, rfl, rfl, rfl, rfl⟩ | exact Or.inl ⟨rfl, rfl, rfl, rfl, rfl, rfl, rfl⟩ | exact Or.inl ⟨rfl, rfl, rfl, rfl, rfl, rfl, rfl, rfl, rfl⟩
                       | exact Or.inl ⟨rfl, rfl, rfl, rfl, rfl, rfl, rfl, rfl, rfl, rfl, rfl, rfl, rfl, rfl⟩
                       | exact Or.inr ⟨hE _ (by decide), True.intro⟩ | exact Or.inr ⟨hE _ (by decide), _, rfl⟩))
                | fail
            clear_value v)
         | (try dsimp only [v]
            clear v))
    | with_reducible refine Inv.ok_act ?_ ?_
    | with_reducible refine Inv.ok_next ?_
    | with_reducible exact Inv.ok_refused _
    | with_reducible refine Inv.ok_ite ?_ ?_
    | with_reducible refine State.refuseCmd_keeps (hE.sub rfl) ?_
    | with_reducible refine State.count64_keeps (hE.sub rfl) ?_
    | with_reducible refine State.modCmd_keeps (hE.sub rfl) ?_
    | with_reducible refine State.setReg_keeps (hE.sub rfl) ?_
    | with_reducible refine Inv.ite ?_ ?_
    | split
    | intro _
    | dsimp only
    | (with_reducible refine Inv.set (fun p => ?_) ?_
       · fail_if_success with_reducible (cases p <;> first
           | exact Or.inl rfl | exact Or.inl ⟨rfl, rfl⟩ | exact Or.inl ⟨rfl, rfl, rfl⟩ | exact Or.inl ⟨rfl, rfl, rfl, rfl⟩ | exact Or.inl ⟨rfl, rfl, rfl, rfl, rfl⟩
           | exact Or.inl ⟨rfl, rfl, rfl, rfl, rfl, rfl⟩ | exact Or.inl ⟨rfl, rfl, rfl, rfl, rfl, rfl, rfl⟩ | exact Or.inl ⟨rfl, rfl, rfl, rfl, rfl, rfl, rfl, rfl, rfl⟩
           | exact Or.inl ⟨rfl, rfl, rfl, rfl, rfl, rfl, rfl, rfl, rfl, rfl, rfl, rfl, rfl, rfl⟩)
         with_reducible (cases p <;> first
           | exact Or.inl rfl | exact Or.inl ⟨rfl, rfl⟩ | exact Or.inl ⟨rfl, rfl, rfl⟩ | exact Or.inl ⟨rfl, rfl, rfl, rfl⟩ | exact Or.inl ⟨rfl, rfl, rfl, rfl, rfl⟩
           | exact Or.inl ⟨rfl, rfl, rfl, rfl, rfl, rfl⟩ | exact Or.inl ⟨rfl, rfl, rfl, rfl, rfl, rfl, rfl⟩ | exact Or.inl ⟨rfl, rfl, rfl, rfl, rfl, rfl, rfl, rfl, rfl⟩
           | exact Or.inl ⟨rfl, rfl, rfl, rfl, rfl, rfl, rfl, rfl, rfl, rfl, rfl, rfl, rfl, rfl⟩
           | exact Or.inr ⟨hE _ (by decide), True.intro⟩ | exact Or.inr ⟨hE _ (by decide), _, rfl⟩))
    | fail

theorem State.modCmdRec_keeps {I : Inv} {s : State} (hE : I.has [.cmd]) (h : I.P s) {c : Cmd} {f : Cmd → Cmd}  :
    I.P (State.modCmdRec s c f) := by
  unfold State.modCmdRec
  try dsimp only
  repeat' first
    | with_reducible assumption
    | intro _
    | with_reducible refine State.mapCmds_keeps (hE.sub rfl) ?_
    | dsimp only

theorem State.refuseJob_keeps {I : Inv} {s : State} (hE : I.has [.cmd, .regs, .irq, .dram, .events, .out, .free]) (h : I.P s) {c : Cmd} {status : Nat}  :
    I.P (State.refuseJob s c status) := by
  unfold State.refuseJob
  try dsimp only
  repeat' first
    | with_reducible assumption
    | intro _
    | with_reducible refine State.dropStreams_keeps (hE.sub rfl) ?_
    | with_reducible refine State.refuseCmd_keeps (hE.sub rfl) ?_
    | with_reducible refine State.modCmdRec_keeps (hE.sub rfl) ?_
    | dsimp only

theorem State.undersize_keeps {I : Inv} {s : State} (hE : I.has [.dict, .events]) (h : I.P s) {new : Nat}  :
    I.P (State.undersize s new) := by
  unfold State.undersize
  try dsimp only
  repeat' first
    | with_reducible assumption
    | intro _
    | with_reducible refine State.statusEvent_keeps (hE.sub rfl) ?_
    | with_reducible refine State.setOd_keeps (hE.sub rfl) ?_
    | with_reducible refine Inv.ite ?_ ?_
    | split
    | dsimp only

theorem State.spoolCheck_keeps {I : Inv} {s : State} (hE : I.has [.dict, .events]) (h : I.P s)   :
    I.P (State.spoolCheck s) := by
  unfold State.spoolCheck
  try dsimp only
  repeat' first
    | with_reducible assumption
    | intro _
    | with_reducible refine State.undersize_keeps (hE.sub rfl) ?_
    | with_reducible refine Inv.ite ?_ ?_
    | split
    | dsimp only

theorem State.startJob_keeps {I : Inv} {s : State} (hE : I.has [.cmd, .dict, .events]) (h : I.P s) {c : Cmd} {j : Job} {streams : List Stream}  :
    I.P (State.startJob s c j streams) := by
  unfold State.startJob
  try dsimp only
  repeat' first
    | with_reducible assumption
    | intro _
    | with_reducible refine State.spoolCheck_keeps (hE.sub rfl) ?_
    | with_reducible refine State.modCmdRec_keeps (hE.sub rfl) ?_
    | with_reducible refine State.fixFirst_keeps (hE.sub rfl) ?_
    | with_reducible refine Inv.ite ?_ ?_
    | split
    | dsimp only

theorem State.tryJob_keeps {I : Inv} {s : State} (hE : I.has [.cmd, .regs, .dict, .irq, .dram, .events, .out, .free]) (h : I.P s) {c : Cmd} {j : Job}  :
    I.P (State.tryJob s c j) := by
  unfold State.tryJob
  try dsimp only
  repeat' first
    | with_reducible assumption
    | intro _
    | with_reducible refine State.refuseJob_keeps (hE.sub rfl) ?_
    | with_reducible refine State.startJob_keeps (hE.sub rfl) ?_
    | with_reducible refine Inv.ite ?_ ?_
    | split
    | dsimp only

theorem execJobStart_ok {I : Inv} {s : State} (hE : I.has [.rate, .cmd, .trim, .regs, .dict, .irq, .dram, .poison, .events, .out, .free]) (h : I.P s) {queue : QueueIx}  :
    I.ok (execJobStart queue s) := by
  unfold execJobStart
  try dsimp only
  repeat' first
    | with_reducible assumption
    | with_reducible refine Inv.ok_act ?_ ?_
    | with_reducible refine Inv.ok_next ?_
    | with_reducible exact Inv.ok_refused _
    | with_reducible refine Inv.ok_ite ?_ ?_
    | with_reducible refine State.refuseJob_keeps (hE.sub rfl) ?_
    | with_reducible refine State.argsSeen_keeps (hE.sub rfl) ?_
    | with_reducible refine State.bindJob_keeps (hE.sub rfl) ?_
    | with_reducible refine State.tryJob_keeps (hE.sub rfl) ?_
    | with_reducible refine Inv.ite ?_ ?_
    | split
    | intro _
    | dsimp only

theorem execCopyCommand_ok {I : Inv} {s : State} (hE : I.has [.rate, .cmd, .trim, .regs, .dict, .irq, .poison, .events, .out]) (h : I.P s) {queue : QueueIx}  :
    I.ok (execCopyCommand queue s) := by
  unfold execCopyCommand
  try dsimp only
  repeat' first
    | with_reducible assumption
    | with_reducible refine Inv.ok_act ?_ ?_
    | with_reducible refine Inv.ok_next ?_
    | with_reducible exact Inv.ok_refused _
    | with_reducible refine Inv.ok_ite ?_ ?_
    | with_reducible refine State.modCmdRec_keeps (hE.sub rfl) ?_
    | with_reducible refine State.refuseCmd_keeps (hE.sub rfl) ?_
    | with_reducible refine State.descSeen_keeps (hE.sub rfl) ?_
    | with_reducible refine Inv.ite ?_ ?_
    | split
    | intro _
    | dsimp only

theorem execSignalCommand_ok {I : Inv} {s : State} (hE : I.has [.rate, .tensors, .cmd, .links, .trim, .regs, .dict, .doors, .irq, .chain, .ledger, .dram, .oasis, .poison, .events, .out, .free]) (h : I.P s) {queue : QueueIx}  :
    I.ok (execSignalCommand queue s) := by
  unfold execSignalCommand
  try dsimp only
  repeat' first
    | with_reducible assumption
    | with_reducible refine Inv.ok_act ?_ ?_
    | with_reducible refine Inv.ok_next ?_
    | with_reducible exact Inv.ok_refused _
    | with_reducible refine Inv.ok_ite ?_ ?_
    | with_reducible refine State.endCmd_keeps (hE.sub rfl) ?_
    | with_reducible refine State.signal_keeps (hE.sub rfl) ?_
    | with_reducible refine Inv.ite ?_ ?_
    | split
    | intro _
    | dsimp only

theorem execWaitCommand_ok {I : Inv} {s : State} (hE : I.has [.cmd]) (h : I.P s) {queue : QueueIx}  :
    I.ok (execWaitCommand queue s) := by
  unfold execWaitCommand
  try dsimp only
  repeat' first
    | with_reducible assumption
    | with_reducible refine Inv.ok_act ?_ ?_
    | with_reducible refine Inv.ok_next ?_
    | with_reducible exact Inv.ok_refused _
    | with_reducible refine Inv.ok_ite ?_ ?_
    | with_reducible refine State.modCmdRec_keeps (hE.sub rfl) ?_
    | with_reducible refine State.endCmd_keeps (hE.sub rfl) ?_
    | with_reducible refine Inv.ite ?_ ?_
    | split
    | intro _
    | dsimp only

theorem execSyncWaitSatisfied_ok {I : Inv} {s : State} (hE : I.has [.cores, .cmd]) (h : I.P s) {w : Waiter}  :
    I.ok (execSyncWaitSatisfied w s) := by
  unfold execSyncWaitSatisfied
  try dsimp only
  repeat' first
    | with_reducible assumption
    | with_reducible refine Inv.ok_act ?_ ?_
    | with_reducible refine Inv.ok_next ?_
    | with_reducible exact Inv.ok_refused _
    | with_reducible refine Inv.ok_ite ?_ ?_
    | with_reducible refine State.advance_keeps (hE.sub rfl) ?_
    | with_reducible refine State.endCmd_keeps (hE.sub rfl) ?_
    | with_reducible refine Inv.ite ?_ ?_
    | split
    | intro _
    | dsimp only

theorem execJobComplete_ok {I : Inv} {s : State} (hE : I.has [.fsPorts, .slices, .cores, .cmd, .regs, .irq, .dram, .events, .out, .free]) (h : I.P s) {tag : BitVec 12}  :
    I.ok (execJobComplete tag s) := by
  unfold execJobComplete
  try dsimp only
  repeat' first
    | with_reducible assumption
    | with_reducible refine Inv.ok_act ?_ ?_
    | with_reducible refine Inv.ok_next ?_
    | with_reducible exact Inv.ok_refused _
    | with_reducible refine Inv.ok_ite ?_ ?_
    | with_reducible refine State.releaseRings_keeps (hE.sub rfl) ?_
    | with_reducible refine State.dropStreams_keeps (hE.sub rfl) ?_
    | with_reducible refine State.forgetJob_keeps (hE.sub rfl) ?_
    | with_reducible refine State.fixFirst_keeps (hE.sub rfl) ?_
    | with_reducible refine State.modCmd_keeps (hE.sub rfl) ?_
    | with_reducible refine State.endCmd_keeps (hE.sub rfl) ?_
    | with_reducible refine Inv.ite ?_ ?_
    | split
    | intro _
    | dsimp only
    | (with_reducible refine Inv.set (fun p => ?_) ?_
       · fail_if_success with_reducible (cases p <;> first
           | exact Or.inl rfl | exact Or.inl ⟨rfl, rfl⟩ | exact Or.inl ⟨rfl, rfl, rfl⟩ | exact Or.inl ⟨rfl, rfl, rfl, rfl⟩ | exact Or.inl ⟨rfl, rfl, rfl, rfl, rfl⟩
           | exact Or.inl ⟨rfl, rfl, rfl, rfl, rfl, rfl⟩ | exact Or.inl ⟨rfl, rfl, rfl, rfl, rfl, rfl, rfl⟩ | exact Or.inl ⟨rfl, rfl, rfl, rfl, rfl, rfl, rfl, rfl, rfl⟩
           | exact Or.inl ⟨rfl, rfl, rfl, rfl, rfl, rfl, rfl, rfl, rfl, rfl, rfl, rfl, rfl, rfl⟩)
         with_reducible (cases p <;> first
           | exact Or.inl rfl | exact Or.inl ⟨rfl, rfl⟩ | exact Or.inl ⟨rfl, rfl, rfl⟩ | exact Or.inl ⟨rfl, rfl, rfl, rfl⟩ | exact Or.inl ⟨rfl, rfl, rfl, rfl, rfl⟩
           | exact Or.inl ⟨rfl, rfl, rfl, rfl, rfl, rfl⟩ | exact Or.inl ⟨rfl, rfl, rfl, rfl, rfl, rfl, rfl⟩ | exact Or.inl ⟨rfl, rfl, rfl, rfl, rfl, rfl, rfl, rfl, rfl⟩
           | exact Or.inl ⟨rfl, rfl, rfl, rfl, rfl, rfl, rfl, rfl, rfl, rfl, rfl, rfl, rfl, rfl⟩
           | exact Or.inr ⟨hE _ (by decide), True.intro⟩ | exact Or.inr ⟨hE _ (by decide), _, rfl⟩))
    | fail

theorem execCompletionRecordWrite_ok {I : Inv} {s : State} (hE : I.has [.rate, .tensors, .cmd, .links, .trim, .regs, .dict, .doors, .irq, .chain, .ledger, .hostMem, .dram, .oasis, .poison, .events, .out, .free]) (h : I.P s) {queue : QueueIx}  :
    I.ok (execCompletionRecordWrite queue s) := by
  unfold execCompletionRecordWrite
  repeat' first
    | with_reducible assumption
    | (extract_lets +onlyGivenNames v
       first
         | (have hv : I.P v := by
              dsimp only [v]
              repeat' first
                | with_reducible assumption
                | with_reducible refine Inv.ok_act ?_ ?_
                | with_reducible refine Inv.ok_next ?_
                | with_reducible exact Inv.ok_refused _
                | with_reducible refine Inv.ok_ite ?_ ?_
                | with_reducible refine State.msixRaise_keeps (hE.sub rfl) ?_
                | with_reducible refine State.ringPut_keeps (hE.sub rfl) ?_
                | with_reducible refine State.count64_keeps (hE.sub rfl) ?_
                | with_reducible refine State.modCmd_keeps (hE.sub rfl) ?_
                | with_reducible refine State.signal_keeps (hE.sub rfl) ?_
                | with_reducible refine Inv.ite ?_ ?_
                | split
                | intro _
                | dsimp only
                | (with_reducible refine Inv.set (fun p => ?_) ?_
                   · fail_if_success with_reducible (cases p <;> first
                       | exact Or.inl rfl | exact Or.inl ⟨rfl, rfl⟩ | exact Or.inl ⟨rfl, rfl, rfl⟩ | exact Or.inl ⟨rfl, rfl, rfl, rfl⟩ | exact Or.inl ⟨rfl, rfl, rfl, rfl, rfl⟩
                       | exact Or.inl ⟨rfl, rfl, rfl, rfl, rfl, rfl⟩ | exact Or.inl ⟨rfl, rfl, rfl, rfl, rfl, rfl, rfl⟩ | exact Or.inl ⟨rfl, rfl, rfl, rfl, rfl, rfl, rfl, rfl, rfl⟩
                       | exact Or.inl ⟨rfl, rfl, rfl, rfl, rfl, rfl, rfl, rfl, rfl, rfl, rfl, rfl, rfl, rfl⟩)
                     with_reducible (cases p <;> first
                       | exact Or.inl rfl | exact Or.inl ⟨rfl, rfl⟩ | exact Or.inl ⟨rfl, rfl, rfl⟩ | exact Or.inl ⟨rfl, rfl, rfl, rfl⟩ | exact Or.inl ⟨rfl, rfl, rfl, rfl, rfl⟩
                       | exact Or.inl ⟨rfl, rfl, rfl, rfl, rfl, rfl⟩ | exact Or.inl ⟨rfl, rfl, rfl, rfl, rfl, rfl, rfl⟩ | exact Or.inl ⟨rfl, rfl, rfl, rfl, rfl, rfl, rfl, rfl, rfl⟩
                       | exact Or.inl ⟨rfl, rfl, rfl, rfl, rfl, rfl, rfl, rfl, rfl, rfl, rfl, rfl, rfl, rfl⟩
                       | exact Or.inr ⟨hE _ (by decide), True.intro⟩ | exact Or.inr ⟨hE _ (by decide), _, rfl⟩))
                | fail
            clear_value v)
         | (try dsimp only [v]
            clear v))
    | with_reducible refine Inv.ok_act ?_ ?_
    | with_reducible refine Inv.ok_next ?_
    | with_reducible exact Inv.ok_refused _
    | with_reducible refine Inv.ok_ite ?_ ?_
    | with_reducible refine State.msixRaise_keeps (hE.sub rfl) ?_
    | with_reducible refine State.ringPut_keeps (hE.sub rfl) ?_
    | with_reducible refine State.count64_keeps (hE.sub rfl) ?_
    | with_reducible refine State.modCmd_keeps (hE.sub rfl) ?_
    | with_reducible refine State.signal_keeps (hE.sub rfl) ?_
    | with_reducible refine Inv.ite ?_ ?_
    | split
    | intro _
    | dsimp only
    | (with_reducible refine Inv.set (fun p => ?_) ?_
       · fail_if_success with_reducible (cases p <;> first
           | exact Or.inl rfl | exact Or.inl ⟨rfl, rfl⟩ | exact Or.inl ⟨rfl, rfl, rfl⟩ | exact Or.inl ⟨rfl, rfl, rfl, rfl⟩ | exact Or.inl ⟨rfl, rfl, rfl, rfl, rfl⟩
           | exact Or.inl ⟨rfl, rfl, rfl, rfl, rfl, rfl⟩ | exact Or.inl ⟨rfl, rfl, rfl, rfl, rfl, rfl, rfl⟩ | exact Or.inl ⟨rfl, rfl, rfl, rfl, rfl, rfl, rfl, rfl, rfl⟩
           | exact Or.inl ⟨rfl, rfl, rfl, rfl, rfl, rfl, rfl, rfl, rfl, rfl, rfl, rfl, rfl, rfl⟩)
         with_reducible (cases p <;> first
           | exact Or.inl rfl | exact Or.inl ⟨rfl, rfl⟩ | exact Or.inl ⟨rfl, rfl, rfl⟩ | exact Or.inl ⟨rfl, rfl, rfl, rfl⟩ | exact Or.inl ⟨rfl, rfl, rfl, rfl, rfl⟩
           | exact Or.inl ⟨rfl, rfl, rfl, rfl, rfl, rfl⟩ | exact Or.inl ⟨rfl, rfl, rfl, rfl, rfl, rfl, rfl⟩ | exact Or.inl ⟨rfl, rfl, rfl, rfl, rfl, rfl, rfl, rfl, rfl⟩
           | exact Or.inl ⟨rfl, rfl, rfl, rfl, rfl, rfl, rfl, rfl, rfl, rfl, rfl, rfl, rfl, rfl⟩
           | exact Or.inr ⟨hE _ (by decide), True.intro⟩ | exact Or.inr ⟨hE _ (by decide), _, rfl⟩))
    | fail

theorem execRingCiWrite_ok {I : Inv} {s : State} (hE : I.has [.cmd, .regs, .irq, .hostMem, .events, .out]) (h : I.P s) {ring : DevRing} {ci : W32}  :
    I.ok (execRingCiWrite ring ci s) := by
  unfold execRingCiWrite
  try dsimp only
  repeat' first
    | with_reducible assumption
    | with_reducible refine Inv.ok_act ?_ ?_
    | with_reducible refine Inv.ok_next ?_
    | with_reducible exact Inv.ok_refused _
    | with_reducible refine Inv.ok_ite ?_ ?_
    | with_reducible refine State.eventsLostPut_keeps (hE.sub rfl) ?_
    | with_reducible refine State.raiseStatus_keeps (hE.sub rfl) ?_
    | with_reducible refine State.setReg_keeps (hE.sub rfl) ?_
    | with_reducible refine Inv.ite ?_ ?_
    | split
    | intro _
    | dsimp only

theorem State.ringSize_keeps {I : Inv} {s : State} (hE : I.has [.cmd, .regs, .irq, .hostMem, .out]) (h : I.P s) {ring : AnyRing} {n : Nat}  :
    I.P (State.ringSize s ring n) := by
  unfold State.ringSize
  try dsimp only
  repeat' first
    | with_reducible assumption
    | intro _
    | with_reducible refine State.eventsLostPut_keeps (hE.sub rfl) ?_
    | with_reducible refine State.modCmd_keeps (hE.sub rfl) ?_
    | with_reducible refine State.setReg_keeps (hE.sub rfl) ?_
    | with_reducible refine Inv.ite ?_ ?_
    | split
    | dsimp only

theorem execRingSlotsWrite_ok {I : Inv} {s : State} (hE : I.has [.cmd, .regs, .irq, .hostMem, .out]) (h : I.P s) {ring : AnyRing} {slots : W32}  :
    I.ok (execRingSlotsWrite ring slots s) := by
  unfold execRingSlotsWrite
  try dsimp only
  repeat' first
    | with_reducible assumption
    | with_reducible refine Inv.ok_act ?_ ?_
    | with_reducible refine Inv.ok_next ?_
    | with_reducible exact Inv.ok_refused _
    | with_reducible refine Inv.ok_ite ?_ ?_
    | with_reducible refine State.ringSize_keeps (hE.sub rfl) ?_
    | with_reducible refine Inv.ite ?_ ?_
    | split
    | intro _
    | dsimp only

theorem execCmdAbort_ok {I : Inv} {s : State} (hE : I.has [.fsPorts, .slices, .cores, .cmd, .det, .regs, .dict, .irq, .hostMem, .dram, .oasis, .events, .out, .free]) (h : I.P s) {value : W32}  :
    I.ok (execCmdAbort value s) := by
  unfold execCmdAbort
  try dsimp only
  repeat' first
    | with_reducible assumption
    | with_reducible refine Inv.ok_act ?_ ?_
    | with_reducible refine Inv.ok_next ?_
    | with_reducible exact Inv.ok_refused _
    | with_reducible refine Inv.ok_ite ?_ ?_
    | with_reducible refine State.cancelCmd_keeps (hE.sub rfl) ?_
    | with_reducible refine State.raiseInt_keeps (hE.sub rfl) ?_
    | with_reducible refine State.setReg_keeps (hE.sub rfl) ?_
    | with_reducible refine Inv.foldl ?_ ?_
    | with_reducible refine Inv.ite ?_ ?_
    | split
    | intro _
    | dsimp only

theorem execCmdSyncValueWrite_ok {I : Inv} {s : State} (hE : I.has [.rate, .tensors, .cmd, .links, .trim, .regs, .dict, .doors, .irq, .chain, .ledger, .dram, .oasis, .poison, .events, .out, .free]) (h : I.P s) {value : W32}  :
    I.ok (execCmdSyncValueWrite value s) := by
  unfold execCmdSyncValueWrite
  try dsimp only
  repeat' first
    | with_reducible assumption
    | with_reducible refine Inv.ok_act ?_ ?_
    | with_reducible refine Inv.ok_next ?_
    | with_reducible exact Inv.ok_refused _
    | with_reducible refine Inv.ok_ite ?_ ?_
    | with_reducible refine State.signal_keeps (hE.sub rfl) ?_
    | with_reducible refine Inv.ite ?_ ?_
    | split
    | intro _
    | dsimp only

theorem execCmdSyncAdd_ok {I : Inv} {s : State} (hE : I.has [.rate, .tensors, .cmd, .links, .trim, .regs, .dict, .doors, .irq, .chain, .ledger, .dram, .oasis, .poison, .events, .out, .free]) (h : I.P s) {value : W32}  :
    I.ok (execCmdSyncAdd value s) := by
  unfold execCmdSyncAdd
  try dsimp only
  repeat' first
    | with_reducible assumption
    | with_reducible refine Inv.ok_act ?_ ?_
    | with_reducible refine Inv.ok_next ?_
    | with_reducible exact Inv.ok_refused _
    | with_reducible refine Inv.ok_ite ?_ ?_
    | with_reducible refine State.signal_keeps (hE.sub rfl) ?_
    | with_reducible refine Inv.ite ?_ ?_
    | split
    | intro _
    | dsimp only

theorem execCqRestart_ok {I : Inv} {s : State} (hE : I.has [.regs]) (h : I.P s) {queue : QueueIx}  :
    I.ok (execCqRestart queue s) := by
  unfold execCqRestart
  try dsimp only
  repeat' first
    | with_reducible assumption
    | with_reducible refine Inv.ok_act ?_ ?_
    | with_reducible refine Inv.ok_next ?_
    | with_reducible exact Inv.ok_refused _
    | with_reducible refine Inv.ok_ite ?_ ?_
    | with_reducible refine State.setReg_keeps (hE.sub rfl) ?_
    | with_reducible refine Inv.ite ?_ ?_
    | split
    | intro _
    | dsimp only

theorem State.cancelGroup_keeps {I : Inv} {s : State} (hE : I.has [.cores, .cmd, .det, .links, .regs, .dict, .irq, .hostMem, .oasis, .events, .out, .free]) (h : I.P s) {g : Int} {x : Nat × Job}  :
    I.P (State.cancelGroup s g x) := by
  unfold State.cancelGroup
  repeat' first
    | with_reducible assumption
    | (extract_lets +onlyGivenNames v
       first
         | (have hv : I.P v := by
              dsimp only [v]
              repeat' first
                | with_reducible assumption
                | intro _
                | with_reducible refine State.stopTiles_keeps (hE.sub rfl) ?_
                | with_reducible refine State.freeFetch_keeps (hE.sub rfl) ?_
                | with_reducible refine State.missGroup_keeps (hE.sub rfl) ?_
                | with_reducible refine State.detMissed_keeps (hE.sub rfl) ?_
                | with_reducible refine State.modJob_keeps (hE.sub rfl) ?_
                | with_reducible refine Inv.foldl ?_ ?_
                | with_reducible refine Inv.ite ?_ ?_
                | split
                | dsimp only
            clear_value v)
         | (try dsimp only [v]
            clear v))
    | intro _
    | with_reducible refine State.stopTiles_keeps (hE.sub rfl) ?_
    | with_reducible refine State.freeFetch_keeps (hE.sub rfl) ?_
    | with_reducible refine State.missGroup_keeps (hE.sub rfl) ?_
    | with_reducible refine State.detMissed_keeps (hE.sub rfl) ?_
    | with_reducible refine State.modJob_keeps (hE.sub rfl) ?_
    | with_reducible refine Inv.foldl ?_ ?_
    | with_reducible refine Inv.ite ?_ ?_
    | split
    | dsimp only

theorem State.cancelTo_keeps {I : Inv} {s : State} (hE : I.has [.fsPorts, .slices, .cores, .cmd, .det, .links, .regs, .dict, .irq, .hostMem, .oasis, .events, .out, .free]) (h : I.P s) {lgn : Int}  :
    I.P (State.cancelTo s lgn) := by
  unfold State.cancelTo
  try dsimp only
  repeat' first
    | with_reducible assumption
    | intro _
    | with_reducible refine State.releaseRings_keeps (hE.sub rfl) ?_
    | with_reducible refine State.cancelGroup_keeps (hE.sub rfl) ?_
    | with_reducible refine Inv.foldl ?_ ?_
    | with_reducible refine Inv.ite ?_ ?_
    | split
    | dsimp only

theorem execGroupCancel_ok {I : Inv} {s : State} (hE : I.has [.fsPorts, .slices, .cores, .cmd, .det, .links, .regs, .dict, .irq, .hostMem, .oasis, .events, .out, .free]) (h : I.P s) {lgn : Int}  :
    I.ok (execGroupCancel lgn s) := by
  unfold execGroupCancel
  try dsimp only
  repeat' first
    | with_reducible assumption
    | with_reducible refine Inv.ok_act ?_ ?_
    | with_reducible refine Inv.ok_next ?_
    | with_reducible exact Inv.ok_refused _
    | with_reducible refine Inv.ok_ite ?_ ?_
    | with_reducible refine State.cancelTo_keeps (hE.sub rfl) ?_
    | with_reducible refine State.fixFirst_keeps (hE.sub rfl) ?_
    | with_reducible refine Inv.ite ?_ ?_
    | split
    | intro _
    | dsimp only

theorem execTrackedGroupClose_ok {I : Inv} {s : State} (hE : I.has [.rate, .tensors, .cmd, .trim, .regs, .dict, .doors, .irq, .chain, .ledger, .hostMem, .dram, .oasis, .poison, .events, .out, .free]) (h : I.P s) {tensor : Fin 256} {lgn : Int}  :
    I.ok (execTrackedGroupClose tensor lgn s) := by
  unfold execTrackedGroupClose
  try dsimp only
  repeat' first
    | with_reducible assumption
    | with_reducible refine Inv.ok_act ?_ ?_
    | with_reducible refine Inv.ok_next ?_
    | with_reducible exact Inv.ok_refused _
    | with_reducible refine Inv.ok_ite ?_ ?_
    | with_reducible refine State.closeTracked_keeps (hE.sub rfl) ?_
    | with_reducible refine Inv.ite ?_ ?_
    | split
    | intro _
    | dsimp only

end Sys2Proof.Machine
end

