-- ==== Sys2Proof/Laws/KeepsIngress.lean ====
section
/-! SUPPORT. The operations of Machine/Ingress.lean keep every predicate that lets their parts change. -/

set_option linter.unreachableTactic false
set_option linter.unusedTactic false

namespace Sys2Proof.Machine

theorem execLightOkRise_ok {I : Inv} {s : State} (hE : I.has [.links, .dict]) (h : I.P s) {engine : EngineIx}  :
    I.ok (execLightOkRise engine s) := by
  unfold execLightOkRise
  try dsimp only
  repeat' first
    | with_reducible assumption
    | with_reducible refine Inv.ok_act ?_ ?_
    | with_reducible refine Inv.ok_next ?_
    | with_reducible exact Inv.ok_refused _
    | with_reducible refine Inv.ok_ite ?_ ?_
    | with_reducible refine State.linkStart_keeps (hE.sub rfl) ?_
    | with_reducible refine State.modLink_keeps (hE.sub rfl) ?_
    | with_reducible refine State.setOd_keeps (hE.sub rfl) ?_
    | with_reducible refine Inv.ite ?_ ?_
    | split
    | intro _
    | dsimp only

theorem State.lightFall_keeps {I : Inv} {s : State} (hE : I.has [.web, .ports, .fsPorts, .slices, .links, .regs, .dict, .doors, .irq, .chain, .ledger, .events, .out]) (h : I.P s) {engine : EngineIx}  :
    I.P (State.lightFall s engine) := by
  unfold State.lightFall
  try dsimp only
  repeat' first
    | with_reducible assumption
    | intro _
    | with_reducible refine State.linkRetrain_keeps (hE.sub rfl) ?_
    | with_reducible refine State.portDown_keeps (hE.sub rfl) ?_
    | with_reducible refine State.modPort_keeps (hE.sub rfl) ?_
    | with_reducible refine State.modLink_keeps (hE.sub rfl) ?_
    | with_reducible refine State.setOd_keeps (hE.sub rfl) ?_
    | with_reducible refine Inv.foldl ?_ ?_
    | with_reducible refine Inv.ite ?_ ?_
    | split
    | dsimp only

theorem execLightOkFall_ok {I : Inv} {s : State} (hE : I.has [.web, .ports, .fsPorts, .slices, .links, .regs, .dict, .doors, .irq, .chain, .ledger, .events, .out]) (h : I.P s) {engine : EngineIx}  :
    I.ok (execLightOkFall engine s) := by
  unfold execLightOkFall
  try dsimp only
  repeat' first
    | with_reducible assumption
    | with_reducible refine Inv.ok_act ?_ ?_
    | with_reducible refine Inv.ok_next ?_
    | with_reducible exact Inv.ok_refused _
    | with_reducible refine Inv.ok_ite ?_ ?_
    | with_reducible refine State.lightFall_keeps (hE.sub rfl) ?_
    | intro _
    | dsimp only

theorem execLaneLockGain_ok {I : Inv} {s : State} (hE : I.has [.ports, .dict, .out]) (h : I.P s) {port : PortIx} {lane : Fin 4}  :
    I.ok (execLaneLockGain port lane s) := by
  unfold execLaneLockGain
  try dsimp only
  repeat' first
    | with_reducible assumption
    | with_reducible refine Inv.ok_act ?_ ?_
    | with_reducible refine Inv.ok_next ?_
    | with_reducible exact Inv.ok_refused _
    | with_reducible refine Inv.ok_ite ?_ ?_
    | with_reducible refine State.discStart_keeps (hE.sub rfl) ?_
    | with_reducible refine State.discRead_keeps (hE.sub rfl) ?_
    | with_reducible refine State.modPort_keeps (hE.sub rfl) ?_
    | with_reducible refine Inv.ite ?_ ?_
    | split
    | intro _
    | dsimp only

theorem execLaneLockLoss_ok {I : Inv} {s : State} (hE : I.has [.web, .ports, .fsPorts, .slices, .regs, .dict, .doors, .irq, .chain, .ledger, .events, .out]) (h : I.P s) {port : PortIx} {lane : Fin 4}  :
    I.ok (execLaneLockLoss port lane s) := by
  unfold execLaneLockLoss
  try dsimp only
  repeat' first
    | with_reducible assumption
    | with_reducible refine Inv.ok_act ?_ ?_
    | with_reducible refine Inv.ok_next ?_
    | with_reducible exact Inv.ok_refused _
    | with_reducible refine Inv.ok_ite ?_ ?_
    | with_reducible refine State.portDown_keeps (hE.sub rfl) ?_
    | with_reducible refine State.modPort_keeps (hE.sub rfl) ?_
    | with_reducible refine Inv.ite ?_ ?_
    | split
    | intro _
    | dsimp only

theorem execDiscoveryLockTimeout_ok {I : Inv} {s : State} (hE : I.has [.ports, .regs, .dict, .irq, .events, .out]) (h : I.P s) {port : PortIx}  :
    I.ok (execDiscoveryLockTimeout port s) := by
  unfold execDiscoveryLockTimeout
  try dsimp only
  repeat' first
    | with_reducible assumption
    | with_reducible refine Inv.ok_act ?_ ?_
    | with_reducible refine Inv.ok_next ?_
    | with_reducible exact Inv.ok_refused _
    | with_reducible refine Inv.ok_ite ?_ ?_
    | with_reducible refine State.discFail_keeps (hE.sub rfl) ?_
    | with_reducible refine Inv.ite ?_ ?_
    | split
    | intro _
    | dsimp only

theorem State.discResume_keeps {I : Inv} {s : State} (hE : I.has [.ports, .out]) (h : I.P s) {c : PortIx}  :
    I.P (State.discResume s c) := by
  unfold State.discResume
  try dsimp only
  repeat' first
    | with_reducible assumption
    | intro _
    | with_reducible refine State.discRead_keeps (hE.sub rfl) ?_
    | with_reducible refine Inv.ite ?_ ?_
    | split
    | dsimp only

theorem State.setCcData_keeps {I : Inv} {s : State} (hE : I.has [.regs]) (h : I.P s) {c : PortIx} {bs : List Byte}  :
    I.P (State.setCcData s c bs) := by
  unfold State.setCcData
  try dsimp only
  repeat' first
    | with_reducible assumption
    | intro _
    | with_reducible refine State.setReg_keeps (hE.sub rfl) ?_
    | with_reducible refine Inv.foldl ?_ ?_
    | dsimp only

theorem execCcReply_ok {I : Inv} {s : State} (hE : I.has [.ports, .regs, .dict, .blobs, .irq, .events, .out]) (h : I.P s) {port : PortIx} {ack : Byte} {data : List Byte}  :
    I.ok (execCcReply port ack data s) := by
  unfold execCcReply
  try dsimp only
  repeat' first
    | with_reducible assumption
    | with_reducible refine Inv.ok_act ?_ ?_
    | with_reducible refine Inv.ok_next ?_
    | with_reducible exact Inv.ok_refused _
    | with_reducible refine Inv.ok_ite ?_ ?_
    | with_reducible refine State.discResume_keeps (hE.sub rfl) ?_
    | with_reducible refine State.discReply_keeps (hE.sub rfl) ?_
    | with_reducible refine State.setCcData_keeps (hE.sub rfl) ?_
    | with_reducible refine State.ccFinish_keeps (hE.sub rfl) ?_
    | with_reducible refine Inv.ite ?_ ?_
    | split
    | intro _
    | dsimp only

theorem execCcTimeout_ok {I : Inv} {s : State} (hE : I.has [.ports, .regs, .dict, .irq, .events, .out]) (h : I.P s) {port : PortIx}  :
    I.ok (execCcTimeout port s) := by
  unfold execCcTimeout
  try dsimp only
  repeat' first
    | with_reducible assumption
    | with_reducible refine Inv.ok_act ?_ ?_
    | with_reducible refine Inv.ok_next ?_
    | with_reducible exact Inv.ok_refused _
    | with_reducible refine Inv.ok_ite ?_ ?_
    | with_reducible refine State.discResume_keeps (hE.sub rfl) ?_
    | with_reducible refine State.ccFinish_keeps (hE.sub rfl) ?_
    | with_reducible refine State.discFail_keeps (hE.sub rfl) ?_
    | with_reducible refine Inv.ite ?_ ?_
    | split
    | intro _
    | dsimp only

theorem State.ccGo_keeps {I : Inv} {s : State} (hE : I.has [.ports, .regs, .dict, .irq, .chain, .ledger, .events, .out]) (h : I.P s) {c : PortIx} {write : Bool}  :
    I.P (State.ccGo s c write) := by
  unfold State.ccGo
  repeat' first
    | with_reducible assumption
    | (extract_lets +onlyGivenNames v
       first
         | (have hv : I.P v := by
              dsimp only [v]
              repeat' first
                | with_reducible assumption
                | intro _
                | with_reducible refine State.ledgerAppend_keeps (hE.sub rfl) ?_
                | with_reducible refine State.ccFinish_keeps (hE.sub rfl) ?_
                | with_reducible refine State.modPort_keeps (hE.sub rfl) ?_
                | with_reducible refine State.setReg_keeps (hE.sub rfl) ?_
                | with_reducible refine State.send_keeps (hE.sub rfl) ?_
                | with_reducible refine Inv.ite ?_ ?_
                | split
                | dsimp only
            clear_value v)
         | (try dsimp only [v]
            clear v))
    | intro _
    | with_reducible refine State.ledgerAppend_keeps (hE.sub rfl) ?_
    | with_reducible refine State.ccFinish_keeps (hE.sub rfl) ?_
    | with_reducible refine State.modPort_keeps (hE.sub rfl) ?_
    | with_reducible refine State.setReg_keeps (hE.sub rfl) ?_
    | with_reducible refine State.send_keeps (hE.sub rfl) ?_
    | with_reducible refine Inv.ite ?_ ?_
    | split
    | dsimp only

theorem execCamCcRead_ok {I : Inv} {s : State} (hE : I.has [.ports, .regs, .dict, .irq, .chain, .ledger, .events, .out]) (h : I.P s) {port : PortIx}  :
    I.ok (execCamCcRead port s) := by
  unfold execCamCcRead
  try dsimp only
  repeat' first
    | with_reducible assumption
    | with_reducible refine Inv.ok_act ?_ ?_
    | with_reducible refine Inv.ok_next ?_
    | with_reducible exact Inv.ok_refused _
    | with_reducible refine Inv.ok_ite ?_ ?_
    | with_reducible refine State.ccGo_keeps (hE.sub rfl) ?_
    | intro _
    | dsimp only

theorem execCamCcWrite_ok {I : Inv} {s : State} (hE : I.has [.ports, .regs, .dict, .irq, .chain, .ledger, .events, .out]) (h : I.P s) {port : PortIx}  :
    I.ok (execCamCcWrite port s) := by
  unfold execCamCcWrite
  try dsimp only
  repeat' first
    | with_reducible assumption
    | with_reducible refine Inv.ok_act ?_ ?_
    | with_reducible refine Inv.ok_next ?_
    | with_reducible exact Inv.ok_refused _
    | with_reducible refine Inv.ok_ite ?_ ?_
    | with_reducible refine State.ccGo_keeps (hE.sub rfl) ?_
    | intro _
    | dsimp only

theorem execHeartbeatSend_ok {I : Inv} {s : State} (hE : I.has [.out]) (h : I.P s) {port : PortIx}  :
    I.ok (execHeartbeatSend port s) := by
  unfold execHeartbeatSend
  try dsimp only
  repeat' first
    | with_reducible assumption
    | with_reducible refine Inv.ok_act ?_ ?_
    | with_reducible refine Inv.ok_next ?_
    | with_reducible exact Inv.ok_refused _
    | with_reducible refine Inv.ok_ite ?_ ?_
    | with_reducible refine State.send_keeps (hE.sub rfl) ?_
    | with_reducible refine Inv.ite ?_ ?_
    | split
    | intro _
    | dsimp only

theorem execHeartbeatReceive_ok {I : Inv} {s : State} (hE : I.has [.ports]) (h : I.P s) {port : PortIx}  :
    I.ok (execHeartbeatReceive port s) := by
  unfold execHeartbeatReceive
  try dsimp only
  repeat' first
    | with_reducible assumption
    | with_reducible refine Inv.ok_act ?_ ?_
    | with_reducible refine Inv.ok_next ?_
    | with_reducible exact Inv.ok_refused _
    | with_reducible refine Inv.ok_ite ?_ ?_
    | with_reducible refine State.modPort_keeps (hE.sub rfl) ?_
    | with_reducible refine Inv.ite ?_ ?_
    | split
    | intro _
    | dsimp only

theorem execHeartbeatTimeout_ok {I : Inv} {s : State} (hE : I.has [.ports, .regs, .irq, .events, .out]) (h : I.P s) {port : PortIx}  :
    I.ok (execHeartbeatTimeout port s) := by
  unfold execHeartbeatTimeout
  try dsimp only
  repeat' first
    | with_reducible assumption
    | with_reducible refine Inv.ok_act ?_ ?_
    | with_reducible refine Inv.ok_next ?_
    | with_reducible exact Inv.ok_refused _
    | with_reducible refine Inv.ok_ite ?_ ?_
    | with_reducible refine State.camStatus_keeps (hE.sub rfl) ?_
    | with_reducible refine State.camCount_keeps (hE.sub rfl) ?_
    | with_reducible refine State.modPort_keeps (hE.sub rfl) ?_
    | with_reducible refine Inv.ite ?_ ?_
    | split
    | intro _
    | dsimp only

theorem execCameraEventPacket_ok {I : Inv} {s : State} (hE : I.has [.regs, .irq, .events, .out]) (h : I.P s) {port : PortIx} {payload : List Byte}  :
    I.ok (execCameraEventPacket port payload s) := by
  unfold execCameraEventPacket
  try dsimp only
  repeat' first
    | with_reducible assumption
    | with_reducible refine Inv.ok_act ?_ ?_
    | with_reducible refine Inv.ok_next ?_
    | with_reducible exact Inv.ok_refused _
    | with_reducible refine Inv.ok_ite ?_ ?_
    | with_reducible refine State.camCount_keeps (hE.sub rfl) ?_
    | with_reducible refine State.camInt_keeps (hE.sub rfl) ?_
    | with_reducible refine State.event_keeps (hE.sub rfl) ?_
    | with_reducible refine State.send_keeps (hE.sub rfl) ?_
    | with_reducible refine Inv.ite ?_ ?_
    | split
    | intro _
    | dsimp only

theorem State.onStream_keeps {I : Inv} {s : State} (hE : I.has [.ports, .regs, .irq, .out]) (h : I.P s) {c : PortIx} {stream : Byte} {f : State → State} (hf : ∀ (u : State), I.P u → I.P (f u)) :
    I.P (State.onStream s c stream f) := by
  unfold State.onStream
  try dsimp only
  repeat' first
    | with_reducible assumption
    | intro _
    | refine hf _ ?_
    | with_reducible refine State.malformed_keeps (hE.sub rfl) ?_
    | with_reducible refine State.modPort_keeps (hE.sub rfl) ?_
    | with_reducible refine Inv.ite ?_ ?_
    | split
    | dsimp only

theorem State.countRow_keeps {I : Inv} {s : State} (hE : I.has [.web, .ports, .fsPorts, .slices, .regs, .dict, .irq, .chain, .ledger, .events, .out]) (h : I.P s) {c : PortIx}  :
    I.P (State.countRow s c) := by
  unfold State.countRow
  try dsimp only
  repeat' first
    | with_reducible assumption
    | intro _
    | with_reducible refine State.closeFrame_keeps (hE.sub rfl) ?_
    | with_reducible refine State.openFrame_keeps (hE.sub rfl) ?_
    | with_reducible refine State.modFrame_keeps (hE.sub rfl) ?_
    | with_reducible refine Inv.ite ?_ ?_
    | split
    | dsimp only

theorem State.cameraTrigger_keeps {I : Inv} {s : State} (hE : I.has [.line, .web, .ports, .fsPorts, .slices, .ctx, .links, .regs, .dict, .doors, .irq, .chain, .ledger, .events, .out]) (h : I.P s) {c : PortIx}  :
    I.P (State.cameraTrigger s c) := by
  unfold State.cameraTrigger
  try dsimp only
  repeat' first
    | with_reducible assumption
    | intro _
    | with_reducible refine State.plainTrigger_keeps (hE.sub rfl) ?_
    | with_reducible refine Inv.ite ?_ ?_
    | split
    | dsimp only

theorem State.openingValues_keeps {I : Inv} {s : State} (hE : I.has [.regs, .dict, .doors, .irq, .chain, .ledger, .events, .out]) (h : I.P s) {c : PortIx}  :
    I.P (State.openingValues s c) := by
  unfold State.openingValues
  try dsimp only
  repeat' first
    | with_reducible assumption
    | intro _
    | with_reducible refine State.lineValues_keeps (hE.sub rfl) ?_
    | with_reducible refine Inv.ite ?_ ?_
    | split
    | dsimp only

theorem State.missedFirst_keeps {I : Inv} {s : State} (hE : I.has [.fsPorts, .slices, .cores, .cmd, .det, .links, .regs, .dict, .irq, .hostMem, .oasis, .events, .out, .free]) (h : I.P s) {c : PortIx}  :
    I.P (State.missedFirst s c) := by
  unfold State.missedFirst
  try dsimp only
  repeat' first
    | with_reducible assumption
    | intro _
    | with_reducible refine State.cancelTo_keeps (hE.sub rfl) ?_
    | with_reducible refine Inv.ite ?_ ?_
    | split
    | dsimp only

theorem State.matchRow_keeps {I : Inv} {s : State} (hE : I.has [.web, .ports, .fsPorts, .slices, .cores, .cmd, .det, .links, .regs, .dict, .doors, .irq, .chain, .ledger, .hostMem, .oasis, .events, .out, .free]) (h : I.P s) {c : PortIx}  {a t} (e : State.matchRow s c = (a, t)) :
    I.P t := by
  unfold State.matchRow at e
  revert e
  repeat' first
    | (with_reducible (intro e; cases e))
    | split
    | dsimp only
    | with_reducible assumption
    | intro _
    | with_reducible refine State.missedFirst_keeps (hE.sub rfl) ?_
    | with_reducible refine State.admitLine_keeps (hE.sub rfl) ?_
    | with_reducible refine State.modEntry_keeps (hE.sub rfl) ?_
    | with_reducible refine State.camCount_keeps (hE.sub rfl) ?_
    | with_reducible refine State.modPort_keeps (hE.sub rfl) ?_
    | with_reducible refine State.camInt_keeps (hE.sub rfl) ?_
    | with_reducible refine Inv.ite ?_ ?_
    | split
    | dsimp only

theorem State.matchRow_snd {I : Inv} {s : State} (hE : I.has [.web, .ports, .fsPorts, .slices, .cores, .cmd, .det, .links, .regs, .dict, .doors, .irq, .chain, .ledger, .hostMem, .oasis, .events, .out, .free]) (h : I.P s) {c : PortIx} :
    I.P (State.matchRow s c).2 :=
  State.matchRow_keeps hE h rfl

theorem State.rowOpen_keeps {I : Inv} {s : State} (hE : I.has [.line, .web, .ports, .fsPorts, .slices, .cores, .cmd, .ctx, .det, .links, .regs, .dict, .doors, .irq, .chain, .ledger, .hostMem, .oasis, .events, .out, .free]) (h : I.P s) {c : PortIx} {check : Bool}  :
    I.P (State.rowOpen s c check) := by
  unfold State.rowOpen
  try dsimp only
  repeat' first
    | with_reducible assumption
    | intro _
    | with_reducible refine State.openingValues_keeps (hE.sub rfl) ?_
    | with_reducible refine State.cameraTrigger_keeps (hE.sub rfl) ?_
    | with_reducible refine State.flushHeld_keeps (hE.sub rfl) ?_
    | with_reducible refine State.countRow_keeps (hE.sub rfl) ?_
    | with_reducible refine State.matchRow_snd (hE.sub rfl) ?_
    | with_reducible refine State.matchRow_keeps (hE.sub rfl) ?_ (by with_reducible assumption)
    | with_reducible refine State.modPort_keeps (hE.sub rfl) ?_
    | with_reducible refine Inv.ite ?_ ?_
    | split
    | dsimp only

theorem State.badPacket_keeps {I : Inv} {s : State} (hE : I.has [.line, .web, .ports, .fsPorts, .slices, .cores, .cmd, .ctx, .det, .links, .regs, .dict, .doors, .irq, .chain, .ledger, .hostMem, .oasis, .events, .out, .free]) (h : I.P s) {c : PortIx} {lane : Fin 4} {pixels : List W16}  :
    I.P (State.badPacket s c lane pixels) := by
  unfold State.badPacket
  try dsimp only
  repeat' first
    | with_reducible assumption
    | intro _
    | with_reducible refine State.rowPixels_keeps (hE.sub rfl) ?_
    | with_reducible refine State.camCount_keeps (hE.sub rfl) ?_
    | with_reducible refine State.modFrame_keeps (hE.sub rfl) ?_
    | with_reducible refine State.rowOpen_keeps (hE.sub rfl) ?_
    | with_reducible refine State.camInt_keeps (hE.sub rfl) ?_
    | with_reducible refine Inv.ite ?_ ?_
    | split
    | dsimp only

theorem execImageHeader_ok {I : Inv} {s : State} (hE : I.has [.line, .web, .ports, .fsPorts, .slices, .cores, .cmd, .ctx, .det, .links, .regs, .dict, .doors, .irq, .chain, .ledger, .hostMem, .oasis, .events, .out, .free]) (h : I.P s) {port : PortIx} {stream : Byte} {pixelBits : Byte} {arrangement : Byte} {failedOn : Option (Fin 4)}  :
    I.ok (execImageHeader port stream pixelBits arrangement failedOn s) := by
  unfold execImageHeader
  repeat' first
    | with_reducible assumption
    | (extract_lets +onlyGivenNames v
       first
         | (have hv : I.P v := by
              dsimp only [v]
              repeat' first
                | with_reducible assumption
                | with_reducible refine Inv.ok_act ?_ ?_
                | with_reducible refine Inv.ok_next ?_
                | with_reducible exact Inv.ok_refused _
                | with_reducible refine Inv.ok_ite ?_ ?_
                | with_reducible refine State.closeFrame_keeps (hE.sub rfl) ?_
                | with_reducible refine State.openFrame_keeps (hE.sub rfl) ?_
                | with_reducible refine State.badPacket_keeps (hE.sub rfl) ?_
                | with_reducible refine State.malformed_keeps (hE.sub rfl) ?_
                | with_reducible refine State.onStream_keeps (hE.sub rfl) ?_ ?_
                | with_reducible refine State.rowEnd_keeps (hE.sub rfl) ?_
                | with_reducible refine Inv.ite ?_ ?_
                | split
                | intro _
                | dsimp only
            clear_value v)
         | (try dsimp only [v]
            clear v))
    | with_reducible refine Inv.ok_act ?_ ?_
    | with_reducible refine Inv.ok_next ?_
    | with_reducible exact Inv.ok_refused _
    | with_reducible refine Inv.ok_ite ?_ ?_
    | with_reducible refine State.closeFrame_keeps (hE.sub rfl) ?_
    | with_reducible refine State.openFrame_keeps (hE.sub rfl) ?_
    | with_reducible refine State.badPacket_keeps (hE.sub rfl) ?_
    | with_reducible refine State.malformed_keeps (hE.sub rfl) ?_
    | with_reducible refine State.onStream_keeps (hE.sub rfl) ?_ ?_
    | with_reducible refine State.rowEnd_keeps (hE.sub rfl) ?_
    | with_reducible refine Inv.ite ?_ ?_
    | split
    | intro _
    | dsimp only

theorem execLineMarker_ok {I : Inv} {s : State} (hE : I.has [.line, .web, .ports, .fsPorts, .slices, .cores, .cmd, .ctx, .det, .links, .regs, .dict, .doors, .irq, .chain, .ledger, .hostMem, .oasis, .events, .out, .free]) (h : I.P s) {port : PortIx} {stream : Byte}  :
    I.ok (execLineMarker port stream s) := by
  unfold execLineMarker
  try dsimp only
  repeat' first
    | with_reducible assumption
    | with_reducible refine Inv.ok_act ?_ ?_
    | with_reducible refine Inv.ok_next ?_
    | with_reducible exact Inv.ok_refused _
    | with_reducible refine Inv.ok_ite ?_ ?_
    | with_reducible refine State.openFrame_keeps (hE.sub rfl) ?_
    | with_reducible refine State.onStream_keeps (hE.sub rfl) ?_ ?_
    | with_reducible refine State.rowOpen_keeps (hE.sub rfl) ?_
    | with_reducible refine State.rowEnd_keeps (hE.sub rfl) ?_
    | with_reducible refine Inv.ite ?_ ?_
    | split
    | intro _
    | dsimp only

theorem execPixelDataPacket_ok {I : Inv} {s : State} (hE : I.has [.web, .ports, .fsPorts, .slices, .regs, .dict, .doors, .irq, .chain, .ledger, .events, .out]) (h : I.P s) {port : PortIx} {stream : Byte} {pixels : List W16}  :
    I.ok (execPixelDataPacket port stream pixels s) := by
  unfold execPixelDataPacket
  try dsimp only
  repeat' first
    | with_reducible assumption
    | with_reducible refine Inv.ok_act ?_ ?_
    | with_reducible refine Inv.ok_next ?_
    | with_reducible exact Inv.ok_refused _
    | with_reducible refine Inv.ok_ite ?_ ?_
    | with_reducible refine State.rowPixels_keeps (hE.sub rfl) ?_
    | with_reducible refine State.camCount_keeps (hE.sub rfl) ?_
    | with_reducible refine State.onStream_keeps (hE.sub rfl) ?_ ?_
    | with_reducible refine Inv.ite ?_ ?_
    | split
    | intro _
    | dsimp only

theorem execCheckFailedPacket_ok {I : Inv} {s : State} (hE : I.has [.line, .web, .ports, .fsPorts, .slices, .cores, .cmd, .ctx, .det, .links, .regs, .dict, .doors, .irq, .chain, .ledger, .hostMem, .oasis, .events, .out, .free]) (h : I.P s) {port : PortIx} {lane : Fin 4} {pixels : List W16}  :
    I.ok (execCheckFailedPacket port lane pixels s) := by
  unfold execCheckFailedPacket
  try dsimp only
  repeat' first
    | with_reducible assumption
    | with_reducible refine Inv.ok_act ?_ ?_
    | with_reducible refine Inv.ok_next ?_
    | with_reducible exact Inv.ok_refused _
    | with_reducible refine Inv.ok_ite ?_ ?_
    | with_reducible refine State.badPacket_keeps (hE.sub rfl) ?_
    | intro _
    | dsimp only

theorem execFrameEnd_ok {I : Inv} {s : State} (hE : I.has [.web, .ports, .fsPorts, .slices, .regs, .dict, .doors, .irq, .chain, .ledger, .events, .out]) (h : I.P s) {port : PortIx} {stream : Byte}  :
    I.ok (execFrameEnd port stream s) := by
  unfold execFrameEnd
  try dsimp only
  repeat' first
    | with_reducible assumption
    | with_reducible refine Inv.ok_act ?_ ?_
    | with_reducible refine Inv.ok_next ?_
    | with_reducible exact Inv.ok_refused _
    | with_reducible refine Inv.ok_ite ?_ ?_
    | with_reducible refine State.closeFrame_keeps (hE.sub rfl) ?_
    | with_reducible refine State.onStream_keeps (hE.sub rfl) ?_ ?_
    | with_reducible refine State.rowEnd_keeps (hE.sub rfl) ?_
    | intro _
    | dsimp only

theorem execMalformedPacket_ok {I : Inv} {s : State} (hE : I.has [.ports, .regs, .irq, .out]) (h : I.P s) {port : PortIx}  :
    I.ok (execMalformedPacket port s) := by
  unfold execMalformedPacket
  try dsimp only
  repeat' first
    | with_reducible assumption
    | with_reducible refine Inv.ok_act ?_ ?_
    | with_reducible refine Inv.ok_next ?_
    | with_reducible exact Inv.ok_refused _
    | with_reducible refine Inv.ok_ite ?_ ?_
    | with_reducible refine State.malformed_keeps (hE.sub rfl) ?_
    | intro _
    | dsimp only

theorem execLineDataTimeout_ok {I : Inv} {s : State} (hE : I.has [.web, .ports, .fsPorts, .slices, .regs, .dict, .doors, .irq, .chain, .ledger, .events, .out]) (h : I.P s) {port : PortIx}  :
    I.ok (execLineDataTimeout port s) := by
  unfold execLineDataTimeout
  try dsimp only
  repeat' first
    | with_reducible assumption
    | with_reducible refine Inv.ok_act ?_ ?_
    | with_reducible refine Inv.ok_next ?_
    | with_reducible exact Inv.ok_refused _
    | with_reducible refine Inv.ok_ite ?_ ?_
    | with_reducible refine State.rowEnd_keeps (hE.sub rfl) ?_
    | intro _
    | dsimp only

theorem execLineTimeoutAbsent_ok {I : Inv} {s : State} (hE : I.has [.web, .ports, .fsPorts, .slices, .regs, .dict, .doors, .irq, .chain, .ledger, .events, .out]) (h : I.P s) {port : PortIx}  :
    I.ok (execLineTimeoutAbsent port s) := by
  unfold execLineTimeoutAbsent
  try dsimp only
  repeat' first
    | with_reducible assumption
    | with_reducible refine Inv.ok_act ?_ ?_
    | with_reducible refine Inv.ok_next ?_
    | with_reducible exact Inv.ok_refused _
    | with_reducible refine Inv.ok_ite ?_ ?_
    | with_reducible refine State.declareAbsent_keeps (hE.sub rfl) ?_
    | intro _
    | dsimp only

theorem execLineReleaseTimeout_ok {I : Inv} {s : State} (hE : I.has [.web, .ports, .slices, .regs, .dict, .events]) (h : I.P s) {port : PortIx}  :
    I.ok (execLineReleaseTimeout port s) := by
  unfold execLineReleaseTimeout
  try dsimp only
  repeat' first
    | with_reducible assumption
    | with_reducible refine Inv.ok_act ?_ ?_
    | with_reducible refine Inv.ok_next ?_
    | with_reducible exact Inv.ok_refused _
    | with_reducible refine Inv.ok_ite ?_ ?_
    | with_reducible refine State.flushHeld_keeps (hE.sub rfl) ?_
    | intro _
    | dsimp only

end Sys2Proof.Machine
end

