-- ==== Sys2Proof/Laws/KeepsTrim.lean ====
section
/-! SUPPORT. The operations of Machine/Trim.lean keep every predicate that lets their parts change. -/

set_option linter.unreachableTactic false
set_option linter.unusedTactic false

namespace Sys2Proof.Machine

theorem State.setTrimBytes_keeps {I : Inv} {s : State} (hE : I.has [.trim]) (h : I.P s) {i : Nat} {l : List Nat} :
    I.P (State.setTrimBytes s i l) := by
  induction l generalizing s i with
  | nil => simpa only [State.setTrimBytes] using h
  | cons a r ih =>
    simp only [State.setTrimBytes]
    repeat' first
      | with_reducible assumption
      | intro _
      | refine ih ?_
      | with_reducible refine State.modTrim_keeps (hE.sub rfl) ?_
      | with_reducible refine Inv.ite ?_ ?_
      | split
      | dsimp only
      | (with_reducible refine Inv.set (fun p => ?_) ?_
         · fail_if_success with_reducible (cases p <;> first
             | exact Or.inl rfl | exact Or.inl ⟨rfl, rfl⟩ | exact Or.inl ⟨rfl, rfl, rfl⟩ | exact Or.inl ⟨rfl, rfl, rfl, rfl⟩ | exact Or.inl ⟨rfl, rfl, rfl, rfl, rfl⟩
             | exact Or.inl ⟨rfl, rfl, rfl, rfl, rfl, rfl⟩ | exact Or.inl ⟨rfl, rfl, rfl, rfl, rfl, rfl, rfl⟩ | exact Or.inl ⟨rfl, rfl, rfl, rfl, rfl, rfl, rfl, rfl, rfl⟩
             | exact Or.inl ⟨rfl, rfl, rfl, rfl, rfl, rfl, rfl, rfl, rfl, rfl, rfl, rfl, rfl, rfl⟩)
           with_reducible (cases p <;> first
             | exact Or.inl rfl | exact Or.inl ⟨rfl, rfl⟩ | exact Or.inl ⟨rfl, rfl, rfl⟩ | exact Or.inl ⟨rfl, rfl, rfl, rfl⟩ | exact Or.inl ⟨rfl, rfl, rfl, rfl, rfl⟩
             | exact Or.inl ⟨rfl, rfl, rfl, rfl, rfl, rfl⟩ | exact Or.inl ⟨rfl, rfl, rfl, rfl, rfl, rfl, rfl⟩ | exact Or.inl ⟨rfl, rfl, rfl, rfl, rfl, rfl, rfl, rfl, rfl⟩
             | exact Or.inl ⟨rfl, rfl, rfl, rfl, rfl, rfl, rfl, rfl, rfl, rfl, rfl, rfl, rfl, rfl⟩
             | exact Or.inr ⟨hE _ (by decide), True.intro⟩ | exact Or.inr ⟨hE _ (by decide), _, rfl⟩))
      | fail

theorem State.spareSeen_keeps {I : Inv} {s : State} (hE : I.has [.trim]) (h : I.P s) {k : Nat} {n : Nat}  :
    I.P (State.spareSeen s k n) := by
  unfold State.spareSeen
  try dsimp only
  repeat' first
    | with_reducible assumption
    | intro _
    | with_reducible refine State.modTrim_keeps (hE.sub rfl) ?_
    | dsimp only
    | (with_reducible refine Inv.set (fun p => ?_) ?_
       · fail_if_success with_reducible (cases p <;> first
           | exact Or.inl rfl | exact Or.inl ⟨rfl, rfl⟩ | exact Or.inl ⟨rfl, rfl, rfl⟩ | exact Or.inl ⟨rfl, rfl, rfl, rfl⟩ | exact Or.inl ⟨rfl, rfl, rfl, rfl, rfl⟩
           | exact Or.inl ⟨rfl, rfl, rfl, rfl, rfl, rfl⟩ | exact Or.inl ⟨rfl, rfl, rfl, rfl, rfl, rfl, rfl⟩ | exact Or.inl ⟨rfl, rfl, rfl, rfl, rfl, rfl, rfl, rfl, rfl⟩
           | exact Or.inl ⟨rfl, rfl, rfl, rfl, rfl, rfl, rfl, rfl, rfl, rfl, rfl, rfl, rfl, rfl⟩)
         with_reducible (cases p <;> first
           | exact Or.inl rfl | exact Or.inl ⟨rfl, rfl⟩ | exact Or.inl ⟨rfl, rfl, rfl⟩ | exact Or.inl ⟨rfl, rfl, rfl, rfl⟩ | exact Or.inl ⟨rfl, rfl, rfl, rfl, rfl⟩
           | exact Or.inl ⟨rfl, rfl, rfl, rfl, rfl, rfl⟩ | exact Or.inl ⟨rfl, rfl, rfl, rfl, rfl, rfl, rfl⟩ | exact Or.inl ⟨rfl, rfl, rfl, rfl, rfl, rfl, rfl, rfl, rfl⟩
           | exact Or.inl ⟨rfl, rfl, rfl, rfl, rfl, rfl, rfl, rfl, rfl, rfl, rfl, rfl, rfl, rfl⟩
           | exact Or.inr ⟨hE _ (by decide), True.intro⟩ | exact Or.inr ⟨hE _ (by decide), _, rfl⟩))
    | fail

theorem State.columnsSeen_keeps {I : Inv} {s : State} (hE : I.has [.trim]) (h : I.P s) {n : Nat}  :
    I.P (State.columnsSeen s n) := by
  unfold State.columnsSeen
  try dsimp only
  repeat' first
    | with_reducible assumption
    | intro _
    | with_reducible refine State.spareSeen_keeps (hE.sub rfl) ?_
    | dsimp only

theorem State.trimColumns_keeps {I : Inv} {s : State} (hE : I.has [.trim]) (h : I.P s) {u : Nat} {faulty : List Nat}  :
    I.P (State.trimColumns s u faulty) := by
  unfold State.trimColumns
  try dsimp only
  repeat' first
    | with_reducible assumption
    | intro _
    | with_reducible refine State.setTrimBytes_keeps (hE.sub rfl) ?_
    | with_reducible refine State.columnsSeen_keeps (hE.sub rfl) ?_
    | with_reducible refine Inv.ite ?_ ?_
    | split
    | dsimp only

theorem State.trimWires_keeps {I : Inv} {s : State} (hE : I.has [.links, .trim]) (h : I.P s) {e : Nat} {faulty : List Nat} {kind : Nat}  {t b} (e : State.trimWires s e faulty kind = (t, b)) :
    I.P t := by
  unfold State.trimWires at e
  revert e
  repeat' first
    | (with_reducible (intro e; cases e))
    | split
    | dsimp only
    | with_reducible assumption
    | intro _
    | with_reducible refine State.setTrimBytes_keeps (hE.sub rfl) ?_
    | with_reducible refine State.spareSeen_keeps (hE.sub rfl) ?_
    | with_reducible refine State.modTrim_keeps (hE.sub rfl) ?_
    | with_reducible refine State.modLink_keeps (hE.sub rfl) ?_
    | with_reducible refine Inv.foldl ?_ ?_
    | with_reducible refine Inv.ite ?_ ?_
    | split
    | dsimp only
    | (with_reducible refine Inv.set (fun p => ?_) ?_
       · fail_if_success with_reducible (cases p <;> first
           | exact Or.inl rfl | exact Or.inl ⟨rfl, rfl⟩ | exact Or.inl ⟨rfl, rfl, rfl⟩ | exact Or.inl ⟨rfl, rfl, rfl, rfl⟩ | exact Or.inl ⟨rfl, rfl, rfl, rfl, rfl⟩
           | exact Or.inl ⟨rfl, rfl, rfl, rfl, rfl, rfl⟩ | exact Or.inl ⟨rfl, rfl, rfl, rfl, rfl, rfl, rfl⟩ | exact Or.inl ⟨rfl, rfl, rfl, rfl, rfl, rfl, rfl, rfl, rfl⟩
           | exact Or.inl ⟨rfl, rfl, rfl, rfl, rfl, rfl, rfl, rfl, rfl, rfl, rfl, rfl, rfl, rfl⟩)
         with_reducible (cases p <;> first
           | exact Or.inl rfl | exact Or.inl ⟨rfl, rfl⟩ | exact Or.inl ⟨rfl, rfl, rfl⟩ | exact Or.inl ⟨rfl, rfl, rfl, rfl⟩ | exact Or.inl ⟨rfl, rfl, rfl, rfl, rfl⟩
           | exact Or.inl ⟨rfl, rfl, rfl, rfl, rfl, rfl⟩ | exact Or.inl ⟨rfl, rfl, rfl, rfl, rfl, rfl, rfl⟩ | exact Or.inl ⟨rfl, rfl, rfl, rfl, rfl, rfl, rfl, rfl, rfl⟩
           | exact Or.inl ⟨rfl, rfl, rfl, rfl, rfl, rfl, rfl, rfl, rfl, rfl, rfl, rfl, rfl, rfl⟩
           | exact Or.inr ⟨hE _ (by decide), True.intro⟩ | exact Or.inr ⟨hE _ (by decide), _, rfl⟩))
    | fail

theorem State.trimWires_snd {I : Inv} {s : State} (hE : I.has [.links, .trim]) (h : I.P s) {e : Nat} {faulty : List Nat} {kind : Nat} :
    I.P (State.trimWires s e faulty kind).1 :=
  State.trimWires_keeps hE h rfl

theorem State.trimRow_keeps {I : Inv} {s : State} (hE : I.has [.trim]) (h : I.P s) {addr : Nat}  {t b} (e : State.trimRow s addr = (t, b)) :
    I.P t := by
  unfold State.trimRow at e
  revert e
  repeat' first
    | (with_reducible (intro e; cases e))
    | split
    | dsimp only
    | with_reducible assumption
    | intro _
    | with_reducible refine State.setTrimBytes_keeps (hE.sub rfl) ?_
    | with_reducible refine State.spareSeen_keeps (hE.sub rfl) ?_
    | with_reducible refine State.modTrim_keeps (hE.sub rfl) ?_
    | with_reducible refine Inv.ite ?_ ?_
    | split
    | dsimp only
    | (with_reducible refine Inv.set (fun p => ?_) ?_
       · fail_if_success with_reducible (cases p <;> first
           | exact Or.inl rfl | exact Or.inl ⟨rfl, rfl⟩ | exact Or.inl ⟨rfl, rfl, rfl⟩ | exact Or.inl ⟨rfl, rfl, rfl, rfl⟩ | exact Or.inl ⟨rfl, rfl, rfl, rfl, rfl⟩
           | exact Or.inl ⟨rfl, rfl, rfl, rfl, rfl, rfl⟩ | exact Or.inl ⟨rfl, rfl, rfl, rfl, rfl, rfl, rfl⟩ | exact Or.inl ⟨rfl, rfl, rfl, rfl, rfl, rfl, rfl, rfl, rfl⟩
           | exact Or.inl ⟨rfl, rfl, rfl, rfl, rfl, rfl, rfl, rfl, rfl, rfl, rfl, rfl, rfl, rfl⟩)
         with_reducible (cases p <;> first
           | exact Or.inl rfl | exact Or.inl ⟨rfl, rfl⟩ | exact Or.inl ⟨rfl, rfl, rfl⟩ | exact Or.inl ⟨rfl, rfl, rfl, rfl⟩ | exact Or.inl ⟨rfl, rfl, rfl, rfl, rfl⟩
           | exact Or.inl ⟨rfl, rfl, rfl, rfl, rfl, rfl⟩ | exact Or.inl ⟨rfl, rfl, rfl, rfl, rfl, rfl, rfl⟩ | exact Or.inl ⟨rfl, rfl, rfl, rfl, rfl, rfl, rfl, rfl, rfl⟩
           | exact Or.inl ⟨rfl, rfl, rfl, rfl, rfl, rfl, rfl, rfl, rfl, rfl, rfl, rfl, rfl, rfl⟩
           | exact Or.inr ⟨hE _ (by decide), True.intro⟩ | exact Or.inr ⟨hE _ (by decide), _, rfl⟩))
    | fail

theorem State.trimRow_snd {I : Inv} {s : State} (hE : I.has [.trim]) (h : I.P s) {addr : Nat} :
    I.P (State.trimRow s addr).1 :=
  State.trimRow_keeps hE h rfl

theorem State.trimLanes_keeps {I : Inv} {s : State} (hE : I.has [.trim]) (h : I.P s) {ch : Nat} {faulty : List Nat}  {t b} (e : State.trimLanes s ch faulty = (t, b)) :
    I.P t := by
  unfold State.trimLanes at e
  revert e
  repeat' first
    | (with_reducible (intro e; cases e))
    | split
    | dsimp only
    | with_reducible assumption
    | intro _
    | with_reducible refine State.setTrimBytes_keeps (hE.sub rfl) ?_
    | with_reducible refine State.spareSeen_keeps (hE.sub rfl) ?_
    | with_reducible refine Inv.ite ?_ ?_
    | split
    | dsimp only

theorem State.trimLanes_snd {I : Inv} {s : State} (hE : I.has [.trim]) (h : I.P s) {ch : Nat} {faulty : List Nat} :
    I.P (State.trimLanes s ch faulty).1 :=
  State.trimLanes_keeps hE h rfl

theorem State.trimTake_keeps {I : Inv} {s : State} (hE : I.has [.web, .ports, .fsPorts, .slices, .cores, .cmd, .links, .regs, .dict, .doors, .irq, .chain, .ledger, .events, .out]) (h : I.P s) {x : TrimItem}  :
    I.P (State.trimTake s x) := by
  unfold State.trimTake
  repeat' first
    | with_reducible assumption
    | (extract_lets +onlyGivenNames v
       first
         | (have hv : I.P v := by
              dsimp only [v]
              repeat' first
                | with_reducible assumption
                | intro _
                | with_reducible refine State.coreStatus_keeps (hE.sub rfl) ?_
                | with_reducible refine State.portDown_keeps (hE.sub rfl) ?_
                | with_reducible refine State.modPort_keeps (hE.sub rfl) ?_
                | with_reducible refine State.abandon_keeps (hE.sub rfl) ?_
                | with_reducible refine State.modCore_keeps (hE.sub rfl) ?_
                | with_reducible refine State.linkEnd_keeps (hE.sub rfl) ?_
                | with_reducible refine Inv.foldl ?_ ?_
                | with_reducible refine Inv.ite ?_ ?_
                | split
                | dsimp only
            clear_value v)
         | (try dsimp only [v]
            clear v))
    | intro _
    | with_reducible refine State.coreStatus_keeps (hE.sub rfl) ?_
    | with_reducible refine State.portDown_keeps (hE.sub rfl) ?_
    | with_reducible refine State.modPort_keeps (hE.sub rfl) ?_
    | with_reducible refine State.abandon_keeps (hE.sub rfl) ?_
    | with_reducible refine State.modCore_keeps (hE.sub rfl) ?_
    | with_reducible refine State.linkEnd_keeps (hE.sub rfl) ?_
    | with_reducible refine Inv.foldl ?_ ?_
    | with_reducible refine Inv.ite ?_ ?_
    | split
    | dsimp only

theorem State.opesReturn_keeps {I : Inv} {s : State} (hE : I.has [.cores]) (h : I.P s) {k : CoreIx} {es : List Nat}  :
    I.P (State.opesReturn s k es) := by
  unfold State.opesReturn
  try dsimp only
  repeat' first
    | with_reducible assumption
    | intro _
    | with_reducible refine State.modCore_keeps (hE.sub rfl) ?_
    | with_reducible refine Inv.foldl ?_ ?_
    | with_reducible refine Inv.ite ?_ ?_
    | split
    | dsimp only

theorem State.trimReturn_keeps {I : Inv} {s : State} (hE : I.has [.cores, .links]) (h : I.P s) {x : TrimItem}  :
    I.P (State.trimReturn s x) := by
  unfold State.trimReturn
  try dsimp only
  repeat' first
    | with_reducible assumption
    | intro _
    | with_reducible refine State.opesReturn_keeps (hE.sub rfl) ?_
    | with_reducible refine State.linkStart_keeps (hE.sub rfl) ?_
    | with_reducible refine Inv.ite ?_ ?_
    | split
    | dsimp only

theorem State.trimStart_keeps {I : Inv} {s : State} (hE : I.has [.web, .ports, .fsPorts, .slices, .cores, .cmd, .links, .trim, .regs, .dict, .doors, .irq, .chain, .ledger, .events, .out]) (h : I.P s) {x : TrimItem}  :
    I.P (State.trimStart s x) := by
  unfold State.trimStart
  try dsimp only
  repeat' first
    | with_reducible assumption
    | intro _
    | with_reducible refine State.forceRow_keeps (hE.sub rfl) ?_
    | with_reducible refine State.trimTake_keeps (hE.sub rfl) ?_
    | with_reducible refine State.modTrim_keeps (hE.sub rfl) ?_
    | with_reducible refine Inv.ite ?_ ?_
    | split
    | dsimp only
    | (with_reducible refine Inv.set (fun p => ?_) ?_
       · fail_if_success with_reducible (cases p <;> first
           | exact Or.inl rfl | exact Or.inl ⟨rfl, rfl⟩ | exact Or.inl ⟨rfl, rfl, rfl⟩ | exact Or.inl ⟨rfl, rfl, rfl, rfl⟩ | exact Or.inl ⟨rfl, rfl, rfl, rfl, rfl⟩
           | exact Or.inl ⟨rfl, rfl, rfl, rfl, rfl, rfl⟩ | exact Or.inl ⟨rfl, rfl, rfl, rfl, rfl, rfl, rfl⟩ | exact Or.inl ⟨rfl, rfl, rfl, rfl, rfl, rfl, rfl, rfl, rfl⟩
           | exact Or.inl ⟨rfl, rfl, rfl, rfl, rfl, rfl, rfl, rfl, rfl, rfl, rfl, rfl, rfl, rfl⟩)
         with_reducible (cases p <;> first
           | exact Or.inl rfl | exact Or.inl ⟨rfl, rfl⟩ | exact Or.inl ⟨rfl, rfl, rfl⟩ | exact Or.inl ⟨rfl, rfl, rfl, rfl⟩ | exact Or.inl ⟨rfl, rfl, rfl, rfl, rfl⟩
           | exact Or.inl ⟨rfl, rfl, rfl, rfl, rfl, rfl⟩ | exact Or.inl ⟨rfl, rfl, rfl, rfl, rfl, rfl, rfl⟩ | exact Or.inl ⟨rfl, rfl, rfl, rfl, rfl, rfl, rfl, rfl, rfl⟩
           | exact Or.inl ⟨rfl, rfl, rfl, rfl, rfl, rfl, rfl, rfl, rfl, rfl, rfl, rfl, rfl, rfl⟩
           | exact Or.inr ⟨hE _ (by decide), True.intro⟩ | exact Or.inr ⟨hE _ (by decide), _, rfl⟩))
    | fail

theorem State.trimCmdEnd_keeps {I : Inv} {s : State} (hE : I.has [.regs, .irq, .out]) (h : I.P s) {result : Nat}  :
    I.P (State.trimCmdEnd s result) := by
  unfold State.trimCmdEnd
  try dsimp only
  repeat' first
    | with_reducible assumption
    | intro _
    | with_reducible refine State.raiseInt_keeps (hE.sub rfl) ?_
    | with_reducible refine State.setReg_keeps (hE.sub rfl) ?_
    | dsimp only

theorem execTrimCmdMakeDue_ok {I : Inv} {s : State} (hE : I.has [.trim, .regs, .irq, .out]) (h : I.P s) {value : W32}  :
    I.ok (execTrimCmdMakeDue value s) := by
  unfold execTrimCmdMakeDue
  try dsimp only
  repeat' first
    | with_reducible assumption
    | with_reducible refine Inv.ok_act ?_ ?_
    | with_reducible refine Inv.ok_next ?_
    | with_reducible exact Inv.ok_refused _
    | with_reducible refine Inv.ok_ite ?_ ?_
    | with_reducible refine State.trimCmdEnd_keeps (hE.sub rfl) ?_
    | with_reducible refine State.trimDue_keeps (hE.sub rfl) ?_
    | with_reducible refine Inv.ite ?_ ?_
    | split
    | intro _
    | dsimp only

theorem execTrimCmdForce_ok {I : Inv} {s : State} (hE : I.has [.web, .ports, .fsPorts, .slices, .cores, .cmd, .links, .trim, .regs, .dict, .doors, .irq, .chain, .ledger, .events, .out]) (h : I.P s) {value : W32}  :
    I.ok (execTrimCmdForce value s) := by
  unfold execTrimCmdForce
  try dsimp only
  repeat' first
    | with_reducible assumption
    | with_reducible refine Inv.ok_act ?_ ?_
    | with_reducible refine Inv.ok_next ?_
    | with_reducible exact Inv.ok_refused _
    | with_reducible refine Inv.ok_ite ?_ ?_
    | with_reducible refine State.trimCmdEnd_keeps (hE.sub rfl) ?_
    | with_reducible refine State.trimStart_keeps (hE.sub rfl) ?_
    | with_reducible refine State.modTrim_keeps (hE.sub rfl) ?_
    | with_reducible refine State.count64_keeps (hE.sub rfl) ?_
    | with_reducible refine State.setReg_keeps (hE.sub rfl) ?_
    | with_reducible refine Inv.ite ?_ ?_
    | split
    | intro _
    | dsimp only
    | (with_reducible refine Inv.set (fun p => ?_) ?_
       · fail_if_success with_reducible (cases p <;> first
           | exact Or.inl rfl | exact Or.inl ⟨rfl, rfl⟩ | exact Or.inl ⟨rfl, rfl, rfl⟩ | exact Or.inl ⟨rfl, rfl, rfl, rfl⟩ | exact Or.inl ⟨rfl, rfl, rfl, rfl, rfl⟩
           | exact Or.inl ⟨rfl, rfl, rfl, rfl, rfl, rfl⟩ | exact Or.inl ⟨rfl, rfl, rfl, rfl, rfl, rfl, rfl⟩ | exact Or.inl ⟨rfl, rfl, rfl, rfl, rfl, rfl, rfl, rfl, rfl⟩
           | exact Or.inl ⟨rfl, rfl, rfl, rfl, rfl, rfl, rfl, rfl, rfl, rfl, rfl, rfl, rfl, rfl⟩)
         with_reducible (cases p <;> first
           | exact Or.inl rfl | exact Or.inl ⟨rfl, rfl⟩ | exact Or.inl ⟨rfl, rfl, rfl⟩ | exact Or.inl ⟨rfl, rfl, rfl, rfl⟩ | exact Or.inl ⟨rfl, rfl, rfl, rfl, rfl⟩
           | exact Or.inl ⟨rfl, rfl, rfl, rfl, rfl, rfl⟩ | exact Or.inl ⟨rfl, rfl, rfl, rfl, rfl, rfl, rfl⟩ | exact Or.inl ⟨rfl, rfl, rfl, rfl, rfl, rfl, rfl, rfl, rfl⟩
           | exact Or.inl ⟨rfl, rfl, rfl, rfl, rfl, rfl, rfl, rfl, rfl, rfl, rfl, rfl, rfl, rfl⟩
           | exact Or.inr ⟨hE _ (by decide), True.intro⟩ | exact Or.inr ⟨hE _ (by decide), _, rfl⟩))
    | fail

theorem execTrimRotationDue_ok {I : Inv} {s : State} (hE : I.has [.trim]) (h : I.P s)   :
    I.ok (execTrimRotationDue s) := by
  unfold execTrimRotationDue
  try dsimp only
  repeat' first
    | with_reducible assumption
    | with_reducible refine Inv.ok_act ?_ ?_
    | with_reducible refine Inv.ok_next ?_
    | with_reducible exact Inv.ok_refused _
    | with_reducible refine Inv.ok_ite ?_ ?_
    | with_reducible refine State.trimDue_keeps (hE.sub rfl) ?_
    | with_reducible refine State.modTrim_keeps (hE.sub rfl) ?_
    | with_reducible refine Inv.ite ?_ ?_
    | split
    | intro _
    | dsimp only
    | (with_reducible refine Inv.set (fun p => ?_) ?_
       · fail_if_success with_reducible (cases p <;> first
           | exact Or.inl rfl | exact Or.inl ⟨rfl, rfl⟩ | exact Or.inl ⟨rfl, rfl, rfl⟩ | exact Or.inl ⟨rfl, rfl, rfl, rfl⟩ | exact Or.inl ⟨rfl, rfl, rfl, rfl, rfl⟩
           | exact Or.inl ⟨rfl, rfl, rfl, rfl, rfl, rfl⟩ | exact Or.inl ⟨rfl, rfl, rfl, rfl, rfl, rfl, rfl⟩ | exact Or.inl ⟨rfl, rfl, rfl, rfl, rfl, rfl, rfl, rfl, rfl⟩
           | exact Or.inl ⟨rfl, rfl, rfl, rfl, rfl, rfl, rfl, rfl, rfl, rfl, rfl, rfl, rfl, rfl⟩)
         with_reducible (cases p <;> first
           | exact Or.inl rfl | exact Or.inl ⟨rfl, rfl⟩ | exact Or.inl ⟨rfl, rfl, rfl⟩ | exact Or.inl ⟨rfl, rfl, rfl, rfl⟩ | exact Or.inl ⟨rfl, rfl, rfl, rfl, rfl⟩
           | exact Or.inl ⟨rfl, rfl, rfl, rfl, rfl, rfl⟩ | exact Or.inl ⟨rfl, rfl, rfl, rfl, rfl, rfl, rfl⟩ | exact Or.inl ⟨rfl, rfl, rfl, rfl, rfl, rfl, rfl, rfl, rfl⟩
           | exact Or.inl ⟨rfl, rfl, rfl, rfl, rfl, rfl, rfl, rfl, rfl, rfl, rfl, rfl, rfl, rfl⟩
           | exact Or.inr ⟨hE _ (by decide), True.intro⟩ | exact Or.inr ⟨hE _ (by decide), _, rfl⟩))
    | fail

theorem execD2dErrorThreshold_ok {I : Inv} {s : State} (hE : I.has [.trim, .regs, .free]) (h : I.P s) {engine : EngineIx}  :
    I.ok (execD2dErrorThreshold engine s) := by
  unfold execD2dErrorThreshold
  try dsimp only
  repeat' first
    | with_reducible assumption
    | with_reducible refine Inv.ok_act ?_ ?_
    | with_reducible refine Inv.ok_next ?_
    | with_reducible exact Inv.ok_refused _
    | with_reducible refine Inv.ok_ite ?_ ?_
    | with_reducible refine State.takeFree_snd (hE.sub rfl) ?_
    | with_reducible refine State.takeFree_keeps (hE.sub rfl) ?_ (by with_reducible assumption)
    | with_reducible refine State.count32_keeps (hE.sub rfl) ?_
    | with_reducible refine State.trimDue_keeps (hE.sub rfl) ?_
    | with_reducible refine Inv.ite ?_ ?_
    | split
    | intro _
    | dsimp only

theorem execTrimItemStart_ok {I : Inv} {s : State} (hE : I.has [.web, .ports, .fsPorts, .slices, .cores, .cmd, .links, .trim, .regs, .dict, .doors, .irq, .chain, .ledger, .events, .out]) (h : I.P s)   :
    I.ok (execTrimItemStart s) := by
  unfold execTrimItemStart
  try dsimp only
  repeat' first
    | with_reducible assumption
    | with_reducible refine Inv.ok_act ?_ ?_
    | with_reducible refine Inv.ok_next ?_
    | with_reducible exact Inv.ok_refused _
    | with_reducible refine Inv.ok_ite ?_ ?_
    | with_reducible refine State.trimCmdEnd_keeps (hE.sub rfl) ?_
    | with_reducible refine State.trimStart_keeps (hE.sub rfl) ?_
    | with_reducible refine Inv.ite ?_ ?_
    | split
    | intro _
    | dsimp only

theorem State.trimApply_keeps {I : Inv} {s : State} (hE : I.has [.links, .trim, .regs, .irq, .events, .out]) (h : I.P s) {x : TrimItem} {faulty : List Nat}  {t b} (e : State.trimApply s x faulty = (t, b)) :
    I.P t := by
  unfold State.trimApply at e
  revert e
  repeat' first
    | (with_reducible (intro e; cases e))
    | split
    | dsimp only
    | with_reducible assumption
    | intro _
    | with_reducible refine State.trimColumns_keeps (hE.sub rfl) ?_
    | with_reducible refine State.coreStatus_keeps (hE.sub rfl) ?_
    | with_reducible refine State.trimWires_snd (hE.sub rfl) ?_
    | with_reducible refine State.trimWires_keeps (hE.sub rfl) ?_ (by with_reducible assumption)
    | with_reducible refine State.trimLanes_snd (hE.sub rfl) ?_
    | with_reducible refine State.trimLanes_keeps (hE.sub rfl) ?_ (by with_reducible assumption)
    | with_reducible refine State.trimRow_snd (hE.sub rfl) ?_
    | with_reducible refine State.trimRow_keeps (hE.sub rfl) ?_ (by with_reducible assumption)
    | with_reducible refine Inv.foldl ?_ ?_
    | with_reducible refine Inv.ite ?_ ?_
    | split
    | dsimp only

theorem State.trimApply_snd {I : Inv} {s : State} (hE : I.has [.links, .trim, .regs, .irq, .events, .out]) (h : I.P s) {x : TrimItem} {faulty : List Nat} :
    I.P (State.trimApply s x faulty).1 :=
  State.trimApply_keeps hE h rfl

theorem State.trimRecord_keeps {I : Inv} {s : State} (hE : I.has [.regs, .events]) (h : I.P s) {x : TrimItem} {outcome : Nat} {outNs : Nat}  :
    I.P (State.trimRecord s x outcome outNs) := by
  unfold State.trimRecord
  try dsimp only
  repeat' first
    | with_reducible assumption
    | intro _
    | with_reducible refine State.count64_keeps (hE.sub rfl) ?_
    | with_reducible refine State.setReg_keeps (hE.sub rfl) ?_
    | with_reducible refine State.event_keeps (hE.sub rfl) ?_
    | dsimp only

theorem State.trimEnd_keeps {I : Inv} {s : State} (hE : I.has [.regs, .dict, .irq, .events, .out]) (h : I.P s) {x : TrimItem} {outcome : Nat} {outNs : Nat}  :
    I.P (State.trimEnd s x outcome outNs) := by
  unfold State.trimEnd
  try dsimp only
  repeat' first
    | with_reducible assumption
    | intro _
    | with_reducible refine State.trimRecord_keeps (hE.sub rfl) ?_
    | with_reducible refine State.raiseInt_keeps (hE.sub rfl) ?_
    | with_reducible refine State.countOd_keeps (hE.sub rfl) ?_
    | dsimp only

theorem execTrimItemDone_ok {I : Inv} {s : State} (hE : I.has [.cores, .links, .trim, .regs, .dict, .irq, .chain, .ledger, .events, .out]) (h : I.P s) {kind : Fin 6} {unit : Nat} {faulty : List Nat} {outNs : W32}  :
    I.ok (execTrimItemDone kind unit faulty outNs s) := by
  unfold execTrimItemDone
  try dsimp only
  repeat' first
    | with_reducible assumption
    | with_reducible refine Inv.ok_act ?_ ?_
    | with_reducible refine Inv.ok_next ?_
    | with_reducible exact Inv.ok_refused _
    | with_reducible refine Inv.ok_ite ?_ ?_
    | with_reducible refine State.ledgerAppend_keeps (hE.sub rfl) ?_
    | with_reducible refine State.trimReturn_keeps (hE.sub rfl) ?_
    | with_reducible refine State.repairNext_keeps (hE.sub rfl) ?_
    | with_reducible refine State.trimApply_snd (hE.sub rfl) ?_
    | with_reducible refine State.trimApply_keeps (hE.sub rfl) ?_ (by with_reducible assumption)
    | with_reducible refine State.trimEnd_keeps (hE.sub rfl) ?_
    | with_reducible refine State.modTrim_keeps (hE.sub rfl) ?_
    | with_reducible refine Inv.ite ?_ ?_
    | split
    | intro _
    | dsimp only

theorem State.trimStopped_keeps {I : Inv} {s : State} (hE : I.has [.cores, .links, .trim, .regs, .events]) (h : I.P s) {x : TrimItem}  :
    I.P (State.trimStopped s x) := by
  unfold State.trimStopped
  try dsimp only
  repeat' first
    | with_reducible assumption
    | intro _
    | with_reducible refine State.trimRecord_keeps (hE.sub rfl) ?_
    | with_reducible refine State.trimReturn_keeps (hE.sub rfl) ?_
    | with_reducible refine State.modTrim_keeps (hE.sub rfl) ?_
    | with_reducible refine Inv.ite ?_ ?_
    | split
    | dsimp only
    | (with_reducible refine Inv.set (fun p => ?_) ?_
       · fail_if_success with_reducible (cases p <;> first
           | exact Or.inl rfl | exact Or.inl ⟨rfl, rfl⟩ | exact Or.inl ⟨rfl, rfl, rfl⟩ | exact Or.inl ⟨rfl, rfl, rfl, rfl⟩ | exact Or.inl ⟨rfl, rfl, rfl, rfl, rfl⟩
           | exact Or.inl ⟨rfl, rfl, rfl, rfl, rfl, rfl⟩ | exact Or.inl ⟨rfl, rfl, rfl, rfl, rfl, rfl, rfl⟩ | exact Or.inl ⟨rfl, rfl, rfl, rfl, rfl, rfl, rfl, rfl, rfl⟩
           | exact Or.inl ⟨rfl, rfl, rfl, rfl, rfl, rfl, rfl, rfl, rfl, rfl, rfl, rfl, rfl, rfl⟩)
         with_reducible (cases p <;> first
           | exact Or.inl rfl | exact Or.inl ⟨rfl, rfl⟩ | exact Or.inl ⟨rfl, rfl, rfl⟩ | exact Or.inl ⟨rfl, rfl, rfl, rfl⟩ | exact Or.inl ⟨rfl, rfl, rfl, rfl, rfl⟩
           | exact Or.inl ⟨rfl, rfl, rfl, rfl, rfl, rfl⟩ | exact Or.inl ⟨rfl, rfl, rfl, rfl, rfl, rfl, rfl⟩ | exact Or.inl ⟨rfl, rfl, rfl, rfl, rfl, rfl, rfl, rfl, rfl⟩
           | exact Or.inl ⟨rfl, rfl, rfl, rfl, rfl, rfl, rfl, rfl, rfl, rfl, rfl, rfl, rfl, rfl⟩
           | exact Or.inr ⟨hE _ (by decide), True.intro⟩ | exact Or.inr ⟨hE _ (by decide), _, rfl⟩))
    | fail

theorem State.trimStop_keeps {I : Inv} {s : State} (hE : I.has [.cores, .links, .trim, .regs, .events]) (h : I.P s)   :
    I.P (State.trimStop s) := by
  unfold State.trimStop
  try dsimp only
  repeat' first
    | with_reducible assumption
    | intro _
    | with_reducible refine State.trimStopped_keeps (hE.sub rfl) ?_
    | with_reducible refine Inv.foldl ?_ ?_
    | dsimp only

theorem execTrimOverdue_ok {I : Inv} {s : State} (hE : I.has [.trim, .regs, .irq, .events, .out]) (h : I.P s) {kind : Fin 6} {unit : Nat}  :
    I.ok (execTrimOverdue kind unit s) := by
  unfold execTrimOverdue
  try dsimp only
  repeat' first
    | with_reducible assumption
    | with_reducible refine Inv.ok_act ?_ ?_
    | with_reducible refine Inv.ok_next ?_
    | with_reducible exact Inv.ok_refused _
    | with_reducible refine Inv.ok_ite ?_ ?_
    | with_reducible refine State.raiseInt_keeps (hE.sub rfl) ?_
    | with_reducible refine State.modTrim_keeps (hE.sub rfl) ?_
    | with_reducible refine State.count64_keeps (hE.sub rfl) ?_
    | with_reducible refine State.event_keeps (hE.sub rfl) ?_
    | with_reducible refine Inv.ite ?_ ?_
    | split
    | intro _
    | dsimp only
    | (with_reducible refine Inv.set (fun p => ?_) ?_
       · fail_if_success with_reducible (cases p <;> first
           | exact Or.inl rfl | exact Or.inl ⟨rfl, rfl⟩ | exact Or.inl ⟨rfl, rfl, rfl⟩ | exact Or.inl ⟨rfl, rfl, rfl, rfl⟩ | exact Or.inl ⟨rfl, rfl, rfl, rfl, rfl⟩
           | exact Or.inl ⟨rfl, rfl, rfl, rfl, rfl, rfl⟩ | exact Or.inl ⟨rfl, rfl, rfl, rfl, rfl, rfl, rfl⟩ | exact Or.inl ⟨rfl, rfl, rfl, rfl, rfl, rfl, rfl, rfl, rfl⟩
           | exact Or.inl ⟨rfl, rfl, rfl, rfl, rfl, rfl, rfl, rfl, rfl, rfl, rfl, rfl, rfl, rfl⟩)
         with_reducible (cases p <;> first
           | exact Or.inl rfl | exact Or.inl ⟨rfl, rfl⟩ | exact Or.inl ⟨rfl, rfl, rfl⟩ | exact Or.inl ⟨rfl, rfl, rfl, rfl⟩ | exact Or.inl ⟨rfl, rfl, rfl, rfl, rfl⟩
           | exact Or.inl ⟨rfl, rfl, rfl, rfl, rfl, rfl⟩ | exact Or.inl ⟨rfl, rfl, rfl, rfl, rfl, rfl, rfl⟩ | exact Or.inl ⟨rfl, rfl, rfl, rfl, rfl, rfl, rfl, rfl, rfl⟩
           | exact Or.inl ⟨rfl, rfl, rfl, rfl, rfl, rfl, rfl, rfl, rfl, rfl, rfl, rfl, rfl, rfl⟩
           | exact Or.inr ⟨hE _ (by decide), True.intro⟩ | exact Or.inr ⟨hE _ (by decide), _, rfl⟩))
    | fail

theorem execTelemetrySample_ok {I : Inv} {s : State} (hE : I.has [.regs, .dict]) (h : I.P s) {values : List (Nat × Nat)}  :
    I.ok (execTelemetrySample values s) := by
  unfold execTelemetrySample
  try dsimp only
  repeat' first
    | with_reducible assumption
    | with_reducible refine Inv.ok_act ?_ ?_
    | with_reducible refine Inv.ok_next ?_
    | with_reducible exact Inv.ok_refused _
    | with_reducible refine Inv.ok_ite ?_ ?_
    | with_reducible refine State.setReg_keeps (hE.sub rfl) ?_
    | with_reducible refine State.setOd_keeps (hE.sub rfl) ?_
    | with_reducible refine Inv.foldl ?_ ?_
    | with_reducible refine Inv.ite ?_ ?_
    | split
    | intro _
    | dsimp only

end Sys2Proof.Machine
end

