-- ==== Sys2Proof/Laws/KeepsOdEffects.lean ====
section
/-! SUPPORT. The operations of Machine/OdEffects.lean keep every predicate that lets their parts change. -/

set_option linter.unreachableTactic false
set_option linter.unusedTactic false

namespace Sys2Proof.Machine

theorem State.setTimeState_keeps {I : Inv} {s : State} (hE : I.has [.rate, .regs, .dict, .irq, .events, .out]) (h : I.P s) {new : Nat} {offset : Int} {ptm : Bool}  :
    I.P (State.setTimeState s new offset ptm) := by
  unfold State.setTimeState
  repeat' first
    | with_reducible assumption
    | (extract_lets +onlyGivenNames v
       first
         | (have hv : I.P v := by
              dsimp only [v]
              repeat' first
                | with_reducible assumption
                | intro _
                | with_reducible refine State.rateLimited_keeps (hE.sub rfl) ?_ ?_
                | with_reducible refine State.raiseInt_keeps (hE.sub rfl) ?_
                | with_reducible refine State.setOd_keeps (hE.sub rfl) ?_
                | with_reducible refine State.event_keeps (hE.sub rfl) ?_
                | with_reducible refine Inv.ite ?_ ?_
                | split
                | dsimp only
            clear_value v)
         | (try dsimp only [v]
            clear v))
    | intro _
    | with_reducible refine State.rateLimited_keeps (hE.sub rfl) ?_ ?_
    | with_reducible refine State.raiseInt_keeps (hE.sub rfl) ?_
    | with_reducible refine State.setOd_keeps (hE.sub rfl) ?_
    | with_reducible refine State.event_keeps (hE.sub rfl) ?_
    | with_reducible refine Inv.ite ?_ ?_
    | split
    | dsimp only

theorem State.startAttestation_keeps {I : Inv} {s : State} (hE : I.has [.dict, .saf]) (h : I.P s) {nonce : List Byte}  :
    I.P (State.startAttestation s nonce) := by
  unfold State.startAttestation
  try dsimp only
  repeat' first
    | with_reducible assumption
    | intro _
    | with_reducible refine State.setOd_keeps (hE.sub rfl) ?_
    | dsimp only
    | (with_reducible refine Inv.set (fun p => ?_) ?_
       · fail_if_success with_reducible (cases p <;> first
           | exact Or.inl rfl | exact Or.inl ⟨rfl, rfl⟩ | exact Or.inl ⟨rfl, rfl, rfl⟩ | exact Or.inl ⟨rfl, rfl, rfl, rfl⟩ | exact Or.inl ⟨rfl, rfl, rfl, rfl, rfl⟩
           | exact Or.inl ⟨rfl, rfl, rfl, rfl, rfl, rfl⟩ | exact Or.inl ⟨rfl, rfl, rfl, rfl, rfl, rfl, rfl⟩ | exact Or.inl ⟨rfl, rfl, rfl, rfl, rfl, rfl, rfl, rfl, rfl⟩
           | exact Or.inl ⟨rfl, rfl, rfl, rfl, rfl, rfl, rfl, rfl, rfl, rfl, rfl, rfl, rfl, rfl⟩)
         with_reducible (cases p <;> first
           | exact Or.inl rfl | exact Or.inl ⟨rfl, rfl⟩ | exact Or.inl ⟨rfl, rfl, rfl⟩ | exact Or.inl ⟨rfl, rfl, rfl, rfl⟩ | exact Or.inl ⟨rfl, rfl, rfl, rfl, rfl⟩
           | exact Or.inl ⟨rfl, rfl, rfl, rfl, rfl, rfl⟩ | exact Or.inl ⟨rfl, rfl, rfl, rfl, rfl, rfl, rfl⟩ | exact Or.inl ⟨rfl, rfl, rfl, rfl, rfl, rfl, rfl, rfl, rfl⟩
           | exact Or.inl ⟨rfl, rfl, rfl, rfl, rfl, rfl, rfl, rfl, rfl, rfl, rfl, rfl, rfl, rfl⟩
           | exact Or.inr ⟨hE _ (by decide), True.intro⟩ | exact Or.inr ⟨hE _ (by decide), _, rfl⟩))
    | fail

theorem State.timeSourceEffect_keeps {I : Inv} {s : State} (hE : I.has [.rate, .regs, .dict, .irq, .pcie, .crv, .events, .out]) (h : I.P s) {v : Nat}  :
    I.P (State.timeSourceEffect s v) := by
  unfold State.timeSourceEffect
  try dsimp only
  repeat' first
    | with_reducible assumption
    | intro _
    | with_reducible refine State.setTimeState_keeps (hE.sub rfl) ?_
    | with_reducible refine Inv.ite ?_ ?_
    | split
    | dsimp only
    | with_reducible refine Inv.crv (hE.sub rfl) ?_ _
    | (with_reducible refine Inv.set (fun p => ?_) ?_
       · fail_if_success with_reducible (cases p <;> first
           | exact Or.inl rfl | exact Or.inl ⟨rfl, rfl⟩ | exact Or.inl ⟨rfl, rfl, rfl⟩ | exact Or.inl ⟨rfl, rfl, rfl, rfl⟩ | exact Or.inl ⟨rfl, rfl, rfl, rfl, rfl⟩
           | exact Or.inl ⟨rfl, rfl, rfl, rfl, rfl, rfl⟩ | exact Or.inl ⟨rfl, rfl, rfl, rfl, rfl, rfl, rfl⟩ | exact Or.inl ⟨rfl, rfl, rfl, rfl, rfl, rfl, rfl, rfl, rfl⟩
           | exact Or.inl ⟨rfl, rfl, rfl, rfl, rfl, rfl, rfl, rfl, rfl, rfl, rfl, rfl, rfl, rfl⟩)
         with_reducible (cases p <;> first
           | exact Or.inl rfl | exact Or.inl ⟨rfl, rfl⟩ | exact Or.inl ⟨rfl, rfl, rfl⟩ | exact Or.inl ⟨rfl, rfl, rfl, rfl⟩ | exact Or.inl ⟨rfl, rfl, rfl, rfl, rfl⟩
           | exact Or.inl ⟨rfl, rfl, rfl, rfl, rfl, rfl⟩ | exact Or.inl ⟨rfl, rfl, rfl, rfl, rfl, rfl, rfl⟩ | exact Or.inl ⟨rfl, rfl, rfl, rfl, rfl, rfl, rfl, rfl, rfl⟩
           | exact Or.inl ⟨rfl, rfl, rfl, rfl, rfl, rfl, rfl, rfl, rfl, rfl, rfl, rfl, rfl, rfl⟩
           | exact Or.inr ⟨hE _ (by decide), True.intro⟩ | exact Or.inr ⟨hE _ (by decide), _, rfl⟩))
    | fail

theorem State.forgetController_keeps {I : Inv} {s : State} (hE : I.has [.rate, .regs, .dict, .irq, .crv, .events, .out]) (h : I.P s)   :
    I.P (State.forgetController s) := by
  unfold State.forgetController
  try dsimp only
  repeat' first
    | with_reducible assumption
    | intro _
    | with_reducible refine State.setTimeState_keeps (hE.sub rfl) ?_
    | with_reducible refine State.setOd_keeps (hE.sub rfl) ?_
    | with_reducible refine Inv.ite ?_ ?_
    | split
    | dsimp only
    | with_reducible refine Inv.crv (hE.sub rfl) ?_ _
    | (with_reducible refine Inv.set (fun p => ?_) ?_
       · fail_if_success with_reducible (cases p <;> first
           | exact Or.inl rfl | exact Or.inl ⟨rfl, rfl⟩ | exact Or.inl ⟨rfl, rfl, rfl⟩ | exact Or.inl ⟨rfl, rfl, rfl, rfl⟩ | exact Or.inl ⟨rfl, rfl, rfl, rfl, rfl⟩
           | exact Or.inl ⟨rfl, rfl, rfl, rfl, rfl, rfl⟩ | exact Or.inl ⟨rfl, rfl, rfl, rfl, rfl, rfl, rfl⟩ | exact Or.inl ⟨rfl, rfl, rfl, rfl, rfl, rfl, rfl, rfl, rfl⟩
           | exact Or.inl ⟨rfl, rfl, rfl, rfl, rfl, rfl, rfl, rfl, rfl, rfl, rfl, rfl, rfl, rfl⟩)
         with_reducible (cases p <;> first
           | exact Or.inl rfl | exact Or.inl ⟨rfl, rfl⟩ | exact Or.inl ⟨rfl, rfl, rfl⟩ | exact Or.inl ⟨rfl, rfl, rfl, rfl⟩ | exact Or.inl ⟨rfl, rfl, rfl, rfl, rfl⟩
           | exact Or.inl ⟨rfl, rfl, rfl, rfl, rfl, rfl⟩ | exact Or.inl ⟨rfl, rfl, rfl, rfl, rfl, rfl, rfl⟩ | exact Or.inl ⟨rfl, rfl, rfl, rfl, rfl, rfl, rfl, rfl, rfl⟩
           | exact Or.inl ⟨rfl, rfl, rfl, rfl, rfl, rfl, rfl, rfl, rfl, rfl, rfl, rfl, rfl, rfl⟩
           | exact Or.inr ⟨hE _ (by decide), True.intro⟩ | exact Or.inr ⟨hE _ (by decide), _, rfl⟩))
    | fail

theorem State.cameraEffect_keeps {I : Inv} {s : State} (hE : I.has [.ports, .fsPorts, .slices, .regs, .pwr]) (h : I.P s) {c : PortIx} {key : Nat} {v : Nat}  :
    I.P (State.cameraEffect s c key v) := by
  unfold State.cameraEffect
  try dsimp only
  repeat' first
    | with_reducible assumption
    | intro _
    | with_reducible refine State.resetTables_keeps (hE.sub rfl) ?_
    | with_reducible refine State.powerSlices_keeps (hE.sub rfl) ?_
    | with_reducible refine State.modPort_keeps (hE.sub rfl) ?_
    | with_reducible refine Inv.ite ?_ ?_
    | split
    | dsimp only

theorem State.linkEnableEffect_keeps {I : Inv} {s : State} (hE : I.has [.links, .regs, .dict, .irq, .events, .out]) (h : I.P s) {l : LinkIx} {v : Nat}  :
    I.P (State.linkEnableEffect s l v) := by
  unfold State.linkEnableEffect
  try dsimp only
  repeat' first
    | with_reducible assumption
    | intro _
    | with_reducible refine State.linkStart_keeps (hE.sub rfl) ?_
    | with_reducible refine State.modLink_keeps (hE.sub rfl) ?_
    | with_reducible refine State.linkEnd_keeps (hE.sub rfl) ?_
    | with_reducible refine Inv.ite ?_ ?_
    | split
    | dsimp only

theorem State.coreMaskEffect_keeps {I : Inv} {s : State} (hE : I.has [.cores, .regs, .irq, .pwr, .events, .out]) (h : I.P s) {v : Nat}  :
    I.P (State.coreMaskEffect s v) := by
  unfold State.coreMaskEffect
  try dsimp only
  repeat' first
    | with_reducible assumption
    | intro _
    | with_reducible refine State.powerCores_keeps (hE.sub rfl) ?_
    | with_reducible refine State.modCore_keeps (hE.sub rfl) ?_
    | with_reducible refine Inv.foldl ?_ ?_
    | with_reducible refine Inv.ite ?_ ?_
    | split
    | dsimp only

theorem State.periodPreop_keeps {I : Inv} {s : State} (hE : I.has [.ctx, .regs, .dict, .irq, .events, .out]) (h : I.P s) {key : Nat}  :
    I.P (State.periodPreop s key) := by
  unfold State.periodPreop
  try dsimp only
  repeat' first
    | with_reducible assumption
    | intro _
    | with_reducible refine State.raiseStatus_keeps (hE.sub rfl) ?_
    | with_reducible refine State.ctxClear_keeps (hE.sub rfl) ?_
    | with_reducible refine State.setOd_keeps (hE.sub rfl) ?_
    | with_reducible refine Inv.ite ?_ ?_
    | split
    | dsimp only

theorem State.odEffect_keeps {I : Inv} {s : State} (hE : I.has [.rate, .web, .ports, .fsPorts, .slices, .cores, .ctx, .links, .regs, .dict, .doors, .irq, .pcie, .crv, .chain, .ledger, .pwr, .events, .out]) (h : I.P s) {key : Nat} {old : Nat} {v : Nat}  :
    I.P (State.odEffect s key old v) := by
  unfold State.odEffect
  try dsimp only
  repeat' first
    | with_reducible assumption
    | intro _
    | with_reducible refine State.forgetController_keeps (hE.sub rfl) ?_
    | with_reducible refine State.linkEnableEffect_keeps (hE.sub rfl) ?_
    | with_reducible refine State.timeSourceEffect_keeps (hE.sub rfl) ?_
    | with_reducible refine State.coreMaskEffect_keeps (hE.sub rfl) ?_
    | with_reducible refine State.powerEngines_keeps (hE.sub rfl) ?_
    | with_reducible refine State.cameraEffect_keeps (hE.sub rfl) ?_
    | with_reducible refine State.ledgerLevel_keeps (hE.sub rfl) ?_
    | with_reducible refine State.periodPreop_keeps (hE.sub rfl) ?_
    | with_reducible refine State.parkEffect_keeps (hE.sub rfl) ?_
    | with_reducible refine State.ctxClear_keeps (hE.sub rfl) ?_
    | with_reducible refine State.sandStop_keeps (hE.sub rfl) ?_
    | with_reducible refine State.setReg_keeps (hE.sub rfl) ?_
    | with_reducible refine Inv.ite ?_ ?_
    | split
    | dsimp only

theorem State.blobEffect_keeps {I : Inv} {s : State} (hE : I.has [.dict, .blobs, .saf]) (h : I.P s) {key : Nat} {bs : List Byte}  :
    I.P (State.blobEffect s key bs) := by
  unfold State.blobEffect
  try dsimp only
  repeat' first
    | with_reducible assumption
    | intro _
    | with_reducible refine State.startAttestation_keeps (hE.sub rfl) ?_
    | with_reducible refine State.setBlob_keeps (hE.sub rfl) ?_
    | with_reducible refine Inv.ite ?_ ?_
    | split
    | dsimp only

theorem State.odPut_keeps {I : Inv} {s : State} (hE : I.has [.rate, .web, .ports, .fsPorts, .slices, .cores, .ctx, .links, .regs, .dict, .doors, .irq, .pcie, .crv, .chain, .ledger, .pwr, .events, .out]) (h : I.P s) {key : Nat} {v : Nat}  :
    I.P (State.odPut s key v) := by
  unfold State.odPut
  try dsimp only
  repeat' first
    | with_reducible assumption
    | intro _
    | with_reducible refine State.chainWatch_keeps (hE.sub rfl) ?_ ?_
    | with_reducible refine State.odEffect_keeps (hE.sub rfl) ?_
    | with_reducible refine State.setOd_keeps (hE.sub rfl) ?_
    | with_reducible refine Inv.ite ?_ ?_
    | split
    | dsimp only

theorem State.pitchAt_keeps {I : Inv} {s : State} (hE : I.has [.enc, .ctx]) (h : I.P s) {at_ : Nat} {old : Nat} {v : Nat}  :
    I.P (State.pitchAt s at_ old v) := by
  unfold State.pitchAt
  try dsimp only
  repeat' first
    | with_reducible assumption
    | intro _
    | with_reducible refine Inv.ite ?_ ?_
    | split
    | dsimp only
    | with_reducible refine Inv.ctx (hE.sub rfl) ?_ _
    | (with_reducible refine Inv.set (fun p => ?_) ?_
       · fail_if_success with_reducible (cases p <;> first
           | exact Or.inl rfl | exact Or.inl ⟨rfl, rfl⟩ | exact Or.inl ⟨rfl, rfl, rfl⟩ | exact Or.inl ⟨rfl, rfl, rfl, rfl⟩ | exact Or.inl ⟨rfl, rfl, rfl, rfl, rfl⟩
           | exact Or.inl ⟨rfl, rfl, rfl, rfl, rfl, rfl⟩ | exact Or.inl ⟨rfl, rfl, rfl, rfl, rfl, rfl, rfl⟩ | exact Or.inl ⟨rfl, rfl, rfl, rfl, rfl, rfl, rfl, rfl, rfl⟩
           | exact Or.inl ⟨rfl, rfl, rfl, rfl, rfl, rfl, rfl, rfl, rfl, rfl, rfl, rfl, rfl, rfl⟩)
         with_reducible (cases p <;> first
           | exact Or.inl rfl | exact Or.inl ⟨rfl, rfl⟩ | exact Or.inl ⟨rfl, rfl, rfl⟩ | exact Or.inl ⟨rfl, rfl, rfl, rfl⟩ | exact Or.inl ⟨rfl, rfl, rfl, rfl, rfl⟩
           | exact Or.inl ⟨rfl, rfl, rfl, rfl, rfl, rfl⟩ | exact Or.inl ⟨rfl, rfl, rfl, rfl, rfl, rfl, rfl⟩ | exact Or.inl ⟨rfl, rfl, rfl, rfl, rfl, rfl, rfl, rfl, rfl⟩
           | exact Or.inl ⟨rfl, rfl, rfl, rfl, rfl, rfl, rfl, rfl, rfl, rfl, rfl, rfl, rfl, rfl⟩
           | exact Or.inr ⟨hE _ (by decide), True.intro⟩ | exact Or.inr ⟨hE _ (by decide), _, rfl⟩))
    | fail

theorem State.odStore_keeps {I : Inv} {s : State} (hE : I.has [.rate, .enc, .web, .ports, .fsPorts, .slices, .cores, .ctx, .links, .regs, .dict, .doors, .irq, .pcie, .crv, .chain, .ledger, .pwr, .events, .out]) (h : I.P s) {o : Origin} {key : Nat} {v : Nat} {at_ : Option Nat}  :
    I.P (State.odStore s o key v at_) := by
  unfold State.odStore
  repeat' first
    | with_reducible assumption
    | (extract_lets +onlyGivenNames v
       first
         | (have hv : I.P v := by
              dsimp only [v]
              repeat' first
                | with_reducible assumption
                | intro _
                | with_reducible refine State.ledgerEffect_keeps (hE.sub rfl) ?_
                | with_reducible refine State.pitchAt_keeps (hE.sub rfl) ?_
                | with_reducible refine State.modPort_keeps (hE.sub rfl) ?_
                | with_reducible refine State.modFs_keeps (hE.sub rfl) ?_
                | with_reducible refine State.setOd_keeps (hE.sub rfl) ?_
                | with_reducible refine State.odPut_keeps (hE.sub rfl) ?_
                | with_reducible refine Inv.ite ?_ ?_
                | split
                | dsimp only
                | with_reducible refine Inv.doors (hE.sub rfl) ?_ _
                | (with_reducible refine Inv.set (fun p => ?_) ?_
                   · fail_if_success with_reducible (cases p <;> first
                       | exact Or.inl rfl | exact Or.inl ⟨rfl, rfl⟩ | exact Or.inl ⟨rfl, rfl, rfl⟩ | exact Or.inl ⟨rfl, rfl, rfl, rfl⟩ | exact Or.inl ⟨rfl, rfl, rfl, rfl, rfl⟩
                       | exact Or.inl ⟨rfl, rfl, rfl, rfl, rfl, rfl⟩ | exact Or.inl ⟨rfl, rfl, rfl, rfl, rfl, rfl, rfl⟩ | exact Or.inl ⟨rfl, rfl, rfl, rfl, rfl, rfl, rfl, rfl, rfl⟩
                       | exact Or.inl ⟨rfl, rfl, rfl, rfl, rfl, rfl, rfl, rfl, rfl, rfl, rfl, rfl, rfl, rfl⟩)
                     with_reducible (cases p <;> first
                       | exact Or.inl rfl | exact Or.inl ⟨rfl, rfl⟩ | exact Or.inl ⟨rfl, rfl, rfl⟩ | exact Or.inl ⟨rfl, rfl, rfl, rfl⟩ | exact Or.inl ⟨rfl, rfl, rfl, rfl, rfl⟩
                       | exact Or.inl ⟨rfl, rfl, rfl, rfl, rfl, rfl⟩ | exact Or.inl ⟨rfl, rfl, rfl, rfl, rfl, rfl, rfl⟩ | exact Or.inl ⟨rfl, rfl, rfl, rfl, rfl, rfl, rfl, rfl, rfl⟩
                       | exact Or.inl ⟨rfl, rfl, rfl, rfl, rfl, rfl, rfl, rfl, rfl, rfl, rfl, rfl, rfl, rfl⟩
                       | exact Or.inr ⟨hE _ (by decide), True.intro⟩ | exact Or.inr ⟨hE _ (by decide), _, rfl⟩))
                | fail
            clear_value v)
         | (try dsimp only [v]
            clear v))
    | intro _
    | with_reducible refine State.ledgerEffect_keeps (hE.sub rfl) ?_
    | with_reducible refine State.pitchAt_keeps (hE.sub rfl) ?_
    | with_reducible refine State.modPort_keeps (hE.sub rfl) ?_
    | with_reducible refine State.modFs_keeps (hE.sub rfl) ?_
    | with_reducible refine State.setOd_keeps (hE.sub rfl) ?_
    | with_reducible refine State.odPut_keeps (hE.sub rfl) ?_
    | with_reducible refine Inv.ite ?_ ?_
    | split
    | dsimp only
    | with_reducible refine Inv.doors (hE.sub rfl) ?_ _
    | (with_reducible refine Inv.set (fun p => ?_) ?_
       · fail_if_success with_reducible (cases p <;> first
           | exact Or.inl rfl | exact Or.inl ⟨rfl, rfl⟩ | exact Or.inl ⟨rfl, rfl, rfl⟩ | exact Or.inl ⟨rfl, rfl, rfl, rfl⟩ | exact Or.inl ⟨rfl, rfl, rfl, rfl, rfl⟩
           | exact Or.inl ⟨rfl, rfl, rfl, rfl, rfl, rfl⟩ | exact Or.inl ⟨rfl, rfl, rfl, rfl, rfl, rfl, rfl⟩ | exact Or.inl ⟨rfl, rfl, rfl, rfl, rfl, rfl, rfl, rfl, rfl⟩
           | exact Or.inl ⟨rfl, rfl, rfl, rfl, rfl, rfl, rfl, rfl, rfl, rfl, rfl, rfl, rfl, rfl⟩)
         with_reducible (cases p <;> first
           | exact Or.inl rfl | exact Or.inl ⟨rfl, rfl⟩ | exact Or.inl ⟨rfl, rfl, rfl⟩ | exact Or.inl ⟨rfl, rfl, rfl, rfl⟩ | exact Or.inl ⟨rfl, rfl, rfl, rfl, rfl⟩
           | exact Or.inl ⟨rfl, rfl, rfl, rfl, rfl, rfl⟩ | exact Or.inl ⟨rfl, rfl, rfl, rfl, rfl, rfl, rfl⟩ | exact Or.inl ⟨rfl, rfl, rfl, rfl, rfl, rfl, rfl, rfl, rfl⟩
           | exact Or.inl ⟨rfl, rfl, rfl, rfl, rfl, rfl, rfl, rfl, rfl, rfl, rfl, rfl, rfl, rfl⟩
           | exact Or.inr ⟨hE _ (by decide), True.intro⟩ | exact Or.inr ⟨hE _ (by decide), _, rfl⟩))
    | fail

end Sys2Proof.Machine
end

