-- ==== Sys2Proof/Laws/KeepsDictionary.lean ====
section
/-! SUPPORT. The operations of Machine/Dictionary.lean keep every predicate that lets their parts change. -/

set_option linter.unreachableTactic false
set_option linter.unusedTactic false

namespace Sys2Proof.Machine

theorem State.refuseTransition_keeps {I : Inv} {s : State} (hE : I.has [.regs, .dict, .irq, .events, .out]) (h : I.P s) {requested : Nat} {st : Status}  :
    I.P (State.refuseTransition s requested st) := by
  unfold State.refuseTransition
  try dsimp only
  repeat' first
    | with_reducible assumption
    | intro _
    | with_reducible refine State.raiseInt_keeps (hE.sub rfl) ?_
    | with_reducible refine State.setOd_keeps (hE.sub rfl) ?_
    | with_reducible refine State.event_keeps (hE.sub rfl) ?_
    | with_reducible refine Inv.ite ?_ ?_
    | split
    | dsimp only

theorem State.requestTransition_keeps {I : Inv} {s : State} (hE : I.has [.dev, .regs, .dict, .irq, .events, .out]) (h : I.P s) {target : DevState} {door : Door}  {a t} (e : State.requestTransition s target door = (a, t)) :
    I.P t := by
  unfold State.requestTransition at e
  revert e
  repeat' first
    | (with_reducible (intro e; cases e))
    | split
    | dsimp only
    | with_reducible assumption
    | intro _
    | with_reducible refine State.refuseTransition_keeps (hE.sub rfl) ?_
    | with_reducible refine Inv.ite ?_ ?_
    | split
    | dsimp only
    | (with_reducible refine Inv.set (fun p => ?_) ?_
       · fail_if_success with_reducible (cases p <;> first
           | exact Or.inl rfl | exact Or.inl ⟨rfl, rfl⟩ | exact Or.inl ⟨rfl, rfl, rfl⟩ | exact Or.inl ⟨rfl, rfl, rfl, rfl⟩ | exact Or.inl ⟨rfl, rfl, rfl, rfl, rfl⟩
           | exact Or.inl ⟨rfl, rfl, rfl, rfl, rfl, rfl⟩ | exact Or.inl ⟨rfl, rfl, rfl, rfl, rfl, rfl, rfl⟩ | exact Or.inl ⟨rfl, rfl, rfl, rfl, rfl, rfl, rfl, rfl, rfl⟩
           | exact Or.inl ⟨rfl, rfl, rfl, rfl, rfl, rfl, rfl, rfl, rfl, rfl, rfl, rfl, rfl, rfl⟩)
         with_reducible (cases p <;> first
           | exact Or.inl rfl | exact Or.inl ⟨rfl, rfl⟩ | exact Or.inl ⟨rfl, rfl, rfl⟩ | exact Or.inl ⟨rfl, rfl, rfl, rfl⟩ | exact Or.inl ⟨rfl, rfl, rfl, rfl, rfl⟩
           | exact Or.inl ⟨rfl, rfl, rfl, rfl, rfl, rfl⟩ | exact Or.inl ⟨rfl, rfl, rfl, rfl, rfl, rfl, rfl⟩ | exact Or.inl ⟨rfl, rfl, rfl, rfl, rfl, rfl, rfl, rfl, rfl⟩
           | exact Or.inl ⟨rfl, rfl, rfl, rfl, rfl, rfl, rfl, rfl, rfl, rfl, rfl, rfl, rfl, rfl⟩
           | exact Or.inr ⟨hE _ (by decide), True.intro⟩ | exact Or.inr ⟨hE _ (by decide), _, rfl⟩))
    | fail

theorem State.requestTransition_snd {I : Inv} {s : State} (hE : I.has [.dev, .regs, .dict, .irq, .events, .out]) (h : I.P s) {target : DevState} {door : Door} :
    I.P (State.requestTransition s target door).2 :=
  State.requestTransition_keeps hE h rfl

theorem State.changeOwner_keeps {I : Inv} {s : State} (hE : I.has [.regs, .dict, .irq, .chain, .ledger, .events, .out]) (h : I.P s) {new : Nat} {by_ : Nat}  :
    I.P (State.changeOwner s new by_) := by
  unfold State.changeOwner
  try dsimp only
  repeat' first
    | with_reducible assumption
    | intro _
    | with_reducible refine State.ledgerAppend_keeps (hE.sub rfl) ?_
    | with_reducible refine State.raiseInt_keeps (hE.sub rfl) ?_
    | with_reducible refine State.setOd_keeps (hE.sub rfl) ?_
    | with_reducible refine State.event_keeps (hE.sub rfl) ?_
    | with_reducible refine Inv.ite ?_ ?_
    | split
    | dsimp only

theorem State.countRefused_keeps {I : Inv} {s : State} (hE : I.has [.dict]) (h : I.P s)   :
    I.P (State.countRefused s) := by
  unfold State.countRefused
  try dsimp only
  repeat' first
    | with_reducible assumption
    | intro _
    | with_reducible refine State.countOd_keeps (hE.sub rfl) ?_
    | dsimp only

theorem State.odAccept_keeps {I : Inv} {s : State} (hE : I.has [.dev, .rate, .enc, .web, .ports, .fsPorts, .slices, .cores, .ctx, .links, .regs, .dict, .doors, .irq, .pcie, .crv, .chain, .ledger, .pwr, .events, .out]) (h : I.P s) {o : Origin} {flags : Nat} {key : Nat} {v : Nat} {door : Door}  {a t} (e : State.odAccept s o flags key v door = (a, t)) :
    I.P t := by
  unfold State.odAccept at e
  revert e
  repeat' first
    | (with_reducible (intro e; cases e))
    | split
    | dsimp only
    | with_reducible assumption
    | intro _
    | with_reducible refine State.requestTransition_snd (hE.sub rfl) ?_
    | with_reducible refine State.requestTransition_keeps (hE.sub rfl) ?_ (by with_reducible assumption)
    | with_reducible refine State.ledgerWrite_keeps (hE.sub rfl) ?_
    | with_reducible refine State.changeOwner_keeps (hE.sub rfl) ?_
    | with_reducible refine State.raiseInt_keeps (hE.sub rfl) ?_
    | with_reducible refine State.odStore_keeps (hE.sub rfl) ?_
    | with_reducible refine State.event_keeps (hE.sub rfl) ?_
    | with_reducible refine Inv.ite ?_ ?_
    | split
    | dsimp only

theorem State.odAccept_snd {I : Inv} {s : State} (hE : I.has [.dev, .rate, .enc, .web, .ports, .fsPorts, .slices, .cores, .ctx, .links, .regs, .dict, .doors, .irq, .pcie, .crv, .chain, .ledger, .pwr, .events, .out]) (h : I.P s) {o : Origin} {flags : Nat} {key : Nat} {v : Nat} {door : Door} :
    I.P (State.odAccept s o flags key v door).2 :=
  State.odAccept_keeps hE h rfl

theorem State.odWrite_keeps {I : Inv} {s : State} (hE : I.has [.dev, .rate, .enc, .web, .ports, .fsPorts, .slices, .cores, .ctx, .links, .regs, .dict, .doors, .irq, .pcie, .crv, .chain, .ledger, .pwr, .events, .out]) (h : I.P s) {o : Origin} {key : Nat} {len : Nat} {v : Nat} {door : Door}  {a t} (e : State.odWrite s o key len v door = (a, t)) :
    I.P t := by
  unfold State.odWrite at e
  revert e
  repeat' first
    | (with_reducible (intro e; cases e))
    | split
    | dsimp only
    | with_reducible assumption
    | intro _
    | with_reducible refine State.countRefused_keeps (hE.sub rfl) ?_
    | with_reducible refine State.odAccept_snd (hE.sub rfl) ?_
    | with_reducible refine State.odAccept_keeps (hE.sub rfl) ?_ (by with_reducible assumption)
    | with_reducible refine Inv.ite ?_ ?_
    | split
    | dsimp only

theorem State.odWrite_snd {I : Inv} {s : State} (hE : I.has [.dev, .rate, .enc, .web, .ports, .fsPorts, .slices, .cores, .ctx, .links, .regs, .dict, .doors, .irq, .pcie, .crv, .chain, .ledger, .pwr, .events, .out]) (h : I.P s) {o : Origin} {key : Nat} {len : Nat} {v : Nat} {door : Door} :
    I.P (State.odWrite s o key len v door).2 :=
  State.odWrite_keeps hE h rfl

theorem State.odWriteBytes_keeps {I : Inv} {s : State} (hE : I.has [.regs, .dict, .blobs, .irq, .chain, .ledger, .saf, .events, .out]) (h : I.P s) {o : Origin} {key : Nat} {bs : List Byte}  {a t} (e : State.odWriteBytes s o key bs = (a, t)) :
    I.P t := by
  unfold State.odWriteBytes at e
  revert e
  repeat' first
    | (with_reducible (intro e; cases e))
    | split
    | dsimp only
    | with_reducible assumption
    | intro _
    | with_reducible refine State.ledgerWriteBytes_keeps (hE.sub rfl) ?_
    | with_reducible refine State.countRefused_keeps (hE.sub rfl) ?_
    | with_reducible refine State.blobEffect_keeps (hE.sub rfl) ?_
    | with_reducible refine Inv.ite ?_ ?_
    | split
    | dsimp only

theorem State.odWriteBytes_snd {I : Inv} {s : State} (hE : I.has [.regs, .dict, .blobs, .irq, .chain, .ledger, .saf, .events, .out]) (h : I.P s) {o : Origin} {key : Nat} {bs : List Byte} :
    I.P (State.odWriteBytes s o key bs).2 :=
  State.odWriteBytes_keeps hE h rfl

theorem State.countRefusal_keeps {I : Inv} {s : State} (hE : I.has [.dict]) (h : I.P s) {st : Status}  :
    I.P (State.countRefusal s st) := by
  unfold State.countRefusal
  try dsimp only
  repeat' first
    | with_reducible assumption
    | intro _
    | with_reducible refine State.countRefused_keeps (hE.sub rfl) ?_
    | with_reducible refine Inv.ite ?_ ?_
    | split
    | dsimp only

theorem State.writeAt_keeps {I : Inv} {s : State} (hE : I.has [.dev, .rate, .enc, .web, .ports, .fsPorts, .slices, .cores, .ctx, .links, .regs, .dict, .doors, .irq, .pcie, .crv, .chain, .ledger, .pwr, .events, .out]) (h : I.P s) {o : Origin} {key : Nat} {len : Nat} {v : Nat} {at_ : Nat}  {a b c t} (e : State.writeAt s o key len v at_ = (a, b, c, t)) :
    I.P t := by
  unfold State.writeAt at e
  revert e
  repeat' first
    | (with_reducible (intro e; cases e))
    | split
    | dsimp only
    | with_reducible assumption
    | intro _
    | with_reducible refine State.countRefused_keeps (hE.sub rfl) ?_
    | with_reducible refine State.ledgerWrite_keeps (hE.sub rfl) ?_
    | with_reducible refine State.odAccept_snd (hE.sub rfl) ?_
    | with_reducible refine State.odAccept_keeps (hE.sub rfl) ?_ (by with_reducible assumption)
    | with_reducible refine Inv.ite ?_ ?_
    | split
    | dsimp only
    | with_reducible refine Inv.doors (hE.sub rfl) ?_ _
    | (with_reducible refine Inv.set (fun p => ?_) ?_
       · fail_if_success with_reducible (cases p <;> first
           | exact Or.inl rfl | exact Or.inl ⟨rfl, rfl⟩ | exact Or.inl ⟨rfl, rfl, rfl⟩ | exact Or.inl ⟨rfl, rfl, rfl, rfl⟩ | exact Or.inl ⟨rfl, rfl, rfl, rfl, rfl⟩
           | exact Or.inl ⟨rfl, rfl, rfl, rfl, rfl, rfl⟩ | exact Or.inl ⟨rfl, rfl, rfl, rfl, rfl, rfl, rfl⟩ | exact Or.inl ⟨rfl, rfl, rfl, rfl, rfl, rfl, rfl, rfl, rfl⟩
           | exact Or.inl ⟨rfl, rfl, rfl, rfl, rfl, rfl, rfl, rfl, rfl, rfl, rfl, rfl, rfl, rfl⟩)
         with_reducible (cases p <;> first
           | exact Or.inl rfl | exact Or.inl ⟨rfl, rfl⟩ | exact Or.inl ⟨rfl, rfl, rfl⟩ | exact Or.inl ⟨rfl, rfl, rfl, rfl⟩ | exact Or.inl ⟨rfl, rfl, rfl, rfl, rfl⟩
           | exact Or.inl ⟨rfl, rfl, rfl, rfl, rfl, rfl⟩ | exact Or.inl ⟨rfl, rfl, rfl, rfl, rfl, rfl, rfl⟩ | exact Or.inl ⟨rfl, rfl, rfl, rfl, rfl, rfl, rfl, rfl, rfl⟩
           | exact Or.inl ⟨rfl, rfl, rfl, rfl, rfl, rfl, rfl, rfl, rfl, rfl, rfl, rfl, rfl, rfl⟩
           | exact Or.inr ⟨hE _ (by decide), True.intro⟩ | exact Or.inr ⟨hE _ (by decide), _, rfl⟩))
    | fail

theorem State.writeAt_snd {I : Inv} {s : State} (hE : I.has [.dev, .rate, .enc, .web, .ports, .fsPorts, .slices, .cores, .ctx, .links, .regs, .dict, .doors, .irq, .pcie, .crv, .chain, .ledger, .pwr, .events, .out]) (h : I.P s) {o : Origin} {key : Nat} {len : Nat} {v : Nat} {at_ : Nat} :
    I.P (State.writeAt s o key len v at_).2.2.2 :=
  State.writeAt_keeps hE h rfl

theorem State.cancelAt_keeps {I : Inv} {s : State} (hE : I.has [.doors]) (h : I.P s) {key : Nat} {at_ : Nat}  {a t} (e : State.cancelAt s key at_ = (a, t)) :
    I.P t := by
  unfold State.cancelAt at e
  revert e
  repeat' first
    | (with_reducible (intro e; cases e))
    | split
    | dsimp only
    | with_reducible assumption
    | intro _
    | with_reducible refine Inv.ite ?_ ?_
    | split
    | dsimp only
    | with_reducible refine Inv.doors (hE.sub rfl) ?_ _
    | (with_reducible refine Inv.set (fun p => ?_) ?_
       · fail_if_success with_reducible (cases p <;> first
           | exact Or.inl rfl | exact Or.inl ⟨rfl, rfl⟩ | exact Or.inl ⟨rfl, rfl, rfl⟩ | exact Or.inl ⟨rfl, rfl, rfl, rfl⟩ | exact Or.inl ⟨rfl, rfl, rfl, rfl, rfl⟩
           | exact Or.inl ⟨rfl, rfl, rfl, rfl, rfl, rfl⟩ | exact Or.inl ⟨rfl, rfl, rfl, rfl, rfl, rfl, rfl⟩ | exact Or.inl ⟨rfl, rfl, rfl, rfl, rfl, rfl, rfl, rfl, rfl⟩
           | exact Or.inl ⟨rfl, rfl, rfl, rfl, rfl, rfl, rfl, rfl, rfl, rfl, rfl, rfl, rfl, rfl⟩)
         with_reducible (cases p <;> first
           | exact Or.inl rfl | exact Or.inl ⟨rfl, rfl⟩ | exact Or.inl ⟨rfl, rfl, rfl⟩ | exact Or.inl ⟨rfl, rfl, rfl, rfl⟩ | exact Or.inl ⟨rfl, rfl, rfl, rfl, rfl⟩
           | exact Or.inl ⟨rfl, rfl, rfl, rfl, rfl, rfl⟩ | exact Or.inl ⟨rfl, rfl, rfl, rfl, rfl, rfl, rfl⟩ | exact Or.inl ⟨rfl, rfl, rfl, rfl, rfl, rfl, rfl, rfl, rfl⟩
           | exact Or.inl ⟨rfl, rfl, rfl, rfl, rfl, rfl, rfl, rfl, rfl, rfl, rfl, rfl, rfl, rfl⟩
           | exact Or.inr ⟨hE _ (by decide), True.intro⟩ | exact Or.inr ⟨hE _ (by decide), _, rfl⟩))
    | fail

theorem State.cancelAt_snd {I : Inv} {s : State} (hE : I.has [.doors]) (h : I.P s) {key : Nat} {at_ : Nat} :
    I.P (State.cancelAt s key at_).2 :=
  State.cancelAt_keeps hE h rfl

theorem State.discardSchedule_keeps {I : Inv} {s : State} (hE : I.has [.regs, .doors, .events]) (h : I.P s)   :
    I.P (State.discardSchedule s) := by
  unfold State.discardSchedule
  try dsimp only
  repeat' first
    | with_reducible assumption
    | intro _
    | with_reducible refine State.count64_keeps (hE.sub rfl) ?_
    | with_reducible refine State.event_keeps (hE.sub rfl) ?_
    | with_reducible refine Inv.ite ?_ ?_
    | split
    | dsimp only
    | with_reducible refine Inv.doors (hE.sub rfl) ?_ _
    | (with_reducible refine Inv.set (fun p => ?_) ?_
       · fail_if_success with_reducible (cases p <;> first
           | exact Or.inl rfl | exact Or.inl ⟨rfl, rfl⟩ | exact Or.inl ⟨rfl, rfl, rfl⟩ | exact Or.inl ⟨rfl, rfl, rfl, rfl⟩ | exact Or.inl ⟨rfl, rfl, rfl, rfl, rfl⟩
           | exact Or.inl ⟨rfl, rfl, rfl, rfl, rfl, rfl⟩ | exact Or.inl ⟨rfl, rfl, rfl, rfl, rfl, rfl, rfl⟩ | exact Or.inl ⟨rfl, rfl, rfl, rfl, rfl, rfl, rfl, rfl, rfl⟩
           | exact Or.inl ⟨rfl, rfl, rfl, rfl, rfl, rfl, rfl, rfl, rfl, rfl, rfl, rfl, rfl, rfl⟩)
         with_reducible (cases p <;> first
           | exact Or.inl rfl | exact Or.inl ⟨rfl, rfl⟩ | exact Or.inl ⟨rfl, rfl, rfl⟩ | exact Or.inl ⟨rfl, rfl, rfl, rfl⟩ | exact Or.inl ⟨rfl, rfl, rfl, rfl, rfl⟩
           | exact Or.inl ⟨rfl, rfl, rfl, rfl, rfl, rfl⟩ | exact Or.inl ⟨rfl, rfl, rfl, rfl, rfl, rfl, rfl⟩ | exact Or.inl ⟨rfl, rfl, rfl, rfl, rfl, rfl, rfl, rfl, rfl⟩
           | exact Or.inl ⟨rfl, rfl, rfl, rfl, rfl, rfl, rfl, rfl, rfl, rfl, rfl, rfl, rfl, rfl⟩
           | exact Or.inr ⟨hE _ (by decide), True.intro⟩ | exact Or.inr ⟨hE _ (by decide), _, rfl⟩))
    | fail

theorem State.applyScheduled_keeps {I : Inv} {s : State} (hE : I.has [.rate, .enc, .web, .ports, .fsPorts, .slices, .cores, .ctx, .links, .regs, .dict, .doors, .irq, .pcie, .crv, .chain, .ledger, .pwr, .events, .out]) (h0 : I.P s) {h : Nat}  :
    I.P (State.applyScheduled s h) := by
  unfold State.applyScheduled
  try dsimp only
  repeat' first
    | with_reducible assumption
    | intro _
    | with_reducible refine State.schedLeave_keeps (hE.sub rfl) ?_ ?_
    | with_reducible refine State.odStore_keeps (hE.sub rfl) ?_
    | with_reducible refine Inv.ite ?_ ?_
    | split
    | dsimp only

theorem execScheduledWriteApply_ok {I : Inv} {s : State} (hE : I.has [.rate, .enc, .web, .ports, .fsPorts, .slices, .cores, .ctx, .links, .regs, .dict, .doors, .irq, .pcie, .crv, .chain, .ledger, .pwr, .events, .out]) (h : I.P s) {handle : Fin 64}  :
    I.ok (execScheduledWriteApply handle s) := by
  unfold execScheduledWriteApply
  try dsimp only
  repeat' first
    | with_reducible assumption
    | with_reducible refine Inv.ok_act ?_ ?_
    | with_reducible refine Inv.ok_next ?_
    | with_reducible exact Inv.ok_refused _
    | with_reducible refine Inv.ok_ite ?_ ?_
    | with_reducible refine State.applyScheduled_keeps (hE.sub rfl) ?_
    | with_reducible refine Inv.ite ?_ ?_
    | split
    | intro _
    | dsimp only

theorem State.bar4Status_keeps {I : Inv} {s : State} (hE : I.has [.regs]) (h : I.P s) {key : Nat} {st : Status}  :
    I.P (State.bar4Status s key st) := by
  unfold State.bar4Status
  try dsimp only
  repeat' first
    | with_reducible assumption
    | intro _
    | with_reducible refine State.setReg_keeps (hE.sub rfl) ?_
    | with_reducible refine Inv.ite ?_ ?_
    | split
    | dsimp only

theorem State.bar4Refuse_keeps {I : Inv} {s : State} (hE : I.has [.regs, .dict]) (h : I.P s) {key : Nat} {st : Status}  :
    I.P (State.bar4Refuse s key st) := by
  unfold State.bar4Refuse
  try dsimp only
  repeat' first
    | with_reducible assumption
    | intro _
    | with_reducible refine State.countRefused_keeps (hE.sub rfl) ?_
    | with_reducible refine State.bar4Status_keeps (hE.sub rfl) ?_
    | dsimp only

theorem State.bar4Discard_keeps {I : Inv} {s : State} (hE : I.has [.regs, .dict, .doors]) (h : I.P s) {except : Option Nat}  :
    I.P (State.bar4Discard s except) := by
  unfold State.bar4Discard
  try dsimp only
  repeat' first
    | with_reducible assumption
    | intro _
    | with_reducible refine State.bar4Refuse_keeps (hE.sub rfl) ?_
    | with_reducible refine Inv.ite ?_ ?_
    | split
    | dsimp only
    | with_reducible refine Inv.doors (hE.sub rfl) ?_ _
    | (with_reducible refine Inv.set (fun p => ?_) ?_
       · fail_if_success with_reducible (cases p <;> first
           | exact Or.inl rfl | exact Or.inl ⟨rfl, rfl⟩ | exact Or.inl ⟨rfl, rfl, rfl⟩ | exact Or.inl ⟨rfl, rfl, rfl, rfl⟩ | exact Or.inl ⟨rfl, rfl, rfl, rfl, rfl⟩
           | exact Or.inl ⟨rfl, rfl, rfl, rfl, rfl, rfl⟩ | exact Or.inl ⟨rfl, rfl, rfl, rfl, rfl, rfl, rfl⟩ | exact Or.inl ⟨rfl, rfl, rfl, rfl, rfl, rfl, rfl, rfl, rfl⟩
           | exact Or.inl ⟨rfl, rfl, rfl, rfl, rfl, rfl, rfl, rfl, rfl, rfl, rfl, rfl, rfl, rfl⟩)
         with_reducible (cases p <;> first
           | exact Or.inl rfl | exact Or.inl ⟨rfl, rfl⟩ | exact Or.inl ⟨rfl, rfl, rfl⟩ | exact Or.inl ⟨rfl, rfl, rfl, rfl⟩ | exact Or.inl ⟨rfl, rfl, rfl, rfl, rfl⟩
           | exact Or.inl ⟨rfl, rfl, rfl, rfl, rfl, rfl⟩ | exact Or.inl ⟨rfl, rfl, rfl, rfl, rfl, rfl, rfl⟩ | exact Or.inl ⟨rfl, rfl, rfl, rfl, rfl, rfl, rfl, rfl, rfl⟩
           | exact Or.inl ⟨rfl, rfl, rfl, rfl, rfl, rfl, rfl, rfl, rfl, rfl, rfl, rfl, rfl, rfl⟩
           | exact Or.inr ⟨hE _ (by decide), True.intro⟩ | exact Or.inr ⟨hE _ (by decide), _, rfl⟩))
    | fail

theorem State.bar4Scalar_keeps {I : Inv} {s : State} (hE : I.has [.dev, .rate, .enc, .web, .ports, .fsPorts, .slices, .cores, .ctx, .links, .regs, .dict, .doors, .irq, .pcie, .crv, .chain, .ledger, .pwr, .events, .out]) (h : I.P s) {key : Nat} {len : Nat} {v : Nat}  :
    I.P (State.bar4Scalar s key len v) := by
  unfold State.bar4Scalar
  try dsimp only
  repeat' first
    | with_reducible assumption
    | intro _
    | with_reducible refine State.bar4Status_keeps (hE.sub rfl) ?_
    | with_reducible refine State.odWrite_snd (hE.sub rfl) ?_
    | with_reducible refine State.odWrite_keeps (hE.sub rfl) ?_ (by with_reducible assumption)
    | with_reducible refine Inv.ite ?_ ?_
    | split
    | dsimp only

theorem State.bar4Write_keeps {I : Inv} {s : State} (hE : I.has [.dev, .rate, .enc, .web, .ports, .fsPorts, .slices, .cores, .ctx, .links, .regs, .dict, .doors, .irq, .pcie, .crv, .chain, .ledger, .pwr, .events, .out]) (h : I.P s) {offset : Nat} {size : Nat} {value : W64}  :
    I.P (State.bar4Write s offset size value) := by
  unfold State.bar4Write
  repeat' first
    | with_reducible assumption
    | (extract_lets +onlyGivenNames v
       first
         | (have hv : I.P v := by
              dsimp only [v]
              repeat' first
                | with_reducible assumption
                | intro _
                | with_reducible refine State.bar4Discard_keeps (hE.sub rfl) ?_
                | with_reducible refine State.bar4Scalar_keeps (hE.sub rfl) ?_
                | with_reducible refine State.bar4Refuse_keeps (hE.sub rfl) ?_
                | with_reducible refine Inv.ite ?_ ?_
                | split
                | dsimp only
                | with_reducible refine Inv.doors (hE.sub rfl) ?_ _
                | (with_reducible refine Inv.set (fun p => ?_) ?_
                   · fail_if_success with_reducible (cases p <;> first
                       | exact Or.inl rfl | exact Or.inl ⟨rfl, rfl⟩ | exact Or.inl ⟨rfl, rfl, rfl⟩ | exact Or.inl ⟨rfl, rfl, rfl, rfl⟩ | exact Or.inl ⟨rfl, rfl, rfl, rfl, rfl⟩
                       | exact Or.inl ⟨rfl, rfl, rfl, rfl, rfl, rfl⟩ | exact Or.inl ⟨rfl, rfl, rfl, rfl, rfl, rfl, rfl⟩ | exact Or.inl ⟨rfl, rfl, rfl, rfl, rfl, rfl, rfl, rfl, rfl⟩
                       | exact Or.inl ⟨rfl, rfl, rfl, rfl, rfl, rfl, rfl, rfl, rfl, rfl, rfl, rfl, rfl, rfl⟩)
                     with_reducible (cases p <;> first
                       | exact Or.inl rfl | exact Or.inl ⟨rfl, rfl⟩ | exact Or.inl ⟨rfl, rfl, rfl⟩ | exact Or.inl ⟨rfl, rfl, rfl, rfl⟩ | exact Or.inl ⟨rfl, rfl, rfl, rfl, rfl⟩
                       | exact Or.inl ⟨rfl, rfl, rfl, rfl, rfl, rfl⟩ | exact Or.inl ⟨rfl, rfl, rfl, rfl, rfl, rfl, rfl⟩ | exact Or.inl ⟨rfl, rfl, rfl, rfl, rfl, rfl, rfl, rfl, rfl⟩
                       | exact Or.inl ⟨rfl, rfl, rfl, rfl, rfl, rfl, rfl, rfl, rfl, rfl, rfl, rfl, rfl, rfl⟩
                       | exact Or.inr ⟨hE _ (by decide), True.intro⟩ | exact Or.inr ⟨hE _ (by decide), _, rfl⟩))
                | fail
            clear_value v)
         | (try dsimp only [v]
            clear v))
    | intro _
    | with_reducible refine State.bar4Discard_keeps (hE.sub rfl) ?_
    | with_reducible refine State.bar4Scalar_keeps (hE.sub rfl) ?_
    | with_reducible refine State.bar4Refuse_keeps (hE.sub rfl) ?_
    | with_reducible refine Inv.ite ?_ ?_
    | split
    | dsimp only
    | with_reducible refine Inv.doors (hE.sub rfl) ?_ _
    | (with_reducible refine Inv.set (fun p => ?_) ?_
       · fail_if_success with_reducible (cases p <;> first
           | exact Or.inl rfl | exact Or.inl ⟨rfl, rfl⟩ | exact Or.inl ⟨rfl, rfl, rfl⟩ | exact Or.inl ⟨rfl, rfl, rfl, rfl⟩ | exact Or.inl ⟨rfl, rfl, rfl, rfl, rfl⟩
           | exact Or.inl ⟨rfl, rfl, rfl, rfl, rfl, rfl⟩ | exact Or.inl ⟨rfl, rfl, rfl, rfl, rfl, rfl, rfl⟩ | exact Or.inl ⟨rfl, rfl, rfl, rfl, rfl, rfl, rfl, rfl, rfl⟩
           | exact Or.inl ⟨rfl, rfl, rfl, rfl, rfl, rfl, rfl, rfl, rfl, rfl, rfl, rfl, rfl, rfl⟩)
         with_reducible (cases p <;> first
           | exact Or.inl rfl | exact Or.inl ⟨rfl, rfl⟩ | exact Or.inl ⟨rfl, rfl, rfl⟩ | exact Or.inl ⟨rfl, rfl, rfl, rfl⟩ | exact Or.inl ⟨rfl, rfl, rfl, rfl, rfl⟩
           | exact Or.inl ⟨rfl, rfl, rfl, rfl, rfl, rfl⟩ | exact Or.inl ⟨rfl, rfl, rfl, rfl, rfl, rfl, rfl⟩ | exact Or.inl ⟨rfl, rfl, rfl, rfl, rfl, rfl, rfl, rfl, rfl⟩
           | exact Or.inl ⟨rfl, rfl, rfl, rfl, rfl, rfl, rfl, rfl, rfl, rfl, rfl, rfl, rfl, rfl⟩
           | exact Or.inr ⟨hE _ (by decide), True.intro⟩ | exact Or.inr ⟨hE _ (by decide), _, rfl⟩))
    | fail

theorem execBar4Write_ok {I : Inv} {s : State} (hE : I.has [.dev, .rate, .enc, .web, .ports, .fsPorts, .slices, .cores, .ctx, .links, .regs, .dict, .doors, .irq, .pcie, .crv, .chain, .ledger, .pwr, .events, .out]) (h : I.P s) {offset : Nat} {size : Nat} {value : W64}  :
    I.ok (execBar4Write offset size value s) := by
  unfold execBar4Write
  try dsimp only
  repeat' first
    | with_reducible assumption
    | with_reducible refine Inv.ok_act ?_ ?_
    | with_reducible refine Inv.ok_next ?_
    | with_reducible exact Inv.ok_refused _
    | with_reducible refine Inv.ok_ite ?_ ?_
    | with_reducible refine State.bar4Write_keeps (hE.sub rfl) ?_
    | with_reducible refine Inv.ite ?_ ?_
    | split
    | intro _
    | dsimp only

theorem State.bar4Read_keeps {I : Inv} {s : State} (hE : I.has [.regs, .dict, .doors, .out]) (h : I.P s) {offset : Nat} {size : Nat}  :
    I.P (State.bar4Read s offset size) := by
  unfold State.bar4Read
  try dsimp only
  repeat' first
    | with_reducible assumption
    | intro _
    | with_reducible refine State.bar4Discard_keeps (hE.sub rfl) ?_
    | with_reducible refine State.setReg_keeps (hE.sub rfl) ?_
    | with_reducible refine State.send_keeps (hE.sub rfl) ?_
    | with_reducible refine Inv.ite ?_ ?_
    | split
    | dsimp only
    | with_reducible refine Inv.doors (hE.sub rfl) ?_ _
    | (with_reducible refine Inv.set (fun p => ?_) ?_
       · fail_if_success with_reducible (cases p <;> first
           | exact Or.inl rfl | exact Or.inl ⟨rfl, rfl⟩ | exact Or.inl ⟨rfl, rfl, rfl⟩ | exact Or.inl ⟨rfl, rfl, rfl, rfl⟩ | exact Or.inl ⟨rfl, rfl, rfl, rfl, rfl⟩
           | exact Or.inl ⟨rfl, rfl, rfl, rfl, rfl, rfl⟩ | exact Or.inl ⟨rfl, rfl, rfl, rfl, rfl, rfl, rfl⟩ | exact Or.inl ⟨rfl, rfl, rfl, rfl, rfl, rfl, rfl, rfl, rfl⟩
           | exact Or.inl ⟨rfl, rfl, rfl, rfl, rfl, rfl, rfl, rfl, rfl, rfl, rfl, rfl, rfl, rfl⟩)
         with_reducible (cases p <;> first
           | exact Or.inl rfl | exact Or.inl ⟨rfl, rfl⟩ | exact Or.inl ⟨rfl, rfl, rfl⟩ | exact Or.inl ⟨rfl, rfl, rfl, rfl⟩ | exact Or.inl ⟨rfl, rfl, rfl, rfl, rfl⟩
           | exact Or.inl ⟨rfl, rfl, rfl, rfl, rfl, rfl⟩ | exact Or.inl ⟨rfl, rfl, rfl, rfl, rfl, rfl, rfl⟩ | exact Or.inl ⟨rfl, rfl, rfl, rfl, rfl, rfl, rfl, rfl, rfl⟩
           | exact Or.inl ⟨rfl, rfl, rfl, rfl, rfl, rfl, rfl, rfl, rfl, rfl, rfl, rfl, rfl, rfl⟩
           | exact Or.inr ⟨hE _ (by decide), True.intro⟩ | exact Or.inr ⟨hE _ (by decide), _, rfl⟩))
    | fail

theorem execBar4Read_ok {I : Inv} {s : State} (hE : I.has [.regs, .dict, .doors, .out]) (h : I.P s) {offset : Nat} {size : Nat}  :
    I.ok (execBar4Read offset size s) := by
  unfold execBar4Read
  try dsimp only
  repeat' first
    | with_reducible assumption
    | with_reducible refine Inv.ok_act ?_ ?_
    | with_reducible refine Inv.ok_next ?_
    | with_reducible exact Inv.ok_refused _
    | with_reducible refine Inv.ok_ite ?_ ?_
    | with_reducible refine State.bar4Read_keeps (hE.sub rfl) ?_
    | with_reducible refine Inv.ite ?_ ?_
    | split
    | intro _
    | dsimp only

theorem State.setMbWords_keeps {I : Inv} {s : State} (hE : I.has [.regs]) (h : I.P s) {i : Nat} {l : List Nat} :
    I.P (State.setMbWords s i l) := by
  induction l generalizing s i with
  | nil => simpa only [State.setMbWords] using h
  | cons a r ih =>
    simp only [State.setMbWords]
    repeat' first
      | with_reducible assumption
      | intro _
      | refine ih ?_
      | with_reducible refine State.setReg_keeps (hE.sub rfl) ?_
      | with_reducible refine Inv.ite ?_ ?_
      | split
      | dsimp only

theorem State.setMbData_keeps {I : Inv} {s : State} (hE : I.has [.regs]) (h : I.P s) {bs : List Byte}  :
    I.P (State.setMbData s bs) := by
  unfold State.setMbData
  try dsimp only
  repeat' first
    | with_reducible assumption
    | intro _
    | with_reducible refine State.setMbWords_keeps (hE.sub rfl) ?_
    | dsimp only

theorem State.mbFinish_keeps {I : Inv} {s : State} (hE : I.has [.regs, .doors, .irq, .out]) (h : I.P s) {st : Status} {late : Bool} {handle : Nat}  :
    I.P (State.mbFinish s st late handle) := by
  unfold State.mbFinish
  try dsimp only
  repeat' first
    | with_reducible assumption
    | intro _
    | with_reducible refine State.raiseInt_keeps (hE.sub rfl) ?_
    | with_reducible refine State.setReg_keeps (hE.sub rfl) ?_
    | with_reducible refine Inv.ite ?_ ?_
    | split
    | dsimp only
    | with_reducible refine Inv.doors (hE.sub rfl) ?_ _
    | (with_reducible refine Inv.set (fun p => ?_) ?_
       · fail_if_success with_reducible (cases p <;> first
           | exact Or.inl rfl | exact Or.inl ⟨rfl, rfl⟩ | exact Or.inl ⟨rfl, rfl, rfl⟩ | exact Or.inl ⟨rfl, rfl, rfl, rfl⟩ | exact Or.inl ⟨rfl, rfl, rfl, rfl, rfl⟩
           | exact Or.inl ⟨rfl, rfl, rfl, rfl, rfl, rfl⟩ | exact Or.inl ⟨rfl, rfl, rfl, rfl, rfl, rfl, rfl⟩ | exact Or.inl ⟨rfl, rfl, rfl, rfl, rfl, rfl, rfl, rfl, rfl⟩
           | exact Or.inl ⟨rfl, rfl, rfl, rfl, rfl, rfl, rfl, rfl, rfl, rfl, rfl, rfl, rfl, rfl⟩)
         with_reducible (cases p <;> first
           | exact Or.inl rfl | exact Or.inl ⟨rfl, rfl⟩ | exact Or.inl ⟨rfl, rfl, rfl⟩ | exact Or.inl ⟨rfl, rfl, rfl, rfl⟩ | exact Or.inl ⟨rfl, rfl, rfl, rfl, rfl⟩
           | exact Or.inl ⟨rfl, rfl, rfl, rfl, rfl, rfl⟩ | exact Or.inl ⟨rfl, rfl, rfl, rfl, rfl, rfl, rfl⟩ | exact Or.inl ⟨rfl, rfl, rfl, rfl, rfl, rfl, rfl, rfl, rfl⟩
           | exact Or.inl ⟨rfl, rfl, rfl, rfl, rfl, rfl, rfl, rfl, rfl, rfl, rfl, rfl, rfl, rfl⟩
           | exact Or.inr ⟨hE _ (by decide), True.intro⟩ | exact Or.inr ⟨hE _ (by decide), _, rfl⟩))
    | fail

theorem State.mbRead_keeps {I : Inv} {s : State} (hE : I.has [.regs, .doors, .irq, .out]) (h : I.P s)   :
    I.P (State.mbRead s) := by
  unfold State.mbRead
  try dsimp only
  repeat' first
    | with_reducible assumption
    | intro _
    | with_reducible refine State.setMbData_keeps (hE.sub rfl) ?_
    | with_reducible refine State.mbFinish_keeps (hE.sub rfl) ?_
    | with_reducible refine State.setReg_keeps (hE.sub rfl) ?_
    | with_reducible refine Inv.ite ?_ ?_
    | split
    | dsimp only

theorem State.mbWrite_keeps {I : Inv} {s : State} (hE : I.has [.dev, .rate, .enc, .web, .ports, .fsPorts, .slices, .cores, .ctx, .links, .regs, .dict, .blobs, .doors, .irq, .pcie, .crv, .chain, .ledger, .saf, .pwr, .events, .out]) (h : I.P s) {last : Bool}  :
    I.P (State.mbWrite s last) := by
  unfold State.mbWrite
  try dsimp only
  repeat' first
    | with_reducible assumption
    | intro _
    | with_reducible refine State.countRefusal_keeps (hE.sub rfl) ?_
    | with_reducible refine State.odWriteBytes_snd (hE.sub rfl) ?_
    | with_reducible refine State.odWriteBytes_keeps (hE.sub rfl) ?_ (by with_reducible assumption)
    | with_reducible refine State.countRefused_keeps (hE.sub rfl) ?_
    | with_reducible refine State.mbFinish_keeps (hE.sub rfl) ?_
    | with_reducible refine State.odWrite_snd (hE.sub rfl) ?_
    | with_reducible refine State.odWrite_keeps (hE.sub rfl) ?_ (by with_reducible assumption)
    | with_reducible refine State.setReg_keeps (hE.sub rfl) ?_
    | with_reducible refine Inv.ite ?_ ?_
    | split
    | dsimp only
    | with_reducible refine Inv.doors (hE.sub rfl) ?_ _
    | (with_reducible refine Inv.set (fun p => ?_) ?_
       · fail_if_success with_reducible (cases p <;> first
           | exact Or.inl rfl | exact Or.inl ⟨rfl, rfl⟩ | exact Or.inl ⟨rfl, rfl, rfl⟩ | exact Or.inl ⟨rfl, rfl, rfl, rfl⟩ | exact Or.inl ⟨rfl, rfl, rfl, rfl, rfl⟩
           | exact Or.inl ⟨rfl, rfl, rfl, rfl, rfl, rfl⟩ | exact Or.inl ⟨rfl, rfl, rfl, rfl, rfl, rfl, rfl⟩ | exact Or.inl ⟨rfl, rfl, rfl, rfl, rfl, rfl, rfl, rfl, rfl⟩
           | exact Or.inl ⟨rfl, rfl, rfl, rfl, rfl, rfl, rfl, rfl, rfl, rfl, rfl, rfl, rfl, rfl⟩)
         with_reducible (cases p <;> first
           | exact Or.inl rfl | exact Or.inl ⟨rfl, rfl⟩ | exact Or.inl ⟨rfl, rfl, rfl⟩ | exact Or.inl ⟨rfl, rfl, rfl, rfl⟩ | exact Or.inl ⟨rfl, rfl, rfl, rfl, rfl⟩
           | exact Or.inl ⟨rfl, rfl, rfl, rfl, rfl, rfl⟩ | exact Or.inl ⟨rfl, rfl, rfl, rfl, rfl, rfl, rfl⟩ | exact Or.inl ⟨rfl, rfl, rfl, rfl, rfl, rfl, rfl, rfl, rfl⟩
           | exact Or.inl ⟨rfl, rfl, rfl, rfl, rfl, rfl, rfl, rfl, rfl, rfl, rfl, rfl, rfl, rfl⟩
           | exact Or.inr ⟨hE _ (by decide), True.intro⟩ | exact Or.inr ⟨hE _ (by decide), _, rfl⟩))
    | fail

theorem State.mbWriteAt_keeps {I : Inv} {s : State} (hE : I.has [.dev, .rate, .enc, .web, .ports, .fsPorts, .slices, .cores, .ctx, .links, .regs, .dict, .doors, .irq, .pcie, .crv, .chain, .ledger, .pwr, .events, .out]) (h : I.P s) {last : Bool}  :
    I.P (State.mbWriteAt s last) := by
  unfold State.mbWriteAt
  try dsimp only
  repeat' first
    | with_reducible assumption
    | intro _
    | with_reducible refine State.countRefused_keeps (hE.sub rfl) ?_
    | with_reducible refine State.mbFinish_keeps (hE.sub rfl) ?_
    | with_reducible refine State.writeAt_snd (hE.sub rfl) ?_
    | with_reducible refine State.writeAt_keeps (hE.sub rfl) ?_ (by with_reducible assumption)
    | with_reducible refine Inv.ite ?_ ?_
    | split
    | dsimp only

theorem State.mbCancelAt_keeps {I : Inv} {s : State} (hE : I.has [.regs, .doors, .irq, .out]) (h : I.P s)   :
    I.P (State.mbCancelAt s) := by
  unfold State.mbCancelAt
  try dsimp only
  repeat' first
    | with_reducible assumption
    | intro _
    | with_reducible refine State.mbFinish_keeps (hE.sub rfl) ?_
    | with_reducible refine State.cancelAt_snd (hE.sub rfl) ?_
    | with_reducible refine State.cancelAt_keeps (hE.sub rfl) ?_ (by with_reducible assumption)
    | with_reducible refine Inv.ite ?_ ?_
    | split
    | dsimp only

theorem State.mbDescribe_keeps {I : Inv} {s : State} (hE : I.has [.regs, .doors, .irq, .out]) (h : I.P s)   :
    I.P (State.mbDescribe s) := by
  unfold State.mbDescribe
  try dsimp only
  repeat' first
    | with_reducible assumption
    | intro _
    | with_reducible refine State.setMbData_keeps (hE.sub rfl) ?_
    | with_reducible refine State.mbFinish_keeps (hE.sub rfl) ?_
    | with_reducible refine Inv.ite ?_ ?_
    | split
    | dsimp only

theorem State.mailboxGo_keeps {I : Inv} {s : State} (hE : I.has []) (h : I.P s) {f : State → State} (hf : ∀ (u : State), I.P u → I.P (f u)) :
    I.ok (State.mailboxGo s f) := by
  unfold State.mailboxGo
  try dsimp only
  repeat' first
    | with_reducible assumption
    | with_reducible refine Inv.ok_act ?_ ?_
    | with_reducible refine Inv.ok_next ?_
    | with_reducible exact Inv.ok_refused _
    | with_reducible refine Inv.ok_ite ?_ ?_
    | refine hf _ ?_
    | with_reducible refine Inv.ite ?_ ?_
    | split
    | intro _
    | dsimp only

theorem execMbRead_ok {I : Inv} {s : State} (hE : I.has [.regs, .doors, .irq, .out]) (h : I.P s)   :
    I.ok (execMbRead s) := by
  unfold execMbRead
  try dsimp only
  repeat' first
    | with_reducible assumption
    | with_reducible refine Inv.ok_act ?_ ?_
    | with_reducible refine Inv.ok_next ?_
    | with_reducible exact Inv.ok_refused _
    | with_reducible refine Inv.ok_ite ?_ ?_
    | with_reducible refine State.mailboxGo_keeps (hE.sub rfl) ?_ ?_
    | with_reducible refine State.mbRead_keeps (hE.sub rfl) ?_
    | intro _
    | dsimp only

theorem execMbWrite_ok {I : Inv} {s : State} (hE : I.has [.dev, .rate, .enc, .web, .ports, .fsPorts, .slices, .cores, .ctx, .links, .regs, .dict, .blobs, .doors, .irq, .pcie, .crv, .chain, .ledger, .saf, .pwr, .events, .out]) (h : I.P s) {last : Bool}  :
    I.ok (execMbWrite last s) := by
  unfold execMbWrite
  try dsimp only
  repeat' first
    | with_reducible assumption
    | with_reducible refine Inv.ok_act ?_ ?_
    | with_reducible refine Inv.ok_next ?_
    | with_reducible exact Inv.ok_refused _
    | with_reducible refine Inv.ok_ite ?_ ?_
    | with_reducible refine State.mailboxGo_keeps (hE.sub rfl) ?_ ?_
    | with_reducible refine State.mbWrite_keeps (hE.sub rfl) ?_
    | intro _
    | dsimp only

theorem execMbWriteAt_ok {I : Inv} {s : State} (hE : I.has [.dev, .rate, .enc, .web, .ports, .fsPorts, .slices, .cores, .ctx, .links, .regs, .dict, .doors, .irq, .pcie, .crv, .chain, .ledger, .pwr, .events, .out]) (h : I.P s) {last : Bool}  :
    I.ok (execMbWriteAt last s) := by
  unfold execMbWriteAt
  try dsimp only
  repeat' first
    | with_reducible assumption
    | with_reducible refine Inv.ok_act ?_ ?_
    | with_reducible refine Inv.ok_next ?_
    | with_reducible exact Inv.ok_refused _
    | with_reducible refine Inv.ok_ite ?_ ?_
    | with_reducible refine State.mailboxGo_keeps (hE.sub rfl) ?_ ?_
    | with_reducible refine State.mbWriteAt_keeps (hE.sub rfl) ?_
    | intro _
    | dsimp only

theorem execMbCancelAt_ok {I : Inv} {s : State} (hE : I.has [.regs, .doors, .irq, .out]) (h : I.P s)   :
    I.ok (execMbCancelAt s) := by
  unfold execMbCancelAt
  try dsimp only
  repeat' first
    | with_reducible assumption
    | with_reducible refine Inv.ok_act ?_ ?_
    | with_reducible refine Inv.ok_next ?_
    | with_reducible exact Inv.ok_refused _
    | with_reducible refine Inv.ok_ite ?_ ?_
    | with_reducible refine State.mbCancelAt_keeps (hE.sub rfl) ?_
    | with_reducible refine State.mailboxGo_keeps (hE.sub rfl) ?_ ?_
    | intro _
    | dsimp only

theorem execMbDescribe_ok {I : Inv} {s : State} (hE : I.has [.regs, .doors, .irq, .out]) (h : I.P s)   :
    I.ok (execMbDescribe s) := by
  unfold execMbDescribe
  try dsimp only
  repeat' first
    | with_reducible assumption
    | with_reducible refine Inv.ok_act ?_ ?_
    | with_reducible refine Inv.ok_next ?_
    | with_reducible exact Inv.ok_refused _
    | with_reducible refine Inv.ok_ite ?_ ?_
    | with_reducible refine State.mbDescribe_keeps (hE.sub rfl) ?_
    | with_reducible refine State.mailboxGo_keeps (hE.sub rfl) ?_ ?_
    | intro _
    | dsimp only

end Sys2Proof.Machine
end

