-- ==== Sys2Proof/Laws/KeepsStateHooks.lean ====
section
/-! SUPPORT. The operations of Machine/StateHooks.lean keep every predicate that lets their parts change. -/

set_option linter.unreachableTactic false
set_option linter.unusedTactic false

namespace Sys2Proof.Machine

theorem State.armedReport_keeps {I : Inv} {s : State} (hE : I.has [.dict]) (h : I.P s)   :
    I.P (State.armedReport s) := by
  unfold State.armedReport
  try dsimp only
  repeat' first
    | with_reducible assumption
    | intro _
    | with_reducible refine State.setOd_keeps (hE.sub rfl) ?_
    | with_reducible refine Inv.foldl ?_ ?_
    | dsimp only

theorem State.eachPort_keeps {I : Inv} {s : State} (hE : I.has []) (h : I.P s) {f : State → PortIx → State} (hf : ∀ (u : State) (a1 : PortIx), I.P u → I.P (f u a1)) :
    I.P (State.eachPort s f) := by
  unfold State.eachPort
  try dsimp only
  repeat' first
    | with_reducible assumption
    | intro _
    | refine hf _ _ ?_
    | with_reducible refine Inv.foldl ?_ ?_
    | dsimp only

theorem State.ringCheck_keeps {I : Inv} {s : State} (hE : I.has [.dict, .events]) (h : I.P s)   :
    I.P (State.ringCheck s) := by
  unfold State.ringCheck
  try dsimp only
  repeat' first
    | with_reducible assumption
    | intro _
    | with_reducible refine State.undersize_keeps (hE.sub rfl) ?_
    | with_reducible refine Inv.ite ?_ ?_
    | split
    | dsimp only

theorem State.armLink_keeps {I : Inv} {s : State} (hE : I.has [.links]) (h : I.P s) {l : LinkIx}  :
    I.P (State.armLink s l) := by
  unfold State.armLink
  try dsimp only
  repeat' first
    | with_reducible assumption
    | intro _
    | with_reducible refine State.modLink_keeps (hE.sub rfl) ?_
    | with_reducible refine Inv.ite ?_ ?_
    | split
    | dsimp only

theorem State.armedUnits_keeps {I : Inv} {s : State} (hE : I.has [.ports, .fsPorts, .slices, .tensors, .cores, .cmd, .ctx, .det, .links, .dict, .events]) (h : I.P s)   :
    I.P (State.armedUnits s) := by
  unfold State.armedUnits
  repeat' first
    | with_reducible assumption
    | (extract_lets +onlyGivenNames v
       first
         | (have hv : I.P v := by
              dsimp only [v]
              repeat' first
                | with_reducible assumption
                | intro _
                | with_reducible refine State.ringCheck_keeps (hE.sub rfl) ?_
                | with_reducible refine State.clearPort_keeps (hE.sub rfl) ?_
                | with_reducible refine State.eachPort_keeps (hE.sub rfl) ?_ ?_
                | with_reducible refine State.modPort_keeps (hE.sub rfl) ?_
                | with_reducible refine State.fsArmed_keeps (hE.sub rfl) ?_
                | with_reducible refine State.armLink_keeps (hE.sub rfl) ?_
                | with_reducible refine State.modCmd_keeps (hE.sub rfl) ?_
                | with_reducible refine State.modCtx_keeps (hE.sub rfl) ?_
                | with_reducible refine State.setOd_keeps (hE.sub rfl) ?_
                | with_reducible refine Inv.ite ?_ ?_
                | split
                | dsimp only
                | with_reducible refine Inv.slices (hE.sub rfl) ?_ _
                | with_reducible refine Inv.tensors (hE.sub rfl) ?_ _
                | with_reducible refine Inv.det (hE.sub rfl) ?_ _
                | with_reducible refine Inv.cores (hE.sub rfl) ?_ _
                | (with_reducible refine Inv.set (fun p => ?_) ?_
                   · fail_if_success with_reducible (cases p <;> first
                       | exact Or.inl rfl | exact Or.inl ⟨rfl, rfl⟩ | exact Or.inl ⟨rfl, rfl, rfl⟩ | exact Or.inl ⟨rfl, rfl, rfl, rfl⟩ | exact Or.inl ⟨rfl, rfl, rfl, rfl, rfl⟩
                       | exact Or.inl ⟨rfl, rfl, rfl, rfl, rfl, rfl⟩ | exact Or.inl ⟨rfl, rfl, rfl, rfl, rfl, rfl, rfl⟩ | exact Or.inl ⟨rfl, rfl, rfl, rfl, rfl, rfl, rfl, rfl, rfl⟩
                       | exact Or.inl ⟨rfl, rfl, rfl, rfl, rfl, rfl, rfl, rfl, rfl, rfl, rfl, rfl, rfl, rfl⟩)
                     with_reducible (cases p <;> first
                       | exact Or.inl rfl | exact Or.inl ⟨rfl, rfl⟩ | exact Or.inl ⟨rfl, rfl, rfl⟩ | exact Or.inl ⟨rfl, rfl, rfl, rfl⟩ | exact Or.inl ⟨rfl, rfl, rfl, rfl, rfl⟩
                       | exact Or.inl ⟨rfl, rfl, rfl, rfl, rfl, rfl⟩ | exact Or.inl ⟨rfl, rfl, rfl, rfl, rfl, rfl, rfl⟩ | exact Or.inl ⟨rfl, rfl, rfl, rfl, rfl, rfl, rfl, rfl, rfl⟩
                       | exact Or.inl ⟨rfl, rfl, rfl, rfl, rfl, rfl, rfl, rfl, rfl, rfl, rfl, rfl, rfl, rfl⟩
                       | exact Or.inr ⟨hE _ (by decide), True.intro⟩ | exact Or.inr ⟨hE _ (by decide), _, rfl⟩))
                | fail
            clear_value v)
         | (try dsimp only [v]
            clear v))
    | intro _
    | with_reducible refine State.ringCheck_keeps (hE.sub rfl) ?_
    | with_reducible refine State.clearPort_keeps (hE.sub rfl) ?_
    | with_reducible refine State.eachPort_keeps (hE.sub rfl) ?_ ?_
    | with_reducible refine State.modPort_keeps (hE.sub rfl) ?_
    | with_reducible refine State.fsArmed_keeps (hE.sub rfl) ?_
    | with_reducible refine State.armLink_keeps (hE.sub rfl) ?_
    | with_reducible refine State.modCmd_keeps (hE.sub rfl) ?_
    | with_reducible refine State.modCtx_keeps (hE.sub rfl) ?_
    | with_reducible refine State.setOd_keeps (hE.sub rfl) ?_
    | with_reducible refine Inv.ite ?_ ?_
    | split
    | dsimp only
    | with_reducible refine Inv.slices (hE.sub rfl) ?_ _
    | with_reducible refine Inv.tensors (hE.sub rfl) ?_ _
    | with_reducible refine Inv.det (hE.sub rfl) ?_ _
    | with_reducible refine Inv.cores (hE.sub rfl) ?_ _
    | (with_reducible refine Inv.set (fun p => ?_) ?_
       · fail_if_success with_reducible (cases p <;> first
           | exact Or.inl rfl | exact Or.inl ⟨rfl, rfl⟩ | exact Or.inl ⟨rfl, rfl, rfl⟩ | exact Or.inl ⟨rfl, rfl, rfl, rfl⟩ | exact Or.inl ⟨rfl, rfl, rfl, rfl, rfl⟩
           | exact Or.inl ⟨rfl, rfl, rfl, rfl, rfl, rfl⟩ | exact Or.inl ⟨rfl, rfl, rfl, rfl, rfl, rfl, rfl⟩ | exact Or.inl ⟨rfl, rfl, rfl, rfl, rfl, rfl, rfl, rfl, rfl⟩
           | exact Or.inl ⟨rfl, rfl, rfl, rfl, rfl, rfl, rfl, rfl, rfl, rfl, rfl, rfl, rfl, rfl⟩)
         with_reducible (cases p <;> first
           | exact Or.inl rfl | exact Or.inl ⟨rfl, rfl⟩ | exact Or.inl ⟨rfl, rfl, rfl⟩ | exact Or.inl ⟨rfl, rfl, rfl, rfl⟩ | exact Or.inl ⟨rfl, rfl, rfl, rfl, rfl⟩
           | exact Or.inl ⟨rfl, rfl, rfl, rfl, rfl, rfl⟩ | exact Or.inl ⟨rfl, rfl, rfl, rfl, rfl, rfl, rfl⟩ | exact Or.inl ⟨rfl, rfl, rfl, rfl, rfl, rfl, rfl, rfl, rfl⟩
           | exact Or.inl ⟨rfl, rfl, rfl, rfl, rfl, rfl, rfl, rfl, rfl, rfl, rfl, rfl, rfl, rfl⟩
           | exact Or.inr ⟨hE _ (by decide), True.intro⟩ | exact Or.inr ⟨hE _ (by decide), _, rfl⟩))
    | fail

theorem State.cancelJobs_keeps {I : Inv} {s : State} (hE : I.has [.fsPorts, .slices, .cores, .cmd, .det, .regs, .dict, .irq, .hostMem, .dram, .oasis, .events, .out, .free]) (h : I.P s) {status : Nat}  :
    I.P (State.cancelJobs s status) := by
  unfold State.cancelJobs
  try dsimp only
  repeat' first
    | with_reducible assumption
    | intro _
    | with_reducible refine State.cancelCmd_keeps (hE.sub rfl) ?_
    | with_reducible refine Inv.foldl ?_ ?_
    | with_reducible refine Inv.ite ?_ ?_
    | split
    | dsimp only

theorem State.pendingPreop_keeps {I : Inv} {s : State} (hE : I.has [.ports, .fsPorts, .regs, .dict, .doors, .irq, .chain, .ledger, .events, .out]) (h : I.P s) {c : PortIx} {x : Int}  :
    I.P (State.pendingPreop s c x) := by
  unfold State.pendingPreop
  try dsimp only
  repeat' first
    | with_reducible assumption
    | intro _
    | with_reducible refine State.applyMirage_keeps (hE.sub rfl) ?_
    | with_reducible refine State.fsPreop_keeps (hE.sub rfl) ?_
    | dsimp only

theorem State.portPreop_keeps {I : Inv} {s : State} (hE : I.has [.web, .ports, .fsPorts, .slices, .regs, .dict, .doors, .irq, .chain, .ledger, .events, .out]) (h : I.P s) {c : PortIx}  :
    I.P (State.portPreop s c) := by
  unfold State.portPreop
  try dsimp only
  repeat' first
    | with_reducible assumption
    | intro _
    | with_reducible refine State.pendingPreop_keeps (hE.sub rfl) ?_
    | with_reducible refine State.flushHeld_keeps (hE.sub rfl) ?_
    | with_reducible refine State.closeRun_keeps (hE.sub rfl) ?_
    | with_reducible refine State.modPort_keeps (hE.sub rfl) ?_
    | with_reducible refine State.absent_keeps (hE.sub rfl) ?_
    | with_reducible refine Inv.foldl ?_ ?_
    | with_reducible refine Inv.ite ?_ ?_
    | split
    | dsimp only

theorem State.heldPreop_keeps {I : Inv} {s : State} (hE : I.has [.ctx, .regs, .dict, .doors, .irq, .chain, .ledger, .events, .out]) (h : I.P s)   :
    I.P (State.heldPreop s) := by
  unfold State.heldPreop
  try dsimp only
  repeat' first
    | with_reducible assumption
    | intro _
    | with_reducible refine State.ledgerEffect_keeps (hE.sub rfl) ?_
    | with_reducible refine State.periodEffect_keeps (hE.sub rfl) ?_
    | with_reducible refine State.chainWatch_keeps (hE.sub rfl) ?_ ?_
    | with_reducible refine State.setOd_keeps (hE.sub rfl) ?_
    | with_reducible refine Inv.foldl ?_ ?_
    | with_reducible refine Inv.ite ?_ ?_
    | split
    | dsimp only
    | with_reducible refine Inv.doors (hE.sub rfl) ?_ _
    | (with_reducible refine Inv.set (fun p => ?_) ?_
       · fail_if_success with_reducible (cases p <;> first
           | exact Or.inl rfl | exact Or.inl ⟨rfl, rfl⟩ | exact Or.inl ⟨rfl, rfl, rfl⟩ | exact Or.inl ⟨rfl, rfl, rfl, rfl⟩ | exact Or.inl ⟨rfl, rfl, rfl, rfl, rfl⟩
           | exact Or.inl ⟨rfl, rfl, rfl, rfl, rfl, rfl⟩ | exact Or.inl ⟨rfl, rfl, rfl, rfl, rfl, rfl, rfl⟩ | exact Or.inl ⟨rfl, rfl, rfl, rfl, rfl, rfl, rfl, rfl, rfl⟩
           | exact Or.inl ⟨rfl, rfl, rfl, rfl, rfl, rfl, rfl, rfl, rfl, rfl, rfl, rfl, rfl, rfl⟩)
         with_reducible (cases p <;> first
           | exact Or.inl rfl | exact Or.inl ⟨rfl, rfl⟩ | exact Or.inl ⟨rfl, rfl, rfl⟩ | exact Or.inl ⟨rfl, rfl, rfl, rfl⟩ | exact Or.inl ⟨rfl, rfl, rfl, rfl, rfl⟩
           | exact Or.inl ⟨rfl, rfl, rfl, rfl, rfl, rfl⟩ | exact Or.inl ⟨rfl, rfl, rfl, rfl, rfl, rfl, rfl⟩ | exact Or.inl ⟨rfl, rfl, rfl, rfl, rfl, rfl, rfl, rfl, rfl⟩
           | exact Or.inl ⟨rfl, rfl, rfl, rfl, rfl, rfl, rfl, rfl, rfl, rfl, rfl, rfl, rfl, rfl⟩
           | exact Or.inr ⟨hE _ (by decide), True.intro⟩ | exact Or.inr ⟨hE _ (by decide), _, rfl⟩))
    | fail

theorem State.preopUnits_keeps {I : Inv} {s : State} (hE : I.has [.web, .ports, .fsPorts, .slices, .cores, .cmd, .ctx, .det, .links, .regs, .dict, .doors, .irq, .chain, .ledger, .pwr, .hostMem, .dram, .oasis, .events, .out, .free]) (h : I.P s)   :
    I.P (State.preopUnits s) := by
  unfold State.preopUnits
  try dsimp only
  repeat' first
    | with_reducible assumption
    | intro _
    | with_reducible refine State.pendingPreop_keeps (hE.sub rfl) ?_
    | with_reducible refine State.cancelJobs_keeps (hE.sub rfl) ?_
    | with_reducible refine State.powerPreop_keeps (hE.sub rfl) ?_
    | with_reducible refine State.heldPreop_keeps (hE.sub rfl) ?_
    | with_reducible refine State.portPreop_keeps (hE.sub rfl) ?_
    | with_reducible refine State.eachPort_keeps (hE.sub rfl) ?_ ?_
    | with_reducible refine State.modPort_keeps (hE.sub rfl) ?_
    | with_reducible refine State.ffStop_keeps (hE.sub rfl) ?_
    | with_reducible refine Inv.ite ?_ ?_
    | split
    | dsimp only

theorem State.preopAfter_keeps {I : Inv} {s : State} (hE : I.has [.ports, .links, .trim, .dict, .out]) (h : I.P s)   :
    I.P (State.preopAfter s) := by
  unfold State.preopAfter
  try dsimp only
  repeat' first
    | with_reducible assumption
    | intro _
    | with_reducible refine State.linkStart_keeps (hE.sub rfl) ?_
    | with_reducible refine State.discStart_keeps (hE.sub rfl) ?_
    | with_reducible refine State.eachPort_keeps (hE.sub rfl) ?_ ?_
    | with_reducible refine State.modTrim_keeps (hE.sub rfl) ?_
    | with_reducible refine State.trimDue_keeps (hE.sub rfl) ?_
    | with_reducible refine Inv.foldl ?_ ?_
    | with_reducible refine Inv.ite ?_ ?_
    | split
    | dsimp only
    | (with_reducible refine Inv.set (fun p => ?_) ?_
       · fail_if_success with_reducible (cases p <;> first
           | exact Or.inl rfl | exact Or.inl ⟨rfl, rfl⟩ | exact Or.inl ⟨rfl, rfl, rfl⟩ | exact Or.inl ⟨rfl, rfl, rfl, rfl⟩ | exact Or.inl ⟨rfl, rfl, rfl, rfl, rfl⟩
           | exact Or.inl ⟨rfl, rfl, rfl, rfl, rfl, rfl⟩ | exact Or.inl ⟨rfl, rfl, rfl, rfl, rfl, rfl, rfl⟩ | exact Or.inl ⟨rfl, rfl, rfl, rfl, rfl, rfl, rfl, rfl, rfl⟩
           | exact Or.inl ⟨rfl, rfl, rfl, rfl, rfl, rfl, rfl, rfl, rfl, rfl, rfl, rfl, rfl, rfl⟩)
         with_reducible (cases p <;> first
           | exact Or.inl rfl | exact Or.inl ⟨rfl, rfl⟩ | exact Or.inl ⟨rfl, rfl, rfl⟩ | exact Or.inl ⟨rfl, rfl, rfl, rfl⟩ | exact Or.inl ⟨rfl, rfl, rfl, rfl, rfl⟩
           | exact Or.inl ⟨rfl, rfl, rfl, rfl, rfl, rfl⟩ | exact Or.inl ⟨rfl, rfl, rfl, rfl, rfl, rfl, rfl⟩ | exact Or.inl ⟨rfl, rfl, rfl, rfl, rfl, rfl, rfl, rfl, rfl⟩
           | exact Or.inl ⟨rfl, rfl, rfl, rfl, rfl, rfl, rfl, rfl, rfl, rfl, rfl, rfl, rfl, rfl⟩
           | exact Or.inr ⟨hE _ (by decide), True.intro⟩ | exact Or.inr ⟨hE _ (by decide), _, rfl⟩))
    | fail

theorem State.dropCommands_keeps {I : Inv} {s : State} (hE : I.has [.fsPorts, .slices, .cores, .cmd, .det, .regs, .dict, .irq, .hostMem, .dram, .oasis, .events, .out, .free]) (h : I.P s)   :
    I.P (State.dropCommands s) := by
  unfold State.dropCommands
  try dsimp only
  repeat' first
    | with_reducible assumption
    | intro _
    | with_reducible refine State.cancelJobs_keeps (hE.sub rfl) ?_
    | with_reducible refine State.modCmd_keeps (hE.sub rfl) ?_
    | with_reducible refine Inv.ite ?_ ?_
    | split
    | dsimp only
    | (with_reducible refine Inv.set (fun p => ?_) ?_
       · fail_if_success with_reducible (cases p <;> first
           | exact Or.inl rfl | exact Or.inl ⟨rfl, rfl⟩ | exact Or.inl ⟨rfl, rfl, rfl⟩ | exact Or.inl ⟨rfl, rfl, rfl, rfl⟩ | exact Or.inl ⟨rfl, rfl, rfl, rfl, rfl⟩
           | exact Or.inl ⟨rfl, rfl, rfl, rfl, rfl, rfl⟩ | exact Or.inl ⟨rfl, rfl, rfl, rfl, rfl, rfl, rfl⟩ | exact Or.inl ⟨rfl, rfl, rfl, rfl, rfl, rfl, rfl, rfl, rfl⟩
           | exact Or.inl ⟨rfl, rfl, rfl, rfl, rfl, rfl, rfl, rfl, rfl, rfl, rfl, rfl, rfl, rfl⟩)
         with_reducible (cases p <;> first
           | exact Or.inl rfl | exact Or.inl ⟨rfl, rfl⟩ | exact Or.inl ⟨rfl, rfl, rfl⟩ | exact Or.inl ⟨rfl, rfl, rfl, rfl⟩ | exact Or.inl ⟨rfl, rfl, rfl, rfl, rfl⟩
           | exact Or.inl ⟨rfl, rfl, rfl, rfl, rfl, rfl⟩ | exact Or.inl ⟨rfl, rfl, rfl, rfl, rfl, rfl, rfl⟩ | exact Or.inl ⟨rfl, rfl, rfl, rfl, rfl, rfl, rfl, rfl, rfl⟩
           | exact Or.inl ⟨rfl, rfl, rfl, rfl, rfl, rfl, rfl, rfl, rfl, rfl, rfl, rfl, rfl, rfl⟩
           | exact Or.inr ⟨hE _ (by decide), True.intro⟩ | exact Or.inr ⟨hE _ (by decide), _, rfl⟩))
    | fail

theorem State.queueSafe_keeps {I : Inv} {s : State} (hE : I.has [.regs, .irq, .events, .out]) (h : I.P s) {q : Nat}  :
    I.P (State.queueSafe s q) := by
  unfold State.queueSafe
  try dsimp only
  repeat' first
    | with_reducible assumption
    | intro _
    | with_reducible refine State.stopQueue_keeps (hE.sub rfl) ?_
    | with_reducible refine State.setReg_keeps (hE.sub rfl) ?_
    | with_reducible refine Inv.ite ?_ ?_
    | split
    | dsimp only

theorem State.safeUnits_keeps {I : Inv} {s : State} (hE : I.has [.ports, .fsPorts, .slices, .cores, .cmd, .ctx, .det, .links, .trim, .regs, .dict, .irq, .chain, .ledger, .pwr, .hostMem, .dram, .oasis, .events, .out, .free]) (h : I.P s)   :
    I.P (State.safeUnits s) := by
  unfold State.safeUnits
  try dsimp only
  repeat' first
    | with_reducible assumption
    | intro _
    | with_reducible refine State.powerThermal_keeps (hE.sub rfl) ?_
    | with_reducible refine State.dropCommands_keeps (hE.sub rfl) ?_
    | with_reducible refine State.queueSafe_keeps (hE.sub rfl) ?_
    | with_reducible refine State.clearPort_keeps (hE.sub rfl) ?_
    | with_reducible refine State.trimStop_keeps (hE.sub rfl) ?_
    | with_reducible refine State.eachPort_keeps (hE.sub rfl) ?_ ?_
    | with_reducible refine State.linkEnd_keeps (hE.sub rfl) ?_
    | with_reducible refine State.ffStop_keeps (hE.sub rfl) ?_
    | with_reducible refine State.modCtx_keeps (hE.sub rfl) ?_
    | with_reducible refine State.modFs_keeps (hE.sub rfl) ?_
    | with_reducible refine Inv.foldl ?_ ?_
    | with_reducible refine Inv.ite ?_ ?_
    | split
    | dsimp only

theorem State.holdUnits_keeps {I : Inv} {s : State} (hE : I.has [.web, .fsPorts, .regs, .dict, .irq, .chain, .ledger, .events, .out]) (h : I.P s)   :
    I.P (State.holdUnits s) := by
  unfold State.holdUnits
  try dsimp only
  repeat' first
    | with_reducible assumption
    | intro _
    | with_reducible refine State.eachPort_keeps (hE.sub rfl) ?_ ?_
    | with_reducible refine State.ffStop_keeps (hE.sub rfl) ?_
    | with_reducible refine Inv.ite ?_ ?_
    | split
    | dsimp only
    | (with_reducible refine Inv.set (fun p => ?_) ?_
       · fail_if_success with_reducible (cases p <;> first
           | exact Or.inl rfl | exact Or.inl ⟨rfl, rfl⟩ | exact Or.inl ⟨rfl, rfl, rfl⟩ | exact Or.inl ⟨rfl, rfl, rfl, rfl⟩ | exact Or.inl ⟨rfl, rfl, rfl, rfl, rfl⟩
           | exact Or.inl ⟨rfl, rfl, rfl, rfl, rfl, rfl⟩ | exact Or.inl ⟨rfl, rfl, rfl, rfl, rfl, rfl, rfl⟩ | exact Or.inl ⟨rfl, rfl, rfl, rfl, rfl, rfl, rfl, rfl, rfl⟩
           | exact Or.inl ⟨rfl, rfl, rfl, rfl, rfl, rfl, rfl, rfl, rfl, rfl, rfl, rfl, rfl, rfl⟩)
         with_reducible (cases p <;> first
           | exact Or.inl rfl | exact Or.inl ⟨rfl, rfl⟩ | exact Or.inl ⟨rfl, rfl, rfl⟩ | exact Or.inl ⟨rfl, rfl, rfl, rfl⟩ | exact Or.inl ⟨rfl, rfl, rfl, rfl, rfl⟩
           | exact Or.inl ⟨rfl, rfl, rfl, rfl, rfl, rfl⟩ | exact Or.inl ⟨rfl, rfl, rfl, rfl, rfl, rfl, rfl⟩ | exact Or.inl ⟨rfl, rfl, rfl, rfl, rfl, rfl, rfl, rfl, rfl⟩
           | exact Or.inl ⟨rfl, rfl, rfl, rfl, rfl, rfl, rfl, rfl, rfl, rfl, rfl, rfl, rfl, rfl⟩
           | exact Or.inr ⟨hE _ (by decide), True.intro⟩ | exact Or.inr ⟨hE _ (by decide), _, rfl⟩))
    | fail

theorem State.flrUnits_keeps {I : Inv} {s : State} (hE : I.has [.fsPorts, .slices, .cores, .cmd, .det, .regs, .dict, .irq, .hostMem, .dram, .oasis, .events, .out, .free]) (h : I.P s)   :
    I.P (State.flrUnits s) := by
  unfold State.flrUnits
  try dsimp only
  repeat' first
    | with_reducible assumption
    | intro _
    | with_reducible refine State.dropCommands_keeps (hE.sub rfl) ?_
    | with_reducible refine State.ringSize_keeps (hE.sub rfl) ?_
    | with_reducible refine State.setReg_keeps (hE.sub rfl) ?_
    | with_reducible refine State.setOd_keeps (hE.sub rfl) ?_
    | with_reducible refine Inv.foldl ?_ ?_
    | with_reducible refine Inv.ite ?_ ?_
    | split
    | dsimp only
    | with_reducible refine Inv.cores (hE.sub rfl) ?_ _
    | (with_reducible refine Inv.set (fun p => ?_) ?_
       · fail_if_success with_reducible (cases p <;> first
           | exact Or.inl rfl | exact Or.inl ⟨rfl, rfl⟩ | exact Or.inl ⟨rfl, rfl, rfl⟩ | exact Or.inl ⟨rfl, rfl, rfl, rfl⟩ | exact Or.inl ⟨rfl, rfl, rfl, rfl, rfl⟩
           | exact Or.inl ⟨rfl, rfl, rfl, rfl, rfl, rfl⟩ | exact Or.inl ⟨rfl, rfl, rfl, rfl, rfl, rfl, rfl⟩ | exact Or.inl ⟨rfl, rfl, rfl, rfl, rfl, rfl, rfl, rfl, rfl⟩
           | exact Or.inl ⟨rfl, rfl, rfl, rfl, rfl, rfl, rfl, rfl, rfl, rfl, rfl, rfl, rfl, rfl⟩)
         with_reducible (cases p <;> first
           | exact Or.inl rfl | exact Or.inl ⟨rfl, rfl⟩ | exact Or.inl ⟨rfl, rfl, rfl⟩ | exact Or.inl ⟨rfl, rfl, rfl, rfl⟩ | exact Or.inl ⟨rfl, rfl, rfl, rfl, rfl⟩
           | exact Or.inl ⟨rfl, rfl, rfl, rfl, rfl, rfl⟩ | exact Or.inl ⟨rfl, rfl, rfl, rfl, rfl, rfl, rfl⟩ | exact Or.inl ⟨rfl, rfl, rfl, rfl, rfl, rfl, rfl, rfl, rfl⟩
           | exact Or.inl ⟨rfl, rfl, rfl, rfl, rfl, rfl, rfl, rfl, rfl, rfl, rfl, rfl, rfl, rfl⟩
           | exact Or.inr ⟨hE _ (by decide), True.intro⟩ | exact Or.inr ⟨hE _ (by decide), _, rfl⟩))
    | fail

theorem State.resetUnits_keeps {I : Inv} {old : State} (hE : I.has [.cores]) (_ : I.P old) {new : State} (h : I.P new) :
    I.P (State.resetUnits old new) := Inv.cores (hE.sub rfl) h _

end Sys2Proof.Machine
end

