-- ==== Sys2Proof/Laws/KeepsReset.lean ====
section
/-! SUPPORT. The operations of Machine/Reset.lean keep every predicate that lets their parts change. -/

set_option linter.unreachableTactic false
set_option linter.unusedTactic false

namespace Sys2Proof.Machine

theorem State.cutProgram_keeps {I : Inv} {s : State} (hE : I.has [.flash, .saf]) (h : I.P s)   :
    I.P (State.cutProgram s) := by
  unfold State.cutProgram
  try dsimp only
  repeat' first
    | with_reducible assumption
    | intro _
    | with_reducible refine State.writeFlash_keeps (hE.sub rfl) ?_
    | with_reducible refine Inv.ite ?_ ?_
    | split
    | dsimp only
    | (with_reducible refine Inv.set (fun p => ?_) ?_
       · fail_if_success with_reducible (cases p <;> first
           | exact Or.inl rfl | exact Or.inl ⟨rfl, rfl⟩ | exact Or.inl ⟨rfl, rfl, rfl⟩ | exact Or.inl ⟨rfl, rfl, rfl, rfl⟩ | exact Or.inl ⟨rfl, rfl, rfl, rfl, rfl⟩
           | exact Or.inl ⟨rfl, rfl, rfl, rfl, rfl, rfl⟩ | exact Or.inl ⟨rfl, rfl, rfl, rfl, rfl, rfl, rfl⟩ | exact Or.inl ⟨rfl, rfl, rfl, rfl, rfl, rfl, rfl, rfl, rfl⟩
           | exact Or.inl ⟨rfl, rfl, rfl, rfl, rfl, rfl, rfl, rfl, rfl, rfl, rfl, rfl, rfl, rfl⟩)
         with_reducible (cases p <;> first
           | exact Or.inl rfl | exact Or.inl ⟨rfl, rfl⟩ | exact Or.inl ⟨rfl, rfl, rfl⟩ | exact Or.inl ⟨rfl, rfl, rfl, rfl⟩ | exact Or.inl ⟨rfl, rfl, rfl, rfl, rfl⟩
           | exact Or.inl ⟨rfl, rfl, rfl, rfl, rfl, rfl⟩ | exact Or.inl ⟨rfl, rfl, rfl, rfl, rfl, rfl, rfl⟩ | exact Or.inl ⟨rfl, rfl, rfl, rfl, rfl, rfl, rfl, rfl, rfl⟩
           | exact Or.inl ⟨rfl, rfl, rfl, rfl, rfl, rfl, rfl, rfl, rfl, rfl, rfl, rfl, rfl, rfl⟩
           | exact Or.inr ⟨hE _ (by decide), True.intro⟩ | exact Or.inr ⟨hE _ (by decide), _, rfl⟩))
    | fail

theorem State.conventionalReset_keeps {I : Inv} {s : State} (hE : I.has [.dt, .devState, .dev, .rate, .enc, .line, .web, .ports, .fsPorts, .slices, .tensors, .cores, .cmd, .ctx, .det, .links, .trim, .regs, .dict, .blobs, .doors, .irq, .pcie, .crv, .chain, .ledger, .flash, .saf, .pwr, .hostMem, .dram, .oasis, .poison, .events, .out, .free]) (h : I.P s) {reason rail : Nat} : I.P (s.conventionalReset reason rail) := by
  unfold State.conventionalReset
  dsimp only
  have hc : I.P s.cutProgram := State.cutProgram_keeps (hE.sub rfl) h
  refine State.resetUnits_keeps (hE.sub rfl) hc ?_
  refine Inv.fresh (hE.sub rfl) hc rfl fun p => ?_
  cases p <;> first
    | exact True.intro | exact ⟨_, rfl⟩ | exact ⟨rfl, rfl⟩ | exact ⟨fun _ => false, (List.filter_false _).symm⟩ | exact ⟨fun _ => true, (List.filter_true _).symm⟩

theorem State.resetBy_keeps {I : Inv} {s : State} (hE : I.has [.dt, .devState, .dev, .rate, .enc, .line, .web, .ports, .fsPorts, .slices, .tensors, .cores, .cmd, .ctx, .det, .links, .trim, .regs, .dict, .blobs, .doors, .irq, .pcie, .crv, .chain, .ledger, .flash, .saf, .pwr, .hostMem, .dram, .oasis, .poison, .events, .out, .free]) (h : I.P s) {reason : Nat} {rail : Nat}  :
    I.P (State.resetBy s reason rail) := by
  unfold State.resetBy
  try dsimp only
  repeat' first
    | with_reducible assumption
    | intro _
    | with_reducible refine State.conventionalReset_keeps (hE.sub rfl) ?_
    | with_reducible refine Inv.ite ?_ ?_
    | split
    | dsimp only
    | with_reducible refine Inv.pwr (hE.sub rfl) ?_ _
    | (with_reducible refine Inv.set (fun p => ?_) ?_
       · fail_if_success with_reducible (cases p <;> first
           | exact Or.inl rfl | exact Or.inl ⟨rfl, rfl⟩ | exact Or.inl ⟨rfl, rfl, rfl⟩ | exact Or.inl ⟨rfl, rfl, rfl, rfl⟩ | exact Or.inl ⟨rfl, rfl, rfl, rfl, rfl⟩
           | exact Or.inl ⟨rfl, rfl, rfl, rfl, rfl, rfl⟩ | exact Or.inl ⟨rfl, rfl, rfl, rfl, rfl, rfl, rfl⟩ | exact Or.inl ⟨rfl, rfl, rfl, rfl, rfl, rfl, rfl, rfl, rfl⟩
           | exact Or.inl ⟨rfl, rfl, rfl, rfl, rfl, rfl, rfl, rfl, rfl, rfl, rfl, rfl, rfl, rfl⟩)
         with_reducible (cases p <;> first
           | exact Or.inl rfl | exact Or.inl ⟨rfl, rfl⟩ | exact Or.inl ⟨rfl, rfl, rfl⟩ | exact Or.inl ⟨rfl, rfl, rfl, rfl⟩ | exact Or.inl ⟨rfl, rfl, rfl, rfl, rfl⟩
           | exact Or.inl ⟨rfl, rfl, rfl, rfl, rfl, rfl⟩ | exact Or.inl ⟨rfl, rfl, rfl, rfl, rfl, rfl, rfl⟩ | exact Or.inl ⟨rfl, rfl, rfl, rfl, rfl, rfl, rfl, rfl, rfl⟩
           | exact Or.inl ⟨rfl, rfl, rfl, rfl, rfl, rfl, rfl, rfl, rfl, rfl, rfl, rfl, rfl, rfl⟩
           | exact Or.inr ⟨hE _ (by decide), True.intro⟩ | exact Or.inr ⟨hE _ (by decide), _, rfl⟩))
    | fail

theorem State.resetCause_keeps {I : Inv} {s : State} (hE : I.has [.dt, .devState, .dev, .rate, .enc, .line, .web, .ports, .fsPorts, .slices, .tensors, .cores, .cmd, .ctx, .det, .links, .trim, .regs, .dict, .blobs, .doors, .irq, .pcie, .crv, .chain, .ledger, .flash, .saf, .pwr, .hostMem, .dram, .oasis, .poison, .events, .out, .free]) (h : I.P s) {reason : Nat} {rail : Nat}  :
    I.ok (State.resetCause s reason rail) := by
  unfold State.resetCause
  try dsimp only
  repeat' first
    | with_reducible assumption
    | with_reducible refine Inv.ok_act ?_ ?_
    | with_reducible refine Inv.ok_next ?_
    | with_reducible exact Inv.ok_refused _
    | with_reducible refine Inv.ok_ite ?_ ?_
    | with_reducible refine State.resetBy_keeps (hE.sub rfl) ?_
    | intro _
    | dsimp only

theorem execPowerOnReset_ok {I : Inv} {s : State} (hE : I.has [.dt, .devState, .dev, .rate, .enc, .line, .web, .ports, .fsPorts, .slices, .tensors, .cores, .cmd, .ctx, .det, .links, .trim, .regs, .dict, .blobs, .doors, .irq, .pcie, .crv, .chain, .ledger, .flash, .saf, .pwr, .hostMem, .dram, .oasis, .poison, .events, .out, .free]) (h : I.P s) : I.ok (execPowerOnReset s) := by
  unfold execPowerOnReset
  dsimp only
  have hc : I.P s.cutProgram := State.cutProgram_keeps (hE.sub rfl) h
  refine Inv.ok_ite (Inv.ok_next h) (Inv.ok_next (State.resetUnits_keeps (hE.sub rfl) hc ?_))
  refine Inv.fresh (hE.sub rfl) hc rfl fun p => ?_
  cases p <;> first
    | exact True.intro | exact ⟨_, rfl⟩ | exact ⟨rfl, rfl⟩ | exact ⟨fun _ => false, (List.filter_false _).symm⟩ | exact ⟨fun _ => true, (List.filter_true _).symm⟩

theorem execPwrGoodFall_ok {I : Inv} {s : State} (hE : I.has [.dt, .devState, .dev, .rate, .enc, .line, .web, .ports, .fsPorts, .slices, .tensors, .cores, .cmd, .ctx, .det, .links, .trim, .regs, .dict, .blobs, .doors, .irq, .pcie, .crv, .chain, .ledger, .flash, .saf, .pwr, .hostMem, .dram, .oasis, .poison, .events, .out, .free]) (h : I.P s) : I.ok (execPwrGoodFall s) := by
  unfold execPwrGoodFall
  dsimp only
  have hc : I.P s.cutProgram := State.cutProgram_keeps (hE.sub rfl) h
  refine Inv.ok_next (State.resetUnits_keeps (hE.sub rfl) hc ?_)
  refine Inv.fresh (hE.sub rfl) hc rfl fun p => ?_
  cases p <;> first
    | exact True.intro | exact ⟨_, rfl⟩ | exact ⟨rfl, rfl⟩ | exact ⟨fun _ => false, (List.filter_false _).symm⟩ | exact ⟨fun _ => true, (List.filter_true _).symm⟩

theorem execPerstAssert_ok {I : Inv} {s : State} (hE : I.has [.dt, .devState, .dev, .rate, .enc, .line, .web, .ports, .fsPorts, .slices, .tensors, .cores, .cmd, .ctx, .det, .links, .trim, .regs, .dict, .blobs, .doors, .irq, .pcie, .crv, .chain, .ledger, .flash, .saf, .pwr, .hostMem, .dram, .oasis, .poison, .events, .out, .free]) (h : I.P s)   :
    I.ok (execPerstAssert s) := by
  unfold execPerstAssert
  try dsimp only
  repeat' first
    | with_reducible assumption
    | with_reducible refine Inv.ok_act ?_ ?_
    | with_reducible refine Inv.ok_next ?_
    | with_reducible exact Inv.ok_refused _
    | with_reducible refine Inv.ok_ite ?_ ?_
    | with_reducible refine State.resetCause_keeps (hE.sub rfl) ?_
    | intro _
    | dsimp only

theorem execSysRefclkLoss_ok {I : Inv} {s : State} (hE : I.has [.dt, .devState, .dev, .rate, .enc, .line, .web, .ports, .fsPorts, .slices, .tensors, .cores, .cmd, .ctx, .det, .links, .trim, .regs, .dict, .blobs, .doors, .irq, .pcie, .crv, .chain, .ledger, .flash, .saf, .pwr, .hostMem, .dram, .oasis, .poison, .events, .out, .free]) (h : I.P s)   :
    I.ok (execSysRefclkLoss s) := by
  unfold execSysRefclkLoss
  try dsimp only
  repeat' first
    | with_reducible assumption
    | with_reducible refine Inv.ok_act ?_ ?_
    | with_reducible refine Inv.ok_next ?_
    | with_reducible exact Inv.ok_refused _
    | with_reducible refine Inv.ok_ite ?_ ?_
    | with_reducible refine State.resetCause_keeps (hE.sub rfl) ?_
    | intro _
    | dsimp only

theorem execResetEnd_ok {I : Inv} {s : State} (hE : I.has [.dev, .dict, .pwr]) (h : I.P s)   :
    I.ok (execResetEnd s) := by
  unfold execResetEnd
  try dsimp only
  repeat' first
    | with_reducible assumption
    | with_reducible refine Inv.ok_act ?_ ?_
    | with_reducible refine Inv.ok_next ?_
    | with_reducible exact Inv.ok_refused _
    | with_reducible refine Inv.ok_ite ?_ ?_
    | with_reducible refine State.setOd_keeps (hE.sub rfl) ?_
    | with_reducible refine Inv.ite ?_ ?_
    | split
    | intro _
    | dsimp only
    | with_reducible refine Inv.pwr (hE.sub rfl) ?_ _
    | (with_reducible refine Inv.set (fun p => ?_) ?_
       · fail_if_success with_reducible (cases p <;> first
           | exact Or.inl rfl | exact Or.inl ⟨rfl, rfl⟩ | exact Or.inl ⟨rfl, rfl, rfl⟩ | exact Or.inl ⟨rfl, rfl, rfl, rfl⟩ | exact Or.inl ⟨rfl, rfl, rfl, rfl, rfl⟩
           | exact Or.inl ⟨rfl, rfl, rfl, rfl, rfl, rfl⟩ | exact Or.inl ⟨rfl, rfl, rfl, rfl, rfl, rfl, rfl⟩ | exact Or.inl ⟨rfl, rfl, rfl, rfl, rfl, rfl, rfl, rfl, rfl⟩
           | exact Or.inl ⟨rfl, rfl, rfl, rfl, rfl, rfl, rfl, rfl, rfl, rfl, rfl, rfl, rfl, rfl⟩)
         with_reducible (cases p <;> first
           | exact Or.inl rfl | exact Or.inl ⟨rfl, rfl⟩ | exact Or.inl ⟨rfl, rfl, rfl⟩ | exact Or.inl ⟨rfl, rfl, rfl, rfl⟩ | exact Or.inl ⟨rfl, rfl, rfl, rfl, rfl⟩
           | exact Or.inl ⟨rfl, rfl, rfl, rfl, rfl, rfl⟩ | exact Or.inl ⟨rfl, rfl, rfl, rfl, rfl, rfl, rfl⟩ | exact Or.inl ⟨rfl, rfl, rfl, rfl, rfl, rfl, rfl, rfl, rfl⟩
           | exact Or.inl ⟨rfl, rfl, rfl, rfl, rfl, rfl, rfl, rfl, rfl, rfl, rfl, rfl, rfl, rfl⟩
           | exact Or.inr ⟨hE _ (by decide), True.intro⟩ | exact Or.inr ⟨hE _ (by decide), _, rfl⟩))
    | fail

theorem State.turnaroundChanged_keeps {I : Inv} {s : State} (hE : I.has [.rate, .regs, .irq, .events, .out]) (h : I.P s)   :
    I.P (State.turnaroundChanged s) := by
  unfold State.turnaroundChanged
  try dsimp only
  repeat' first
    | with_reducible assumption
    | intro _
    | with_reducible refine State.rateLimited_keeps (hE.sub rfl) ?_ ?_
    | with_reducible refine State.statusEvent_keeps (hE.sub rfl) ?_
    | with_reducible refine State.raiseInt_keeps (hE.sub rfl) ?_
    | dsimp only

theorem execCaravanForwardingBegin_ok {I : Inv} {s : State} (hE : I.has [.rate, .regs, .irq, .crv, .events, .out]) (h : I.P s)   :
    I.ok (execCaravanForwardingBegin s) := by
  unfold execCaravanForwardingBegin
  try dsimp only
  repeat' first
    | with_reducible assumption
    | with_reducible refine Inv.ok_act ?_ ?_
    | with_reducible refine Inv.ok_next ?_
    | with_reducible exact Inv.ok_refused _
    | with_reducible refine Inv.ok_ite ?_ ?_
    | with_reducible refine State.turnaroundChanged_keeps (hE.sub rfl) ?_
    | with_reducible refine Inv.ite ?_ ?_
    | split
    | intro _
    | dsimp only
    | with_reducible refine Inv.crv (hE.sub rfl) ?_ _
    | (with_reducible refine Inv.set (fun p => ?_) ?_
       · fail_if_success with_reducible (cases p <;> first
           | exact Or.inl rfl | exact Or.inl ⟨rfl, rfl⟩ | exact Or.inl ⟨rfl, rfl, rfl⟩ | exact Or.inl ⟨rfl, rfl, rfl, rfl⟩ | exact Or.inl ⟨rfl, rfl, rfl, rfl, rfl⟩
           | exact Or.inl ⟨rfl, rfl, rfl, rfl, rfl, rfl⟩ | exact Or.inl ⟨rfl, rfl, rfl, rfl, rfl, rfl, rfl⟩ | exact Or.inl ⟨rfl, rfl, rfl, rfl, rfl, rfl, rfl, rfl, rfl⟩
           | exact Or.inl ⟨rfl, rfl, rfl, rfl, rfl, rfl, rfl, rfl, rfl, rfl, rfl, rfl, rfl, rfl⟩)
         with_reducible (cases p <;> first
           | exact Or.inl rfl | exact Or.inl ⟨rfl, rfl⟩ | exact Or.inl ⟨rfl, rfl, rfl⟩ | exact Or.inl ⟨rfl, rfl, rfl, rfl⟩ | exact Or.inl ⟨rfl, rfl, rfl, rfl, rfl⟩
           | exact Or.inl ⟨rfl, rfl, rfl, rfl, rfl, rfl⟩ | exact Or.inl ⟨rfl, rfl, rfl, rfl, rfl, rfl, rfl⟩ | exact Or.inl ⟨rfl, rfl, rfl, rfl, rfl, rfl, rfl, rfl, rfl⟩
           | exact Or.inl ⟨rfl, rfl, rfl, rfl, rfl, rfl, rfl, rfl, rfl, rfl, rfl, rfl, rfl, rfl⟩
           | exact Or.inr ⟨hE _ (by decide), True.intro⟩ | exact Or.inr ⟨hE _ (by decide), _, rfl⟩))
    | fail

theorem State.firstEntry_keeps {I : Inv} {s : State} (hE : I.has [.dev, .events]) (h : I.P s)   :
    I.P (State.firstEntry s) := by
  unfold State.firstEntry
  try dsimp only
  repeat' first
    | with_reducible assumption
    | intro _
    | with_reducible refine State.event_keeps (hE.sub rfl) ?_
    | with_reducible refine Inv.ite ?_ ?_
    | split
    | dsimp only
    | (with_reducible refine Inv.set (fun p => ?_) ?_
       · fail_if_success with_reducible (cases p <;> first
           | exact Or.inl rfl | exact Or.inl ⟨rfl, rfl⟩ | exact Or.inl ⟨rfl, rfl, rfl⟩ | exact Or.inl ⟨rfl, rfl, rfl, rfl⟩ | exact Or.inl ⟨rfl, rfl, rfl, rfl, rfl⟩
           | exact Or.inl ⟨rfl, rfl, rfl, rfl, rfl, rfl⟩ | exact Or.inl ⟨rfl, rfl, rfl, rfl, rfl, rfl, rfl⟩ | exact Or.inl ⟨rfl, rfl, rfl, rfl, rfl, rfl, rfl, rfl, rfl⟩
           | exact Or.inl ⟨rfl, rfl, rfl, rfl, rfl, rfl, rfl, rfl, rfl, rfl, rfl, rfl, rfl, rfl⟩)
         with_reducible (cases p <;> first
           | exact Or.inl rfl | exact Or.inl ⟨rfl, rfl⟩ | exact Or.inl ⟨rfl, rfl, rfl⟩ | exact Or.inl ⟨rfl, rfl, rfl, rfl⟩ | exact Or.inl ⟨rfl, rfl, rfl, rfl, rfl⟩
           | exact Or.inl ⟨rfl, rfl, rfl, rfl, rfl, rfl⟩ | exact Or.inl ⟨rfl, rfl, rfl, rfl, rfl, rfl, rfl⟩ | exact Or.inl ⟨rfl, rfl, rfl, rfl, rfl, rfl, rfl, rfl, rfl⟩
           | exact Or.inl ⟨rfl, rfl, rfl, rfl, rfl, rfl, rfl, rfl, rfl, rfl, rfl, rfl, rfl, rfl⟩
           | exact Or.inr ⟨hE _ (by decide), True.intro⟩ | exact Or.inr ⟨hE _ (by decide), _, rfl⟩))
    | fail

theorem State.leaveAuth_keeps {I : Inv} {s : State} (hE : I.has [.devState, .dev, .web, .ports, .fsPorts, .slices, .cores, .cmd, .ctx, .det, .links, .trim, .regs, .dict, .doors, .irq, .chain, .ledger, .pwr, .hostMem, .dram, .oasis, .events, .out, .free]) (h : I.P s)   :
    I.P (State.leaveAuth s) := by
  unfold State.leaveAuth
  try dsimp only
  repeat' first
    | with_reducible assumption
    | intro _
    | with_reducible refine State.discardSchedule_keeps (hE.sub rfl) ?_
    | with_reducible refine State.preopUnits_keeps (hE.sub rfl) ?_
    | with_reducible refine State.preopAfter_keeps (hE.sub rfl) ?_
    | with_reducible refine State.firstEntry_keeps (hE.sub rfl) ?_
    | with_reducible refine State.safeUnits_keeps (hE.sub rfl) ?_
    | with_reducible refine State.setOd_keeps (hE.sub rfl) ?_
    | with_reducible refine State.enter_keeps (hE.sub rfl) ?_
    | with_reducible refine Inv.ite ?_ ?_
    | split
    | dsimp only

theorem execDramInitDone_ok {I : Inv} {s : State} (hE : I.has [.devState, .dev, .web, .ports, .fsPorts, .slices, .cores, .cmd, .ctx, .det, .links, .trim, .regs, .dict, .doors, .irq, .chain, .ledger, .pwr, .hostMem, .dram, .oasis, .events, .out, .free]) (h : I.P s) {ok : Bool}  :
    I.ok (execDramInitDone ok s) := by
  unfold execDramInitDone
  try dsimp only
  repeat' first
    | with_reducible assumption
    | with_reducible refine Inv.ok_act ?_ ?_
    | with_reducible refine Inv.ok_next ?_
    | with_reducible exact Inv.ok_refused _
    | with_reducible refine Inv.ok_ite ?_ ?_
    | with_reducible refine State.leaveAuth_keeps (hE.sub rfl) ?_
    | with_reducible refine State.setOd_keeps (hE.sub rfl) ?_
    | with_reducible refine Inv.ite ?_ ?_
    | split
    | intro _
    | dsimp only

theorem execBootWatchdogExpiry_ok {I : Inv} {s : State} (hE : I.has [.dt, .devState, .dev, .rate, .enc, .line, .web, .ports, .fsPorts, .slices, .tensors, .cores, .cmd, .ctx, .det, .links, .trim, .regs, .dict, .blobs, .doors, .irq, .pcie, .crv, .chain, .ledger, .flash, .saf, .pwr, .hostMem, .dram, .oasis, .poison, .events, .out, .free]) (h : I.P s)   :
    I.ok (execBootWatchdogExpiry s) := by
  unfold execBootWatchdogExpiry
  try dsimp only
  repeat' first
    | with_reducible assumption
    | with_reducible refine Inv.ok_act ?_ ?_
    | with_reducible refine Inv.ok_next ?_
    | with_reducible exact Inv.ok_refused _
    | with_reducible refine Inv.ok_ite ?_ ?_
    | with_reducible refine State.conventionalReset_keeps (hE.sub rfl) ?_
    | with_reducible refine State.discardSchedule_keeps (hE.sub rfl) ?_
    | with_reducible refine State.firstEntry_keeps (hE.sub rfl) ?_
    | with_reducible refine State.safeUnits_keeps (hE.sub rfl) ?_
    | with_reducible refine State.setOd_keeps (hE.sub rfl) ?_
    | with_reducible refine State.enter_keeps (hE.sub rfl) ?_
    | with_reducible refine Inv.ite ?_ ?_
    | split
    | intro _
    | dsimp only

theorem State.ptmOff_keeps {I : Inv} {s : State} (hE : I.has [.rate, .regs, .dict, .irq, .pcie, .events, .out]) (h : I.P s)   :
    I.P (State.ptmOff s) := by
  unfold State.ptmOff
  try dsimp only
  repeat' first
    | with_reducible assumption
    | intro _
    | with_reducible refine State.setTimeState_keeps (hE.sub rfl) ?_
    | with_reducible refine Inv.ite ?_ ?_
    | split
    | dsimp only
    | (with_reducible refine Inv.set (fun p => ?_) ?_
       · fail_if_success with_reducible (cases p <;> first
           | exact Or.inl rfl | exact Or.inl ⟨rfl, rfl⟩ | exact Or.inl ⟨rfl, rfl, rfl⟩ | exact Or.inl ⟨rfl, rfl, rfl, rfl⟩ | exact Or.inl ⟨rfl, rfl, rfl, rfl, rfl⟩
           | exact Or.inl ⟨rfl, rfl, rfl, rfl, rfl, rfl⟩ | exact Or.inl ⟨rfl, rfl, rfl, rfl, rfl, rfl, rfl⟩ | exact Or.inl ⟨rfl, rfl, rfl, rfl, rfl, rfl, rfl, rfl, rfl⟩
           | exact Or.inl ⟨rfl, rfl, rfl, rfl, rfl, rfl, rfl, rfl, rfl, rfl, rfl, rfl, rfl, rfl⟩)
         with_reducible (cases p <;> first
           | exact Or.inl rfl | exact Or.inl ⟨rfl, rfl⟩ | exact Or.inl ⟨rfl, rfl, rfl⟩ | exact Or.inl ⟨rfl, rfl, rfl, rfl⟩ | exact Or.inl ⟨rfl, rfl, rfl, rfl, rfl⟩
           | exact Or.inl ⟨rfl, rfl, rfl, rfl, rfl, rfl⟩ | exact Or.inl ⟨rfl, rfl, rfl, rfl, rfl, rfl, rfl⟩ | exact Or.inl ⟨rfl, rfl, rfl, rfl, rfl, rfl, rfl, rfl, rfl⟩
           | exact Or.inl ⟨rfl, rfl, rfl, rfl, rfl, rfl, rfl, rfl, rfl, rfl, rfl, rfl, rfl, rfl⟩
           | exact Or.inr ⟨hE _ (by decide), True.intro⟩ | exact Or.inr ⟨hE _ (by decide), _, rfl⟩))
    | fail

theorem State.functionLevelReset_keeps {I : Inv} {s : State} (hE : I.has [.devState, .dev, .rate, .web, .ports, .fsPorts, .slices, .cores, .cmd, .ctx, .det, .links, .trim, .regs, .dict, .doors, .irq, .pcie, .crv, .chain, .ledger, .pwr, .hostMem, .dram, .oasis, .events, .out, .free]) (h : I.P s)   :
    I.P (State.functionLevelReset s) := by
  unfold State.functionLevelReset
  repeat' first
    | with_reducible assumption
    | (extract_lets +onlyGivenNames v
       first
         | (have hv : I.P v := by
              dsimp only [v]
              repeat' first
                | with_reducible assumption
                | intro _
                | with_reducible refine State.finishRequest_keeps (hE.sub rfl) ?_
                | with_reducible refine State.clearRegs_keeps (hE.sub rfl) ?_
                | with_reducible refine State.flrUnits_keeps (hE.sub rfl) ?_
                | with_reducible refine State.overtake_keeps (hE.sub rfl) ?_
                | with_reducible refine State.toPreop_keeps (hE.sub rfl) ?_
                | with_reducible refine State.ptmOff_keeps (hE.sub rfl) ?_
                | with_reducible refine State.setReg_keeps (hE.sub rfl) ?_
                | with_reducible refine Inv.ite ?_ ?_
                | split
                | dsimp only
                | with_reducible refine Inv.doors (hE.sub rfl) ?_ _
                | (with_reducible refine Inv.set (fun p => ?_) ?_
                   · fail_if_success with_reducible (cases p <;> first
                       | exact Or.inl rfl | exact Or.inl ⟨rfl, rfl⟩ | exact Or.inl ⟨rfl, rfl, rfl⟩ | exact Or.inl ⟨rfl, rfl, rfl, rfl⟩ | exact Or.inl ⟨rfl, rfl, rfl, rfl, rfl⟩
                       | exact Or.inl ⟨rfl, rfl, rfl, rfl, rfl, rfl⟩ | exact Or.inl ⟨rfl, rfl, rfl, rfl, rfl, rfl, rfl⟩ | exact Or.inl ⟨rfl, rfl, rfl, rfl, rfl, rfl, rfl, rfl, rfl⟩
                       | exact Or.inl ⟨rfl, rfl, rfl, rfl, rfl, rfl, rfl, rfl, rfl, rfl, rfl, rfl, rfl, rfl⟩)
                     with_reducible (cases p <;> first
                       | exact Or.inl rfl | exact Or.inl ⟨rfl, rfl⟩ | exact Or.inl ⟨rfl, rfl, rfl⟩ | exact Or.inl ⟨rfl, rfl, rfl, rfl⟩ | exact Or.inl ⟨rfl, rfl, rfl, rfl, rfl⟩
                       | exact Or.inl ⟨rfl, rfl, rfl, rfl, rfl, rfl⟩ | exact Or.inl ⟨rfl, rfl, rfl, rfl, rfl, rfl, rfl⟩ | exact Or.inl ⟨rfl, rfl, rfl, rfl, rfl, rfl, rfl, rfl, rfl⟩
                       | exact Or.inl ⟨rfl, rfl, rfl, rfl, rfl, rfl, rfl, rfl, rfl, rfl, rfl, rfl, rfl, rfl⟩
                       | exact Or.inr ⟨hE _ (by decide), True.intro⟩ | exact Or.inr ⟨hE _ (by decide), _, rfl⟩))
                | fail
            clear_value v)
         | (try dsimp only [v]
            clear v))
    | intro _
    | with_reducible refine State.finishRequest_keeps (hE.sub rfl) ?_
    | with_reducible refine State.clearRegs_keeps (hE.sub rfl) ?_
    | with_reducible refine State.flrUnits_keeps (hE.sub rfl) ?_
    | with_reducible refine State.overtake_keeps (hE.sub rfl) ?_
    | with_reducible refine State.toPreop_keeps (hE.sub rfl) ?_
    | with_reducible refine State.ptmOff_keeps (hE.sub rfl) ?_
    | with_reducible refine State.setReg_keeps (hE.sub rfl) ?_
    | with_reducible refine Inv.ite ?_ ?_
    | split
    | dsimp only
    | with_reducible refine Inv.doors (hE.sub rfl) ?_ _
    | (with_reducible refine Inv.set (fun p => ?_) ?_
       · fail_if_success with_reducible (cases p <;> first
           | exact Or.inl rfl | exact Or.inl ⟨rfl, rfl⟩ | exact Or.inl ⟨rfl, rfl, rfl⟩ | exact Or.inl ⟨rfl, rfl, rfl, rfl⟩ | exact Or.inl ⟨rfl, rfl, rfl, rfl, rfl⟩
           | exact Or.inl ⟨rfl, rfl, rfl, rfl, rfl, rfl⟩ | exact Or.inl ⟨rfl, rfl, rfl, rfl, rfl, rfl, rfl⟩ | exact Or.inl ⟨rfl, rfl, rfl, rfl, rfl, rfl, rfl, rfl, rfl⟩
           | exact Or.inl ⟨rfl, rfl, rfl, rfl, rfl, rfl, rfl, rfl, rfl, rfl, rfl, rfl, rfl, rfl⟩)
         with_reducible (cases p <;> first
           | exact Or.inl rfl | exact Or.inl ⟨rfl, rfl⟩ | exact Or.inl ⟨rfl, rfl, rfl⟩ | exact Or.inl ⟨rfl, rfl, rfl, rfl⟩ | exact Or.inl ⟨rfl, rfl, rfl, rfl, rfl⟩
           | exact Or.inl ⟨rfl, rfl, rfl, rfl, rfl, rfl⟩ | exact Or.inl ⟨rfl, rfl, rfl, rfl, rfl, rfl, rfl⟩ | exact Or.inl ⟨rfl, rfl, rfl, rfl, rfl, rfl, rfl, rfl, rfl⟩
           | exact Or.inl ⟨rfl, rfl, rfl, rfl, rfl, rfl, rfl, rfl, rfl, rfl, rfl, rfl, rfl, rfl⟩
           | exact Or.inr ⟨hE _ (by decide), True.intro⟩ | exact Or.inr ⟨hE _ (by decide), _, rfl⟩))
    | fail

theorem execFunctionLevelReset_ok {I : Inv} {s : State} (hE : I.has [.devState, .dev, .rate, .web, .ports, .fsPorts, .slices, .cores, .cmd, .ctx, .det, .links, .trim, .regs, .dict, .doors, .irq, .pcie, .crv, .chain, .ledger, .pwr, .hostMem, .dram, .oasis, .events, .out, .free]) (h : I.P s)   :
    I.ok (execFunctionLevelReset s) := by
  unfold execFunctionLevelReset
  try dsimp only
  repeat' first
    | with_reducible assumption
    | with_reducible refine Inv.ok_act ?_ ?_
    | with_reducible refine Inv.ok_next ?_
    | with_reducible exact Inv.ok_refused _
    | with_reducible refine Inv.ok_ite ?_ ?_
    | with_reducible refine State.functionLevelReset_keeps (hE.sub rfl) ?_
    | with_reducible refine Inv.ite ?_ ?_
    | split
    | intro _
    | dsimp only

theorem execHotReset_ok {I : Inv} {s : State} (hE : I.has [.devState, .dev, .rate, .web, .ports, .fsPorts, .slices, .cores, .cmd, .ctx, .det, .links, .trim, .regs, .dict, .doors, .irq, .pcie, .crv, .chain, .ledger, .pwr, .hostMem, .dram, .oasis, .events, .out, .free]) (h : I.P s) : I.ok (execHotReset s) :=
  Inv.ok_act h fun u hu => Inv.pcie (hE.sub rfl) (State.functionLevelReset_keeps (s := u) (hE.sub rfl) hu) _

theorem execGlbResetWrite_ok {I : Inv} {s : State} (hE : I.has [.dt, .devState, .dev, .rate, .enc, .line, .web, .ports, .fsPorts, .slices, .tensors, .cores, .cmd, .ctx, .det, .links, .trim, .regs, .dict, .blobs, .doors, .irq, .pcie, .crv, .chain, .ledger, .flash, .saf, .pwr, .hostMem, .dram, .oasis, .poison, .events, .out, .free]) (h : I.P s) {value : W32}  :
    I.ok (execGlbResetWrite value s) := by
  unfold execGlbResetWrite
  try dsimp only
  repeat' first
    | with_reducible assumption
    | with_reducible refine Inv.ok_act ?_ ?_
    | with_reducible refine Inv.ok_next ?_
    | with_reducible exact Inv.ok_refused _
    | with_reducible refine Inv.ok_ite ?_ ?_
    | with_reducible refine State.conventionalReset_keeps (hE.sub rfl) ?_
    | with_reducible refine Inv.ite ?_ ?_
    | split
    | intro _
    | dsimp only

theorem State.flushMsix_keeps {I : Inv} {s : State} (hE : I.has [.regs, .irq, .out]) (h : I.P s)   :
    I.P (State.flushMsix s) := by
  unfold State.flushMsix
  try dsimp only
  repeat' first
    | with_reducible assumption
    | intro _
    | with_reducible refine State.msixSend_keeps (hE.sub rfl) ?_
    | with_reducible refine Inv.foldl ?_ ?_
    | dsimp only

theorem State.setBusMaster_keeps {I : Inv} {s : State} (hE : I.has [.regs, .irq, .pcie, .out]) (h : I.P s) {on : Bool}  :
    I.P (State.setBusMaster s on) := by
  unfold State.setBusMaster
  try dsimp only
  repeat' first
    | with_reducible assumption
    | intro _
    | with_reducible refine State.flushMsix_keeps (hE.sub rfl) ?_
    | with_reducible refine Inv.ite ?_ ?_
    | split
    | dsimp only
    | (with_reducible refine Inv.set (fun p => ?_) ?_
       · fail_if_success with_reducible (cases p <;> first
           | exact Or.inl rfl | exact Or.inl ⟨rfl, rfl⟩ | exact Or.inl ⟨rfl, rfl, rfl⟩ | exact Or.inl ⟨rfl, rfl, rfl, rfl⟩ | exact Or.inl ⟨rfl, rfl, rfl, rfl, rfl⟩
           | exact Or.inl ⟨rfl, rfl, rfl, rfl, rfl, rfl⟩ | exact Or.inl ⟨rfl, rfl, rfl, rfl, rfl, rfl, rfl⟩ | exact Or.inl ⟨rfl, rfl, rfl, rfl, rfl, rfl, rfl, rfl, rfl⟩
           | exact Or.inl ⟨rfl, rfl, rfl, rfl, rfl, rfl, rfl, rfl, rfl, rfl, rfl, rfl, rfl, rfl⟩)
         with_reducible (cases p <;> first
           | exact Or.inl rfl | exact Or.inl ⟨rfl, rfl⟩ | exact Or.inl ⟨rfl, rfl, rfl⟩ | exact Or.inl ⟨rfl, rfl, rfl, rfl⟩ | exact Or.inl ⟨rfl, rfl, rfl, rfl, rfl⟩
           | exact Or.inl ⟨rfl, rfl, rfl, rfl, rfl, rfl⟩ | exact Or.inl ⟨rfl, rfl, rfl, rfl, rfl, rfl, rfl⟩ | exact Or.inl ⟨rfl, rfl, rfl, rfl, rfl, rfl, rfl, rfl, rfl⟩
           | exact Or.inl ⟨rfl, rfl, rfl, rfl, rfl, rfl, rfl, rfl, rfl, rfl, rfl, rfl, rfl, rfl⟩
           | exact Or.inr ⟨hE _ (by decide), True.intro⟩ | exact Or.inr ⟨hE _ (by decide), _, rfl⟩))
    | fail

theorem State.setMsixControl_keeps {I : Inv} {s : State} (hE : I.has [.regs, .irq, .pcie, .out]) (h : I.P s) {enable : Bool} {functionMask : Bool}  :
    I.P (State.setMsixControl s enable functionMask) := by
  unfold State.setMsixControl
  try dsimp only
  repeat' first
    | with_reducible assumption
    | intro _
    | with_reducible refine State.flushMsix_keeps (hE.sub rfl) ?_
    | with_reducible refine Inv.ite ?_ ?_
    | split
    | dsimp only
    | (with_reducible refine Inv.set (fun p => ?_) ?_
       · fail_if_success with_reducible (cases p <;> first
           | exact Or.inl rfl | exact Or.inl ⟨rfl, rfl⟩ | exact Or.inl ⟨rfl, rfl, rfl⟩ | exact Or.inl ⟨rfl, rfl, rfl, rfl⟩ | exact Or.inl ⟨rfl, rfl, rfl, rfl, rfl⟩
           | exact Or.inl ⟨rfl, rfl, rfl, rfl, rfl, rfl⟩ | exact Or.inl ⟨rfl, rfl, rfl, rfl, rfl, rfl, rfl⟩ | exact Or.inl ⟨rfl, rfl, rfl, rfl, rfl, rfl, rfl, rfl, rfl⟩
           | exact Or.inl ⟨rfl, rfl, rfl, rfl, rfl, rfl, rfl, rfl, rfl, rfl, rfl, rfl, rfl, rfl⟩)
         with_reducible (cases p <;> first
           | exact Or.inl rfl | exact Or.inl ⟨rfl, rfl⟩ | exact Or.inl ⟨rfl, rfl, rfl⟩ | exact Or.inl ⟨rfl, rfl, rfl, rfl⟩ | exact Or.inl ⟨rfl, rfl, rfl, rfl, rfl⟩
           | exact Or.inl ⟨rfl, rfl, rfl, rfl, rfl, rfl⟩ | exact Or.inl ⟨rfl, rfl, rfl, rfl, rfl, rfl, rfl⟩ | exact Or.inl ⟨rfl, rfl, rfl, rfl, rfl, rfl, rfl, rfl, rfl⟩
           | exact Or.inl ⟨rfl, rfl, rfl, rfl, rfl, rfl, rfl, rfl, rfl, rfl, rfl, rfl, rfl, rfl⟩
           | exact Or.inr ⟨hE _ (by decide), True.intro⟩ | exact Or.inr ⟨hE _ (by decide), _, rfl⟩))
    | fail

theorem State.setCfg_keeps {I : Inv} {s : State} (hE : I.has [.pcie]) (h : I.P s) {r : Nat} {v : Nat}  :
    I.P (State.setCfg s r v) := by
  unfold State.setCfg
  try dsimp only
  repeat' first
    | with_reducible assumption
    | intro _
    | dsimp only
    | (with_reducible refine Inv.set (fun p => ?_) ?_
       · fail_if_success with_reducible (cases p <;> first
           | exact Or.inl rfl | exact Or.inl ⟨rfl, rfl⟩ | exact Or.inl ⟨rfl, rfl, rfl⟩ | exact Or.inl ⟨rfl, rfl, rfl, rfl⟩ | exact Or.inl ⟨rfl, rfl, rfl, rfl, rfl⟩
           | exact Or.inl ⟨rfl, rfl, rfl, rfl, rfl, rfl⟩ | exact Or.inl ⟨rfl, rfl, rfl, rfl, rfl, rfl, rfl⟩ | exact Or.inl ⟨rfl, rfl, rfl, rfl, rfl, rfl, rfl, rfl, rfl⟩
           | exact Or.inl ⟨rfl, rfl, rfl, rfl, rfl, rfl, rfl, rfl, rfl, rfl, rfl, rfl, rfl, rfl⟩)
         with_reducible (cases p <;> first
           | exact Or.inl rfl | exact Or.inl ⟨rfl, rfl⟩ | exact Or.inl ⟨rfl, rfl, rfl⟩ | exact Or.inl ⟨rfl, rfl, rfl, rfl⟩ | exact Or.inl ⟨rfl, rfl, rfl, rfl, rfl⟩
           | exact Or.inl ⟨rfl, rfl, rfl, rfl, rfl, rfl⟩ | exact Or.inl ⟨rfl, rfl, rfl, rfl, rfl, rfl, rfl⟩ | exact Or.inl ⟨rfl, rfl, rfl, rfl, rfl, rfl, rfl, rfl, rfl⟩
           | exact Or.inl ⟨rfl, rfl, rfl, rfl, rfl, rfl, rfl, rfl, rfl, rfl, rfl, rfl, rfl, rfl⟩
           | exact Or.inr ⟨hE _ (by decide), True.intro⟩ | exact Or.inr ⟨hE _ (by decide), _, rfl⟩))
    | fail

theorem State.configRead_keeps {I : Inv} {s : State} (hE : I.has [.out, .free]) (h : I.P s) {r : Nat}  :
    I.P (State.configRead s r) := by
  unfold State.configRead
  try dsimp only
  repeat' first
    | with_reducible assumption
    | intro _
    | with_reducible refine State.takeFree_snd (hE.sub rfl) ?_
    | with_reducible refine State.takeFree_keeps (hE.sub rfl) ?_ (by with_reducible assumption)
    | with_reducible refine State.send_keeps (hE.sub rfl) ?_
    | with_reducible refine Inv.ite ?_ ?_
    | split
    | dsimp only

theorem State.setPower_keeps {I : Inv} {s : State} (hE : I.has [.regs, .irq, .pcie, .out]) (h : I.P s) {d3hot : Bool}  :
    I.P (State.setPower s d3hot) := by
  unfold State.setPower
  try dsimp only
  repeat' first
    | with_reducible assumption
    | intro _
    | with_reducible refine State.flushMsix_keeps (hE.sub rfl) ?_
    | with_reducible refine Inv.ite ?_ ?_
    | split
    | dsimp only
    | (with_reducible refine Inv.set (fun p => ?_) ?_
       · fail_if_success with_reducible (cases p <;> first
           | exact Or.inl rfl | exact Or.inl ⟨rfl, rfl⟩ | exact Or.inl ⟨rfl, rfl, rfl⟩ | exact Or.inl ⟨rfl, rfl, rfl, rfl⟩ | exact Or.inl ⟨rfl, rfl, rfl, rfl, rfl⟩
           | exact Or.inl ⟨rfl, rfl, rfl, rfl, rfl, rfl⟩ | exact Or.inl ⟨rfl, rfl, rfl, rfl, rfl, rfl, rfl⟩ | exact Or.inl ⟨rfl, rfl, rfl, rfl, rfl, rfl, rfl, rfl, rfl⟩
           | exact Or.inl ⟨rfl, rfl, rfl, rfl, rfl, rfl, rfl, rfl, rfl, rfl, rfl, rfl, rfl, rfl⟩)
         with_reducible (cases p <;> first
           | exact Or.inl rfl | exact Or.inl ⟨rfl, rfl⟩ | exact Or.inl ⟨rfl, rfl, rfl⟩ | exact Or.inl ⟨rfl, rfl, rfl, rfl⟩ | exact Or.inl ⟨rfl, rfl, rfl, rfl, rfl⟩
           | exact Or.inl ⟨rfl, rfl, rfl, rfl, rfl, rfl⟩ | exact Or.inl ⟨rfl, rfl, rfl, rfl, rfl, rfl, rfl⟩ | exact Or.inl ⟨rfl, rfl, rfl, rfl, rfl, rfl, rfl, rfl, rfl⟩
           | exact Or.inl ⟨rfl, rfl, rfl, rfl, rfl, rfl, rfl, rfl, rfl, rfl, rfl, rfl, rfl, rfl⟩
           | exact Or.inr ⟨hE _ (by decide), True.intro⟩ | exact Or.inr ⟨hE _ (by decide), _, rfl⟩))
    | fail

theorem State.setPtm_keeps {I : Inv} {s : State} (hE : I.has [.rate, .regs, .dict, .irq, .pcie, .events, .out]) (h : I.P s) {on : Bool}  :
    I.P (State.setPtm s on) := by
  unfold State.setPtm
  try dsimp only
  repeat' first
    | with_reducible assumption
    | intro _
    | with_reducible refine State.ptmOff_keeps (hE.sub rfl) ?_
    | with_reducible refine Inv.ite ?_ ?_
    | split
    | dsimp only
    | (with_reducible refine Inv.set (fun p => ?_) ?_
       · fail_if_success with_reducible (cases p <;> first
           | exact Or.inl rfl | exact Or.inl ⟨rfl, rfl⟩ | exact Or.inl ⟨rfl, rfl, rfl⟩ | exact Or.inl ⟨rfl, rfl, rfl, rfl⟩ | exact Or.inl ⟨rfl, rfl, rfl, rfl, rfl⟩
           | exact Or.inl ⟨rfl, rfl, rfl, rfl, rfl, rfl⟩ | exact Or.inl ⟨rfl, rfl, rfl, rfl, rfl, rfl, rfl⟩ | exact Or.inl ⟨rfl, rfl, rfl, rfl, rfl, rfl, rfl, rfl, rfl⟩
           | exact Or.inl ⟨rfl, rfl, rfl, rfl, rfl, rfl, rfl, rfl, rfl, rfl, rfl, rfl, rfl, rfl⟩)
         with_reducible (cases p <;> first
           | exact Or.inl rfl | exact Or.inl ⟨rfl, rfl⟩ | exact Or.inl ⟨rfl, rfl, rfl⟩ | exact Or.inl ⟨rfl, rfl, rfl, rfl⟩ | exact Or.inl ⟨rfl, rfl, rfl, rfl, rfl⟩
           | exact Or.inl ⟨rfl, rfl, rfl, rfl, rfl, rfl⟩ | exact Or.inl ⟨rfl, rfl, rfl, rfl, rfl, rfl, rfl⟩ | exact Or.inl ⟨rfl, rfl, rfl, rfl, rfl, rfl, rfl, rfl, rfl⟩
           | exact Or.inl ⟨rfl, rfl, rfl, rfl, rfl, rfl, rfl, rfl, rfl, rfl, rfl, rfl, rfl, rfl⟩
           | exact Or.inr ⟨hE _ (by decide), True.intro⟩ | exact Or.inr ⟨hE _ (by decide), _, rfl⟩))
    | fail

theorem State.configWrite_keeps {I : Inv} {s : State} (hE : I.has [.devState, .dev, .rate, .web, .ports, .fsPorts, .slices, .cores, .cmd, .ctx, .det, .links, .trim, .regs, .dict, .doors, .irq, .pcie, .crv, .chain, .ledger, .pwr, .hostMem, .dram, .oasis, .events, .out, .free]) (h : I.P s) {r : Nat} {v : Nat}  :
    I.P (State.configWrite s r v) := by
  unfold State.configWrite
  try dsimp only
  repeat' first
    | with_reducible assumption
    | intro _
    | with_reducible refine State.functionLevelReset_keeps (hE.sub rfl) ?_
    | with_reducible refine State.setMsixControl_keeps (hE.sub rfl) ?_
    | with_reducible refine State.setBusMaster_keeps (hE.sub rfl) ?_
    | with_reducible refine State.setPower_keeps (hE.sub rfl) ?_
    | with_reducible refine State.setPtm_keeps (hE.sub rfl) ?_
    | with_reducible refine State.setCfg_keeps (hE.sub rfl) ?_
    | with_reducible refine Inv.ite ?_ ?_
    | split
    | dsimp only

theorem execConfigRequest_ok {I : Inv} {s : State} (hE : I.has [.devState, .dev, .rate, .web, .ports, .fsPorts, .slices, .cores, .cmd, .ctx, .det, .links, .trim, .regs, .dict, .doors, .irq, .pcie, .crv, .chain, .ledger, .pwr, .hostMem, .dram, .oasis, .events, .out, .free]) (h : I.P s) {access : ConfigAccess}  :
    I.ok (execConfigRequest access s) := by
  unfold execConfigRequest
  try dsimp only
  repeat' first
    | with_reducible assumption
    | with_reducible refine Inv.ok_act ?_ ?_
    | with_reducible refine Inv.ok_next ?_
    | with_reducible exact Inv.ok_refused _
    | with_reducible refine Inv.ok_ite ?_ ?_
    | with_reducible refine State.setMsixControl_keeps (hE.sub rfl) ?_
    | with_reducible refine State.configWrite_keeps (hE.sub rfl) ?_
    | with_reducible refine State.configRead_keeps (hE.sub rfl) ?_
    | with_reducible refine State.send_keeps (hE.sub rfl) ?_
    | with_reducible refine Inv.ite ?_ ?_
    | split
    | intro _
    | dsimp only

end Sys2Proof.Machine
end

