-- ==== Sys2Proof/Laws/KeepsLinks.lean ====
section
/-! SUPPORT. The operations of Machine/Links.lean keep every predicate that lets their parts change. -/

set_option linter.unreachableTactic false
set_option linter.unusedTactic false

namespace Sys2Proof.Machine

theorem execLinkLanesLocked_ok {I : Inv} {s : State} (hE : I.has [.links]) (h : I.P s) {link : LinkIx} {lanes : BitVec 8}  :
    I.ok (execLinkLanesLocked link lanes s) := by
  unfold execLinkLanesLocked
  try dsimp only
  repeat' first
    | with_reducible assumption
    | with_reducible refine Inv.ok_act ?_ ?_
    | with_reducible refine Inv.ok_next ?_
    | with_reducible exact Inv.ok_refused _
    | with_reducible refine Inv.ok_ite ?_ ?_
    | with_reducible refine State.modLink_keeps (hE.sub rfl) ?_
    | with_reducible refine Inv.ite ?_ ?_
    | split
    | intro _
    | dsimp only

theorem execLinkDeskewDone_ok {I : Inv} {s : State} (hE : I.has [.links]) (h : I.P s) {link : LinkIx}  :
    I.ok (execLinkDeskewDone link s) := by
  unfold execLinkDeskewDone
  try dsimp only
  repeat' first
    | with_reducible assumption
    | with_reducible refine Inv.ok_act ?_ ?_
    | with_reducible refine Inv.ok_next ?_
    | with_reducible exact Inv.ok_refused _
    | with_reducible refine Inv.ok_ite ?_ ?_
    | with_reducible refine State.modLink_keeps (hE.sub rfl) ?_
    | with_reducible refine Inv.ite ?_ ?_
    | split
    | intro _
    | dsimp only

theorem execTrainingMessageSend_ok {I : Inv} {s : State} (hE : I.has [.out]) (h : I.P s) {link : LinkIx}  :
    I.ok (execTrainingMessageSend link s) := by
  unfold execTrainingMessageSend
  try dsimp only
  repeat' first
    | with_reducible assumption
    | with_reducible refine Inv.ok_act ?_ ?_
    | with_reducible refine Inv.ok_next ?_
    | with_reducible exact Inv.ok_refused _
    | with_reducible refine Inv.ok_ite ?_ ?_
    | with_reducible refine State.send_keeps (hE.sub rfl) ?_
    | with_reducible refine Inv.ite ?_ ?_
    | split
    | intro _
    | dsimp only

theorem State.linkFail_keeps {I : Inv} {s : State} (hE : I.has [.links, .regs, .dict, .irq, .events, .out]) (h : I.P s) {l : LinkIx} {code : Nat}  :
    I.P (State.linkFail s l code) := by
  unfold State.linkFail
  try dsimp only
  repeat' first
    | with_reducible assumption
    | intro _
    | with_reducible refine State.linkEnd_keeps (hE.sub rfl) ?_
    | dsimp only

theorem State.linkUp_keeps {I : Inv} {s : State} (hE : I.has [.links, .regs, .dict, .irq, .events, .out]) (h : I.P s) {l : LinkIx} {lanes : BitVec 8}  :
    I.P (State.linkUp s l lanes) := by
  unfold State.linkUp
  repeat' first
    | with_reducible assumption
    | (extract_lets +onlyGivenNames v
       first
         | (have hv : I.P v := by
              dsimp only [v]
              repeat' first
                | with_reducible assumption
                | intro _
                | with_reducible refine State.sideStatus_keeps (hE.sub rfl) ?_
                | with_reducible refine State.modLink_keeps (hE.sub rfl) ?_
                | with_reducible refine State.count64_keeps (hE.sub rfl) ?_
                | with_reducible refine State.setOd_keeps (hE.sub rfl) ?_
                | with_reducible refine Inv.ite ?_ ?_
                | split
                | dsimp only
            clear_value v)
         | (try dsimp only [v]
            clear v))
    | intro _
    | with_reducible refine State.sideStatus_keeps (hE.sub rfl) ?_
    | with_reducible refine State.modLink_keeps (hE.sub rfl) ?_
    | with_reducible refine State.count64_keeps (hE.sub rfl) ?_
    | with_reducible refine State.setOd_keeps (hE.sub rfl) ?_
    | with_reducible refine Inv.ite ?_ ?_
    | split
    | dsimp only

theorem execTrainingMessageRx_ok {I : Inv} {s : State} (hE : I.has [.links, .regs, .dict, .irq, .events, .out]) (h : I.P s) {link : LinkIx} {message : List Byte}  :
    I.ok (execTrainingMessageRx link message s) := by
  unfold execTrainingMessageRx
  repeat' first
    | with_reducible assumption
    | (extract_lets +onlyGivenNames v
       first
         | (have hv : I.P v := by
              dsimp only [v]
              repeat' first
                | with_reducible assumption
                | with_reducible refine Inv.ok_act ?_ ?_
                | with_reducible refine Inv.ok_next ?_
                | with_reducible exact Inv.ok_refused _
                | with_reducible refine Inv.ok_ite ?_ ?_
                | with_reducible refine State.refuseMsg_keeps (hE.sub rfl) ?_
                | with_reducible refine State.linkFail_keeps (hE.sub rfl) ?_
                | with_reducible refine State.modLink_keeps (hE.sub rfl) ?_
                | with_reducible refine State.linkUp_keeps (hE.sub rfl) ?_
                | with_reducible refine State.setOd_keeps (hE.sub rfl) ?_
                | with_reducible refine Inv.ite ?_ ?_
                | split
                | intro _
                | dsimp only
            clear_value v)
         | (try dsimp only [v]
            clear v))
    | with_reducible refine Inv.ok_act ?_ ?_
    | with_reducible refine Inv.ok_next ?_
    | with_reducible exact Inv.ok_refused _
    | with_reducible refine Inv.ok_ite ?_ ?_
    | with_reducible refine State.refuseMsg_keeps (hE.sub rfl) ?_
    | with_reducible refine State.linkFail_keeps (hE.sub rfl) ?_
    | with_reducible refine State.modLink_keeps (hE.sub rfl) ?_
    | with_reducible refine State.linkUp_keeps (hE.sub rfl) ?_
    | with_reducible refine State.setOd_keeps (hE.sub rfl) ?_
    | with_reducible refine Inv.ite ?_ ?_
    | split
    | intro _
    | dsimp only

theorem execLinkTrainTimeout_ok {I : Inv} {s : State} (hE : I.has [.links, .regs, .dict, .irq, .events, .out]) (h : I.P s) {link : LinkIx}  :
    I.ok (execLinkTrainTimeout link s) := by
  unfold execLinkTrainTimeout
  try dsimp only
  repeat' first
    | with_reducible assumption
    | with_reducible refine Inv.ok_act ?_ ?_
    | with_reducible refine Inv.ok_next ?_
    | with_reducible exact Inv.ok_refused _
    | with_reducible refine Inv.ok_ite ?_ ?_
    | with_reducible refine State.linkFail_keeps (hE.sub rfl) ?_
    | with_reducible refine Inv.ite ?_ ?_
    | split
    | intro _
    | dsimp only

theorem execLinkFailedExpiry_ok {I : Inv} {s : State} (hE : I.has [.links, .regs, .dict, .irq, .events, .out]) (h : I.P s) {link : LinkIx}  :
    I.ok (execLinkFailedExpiry link s) := by
  unfold execLinkFailedExpiry
  try dsimp only
  repeat' first
    | with_reducible assumption
    | with_reducible refine Inv.ok_act ?_ ?_
    | with_reducible refine Inv.ok_next ?_
    | with_reducible exact Inv.ok_refused _
    | with_reducible refine Inv.ok_ite ?_ ?_
    | with_reducible refine State.linkToDown_keeps (hE.sub rfl) ?_
    | with_reducible refine Inv.ite ?_ ?_
    | split
    | intro _
    | dsimp only

theorem execLinkRetrainTimeout_ok {I : Inv} {s : State} (hE : I.has [.links, .regs, .dict, .irq, .events, .out]) (h : I.P s) {link : LinkIx}  :
    I.ok (execLinkRetrainTimeout link s) := by
  unfold execLinkRetrainTimeout
  try dsimp only
  repeat' first
    | with_reducible assumption
    | with_reducible refine Inv.ok_act ?_ ?_
    | with_reducible refine Inv.ok_next ?_
    | with_reducible exact Inv.ok_refused _
    | with_reducible refine Inv.ok_ite ?_ ?_
    | with_reducible refine State.linkToDown_keeps (hE.sub rfl) ?_
    | with_reducible refine Inv.ite ?_ ?_
    | split
    | intro _
    | dsimp only

theorem execLaneFault_ok {I : Inv} {s : State} (hE : I.has [.links, .regs]) (h : I.P s) {link : LinkIx} {lane : Fin 8}  :
    I.ok (execLaneFault link lane s) := by
  unfold execLaneFault
  try dsimp only
  repeat' first
    | with_reducible assumption
    | with_reducible refine Inv.ok_act ?_ ?_
    | with_reducible refine Inv.ok_next ?_
    | with_reducible exact Inv.ok_refused _
    | with_reducible refine Inv.ok_ite ?_ ?_
    | with_reducible refine State.linkRetrain_keeps (hE.sub rfl) ?_
    | with_reducible refine State.modLink_keeps (hE.sub rfl) ?_
    | with_reducible refine Inv.ite ?_ ?_
    | split
    | intro _
    | dsimp only

theorem execLinkCtrlRetrain_ok {I : Inv} {s : State} (hE : I.has [.links, .regs]) (h : I.P s) {link : LinkIx} {value : W32}  :
    I.ok (execLinkCtrlRetrain link value s) := by
  unfold execLinkCtrlRetrain
  try dsimp only
  repeat' first
    | with_reducible assumption
    | with_reducible refine Inv.ok_act ?_ ?_
    | with_reducible refine Inv.ok_next ?_
    | with_reducible exact Inv.ok_refused _
    | with_reducible refine Inv.ok_ite ?_ ?_
    | with_reducible refine State.linkRetrain_keeps (hE.sub rfl) ?_
    | with_reducible refine State.modLink_keeps (hE.sub rfl) ?_
    | with_reducible refine Inv.ite ?_ ?_
    | split
    | intro _
    | dsimp only

theorem State.sendFlit_keeps {I : Inv} {s : State} (hE : I.has [.links, .out]) (h : I.P s) {l : LinkIx} {seq : Nat} {flags : Nat} {cls : Nat} {payload : List Byte}  :
    I.P (State.sendFlit s l seq flags cls payload) := by
  unfold State.sendFlit
  try dsimp only
  repeat' first
    | with_reducible assumption
    | intro _
    | with_reducible refine State.modLink_keeps (hE.sub rfl) ?_
    | with_reducible refine State.send_keeps (hE.sub rfl) ?_
    | with_reducible refine Inv.ite ?_ ?_
    | split
    | dsimp only

theorem State.resend_keeps {I : Inv} {s : State} (hE : I.has [.links, .regs]) (h : I.P s) {l : LinkIx}  :
    I.P (State.resend s l) := by
  unfold State.resend
  try dsimp only
  repeat' first
    | with_reducible assumption
    | intro _
    | with_reducible refine State.linkRetrain_keeps (hE.sub rfl) ?_
    | with_reducible refine State.modLink_keeps (hE.sub rfl) ?_
    | with_reducible refine State.count64_keeps (hE.sub rfl) ?_
    | with_reducible refine Inv.ite ?_ ?_
    | split
    | dsimp only

theorem execFlitTransmit_ok {I : Inv} {s : State} (hE : I.has [.links, .regs, .out]) (h : I.P s) {link : LinkIx}  :
    I.ok (execFlitTransmit link s) := by
  unfold execFlitTransmit
  repeat' first
    | with_reducible assumption
    | (extract_lets +onlyGivenNames v
       first
         | (have hv : I.P v := by
              dsimp only [v]
              repeat' first
                | with_reducible assumption
                | with_reducible refine Inv.ok_act ?_ ?_
                | with_reducible refine Inv.ok_next ?_
                | with_reducible exact Inv.ok_refused _
                | with_reducible refine Inv.ok_ite ?_ ?_
                | with_reducible refine State.sendFlit_keeps (hE.sub rfl) ?_
                | with_reducible refine State.modLink_keeps (hE.sub rfl) ?_
                | with_reducible refine State.count64_keeps (hE.sub rfl) ?_
                | with_reducible refine Inv.ite ?_ ?_
                | split
                | intro _
                | dsimp only
                | (with_reducible refine Inv.set (fun p => ?_) ?_
                   · fail_if_success with_reducible (cases p <;> first
                       | exact Or.inl rfl | exact Or.inl ⟨rfl, rfl⟩ | exact Or.inl ⟨rfl, rfl, rfl⟩ | exact Or.inl ⟨rfl, rfl, rfl, rfl⟩ | exact Or.inl ⟨rfl, rfl, rfl, rfl, rfl⟩
                       | exact Or.inl ⟨rfl, rfl, rfl, rfl, rfl, rfl⟩ | exact Or.inl ⟨rfl, rfl, rfl, rfl, rfl, rfl, rfl⟩ | exact Or.inl ⟨rfl, rfl, rfl, rfl, rfl, rfl, rfl, rfl, rfl⟩
                       | exact Or.inl ⟨rfl, rfl, rfl, rfl, rfl, rfl, rfl, rfl, rfl, rfl, rfl, rfl, rfl, rfl⟩)
                     with_reducible (cases p <;> first
                       | exact Or.inl rfl | exact Or.inl ⟨rfl, rfl⟩ | exact Or.inl ⟨rfl, rfl, rfl⟩ | exact Or.inl ⟨rfl, rfl, rfl, rfl⟩ | exact Or.inl ⟨rfl, rfl, rfl, rfl, rfl⟩
                       | exact Or.inl ⟨rfl, rfl, rfl, rfl, rfl, rfl⟩ | exact Or.inl ⟨rfl, rfl, rfl, rfl, rfl, rfl, rfl⟩ | exact Or.inl ⟨rfl, rfl, rfl, rfl, rfl, rfl, rfl, rfl, rfl⟩
                       | exact Or.inl ⟨rfl, rfl, rfl, rfl, rfl, rfl, rfl, rfl, rfl, rfl, rfl, rfl, rfl, rfl⟩
                       | exact Or.inr ⟨hE _ (by decide), True.intro⟩ | exact Or.inr ⟨hE _ (by decide), _, rfl⟩))
                | fail
            clear_value v)
         | (try dsimp only [v]
            clear v))
    | with_reducible refine Inv.ok_act ?_ ?_
    | with_reducible refine Inv.ok_next ?_
    | with_reducible exact Inv.ok_refused _
    | with_reducible refine Inv.ok_ite ?_ ?_
    | with_reducible refine State.sendFlit_keeps (hE.sub rfl) ?_
    | with_reducible refine State.modLink_keeps (hE.sub rfl) ?_
    | with_reducible refine State.count64_keeps (hE.sub rfl) ?_
    | with_reducible refine Inv.ite ?_ ?_
    | split
    | intro _
    | dsimp only
    | (with_reducible refine Inv.set (fun p => ?_) ?_
       · fail_if_success with_reducible (cases p <;> first
           | exact Or.inl rfl | exact Or.inl ⟨rfl, rfl⟩ | exact Or.inl ⟨rfl, rfl, rfl⟩ | exact Or.inl ⟨rfl, rfl, rfl, rfl⟩ | exact Or.inl ⟨rfl, rfl, rfl, rfl, rfl⟩
           | exact Or.inl ⟨rfl, rfl, rfl, rfl, rfl, rfl⟩ | exact Or.inl ⟨rfl, rfl, rfl, rfl, rfl, rfl, rfl⟩ | exact Or.inl ⟨rfl, rfl, rfl, rfl, rfl, rfl, rfl, rfl, rfl⟩
           | exact Or.inl ⟨rfl, rfl, rfl, rfl, rfl, rfl, rfl, rfl, rfl, rfl, rfl, rfl, rfl, rfl⟩)
         with_reducible (cases p <;> first
           | exact Or.inl rfl | exact Or.inl ⟨rfl, rfl⟩ | exact Or.inl ⟨rfl, rfl, rfl⟩ | exact Or.inl ⟨rfl, rfl, rfl, rfl⟩ | exact Or.inl ⟨rfl, rfl, rfl, rfl, rfl⟩
           | exact Or.inl ⟨rfl, rfl, rfl, rfl, rfl, rfl⟩ | exact Or.inl ⟨rfl, rfl, rfl, rfl, rfl, rfl, rfl⟩ | exact Or.inl ⟨rfl, rfl, rfl, rfl, rfl, rfl, rfl, rfl, rfl⟩
           | exact Or.inl ⟨rfl, rfl, rfl, rfl, rfl, rfl, rfl, rfl, rfl, rfl, rfl, rfl, rfl, rfl⟩
           | exact Or.inr ⟨hE _ (by decide), True.intro⟩ | exact Or.inr ⟨hE _ (by decide), _, rfl⟩))
    | fail

theorem State.assemble_keeps {I : Inv} {s : State} (hE : I.has [.links, .regs, .irq, .events, .out]) (h : I.P s) {l : LinkIx} {f : List Byte}  :
    I.P (State.assemble s l f) := by
  unfold State.assemble
  try dsimp only
  repeat' first
    | with_reducible assumption
    | intro _
    | with_reducible refine State.refuseMsg_keeps (hE.sub rfl) ?_
    | with_reducible refine State.modLink_keeps (hE.sub rfl) ?_
    | with_reducible refine Inv.ite ?_ ?_
    | split
    | dsimp only

theorem execFlitReceive_ok {I : Inv} {s : State} (hE : I.has [.links, .regs, .irq, .events, .out]) (h : I.P s) {link : LinkIx} {flit : List Byte}  :
    I.ok (execFlitReceive link flit s) := by
  unfold execFlitReceive
  repeat' first
    | with_reducible assumption
    | (extract_lets +onlyGivenNames v
       first
         | (have hv : I.P v := by
              dsimp only [v]
              repeat' first
                | with_reducible assumption
                | with_reducible refine Inv.ok_act ?_ ?_
                | with_reducible refine Inv.ok_next ?_
                | with_reducible exact Inv.ok_refused _
                | with_reducible refine Inv.ok_ite ?_ ?_
                | with_reducible refine State.assemble_keeps (hE.sub rfl) ?_
                | with_reducible refine State.modLink_keeps (hE.sub rfl) ?_
                | with_reducible refine State.count64_keeps (hE.sub rfl) ?_
                | with_reducible refine State.resend_keeps (hE.sub rfl) ?_
                | with_reducible refine Inv.ite ?_ ?_
                | split
                | intro _
                | dsimp only
            clear_value v)
         | (try dsimp only [v]
            clear v))
    | with_reducible refine Inv.ok_act ?_ ?_
    | with_reducible refine Inv.ok_next ?_
    | with_reducible exact Inv.ok_refused _
    | with_reducible refine Inv.ok_ite ?_ ?_
    | with_reducible refine State.assemble_keeps (hE.sub rfl) ?_
    | with_reducible refine State.modLink_keeps (hE.sub rfl) ?_
    | with_reducible refine State.count64_keeps (hE.sub rfl) ?_
    | with_reducible refine State.resend_keeps (hE.sub rfl) ?_
    | with_reducible refine Inv.ite ?_ ?_
    | split
    | intro _
    | dsimp only

theorem execReplayTimeout_ok {I : Inv} {s : State} (hE : I.has [.links, .regs]) (h : I.P s) {link : LinkIx}  :
    I.ok (execReplayTimeout link s) := by
  unfold execReplayTimeout
  try dsimp only
  repeat' first
    | with_reducible assumption
    | with_reducible refine Inv.ok_act ?_ ?_
    | with_reducible refine Inv.ok_next ?_
    | with_reducible exact Inv.ok_refused _
    | with_reducible refine Inv.ok_ite ?_ ?_
    | with_reducible refine State.resend_keeps (hE.sub rfl) ?_
    | with_reducible refine Inv.ite ?_ ?_
    | split
    | intro _
    | dsimp only

theorem execReplayProgressTimeout_ok {I : Inv} {s : State} (hE : I.has [.links, .regs]) (h : I.P s) {link : LinkIx}  :
    I.ok (execReplayProgressTimeout link s) := by
  unfold execReplayProgressTimeout
  try dsimp only
  repeat' first
    | with_reducible assumption
    | with_reducible refine Inv.ok_act ?_ ?_
    | with_reducible refine Inv.ok_next ?_
    | with_reducible exact Inv.ok_refused _
    | with_reducible refine Inv.ok_ite ?_ ?_
    | with_reducible refine State.linkRetrain_keeps (hE.sub rfl) ?_
    | with_reducible refine Inv.ite ?_ ?_
    | split
    | intro _
    | dsimp only

theorem State.takeMsg_keeps {I : Inv} {s : State} (hE : I.has [.links]) (h : I.P s) {l : LinkIx} {p : List Byte → Bool} {f : State → List Byte → State} (hf : ∀ (u : State) (a1 : List Byte), I.P u → I.P (f u a1)) :
    I.P (State.takeMsg s l p f) := by
  unfold State.takeMsg
  try dsimp only
  repeat' first
    | with_reducible assumption
    | intro _
    | refine hf _ _ ?_
    | with_reducible refine State.modLink_keeps (hE.sub rfl) ?_
    | with_reducible refine Inv.ite ?_ ?_
    | split
    | dsimp only

theorem State.rxOrder_keeps {I : Inv} {s : State} (hE : I.has [.rate, .tensors, .cmd, .links, .trim, .regs, .dict, .doors, .irq, .chain, .ledger, .dram, .oasis, .poison, .events, .out, .free]) (h : I.P s) {l : LinkIx} {ch : Fin 4} {gaps : Bool}  :
    I.P (State.rxOrder s l ch gaps) := by
  unfold State.rxOrder
  try dsimp only
  repeat' first
    | with_reducible assumption
    | intro _
    | with_reducible refine State.setSync_keeps (hE.sub rfl) ?_
    | with_reducible refine State.modChan_keeps (hE.sub rfl) ?_
    | with_reducible refine State.setReg_keeps (hE.sub rfl) ?_
    | with_reducible refine Inv.ite ?_ ?_
    | split
    | dsimp only

theorem State.rxSlot_keeps {I : Inv} {s : State} (hE : I.has [.rate, .tensors, .cmd, .links, .trim, .regs, .dict, .doors, .irq, .chain, .ledger, .dram, .oasis, .poison, .events, .out, .free]) (h : I.P s) {l : LinkIx} {ch : Fin 4} {g : Int} {data : List Byte}  :
    I.P (State.rxSlot s l ch g data) := by
  unfold State.rxSlot
  try dsimp only
  repeat' first
    | with_reducible assumption
    | intro _
    | with_reducible refine State.writeOasis_keeps (hE.sub rfl) ?_
    | with_reducible refine State.rxOrder_keeps (hE.sub rfl) ?_
    | with_reducible refine State.modChan_keeps (hE.sub rfl) ?_
    | with_reducible refine Inv.ite ?_ ?_
    | split
    | dsimp only

theorem State.haloRx_keeps {I : Inv} {s : State} (hE : I.has [.rate, .tensors, .cmd, .links, .trim, .regs, .dict, .doors, .irq, .chain, .ledger, .dram, .oasis, .poison, .events, .out, .free]) (h : I.P s) {l : LinkIx} {m : List Byte} {tracked : Bool}  :
    I.P (State.haloRx s l m tracked) := by
  unfold State.haloRx
  try dsimp only
  repeat' first
    | with_reducible assumption
    | intro _
    | with_reducible refine State.sideLimited_keeps (hE.sub rfl) ?_ ?_
    | with_reducible refine State.statusEvent_keeps (hE.sub rfl) ?_
    | with_reducible refine State.needSlot_keeps (hE.sub rfl) ?_
    | with_reducible refine State.count32_keeps (hE.sub rfl) ?_
    | with_reducible refine State.count64_keeps (hE.sub rfl) ?_
    | with_reducible refine State.rxSlot_keeps (hE.sub rfl) ?_
    | with_reducible refine State.countQ_keeps (hE.sub rfl) ?_
    | with_reducible refine Inv.ite ?_ ?_
    | split
    | dsimp only

theorem execHaloMsgRx_ok {I : Inv} {s : State} (hE : I.has [.rate, .tensors, .cmd, .links, .trim, .regs, .dict, .doors, .irq, .chain, .ledger, .dram, .oasis, .poison, .events, .out, .free]) (h : I.P s) {link : LinkIx}  :
    I.ok (execHaloMsgRx link s) := by
  unfold execHaloMsgRx
  try dsimp only
  repeat' first
    | with_reducible assumption
    | with_reducible refine Inv.ok_act ?_ ?_
    | with_reducible refine Inv.ok_next ?_
    | with_reducible exact Inv.ok_refused _
    | with_reducible refine Inv.ok_ite ?_ ?_
    | with_reducible refine State.takeMsg_keeps (hE.sub rfl) ?_ ?_
    | with_reducible refine State.haloRx_keeps (hE.sub rfl) ?_
    | intro _
    | dsimp only

theorem execCtxedgeMsgRx_ok {I : Inv} {s : State} (hE : I.has [.rate, .tensors, .cmd, .links, .trim, .regs, .dict, .doors, .irq, .chain, .ledger, .dram, .oasis, .poison, .events, .out, .free]) (h : I.P s) {link : LinkIx}  :
    I.ok (execCtxedgeMsgRx link s) := by
  unfold execCtxedgeMsgRx
  try dsimp only
  repeat' first
    | with_reducible assumption
    | with_reducible refine Inv.ok_act ?_ ?_
    | with_reducible refine Inv.ok_next ?_
    | with_reducible exact Inv.ok_refused _
    | with_reducible refine Inv.ok_ite ?_ ?_
    | with_reducible refine State.takeMsg_keeps (hE.sub rfl) ?_ ?_
    | with_reducible refine State.haloRx_keeps (hE.sub rfl) ?_
    | intro _
    | dsimp only

theorem execHaloChannelDeadline_ok {I : Inv} {s : State} (hE : I.has [.rate, .tensors, .cmd, .links, .trim, .regs, .dict, .doors, .irq, .chain, .ledger, .dram, .oasis, .poison, .events, .out, .free]) (h : I.P s) {link : LinkIx} {ch : Fin 4} {lgn : Int}  :
    I.ok (execHaloChannelDeadline link ch lgn s) := by
  unfold execHaloChannelDeadline
  try dsimp only
  repeat' first
    | with_reducible assumption
    | with_reducible refine Inv.ok_act ?_ ?_
    | with_reducible refine Inv.ok_next ?_
    | with_reducible exact Inv.ok_refused _
    | with_reducible refine Inv.ok_ite ?_ ?_
    | with_reducible refine State.rxOrder_keeps (hE.sub rfl) ?_
    | with_reducible refine Inv.ite ?_ ?_
    | split
    | intro _
    | dsimp only

theorem execTokensMsgRx_ok {I : Inv} {s : State} (hE : I.has [.ctx, .links, .regs, .irq, .dram, .poison, .events, .out]) (h : I.P s) {link : LinkIx}  :
    I.ok (execTokensMsgRx link s) := by
  unfold execTokensMsgRx
  try dsimp only
  repeat' first
    | with_reducible assumption
    | with_reducible refine Inv.ok_act ?_ ?_
    | with_reducible refine Inv.ok_next ?_
    | with_reducible exact Inv.ok_refused _
    | with_reducible refine Inv.ok_ite ?_ ?_
    | with_reducible refine State.tokWrite_keeps (hE.sub rfl) ?_
    | with_reducible refine State.takeMsg_keeps (hE.sub rfl) ?_ ?_
    | with_reducible refine State.modLink_keeps (hE.sub rfl) ?_
    | with_reducible refine Inv.ite ?_ ?_
    | split
    | intro _
    | dsimp only

theorem execBoxesMsgRx_ok {I : Inv} {s : State} (hE : I.has [.cmd, .det, .links, .regs, .irq, .events, .out]) (h : I.P s) {link : LinkIx}  :
    I.ok (execBoxesMsgRx link s) := by
  unfold execBoxesMsgRx
  try dsimp only
  repeat' first
    | with_reducible assumption
    | with_reducible refine Inv.ok_act ?_ ?_
    | with_reducible refine Inv.ok_next ?_
    | with_reducible exact Inv.ok_refused _
    | with_reducible refine Inv.ok_ite ?_ ?_
    | with_reducible refine State.detStatusEvent_keeps (hE.sub rfl) ?_
    | with_reducible refine State.mergeIfReady_keeps (hE.sub rfl) ?_
    | with_reducible refine State.takeMsg_keeps (hE.sub rfl) ?_ ?_
    | with_reducible refine State.count32_keeps (hE.sub rfl) ?_
    | with_reducible refine State.modDet_keeps (hE.sub rfl) ?_
    | with_reducible refine Inv.ite ?_ ?_
    | split
    | intro _
    | dsimp only

theorem execBarrierMsgRx_ok {I : Inv} {s : State} (hE : I.has [.dev, .links, .regs, .dict, .irq, .events, .out]) (h : I.P s) {link : LinkIx}  :
    I.ok (execBarrierMsgRx link s) := by
  unfold execBarrierMsgRx
  try dsimp only
  repeat' first
    | with_reducible assumption
    | with_reducible refine Inv.ok_act ?_ ?_
    | with_reducible refine Inv.ok_next ?_
    | with_reducible exact Inv.ok_refused _
    | with_reducible refine Inv.ok_ite ?_ ?_
    | with_reducible refine State.raiseInt_keeps (hE.sub rfl) ?_
    | with_reducible refine State.countOd_keeps (hE.sub rfl) ?_
    | with_reducible refine State.takeMsg_keeps (hE.sub rfl) ?_ ?_
    | with_reducible refine State.modLink_keeps (hE.sub rfl) ?_
    | with_reducible refine State.event_keeps (hE.sub rfl) ?_
    | with_reducible refine Inv.ite ?_ ?_
    | split
    | intro _
    | dsimp only
    | (with_reducible refine Inv.set (fun p => ?_) ?_
       · fail_if_success with_reducible (cases p <;> first
           | exact Or.inl rfl | exact Or.inl ⟨rfl, rfl⟩ | exact Or.inl ⟨rfl, rfl, rfl⟩ | exact Or.inl ⟨rfl, rfl, rfl, rfl⟩ | exact Or.inl ⟨rfl, rfl, rfl, rfl, rfl⟩
           | exact Or.inl ⟨rfl, rfl, rfl, rfl, rfl, rfl⟩ | exact Or.inl ⟨rfl, rfl, rfl, rfl, rfl, rfl, rfl⟩ | exact Or.inl ⟨rfl, rfl, rfl, rfl, rfl, rfl, rfl, rfl, rfl⟩
           | exact Or.inl ⟨rfl, rfl, rfl, rfl, rfl, rfl, rfl, rfl, rfl, rfl, rfl, rfl, rfl, rfl⟩)
         with_reducible (cases p <;> first
           | exact Or.inl rfl | exact Or.inl ⟨rfl, rfl⟩ | exact Or.inl ⟨rfl, rfl, rfl⟩ | exact Or.inl ⟨rfl, rfl, rfl, rfl⟩ | exact Or.inl ⟨rfl, rfl, rfl, rfl, rfl⟩
           | exact Or.inl ⟨rfl, rfl, rfl, rfl, rfl, rfl⟩ | exact Or.inl ⟨rfl, rfl, rfl, rfl, rfl, rfl, rfl⟩ | exact Or.inl ⟨rfl, rfl, rfl, rfl, rfl, rfl, rfl, rfl, rfl⟩
           | exact Or.inl ⟨rfl, rfl, rfl, rfl, rfl, rfl, rfl, rfl, rfl, rfl, rfl, rfl, rfl, rfl⟩
           | exact Or.inr ⟨hE _ (by decide), True.intro⟩ | exact Or.inr ⟨hE _ (by decide), _, rfl⟩))
    | fail

theorem execNeighbourSilent_ok {I : Inv} {s : State} (hE : I.has [.links, .regs, .irq, .events, .out]) (h : I.P s) {link : LinkIx}  :
    I.ok (execNeighbourSilent link s) := by
  unfold execNeighbourSilent
  try dsimp only
  repeat' first
    | with_reducible assumption
    | with_reducible refine Inv.ok_act ?_ ?_
    | with_reducible refine Inv.ok_next ?_
    | with_reducible exact Inv.ok_refused _
    | with_reducible refine Inv.ok_ite ?_ ?_
    | with_reducible refine State.sideStatus_keeps (hE.sub rfl) ?_
    | with_reducible refine State.modLink_keeps (hE.sub rfl) ?_
    | with_reducible refine Inv.ite ?_ ?_
    | split
    | intro _
    | dsimp only

theorem execChainMsgRx_ok {I : Inv} {s : State} (hE : I.has [.links, .regs, .irq, .events, .out]) (h : I.P s) {link : LinkIx}  :
    I.ok (execChainMsgRx link s) := by
  unfold execChainMsgRx
  try dsimp only
  repeat' first
    | with_reducible assumption
    | with_reducible refine Inv.ok_act ?_ ?_
    | with_reducible refine Inv.ok_next ?_
    | with_reducible exact Inv.ok_refused _
    | with_reducible refine Inv.ok_ite ?_ ?_
    | with_reducible refine State.sideStatus_keeps (hE.sub rfl) ?_
    | with_reducible refine State.takeMsg_keeps (hE.sub rfl) ?_ ?_
    | with_reducible refine State.modLink_keeps (hE.sub rfl) ?_
    | with_reducible refine Inv.ite ?_ ?_
    | split
    | intro _
    | dsimp only

theorem execChainMsgSend_ok {I : Inv} {s : State} (hE : I.has [.links]) (h : I.P s) {link : LinkIx}  :
    I.ok (execChainMsgSend link s) := by
  unfold execChainMsgSend
  try dsimp only
  repeat' first
    | with_reducible assumption
    | with_reducible refine Inv.ok_act ?_ ?_
    | with_reducible refine Inv.ok_next ?_
    | with_reducible exact Inv.ok_refused _
    | with_reducible refine Inv.ok_ite ?_ ?_
    | with_reducible refine State.queueMsg_keeps (hE.sub rfl) ?_
    | with_reducible refine Inv.ite ?_ ?_
    | split
    | intro _
    | dsimp only

theorem execPingSend_ok {I : Inv} {s : State} (hE : I.has [.links]) (h : I.P s) {link : LinkIx}  :
    I.ok (execPingSend link s) := by
  unfold execPingSend
  try dsimp only
  repeat' first
    | with_reducible assumption
    | with_reducible refine Inv.ok_act ?_ ?_
    | with_reducible refine Inv.ok_next ?_
    | with_reducible exact Inv.ok_refused _
    | with_reducible refine Inv.ok_ite ?_ ?_
    | with_reducible refine State.queueMsg_keeps (hE.sub rfl) ?_
    | with_reducible refine Inv.ite ?_ ?_
    | split
    | intro _
    | dsimp only

theorem execPingRx_ok {I : Inv} {s : State} (hE : I.has [.links]) (h : I.P s) {link : LinkIx}  :
    I.ok (execPingRx link s) := by
  unfold execPingRx
  try dsimp only
  repeat' first
    | with_reducible assumption
    | with_reducible refine Inv.ok_act ?_ ?_
    | with_reducible refine Inv.ok_next ?_
    | with_reducible exact Inv.ok_refused _
    | with_reducible refine Inv.ok_ite ?_ ?_
    | with_reducible refine State.queueMsg_keeps (hE.sub rfl) ?_
    | with_reducible refine State.takeMsg_keeps (hE.sub rfl) ?_ ?_
    | intro _
    | dsimp only

theorem execPongRx_ok {I : Inv} {s : State} (hE : I.has [.links, .dict]) (h : I.P s) {link : LinkIx}  :
    I.ok (execPongRx link s) := by
  unfold execPongRx
  try dsimp only
  repeat' first
    | with_reducible assumption
    | with_reducible refine Inv.ok_act ?_ ?_
    | with_reducible refine Inv.ok_next ?_
    | with_reducible exact Inv.ok_refused _
    | with_reducible refine Inv.ok_ite ?_ ?_
    | with_reducible refine State.takeMsg_keeps (hE.sub rfl) ?_ ?_
    | with_reducible refine State.setOd_keeps (hE.sub rfl) ?_
    | intro _
    | dsimp only

end Sys2Proof.Machine
end

