-- ==== Sys2Proof/Laws/KeepsRegisters.lean ====
section
/-! SUPPORT. The operations of Machine/Registers.lean keep every predicate that lets their parts change. -/

set_option linter.unreachableTactic false
set_option linter.unusedTactic false

namespace Sys2Proof.Machine

theorem State.writeMsixTable_keeps {I : Inv} {s : State} (hE : I.has [.regs, .irq, .out]) (h : I.P s) {off : Nat} {v : Nat}  :
    I.P (State.writeMsixTable s off v) := by
  unfold State.writeMsixTable
  try dsimp only
  repeat' first
    | with_reducible assumption
    | intro _
    | with_reducible refine State.msixSend_keeps (hE.sub rfl) ?_
    | with_reducible refine State.setReg_keeps (hE.sub rfl) ?_
    | with_reducible refine Inv.ite ?_ ?_
    | split
    | dsimp only

theorem State.writeRw_keeps {I : Inv} {s : State} (hE : I.has [.regs, .irq, .out]) (h : I.P s) {r : RegRow} {off : Nat} {v : Nat}  :
    I.P (State.writeRw s r off v) := by
  unfold State.writeRw
  try dsimp only
  repeat' first
    | with_reducible assumption
    | intro _
    | with_reducible refine State.intUpdate_keeps (hE.sub rfl) ?_ ?_
    | with_reducible refine State.setReg_keeps (hE.sub rfl) ?_
    | with_reducible refine Inv.ite ?_ ?_
    | split
    | dsimp only

theorem State.writeW1c_keeps {I : Inv} {s : State} (hE : I.has [.regs, .irq, .out]) (h : I.P s) {r : RegRow} {off : Nat} {v : Nat}  :
    I.P (State.writeW1c s r off v) := by
  unfold State.writeW1c
  try dsimp only
  repeat' first
    | with_reducible assumption
    | intro _
    | with_reducible refine State.intUpdate_keeps (hE.sub rfl) ?_ ?_
    | with_reducible refine State.setReg_keeps (hE.sub rfl) ?_
    | with_reducible refine Inv.ite ?_ ?_
    | split
    | dsimp only

theorem State.writeWo_keeps {I : Inv} {s : State} (hE : I.has [.regs, .dict, .doors, .irq, .chain, .ledger, .saf, .events, .out]) (h : I.P s) {r : RegRow} {v : Nat}  :
    I.P (State.writeWo s r v) := by
  unfold State.writeWo
  try dsimp only
  repeat' first
    | with_reducible assumption
    | intro _
    | with_reducible refine State.safFinish_keeps (hE.sub rfl) ?_
    | with_reducible refine State.mbFinish_keeps (hE.sub rfl) ?_
    | with_reducible refine Inv.ite ?_ ?_
    | split
    | dsimp only
    | (with_reducible refine Inv.set (fun p => ?_) ?_
       · fail_if_success with_reducible (cases p <;> first
           | exact Or.inl rfl | exact Or.inl ⟨rfl, rfl⟩ | exact Or.inl ⟨rfl, rfl, rfl⟩ | exact Or.inl ⟨rfl, rfl, rfl, rfl⟩ | exact Or.inl ⟨rfl, rfl, rfl, rfl, rfl⟩
           | exact Or.inl ⟨rfl, rfl, rfl, rfl, rfl, rfl⟩ | exact Or.inl ⟨rfl, rfl, rfl, rfl, rfl, rfl, rfl⟩ | exact Or.inl ⟨rfl, rfl, rfl, rfl, rfl, rfl, rfl, rfl, rfl⟩
           | exact Or.inl ⟨rfl, rfl, rfl, rfl, rfl, rfl, rfl, rfl, rfl, rfl, rfl, rfl, rfl, rfl⟩)
         with_reducible (cases p <;> first
           | exact Or.inl rfl | exact Or.inl ⟨rfl, rfl⟩ | exact Or.inl ⟨rfl, rfl, rfl⟩ | exact Or.inl ⟨rfl, rfl, rfl, rfl⟩ | exact Or.inl ⟨rfl, rfl, rfl, rfl, rfl⟩
           | exact Or.inl ⟨rfl, rfl, rfl, rfl, rfl, rfl⟩ | exact Or.inl ⟨rfl, rfl, rfl, rfl, rfl, rfl, rfl⟩ | exact Or.inl ⟨rfl, rfl, rfl, rfl, rfl, rfl, rfl, rfl, rfl⟩
           | exact Or.inl ⟨rfl, rfl, rfl, rfl, rfl, rfl, rfl, rfl, rfl, rfl, rfl, rfl, rfl, rfl⟩
           | exact Or.inr ⟨hE _ (by decide), True.intro⟩ | exact Or.inr ⟨hE _ (by decide), _, rfl⟩))
    | fail

theorem State.writeReg_keeps {I : Inv} {s : State} (hE : I.has [.regs, .dict, .doors, .irq, .chain, .ledger, .saf, .events, .out]) (h : I.P s) {off : Nat} {v : Nat}  :
    I.P (State.writeReg s off v) := by
  unfold State.writeReg
  try dsimp only
  repeat' first
    | with_reducible assumption
    | intro _
    | with_reducible refine State.writeMsixTable_keeps (hE.sub rfl) ?_
    | with_reducible refine State.writeW1c_keeps (hE.sub rfl) ?_
    | with_reducible refine State.writeWo_keeps (hE.sub rfl) ?_
    | with_reducible refine State.writeRw_keeps (hE.sub rfl) ?_
    | with_reducible refine Inv.ite ?_ ?_
    | split
    | dsimp only

theorem State.coreEntryWrite_keeps {I : Inv} {s : State} (hE : I.has [.dev, .rate, .enc, .web, .ports, .fsPorts, .slices, .cores, .ctx, .links, .regs, .dict, .doors, .irq, .pcie, .crv, .chain, .ledger, .pwr, .events, .out]) (h : I.P s) {key : Nat} {v : Nat}  :
    I.P (State.coreEntryWrite s key v) := by
  unfold State.coreEntryWrite
  try dsimp only
  repeat' first
    | with_reducible assumption
    | intro _
    | with_reducible refine State.odAccept_snd (hE.sub rfl) ?_
    | with_reducible refine State.odAccept_keeps (hE.sub rfl) ?_ (by with_reducible assumption)
    | with_reducible refine Inv.ite ?_ ?_
    | split
    | dsimp only

theorem execCoreParkWrite_ok {I : Inv} {s : State} (hE : I.has [.dev, .rate, .enc, .web, .ports, .fsPorts, .slices, .cores, .ctx, .links, .regs, .dict, .doors, .irq, .pcie, .crv, .chain, .ledger, .pwr, .events, .out]) (h : I.P s) {core : CoreIx} {value : W32}  :
    I.ok (execCoreParkWrite core value s) := by
  unfold execCoreParkWrite
  try dsimp only
  repeat' first
    | with_reducible assumption
    | with_reducible refine Inv.ok_act ?_ ?_
    | with_reducible refine Inv.ok_next ?_
    | with_reducible exact Inv.ok_refused _
    | with_reducible refine Inv.ok_ite ?_ ?_
    | with_reducible refine State.coreEntryWrite_keeps (hE.sub rfl) ?_
    | intro _
    | dsimp only

theorem execFreqTargetWrite_ok {I : Inv} {s : State} (hE : I.has [.dev, .rate, .enc, .web, .ports, .fsPorts, .slices, .cores, .ctx, .links, .regs, .dict, .doors, .irq, .pcie, .crv, .chain, .ledger, .pwr, .events, .out]) (h : I.P s) {core : CoreIx} {value : W32}  :
    I.ok (execFreqTargetWrite core value s) := by
  unfold execFreqTargetWrite
  try dsimp only
  repeat' first
    | with_reducible assumption
    | with_reducible refine Inv.ok_act ?_ ?_
    | with_reducible refine Inv.ok_next ?_
    | with_reducible exact Inv.ok_refused _
    | with_reducible refine Inv.ok_ite ?_ ?_
    | with_reducible refine State.coreEntryWrite_keeps (hE.sub rfl) ?_
    | intro _
    | dsimp only

theorem State.readWide_keeps {I : Inv} {s : State} (hE : I.has [.pcie]) (h : I.P s) {r : RegRow} {off : Nat}  {a t} (e : State.readWide s r off = (a, t)) :
    I.P t := by
  unfold State.readWide at e
  revert e
  repeat' first
    | (with_reducible (intro e; cases e))
    | split
    | dsimp only
    | with_reducible assumption
    | intro _
    | with_reducible refine Inv.ite ?_ ?_
    | split
    | dsimp only
    | (with_reducible refine Inv.set (fun p => ?_) ?_
       · fail_if_success with_reducible (cases p <;> first
           | exact Or.inl rfl | exact Or.inl ⟨rfl, rfl⟩ | exact Or.inl ⟨rfl, rfl, rfl⟩ | exact Or.inl ⟨rfl, rfl, rfl, rfl⟩ | exact Or.inl ⟨rfl, rfl, rfl, rfl, rfl⟩
           | exact Or.inl ⟨rfl, rfl, rfl, rfl, rfl, rfl⟩ | exact Or.inl ⟨rfl, rfl, rfl, rfl, rfl, rfl, rfl⟩ | exact Or.inl ⟨rfl, rfl, rfl, rfl, rfl, rfl, rfl, rfl, rfl⟩
           | exact Or.inl ⟨rfl, rfl, rfl, rfl, rfl, rfl, rfl, rfl, rfl, rfl, rfl, rfl, rfl, rfl⟩)
         with_reducible (cases p <;> first
           | exact Or.inl rfl | exact Or.inl ⟨rfl, rfl⟩ | exact Or.inl ⟨rfl, rfl, rfl⟩ | exact Or.inl ⟨rfl, rfl, rfl, rfl⟩ | exact Or.inl ⟨rfl, rfl, rfl, rfl, rfl⟩
           | exact Or.inl ⟨rfl, rfl, rfl, rfl, rfl, rfl⟩ | exact Or.inl ⟨rfl, rfl, rfl, rfl, rfl, rfl, rfl⟩ | exact Or.inl ⟨rfl, rfl, rfl, rfl, rfl, rfl, rfl, rfl, rfl⟩
           | exact Or.inl ⟨rfl, rfl, rfl, rfl, rfl, rfl, rfl, rfl, rfl, rfl, rfl, rfl, rfl, rfl⟩
           | exact Or.inr ⟨hE _ (by decide), True.intro⟩ | exact Or.inr ⟨hE _ (by decide), _, rfl⟩))
    | fail

theorem State.readWide_snd {I : Inv} {s : State} (hE : I.has [.pcie]) (h : I.P s) {r : RegRow} {off : Nat} :
    I.P (State.readWide s r off).2 :=
  State.readWide_keeps hE h rfl

theorem State.readListed_keeps {I : Inv} {s : State} (hE : I.has [.regs, .pcie]) (h : I.P s) {r : RegRow} {off : Nat}  {a t} (e : State.readListed s r off = (a, t)) :
    I.P t := by
  unfold State.readListed at e
  revert e
  repeat' first
    | (with_reducible (intro e; cases e))
    | split
    | dsimp only
    | with_reducible assumption
    | intro _
    | with_reducible refine State.readWide_snd (hE.sub rfl) ?_
    | with_reducible refine State.readWide_keeps (hE.sub rfl) ?_ (by with_reducible assumption)
    | with_reducible refine State.setReg_keeps (hE.sub rfl) ?_
    | with_reducible refine Inv.ite ?_ ?_
    | split
    | dsimp only

theorem State.readListed_snd {I : Inv} {s : State} (hE : I.has [.regs, .pcie]) (h : I.P s) {r : RegRow} {off : Nat} :
    I.P (State.readListed s r off).2 :=
  State.readListed_keeps hE h rfl

theorem State.readReg_keeps {I : Inv} {s : State} (hE : I.has [.regs, .pcie, .out]) (h : I.P s) {off : Nat}  :
    I.P (State.readReg s off) := by
  unfold State.readReg
  try dsimp only
  repeat' first
    | with_reducible assumption
    | intro _
    | with_reducible refine State.readListed_snd (hE.sub rfl) ?_
    | with_reducible refine State.readListed_keeps (hE.sub rfl) ?_ (by with_reducible assumption)
    | with_reducible refine State.send_keeps (hE.sub rfl) ?_
    | with_reducible refine Inv.ite ?_ ?_
    | split
    | dsimp only

end Sys2Proof.Machine
end

