-- ==== Sys2Proof/Laws/KeepsHostAccess.lean ====
section
/-! SUPPORT. The operations of Machine/HostAccess.lean keep every predicate that lets their parts change. -/

set_option linter.unreachableTactic false
set_option linter.unusedTactic false

namespace Sys2Proof.Machine

/-- Every command that an optional result names keeps a predicate. -/
def Inv.okOpt (I : Inv) (o : Option Result) : Prop := ∀ r, o = some r → I.ok r

theorem Inv.okOpt_none {I : Inv} : I.okOpt none := by
  intro r hr
  cases hr

theorem Inv.okOpt_some {I : Inv} {r : Result} (h : I.ok r) : I.okOpt (some r) := by
  intro x hx
  cases hx
  exact h

theorem Inv.okOpt_ite {I : Inv} {c : Prop} [Decidable c] {a b : Option Result} (ha : I.okOpt a) (hb : I.okOpt b) : I.okOpt (if c then a else b) := by
  split
  · exact ha
  · exact hb

theorem mbCommand_keeps {I : Inv} {s : State} (hE : I.has [.dt, .devState, .dev, .rate, .enc, .line, .web, .ports, .fsPorts, .slices, .tensors, .cores, .cmd, .ctx, .det, .links, .trim, .regs, .dict, .blobs, .doors, .irq, .pcie, .crv, .chain, .ledger, .flash, .saf, .pwr, .hostMem, .dram, .oasis, .poison, .events, .out, .free]) (h : I.P s) {v : Nat} : I.okOpt (mbCommand v s) := by
  unfold mbCommand
  refine Inv.okOpt_ite Inv.okOpt_none ?_
  split
  · exact Inv.okOpt_some (execMbRead_ok (hE.sub rfl) h)
  · exact Inv.okOpt_some (execMbWrite_ok (hE.sub rfl) h)
  · exact Inv.okOpt_some (execMbWriteAt_ok (hE.sub rfl) h)
  · exact Inv.okOpt_some (execMbCancelAt_ok (hE.sub rfl) h)
  · exact Inv.okOpt_some (execMbDescribe_ok (hE.sub rfl) h)
  · exact Inv.okOpt_none

theorem safWrite_keeps {I : Inv} {s : State} (hE : I.has [.dt, .devState, .dev, .rate, .enc, .line, .web, .ports, .fsPorts, .slices, .tensors, .cores, .cmd, .ctx, .det, .links, .trim, .regs, .dict, .blobs, .doors, .irq, .pcie, .crv, .chain, .ledger, .flash, .saf, .pwr, .hostMem, .dram, .oasis, .poison, .events, .out, .free]) (h : I.P s) {v : Nat} : I.okOpt (safWrite v s) := by
  unfold safWrite
  dsimp only
  split
  · exact Inv.okOpt_some (execSafVerify_ok (hE.sub rfl) h)
  · exact Inv.okOpt_some (execSafProgram_ok (hE.sub rfl) h)
  · exact Inv.okOpt_some (execSafSetBoot_ok (hE.sub rfl) h)
  · exact Inv.okOpt_some (execSafReboot_ok (hE.sub rfl) h)
  · exact Inv.okOpt_some (execSafCommitVersion_ok (hE.sub rfl) h)
  · exact Inv.okOpt_some (execSafRevoke_ok (hE.sub rfl) h)
  · exact Inv.okOpt_some (execSafAttest_ok (hE.sub rfl) h)
  · exact Inv.okOpt_none

theorem cmdWrite_keeps {I : Inv} {s : State} (hE : I.has [.dt, .devState, .dev, .rate, .enc, .line, .web, .ports, .fsPorts, .slices, .tensors, .cores, .cmd, .ctx, .det, .links, .trim, .regs, .dict, .blobs, .doors, .irq, .pcie, .crv, .chain, .ledger, .flash, .saf, .pwr, .hostMem, .dram, .oasis, .poison, .events, .out, .free]) (h : I.P s) {base i v : Nat} : I.okOpt (cmdWrite base i v s) := by
  unfold cmdWrite
  dsimp only
  refine Inv.okOpt_ite (Inv.okOpt_some (execCqPiWrite_ok (hE.sub rfl) h)) ?_
  iterate 4 refine Inv.okOpt_ite (Inv.okOpt_some (execRingCiWrite_ok (hE.sub rfl) h)) ?_
  iterate 4 refine Inv.okOpt_ite (Inv.okOpt_some (execRingSlotsWrite_ok (hE.sub rfl) h)) ?_
  refine Inv.okOpt_ite (Inv.okOpt_ite (Inv.okOpt_some (execCqRestart_ok (hE.sub rfl) h)) Inv.okOpt_none) ?_
  refine Inv.okOpt_ite (Inv.okOpt_some (execCmdAbort_ok (hE.sub rfl) h)) ?_
  refine Inv.okOpt_ite (Inv.okOpt_some (execCmdSyncValueWrite_ok (hE.sub rfl) h)) ?_
  exact Inv.okOpt_ite (Inv.okOpt_some (execCmdSyncAdd_ok (hE.sub rfl) h)) Inv.okOpt_none

theorem ownWrite_keeps {I : Inv} {s : State} (hE : I.has [.dt, .devState, .dev, .rate, .enc, .line, .web, .ports, .fsPorts, .slices, .tensors, .cores, .cmd, .ctx, .det, .links, .trim, .regs, .dict, .blobs, .doors, .irq, .pcie, .crv, .chain, .ledger, .flash, .saf, .pwr, .hostMem, .dram, .oasis, .poison, .events, .out, .free]) (h : I.P s) {base i v : Nat} : I.okOpt (ownWrite base i v s) := by
  unfold ownWrite
  dsimp only
  refine Inv.okOpt_ite (Inv.okOpt_ite (Inv.okOpt_some (Inv.ok_ite (execCamCcWrite_ok (hE.sub rfl) h) (execCamCcRead_ok (hE.sub rfl) h))) Inv.okOpt_none) ?_
  refine Inv.okOpt_ite (Inv.okOpt_some (execFsTblDataAccess_ok (hE.sub rfl) h)) ?_
  refine Inv.okOpt_ite (Inv.okOpt_some (execFsTblCommit_ok (hE.sub rfl) h)) ?_
  refine Inv.okOpt_ite (Inv.okOpt_some (execCoreParkWrite_ok (hE.sub rfl) h)) ?_
  refine Inv.okOpt_ite (Inv.okOpt_some (execFreqTargetWrite_ok (hE.sub rfl) h)) ?_
  refine Inv.okOpt_ite (Inv.okOpt_some (execCoreTmDataAccess_ok (hE.sub rfl) h)) ?_
  refine Inv.okOpt_ite (Inv.okOpt_some (execOasisQpowerWrite_ok (hE.sub rfl) h)) ?_
  refine Inv.okOpt_ite (Inv.okOpt_some (execStreamCopyGo_ok (hE.sub rfl) h)) ?_
  refine Inv.okOpt_ite (Inv.okOpt_some (execCtxClearWrite_ok (hE.sub rfl) h)) ?_
  refine Inv.okOpt_ite (Inv.okOpt_some (execLinkCtrlRetrain_ok (hE.sub rfl) h)) ?_
  refine Inv.okOpt_ite (Inv.okOpt_some (Inv.ok_ite (execTrimCmdForce_ok (hE.sub rfl) h) (execTrimCmdMakeDue_ok (hE.sub rfl) h))) ?_
  refine Inv.okOpt_ite (Inv.okOpt_some (execLedgerSpillCiWrite_ok (hE.sub rfl) h)) ?_
  refine Inv.okOpt_ite (Inv.okOpt_some (execLedgerReadSeqWrite_ok (hE.sub rfl) h)) ?_
  refine Inv.okOpt_ite (Inv.okOpt_some (execGlbResetWrite_ok (hE.sub rfl) h)) ?_
  refine Inv.okOpt_ite (mbCommand_keeps (hE.sub rfl) h) ?_
  exact Inv.okOpt_ite (safWrite_keeps (hE.sub rfl) h) (cmdWrite_keeps (hE.sub rfl) h)

theorem wordWrite_ok {I : Inv} {s : State} (hE : I.has [.dt, .devState, .dev, .rate, .enc, .line, .web, .ports, .fsPorts, .slices, .tensors, .cores, .cmd, .ctx, .det, .links, .trim, .regs, .dict, .blobs, .doors, .irq, .pcie, .crv, .chain, .ledger, .flash, .saf, .pwr, .hostMem, .dram, .oasis, .poison, .events, .out, .free]) (h : I.P s) {off v : Nat} : I.ok (wordWrite off v s) := by
  unfold wordWrite
  have hw : I.ok (.next (s.writeReg off v)) := Inv.ok_next (State.writeReg_keeps (hE.sub rfl) h)
  refine Inv.ok_ite (Inv.ok_next h) ?_
  split
  · rename_i r _
    cases ho : ownWrite r.base (r.index off) v s with
    | none => exact hw
    | some x => exact ownWrite_keeps (hE.sub rfl) h x ho
  · exact hw

theorem Inv.ok_andThen {I : Inv} {r : Result} {f : State → Result} (hr : I.ok r) (hf : ∀ u, I.P u → I.ok (f u)) : I.ok (andThen r f) := by
  cases r with
  | next s => exact hf s (hr s rfl)
  | fault x => exact fun t ht => nomatch ht
  | refused x => exact Inv.ok_refused x

theorem wordsWrite_ok {I : Inv} (hE : I.has [.dt, .devState, .dev, .rate, .enc, .line, .web, .ports, .fsPorts, .slices, .tensors, .cores, .cmd, .ctx, .det, .links, .trim, .regs, .dict, .blobs, .doors, .irq, .pcie, .crv, .chain, .ledger, .flash, .saf, .pwr, .hostMem, .dram, .oasis, .poison, .events, .out, .free]) (l : List Nat) {v : Nat} {s : State} (h : I.P s) : I.ok (wordsWrite v l s) := by
  induction l generalizing s v with
  | nil => exact Inv.ok_next h
  | cons o r ih => exact Inv.ok_andThen (wordWrite_ok hE h) fun u hu => ih hu

theorem wordRead_ok {I : Inv} {s : State} (hE : I.has [.fsPorts, .cores, .cmd, .regs, .irq, .pcie, .events, .out, .free]) (h : I.P s) {off : Nat} : I.ok (wordRead off s) := by
  unfold wordRead
  have hw : I.ok (.next (s.readReg off)) := Inv.ok_next (State.readReg_keeps (hE.sub rfl) h)
  refine Inv.ok_ite (Inv.ok_next h) ?_
  split
  · exact Inv.ok_ite (execFsTblDataAccess_ok (hE.sub rfl) h) (Inv.ok_ite (execCoreTmDataAccess_ok (hE.sub rfl) h) hw)
  · exact hw

theorem wordsRead_ok {I : Inv} (hE : I.has [.fsPorts, .cores, .cmd, .regs, .irq, .pcie, .events, .out, .free]) (l : List Nat) {s : State} (h : I.P s) : I.ok (wordsRead l s) := by
  induction l generalizing s with
  | nil => exact Inv.ok_next h
  | cons o r ih => exact Inv.ok_andThen (wordRead_ok hE h) fun u hu => ih hu

theorem hostWrite_ok {I : Inv} {s : State} (hE : I.has [.dt, .devState, .dev, .rate, .enc, .line, .web, .ports, .fsPorts, .slices, .tensors, .cores, .cmd, .ctx, .det, .links, .trim, .regs, .dict, .blobs, .doors, .irq, .pcie, .crv, .chain, .ledger, .flash, .saf, .pwr, .hostMem, .dram, .oasis, .poison, .events, .out, .free]) (h : I.P s) {a : HostAccess} {value : W64} : I.ok (hostWrite a value s) := by
  unfold hostWrite
  refine Inv.ok_ite (Inv.ok_next h) (Inv.ok_ite (execOasisWindowAccess_ok (hE.sub rfl) h) ?_)
  split
  · exact wordsWrite_ok (hE.sub rfl) _ h
  · exact Inv.ok_next (State.badAccess_keeps (hE.sub rfl) h)

theorem hostRead_ok {I : Inv} {s : State} (hE : I.has [.rate, .fsPorts, .cores, .cmd, .regs, .irq, .pcie, .oasis, .poison, .events, .out, .free]) (h : I.P s) {a : HostAccess} : I.ok (hostRead a s) := by
  unfold hostRead
  refine Inv.ok_ite (Inv.ok_next h) (Inv.ok_ite (execOasisWindowAccess_ok (hE.sub rfl) h) ?_)
  split
  · exact wordsRead_ok (hE.sub rfl) _ h
  · exact Inv.ok_next (State.badAccess_keeps (hE.sub rfl) h)

theorem execGenericRegisterWrite_ok {I : Inv} {s : State} (hE : I.has [.dt, .devState, .dev, .rate, .enc, .line, .web, .ports, .fsPorts, .slices, .tensors, .cores, .cmd, .ctx, .det, .links, .trim, .regs, .dict, .blobs, .doors, .irq, .pcie, .crv, .chain, .ledger, .flash, .saf, .pwr, .hostMem, .dram, .oasis, .poison, .events, .out, .free]) (h : I.P s) {access : HostAccess} {value : W64}  :
    I.ok (execGenericRegisterWrite access value s) := by
  unfold execGenericRegisterWrite
  try dsimp only
  repeat' first
    | with_reducible assumption
    | with_reducible refine Inv.ok_act ?_ ?_
    | with_reducible refine Inv.ok_next ?_
    | with_reducible exact Inv.ok_refused _
    | with_reducible refine Inv.ok_ite ?_ ?_
    | with_reducible refine hostWrite_ok (hE.sub rfl) ?_
    | intro _
    | dsimp only

theorem execRegisterReadClear_ok {I : Inv} {s : State} (hE : I.has [.rate, .fsPorts, .cores, .cmd, .regs, .irq, .pcie, .oasis, .poison, .events, .out, .free]) (h : I.P s) {access : HostAccess}  :
    I.ok (execRegisterReadClear access s) := by
  unfold execRegisterReadClear
  try dsimp only
  repeat' first
    | with_reducible assumption
    | with_reducible refine Inv.ok_act ?_ ?_
    | with_reducible refine Inv.ok_next ?_
    | with_reducible exact Inv.ok_refused _
    | with_reducible refine Inv.ok_ite ?_ ?_
    | with_reducible refine hostRead_ok (hE.sub rfl) ?_
    | intro _
    | dsimp only

theorem execLowWordRead_ok {I : Inv} {s : State} (hE : I.has [.rate, .fsPorts, .cores, .cmd, .regs, .irq, .pcie, .oasis, .poison, .events, .out, .free]) (h : I.P s) {access : HostAccess}  :
    I.ok (execLowWordRead access s) := by
  unfold execLowWordRead
  try dsimp only
  repeat' first
    | with_reducible assumption
    | with_reducible refine Inv.ok_act ?_ ?_
    | with_reducible refine Inv.ok_next ?_
    | with_reducible exact Inv.ok_refused _
    | with_reducible refine Inv.ok_ite ?_ ?_
    | with_reducible refine hostRead_ok (hE.sub rfl) ?_
    | intro _
    | dsimp only

end Sys2Proof.Machine
end

