-- ==== Sys2Proof/Laws/Exec.lean ====
section
/-! SUPPORT. What a command can do, said once over every command: it keeps each predicate that lets the parts it touches change. -/

namespace Sys2Proof.Machine

/-- Every command keeps each predicate that lets the parts it touches change. -/
theorem exec_keeps {I : Inv} {s : State} (c : Instr) (hE : I.has c.touches) (h : I.P s) : I.ok (exec c s) := by
  cases c with
  | encoderCount _ => exact execEncoderCount_ok (hE.sub rfl) h
  | encoderIllegalTransition => exact execEncoderIllegalTransition_ok (hE.sub rfl) h
  | countRateWindow => exact execCountRateWindow_ok (hE.sub rfl) h
  | lineTimerExpiry => exact execLineTimerExpiry_ok (hE.sub rfl) h
  | groupCancel _ => exact execGroupCancel_ok (hE.sub rfl) h
  | scheduledWriteApply _ => exact execScheduledWriteApply_ok (hE.sub rfl) h
  | tokenDeadline _ => exact execTokenDeadline_ok (hE.sub rfl) h
  | stateDeadline _ => exact execStateDeadline_ok (hE.sub rfl) h
  | haloDeadline _ => exact execHaloDeadline_ok (hE.sub rfl) h
  | haloChannelDeadline _ _ _ => exact execHaloChannelDeadline_ok (hE.sub rfl) h
  | detMergeDeadline _ => exact execDetMergeDeadline_ok (hE.sub rfl) h
  | neighbourSilent _ => exact execNeighbourSilent_ok (hE.sub rfl) h
  | lightOkRise _ => exact execLightOkRise_ok (hE.sub rfl) h
  | lightOkFall _ => exact execLightOkFall_ok (hE.sub rfl) h
  | laneLockGain _ _ => exact execLaneLockGain_ok (hE.sub rfl) h
  | laneLockLoss _ _ => exact execLaneLockLoss_ok (hE.sub rfl) h
  | discoveryLockTimeout _ => exact execDiscoveryLockTimeout_ok (hE.sub rfl) h
  | ccReply _ _ _ => exact execCcReply_ok (hE.sub rfl) h
  | ccTimeout _ => exact execCcTimeout_ok (hE.sub rfl) h
  | camCcRead _ => exact execCamCcRead_ok (hE.sub rfl) h
  | camCcWrite _ => exact execCamCcWrite_ok (hE.sub rfl) h
  | heartbeatSend _ => exact execHeartbeatSend_ok (hE.sub rfl) h
  | heartbeatReceive _ => exact execHeartbeatReceive_ok (hE.sub rfl) h
  | heartbeatTimeout _ => exact execHeartbeatTimeout_ok (hE.sub rfl) h
  | cameraEventPacket _ _ => exact execCameraEventPacket_ok (hE.sub rfl) h
  | imageHeader _ _ _ _ _ => exact execImageHeader_ok (hE.sub rfl) h
  | lineMarker _ _ => exact execLineMarker_ok (hE.sub rfl) h
  | pixelDataPacket _ _ _ => exact execPixelDataPacket_ok (hE.sub rfl) h
  | checkFailedPacket _ _ _ => exact execCheckFailedPacket_ok (hE.sub rfl) h
  | frameEnd _ _ => exact execFrameEnd_ok (hE.sub rfl) h
  | malformedPacket _ => exact execMalformedPacket_ok (hE.sub rfl) h
  | lineDataTimeout _ => exact execLineDataTimeout_ok (hE.sub rfl) h
  | lineTimeoutAbsent _ => exact execLineTimeoutAbsent_ok (hE.sub rfl) h
  | lineReleaseTimeout _ => exact execLineReleaseTimeout_ok (hE.sub rfl) h
  | fsLineStart _ => exact execFsLineStart_ok (hE.sub rfl) h
  | fsLineWrite _ => exact execFsLineWrite_ok (hE.sub rfl) h
  | memoryPathStore _ => exact execMemoryPathStore_ok (hE.sub rfl) h
  | fsTblDataAccess _ _ => exact execFsTblDataAccess_ok (hE.sub rfl) h
  | fsTblCommit _ _ => exact execFsTblCommit_ok (hE.sub rfl) h
  | tableCopyDone _ => exact execTableCopyDone_ok (hE.sub rfl) h
  | tableInitDone _ => exact execTableInitDone_ok (hE.sub rfl) h
  | ffPeriodEnd _ => exact execFfPeriodEnd_ok (hE.sub rfl) h
  | ffComputeDone _ => exact execFfComputeDone_ok (hE.sub rfl) h
  | trackedGroupClose _ _ => exact execTrackedGroupClose_ok (hE.sub rfl) h
  | coreDispatch _ => exact execCoreDispatch_ok (hE.sub rfl) h
  | tnop _ => exact execTnop_ok (hE.sub rfl) h
  | tload _ => exact execTload_ok (hE.sub rfl) h
  | tstore _ => exact execTstore_ok (hE.sub rfl) h
  | tmm _ => exact execTmm_ok (hE.sub rfl) h
  | tconv _ => exact execTconv_ok (hE.sub rfl) h
  | tfuse _ => exact execTfuse_ok (hE.sub rfl) h
  | tmv _ => exact execTmv_ok (hE.sub rfl) h
  | tdw _ => exact execTdw_ok (hE.sub rfl) h
  | tvec _ => exact execTvec_ok (hE.sub rfl) h
  | tqnt _ => exact execTqnt_ok (hE.sub rfl) h
  | lookup _ => exact execLookup_ok (hE.sub rfl) h
  | update _ => exact execUpdate_ok (hE.sub rfl) h
  | stateLoad _ => exact execStateLoad_ok (hE.sub rfl) h
  | stateStore _ => exact execStateStore_ok (hE.sub rfl) h
  | tokenPut _ => exact execTokenPut_ok (hE.sub rfl) h
  | tokenGet _ => exact execTokenGet_ok (hE.sub rfl) h
  | tdet _ => exact execTdet_ok (hE.sub rfl) h
  | tdraw _ => exact execTdraw_ok (hE.sub rfl) h
  | tcommit _ => exact execTcommit_ok (hE.sub rfl) h
  | twait _ => exact execTwait_ok (hE.sub rfl) h
  | tsignal _ => exact execTsignal_ok (hE.sub rfl) h
  | syncWaitSatisfied _ => exact execSyncWaitSatisfied_ok (hE.sub rfl) h
  | phaseChange _ => exact execPhaseChange_ok (hE.sub rfl) h
  | opeDrainDone _ _ _ _ => exact execOpeDrainDone_ok (hE.sub rfl) h
  | tileFinish _ => exact execTileFinish_ok (hE.sub rfl) h
  | coreParkWrite _ _ => exact execCoreParkWrite_ok (hE.sub rfl) h
  | freqTargetWrite _ _ => exact execFreqTargetWrite_ok (hE.sub rfl) h
  | clockGlideStep _ => exact execClockGlideStep_ok (hE.sub rfl) h
  | sandFillStep _ _ _ => exact execSandFillStep_ok (hE.sub rfl) h
  | coreTmDataAccess _ _ => exact execCoreTmDataAccess_ok (hE.sub rfl) h
  | leaseExpiry _ => exact execLeaseExpiry_ok (hE.sub rfl) h
  | detSuppress _ => exact execDetSuppress_ok (hE.sub rfl) h
  | ctxEffectsApply => exact execCtxEffectsApply_ok (hE.sub rfl) h
  | tokenSend _ => exact execTokenSend_ok (hE.sub rfl) h
  | ctxClearWrite _ => exact execCtxClearWrite_ok (hE.sub rfl) h
  | ctxClearDone => exact execCtxClearDone_ok (hE.sub rfl) h
  | dramRefresh a b => exact execDramRefresh_ok (_channel := a) (_bank := b) (hE.sub rfl) h
  | dramScrubRead _ _ => exact execDramScrubRead_ok (hE.sub rfl) h
  | fetchFillStart _ _ => exact execFetchFillStart_ok (hE.sub rfl) h
  | fetchFillDone _ _ => exact execFetchFillDone_ok (hE.sub rfl) h
  | spillStart _ _ => exact execSpillStart_ok (hE.sub rfl) h
  | spillDone _ _ => exact execSpillDone_ok (hE.sub rfl) h
  | streamRunahead _ => exact execStreamRunahead_ok (hE.sub rfl) h
  | mcastDeliveryStart _ => exact execMcastDeliveryStart_ok (hE.sub rfl) h
  | mcastCutout _ _ => exact execMcastCutout_ok (hE.sub rfl) h
  | landingCopy _ => exact execLandingCopy_ok (hE.sub rfl) h
  | extensionRefill _ => exact execExtensionRefill_ok (hE.sub rfl) h
  | resultRecordWrite _ => exact execResultRecordWrite_ok (hE.sub rfl) h
  | spoolCopy _ => exact execSpoolCopy_ok (hE.sub rfl) h
  | streamCopyGo _ => exact execStreamCopyGo_ok (hE.sub rfl) h
  | copyDone _ => exact execCopyDone_ok (hE.sub rfl) h
  | oasisQpowerWrite _ => exact execOasisQpowerWrite_ok (hE.sub rfl) h
  | cqPiWrite _ _ => exact execCqPiWrite_ok (hE.sub rfl) h
  | commandRead _ => exact execCommandRead_ok (hE.sub rfl) h
  | jobStart _ => exact execJobStart_ok (hE.sub rfl) h
  | copyCommand _ => exact execCopyCommand_ok (hE.sub rfl) h
  | signalCommand _ => exact execSignalCommand_ok (hE.sub rfl) h
  | waitCommand _ => exact execWaitCommand_ok (hE.sub rfl) h
  | jobComplete _ => exact execJobComplete_ok (hE.sub rfl) h
  | completionRecordWrite _ => exact execCompletionRecordWrite_ok (hE.sub rfl) h
  | ringCiWrite _ _ => exact execRingCiWrite_ok (hE.sub rfl) h
  | ringSlotsWrite _ _ => exact execRingSlotsWrite_ok (hE.sub rfl) h
  | eventRecordWrite => exact execEventRecordWrite_ok (hE.sub rfl) h
  | cmdAbort _ => exact execCmdAbort_ok (hE.sub rfl) h
  | cmdSyncValueWrite _ => exact execCmdSyncValueWrite_ok (hE.sub rfl) h
  | cmdSyncAdd _ => exact execCmdSyncAdd_ok (hE.sub rfl) h
  | cqRestart _ => exact execCqRestart_ok (hE.sub rfl) h
  | linkLanesLocked _ _ => exact execLinkLanesLocked_ok (hE.sub rfl) h
  | linkDeskewDone _ => exact execLinkDeskewDone_ok (hE.sub rfl) h
  | trainingMessageSend _ => exact execTrainingMessageSend_ok (hE.sub rfl) h
  | trainingMessageRx _ _ => exact execTrainingMessageRx_ok (hE.sub rfl) h
  | linkTrainTimeout _ => exact execLinkTrainTimeout_ok (hE.sub rfl) h
  | linkFailedExpiry _ => exact execLinkFailedExpiry_ok (hE.sub rfl) h
  | linkRetrainTimeout _ => exact execLinkRetrainTimeout_ok (hE.sub rfl) h
  | laneFault _ _ => exact execLaneFault_ok (hE.sub rfl) h
  | linkCtrlRetrain _ _ => exact execLinkCtrlRetrain_ok (hE.sub rfl) h
  | flitReceive _ _ => exact execFlitReceive_ok (hE.sub rfl) h
  | flitTransmit _ => exact execFlitTransmit_ok (hE.sub rfl) h
  | replayTimeout _ => exact execReplayTimeout_ok (hE.sub rfl) h
  | replayProgressTimeout _ => exact execReplayProgressTimeout_ok (hE.sub rfl) h
  | haloMsgRx _ => exact execHaloMsgRx_ok (hE.sub rfl) h
  | ctxedgeMsgRx _ => exact execCtxedgeMsgRx_ok (hE.sub rfl) h
  | tokensMsgRx _ => exact execTokensMsgRx_ok (hE.sub rfl) h
  | boxesMsgRx _ => exact execBoxesMsgRx_ok (hE.sub rfl) h
  | barrierMsgRx _ => exact execBarrierMsgRx_ok (hE.sub rfl) h
  | chainMsgRx _ => exact execChainMsgRx_ok (hE.sub rfl) h
  | chainMsgSend _ => exact execChainMsgSend_ok (hE.sub rfl) h
  | pingSend _ => exact execPingSend_ok (hE.sub rfl) h
  | pingRx _ => exact execPingRx_ok (hE.sub rfl) h
  | pongRx _ => exact execPongRx_ok (hE.sub rfl) h
  | caravanPortLinkChange _ => exact execCaravanPortLinkChange_ok (hE.sub rfl) h
  | caravanFrameForward _ _ => exact execCaravanFrameForward_ok (hE.sub rfl) h
  | caravanFrameProcess _ _ => exact execCaravanFrameProcess_ok (hE.sub rfl) h
  | crvSlowRequestDone _ => exact execCrvSlowRequestDone_ok (hE.sub rfl) h
  | crvTicketExpiry _ => exact execCrvTicketExpiry_ok (hE.sub rfl) h
  | crvWatchdogExpiry => exact execCrvWatchdogExpiry_ok (hE.sub rfl) h
  | bar4Write _ _ _ => exact execBar4Write_ok (hE.sub rfl) h
  | mbRead => exact execMbRead_ok (hE.sub rfl) h
  | mbWrite _ => exact execMbWrite_ok (hE.sub rfl) h
  | mbWriteAt _ => exact execMbWriteAt_ok (hE.sub rfl) h
  | mbCancelAt => exact execMbCancelAt_ok (hE.sub rfl) h
  | mbDescribe => exact execMbDescribe_ok (hE.sub rfl) h
  | armedEntry => exact execArmedEntry_ok (hE.sub rfl) h
  | runEntry => exact execRunEntry_ok (hE.sub rfl) h
  | holdEntry => exact execHoldEntry_ok (hE.sub rfl) h
  | holdExit => exact execHoldExit_ok (hE.sub rfl) h
  | preopEntry => exact execPreopEntry_ok (hE.sub rfl) h
  | safeEntry _ => exact execSafeEntry_ok (hE.sub rfl) h
  | powerOnReset => exact execPowerOnReset_ok (hE.sub rfl) h
  | perstAssert => exact execPerstAssert_ok (hE.sub rfl) h
  | resetEnd => exact execResetEnd_ok (hE.sub rfl) h
  | dramInitDone _ => exact execDramInitDone_ok (hE.sub rfl) h
  | authEnd => exact execAuthEnd_ok (hE.sub rfl) h
  | bootWatchdogExpiry => exact execBootWatchdogExpiry_ok (hE.sub rfl) h
  | configRequest _ => exact execConfigRequest_ok (hE.sub rfl) h
  | pcieLinkChange _ _ _ => exact execPcieLinkChange_ok (hE.sub rfl) h
  | functionLevelReset => exact execFunctionLevelReset_ok (hE.sub rfl) h
  | hotReset => exact execHotReset_ok (hE.sub rfl) h
  | glbResetWrite _ => exact execGlbResetWrite_ok (hE.sub rfl) h
  | d3hotEntry => exact execD3hotEntry_ok (hE.sub rfl) h
  | busMasterChange _ => exact execBusMasterChange_ok (hE.sub rfl) h
  | bar0BadAccess _ => exact execBar0BadAccess_ok (hE.sub rfl) h
  | oasisWindowAccess _ _ _ => exact execOasisWindowAccess_ok (hE.sub rfl) h
  | msixUnmask _ => exact execMsixUnmask_ok (hE.sub rfl) h
  | irqHoldoffExpiry _ => exact execIrqHoldoffExpiry_ok (hE.sub rfl) h
  | hostAccessError _ _ _ => exact execHostAccessError_ok (hE.sub rfl) h
  | ptmDialogueStart => exact execPtmDialogueStart_ok (hE.sub rfl) h
  | ptmDialogueDone _ _ => exact execPtmDialogueDone_ok (hE.sub rfl) h
  | ptmDialogueFail => exact execPtmDialogueFail_ok (hE.sub rfl) h
  | trimCmdMakeDue _ => exact execTrimCmdMakeDue_ok (hE.sub rfl) h
  | trimCmdForce _ => exact execTrimCmdForce_ok (hE.sub rfl) h
  | trimRotationDue => exact execTrimRotationDue_ok (hE.sub rfl) h
  | d2dErrorThreshold _ => exact execD2dErrorThreshold_ok (hE.sub rfl) h
  | trimItemStart => exact execTrimItemStart_ok (hE.sub rfl) h
  | trimItemDone _ _ _ _ => exact execTrimItemDone_ok (hE.sub rfl) h
  | trimOverdue _ _ => exact execTrimOverdue_ok (hE.sub rfl) h
  | telemetrySample _ => exact execTelemetrySample_ok (hE.sub rfl) h
  | supplyWarning _ => exact execSupplyWarning_ok (hE.sub rfl) h
  | stretchEnd _ => exact execStretchEnd_ok (hE.sub rfl) h
  | warningClear _ _ => exact execWarningClear_ok (hE.sub rfl) h
  | vddResetLevel _ => exact execVddResetLevel_ok (hE.sub rfl) h
  | railMonitorFall _ => exact execRailMonitorFall_ok (hE.sub rfl) h
  | avsTargetChange _ => exact execAvsTargetChange_ok (hE.sub rfl) h
  | avsTargetReached => exact execAvsTargetReached_ok (hE.sub rfl) h
  | avsTimeout _ => exact execAvsTimeout_ok (hE.sub rfl) h
  | powerEstimate _ => exact execPowerEstimate_ok (hE.sub rfl) h
  | sustainedCapStep _ => exact execSustainedCapStep_ok (hE.sub rfl) h
  | thermalSample _ _ => exact execThermalSample_ok (hE.sub rfl) h
  | thermalCapStep => exact execThermalCapStep_ok (hE.sub rfl) h
  | sysRefclkLoss => exact execSysRefclkLoss_ok (hE.sub rfl) h
  | safVerify _ => exact execSafVerify_ok (hE.sub rfl) h
  | safProgram _ => exact execSafProgram_ok (hE.sub rfl) h
  | safSetBoot _ => exact execSafSetBoot_ok (hE.sub rfl) h
  | safReboot _ => exact execSafReboot_ok (hE.sub rfl) h
  | safCommitVersion _ => exact execSafCommitVersion_ok (hE.sub rfl) h
  | safRevoke _ => exact execSafRevoke_ok (hE.sub rfl) h
  | safAttest _ => exact execSafAttest_ok (hE.sub rfl) h
  | safOpDone _ => exact execSafOpDone_ok (hE.sub rfl) h
  | attestationDone => exact execAttestationDone_ok (hE.sub rfl) h
  | integrityCheck _ => exact execIntegrityCheck_ok (hE.sub rfl) h
  | integrityResetTimeout => exact execIntegrityResetTimeout_ok (hE.sub rfl) h
  | ledgerSpillCopy => exact execLedgerSpillCopy_ok (hE.sub rfl) h
  | ledgerSpillCiWrite _ => exact execLedgerSpillCiWrite_ok (hE.sub rfl) h
  | ledgerReadSeqWrite _ => exact execLedgerReadSeqWrite_ok (hE.sub rfl) h
  | genericRegisterWrite _ _ => exact execGenericRegisterWrite_ok (hE.sub rfl) h
  | registerReadClear _ => exact execRegisterReadClear_ok (hE.sub rfl) h
  | pwrGoodFall => exact execPwrGoodFall_ok (hE.sub rfl) h
  | authBegin => exact execAuthBegin_ok (hE.sub rfl) h
  | caravanForwardingBegin => exact execCaravanForwardingBegin_ok (hE.sub rfl) h
  | d3hotToD0 => exact execD3hotToD0_ok (hE.sub rfl) h
  | ptmEnableChange _ => exact execPtmEnableChange_ok (hE.sub rfl) h
  | bar4Read _ _ => exact execBar4Read_ok (hE.sub rfl) h
  | lowWordRead _ => exact execLowWordRead_ok (hE.sub rfl) h

end Sys2Proof.Machine
end

