-- ==== Sys2Proof/Laws/Frame.lean ====
section
/-! SUPPORT. Frames: the predicate 'no part outside a list has changed' is one that every operation keeps whose own parts are in the list. -/

namespace Sys2Proof.Machine

/-- A part that is the same from s to t and from t to u is the same from s to u. -/
theorem Part.same_trans {p : Part} {s t u : State} (h : p.same s t) (k : p.same t u) : p.same s u := by
  cases p <;> simp_all [Part.same]

/-- Every part of a state is the same as itself. -/
theorem Part.same_refl (p : Part) (s : State) : p.same s s := by
  cases p <;> simp [Part.same]

/-- A change of one part only leaves every other part. -/
theorem Part.frame {l : List Part} {q : Part} (hq : q ∈ l) {s t u : State} (h : ∀ p, p ∈ l ∨ p.same s t)
    (k : ∀ p, p ≠ q → p.same t u) (p : Part) : p ∈ l ∨ p.same s u := by
  by_cases e : p = q
  · exact Or.inl (e ▸ hq)
  · exact (h p).imp_right fun x => Part.same_trans x (k p e)

/-- The queue and every part outside `l` are as in s. -/
def frameInv (s : State) (l : List Part) : Inv where
  P t := t.pending = s.pending ∧ ∀ p, p ∈ l ∨ p.same s t
  parts := l
  upd t u hp hu h := ⟨hp.trans h.1, fun p => (hu p).elim (fun k => (h.2 p).imp_right fun x => Part.same_trans x k) fun k => Or.inl k.1⟩
  setReg hq t o v h := ⟨h.1, Part.frame hq h.2 fun p e => by
    clear h; cases p <;> first
      | exact absurd rfl e | exact rfl | exact ⟨rfl, rfl⟩ | exact ⟨rfl, rfl, rfl⟩ | exact ⟨rfl, rfl, rfl, rfl⟩ | exact ⟨rfl, rfl, rfl, rfl, rfl⟩ | exact ⟨rfl, rfl, rfl, rfl, rfl, rfl⟩
      | exact ⟨rfl, rfl, rfl, rfl, rfl, rfl, rfl⟩ | exact ⟨rfl, rfl, rfl, rfl, rfl, rfl, rfl, rfl, rfl⟩
      | exact ⟨rfl, rfl, rfl, rfl, rfl, rfl, rfl, rfl, rfl, rfl, rfl, rfl, rfl, rfl⟩⟩
  setOd hq t o v h := ⟨h.1, Part.frame hq h.2 fun p e => by
    clear h; cases p <;> first
      | exact absurd rfl e | exact rfl | exact ⟨rfl, rfl⟩ | exact ⟨rfl, rfl, rfl⟩ | exact ⟨rfl, rfl, rfl, rfl⟩ | exact ⟨rfl, rfl, rfl, rfl, rfl⟩ | exact ⟨rfl, rfl, rfl, rfl, rfl, rfl⟩
      | exact ⟨rfl, rfl, rfl, rfl, rfl, rfl, rfl⟩ | exact ⟨rfl, rfl, rfl, rfl, rfl, rfl, rfl, rfl, rfl⟩
      | exact ⟨rfl, rfl, rfl, rfl, rfl, rfl, rfl, rfl, rfl, rfl, rfl, rfl, rfl, rfl⟩⟩
  setBlob hq t o v h := ⟨h.1, Part.frame hq h.2 fun p e => by
    clear h; cases p <;> first
      | exact absurd rfl e | exact rfl | exact ⟨rfl, rfl⟩ | exact ⟨rfl, rfl, rfl⟩ | exact ⟨rfl, rfl, rfl, rfl⟩ | exact ⟨rfl, rfl, rfl, rfl, rfl⟩ | exact ⟨rfl, rfl, rfl, rfl, rfl, rfl⟩
      | exact ⟨rfl, rfl, rfl, rfl, rfl, rfl, rfl⟩ | exact ⟨rfl, rfl, rfl, rfl, rfl, rfl, rfl, rfl, rfl⟩
      | exact ⟨rfl, rfl, rfl, rfl, rfl, rfl, rfl, rfl, rfl, rfl, rfl, rfl, rfl, rfl⟩⟩
  hostWrite hq t a b h := ⟨h.1, Part.frame hq h.2 fun p e => by
    clear h; cases p <;> first
      | exact absurd rfl e | exact rfl | exact ⟨rfl, rfl⟩ | exact ⟨rfl, rfl, rfl⟩ | exact ⟨rfl, rfl, rfl, rfl⟩ | exact ⟨rfl, rfl, rfl, rfl, rfl⟩ | exact ⟨rfl, rfl, rfl, rfl, rfl, rfl⟩
      | exact ⟨rfl, rfl, rfl, rfl, rfl, rfl, rfl⟩ | exact ⟨rfl, rfl, rfl, rfl, rfl, rfl, rfl, rfl, rfl⟩
      | exact ⟨rfl, rfl, rfl, rfl, rfl, rfl, rfl, rfl, rfl, rfl, rfl, rfl, rfl, rfl⟩⟩
  dramWrite hq t a b h := ⟨h.1, Part.frame hq h.2 fun p e => by
    clear h; cases p <;> first
      | exact absurd rfl e | exact rfl | exact ⟨rfl, rfl⟩ | exact ⟨rfl, rfl, rfl⟩ | exact ⟨rfl, rfl, rfl, rfl⟩ | exact ⟨rfl, rfl, rfl, rfl, rfl⟩ | exact ⟨rfl, rfl, rfl, rfl, rfl, rfl⟩
      | exact ⟨rfl, rfl, rfl, rfl, rfl, rfl, rfl⟩ | exact ⟨rfl, rfl, rfl, rfl, rfl, rfl, rfl, rfl, rfl⟩
      | exact ⟨rfl, rfl, rfl, rfl, rfl, rfl, rfl, rfl, rfl, rfl, rfl, rfl, rfl, rfl⟩⟩
  dramFill hq t lo hi mid _ _ _ h := ⟨h.1, Part.frame hq h.2 fun p e => by
    clear h; cases p <;> first
      | exact absurd rfl e | exact rfl | exact ⟨rfl, rfl⟩ | exact ⟨rfl, rfl, rfl⟩ | exact ⟨rfl, rfl, rfl, rfl⟩ | exact ⟨rfl, rfl, rfl, rfl, rfl⟩ | exact ⟨rfl, rfl, rfl, rfl, rfl, rfl⟩
      | exact ⟨rfl, rfl, rfl, rfl, rfl, rfl, rfl⟩ | exact ⟨rfl, rfl, rfl, rfl, rfl, rfl, rfl, rfl, rfl⟩
      | exact ⟨rfl, rfl, rfl, rfl, rfl, rfl, rfl, rfl, rfl, rfl, rfl, rfl, rfl, rfl⟩⟩
  oasisByte hq t a b h := ⟨h.1, Part.frame hq h.2 fun p e => by
    clear h; cases p <;> first
      | exact absurd rfl e | exact rfl | exact ⟨rfl, rfl⟩ | exact ⟨rfl, rfl, rfl⟩ | exact ⟨rfl, rfl, rfl, rfl⟩ | exact ⟨rfl, rfl, rfl, rfl, rfl⟩ | exact ⟨rfl, rfl, rfl, rfl, rfl, rfl⟩
      | exact ⟨rfl, rfl, rfl, rfl, rfl, rfl, rfl⟩ | exact ⟨rfl, rfl, rfl, rfl, rfl, rfl, rfl, rfl, rfl⟩
      | exact ⟨rfl, rfl, rfl, rfl, rfl, rfl, rfl, rfl, rfl, rfl, rfl, rfl, rfl, rfl⟩⟩
  flashWrite hq t a b h := ⟨h.1, Part.frame hq h.2 fun p e => by
    clear h; cases p <;> first
      | exact absurd rfl e | exact rfl | exact ⟨rfl, rfl⟩ | exact ⟨rfl, rfl, rfl⟩ | exact ⟨rfl, rfl, rfl, rfl⟩ | exact ⟨rfl, rfl, rfl, rfl, rfl⟩ | exact ⟨rfl, rfl, rfl, rfl, rfl, rfl⟩
      | exact ⟨rfl, rfl, rfl, rfl, rfl, rfl, rfl⟩ | exact ⟨rfl, rfl, rfl, rfl, rfl, rfl, rfl, rfl, rfl⟩
      | exact ⟨rfl, rfl, rfl, rfl, rfl, rfl, rfl, rfl, rfl, rfl, rfl, rfl, rfl, rfl⟩⟩
  link hq hr t g n prev _ _ _ _ h := ⟨h.1, fun p => by
    by_cases e : p = .chain
    · exact Or.inl (e ▸ hq)
    · by_cases e' : p = .ledger
      · exact Or.inl (e' ▸ hr)
      · refine (h.2 p).imp_right fun x => Part.same_trans x ?_
        clear h x
        cases p <;> first
          | exact absurd rfl e | exact absurd rfl e' | exact rfl | exact ⟨rfl, rfl⟩ | exact ⟨rfl, rfl, rfl⟩ | exact ⟨rfl, rfl, rfl, rfl⟩ | exact ⟨rfl, rfl, rfl, rfl, rfl⟩ | exact ⟨rfl, rfl, rfl, rfl, rfl, rfl⟩
          | exact ⟨rfl, rfl, rfl, rfl, rfl, rfl, rfl⟩ | exact ⟨rfl, rfl, rfl, rfl, rfl, rfl, rfl, rfl, rfl⟩
          | exact ⟨rfl, rfl, rfl, rfl, rfl, rfl, rfl, rfl, rfl, rfl, rfl, rfl, rfl, rfl⟩⟩

theorem frameInv_self (s : State) (l : List Part) : (frameInv s l).P s := ⟨rfl, fun p => Or.inr (p.same_refl s)⟩

end Sys2Proof.Machine
end

