-- ==== Sys2Proof/Laws/State.lean ====
section
/-! SUPPORT. Each field of the state after each update of it: true by computation, so that no proof unfolds a record update. -/

namespace Sys2Proof.Machine

variable (s : State)

@[simp] theorem State.setReg_dt (o v : Nat) : (s.setReg o v).dt = s.dt := rfl
@[simp] theorem State.setReg_dev (o v : Nat) : (s.setReg o v).dev = s.dev := rfl
@[simp] theorem State.setReg_web (o v : Nat) : (s.setReg o v).web = s.web := rfl
@[simp] theorem State.setReg_ports (o v : Nat) : (s.setReg o v).ports = s.ports := rfl
@[simp] theorem State.setReg_fsPorts (o v : Nat) : (s.setReg o v).fsPorts = s.fsPorts := rfl
@[simp] theorem State.setReg_slices (o v : Nat) : (s.setReg o v).slices = s.slices := rfl
@[simp] theorem State.setReg_tensors (o v : Nat) : (s.setReg o v).tensors = s.tensors := rfl
@[simp] theorem State.setReg_cores (o v : Nat) : (s.setReg o v).cores = s.cores := rfl
@[simp] theorem State.setReg_cmd (o v : Nat) : (s.setReg o v).cmd = s.cmd := rfl
@[simp] theorem State.setReg_ctx (o v : Nat) : (s.setReg o v).ctx = s.ctx := rfl
@[simp] theorem State.setReg_det (o v : Nat) : (s.setReg o v).det = s.det := rfl
@[simp] theorem State.setReg_links (o v : Nat) : (s.setReg o v).links = s.links := rfl
@[simp] theorem State.setReg_trim (o v : Nat) : (s.setReg o v).trim = s.trim := rfl
@[simp] theorem State.setReg_regs (o v : Nat) : (s.setReg o v).regs = s.regs.set (regDefault o) o v := rfl
@[simp] theorem State.setReg_dict (o v : Nat) : (s.setReg o v).dict = s.dict := rfl
@[simp] theorem State.setReg_blobs (o v : Nat) : (s.setReg o v).blobs = s.blobs := rfl
@[simp] theorem State.setReg_doors (o v : Nat) : (s.setReg o v).doors = s.doors := rfl
@[simp] theorem State.setReg_pcie (o v : Nat) : (s.setReg o v).pcie = s.pcie := rfl
@[simp] theorem State.setReg_crv (o v : Nat) : (s.setReg o v).crv = s.crv := rfl
@[simp] theorem State.setReg_ledger (o v : Nat) : (s.setReg o v).ledger = s.ledger := rfl
@[simp] theorem State.setReg_saf (o v : Nat) : (s.setReg o v).saf = s.saf := rfl
@[simp] theorem State.setReg_pwr (o v : Nat) : (s.setReg o v).pwr = s.pwr := rfl
@[simp] theorem State.setReg_hostMem (o v : Nat) : (s.setReg o v).hostMem = s.hostMem := rfl
@[simp] theorem State.setReg_dram (o v : Nat) : (s.setReg o v).dram = s.dram := rfl
@[simp] theorem State.setReg_oasis (o v : Nat) : (s.setReg o v).oasis = s.oasis := rfl
@[simp] theorem State.setReg_dramPoison (o v : Nat) : (s.setReg o v).dramPoison = s.dramPoison := rfl
@[simp] theorem State.setReg_oasisPoison (o v : Nat) : (s.setReg o v).oasisPoison = s.oasisPoison := rfl
@[simp] theorem State.setReg_dramSingle (o v : Nat) : (s.setReg o v).dramSingle = s.dramSingle := rfl
@[simp] theorem State.setReg_oasisSingle (o v : Nat) : (s.setReg o v).oasisSingle = s.oasisSingle := rfl
@[simp] theorem State.setReg_events (o v : Nat) : (s.setReg o v).events = s.events := rfl
@[simp] theorem State.setReg_out (o v : Nat) : (s.setReg o v).out = s.out := rfl
@[simp] theorem State.setReg_memEpoch (o v : Nat) : (s.setReg o v).memEpoch = s.memEpoch := rfl
@[simp] theorem State.setReg_freeCtr (o v : Nat) : (s.setReg o v).freeCtr = s.freeCtr := rfl
@[simp] theorem State.setReg_pending (o v : Nat) : (s.setReg o v).pending = s.pending := rfl
@[simp] theorem State.setReg_od (o v : Nat) (x : Nat) : (s.setReg o v).od x = s.od x := rfl
@[simp] theorem State.setReg_odFlag (o v : Nat) (x : Nat) : (s.setReg o v).odFlag x = s.odFlag x := rfl
@[simp] theorem State.setReg_blob (o v : Nat) (x : Nat) : (s.setReg o v).blob x = s.blob x := rfl
@[simp] theorem State.setReg_port (o v : Nat) (x : PortIx) : (s.setReg o v).port x = s.port x := rfl
@[simp] theorem State.setReg_fsPort (o v : Nat) (x : PortIx) : (s.setReg o v).fsPort x = s.fsPort x := rfl
@[simp] theorem State.setReg_slice (o v : Nat) (x : SliceIx) : (s.setReg o v).slice x = s.slice x := rfl
@[simp] theorem State.setReg_core (o v : Nat) (x : CoreIx) : (s.setReg o v).core x = s.core x := rfl
@[simp] theorem State.setReg_link (o v : Nat) (x : LinkIx) : (s.setReg o v).link x = s.link x := rfl

@[simp] theorem State.count32_dt (o n : Nat) : (s.count32 o n).dt = s.dt := rfl
@[simp] theorem State.count32_dev (o n : Nat) : (s.count32 o n).dev = s.dev := rfl
@[simp] theorem State.count32_web (o n : Nat) : (s.count32 o n).web = s.web := rfl
@[simp] theorem State.count32_ports (o n : Nat) : (s.count32 o n).ports = s.ports := rfl
@[simp] theorem State.count32_fsPorts (o n : Nat) : (s.count32 o n).fsPorts = s.fsPorts := rfl
@[simp] theorem State.count32_slices (o n : Nat) : (s.count32 o n).slices = s.slices := rfl
@[simp] theorem State.count32_tensors (o n : Nat) : (s.count32 o n).tensors = s.tensors := rfl
@[simp] theorem State.count32_cores (o n : Nat) : (s.count32 o n).cores = s.cores := rfl
@[simp] theorem State.count32_cmd (o n : Nat) : (s.count32 o n).cmd = s.cmd := rfl
@[simp] theorem State.count32_ctx (o n : Nat) : (s.count32 o n).ctx = s.ctx := rfl
@[simp] theorem State.count32_det (o n : Nat) : (s.count32 o n).det = s.det := rfl
@[simp] theorem State.count32_links (o n : Nat) : (s.count32 o n).links = s.links := rfl
@[simp] theorem State.count32_trim (o n : Nat) : (s.count32 o n).trim = s.trim := rfl
@[simp] theorem State.count32_dict (o n : Nat) : (s.count32 o n).dict = s.dict := rfl
@[simp] theorem State.count32_blobs (o n : Nat) : (s.count32 o n).blobs = s.blobs := rfl
@[simp] theorem State.count32_doors (o n : Nat) : (s.count32 o n).doors = s.doors := rfl
@[simp] theorem State.count32_pcie (o n : Nat) : (s.count32 o n).pcie = s.pcie := rfl
@[simp] theorem State.count32_crv (o n : Nat) : (s.count32 o n).crv = s.crv := rfl
@[simp] theorem State.count32_ledger (o n : Nat) : (s.count32 o n).ledger = s.ledger := rfl
@[simp] theorem State.count32_saf (o n : Nat) : (s.count32 o n).saf = s.saf := rfl
@[simp] theorem State.count32_pwr (o n : Nat) : (s.count32 o n).pwr = s.pwr := rfl
@[simp] theorem State.count32_hostMem (o n : Nat) : (s.count32 o n).hostMem = s.hostMem := rfl
@[simp] theorem State.count32_dram (o n : Nat) : (s.count32 o n).dram = s.dram := rfl
@[simp] theorem State.count32_oasis (o n : Nat) : (s.count32 o n).oasis = s.oasis := rfl
@[simp] theorem State.count32_dramPoison (o n : Nat) : (s.count32 o n).dramPoison = s.dramPoison := rfl
@[simp] theorem State.count32_oasisPoison (o n : Nat) : (s.count32 o n).oasisPoison = s.oasisPoison := rfl
@[simp] theorem State.count32_dramSingle (o n : Nat) : (s.count32 o n).dramSingle = s.dramSingle := rfl
@[simp] theorem State.count32_oasisSingle (o n : Nat) : (s.count32 o n).oasisSingle = s.oasisSingle := rfl
@[simp] theorem State.count32_events (o n : Nat) : (s.count32 o n).events = s.events := rfl
@[simp] theorem State.count32_out (o n : Nat) : (s.count32 o n).out = s.out := rfl
@[simp] theorem State.count32_memEpoch (o n : Nat) : (s.count32 o n).memEpoch = s.memEpoch := rfl
@[simp] theorem State.count32_freeCtr (o n : Nat) : (s.count32 o n).freeCtr = s.freeCtr := rfl
@[simp] theorem State.count32_pending (o n : Nat) : (s.count32 o n).pending = s.pending := rfl
@[simp] theorem State.count32_od (o n : Nat) (x : Nat) : (s.count32 o n).od x = s.od x := rfl
@[simp] theorem State.count32_odFlag (o n : Nat) (x : Nat) : (s.count32 o n).odFlag x = s.odFlag x := rfl
@[simp] theorem State.count32_blob (o n : Nat) (x : Nat) : (s.count32 o n).blob x = s.blob x := rfl
@[simp] theorem State.count32_port (o n : Nat) (x : PortIx) : (s.count32 o n).port x = s.port x := rfl
@[simp] theorem State.count32_fsPort (o n : Nat) (x : PortIx) : (s.count32 o n).fsPort x = s.fsPort x := rfl
@[simp] theorem State.count32_slice (o n : Nat) (x : SliceIx) : (s.count32 o n).slice x = s.slice x := rfl
@[simp] theorem State.count32_core (o n : Nat) (x : CoreIx) : (s.count32 o n).core x = s.core x := rfl
@[simp] theorem State.count32_link (o n : Nat) (x : LinkIx) : (s.count32 o n).link x = s.link x := rfl

@[simp] theorem State.count64_dt (o n : Nat) : (s.count64 o n).dt = s.dt := rfl
@[simp] theorem State.count64_dev (o n : Nat) : (s.count64 o n).dev = s.dev := rfl
@[simp] theorem State.count64_web (o n : Nat) : (s.count64 o n).web = s.web := rfl
@[simp] theorem State.count64_ports (o n : Nat) : (s.count64 o n).ports = s.ports := rfl
@[simp] theorem State.count64_fsPorts (o n : Nat) : (s.count64 o n).fsPorts = s.fsPorts := rfl
@[simp] theorem State.count64_slices (o n : Nat) : (s.count64 o n).slices = s.slices := rfl
@[simp] theorem State.count64_tensors (o n : Nat) : (s.count64 o n).tensors = s.tensors := rfl
@[simp] theorem State.count64_cores (o n : Nat) : (s.count64 o n).cores = s.cores := rfl
@[simp] theorem State.count64_cmd (o n : Nat) : (s.count64 o n).cmd = s.cmd := rfl
@[simp] theorem State.count64_ctx (o n : Nat) : (s.count64 o n).ctx = s.ctx := rfl
@[simp] theorem State.count64_det (o n : Nat) : (s.count64 o n).det = s.det := rfl
@[simp] theorem State.count64_links (o n : Nat) : (s.count64 o n).links = s.links := rfl
@[simp] theorem State.count64_trim (o n : Nat) : (s.count64 o n).trim = s.trim := rfl
@[simp] theorem State.count64_dict (o n : Nat) : (s.count64 o n).dict = s.dict := rfl
@[simp] theorem State.count64_blobs (o n : Nat) : (s.count64 o n).blobs = s.blobs := rfl
@[simp] theorem State.count64_doors (o n : Nat) : (s.count64 o n).doors = s.doors := rfl
@[simp] theorem State.count64_pcie (o n : Nat) : (s.count64 o n).pcie = s.pcie := rfl
@[simp] theorem State.count64_crv (o n : Nat) : (s.count64 o n).crv = s.crv := rfl
@[simp] theorem State.count64_ledger (o n : Nat) : (s.count64 o n).ledger = s.ledger := rfl
@[simp] theorem State.count64_saf (o n : Nat) : (s.count64 o n).saf = s.saf := rfl
@[simp] theorem State.count64_pwr (o n : Nat) : (s.count64 o n).pwr = s.pwr := rfl
@[simp] theorem State.count64_hostMem (o n : Nat) : (s.count64 o n).hostMem = s.hostMem := rfl
@[simp] theorem State.count64_dram (o n : Nat) : (s.count64 o n).dram = s.dram := rfl
@[simp] theorem State.count64_oasis (o n : Nat) : (s.count64 o n).oasis = s.oasis := rfl
@[simp] theorem State.count64_dramPoison (o n : Nat) : (s.count64 o n).dramPoison = s.dramPoison := rfl
@[simp] theorem State.count64_oasisPoison (o n : Nat) : (s.count64 o n).oasisPoison = s.oasisPoison := rfl
@[simp] theorem State.count64_dramSingle (o n : Nat) : (s.count64 o n).dramSingle = s.dramSingle := rfl
@[simp] theorem State.count64_oasisSingle (o n : Nat) : (s.count64 o n).oasisSingle = s.oasisSingle := rfl
@[simp] theorem State.count64_events (o n : Nat) : (s.count64 o n).events = s.events := rfl
@[simp] theorem State.count64_out (o n : Nat) : (s.count64 o n).out = s.out := rfl
@[simp] theorem State.count64_memEpoch (o n : Nat) : (s.count64 o n).memEpoch = s.memEpoch := rfl
@[simp] theorem State.count64_freeCtr (o n : Nat) : (s.count64 o n).freeCtr = s.freeCtr := rfl
@[simp] theorem State.count64_pending (o n : Nat) : (s.count64 o n).pending = s.pending := rfl
@[simp] theorem State.count64_od (o n : Nat) (x : Nat) : (s.count64 o n).od x = s.od x := rfl
@[simp] theorem State.count64_odFlag (o n : Nat) (x : Nat) : (s.count64 o n).odFlag x = s.odFlag x := rfl
@[simp] theorem State.count64_blob (o n : Nat) (x : Nat) : (s.count64 o n).blob x = s.blob x := rfl
@[simp] theorem State.count64_port (o n : Nat) (x : PortIx) : (s.count64 o n).port x = s.port x := rfl
@[simp] theorem State.count64_fsPort (o n : Nat) (x : PortIx) : (s.count64 o n).fsPort x = s.fsPort x := rfl
@[simp] theorem State.count64_slice (o n : Nat) (x : SliceIx) : (s.count64 o n).slice x = s.slice x := rfl
@[simp] theorem State.count64_core (o n : Nat) (x : CoreIx) : (s.count64 o n).core x = s.core x := rfl
@[simp] theorem State.count64_link (o n : Nat) (x : LinkIx) : (s.count64 o n).link x = s.link x := rfl

@[simp] theorem State.peak_dt (o v : Nat) : (s.peak o v).dt = s.dt := rfl
@[simp] theorem State.peak_dev (o v : Nat) : (s.peak o v).dev = s.dev := rfl
@[simp] theorem State.peak_web (o v : Nat) : (s.peak o v).web = s.web := rfl
@[simp] theorem State.peak_ports (o v : Nat) : (s.peak o v).ports = s.ports := rfl
@[simp] theorem State.peak_fsPorts (o v : Nat) : (s.peak o v).fsPorts = s.fsPorts := rfl
@[simp] theorem State.peak_slices (o v : Nat) : (s.peak o v).slices = s.slices := rfl
@[simp] theorem State.peak_tensors (o v : Nat) : (s.peak o v).tensors = s.tensors := rfl
@[simp] theorem State.peak_cores (o v : Nat) : (s.peak o v).cores = s.cores := rfl
@[simp] theorem State.peak_cmd (o v : Nat) : (s.peak o v).cmd = s.cmd := rfl
@[simp] theorem State.peak_ctx (o v : Nat) : (s.peak o v).ctx = s.ctx := rfl
@[simp] theorem State.peak_det (o v : Nat) : (s.peak o v).det = s.det := rfl
@[simp] theorem State.peak_links (o v : Nat) : (s.peak o v).links = s.links := rfl
@[simp] theorem State.peak_trim (o v : Nat) : (s.peak o v).trim = s.trim := rfl
@[simp] theorem State.peak_dict (o v : Nat) : (s.peak o v).dict = s.dict := rfl
@[simp] theorem State.peak_blobs (o v : Nat) : (s.peak o v).blobs = s.blobs := rfl
@[simp] theorem State.peak_doors (o v : Nat) : (s.peak o v).doors = s.doors := rfl
@[simp] theorem State.peak_pcie (o v : Nat) : (s.peak o v).pcie = s.pcie := rfl
@[simp] theorem State.peak_crv (o v : Nat) : (s.peak o v).crv = s.crv := rfl
@[simp] theorem State.peak_ledger (o v : Nat) : (s.peak o v).ledger = s.ledger := rfl
@[simp] theorem State.peak_saf (o v : Nat) : (s.peak o v).saf = s.saf := rfl
@[simp] theorem State.peak_pwr (o v : Nat) : (s.peak o v).pwr = s.pwr := rfl
@[simp] theorem State.peak_hostMem (o v : Nat) : (s.peak o v).hostMem = s.hostMem := rfl
@[simp] theorem State.peak_dram (o v : Nat) : (s.peak o v).dram = s.dram := rfl
@[simp] theorem State.peak_oasis (o v : Nat) : (s.peak o v).oasis = s.oasis := rfl
@[simp] theorem State.peak_dramPoison (o v : Nat) : (s.peak o v).dramPoison = s.dramPoison := rfl
@[simp] theorem State.peak_oasisPoison (o v : Nat) : (s.peak o v).oasisPoison = s.oasisPoison := rfl
@[simp] theorem State.peak_dramSingle (o v : Nat) : (s.peak o v).dramSingle = s.dramSingle := rfl
@[simp] theorem State.peak_oasisSingle (o v : Nat) : (s.peak o v).oasisSingle = s.oasisSingle := rfl
@[simp] theorem State.peak_events (o v : Nat) : (s.peak o v).events = s.events := rfl
@[simp] theorem State.peak_out (o v : Nat) : (s.peak o v).out = s.out := rfl
@[simp] theorem State.peak_memEpoch (o v : Nat) : (s.peak o v).memEpoch = s.memEpoch := rfl
@[simp] theorem State.peak_freeCtr (o v : Nat) : (s.peak o v).freeCtr = s.freeCtr := rfl
@[simp] theorem State.peak_pending (o v : Nat) : (s.peak o v).pending = s.pending := rfl
@[simp] theorem State.peak_od (o v : Nat) (x : Nat) : (s.peak o v).od x = s.od x := rfl
@[simp] theorem State.peak_odFlag (o v : Nat) (x : Nat) : (s.peak o v).odFlag x = s.odFlag x := rfl
@[simp] theorem State.peak_blob (o v : Nat) (x : Nat) : (s.peak o v).blob x = s.blob x := rfl
@[simp] theorem State.peak_port (o v : Nat) (x : PortIx) : (s.peak o v).port x = s.port x := rfl
@[simp] theorem State.peak_fsPort (o v : Nat) (x : PortIx) : (s.peak o v).fsPort x = s.fsPort x := rfl
@[simp] theorem State.peak_slice (o v : Nat) (x : SliceIx) : (s.peak o v).slice x = s.slice x := rfl
@[simp] theorem State.peak_core (o v : Nat) (x : CoreIx) : (s.peak o v).core x = s.core x := rfl
@[simp] theorem State.peak_link (o v : Nat) (x : LinkIx) : (s.peak o v).link x = s.link x := rfl

@[simp] theorem State.setOd_dt (k v : Nat) : (s.setOd k v).dt = s.dt := rfl
@[simp] theorem State.setOd_dev (k v : Nat) : (s.setOd k v).dev = s.dev := rfl
@[simp] theorem State.setOd_web (k v : Nat) : (s.setOd k v).web = s.web := rfl
@[simp] theorem State.setOd_ports (k v : Nat) : (s.setOd k v).ports = s.ports := rfl
@[simp] theorem State.setOd_fsPorts (k v : Nat) : (s.setOd k v).fsPorts = s.fsPorts := rfl
@[simp] theorem State.setOd_slices (k v : Nat) : (s.setOd k v).slices = s.slices := rfl
@[simp] theorem State.setOd_tensors (k v : Nat) : (s.setOd k v).tensors = s.tensors := rfl
@[simp] theorem State.setOd_cores (k v : Nat) : (s.setOd k v).cores = s.cores := rfl
@[simp] theorem State.setOd_cmd (k v : Nat) : (s.setOd k v).cmd = s.cmd := rfl
@[simp] theorem State.setOd_ctx (k v : Nat) : (s.setOd k v).ctx = s.ctx := rfl
@[simp] theorem State.setOd_det (k v : Nat) : (s.setOd k v).det = s.det := rfl
@[simp] theorem State.setOd_links (k v : Nat) : (s.setOd k v).links = s.links := rfl
@[simp] theorem State.setOd_trim (k v : Nat) : (s.setOd k v).trim = s.trim := rfl
@[simp] theorem State.setOd_regs (k v : Nat) : (s.setOd k v).regs = s.regs := rfl
@[simp] theorem State.setOd_dict (k v : Nat) : (s.setOd k v).dict = s.dict.set (odDefault k) k v := rfl
@[simp] theorem State.setOd_blobs (k v : Nat) : (s.setOd k v).blobs = s.blobs := rfl
@[simp] theorem State.setOd_doors (k v : Nat) : (s.setOd k v).doors = s.doors := rfl
@[simp] theorem State.setOd_pcie (k v : Nat) : (s.setOd k v).pcie = s.pcie := rfl
@[simp] theorem State.setOd_crv (k v : Nat) : (s.setOd k v).crv = s.crv := rfl
@[simp] theorem State.setOd_ledger (k v : Nat) : (s.setOd k v).ledger = s.ledger := rfl
@[simp] theorem State.setOd_saf (k v : Nat) : (s.setOd k v).saf = s.saf := rfl
@[simp] theorem State.setOd_pwr (k v : Nat) : (s.setOd k v).pwr = s.pwr := rfl
@[simp] theorem State.setOd_hostMem (k v : Nat) : (s.setOd k v).hostMem = s.hostMem := rfl
@[simp] theorem State.setOd_dram (k v : Nat) : (s.setOd k v).dram = s.dram := rfl
@[simp] theorem State.setOd_oasis (k v : Nat) : (s.setOd k v).oasis = s.oasis := rfl
@[simp] theorem State.setOd_dramPoison (k v : Nat) : (s.setOd k v).dramPoison = s.dramPoison := rfl
@[simp] theorem State.setOd_oasisPoison (k v : Nat) : (s.setOd k v).oasisPoison = s.oasisPoison := rfl
@[simp] theorem State.setOd_dramSingle (k v : Nat) : (s.setOd k v).dramSingle = s.dramSingle := rfl
@[simp] theorem State.setOd_oasisSingle (k v : Nat) : (s.setOd k v).oasisSingle = s.oasisSingle := rfl
@[simp] theorem State.setOd_events (k v : Nat) : (s.setOd k v).events = s.events := rfl
@[simp] theorem State.setOd_out (k v : Nat) : (s.setOd k v).out = s.out := rfl
@[simp] theorem State.setOd_memEpoch (k v : Nat) : (s.setOd k v).memEpoch = s.memEpoch := rfl
@[simp] theorem State.setOd_freeCtr (k v : Nat) : (s.setOd k v).freeCtr = s.freeCtr := rfl
@[simp] theorem State.setOd_pending (k v : Nat) : (s.setOd k v).pending = s.pending := rfl
@[simp] theorem State.setOd_reg (k v : Nat) (x : Nat) : (s.setOd k v).reg x = s.reg x := rfl
@[simp] theorem State.setOd_blob (k v : Nat) (x : Nat) : (s.setOd k v).blob x = s.blob x := rfl
@[simp] theorem State.setOd_port (k v : Nat) (x : PortIx) : (s.setOd k v).port x = s.port x := rfl
@[simp] theorem State.setOd_fsPort (k v : Nat) (x : PortIx) : (s.setOd k v).fsPort x = s.fsPort x := rfl
@[simp] theorem State.setOd_slice (k v : Nat) (x : SliceIx) : (s.setOd k v).slice x = s.slice x := rfl
@[simp] theorem State.setOd_core (k v : Nat) (x : CoreIx) : (s.setOd k v).core x = s.core x := rfl
@[simp] theorem State.setOd_link (k v : Nat) (x : LinkIx) : (s.setOd k v).link x = s.link x := rfl

@[simp] theorem State.countOd_dt (k n : Nat) : (s.countOd k n).dt = s.dt := rfl
@[simp] theorem State.countOd_dev (k n : Nat) : (s.countOd k n).dev = s.dev := rfl
@[simp] theorem State.countOd_web (k n : Nat) : (s.countOd k n).web = s.web := rfl
@[simp] theorem State.countOd_ports (k n : Nat) : (s.countOd k n).ports = s.ports := rfl
@[simp] theorem State.countOd_fsPorts (k n : Nat) : (s.countOd k n).fsPorts = s.fsPorts := rfl
@[simp] theorem State.countOd_slices (k n : Nat) : (s.countOd k n).slices = s.slices := rfl
@[simp] theorem State.countOd_tensors (k n : Nat) : (s.countOd k n).tensors = s.tensors := rfl
@[simp] theorem State.countOd_cores (k n : Nat) : (s.countOd k n).cores = s.cores := rfl
@[simp] theorem State.countOd_cmd (k n : Nat) : (s.countOd k n).cmd = s.cmd := rfl
@[simp] theorem State.countOd_ctx (k n : Nat) : (s.countOd k n).ctx = s.ctx := rfl
@[simp] theorem State.countOd_det (k n : Nat) : (s.countOd k n).det = s.det := rfl
@[simp] theorem State.countOd_links (k n : Nat) : (s.countOd k n).links = s.links := rfl
@[simp] theorem State.countOd_trim (k n : Nat) : (s.countOd k n).trim = s.trim := rfl
@[simp] theorem State.countOd_regs (k n : Nat) : (s.countOd k n).regs = s.regs := rfl
@[simp] theorem State.countOd_blobs (k n : Nat) : (s.countOd k n).blobs = s.blobs := rfl
@[simp] theorem State.countOd_doors (k n : Nat) : (s.countOd k n).doors = s.doors := rfl
@[simp] theorem State.countOd_pcie (k n : Nat) : (s.countOd k n).pcie = s.pcie := rfl
@[simp] theorem State.countOd_crv (k n : Nat) : (s.countOd k n).crv = s.crv := rfl
@[simp] theorem State.countOd_ledger (k n : Nat) : (s.countOd k n).ledger = s.ledger := rfl
@[simp] theorem State.countOd_saf (k n : Nat) : (s.countOd k n).saf = s.saf := rfl
@[simp] theorem State.countOd_pwr (k n : Nat) : (s.countOd k n).pwr = s.pwr := rfl
@[simp] theorem State.countOd_hostMem (k n : Nat) : (s.countOd k n).hostMem = s.hostMem := rfl
@[simp] theorem State.countOd_dram (k n : Nat) : (s.countOd k n).dram = s.dram := rfl
@[simp] theorem State.countOd_oasis (k n : Nat) : (s.countOd k n).oasis = s.oasis := rfl
@[simp] theorem State.countOd_dramPoison (k n : Nat) : (s.countOd k n).dramPoison = s.dramPoison := rfl
@[simp] theorem State.countOd_oasisPoison (k n : Nat) : (s.countOd k n).oasisPoison = s.oasisPoison := rfl
@[simp] theorem State.countOd_dramSingle (k n : Nat) : (s.countOd k n).dramSingle = s.dramSingle := rfl
@[simp] theorem State.countOd_oasisSingle (k n : Nat) : (s.countOd k n).oasisSingle = s.oasisSingle := rfl
@[simp] theorem State.countOd_events (k n : Nat) : (s.countOd k n).events = s.events := rfl
@[simp] theorem State.countOd_out (k n : Nat) : (s.countOd k n).out = s.out := rfl
@[simp] theorem State.countOd_memEpoch (k n : Nat) : (s.countOd k n).memEpoch = s.memEpoch := rfl
@[simp] theorem State.countOd_freeCtr (k n : Nat) : (s.countOd k n).freeCtr = s.freeCtr := rfl
@[simp] theorem State.countOd_pending (k n : Nat) : (s.countOd k n).pending = s.pending := rfl
@[simp] theorem State.countOd_reg (k n : Nat) (x : Nat) : (s.countOd k n).reg x = s.reg x := rfl
@[simp] theorem State.countOd_blob (k n : Nat) (x : Nat) : (s.countOd k n).blob x = s.blob x := rfl
@[simp] theorem State.countOd_port (k n : Nat) (x : PortIx) : (s.countOd k n).port x = s.port x := rfl
@[simp] theorem State.countOd_fsPort (k n : Nat) (x : PortIx) : (s.countOd k n).fsPort x = s.fsPort x := rfl
@[simp] theorem State.countOd_slice (k n : Nat) (x : SliceIx) : (s.countOd k n).slice x = s.slice x := rfl
@[simp] theorem State.countOd_core (k n : Nat) (x : CoreIx) : (s.countOd k n).core x = s.core x := rfl
@[simp] theorem State.countOd_link (k n : Nat) (x : LinkIx) : (s.countOd k n).link x = s.link x := rfl

@[simp] theorem State.setBlob_dt (k : Nat) (bs : List Byte) : (s.setBlob k bs).dt = s.dt := rfl
@[simp] theorem State.setBlob_dev (k : Nat) (bs : List Byte) : (s.setBlob k bs).dev = s.dev := rfl
@[simp] theorem State.setBlob_web (k : Nat) (bs : List Byte) : (s.setBlob k bs).web = s.web := rfl
@[simp] theorem State.setBlob_ports (k : Nat) (bs : List Byte) : (s.setBlob k bs).ports = s.ports := rfl
@[simp] theorem State.setBlob_fsPorts (k : Nat) (bs : List Byte) : (s.setBlob k bs).fsPorts = s.fsPorts := rfl
@[simp] theorem State.setBlob_slices (k : Nat) (bs : List Byte) : (s.setBlob k bs).slices = s.slices := rfl
@[simp] theorem State.setBlob_tensors (k : Nat) (bs : List Byte) : (s.setBlob k bs).tensors = s.tensors := rfl
@[simp] theorem State.setBlob_cores (k : Nat) (bs : List Byte) : (s.setBlob k bs).cores = s.cores := rfl
@[simp] theorem State.setBlob_cmd (k : Nat) (bs : List Byte) : (s.setBlob k bs).cmd = s.cmd := rfl
@[simp] theorem State.setBlob_ctx (k : Nat) (bs : List Byte) : (s.setBlob k bs).ctx = s.ctx := rfl
@[simp] theorem State.setBlob_det (k : Nat) (bs : List Byte) : (s.setBlob k bs).det = s.det := rfl
@[simp] theorem State.setBlob_links (k : Nat) (bs : List Byte) : (s.setBlob k bs).links = s.links := rfl
@[simp] theorem State.setBlob_trim (k : Nat) (bs : List Byte) : (s.setBlob k bs).trim = s.trim := rfl
@[simp] theorem State.setBlob_regs (k : Nat) (bs : List Byte) : (s.setBlob k bs).regs = s.regs := rfl
@[simp] theorem State.setBlob_dict (k : Nat) (bs : List Byte) : (s.setBlob k bs).dict = s.dict := rfl
@[simp] theorem State.setBlob_blobs (k : Nat) (bs : List Byte) : (s.setBlob k bs).blobs = sparseSet k (if bs.isEmpty then none else some bs) s.blobs := rfl
@[simp] theorem State.setBlob_doors (k : Nat) (bs : List Byte) : (s.setBlob k bs).doors = s.doors := rfl
@[simp] theorem State.setBlob_pcie (k : Nat) (bs : List Byte) : (s.setBlob k bs).pcie = s.pcie := rfl
@[simp] theorem State.setBlob_crv (k : Nat) (bs : List Byte) : (s.setBlob k bs).crv = s.crv := rfl
@[simp] theorem State.setBlob_ledger (k : Nat) (bs : List Byte) : (s.setBlob k bs).ledger = s.ledger := rfl
@[simp] theorem State.setBlob_saf (k : Nat) (bs : List Byte) : (s.setBlob k bs).saf = s.saf := rfl
@[simp] theorem State.setBlob_pwr (k : Nat) (bs : List Byte) : (s.setBlob k bs).pwr = s.pwr := rfl
@[simp] theorem State.setBlob_hostMem (k : Nat) (bs : List Byte) : (s.setBlob k bs).hostMem = s.hostMem := rfl
@[simp] theorem State.setBlob_dram (k : Nat) (bs : List Byte) : (s.setBlob k bs).dram = s.dram := rfl
@[simp] theorem State.setBlob_oasis (k : Nat) (bs : List Byte) : (s.setBlob k bs).oasis = s.oasis := rfl
@[simp] theorem State.setBlob_dramPoison (k : Nat) (bs : List Byte) : (s.setBlob k bs).dramPoison = s.dramPoison := rfl
@[simp] theorem State.setBlob_oasisPoison (k : Nat) (bs : List Byte) : (s.setBlob k bs).oasisPoison = s.oasisPoison := rfl
@[simp] theorem State.setBlob_dramSingle (k : Nat) (bs : List Byte) : (s.setBlob k bs).dramSingle = s.dramSingle := rfl
@[simp] theorem State.setBlob_oasisSingle (k : Nat) (bs : List Byte) : (s.setBlob k bs).oasisSingle = s.oasisSingle := rfl
@[simp] theorem State.setBlob_events (k : Nat) (bs : List Byte) : (s.setBlob k bs).events = s.events := rfl
@[simp] theorem State.setBlob_out (k : Nat) (bs : List Byte) : (s.setBlob k bs).out = s.out := rfl
@[simp] theorem State.setBlob_memEpoch (k : Nat) (bs : List Byte) : (s.setBlob k bs).memEpoch = s.memEpoch := rfl
@[simp] theorem State.setBlob_freeCtr (k : Nat) (bs : List Byte) : (s.setBlob k bs).freeCtr = s.freeCtr := rfl
@[simp] theorem State.setBlob_pending (k : Nat) (bs : List Byte) : (s.setBlob k bs).pending = s.pending := rfl
@[simp] theorem State.setBlob_reg (k : Nat) (bs : List Byte) (x : Nat) : (s.setBlob k bs).reg x = s.reg x := rfl
@[simp] theorem State.setBlob_od (k : Nat) (bs : List Byte) (x : Nat) : (s.setBlob k bs).od x = s.od x := rfl
@[simp] theorem State.setBlob_odFlag (k : Nat) (bs : List Byte) (x : Nat) : (s.setBlob k bs).odFlag x = s.odFlag x := rfl
@[simp] theorem State.setBlob_port (k : Nat) (bs : List Byte) (x : PortIx) : (s.setBlob k bs).port x = s.port x := rfl
@[simp] theorem State.setBlob_fsPort (k : Nat) (bs : List Byte) (x : PortIx) : (s.setBlob k bs).fsPort x = s.fsPort x := rfl
@[simp] theorem State.setBlob_slice (k : Nat) (bs : List Byte) (x : SliceIx) : (s.setBlob k bs).slice x = s.slice x := rfl
@[simp] theorem State.setBlob_core (k : Nat) (bs : List Byte) (x : CoreIx) : (s.setBlob k bs).core x = s.core x := rfl
@[simp] theorem State.setBlob_link (k : Nat) (bs : List Byte) (x : LinkIx) : (s.setBlob k bs).link x = s.link x := rfl

@[simp] theorem State.send_dt (x : Out) : (s.send x).dt = s.dt := rfl
@[simp] theorem State.send_dev (x : Out) : (s.send x).dev = s.dev := rfl
@[simp] theorem State.send_web (x : Out) : (s.send x).web = s.web := rfl
@[simp] theorem State.send_ports (x : Out) : (s.send x).ports = s.ports := rfl
@[simp] theorem State.send_fsPorts (x : Out) : (s.send x).fsPorts = s.fsPorts := rfl
@[simp] theorem State.send_slices (x : Out) : (s.send x).slices = s.slices := rfl
@[simp] theorem State.send_tensors (x : Out) : (s.send x).tensors = s.tensors := rfl
@[simp] theorem State.send_cores (x : Out) : (s.send x).cores = s.cores := rfl
@[simp] theorem State.send_cmd (x : Out) : (s.send x).cmd = s.cmd := rfl
@[simp] theorem State.send_ctx (x : Out) : (s.send x).ctx = s.ctx := rfl
@[simp] theorem State.send_det (x : Out) : (s.send x).det = s.det := rfl
@[simp] theorem State.send_links (x : Out) : (s.send x).links = s.links := rfl
@[simp] theorem State.send_trim (x : Out) : (s.send x).trim = s.trim := rfl
@[simp] theorem State.send_regs (x : Out) : (s.send x).regs = s.regs := rfl
@[simp] theorem State.send_dict (x : Out) : (s.send x).dict = s.dict := rfl
@[simp] theorem State.send_blobs (x : Out) : (s.send x).blobs = s.blobs := rfl
@[simp] theorem State.send_doors (x : Out) : (s.send x).doors = s.doors := rfl
@[simp] theorem State.send_pcie (x : Out) : (s.send x).pcie = s.pcie := rfl
@[simp] theorem State.send_crv (x : Out) : (s.send x).crv = s.crv := rfl
@[simp] theorem State.send_ledger (x : Out) : (s.send x).ledger = s.ledger := rfl
@[simp] theorem State.send_saf (x : Out) : (s.send x).saf = s.saf := rfl
@[simp] theorem State.send_pwr (x : Out) : (s.send x).pwr = s.pwr := rfl
@[simp] theorem State.send_hostMem (x : Out) : (s.send x).hostMem = s.hostMem := rfl
@[simp] theorem State.send_dram (x : Out) : (s.send x).dram = s.dram := rfl
@[simp] theorem State.send_oasis (x : Out) : (s.send x).oasis = s.oasis := rfl
@[simp] theorem State.send_dramPoison (x : Out) : (s.send x).dramPoison = s.dramPoison := rfl
@[simp] theorem State.send_oasisPoison (x : Out) : (s.send x).oasisPoison = s.oasisPoison := rfl
@[simp] theorem State.send_dramSingle (x : Out) : (s.send x).dramSingle = s.dramSingle := rfl
@[simp] theorem State.send_oasisSingle (x : Out) : (s.send x).oasisSingle = s.oasisSingle := rfl
@[simp] theorem State.send_events (x : Out) : (s.send x).events = s.events := rfl
@[simp] theorem State.send_out (x : Out) : (s.send x).out = s.out ++ [x] := rfl
@[simp] theorem State.send_memEpoch (x : Out) : (s.send x).memEpoch = s.memEpoch := rfl
@[simp] theorem State.send_freeCtr (x : Out) : (s.send x).freeCtr = s.freeCtr := rfl
@[simp] theorem State.send_pending (x : Out) : (s.send x).pending = s.pending := rfl
@[simp] theorem State.send_reg (m : Out) (x : Nat) : (s.send m).reg x = s.reg x := rfl
@[simp] theorem State.send_od (m : Out) (x : Nat) : (s.send m).od x = s.od x := rfl
@[simp] theorem State.send_odFlag (m : Out) (x : Nat) : (s.send m).odFlag x = s.odFlag x := rfl
@[simp] theorem State.send_blob (m : Out) (x : Nat) : (s.send m).blob x = s.blob x := rfl
@[simp] theorem State.send_port (m : Out) (x : PortIx) : (s.send m).port x = s.port x := rfl
@[simp] theorem State.send_fsPort (m : Out) (x : PortIx) : (s.send m).fsPort x = s.fsPort x := rfl
@[simp] theorem State.send_slice (m : Out) (x : SliceIx) : (s.send m).slice x = s.slice x := rfl
@[simp] theorem State.send_core (m : Out) (x : CoreIx) : (s.send m).core x = s.core x := rfl
@[simp] theorem State.send_link (m : Out) (x : LinkIx) : (s.send m).link x = s.link x := rfl

@[simp] theorem State.eventAt_dt (l c y : Nat) (bs : List Byte) : (s.eventAt l c y bs).dt = s.dt := rfl
@[simp] theorem State.eventAt_dev (l c y : Nat) (bs : List Byte) : (s.eventAt l c y bs).dev = s.dev := rfl
@[simp] theorem State.eventAt_web (l c y : Nat) (bs : List Byte) : (s.eventAt l c y bs).web = s.web := rfl
@[simp] theorem State.eventAt_ports (l c y : Nat) (bs : List Byte) : (s.eventAt l c y bs).ports = s.ports := rfl
@[simp] theorem State.eventAt_fsPorts (l c y : Nat) (bs : List Byte) : (s.eventAt l c y bs).fsPorts = s.fsPorts := rfl
@[simp] theorem State.eventAt_slices (l c y : Nat) (bs : List Byte) : (s.eventAt l c y bs).slices = s.slices := rfl
@[simp] theorem State.eventAt_tensors (l c y : Nat) (bs : List Byte) : (s.eventAt l c y bs).tensors = s.tensors := rfl
@[simp] theorem State.eventAt_cores (l c y : Nat) (bs : List Byte) : (s.eventAt l c y bs).cores = s.cores := rfl
@[simp] theorem State.eventAt_cmd (l c y : Nat) (bs : List Byte) : (s.eventAt l c y bs).cmd = s.cmd := rfl
@[simp] theorem State.eventAt_ctx (l c y : Nat) (bs : List Byte) : (s.eventAt l c y bs).ctx = s.ctx := rfl
@[simp] theorem State.eventAt_det (l c y : Nat) (bs : List Byte) : (s.eventAt l c y bs).det = s.det := rfl
@[simp] theorem State.eventAt_links (l c y : Nat) (bs : List Byte) : (s.eventAt l c y bs).links = s.links := rfl
@[simp] theorem State.eventAt_trim (l c y : Nat) (bs : List Byte) : (s.eventAt l c y bs).trim = s.trim := rfl
@[simp] theorem State.eventAt_regs (l c y : Nat) (bs : List Byte) : (s.eventAt l c y bs).regs = s.regs := rfl
@[simp] theorem State.eventAt_dict (l c y : Nat) (bs : List Byte) : (s.eventAt l c y bs).dict = s.dict := rfl
@[simp] theorem State.eventAt_blobs (l c y : Nat) (bs : List Byte) : (s.eventAt l c y bs).blobs = s.blobs := rfl
@[simp] theorem State.eventAt_doors (l c y : Nat) (bs : List Byte) : (s.eventAt l c y bs).doors = s.doors := rfl
@[simp] theorem State.eventAt_pcie (l c y : Nat) (bs : List Byte) : (s.eventAt l c y bs).pcie = s.pcie := rfl
@[simp] theorem State.eventAt_crv (l c y : Nat) (bs : List Byte) : (s.eventAt l c y bs).crv = s.crv := rfl
@[simp] theorem State.eventAt_ledger (l c y : Nat) (bs : List Byte) : (s.eventAt l c y bs).ledger = s.ledger := rfl
@[simp] theorem State.eventAt_saf (l c y : Nat) (bs : List Byte) : (s.eventAt l c y bs).saf = s.saf := rfl
@[simp] theorem State.eventAt_pwr (l c y : Nat) (bs : List Byte) : (s.eventAt l c y bs).pwr = s.pwr := rfl
@[simp] theorem State.eventAt_hostMem (l c y : Nat) (bs : List Byte) : (s.eventAt l c y bs).hostMem = s.hostMem := rfl
@[simp] theorem State.eventAt_dram (l c y : Nat) (bs : List Byte) : (s.eventAt l c y bs).dram = s.dram := rfl
@[simp] theorem State.eventAt_oasis (l c y : Nat) (bs : List Byte) : (s.eventAt l c y bs).oasis = s.oasis := rfl
@[simp] theorem State.eventAt_dramPoison (l c y : Nat) (bs : List Byte) : (s.eventAt l c y bs).dramPoison = s.dramPoison := rfl
@[simp] theorem State.eventAt_oasisPoison (l c y : Nat) (bs : List Byte) : (s.eventAt l c y bs).oasisPoison = s.oasisPoison := rfl
@[simp] theorem State.eventAt_dramSingle (l c y : Nat) (bs : List Byte) : (s.eventAt l c y bs).dramSingle = s.dramSingle := rfl
@[simp] theorem State.eventAt_oasisSingle (l c y : Nat) (bs : List Byte) : (s.eventAt l c y bs).oasisSingle = s.oasisSingle := rfl
@[simp] theorem State.eventAt_events (l c y : Nat) (bs : List Byte) : (s.eventAt l c y bs).events = insertEvent ⟨s.dt, l, c, y, padTo 48 bs⟩ s.events := rfl
@[simp] theorem State.eventAt_out (l c y : Nat) (bs : List Byte) : (s.eventAt l c y bs).out = s.out := rfl
@[simp] theorem State.eventAt_memEpoch (l c y : Nat) (bs : List Byte) : (s.eventAt l c y bs).memEpoch = s.memEpoch := rfl
@[simp] theorem State.eventAt_freeCtr (l c y : Nat) (bs : List Byte) : (s.eventAt l c y bs).freeCtr = s.freeCtr := rfl
@[simp] theorem State.eventAt_pending (l c y : Nat) (bs : List Byte) : (s.eventAt l c y bs).pending = s.pending := rfl
@[simp] theorem State.eventAt_reg (l c y : Nat) (bs : List Byte) (x : Nat) : (s.eventAt l c y bs).reg x = s.reg x := rfl
@[simp] theorem State.eventAt_od (l c y : Nat) (bs : List Byte) (x : Nat) : (s.eventAt l c y bs).od x = s.od x := rfl
@[simp] theorem State.eventAt_odFlag (l c y : Nat) (bs : List Byte) (x : Nat) : (s.eventAt l c y bs).odFlag x = s.odFlag x := rfl
@[simp] theorem State.eventAt_blob (l c y : Nat) (bs : List Byte) (x : Nat) : (s.eventAt l c y bs).blob x = s.blob x := rfl
@[simp] theorem State.eventAt_port (l c y : Nat) (bs : List Byte) (x : PortIx) : (s.eventAt l c y bs).port x = s.port x := rfl
@[simp] theorem State.eventAt_fsPort (l c y : Nat) (bs : List Byte) (x : PortIx) : (s.eventAt l c y bs).fsPort x = s.fsPort x := rfl
@[simp] theorem State.eventAt_slice (l c y : Nat) (bs : List Byte) (x : SliceIx) : (s.eventAt l c y bs).slice x = s.slice x := rfl
@[simp] theorem State.eventAt_core (l c y : Nat) (bs : List Byte) (x : CoreIx) : (s.eventAt l c y bs).core x = s.core x := rfl
@[simp] theorem State.eventAt_link (l c y : Nat) (bs : List Byte) (x : LinkIx) : (s.eventAt l c y bs).link x = s.link x := rfl

@[simp] theorem State.event_dt (c y : Nat) (bs : List Byte) : (s.event c y bs).dt = s.dt := rfl
@[simp] theorem State.event_dev (c y : Nat) (bs : List Byte) : (s.event c y bs).dev = s.dev := rfl
@[simp] theorem State.event_web (c y : Nat) (bs : List Byte) : (s.event c y bs).web = s.web := rfl
@[simp] theorem State.event_ports (c y : Nat) (bs : List Byte) : (s.event c y bs).ports = s.ports := rfl
@[simp] theorem State.event_fsPorts (c y : Nat) (bs : List Byte) : (s.event c y bs).fsPorts = s.fsPorts := rfl
@[simp] theorem State.event_slices (c y : Nat) (bs : List Byte) : (s.event c y bs).slices = s.slices := rfl
@[simp] theorem State.event_tensors (c y : Nat) (bs : List Byte) : (s.event c y bs).tensors = s.tensors := rfl
@[simp] theorem State.event_cores (c y : Nat) (bs : List Byte) : (s.event c y bs).cores = s.cores := rfl
@[simp] theorem State.event_cmd (c y : Nat) (bs : List Byte) : (s.event c y bs).cmd = s.cmd := rfl
@[simp] theorem State.event_ctx (c y : Nat) (bs : List Byte) : (s.event c y bs).ctx = s.ctx := rfl
@[simp] theorem State.event_det (c y : Nat) (bs : List Byte) : (s.event c y bs).det = s.det := rfl
@[simp] theorem State.event_links (c y : Nat) (bs : List Byte) : (s.event c y bs).links = s.links := rfl
@[simp] theorem State.event_trim (c y : Nat) (bs : List Byte) : (s.event c y bs).trim = s.trim := rfl
@[simp] theorem State.event_regs (c y : Nat) (bs : List Byte) : (s.event c y bs).regs = s.regs := rfl
@[simp] theorem State.event_dict (c y : Nat) (bs : List Byte) : (s.event c y bs).dict = s.dict := rfl
@[simp] theorem State.event_blobs (c y : Nat) (bs : List Byte) : (s.event c y bs).blobs = s.blobs := rfl
@[simp] theorem State.event_doors (c y : Nat) (bs : List Byte) : (s.event c y bs).doors = s.doors := rfl
@[simp] theorem State.event_pcie (c y : Nat) (bs : List Byte) : (s.event c y bs).pcie = s.pcie := rfl
@[simp] theorem State.event_crv (c y : Nat) (bs : List Byte) : (s.event c y bs).crv = s.crv := rfl
@[simp] theorem State.event_ledger (c y : Nat) (bs : List Byte) : (s.event c y bs).ledger = s.ledger := rfl
@[simp] theorem State.event_saf (c y : Nat) (bs : List Byte) : (s.event c y bs).saf = s.saf := rfl
@[simp] theorem State.event_pwr (c y : Nat) (bs : List Byte) : (s.event c y bs).pwr = s.pwr := rfl
@[simp] theorem State.event_hostMem (c y : Nat) (bs : List Byte) : (s.event c y bs).hostMem = s.hostMem := rfl
@[simp] theorem State.event_dram (c y : Nat) (bs : List Byte) : (s.event c y bs).dram = s.dram := rfl
@[simp] theorem State.event_oasis (c y : Nat) (bs : List Byte) : (s.event c y bs).oasis = s.oasis := rfl
@[simp] theorem State.event_dramPoison (c y : Nat) (bs : List Byte) : (s.event c y bs).dramPoison = s.dramPoison := rfl
@[simp] theorem State.event_oasisPoison (c y : Nat) (bs : List Byte) : (s.event c y bs).oasisPoison = s.oasisPoison := rfl
@[simp] theorem State.event_dramSingle (c y : Nat) (bs : List Byte) : (s.event c y bs).dramSingle = s.dramSingle := rfl
@[simp] theorem State.event_oasisSingle (c y : Nat) (bs : List Byte) : (s.event c y bs).oasisSingle = s.oasisSingle := rfl
@[simp] theorem State.event_events (c y : Nat) (bs : List Byte) : (s.event c y bs).events = insertEvent ⟨s.dt, s.web.lastLsn, c, y, padTo 48 bs⟩ s.events := rfl
@[simp] theorem State.event_out (c y : Nat) (bs : List Byte) : (s.event c y bs).out = s.out := rfl
@[simp] theorem State.event_memEpoch (c y : Nat) (bs : List Byte) : (s.event c y bs).memEpoch = s.memEpoch := rfl
@[simp] theorem State.event_freeCtr (c y : Nat) (bs : List Byte) : (s.event c y bs).freeCtr = s.freeCtr := rfl
@[simp] theorem State.event_pending (c y : Nat) (bs : List Byte) : (s.event c y bs).pending = s.pending := rfl
@[simp] theorem State.event_reg (c y : Nat) (bs : List Byte) (x : Nat) : (s.event c y bs).reg x = s.reg x := rfl
@[simp] theorem State.event_od (c y : Nat) (bs : List Byte) (x : Nat) : (s.event c y bs).od x = s.od x := rfl
@[simp] theorem State.event_odFlag (c y : Nat) (bs : List Byte) (x : Nat) : (s.event c y bs).odFlag x = s.odFlag x := rfl
@[simp] theorem State.event_blob (c y : Nat) (bs : List Byte) (x : Nat) : (s.event c y bs).blob x = s.blob x := rfl
@[simp] theorem State.event_port (c y : Nat) (bs : List Byte) (x : PortIx) : (s.event c y bs).port x = s.port x := rfl
@[simp] theorem State.event_fsPort (c y : Nat) (bs : List Byte) (x : PortIx) : (s.event c y bs).fsPort x = s.fsPort x := rfl
@[simp] theorem State.event_slice (c y : Nat) (bs : List Byte) (x : SliceIx) : (s.event c y bs).slice x = s.slice x := rfl
@[simp] theorem State.event_core (c y : Nat) (bs : List Byte) (x : CoreIx) : (s.event c y bs).core x = s.core x := rfl
@[simp] theorem State.event_link (c y : Nat) (bs : List Byte) (x : LinkIx) : (s.event c y bs).link x = s.link x := rfl

@[simp] theorem State.statusEvent_dt (c u i b v : Nat) : (s.statusEvent c u i b v).dt = s.dt := rfl
@[simp] theorem State.statusEvent_dev (c u i b v : Nat) : (s.statusEvent c u i b v).dev = s.dev := rfl
@[simp] theorem State.statusEvent_web (c u i b v : Nat) : (s.statusEvent c u i b v).web = s.web := rfl
@[simp] theorem State.statusEvent_ports (c u i b v : Nat) : (s.statusEvent c u i b v).ports = s.ports := rfl
@[simp] theorem State.statusEvent_fsPorts (c u i b v : Nat) : (s.statusEvent c u i b v).fsPorts = s.fsPorts := rfl
@[simp] theorem State.statusEvent_slices (c u i b v : Nat) : (s.statusEvent c u i b v).slices = s.slices := rfl
@[simp] theorem State.statusEvent_tensors (c u i b v : Nat) : (s.statusEvent c u i b v).tensors = s.tensors := rfl
@[simp] theorem State.statusEvent_cores (c u i b v : Nat) : (s.statusEvent c u i b v).cores = s.cores := rfl
@[simp] theorem State.statusEvent_cmd (c u i b v : Nat) : (s.statusEvent c u i b v).cmd = s.cmd := rfl
@[simp] theorem State.statusEvent_ctx (c u i b v : Nat) : (s.statusEvent c u i b v).ctx = s.ctx := rfl
@[simp] theorem State.statusEvent_det (c u i b v : Nat) : (s.statusEvent c u i b v).det = s.det := rfl
@[simp] theorem State.statusEvent_links (c u i b v : Nat) : (s.statusEvent c u i b v).links = s.links := rfl
@[simp] theorem State.statusEvent_trim (c u i b v : Nat) : (s.statusEvent c u i b v).trim = s.trim := rfl
@[simp] theorem State.statusEvent_regs (c u i b v : Nat) : (s.statusEvent c u i b v).regs = s.regs := rfl
@[simp] theorem State.statusEvent_dict (c u i b v : Nat) : (s.statusEvent c u i b v).dict = s.dict := rfl
@[simp] theorem State.statusEvent_blobs (c u i b v : Nat) : (s.statusEvent c u i b v).blobs = s.blobs := rfl
@[simp] theorem State.statusEvent_doors (c u i b v : Nat) : (s.statusEvent c u i b v).doors = s.doors := rfl
@[simp] theorem State.statusEvent_pcie (c u i b v : Nat) : (s.statusEvent c u i b v).pcie = s.pcie := rfl
@[simp] theorem State.statusEvent_crv (c u i b v : Nat) : (s.statusEvent c u i b v).crv = s.crv := rfl
@[simp] theorem State.statusEvent_ledger (c u i b v : Nat) : (s.statusEvent c u i b v).ledger = s.ledger := rfl
@[simp] theorem State.statusEvent_saf (c u i b v : Nat) : (s.statusEvent c u i b v).saf = s.saf := rfl
@[simp] theorem State.statusEvent_pwr (c u i b v : Nat) : (s.statusEvent c u i b v).pwr = s.pwr := rfl
@[simp] theorem State.statusEvent_hostMem (c u i b v : Nat) : (s.statusEvent c u i b v).hostMem = s.hostMem := rfl
@[simp] theorem State.statusEvent_dram (c u i b v : Nat) : (s.statusEvent c u i b v).dram = s.dram := rfl
@[simp] theorem State.statusEvent_oasis (c u i b v : Nat) : (s.statusEvent c u i b v).oasis = s.oasis := rfl
@[simp] theorem State.statusEvent_dramPoison (c u i b v : Nat) : (s.statusEvent c u i b v).dramPoison = s.dramPoison := rfl
@[simp] theorem State.statusEvent_oasisPoison (c u i b v : Nat) : (s.statusEvent c u i b v).oasisPoison = s.oasisPoison := rfl
@[simp] theorem State.statusEvent_dramSingle (c u i b v : Nat) : (s.statusEvent c u i b v).dramSingle = s.dramSingle := rfl
@[simp] theorem State.statusEvent_oasisSingle (c u i b v : Nat) : (s.statusEvent c u i b v).oasisSingle = s.oasisSingle := rfl
@[simp] theorem State.statusEvent_events (c u i b v : Nat) : (s.statusEvent c u i b v).events = insertEvent ⟨s.dt, s.web.lastLsn, c, 1, padTo 48 (statusBody u i b v)⟩ s.events := rfl
@[simp] theorem State.statusEvent_out (c u i b v : Nat) : (s.statusEvent c u i b v).out = s.out := rfl
@[simp] theorem State.statusEvent_memEpoch (c u i b v : Nat) : (s.statusEvent c u i b v).memEpoch = s.memEpoch := rfl
@[simp] theorem State.statusEvent_freeCtr (c u i b v : Nat) : (s.statusEvent c u i b v).freeCtr = s.freeCtr := rfl
@[simp] theorem State.statusEvent_pending (c u i b v : Nat) : (s.statusEvent c u i b v).pending = s.pending := rfl
@[simp] theorem State.statusEvent_reg (c u i b v : Nat) (x : Nat) : (s.statusEvent c u i b v).reg x = s.reg x := rfl
@[simp] theorem State.statusEvent_od (c u i b v : Nat) (x : Nat) : (s.statusEvent c u i b v).od x = s.od x := rfl
@[simp] theorem State.statusEvent_odFlag (c u i b v : Nat) (x : Nat) : (s.statusEvent c u i b v).odFlag x = s.odFlag x := rfl
@[simp] theorem State.statusEvent_blob (c u i b v : Nat) (x : Nat) : (s.statusEvent c u i b v).blob x = s.blob x := rfl
@[simp] theorem State.statusEvent_port (c u i b v : Nat) (x : PortIx) : (s.statusEvent c u i b v).port x = s.port x := rfl
@[simp] theorem State.statusEvent_fsPort (c u i b v : Nat) (x : PortIx) : (s.statusEvent c u i b v).fsPort x = s.fsPort x := rfl
@[simp] theorem State.statusEvent_slice (c u i b v : Nat) (x : SliceIx) : (s.statusEvent c u i b v).slice x = s.slice x := rfl
@[simp] theorem State.statusEvent_core (c u i b v : Nat) (x : CoreIx) : (s.statusEvent c u i b v).core x = s.core x := rfl
@[simp] theorem State.statusEvent_link (c u i b v : Nat) (x : LinkIx) : (s.statusEvent c u i b v).link x = s.link x := rfl

@[simp] theorem State.writeHost_dt (a : Nat) (bs : List Byte) : (s.writeHost a bs).dt = s.dt := rfl
@[simp] theorem State.writeHost_dev (a : Nat) (bs : List Byte) : (s.writeHost a bs).dev = s.dev := rfl
@[simp] theorem State.writeHost_web (a : Nat) (bs : List Byte) : (s.writeHost a bs).web = s.web := rfl
@[simp] theorem State.writeHost_ports (a : Nat) (bs : List Byte) : (s.writeHost a bs).ports = s.ports := rfl
@[simp] theorem State.writeHost_fsPorts (a : Nat) (bs : List Byte) : (s.writeHost a bs).fsPorts = s.fsPorts := rfl
@[simp] theorem State.writeHost_slices (a : Nat) (bs : List Byte) : (s.writeHost a bs).slices = s.slices := rfl
@[simp] theorem State.writeHost_tensors (a : Nat) (bs : List Byte) : (s.writeHost a bs).tensors = s.tensors := rfl
@[simp] theorem State.writeHost_cores (a : Nat) (bs : List Byte) : (s.writeHost a bs).cores = s.cores := rfl
@[simp] theorem State.writeHost_cmd (a : Nat) (bs : List Byte) : (s.writeHost a bs).cmd = s.cmd := rfl
@[simp] theorem State.writeHost_ctx (a : Nat) (bs : List Byte) : (s.writeHost a bs).ctx = s.ctx := rfl
@[simp] theorem State.writeHost_det (a : Nat) (bs : List Byte) : (s.writeHost a bs).det = s.det := rfl
@[simp] theorem State.writeHost_links (a : Nat) (bs : List Byte) : (s.writeHost a bs).links = s.links := rfl
@[simp] theorem State.writeHost_trim (a : Nat) (bs : List Byte) : (s.writeHost a bs).trim = s.trim := rfl
@[simp] theorem State.writeHost_regs (a : Nat) (bs : List Byte) : (s.writeHost a bs).regs = s.regs := rfl
@[simp] theorem State.writeHost_dict (a : Nat) (bs : List Byte) : (s.writeHost a bs).dict = s.dict := rfl
@[simp] theorem State.writeHost_blobs (a : Nat) (bs : List Byte) : (s.writeHost a bs).blobs = s.blobs := rfl
@[simp] theorem State.writeHost_doors (a : Nat) (bs : List Byte) : (s.writeHost a bs).doors = s.doors := rfl
@[simp] theorem State.writeHost_pcie (a : Nat) (bs : List Byte) : (s.writeHost a bs).pcie = s.pcie := rfl
@[simp] theorem State.writeHost_crv (a : Nat) (bs : List Byte) : (s.writeHost a bs).crv = s.crv := rfl
@[simp] theorem State.writeHost_ledger (a : Nat) (bs : List Byte) : (s.writeHost a bs).ledger = s.ledger := rfl
@[simp] theorem State.writeHost_saf (a : Nat) (bs : List Byte) : (s.writeHost a bs).saf = s.saf := rfl
@[simp] theorem State.writeHost_pwr (a : Nat) (bs : List Byte) : (s.writeHost a bs).pwr = s.pwr := rfl
@[simp] theorem State.writeHost_hostMem (a : Nat) (bs : List Byte) : (s.writeHost a bs).hostMem = s.hostMem.write a bs := rfl
@[simp] theorem State.writeHost_dram (a : Nat) (bs : List Byte) : (s.writeHost a bs).dram = s.dram := rfl
@[simp] theorem State.writeHost_oasis (a : Nat) (bs : List Byte) : (s.writeHost a bs).oasis = s.oasis := rfl
@[simp] theorem State.writeHost_dramPoison (a : Nat) (bs : List Byte) : (s.writeHost a bs).dramPoison = s.dramPoison := rfl
@[simp] theorem State.writeHost_oasisPoison (a : Nat) (bs : List Byte) : (s.writeHost a bs).oasisPoison = s.oasisPoison := rfl
@[simp] theorem State.writeHost_dramSingle (a : Nat) (bs : List Byte) : (s.writeHost a bs).dramSingle = s.dramSingle := rfl
@[simp] theorem State.writeHost_oasisSingle (a : Nat) (bs : List Byte) : (s.writeHost a bs).oasisSingle = s.oasisSingle := rfl
@[simp] theorem State.writeHost_events (a : Nat) (bs : List Byte) : (s.writeHost a bs).events = s.events := rfl
@[simp] theorem State.writeHost_out (a : Nat) (bs : List Byte) : (s.writeHost a bs).out = s.out := rfl
@[simp] theorem State.writeHost_memEpoch (a : Nat) (bs : List Byte) : (s.writeHost a bs).memEpoch = s.memEpoch := rfl
@[simp] theorem State.writeHost_freeCtr (a : Nat) (bs : List Byte) : (s.writeHost a bs).freeCtr = s.freeCtr := rfl
@[simp] theorem State.writeHost_pending (a : Nat) (bs : List Byte) : (s.writeHost a bs).pending = s.pending := rfl
@[simp] theorem State.writeHost_reg (a : Nat) (bs : List Byte) (x : Nat) : (s.writeHost a bs).reg x = s.reg x := rfl
@[simp] theorem State.writeHost_od (a : Nat) (bs : List Byte) (x : Nat) : (s.writeHost a bs).od x = s.od x := rfl
@[simp] theorem State.writeHost_odFlag (a : Nat) (bs : List Byte) (x : Nat) : (s.writeHost a bs).odFlag x = s.odFlag x := rfl
@[simp] theorem State.writeHost_blob (a : Nat) (bs : List Byte) (x : Nat) : (s.writeHost a bs).blob x = s.blob x := rfl
@[simp] theorem State.writeHost_port (a : Nat) (bs : List Byte) (x : PortIx) : (s.writeHost a bs).port x = s.port x := rfl
@[simp] theorem State.writeHost_fsPort (a : Nat) (bs : List Byte) (x : PortIx) : (s.writeHost a bs).fsPort x = s.fsPort x := rfl
@[simp] theorem State.writeHost_slice (a : Nat) (bs : List Byte) (x : SliceIx) : (s.writeHost a bs).slice x = s.slice x := rfl
@[simp] theorem State.writeHost_core (a : Nat) (bs : List Byte) (x : CoreIx) : (s.writeHost a bs).core x = s.core x := rfl
@[simp] theorem State.writeHost_link (a : Nat) (bs : List Byte) (x : LinkIx) : (s.writeHost a bs).link x = s.link x := rfl

@[simp] theorem State.writeDram_dt (a : Nat) (bs : List Byte) : (s.writeDram a bs).dt = s.dt := rfl
@[simp] theorem State.writeDram_dev (a : Nat) (bs : List Byte) : (s.writeDram a bs).dev = s.dev := rfl
@[simp] theorem State.writeDram_web (a : Nat) (bs : List Byte) : (s.writeDram a bs).web = s.web := rfl
@[simp] theorem State.writeDram_ports (a : Nat) (bs : List Byte) : (s.writeDram a bs).ports = s.ports := rfl
@[simp] theorem State.writeDram_fsPorts (a : Nat) (bs : List Byte) : (s.writeDram a bs).fsPorts = s.fsPorts := rfl
@[simp] theorem State.writeDram_slices (a : Nat) (bs : List Byte) : (s.writeDram a bs).slices = s.slices := rfl
@[simp] theorem State.writeDram_tensors (a : Nat) (bs : List Byte) : (s.writeDram a bs).tensors = s.tensors := rfl
@[simp] theorem State.writeDram_cores (a : Nat) (bs : List Byte) : (s.writeDram a bs).cores = s.cores := rfl
@[simp] theorem State.writeDram_cmd (a : Nat) (bs : List Byte) : (s.writeDram a bs).cmd = s.cmd := rfl
@[simp] theorem State.writeDram_ctx (a : Nat) (bs : List Byte) : (s.writeDram a bs).ctx = s.ctx := rfl
@[simp] theorem State.writeDram_det (a : Nat) (bs : List Byte) : (s.writeDram a bs).det = s.det := rfl
@[simp] theorem State.writeDram_links (a : Nat) (bs : List Byte) : (s.writeDram a bs).links = s.links := rfl
@[simp] theorem State.writeDram_trim (a : Nat) (bs : List Byte) : (s.writeDram a bs).trim = s.trim := rfl
@[simp] theorem State.writeDram_regs (a : Nat) (bs : List Byte) : (s.writeDram a bs).regs = s.regs := rfl
@[simp] theorem State.writeDram_dict (a : Nat) (bs : List Byte) : (s.writeDram a bs).dict = s.dict := rfl
@[simp] theorem State.writeDram_blobs (a : Nat) (bs : List Byte) : (s.writeDram a bs).blobs = s.blobs := rfl
@[simp] theorem State.writeDram_doors (a : Nat) (bs : List Byte) : (s.writeDram a bs).doors = s.doors := rfl
@[simp] theorem State.writeDram_pcie (a : Nat) (bs : List Byte) : (s.writeDram a bs).pcie = s.pcie := rfl
@[simp] theorem State.writeDram_crv (a : Nat) (bs : List Byte) : (s.writeDram a bs).crv = s.crv := rfl
@[simp] theorem State.writeDram_ledger (a : Nat) (bs : List Byte) : (s.writeDram a bs).ledger = s.ledger := rfl
@[simp] theorem State.writeDram_saf (a : Nat) (bs : List Byte) : (s.writeDram a bs).saf = s.saf := rfl
@[simp] theorem State.writeDram_pwr (a : Nat) (bs : List Byte) : (s.writeDram a bs).pwr = s.pwr := rfl
@[simp] theorem State.writeDram_hostMem (a : Nat) (bs : List Byte) : (s.writeDram a bs).hostMem = s.hostMem := rfl
@[simp] theorem State.writeDram_dram (a : Nat) (bs : List Byte) : (s.writeDram a bs).dram = s.dram.write a bs := rfl
@[simp] theorem State.writeDram_oasis (a : Nat) (bs : List Byte) : (s.writeDram a bs).oasis = s.oasis := rfl
@[simp] theorem State.writeDram_oasisPoison (a : Nat) (bs : List Byte) : (s.writeDram a bs).oasisPoison = s.oasisPoison := rfl
@[simp] theorem State.writeDram_oasisSingle (a : Nat) (bs : List Byte) : (s.writeDram a bs).oasisSingle = s.oasisSingle := rfl
@[simp] theorem State.writeDram_events (a : Nat) (bs : List Byte) : (s.writeDram a bs).events = s.events := rfl
@[simp] theorem State.writeDram_out (a : Nat) (bs : List Byte) : (s.writeDram a bs).out = s.out := rfl
@[simp] theorem State.writeDram_memEpoch (a : Nat) (bs : List Byte) : (s.writeDram a bs).memEpoch = s.memEpoch := rfl
@[simp] theorem State.writeDram_freeCtr (a : Nat) (bs : List Byte) : (s.writeDram a bs).freeCtr = s.freeCtr := rfl
@[simp] theorem State.writeDram_pending (a : Nat) (bs : List Byte) : (s.writeDram a bs).pending = s.pending := rfl
@[simp] theorem State.writeDram_reg (a : Nat) (bs : List Byte) (x : Nat) : (s.writeDram a bs).reg x = s.reg x := rfl
@[simp] theorem State.writeDram_od (a : Nat) (bs : List Byte) (x : Nat) : (s.writeDram a bs).od x = s.od x := rfl
@[simp] theorem State.writeDram_odFlag (a : Nat) (bs : List Byte) (x : Nat) : (s.writeDram a bs).odFlag x = s.odFlag x := rfl
@[simp] theorem State.writeDram_blob (a : Nat) (bs : List Byte) (x : Nat) : (s.writeDram a bs).blob x = s.blob x := rfl
@[simp] theorem State.writeDram_port (a : Nat) (bs : List Byte) (x : PortIx) : (s.writeDram a bs).port x = s.port x := rfl
@[simp] theorem State.writeDram_fsPort (a : Nat) (bs : List Byte) (x : PortIx) : (s.writeDram a bs).fsPort x = s.fsPort x := rfl
@[simp] theorem State.writeDram_slice (a : Nat) (bs : List Byte) (x : SliceIx) : (s.writeDram a bs).slice x = s.slice x := rfl
@[simp] theorem State.writeDram_core (a : Nat) (bs : List Byte) (x : CoreIx) : (s.writeDram a bs).core x = s.core x := rfl
@[simp] theorem State.writeDram_link (a : Nat) (bs : List Byte) (x : LinkIx) : (s.writeDram a bs).link x = s.link x := rfl

@[simp] theorem State.writeOasis_dt (a : Nat) (bs : List Byte) : (s.writeOasis a bs).dt = s.dt := rfl
@[simp] theorem State.writeOasis_dev (a : Nat) (bs : List Byte) : (s.writeOasis a bs).dev = s.dev := rfl
@[simp] theorem State.writeOasis_web (a : Nat) (bs : List Byte) : (s.writeOasis a bs).web = s.web := rfl
@[simp] theorem State.writeOasis_ports (a : Nat) (bs : List Byte) : (s.writeOasis a bs).ports = s.ports := rfl
@[simp] theorem State.writeOasis_fsPorts (a : Nat) (bs : List Byte) : (s.writeOasis a bs).fsPorts = s.fsPorts := rfl
@[simp] theorem State.writeOasis_slices (a : Nat) (bs : List Byte) : (s.writeOasis a bs).slices = s.slices := rfl
@[simp] theorem State.writeOasis_tensors (a : Nat) (bs : List Byte) : (s.writeOasis a bs).tensors = s.tensors := rfl
@[simp] theorem State.writeOasis_cores (a : Nat) (bs : List Byte) : (s.writeOasis a bs).cores = s.cores := rfl
@[simp] theorem State.writeOasis_cmd (a : Nat) (bs : List Byte) : (s.writeOasis a bs).cmd = s.cmd := rfl
@[simp] theorem State.writeOasis_ctx (a : Nat) (bs : List Byte) : (s.writeOasis a bs).ctx = s.ctx := rfl
@[simp] theorem State.writeOasis_det (a : Nat) (bs : List Byte) : (s.writeOasis a bs).det = s.det := rfl
@[simp] theorem State.writeOasis_links (a : Nat) (bs : List Byte) : (s.writeOasis a bs).links = s.links := rfl
@[simp] theorem State.writeOasis_trim (a : Nat) (bs : List Byte) : (s.writeOasis a bs).trim = s.trim := rfl
@[simp] theorem State.writeOasis_regs (a : Nat) (bs : List Byte) : (s.writeOasis a bs).regs = s.regs := rfl
@[simp] theorem State.writeOasis_dict (a : Nat) (bs : List Byte) : (s.writeOasis a bs).dict = s.dict := rfl
@[simp] theorem State.writeOasis_blobs (a : Nat) (bs : List Byte) : (s.writeOasis a bs).blobs = s.blobs := rfl
@[simp] theorem State.writeOasis_doors (a : Nat) (bs : List Byte) : (s.writeOasis a bs).doors = s.doors := rfl
@[simp] theorem State.writeOasis_pcie (a : Nat) (bs : List Byte) : (s.writeOasis a bs).pcie = s.pcie := rfl
@[simp] theorem State.writeOasis_crv (a : Nat) (bs : List Byte) : (s.writeOasis a bs).crv = s.crv := rfl
@[simp] theorem State.writeOasis_ledger (a : Nat) (bs : List Byte) : (s.writeOasis a bs).ledger = s.ledger := rfl
@[simp] theorem State.writeOasis_saf (a : Nat) (bs : List Byte) : (s.writeOasis a bs).saf = s.saf := rfl
@[simp] theorem State.writeOasis_pwr (a : Nat) (bs : List Byte) : (s.writeOasis a bs).pwr = s.pwr := rfl
@[simp] theorem State.writeOasis_hostMem (a : Nat) (bs : List Byte) : (s.writeOasis a bs).hostMem = s.hostMem := rfl
@[simp] theorem State.writeOasis_dram (a : Nat) (bs : List Byte) : (s.writeOasis a bs).dram = s.dram := rfl
@[simp] theorem State.writeOasis_oasis (a : Nat) (bs : List Byte) : (s.writeOasis a bs).oasis = s.oasisPut s.oasis a bs := rfl
@[simp] theorem State.writeOasis_dramPoison (a : Nat) (bs : List Byte) : (s.writeOasis a bs).dramPoison = s.dramPoison := rfl
@[simp] theorem State.writeOasis_dramSingle (a : Nat) (bs : List Byte) : (s.writeOasis a bs).dramSingle = s.dramSingle := rfl
@[simp] theorem State.writeOasis_events (a : Nat) (bs : List Byte) : (s.writeOasis a bs).events = s.events := rfl
@[simp] theorem State.writeOasis_out (a : Nat) (bs : List Byte) : (s.writeOasis a bs).out = s.out := rfl
@[simp] theorem State.writeOasis_memEpoch (a : Nat) (bs : List Byte) : (s.writeOasis a bs).memEpoch = s.memEpoch := rfl
@[simp] theorem State.writeOasis_freeCtr (a : Nat) (bs : List Byte) : (s.writeOasis a bs).freeCtr = s.freeCtr := rfl
@[simp] theorem State.writeOasis_pending (a : Nat) (bs : List Byte) : (s.writeOasis a bs).pending = s.pending := rfl
@[simp] theorem State.writeOasis_reg (a : Nat) (bs : List Byte) (x : Nat) : (s.writeOasis a bs).reg x = s.reg x := rfl
@[simp] theorem State.writeOasis_od (a : Nat) (bs : List Byte) (x : Nat) : (s.writeOasis a bs).od x = s.od x := rfl
@[simp] theorem State.writeOasis_odFlag (a : Nat) (bs : List Byte) (x : Nat) : (s.writeOasis a bs).odFlag x = s.odFlag x := rfl
@[simp] theorem State.writeOasis_blob (a : Nat) (bs : List Byte) (x : Nat) : (s.writeOasis a bs).blob x = s.blob x := rfl
@[simp] theorem State.writeOasis_port (a : Nat) (bs : List Byte) (x : PortIx) : (s.writeOasis a bs).port x = s.port x := rfl
@[simp] theorem State.writeOasis_fsPort (a : Nat) (bs : List Byte) (x : PortIx) : (s.writeOasis a bs).fsPort x = s.fsPort x := rfl
@[simp] theorem State.writeOasis_slice (a : Nat) (bs : List Byte) (x : SliceIx) : (s.writeOasis a bs).slice x = s.slice x := rfl
@[simp] theorem State.writeOasis_core (a : Nat) (bs : List Byte) (x : CoreIx) : (s.writeOasis a bs).core x = s.core x := rfl
@[simp] theorem State.writeOasis_link (a : Nat) (bs : List Byte) (x : LinkIx) : (s.writeOasis a bs).link x = s.link x := rfl

@[simp] theorem State.poisonOasis_dt (a n : Nat) : (s.poisonOasis a n).dt = s.dt := rfl
@[simp] theorem State.poisonOasis_dev (a n : Nat) : (s.poisonOasis a n).dev = s.dev := rfl
@[simp] theorem State.poisonOasis_web (a n : Nat) : (s.poisonOasis a n).web = s.web := rfl
@[simp] theorem State.poisonOasis_ports (a n : Nat) : (s.poisonOasis a n).ports = s.ports := rfl
@[simp] theorem State.poisonOasis_fsPorts (a n : Nat) : (s.poisonOasis a n).fsPorts = s.fsPorts := rfl
@[simp] theorem State.poisonOasis_slices (a n : Nat) : (s.poisonOasis a n).slices = s.slices := rfl
@[simp] theorem State.poisonOasis_tensors (a n : Nat) : (s.poisonOasis a n).tensors = s.tensors := rfl
@[simp] theorem State.poisonOasis_cores (a n : Nat) : (s.poisonOasis a n).cores = s.cores := rfl
@[simp] theorem State.poisonOasis_cmd (a n : Nat) : (s.poisonOasis a n).cmd = s.cmd := rfl
@[simp] theorem State.poisonOasis_ctx (a n : Nat) : (s.poisonOasis a n).ctx = s.ctx := rfl
@[simp] theorem State.poisonOasis_det (a n : Nat) : (s.poisonOasis a n).det = s.det := rfl
@[simp] theorem State.poisonOasis_links (a n : Nat) : (s.poisonOasis a n).links = s.links := rfl
@[simp] theorem State.poisonOasis_trim (a n : Nat) : (s.poisonOasis a n).trim = s.trim := rfl
@[simp] theorem State.poisonOasis_regs (a n : Nat) : (s.poisonOasis a n).regs = s.regs := rfl
@[simp] theorem State.poisonOasis_dict (a n : Nat) : (s.poisonOasis a n).dict = s.dict := rfl
@[simp] theorem State.poisonOasis_blobs (a n : Nat) : (s.poisonOasis a n).blobs = s.blobs := rfl
@[simp] theorem State.poisonOasis_doors (a n : Nat) : (s.poisonOasis a n).doors = s.doors := rfl
@[simp] theorem State.poisonOasis_pcie (a n : Nat) : (s.poisonOasis a n).pcie = s.pcie := rfl
@[simp] theorem State.poisonOasis_crv (a n : Nat) : (s.poisonOasis a n).crv = s.crv := rfl
@[simp] theorem State.poisonOasis_ledger (a n : Nat) : (s.poisonOasis a n).ledger = s.ledger := rfl
@[simp] theorem State.poisonOasis_saf (a n : Nat) : (s.poisonOasis a n).saf = s.saf := rfl
@[simp] theorem State.poisonOasis_pwr (a n : Nat) : (s.poisonOasis a n).pwr = s.pwr := rfl
@[simp] theorem State.poisonOasis_hostMem (a n : Nat) : (s.poisonOasis a n).hostMem = s.hostMem := rfl
@[simp] theorem State.poisonOasis_dram (a n : Nat) : (s.poisonOasis a n).dram = s.dram := rfl
@[simp] theorem State.poisonOasis_oasis (a n : Nat) : (s.poisonOasis a n).oasis = s.oasis := rfl
@[simp] theorem State.poisonOasis_dramPoison (a n : Nat) : (s.poisonOasis a n).dramPoison = s.dramPoison := rfl
@[simp] theorem State.poisonOasis_oasisPoison (a n : Nat) : (s.poisonOasis a n).oasisPoison = markBad 64 a n s.oasisPoison := rfl
@[simp] theorem State.poisonOasis_dramSingle (a n : Nat) : (s.poisonOasis a n).dramSingle = s.dramSingle := rfl
@[simp] theorem State.poisonOasis_oasisSingle (a n : Nat) : (s.poisonOasis a n).oasisSingle = s.oasisSingle := rfl
@[simp] theorem State.poisonOasis_events (a n : Nat) : (s.poisonOasis a n).events = s.events := rfl
@[simp] theorem State.poisonOasis_out (a n : Nat) : (s.poisonOasis a n).out = s.out := rfl
@[simp] theorem State.poisonOasis_memEpoch (a n : Nat) : (s.poisonOasis a n).memEpoch = s.memEpoch := rfl
@[simp] theorem State.poisonOasis_freeCtr (a n : Nat) : (s.poisonOasis a n).freeCtr = s.freeCtr := rfl
@[simp] theorem State.poisonOasis_pending (a n : Nat) : (s.poisonOasis a n).pending = s.pending := rfl
@[simp] theorem State.poisonOasis_reg (a n : Nat) (x : Nat) : (s.poisonOasis a n).reg x = s.reg x := rfl
@[simp] theorem State.poisonOasis_od (a n : Nat) (x : Nat) : (s.poisonOasis a n).od x = s.od x := rfl
@[simp] theorem State.poisonOasis_odFlag (a n : Nat) (x : Nat) : (s.poisonOasis a n).odFlag x = s.odFlag x := rfl
@[simp] theorem State.poisonOasis_blob (a n : Nat) (x : Nat) : (s.poisonOasis a n).blob x = s.blob x := rfl
@[simp] theorem State.poisonOasis_port (a n : Nat) (x : PortIx) : (s.poisonOasis a n).port x = s.port x := rfl
@[simp] theorem State.poisonOasis_fsPort (a n : Nat) (x : PortIx) : (s.poisonOasis a n).fsPort x = s.fsPort x := rfl
@[simp] theorem State.poisonOasis_slice (a n : Nat) (x : SliceIx) : (s.poisonOasis a n).slice x = s.slice x := rfl
@[simp] theorem State.poisonOasis_core (a n : Nat) (x : CoreIx) : (s.poisonOasis a n).core x = s.core x := rfl
@[simp] theorem State.poisonOasis_link (a n : Nat) (x : LinkIx) : (s.poisonOasis a n).link x = s.link x := rfl

@[simp] theorem State.poisonDram_dt (k a n : Nat) : (s.poisonDram k a n).dt = s.dt := rfl
@[simp] theorem State.poisonDram_dev (k a n : Nat) : (s.poisonDram k a n).dev = s.dev := rfl
@[simp] theorem State.poisonDram_web (k a n : Nat) : (s.poisonDram k a n).web = s.web := rfl
@[simp] theorem State.poisonDram_ports (k a n : Nat) : (s.poisonDram k a n).ports = s.ports := rfl
@[simp] theorem State.poisonDram_fsPorts (k a n : Nat) : (s.poisonDram k a n).fsPorts = s.fsPorts := rfl
@[simp] theorem State.poisonDram_slices (k a n : Nat) : (s.poisonDram k a n).slices = s.slices := rfl
@[simp] theorem State.poisonDram_tensors (k a n : Nat) : (s.poisonDram k a n).tensors = s.tensors := rfl
@[simp] theorem State.poisonDram_cores (k a n : Nat) : (s.poisonDram k a n).cores = s.cores := rfl
@[simp] theorem State.poisonDram_cmd (k a n : Nat) : (s.poisonDram k a n).cmd = s.cmd := rfl
@[simp] theorem State.poisonDram_ctx (k a n : Nat) : (s.poisonDram k a n).ctx = s.ctx := rfl
@[simp] theorem State.poisonDram_det (k a n : Nat) : (s.poisonDram k a n).det = s.det := rfl
@[simp] theorem State.poisonDram_links (k a n : Nat) : (s.poisonDram k a n).links = s.links := rfl
@[simp] theorem State.poisonDram_trim (k a n : Nat) : (s.poisonDram k a n).trim = s.trim := rfl
@[simp] theorem State.poisonDram_regs (k a n : Nat) : (s.poisonDram k a n).regs = s.regs := rfl
@[simp] theorem State.poisonDram_dict (k a n : Nat) : (s.poisonDram k a n).dict = s.dict := rfl
@[simp] theorem State.poisonDram_blobs (k a n : Nat) : (s.poisonDram k a n).blobs = s.blobs := rfl
@[simp] theorem State.poisonDram_doors (k a n : Nat) : (s.poisonDram k a n).doors = s.doors := rfl
@[simp] theorem State.poisonDram_pcie (k a n : Nat) : (s.poisonDram k a n).pcie = s.pcie := rfl
@[simp] theorem State.poisonDram_crv (k a n : Nat) : (s.poisonDram k a n).crv = s.crv := rfl
@[simp] theorem State.poisonDram_ledger (k a n : Nat) : (s.poisonDram k a n).ledger = s.ledger := rfl
@[simp] theorem State.poisonDram_saf (k a n : Nat) : (s.poisonDram k a n).saf = s.saf := rfl
@[simp] theorem State.poisonDram_pwr (k a n : Nat) : (s.poisonDram k a n).pwr = s.pwr := rfl
@[simp] theorem State.poisonDram_hostMem (k a n : Nat) : (s.poisonDram k a n).hostMem = s.hostMem := rfl
@[simp] theorem State.poisonDram_dram (k a n : Nat) : (s.poisonDram k a n).dram = s.dram := rfl
@[simp] theorem State.poisonDram_oasis (k a n : Nat) : (s.poisonDram k a n).oasis = s.oasis := rfl
@[simp] theorem State.poisonDram_dramPoison (k a n : Nat) : (s.poisonDram k a n).dramPoison = markBad k a n s.dramPoison := rfl
@[simp] theorem State.poisonDram_oasisPoison (k a n : Nat) : (s.poisonDram k a n).oasisPoison = s.oasisPoison := rfl
@[simp] theorem State.poisonDram_dramSingle (k a n : Nat) : (s.poisonDram k a n).dramSingle = s.dramSingle := rfl
@[simp] theorem State.poisonDram_oasisSingle (k a n : Nat) : (s.poisonDram k a n).oasisSingle = s.oasisSingle := rfl
@[simp] theorem State.poisonDram_events (k a n : Nat) : (s.poisonDram k a n).events = s.events := rfl
@[simp] theorem State.poisonDram_out (k a n : Nat) : (s.poisonDram k a n).out = s.out := rfl
@[simp] theorem State.poisonDram_memEpoch (k a n : Nat) : (s.poisonDram k a n).memEpoch = s.memEpoch := rfl
@[simp] theorem State.poisonDram_freeCtr (k a n : Nat) : (s.poisonDram k a n).freeCtr = s.freeCtr := rfl
@[simp] theorem State.poisonDram_pending (k a n : Nat) : (s.poisonDram k a n).pending = s.pending := rfl
@[simp] theorem State.poisonDram_reg (k a n : Nat) (x : Nat) : (s.poisonDram k a n).reg x = s.reg x := rfl
@[simp] theorem State.poisonDram_od (k a n : Nat) (x : Nat) : (s.poisonDram k a n).od x = s.od x := rfl
@[simp] theorem State.poisonDram_odFlag (k a n : Nat) (x : Nat) : (s.poisonDram k a n).odFlag x = s.odFlag x := rfl
@[simp] theorem State.poisonDram_blob (k a n : Nat) (x : Nat) : (s.poisonDram k a n).blob x = s.blob x := rfl
@[simp] theorem State.poisonDram_port (k a n : Nat) (x : PortIx) : (s.poisonDram k a n).port x = s.port x := rfl
@[simp] theorem State.poisonDram_fsPort (k a n : Nat) (x : PortIx) : (s.poisonDram k a n).fsPort x = s.fsPort x := rfl
@[simp] theorem State.poisonDram_slice (k a n : Nat) (x : SliceIx) : (s.poisonDram k a n).slice x = s.slice x := rfl
@[simp] theorem State.poisonDram_core (k a n : Nat) (x : CoreIx) : (s.poisonDram k a n).core x = s.core x := rfl
@[simp] theorem State.poisonDram_link (k a n : Nat) (x : LinkIx) : (s.poisonDram k a n).link x = s.link x := rfl

@[simp] theorem State.modPort_dt (c : PortIx) (f : Port → Port) : (s.modPort c f).dt = s.dt := rfl
@[simp] theorem State.modPort_dev (c : PortIx) (f : Port → Port) : (s.modPort c f).dev = s.dev := rfl
@[simp] theorem State.modPort_web (c : PortIx) (f : Port → Port) : (s.modPort c f).web = s.web := rfl
@[simp] theorem State.modPort_ports (c : PortIx) (f : Port → Port) : (s.modPort c f).ports = s.ports.set c (f s.ports[c]) := rfl
@[simp] theorem State.modPort_fsPorts (c : PortIx) (f : Port → Port) : (s.modPort c f).fsPorts = s.fsPorts := rfl
@[simp] theorem State.modPort_slices (c : PortIx) (f : Port → Port) : (s.modPort c f).slices = s.slices := rfl
@[simp] theorem State.modPort_tensors (c : PortIx) (f : Port → Port) : (s.modPort c f).tensors = s.tensors := rfl
@[simp] theorem State.modPort_cores (c : PortIx) (f : Port → Port) : (s.modPort c f).cores = s.cores := rfl
@[simp] theorem State.modPort_cmd (c : PortIx) (f : Port → Port) : (s.modPort c f).cmd = s.cmd := rfl
@[simp] theorem State.modPort_ctx (c : PortIx) (f : Port → Port) : (s.modPort c f).ctx = s.ctx := rfl
@[simp] theorem State.modPort_det (c : PortIx) (f : Port → Port) : (s.modPort c f).det = s.det := rfl
@[simp] theorem State.modPort_links (c : PortIx) (f : Port → Port) : (s.modPort c f).links = s.links := rfl
@[simp] theorem State.modPort_trim (c : PortIx) (f : Port → Port) : (s.modPort c f).trim = s.trim := rfl
@[simp] theorem State.modPort_regs (c : PortIx) (f : Port → Port) : (s.modPort c f).regs = s.regs := rfl
@[simp] theorem State.modPort_dict (c : PortIx) (f : Port → Port) : (s.modPort c f).dict = s.dict := rfl
@[simp] theorem State.modPort_blobs (c : PortIx) (f : Port → Port) : (s.modPort c f).blobs = s.blobs := rfl
@[simp] theorem State.modPort_doors (c : PortIx) (f : Port → Port) : (s.modPort c f).doors = s.doors := rfl
@[simp] theorem State.modPort_pcie (c : PortIx) (f : Port → Port) : (s.modPort c f).pcie = s.pcie := rfl
@[simp] theorem State.modPort_crv (c : PortIx) (f : Port → Port) : (s.modPort c f).crv = s.crv := rfl
@[simp] theorem State.modPort_ledger (c : PortIx) (f : Port → Port) : (s.modPort c f).ledger = s.ledger := rfl
@[simp] theorem State.modPort_saf (c : PortIx) (f : Port → Port) : (s.modPort c f).saf = s.saf := rfl
@[simp] theorem State.modPort_pwr (c : PortIx) (f : Port → Port) : (s.modPort c f).pwr = s.pwr := rfl
@[simp] theorem State.modPort_hostMem (c : PortIx) (f : Port → Port) : (s.modPort c f).hostMem = s.hostMem := rfl
@[simp] theorem State.modPort_dram (c : PortIx) (f : Port → Port) : (s.modPort c f).dram = s.dram := rfl
@[simp] theorem State.modPort_oasis (c : PortIx) (f : Port → Port) : (s.modPort c f).oasis = s.oasis := rfl
@[simp] theorem State.modPort_dramPoison (c : PortIx) (f : Port → Port) : (s.modPort c f).dramPoison = s.dramPoison := rfl
@[simp] theorem State.modPort_oasisPoison (c : PortIx) (f : Port → Port) : (s.modPort c f).oasisPoison = s.oasisPoison := rfl
@[simp] theorem State.modPort_dramSingle (c : PortIx) (f : Port → Port) : (s.modPort c f).dramSingle = s.dramSingle := rfl
@[simp] theorem State.modPort_oasisSingle (c : PortIx) (f : Port → Port) : (s.modPort c f).oasisSingle = s.oasisSingle := rfl
@[simp] theorem State.modPort_events (c : PortIx) (f : Port → Port) : (s.modPort c f).events = s.events := rfl
@[simp] theorem State.modPort_out (c : PortIx) (f : Port → Port) : (s.modPort c f).out = s.out := rfl
@[simp] theorem State.modPort_memEpoch (c : PortIx) (f : Port → Port) : (s.modPort c f).memEpoch = s.memEpoch := rfl
@[simp] theorem State.modPort_freeCtr (c : PortIx) (f : Port → Port) : (s.modPort c f).freeCtr = s.freeCtr := rfl
@[simp] theorem State.modPort_pending (c : PortIx) (f : Port → Port) : (s.modPort c f).pending = s.pending := rfl
@[simp] theorem State.modPort_reg (c : PortIx) (f : Port → Port) (x : Nat) : (s.modPort c f).reg x = s.reg x := rfl
@[simp] theorem State.modPort_od (c : PortIx) (f : Port → Port) (x : Nat) : (s.modPort c f).od x = s.od x := rfl
@[simp] theorem State.modPort_odFlag (c : PortIx) (f : Port → Port) (x : Nat) : (s.modPort c f).odFlag x = s.odFlag x := rfl
@[simp] theorem State.modPort_blob (c : PortIx) (f : Port → Port) (x : Nat) : (s.modPort c f).blob x = s.blob x := rfl
@[simp] theorem State.modPort_fsPort (c : PortIx) (f : Port → Port) (x : PortIx) : (s.modPort c f).fsPort x = s.fsPort x := rfl
@[simp] theorem State.modPort_slice (c : PortIx) (f : Port → Port) (x : SliceIx) : (s.modPort c f).slice x = s.slice x := rfl
@[simp] theorem State.modPort_core (c : PortIx) (f : Port → Port) (x : CoreIx) : (s.modPort c f).core x = s.core x := rfl
@[simp] theorem State.modPort_link (c : PortIx) (f : Port → Port) (x : LinkIx) : (s.modPort c f).link x = s.link x := rfl

@[simp] theorem State.modFs_dt (c : PortIx) (f : FsPort → FsPort) : (s.modFs c f).dt = s.dt := rfl
@[simp] theorem State.modFs_dev (c : PortIx) (f : FsPort → FsPort) : (s.modFs c f).dev = s.dev := rfl
@[simp] theorem State.modFs_web (c : PortIx) (f : FsPort → FsPort) : (s.modFs c f).web = s.web := rfl
@[simp] theorem State.modFs_ports (c : PortIx) (f : FsPort → FsPort) : (s.modFs c f).ports = s.ports := rfl
@[simp] theorem State.modFs_fsPorts (c : PortIx) (f : FsPort → FsPort) : (s.modFs c f).fsPorts = s.fsPorts.set c (f s.fsPorts[c]) := rfl
@[simp] theorem State.modFs_slices (c : PortIx) (f : FsPort → FsPort) : (s.modFs c f).slices = s.slices := rfl
@[simp] theorem State.modFs_tensors (c : PortIx) (f : FsPort → FsPort) : (s.modFs c f).tensors = s.tensors := rfl
@[simp] theorem State.modFs_cores (c : PortIx) (f : FsPort → FsPort) : (s.modFs c f).cores = s.cores := rfl
@[simp] theorem State.modFs_cmd (c : PortIx) (f : FsPort → FsPort) : (s.modFs c f).cmd = s.cmd := rfl
@[simp] theorem State.modFs_ctx (c : PortIx) (f : FsPort → FsPort) : (s.modFs c f).ctx = s.ctx := rfl
@[simp] theorem State.modFs_det (c : PortIx) (f : FsPort → FsPort) : (s.modFs c f).det = s.det := rfl
@[simp] theorem State.modFs_links (c : PortIx) (f : FsPort → FsPort) : (s.modFs c f).links = s.links := rfl
@[simp] theorem State.modFs_trim (c : PortIx) (f : FsPort → FsPort) : (s.modFs c f).trim = s.trim := rfl
@[simp] theorem State.modFs_regs (c : PortIx) (f : FsPort → FsPort) : (s.modFs c f).regs = s.regs := rfl
@[simp] theorem State.modFs_dict (c : PortIx) (f : FsPort → FsPort) : (s.modFs c f).dict = s.dict := rfl
@[simp] theorem State.modFs_blobs (c : PortIx) (f : FsPort → FsPort) : (s.modFs c f).blobs = s.blobs := rfl
@[simp] theorem State.modFs_doors (c : PortIx) (f : FsPort → FsPort) : (s.modFs c f).doors = s.doors := rfl
@[simp] theorem State.modFs_pcie (c : PortIx) (f : FsPort → FsPort) : (s.modFs c f).pcie = s.pcie := rfl
@[simp] theorem State.modFs_crv (c : PortIx) (f : FsPort → FsPort) : (s.modFs c f).crv = s.crv := rfl
@[simp] theorem State.modFs_ledger (c : PortIx) (f : FsPort → FsPort) : (s.modFs c f).ledger = s.ledger := rfl
@[simp] theorem State.modFs_saf (c : PortIx) (f : FsPort → FsPort) : (s.modFs c f).saf = s.saf := rfl
@[simp] theorem State.modFs_pwr (c : PortIx) (f : FsPort → FsPort) : (s.modFs c f).pwr = s.pwr := rfl
@[simp] theorem State.modFs_hostMem (c : PortIx) (f : FsPort → FsPort) : (s.modFs c f).hostMem = s.hostMem := rfl
@[simp] theorem State.modFs_dram (c : PortIx) (f : FsPort → FsPort) : (s.modFs c f).dram = s.dram := rfl
@[simp] theorem State.modFs_oasis (c : PortIx) (f : FsPort → FsPort) : (s.modFs c f).oasis = s.oasis := rfl
@[simp] theorem State.modFs_dramPoison (c : PortIx) (f : FsPort → FsPort) : (s.modFs c f).dramPoison = s.dramPoison := rfl
@[simp] theorem State.modFs_oasisPoison (c : PortIx) (f : FsPort → FsPort) : (s.modFs c f).oasisPoison = s.oasisPoison := rfl
@[simp] theorem State.modFs_dramSingle (c : PortIx) (f : FsPort → FsPort) : (s.modFs c f).dramSingle = s.dramSingle := rfl
@[simp] theorem State.modFs_oasisSingle (c : PortIx) (f : FsPort → FsPort) : (s.modFs c f).oasisSingle = s.oasisSingle := rfl
@[simp] theorem State.modFs_events (c : PortIx) (f : FsPort → FsPort) : (s.modFs c f).events = s.events := rfl
@[simp] theorem State.modFs_out (c : PortIx) (f : FsPort → FsPort) : (s.modFs c f).out = s.out := rfl
@[simp] theorem State.modFs_memEpoch (c : PortIx) (f : FsPort → FsPort) : (s.modFs c f).memEpoch = s.memEpoch := rfl
@[simp] theorem State.modFs_freeCtr (c : PortIx) (f : FsPort → FsPort) : (s.modFs c f).freeCtr = s.freeCtr := rfl
@[simp] theorem State.modFs_pending (c : PortIx) (f : FsPort → FsPort) : (s.modFs c f).pending = s.pending := rfl
@[simp] theorem State.modFs_reg (c : PortIx) (f : FsPort → FsPort) (x : Nat) : (s.modFs c f).reg x = s.reg x := rfl
@[simp] theorem State.modFs_od (c : PortIx) (f : FsPort → FsPort) (x : Nat) : (s.modFs c f).od x = s.od x := rfl
@[simp] theorem State.modFs_odFlag (c : PortIx) (f : FsPort → FsPort) (x : Nat) : (s.modFs c f).odFlag x = s.odFlag x := rfl
@[simp] theorem State.modFs_blob (c : PortIx) (f : FsPort → FsPort) (x : Nat) : (s.modFs c f).blob x = s.blob x := rfl
@[simp] theorem State.modFs_port (c : PortIx) (f : FsPort → FsPort) (x : PortIx) : (s.modFs c f).port x = s.port x := rfl
@[simp] theorem State.modFs_slice (c : PortIx) (f : FsPort → FsPort) (x : SliceIx) : (s.modFs c f).slice x = s.slice x := rfl
@[simp] theorem State.modFs_core (c : PortIx) (f : FsPort → FsPort) (x : CoreIx) : (s.modFs c f).core x = s.core x := rfl
@[simp] theorem State.modFs_link (c : PortIx) (f : FsPort → FsPort) (x : LinkIx) : (s.modFs c f).link x = s.link x := rfl

@[simp] theorem State.modSlice_dt (k : SliceIx) (f : Slice → Slice) : (s.modSlice k f).dt = s.dt := rfl
@[simp] theorem State.modSlice_dev (k : SliceIx) (f : Slice → Slice) : (s.modSlice k f).dev = s.dev := rfl
@[simp] theorem State.modSlice_web (k : SliceIx) (f : Slice → Slice) : (s.modSlice k f).web = s.web := rfl
@[simp] theorem State.modSlice_ports (k : SliceIx) (f : Slice → Slice) : (s.modSlice k f).ports = s.ports := rfl
@[simp] theorem State.modSlice_fsPorts (k : SliceIx) (f : Slice → Slice) : (s.modSlice k f).fsPorts = s.fsPorts := rfl
@[simp] theorem State.modSlice_slices (k : SliceIx) (f : Slice → Slice) : (s.modSlice k f).slices = s.slices.set k (f s.slices[k]) := rfl
@[simp] theorem State.modSlice_tensors (k : SliceIx) (f : Slice → Slice) : (s.modSlice k f).tensors = s.tensors := rfl
@[simp] theorem State.modSlice_cores (k : SliceIx) (f : Slice → Slice) : (s.modSlice k f).cores = s.cores := rfl
@[simp] theorem State.modSlice_cmd (k : SliceIx) (f : Slice → Slice) : (s.modSlice k f).cmd = s.cmd := rfl
@[simp] theorem State.modSlice_ctx (k : SliceIx) (f : Slice → Slice) : (s.modSlice k f).ctx = s.ctx := rfl
@[simp] theorem State.modSlice_det (k : SliceIx) (f : Slice → Slice) : (s.modSlice k f).det = s.det := rfl
@[simp] theorem State.modSlice_links (k : SliceIx) (f : Slice → Slice) : (s.modSlice k f).links = s.links := rfl
@[simp] theorem State.modSlice_trim (k : SliceIx) (f : Slice → Slice) : (s.modSlice k f).trim = s.trim := rfl
@[simp] theorem State.modSlice_regs (k : SliceIx) (f : Slice → Slice) : (s.modSlice k f).regs = s.regs := rfl
@[simp] theorem State.modSlice_dict (k : SliceIx) (f : Slice → Slice) : (s.modSlice k f).dict = s.dict := rfl
@[simp] theorem State.modSlice_blobs (k : SliceIx) (f : Slice → Slice) : (s.modSlice k f).blobs = s.blobs := rfl
@[simp] theorem State.modSlice_doors (k : SliceIx) (f : Slice → Slice) : (s.modSlice k f).doors = s.doors := rfl
@[simp] theorem State.modSlice_pcie (k : SliceIx) (f : Slice → Slice) : (s.modSlice k f).pcie = s.pcie := rfl
@[simp] theorem State.modSlice_crv (k : SliceIx) (f : Slice → Slice) : (s.modSlice k f).crv = s.crv := rfl
@[simp] theorem State.modSlice_ledger (k : SliceIx) (f : Slice → Slice) : (s.modSlice k f).ledger = s.ledger := rfl
@[simp] theorem State.modSlice_saf (k : SliceIx) (f : Slice → Slice) : (s.modSlice k f).saf = s.saf := rfl
@[simp] theorem State.modSlice_pwr (k : SliceIx) (f : Slice → Slice) : (s.modSlice k f).pwr = s.pwr := rfl
@[simp] theorem State.modSlice_hostMem (k : SliceIx) (f : Slice → Slice) : (s.modSlice k f).hostMem = s.hostMem := rfl
@[simp] theorem State.modSlice_dram (k : SliceIx) (f : Slice → Slice) : (s.modSlice k f).dram = s.dram := rfl
@[simp] theorem State.modSlice_oasis (k : SliceIx) (f : Slice → Slice) : (s.modSlice k f).oasis = s.oasis := rfl
@[simp] theorem State.modSlice_dramPoison (k : SliceIx) (f : Slice → Slice) : (s.modSlice k f).dramPoison = s.dramPoison := rfl
@[simp] theorem State.modSlice_oasisPoison (k : SliceIx) (f : Slice → Slice) : (s.modSlice k f).oasisPoison = s.oasisPoison := rfl
@[simp] theorem State.modSlice_dramSingle (k : SliceIx) (f : Slice → Slice) : (s.modSlice k f).dramSingle = s.dramSingle := rfl
@[simp] theorem State.modSlice_oasisSingle (k : SliceIx) (f : Slice → Slice) : (s.modSlice k f).oasisSingle = s.oasisSingle := rfl
@[simp] theorem State.modSlice_events (k : SliceIx) (f : Slice → Slice) : (s.modSlice k f).events = s.events := rfl
@[simp] theorem State.modSlice_out (k : SliceIx) (f : Slice → Slice) : (s.modSlice k f).out = s.out := rfl
@[simp] theorem State.modSlice_memEpoch (k : SliceIx) (f : Slice → Slice) : (s.modSlice k f).memEpoch = s.memEpoch := rfl
@[simp] theorem State.modSlice_freeCtr (k : SliceIx) (f : Slice → Slice) : (s.modSlice k f).freeCtr = s.freeCtr := rfl
@[simp] theorem State.modSlice_pending (k : SliceIx) (f : Slice → Slice) : (s.modSlice k f).pending = s.pending := rfl
@[simp] theorem State.modSlice_reg (k : SliceIx) (f : Slice → Slice) (x : Nat) : (s.modSlice k f).reg x = s.reg x := rfl
@[simp] theorem State.modSlice_od (k : SliceIx) (f : Slice → Slice) (x : Nat) : (s.modSlice k f).od x = s.od x := rfl
@[simp] theorem State.modSlice_odFlag (k : SliceIx) (f : Slice → Slice) (x : Nat) : (s.modSlice k f).odFlag x = s.odFlag x := rfl
@[simp] theorem State.modSlice_blob (k : SliceIx) (f : Slice → Slice) (x : Nat) : (s.modSlice k f).blob x = s.blob x := rfl
@[simp] theorem State.modSlice_port (k : SliceIx) (f : Slice → Slice) (x : PortIx) : (s.modSlice k f).port x = s.port x := rfl
@[simp] theorem State.modSlice_fsPort (k : SliceIx) (f : Slice → Slice) (x : PortIx) : (s.modSlice k f).fsPort x = s.fsPort x := rfl
@[simp] theorem State.modSlice_core (k : SliceIx) (f : Slice → Slice) (x : CoreIx) : (s.modSlice k f).core x = s.core x := rfl
@[simp] theorem State.modSlice_link (k : SliceIx) (f : Slice → Slice) (x : LinkIx) : (s.modSlice k f).link x = s.link x := rfl

@[simp] theorem State.modTensor_dt (n : Nat) (f : Tensor → Tensor) : (s.modTensor n f).dt = s.dt := rfl
@[simp] theorem State.modTensor_dev (n : Nat) (f : Tensor → Tensor) : (s.modTensor n f).dev = s.dev := rfl
@[simp] theorem State.modTensor_web (n : Nat) (f : Tensor → Tensor) : (s.modTensor n f).web = s.web := rfl
@[simp] theorem State.modTensor_ports (n : Nat) (f : Tensor → Tensor) : (s.modTensor n f).ports = s.ports := rfl
@[simp] theorem State.modTensor_fsPorts (n : Nat) (f : Tensor → Tensor) : (s.modTensor n f).fsPorts = s.fsPorts := rfl
@[simp] theorem State.modTensor_slices (n : Nat) (f : Tensor → Tensor) : (s.modTensor n f).slices = s.slices := rfl
@[simp] theorem State.modTensor_cores (n : Nat) (f : Tensor → Tensor) : (s.modTensor n f).cores = s.cores := rfl
@[simp] theorem State.modTensor_cmd (n : Nat) (f : Tensor → Tensor) : (s.modTensor n f).cmd = s.cmd := rfl
@[simp] theorem State.modTensor_ctx (n : Nat) (f : Tensor → Tensor) : (s.modTensor n f).ctx = s.ctx := rfl
@[simp] theorem State.modTensor_det (n : Nat) (f : Tensor → Tensor) : (s.modTensor n f).det = s.det := rfl
@[simp] theorem State.modTensor_links (n : Nat) (f : Tensor → Tensor) : (s.modTensor n f).links = s.links := rfl
@[simp] theorem State.modTensor_trim (n : Nat) (f : Tensor → Tensor) : (s.modTensor n f).trim = s.trim := rfl
@[simp] theorem State.modTensor_regs (n : Nat) (f : Tensor → Tensor) : (s.modTensor n f).regs = s.regs := rfl
@[simp] theorem State.modTensor_dict (n : Nat) (f : Tensor → Tensor) : (s.modTensor n f).dict = s.dict := rfl
@[simp] theorem State.modTensor_blobs (n : Nat) (f : Tensor → Tensor) : (s.modTensor n f).blobs = s.blobs := rfl
@[simp] theorem State.modTensor_doors (n : Nat) (f : Tensor → Tensor) : (s.modTensor n f).doors = s.doors := rfl
@[simp] theorem State.modTensor_pcie (n : Nat) (f : Tensor → Tensor) : (s.modTensor n f).pcie = s.pcie := rfl
@[simp] theorem State.modTensor_crv (n : Nat) (f : Tensor → Tensor) : (s.modTensor n f).crv = s.crv := rfl
@[simp] theorem State.modTensor_ledger (n : Nat) (f : Tensor → Tensor) : (s.modTensor n f).ledger = s.ledger := rfl
@[simp] theorem State.modTensor_saf (n : Nat) (f : Tensor → Tensor) : (s.modTensor n f).saf = s.saf := rfl
@[simp] theorem State.modTensor_pwr (n : Nat) (f : Tensor → Tensor) : (s.modTensor n f).pwr = s.pwr := rfl
@[simp] theorem State.modTensor_hostMem (n : Nat) (f : Tensor → Tensor) : (s.modTensor n f).hostMem = s.hostMem := rfl
@[simp] theorem State.modTensor_dram (n : Nat) (f : Tensor → Tensor) : (s.modTensor n f).dram = s.dram := rfl
@[simp] theorem State.modTensor_oasis (n : Nat) (f : Tensor → Tensor) : (s.modTensor n f).oasis = s.oasis := rfl
@[simp] theorem State.modTensor_dramPoison (n : Nat) (f : Tensor → Tensor) : (s.modTensor n f).dramPoison = s.dramPoison := rfl
@[simp] theorem State.modTensor_oasisPoison (n : Nat) (f : Tensor → Tensor) : (s.modTensor n f).oasisPoison = s.oasisPoison := rfl
@[simp] theorem State.modTensor_dramSingle (n : Nat) (f : Tensor → Tensor) : (s.modTensor n f).dramSingle = s.dramSingle := rfl
@[simp] theorem State.modTensor_oasisSingle (n : Nat) (f : Tensor → Tensor) : (s.modTensor n f).oasisSingle = s.oasisSingle := rfl
@[simp] theorem State.modTensor_events (n : Nat) (f : Tensor → Tensor) : (s.modTensor n f).events = s.events := rfl
@[simp] theorem State.modTensor_out (n : Nat) (f : Tensor → Tensor) : (s.modTensor n f).out = s.out := rfl
@[simp] theorem State.modTensor_memEpoch (n : Nat) (f : Tensor → Tensor) : (s.modTensor n f).memEpoch = s.memEpoch := rfl
@[simp] theorem State.modTensor_freeCtr (n : Nat) (f : Tensor → Tensor) : (s.modTensor n f).freeCtr = s.freeCtr := rfl
@[simp] theorem State.modTensor_pending (n : Nat) (f : Tensor → Tensor) : (s.modTensor n f).pending = s.pending := rfl
@[simp] theorem State.modTensor_reg (n : Nat) (f : Tensor → Tensor) (x : Nat) : (s.modTensor n f).reg x = s.reg x := rfl
@[simp] theorem State.modTensor_od (n : Nat) (f : Tensor → Tensor) (x : Nat) : (s.modTensor n f).od x = s.od x := rfl
@[simp] theorem State.modTensor_odFlag (n : Nat) (f : Tensor → Tensor) (x : Nat) : (s.modTensor n f).odFlag x = s.odFlag x := rfl
@[simp] theorem State.modTensor_blob (n : Nat) (f : Tensor → Tensor) (x : Nat) : (s.modTensor n f).blob x = s.blob x := rfl
@[simp] theorem State.modTensor_port (n : Nat) (f : Tensor → Tensor) (x : PortIx) : (s.modTensor n f).port x = s.port x := rfl
@[simp] theorem State.modTensor_fsPort (n : Nat) (f : Tensor → Tensor) (x : PortIx) : (s.modTensor n f).fsPort x = s.fsPort x := rfl
@[simp] theorem State.modTensor_slice (n : Nat) (f : Tensor → Tensor) (x : SliceIx) : (s.modTensor n f).slice x = s.slice x := rfl
@[simp] theorem State.modTensor_core (n : Nat) (f : Tensor → Tensor) (x : CoreIx) : (s.modTensor n f).core x = s.core x := rfl
@[simp] theorem State.modTensor_link (n : Nat) (f : Tensor → Tensor) (x : LinkIx) : (s.modTensor n f).link x = s.link x := rfl

@[simp] theorem State.modCore_dt (k : CoreIx) (f : Core → Core) : (s.modCore k f).dt = s.dt := rfl
@[simp] theorem State.modCore_dev (k : CoreIx) (f : Core → Core) : (s.modCore k f).dev = s.dev := rfl
@[simp] theorem State.modCore_web (k : CoreIx) (f : Core → Core) : (s.modCore k f).web = s.web := rfl
@[simp] theorem State.modCore_ports (k : CoreIx) (f : Core → Core) : (s.modCore k f).ports = s.ports := rfl
@[simp] theorem State.modCore_fsPorts (k : CoreIx) (f : Core → Core) : (s.modCore k f).fsPorts = s.fsPorts := rfl
@[simp] theorem State.modCore_slices (k : CoreIx) (f : Core → Core) : (s.modCore k f).slices = s.slices := rfl
@[simp] theorem State.modCore_tensors (k : CoreIx) (f : Core → Core) : (s.modCore k f).tensors = s.tensors := rfl
@[simp] theorem State.modCore_cores (k : CoreIx) (f : Core → Core) : (s.modCore k f).cores = s.cores.set k (f s.cores[k]) := rfl
@[simp] theorem State.modCore_cmd (k : CoreIx) (f : Core → Core) : (s.modCore k f).cmd = s.cmd := rfl
@[simp] theorem State.modCore_ctx (k : CoreIx) (f : Core → Core) : (s.modCore k f).ctx = s.ctx := rfl
@[simp] theorem State.modCore_det (k : CoreIx) (f : Core → Core) : (s.modCore k f).det = s.det := rfl
@[simp] theorem State.modCore_links (k : CoreIx) (f : Core → Core) : (s.modCore k f).links = s.links := rfl
@[simp] theorem State.modCore_trim (k : CoreIx) (f : Core → Core) : (s.modCore k f).trim = s.trim := rfl
@[simp] theorem State.modCore_regs (k : CoreIx) (f : Core → Core) : (s.modCore k f).regs = s.regs := rfl
@[simp] theorem State.modCore_dict (k : CoreIx) (f : Core → Core) : (s.modCore k f).dict = s.dict := rfl
@[simp] theorem State.modCore_blobs (k : CoreIx) (f : Core → Core) : (s.modCore k f).blobs = s.blobs := rfl
@[simp] theorem State.modCore_doors (k : CoreIx) (f : Core → Core) : (s.modCore k f).doors = s.doors := rfl
@[simp] theorem State.modCore_pcie (k : CoreIx) (f : Core → Core) : (s.modCore k f).pcie = s.pcie := rfl
@[simp] theorem State.modCore_crv (k : CoreIx) (f : Core → Core) : (s.modCore k f).crv = s.crv := rfl
@[simp] theorem State.modCore_ledger (k : CoreIx) (f : Core → Core) : (s.modCore k f).ledger = s.ledger := rfl
@[simp] theorem State.modCore_saf (k : CoreIx) (f : Core → Core) : (s.modCore k f).saf = s.saf := rfl
@[simp] theorem State.modCore_pwr (k : CoreIx) (f : Core → Core) : (s.modCore k f).pwr = s.pwr := rfl
@[simp] theorem State.modCore_hostMem (k : CoreIx) (f : Core → Core) : (s.modCore k f).hostMem = s.hostMem := rfl
@[simp] theorem State.modCore_dram (k : CoreIx) (f : Core → Core) : (s.modCore k f).dram = s.dram := rfl
@[simp] theorem State.modCore_oasis (k : CoreIx) (f : Core → Core) : (s.modCore k f).oasis = s.oasis := rfl
@[simp] theorem State.modCore_dramPoison (k : CoreIx) (f : Core → Core) : (s.modCore k f).dramPoison = s.dramPoison := rfl
@[simp] theorem State.modCore_oasisPoison (k : CoreIx) (f : Core → Core) : (s.modCore k f).oasisPoison = s.oasisPoison := rfl
@[simp] theorem State.modCore_dramSingle (k : CoreIx) (f : Core → Core) : (s.modCore k f).dramSingle = s.dramSingle := rfl
@[simp] theorem State.modCore_oasisSingle (k : CoreIx) (f : Core → Core) : (s.modCore k f).oasisSingle = s.oasisSingle := rfl
@[simp] theorem State.modCore_events (k : CoreIx) (f : Core → Core) : (s.modCore k f).events = s.events := rfl
@[simp] theorem State.modCore_out (k : CoreIx) (f : Core → Core) : (s.modCore k f).out = s.out := rfl
@[simp] theorem State.modCore_memEpoch (k : CoreIx) (f : Core → Core) : (s.modCore k f).memEpoch = s.memEpoch := rfl
@[simp] theorem State.modCore_freeCtr (k : CoreIx) (f : Core → Core) : (s.modCore k f).freeCtr = s.freeCtr := rfl
@[simp] theorem State.modCore_pending (k : CoreIx) (f : Core → Core) : (s.modCore k f).pending = s.pending := rfl
@[simp] theorem State.modCore_reg (k : CoreIx) (f : Core → Core) (x : Nat) : (s.modCore k f).reg x = s.reg x := rfl
@[simp] theorem State.modCore_od (k : CoreIx) (f : Core → Core) (x : Nat) : (s.modCore k f).od x = s.od x := rfl
@[simp] theorem State.modCore_odFlag (k : CoreIx) (f : Core → Core) (x : Nat) : (s.modCore k f).odFlag x = s.odFlag x := rfl
@[simp] theorem State.modCore_blob (k : CoreIx) (f : Core → Core) (x : Nat) : (s.modCore k f).blob x = s.blob x := rfl
@[simp] theorem State.modCore_port (k : CoreIx) (f : Core → Core) (x : PortIx) : (s.modCore k f).port x = s.port x := rfl
@[simp] theorem State.modCore_fsPort (k : CoreIx) (f : Core → Core) (x : PortIx) : (s.modCore k f).fsPort x = s.fsPort x := rfl
@[simp] theorem State.modCore_slice (k : CoreIx) (f : Core → Core) (x : SliceIx) : (s.modCore k f).slice x = s.slice x := rfl
@[simp] theorem State.modCore_link (k : CoreIx) (f : Core → Core) (x : LinkIx) : (s.modCore k f).link x = s.link x := rfl

@[simp] theorem State.modTile_dt (k : CoreIx) (f : Tile → Tile) : (s.modTile k f).dt = s.dt := rfl
@[simp] theorem State.modTile_dev (k : CoreIx) (f : Tile → Tile) : (s.modTile k f).dev = s.dev := rfl
@[simp] theorem State.modTile_web (k : CoreIx) (f : Tile → Tile) : (s.modTile k f).web = s.web := rfl
@[simp] theorem State.modTile_ports (k : CoreIx) (f : Tile → Tile) : (s.modTile k f).ports = s.ports := rfl
@[simp] theorem State.modTile_fsPorts (k : CoreIx) (f : Tile → Tile) : (s.modTile k f).fsPorts = s.fsPorts := rfl
@[simp] theorem State.modTile_slices (k : CoreIx) (f : Tile → Tile) : (s.modTile k f).slices = s.slices := rfl
@[simp] theorem State.modTile_tensors (k : CoreIx) (f : Tile → Tile) : (s.modTile k f).tensors = s.tensors := rfl
@[simp] theorem State.modTile_cmd (k : CoreIx) (f : Tile → Tile) : (s.modTile k f).cmd = s.cmd := rfl
@[simp] theorem State.modTile_ctx (k : CoreIx) (f : Tile → Tile) : (s.modTile k f).ctx = s.ctx := rfl
@[simp] theorem State.modTile_det (k : CoreIx) (f : Tile → Tile) : (s.modTile k f).det = s.det := rfl
@[simp] theorem State.modTile_links (k : CoreIx) (f : Tile → Tile) : (s.modTile k f).links = s.links := rfl
@[simp] theorem State.modTile_trim (k : CoreIx) (f : Tile → Tile) : (s.modTile k f).trim = s.trim := rfl
@[simp] theorem State.modTile_regs (k : CoreIx) (f : Tile → Tile) : (s.modTile k f).regs = s.regs := rfl
@[simp] theorem State.modTile_dict (k : CoreIx) (f : Tile → Tile) : (s.modTile k f).dict = s.dict := rfl
@[simp] theorem State.modTile_blobs (k : CoreIx) (f : Tile → Tile) : (s.modTile k f).blobs = s.blobs := rfl
@[simp] theorem State.modTile_doors (k : CoreIx) (f : Tile → Tile) : (s.modTile k f).doors = s.doors := rfl
@[simp] theorem State.modTile_pcie (k : CoreIx) (f : Tile → Tile) : (s.modTile k f).pcie = s.pcie := rfl
@[simp] theorem State.modTile_crv (k : CoreIx) (f : Tile → Tile) : (s.modTile k f).crv = s.crv := rfl
@[simp] theorem State.modTile_ledger (k : CoreIx) (f : Tile → Tile) : (s.modTile k f).ledger = s.ledger := rfl
@[simp] theorem State.modTile_saf (k : CoreIx) (f : Tile → Tile) : (s.modTile k f).saf = s.saf := rfl
@[simp] theorem State.modTile_pwr (k : CoreIx) (f : Tile → Tile) : (s.modTile k f).pwr = s.pwr := rfl
@[simp] theorem State.modTile_hostMem (k : CoreIx) (f : Tile → Tile) : (s.modTile k f).hostMem = s.hostMem := rfl
@[simp] theorem State.modTile_dram (k : CoreIx) (f : Tile → Tile) : (s.modTile k f).dram = s.dram := rfl
@[simp] theorem State.modTile_oasis (k : CoreIx) (f : Tile → Tile) : (s.modTile k f).oasis = s.oasis := rfl
@[simp] theorem State.modTile_dramPoison (k : CoreIx) (f : Tile → Tile) : (s.modTile k f).dramPoison = s.dramPoison := rfl
@[simp] theorem State.modTile_oasisPoison (k : CoreIx) (f : Tile → Tile) : (s.modTile k f).oasisPoison = s.oasisPoison := rfl
@[simp] theorem State.modTile_dramSingle (k : CoreIx) (f : Tile → Tile) : (s.modTile k f).dramSingle = s.dramSingle := rfl
@[simp] theorem State.modTile_oasisSingle (k : CoreIx) (f : Tile → Tile) : (s.modTile k f).oasisSingle = s.oasisSingle := rfl
@[simp] theorem State.modTile_events (k : CoreIx) (f : Tile → Tile) : (s.modTile k f).events = s.events := rfl
@[simp] theorem State.modTile_out (k : CoreIx) (f : Tile → Tile) : (s.modTile k f).out = s.out := rfl
@[simp] theorem State.modTile_memEpoch (k : CoreIx) (f : Tile → Tile) : (s.modTile k f).memEpoch = s.memEpoch := rfl
@[simp] theorem State.modTile_freeCtr (k : CoreIx) (f : Tile → Tile) : (s.modTile k f).freeCtr = s.freeCtr := rfl
@[simp] theorem State.modTile_pending (k : CoreIx) (f : Tile → Tile) : (s.modTile k f).pending = s.pending := rfl
@[simp] theorem State.modTile_reg (k : CoreIx) (f : Tile → Tile) (x : Nat) : (s.modTile k f).reg x = s.reg x := rfl
@[simp] theorem State.modTile_od (k : CoreIx) (f : Tile → Tile) (x : Nat) : (s.modTile k f).od x = s.od x := rfl
@[simp] theorem State.modTile_odFlag (k : CoreIx) (f : Tile → Tile) (x : Nat) : (s.modTile k f).odFlag x = s.odFlag x := rfl
@[simp] theorem State.modTile_blob (k : CoreIx) (f : Tile → Tile) (x : Nat) : (s.modTile k f).blob x = s.blob x := rfl
@[simp] theorem State.modTile_port (k : CoreIx) (f : Tile → Tile) (x : PortIx) : (s.modTile k f).port x = s.port x := rfl
@[simp] theorem State.modTile_fsPort (k : CoreIx) (f : Tile → Tile) (x : PortIx) : (s.modTile k f).fsPort x = s.fsPort x := rfl
@[simp] theorem State.modTile_slice (k : CoreIx) (f : Tile → Tile) (x : SliceIx) : (s.modTile k f).slice x = s.slice x := rfl
@[simp] theorem State.modTile_link (k : CoreIx) (f : Tile → Tile) (x : LinkIx) : (s.modTile k f).link x = s.link x := rfl

@[simp] theorem State.modCmd_dt (f : CmdUnit → CmdUnit) : (s.modCmd f).dt = s.dt := rfl
@[simp] theorem State.modCmd_dev (f : CmdUnit → CmdUnit) : (s.modCmd f).dev = s.dev := rfl
@[simp] theorem State.modCmd_web (f : CmdUnit → CmdUnit) : (s.modCmd f).web = s.web := rfl
@[simp] theorem State.modCmd_ports (f : CmdUnit → CmdUnit) : (s.modCmd f).ports = s.ports := rfl
@[simp] theorem State.modCmd_fsPorts (f : CmdUnit → CmdUnit) : (s.modCmd f).fsPorts = s.fsPorts := rfl
@[simp] theorem State.modCmd_slices (f : CmdUnit → CmdUnit) : (s.modCmd f).slices = s.slices := rfl
@[simp] theorem State.modCmd_tensors (f : CmdUnit → CmdUnit) : (s.modCmd f).tensors = s.tensors := rfl
@[simp] theorem State.modCmd_cores (f : CmdUnit → CmdUnit) : (s.modCmd f).cores = s.cores := rfl
@[simp] theorem State.modCmd_cmd (f : CmdUnit → CmdUnit) : (s.modCmd f).cmd = f s.cmd := rfl
@[simp] theorem State.modCmd_ctx (f : CmdUnit → CmdUnit) : (s.modCmd f).ctx = s.ctx := rfl
@[simp] theorem State.modCmd_det (f : CmdUnit → CmdUnit) : (s.modCmd f).det = s.det := rfl
@[simp] theorem State.modCmd_links (f : CmdUnit → CmdUnit) : (s.modCmd f).links = s.links := rfl
@[simp] theorem State.modCmd_trim (f : CmdUnit → CmdUnit) : (s.modCmd f).trim = s.trim := rfl
@[simp] theorem State.modCmd_regs (f : CmdUnit → CmdUnit) : (s.modCmd f).regs = s.regs := rfl
@[simp] theorem State.modCmd_dict (f : CmdUnit → CmdUnit) : (s.modCmd f).dict = s.dict := rfl
@[simp] theorem State.modCmd_blobs (f : CmdUnit → CmdUnit) : (s.modCmd f).blobs = s.blobs := rfl
@[simp] theorem State.modCmd_doors (f : CmdUnit → CmdUnit) : (s.modCmd f).doors = s.doors := rfl
@[simp] theorem State.modCmd_pcie (f : CmdUnit → CmdUnit) : (s.modCmd f).pcie = s.pcie := rfl
@[simp] theorem State.modCmd_crv (f : CmdUnit → CmdUnit) : (s.modCmd f).crv = s.crv := rfl
@[simp] theorem State.modCmd_ledger (f : CmdUnit → CmdUnit) : (s.modCmd f).ledger = s.ledger := rfl
@[simp] theorem State.modCmd_saf (f : CmdUnit → CmdUnit) : (s.modCmd f).saf = s.saf := rfl
@[simp] theorem State.modCmd_pwr (f : CmdUnit → CmdUnit) : (s.modCmd f).pwr = s.pwr := rfl
@[simp] theorem State.modCmd_hostMem (f : CmdUnit → CmdUnit) : (s.modCmd f).hostMem = s.hostMem := rfl
@[simp] theorem State.modCmd_dram (f : CmdUnit → CmdUnit) : (s.modCmd f).dram = s.dram := rfl
@[simp] theorem State.modCmd_oasis (f : CmdUnit → CmdUnit) : (s.modCmd f).oasis = s.oasis := rfl
@[simp] theorem State.modCmd_dramPoison (f : CmdUnit → CmdUnit) : (s.modCmd f).dramPoison = s.dramPoison := rfl
@[simp] theorem State.modCmd_oasisPoison (f : CmdUnit → CmdUnit) : (s.modCmd f).oasisPoison = s.oasisPoison := rfl
@[simp] theorem State.modCmd_dramSingle (f : CmdUnit → CmdUnit) : (s.modCmd f).dramSingle = s.dramSingle := rfl
@[simp] theorem State.modCmd_oasisSingle (f : CmdUnit → CmdUnit) : (s.modCmd f).oasisSingle = s.oasisSingle := rfl
@[simp] theorem State.modCmd_events (f : CmdUnit → CmdUnit) : (s.modCmd f).events = s.events := rfl
@[simp] theorem State.modCmd_out (f : CmdUnit → CmdUnit) : (s.modCmd f).out = s.out := rfl
@[simp] theorem State.modCmd_memEpoch (f : CmdUnit → CmdUnit) : (s.modCmd f).memEpoch = s.memEpoch := rfl
@[simp] theorem State.modCmd_freeCtr (f : CmdUnit → CmdUnit) : (s.modCmd f).freeCtr = s.freeCtr := rfl
@[simp] theorem State.modCmd_pending (f : CmdUnit → CmdUnit) : (s.modCmd f).pending = s.pending := rfl
@[simp] theorem State.modCmd_reg (f : CmdUnit → CmdUnit) (x : Nat) : (s.modCmd f).reg x = s.reg x := rfl
@[simp] theorem State.modCmd_od (f : CmdUnit → CmdUnit) (x : Nat) : (s.modCmd f).od x = s.od x := rfl
@[simp] theorem State.modCmd_odFlag (f : CmdUnit → CmdUnit) (x : Nat) : (s.modCmd f).odFlag x = s.odFlag x := rfl
@[simp] theorem State.modCmd_blob (f : CmdUnit → CmdUnit) (x : Nat) : (s.modCmd f).blob x = s.blob x := rfl
@[simp] theorem State.modCmd_port (f : CmdUnit → CmdUnit) (x : PortIx) : (s.modCmd f).port x = s.port x := rfl
@[simp] theorem State.modCmd_fsPort (f : CmdUnit → CmdUnit) (x : PortIx) : (s.modCmd f).fsPort x = s.fsPort x := rfl
@[simp] theorem State.modCmd_slice (f : CmdUnit → CmdUnit) (x : SliceIx) : (s.modCmd f).slice x = s.slice x := rfl
@[simp] theorem State.modCmd_core (f : CmdUnit → CmdUnit) (x : CoreIx) : (s.modCmd f).core x = s.core x := rfl
@[simp] theorem State.modCmd_link (f : CmdUnit → CmdUnit) (x : LinkIx) : (s.modCmd f).link x = s.link x := rfl

@[simp] theorem State.modJob_dt (g : Nat) (f : Job → Job) : (s.modJob g f).dt = s.dt := rfl
@[simp] theorem State.modJob_dev (g : Nat) (f : Job → Job) : (s.modJob g f).dev = s.dev := rfl
@[simp] theorem State.modJob_web (g : Nat) (f : Job → Job) : (s.modJob g f).web = s.web := rfl
@[simp] theorem State.modJob_ports (g : Nat) (f : Job → Job) : (s.modJob g f).ports = s.ports := rfl
@[simp] theorem State.modJob_fsPorts (g : Nat) (f : Job → Job) : (s.modJob g f).fsPorts = s.fsPorts := rfl
@[simp] theorem State.modJob_slices (g : Nat) (f : Job → Job) : (s.modJob g f).slices = s.slices := rfl
@[simp] theorem State.modJob_tensors (g : Nat) (f : Job → Job) : (s.modJob g f).tensors = s.tensors := rfl
@[simp] theorem State.modJob_cores (g : Nat) (f : Job → Job) : (s.modJob g f).cores = s.cores := rfl
@[simp] theorem State.modJob_ctx (g : Nat) (f : Job → Job) : (s.modJob g f).ctx = s.ctx := rfl
@[simp] theorem State.modJob_det (g : Nat) (f : Job → Job) : (s.modJob g f).det = s.det := rfl
@[simp] theorem State.modJob_links (g : Nat) (f : Job → Job) : (s.modJob g f).links = s.links := rfl
@[simp] theorem State.modJob_trim (g : Nat) (f : Job → Job) : (s.modJob g f).trim = s.trim := rfl
@[simp] theorem State.modJob_regs (g : Nat) (f : Job → Job) : (s.modJob g f).regs = s.regs := rfl
@[simp] theorem State.modJob_dict (g : Nat) (f : Job → Job) : (s.modJob g f).dict = s.dict := rfl
@[simp] theorem State.modJob_blobs (g : Nat) (f : Job → Job) : (s.modJob g f).blobs = s.blobs := rfl
@[simp] theorem State.modJob_doors (g : Nat) (f : Job → Job) : (s.modJob g f).doors = s.doors := rfl
@[simp] theorem State.modJob_pcie (g : Nat) (f : Job → Job) : (s.modJob g f).pcie = s.pcie := rfl
@[simp] theorem State.modJob_crv (g : Nat) (f : Job → Job) : (s.modJob g f).crv = s.crv := rfl
@[simp] theorem State.modJob_ledger (g : Nat) (f : Job → Job) : (s.modJob g f).ledger = s.ledger := rfl
@[simp] theorem State.modJob_saf (g : Nat) (f : Job → Job) : (s.modJob g f).saf = s.saf := rfl
@[simp] theorem State.modJob_pwr (g : Nat) (f : Job → Job) : (s.modJob g f).pwr = s.pwr := rfl
@[simp] theorem State.modJob_hostMem (g : Nat) (f : Job → Job) : (s.modJob g f).hostMem = s.hostMem := rfl
@[simp] theorem State.modJob_dram (g : Nat) (f : Job → Job) : (s.modJob g f).dram = s.dram := rfl
@[simp] theorem State.modJob_oasis (g : Nat) (f : Job → Job) : (s.modJob g f).oasis = s.oasis := rfl
@[simp] theorem State.modJob_dramPoison (g : Nat) (f : Job → Job) : (s.modJob g f).dramPoison = s.dramPoison := rfl
@[simp] theorem State.modJob_oasisPoison (g : Nat) (f : Job → Job) : (s.modJob g f).oasisPoison = s.oasisPoison := rfl
@[simp] theorem State.modJob_dramSingle (g : Nat) (f : Job → Job) : (s.modJob g f).dramSingle = s.dramSingle := rfl
@[simp] theorem State.modJob_oasisSingle (g : Nat) (f : Job → Job) : (s.modJob g f).oasisSingle = s.oasisSingle := rfl
@[simp] theorem State.modJob_events (g : Nat) (f : Job → Job) : (s.modJob g f).events = s.events := rfl
@[simp] theorem State.modJob_out (g : Nat) (f : Job → Job) : (s.modJob g f).out = s.out := rfl
@[simp] theorem State.modJob_memEpoch (g : Nat) (f : Job → Job) : (s.modJob g f).memEpoch = s.memEpoch := rfl
@[simp] theorem State.modJob_freeCtr (g : Nat) (f : Job → Job) : (s.modJob g f).freeCtr = s.freeCtr := rfl
@[simp] theorem State.modJob_pending (g : Nat) (f : Job → Job) : (s.modJob g f).pending = s.pending := rfl
@[simp] theorem State.modJob_reg (g : Nat) (f : Job → Job) (x : Nat) : (s.modJob g f).reg x = s.reg x := rfl
@[simp] theorem State.modJob_od (g : Nat) (f : Job → Job) (x : Nat) : (s.modJob g f).od x = s.od x := rfl
@[simp] theorem State.modJob_odFlag (g : Nat) (f : Job → Job) (x : Nat) : (s.modJob g f).odFlag x = s.odFlag x := rfl
@[simp] theorem State.modJob_blob (g : Nat) (f : Job → Job) (x : Nat) : (s.modJob g f).blob x = s.blob x := rfl
@[simp] theorem State.modJob_port (g : Nat) (f : Job → Job) (x : PortIx) : (s.modJob g f).port x = s.port x := rfl
@[simp] theorem State.modJob_fsPort (g : Nat) (f : Job → Job) (x : PortIx) : (s.modJob g f).fsPort x = s.fsPort x := rfl
@[simp] theorem State.modJob_slice (g : Nat) (f : Job → Job) (x : SliceIx) : (s.modJob g f).slice x = s.slice x := rfl
@[simp] theorem State.modJob_core (g : Nat) (f : Job → Job) (x : CoreIx) : (s.modJob g f).core x = s.core x := rfl
@[simp] theorem State.modJob_link (g : Nat) (f : Job → Job) (x : LinkIx) : (s.modJob g f).link x = s.link x := rfl

@[simp] theorem State.modStream_dt (i : Nat) (f : Stream → Stream) : (s.modStream i f).dt = s.dt := rfl
@[simp] theorem State.modStream_dev (i : Nat) (f : Stream → Stream) : (s.modStream i f).dev = s.dev := rfl
@[simp] theorem State.modStream_web (i : Nat) (f : Stream → Stream) : (s.modStream i f).web = s.web := rfl
@[simp] theorem State.modStream_ports (i : Nat) (f : Stream → Stream) : (s.modStream i f).ports = s.ports := rfl
@[simp] theorem State.modStream_fsPorts (i : Nat) (f : Stream → Stream) : (s.modStream i f).fsPorts = s.fsPorts := rfl
@[simp] theorem State.modStream_slices (i : Nat) (f : Stream → Stream) : (s.modStream i f).slices = s.slices := rfl
@[simp] theorem State.modStream_tensors (i : Nat) (f : Stream → Stream) : (s.modStream i f).tensors = s.tensors := rfl
@[simp] theorem State.modStream_cores (i : Nat) (f : Stream → Stream) : (s.modStream i f).cores = s.cores := rfl
@[simp] theorem State.modStream_ctx (i : Nat) (f : Stream → Stream) : (s.modStream i f).ctx = s.ctx := rfl
@[simp] theorem State.modStream_det (i : Nat) (f : Stream → Stream) : (s.modStream i f).det = s.det := rfl
@[simp] theorem State.modStream_links (i : Nat) (f : Stream → Stream) : (s.modStream i f).links = s.links := rfl
@[simp] theorem State.modStream_trim (i : Nat) (f : Stream → Stream) : (s.modStream i f).trim = s.trim := rfl
@[simp] theorem State.modStream_regs (i : Nat) (f : Stream → Stream) : (s.modStream i f).regs = s.regs := rfl
@[simp] theorem State.modStream_dict (i : Nat) (f : Stream → Stream) : (s.modStream i f).dict = s.dict := rfl
@[simp] theorem State.modStream_blobs (i : Nat) (f : Stream → Stream) : (s.modStream i f).blobs = s.blobs := rfl
@[simp] theorem State.modStream_doors (i : Nat) (f : Stream → Stream) : (s.modStream i f).doors = s.doors := rfl
@[simp] theorem State.modStream_pcie (i : Nat) (f : Stream → Stream) : (s.modStream i f).pcie = s.pcie := rfl
@[simp] theorem State.modStream_crv (i : Nat) (f : Stream → Stream) : (s.modStream i f).crv = s.crv := rfl
@[simp] theorem State.modStream_ledger (i : Nat) (f : Stream → Stream) : (s.modStream i f).ledger = s.ledger := rfl
@[simp] theorem State.modStream_saf (i : Nat) (f : Stream → Stream) : (s.modStream i f).saf = s.saf := rfl
@[simp] theorem State.modStream_pwr (i : Nat) (f : Stream → Stream) : (s.modStream i f).pwr = s.pwr := rfl
@[simp] theorem State.modStream_hostMem (i : Nat) (f : Stream → Stream) : (s.modStream i f).hostMem = s.hostMem := rfl
@[simp] theorem State.modStream_dram (i : Nat) (f : Stream → Stream) : (s.modStream i f).dram = s.dram := rfl
@[simp] theorem State.modStream_oasis (i : Nat) (f : Stream → Stream) : (s.modStream i f).oasis = s.oasis := rfl
@[simp] theorem State.modStream_dramPoison (i : Nat) (f : Stream → Stream) : (s.modStream i f).dramPoison = s.dramPoison := rfl
@[simp] theorem State.modStream_oasisPoison (i : Nat) (f : Stream → Stream) : (s.modStream i f).oasisPoison = s.oasisPoison := rfl
@[simp] theorem State.modStream_dramSingle (i : Nat) (f : Stream → Stream) : (s.modStream i f).dramSingle = s.dramSingle := rfl
@[simp] theorem State.modStream_oasisSingle (i : Nat) (f : Stream → Stream) : (s.modStream i f).oasisSingle = s.oasisSingle := rfl
@[simp] theorem State.modStream_events (i : Nat) (f : Stream → Stream) : (s.modStream i f).events = s.events := rfl
@[simp] theorem State.modStream_out (i : Nat) (f : Stream → Stream) : (s.modStream i f).out = s.out := rfl
@[simp] theorem State.modStream_memEpoch (i : Nat) (f : Stream → Stream) : (s.modStream i f).memEpoch = s.memEpoch := rfl
@[simp] theorem State.modStream_freeCtr (i : Nat) (f : Stream → Stream) : (s.modStream i f).freeCtr = s.freeCtr := rfl
@[simp] theorem State.modStream_pending (i : Nat) (f : Stream → Stream) : (s.modStream i f).pending = s.pending := rfl
@[simp] theorem State.modStream_reg (i : Nat) (f : Stream → Stream) (x : Nat) : (s.modStream i f).reg x = s.reg x := rfl
@[simp] theorem State.modStream_od (i : Nat) (f : Stream → Stream) (x : Nat) : (s.modStream i f).od x = s.od x := rfl
@[simp] theorem State.modStream_odFlag (i : Nat) (f : Stream → Stream) (x : Nat) : (s.modStream i f).odFlag x = s.odFlag x := rfl
@[simp] theorem State.modStream_blob (i : Nat) (f : Stream → Stream) (x : Nat) : (s.modStream i f).blob x = s.blob x := rfl
@[simp] theorem State.modStream_port (i : Nat) (f : Stream → Stream) (x : PortIx) : (s.modStream i f).port x = s.port x := rfl
@[simp] theorem State.modStream_fsPort (i : Nat) (f : Stream → Stream) (x : PortIx) : (s.modStream i f).fsPort x = s.fsPort x := rfl
@[simp] theorem State.modStream_slice (i : Nat) (f : Stream → Stream) (x : SliceIx) : (s.modStream i f).slice x = s.slice x := rfl
@[simp] theorem State.modStream_core (i : Nat) (f : Stream → Stream) (x : CoreIx) : (s.modStream i f).core x = s.core x := rfl
@[simp] theorem State.modStream_link (i : Nat) (f : Stream → Stream) (x : LinkIx) : (s.modStream i f).link x = s.link x := rfl

@[simp] theorem State.modCtx_dt (f : Ctx → Ctx) : (s.modCtx f).dt = s.dt := rfl
@[simp] theorem State.modCtx_dev (f : Ctx → Ctx) : (s.modCtx f).dev = s.dev := rfl
@[simp] theorem State.modCtx_web (f : Ctx → Ctx) : (s.modCtx f).web = s.web := rfl
@[simp] theorem State.modCtx_ports (f : Ctx → Ctx) : (s.modCtx f).ports = s.ports := rfl
@[simp] theorem State.modCtx_fsPorts (f : Ctx → Ctx) : (s.modCtx f).fsPorts = s.fsPorts := rfl
@[simp] theorem State.modCtx_slices (f : Ctx → Ctx) : (s.modCtx f).slices = s.slices := rfl
@[simp] theorem State.modCtx_tensors (f : Ctx → Ctx) : (s.modCtx f).tensors = s.tensors := rfl
@[simp] theorem State.modCtx_cores (f : Ctx → Ctx) : (s.modCtx f).cores = s.cores := rfl
@[simp] theorem State.modCtx_cmd (f : Ctx → Ctx) : (s.modCtx f).cmd = s.cmd := rfl
@[simp] theorem State.modCtx_ctx (f : Ctx → Ctx) : (s.modCtx f).ctx = f s.ctx := rfl
@[simp] theorem State.modCtx_det (f : Ctx → Ctx) : (s.modCtx f).det = s.det := rfl
@[simp] theorem State.modCtx_links (f : Ctx → Ctx) : (s.modCtx f).links = s.links := rfl
@[simp] theorem State.modCtx_trim (f : Ctx → Ctx) : (s.modCtx f).trim = s.trim := rfl
@[simp] theorem State.modCtx_regs (f : Ctx → Ctx) : (s.modCtx f).regs = s.regs := rfl
@[simp] theorem State.modCtx_dict (f : Ctx → Ctx) : (s.modCtx f).dict = s.dict := rfl
@[simp] theorem State.modCtx_blobs (f : Ctx → Ctx) : (s.modCtx f).blobs = s.blobs := rfl
@[simp] theorem State.modCtx_doors (f : Ctx → Ctx) : (s.modCtx f).doors = s.doors := rfl
@[simp] theorem State.modCtx_pcie (f : Ctx → Ctx) : (s.modCtx f).pcie = s.pcie := rfl
@[simp] theorem State.modCtx_crv (f : Ctx → Ctx) : (s.modCtx f).crv = s.crv := rfl
@[simp] theorem State.modCtx_ledger (f : Ctx → Ctx) : (s.modCtx f).ledger = s.ledger := rfl
@[simp] theorem State.modCtx_saf (f : Ctx → Ctx) : (s.modCtx f).saf = s.saf := rfl
@[simp] theorem State.modCtx_pwr (f : Ctx → Ctx) : (s.modCtx f).pwr = s.pwr := rfl
@[simp] theorem State.modCtx_hostMem (f : Ctx → Ctx) : (s.modCtx f).hostMem = s.hostMem := rfl
@[simp] theorem State.modCtx_dram (f : Ctx → Ctx) : (s.modCtx f).dram = s.dram := rfl
@[simp] theorem State.modCtx_oasis (f : Ctx → Ctx) : (s.modCtx f).oasis = s.oasis := rfl
@[simp] theorem State.modCtx_dramPoison (f : Ctx → Ctx) : (s.modCtx f).dramPoison = s.dramPoison := rfl
@[simp] theorem State.modCtx_oasisPoison (f : Ctx → Ctx) : (s.modCtx f).oasisPoison = s.oasisPoison := rfl
@[simp] theorem State.modCtx_dramSingle (f : Ctx → Ctx) : (s.modCtx f).dramSingle = s.dramSingle := rfl
@[simp] theorem State.modCtx_oasisSingle (f : Ctx → Ctx) : (s.modCtx f).oasisSingle = s.oasisSingle := rfl
@[simp] theorem State.modCtx_events (f : Ctx → Ctx) : (s.modCtx f).events = s.events := rfl
@[simp] theorem State.modCtx_out (f : Ctx → Ctx) : (s.modCtx f).out = s.out := rfl
@[simp] theorem State.modCtx_memEpoch (f : Ctx → Ctx) : (s.modCtx f).memEpoch = s.memEpoch := rfl
@[simp] theorem State.modCtx_freeCtr (f : Ctx → Ctx) : (s.modCtx f).freeCtr = s.freeCtr := rfl
@[simp] theorem State.modCtx_pending (f : Ctx → Ctx) : (s.modCtx f).pending = s.pending := rfl
@[simp] theorem State.modCtx_reg (f : Ctx → Ctx) (x : Nat) : (s.modCtx f).reg x = s.reg x := rfl
@[simp] theorem State.modCtx_od (f : Ctx → Ctx) (x : Nat) : (s.modCtx f).od x = s.od x := rfl
@[simp] theorem State.modCtx_odFlag (f : Ctx → Ctx) (x : Nat) : (s.modCtx f).odFlag x = s.odFlag x := rfl
@[simp] theorem State.modCtx_blob (f : Ctx → Ctx) (x : Nat) : (s.modCtx f).blob x = s.blob x := rfl
@[simp] theorem State.modCtx_port (f : Ctx → Ctx) (x : PortIx) : (s.modCtx f).port x = s.port x := rfl
@[simp] theorem State.modCtx_fsPort (f : Ctx → Ctx) (x : PortIx) : (s.modCtx f).fsPort x = s.fsPort x := rfl
@[simp] theorem State.modCtx_slice (f : Ctx → Ctx) (x : SliceIx) : (s.modCtx f).slice x = s.slice x := rfl
@[simp] theorem State.modCtx_core (f : Ctx → Ctx) (x : CoreIx) : (s.modCtx f).core x = s.core x := rfl
@[simp] theorem State.modCtx_link (f : Ctx → Ctx) (x : LinkIx) : (s.modCtx f).link x = s.link x := rfl

@[simp] theorem State.modDet_dt (f : Det → Det) : (s.modDet f).dt = s.dt := rfl
@[simp] theorem State.modDet_dev (f : Det → Det) : (s.modDet f).dev = s.dev := rfl
@[simp] theorem State.modDet_web (f : Det → Det) : (s.modDet f).web = s.web := rfl
@[simp] theorem State.modDet_ports (f : Det → Det) : (s.modDet f).ports = s.ports := rfl
@[simp] theorem State.modDet_fsPorts (f : Det → Det) : (s.modDet f).fsPorts = s.fsPorts := rfl
@[simp] theorem State.modDet_slices (f : Det → Det) : (s.modDet f).slices = s.slices := rfl
@[simp] theorem State.modDet_tensors (f : Det → Det) : (s.modDet f).tensors = s.tensors := rfl
@[simp] theorem State.modDet_cores (f : Det → Det) : (s.modDet f).cores = s.cores := rfl
@[simp] theorem State.modDet_cmd (f : Det → Det) : (s.modDet f).cmd = s.cmd := rfl
@[simp] theorem State.modDet_ctx (f : Det → Det) : (s.modDet f).ctx = s.ctx := rfl
@[simp] theorem State.modDet_det (f : Det → Det) : (s.modDet f).det = f s.det := rfl
@[simp] theorem State.modDet_links (f : Det → Det) : (s.modDet f).links = s.links := rfl
@[simp] theorem State.modDet_trim (f : Det → Det) : (s.modDet f).trim = s.trim := rfl
@[simp] theorem State.modDet_regs (f : Det → Det) : (s.modDet f).regs = s.regs := rfl
@[simp] theorem State.modDet_dict (f : Det → Det) : (s.modDet f).dict = s.dict := rfl
@[simp] theorem State.modDet_blobs (f : Det → Det) : (s.modDet f).blobs = s.blobs := rfl
@[simp] theorem State.modDet_doors (f : Det → Det) : (s.modDet f).doors = s.doors := rfl
@[simp] theorem State.modDet_pcie (f : Det → Det) : (s.modDet f).pcie = s.pcie := rfl
@[simp] theorem State.modDet_crv (f : Det → Det) : (s.modDet f).crv = s.crv := rfl
@[simp] theorem State.modDet_ledger (f : Det → Det) : (s.modDet f).ledger = s.ledger := rfl
@[simp] theorem State.modDet_saf (f : Det → Det) : (s.modDet f).saf = s.saf := rfl
@[simp] theorem State.modDet_pwr (f : Det → Det) : (s.modDet f).pwr = s.pwr := rfl
@[simp] theorem State.modDet_hostMem (f : Det → Det) : (s.modDet f).hostMem = s.hostMem := rfl
@[simp] theorem State.modDet_dram (f : Det → Det) : (s.modDet f).dram = s.dram := rfl
@[simp] theorem State.modDet_oasis (f : Det → Det) : (s.modDet f).oasis = s.oasis := rfl
@[simp] theorem State.modDet_dramPoison (f : Det → Det) : (s.modDet f).dramPoison = s.dramPoison := rfl
@[simp] theorem State.modDet_oasisPoison (f : Det → Det) : (s.modDet f).oasisPoison = s.oasisPoison := rfl
@[simp] theorem State.modDet_dramSingle (f : Det → Det) : (s.modDet f).dramSingle = s.dramSingle := rfl
@[simp] theorem State.modDet_oasisSingle (f : Det → Det) : (s.modDet f).oasisSingle = s.oasisSingle := rfl
@[simp] theorem State.modDet_events (f : Det → Det) : (s.modDet f).events = s.events := rfl
@[simp] theorem State.modDet_out (f : Det → Det) : (s.modDet f).out = s.out := rfl
@[simp] theorem State.modDet_memEpoch (f : Det → Det) : (s.modDet f).memEpoch = s.memEpoch := rfl
@[simp] theorem State.modDet_freeCtr (f : Det → Det) : (s.modDet f).freeCtr = s.freeCtr := rfl
@[simp] theorem State.modDet_pending (f : Det → Det) : (s.modDet f).pending = s.pending := rfl
@[simp] theorem State.modDet_reg (f : Det → Det) (x : Nat) : (s.modDet f).reg x = s.reg x := rfl
@[simp] theorem State.modDet_od (f : Det → Det) (x : Nat) : (s.modDet f).od x = s.od x := rfl
@[simp] theorem State.modDet_odFlag (f : Det → Det) (x : Nat) : (s.modDet f).odFlag x = s.odFlag x := rfl
@[simp] theorem State.modDet_blob (f : Det → Det) (x : Nat) : (s.modDet f).blob x = s.blob x := rfl
@[simp] theorem State.modDet_port (f : Det → Det) (x : PortIx) : (s.modDet f).port x = s.port x := rfl
@[simp] theorem State.modDet_fsPort (f : Det → Det) (x : PortIx) : (s.modDet f).fsPort x = s.fsPort x := rfl
@[simp] theorem State.modDet_slice (f : Det → Det) (x : SliceIx) : (s.modDet f).slice x = s.slice x := rfl
@[simp] theorem State.modDet_core (f : Det → Det) (x : CoreIx) : (s.modDet f).core x = s.core x := rfl
@[simp] theorem State.modDet_link (f : Det → Det) (x : LinkIx) : (s.modDet f).link x = s.link x := rfl

@[simp] theorem State.modLink_dt (l : LinkIx) (f : Link → Link) : (s.modLink l f).dt = s.dt := rfl
@[simp] theorem State.modLink_dev (l : LinkIx) (f : Link → Link) : (s.modLink l f).dev = s.dev := rfl
@[simp] theorem State.modLink_web (l : LinkIx) (f : Link → Link) : (s.modLink l f).web = s.web := rfl
@[simp] theorem State.modLink_ports (l : LinkIx) (f : Link → Link) : (s.modLink l f).ports = s.ports := rfl
@[simp] theorem State.modLink_fsPorts (l : LinkIx) (f : Link → Link) : (s.modLink l f).fsPorts = s.fsPorts := rfl
@[simp] theorem State.modLink_slices (l : LinkIx) (f : Link → Link) : (s.modLink l f).slices = s.slices := rfl
@[simp] theorem State.modLink_tensors (l : LinkIx) (f : Link → Link) : (s.modLink l f).tensors = s.tensors := rfl
@[simp] theorem State.modLink_cores (l : LinkIx) (f : Link → Link) : (s.modLink l f).cores = s.cores := rfl
@[simp] theorem State.modLink_cmd (l : LinkIx) (f : Link → Link) : (s.modLink l f).cmd = s.cmd := rfl
@[simp] theorem State.modLink_ctx (l : LinkIx) (f : Link → Link) : (s.modLink l f).ctx = s.ctx := rfl
@[simp] theorem State.modLink_det (l : LinkIx) (f : Link → Link) : (s.modLink l f).det = s.det := rfl
@[simp] theorem State.modLink_links (l : LinkIx) (f : Link → Link) : (s.modLink l f).links = s.links.set l (f s.links[l]) := rfl
@[simp] theorem State.modLink_trim (l : LinkIx) (f : Link → Link) : (s.modLink l f).trim = s.trim := rfl
@[simp] theorem State.modLink_regs (l : LinkIx) (f : Link → Link) : (s.modLink l f).regs = s.regs := rfl
@[simp] theorem State.modLink_dict (l : LinkIx) (f : Link → Link) : (s.modLink l f).dict = s.dict := rfl
@[simp] theorem State.modLink_blobs (l : LinkIx) (f : Link → Link) : (s.modLink l f).blobs = s.blobs := rfl
@[simp] theorem State.modLink_doors (l : LinkIx) (f : Link → Link) : (s.modLink l f).doors = s.doors := rfl
@[simp] theorem State.modLink_pcie (l : LinkIx) (f : Link → Link) : (s.modLink l f).pcie = s.pcie := rfl
@[simp] theorem State.modLink_crv (l : LinkIx) (f : Link → Link) : (s.modLink l f).crv = s.crv := rfl
@[simp] theorem State.modLink_ledger (l : LinkIx) (f : Link → Link) : (s.modLink l f).ledger = s.ledger := rfl
@[simp] theorem State.modLink_saf (l : LinkIx) (f : Link → Link) : (s.modLink l f).saf = s.saf := rfl
@[simp] theorem State.modLink_pwr (l : LinkIx) (f : Link → Link) : (s.modLink l f).pwr = s.pwr := rfl
@[simp] theorem State.modLink_hostMem (l : LinkIx) (f : Link → Link) : (s.modLink l f).hostMem = s.hostMem := rfl
@[simp] theorem State.modLink_dram (l : LinkIx) (f : Link → Link) : (s.modLink l f).dram = s.dram := rfl
@[simp] theorem State.modLink_oasis (l : LinkIx) (f : Link → Link) : (s.modLink l f).oasis = s.oasis := rfl
@[simp] theorem State.modLink_dramPoison (l : LinkIx) (f : Link → Link) : (s.modLink l f).dramPoison = s.dramPoison := rfl
@[simp] theorem State.modLink_oasisPoison (l : LinkIx) (f : Link → Link) : (s.modLink l f).oasisPoison = s.oasisPoison := rfl
@[simp] theorem State.modLink_dramSingle (l : LinkIx) (f : Link → Link) : (s.modLink l f).dramSingle = s.dramSingle := rfl
@[simp] theorem State.modLink_oasisSingle (l : LinkIx) (f : Link → Link) : (s.modLink l f).oasisSingle = s.oasisSingle := rfl
@[simp] theorem State.modLink_events (l : LinkIx) (f : Link → Link) : (s.modLink l f).events = s.events := rfl
@[simp] theorem State.modLink_out (l : LinkIx) (f : Link → Link) : (s.modLink l f).out = s.out := rfl
@[simp] theorem State.modLink_memEpoch (l : LinkIx) (f : Link → Link) : (s.modLink l f).memEpoch = s.memEpoch := rfl
@[simp] theorem State.modLink_freeCtr (l : LinkIx) (f : Link → Link) : (s.modLink l f).freeCtr = s.freeCtr := rfl
@[simp] theorem State.modLink_pending (l : LinkIx) (f : Link → Link) : (s.modLink l f).pending = s.pending := rfl
@[simp] theorem State.modLink_reg (l : LinkIx) (f : Link → Link) (x : Nat) : (s.modLink l f).reg x = s.reg x := rfl
@[simp] theorem State.modLink_od (l : LinkIx) (f : Link → Link) (x : Nat) : (s.modLink l f).od x = s.od x := rfl
@[simp] theorem State.modLink_odFlag (l : LinkIx) (f : Link → Link) (x : Nat) : (s.modLink l f).odFlag x = s.odFlag x := rfl
@[simp] theorem State.modLink_blob (l : LinkIx) (f : Link → Link) (x : Nat) : (s.modLink l f).blob x = s.blob x := rfl
@[simp] theorem State.modLink_port (l : LinkIx) (f : Link → Link) (x : PortIx) : (s.modLink l f).port x = s.port x := rfl
@[simp] theorem State.modLink_fsPort (l : LinkIx) (f : Link → Link) (x : PortIx) : (s.modLink l f).fsPort x = s.fsPort x := rfl
@[simp] theorem State.modLink_slice (l : LinkIx) (f : Link → Link) (x : SliceIx) : (s.modLink l f).slice x = s.slice x := rfl
@[simp] theorem State.modLink_core (l : LinkIx) (f : Link → Link) (x : CoreIx) : (s.modLink l f).core x = s.core x := rfl

@[simp] theorem State.modTrim_dt (f : Trim → Trim) : (s.modTrim f).dt = s.dt := rfl
@[simp] theorem State.modTrim_dev (f : Trim → Trim) : (s.modTrim f).dev = s.dev := rfl
@[simp] theorem State.modTrim_web (f : Trim → Trim) : (s.modTrim f).web = s.web := rfl
@[simp] theorem State.modTrim_ports (f : Trim → Trim) : (s.modTrim f).ports = s.ports := rfl
@[simp] theorem State.modTrim_fsPorts (f : Trim → Trim) : (s.modTrim f).fsPorts = s.fsPorts := rfl
@[simp] theorem State.modTrim_slices (f : Trim → Trim) : (s.modTrim f).slices = s.slices := rfl
@[simp] theorem State.modTrim_tensors (f : Trim → Trim) : (s.modTrim f).tensors = s.tensors := rfl
@[simp] theorem State.modTrim_cores (f : Trim → Trim) : (s.modTrim f).cores = s.cores := rfl
@[simp] theorem State.modTrim_cmd (f : Trim → Trim) : (s.modTrim f).cmd = s.cmd := rfl
@[simp] theorem State.modTrim_ctx (f : Trim → Trim) : (s.modTrim f).ctx = s.ctx := rfl
@[simp] theorem State.modTrim_det (f : Trim → Trim) : (s.modTrim f).det = s.det := rfl
@[simp] theorem State.modTrim_links (f : Trim → Trim) : (s.modTrim f).links = s.links := rfl
@[simp] theorem State.modTrim_trim (f : Trim → Trim) : (s.modTrim f).trim = f s.trim := rfl
@[simp] theorem State.modTrim_regs (f : Trim → Trim) : (s.modTrim f).regs = s.regs := rfl
@[simp] theorem State.modTrim_dict (f : Trim → Trim) : (s.modTrim f).dict = s.dict := rfl
@[simp] theorem State.modTrim_blobs (f : Trim → Trim) : (s.modTrim f).blobs = s.blobs := rfl
@[simp] theorem State.modTrim_doors (f : Trim → Trim) : (s.modTrim f).doors = s.doors := rfl
@[simp] theorem State.modTrim_pcie (f : Trim → Trim) : (s.modTrim f).pcie = s.pcie := rfl
@[simp] theorem State.modTrim_crv (f : Trim → Trim) : (s.modTrim f).crv = s.crv := rfl
@[simp] theorem State.modTrim_ledger (f : Trim → Trim) : (s.modTrim f).ledger = s.ledger := rfl
@[simp] theorem State.modTrim_saf (f : Trim → Trim) : (s.modTrim f).saf = s.saf := rfl
@[simp] theorem State.modTrim_pwr (f : Trim → Trim) : (s.modTrim f).pwr = s.pwr := rfl
@[simp] theorem State.modTrim_hostMem (f : Trim → Trim) : (s.modTrim f).hostMem = s.hostMem := rfl
@[simp] theorem State.modTrim_dram (f : Trim → Trim) : (s.modTrim f).dram = s.dram := rfl
@[simp] theorem State.modTrim_oasis (f : Trim → Trim) : (s.modTrim f).oasis = s.oasis := rfl
@[simp] theorem State.modTrim_dramPoison (f : Trim → Trim) : (s.modTrim f).dramPoison = s.dramPoison := rfl
@[simp] theorem State.modTrim_oasisPoison (f : Trim → Trim) : (s.modTrim f).oasisPoison = s.oasisPoison := rfl
@[simp] theorem State.modTrim_dramSingle (f : Trim → Trim) : (s.modTrim f).dramSingle = s.dramSingle := rfl
@[simp] theorem State.modTrim_oasisSingle (f : Trim → Trim) : (s.modTrim f).oasisSingle = s.oasisSingle := rfl
@[simp] theorem State.modTrim_events (f : Trim → Trim) : (s.modTrim f).events = s.events := rfl
@[simp] theorem State.modTrim_out (f : Trim → Trim) : (s.modTrim f).out = s.out := rfl
@[simp] theorem State.modTrim_memEpoch (f : Trim → Trim) : (s.modTrim f).memEpoch = s.memEpoch := rfl
@[simp] theorem State.modTrim_freeCtr (f : Trim → Trim) : (s.modTrim f).freeCtr = s.freeCtr := rfl
@[simp] theorem State.modTrim_pending (f : Trim → Trim) : (s.modTrim f).pending = s.pending := rfl
@[simp] theorem State.modTrim_reg (f : Trim → Trim) (x : Nat) : (s.modTrim f).reg x = s.reg x := rfl
@[simp] theorem State.modTrim_od (f : Trim → Trim) (x : Nat) : (s.modTrim f).od x = s.od x := rfl
@[simp] theorem State.modTrim_odFlag (f : Trim → Trim) (x : Nat) : (s.modTrim f).odFlag x = s.odFlag x := rfl
@[simp] theorem State.modTrim_blob (f : Trim → Trim) (x : Nat) : (s.modTrim f).blob x = s.blob x := rfl
@[simp] theorem State.modTrim_port (f : Trim → Trim) (x : PortIx) : (s.modTrim f).port x = s.port x := rfl
@[simp] theorem State.modTrim_fsPort (f : Trim → Trim) (x : PortIx) : (s.modTrim f).fsPort x = s.fsPort x := rfl
@[simp] theorem State.modTrim_slice (f : Trim → Trim) (x : SliceIx) : (s.modTrim f).slice x = s.slice x := rfl
@[simp] theorem State.modTrim_core (f : Trim → Trim) (x : CoreIx) : (s.modTrim f).core x = s.core x := rfl
@[simp] theorem State.modTrim_link (f : Trim → Trim) (x : LinkIx) : (s.modTrim f).link x = s.link x := rfl

/-! ### Reading back what was changed -/

@[simp] theorem State.modPort_port_self (c : PortIx) (f : Port → Port) : (s.modPort c f).port c = f (s.port c) := by
  simp [State.modPort, State.port]

@[simp] theorem State.modPort_port_other {c x : PortIx} (h : x ≠ c) (f : Port → Port) : (s.modPort c f).port x = s.port x := by
  have : c.val ≠ x.val := fun e => h (Fin.ext e.symm)
  simp [State.modPort, State.port, this]

@[simp] theorem State.modFs_fsPort_self (c : PortIx) (f : FsPort → FsPort) : (s.modFs c f).fsPort c = f (s.fsPort c) := by
  simp [State.modFs, State.fsPort]

@[simp] theorem State.modFs_fsPort_other {c x : PortIx} (h : x ≠ c) (f : FsPort → FsPort) : (s.modFs c f).fsPort x = s.fsPort x := by
  have : c.val ≠ x.val := fun e => h (Fin.ext e.symm)
  simp [State.modFs, State.fsPort, this]

@[simp] theorem State.modSlice_slice_self (c : SliceIx) (f : Slice → Slice) : (s.modSlice c f).slice c = f (s.slice c) := by
  simp [State.modSlice, State.slice]

@[simp] theorem State.modSlice_slice_other {c x : SliceIx} (h : x ≠ c) (f : Slice → Slice) : (s.modSlice c f).slice x = s.slice x := by
  have : c.val ≠ x.val := fun e => h (Fin.ext e.symm)
  simp [State.modSlice, State.slice, this]

@[simp] theorem State.modCore_core_self (c : CoreIx) (f : Core → Core) : (s.modCore c f).core c = f (s.core c) := by
  simp [State.modCore, State.core]

@[simp] theorem State.modCore_core_other {c x : CoreIx} (h : x ≠ c) (f : Core → Core) : (s.modCore c f).core x = s.core x := by
  have : c.val ≠ x.val := fun e => h (Fin.ext e.symm)
  simp [State.modCore, State.core, this]

@[simp] theorem State.modLink_link_self (c : LinkIx) (f : Link → Link) : (s.modLink c f).link c = f (s.link c) := by
  simp [State.modLink, State.link]

@[simp] theorem State.modLink_link_other {c x : LinkIx} (h : x ≠ c) (f : Link → Link) : (s.modLink c f).link x = s.link x := by
  have : c.val ≠ x.val := fun e => h (Fin.ext e.symm)
  simp [State.modLink, State.link, this]

end Sys2Proof.Machine
end

