-- ==== Sys2Proof/Laws/Ops.lean ====
section
/-! SUPPORT. What the operations that every chapter shares leave unchanged: interrupts, status events and ledger entries; and what they set. -/

namespace Sys2Proof.Machine

variable (s : State)

@[simp] theorem State.msixSend_dt (v : Nat) : (s.msixSend v).dt = s.dt := by
  unfold State.msixSend; split <;> rfl
@[simp] theorem State.msixSend_dev (v : Nat) : (s.msixSend v).dev = s.dev := by
  unfold State.msixSend; split <;> rfl
@[simp] theorem State.msixSend_web (v : Nat) : (s.msixSend v).web = s.web := by
  unfold State.msixSend; split <;> rfl
@[simp] theorem State.msixSend_ports (v : Nat) : (s.msixSend v).ports = s.ports := by
  unfold State.msixSend; split <;> rfl
@[simp] theorem State.msixSend_fsPorts (v : Nat) : (s.msixSend v).fsPorts = s.fsPorts := by
  unfold State.msixSend; split <;> rfl
@[simp] theorem State.msixSend_slices (v : Nat) : (s.msixSend v).slices = s.slices := by
  unfold State.msixSend; split <;> rfl
@[simp] theorem State.msixSend_tensors (v : Nat) : (s.msixSend v).tensors = s.tensors := by
  unfold State.msixSend; split <;> rfl
@[simp] theorem State.msixSend_cores (v : Nat) : (s.msixSend v).cores = s.cores := by
  unfold State.msixSend; split <;> rfl
@[simp] theorem State.msixSend_cmd (v : Nat) : (s.msixSend v).cmd = s.cmd := by
  unfold State.msixSend; split <;> rfl
@[simp] theorem State.msixSend_ctx (v : Nat) : (s.msixSend v).ctx = s.ctx := by
  unfold State.msixSend; split <;> rfl
@[simp] theorem State.msixSend_det (v : Nat) : (s.msixSend v).det = s.det := by
  unfold State.msixSend; split <;> rfl
@[simp] theorem State.msixSend_links (v : Nat) : (s.msixSend v).links = s.links := by
  unfold State.msixSend; split <;> rfl
@[simp] theorem State.msixSend_trim (v : Nat) : (s.msixSend v).trim = s.trim := by
  unfold State.msixSend; split <;> rfl
@[simp] theorem State.msixSend_dict (v : Nat) : (s.msixSend v).dict = s.dict := by
  unfold State.msixSend; split <;> rfl
@[simp] theorem State.msixSend_blobs (v : Nat) : (s.msixSend v).blobs = s.blobs := by
  unfold State.msixSend; split <;> rfl
@[simp] theorem State.msixSend_doors (v : Nat) : (s.msixSend v).doors = s.doors := by
  unfold State.msixSend; split <;> rfl
@[simp] theorem State.msixSend_crv (v : Nat) : (s.msixSend v).crv = s.crv := by
  unfold State.msixSend; split <;> rfl
@[simp] theorem State.msixSend_ledger (v : Nat) : (s.msixSend v).ledger = s.ledger := by
  unfold State.msixSend; split <;> rfl
@[simp] theorem State.msixSend_saf (v : Nat) : (s.msixSend v).saf = s.saf := by
  unfold State.msixSend; split <;> rfl
@[simp] theorem State.msixSend_pwr (v : Nat) : (s.msixSend v).pwr = s.pwr := by
  unfold State.msixSend; split <;> rfl
@[simp] theorem State.msixSend_hostMem (v : Nat) : (s.msixSend v).hostMem = s.hostMem := by
  unfold State.msixSend; split <;> rfl
@[simp] theorem State.msixSend_dram (v : Nat) : (s.msixSend v).dram = s.dram := by
  unfold State.msixSend; split <;> rfl
@[simp] theorem State.msixSend_oasis (v : Nat) : (s.msixSend v).oasis = s.oasis := by
  unfold State.msixSend; split <;> rfl
@[simp] theorem State.msixSend_dramPoison (v : Nat) : (s.msixSend v).dramPoison = s.dramPoison := by
  unfold State.msixSend; split <;> rfl
@[simp] theorem State.msixSend_oasisPoison (v : Nat) : (s.msixSend v).oasisPoison = s.oasisPoison := by
  unfold State.msixSend; split <;> rfl
@[simp] theorem State.msixSend_dramSingle (v : Nat) : (s.msixSend v).dramSingle = s.dramSingle := by
  unfold State.msixSend; split <;> rfl
@[simp] theorem State.msixSend_oasisSingle (v : Nat) : (s.msixSend v).oasisSingle = s.oasisSingle := by
  unfold State.msixSend; split <;> rfl
@[simp] theorem State.msixSend_events (v : Nat) : (s.msixSend v).events = s.events := by
  unfold State.msixSend; split <;> rfl
@[simp] theorem State.msixSend_memEpoch (v : Nat) : (s.msixSend v).memEpoch = s.memEpoch := by
  unfold State.msixSend; split <;> rfl
@[simp] theorem State.msixSend_freeCtr (v : Nat) : (s.msixSend v).freeCtr = s.freeCtr := by
  unfold State.msixSend; split <;> rfl
@[simp] theorem State.msixSend_pending (v : Nat) : (s.msixSend v).pending = s.pending := by
  unfold State.msixSend; split <;> rfl
@[simp] theorem State.msixSend_od (v : Nat) (x : Nat) : (s.msixSend v).od x = s.od x := by
  unfold State.od; rw [State.msixSend_dict]
@[simp] theorem State.msixSend_odFlag (v : Nat) (x : Nat) : (s.msixSend v).odFlag x = s.odFlag x := by
  unfold State.odFlag; unfold State.od; rw [State.msixSend_dict]
@[simp] theorem State.msixSend_blob (v : Nat) (x : Nat) : (s.msixSend v).blob x = s.blob x := by
  unfold State.blob; rw [State.msixSend_blobs]
@[simp] theorem State.msixSend_port (v : Nat) (x : PortIx) : (s.msixSend v).port x = s.port x := by
  unfold State.port; rw [State.msixSend_ports]
@[simp] theorem State.msixSend_fsPort (v : Nat) (x : PortIx) : (s.msixSend v).fsPort x = s.fsPort x := by
  unfold State.fsPort; rw [State.msixSend_fsPorts]
@[simp] theorem State.msixSend_slice (v : Nat) (x : SliceIx) : (s.msixSend v).slice x = s.slice x := by
  unfold State.slice; rw [State.msixSend_slices]
@[simp] theorem State.msixSend_core (v : Nat) (x : CoreIx) : (s.msixSend v).core x = s.core x := by
  unfold State.core; rw [State.msixSend_cores]
@[simp] theorem State.msixSend_link (v : Nat) (x : LinkIx) : (s.msixSend v).link x = s.link x := by
  unfold State.link; rw [State.msixSend_links]

@[simp] theorem State.msixRaise_dt (v : Nat) : (s.msixRaise v).dt = s.dt := by
  unfold State.msixRaise; dsimp only; split
  · rfl
  · exact State.msixSend_dt s v
@[simp] theorem State.msixRaise_dev (v : Nat) : (s.msixRaise v).dev = s.dev := by
  unfold State.msixRaise; dsimp only; split
  · rfl
  · exact State.msixSend_dev s v
@[simp] theorem State.msixRaise_web (v : Nat) : (s.msixRaise v).web = s.web := by
  unfold State.msixRaise; dsimp only; split
  · rfl
  · exact State.msixSend_web s v
@[simp] theorem State.msixRaise_ports (v : Nat) : (s.msixRaise v).ports = s.ports := by
  unfold State.msixRaise; dsimp only; split
  · rfl
  · exact State.msixSend_ports s v
@[simp] theorem State.msixRaise_fsPorts (v : Nat) : (s.msixRaise v).fsPorts = s.fsPorts := by
  unfold State.msixRaise; dsimp only; split
  · rfl
  · exact State.msixSend_fsPorts s v
@[simp] theorem State.msixRaise_slices (v : Nat) : (s.msixRaise v).slices = s.slices := by
  unfold State.msixRaise; dsimp only; split
  · rfl
  · exact State.msixSend_slices s v
@[simp] theorem State.msixRaise_tensors (v : Nat) : (s.msixRaise v).tensors = s.tensors := by
  unfold State.msixRaise; dsimp only; split
  · rfl
  · exact State.msixSend_tensors s v
@[simp] theorem State.msixRaise_cores (v : Nat) : (s.msixRaise v).cores = s.cores := by
  unfold State.msixRaise; dsimp only; split
  · rfl
  · exact State.msixSend_cores s v
@[simp] theorem State.msixRaise_cmd (v : Nat) : (s.msixRaise v).cmd = s.cmd := by
  unfold State.msixRaise; dsimp only; split
  · rfl
  · exact State.msixSend_cmd s v
@[simp] theorem State.msixRaise_ctx (v : Nat) : (s.msixRaise v).ctx = s.ctx := by
  unfold State.msixRaise; dsimp only; split
  · rfl
  · exact State.msixSend_ctx s v
@[simp] theorem State.msixRaise_det (v : Nat) : (s.msixRaise v).det = s.det := by
  unfold State.msixRaise; dsimp only; split
  · rfl
  · exact State.msixSend_det s v
@[simp] theorem State.msixRaise_links (v : Nat) : (s.msixRaise v).links = s.links := by
  unfold State.msixRaise; dsimp only; split
  · rfl
  · exact State.msixSend_links s v
@[simp] theorem State.msixRaise_trim (v : Nat) : (s.msixRaise v).trim = s.trim := by
  unfold State.msixRaise; dsimp only; split
  · rfl
  · exact State.msixSend_trim s v
@[simp] theorem State.msixRaise_dict (v : Nat) : (s.msixRaise v).dict = s.dict := by
  unfold State.msixRaise; dsimp only; split
  · rfl
  · exact State.msixSend_dict s v
@[simp] theorem State.msixRaise_blobs (v : Nat) : (s.msixRaise v).blobs = s.blobs := by
  unfold State.msixRaise; dsimp only; split
  · rfl
  · exact State.msixSend_blobs s v
@[simp] theorem State.msixRaise_doors (v : Nat) : (s.msixRaise v).doors = s.doors := by
  unfold State.msixRaise; dsimp only; split
  · rfl
  · exact State.msixSend_doors s v
@[simp] theorem State.msixRaise_crv (v : Nat) : (s.msixRaise v).crv = s.crv := by
  unfold State.msixRaise; dsimp only; split
  · rfl
  · exact State.msixSend_crv s v
@[simp] theorem State.msixRaise_ledger (v : Nat) : (s.msixRaise v).ledger = s.ledger := by
  unfold State.msixRaise; dsimp only; split
  · rfl
  · exact State.msixSend_ledger s v
@[simp] theorem State.msixRaise_saf (v : Nat) : (s.msixRaise v).saf = s.saf := by
  unfold State.msixRaise; dsimp only; split
  · rfl
  · exact State.msixSend_saf s v
@[simp] theorem State.msixRaise_pwr (v : Nat) : (s.msixRaise v).pwr = s.pwr := by
  unfold State.msixRaise; dsimp only; split
  · rfl
  · exact State.msixSend_pwr s v
@[simp] theorem State.msixRaise_hostMem (v : Nat) : (s.msixRaise v).hostMem = s.hostMem := by
  unfold State.msixRaise; dsimp only; split
  · rfl
  · exact State.msixSend_hostMem s v
@[simp] theorem State.msixRaise_dram (v : Nat) : (s.msixRaise v).dram = s.dram := by
  unfold State.msixRaise; dsimp only; split
  · rfl
  · exact State.msixSend_dram s v
@[simp] theorem State.msixRaise_oasis (v : Nat) : (s.msixRaise v).oasis = s.oasis := by
  unfold State.msixRaise; dsimp only; split
  · rfl
  · exact State.msixSend_oasis s v
@[simp] theorem State.msixRaise_dramPoison (v : Nat) : (s.msixRaise v).dramPoison = s.dramPoison := by
  unfold State.msixRaise; dsimp only; split
  · rfl
  · exact State.msixSend_dramPoison s v
@[simp] theorem State.msixRaise_oasisPoison (v : Nat) : (s.msixRaise v).oasisPoison = s.oasisPoison := by
  unfold State.msixRaise; dsimp only; split
  · rfl
  · exact State.msixSend_oasisPoison s v
@[simp] theorem State.msixRaise_dramSingle (v : Nat) : (s.msixRaise v).dramSingle = s.dramSingle := by
  unfold State.msixRaise; dsimp only; split
  · rfl
  · exact State.msixSend_dramSingle s v
@[simp] theorem State.msixRaise_oasisSingle (v : Nat) : (s.msixRaise v).oasisSingle = s.oasisSingle := by
  unfold State.msixRaise; dsimp only; split
  · rfl
  · exact State.msixSend_oasisSingle s v
@[simp] theorem State.msixRaise_events (v : Nat) : (s.msixRaise v).events = s.events := by
  unfold State.msixRaise; dsimp only; split
  · rfl
  · exact State.msixSend_events s v
@[simp] theorem State.msixRaise_memEpoch (v : Nat) : (s.msixRaise v).memEpoch = s.memEpoch := by
  unfold State.msixRaise; dsimp only; split
  · rfl
  · exact State.msixSend_memEpoch s v
@[simp] theorem State.msixRaise_freeCtr (v : Nat) : (s.msixRaise v).freeCtr = s.freeCtr := by
  unfold State.msixRaise; dsimp only; split
  · rfl
  · exact State.msixSend_freeCtr s v
@[simp] theorem State.msixRaise_pending (v : Nat) : (s.msixRaise v).pending = s.pending := by
  unfold State.msixRaise; dsimp only; split
  · rfl
  · exact State.msixSend_pending s v
@[simp] theorem State.msixRaise_od (v : Nat) (x : Nat) : (s.msixRaise v).od x = s.od x := by
  unfold State.od; rw [State.msixRaise_dict]
@[simp] theorem State.msixRaise_odFlag (v : Nat) (x : Nat) : (s.msixRaise v).odFlag x = s.odFlag x := by
  unfold State.odFlag; unfold State.od; rw [State.msixRaise_dict]
@[simp] theorem State.msixRaise_blob (v : Nat) (x : Nat) : (s.msixRaise v).blob x = s.blob x := by
  unfold State.blob; rw [State.msixRaise_blobs]
@[simp] theorem State.msixRaise_port (v : Nat) (x : PortIx) : (s.msixRaise v).port x = s.port x := by
  unfold State.port; rw [State.msixRaise_ports]
@[simp] theorem State.msixRaise_fsPort (v : Nat) (x : PortIx) : (s.msixRaise v).fsPort x = s.fsPort x := by
  unfold State.fsPort; rw [State.msixRaise_fsPorts]
@[simp] theorem State.msixRaise_slice (v : Nat) (x : SliceIx) : (s.msixRaise v).slice x = s.slice x := by
  unfold State.slice; rw [State.msixRaise_slices]
@[simp] theorem State.msixRaise_core (v : Nat) (x : CoreIx) : (s.msixRaise v).core x = s.core x := by
  unfold State.core; rw [State.msixRaise_cores]
@[simp] theorem State.msixRaise_link (v : Nat) (x : LinkIx) : (s.msixRaise v).link x = s.link x := by
  unfold State.link; rw [State.msixRaise_links]

@[simp] theorem State.raiseInt_dt (b : Block) (v : Nat) : (s.raiseInt b v).dt = s.dt := by
  unfold State.raiseInt State.intUpdate; dsimp only; split
  · rw [State.msixRaise_dt]; rfl
  · rfl
@[simp] theorem State.raiseInt_dev (b : Block) (v : Nat) : (s.raiseInt b v).dev = s.dev := by
  unfold State.raiseInt State.intUpdate; dsimp only; split
  · rw [State.msixRaise_dev]; rfl
  · rfl
@[simp] theorem State.raiseInt_web (b : Block) (v : Nat) : (s.raiseInt b v).web = s.web := by
  unfold State.raiseInt State.intUpdate; dsimp only; split
  · rw [State.msixRaise_web]; rfl
  · rfl
@[simp] theorem State.raiseInt_ports (b : Block) (v : Nat) : (s.raiseInt b v).ports = s.ports := by
  unfold State.raiseInt State.intUpdate; dsimp only; split
  · rw [State.msixRaise_ports]; rfl
  · rfl
@[simp] theorem State.raiseInt_fsPorts (b : Block) (v : Nat) : (s.raiseInt b v).fsPorts = s.fsPorts := by
  unfold State.raiseInt State.intUpdate; dsimp only; split
  · rw [State.msixRaise_fsPorts]; rfl
  · rfl
@[simp] theorem State.raiseInt_slices (b : Block) (v : Nat) : (s.raiseInt b v).slices = s.slices := by
  unfold State.raiseInt State.intUpdate; dsimp only; split
  · rw [State.msixRaise_slices]; rfl
  · rfl
@[simp] theorem State.raiseInt_tensors (b : Block) (v : Nat) : (s.raiseInt b v).tensors = s.tensors := by
  unfold State.raiseInt State.intUpdate; dsimp only; split
  · rw [State.msixRaise_tensors]; rfl
  · rfl
@[simp] theorem State.raiseInt_cores (b : Block) (v : Nat) : (s.raiseInt b v).cores = s.cores := by
  unfold State.raiseInt State.intUpdate; dsimp only; split
  · rw [State.msixRaise_cores]; rfl
  · rfl
@[simp] theorem State.raiseInt_cmd (b : Block) (v : Nat) : (s.raiseInt b v).cmd = s.cmd := by
  unfold State.raiseInt State.intUpdate; dsimp only; split
  · rw [State.msixRaise_cmd]; rfl
  · rfl
@[simp] theorem State.raiseInt_ctx (b : Block) (v : Nat) : (s.raiseInt b v).ctx = s.ctx := by
  unfold State.raiseInt State.intUpdate; dsimp only; split
  · rw [State.msixRaise_ctx]; rfl
  · rfl
@[simp] theorem State.raiseInt_det (b : Block) (v : Nat) : (s.raiseInt b v).det = s.det := by
  unfold State.raiseInt State.intUpdate; dsimp only; split
  · rw [State.msixRaise_det]; rfl
  · rfl
@[simp] theorem State.raiseInt_links (b : Block) (v : Nat) : (s.raiseInt b v).links = s.links := by
  unfold State.raiseInt State.intUpdate; dsimp only; split
  · rw [State.msixRaise_links]; rfl
  · rfl
@[simp] theorem State.raiseInt_trim (b : Block) (v : Nat) : (s.raiseInt b v).trim = s.trim := by
  unfold State.raiseInt State.intUpdate; dsimp only; split
  · rw [State.msixRaise_trim]; rfl
  · rfl
@[simp] theorem State.raiseInt_dict (b : Block) (v : Nat) : (s.raiseInt b v).dict = s.dict := by
  unfold State.raiseInt State.intUpdate; dsimp only; split
  · rw [State.msixRaise_dict]; rfl
  · rfl
@[simp] theorem State.raiseInt_blobs (b : Block) (v : Nat) : (s.raiseInt b v).blobs = s.blobs := by
  unfold State.raiseInt State.intUpdate; dsimp only; split
  · rw [State.msixRaise_blobs]; rfl
  · rfl
@[simp] theorem State.raiseInt_doors (b : Block) (v : Nat) : (s.raiseInt b v).doors = s.doors := by
  unfold State.raiseInt State.intUpdate; dsimp only; split
  · rw [State.msixRaise_doors]; rfl
  · rfl
@[simp] theorem State.raiseInt_crv (b : Block) (v : Nat) : (s.raiseInt b v).crv = s.crv := by
  unfold State.raiseInt State.intUpdate; dsimp only; split
  · rw [State.msixRaise_crv]; rfl
  · rfl
@[simp] theorem State.raiseInt_ledger (b : Block) (v : Nat) : (s.raiseInt b v).ledger = s.ledger := by
  unfold State.raiseInt State.intUpdate; dsimp only; split
  · rw [State.msixRaise_ledger]; rfl
  · rfl
@[simp] theorem State.raiseInt_saf (b : Block) (v : Nat) : (s.raiseInt b v).saf = s.saf := by
  unfold State.raiseInt State.intUpdate; dsimp only; split
  · rw [State.msixRaise_saf]; rfl
  · rfl
@[simp] theorem State.raiseInt_pwr (b : Block) (v : Nat) : (s.raiseInt b v).pwr = s.pwr := by
  unfold State.raiseInt State.intUpdate; dsimp only; split
  · rw [State.msixRaise_pwr]; rfl
  · rfl
@[simp] theorem State.raiseInt_hostMem (b : Block) (v : Nat) : (s.raiseInt b v).hostMem = s.hostMem := by
  unfold State.raiseInt State.intUpdate; dsimp only; split
  · rw [State.msixRaise_hostMem]; rfl
  · rfl
@[simp] theorem State.raiseInt_dram (b : Block) (v : Nat) : (s.raiseInt b v).dram = s.dram := by
  unfold State.raiseInt State.intUpdate; dsimp only; split
  · rw [State.msixRaise_dram]; rfl
  · rfl
@[simp] theorem State.raiseInt_oasis (b : Block) (v : Nat) : (s.raiseInt b v).oasis = s.oasis := by
  unfold State.raiseInt State.intUpdate; dsimp only; split
  · rw [State.msixRaise_oasis]; rfl
  · rfl
@[simp] theorem State.raiseInt_dramPoison (b : Block) (v : Nat) : (s.raiseInt b v).dramPoison = s.dramPoison := by
  unfold State.raiseInt State.intUpdate; dsimp only; split
  · rw [State.msixRaise_dramPoison]; rfl
  · rfl
@[simp] theorem State.raiseInt_oasisPoison (b : Block) (v : Nat) : (s.raiseInt b v).oasisPoison = s.oasisPoison := by
  unfold State.raiseInt State.intUpdate; dsimp only; split
  · rw [State.msixRaise_oasisPoison]; rfl
  · rfl
@[simp] theorem State.raiseInt_dramSingle (b : Block) (v : Nat) : (s.raiseInt b v).dramSingle = s.dramSingle := by
  unfold State.raiseInt State.intUpdate; dsimp only; split
  · rw [State.msixRaise_dramSingle]; rfl
  · rfl
@[simp] theorem State.raiseInt_oasisSingle (b : Block) (v : Nat) : (s.raiseInt b v).oasisSingle = s.oasisSingle := by
  unfold State.raiseInt State.intUpdate; dsimp only; split
  · rw [State.msixRaise_oasisSingle]; rfl
  · rfl
@[simp] theorem State.raiseInt_events (b : Block) (v : Nat) : (s.raiseInt b v).events = s.events := by
  unfold State.raiseInt State.intUpdate; dsimp only; split
  · rw [State.msixRaise_events]; rfl
  · rfl
@[simp] theorem State.raiseInt_memEpoch (b : Block) (v : Nat) : (s.raiseInt b v).memEpoch = s.memEpoch := by
  unfold State.raiseInt State.intUpdate; dsimp only; split
  · rw [State.msixRaise_memEpoch]; rfl
  · rfl
@[simp] theorem State.raiseInt_freeCtr (b : Block) (v : Nat) : (s.raiseInt b v).freeCtr = s.freeCtr := by
  unfold State.raiseInt State.intUpdate; dsimp only; split
  · rw [State.msixRaise_freeCtr]; rfl
  · rfl
@[simp] theorem State.raiseInt_pending (b : Block) (v : Nat) : (s.raiseInt b v).pending = s.pending := by
  unfold State.raiseInt State.intUpdate; dsimp only; split
  · rw [State.msixRaise_pending]; rfl
  · rfl
@[simp] theorem State.raiseInt_od (b : Block) (v : Nat) (x : Nat) : (s.raiseInt b v).od x = s.od x := by
  unfold State.od; rw [State.raiseInt_dict]
@[simp] theorem State.raiseInt_odFlag (b : Block) (v : Nat) (x : Nat) : (s.raiseInt b v).odFlag x = s.odFlag x := by
  unfold State.odFlag; unfold State.od; rw [State.raiseInt_dict]
@[simp] theorem State.raiseInt_blob (b : Block) (v : Nat) (x : Nat) : (s.raiseInt b v).blob x = s.blob x := by
  unfold State.blob; rw [State.raiseInt_blobs]
@[simp] theorem State.raiseInt_port (b : Block) (v : Nat) (x : PortIx) : (s.raiseInt b v).port x = s.port x := by
  unfold State.port; rw [State.raiseInt_ports]
@[simp] theorem State.raiseInt_fsPort (b : Block) (v : Nat) (x : PortIx) : (s.raiseInt b v).fsPort x = s.fsPort x := by
  unfold State.fsPort; rw [State.raiseInt_fsPorts]
@[simp] theorem State.raiseInt_slice (b : Block) (v : Nat) (x : SliceIx) : (s.raiseInt b v).slice x = s.slice x := by
  unfold State.slice; rw [State.raiseInt_slices]
@[simp] theorem State.raiseInt_core (b : Block) (v : Nat) (x : CoreIx) : (s.raiseInt b v).core x = s.core x := by
  unfold State.core; rw [State.raiseInt_cores]
@[simp] theorem State.raiseInt_link (b : Block) (v : Nat) (x : LinkIx) : (s.raiseInt b v).link x = s.link x := by
  unfold State.link; rw [State.raiseInt_links]

@[simp] theorem State.camInt_dt (c : PortIx) (v : Nat) : (s.camInt c v).dt = s.dt := State.raiseInt_dt s _ v
@[simp] theorem State.camInt_dev (c : PortIx) (v : Nat) : (s.camInt c v).dev = s.dev := State.raiseInt_dev s _ v
@[simp] theorem State.camInt_web (c : PortIx) (v : Nat) : (s.camInt c v).web = s.web := State.raiseInt_web s _ v
@[simp] theorem State.camInt_ports (c : PortIx) (v : Nat) : (s.camInt c v).ports = s.ports := State.raiseInt_ports s _ v
@[simp] theorem State.camInt_fsPorts (c : PortIx) (v : Nat) : (s.camInt c v).fsPorts = s.fsPorts := State.raiseInt_fsPorts s _ v
@[simp] theorem State.camInt_slices (c : PortIx) (v : Nat) : (s.camInt c v).slices = s.slices := State.raiseInt_slices s _ v
@[simp] theorem State.camInt_tensors (c : PortIx) (v : Nat) : (s.camInt c v).tensors = s.tensors := State.raiseInt_tensors s _ v
@[simp] theorem State.camInt_cores (c : PortIx) (v : Nat) : (s.camInt c v).cores = s.cores := State.raiseInt_cores s _ v
@[simp] theorem State.camInt_cmd (c : PortIx) (v : Nat) : (s.camInt c v).cmd = s.cmd := State.raiseInt_cmd s _ v
@[simp] theorem State.camInt_ctx (c : PortIx) (v : Nat) : (s.camInt c v).ctx = s.ctx := State.raiseInt_ctx s _ v
@[simp] theorem State.camInt_det (c : PortIx) (v : Nat) : (s.camInt c v).det = s.det := State.raiseInt_det s _ v
@[simp] theorem State.camInt_links (c : PortIx) (v : Nat) : (s.camInt c v).links = s.links := State.raiseInt_links s _ v
@[simp] theorem State.camInt_trim (c : PortIx) (v : Nat) : (s.camInt c v).trim = s.trim := State.raiseInt_trim s _ v
@[simp] theorem State.camInt_dict (c : PortIx) (v : Nat) : (s.camInt c v).dict = s.dict := State.raiseInt_dict s _ v
@[simp] theorem State.camInt_blobs (c : PortIx) (v : Nat) : (s.camInt c v).blobs = s.blobs := State.raiseInt_blobs s _ v
@[simp] theorem State.camInt_doors (c : PortIx) (v : Nat) : (s.camInt c v).doors = s.doors := State.raiseInt_doors s _ v
@[simp] theorem State.camInt_crv (c : PortIx) (v : Nat) : (s.camInt c v).crv = s.crv := State.raiseInt_crv s _ v
@[simp] theorem State.camInt_ledger (c : PortIx) (v : Nat) : (s.camInt c v).ledger = s.ledger := State.raiseInt_ledger s _ v
@[simp] theorem State.camInt_saf (c : PortIx) (v : Nat) : (s.camInt c v).saf = s.saf := State.raiseInt_saf s _ v
@[simp] theorem State.camInt_pwr (c : PortIx) (v : Nat) : (s.camInt c v).pwr = s.pwr := State.raiseInt_pwr s _ v
@[simp] theorem State.camInt_hostMem (c : PortIx) (v : Nat) : (s.camInt c v).hostMem = s.hostMem := State.raiseInt_hostMem s _ v
@[simp] theorem State.camInt_dram (c : PortIx) (v : Nat) : (s.camInt c v).dram = s.dram := State.raiseInt_dram s _ v
@[simp] theorem State.camInt_oasis (c : PortIx) (v : Nat) : (s.camInt c v).oasis = s.oasis := State.raiseInt_oasis s _ v
@[simp] theorem State.camInt_dramPoison (c : PortIx) (v : Nat) : (s.camInt c v).dramPoison = s.dramPoison := State.raiseInt_dramPoison s _ v
@[simp] theorem State.camInt_oasisPoison (c : PortIx) (v : Nat) : (s.camInt c v).oasisPoison = s.oasisPoison := State.raiseInt_oasisPoison s _ v
@[simp] theorem State.camInt_dramSingle (c : PortIx) (v : Nat) : (s.camInt c v).dramSingle = s.dramSingle := State.raiseInt_dramSingle s _ v
@[simp] theorem State.camInt_oasisSingle (c : PortIx) (v : Nat) : (s.camInt c v).oasisSingle = s.oasisSingle := State.raiseInt_oasisSingle s _ v
@[simp] theorem State.camInt_events (c : PortIx) (v : Nat) : (s.camInt c v).events = s.events := State.raiseInt_events s _ v
@[simp] theorem State.camInt_memEpoch (c : PortIx) (v : Nat) : (s.camInt c v).memEpoch = s.memEpoch := State.raiseInt_memEpoch s _ v
@[simp] theorem State.camInt_freeCtr (c : PortIx) (v : Nat) : (s.camInt c v).freeCtr = s.freeCtr := State.raiseInt_freeCtr s _ v
@[simp] theorem State.camInt_pending (c : PortIx) (v : Nat) : (s.camInt c v).pending = s.pending := State.raiseInt_pending s _ v
@[simp] theorem State.camInt_od (c : PortIx) (v : Nat) (x : Nat) : (s.camInt c v).od x = s.od x := by
  unfold State.od; rw [State.camInt_dict]
@[simp] theorem State.camInt_odFlag (c : PortIx) (v : Nat) (x : Nat) : (s.camInt c v).odFlag x = s.odFlag x := by
  unfold State.odFlag; unfold State.od; rw [State.camInt_dict]
@[simp] theorem State.camInt_blob (c : PortIx) (v : Nat) (x : Nat) : (s.camInt c v).blob x = s.blob x := by
  unfold State.blob; rw [State.camInt_blobs]
@[simp] theorem State.camInt_port (c : PortIx) (v : Nat) (x : PortIx) : (s.camInt c v).port x = s.port x := by
  unfold State.port; rw [State.camInt_ports]
@[simp] theorem State.camInt_fsPort (c : PortIx) (v : Nat) (x : PortIx) : (s.camInt c v).fsPort x = s.fsPort x := by
  unfold State.fsPort; rw [State.camInt_fsPorts]
@[simp] theorem State.camInt_slice (c : PortIx) (v : Nat) (x : SliceIx) : (s.camInt c v).slice x = s.slice x := by
  unfold State.slice; rw [State.camInt_slices]
@[simp] theorem State.camInt_core (c : PortIx) (v : Nat) (x : CoreIx) : (s.camInt c v).core x = s.core x := by
  unfold State.core; rw [State.camInt_cores]
@[simp] theorem State.camInt_link (c : PortIx) (v : Nat) (x : LinkIx) : (s.camInt c v).link x = s.link x := by
  unfold State.link; rw [State.camInt_links]

@[simp] theorem State.raiseStatus_dt (b : Block) (v c u i n : Nat) : (s.raiseStatus b v c u i n).dt = s.dt := State.raiseInt_dt s b v
@[simp] theorem State.raiseStatus_dev (b : Block) (v c u i n : Nat) : (s.raiseStatus b v c u i n).dev = s.dev := State.raiseInt_dev s b v
@[simp] theorem State.raiseStatus_web (b : Block) (v c u i n : Nat) : (s.raiseStatus b v c u i n).web = s.web := State.raiseInt_web s b v
@[simp] theorem State.raiseStatus_ports (b : Block) (v c u i n : Nat) : (s.raiseStatus b v c u i n).ports = s.ports := State.raiseInt_ports s b v
@[simp] theorem State.raiseStatus_fsPorts (b : Block) (v c u i n : Nat) : (s.raiseStatus b v c u i n).fsPorts = s.fsPorts := State.raiseInt_fsPorts s b v
@[simp] theorem State.raiseStatus_slices (b : Block) (v c u i n : Nat) : (s.raiseStatus b v c u i n).slices = s.slices := State.raiseInt_slices s b v
@[simp] theorem State.raiseStatus_tensors (b : Block) (v c u i n : Nat) : (s.raiseStatus b v c u i n).tensors = s.tensors := State.raiseInt_tensors s b v
@[simp] theorem State.raiseStatus_cores (b : Block) (v c u i n : Nat) : (s.raiseStatus b v c u i n).cores = s.cores := State.raiseInt_cores s b v
@[simp] theorem State.raiseStatus_cmd (b : Block) (v c u i n : Nat) : (s.raiseStatus b v c u i n).cmd = s.cmd := State.raiseInt_cmd s b v
@[simp] theorem State.raiseStatus_ctx (b : Block) (v c u i n : Nat) : (s.raiseStatus b v c u i n).ctx = s.ctx := State.raiseInt_ctx s b v
@[simp] theorem State.raiseStatus_det (b : Block) (v c u i n : Nat) : (s.raiseStatus b v c u i n).det = s.det := State.raiseInt_det s b v
@[simp] theorem State.raiseStatus_links (b : Block) (v c u i n : Nat) : (s.raiseStatus b v c u i n).links = s.links := State.raiseInt_links s b v
@[simp] theorem State.raiseStatus_trim (b : Block) (v c u i n : Nat) : (s.raiseStatus b v c u i n).trim = s.trim := State.raiseInt_trim s b v
@[simp] theorem State.raiseStatus_dict (b : Block) (v c u i n : Nat) : (s.raiseStatus b v c u i n).dict = s.dict := State.raiseInt_dict s b v
@[simp] theorem State.raiseStatus_blobs (b : Block) (v c u i n : Nat) : (s.raiseStatus b v c u i n).blobs = s.blobs := State.raiseInt_blobs s b v
@[simp] theorem State.raiseStatus_doors (b : Block) (v c u i n : Nat) : (s.raiseStatus b v c u i n).doors = s.doors := State.raiseInt_doors s b v
@[simp] theorem State.raiseStatus_crv (b : Block) (v c u i n : Nat) : (s.raiseStatus b v c u i n).crv = s.crv := State.raiseInt_crv s b v
@[simp] theorem State.raiseStatus_ledger (b : Block) (v c u i n : Nat) : (s.raiseStatus b v c u i n).ledger = s.ledger := State.raiseInt_ledger s b v
@[simp] theorem State.raiseStatus_saf (b : Block) (v c u i n : Nat) : (s.raiseStatus b v c u i n).saf = s.saf := State.raiseInt_saf s b v
@[simp] theorem State.raiseStatus_pwr (b : Block) (v c u i n : Nat) : (s.raiseStatus b v c u i n).pwr = s.pwr := State.raiseInt_pwr s b v
@[simp] theorem State.raiseStatus_hostMem (b : Block) (v c u i n : Nat) : (s.raiseStatus b v c u i n).hostMem = s.hostMem := State.raiseInt_hostMem s b v
@[simp] theorem State.raiseStatus_dram (b : Block) (v c u i n : Nat) : (s.raiseStatus b v c u i n).dram = s.dram := State.raiseInt_dram s b v
@[simp] theorem State.raiseStatus_oasis (b : Block) (v c u i n : Nat) : (s.raiseStatus b v c u i n).oasis = s.oasis := State.raiseInt_oasis s b v
@[simp] theorem State.raiseStatus_dramPoison (b : Block) (v c u i n : Nat) : (s.raiseStatus b v c u i n).dramPoison = s.dramPoison := State.raiseInt_dramPoison s b v
@[simp] theorem State.raiseStatus_oasisPoison (b : Block) (v c u i n : Nat) : (s.raiseStatus b v c u i n).oasisPoison = s.oasisPoison := State.raiseInt_oasisPoison s b v
@[simp] theorem State.raiseStatus_dramSingle (b : Block) (v c u i n : Nat) : (s.raiseStatus b v c u i n).dramSingle = s.dramSingle := State.raiseInt_dramSingle s b v
@[simp] theorem State.raiseStatus_oasisSingle (b : Block) (v c u i n : Nat) : (s.raiseStatus b v c u i n).oasisSingle = s.oasisSingle := State.raiseInt_oasisSingle s b v
@[simp] theorem State.raiseStatus_memEpoch (b : Block) (v c u i n : Nat) : (s.raiseStatus b v c u i n).memEpoch = s.memEpoch := State.raiseInt_memEpoch s b v
@[simp] theorem State.raiseStatus_freeCtr (b : Block) (v c u i n : Nat) : (s.raiseStatus b v c u i n).freeCtr = s.freeCtr := State.raiseInt_freeCtr s b v
@[simp] theorem State.raiseStatus_pending (b : Block) (v c u i n : Nat) : (s.raiseStatus b v c u i n).pending = s.pending := State.raiseInt_pending s b v
@[simp] theorem State.raiseStatus_od (b : Block) (v c u i n : Nat) (x : Nat) : (s.raiseStatus b v c u i n).od x = s.od x := by
  unfold State.od; rw [State.raiseStatus_dict]
@[simp] theorem State.raiseStatus_odFlag (b : Block) (v c u i n : Nat) (x : Nat) : (s.raiseStatus b v c u i n).odFlag x = s.odFlag x := by
  unfold State.odFlag; unfold State.od; rw [State.raiseStatus_dict]
@[simp] theorem State.raiseStatus_blob (b : Block) (v c u i n : Nat) (x : Nat) : (s.raiseStatus b v c u i n).blob x = s.blob x := by
  unfold State.blob; rw [State.raiseStatus_blobs]
@[simp] theorem State.raiseStatus_port (b : Block) (v c u i n : Nat) (x : PortIx) : (s.raiseStatus b v c u i n).port x = s.port x := by
  unfold State.port; rw [State.raiseStatus_ports]
@[simp] theorem State.raiseStatus_fsPort (b : Block) (v c u i n : Nat) (x : PortIx) : (s.raiseStatus b v c u i n).fsPort x = s.fsPort x := by
  unfold State.fsPort; rw [State.raiseStatus_fsPorts]
@[simp] theorem State.raiseStatus_slice (b : Block) (v c u i n : Nat) (x : SliceIx) : (s.raiseStatus b v c u i n).slice x = s.slice x := by
  unfold State.slice; rw [State.raiseStatus_slices]
@[simp] theorem State.raiseStatus_core (b : Block) (v c u i n : Nat) (x : CoreIx) : (s.raiseStatus b v c u i n).core x = s.core x := by
  unfold State.core; rw [State.raiseStatus_cores]
@[simp] theorem State.raiseStatus_link (b : Block) (v c u i n : Nat) (x : LinkIx) : (s.raiseStatus b v c u i n).link x = s.link x := by
  unfold State.link; rw [State.raiseStatus_links]

@[simp] theorem State.camStatus_dt (c : PortIx) (v : Nat) : (s.camStatus c v).dt = s.dt := State.raiseStatus_dt s _ v _ _ _ _
@[simp] theorem State.camStatus_dev (c : PortIx) (v : Nat) : (s.camStatus c v).dev = s.dev := State.raiseStatus_dev s _ v _ _ _ _
@[simp] theorem State.camStatus_web (c : PortIx) (v : Nat) : (s.camStatus c v).web = s.web := State.raiseStatus_web s _ v _ _ _ _
@[simp] theorem State.camStatus_ports (c : PortIx) (v : Nat) : (s.camStatus c v).ports = s.ports := State.raiseStatus_ports s _ v _ _ _ _
@[simp] theorem State.camStatus_fsPorts (c : PortIx) (v : Nat) : (s.camStatus c v).fsPorts = s.fsPorts := State.raiseStatus_fsPorts s _ v _ _ _ _
@[simp] theorem State.camStatus_slices (c : PortIx) (v : Nat) : (s.camStatus c v).slices = s.slices := State.raiseStatus_slices s _ v _ _ _ _
@[simp] theorem State.camStatus_tensors (c : PortIx) (v : Nat) : (s.camStatus c v).tensors = s.tensors := State.raiseStatus_tensors s _ v _ _ _ _
@[simp] theorem State.camStatus_cores (c : PortIx) (v : Nat) : (s.camStatus c v).cores = s.cores := State.raiseStatus_cores s _ v _ _ _ _
@[simp] theorem State.camStatus_cmd (c : PortIx) (v : Nat) : (s.camStatus c v).cmd = s.cmd := State.raiseStatus_cmd s _ v _ _ _ _
@[simp] theorem State.camStatus_ctx (c : PortIx) (v : Nat) : (s.camStatus c v).ctx = s.ctx := State.raiseStatus_ctx s _ v _ _ _ _
@[simp] theorem State.camStatus_det (c : PortIx) (v : Nat) : (s.camStatus c v).det = s.det := State.raiseStatus_det s _ v _ _ _ _
@[simp] theorem State.camStatus_links (c : PortIx) (v : Nat) : (s.camStatus c v).links = s.links := State.raiseStatus_links s _ v _ _ _ _
@[simp] theorem State.camStatus_trim (c : PortIx) (v : Nat) : (s.camStatus c v).trim = s.trim := State.raiseStatus_trim s _ v _ _ _ _
@[simp] theorem State.camStatus_dict (c : PortIx) (v : Nat) : (s.camStatus c v).dict = s.dict := State.raiseStatus_dict s _ v _ _ _ _
@[simp] theorem State.camStatus_blobs (c : PortIx) (v : Nat) : (s.camStatus c v).blobs = s.blobs := State.raiseStatus_blobs s _ v _ _ _ _
@[simp] theorem State.camStatus_doors (c : PortIx) (v : Nat) : (s.camStatus c v).doors = s.doors := State.raiseStatus_doors s _ v _ _ _ _
@[simp] theorem State.camStatus_crv (c : PortIx) (v : Nat) : (s.camStatus c v).crv = s.crv := State.raiseStatus_crv s _ v _ _ _ _
@[simp] theorem State.camStatus_ledger (c : PortIx) (v : Nat) : (s.camStatus c v).ledger = s.ledger := State.raiseStatus_ledger s _ v _ _ _ _
@[simp] theorem State.camStatus_saf (c : PortIx) (v : Nat) : (s.camStatus c v).saf = s.saf := State.raiseStatus_saf s _ v _ _ _ _
@[simp] theorem State.camStatus_pwr (c : PortIx) (v : Nat) : (s.camStatus c v).pwr = s.pwr := State.raiseStatus_pwr s _ v _ _ _ _
@[simp] theorem State.camStatus_hostMem (c : PortIx) (v : Nat) : (s.camStatus c v).hostMem = s.hostMem := State.raiseStatus_hostMem s _ v _ _ _ _
@[simp] theorem State.camStatus_dram (c : PortIx) (v : Nat) : (s.camStatus c v).dram = s.dram := State.raiseStatus_dram s _ v _ _ _ _
@[simp] theorem State.camStatus_oasis (c : PortIx) (v : Nat) : (s.camStatus c v).oasis = s.oasis := State.raiseStatus_oasis s _ v _ _ _ _
@[simp] theorem State.camStatus_dramPoison (c : PortIx) (v : Nat) : (s.camStatus c v).dramPoison = s.dramPoison := State.raiseStatus_dramPoison s _ v _ _ _ _
@[simp] theorem State.camStatus_oasisPoison (c : PortIx) (v : Nat) : (s.camStatus c v).oasisPoison = s.oasisPoison := State.raiseStatus_oasisPoison s _ v _ _ _ _
@[simp] theorem State.camStatus_dramSingle (c : PortIx) (v : Nat) : (s.camStatus c v).dramSingle = s.dramSingle := State.raiseStatus_dramSingle s _ v _ _ _ _
@[simp] theorem State.camStatus_oasisSingle (c : PortIx) (v : Nat) : (s.camStatus c v).oasisSingle = s.oasisSingle := State.raiseStatus_oasisSingle s _ v _ _ _ _
@[simp] theorem State.camStatus_memEpoch (c : PortIx) (v : Nat) : (s.camStatus c v).memEpoch = s.memEpoch := State.raiseStatus_memEpoch s _ v _ _ _ _
@[simp] theorem State.camStatus_freeCtr (c : PortIx) (v : Nat) : (s.camStatus c v).freeCtr = s.freeCtr := State.raiseStatus_freeCtr s _ v _ _ _ _
@[simp] theorem State.camStatus_pending (c : PortIx) (v : Nat) : (s.camStatus c v).pending = s.pending := State.raiseStatus_pending s _ v _ _ _ _
@[simp] theorem State.camStatus_od (c : PortIx) (v : Nat) (x : Nat) : (s.camStatus c v).od x = s.od x := by
  unfold State.od; rw [State.camStatus_dict]
@[simp] theorem State.camStatus_odFlag (c : PortIx) (v : Nat) (x : Nat) : (s.camStatus c v).odFlag x = s.odFlag x := by
  unfold State.odFlag; unfold State.od; rw [State.camStatus_dict]
@[simp] theorem State.camStatus_blob (c : PortIx) (v : Nat) (x : Nat) : (s.camStatus c v).blob x = s.blob x := by
  unfold State.blob; rw [State.camStatus_blobs]
@[simp] theorem State.camStatus_port (c : PortIx) (v : Nat) (x : PortIx) : (s.camStatus c v).port x = s.port x := by
  unfold State.port; rw [State.camStatus_ports]
@[simp] theorem State.camStatus_fsPort (c : PortIx) (v : Nat) (x : PortIx) : (s.camStatus c v).fsPort x = s.fsPort x := by
  unfold State.fsPort; rw [State.camStatus_fsPorts]
@[simp] theorem State.camStatus_slice (c : PortIx) (v : Nat) (x : SliceIx) : (s.camStatus c v).slice x = s.slice x := by
  unfold State.slice; rw [State.camStatus_slices]
@[simp] theorem State.camStatus_core (c : PortIx) (v : Nat) (x : CoreIx) : (s.camStatus c v).core x = s.core x := by
  unfold State.core; rw [State.camStatus_cores]
@[simp] theorem State.camStatus_link (c : PortIx) (v : Nat) (x : LinkIx) : (s.camStatus c v).link x = s.link x := by
  unfold State.link; rw [State.camStatus_links]

@[simp] theorem State.ledgerLevel_dt : (s.ledgerLevel).dt = s.dt := by
  unfold State.ledgerLevel; dsimp only; split
  · exact State.raiseInt_dt _ _ _
  · split
    · exact State.raiseInt_dt _ _ _
    · rfl
@[simp] theorem State.ledgerLevel_dev  : (s.ledgerLevel).dev = s.dev := by
  unfold State.ledgerLevel; dsimp only; split
  · exact State.raiseInt_dev _ _ _
  · split
    · exact State.raiseInt_dev _ _ _
    · rfl
@[simp] theorem State.ledgerLevel_web  : (s.ledgerLevel).web = s.web := by
  unfold State.ledgerLevel; dsimp only; split
  · exact State.raiseInt_web _ _ _
  · split
    · exact State.raiseInt_web _ _ _
    · rfl
@[simp] theorem State.ledgerLevel_ports  : (s.ledgerLevel).ports = s.ports := by
  unfold State.ledgerLevel; dsimp only; split
  · exact State.raiseInt_ports _ _ _
  · split
    · exact State.raiseInt_ports _ _ _
    · rfl
@[simp] theorem State.ledgerLevel_fsPorts  : (s.ledgerLevel).fsPorts = s.fsPorts := by
  unfold State.ledgerLevel; dsimp only; split
  · exact State.raiseInt_fsPorts _ _ _
  · split
    · exact State.raiseInt_fsPorts _ _ _
    · rfl
@[simp] theorem State.ledgerLevel_slices  : (s.ledgerLevel).slices = s.slices := by
  unfold State.ledgerLevel; dsimp only; split
  · exact State.raiseInt_slices _ _ _
  · split
    · exact State.raiseInt_slices _ _ _
    · rfl
@[simp] theorem State.ledgerLevel_tensors  : (s.ledgerLevel).tensors = s.tensors := by
  unfold State.ledgerLevel; dsimp only; split
  · exact State.raiseInt_tensors _ _ _
  · split
    · exact State.raiseInt_tensors _ _ _
    · rfl
@[simp] theorem State.ledgerLevel_cores  : (s.ledgerLevel).cores = s.cores := by
  unfold State.ledgerLevel; dsimp only; split
  · exact State.raiseInt_cores _ _ _
  · split
    · exact State.raiseInt_cores _ _ _
    · rfl
@[simp] theorem State.ledgerLevel_cmd  : (s.ledgerLevel).cmd = s.cmd := by
  unfold State.ledgerLevel; dsimp only; split
  · exact State.raiseInt_cmd _ _ _
  · split
    · exact State.raiseInt_cmd _ _ _
    · rfl
@[simp] theorem State.ledgerLevel_ctx  : (s.ledgerLevel).ctx = s.ctx := by
  unfold State.ledgerLevel; dsimp only; split
  · exact State.raiseInt_ctx _ _ _
  · split
    · exact State.raiseInt_ctx _ _ _
    · rfl
@[simp] theorem State.ledgerLevel_det  : (s.ledgerLevel).det = s.det := by
  unfold State.ledgerLevel; dsimp only; split
  · exact State.raiseInt_det _ _ _
  · split
    · exact State.raiseInt_det _ _ _
    · rfl
@[simp] theorem State.ledgerLevel_links  : (s.ledgerLevel).links = s.links := by
  unfold State.ledgerLevel; dsimp only; split
  · exact State.raiseInt_links _ _ _
  · split
    · exact State.raiseInt_links _ _ _
    · rfl
@[simp] theorem State.ledgerLevel_trim  : (s.ledgerLevel).trim = s.trim := by
  unfold State.ledgerLevel; dsimp only; split
  · exact State.raiseInt_trim _ _ _
  · split
    · exact State.raiseInt_trim _ _ _
    · rfl
@[simp] theorem State.ledgerLevel_dict  : (s.ledgerLevel).dict = s.dict := by
  unfold State.ledgerLevel; dsimp only; split
  · exact State.raiseInt_dict _ _ _
  · split
    · exact State.raiseInt_dict _ _ _
    · rfl
@[simp] theorem State.ledgerLevel_blobs  : (s.ledgerLevel).blobs = s.blobs := by
  unfold State.ledgerLevel; dsimp only; split
  · exact State.raiseInt_blobs _ _ _
  · split
    · exact State.raiseInt_blobs _ _ _
    · rfl
@[simp] theorem State.ledgerLevel_doors  : (s.ledgerLevel).doors = s.doors := by
  unfold State.ledgerLevel; dsimp only; split
  · exact State.raiseInt_doors _ _ _
  · split
    · exact State.raiseInt_doors _ _ _
    · rfl
@[simp] theorem State.ledgerLevel_crv  : (s.ledgerLevel).crv = s.crv := by
  unfold State.ledgerLevel; dsimp only; split
  · exact State.raiseInt_crv _ _ _
  · split
    · exact State.raiseInt_crv _ _ _
    · rfl
@[simp] theorem State.ledgerLevel_saf  : (s.ledgerLevel).saf = s.saf := by
  unfold State.ledgerLevel; dsimp only; split
  · exact State.raiseInt_saf _ _ _
  · split
    · exact State.raiseInt_saf _ _ _
    · rfl
@[simp] theorem State.ledgerLevel_pwr  : (s.ledgerLevel).pwr = s.pwr := by
  unfold State.ledgerLevel; dsimp only; split
  · exact State.raiseInt_pwr _ _ _
  · split
    · exact State.raiseInt_pwr _ _ _
    · rfl
@[simp] theorem State.ledgerLevel_hostMem  : (s.ledgerLevel).hostMem = s.hostMem := by
  unfold State.ledgerLevel; dsimp only; split
  · exact State.raiseInt_hostMem _ _ _
  · split
    · exact State.raiseInt_hostMem _ _ _
    · rfl
@[simp] theorem State.ledgerLevel_dram  : (s.ledgerLevel).dram = s.dram := by
  unfold State.ledgerLevel; dsimp only; split
  · exact State.raiseInt_dram _ _ _
  · split
    · exact State.raiseInt_dram _ _ _
    · rfl
@[simp] theorem State.ledgerLevel_oasis  : (s.ledgerLevel).oasis = s.oasis := by
  unfold State.ledgerLevel; dsimp only; split
  · exact State.raiseInt_oasis _ _ _
  · split
    · exact State.raiseInt_oasis _ _ _
    · rfl
@[simp] theorem State.ledgerLevel_dramPoison  : (s.ledgerLevel).dramPoison = s.dramPoison := by
  unfold State.ledgerLevel; dsimp only; split
  · exact State.raiseInt_dramPoison _ _ _
  · split
    · exact State.raiseInt_dramPoison _ _ _
    · rfl
@[simp] theorem State.ledgerLevel_oasisPoison  : (s.ledgerLevel).oasisPoison = s.oasisPoison := by
  unfold State.ledgerLevel; dsimp only; split
  · exact State.raiseInt_oasisPoison _ _ _
  · split
    · exact State.raiseInt_oasisPoison _ _ _
    · rfl
@[simp] theorem State.ledgerLevel_dramSingle  : (s.ledgerLevel).dramSingle = s.dramSingle := by
  unfold State.ledgerLevel; dsimp only; split
  · exact State.raiseInt_dramSingle _ _ _
  · split
    · exact State.raiseInt_dramSingle _ _ _
    · rfl
@[simp] theorem State.ledgerLevel_oasisSingle  : (s.ledgerLevel).oasisSingle = s.oasisSingle := by
  unfold State.ledgerLevel; dsimp only; split
  · exact State.raiseInt_oasisSingle _ _ _
  · split
    · exact State.raiseInt_oasisSingle _ _ _
    · rfl
@[simp] theorem State.ledgerLevel_memEpoch  : (s.ledgerLevel).memEpoch = s.memEpoch := by
  unfold State.ledgerLevel; dsimp only; split
  · exact State.raiseInt_memEpoch _ _ _
  · split
    · exact State.raiseInt_memEpoch _ _ _
    · rfl
@[simp] theorem State.ledgerLevel_freeCtr  : (s.ledgerLevel).freeCtr = s.freeCtr := by
  unfold State.ledgerLevel; dsimp only; split
  · exact State.raiseInt_freeCtr _ _ _
  · split
    · exact State.raiseInt_freeCtr _ _ _
    · rfl
@[simp] theorem State.ledgerLevel_pending  : (s.ledgerLevel).pending = s.pending := by
  unfold State.ledgerLevel; dsimp only; split
  · exact State.raiseInt_pending _ _ _
  · split
    · exact State.raiseInt_pending _ _ _
    · rfl
@[simp] theorem State.ledgerLevel_od  (x : Nat) : (s.ledgerLevel).od x = s.od x := by
  unfold State.od; rw [State.ledgerLevel_dict]
@[simp] theorem State.ledgerLevel_odFlag  (x : Nat) : (s.ledgerLevel).odFlag x = s.odFlag x := by
  unfold State.odFlag; unfold State.od; rw [State.ledgerLevel_dict]
@[simp] theorem State.ledgerLevel_blob  (x : Nat) : (s.ledgerLevel).blob x = s.blob x := by
  unfold State.blob; rw [State.ledgerLevel_blobs]
@[simp] theorem State.ledgerLevel_port  (x : PortIx) : (s.ledgerLevel).port x = s.port x := by
  unfold State.port; rw [State.ledgerLevel_ports]
@[simp] theorem State.ledgerLevel_fsPort  (x : PortIx) : (s.ledgerLevel).fsPort x = s.fsPort x := by
  unfold State.fsPort; rw [State.ledgerLevel_fsPorts]
@[simp] theorem State.ledgerLevel_slice  (x : SliceIx) : (s.ledgerLevel).slice x = s.slice x := by
  unfold State.slice; rw [State.ledgerLevel_slices]
@[simp] theorem State.ledgerLevel_core  (x : CoreIx) : (s.ledgerLevel).core x = s.core x := by
  unfold State.core; rw [State.ledgerLevel_cores]
@[simp] theorem State.ledgerLevel_link  (x : LinkIx) : (s.ledgerLevel).link x = s.link x := by
  unfold State.link; rw [State.ledgerLevel_links]

@[simp] theorem State.ledgerPush_dt (n : LedgerNote) : (s.ledgerPush n).dt = s.dt := by
  unfold State.ledgerPush; dsimp only; rw [State.ledgerLevel_dt]; split <;> rfl
@[simp] theorem State.ledgerPush_dev (n : LedgerNote) : (s.ledgerPush n).dev = s.dev := by
  unfold State.ledgerPush; dsimp only; rw [State.ledgerLevel_dev]; split <;> rfl
@[simp] theorem State.ledgerPush_web (n : LedgerNote) : (s.ledgerPush n).web = s.web := by
  unfold State.ledgerPush; dsimp only; rw [State.ledgerLevel_web]; split <;> rfl
@[simp] theorem State.ledgerPush_ports (n : LedgerNote) : (s.ledgerPush n).ports = s.ports := by
  unfold State.ledgerPush; dsimp only; rw [State.ledgerLevel_ports]; split <;> rfl
@[simp] theorem State.ledgerPush_fsPorts (n : LedgerNote) : (s.ledgerPush n).fsPorts = s.fsPorts := by
  unfold State.ledgerPush; dsimp only; rw [State.ledgerLevel_fsPorts]; split <;> rfl
@[simp] theorem State.ledgerPush_slices (n : LedgerNote) : (s.ledgerPush n).slices = s.slices := by
  unfold State.ledgerPush; dsimp only; rw [State.ledgerLevel_slices]; split <;> rfl
@[simp] theorem State.ledgerPush_tensors (n : LedgerNote) : (s.ledgerPush n).tensors = s.tensors := by
  unfold State.ledgerPush; dsimp only; rw [State.ledgerLevel_tensors]; split <;> rfl
@[simp] theorem State.ledgerPush_cores (n : LedgerNote) : (s.ledgerPush n).cores = s.cores := by
  unfold State.ledgerPush; dsimp only; rw [State.ledgerLevel_cores]; split <;> rfl
@[simp] theorem State.ledgerPush_cmd (n : LedgerNote) : (s.ledgerPush n).cmd = s.cmd := by
  unfold State.ledgerPush; dsimp only; rw [State.ledgerLevel_cmd]; split <;> rfl
@[simp] theorem State.ledgerPush_ctx (n : LedgerNote) : (s.ledgerPush n).ctx = s.ctx := by
  unfold State.ledgerPush; dsimp only; rw [State.ledgerLevel_ctx]; split <;> rfl
@[simp] theorem State.ledgerPush_det (n : LedgerNote) : (s.ledgerPush n).det = s.det := by
  unfold State.ledgerPush; dsimp only; rw [State.ledgerLevel_det]; split <;> rfl
@[simp] theorem State.ledgerPush_links (n : LedgerNote) : (s.ledgerPush n).links = s.links := by
  unfold State.ledgerPush; dsimp only; rw [State.ledgerLevel_links]; split <;> rfl
@[simp] theorem State.ledgerPush_trim (n : LedgerNote) : (s.ledgerPush n).trim = s.trim := by
  unfold State.ledgerPush; dsimp only; rw [State.ledgerLevel_trim]; split <;> rfl
@[simp] theorem State.ledgerPush_blobs (n : LedgerNote) : (s.ledgerPush n).blobs = s.blobs := by
  unfold State.ledgerPush; dsimp only; rw [State.ledgerLevel_blobs]; split <;> rfl
@[simp] theorem State.ledgerPush_doors (n : LedgerNote) : (s.ledgerPush n).doors = s.doors := by
  unfold State.ledgerPush; dsimp only; rw [State.ledgerLevel_doors]; split <;> rfl
@[simp] theorem State.ledgerPush_crv (n : LedgerNote) : (s.ledgerPush n).crv = s.crv := by
  unfold State.ledgerPush; dsimp only; rw [State.ledgerLevel_crv]; split <;> rfl
@[simp] theorem State.ledgerPush_saf (n : LedgerNote) : (s.ledgerPush n).saf = s.saf := by
  unfold State.ledgerPush; dsimp only; rw [State.ledgerLevel_saf]; split <;> rfl
@[simp] theorem State.ledgerPush_pwr (n : LedgerNote) : (s.ledgerPush n).pwr = s.pwr := by
  unfold State.ledgerPush; dsimp only; rw [State.ledgerLevel_pwr]; split <;> rfl
@[simp] theorem State.ledgerPush_hostMem (n : LedgerNote) : (s.ledgerPush n).hostMem = s.hostMem := by
  unfold State.ledgerPush; dsimp only; rw [State.ledgerLevel_hostMem]; split <;> rfl
@[simp] theorem State.ledgerPush_dram (n : LedgerNote) : (s.ledgerPush n).dram = s.dram := by
  unfold State.ledgerPush; dsimp only; rw [State.ledgerLevel_dram]; split <;> rfl
@[simp] theorem State.ledgerPush_oasis (n : LedgerNote) : (s.ledgerPush n).oasis = s.oasis := by
  unfold State.ledgerPush; dsimp only; rw [State.ledgerLevel_oasis]; split <;> rfl
@[simp] theorem State.ledgerPush_dramPoison (n : LedgerNote) : (s.ledgerPush n).dramPoison = s.dramPoison := by
  unfold State.ledgerPush; dsimp only; rw [State.ledgerLevel_dramPoison]; split <;> rfl
@[simp] theorem State.ledgerPush_oasisPoison (n : LedgerNote) : (s.ledgerPush n).oasisPoison = s.oasisPoison := by
  unfold State.ledgerPush; dsimp only; rw [State.ledgerLevel_oasisPoison]; split <;> rfl
@[simp] theorem State.ledgerPush_dramSingle (n : LedgerNote) : (s.ledgerPush n).dramSingle = s.dramSingle := by
  unfold State.ledgerPush; dsimp only; rw [State.ledgerLevel_dramSingle]; split <;> rfl
@[simp] theorem State.ledgerPush_oasisSingle (n : LedgerNote) : (s.ledgerPush n).oasisSingle = s.oasisSingle := by
  unfold State.ledgerPush; dsimp only; rw [State.ledgerLevel_oasisSingle]; split <;> rfl
@[simp] theorem State.ledgerPush_memEpoch (n : LedgerNote) : (s.ledgerPush n).memEpoch = s.memEpoch := by
  unfold State.ledgerPush; dsimp only; rw [State.ledgerLevel_memEpoch]; split <;> rfl
@[simp] theorem State.ledgerPush_freeCtr (n : LedgerNote) : (s.ledgerPush n).freeCtr = s.freeCtr := by
  unfold State.ledgerPush; dsimp only; rw [State.ledgerLevel_freeCtr]; split <;> rfl
@[simp] theorem State.ledgerPush_pending (n : LedgerNote) : (s.ledgerPush n).pending = s.pending := by
  unfold State.ledgerPush; dsimp only; rw [State.ledgerLevel_pending]; split <;> rfl
@[simp] theorem State.ledgerPush_blob (n : LedgerNote) (x : Nat) : (s.ledgerPush n).blob x = s.blob x := by
  unfold State.blob; rw [State.ledgerPush_blobs]
@[simp] theorem State.ledgerPush_port (n : LedgerNote) (x : PortIx) : (s.ledgerPush n).port x = s.port x := by
  unfold State.port; rw [State.ledgerPush_ports]
@[simp] theorem State.ledgerPush_fsPort (n : LedgerNote) (x : PortIx) : (s.ledgerPush n).fsPort x = s.fsPort x := by
  unfold State.fsPort; rw [State.ledgerPush_fsPorts]
@[simp] theorem State.ledgerPush_slice (n : LedgerNote) (x : SliceIx) : (s.ledgerPush n).slice x = s.slice x := by
  unfold State.slice; rw [State.ledgerPush_slices]
@[simp] theorem State.ledgerPush_core (n : LedgerNote) (x : CoreIx) : (s.ledgerPush n).core x = s.core x := by
  unfold State.core; rw [State.ledgerPush_cores]
@[simp] theorem State.ledgerPush_link (n : LedgerNote) (x : LinkIx) : (s.ledgerPush n).link x = s.link x := by
  unfold State.link; rw [State.ledgerPush_links]

@[simp] theorem State.ledgerAppend_dt (n : LedgerNote) : (s.ledgerAppend n).dt = s.dt := by
  unfold State.ledgerAppend; dsimp only; split
  · rfl
  · split <;> split <;> first
      | exact State.ledgerPush_dt s n
      | (rw [State.event_dt, State.raiseInt_dt, State.ledgerPush_dt]; exact State.ledgerPush_dt s n)
@[simp] theorem State.ledgerAppend_dev (n : LedgerNote) : (s.ledgerAppend n).dev = s.dev := by
  unfold State.ledgerAppend; dsimp only; split
  · rfl
  · split <;> split <;> first
      | exact State.ledgerPush_dev s n
      | (rw [State.event_dev, State.raiseInt_dev, State.ledgerPush_dev]; exact State.ledgerPush_dev s n)
@[simp] theorem State.ledgerAppend_web (n : LedgerNote) : (s.ledgerAppend n).web = s.web := by
  unfold State.ledgerAppend; dsimp only; split
  · rfl
  · split <;> split <;> first
      | exact State.ledgerPush_web s n
      | (rw [State.event_web, State.raiseInt_web, State.ledgerPush_web]; exact State.ledgerPush_web s n)
@[simp] theorem State.ledgerAppend_ports (n : LedgerNote) : (s.ledgerAppend n).ports = s.ports := by
  unfold State.ledgerAppend; dsimp only; split
  · rfl
  · split <;> split <;> first
      | exact State.ledgerPush_ports s n
      | (rw [State.event_ports, State.raiseInt_ports, State.ledgerPush_ports]; exact State.ledgerPush_ports s n)
@[simp] theorem State.ledgerAppend_fsPorts (n : LedgerNote) : (s.ledgerAppend n).fsPorts = s.fsPorts := by
  unfold State.ledgerAppend; dsimp only; split
  · rfl
  · split <;> split <;> first
      | exact State.ledgerPush_fsPorts s n
      | (rw [State.event_fsPorts, State.raiseInt_fsPorts, State.ledgerPush_fsPorts]; exact State.ledgerPush_fsPorts s n)
@[simp] theorem State.ledgerAppend_slices (n : LedgerNote) : (s.ledgerAppend n).slices = s.slices := by
  unfold State.ledgerAppend; dsimp only; split
  · rfl
  · split <;> split <;> first
      | exact State.ledgerPush_slices s n
      | (rw [State.event_slices, State.raiseInt_slices, State.ledgerPush_slices]; exact State.ledgerPush_slices s n)
@[simp] theorem State.ledgerAppend_tensors (n : LedgerNote) : (s.ledgerAppend n).tensors = s.tensors := by
  unfold State.ledgerAppend; dsimp only; split
  · rfl
  · split <;> split <;> first
      | exact State.ledgerPush_tensors s n
      | (rw [State.event_tensors, State.raiseInt_tensors, State.ledgerPush_tensors]; exact State.ledgerPush_tensors s n)
@[simp] theorem State.ledgerAppend_cores (n : LedgerNote) : (s.ledgerAppend n).cores = s.cores := by
  unfold State.ledgerAppend; dsimp only; split
  · rfl
  · split <;> split <;> first
      | exact State.ledgerPush_cores s n
      | (rw [State.event_cores, State.raiseInt_cores, State.ledgerPush_cores]; exact State.ledgerPush_cores s n)
@[simp] theorem State.ledgerAppend_cmd (n : LedgerNote) : (s.ledgerAppend n).cmd = s.cmd := by
  unfold State.ledgerAppend; dsimp only; split
  · rfl
  · split <;> split <;> first
      | exact State.ledgerPush_cmd s n
      | (rw [State.event_cmd, State.raiseInt_cmd, State.ledgerPush_cmd]; exact State.ledgerPush_cmd s n)
@[simp] theorem State.ledgerAppend_ctx (n : LedgerNote) : (s.ledgerAppend n).ctx = s.ctx := by
  unfold State.ledgerAppend; dsimp only; split
  · rfl
  · split <;> split <;> first
      | exact State.ledgerPush_ctx s n
      | (rw [State.event_ctx, State.raiseInt_ctx, State.ledgerPush_ctx]; exact State.ledgerPush_ctx s n)
@[simp] theorem State.ledgerAppend_det (n : LedgerNote) : (s.ledgerAppend n).det = s.det := by
  unfold State.ledgerAppend; dsimp only; split
  · rfl
  · split <;> split <;> first
      | exact State.ledgerPush_det s n
      | (rw [State.event_det, State.raiseInt_det, State.ledgerPush_det]; exact State.ledgerPush_det s n)
@[simp] theorem State.ledgerAppend_links (n : LedgerNote) : (s.ledgerAppend n).links = s.links := by
  unfold State.ledgerAppend; dsimp only; split
  · rfl
  · split <;> split <;> first
      | exact State.ledgerPush_links s n
      | (rw [State.event_links, State.raiseInt_links, State.ledgerPush_links]; exact State.ledgerPush_links s n)
@[simp] theorem State.ledgerAppend_trim (n : LedgerNote) : (s.ledgerAppend n).trim = s.trim := by
  unfold State.ledgerAppend; dsimp only; split
  · rfl
  · split <;> split <;> first
      | exact State.ledgerPush_trim s n
      | (rw [State.event_trim, State.raiseInt_trim, State.ledgerPush_trim]; exact State.ledgerPush_trim s n)
@[simp] theorem State.ledgerAppend_blobs (n : LedgerNote) : (s.ledgerAppend n).blobs = s.blobs := by
  unfold State.ledgerAppend; dsimp only; split
  · rfl
  · split <;> split <;> first
      | exact State.ledgerPush_blobs s n
      | (rw [State.event_blobs, State.raiseInt_blobs, State.ledgerPush_blobs]; exact State.ledgerPush_blobs s n)
@[simp] theorem State.ledgerAppend_doors (n : LedgerNote) : (s.ledgerAppend n).doors = s.doors := by
  unfold State.ledgerAppend; dsimp only; split
  · rfl
  · split <;> split <;> first
      | exact State.ledgerPush_doors s n
      | (rw [State.event_doors, State.raiseInt_doors, State.ledgerPush_doors]; exact State.ledgerPush_doors s n)
@[simp] theorem State.ledgerAppend_crv (n : LedgerNote) : (s.ledgerAppend n).crv = s.crv := by
  unfold State.ledgerAppend; dsimp only; split
  · rfl
  · split <;> split <;> first
      | exact State.ledgerPush_crv s n
      | (rw [State.event_crv, State.raiseInt_crv, State.ledgerPush_crv]; exact State.ledgerPush_crv s n)
@[simp] theorem State.ledgerAppend_saf (n : LedgerNote) : (s.ledgerAppend n).saf = s.saf := by
  unfold State.ledgerAppend; dsimp only; split
  · rfl
  · split <;> split <;> first
      | exact State.ledgerPush_saf s n
      | (rw [State.event_saf, State.raiseInt_saf, State.ledgerPush_saf]; exact State.ledgerPush_saf s n)
@[simp] theorem State.ledgerAppend_pwr (n : LedgerNote) : (s.ledgerAppend n).pwr = s.pwr := by
  unfold State.ledgerAppend; dsimp only; split
  · rfl
  · split <;> split <;> first
      | exact State.ledgerPush_pwr s n
      | (rw [State.event_pwr, State.raiseInt_pwr, State.ledgerPush_pwr]; exact State.ledgerPush_pwr s n)
@[simp] theorem State.ledgerAppend_hostMem (n : LedgerNote) : (s.ledgerAppend n).hostMem = s.hostMem := by
  unfold State.ledgerAppend; dsimp only; split
  · rfl
  · split <;> split <;> first
      | exact State.ledgerPush_hostMem s n
      | (rw [State.event_hostMem, State.raiseInt_hostMem, State.ledgerPush_hostMem]; exact State.ledgerPush_hostMem s n)
@[simp] theorem State.ledgerAppend_dram (n : LedgerNote) : (s.ledgerAppend n).dram = s.dram := by
  unfold State.ledgerAppend; dsimp only; split
  · rfl
  · split <;> split <;> first
      | exact State.ledgerPush_dram s n
      | (rw [State.event_dram, State.raiseInt_dram, State.ledgerPush_dram]; exact State.ledgerPush_dram s n)
@[simp] theorem State.ledgerAppend_oasis (n : LedgerNote) : (s.ledgerAppend n).oasis = s.oasis := by
  unfold State.ledgerAppend; dsimp only; split
  · rfl
  · split <;> split <;> first
      | exact State.ledgerPush_oasis s n
      | (rw [State.event_oasis, State.raiseInt_oasis, State.ledgerPush_oasis]; exact State.ledgerPush_oasis s n)
@[simp] theorem State.ledgerAppend_dramPoison (n : LedgerNote) : (s.ledgerAppend n).dramPoison = s.dramPoison := by
  unfold State.ledgerAppend; dsimp only; split
  · rfl
  · split <;> split <;> first
      | exact State.ledgerPush_dramPoison s n
      | (rw [State.event_dramPoison, State.raiseInt_dramPoison, State.ledgerPush_dramPoison]; exact State.ledgerPush_dramPoison s n)
@[simp] theorem State.ledgerAppend_oasisPoison (n : LedgerNote) : (s.ledgerAppend n).oasisPoison = s.oasisPoison := by
  unfold State.ledgerAppend; dsimp only; split
  · rfl
  · split <;> split <;> first
      | exact State.ledgerPush_oasisPoison s n
      | (rw [State.event_oasisPoison, State.raiseInt_oasisPoison, State.ledgerPush_oasisPoison]; exact State.ledgerPush_oasisPoison s n)
@[simp] theorem State.ledgerAppend_dramSingle (n : LedgerNote) : (s.ledgerAppend n).dramSingle = s.dramSingle := by
  unfold State.ledgerAppend; dsimp only; split
  · rfl
  · split <;> split <;> first
      | exact State.ledgerPush_dramSingle s n
      | (rw [State.event_dramSingle, State.raiseInt_dramSingle, State.ledgerPush_dramSingle]; exact State.ledgerPush_dramSingle s n)
@[simp] theorem State.ledgerAppend_oasisSingle (n : LedgerNote) : (s.ledgerAppend n).oasisSingle = s.oasisSingle := by
  unfold State.ledgerAppend; dsimp only; split
  · rfl
  · split <;> split <;> first
      | exact State.ledgerPush_oasisSingle s n
      | (rw [State.event_oasisSingle, State.raiseInt_oasisSingle, State.ledgerPush_oasisSingle]; exact State.ledgerPush_oasisSingle s n)
@[simp] theorem State.ledgerAppend_memEpoch (n : LedgerNote) : (s.ledgerAppend n).memEpoch = s.memEpoch := by
  unfold State.ledgerAppend; dsimp only; split
  · rfl
  · split <;> split <;> first
      | exact State.ledgerPush_memEpoch s n
      | (rw [State.event_memEpoch, State.raiseInt_memEpoch, State.ledgerPush_memEpoch]; exact State.ledgerPush_memEpoch s n)
@[simp] theorem State.ledgerAppend_freeCtr (n : LedgerNote) : (s.ledgerAppend n).freeCtr = s.freeCtr := by
  unfold State.ledgerAppend; dsimp only; split
  · rfl
  · split <;> split <;> first
      | exact State.ledgerPush_freeCtr s n
      | (rw [State.event_freeCtr, State.raiseInt_freeCtr, State.ledgerPush_freeCtr]; exact State.ledgerPush_freeCtr s n)
@[simp] theorem State.ledgerAppend_pending (n : LedgerNote) : (s.ledgerAppend n).pending = s.pending := by
  unfold State.ledgerAppend; dsimp only; split
  · rfl
  · split <;> split <;> first
      | exact State.ledgerPush_pending s n
      | (rw [State.event_pending, State.raiseInt_pending, State.ledgerPush_pending]; exact State.ledgerPush_pending s n)
@[simp] theorem State.ledgerAppend_blob (n : LedgerNote) (x : Nat) : (s.ledgerAppend n).blob x = s.blob x := by
  unfold State.blob; rw [State.ledgerAppend_blobs]
@[simp] theorem State.ledgerAppend_port (n : LedgerNote) (x : PortIx) : (s.ledgerAppend n).port x = s.port x := by
  unfold State.port; rw [State.ledgerAppend_ports]
@[simp] theorem State.ledgerAppend_fsPort (n : LedgerNote) (x : PortIx) : (s.ledgerAppend n).fsPort x = s.fsPort x := by
  unfold State.fsPort; rw [State.ledgerAppend_fsPorts]
@[simp] theorem State.ledgerAppend_slice (n : LedgerNote) (x : SliceIx) : (s.ledgerAppend n).slice x = s.slice x := by
  unfold State.slice; rw [State.ledgerAppend_slices]
@[simp] theorem State.ledgerAppend_core (n : LedgerNote) (x : CoreIx) : (s.ledgerAppend n).core x = s.core x := by
  unfold State.core; rw [State.ledgerAppend_cores]
@[simp] theorem State.ledgerAppend_link (n : LedgerNote) (x : LinkIx) : (s.ledgerAppend n).link x = s.link x := by
  unfold State.link; rw [State.ledgerAppend_links]

@[simp] theorem State.ledgerWrite_dt (k g : Nat) (o : Origin) (y w v l : Nat) : (s.ledgerWrite k g o y w v l).dt = s.dt := State.ledgerAppend_dt s _
@[simp] theorem State.ledgerWrite_dev (k g : Nat) (o : Origin) (y w v l : Nat) : (s.ledgerWrite k g o y w v l).dev = s.dev := State.ledgerAppend_dev s _
@[simp] theorem State.ledgerWrite_web (k g : Nat) (o : Origin) (y w v l : Nat) : (s.ledgerWrite k g o y w v l).web = s.web := State.ledgerAppend_web s _
@[simp] theorem State.ledgerWrite_ports (k g : Nat) (o : Origin) (y w v l : Nat) : (s.ledgerWrite k g o y w v l).ports = s.ports := State.ledgerAppend_ports s _
@[simp] theorem State.ledgerWrite_fsPorts (k g : Nat) (o : Origin) (y w v l : Nat) : (s.ledgerWrite k g o y w v l).fsPorts = s.fsPorts := State.ledgerAppend_fsPorts s _
@[simp] theorem State.ledgerWrite_slices (k g : Nat) (o : Origin) (y w v l : Nat) : (s.ledgerWrite k g o y w v l).slices = s.slices := State.ledgerAppend_slices s _
@[simp] theorem State.ledgerWrite_tensors (k g : Nat) (o : Origin) (y w v l : Nat) : (s.ledgerWrite k g o y w v l).tensors = s.tensors := State.ledgerAppend_tensors s _
@[simp] theorem State.ledgerWrite_cores (k g : Nat) (o : Origin) (y w v l : Nat) : (s.ledgerWrite k g o y w v l).cores = s.cores := State.ledgerAppend_cores s _
@[simp] theorem State.ledgerWrite_cmd (k g : Nat) (o : Origin) (y w v l : Nat) : (s.ledgerWrite k g o y w v l).cmd = s.cmd := State.ledgerAppend_cmd s _
@[simp] theorem State.ledgerWrite_ctx (k g : Nat) (o : Origin) (y w v l : Nat) : (s.ledgerWrite k g o y w v l).ctx = s.ctx := State.ledgerAppend_ctx s _
@[simp] theorem State.ledgerWrite_det (k g : Nat) (o : Origin) (y w v l : Nat) : (s.ledgerWrite k g o y w v l).det = s.det := State.ledgerAppend_det s _
@[simp] theorem State.ledgerWrite_links (k g : Nat) (o : Origin) (y w v l : Nat) : (s.ledgerWrite k g o y w v l).links = s.links := State.ledgerAppend_links s _
@[simp] theorem State.ledgerWrite_trim (k g : Nat) (o : Origin) (y w v l : Nat) : (s.ledgerWrite k g o y w v l).trim = s.trim := State.ledgerAppend_trim s _
@[simp] theorem State.ledgerWrite_blobs (k g : Nat) (o : Origin) (y w v l : Nat) : (s.ledgerWrite k g o y w v l).blobs = s.blobs := State.ledgerAppend_blobs s _
@[simp] theorem State.ledgerWrite_doors (k g : Nat) (o : Origin) (y w v l : Nat) : (s.ledgerWrite k g o y w v l).doors = s.doors := State.ledgerAppend_doors s _
@[simp] theorem State.ledgerWrite_crv (k g : Nat) (o : Origin) (y w v l : Nat) : (s.ledgerWrite k g o y w v l).crv = s.crv := State.ledgerAppend_crv s _
@[simp] theorem State.ledgerWrite_saf (k g : Nat) (o : Origin) (y w v l : Nat) : (s.ledgerWrite k g o y w v l).saf = s.saf := State.ledgerAppend_saf s _
@[simp] theorem State.ledgerWrite_pwr (k g : Nat) (o : Origin) (y w v l : Nat) : (s.ledgerWrite k g o y w v l).pwr = s.pwr := State.ledgerAppend_pwr s _
@[simp] theorem State.ledgerWrite_hostMem (k g : Nat) (o : Origin) (y w v l : Nat) : (s.ledgerWrite k g o y w v l).hostMem = s.hostMem := State.ledgerAppend_hostMem s _
@[simp] theorem State.ledgerWrite_dram (k g : Nat) (o : Origin) (y w v l : Nat) : (s.ledgerWrite k g o y w v l).dram = s.dram := State.ledgerAppend_dram s _
@[simp] theorem State.ledgerWrite_oasis (k g : Nat) (o : Origin) (y w v l : Nat) : (s.ledgerWrite k g o y w v l).oasis = s.oasis := State.ledgerAppend_oasis s _
@[simp] theorem State.ledgerWrite_dramPoison (k g : Nat) (o : Origin) (y w v l : Nat) : (s.ledgerWrite k g o y w v l).dramPoison = s.dramPoison := State.ledgerAppend_dramPoison s _
@[simp] theorem State.ledgerWrite_oasisPoison (k g : Nat) (o : Origin) (y w v l : Nat) : (s.ledgerWrite k g o y w v l).oasisPoison = s.oasisPoison := State.ledgerAppend_oasisPoison s _
@[simp] theorem State.ledgerWrite_dramSingle (k g : Nat) (o : Origin) (y w v l : Nat) : (s.ledgerWrite k g o y w v l).dramSingle = s.dramSingle := State.ledgerAppend_dramSingle s _
@[simp] theorem State.ledgerWrite_oasisSingle (k g : Nat) (o : Origin) (y w v l : Nat) : (s.ledgerWrite k g o y w v l).oasisSingle = s.oasisSingle := State.ledgerAppend_oasisSingle s _
@[simp] theorem State.ledgerWrite_memEpoch (k g : Nat) (o : Origin) (y w v l : Nat) : (s.ledgerWrite k g o y w v l).memEpoch = s.memEpoch := State.ledgerAppend_memEpoch s _
@[simp] theorem State.ledgerWrite_freeCtr (k g : Nat) (o : Origin) (y w v l : Nat) : (s.ledgerWrite k g o y w v l).freeCtr = s.freeCtr := State.ledgerAppend_freeCtr s _
@[simp] theorem State.ledgerWrite_pending (k g : Nat) (o : Origin) (y w v l : Nat) : (s.ledgerWrite k g o y w v l).pending = s.pending := State.ledgerAppend_pending s _
@[simp] theorem State.ledgerWrite_blob (k g : Nat) (o : Origin) (y w v l : Nat) (x : Nat) : (s.ledgerWrite k g o y w v l).blob x = s.blob x := by
  unfold State.blob; rw [State.ledgerWrite_blobs]
@[simp] theorem State.ledgerWrite_port (k g : Nat) (o : Origin) (y w v l : Nat) (x : PortIx) : (s.ledgerWrite k g o y w v l).port x = s.port x := by
  unfold State.port; rw [State.ledgerWrite_ports]
@[simp] theorem State.ledgerWrite_fsPort (k g : Nat) (o : Origin) (y w v l : Nat) (x : PortIx) : (s.ledgerWrite k g o y w v l).fsPort x = s.fsPort x := by
  unfold State.fsPort; rw [State.ledgerWrite_fsPorts]
@[simp] theorem State.ledgerWrite_slice (k g : Nat) (o : Origin) (y w v l : Nat) (x : SliceIx) : (s.ledgerWrite k g o y w v l).slice x = s.slice x := by
  unfold State.slice; rw [State.ledgerWrite_slices]
@[simp] theorem State.ledgerWrite_core (k g : Nat) (o : Origin) (y w v l : Nat) (x : CoreIx) : (s.ledgerWrite k g o y w v l).core x = s.core x := by
  unfold State.core; rw [State.ledgerWrite_cores]
@[simp] theorem State.ledgerWrite_link (k g : Nat) (o : Origin) (y w v l : Nat) (x : LinkIx) : (s.ledgerWrite k g o y w v l).link x = s.link x := by
  unfold State.link; rw [State.ledgerWrite_links]

@[simp] theorem State.ledgerWriteBytes_dt (k : Nat) (o : Origin) (y : Nat) (bs : List Byte) (l : Nat) : (s.ledgerWriteBytes k o y bs l).dt = s.dt := State.ledgerAppend_dt s _
@[simp] theorem State.ledgerWriteBytes_dev (k : Nat) (o : Origin) (y : Nat) (bs : List Byte) (l : Nat) : (s.ledgerWriteBytes k o y bs l).dev = s.dev := State.ledgerAppend_dev s _
@[simp] theorem State.ledgerWriteBytes_web (k : Nat) (o : Origin) (y : Nat) (bs : List Byte) (l : Nat) : (s.ledgerWriteBytes k o y bs l).web = s.web := State.ledgerAppend_web s _
@[simp] theorem State.ledgerWriteBytes_ports (k : Nat) (o : Origin) (y : Nat) (bs : List Byte) (l : Nat) : (s.ledgerWriteBytes k o y bs l).ports = s.ports := State.ledgerAppend_ports s _
@[simp] theorem State.ledgerWriteBytes_fsPorts (k : Nat) (o : Origin) (y : Nat) (bs : List Byte) (l : Nat) : (s.ledgerWriteBytes k o y bs l).fsPorts = s.fsPorts := State.ledgerAppend_fsPorts s _
@[simp] theorem State.ledgerWriteBytes_slices (k : Nat) (o : Origin) (y : Nat) (bs : List Byte) (l : Nat) : (s.ledgerWriteBytes k o y bs l).slices = s.slices := State.ledgerAppend_slices s _
@[simp] theorem State.ledgerWriteBytes_tensors (k : Nat) (o : Origin) (y : Nat) (bs : List Byte) (l : Nat) : (s.ledgerWriteBytes k o y bs l).tensors = s.tensors := State.ledgerAppend_tensors s _
@[simp] theorem State.ledgerWriteBytes_cores (k : Nat) (o : Origin) (y : Nat) (bs : List Byte) (l : Nat) : (s.ledgerWriteBytes k o y bs l).cores = s.cores := State.ledgerAppend_cores s _
@[simp] theorem State.ledgerWriteBytes_cmd (k : Nat) (o : Origin) (y : Nat) (bs : List Byte) (l : Nat) : (s.ledgerWriteBytes k o y bs l).cmd = s.cmd := State.ledgerAppend_cmd s _
@[simp] theorem State.ledgerWriteBytes_ctx (k : Nat) (o : Origin) (y : Nat) (bs : List Byte) (l : Nat) : (s.ledgerWriteBytes k o y bs l).ctx = s.ctx := State.ledgerAppend_ctx s _
@[simp] theorem State.ledgerWriteBytes_det (k : Nat) (o : Origin) (y : Nat) (bs : List Byte) (l : Nat) : (s.ledgerWriteBytes k o y bs l).det = s.det := State.ledgerAppend_det s _
@[simp] theorem State.ledgerWriteBytes_links (k : Nat) (o : Origin) (y : Nat) (bs : List Byte) (l : Nat) : (s.ledgerWriteBytes k o y bs l).links = s.links := State.ledgerAppend_links s _
@[simp] theorem State.ledgerWriteBytes_trim (k : Nat) (o : Origin) (y : Nat) (bs : List Byte) (l : Nat) : (s.ledgerWriteBytes k o y bs l).trim = s.trim := State.ledgerAppend_trim s _
@[simp] theorem State.ledgerWriteBytes_blobs (k : Nat) (o : Origin) (y : Nat) (bs : List Byte) (l : Nat) : (s.ledgerWriteBytes k o y bs l).blobs = s.blobs := State.ledgerAppend_blobs s _
@[simp] theorem State.ledgerWriteBytes_doors (k : Nat) (o : Origin) (y : Nat) (bs : List Byte) (l : Nat) : (s.ledgerWriteBytes k o y bs l).doors = s.doors := State.ledgerAppend_doors s _
@[simp] theorem State.ledgerWriteBytes_crv (k : Nat) (o : Origin) (y : Nat) (bs : List Byte) (l : Nat) : (s.ledgerWriteBytes k o y bs l).crv = s.crv := State.ledgerAppend_crv s _
@[simp] theorem State.ledgerWriteBytes_saf (k : Nat) (o : Origin) (y : Nat) (bs : List Byte) (l : Nat) : (s.ledgerWriteBytes k o y bs l).saf = s.saf := State.ledgerAppend_saf s _
@[simp] theorem State.ledgerWriteBytes_pwr (k : Nat) (o : Origin) (y : Nat) (bs : List Byte) (l : Nat) : (s.ledgerWriteBytes k o y bs l).pwr = s.pwr := State.ledgerAppend_pwr s _
@[simp] theorem State.ledgerWriteBytes_hostMem (k : Nat) (o : Origin) (y : Nat) (bs : List Byte) (l : Nat) : (s.ledgerWriteBytes k o y bs l).hostMem = s.hostMem := State.ledgerAppend_hostMem s _
@[simp] theorem State.ledgerWriteBytes_dram (k : Nat) (o : Origin) (y : Nat) (bs : List Byte) (l : Nat) : (s.ledgerWriteBytes k o y bs l).dram = s.dram := State.ledgerAppend_dram s _
@[simp] theorem State.ledgerWriteBytes_oasis (k : Nat) (o : Origin) (y : Nat) (bs : List Byte) (l : Nat) : (s.ledgerWriteBytes k o y bs l).oasis = s.oasis := State.ledgerAppend_oasis s _
@[simp] theorem State.ledgerWriteBytes_dramPoison (k : Nat) (o : Origin) (y : Nat) (bs : List Byte) (l : Nat) : (s.ledgerWriteBytes k o y bs l).dramPoison = s.dramPoison := State.ledgerAppend_dramPoison s _
@[simp] theorem State.ledgerWriteBytes_oasisPoison (k : Nat) (o : Origin) (y : Nat) (bs : List Byte) (l : Nat) : (s.ledgerWriteBytes k o y bs l).oasisPoison = s.oasisPoison := State.ledgerAppend_oasisPoison s _
@[simp] theorem State.ledgerWriteBytes_dramSingle (k : Nat) (o : Origin) (y : Nat) (bs : List Byte) (l : Nat) : (s.ledgerWriteBytes k o y bs l).dramSingle = s.dramSingle := State.ledgerAppend_dramSingle s _
@[simp] theorem State.ledgerWriteBytes_oasisSingle (k : Nat) (o : Origin) (y : Nat) (bs : List Byte) (l : Nat) : (s.ledgerWriteBytes k o y bs l).oasisSingle = s.oasisSingle := State.ledgerAppend_oasisSingle s _
@[simp] theorem State.ledgerWriteBytes_memEpoch (k : Nat) (o : Origin) (y : Nat) (bs : List Byte) (l : Nat) : (s.ledgerWriteBytes k o y bs l).memEpoch = s.memEpoch := State.ledgerAppend_memEpoch s _
@[simp] theorem State.ledgerWriteBytes_freeCtr (k : Nat) (o : Origin) (y : Nat) (bs : List Byte) (l : Nat) : (s.ledgerWriteBytes k o y bs l).freeCtr = s.freeCtr := State.ledgerAppend_freeCtr s _
@[simp] theorem State.ledgerWriteBytes_pending (k : Nat) (o : Origin) (y : Nat) (bs : List Byte) (l : Nat) : (s.ledgerWriteBytes k o y bs l).pending = s.pending := State.ledgerAppend_pending s _
@[simp] theorem State.ledgerWriteBytes_blob (k : Nat) (o : Origin) (y : Nat) (bs : List Byte) (l : Nat) (x : Nat) : (s.ledgerWriteBytes k o y bs l).blob x = s.blob x := by
  unfold State.blob; rw [State.ledgerWriteBytes_blobs]
@[simp] theorem State.ledgerWriteBytes_port (k : Nat) (o : Origin) (y : Nat) (bs : List Byte) (l : Nat) (x : PortIx) : (s.ledgerWriteBytes k o y bs l).port x = s.port x := by
  unfold State.port; rw [State.ledgerWriteBytes_ports]
@[simp] theorem State.ledgerWriteBytes_fsPort (k : Nat) (o : Origin) (y : Nat) (bs : List Byte) (l : Nat) (x : PortIx) : (s.ledgerWriteBytes k o y bs l).fsPort x = s.fsPort x := by
  unfold State.fsPort; rw [State.ledgerWriteBytes_fsPorts]
@[simp] theorem State.ledgerWriteBytes_slice (k : Nat) (o : Origin) (y : Nat) (bs : List Byte) (l : Nat) (x : SliceIx) : (s.ledgerWriteBytes k o y bs l).slice x = s.slice x := by
  unfold State.slice; rw [State.ledgerWriteBytes_slices]
@[simp] theorem State.ledgerWriteBytes_core (k : Nat) (o : Origin) (y : Nat) (bs : List Byte) (l : Nat) (x : CoreIx) : (s.ledgerWriteBytes k o y bs l).core x = s.core x := by
  unfold State.core; rw [State.ledgerWriteBytes_cores]
@[simp] theorem State.ledgerWriteBytes_link (k : Nat) (o : Origin) (y : Nat) (bs : List Byte) (l : Nat) (x : LinkIx) : (s.ledgerWriteBytes k o y bs l).link x = s.link x := by
  unfold State.link; rw [State.ledgerWriteBytes_links]

end Sys2Proof.Machine
end

