-- ==== Sys2Proof/Laws/Interrupts.lean ====
section
/-! SUPPORT. What interrupts, status events and counters do to the registers. -/

namespace Sys2Proof.Machine

variable (s : State)

/-- Storing a register keeps the map canonical. -/
theorem State.setReg_rise {o v : Nat} (h : keysRise s.regs = true) : keysRise (s.setReg o v).regs = true := Map.set_rise _ _ _ _ h

/-- Storing an entry keeps the map canonical. -/
theorem State.setOd_rise {k v : Nat} (h : keysRise s.dict = true) : keysRise (s.setOd k v).dict = true := Map.set_rise _ _ _ _ h

/-- A message changes no register but the count of messages. -/
theorem State.msixSend_reg {n v : Nat} (h : n ≠ Reg.glbMsixSent) : (s.msixSend v).reg n = s.reg n := by
  unfold State.msixSend
  dsimp only
  split
  · rfl
  · exact State.reg_setReg_other _ h _

theorem State.msixSend_rise {v : Nat} (h : keysRise s.regs = true) : keysRise (s.msixSend v).regs = true := by
  unfold State.msixSend
  dsimp only
  split
  · exact h
  · exact Map.set_rise _ _ _ _ h

theorem State.msixRaise_reg {n v : Nat} (h : n ≠ Reg.glbMsixSent) : (s.msixRaise v).reg n = s.reg n := by
  unfold State.msixRaise
  dsimp only
  split
  · rfl
  · exact s.msixSend_reg h

theorem State.msixRaise_rise {v : Nat} (h : keysRise s.regs = true) : keysRise (s.msixRaise v).regs = true := by
  unfold State.msixRaise
  dsimp only
  split
  · exact h
  · exact s.msixSend_rise h

/-- An interrupt changes no register but its own status register and the count of messages. -/
theorem State.raiseInt_reg {b : Block} {n v : Nat} (h : n ≠ b.status) (hn : n ≠ Reg.glbMsixSent) : (s.raiseInt b v).reg n = s.reg n := by
  unfold State.raiseInt State.intUpdate
  dsimp only
  split
  · rw [State.msixRaise_reg _ hn]; exact State.reg_setReg_other _ h _
  · exact State.reg_setReg_other _ h _

theorem State.raiseInt_rise {b : Block} {v : Nat} (h : keysRise s.regs = true) : keysRise (s.raiseInt b v).regs = true := by
  unfold State.raiseInt State.intUpdate
  dsimp only
  split
  · exact State.msixRaise_rise _ (s.setReg_rise h)
  · exact s.setReg_rise h

/-- An interrupt sets its bits in its status register. -/
theorem State.raiseInt_status {b : Block} {v : Nat} (h : keysRise s.regs = true) (hb : b.status ≠ Reg.glbMsixSent) :
    (s.raiseInt b v).reg b.status = Nat.lor (s.reg b.status) v := by
  unfold State.raiseInt State.intUpdate
  dsimp only
  split
  · rw [State.msixRaise_reg _ hb]; exact State.reg_setReg_self _ _ _ h
  · exact State.reg_setReg_self _ _ _ h

theorem State.raiseStatus_reg {b : Block} {n v c u i m : Nat} (h : n ≠ b.status) (hn : n ≠ Reg.glbMsixSent) :
    (s.raiseStatus b v c u i m).reg n = s.reg n := s.raiseInt_reg h hn

theorem State.raiseStatus_status {b : Block} {v c u i m : Nat} (h : keysRise s.regs = true) (hb : b.status ≠ Reg.glbMsixSent) :
    (s.raiseStatus b v c u i m).reg b.status = Nat.lor (s.reg b.status) v := s.raiseInt_status h hb

/-- A status event is one event record of TYPE 0x01. -/
@[simp] theorem State.raiseStatus_events {b : Block} {v c u i m : Nat} :
    (s.raiseStatus b v c u i m).events = insertEvent ⟨s.dt, s.web.lastLsn, c, 1, padTo 48 (statusBody u i v m)⟩ s.events := by
  unfold State.raiseStatus
  rw [State.statusEvent_events, State.raiseInt_dt, State.raiseInt_web, State.raiseInt_events]

/-- An inserted event is there. -/
theorem mem_insertEvent (e : EventRec) (l : List EventRec) : e ∈ insertEvent e l := by
  induction l with
  | nil => exact List.mem_singleton.mpr rfl
  | cons x r ih =>
    unfold insertEvent
    split
    · exact List.mem_cons_self
    · exact List.mem_cons_of_mem _ ih

/-- A counter counts, up to the largest value of its width. -/
theorem State.count32_reg {o n : Nat} (h : keysRise s.regs = true) : (s.count32 o n).reg o = min (s.reg o + n) (2 ^ 32 - 1) :=
  s.reg_setReg_self _ _ h

theorem State.count64_reg {o n : Nat} (h : keysRise s.regs = true) : (s.count64 o n).reg o = min (s.reg o + n) (2 ^ 64 - 1) :=
  s.reg_setReg_self _ _ h

end Sys2Proof.Machine
end

