-- ==== Sys2Proof/WellFormed.lean ====
section
/-! DEFINITION. Which commands are well formed: their operands are what the carriers of the commands can present. The meanings are total: a command
that is not well formed has a meaning too, and no meaning relies on these checks. -/

namespace Sys2Proof

/-- The place in an address window that a command names, with the size of the window: BAR0 and BAR2 are 64 MiB, the Oasis window of BAR2 32 MiB, BAR4 128 MiB
(R475, R488, R489, R494). -/
def Instr.place : Instr → Option (Nat × Nat)
  | .bar4Write offset _ _ => some (offset, 2 ^ 27)
  | .bar4Read offset _ => some (offset, 2 ^ 27)
  | .oasisWindowAccess offset _ _ => some (offset, 2 ^ 25)
  | .genericRegisterWrite a _ => some (a.offset, 2 ^ 26)
  | .registerReadClear a => some (a.offset, 2 ^ 26)
  | .lowWordRead a => some (a.offset, 2 ^ 26)
  | _ => none

/-- A line-group number as 48-bit sequence numbers give it. -/
def lgnFits (g : Int) : Bool := decide (-(2 ^ 47) ≤ g) && decide (g < 2 ^ 47)

/-- The other operands are of the shape that their carrier gives them. -/
def Instr.shaped : Instr → Bool
  -- an access of BAR4 has 1, 2, 4 or 8 bytes; of the Oasis window, at least one byte, and a write carries as many as it says
  | .bar4Write _ size _ => size == 1 || size == 2 || size == 4 || size == 8
  | .bar4Read _ size => size == 1 || size == 2 || size == 4 || size == 8
  | .oasisWindowAccess _ size write => decide (1 ≤ size) && (match write with
    | some bs => bs.length == size
    | none => true)
  -- an access of BAR0 or BAR2 through these commands carries at most 8 bytes
  | .genericRegisterWrite a _ | .registerReadClear a | .lowWordRead a => decide (1 ≤ a.size) && decide (a.size ≤ 8)
  -- a flit has 256 bytes (R415), a training message 64 (R411), an Ethernet frame without its FCS 60 to 1,514 (R442)
  | .flitReceive _ flit => flit.length == 256
  | .trainingMessageRx _ message => message.length == 64
  | .caravanFrameForward frame _ => decide (60 ≤ frame.bytes.length) && decide (frame.bytes.length ≤ 1514)
  | .caravanFrameProcess frame _ => decide (60 ≤ frame.length) && decide (frame.length ≤ 1514)
  -- 48 junction and 16 stack sensors (R552)
  | .thermalSample junction stack => junction.length == 48 && stack.length == 16
  -- groups
  | .groupCancel g | .tokenDeadline g | .detMergeDeadline g | .detSuppress g | .tokenSend g => lgnFits g
  | .haloChannelDeadline _ _ g => lgnFits g
  | .trackedGroupClose _ g => lgnFits g
  | .fetchFillStart _ g | .fetchFillDone _ g | .spillStart _ g | .spillDone _ g => lgnFits g
  | _ => true

/-- A command whose operands its carrier can present. -/
def Instr.wf (i : Instr) : Bool :=
  i.shaped && (match i.place with
    | some p => decide (p.1 < p.2)
    | none => true)

end Sys2Proof
end

