-- ==== Sys2Proof/Laws/PerInstr.lean ====
section
/-! SUPPORT. What holds of every command as syntax, one lemma per constructor. Family Wf: a well-formed command names a place inside its window. -/

namespace Sys2Proof.Laws.Wf

/-- A well-formed command that names a place in an address window names one inside it. -/
def Statement (i : Instr) : Prop := i.wf = true → ∀ p, i.place = some p → p.1 < p.2

/-- The well-formedness check covers the place. -/
theorem of_wf (i : Instr) : Statement i := by
  intro h p hp
  unfold Instr.wf at h
  rw [hp] at h
  simp only [Bool.and_eq_true, decide_eq_true_eq] at h
  exact h.2

theorem encoderCount (sample : EncSample) : Statement (.encoderCount sample) := of_wf _
theorem encoderIllegalTransition : Statement (.encoderIllegalTransition) := of_wf _
theorem countRateWindow : Statement (.countRateWindow) := of_wf _
theorem lineTimerExpiry : Statement (.lineTimerExpiry) := of_wf _
theorem groupCancel (lgn : Int) : Statement (.groupCancel lgn) := of_wf _
theorem scheduledWriteApply (handle : Fin 64) : Statement (.scheduledWriteApply handle) := of_wf _
theorem tokenDeadline (lgn : Int) : Statement (.tokenDeadline lgn) := of_wf _
theorem stateDeadline (core : CoreIx) : Statement (.stateDeadline core) := of_wf _
theorem haloDeadline (core : CoreIx) : Statement (.haloDeadline core) := of_wf _
theorem haloChannelDeadline (link : LinkIx) (ch : Fin 4) (lgn : Int) : Statement (.haloChannelDeadline link ch lgn) := of_wf _
theorem detMergeDeadline (lgn : Int) : Statement (.detMergeDeadline lgn) := of_wf _
theorem neighbourSilent (link : LinkIx) : Statement (.neighbourSilent link) := of_wf _
theorem lightOkRise (engine : EngineIx) : Statement (.lightOkRise engine) := of_wf _
theorem lightOkFall (engine : EngineIx) : Statement (.lightOkFall engine) := of_wf _
theorem laneLockGain (port : PortIx) (lane : Fin 4) : Statement (.laneLockGain port lane) := of_wf _
theorem laneLockLoss (port : PortIx) (lane : Fin 4) : Statement (.laneLockLoss port lane) := of_wf _
theorem discoveryLockTimeout (port : PortIx) : Statement (.discoveryLockTimeout port) := of_wf _
theorem ccReply (port : PortIx) (ack : Byte) (data : List Byte) : Statement (.ccReply port ack data) := of_wf _
theorem ccTimeout (port : PortIx) : Statement (.ccTimeout port) := of_wf _
theorem camCcRead (port : PortIx) : Statement (.camCcRead port) := of_wf _
theorem camCcWrite (port : PortIx) : Statement (.camCcWrite port) := of_wf _
theorem heartbeatSend (port : PortIx) : Statement (.heartbeatSend port) := of_wf _
theorem heartbeatReceive (port : PortIx) : Statement (.heartbeatReceive port) := of_wf _
theorem heartbeatTimeout (port : PortIx) : Statement (.heartbeatTimeout port) := of_wf _
theorem cameraEventPacket (port : PortIx) (payload : List Byte) : Statement (.cameraEventPacket port payload) := of_wf _
theorem imageHeader (port : PortIx) (stream : Byte) (pixelBits arrangement : Byte) (failedOn : Option (Fin 4)) : Statement (.imageHeader port stream pixelBits arrangement failedOn) := of_wf _
theorem lineMarker (port : PortIx) (stream : Byte) : Statement (.lineMarker port stream) := of_wf _
theorem pixelDataPacket (port : PortIx) (stream : Byte) (pixels : List W16) : Statement (.pixelDataPacket port stream pixels) := of_wf _
theorem checkFailedPacket (port : PortIx) (lane : Fin 4) (pixels : List W16) : Statement (.checkFailedPacket port lane pixels) := of_wf _
theorem frameEnd (port : PortIx) (stream : Byte) : Statement (.frameEnd port stream) := of_wf _
theorem malformedPacket (port : PortIx) : Statement (.malformedPacket port) := of_wf _
theorem lineDataTimeout (port : PortIx) : Statement (.lineDataTimeout port) := of_wf _
theorem lineTimeoutAbsent (port : PortIx) : Statement (.lineTimeoutAbsent port) := of_wf _
theorem lineReleaseTimeout (port : PortIx) : Statement (.lineReleaseTimeout port) := of_wf _
theorem fsLineStart (slice : SliceIx) : Statement (.fsLineStart slice) := of_wf _
theorem fsLineWrite (slice : SliceIx) : Statement (.fsLineWrite slice) := of_wf _
theorem memoryPathStore (port : PortIx) : Statement (.memoryPathStore port) := of_wf _
theorem fsTblDataAccess (slice : SliceIx) (write : Option W32) : Statement (.fsTblDataAccess slice write) := of_wf _
theorem fsTblCommit (slice : SliceIx) (mask : BitVec 4) : Statement (.fsTblCommit slice mask) := of_wf _
theorem tableCopyDone (port : PortIx) : Statement (.tableCopyDone port) := of_wf _
theorem tableInitDone (slice : SliceIx) : Statement (.tableInitDone slice) := of_wf _
theorem ffPeriodEnd (port : PortIx) : Statement (.ffPeriodEnd port) := of_wf _
theorem ffComputeDone (port : PortIx) : Statement (.ffComputeDone port) := of_wf _
theorem trackedGroupClose (tensor : Fin 256) (lgn : Int) : Statement (.trackedGroupClose tensor lgn) := of_wf _
theorem coreDispatch (core : CoreIx) : Statement (.coreDispatch core) := of_wf _
theorem tnop (core : CoreIx) : Statement (.tnop core) := of_wf _
theorem tload (core : CoreIx) : Statement (.tload core) := of_wf _
theorem tstore (core : CoreIx) : Statement (.tstore core) := of_wf _
theorem tmm (core : CoreIx) : Statement (.tmm core) := of_wf _
theorem tconv (core : CoreIx) : Statement (.tconv core) := of_wf _
theorem tfuse (core : CoreIx) : Statement (.tfuse core) := of_wf _
theorem tmv (core : CoreIx) : Statement (.tmv core) := of_wf _
theorem tdw (core : CoreIx) : Statement (.tdw core) := of_wf _
theorem tvec (core : CoreIx) : Statement (.tvec core) := of_wf _
theorem tqnt (core : CoreIx) : Statement (.tqnt core) := of_wf _
theorem lookup (core : CoreIx) : Statement (.lookup core) := of_wf _
theorem update (core : CoreIx) : Statement (.update core) := of_wf _
theorem stateLoad (core : CoreIx) : Statement (.stateLoad core) := of_wf _
theorem stateStore (core : CoreIx) : Statement (.stateStore core) := of_wf _
theorem tokenPut (core : CoreIx) : Statement (.tokenPut core) := of_wf _
theorem tokenGet (core : CoreIx) : Statement (.tokenGet core) := of_wf _
theorem tdet (core : CoreIx) : Statement (.tdet core) := of_wf _
theorem tdraw (core : CoreIx) : Statement (.tdraw core) := of_wf _
theorem tcommit (core : CoreIx) : Statement (.tcommit core) := of_wf _
theorem twait (core : CoreIx) : Statement (.twait core) := of_wf _
theorem tsignal (core : CoreIx) : Statement (.tsignal core) := of_wf _
theorem syncWaitSatisfied (w : Waiter) : Statement (.syncWaitSatisfied w) := of_wf _
theorem phaseChange (core : CoreIx) : Statement (.phaseChange core) := of_wf _
theorem opeDrainDone (core : CoreIx) (ope : Fin 8) (quad : Option (Fin 4)) (bank : Bool) : Statement (.opeDrainDone core ope quad bank) := of_wf _
theorem tileFinish (core : CoreIx) : Statement (.tileFinish core) := of_wf _
theorem coreParkWrite (core : CoreIx) (value : W32) : Statement (.coreParkWrite core value) := of_wf _
theorem freqTargetWrite (core : CoreIx) (value : W32) : Statement (.freqTargetWrite core value) := of_wf _
theorem clockGlideStep (core : CoreIx) : Statement (.clockGlideStep core) := of_wf _
theorem sandFillStep (core : CoreIx) (ope : Fin 8) (quad : Option (Fin 4)) : Statement (.sandFillStep core ope quad) := of_wf _
theorem coreTmDataAccess (core : CoreIx) (write : Option W32) : Statement (.coreTmDataAccess core write) := of_wf _
theorem leaseExpiry (tsn : W32) : Statement (.leaseExpiry tsn) := of_wf _
theorem detSuppress (lgn : Int) : Statement (.detSuppress lgn) := of_wf _
theorem ctxEffectsApply : Statement (.ctxEffectsApply) := of_wf _
theorem tokenSend (lgn : Int) : Statement (.tokenSend lgn) := of_wf _
theorem ctxClearWrite (value : W32) : Statement (.ctxClearWrite value) := of_wf _
theorem ctxClearDone : Statement (.ctxClearDone) := of_wf _
theorem dramRefresh (channel : Fin 128) (bank : Nat) : Statement (.dramRefresh channel bank) := of_wf _
theorem dramScrubRead (channel : Fin 128) (found : DramRead) : Statement (.dramScrubRead channel found) := of_wf _
theorem fetchFillStart (stream : Nat) (lgn : Int) : Statement (.fetchFillStart stream lgn) := of_wf _
theorem fetchFillDone (stream : Nat) (lgn : Int) : Statement (.fetchFillDone stream lgn) := of_wf _
theorem spillStart (stream : Nat) (lgn : Int) : Statement (.spillStart stream lgn) := of_wf _
theorem spillDone (stream : Nat) (lgn : Int) : Statement (.spillDone stream lgn) := of_wf _
theorem streamRunahead (queue : QueueIx) : Statement (.streamRunahead queue) := of_wf _
theorem mcastDeliveryStart (stream : Nat) : Statement (.mcastDeliveryStart stream) := of_wf _
theorem mcastCutout (stream : Nat) (core : CoreIx) : Statement (.mcastCutout stream core) := of_wf _
theorem landingCopy (port : PortIx) : Statement (.landingCopy port) := of_wf _
theorem extensionRefill (port : PortIx) : Statement (.extensionRefill port) := of_wf _
theorem resultRecordWrite (ring : ResIx) : Statement (.resultRecordWrite ring) := of_wf _
theorem spoolCopy (ring : ResIx) : Statement (.spoolCopy ring) := of_wf _
theorem streamCopyGo (value : W32) : Statement (.streamCopyGo value) := of_wf _
theorem copyDone (copy : CopyId) : Statement (.copyDone copy) := of_wf _
theorem oasisQpowerWrite (value : W32) : Statement (.oasisQpowerWrite value) := of_wf _
theorem cqPiWrite (queue : QueueIx) (pi : W32) : Statement (.cqPiWrite queue pi) := of_wf _
theorem commandRead (queue : QueueIx) : Statement (.commandRead queue) := of_wf _
theorem jobStart (queue : QueueIx) : Statement (.jobStart queue) := of_wf _
theorem copyCommand (queue : QueueIx) : Statement (.copyCommand queue) := of_wf _
theorem signalCommand (queue : QueueIx) : Statement (.signalCommand queue) := of_wf _
theorem waitCommand (queue : QueueIx) : Statement (.waitCommand queue) := of_wf _
theorem jobComplete (tag : BitVec 12) : Statement (.jobComplete tag) := of_wf _
theorem completionRecordWrite (queue : QueueIx) : Statement (.completionRecordWrite queue) := of_wf _
theorem ringCiWrite (ring : DevRing) (ci : W32) : Statement (.ringCiWrite ring ci) := of_wf _
theorem ringSlotsWrite (ring : AnyRing) (slots : W32) : Statement (.ringSlotsWrite ring slots) := of_wf _
theorem eventRecordWrite : Statement (.eventRecordWrite) := of_wf _
theorem cmdAbort (value : W32) : Statement (.cmdAbort value) := of_wf _
theorem cmdSyncValueWrite (value : W32) : Statement (.cmdSyncValueWrite value) := of_wf _
theorem cmdSyncAdd (value : W32) : Statement (.cmdSyncAdd value) := of_wf _
theorem cqRestart (queue : QueueIx) : Statement (.cqRestart queue) := of_wf _
theorem linkLanesLocked (link : LinkIx) (lanes : BitVec 8) : Statement (.linkLanesLocked link lanes) := of_wf _
theorem linkDeskewDone (link : LinkIx) : Statement (.linkDeskewDone link) := of_wf _
theorem trainingMessageSend (link : LinkIx) : Statement (.trainingMessageSend link) := of_wf _
theorem trainingMessageRx (link : LinkIx) (message : List Byte) : Statement (.trainingMessageRx link message) := of_wf _
theorem linkTrainTimeout (link : LinkIx) : Statement (.linkTrainTimeout link) := of_wf _
theorem linkFailedExpiry (link : LinkIx) : Statement (.linkFailedExpiry link) := of_wf _
theorem linkRetrainTimeout (link : LinkIx) : Statement (.linkRetrainTimeout link) := of_wf _
theorem laneFault (link : LinkIx) (lane : Fin 8) : Statement (.laneFault link lane) := of_wf _
theorem linkCtrlRetrain (link : LinkIx) (value : W32) : Statement (.linkCtrlRetrain link value) := of_wf _
theorem flitReceive (link : LinkIx) (flit : List Byte) : Statement (.flitReceive link flit) := of_wf _
theorem flitTransmit (link : LinkIx) : Statement (.flitTransmit link) := of_wf _
theorem replayTimeout (link : LinkIx) : Statement (.replayTimeout link) := of_wf _
theorem replayProgressTimeout (link : LinkIx) : Statement (.replayProgressTimeout link) := of_wf _
theorem haloMsgRx (link : LinkIx) : Statement (.haloMsgRx link) := of_wf _
theorem ctxedgeMsgRx (link : LinkIx) : Statement (.ctxedgeMsgRx link) := of_wf _
theorem tokensMsgRx (link : LinkIx) : Statement (.tokensMsgRx link) := of_wf _
theorem boxesMsgRx (link : LinkIx) : Statement (.boxesMsgRx link) := of_wf _
theorem barrierMsgRx (link : LinkIx) : Statement (.barrierMsgRx link) := of_wf _
theorem chainMsgRx (link : LinkIx) : Statement (.chainMsgRx link) := of_wf _
theorem chainMsgSend (link : LinkIx) : Statement (.chainMsgSend link) := of_wf _
theorem pingSend (link : LinkIx) : Statement (.pingSend link) := of_wf _
theorem pingRx (link : LinkIx) : Statement (.pingRx link) := of_wf _
theorem pongRx (link : LinkIx) : Statement (.pongRx link) := of_wf _
theorem caravanPortLinkChange (change : CaravanLink) : Statement (.caravanPortLinkChange change) := of_wf _
theorem caravanFrameForward (frame : WireFrame) (outbound : Bool) : Statement (.caravanFrameForward frame outbound) := of_wf _
theorem caravanFrameProcess (frame : List Byte) (fcsOk : Bool) : Statement (.caravanFrameProcess frame fcsOk) := of_wf _
theorem crvSlowRequestDone (ticket : Byte) : Statement (.crvSlowRequestDone ticket) := of_wf _
theorem crvTicketExpiry (ticket : Byte) : Statement (.crvTicketExpiry ticket) := of_wf _
theorem crvWatchdogExpiry : Statement (.crvWatchdogExpiry) := of_wf _
theorem bar4Write (offset : Nat) (size : Nat) (value : W64) : Statement (.bar4Write offset size value) := of_wf _
theorem mbRead : Statement (.mbRead) := of_wf _
theorem mbWrite (last : Bool) : Statement (.mbWrite last) := of_wf _
theorem mbWriteAt (last : Bool) : Statement (.mbWriteAt last) := of_wf _
theorem mbCancelAt : Statement (.mbCancelAt) := of_wf _
theorem mbDescribe : Statement (.mbDescribe) := of_wf _
theorem armedEntry : Statement (.armedEntry) := of_wf _
theorem runEntry : Statement (.runEntry) := of_wf _
theorem holdEntry : Statement (.holdEntry) := of_wf _
theorem holdExit : Statement (.holdExit) := of_wf _
theorem preopEntry : Statement (.preopEntry) := of_wf _
theorem safeEntry (internalError : Bool) : Statement (.safeEntry internalError) := of_wf _
theorem powerOnReset : Statement (.powerOnReset) := of_wf _
theorem perstAssert : Statement (.perstAssert) := of_wf _
theorem resetEnd : Statement (.resetEnd) := of_wf _
theorem dramInitDone (ok : Bool) : Statement (.dramInitDone ok) := of_wf _
theorem authEnd : Statement (.authEnd) := of_wf _
theorem bootWatchdogExpiry : Statement (.bootWatchdogExpiry) := of_wf _
theorem configRequest (access : ConfigAccess) : Statement (.configRequest access) := of_wf _
theorem pcieLinkChange (up : Bool) (speed : BitVec 4) (width : BitVec 5) : Statement (.pcieLinkChange up speed width) := of_wf _
theorem functionLevelReset : Statement (.functionLevelReset) := of_wf _
theorem hotReset : Statement (.hotReset) := of_wf _
theorem glbResetWrite (value : W32) : Statement (.glbResetWrite value) := of_wf _
theorem d3hotEntry : Statement (.d3hotEntry) := of_wf _
theorem busMasterChange (on : Bool) : Statement (.busMasterChange on) := of_wf _
theorem bar0BadAccess (isWrite : Bool) : Statement (.bar0BadAccess isWrite) := of_wf _
theorem oasisWindowAccess (offset : Nat) (size : Nat) (write : Option (List Byte)) : Statement (.oasisWindowAccess offset size write) := of_wf _
theorem msixUnmask (vector : Fin 512) : Statement (.msixUnmask vector) := of_wf _
theorem irqHoldoffExpiry (vector : Fin 512) : Statement (.irqHoldoffExpiry vector) := of_wf _
theorem hostAccessError (req : HostRequest) (kind : HostErrorKind) (addr : W64) : Statement (.hostAccessError req kind addr) := of_wf _
theorem ptmDialogueStart : Statement (.ptmDialogueStart) := of_wf _
theorem ptmDialogueDone (t2 t3 : W64) : Statement (.ptmDialogueDone t2 t3) := of_wf _
theorem ptmDialogueFail : Statement (.ptmDialogueFail) := of_wf _
theorem trimCmdMakeDue (value : W32) : Statement (.trimCmdMakeDue value) := of_wf _
theorem trimCmdForce (value : W32) : Statement (.trimCmdForce value) := of_wf _
theorem trimRotationDue : Statement (.trimRotationDue) := of_wf _
theorem d2dErrorThreshold (engine : EngineIx) : Statement (.d2dErrorThreshold engine) := of_wf _
theorem trimItemStart : Statement (.trimItemStart) := of_wf _
theorem trimItemDone (kind : Fin 6) (unit : Nat) (faulty : List Nat) (outNs : W32) : Statement (.trimItemDone kind unit faulty outNs) := of_wf _
theorem trimOverdue (kind : Fin 6) (unit : Nat) : Statement (.trimOverdue kind unit) := of_wf _
theorem telemetrySample (values : List (Nat × Nat)) : Statement (.telemetrySample values) := of_wf _
theorem supplyWarning (mv : W16) : Statement (.supplyWarning mv) := of_wf _
theorem stretchEnd (mv : W16) : Statement (.stretchEnd mv) := of_wf _
theorem warningClear (quietNs : W32) (mv : W16) : Statement (.warningClear quietNs mv) := of_wf _
theorem vddResetLevel (mv : W16) : Statement (.vddResetLevel mv) := of_wf _
theorem railMonitorFall (rail : Fin 5) : Statement (.railMonitorFall rail) := of_wf _
theorem avsTargetChange (mv : W16) : Statement (.avsTargetChange mv) := of_wf _
theorem avsTargetReached : Statement (.avsTargetReached) := of_wf _
theorem avsTimeout (readingMv : W16) : Statement (.avsTimeout readingMv) := of_wf _
theorem powerEstimate (watts : W16) : Statement (.powerEstimate watts) := of_wf _
theorem sustainedCapStep (meanWatts : W16) : Statement (.sustainedCapStep meanWatts) := of_wf _
theorem thermalSample (junction : List W16) (stack : List W16) : Statement (.thermalSample junction stack) := of_wf _
theorem thermalCapStep : Statement (.thermalCapStep) := of_wf _
theorem sysRefclkLoss : Statement (.sysRefclkLoss) := of_wf _
theorem safVerify (value : W32) : Statement (.safVerify value) := of_wf _
theorem safProgram (value : W32) : Statement (.safProgram value) := of_wf _
theorem safSetBoot (value : W32) : Statement (.safSetBoot value) := of_wf _
theorem safReboot (value : W32) : Statement (.safReboot value) := of_wf _
theorem safCommitVersion (value : W32) : Statement (.safCommitVersion value) := of_wf _
theorem safRevoke (value : W32) : Statement (.safRevoke value) := of_wf _
theorem safAttest (value : W32) : Statement (.safAttest value) := of_wf _
theorem safOpDone (flashOk : Bool) : Statement (.safOpDone flashOk) := of_wf _
theorem attestationDone : Statement (.attestationDone) := of_wf _
theorem integrityCheck (mismatch : Option Byte) : Statement (.integrityCheck mismatch) := of_wf _
theorem integrityResetTimeout : Statement (.integrityResetTimeout) := of_wf _
theorem ledgerSpillCopy : Statement (.ledgerSpillCopy) := of_wf _
theorem ledgerSpillCiWrite (ci : W32) : Statement (.ledgerSpillCiWrite ci) := of_wf _
theorem ledgerReadSeqWrite (seq : W64) : Statement (.ledgerReadSeqWrite seq) := of_wf _
theorem genericRegisterWrite (access : HostAccess) (value : W64) : Statement (.genericRegisterWrite access value) := of_wf _
theorem registerReadClear (access : HostAccess) : Statement (.registerReadClear access) := of_wf _
theorem pwrGoodFall : Statement (.pwrGoodFall) := of_wf _
theorem authBegin : Statement (.authBegin) := of_wf _
theorem caravanForwardingBegin : Statement (.caravanForwardingBegin) := of_wf _
theorem d3hotToD0 : Statement (.d3hotToD0) := of_wf _
theorem ptmEnableChange (on : Bool) : Statement (.ptmEnableChange on) := of_wf _
theorem bar4Read (offset : Nat) (size : Nat) : Statement (.bar4Read offset size) := of_wf _
theorem lowWordRead (access : HostAccess) : Statement (.lowWordRead access) := of_wf _

end Sys2Proof.Laws.Wf
end

