-- ==== Sys2Proof/Tests/Slice0.lean ====
section
/-! SUPPORT. Tests of the model: ill-formed commands are refused, one step of each kind behaves as the manual's rules and examples say, and every
statement with hypotheses has a state and operands that meet them. -/

namespace Sys2Proof.Tests

open Sys2Proof.Machine

set_option Elab.async false
set_option linter.unusedVariables false

/-! ### States to test on -/

/-- The machine after reset, in a device state, with everything powered. -/
def inState (d : DevState) : State :=
  ({ State.reset with
      dev := { State.reset.dev with state := d }
      pwr := { State.reset.pwr with cores := 0xFFFFFFFF, slices := 15, engines := 63, detection := true, pcie := true } }).setOd Od.dramDramState 2
/-- In PREOP. -/
def preop : State := inState .preop
/-- In RUN. -/
def run : State := inState .run
/-- Held in reset. -/
def held : State := { State.reset with dev := { State.reset.dev with resetHeld := true } }
/-- In RUN, with group 100 complete. -/
def late : State := { run with web := { run.web with x := 6464, triggered := true, completeGroup := some 100 } }
/-- With a host that gives the device the bus and takes messages. -/
def hosted (s : State) : State := { s with pcie := { s.pcie with linkUp := true, busMaster := true, msixEnable := true } }
/-- With a request for a transition. -/
def asked (d target : DevState) : State := { inState d with dev := { (inState d).dev with request := some ⟨target, .none⟩ } }
/-- With a camera port changed. -/
def onPort (f : Port → Port) : State := run.modPort 3 f
/-- A linked camera port, with a frame and a row open. -/
def atRow : State := onPort fun p => { p with
  state := .line, stream := some 7, row := some ⟨some 5, [], false, false⟩, open_ := some ⟨0, none, 0, 0, 0, 0, false⟩ }
/-- A discovery step of a camera port with light. -/
def discovering (x : DiscStep) : State := onPort fun p => { p with state := .discovery, step := x, locks := 15 }
/-- What a command leaves. -/
def nextOf (c : Instr) (s : State) : State := match exec c s with | .next t => t | _ => s
/-- A side link changed. -/
def onLink (f : Link → Link) : State := late.modLink 0 f
/-- A link in a state. -/
def linkIn (x : LinkState) : State := onLink fun l => { l with state := x }
/-- A link with one message in its inbox. -/
def inboxOf (m : List Byte) : State := onLink fun l => { l with state := .linked, inbox := [(0, m)] }
/-- A message of a type and a subtype, of group 100. -/
def message (type sub : Nat) (body : List Byte) : List Byte :=
  leBytes 1 0 ++ leBytes 1 type ++ leBytes 1 0 ++ leBytes 1 sub ++ leBytes 4 0 ++ leBytes 6 100 ++ leBytes 2 0 ++ body
/-- A flit that says SEQ 0, with a check value. -/
def flitOf (crc : W32) : List Byte := List.replicate 252 0 ++ leBytes 4 crc.toNat
/-- With its CRC. -/
def flit0 : List Byte := flitOf (crc32 (List.replicate 252 0))

theorem ofLeBytes_leBytes4 (c : W32) : ofLeBytes (leBytes 4 c.toNat) = c.toNat := by
  simp [leBytes, ofLeBytes]
  omega
theorem flitOf_field (c : W32) : fieldAt (flitOf c) 252 4 = c.toNat := by
  rw [fieldAt, flitOf, List.drop_left' List.length_replicate, List.take_of_length_le (by rw [leBytes_length]), ofLeBytes_leBytes4]
theorem flitOf_take (c : W32) : (flitOf c).take 252 = List.replicate 252 0 := by rw [flitOf, List.take_left' List.length_replicate]
theorem flitOf_seq (c : W32) : fieldAt (flitOf c) 0 2 = 0 ∧ bitAt (byteAt (flitOf c) 6) 0 = false ∧ (flitOf c).length = 256 :=
  ⟨rfl, by rw [show byteAt (flitOf c) 6 = 0 from rfl]; rfl, by rw [flitOf, List.length_append, List.length_replicate, leBytes_length]⟩
/-- A partner's training message that offers every lane. -/
def training1 : List Byte := [1, 1, 255, 1, 0, 0, 0x80, 0x74] ++ List.replicate 56 0
/-- A camera line. -/
def camLine : CamLine :=
  { x := 5, dt := 0, flags := 0, filled := false, fill := 0, rows := [], reason := 0, fifoBytes := 0, mpBytes := 0, stored := none }
/-- A memory-path line that is not stored yet. -/
def mpLine : CamLine := { camLine with mpBytes := 4096 }
/-- A line cycle without rows. -/
def pend0 : PendEntry :=
  { x := 5, dt := 0, marks := 0, rows := [], flags := 0, check := false, idx := 0, fifoBytes := 0, mpBytes := 0, reason := 0, discard := false }
/-- An instruction word of an opcode with DEP 0, and the fields given. -/
def word (op fields : Nat) : Nat := op * 2 ^ 248 + 2 ^ 246 + fields
/-- A tile program of one BF16 descriptor and two instructions. -/
def program (w0 w1 : Nat) : List Byte :=
  leBytes 2 1 ++ leBytes 2 1 ++ [0, 1] ++ leBytes 2 2 ++ leBytes 4 352 ++ leBytes 4 0 ++ leBytes 4 0 ++ leBytes 4 0x10000 ++ List.replicate 232 0 ++
  [0, 0, 0, 0x90] ++ List.replicate 28 0 ++ leBytes 32 w0 ++ leBytes 32 w1
/-- A tile at its second instruction. -/
def tile1 : Tile :=
  { tsn := 1, tag := 9, g := 100, part2 := false, stripe := 0, firstLsn := 0, opes := 0xFF, pc := 1, commit := .undecided,
    wait := none, subst := [], flights := [], ctxq := [], stored := [], draining := [], stats := [], staged := [], cands := [], tdet := false, dataError := false }
/-- A job. -/
def job1 : Job :=
  { well := 0, detRing := 0xFF, prog := 0, first := some 90, count := 20, lease := 0, halo := 0, gate := none, cores := 0xFFFFFFFF, args := [], tiles := [],
    cancelledTo := none, missedGroups := 0, outs := [], opes := 1, reads := 0, since := none, finishedTiles := 0, dups := 0, flags := 0, refused := none }
/-- A command with tag 9. -/
def cmd1 (kind : Nat) (stage : CmdStage) (job : Option Job) : Cmd :=
  { queue := 2, index := 0, tag := 9, bytes := leBytes 1 1 ++ leBytes 1 kind ++ List.replicate 62 0, stage := stage, noTag := false, argsBad := none,
    job := job, copy := none }
/-- With a command in flight. -/
def flying (c : Cmd) : State := late.modCmd fun u => { u with cmds := [c] }
/-- The job runs. -/
def jobRuns : State := flying (cmd1 0 .running (some job1))
/-- A core with the tile at an instruction word. -/
def coreAt (t : Tile) (w : Nat) : State := jobRuns.modCore 0 fun c => { c with tile := some t, job := some 9, prog := some (9, program 0 w) }
/-- With zeros in the first bytes of the core's tile memory. -/
def written (s : State) : State := s.modCore 0 fun c => { c with tm := (List.range 1024).map fun a => (a, 0) }
/-- The job with an Oasis region as argument 0. -/
def region1 : Job := { job1 with args := [⟨1, 0, 64, 0⟩] }
/-- The core of that job at an instruction. -/
def atTransfer (w : Nat) : State :=
  (flying (cmd1 0 .running (some region1))).modCore 0 fun c => { c with tile := some tile1, job := some 9, prog := some (9, program 0 w) }
/-- A core at an instruction. -/
def atWord (w : Nat) : State := coreAt tile1 w
/-- A box. -/
def box1 : Box :=
  { score := 0x3F80, cls := 0, x0 := 0, y0 := 0, x1 := 16, y1 := 16, device := 0, stripe := 0, pos := 0, anchor := 0, continues := false, border := false }
/-- A tile of the well that one core has drawn under a lease. -/
def drawn1 : WellTile :=
  { g := 100, part2 := false, stripe := 0, insts := [⟨1, 0, true, false⟩], won := none, finished := false, cancelled := false, reissue := false }
/-- The job with that tile. -/
def leased : State := flying (cmd1 0 .running (some { job1 with tiles := [drawn1] }))
/-- A tile that waits. -/
def waiting (x : CoreWait) : Tile := { tile1 with wait := some x }
/-- A context instruction. -/
def ctxWord (op n : Nat) : Nat := word 0x20 (op * 2 ^ 228 + (n - 1) * 2 ^ 196)
/-- A context instruction in its queue, with a deadline. -/
def ctxOp1 (op deadline : Nat) : CtxOp := ⟨ctxWord op 1, 0, deadline, []⟩
/-- A tile whose context queue holds it. -/
def ctxTile1 (op deadline : Nat) : Tile := { tile1 with ctxq := [ctxOp1 op deadline], flights := [⟨0, 0, [unitCtx], [], [], true⟩] }
/-- Its core, at a TNOP. -/
def ctxAt (op deadline : Nat) : State := coreAt (ctxTile1 op deadline) (word 0 0)

theorem no_ctx {s : State} {k : CoreIx} {op : Nat} {t : Tile} {p : Prog} {w : Nat} (h : s.nextInstr k = some (t, p, w)) (hw : iOp w ≠ 0x20) :
    ¬ ∃ t0 p0 w, mayIssue s k 0x20 t0 p0 w ∧ bits w 231 228 = op := by
  rintro ⟨t0, p0, w0, ⟨h1, h2, _⟩, _⟩
  rw [h] at h1
  cases h1
  exact hw h2

theorem ctx_at {s : State} {op : Nat} {t : Tile} {p : Prog} {o : CtxOp} {w : Nat} (h : s.nextInstr 0 = some (t, p, w)) (hw : iOp w ≠ 0x20)
    (hq : t.ctxq = [o]) (ho : bits o.word 231 228 = op) (ht : (s.core 0).tile = some t) (hp : (s.core 0).prog = some (9, p)) : ctxRuns s 0 op s t p o :=
  ⟨⟨[], hq⟩, ho, ht, ⟨9, hp⟩, .inr ⟨no_ctx h hw, rfl⟩⟩

/-- One effect of a tile that has committed. -/
def batch1 : CtxBatch := { core := 0, g := 100, part2 := false, stripe := 0, firstLsn := 6400, tag := 9, effects := [.update ⟨0, 64, 6400, List.replicate 48 1, 1⟩] }
/-- A detection slot of group 100. -/
def det1 (kept : Option (List Box)) : DetSlot :=
  { g := 100, part2 := false, cands := [box1], received := 1, flags := 0, suppressed := 0, dropped := 0, kept := kept, tq := 0, agnostic := false, carryLines := 0,
    tag := 9 }
/-- A stream of an argument. -/
def stream1 (kind : Nat) (slots : List (Nat × Int × SlotState)) : Stream :=
  { tag := 9, arg := 0, ring := 0, desc := [0, BitVec.ofNat 8 kind] ++ List.replicate 62 0, extents := [], slots := slots, rounds := [], onceDone := false }
/-- With a stream. -/
def streaming1 (x : Stream) : State := jobRuns.modCmd fun u => { u with streams := [x] }
/-- A round of a multicast. -/
def round1 (started : Bool) : Round := { g := 100, lo := 0, hi := 64, joined := [(0, [(0, 0, 64)])], started := started }
/-- An item of trimming. -/
def item (kind unit : Nat) : TrimItem := { kind := kind, unit := unit, addr := 0, forced := false, since := 0, overdue := false, took := 0 }
/-- A Caravan frame with no slots, from the controller 1. -/
def cycleFrame : List Byte :=
  List.replicate 6 0xFF ++ [0, 0, 0, 0, 0, 1, 0x88, 0xB5, 1, 1, 0, 0] ++ leBytes 4 7 ++ List.replicate 24 0
/-- A GO of SAF_CMD. -/
def safWrite (op : Nat) : W32 := BitVec.ofNat 32 (2 ^ 16 + op)

/-- With the groups complete up to one. -/
def upTo (g : Int) (s : State) : State := { s with web := { s.web with completeGroup := some g } }
/-- In RUN, with the groups complete up to one. -/
def doneTo (g : Int) : State := upTo g late
/-- A stream with a slot of group 100. -/
def slot1 (kind : Nat) (x : SlotState) : Stream := stream1 kind [((stream1 kind []).slotNo 100, 100, x)]
/-- The front-slice part of port 0 changed. -/
def onFs (f : FsPort → FsPort) : State := { run with fsPorts := run.fsPorts.set 0 (f FsPort.init) }
/-- A copy of nothing. -/
def copy1 : CopyOp := { desc := List.replicate 64 0, src := [], dst := [] }
/-- An event. -/
def event1 : EventRec := { dt := 0, lsn := 0, source := 0, type := 5, body := List.replicate 48 0 }
/-- A record that is ready. -/
def ready1 : ReadyRec := { g := 100, part2 := false, stripe := 0, tsn := 1, flags := 0, body := [1, 2, 3], pages := [], early := false, waits := false }
/-- An output stream on result ring 4. -/
def out1 : OutStream := { ring := 4, arg := none, pitch := 64, g := 100, part2 := false, stripe := 0, ready := [ready1], missed := [] }
/-- A job with that stream. -/
def outJob : Job := { job1 with outs := [out1] }
/-- A command queue with a record to read. -/
def reading : State := ((hosted run).setReg (Reg.cqSlots 2) 16).setReg (Reg.cqPi 2) 1
/-- A job whose argument block lies in host memory. -/
def argCmd : Cmd := { cmd1 0 .read none with bytes := leBytes 1 1 ++ List.replicate 15 0 ++ leBytes 8 (2 ^ 63) ++ List.replicate 40 0 }
/-- The Caravan node forwards. -/
def node : State := { run with crv := { run.crv with forwarding := true } }
/-- A scheduled write for the next line. -/
def sched1 : Sched := { handle := 3, key := Od.webLinePitch, at_ := 6464, value := 0x20000, origin := .host }
/-- The row of an entry. -/
def entry (key : Nat) : OdRow := (odFind key).getD ⟨0, 0, 0, 0, .bool, .ro, false, false, false, 0, .full⟩
/-- The row of a register. -/
def register (off : Nat) : RegRow := (regFind off).getD ⟨0, [], .ro, 0, 0, 0, .keep, false⟩
/-- The mailbox addresses an entry, with 4 bytes. -/
def mailbox (s : State) (addr : Nat) : State := (s.setReg Reg.glbOdMbAddr addr).setReg Reg.glbOdMbLen 4
/-- With every DRAM channel out of service for an item of trimming. -/
def channelsOut (s : State) : State := { s with trim := { s.trim with running := (List.range 128).map (item 5) } }
/-- A stream whose slots lie in DRAM. -/
def held1 (x : SlotState) : Stream :=
  { slot1 0 x with extents := [(0, 4096, 0)], desc := [0, 0] ++ List.replicate 10 0 ++ leBytes 4 64 ++ List.replicate 48 0 }
/-- A JOB without a detection ring, with its arguments bound. -/
def jobCmd : Cmd := { cmd1 0 .read (some job1) with bytes := [1, 0, 0, 0, 9, 0, 0, 0xFF] ++ List.replicate 56 0 }
/-- The same JOB before its arguments are bound. -/
def newCmd : Cmd := { jobCmd with job := none }
/-- A COPY of 64 bytes of DRAM: its descriptor, and its two block lists behind it. -/
def copyDesc : List Byte :=
  [1, 3] ++ List.replicate 14 0 ++ leBytes 8 64 ++ leBytes 4 1 ++ List.replicate 24 0 ++ leBytes 8 128 ++ leBytes 4 1
/-- An entry of a block list in DRAM. -/
def blockOf (a : Nat) : List Byte := leBytes 8 a ++ leBytes 4 64 ++ List.replicate 52 0
/-- With that COPY in DRAM. -/
def copying (s : State) : State := s.writeDram 0 (copyDesc ++ blockOf 4096 ++ blockOf 8192)
/-- A ticket for a Caravan request on an entry. -/
def ticket (cmd key : Nat) (staged : Nat × List Byte) : Ticket :=
  ⟨5, [0, 0] ++ leBytes 1 cmd ++ [0] ++ leBytes 2 (key / 256) ++ leBytes 1 key ++ List.replicate 25 0, none, 0, staged⟩
/-- With one ticket. -/
def holding (k : Ticket) : State := { node with crv := { node.crv with tickets := [k] } }
/-- In RUN at LSN 6,464, with one scheduled write. -/
def scheduled (e : Sched) : State := { late with doors := { late.doors with schedule := [e] } }
/-- The LOOKUP's one request names an entry whose channel is out. -/
def lookupHeld : State :=
  let s := ((written (ctxAt 0 4)).setOd Od.webWindowWidth 64).setOd (Od.periodEnable 0) 1
  channelsOut { s with ctx := { s.ctx with records := [⟨0, [some 0]⟩] } }
/-- The STATE_LOAD's state is stored, and its channel is out. -/
def stateWaits : State := channelsOut { ctxAt 2 4 with ctx := { late.ctx with stored := [⟨99, 0, false, some 99⟩] } }

/-! ### Commands that no carrier can present -/

theorem test_wf_place : (Instr.bar4Read (2 ^ 27) 4).wf = false := by decide
theorem test_wf_bar4_write_size : (Instr.bar4Write 0 3 0).wf = false := by decide
theorem test_wf_bar4_read_size : (Instr.bar4Read 0 16).wf = false := by decide
theorem test_wf_oasis_empty : (Instr.oasisWindowAccess 0 0 none).wf = false := by decide
theorem test_wf_oasis_length : (Instr.oasisWindowAccess 0 4 (some [1, 2])).wf = false := by decide
theorem test_wf_write_size : (Instr.genericRegisterWrite ⟨false, 0, 9⟩ 0).wf = false := by decide
theorem test_wf_clear_place : (Instr.registerReadClear ⟨false, 2 ^ 26, 4⟩).wf = false := by decide
theorem test_wf_low_empty : (Instr.lowWordRead ⟨true, 0, 0⟩).wf = false := by decide
theorem test_wf_flit : (Instr.flitReceive 0 [1, 2, 3]).wf = false := by decide
theorem test_wf_training : (Instr.trainingMessageRx 0 [1]).wf = false := by decide
theorem test_wf_forward : (Instr.caravanFrameForward ⟨[], true⟩ true).wf = false := by decide
theorem test_wf_process : (Instr.caravanFrameProcess [] true).wf = false := by decide
theorem test_wf_sensors : (Instr.thermalSample [0] []).wf = false := by decide
theorem test_wf_lgn : (Instr.groupCancel (2 ^ 47)).wf = false := by decide
theorem test_wf_halo_lgn : (Instr.haloChannelDeadline 0 0 (-(2 ^ 47) - 1)).wf = false := by decide
theorem test_wf_tensor_lgn : (Instr.trackedGroupClose 0 (2 ^ 47)).wf = false := by decide
theorem test_wf_fill_lgn : (Instr.fetchFillStart 0 (2 ^ 47)).wf = false := by decide

/-! ### Steps, against the rules' own numbers -/

/-- A property of the next state. -/
def after (c : Instr) (s : State) (p : State → Bool) : Bool := match exec c s with
  | .next t => p t
  | _ => false

/-- The check value of CRC-32 of IEEE 802.3: the CRC of the digits 1 to 9. -/
theorem test_crc32 : crc32 [0x31, 0x32, 0x33, 0x34, 0x35, 0x36, 0x37, 0x38, 0x39] = 0xCBF43926 := by decide +kernel
/-- FIPS 202's SHAKE256 of the empty message begins 46 B9 DD 2B. -/
theorem test_shake256 : (digest []).take 4 = [0x46, 0xB9, 0xDD, 0x2B] := by decide +kernel
/-- R16: with a pitch of 2.5 counts and its threshold at count 2.5, count 3 triggers and the next threshold is 5.0. -/
theorem test_pitch : after (.encoderCount ⟨true, false, 200⟩) { run.setOd Od.webLinePitch 0x28000 with web := { run.web with encLevels := some (false, false), pos := 2, high := 2, next := 0x28000 } } (fun t =>
    t.web.x == 1 && t.web.next == 0x50000) = true := by decide +kernel
/-- R70: a rise of A while B is low is one count forward, and a step back is one count less. -/
theorem test_decode : (after (.encoderCount ⟨true, false, 200⟩) { run with web := { run.web with encLevels := some (false, false) } } (fun t => t.web.pos == 1) &&
    after (.encoderCount ⟨false, false, 200⟩) { run with web := { run.web with encLevels := some (true, false) } } (fun t => t.web.pos == -1)) = true := by
  decide +kernel
/-- Below its threshold, count 2 does not. -/
theorem test_no_trigger : after (.encoderCount ⟨true, false, 200⟩) { run.setOd Od.webLinePitch 0x28000 with web := { run.web with encLevels := some (false, false), pos := 1, high := 1, next := 0x28000 } } (fun t =>
    t.web.x == 0 && t.web.pos == 2) = true := by decide +kernel
/-- R16: a BAR4 write of 0xFFFF to LINE_PITCH is refused with RANGE, 6. -/
theorem test_pitch_refused : after (.bar4Write (0x2F00 * 0x800 + 2 * 8) 4 0xFFFF) preop (fun t =>
    t.od Od.webLinePitch == 0x10000 && t.reg Reg.glbOdWStatus == 0x2F000206) = true := by decide +kernel
/-- R120's worked example: a line of 12,288 pixel bytes takes 12,352 bytes of the memory-path ring. -/
theorem test_mp_line : ((preop.setOd (Od.portLineWidth 5) 8192).setOd (Od.portPixelBits 5) 12).lineMpBytes 5 = 12352 := by decide +kernel
/-- R388: a value that has reached or passed its target holds, modulo 2^32. -/
theorem test_wait_holds : (waitHolds 5 5 && waitHolds 0 0xFFFFFFFF && !waitHolds 4 5) = true := by decide
/-- R370: a PI one past the ring of 16 stops the queue with cause 1. -/
theorem test_queue_stop : after (.cqPiWrite 2 17) (run.setReg (Reg.cqSlots 2) 16) (fun t => t.reg (Reg.cqStatus 2) == 6 && t.reg (Reg.cqPi 2) == 0) = true := by
  decide +kernel
/-- An A8U code of 200 at a scale of 1 and a zero point of 0, and a value past the range, which saturates. -/
theorem test_quantise : ((quantise 4 ⟨0x3F80, 0, false⟩ (.fin false 200)).code, (quantise 4 ⟨0x3F80, 0, false⟩ (.fin false 300)).sat) = (200, true) := by
  decide +kernel
/-- R410: deskew takes an ALIGN link to NEGOTIATE. -/
theorem test_deskew : after (.linkDeskewDone 0) (linkIn .align) (fun t => (t.link 0).state == .negotiate) = true := by decide +kernel
/-- R541: a drop of PWR_GOOD resets the device to BOOT, and ends with DT 0. -/
theorem test_power_loss : after .pwrGoodFall run (fun t => t.dev.state == .boot && t.dev.resetHeld && t.dt == 0) = true := by decide +kernel
/-- R402: an event goes to the slot of its producer index, and the index moves on. -/
theorem test_event : after .eventRecordWrite { ((hosted run).setReg Reg.cmdEvtSlots 16).setReg Reg.cmdEvtPi 3 with events := [event1] } (fun t =>
    t.reg Reg.cmdEvtPi == 4 && t.events.isEmpty && t.hostMem.length == 64 && (t.hostMem.byte? (3 * 64)).isSome) = true := by decide +kernel


/-! ### Witnesses of the statements' hypotheses -/

/-- The hypotheses of `Obligations.IdleStepTicksDeviceTime` can be met, clause by clause. -/
theorem witness_idleStepTicksDeviceTime :
    (∃ s : State, (s.pending = []) ∧ (s.awake)) ∧
    (∃ s : State, (s.pending = []) ∧ (¬ s.awake)) :=
  ⟨⟨preop, (by decide +kernel), rfl⟩,
   ⟨held, (by decide +kernel), (by unfold State.awake; decide +kernel)⟩⟩

/-- The hypotheses of `Obligations.EveryOtherCommandAnswers` can be met, clause by clause. -/
theorem witness_everyOtherCommandAnswers :
    (∃ c : Instr, ∃ s : State, (reachesManufacturingTest c = false)) :=
  ⟨.linkDeskewDone 0, linkIn .align, by decide +kernel⟩

/-- The hypotheses of `Obligations.OnlyManufacturingTestIsRefused` can be met, clause by clause. -/
theorem witness_onlyManufacturingTestIsRefused :
    (∃ c : Instr, ∃ s : State, ∃ r, (exec c s = .refused r)) :=
  ⟨.bar4Read (0xF000 * 0x800) 4, preop, .manufacturingTest 0xF000, rfl⟩

/-- The hypotheses of `Obligations.CommandsKeepWhatTheyDoNotTouch` can be met, clause by clause. -/
theorem witness_commandsKeepWhatTheyDoNotTouch :
    (∃ c : Instr, ∃ s t : State, ∃ p : Part, (exec c s = .next t) ∧ (p ∉ c.touches)) :=
  ⟨.linkDeskewDone 0, linkIn .align, nextOf (.linkDeskewDone 0) (linkIn .align), .dram, rfl, by decide +kernel⟩

/-- The hypotheses of `Obligations.StepKeepsTheCanonicalForm` can be met, clause by clause. -/
theorem witness_stepKeepsTheCanonicalForm :
    (∃ s t : State, (s.wf = true) ∧ (step s = .next t)) :=
  ⟨preop, preop.tick, (by decide +kernel), rfl⟩

/-- The hypotheses of `Obligations.StepKeepsTheLedgerChain` can be met, clause by clause. -/
theorem witness_stepKeepsTheLedgerChain :
    (∃ s t : State, (s.chainSound) ∧ (step s = .next t)) :=
  ⟨preop, preop.tick, ⟨rfl, trivial, by intro e h; simp [preop, inState, State.reset, State.resetLedger, State.setOd] at h⟩, rfl⟩

/-- The hypotheses of `Obligations.StateChangesOnlyByTransitions` can be met, clause by clause. -/
theorem witness_stateChangesOnlyByTransitions :
    (∃ c : Instr, ∃ s t : State, (exec c s = .next t) ∧ (t.dev.state ≠ s.dev.state)) :=
  ⟨.runEntry, asked .armed .run, nextOf .runEntry (asked .armed .run), rfl, by decide +kernel⟩

/-- The hypotheses of `Obligations.NothingHappensInReset` can be met, clause by clause. -/
theorem witness_nothingHappensInReset :
    (∃ c : Instr, ∃ s : State, (actsInReset c = false) ∧ (¬ s.awake)) ∧
    (∃ s : State, ∃ mv : W16, (¬ s.awake) ∧ (s.dev.powerGood = true) ∧ (100 * mv.toNat ≤ 88 * s.vt)) :=
  ⟨⟨.authBegin, held, (by decide +kernel), (by unfold State.awake; decide +kernel)⟩,
   ⟨held, 100, (by unfold State.awake; decide +kernel), by decide +kernel⟩⟩

/-- The hypotheses of `encoderCountFollowsThePosition` can be met, clause by clause. -/
theorem witness_encoderCountFollowsThePosition :
    (∃ s : State, ∃ a b p q : Bool, ∃ ns : Nat, (s.awake) ∧ (s.od Od.encFilterNs ≤ ns) ∧ (s.web.encLevels = some (p, q)) ∧ (a = p ∨ b = q)) ∧
    (∃ s : State, ∃ a b : Bool, ∃ ns : Nat, (s.awake) ∧ (ns < s.od Od.encFilterNs)) ∧
    (∃ s : State, ∃ a b : Bool, ∃ ns : Nat, (s.awake) ∧ (s.od Od.encFilterNs ≤ ns) ∧ (s.web.encLevels = none)) :=
  ⟨⟨{ run with web := { run.web with encLevels := some (false, false) } }, true, false, false, false, 200, rfl, by decide +kernel⟩,
   ⟨run.setOd Od.encFilterNs 500, true, false, 200, rfl, by decide +kernel⟩,
   ⟨run, true, false, 200, rfl, by decide +kernel⟩⟩

/-- The hypotheses of `Obligations.PositionTimerAndTriggers` can be met, clause by clause. -/
theorem witness_positionTimerAndTriggers :
    (∃ s : State, (s.awake) ∧ (s.od Od.webLineSource = 1) ∧ (s.dev.state = .armed ∨ s.dev.state = .run)) ∧
    (∃ s : State, ∃ a b : Bool, (s.wf = true) ∧ (s.awake) ∧ (s.web.encLevels = some (!a, !b))) ∧
    (∃ s : State, (s.wf = true) ∧ (s.awake)) :=
  ⟨⟨run.setOd Od.webLineSource 1, rfl, by decide +kernel⟩,
   ⟨{ run with web := { run.web with encLevels := some (false, true) } }, true, false, (by decide +kernel), rfl, by decide +kernel⟩,
   ⟨run, (by decide +kernel), rfl⟩⟩

/-- The hypotheses of `Obligations.OnlyTriggersAdvanceTheLine` can be met, clause by clause. -/
theorem witness_onlyTriggersAdvanceTheLine :
    (∃ c : Instr, ∃ s t : State, (exec c s = .next t) ∧ (c ≠ .armedEntry) ∧ (s.awake) ∧ (t.awake)) :=
  ⟨.linkDeskewDone 0, linkIn .align, nextOf (.linkDeskewDone 0) (linkIn .align), rfl, (by decide +kernel), rfl, rfl⟩

/-- The hypotheses of `Obligations.LinePitchIsAtLeastOne` can be met, clause by clause. -/
theorem witness_linePitchIsAtLeastOne :
    (∃ s : State, ∃ o : Origin, ∃ v : Nat, (o ≠ .internal) ∧ (s.dev.state = .preop ∨ s.dev.state.live = true)) ∧
    (∃ s : State, ∃ v : W64, (s.wf = true) ∧ (s.awake) ∧ (s.dev.state = .preop ∨ s.dev.state.live = true) ∧ (s.doors.bar4Low = none)) :=
  ⟨⟨preop, .host, 0x10000, by decide +kernel⟩,
   ⟨preop, 0x10000, (by decide +kernel), rfl, by decide +kernel⟩⟩

/-- The hypotheses of `lightAndLaneLocks` can be met, clause by clause. -/
theorem witness_lightAndLaneLocks :
    (∃ s : State, ∃ e : EngineIx, (s.wf = true) ∧ (s.awake) ∧ (s.pwr.engines.getLsbD e = true) ∧ (e.val < 4)) ∧
    (∃ s : State, ∃ e : EngineIx, (s.wf = true) ∧ (s.awake) ∧ (e.val < 4)) ∧
    (∃ s : State, ∃ c : PortIx, ∃ lane : Fin 4, (s.awake) ∧ (s.laneMayLock c lane = true) ∧ ((s.port c).locks.getLsbD lane = false)) ∧
    (∃ s : State, ∃ c : PortIx, ∃ lane : Fin 4, (s.awake) ∧ ((s.port c).locks.getLsbD lane = true)) :=
  ⟨⟨run, 3, (by decide +kernel), rfl, by decide +kernel⟩,
   ⟨run, 3, (by decide +kernel), rfl, by decide +kernel⟩,
   ⟨run.setOd (Od.engLightOk 0) 1, 3, 0, rfl, by decide +kernel⟩,
   ⟨onPort fun p => { p with state := .idle, locks := 15 }, 3, 0, rfl, by decide +kernel⟩⟩

/-- The hypotheses of `Obligations.LocksAndDiscovery` can be met, clause by clause. -/
theorem witness_locksAndDiscovery :
    (∃ s : State, ∃ c : PortIx, ∃ ack : Byte, ∃ data : List Byte, (s.wf = true) ∧ (s.awake) ∧ ((s.port c).ccHost = none) ∧ ((s.port c).discWaits = true)) ∧
    (∃ s : State, ∃ c : PortIx, (s.wf = true) ∧ (s.awake) ∧ ((s.port c).ccHost = none) ∧ ((s.port c).discWaits = true)) ∧
    (∃ s : State, ∃ c : PortIx, (s.wf = true) ∧ (s.awake) ∧ ((s.port c).step = .lanes)) :=
  ⟨⟨discovering .revision, 3, 0, [0, 0, 2, 0], (by decide +kernel), rfl, by decide +kernel⟩,
   ⟨discovering .readback, 3, (by decide +kernel), rfl, by decide +kernel⟩,
   ⟨discovering .lanes, 3, (by decide +kernel), rfl, by decide +kernel⟩⟩

/-- The hypotheses of `heartbeatsAndCameraEvents` can be met, clause by clause. -/
theorem witness_heartbeatsAndCameraEvents :
    (∃ s : State, ∃ c : PortIx, (s.wf = true) ∧ (s.awake) ∧ ((s.port c).linked = true)) :=
  ⟨onPort fun p => { p with state := .idle }, 3, (by decide +kernel), rfl, by decide +kernel⟩

/-- The hypotheses of `Obligations.ControlChannelAndHeartbeats` can be met, clause by clause. -/
theorem witness_controlChannelAndHeartbeats :
    (∃ s : State, ∃ c : PortIx, ∃ write : Bool, (s.wf = true) ∧ (s.awake) ∧ ((s.port c).ccHost = none)) ∧
    (∃ s : State, ∃ c : PortIx, ∃ r : CcHost, ∃ ack : Byte, ∃ data : List Byte, (s.wf = true) ∧ (s.awake) ∧ ((s.port c).ccHost = some r) ∧ (r.sent = true)) ∧
    (∃ s : State, ∃ c : PortIx, ∃ r : CcHost, (s.wf = true) ∧ (s.awake) ∧ ((s.port c).ccHost = some r) ∧ (r.sent = true)) :=
  ⟨⟨onPort fun p => { p with state := .idle }, 3, true, (by decide +kernel), rfl, by decide +kernel⟩,
   ⟨onPort fun p => { p with state := .idle, ccHost := some ⟨false, 0, 4, [], true⟩ }, 3, ⟨false, 0, 4, [], true⟩, 0, [1, 2, 3, 4], (by decide +kernel), rfl, by decide +kernel⟩,
   ⟨onPort fun p => { p with state := .idle, ccHost := some ⟨false, 0, 4, [], true⟩ }, 3, ⟨false, 0, 4, [], true⟩, (by decide +kernel), rfl, by decide +kernel⟩⟩

/-- The hypotheses of `Obligations.StreamPacketsMoveThePort` can be met, clause by clause. -/
theorem witness_streamPacketsMoveThePort :
    (∃ s : State, ∃ c : PortIx, ∃ stream bitsOf arrangement : Byte, (s.awake) ∧ (ownStream s c stream)) ∧
    (∃ s : State, ∃ c : PortIx, ∃ stream : Byte, (s.awake) ∧ (ownStream s c stream) ∧ ((s.port c).open_.isSome = true) ∧ ((s.port c).state = .frame ∨ (s.port c).state = .line ∧ (s.port c).row.isSome = true)) ∧
    (∃ s : State, ∃ c : PortIx, (s.wf = true) ∧ (s.awake)) ∧
    (∃ s : State, ∃ c : PortIx, ∃ own stream : Byte, (s.wf = true) ∧ (s.awake) ∧ ((s.port c).linked = true) ∧ ((s.port c).stream = some own) ∧ (own ≠ stream)) ∧
    (∃ s : State, ∃ c : PortIx, ∃ stream : Byte, (s.awake) ∧ ((s.port c).linked = true) ∧ (s.dev.state.live = false) ∧ ((s.port c).stream = none)) :=
  ⟨⟨onPort fun p => { p with state := .idle }, 3, 7, 8, 0, rfl, (by unfold ownStream; decide +kernel)⟩,
   ⟨atRow, 3, 7, rfl, (by unfold ownStream; decide +kernel), by decide +kernel⟩,
   ⟨atRow, 3, (by decide +kernel), rfl⟩,
   ⟨atRow, 3, 7, 8, (by decide +kernel), rfl, by decide +kernel⟩,
   ⟨{ preop.modPort 3 fun p => { p with state := .idle } with dt := 5 }, 3, 7, rfl, by decide +kernel⟩⟩

/-- The hypotheses of `lineTimeouts` can be met, clause by clause. -/
theorem witness_lineTimeouts :
    (∃ s : State, ∃ c : PortIx, ∃ r, (s.awake) ∧ ((s.port c).row = some r)) ∧
    (∃ s : State, ∃ c : PortIx, ∃ e, (s.awake) ∧ (((s.port c).pend.find? fun e => decide (e.marks < s.rowsPerCycle c)) = some e)) ∧
    (∃ s : State, ∃ c : PortIx, ∃ l, (s.awake) ∧ ((s.port c).held = some l)) :=
  ⟨⟨atRow, 3, ⟨some 5, [], false, false⟩, rfl, by decide +kernel⟩,
   ⟨onPort fun p => { p with pend := [pend0] }, 3, pend0, rfl, by decide +kernel⟩,
   ⟨onPort fun p => { p with state := .idle, held := some camLine }, 3, camLine, rfl, by decide +kernel⟩⟩

/-- The hypotheses of `Obligations.PixelDataAndLineTimeouts` can be met, clause by clause. -/
theorem witness_pixelDataAndLineTimeouts :
    (∃ s : State, ∃ c : PortIx, ∃ stream : Byte, ∃ pixels : List W16, ∃ r : OpenRow, (s.awake) ∧ (ownStream s c stream) ∧ ((s.port c).state = .line) ∧ ((s.port c).row = some r)) ∧
    (∃ s : State, ∃ c : PortIx, ∃ stream : Byte, ∃ pixels : List W16, (s.wf = true) ∧ (s.awake) ∧ (ownStream s c stream) ∧ ((s.port c).state ≠ .line)) ∧
    (∃ s : State, ∃ c : PortIx, ∃ lane : Fin 4, ∃ pixels : List W16, ∃ r : OpenRow, (s.awake) ∧ (s.streaming c = true) ∧ ((s.port c).state = .line) ∧ ((s.port c).row = some r) ∧ (pixels.length < s.od (Od.portLineWidth c) - r.pixels.length)) ∧
    (∃ s : State, ∃ c : PortIx, ∃ lane : Fin 4, ∃ pixels : List W16, (s.awake) ∧ (s.streaming c = true) ∧ ((s.port c).state = .frame)) ∧
    (∃ s : State, ∃ c : PortIx, ∃ lane : Fin 4, ∃ pixels : List W16, (s.wf = true) ∧ (s.awake) ∧ (s.streaming c = false ∨ (s.port c).state = .idle)) :=
  ⟨⟨atRow, 3, 7, [100, 200], ⟨some 5, [], false, false⟩, rfl, (by unfold ownStream; decide +kernel), by decide +kernel⟩,
   ⟨onPort fun p => { p with state := .frame, stream := some 7, open_ := some ⟨0, none, 0, 0, 0, 0, false⟩ }, 3, 7, [100], (by decide +kernel), rfl, (by unfold ownStream; decide +kernel), by decide +kernel⟩,
   ⟨atRow, 3, 1, [100, 200], ⟨some 5, [], false, false⟩, rfl, by decide +kernel⟩,
   ⟨onPort fun p => { p with state := .frame, stream := some 7, open_ := some ⟨0, none, 0, 0, 0, 0, false⟩ }, 3, 1, [100], rfl, by decide +kernel⟩,
   ⟨onPort fun p => { p with state := .idle, stream := some 7 }, 3, 1, [100], (by decide +kernel), rfl, by decide +kernel⟩⟩

/-- The hypotheses of `Obligations.PortsAreIndependent` can be met, clause by clause. -/
theorem witness_portsAreIndependent :
    (∃ c d : PortIx, ∃ i : Instr, ∃ s t : State, (onePort c i) ∧ (d ≠ c) ∧ (exec i s = .next t)) :=
  ⟨3, 4, .heartbeatSend 3, run, nextOf (.heartbeatSend 3) run, rfl, (by decide +kernel), rfl⟩

/-- The hypotheses of `Obligations.SlicesTakeAndEndLines` can be met, clause by clause. -/
theorem witness_slicesTakeAndEndLines :
    (∃ s : State, ∃ k : SliceIx, ∃ c : PortIx, ∃ l : CamLine, (s.awake) ∧ (s.dev.state.live = true ∨ s.dev.state = .preop) ∧ ((s.slice k).run = none) ∧ (s.chooseLine k = some c) ∧ (s.lineReady c = some l)) ∧
    (∃ s : State, ∃ k : SliceIx, ∃ r : SliceRun, (s.awake) ∧ ((s.slice k).run = some r)) :=
  ⟨⟨((run.setOd (Od.camEnable 0) 1).setReg (Reg.fsRingSlots 0 0) 64).modPort 0 (fun p => { p with queue := [camLine] }), 0, 0, camLine, rfl, by decide +kernel⟩,
   ⟨{ run with slices := run.slices.set 0 { run.slices[0] with run := some ⟨0, camLine, 0, []⟩ } }, 0, ⟨0, camLine, 0, []⟩, rfl, by decide +kernel⟩⟩

/-- The hypotheses of `Obligations.MemoryPathLinesAreStored` can be met, clause by clause. -/
theorem witness_memoryPathLinesAreStored :
    (∃ s : State, ∃ c : PortIx, ∃ l : CamLine, (s.awake) ∧ (s.isMp c = true) ∧ (((s.port c).queue.find? fun y => y.mpBytes != 0 && y.stored.isNone) = some l)) :=
  ⟨(run.setOd (Od.camEnable 1) 1).modPort 1 (fun p => { p with queue := [mpLine] }), 1, mpLine, rfl, by decide +kernel⟩

/-- The hypotheses of `Obligations.CalibrationTables` can be met, clause by clause. -/
theorem witness_calibrationTables :
    (∃ s : State, ∃ k : SliceIx, ∃ v : W32, (s.wf = true) ∧ (s.awake) ∧ (s.dev.state.ready = true)) ∧
    (∃ s : State, ∃ k : SliceIx, (s.wf = true) ∧ (s.awake) ∧ (s.dev.state.ready = true) ∧ (s.reg (Reg.fsTblIndex k) < s.tableEntries (portOf k ⟨s.reg (Reg.fsTblSel k) % 4, Nat.mod_lt _ (by decide)⟩))) ∧
    (∃ s : State, ∃ k : SliceIx, ∃ mask : BitVec 4, (s.awake) ∧ (s.dev.state.ready = true)) ∧
    (∃ s : State, ∃ c : PortIx, (s.awake) ∧ ((s.fsPort c).copyBusy = true)) ∧
    (∃ s : State, ∃ k : SliceIx, (s.awake)) :=
  ⟨⟨preop, 0, 0x00004000, (by decide +kernel), rfl, by decide +kernel⟩,
   ⟨preop, 0, (by decide +kernel), rfl, by decide +kernel⟩,
   ⟨preop, 0, 15, rfl, by decide +kernel⟩,
   ⟨{ run with fsPorts := run.fsPorts.set 0 { FsPort.init with copyBusy := true } }, 0, rfl, by decide +kernel⟩,
   ⟨run, 0, rfl⟩⟩

/-- The hypotheses of `Obligations.FlatFieldStages` can be met, clause by clause. -/
theorem witness_flatFieldStages :
    (∃ s : State, ∃ c : PortIx, (s.awake) ∧ ((s.fsPort c).ff.stage = .learning) ∧ ((s.fsPort c).ff.learnLines ≤ (s.fsPort c).ff.lines)) ∧
    (∃ s : State, ∃ c : PortIx, (s.awake) ∧ ((s.fsPort c).ff.stage = .computing)) :=
  ⟨⟨{ run with fsPorts := run.fsPorts.set 0 { FsPort.init with ff := { FfPort.init with stage := .learning, lines := 4096 } } }, 0, rfl, by decide +kernel⟩,
   ⟨{ run with fsPorts := run.fsPorts.set 0 { FsPort.init with ff := { FfPort.init with stage := .computing } } }, 0, rfl, by decide +kernel⟩⟩

/-- The hypotheses of `Obligations.TrackedGroupsClose` can be met, clause by clause. -/
theorem witness_trackedGroupsClose :
    (∃ s : State, ∃ k : Fin 256, ∃ g h : Int, ∃ part2 : Bool, (s.wf = true) ∧ (s.awake) ∧ (s.dev.state.live = true) ∧ (s.odFlag (Od.trkEnable k) = true) ∧ (s.firstGroup = some h) ∧ (h ≤ g) ∧ (s.partCommitted g part2 = true) ∧ ((s.tensor k).closed.contains (g, part2) = false) ∧ (part2 = true → (s.tensor k).closed.contains (g, false) = true)) ∧
    (∃ s : State, ∃ k : Fin 256, ∃ g h : Int, (s.wf = true) ∧ (s.awake) ∧ (s.dev.state.live = true) ∧ (s.odFlag (Od.trkEnable k) = true) ∧ (s.firstGroup = some h) ∧ (h ≤ g) ∧ (∀ part2 : Bool, (s.tensor k).closed.contains (g, part2) = true ∨ s.partCommitted g part2 = false)) :=
  ⟨⟨((late.setOd (Od.trkEnable 0) 1).modCmd fun u => { u with committed := [(95, false)] }), 0, 95, -(2 ^ 63), false, (by decide +kernel), rfl, by decide +kernel⟩,
   ⟨(late.setOd (Od.trkEnable 0) 1), 0, 101, -(2 ^ 63), (by decide +kernel), rfl, by decide +kernel⟩⟩

/-- The hypotheses of `Obligations.QuantisedCodesAreNear` can be met, clause by clause. -/
theorem witness_quantisedCodesAreNear :
    (∃ fmt : Nat, ∃ k : Scaling, ∃ w : Fp, (fmt ≤ 5) ∧ (scaleValid k.scale = true) ∧ (k.zr = false) ∧ 
    let q := quantise fmt k w
    
    let v : Int := if fmtZero fmt then (q.code : Int) else toSigned (fmtBits fmt) q.code
    (q.sat = false) ∧ (q.nonfinite = false)) :=
  ⟨0, ⟨0x3F80, 0, false⟩, Fp.fin false 1, by decide +kernel⟩

/-- The hypotheses of `Obligations.EngineInstructionsComplete` can be met, clause by clause. -/
theorem witness_engineInstructionsComplete :
    (∃ i : Instr, ∃ k : CoreIx, ∃ op : Nat, ∃ f : View → Nat → Fx, ∃ s : State, ∃ t : Tile, ∃ p : Prog, ∃ w : Nat, (engineOp i = some (k, op, f)) ∧ (s.awake) ∧ (mayIssue s k op t p w) ∧ 
    let u := issueState s k op t w
    
    let v := u.view k (issueTile s k t w) p ((s.core k).unitsOf w)
    (sound u k v w (f v w))) ∧
    (∃ i : Instr, ∃ k : CoreIx, ∃ op : Nat, ∃ f : View → Nat → Fx, ∃ s : State, ∃ t : Tile, ∃ p : Prog, ∃ w : Nat, (engineOp i = some (k, op, f)) ∧ (s.awake) ∧ (mayIssue s k op t p w) ∧ 
    let u := issueState s k op t w
    
    let v := u.view k (issueTile s k t w) p ((s.core k).unitsOf w)
    ((u.readsPoison k (v.reads w)).isSome = true)) :=
  ⟨⟨.tqnt 0, 0, 0x19, qntFx, atWord (word 0x19 (2 ^ 208)), tile1, program 0 (word 0x19 (2 ^ 208)), word 0x19 (2 ^ 208), rfl, rfl, (by unfold mayIssue; decide +kernel), (by unfold sound; decide +kernel)⟩,
   ⟨.tqnt 0, 0, 0x19, qntFx, (atWord (word 0x19 (2 ^ 208))).modCore 0 (fun c => { c with tmPoison := [0] }), tile1, program 0 (word 0x19 (2 ^ 208)), word 0x19 (2 ^ 208), rfl, rfl, (by unfold mayIssue; decide +kernel), by decide +kernel⟩⟩

/-- The hypotheses of `Obligations.MatrixInstructionsComplete` can be met, clause by clause. -/
theorem witness_matrixInstructionsComplete :
    (∃ conv : Bool, ∃ k : CoreIx, ∃ s : State, ∃ t : Tile, ∃ p : Prog, ∃ w : Nat, (s.awake) ∧ (mayIssue s k (if conv then 0x11 else 0x10) t p w) ∧ 
    let u0 := issueState s k (if conv then 0x11 else 0x10) t w
    (u0.opeBusy k (issueTile s k t w) w = false) ∧ 
    let o := (s.core k).physical (bits w 231 229)
    
    let quad := bitAt w 228
    
    let us := (s.core k).unitsOf w
    
    let same := (s.core k).quad.getLsbD o == quad
    
    let t1 := if same then issueTile s k t w else
      { issueTile s k t w with flights := (issueTile s k t w).flights.filter fun f => !(f.units.any fun u => u / 5 == o && !us.contains u) }
    
    let u := (if same then u0 else u0.retire k fun f => f.units.any fun u => u / 5 == o && !us.contains u).opeMode k o quad
    
    let v := u.view k t1 p us
    
    let fx := mmFx v w o
    (sound u k v w fx)) ∧
    (∃ k : CoreIx, ∃ s : State, ∃ t : Tile, ∃ p : Prog, ∃ w : Nat, (s.awake) ∧ (mayIssue s k 0x12 t p w) ∧ 
    let opes := (s.core k).fuseOpes w
    ((t.draining.any fun d => opes.contains d.1) = false) ∧ 
    let t1 := { issueTile s k t w with flights := (issueTile s k t w).flights.filter fun f =>
      !(f.units.any fun u => u == unitVec || (decide (u < unitMv) && opes.contains (u / 5))) }
    
    let u := opes.foldl (fun (u : State) o => u.opeMode k o false) ((issueState s k 0x12 t w).retire k fun f =>
      f.units.any fun u => u == unitVec || (decide (u < unitMv) && opes.contains (u / 5)))
    
    let v := u.view k t1 p ((s.core k).unitsOf w)
    
    let fx := fuseFx v w opes
    (sound u k v w fx)) :=
  ⟨⟨false, 0, atWord (word 0x10 (2 ^ 228)), tile1, program 0 (word 0x10 (2 ^ 228)), word 0x10 (2 ^ 228), rfl, (by unfold mayIssue; decide +kernel), (by decide +kernel), (by unfold sound; decide +kernel)⟩,
   ⟨0, written (atWord (word 0x12 0)), tile1, program 0 (word 0x12 0), word 0x12 0, rfl, (by unfold mayIssue; decide +kernel), (by decide +kernel), (by unfold sound; decide +kernel)⟩⟩

/-- The hypotheses of `Obligations.SequencerInstructions` can be met, clause by clause. -/
theorem witness_sequencerInstructions :
    (∃ s : State, ∃ k : CoreIx, ∃ t : Tile, ∃ p : Prog, ∃ w : Nat, (s.awake) ∧ (mayIssue s k 0 t p w)) ∧
    (∃ s : State, ∃ k : CoreIx, ∃ t : Tile, ∃ p : Prog, ∃ w : Nat, (s.awake) ∧ (mayIssue s k 0x32 t p w) ∧ (∀ o, s.syncObject t w = some o → o ≤ 16383)) ∧
    (∃ s : State, ∃ k : CoreIx, ∃ t : Tile, ∃ p : Prog, ∃ w : Nat, (s.awake) ∧ (mayIssue s k 0x33 t p w) ∧ (t.settled = true)) ∧
    (∃ s : State, ∃ k : CoreIx, ∃ t : Tile, ∃ o v side d h : Nat, (s.awake) ∧ ((s.core k).tile = some t) ∧ (t.wait = some (.sync o v side d h)) ∧ (s.coreWaitHolds k t o v side = true)) ∧
    (∃ s : State, ∃ k : CoreIx, ∃ t : Tile, ∃ p : Prog, ∃ w : Nat, (s.awake) ∧ (s.nextInstr k = some (t, p, w)) ∧ (phaseOk (s.core k).phase (opClass (iOp w)) = false) ∧ (t.settled = true) ∧ (t.wait = none) ∧ (t.subst = [])) ∧
    (∃ s : State, ∃ k : CoreIx, ∃ t : Tile, ∃ p : Prog, ∃ w : Nat, ∃ side hd, (s.awake) ∧ (s.nextInstr k = some (t, p, w)) ∧ (phaseOk (s.core k).phase (opClass (iOp w)) = false) ∧ (t.settled = true) ∧ (t.wait = none) ∧ (t.subst = [(side, hd, false)]) ∧ ((s.core k).phase = .load) ∧ (opClass (iOp w) = .compute) ∧ (haloBad p side (p.desc hd) = none) ∧ ((s.core k).tmPoison = [])) ∧
    (∃ s : State, ∃ k : CoreIx, ∃ o : Fin 8, ∃ q : Option (Fin 4), ∃ b : Bool, ∃ t : Tile, (s.awake) ∧ ((s.core k).tile = some t)) ∧
    (∃ s : State, ∃ k : CoreIx, ∃ t : Tile, ∃ o v side d h : Nat, ∃ c : Int, (s.awake) ∧ ((s.core k).tile = some t) ∧ (t.wait = some (.sync o v side d h)) ∧ (side ≠ 0) ∧ (s.web.completeGroup = some c) ∧ (t.g + (d : Int) ≤ c)) :=
  ⟨⟨atWord (word 0 0), 0, tile1, program 0 (word 0 0), word 0 0, rfl, (by unfold mayIssue; decide +kernel)⟩,
   ⟨atWord (word 0x32 0), 0, tile1, program 0 (word 0x32 0), word 0x32 0, rfl, (by unfold mayIssue; decide +kernel), by decide +kernel⟩,
   ⟨atWord (word 0x33 0), 0, tile1, program 0 (word 0x33 0), word 0x33 0, rfl, (by unfold mayIssue; decide +kernel), by decide +kernel⟩,
   ⟨coreAt (waiting (.sync 5 0 0 0 0)) (word 0x32 0), 0, waiting (.sync 5 0 0 0 0), 5, 0, 0, 0, 0, rfl, by decide +kernel⟩,
   ⟨(atWord (word 0x18 0)).modCore 0 (fun c => { c with phase := .writeout }), 0, tile1, program 0 (word 0x18 0), word 0x18 0, rfl, by decide +kernel⟩,
   ⟨(coreAt { tile1 with subst := [(1, 0, false)] } (word 0x18 0)).modCore 0 (fun c => { c with phase := .load }), 0, { tile1 with subst := [(1, 0, false)] }, program 0 (word 0x18 0), word 0x18 0, 1, 0, rfl, by decide +kernel⟩,
   ⟨atWord (word 0 0), 0, 0, none, false, tile1, rfl, by decide +kernel⟩,
   ⟨coreAt (waiting (.sync 5 7 1 0 0)) (word 0x32 0), 0, waiting (.sync 5 7 1 0 0), 5, 7, 1, 0, 0, 100, rfl, by decide +kernel⟩⟩

/-- The hypotheses of `coreHousekeeping` can be met, clause by clause. -/
theorem witness_coreHousekeeping :
    (∃ s : State, ∃ n : W32, ∃ tag : Nat, ∃ j : Job, ∃ w : WellTile, (s.awake) ∧ ((s.jobs.findSome? fun x => (x.2.tiles.find? fun w => w.insts.any fun i => i.tsn == n.toNat && i.lease).map fun w => (x.1, x.2, w)) = some (tag, j, w)) ∧ (s.jobOf tag = some j) ∧ (s.dev.state ≠ .hold) ∧ (∀ k t, (s.core k).tile = some t → t.tsn = n.toNat → t.holds = false) ∧ (w.won = none) ∧ (s.tileCancelled j w = false)) ∧
    (∃ s : State, ∃ k : CoreIx, (s.awake) ∧ (s.pwr.cores.getLsbD k = true)) ∧
    (∃ s : State, ∃ k : CoreIx, ∃ o : Fin 8, ∃ q : Option (Fin 4), (s.awake)) ∧
    (∃ s : State, ∃ k : CoreIx, ∃ v : W32, (s.wf = true) ∧ (s.awake) ∧ (s.dev.state.ready = true) ∧ (s.tmOpen k = true) ∧ (s.pwr.cores.getLsbD k = true) ∧ (s.reg (Reg.coreTmAddr k) + 4 ≤ 0x300000)) ∧
    (∃ s : State, ∃ k : CoreIx, ∃ v : Option W32, (s.wf = true) ∧ (s.awake) ∧ (s.dev.state.ready = true) ∧ (s.tmOpen k = false)) :=
  ⟨⟨leased, 1, 9, { job1 with tiles := [drawn1] }, drawn1, rfl, (by decide +kernel), (by decide +kernel), (by decide +kernel), (by intro k t h; rw [(show ∀ k : CoreIx, (leased.core k).tile = none from by decide +kernel) k] at h; cases h), by decide +kernel⟩,
   ⟨run, 0, rfl, by decide +kernel⟩,
   ⟨run, 0, 0, some 0, rfl⟩,
   ⟨run.modCore 0 (fun c => { c with parked := true }), 0, 5, (by decide +kernel), rfl, by decide +kernel⟩,
   ⟨run, 0, some 5, (by decide +kernel), rfl, by decide +kernel⟩⟩

/-- The hypotheses of `Obligations.TilesRunAndCommitOnce` can be met, clause by clause. -/
theorem witness_tilesRunAndCommitOnce :
    (∃ s : State, ∃ k : CoreIx, ∃ tag : Nat, ∃ j : Job, (s.awake) ∧ (s.dev.state.live = true) ∧ (s.coreInService k = true) ∧ ((s.core k).tile = none) ∧ ((s.core k).job = none) ∧ (s.odFlag (Od.corePark k) = false) ∧ (s.trimHolds k = false) ∧ (s.dispatchChoice k = some tag) ∧ (s.jobOf tag = some j) ∧ 
    let held := (s.core k).prog.map Prod.fst = some tag
    
    let p := s.readProgram j.prog
    (held)) ∧
    (∃ s : State, ∃ k : CoreIx, ∃ tag : Nat, ∃ j : Job, (s.awake) ∧ (s.dev.state.live = true) ∧ (s.coreInService k = true) ∧ ((s.core k).tile = none) ∧ ((s.core k).job = none) ∧ (s.odFlag (Od.corePark k) = false) ∧ (s.trimHolds k = false) ∧ (s.dispatchChoice k = some tag) ∧ (s.jobOf tag = some j) ∧ 
    let held := (s.core k).prog.map Prod.fst = some tag
    
    let p := s.readProgram j.prog
    (¬ held) ∧ (s.checkProgram p = none)) ∧
    (∃ s : State, ∃ k : CoreIx, ∃ tag : Nat, ∃ p : Prog, ∃ j : Job, ∃ g : Int, ∃ p2 : Bool, ∃ st : Nat, ∃ re : Bool, (s.awake) ∧ ((s.core k).job = some tag) ∧ ((s.core k).prog = some (tag, p)) ∧ ((s.core k).tile = none) ∧ (s.fixFirst.jobOf tag = some j) ∧ (s.fixFirst.mayDraw k j = true) ∧ (s.fixFirst.jobOffer j = some (g, p2, st, re))) ∧
    (∃ s : State, ∃ k : CoreIx, ∃ t : Tile, ∃ p : Prog, ∃ w : Nat, (s.awake) ∧ (mayIssue s k 1 t p w) ∧ 
    let n := bits w 213 198 + 1
    
    let dst := (State.xferRows t p w 0).map fun r => (r.1, 0)
    
    let t1 := issueTile s k t w
    
    let u := issueState s k 1 t w
    
    let landed := fun (rows : List (Nat × List Byte)) (r : State) =>
      (r.core k).tm = rows.foldl (fun m x => putLoaded m (haloRanges p t1) x.1 x.2) (s.core k).tm ∧
      (r.core k).tile = some { t1 with pc := t.pc + 1, wait := none, flights := t1.flights ++
      [⟨t.pc, iGroups w, [unitPort], rows.map fun x => (x.1, x.2.length), p.filled (rows.map fun x => (x.1, 0)) n, false⟩] } ∧
      ∀ j, j ≠ k → r.core j = s.core j
    (u.residentHit k t1 dst n = true)) ∧
    (∃ s : State, ∃ k : CoreIx, ∃ t : Tile, ∃ p : Prog, ∃ w : Nat, (s.awake) ∧ (mayIssue s k 1 t p w) ∧ 
    let n := bits w 213 198 + 1
    
    let dst := (State.xferRows t p w 0).map fun r => (r.1, 0)
    
    let t1 := issueTile s k t w
    
    let u := issueState s k 1 t w
    
    let landed := fun (rows : List (Nat × List Byte)) (r : State) =>
      (r.core k).tm = rows.foldl (fun m x => putLoaded m (haloRanges p t1) x.1 x.2) (s.core k).tm ∧
      (r.core k).tile = some { t1 with pc := t.pc + 1, wait := none, flights := t1.flights ++
      [⟨t.pc, iGroups w, [unitPort], rows.map fun x => (x.1, x.2.length), p.filled (rows.map fun x => (x.1, 0)) n, false⟩] } ∧
      ∀ j, j ≠ k → r.core j = s.core j
    (u.residentHit k t1 dst n = false) ∧ (bits w 215 214 = 1) ∧ (s.oasisPoison = []) ∧ (∀ m ∈ webLines s t w, ∀ c ∈ webCols s t w, ∀ q, webCam s c = some q →
    ofLeBytes (s.readOasis (s.fsReg q Reg.fsTagBase + 16 * slotOf m (s.fsReg q Reg.fsRingSlots)) 6) = mod48 (m * (max 1 s.fa : Nat)))) ∧
    (∃ s : State, ∃ k : CoreIx, ∃ t : Tile, ∃ p : Prog, ∃ w : Nat, (s.awake) ∧ (mayIssue s k 1 t p w) ∧ 
    let n := bits w 213 198 + 1
    
    let dst := (State.xferRows t p w 0).map fun r => (r.1, 0)
    
    let t1 := issueTile s k t w
    
    let u := issueState s k 1 t w
    
    let landed := fun (rows : List (Nat × List Byte)) (r : State) =>
      (r.core k).tm = rows.foldl (fun m x => putLoaded m (haloRanges p t1) x.1 x.2) (s.core k).tm ∧
      (r.core k).tile = some { t1 with pc := t.pc + 1, wait := none, flights := t1.flights ++
      [⟨t.pc, iGroups w, [unitPort], rows.map fun x => (x.1, x.2.length), p.filled (rows.map fun x => (x.1, 0)) n, false⟩] } ∧
      ∀ j, j ≠ k → r.core j = s.core j
    (u.residentHit k t1 dst n = false) ∧ (bits w 215 214 ≠ 1) ∧ (xferStripe t w < 0 ∨ (s.stripes : Int) ≤ xferStripe t w)) ∧
    (∃ s : State, ∃ k : CoreIx, ∃ t : Tile, ∃ p : Prog, ∃ w : Nat, (s.awake) ∧ (mayIssue s k 1 t p w) ∧ 
    let n := bits w 213 198 + 1
    
    let dst := (State.xferRows t p w 0).map fun r => (r.1, 0)
    
    let t1 := issueTile s k t w
    
    let u := issueState s k 1 t w
    
    let landed := fun (rows : List (Nat × List Byte)) (r : State) =>
      (r.core k).tm = rows.foldl (fun m x => putLoaded m (haloRanges p t1) x.1 x.2) (s.core k).tm ∧
      (r.core k).tile = some { t1 with pc := t.pc + 1, wait := none, flights := t1.flights ++
      [⟨t.pc, iGroups w, [unitPort], rows.map fun x => (x.1, x.2.length), p.filled (rows.map fun x => (x.1, 0)) n, false⟩] } ∧
      ∀ j, j ≠ k → r.core j = s.core j
    (u.residentHit k t1 dst n = false) ∧ (bits w 215 214 ≠ 1) ∧ (0 ≤ xferStripe t w) ∧ (xferStripe t w < s.stripes) ∧ 
    let base := ((s.argSpan t.tag (dArg (p.desc (bits w 231 224)))).map Prod.fst).getD 0
    
    let rows := State.xferRows t p w base
    
    let x := u.pubNeed rows n (xferGroup t w)
    (s.xferBad t p w = none) ∧ (s.mcastOf t.tag (dArg (p.desc (bits w 231 224))) = none) ∧ (x.fetchReady t1 rows n (xferGroup t w) = true) ∧ (∀ q ∈ rows, x.oasisPoisoned q.2 n = false)) ∧
    (∃ s : State, ∃ k : CoreIx, ∃ t : Tile, ∃ p : Prog, ∃ w : Nat, (s.awake) ∧ (mayIssue s k 2 t p w) ∧ (t.commit = .won) ∧ 
    let n := bits w 213 198 + 1
    
    let t1 := issueTile s k t w
    
    let u := issueState s k 2 t w
    
    let rows := State.xferRows t p w (((s.argSpan t.tag (dArg (p.desc (bits w 231 224)))).map Prod.fst).getD 0)
    (xferStripe t w < 0 ∨ (s.stripes : Int) ≤ xferStripe t w)) ∧
    (∃ s : State, ∃ k : CoreIx, ∃ t : Tile, ∃ p : Prog, ∃ w : Nat, (s.awake) ∧ (mayIssue s k 2 t p w) ∧ (t.commit = .won) ∧ 
    let n := bits w 213 198 + 1
    
    let t1 := issueTile s k t w
    
    let u := issueState s k 2 t w
    
    let rows := State.xferRows t p w (((s.argSpan t.tag (dArg (p.desc (bits w 231 224)))).map Prod.fst).getD 0)
    (0 ≤ xferStripe t w) ∧ (xferStripe t w < s.stripes) ∧ (∀ i x, s.storeStream t p w = some (i, x) → u.storeHeld t1 x (xferGroup t w) = false)) ∧
    (∃ s : State, ∃ k : CoreIx, ∃ t : Tile, ∃ p : Prog, ∃ w : Nat, ∃ j : Job, (s.awake) ∧ (mayIssue s k 0x31 t p w) ∧ (s.commitFault t p = none) ∧ (s.jobOf t.tag = some j)) ∧
    (∃ s : State, ∃ k : CoreIx, ∃ t : Tile, ∃ tag : Nat, ∃ p : Prog, ∃ j : Job, (s.awake) ∧ ((s.core k).tile = some t) ∧ ((s.core k).prog = some (tag, p)) ∧ (Prog.instrCount p ≤ t.pc) ∧ (t.settled = true) ∧ (t.commit = .won) ∧ (s.groupDone t.g 8 = false) ∧ (s.jobOf t.tag = some j)) :=
  ⟨⟨jobRuns.modCore 0 (fun c => { c with prog := some (9, program 0 0) }), 0, 9, job1, rfl, by decide +kernel⟩,
   ⟨jobRuns.writeOasis 0 (program (word 0x30 0) (word 0x31 (2 ^ 245))), 0, 9, job1, rfl, by decide +kernel⟩,
   ⟨jobRuns.modCore 0 (fun c => { c with job := some 9, prog := some (9, program 0 0) }), 0, 9, program 0 0, job1, 93, false, 0, false, rfl, by decide +kernel⟩,
   ⟨(atTransfer (word 1 0)).modCore 0 (fun c => { c with resident := [(9, 0, 64)] }), 0, tile1, program 0 (word 1 0), word 1 0, rfl, (by unfold mayIssue; decide +kernel), by decide +kernel⟩,
   ⟨atTransfer (word 1 (2 ^ 214)), 0, tile1, program 0 (word 1 (2 ^ 214)), word 1 (2 ^ 214), rfl, (by unfold mayIssue; decide +kernel), by decide +kernel⟩,
   ⟨atTransfer (word 1 (2 ^ 185)), 0, tile1, program 0 (word 1 (2 ^ 185)), word 1 (2 ^ 185), rfl, (by unfold mayIssue; decide +kernel), by decide +kernel⟩,
   ⟨atTransfer (word 1 0), 0, tile1, program 0 (word 1 0), word 1 0, rfl, (by unfold mayIssue; decide +kernel), by decide +kernel⟩,
   ⟨coreAt { tile1 with commit := .won } (word 2 (2 ^ 185)), 0, { tile1 with commit := .won }, program 0 (word 2 (2 ^ 185)), word 2 (2 ^ 185), rfl, (by unfold mayIssue; decide +kernel), by decide +kernel⟩,
   ⟨coreAt { tile1 with commit := .won } (word 2 0), 0, { tile1 with commit := .won }, program 0 (word 2 0), word 2 0, rfl, (by unfold mayIssue; decide +kernel), (by decide +kernel), (by decide +kernel), (by decide +kernel), (by intro i x h; rw [show State.storeStream _ _ _ _ = none from by decide +kernel] at h; cases h)⟩,
   ⟨atWord (word 0x31 0), 0, tile1, program 0 (word 0x31 0), word 0x31 0, job1, rfl, (by unfold mayIssue; decide +kernel), by decide +kernel⟩,
   ⟨coreAt { tile1 with pc := 2, commit := .won } 0, 0, { tile1 with pc := 2, commit := .won }, 9, program 0 0, job1, rfl, by decide +kernel⟩⟩

/-- The hypotheses of `Obligations.ContextInstructions` can be met, clause by clause. -/
theorem witness_contextInstructions :
    (∃ s : State, ∃ k : CoreIx, ∃ op : Nat, ∃ u : State, ∃ t : Tile, ∃ p : Prog, ∃ o : CtxOp, (s.awake) ∧ (ctxRuns s k op u t p o) ∧ 
    let w := o.word
    
    let v := u.ctxView k t p o
    
    let dk := p.desc (bits w 224 217)
    
    let dv := p.desc (bits w 216 209)
    
    let n := bits w 208 196 + 1
    (op = 0) ∧ 
    let reqs := u.ctxRequests v w
    
    let fx := u.lookupFx v w reqs
    
    let held := reqs.any fun r => r.addr.any fun a => s.dramHeld a 64
    (held = false) ∧ (ctxSound u k v o fx)) ∧
    (∃ s : State, ∃ k : CoreIx, ∃ op : Nat, ∃ u : State, ∃ t : Tile, ∃ p : Prog, ∃ o : CtxOp, (s.awake) ∧ (ctxRuns s k op u t p o) ∧ 
    let w := o.word
    
    let v := u.ctxView k t p o
    
    let dk := p.desc (bits w 224 217)
    
    let dv := p.desc (bits w 216 209)
    
    let n := bits w 208 196 + 1
    (op = 0) ∧ 
    let reqs := u.ctxRequests v w
    
    let fx := u.lookupFx v w reqs
    
    let held := reqs.any fun r => r.addr.any fun a => s.dramHeld a 64
    (held = true)) ∧
    (∃ s : State, ∃ k : CoreIx, ∃ op : Nat, ∃ u : State, ∃ t : Tile, ∃ p : Prog, ∃ o : CtxOp, (s.awake) ∧ (ctxRuns s k op u t p o) ∧ 
    let w := o.word
    
    let v := u.ctxView k t p o
    
    let dk := p.desc (bits w 224 217)
    
    let dv := p.desc (bits w 216 209)
    
    let n := bits w 208 196 + 1
    (op = 1) ∧ 
    let reqs := u.ctxRequests v w
    
    let fx := (v.fx.slotCheck v [dv]).count (v.counts true dv (List.range 48) (reqs.map fun r => r.i))
    
    let all := reqs.filterMap fun r => r.addr.map fun a => Staged.update
      { p := bits w 227 225, addr := a, lsn := r.w, vec := (List.range 48).map fun c => (v.x24 dv c r.i).toRat, alpha := (fmtBf16.decode (bits w 195 180)).toRat }
    (ctxSound u k v o fx)) ∧
    (∃ s : State, ∃ k : CoreIx, ∃ op : Nat, ∃ u : State, ∃ t : Tile, ∃ p : Prog, ∃ o : CtxOp, (s.awake) ∧ (ctxRuns s k op u t p o) ∧ 
    let w := o.word
    
    let v := u.ctxView k t p o
    
    let dk := p.desc (bits w 224 217)
    
    let dv := p.desc (bits w 216 209)
    
    let n := bits w 208 196 + 1
    (op = 3) ∧ (ctxSound u k v o v.fx)) ∧
    (∃ s : State, ∃ k : CoreIx, ∃ op : Nat, ∃ u : State, ∃ t : Tile, ∃ p : Prog, ∃ o : CtxOp, (s.awake) ∧ (ctxRuns s k op u t p o) ∧ 
    let w := o.word
    
    let v := u.ctxView k t p o
    
    let dk := p.desc (bits w 224 217)
    
    let dv := p.desc (bits w 216 209)
    
    let n := bits w 208 196 + 1
    (op = 4) ∧ (ctxSound u k v o v.fx)) ∧
    (∃ s : State, ∃ k : CoreIx, ∃ op : Nat, ∃ u : State, ∃ t : Tile, ∃ p : Prog, ∃ o : CtxOp, ∃ x, (s.awake) ∧ (ctxRuns s k op u t p o) ∧ 
    let w := o.word
    
    let v := u.ctxView k t p o
    
    let dk := p.desc (bits w 224 217)
    
    let dv := p.desc (bits w 216 209)
    
    let n := bits w 208 196 + 1
    (op = 2) ∧ (s.stateReady t o.deadline = some x) ∧ (s.stateHeld t x.2 = false) ∧ (ctxSound u k v o (stateFx u k t p o x))) ∧
    (∃ s : State, ∃ k : CoreIx, ∃ op : Nat, ∃ u : State, ∃ t : Tile, ∃ p : Prog, ∃ o : CtxOp, (s.awake) ∧ (ctxRuns s k op u t p o) ∧ 
    let w := o.word
    
    let v := u.ctxView k t p o
    
    let dk := p.desc (bits w 224 217)
    
    let dv := p.desc (bits w 216 209)
    
    let n := bits w 208 196 + 1
    (op = 2) ∧ (s.stateReady t o.deadline = none) ∧ (s.groupDone t.g o.deadline = true) ∧ (s.stateHeld t (s.stateOld t o.deadline).2 = false) ∧ (ctxSound u k v o (stateFx u k t p o (s.stateOld t o.deadline)))) ∧
    (∃ s : State, ∃ k : CoreIx, ∃ op : Nat, ∃ u : State, ∃ t : Tile, ∃ p : Prog, ∃ o : CtxOp, (s.awake) ∧ (ctxRuns s k op u t p o) ∧ 
    let w := o.word
    
    let v := u.ctxView k t p o
    
    let dk := p.desc (bits w 224 217)
    
    let dv := p.desc (bits w 216 209)
    
    let n := bits w 208 196 + 1
    (op = 2) ∧ (∀ x, s.stateReady t o.deadline = some x → s.stateHeld t x.2 = true) ∧ (s.stateReady t o.deadline = none → s.groupDone t.g o.deadline = true → s.stateHeld t (s.stateOld t o.deadline).2 = true)) ∧
    (∃ s : State, ∃ k : CoreIx, ∃ op : Nat, ∃ u : State, ∃ t : Tile, ∃ p : Prog, ∃ o : CtxOp, (s.awake) ∧ (ctxRuns s k op u t p o) ∧ 
    let w := o.word
    
    let v := u.ctxView k t p o
    
    let dk := p.desc (bits w 224 217)
    
    let dv := p.desc (bits w 216 209)
    
    let n := bits w 208 196 + 1
    (op = 5) ∧ 
    let g := t.g - (s.od Od.tokTokLag : Int)
    
    let reqs := ((List.range n).filter (v.on dk)).map fun i => (i, v.code dk 0 i)
    
    let held := reqs.any fun r => s.tokStatus g r.2 == 0 && s.dramHeld (s.tokAddr g r.2) (s.od Od.tokTokBytes)
    
    let ready := !held && ((reqs.all fun r => s.tokStatus g r.2 != 1) || s.tokClosed g)
    
    let seen := reqs.foldl (fun (x : State) r => if s.tokStatus g r.2 = 0 then x.dramSeen (s.tokAddr g r.2) (s.od Od.tokTokBytes) false else x) u
    
    let v' := seen.ctxView k t p o
    
    let fx := reqs.foldl (fun (f : Fx) q =>
      (f.bytes (dBase dv + q.1 * s.od Od.tokTokBytes) (if s.tokStatus g q.2 = 0 then s.readDram (s.tokAddr g q.2) (s.od Od.tokTokBytes)
      else List.replicate (s.od Od.tokTokBytes) 0)).code v' dk 1 q.1 (s.tokStatus g q.2)) v'.fx
    (ready = true) ∧ (ctxSound u k v o fx)) ∧
    (∃ s : State, ∃ k : CoreIx, ∃ op : Nat, ∃ u : State, ∃ t : Tile, ∃ p : Prog, ∃ o : CtxOp, (s.awake) ∧ (ctxRuns s k op u t p o) ∧ 
    let w := o.word
    
    let v := u.ctxView k t p o
    
    let dk := p.desc (bits w 224 217)
    
    let dv := p.desc (bits w 216 209)
    
    let n := bits w 208 196 + 1
    (op = 5) ∧ 
    let g := t.g - (s.od Od.tokTokLag : Int)
    
    let reqs := ((List.range n).filter (v.on dk)).map fun i => (i, v.code dk 0 i)
    
    let held := reqs.any fun r => s.tokStatus g r.2 == 0 && s.dramHeld (s.tokAddr g r.2) (s.od Od.tokTokBytes)
    
    let ready := !held && ((reqs.all fun r => s.tokStatus g r.2 != 1) || s.tokClosed g)
    
    let seen := reqs.foldl (fun (x : State) r => if s.tokStatus g r.2 = 0 then x.dramSeen (s.tokAddr g r.2) (s.od Od.tokTokBytes) false else x) u
    
    let v' := seen.ctxView k t p o
    
    let fx := reqs.foldl (fun (f : Fx) q =>
      (f.bytes (dBase dv + q.1 * s.od Od.tokTokBytes) (if s.tokStatus g q.2 = 0 then s.readDram (s.tokAddr g q.2) (s.od Od.tokTokBytes)
      else List.replicate (s.od Od.tokTokBytes) 0)).code v' dk 1 q.1 (s.tokStatus g q.2)) v'.fx
    (ready = false)) ∧
    (∃ s : State, ∃ k : CoreIx, ∃ t : Tile, ∃ p : Prog, ∃ o : CtxOp, ∃ tag : Nat, ∃ rest : List CtxOp, (s.awake) ∧ ((s.core k).tile = some t) ∧ ((s.core k).prog = some (tag, p)) ∧ (t.ctxq = o :: rest) ∧ (bits o.word 231 228 = 2) ∧ (s.groupDone t.g o.deadline = true) ∧ 
    let x := (s.stateReady t o.deadline).getD (s.stateOld t o.deadline)
    (s.stateHeld t x.2 = false) ∧ (ctxSound s k (s.ctxView k t p o) o (stateFx s k t p o x))) :=
  ⟨⟨ctxAt 0 4, 0, 0, ctxAt 0 4, ctxTile1 0 4, program 0 (word 0 0), ctxOp1 0 4, rfl, ctx_at (t := ctxTile1 0 4) (w := word 0 0) (by decide +kernel) (by decide +kernel) rfl (by decide +kernel) (by decide +kernel) (by decide +kernel), (by decide +kernel), (by decide +kernel), (by unfold ctxSound; decide +kernel)⟩,
   ⟨lookupHeld, 0, 0, lookupHeld, ctxTile1 0 4, program 0 (word 0 0), ctxOp1 0 4, rfl, ctx_at (t := ctxTile1 0 4) (w := word 0 0) (by decide +kernel) (by decide +kernel) rfl (by decide +kernel) (by decide +kernel) (by decide +kernel), by decide +kernel⟩,
   ⟨ctxAt 1 4, 0, 1, ctxAt 1 4, ctxTile1 1 4, program 0 (word 0 0), ctxOp1 1 4, rfl, ctx_at (t := ctxTile1 1 4) (w := word 0 0) (by decide +kernel) (by decide +kernel) rfl (by decide +kernel) (by decide +kernel) (by decide +kernel), (by decide +kernel), (by unfold ctxSound; decide +kernel)⟩,
   ⟨ctxAt 3 4, 0, 3, ctxAt 3 4, ctxTile1 3 4, program 0 (word 0 0), ctxOp1 3 4, rfl, ctx_at (t := ctxTile1 3 4) (w := word 0 0) (by decide +kernel) (by decide +kernel) rfl (by decide +kernel) (by decide +kernel) (by decide +kernel), (by decide +kernel), (by unfold ctxSound; decide +kernel)⟩,
   ⟨ctxAt 4 4, 0, 4, ctxAt 4 4, ctxTile1 4 4, program 0 (word 0 0), ctxOp1 4 4, rfl, ctx_at (t := ctxTile1 4 4) (w := word 0 0) (by decide +kernel) (by decide +kernel) rfl (by decide +kernel) (by decide +kernel) (by decide +kernel), (by decide +kernel), (by unfold ctxSound; decide +kernel)⟩,
   ⟨{ ctxAt 2 4 with ctx := { late.ctx with stored := [⟨99, 0, false, some 99⟩] } }, 0, 2, { ctxAt 2 4 with ctx := { late.ctx with stored := [⟨99, 0, false, some 99⟩] } }, ctxTile1 2 4, program 0 (word 0 0), ctxOp1 2 4, ([], 1), rfl, ctx_at (t := ctxTile1 2 4) (w := word 0 0) (by decide +kernel) (by decide +kernel) rfl (by decide +kernel) (by decide +kernel) (by decide +kernel), (by decide +kernel), (by decide +kernel), (by decide +kernel), (by unfold ctxSound; decide +kernel)⟩,
   ⟨ctxAt 2 0, 0, 2, ctxAt 2 0, ctxTile1 2 0, program 0 (word 0 0), ctxOp1 2 0, rfl, ctx_at (t := ctxTile1 2 0) (w := word 0 0) (by decide +kernel) (by decide +kernel) rfl (by decide +kernel) (by decide +kernel) (by decide +kernel), (by decide +kernel), (by decide +kernel), (by decide +kernel), (by decide +kernel), (by unfold ctxSound; decide +kernel)⟩,
   ⟨stateWaits, 0, 2, stateWaits, ctxTile1 2 4, program 0 (word 0 0), ctxOp1 2 4, rfl, ctx_at (t := ctxTile1 2 4) (w := word 0 0) (by decide +kernel) (by decide +kernel) rfl (by decide +kernel) (by decide +kernel) (by decide +kernel), (by decide +kernel), (by intro x h; rw [show State.stateReady _ _ _ = some ([], 1) from by decide +kernel] at h; cases h; decide +kernel), by decide +kernel⟩,
   ⟨{ (written (ctxAt 5 4)).setOd Od.tokTokLag 64 with ctx := { late.ctx with tokens := [⟨36, [], true, true⟩] } }, 0, 5, { (written (ctxAt 5 4)).setOd Od.tokTokLag 64 with ctx := { late.ctx with tokens := [⟨36, [], true, true⟩] } }, ctxTile1 5 4, program 0 (word 0 0), ctxOp1 5 4, rfl, ctx_at (t := ctxTile1 5 4) (w := word 0 0) (by decide +kernel) (by decide +kernel) rfl (by decide +kernel) (by decide +kernel) (by decide +kernel), (by decide +kernel), (by decide +kernel), (by unfold ctxSound; decide +kernel)⟩,
   ⟨((written (ctxAt 5 4)).setOd Od.tokTokPerStripe 4).setOd Od.tokTokTotal 4, 0, 5, ((written (ctxAt 5 4)).setOd Od.tokTokPerStripe 4).setOd Od.tokTokTotal 4, ctxTile1 5 4, program 0 (word 0 0), ctxOp1 5 4, rfl, ctx_at (t := ctxTile1 5 4) (w := word 0 0) (by decide +kernel) (by decide +kernel) rfl (by decide +kernel) (by decide +kernel) (by decide +kernel), by decide +kernel⟩,
   ⟨ctxAt 2 0, 0, ctxTile1 2 0, program 0 (word 0 0), ctxOp1 2 0, 9, [], rfl, (by decide +kernel), (by decide +kernel), (by decide +kernel), (by decide +kernel), (by decide +kernel), (by decide +kernel), (by unfold ctxSound; decide +kernel)⟩⟩

/-- The hypotheses of `tokenSlots` can be met, clause by clause. -/
theorem witness_tokenSlots :
    (∃ s : State, ∃ g : Int, (s.awake) ∧ (s.od Od.tokTokPerStripe ≠ 0) ∧ (s.groupDone g (s.od Od.tokTokDeadline) = true) ∧ (s.groupDone g 16 = false) ∧ (s.tokClosed g = false)) ∧
    (∃ s : State, ∃ g : Int, (s.awake) ∧ (s.od Od.tokTokPerStripe * s.stripes ≠ 0) ∧ (∀ x, s.tokSlot g = some x → x.sent = false) ∧ (s.groupDone g 16 = false) ∧ (s.groupCommitted g = true ∧ s.tokensWait g = false ∨ s.groupDone g (s.od Od.tokTokDeadline) = true)) :=
  ⟨⟨late.setOd Od.tokTokPerStripe 4, 96, rfl, by decide +kernel⟩,
   ⟨late.setOd Od.tokTokPerStripe 4, 96, rfl, (by decide +kernel), (by intro x h; rw [show State.tokSlot _ _ = none from by decide +kernel] at h; cases h), by decide +kernel⟩⟩

/-- The hypotheses of `Obligations.ContextStoreAndTokenSlots` can be met, clause by clause. -/
theorem witness_contextStoreAndTokenSlots :
    (∃ s : State, ∃ b : CtxBatch, ∃ rest : List CtxBatch, (s.awake) ∧ (s.ctx.batches = b :: rest) ∧ (b.effects.any (s.effectHeld b) = true)) ∧
    (∃ s : State, ∃ b : CtxBatch, ∃ rest : List CtxBatch, (s.awake) ∧ (s.ctx.batches = b :: rest) ∧ (b.effects.any (s.effectHeld b) = false)) ∧
    (∃ s : State, ∃ b : CtxBatch, ∃ rest : List CtxBatch, ∃ bs : List Byte, (s.awake) ∧ (s.ctx.batches = b :: rest) ∧ (b.effects = [.state bs]) ∧ (s.effectHeld b (.state bs) = false)) ∧
    (∃ s : State, ∃ b : CtxBatch, ∃ rest : List CtxBatch, ∃ bs : List Byte, (s.awake) ∧ (s.ctx.batches = b :: rest) ∧ (b.effects = [.tokens bs]) ∧ (s.effectHeld b (.tokens bs) = false) ∧ (s.tokClosed b.g = false) ∧ (0 < s.od Od.tokTokBytes)) ∧
    (∃ s : State, ∃ v : W32, (s.awake) ∧ (s.dev.state.ready = true) ∧ (s.dev.state ≠ .safe)) ∧
    (∃ s : State, (s.awake) ∧ (s.ctx.clearing ≠ 0)) :=
  ⟨⟨channelsOut { late with ctx := { late.ctx with batches := [batch1] } }, batch1, [], rfl, by decide +kernel⟩,
   ⟨{ late with ctx := { late.ctx with batches := [batch1] } }, batch1, [], rfl, by decide +kernel⟩,
   ⟨{ late with ctx := { late.ctx with batches := [{ batch1 with effects := [.state [1, 2]] }] } }, { batch1 with effects := [.state [1, 2]] }, [], [1, 2], rfl, by decide +kernel⟩,
   ⟨({ late with ctx := { late.ctx with batches := [{ batch1 with effects := [.tokens [1, 2]] }] } } : State).setOd Od.tokTokBytes 64, { batch1 with effects := [.tokens [1, 2]] }, [], [1, 2], rfl, by decide +kernel⟩,
   ⟨preop, 5, rfl, by decide +kernel⟩,
   ⟨{ run with ctx := { run.ctx with clearing := 5 } }, rfl, by decide +kernel⟩⟩

/-- The hypotheses of `Obligations.DetectionRuns` can be met, clause by clause. -/
theorem witness_detectionRuns :
    (∃ s : State, ∃ k : CoreIx, ∃ t : Tile, ∃ p : Prog, ∃ w : Nat, (s.wf = true) ∧ (s.awake) ∧ (mayIssue s k 0x21 t p w) ∧ 
    let d := p.desc (bits w 227 220)
    
    let t1 := issueTile s k t w
    
    let u := issueState s k 0x21 t w
    
    let v := u.view k t1 p [unitDet]
    
    let fx := (v.fx.slotCheck v [d]).count (v.counts false d (List.range (dC d)) (List.range (bits w 211 196 + 1)))
    (sound u k v w fx)) ∧
    (∃ s : State, ∃ g : Int, ∃ d : DetSlot, (s.awake) ∧ ((s.det.slots.find? fun d => d.g == g && !d.part2) = some d ∨
    ((s.det.slots.find? fun d => d.g == g && !d.part2) = none ∧ (s.det.slots.find? fun d => d.g == g && d.part2) = some d)) ∧ (d.kept = none) ∧ (s.maySuppress g d.part2 = true)) ∧
    (∃ s : State, ∃ g : Int, ∃ d : DetSlot, ∃ kept : List Box, (s.awake) ∧ ((s.det.slots.find? fun d => d.g == g && d.kept.isSome) = some d) ∧ (d.kept = some kept) ∧ (s.groupDone g 2 = true)) :=
  ⟨⟨atWord (word 0x21 0), 0, tile1, program 0 (word 0x21 0), word 0x21 0, (by decide +kernel), rfl, (by unfold mayIssue; decide +kernel), (by unfold sound; decide +kernel)⟩,
   ⟨{ late with det := { late.det with slots := [det1 none] } }, 100, det1 none, rfl, by decide +kernel⟩,
   ⟨{ doneTo 110 with det := { late.det with slots := [det1 (some [box1])] } }, 100, det1 (some [box1]), [box1], rfl, by decide +kernel⟩⟩

/-- The hypotheses of `Obligations.LinkTraining` can be met, clause by clause. -/
theorem witness_linkTraining :
    (∃ s : State, ∃ l : LinkIx, (s.awake) ∧ (s.pwr.engines.getLsbD (4 + l.val) = true) ∧ ((s.link l).state = .down) ∧ (s.odFlag (Od.linkLinkEnable l) = true) ∧ (s.dev.state.ready = true) ∧ (s.dev.state ≠ .safe) ∧ ((s.trim.running.any fun x => x.kind == 3 && x.unit == l.val) = false)) ∧
    (∃ s : State, ∃ l : LinkIx, ∃ lanes : BitVec 8, (s.awake) ∧ ((s.link l).light = true) ∧ (lanes ≠ 0) ∧ ((s.link l).state = .lock)) ∧
    (∃ s : State, ∃ l : LinkIx, (s.awake) ∧ ((s.link l).state = .align)) ∧
    (∃ s : State, ∃ l : LinkIx, (s.awake) ∧ ((s.link l).negotiates = true)) ∧
    (∃ s : State, ∃ l : LinkIx, ∃ m : List Byte, (s.awake) ∧ ((s.link l).negotiates = true) ∧ (m.length = 64) ∧ (byteAt m 0 = 1) ∧ (byteAt m 1 % 2 = 1) ∧ (byteAt m 1 / 8 = 0) ∧ (byteAt m 3 = 1) ∧ (byteAt m 5 % 4 = 0) ∧ (fieldAt m 6 2 = 0x7480) ∧ (zeroAt m 8 56 = true)) ∧
    (∃ s : State, ∃ l : LinkIx, ∃ m : List Byte, (s.wf = true) ∧ (s.awake) ∧ ((s.link l).negotiates = true) ∧ (m.length = 64) ∧ (byteAt m 0 % 4 ≠ 1 ∨ byteAt m 0 / 4 ≠ 0 ∨ byteAt m 1 / 8 ≠ 0 ∨ byteAt m 3 / 2 ≠ 0 ∨ byteAt m 5 % 4 ≠ 0 ∨ zeroAt m 8 56 = false)) ∧
    (∃ s : State, ∃ l : LinkIx, (s.wf = true) ∧ (s.awake) ∧ ((s.link l).state = .lock ∨ (s.link l).state = .align ∨ (s.link l).state = .negotiate)) ∧
    (∃ s : State, ∃ l : LinkIx, (s.awake) ∧ ((s.link l).state = .failed)) ∧
    (∃ s : State, ∃ l : LinkIx, (s.wf = true) ∧ (s.awake) ∧ ((s.link l).state = .retrain)) ∧
    (∃ s : State, ∃ l : LinkIx, ∃ lane : Fin 8, (s.awake) ∧ ((s.link l).state = .linked) ∧ ((s.link l).active.getLsbD lane = true)) ∧
    (∃ s : State, ∃ l : LinkIx, ∃ v : W32, (s.awake) ∧ (s.dev.state.ready = true) ∧ (v.getLsbD 0 = true) ∧ ((s.link l).state = .linked)) :=
  ⟨⟨(run.setOd (Od.linkLinkEnable 0) 1), 0, rfl, by decide +kernel⟩,
   ⟨onLink fun l => { l with state := .lock, light := true }, 0, 255, rfl, by decide +kernel⟩,
   ⟨linkIn .align, 0, rfl, by decide +kernel⟩,
   ⟨linkIn .negotiate, 0, rfl, by decide +kernel⟩,
   ⟨linkIn .negotiate, 0, training1, rfl, by decide +kernel⟩,
   ⟨linkIn .negotiate, 0, [1, 9, 255, 1, 0, 0, 0x80, 0x74] ++ List.replicate 56 0, (by decide +kernel), rfl, by decide +kernel⟩,
   ⟨linkIn .align, 0, (by decide +kernel), rfl, by decide +kernel⟩,
   ⟨linkIn .failed, 0, rfl, by decide +kernel⟩,
   ⟨linkIn .retrain, 0, (by decide +kernel), rfl, by decide +kernel⟩,
   ⟨onLink fun l => { l with state := .linked, active := 255 }, 0, 7, rfl, by decide +kernel⟩,
   ⟨linkIn .linked, 0, 1, rfl, by decide +kernel⟩⟩

/-- The hypotheses of `Obligations.FlitsAndReplay` can be met, clause by clause. -/
theorem witness_flitsAndReplay :
    (∃ s : State, ∃ l : LinkIx, ∃ f : List Byte, (s.awake) ∧ ((s.link l).state = .linked) ∧ (f.length = 256) ∧ ((crc32 (f.take 252)).toNat = fieldAt f 252 4) ∧ (fieldAt f 0 2 = (s.link l).rxSeq) ∧ (bitAt (byteAt f 6) 0 = false ∨ (s.link l).replay = [])) ∧
    (∃ s : State, ∃ l : LinkIx, ∃ f : List Byte, (s.awake) ∧ ((s.link l).state = .linked) ∧ (f.length = 256) ∧ ((crc32 (f.take 252)).toNat ≠ fieldAt f 252 4 ∨ fieldAt f 0 2 ≠ (s.link l).rxSeq)) ∧
    (∃ s : State, ∃ l : LinkIx, (s.awake) ∧ ((s.link l).state = .linked) ∧ ((s.link l).replay ≠ [])) :=
  ⟨⟨linkIn .linked, 0, flit0, rfl, (by decide +kernel), (flitOf_seq _).2.2, ((congrArg (fun l => (crc32 l).toNat) (flitOf_take _)).trans (flitOf_field _).symm), (flitOf_seq _).1, .inl (flitOf_seq _).2.1⟩,
   ⟨linkIn .linked, 0, List.replicate 256 1, rfl, (by decide +kernel), (by decide +kernel), .inr (by decide)⟩,
   ⟨onLink fun l => { l with state := .linked, replay := [(0, flit0)] }, 0, rfl, by decide +kernel⟩⟩

/-- The hypotheses of `Obligations.HaloMessagesArrive` can be met, clause by clause. -/
theorem witness_haloMessagesArrive :
    (∃ s : State, ∃ l : LinkIx, ∃ cls : Nat, ∃ m : List Byte, ∃ tracked : Bool, (s.awake) ∧ (((s.link l).inbox.find? fun x => isType (if tracked then 1 else 5) x.2) = some (cls, m))) ∧
    (∃ s : State, ∃ l : LinkIx, ∃ ch : Fin 4, ∃ g : Int, (s.awake) ∧ (s.dev.state.live = true) ∧ (hchEnabled s l ch = true) ∧ (s.pastDone g (hchDeadline s l ch) = true)) :=
  ⟨⟨inboxOf (message 1 0 (List.replicate 64 0)), 0, 0, message 1 0 (List.replicate 64 0), true, rfl, by decide +kernel⟩,
   ⟨(upTo 110 (linkIn .linked)).setReg (Reg.hchCtrl 0 0) 0x11, 0, 0, 99, rfl, by decide +kernel⟩⟩

/-- The hypotheses of `Obligations.GroupMessagesArrive` can be met, clause by clause. -/
theorem witness_groupMessagesArrive :
    (∃ s : State, ∃ l : LinkIx, ∃ cls : Nat, ∃ m : List Byte, (s.awake) ∧ (((s.link l).inbox.find? fun x => isType 2 x.2) = some (cls, m)) ∧ (s.dev.state.live = true) ∧ (s.od Od.tokTokPerStripe ≠ 0) ∧ (s.tokClosed (s.extGroup (fieldAt m 8 6)) = false)) ∧
    (∃ s : State, ∃ l : LinkIx, ∃ cls : Nat, ∃ m : List Byte, (s.wf = true) ∧ (s.awake) ∧ (((s.link l).inbox.find? fun x => isType 2 x.2) = some (cls, m)) ∧ (s.tokClosed (s.extGroup (fieldAt m 8 6)) = true)) ∧
    (∃ s : State, ∃ l : LinkIx, ∃ cls : Nat, ∃ m : List Byte, (s.wf = true) ∧ (s.awake) ∧ (((s.link l).inbox.find? fun x => isType 2 x.2) = some (cls, m)) ∧ (s.tokClosed (s.extGroup (fieldAt m 8 6)) = false) ∧ (s.dev.state.live = false ∨ s.od Od.tokTokPerStripe = 0)) ∧
    (∃ s : State, ∃ l : LinkIx, ∃ cls : Nat, ∃ m : List Byte, (s.awake) ∧ (((s.link l).inbox.find? fun x => isType 3 x.2) = some (cls, m)) ∧ (s.wf = true) ∧ (s.dev.state.live = true) ∧ 
    let g := s.extGroup (fieldAt m 8 6)
    
    let late := s.groupDone g 2 = true ∨ ∃ x, s.det.last = some x ∧ (g < x ∨ (g = x ∧ s.shortGroup g = false))
    (¬ late) ∧ ((s.det.slots.find? fun d => d.g == g && d.kept.isSome) = none)) ∧
    (∃ s : State, ∃ l : LinkIx, ∃ cls : Nat, ∃ m : List Byte, ∃ d, (s.awake) ∧ (((s.link l).inbox.find? fun x => isType 3 x.2) = some (cls, m)) ∧ (s.wf = true) ∧ (s.dev.state.live = true) ∧ 
    let g := s.extGroup (fieldAt m 8 6)
    
    let late := s.groupDone g 2 = true ∨ ∃ x, s.det.last = some x ∧ (g < x ∨ (g = x ∧ s.shortGroup g = false))
    (¬ late) ∧ ((s.det.slots.find? fun d => d.g == g && d.kept.isSome) = some d) ∧ (∀ k ∈ s.neighbours, k = l ∨ (s.det.sets.any fun x => x.side == k.val && x.g == g) = true)) ∧
    (∃ s : State, ∃ l : LinkIx, ∃ cls : Nat, ∃ m : List Byte, (s.awake) ∧ (((s.link l).inbox.find? fun x => isType 3 x.2) = some (cls, m)) ∧ (s.wf = true) ∧ (s.dev.state.live = true) ∧ 
    let g := s.extGroup (fieldAt m 8 6)
    
    let late := s.groupDone g 2 = true ∨ ∃ x, s.det.last = some x ∧ (g < x ∨ (g = x ∧ s.shortGroup g = false))
    (late)) ∧
    (∃ s : State, ∃ l : LinkIx, ∃ cls : Nat, ∃ m : List Byte, (s.wf = true) ∧ (s.awake) ∧ (((s.link l).inbox.find? fun x => isType 4 x.2) = some (cls, m))) ∧
    (∃ s : State, ∃ l : LinkIx, (s.awake) ∧ (s.dev.state = .armed ∨ s.dev.state = .run) ∧ ((s.link l).state = .linked) ∧ ((s.link l).barrierAt + 4 ≤ s.nowGroup)) :=
  ⟨⟨(inboxOf (message 2 0 (List.replicate 40 0))).setOd Od.tokTokPerStripe 4, 0, 0, message 2 0 (List.replicate 40 0), rfl, by decide +kernel⟩,
   ⟨({ inboxOf (message 2 0 (List.replicate 40 0)) with ctx := { late.ctx with tokens := [⟨100, [], true, true⟩] } } : State), 0, 0, message 2 0 (List.replicate 40 0), (by decide +kernel), rfl, by decide +kernel⟩,
   ⟨inboxOf (message 2 0 (List.replicate 40 0)), 0, 0, message 2 0 (List.replicate 40 0), (by decide +kernel), rfl, by decide +kernel⟩,
   ⟨upTo 90 (inboxOf (message 3 0 (List.replicate 8 0))), 0, 0, message 3 0 (List.replicate 8 0), rfl, by decide +kernel⟩,
   ⟨{ upTo 101 (inboxOf (message 3 0 (List.replicate 8 0))) with det := { late.det with slots := [det1 (some [box1])] } }, 0, 0, message 3 0 (List.replicate 8 0), det1 (some [box1]), rfl, by decide +kernel⟩,
   ⟨upTo 110 (inboxOf (message 3 0 (List.replicate 8 0))), 0, 0, message 3 0 (List.replicate 8 0), rfl, by decide +kernel⟩,
   ⟨inboxOf (message 4 0 (List.replicate 8 0)), 0, 0, message 4 0 (List.replicate 8 0), (by decide +kernel), rfl, by decide +kernel⟩,
   ⟨linkIn .linked, 0, rfl, by decide +kernel⟩⟩

/-- The hypotheses of `Obligations.ManagementMessages` can be met, clause by clause. -/
theorem witness_managementMessages :
    (∃ s : State, ∃ l : LinkIx, (s.awake) ∧ ((s.link l).state = .linked)) ∧
    (∃ s : State, ∃ l : LinkIx, ∃ cls : Nat, ∃ m : List Byte, (s.awake) ∧ ((s.link l).state = .linked ∨ (s.link l).state = .retrain) ∧ (((s.link l).inbox.find? fun x => isMgmt 2 x.2) = some (cls, m))) ∧
    (∃ s : State, ∃ l : LinkIx, ∃ cls : Nat, ∃ m : List Byte, (s.awake) ∧ (((s.link l).inbox.find? fun x => isMgmt 1 x.2) = some (cls, m))) ∧
    (∃ s : State, ∃ l : LinkIx, ∃ cls : Nat, ∃ m : List Byte, (s.wf = true) ∧ (s.awake) ∧ (((s.link l).inbox.find? fun x => isMgmt 3 x.2) = some (cls, m))) :=
  ⟨⟨linkIn .linked, 0, rfl, by decide +kernel⟩,
   ⟨inboxOf (message 6 2 (List.replicate 8 0)), 0, 0, message 6 2 (List.replicate 8 0), rfl, by decide +kernel⟩,
   ⟨inboxOf (message 6 1 (List.replicate 48 0)), 0, 0, message 6 1 (List.replicate 48 0), rfl, by decide +kernel⟩,
   ⟨inboxOf (message 6 3 (List.replicate 8 0)), 0, 0, message 6 3 (List.replicate 8 0), (by decide +kernel), rfl, by decide +kernel⟩⟩

/-- The hypotheses of `Obligations.DramAndOasisUpkeep` can be met, clause by clause. -/
theorem witness_dramAndOasisUpkeep :
    (∃ s : State, ∃ ch : Fin 128, ∃ b : Nat, (s.wf = true) ∧ (s.awake)) ∧
    (∃ s : State, ∃ ch : Fin 128, ∃ found : DramRead, (s.awake) ∧ (bitAt (s.reg Reg.dramcScrubCtrl) 0 = true) ∧ (s.od Od.dramDramState = 2) ∧ ((s.trim.running.any fun x => x.kind == 5 && x.unit == ch.val) = false)) ∧
    (∃ s : State, ∃ ch : Fin 128, ∃ found : DramRead, (s.awake) ∧ ((s.trim.running.any fun x => x.kind == 5 && x.unit == ch.val) = true)) ∧
    (∃ s : State, ∃ v : W32, (s.awake) ∧ (s.dev.state = .preop)) :=
  ⟨⟨run, 0, 0, (by decide +kernel), rfl⟩,
   ⟨run, 5, .uncorrectable, rfl, by decide +kernel⟩,
   ⟨channelsOut run, 5, .uncorrectable, rfl, by decide +kernel⟩,
   ⟨preop, 5, rfl, by decide +kernel⟩⟩

/-- The hypotheses of `Obligations.StreamSlots` can be met, clause by clause. -/
theorem witness_streamSlots :
    (∃ s : State, ∃ i : Nat, ∃ g : Int, ∃ x : Stream, (s.awake) ∧ (s.cmd.streams[i]? = some x) ∧ (s.dev.state.ready = true) ∧ (s.dev.state ≠ .safe) ∧ (s.fillReady x g = true)) ∧
    (∃ s : State, ∃ i : Nat, ∃ g : Int, ∃ x : Stream, (s.awake) ∧ (s.cmd.streams[i]? = some x) ∧ (x.slot (x.slotNo g) = some (g, .filling)) ∧ (s.spaceHeld x.extents (x.source g 0) x.slotBytes = false)) ∧
    (∃ s : State, ∃ i : Nat, ∃ g : Int, ∃ x : Stream, ∃ j : Job, (s.awake) ∧ (s.cmd.streams[i]? = some x) ∧ (s.jobOf x.tag = some j) ∧ (x.kind = 1) ∧ (x.slot (x.slotNo g) = some (g, .written)) ∧ (∀ n : Nat, n < 17 → s.groupOver j (g - (n : Int)) = true) ∧ (∀ t ∈ x.slots, g ≤ t.2.1)) ∧
    (∃ s : State, ∃ i : Nat, ∃ g : Int, ∃ x : Stream, (s.awake) ∧ (s.cmd.streams[i]? = some x) ∧ (x.slot (x.slotNo g) = some (g, .spilling)) ∧ (s.spaceHeld x.extents (x.source g 0) x.slotBytes = false)) ∧
    (∃ s : State, ∃ i : Nat, ∃ g : Int, ∃ x : Stream, (s.awake) ∧ (s.cmd.streams[i]? = some x) ∧ (s.spaceHeld x.extents (x.source g 0) x.slotBytes = true)) :=
  ⟨⟨streaming1 (stream1 0 []), 0, 100, stream1 0 [], rfl, by decide +kernel⟩,
   ⟨streaming1 (slot1 0 .filling), 0, 100, slot1 0 .filling, rfl, by decide +kernel⟩,
   ⟨(flying (cmd1 0 .running (some { job1 with cancelledTo := some 100 }))).modCmd (fun u => { u with streams := [slot1 1 .written] }), 0, 100, slot1 1 .written, { job1 with cancelledTo := some 100 }, rfl, (by decide +kernel), (by decide +kernel), (by decide +kernel), (by decide +kernel), (by decide +kernel), by decide +kernel⟩,
   ⟨streaming1 (slot1 1 .spilling), 0, 100, slot1 1 .spilling, rfl, by decide +kernel⟩,
   ⟨channelsOut (streaming1 (held1 .filling)), 0, 100, held1 .filling, rfl, by decide +kernel⟩⟩

/-- The hypotheses of `Obligations.RunAheadAndMulticast` can be met, clause by clause. -/
theorem witness_runAheadAndMulticast :
    (∃ s : State, ∃ q : QueueIx, ∃ c : Cmd, ∃ args : List Arg, ∃ streams : List Stream, (s.awake) ∧ (s.dev.state.live = true) ∧ (runaheadJob s q = some c) ∧ (bitAt (c.field 16 8) 63 = true → s.canDma = true) ∧ (s.bindArgs c.tag (c.field 16 8) = some (args, streams))) ∧
    (∃ s : State, ∃ q : QueueIx, ∃ c : Cmd, (s.awake) ∧ (s.dev.state.live = true) ∧ (runaheadJob s q = some c) ∧ (bitAt (c.field 16 8) 63 = true → s.canDma = true) ∧ (s.bindArgs c.tag (c.field 16 8) = none)) ∧
    (∃ s : State, ∃ q : QueueIx, (s.wf = true) ∧ (s.awake) ∧ (s.dev.state.live = true) ∧ (runaheadJob s q = none)) ∧
    (∃ s : State, ∃ i : Nat, ∃ x : Stream, ∃ r : Round, (s.wf = true) ∧ (s.awake) ∧ (s.cmd.streams[i]? = some x) ∧ (x.nextRound = some r) ∧ (∀ c ∈ (r.joined.map Prod.snd).headD [], s.spaceHeld x.extents (x.source r.g c.2.1) c.2.2 = false)) ∧
    (∃ s : State, ∃ i : Nat, ∃ k : CoreIx, ∃ x : Stream, ∃ r : Round, (s.wf = true) ∧ (s.awake) ∧ (s.cmd.streams[i]? = some x) ∧ ((x.rounds.reverse.find? fun r => r.started && r.joined.any fun j => j.1 == k.val) = some r)) :=
  ⟨⟨(flying newCmd).writeDram 0 (List.replicate 256 0), 2, newCmd, List.replicate 16 ⟨0, 0, 0, 0⟩, [], rfl, (by decide +kernel), (by decide +kernel), fun h => absurd h (by decide +kernel), by decide +kernel⟩,
   ⟨(flying newCmd).writeDram 0 (List.replicate 256 3), 2, newCmd, rfl, (by decide +kernel), (by decide +kernel), fun h => absurd h (by decide +kernel), by decide +kernel⟩,
   ⟨late, 2, (by decide +kernel), rfl, by decide +kernel⟩,
   ⟨streaming1 { stream1 0 [] with rounds := [round1 false] }, 0, { stream1 0 [] with rounds := [round1 false] }, round1 false, (by decide +kernel), rfl, by decide +kernel⟩,
   ⟨streaming1 { stream1 0 [] with rounds := [round1 true] }, 0, 0, { stream1 0 [] with rounds := [round1 true] }, round1 true, (by decide +kernel), rfl, by decide +kernel⟩⟩

/-- The hypotheses of `Obligations.RingExtensions` can be met, clause by clause. -/
theorem witness_ringExtensions :
    (∃ s : State, ∃ c : PortIx, ∃ m : Int, ∃ rest : List Int, (s.awake) ∧ (s.extOn c = true) ∧ (s.dev.state.live = true) ∧ ((s.fsPort c).landed = m :: rest) ∧ ((s.fsPort c).ext = []) ∧ (0 < s.ringFree c)) ∧
    (∃ s : State, ∃ c : PortIx, ∃ m : Int, ∃ rest : List Int, (s.awake) ∧ (s.extOn c = true) ∧ (s.dev.state.live = true) ∧ ((s.fsPort c).landed = m :: rest) ∧ ((s.fsPort c).ext ≠ [] ∨ s.ringFree c = 0)) ∧
    (∃ s : State, ∃ c : PortIx, ∃ m : Int, ∃ rest : List Int, (s.awake) ∧ (s.dev.state.live = true) ∧ ((s.fsPort c).ext = m :: rest) ∧ (s.ringFree c ≠ 0) ∧ (s.dramHeld (s.extAddr c m) (s.extLine c) = false)) :=
  ⟨⟨((onFs fun f => { f with landed := [5] }).setReg (Reg.extSlots 0) 8).setReg (Reg.fsRingSlots 0 0) 64, 0, 5, [], rfl, by decide +kernel⟩,
   ⟨(onFs fun f => { f with landed := [5] }).setReg (Reg.extSlots 0) 8, 0, 5, [], rfl, by decide +kernel⟩,
   ⟨(onFs fun f => { f with ext := [5] }).setReg (Reg.fsRingSlots 0 0) 64, 0, 5, [], rfl, by decide +kernel⟩⟩

/-- The hypotheses of `Obligations.CopiesMoveAndEnd` can be met, clause by clause. -/
theorem witness_copiesMoveAndEnd :
    (∃ s : State, ∃ v : W32, ∃ d : List Byte, ∃ src dst : Extents, (s.wf = true) ∧ (s.awake) ∧ (v.getLsbD 0 = true) ∧ (s.dev.state.ready = true) ∧ (s.dev.state ≠ .safe) ∧ (s.od Od.dramDramState = 2) ∧ (s.cmd.regCopy = none) ∧ (s.bindDesc (s.reg Reg.streamCopyDescLo + 2 ^ 32 * s.reg Reg.streamCopyDescHi) = .ok d src dst) ∧ (sdKind d = 3)) ∧
    (∃ s : State, ∃ v : W32, (s.wf = true) ∧ (s.awake) ∧ (v.getLsbD 0 = true) ∧ (s.dev.state.ready = true) ∧ (s.cmd.regCopy = none) ∧ (s.dev.state = .safe)) ∧
    (∃ s : State, ∃ v : W32, (s.wf = true) ∧ (s.awake) ∧ (v.getLsbD 0 = true) ∧ (s.dev.state.ready = true) ∧ (s.cmd.regCopy = none) ∧ (s.dev.state ≠ .safe) ∧ (s.od Od.dramDramState ≠ 2)) ∧
    (∃ s : State, ∃ v : W32, ∃ r, (s.wf = true) ∧ (s.awake) ∧ (v.getLsbD 0 = true) ∧ (s.dev.state.ready = true) ∧ (s.cmd.regCopy = none) ∧ (s.dev.state ≠ .safe) ∧ (s.od Od.dramDramState = 2) ∧ (s.bindDesc (s.reg Reg.streamCopyDescLo + 2 ^ 32 * s.reg Reg.streamCopyDescHi) = .bad r)) ∧
    (∃ s : State, ∃ c : CopyOp, (s.wf = true) ∧ (s.awake) ∧ (s.cmd.regCopy = some c) ∧ (s.copyFree c = true)) ∧
    (∃ s : State, ∃ tag : BitVec 12, ∃ c : Cmd, ∃ op : CopyOp, (s.awake) ∧ (s.cmdOf tag.toNat = some c) ∧ (c.copy = some op) ∧ (c.stage = .running) ∧ (s.copyFree op = true)) :=
  ⟨⟨copying preop, 1, copyDesc, [(4096, 64, 0)], [(8192, 64, 0)], (by decide +kernel), rfl, by decide +kernel⟩,
   ⟨inState .safe, 1, (by decide +kernel), rfl, by decide +kernel⟩,
   ⟨preop.setOd Od.dramDramState 0, 1, (by decide +kernel), rfl, by decide +kernel⟩,
   ⟨(copying preop).setReg Reg.streamCopyDescLo 32, 1, 2, (by decide +kernel), rfl, by decide +kernel⟩,
   ⟨run.modCmd (fun u => { u with regCopy := some copy1 }), copy1, (by decide +kernel), rfl, by decide +kernel⟩,
   ⟨flying { cmd1 1 .running none with copy := some copy1 }, 9, { cmd1 1 .running none with copy := some copy1 }, copy1, rfl, by decide +kernel⟩⟩

/-- The hypotheses of `Obligations.RecordsReachTheirRings` can be met, clause by clause. -/
theorem witness_recordsReachTheirRings :
    (∃ s : State, ∃ e : EventRec, ∃ rest : List EventRec, (s.wf = true) ∧ (s.awake) ∧ (s.events = e :: rest) ∧ (s.ringSpace .event = true) ∧ (s.cmd.eventsLost = 0)) ∧
    (∃ s : State, ∃ e : EventRec, ∃ rest : List EventRec, (s.awake) ∧ (s.events = e :: rest) ∧ (s.ringSpace .event = false)) ∧
    (∃ s : State, ∃ e : EventRec, ∃ rest : List EventRec, (s.awake) ∧ (s.events = e :: rest) ∧ (s.ringSpace .event = true) ∧ (s.cmd.eventsLost ≠ 0)) ∧
    (∃ s : State, ∃ q : QueueIx, ∃ c : Cmd, ∃ st d : Nat, (s.wf = true) ∧ (s.awake) ∧ (((s.queueCmds q).findSome? fun c => match c.stage with
    | .done st d => some (c, st, d)
    | _ => none) = some (c, st, d)) ∧ (s.ringSpace (.completion q) = true)) ∧
    (∃ s : State, ∃ r : ResIx, ∃ m : Owed, (s.wf = true) ∧ (s.awake) ∧ (s.ringSpace (.result r) = true) ∧ ((s.cmd.owed.find? fun m => m.ring == r.val) = some m)) ∧
    (∃ s : State, ∃ r : ResIx, ∃ tag : Nat, ∃ j : Job, ∃ o : OutStream, ∃ m : MissedRun, ∃ rest : List MissedRun, (s.wf = true) ∧ (s.awake) ∧ (s.fixFirst.outOf r = some (tag, j, o)) ∧ ((s.cmd.owed.find? fun m => m.ring == r.val) = none) ∧ (s.ringSpace (.result r) = true) ∧ (o.missed = m :: rest)) ∧
    (∃ s : State, ∃ r : ResIx, ∃ tag : Nat, ∃ j : Job, ∃ o : OutStream, ∃ x : ReadyRec, (s.wf = true) ∧ (s.awake) ∧ (s.fixFirst.outOf r = some (tag, j, o)) ∧ ((s.cmd.owed.find? fun m => m.ring == r.val) = none) ∧ (s.ringSpace (.result r) = true) ∧ (o.missed = []) ∧ (o.next = some x) ∧ (s.missedBy x.g = false) ∧ (x.pages ≠ [] → s.spaceHeld (s.spoolExtents x.pages) 64 (o.bodyBytes x) = false)) ∧
    (∃ s : State, ∃ r : ResIx, ∃ tag : Nat, ∃ j : Job, ∃ o : OutStream, ∃ x : ReadyRec, (s.awake) ∧ (s.fixFirst.outOf r = some (tag, j, o)) ∧ (s.fixFirst.jobOf tag = some j) ∧ ((o.ready.find? fun x => x.pages.isEmpty && !s.groupDone x.g 8) = some x) ∧ (o.next ≠ some x ∨ o.missed ≠ [] ∨ s.ringSpace (.result r) = false) ∧ 
    let body := s.fixFirst.recordBody tag o x
    
    let n := spoolPages (64 + body.length)
    
    let ps := pickPages s.spoolTotal s.freeCtr s.cmd.spoolUsed n
    (s.cmd.spoolUsed.length + n ≤ s.spoolTotal) ∧ (s.spaceHeld (s.spoolExtents ps) 0 (64 + body.length) = false)) ∧
    (∃ s : State, ∃ r : ResIx, ∃ tag : Nat, ∃ j : Job, ∃ o : OutStream, ∃ x : ReadyRec, (s.awake) ∧ (s.fixFirst.outOf r = some (tag, j, o)) ∧ (s.fixFirst.jobOf tag = some j) ∧ ((o.ready.find? fun x => x.pages.isEmpty && !s.groupDone x.g 8) = some x) ∧ (o.next ≠ some x ∨ o.missed ≠ [] ∨ s.ringSpace (.result r) = false) ∧ 
    let body := s.fixFirst.recordBody tag o x
    
    let n := spoolPages (64 + body.length)
    
    let ps := pickPages s.spoolTotal s.freeCtr s.cmd.spoolUsed n
    (s.spoolTotal < s.cmd.spoolUsed.length + n)) :=
  ⟨⟨{ (hosted run).setReg Reg.cmdEvtSlots 16 with events := [event1] }, event1, [], (by decide +kernel), rfl, by decide +kernel⟩,
   ⟨{ run with events := [event1] }, event1, [], rfl, by decide +kernel⟩,
   ⟨({ (hosted run).setReg Reg.cmdEvtSlots 16 with events := [event1] } : State).modCmd (fun u => { u with eventsLost := 2 }), event1, [], rfl, by decide +kernel⟩,
   ⟨(hosted (flying (cmd1 2 (.done 0 0) none))).setReg (Reg.ccSlots 2) 16, 2, cmd1 2 (.done 0 0) none, 0, 0, (by decide +kernel), rfl, by decide +kernel⟩,
   ⟨((hosted run).setReg (Reg.resSlots 4) 16).modCmd (fun u => { u with owed := [⟨4, 9, false, false, ⟨95, 0, 1, false, 7⟩⟩] }), 4, ⟨4, 9, false, false, ⟨95, 0, 1, false, 7⟩⟩, (by decide +kernel), rfl, by decide +kernel⟩,
   ⟨(hosted (flying (cmd1 0 .running (some { job1 with outs := [{ out1 with missed := [⟨95, 0, 1, false, 7⟩] }] })))).setReg (Reg.resSlots 4) 16, 4, 9, { job1 with outs := [{ out1 with missed := [⟨95, 0, 1, false, 7⟩] }] }, { out1 with missed := [⟨95, 0, 1, false, 7⟩] }, ⟨95, 0, 1, false, 7⟩, [], (by decide +kernel), rfl, by decide +kernel⟩,
   ⟨(hosted (flying (cmd1 0 .running (some outJob)))).setReg (Reg.resSlots 4) 16, 4, 9, outJob, out1, ready1, (by decide +kernel), rfl, by decide +kernel⟩,
   ⟨(flying (cmd1 0 .running (some outJob))).setOd Od.webSpoolSize 1, 4, 9, outJob, out1, ready1, rfl, by decide +kernel⟩,
   ⟨((flying (cmd1 0 .running (some outJob))).setOd Od.webSpoolSize 1).modCmd (fun u => { u with spoolUsed := List.range 256 }), 4, 9, outJob, out1, ready1, rfl, by decide +kernel⟩⟩

/-- The hypotheses of `Obligations.QueuesAreRead` can be met, clause by clause. -/
theorem witness_queuesAreRead :
    (∃ s : State, ∃ q : QueueIx, ∃ pi : W32, (s.awake) ∧ (s.cmdOpen = true) ∧ (ringUsed pi.toNat (s.reg (Reg.cqCi q)) ≤ s.reg (Reg.cqSlots q))) ∧
    (∃ s : State, ∃ q : QueueIx, ∃ pi : W32, (s.wf = true) ∧ (s.awake) ∧ (s.cmdOpen = true) ∧ (s.reg (Reg.cqSlots q) < ringUsed pi.toNat (s.reg (Reg.cqCi q)))) ∧
    (∃ s : State, ∃ q : QueueIx, (s.wf = true) ∧ (s.awake) ∧ (s.cmdOpen = true) ∧ (s.canDma = true) ∧ (s.reg (Reg.cqSlots q) ≠ 0) ∧ (bitAt (s.reg (Reg.cqStatus q)) 1 = false) ∧ (s.reg (Reg.cqPi q) ≠ s.reg (Reg.cqCi q)) ∧ (s.cmd.cmds.length < 4096) ∧ 
    let b := s.readHost (s.reg64 (Reg.cqBaseLo q) (Reg.cqBaseHi q) + s.reg (Reg.cqCi q) % s.reg (Reg.cqSlots q) * 64) 64
    
    let reads := fun (t : State) (st : CmdStage) => t.reg (Reg.cqCi q) = (s.reg (Reg.cqCi q) + 1) % 2 ^ 32 ∧ t.cmd.cmds.length = s.cmd.cmds.length + 1 ∧
      ∃ c ∈ t.cmd.cmds, c.queue = q.val ∧ c.index = s.reg (Reg.cqCi q) ∧ c.bytes = b ∧ c.tag = fieldAt b 4 2 % 4096 ∧ c.stage = st
    (recordStatus b = 0) ∧ (s.cmdOf (fieldAt b 4 2 % 4096) = none)) ∧
    (∃ s : State, ∃ q : QueueIx, (s.wf = true) ∧ (s.awake) ∧ (s.cmdOpen = true) ∧ (s.canDma = true) ∧ (s.reg (Reg.cqSlots q) ≠ 0) ∧ (bitAt (s.reg (Reg.cqStatus q)) 1 = false) ∧ (s.reg (Reg.cqPi q) ≠ s.reg (Reg.cqCi q)) ∧ (s.cmd.cmds.length < 4096) ∧ 
    let b := s.readHost (s.reg64 (Reg.cqBaseLo q) (Reg.cqBaseHi q) + s.reg (Reg.cqCi q) % s.reg (Reg.cqSlots q) * 64) 64
    
    let reads := fun (t : State) (st : CmdStage) => t.reg (Reg.cqCi q) = (s.reg (Reg.cqCi q) + 1) % 2 ^ 32 ∧ t.cmd.cmds.length = s.cmd.cmds.length + 1 ∧
      ∃ c ∈ t.cmd.cmds, c.queue = q.val ∧ c.index = s.reg (Reg.cqCi q) ∧ c.bytes = b ∧ c.tag = fieldAt b 4 2 % 4096 ∧ c.stage = st
    (recordStatus b = 0) ∧ (s.cmdOf (fieldAt b 4 2 % 4096) ≠ none)) ∧
    (∃ s : State, ∃ q : QueueIx, (s.wf = true) ∧ (s.awake) ∧ (s.cmdOpen = true) ∧ (s.canDma = true) ∧ (s.reg (Reg.cqSlots q) ≠ 0) ∧ (bitAt (s.reg (Reg.cqStatus q)) 1 = false) ∧ (s.reg (Reg.cqPi q) ≠ s.reg (Reg.cqCi q)) ∧ (s.cmd.cmds.length < 4096) ∧ 
    let b := s.readHost (s.reg64 (Reg.cqBaseLo q) (Reg.cqBaseHi q) + s.reg (Reg.cqCi q) % s.reg (Reg.cqSlots q) * 64) 64
    
    let reads := fun (t : State) (st : CmdStage) => t.reg (Reg.cqCi q) = (s.reg (Reg.cqCi q) + 1) % 2 ^ 32 ∧ t.cmd.cmds.length = s.cmd.cmds.length + 1 ∧
      ∃ c ∈ t.cmd.cmds, c.queue = q.val ∧ c.index = s.reg (Reg.cqCi q) ∧ c.bytes = b ∧ c.tag = fieldAt b 4 2 % 4096 ∧ c.stage = st
    (recordStatus b ≠ 0)) ∧
    (∃ s : State, ∃ q : QueueIx, (s.wf = true) ∧ (s.awake) ∧ (s.cmdOpen = true) ∧ (bitAt (s.reg (Reg.cqStatus q)) 1 = true) ∧ (bits (s.reg (Reg.cqStatus q)) 3 2 = 1 ∨ bits (s.reg (Reg.cqStatus q)) 3 2 = 2)) :=
  ⟨⟨run.setReg (Reg.cqSlots 2) 16, 2, 5, rfl, by decide +kernel⟩,
   ⟨run, 2, 5, (by decide +kernel), rfl, by decide +kernel⟩,
   ⟨reading.writeHost 0 newCmd.bytes, 2, (by decide +kernel), rfl, by decide +kernel⟩,
   ⟨(reading.modCmd fun u => { u with cmds := [{ cmd1 1 .running none with queue := 3 }] }).writeHost 0 newCmd.bytes, 2, (by decide +kernel), rfl, by decide +kernel⟩,
   ⟨reading.writeHost 0 (List.replicate 64 0), 2, (by decide +kernel), rfl, by decide +kernel⟩,
   ⟨run.setReg (Reg.cqStatus 2) 6, 2, (by decide +kernel), rfl, by decide +kernel⟩⟩

/-- The hypotheses of `lateGroupsAreCancelled` can be met, clause by clause. -/
theorem witness_lateGroupsAreCancelled :
    (∃ s : State, ∃ g h : Int, (s.awake) ∧ (s.fixFirst.firstGroup = some h) ∧ (h ≤ g) ∧ (s.fixFirst.groupDone g 8 = true)) :=
  ⟨({ jobRuns with web := { jobRuns.web with firstSeen := jobRuns.web.firstSeen.set 3 (some 5440) } } : State).setOd (Od.camEnable 3) 1, 92, 85, rfl, by decide +kernel⟩

/-- The hypotheses of `Obligations.CommandsStartAndComplete` can be met, clause by clause. -/
theorem witness_commandsStartAndComplete :
    (∃ s : State, ∃ q : QueueIx, ∃ c : Cmd, ∃ s1 j, (s.awake) ∧ (s.startable q 0 = some c) ∧ (bitAt (c.field 16 8) 63 = true → c.job = none → c.argsBad = none → s.canDma = true) ∧ (jobPasses s c) ∧ (boundJob s c = some (s1, j)) ∧ (((boundOuts s1 c j).map fun o => o.ring).Nodup) ∧ (∀ o ∈ boundOuts s1 c j, o.arg.isSome = true → s1.ringBad o.ring o.pitch = false)) ∧
    (∃ s : State, ∃ q : QueueIx, ∃ c : Cmd, (s.awake) ∧ (s.startable q 0 = some c) ∧ (bitAt (c.field 16 8) 63 = true → c.job = none → c.argsBad = none → s.canDma = true) ∧ (s.wellBusy (byteAt c.bytes 6) = true)) ∧
    (∃ s : State, ∃ q : QueueIx, ∃ c : Cmd, (s.awake) ∧ (s.startable q 0 = some c) ∧ (bitAt (c.field 16 8) 63 = true → c.job = none → c.argsBad = none → s.canDma = true) ∧ (s.wellBusy (byteAt c.bytes 6) = false) ∧ (s.dev.state.live = false)) ∧
    (∃ s : State, ∃ q : QueueIx, ∃ c : Cmd, (s.awake) ∧ (s.startable q 0 = some c) ∧ (bitAt (c.field 16 8) 63 = true → c.job = none → c.argsBad = none → s.canDma = true) ∧ (s.wellBusy (byteAt c.bytes 6) = false) ∧ (s.dev.state.live = true) ∧ (byteAt c.bytes 7 ≠ 0xFF) ∧ (s.ringBad (byteAt c.bytes 7) (32 + 32 * s.od Od.detKeepMax) = true)) ∧
    (∃ s : State, ∃ q : QueueIx, ∃ c : Cmd, ∃ st, (s.awake) ∧ (s.startable q 0 = some c) ∧ (bitAt (c.field 16 8) 63 = true → c.job = none → c.argsBad = none → s.canDma = true) ∧ (jobPasses s c) ∧ (c.job = none) ∧ (c.argsBad = some st)) ∧
    (∃ s : State, ∃ q : QueueIx, ∃ c : Cmd, (s.awake) ∧ (s.startable q 0 = some c) ∧ (bitAt (c.field 16 8) 63 = true → c.job = none → c.argsBad = none → s.canDma = true) ∧ (jobPasses s c) ∧ (c.job = none) ∧ (c.argsBad = none) ∧ (s.bindArgs c.tag (c.field 16 8) = none)) ∧
    (∃ s : State, ∃ q : QueueIx, ∃ c : Cmd, ∃ s1 j, (s.awake) ∧ (s.startable q 0 = some c) ∧ (bitAt (c.field 16 8) 63 = true → c.job = none → c.argsBad = none → s.canDma = true) ∧ (jobPasses s c) ∧ (boundJob s c = some (s1, j)) ∧ (¬ ((boundOuts s1 c j).map fun o => o.ring).Nodup ∨
    ∃ o ∈ boundOuts s1 c j, o.arg.isSome = true ∧ s1.ringBad o.ring o.pitch = true)) ∧
    (∃ s : State, ∃ q : QueueIx, ∃ c : Cmd, ∃ d src dst, (s.awake) ∧ (s.startable q 1 = some c) ∧ (s.od Od.dramDramState = 2) ∧ (s.bindDesc (c.field 8 8) = .ok d src dst) ∧ (sdKind d = 3)) ∧
    (∃ s : State, ∃ q : QueueIx, ∃ c : Cmd, (s.awake) ∧ (s.startable q 1 = some c) ∧ (s.od Od.dramDramState ≠ 2 ∨ ∀ d src dst, s.bindDesc (c.field 8 8) = .ok d src dst → sdKind d ≠ 3)) ∧
    (∃ s : State, ∃ q : QueueIx, ∃ c : Cmd, (s.awake) ∧ (s.startable q 2 = some c)) ∧
    (∃ s : State, ∃ q : QueueIx, ∃ c : Cmd, (s.awake) ∧ (s.startable q 3 = some c) ∧ (waitHolds (s.sync (c.field 44 2)) (c.field 48 4) = true)) ∧
    (∃ s : State, ∃ q : QueueIx, ∃ c : Cmd, (s.awake) ∧ (s.startable q 3 = some c) ∧ (waitHolds (s.sync (c.field 44 2)) (c.field 48 4) = false)) ∧
    (∃ s : State, ∃ q : QueueIx, ∃ c : Cmd, (s.awake) ∧ (s.cmdOpen = true) ∧ (((s.queueCmds q).find? fun c => c.stage = .waiting) = some c) ∧ (waitHolds (s.sync (c.field 44 2)) (c.field 48 4) = true)) ∧
    (∃ s : State, ∃ tag : BitVec 12, ∃ j : Job, (s.awake) ∧ (s.fixFirst.jobOf tag.toNat = some j) ∧ (s.fixFirst.jobOver j = true) ∧ (s.fixFirst.outsDone j = true) ∧ (∀ x ∈ s.cmd.streams, x.tag = tag.toNat → x.kind = 1 → x.slots = []) ∧ (∀ b ∈ s.ctx.batches, b.tag ≠ tag.toNat)) :=
  ⟨⟨flying jobCmd, 2, jobCmd, flying jobCmd, job1, rfl, (by decide +kernel), fun h => absurd h (by decide +kernel), (by unfold jobPasses; decide +kernel), rfl, (by decide +kernel), (by decide +kernel)⟩,
   ⟨late.modCmd (fun u => { u with cmds := [jobCmd, { cmd1 0 .running (some job1) with queue := 3, tag := 10 }] }), 2, jobCmd, rfl, (by decide +kernel), fun h => absurd h (by decide +kernel), by decide +kernel⟩,
   ⟨{ flying jobCmd with dev := preop.dev }, 2, jobCmd, rfl, (by decide +kernel), fun h => absurd h (by decide +kernel), by decide +kernel⟩,
   ⟨flying (cmd1 0 .read none), 2, cmd1 0 .read none, rfl, (by decide +kernel), fun h => absurd h (by decide +kernel), by decide +kernel⟩,
   ⟨flying { newCmd with argsBad := some 7 }, 2, { newCmd with argsBad := some 7 }, 7, rfl, (by decide +kernel), fun h => absurd h (by decide +kernel), (by unfold jobPasses; decide +kernel), by decide +kernel⟩,
   ⟨(flying newCmd).writeDram 0 (List.replicate 256 3), 2, newCmd, rfl, (by decide +kernel), fun h => absurd h (by decide +kernel), (by unfold jobPasses; decide +kernel), by decide +kernel⟩,
   ⟨(flying jobCmd).modCmd (fun u => { u with streams := [{ stream1 2 [] with ring := 4 }] }), 2, jobCmd, (flying jobCmd).modCmd (fun u => { u with streams := [{ stream1 2 [] with ring := 4 }] }), job1, rfl, (by decide +kernel), fun h => absurd h (by decide +kernel), (by unfold jobPasses; decide +kernel), rfl, by decide +kernel⟩,
   ⟨copying (flying (cmd1 1 .read none)), 2, cmd1 1 .read none, copyDesc, [(4096, 64, 0)], [(8192, 64, 0)], rfl, by decide +kernel⟩,
   ⟨(flying (cmd1 1 .read none)).setOd Od.dramDramState 0, 2, cmd1 1 .read none, rfl, (by decide +kernel), .inl (by decide +kernel)⟩,
   ⟨flying (cmd1 2 .read none), 2, cmd1 2 .read none, rfl, by decide +kernel⟩,
   ⟨flying (cmd1 3 .read none), 2, cmd1 3 .read none, rfl, by decide +kernel⟩,
   ⟨flying { cmd1 3 .read none with bytes := [1, 3] ++ List.replicate 46 0 ++ [1] ++ List.replicate 15 0 }, 2, { cmd1 3 .read none with bytes := [1, 3] ++ List.replicate 46 0 ++ [1] ++ List.replicate 15 0 }, rfl, by decide +kernel⟩,
   ⟨flying (cmd1 3 .waiting none), 2, cmd1 3 .waiting none, rfl, by decide +kernel⟩,
   ⟨flying (cmd1 0 .running (some { job1 with cancelledTo := some 109 })), 9, { job1 with cancelledTo := some 109 }, rfl, (by decide +kernel), (by decide +kernel), (by decide +kernel), (by decide +kernel), (by decide +kernel)⟩⟩

/-- The hypotheses of `Obligations.HostHandlesRings` can be met, clause by clause. -/
theorem witness_hostHandlesRings :
    (∃ s : State, ∃ r : DevRing, ∃ ci : W32, (s.wf = true) ∧ (s.awake) ∧ (s.cmdOpen = true) ∧ (r = .event → s.cmd.eventsLost = 0)) ∧
    (∃ s : State, ∃ q : QueueIx, ∃ n : W32, (s.wf = true) ∧ (s.awake) ∧ (s.dev.state = .preop) ∧ (slotsOk n.toNat 16 65536 = true)) ∧
    (∃ s : State, ∃ n : W32, ∃ r : ResIx, (s.wf = true) ∧ (s.awake) ∧ (s.dev.state = .preop) ∧ (slotsOk n.toNat 16 1048576 = true)) ∧
    (∃ s : State, ∃ n : W32, (s.wf = true) ∧ (s.awake) ∧ (s.dev.state = .preop) ∧ (slotsOk n.toNat 64 1048576 = true)) ∧
    (∃ s : State, ∃ r : AnyRing, ∃ n : W32, (s.awake) ∧ (s.dev.state ≠ .preop)) ∧
    (∃ s : State, ∃ v : W32, (s.wf = true) ∧ (s.awake) ∧ (s.cmdOpen = true) ∧ (v.getLsbD 16 = true) ∧ (v.getLsbD 17 = false)) ∧
    (∃ s : State, ∃ v : W32, (s.wf = true) ∧ (s.awake) ∧ (s.cmdOpen = true) ∧ (v.getLsbD 16 = true) ∧ (v.getLsbD 17 = true)) ∧
    (∃ s : State, ∃ v : W32, (s.awake) ∧ (s.cmdOpen = true)) :=
  ⟨⟨run, .event, 0, (by decide +kernel), rfl, by decide +kernel⟩,
   ⟨preop, 2, 16, (by decide +kernel), rfl, by decide +kernel⟩,
   ⟨preop, 16, 4, (by decide +kernel), rfl, by decide +kernel⟩,
   ⟨preop, 64, (by decide +kernel), rfl, by decide +kernel⟩,
   ⟨run, .command 2, 16, rfl, by decide +kernel⟩,
   ⟨run, 0x10005, (by decide +kernel), rfl, by decide +kernel⟩,
   ⟨run, 0x30005, (by decide +kernel), rfl, by decide +kernel⟩,
   ⟨run, 7, rfl, by decide +kernel⟩⟩

/-- The hypotheses of `Obligations.RingIndexErrors` can be met, clause by clause. -/
theorem witness_ringIndexErrors :
    (∃ s : State, ∃ q : QueueIx, ∃ pi : W32, (s.wf = true) ∧ (s.awake) ∧ (s.cmdOpen = true) ∧ (s.reg (Reg.cqSlots q) < ringUsed pi.toNat (s.reg (Reg.cqCi q)))) ∧
    (∃ s : State, ∃ r : DevRing, ∃ ci : W32, (s.wf = true) ∧ (s.awake) ∧ (s.cmdOpen = true) ∧ 
    let g := s.ringRegs r
    (ringUsed (s.reg g.pi) (s.reg g.ci) < ringUsed (s.reg g.pi) ci.toNat)) :=
  ⟨⟨run, 2, 1, (by decide +kernel), rfl, by decide +kernel⟩,
   ⟨run, .event, 1, (by decide +kernel), rfl, by decide +kernel⟩⟩

/-- The hypotheses of `caravanFramesPassOn` can be met, clause by clause. -/
theorem witness_caravanFramesPassOn :
    (∃ s : State, ∃ f : List Byte, ∃ ok outbound : Bool, (s.crv.forwarding = true) ∧ 
    let way := if outbound = true ∧ s.crv.port1Up = true then 1 else 0
    (s.frameOurs f = true) ∧ (way = 0)) ∧
    (∃ s : State, ∃ f : List Byte, ∃ ok outbound : Bool, (s.crv.forwarding = true) ∧ 
    let way := if outbound = true ∧ s.crv.port1Up = true then 1 else 0
    (s.frameOurs f = false ∨ way = 1) ∧ (s.frameFits way f = false)) ∧
    (∃ s : State, ∃ f : List Byte, ∃ ok outbound : Bool, (s.crv.forwarding = true) ∧ 
    let way := if outbound = true ∧ s.crv.port1Up = true then 1 else 0
    (s.frameOurs f = false ∨ way = 1) ∧ (s.frameFits way f = true)) ∧
    (∃ s : State, ∃ f : List Byte, ∃ ok : Bool, (s.crv.forwarding = true) ∧ (s.frameFits 0 f = false)) ∧
    (∃ s : State, ∃ f : List Byte, ∃ ok : Bool, (s.crv.forwarding = true) ∧ (s.frameFits 0 f = true) ∧ (s.frameOurs f = false ∨ frameValid f = false)) ∧
    (∃ s : State, ∃ f : List Byte, (s.crv.forwarding = true) ∧ (s.frameFits 0 f = true) ∧ (s.frameOurs f = true) ∧ (frameValid f = true) ∧ (s.manufacturingSlot (frameSlotList f) = none)) ∧
    (∃ s : State, ∃ up : Bool, (s.wf = true) ∧ (s.dev.powerGood = true) ∧ (s.crv.port1Up ≠ up)) ∧
    (∃ s : State, ∃ up : Bool, (s.dev.powerGood = true)) ∧
    (∃ s : State, (s.dev.powerGood = true) ∧ (s.crv.forwarding = false)) :=
  ⟨⟨node, cycleFrame, true, true, by decide +kernel⟩,
   ⟨{ node with crv := { node.crv with sending := [(0, 0, 1000, 1000), (0, 1000, 2000, 2040)] } }, [1] ++ List.replicate 20 0, true, true, by decide +kernel⟩,
   ⟨{ node with crv := { node.crv with port1Up := true } }, cycleFrame, true, true, by decide +kernel⟩,
   ⟨{ node with crv := { node.crv with sending := [(0, 0, 1000, 1000), (0, 1000, 2000, 2040)] } }, cycleFrame, true, by decide +kernel⟩,
   ⟨node, [], true, by decide +kernel⟩,
   ⟨node, cycleFrame, by decide +kernel⟩,
   ⟨node, true, by decide +kernel⟩,
   ⟨run, true, by decide +kernel⟩,
   ⟨run, by decide +kernel⟩⟩

/-- The hypotheses of `Obligations.CaravanFramesAndTickets` can be met, clause by clause. -/
theorem witness_caravanFramesAndTickets :
    (∃ s : State, ∃ n : Byte, ∃ k : Ticket, ∃ r, (s.awake) ∧ ((s.crv.tickets.find? fun k => k.number == n && k.answer.isNone) = some k) ∧ 
    let q := Slot.parse k.slot
    
    let stored := fun (t : State) (bs : List Byte) => ∀ x ∈ t.crv.tickets, x.number = n → x.age = 0 ∧ x.answer = some bs
    (q.cmd = 6) ∧ (s.odReadCheck q.key = .ok) ∧ (odFind q.key = some r) ∧ (r.type.maxBytes.isSome = true)) ∧
    (∃ s : State, ∃ n : Byte, ∃ k : Ticket, ∃ r, (s.awake) ∧ ((s.crv.tickets.find? fun k => k.number == n && k.answer.isNone) = some k) ∧ 
    let q := Slot.parse k.slot
    
    let stored := fun (t : State) (bs : List Byte) => ∀ x ∈ t.crv.tickets, x.number = n → x.age = 0 ∧ x.answer = some bs
    (q.cmd = 6) ∧ (s.odReadCheck q.key = .ok) ∧ (odFind q.key = some r) ∧ (r.type.maxBytes = none)) ∧
    (∃ s : State, ∃ n : Byte, ∃ k : Ticket, (s.awake) ∧ ((s.crv.tickets.find? fun k => k.number == n && k.answer.isNone) = some k) ∧ 
    let q := Slot.parse k.slot
    
    let stored := fun (t : State) (bs : List Byte) => ∀ x ∈ t.crv.tickets, x.number = n → x.age = 0 ∧ x.answer = some bs
    (q.cmd = 6) ∧ (s.odReadCheck q.key ≠ .ok)) ∧
    (∃ s : State, ∃ n : Byte, ∃ k : Ticket, (s.awake) ∧ ((s.crv.tickets.find? fun k => k.number == n && k.answer.isNone) = some k) ∧ 
    let q := Slot.parse k.slot
    
    let stored := fun (t : State) (bs : List Byte) => ∀ x ∈ t.crv.tickets, x.number = n → x.age = 0 ∧ x.answer = some bs
    (q.cmd = 7) ∧ (k.staged.1 = 0)) ∧
    (∃ s : State, ∃ n : Byte, ∃ k : Ticket, (s.awake) ∧ ((s.crv.tickets.find? fun k => k.number == n && k.answer.isNone) = some k) ∧ 
    let q := Slot.parse k.slot
    
    let stored := fun (t : State) (bs : List Byte) => ∀ x ∈ t.crv.tickets, x.number = n → x.age = 0 ∧ x.answer = some bs
    (q.cmd = 7) ∧ (k.staged.1 ≠ 0)) ∧
    (∃ s : State, ∃ n : Byte, ∃ k : Ticket, (s.awake) ∧ ((s.crv.tickets.find? fun k => k.number == n && k.answer.isNone) = some k) ∧ 
    let q := Slot.parse k.slot
    
    let stored := fun (t : State) (bs : List Byte) => ∀ x ∈ t.crv.tickets, x.number = n → x.age = 0 ∧ x.answer = some bs
    (q.cmd ≠ 6) ∧ (q.cmd ≠ 7)) ∧
    (∃ s : State, ∃ n : Byte, (s.awake) ∧ ((s.crv.tickets.any fun k => k.number == n && k.answer.isSome && decide (16 ≤ k.age)) = true)) ∧
    (∃ s : State, (s.awake) ∧ (s.crv.armed = true) ∧ (s.crv.expired = false)) ∧
    (∃ s : State, ∃ h : Fin 64, ∃ e : Sched, (s.wf = true) ∧ (s.awake) ∧ ((s.doors.schedule.find? fun e => e.handle == h.val) = some e) ∧ (s.schedDue e = true) ∧ 
    let u := { s with doors := { s.doors with schedule := s.doors.schedule.filter fun x => x.handle != h.val } }
    (writeWait e.key true ≠ .none)) ∧
    (∃ s : State, ∃ h : Fin 64, ∃ e : Sched, (s.wf = true) ∧ (s.awake) ∧ ((s.doors.schedule.find? fun e => e.handle == h.val) = some e) ∧ (s.schedDue e = true) ∧ 
    let u := { s with doors := { s.doors with schedule := s.doors.schedule.filter fun x => x.handle != h.val } }
    (writeWait e.key true = .none) ∧ (u.odWriteCheck e.origin e.key (odWidth e.key / 8) e.value ≠ .ok)) ∧
    (∃ s : State, ∃ h : Fin 64, ∃ e : Sched, (s.wf = true) ∧ (s.awake) ∧ ((s.doors.schedule.find? fun e => e.handle == h.val) = some e) ∧ (s.schedDue e = true) ∧ 
    let u := { s with doors := { s.doors with schedule := s.doors.schedule.filter fun x => x.handle != h.val } }
    (writeWait e.key true = .none) ∧ (odSchedulable e.key = true) ∧ (u.odWriteCheck e.origin e.key (odWidth e.key / 8) e.value = .ok)) :=
  ⟨⟨holding (ticket 6 Od.safAttestReport (0, [])), 5, ticket 6 Od.safAttestReport (0, []), entry Od.safAttestReport, rfl, by decide +kernel⟩,
   ⟨holding (ticket 6 Od.webLinePitch (0, [])), 5, ticket 6 Od.webLinePitch (0, []), entry Od.webLinePitch, rfl, by decide +kernel⟩,
   ⟨holding (ticket 6 0x100 (0, [])), 5, ticket 6 0x100 (0, []), rfl, by decide +kernel⟩,
   ⟨holding (ticket 7 Od.webLinePitch (0, [])), 5, ticket 7 Od.webLinePitch (0, []), rfl, by decide +kernel⟩,
   ⟨holding (ticket 7 Od.webLinePitch (6, [])), 5, ticket 7 Od.webLinePitch (6, []), rfl, by decide +kernel⟩,
   ⟨holding (ticket 2 Od.webLinePitch (0, [])), 5, ticket 2 Od.webLinePitch (0, []), rfl, by decide +kernel⟩,
   ⟨holding ⟨5, [], some [], 16, (0, [])⟩, 5, rfl, by decide +kernel⟩,
   ⟨{ node with crv := { node.crv with armed := true } }, rfl, by decide +kernel⟩,
   ⟨scheduled { sched1 with key := Od.periodPeriod 0 }, 3, { sched1 with key := Od.periodPeriod 0 }, (by decide +kernel), rfl, by decide +kernel⟩,
   ⟨scheduled { sched1 with value := 0xFFFF }, 3, { sched1 with value := 0xFFFF }, (by decide +kernel), rfl, by decide +kernel⟩,
   ⟨scheduled sched1, 3, sched1, (by decide +kernel), rfl, by decide +kernel⟩⟩

/-- The hypotheses of `Obligations.Bar4WindowReadsAndWrites` can be met, clause by clause. -/
theorem witness_bar4WindowReadsAndWrites :
    (∃ s : State, ∃ off size w : Nat, ∃ v : W64, ∃ r : OdRow, (s.wf = true) ∧ (s.awake) ∧ 
    let key := off / 0x800 * 256 + off % 0x800 / 8
    (s.manufacturing (off / 0x800 * 256) = false) ∧ (off % 8 = 0) ∧ (s.doors.bar4Low = none) ∧ (odFind key = some r) ∧ (r.type.bytes = w) ∧ (w = 8 ∧ size = 8 ∨ 0 < w ∧ w < 8 ∧ (size = 4 ∨ size = 8) ∧ r.type.signed = false ∧ v.toNat < 2 ^ (8 * w))) ∧
    (∃ s : State, ∃ off size : Nat, ∃ v : W64, (s.wf = true) ∧ (s.awake) ∧ (s.manufacturing (off / 0x800 * 256) = false) ∧ (s.doors.bar4Low = none) ∧ (size = 1 ∨ size = 2)) ∧
    (∃ s : State, ∃ off : Nat, ∃ lo hi : W64, ∃ r : OdRow, (s.wf = true) ∧ (s.awake) ∧ 
    let key := off / 0x800 * 256 + off % 0x800 / 8
    
    let held := { s with doors := { s.doors with bar4Low := some (key, lo.truncate 32) } }
    (s.manufacturing (off / 0x800 * 256) = false) ∧ (off % 8 = 0) ∧ (s.doors.bar4Low = none) ∧ (odFind key = some r) ∧ (r.type.bytes = 8)) ∧
    (∃ s : State, ∃ off : Nat, ∃ r : OdRow, ∃ hi, (s.awake) ∧ 
    let key := off / 0x800 * 256 + off % 0x800 / 8
    (s.manufacturing (off / 0x800 * 256) = false) ∧ (off % 8 = 0) ∧ (s.doors.bar4Low = none) ∧ (s.odReadCheck key = .ok) ∧ (odFind key = some r) ∧ (0 < r.type.bytes) ∧ (s.doors.bar4Latch = some (key, hi))) ∧
    (∃ s : State, ∃ off size : Nat, (s.wf = true) ∧ (s.awake) ∧ (s.manufacturing (off / 0x800 * 256) = false) ∧ (s.doors.bar4Low = none) ∧ (s.odReadCheck (off / 0x800 * 256 + off % 0x800 / 8) ≠ .ok)) :=
  ⟨⟨preop, 0x2F00 * 0x800 + 2 * 8, 4, 4, 0x20000, entry (0x2F00 * 256 + 2), (by decide +kernel), rfl, by decide +kernel⟩,
   ⟨preop, 0x2F00 * 0x800 + 2 * 8, 1, 5, (by decide +kernel), rfl, by decide +kernel⟩,
   ⟨preop, 0x2F00 * 0x800 + 4 * 8, 1, 2, entry (0x2F00 * 256 + 4), (by decide +kernel), rfl, by decide +kernel⟩,
   ⟨{ preop with doors := { preop.doors with bar4Latch := some (0x2F00 * 256 + 5, 7) } }, 0x2F00 * 0x800 + 5 * 8, entry (0x2F00 * 256 + 5), 7, rfl, by decide +kernel⟩,
   ⟨preop, 0, 4, (by decide +kernel), rfl, by decide +kernel⟩⟩

/-- The hypotheses of `Obligations.MailboxOperationsEnd` can be met, clause by clause. -/
theorem witness_mailboxOperationsEnd :
    (∃ s : State, (s.doors.mbBusy = true)) ∧
    (∃ s : State, (s.wf = true) ∧ (s.awake) ∧ (s.doors.mbBusy = false) ∧ (s.manufacturing s.mbKey = false) ∧ 
    let key := s.mbKey
    
    let v := ofLeBytes (s.mbData (s.reg Reg.glbOdMbLen))
    
    let len := s.reg Reg.glbOdMbLen
    (s.dev.state.ready = false)) ∧
    (∃ s : State, (s.wf = true) ∧ (s.awake) ∧ (s.doors.mbBusy = false) ∧ (s.manufacturing s.mbKey = false) ∧ 
    let key := s.mbKey
    
    let v := ofLeBytes (s.mbData (s.reg Reg.glbOdMbLen))
    
    let len := s.reg Reg.glbOdMbLen
    (s.dev.state.ready = true) ∧ (4096 < len)) ∧
    (∃ s : State, ∃ r, (s.wf = true) ∧ (s.awake) ∧ (s.doors.mbBusy = false) ∧ (s.manufacturing s.mbKey = false) ∧ 
    let key := s.mbKey
    
    let v := ofLeBytes (s.mbData (s.reg Reg.glbOdMbLen))
    
    let len := s.reg Reg.glbOdMbLen
    (s.dev.state.ready = true) ∧ (odFind key = some r) ∧ (r.type.maxBytes = none) ∧ (s.reg Reg.glbOdMbOffset = 0) ∧ (len ≤ 4096)) ∧
    (∃ s : State, (s.wf = true) ∧ (s.awake) ∧ (s.doors.mbBusy = false) ∧ (s.manufacturing s.mbKey = false) ∧ 
    let key := s.mbKey
    
    let v := ofLeBytes (s.mbData (s.reg Reg.glbOdMbLen))
    
    let len := s.reg Reg.glbOdMbLen
    (s.writeAtCheck .host key len v = .ok) ∧ (len ≤ 4096) ∧ (s.reg Reg.glbOdMbOffset = 0) ∧ (s.lsnPassed s.mbAt = false)) ∧
    (∃ s : State, ∃ r, (s.wf = true) ∧ (s.awake) ∧ (s.doors.mbBusy = false) ∧ (s.manufacturing s.mbKey = false) ∧ 
    let key := s.mbKey
    
    let v := ofLeBytes (s.mbData (s.reg Reg.glbOdMbLen))
    
    let len := s.reg Reg.glbOdMbLen
    (s.dev.state.ready = true) ∧ (key / 256 < 0xA000) ∧ (odFind key = some r)) :=
  ⟨⟨{ preop with doors := { preop.doors with mbBusy := true } }, by decide +kernel⟩,
   ⟨mailbox (inState .boot) 0x2F0002, (by decide +kernel), rfl, by decide +kernel⟩,
   ⟨(mailbox preop 0x2F0002).setReg Reg.glbOdMbLen 4097, (by decide +kernel), rfl, by decide +kernel⟩,
   ⟨mailbox preop 0x2F0002, entry (0x2F00 * 256 + 2), (by decide +kernel), rfl, by decide +kernel⟩,
   ⟨((mailbox late 0x2F0002).setReg (Reg.glbOdMbData 0) 0x20000).setReg Reg.glbOdMbAtLo 7000, (by decide +kernel), rfl, by decide +kernel⟩,
   ⟨mailbox preop 0x2F0002, entry (0x2F00 * 256 + 2), (by decide +kernel), rfl, by decide +kernel⟩⟩

/-- The hypotheses of `transitionsAreMade` can be met, clause by clause. -/
theorem witness_transitionsAreMade :
    (∃ s : State, ∃ d : Door, (s.wf = true) ∧ (s.awake) ∧ (s.dev.request = some ⟨.armed, d⟩)) ∧
    (∃ s : State, ∃ d : Door, (s.wf = true) ∧ (s.awake) ∧ (s.dev.request = some ⟨.run, d⟩) ∧ (s.dev.state = .armed)) ∧
    (∃ s : State, ∃ d : Door, (s.wf = true) ∧ (s.awake) ∧ (s.dev.request = some ⟨.hold, d⟩) ∧ (s.dev.state = .run)) ∧
    (∃ s : State, ∃ d : Door, (s.wf = true) ∧ (s.awake) ∧ (s.dev.request = some ⟨.run, d⟩) ∧ (s.dev.state = .hold)) ∧
    (∃ s : State, ∃ d : Door, (s.wf = true) ∧ (s.awake) ∧ (s.dev.request = some ⟨.preop, d⟩)) ∧
    (∃ s : State, ∃ internal : Bool, ∃ reason : Nat, (s.wf = true) ∧ (s.awake) ∧ (s.dev.state.ready = true) ∧ (s.dev.state ≠ .safe) ∧ (s.dev.safeCause = some reason ∨
    s.dev.safeCause = none ∧ ((∃ d, s.dev.request = some ⟨.safe, d⟩) ∧ reason = 1 ∨
    (∀ d, s.dev.request ≠ some ⟨.safe, d⟩) ∧ internal = true ∧ reason = 7))) :=
  ⟨⟨asked .preop .armed, .none, (by decide +kernel), rfl, by decide +kernel⟩,
   ⟨asked .armed .run, .none, (by decide +kernel), rfl, by decide +kernel⟩,
   ⟨asked .run .hold, .none, (by decide +kernel), rfl, by decide +kernel⟩,
   ⟨asked .hold .run, .none, (by decide +kernel), rfl, by decide +kernel⟩,
   ⟨asked .run .preop, .none, (by decide +kernel), rfl, by decide +kernel⟩,
   ⟨asked .run .safe, false, 1, (by decide +kernel), rfl, (by decide +kernel), (by decide +kernel), .inr ⟨rfl, .inl ⟨⟨.none, rfl⟩, rfl⟩⟩⟩⟩

/-- The hypotheses of `Obligations.StartUpAndTransitions` can be met, clause by clause. -/
theorem witness_startUpAndTransitions :
    (∃ s : State, (s.wf = true) ∧ (s.awake) ∧ (s.dev.state = .boot) ∧ (s.pwr.pcie = true) ∧ (s.dev.authEnded = false)) ∧
    (∃ s : State, (s.wf = true) ∧ (s.awake) ∧ (s.dev.state = .auth) ∧ (s.dev.authEnded = false)) ∧
    (∃ s : State, ∃ ok : Bool, (s.wf = true) ∧ (s.awake) ∧ (s.od Od.dramDramState = 1)) ∧
    (∃ s : State, (s.wf = true) ∧ (s.awake) ∧ (s.dev.state.ready = false)) :=
  ⟨⟨inState .boot, (by decide +kernel), rfl, by decide +kernel⟩,
   ⟨inState .auth, (by decide +kernel), rfl, by decide +kernel⟩,
   ⟨(inState .auth).setOd Od.dramDramState 1, true, (by decide +kernel), rfl, by decide +kernel⟩,
   ⟨inState .boot, (by decide +kernel), rfl, by decide +kernel⟩⟩

/-- The hypotheses of `functionLevelResets` can be met, clause by clause. -/
theorem witness_functionLevelResets :
    (∃ s : State, (s.wf = true) ∧ (s.awake) ∧ (s.dev.state.ready = true)) ∧
    (∃ s : State, (s.wf = true) ∧ (s.awake) ∧ (s.dev.state.ready = false)) ∧
    (∃ s : State, ∃ speed : BitVec 4, ∃ width : BitVec 5, (s.wf = true) ∧ (s.awake) ∧ (s.pwr.pcie = true) ∧ (speed ≠ 0) ∧ (width ≠ 0)) :=
  ⟨⟨run, (by decide +kernel), rfl, by decide +kernel⟩,
   ⟨inState .boot, (by decide +kernel), rfl, by decide +kernel⟩,
   ⟨run, 5, 16, (by decide +kernel), rfl, by decide +kernel⟩⟩

/-- The hypotheses of `Obligations.EveryKindOfReset` can be met, clause by clause. -/
theorem witness_everyKindOfReset :
    (∃ s : State, ∃ v : W32, (s.awake) ∧ (v.toNat % 65536 = 0xA502)) ∧
    (∃ s : State, ∃ v : W32, (s.awake) ∧ (v.toNat % 65536 ≠ 0xA502)) ∧
    (∃ s : State, ∃ mv : W16, (s.awake) ∧ (100 * mv.toNat ≤ 88 * s.vt)) ∧
    (∃ s : State, ∃ mv : W16, (s.awake) ∧ (88 * s.vt < 100 * mv.toNat)) ∧
    (∃ s : State, (s.awake) ∧ (s.saf.integrityPending = true) ∧ (s.saf.cmdWritten = false)) ∧
    (∃ s : State, (s.awake) ∧ (s.saf.cmdWritten = true)) ∧
    (∃ s : State, (s.dev.powerGood = false)) ∧
    (∃ s : State, (s.wf = true) ∧ (s.dev.powerGood = true) ∧ (s.pwr.therm.tripHeld = false) ∧ (s.dev.state = .boot) ∧ (s.pwr.pcie = false)) :=
  ⟨⟨run, 0xA502, rfl, by decide +kernel⟩,
   ⟨run, 0, rfl, by decide +kernel⟩,
   ⟨run, 0, rfl, by decide +kernel⟩,
   ⟨run, 800, rfl, by decide +kernel⟩,
   ⟨{ run with saf := { run.saf with integrityPending := true } }, rfl, by decide +kernel⟩,
   ⟨{ run with saf := { run.saf with cmdWritten := true } }, rfl, by decide +kernel⟩,
   ⟨{ run with dev := { run.dev with powerGood := false } }, by decide +kernel⟩,
   ⟨{ State.reset with dev := { State.reset.dev with resetHeld := true } }, by decide +kernel⟩⟩

/-- The hypotheses of `Obligations.HostLinkAndMessages` can be met, clause by clause. -/
theorem witness_hostLinkAndMessages :
    (∃ s : State, ∃ a : ConfigAccess, (s.awake) ∧ (s.pcie.linkUp = true) ∧ (s.dev.state.ready = false)) ∧
    (∃ s : State, ∃ r : Nat, (s.awake) ∧ (s.pcie.linkUp = true) ∧ (s.dev.state.ready = true)) ∧
    (∃ s : State, ∃ r : Nat, ∃ v : W32, (s.wf = true) ∧ (keysRise s.pcie.cfg = true) ∧ (s.awake) ∧ (s.pcie.linkUp = true) ∧ (s.dev.state.ready = true)) ∧
    (∃ s : State, ∃ e f : Bool, (s.awake) ∧ (s.pcie.linkUp = true) ∧ (s.dev.state.ready = true)) ∧
    (∃ s : State, ∃ w : Bool, (s.wf = true) ∧ (s.awake)) ∧
    (∃ s : State, ∃ o n : Nat, (s.wf = true) ∧ (s.awake) ∧ (s.dev.state.ready = true) ∧ 
    let a := s.reg Reg.glbOasisWin * 2 ^ 20 + o
    (o + n ≤ 2 ^ 25) ∧ (a + n ≤ oasisBytes) ∧ (n = 4 ∨ n = 8) ∧ (o % n = 0)) ∧
    (∃ s : State, ∃ o n : Nat, ∃ bs : List Byte, (s.wf = true) ∧ (s.awake) ∧ (s.dev.state.ready = true) ∧ 
    let a := s.reg Reg.glbOasisWin * 2 ^ 20 + o
    (bs.length = n) ∧ (o + n ≤ 2 ^ 25) ∧ (a + n ≤ oasisBytes) ∧ (1 ≤ n) ∧ (a % 64 + n ≤ 64)) ∧
    (∃ s : State, ∃ o n : Nat, ∃ w : Option (List Byte), (s.wf = true) ∧ (s.awake) ∧ (s.dev.state.ready = true) ∧ 
    let a := s.reg Reg.glbOasisWin * 2 ^ 20 + o
    (2 ^ 25 < o + n ∨ oasisBytes < a + n)) ∧
    (∃ s : State, ∃ on : Bool, (s.awake) ∧ (s.dev.state.ready = true)) ∧
    (∃ s : State, ∃ v : Fin 512, (s.wf = true) ∧ (s.awake) ∧ 
    let off := 0x8000 + v.val * 16 + 12
    (v.val ∈ s.pcie.heldOff)) :=
  ⟨⟨hosted (inState .boot), .read 0, rfl, by decide +kernel⟩,
   ⟨hosted run, 0, rfl, by decide +kernel⟩,
   ⟨hosted run, 4, 4, (by decide +kernel), (by decide +kernel), rfl, by decide +kernel⟩,
   ⟨hosted run, true, true, rfl, by decide +kernel⟩,
   ⟨run, true, (by decide +kernel), rfl⟩,
   ⟨preop, 0, 4, (by decide +kernel), rfl, by decide +kernel⟩,
   ⟨preop, 0, 4, [1, 2, 3, 4], (by decide +kernel), rfl, by decide +kernel⟩,
   ⟨preop, 2 ^ 25, 4, none, (by decide +kernel), rfl, by decide +kernel⟩,
   ⟨run, true, rfl, by decide +kernel⟩,
   ⟨{ run with pcie := { run.pcie with heldOff := [5] } }, 5, (by decide +kernel), rfl, by decide +kernel⟩⟩

/-- The hypotheses of `Obligations.D3hotKeepsEverything` can be met, clause by clause. -/
theorem witness_d3hotKeepsEverything :
    (∃ s : State, (s.awake) ∧ (s.dev.state.ready = true)) :=
  ⟨run, rfl, by decide +kernel⟩

/-- The hypotheses of `Obligations.HostErrorsAndPtm` can be met, clause by clause. -/
theorem witness_hostErrorsAndPtm :
    (∃ s : State, ∃ kind : HostErrorKind, ∃ a : W64, ∃ q : QueueIx, (s.wf = true) ∧ (s.awake) ∧ (s.canDma = true) ∧ (s.dev.state.ready = true) ∧ (s.dev.state ≠ .safe) ∧ (bitAt (s.reg (Reg.cqStatus q)) 1 = false) ∧ (s.reg (Reg.cqSlots q) ≠ 0) ∧ (s.reg (Reg.cqPi q) ≠ s.reg (Reg.cqCi q)) ∧ (s.cmd.cmds.length < 4096)) ∧
    (∃ s : State, ∃ kind : HostErrorKind, ∃ a : W64, ∃ q : QueueIx, ∃ c : Cmd, (s.wf = true) ∧ (s.awake) ∧ (s.canDma = true) ∧ (s.dev.state.ready = true) ∧ (s.startable q 0 = some c) ∧ (bitAt (c.field 16 8) 63 = true) ∧ (c.job = none) ∧ (c.argsBad = none)) ∧
    (∃ s : State, ∃ kind : HostErrorKind, ∃ a : W64, ∃ q : QueueIx, ∃ c : Cmd, (s.wf = true) ∧ (s.awake) ∧ (s.canDma = true) ∧ (s.dev.state.ready = true) ∧ (s.startable q 0 = none) ∧ (s.dev.state.live = true) ∧ (runaheadJob s q = some c) ∧ (bitAt (c.field 16 8) 63 = true)) ∧
    (∃ s : State, ∃ kind : HostErrorKind, ∃ a : W64, ∃ q : QueueIx, (s.wf = true) ∧ (s.awake) ∧ (s.canDma = true) ∧ (s.dev.state.ready = true) ∧ (s.argsRead q = none)) ∧
    (∃ s : State, ∃ kind : HostErrorKind, ∃ a : W64, ∃ op, (s.wf = true) ∧ (s.awake) ∧ (s.canDma = true) ∧ (s.dev.state.ready = true) ∧ (s.cmd.regCopy = some op) ∧ (op.readsHost = true)) ∧
    (∃ s : State, ∃ kind : HostErrorKind, ∃ a : W64, ∃ tag : BitVec 12, ∃ c : Cmd, ∃ op : CopyOp, (s.wf = true) ∧ (s.awake) ∧ (s.canDma = true) ∧ (s.dev.state.ready = true) ∧ (s.cmdOf tag.toNat = some c) ∧ (c.copy = some op) ∧ (op.readsHost = true) ∧ (c.stage = .running)) ∧
    (∃ s : State, (s.awake) ∧ (s.dev.state.ready = true) ∧ (s.od Od.crvTimeSource = 2) ∧ (s.pcie.ptmEnable = true) ∧ (s.pcie.linkUp = true) ∧ (s.pcie.ptmT1 = none)) ∧
    (∃ s : State, ∃ t1 : Nat, ∃ t2 t3 : W64, (s.wf = true) ∧ (s.awake) ∧ (s.pcie.ptmT1 = some t1)) ∧
    (∃ s : State, ∃ t1 : Nat, (s.awake) ∧ (s.pcie.ptmT1 = some t1)) ∧
    (∃ s : State, ∃ on : Bool, (s.awake) ∧ (s.dev.state.ready = true)) :=
  ⟨⟨reading, .poisoned, 0, 2, (by decide +kernel), rfl, by decide +kernel⟩,
   ⟨hosted (flying argCmd), .poisoned, 0, 2, argCmd, (by decide +kernel), rfl, by decide +kernel⟩,
   ⟨hosted (late.modCmd fun u => { u with cmds := [cmd1 1 .read none, { argCmd with index := 1 }] }), .poisoned, 0, 2, { argCmd with index := 1 }, (by decide +kernel), rfl, by decide +kernel⟩,
   ⟨hosted run, .poisoned, 0, 2, (by decide +kernel), rfl, by decide +kernel⟩,
   ⟨(hosted run).modCmd (fun u => { u with regCopy := some { copy1 with src := [(0, 64, 1)] } }), .poisoned, 0, { copy1 with src := [(0, 64, 1)] }, (by decide +kernel), rfl, by decide +kernel⟩,
   ⟨hosted (flying { cmd1 1 .running none with copy := some { copy1 with src := [(0, 64, 1)] } }), .poisoned, 0, 9, { cmd1 1 .running none with copy := some { copy1 with src := [(0, 64, 1)] } }, { copy1 with src := [(0, 64, 1)] }, (by decide +kernel), rfl, by decide +kernel⟩,
   ⟨{ (hosted run).setOd Od.crvTimeSource 2 with pcie := { (hosted run).pcie with ptmEnable := true } }, rfl, by decide +kernel⟩,
   ⟨{ run with pcie := { run.pcie with ptmT1 := some 100 } }, 100, 200, 210, (by decide +kernel), rfl, by decide +kernel⟩,
   ⟨{ run with pcie := { run.pcie with ptmT1 := some 100 } }, 100, rfl, by decide +kernel⟩,
   ⟨run, true, rfl, by decide +kernel⟩⟩

/-- The hypotheses of `Obligations.TrimmingProceeds` can be met, clause by clause. -/
theorem witness_trimmingProceeds :
    (∃ s : State, ∃ v : W32, (s.wf = true) ∧ (s.awake) ∧ (s.dev.state.ready = true) ∧ (bitAt v.toNat 16 = true) ∧ (bitAt (s.reg Reg.trimCmdStatus) 0 = false) ∧ (trimUnitOk (bits v.toNat 2 0) (bits v.toNat 11 4) = true) ∧ (bitAt v.toNat 17 = false)) ∧
    (∃ s : State, ∃ v : W32, (s.wf = true) ∧ (s.awake) ∧ (s.dev.state.ready = true) ∧ (bitAt v.toNat 16 = true) ∧ (bitAt (s.reg Reg.trimCmdStatus) 0 = false) ∧ (trimUnitOk (bits v.toNat 2 0) (bits v.toNat 11 4) = true) ∧ (bitAt v.toNat 17 = true) ∧ (s.dev.state ≠ .safe)) ∧
    (∃ s : State, ∃ x : TrimItem, (s.pwr.warning = true) ∧ (¬ (x.forced = true ∧ x.kind = 4))) ∧
    (∃ s : State, (s.awake) ∧ (s.od (Od.trimKindPeriod 0) ≠ 0)) ∧
    (∃ s : State, ∃ e : EngineIx, (s.awake)) ∧
    (∃ s : State, ∃ x : TrimItem, (s.awake) ∧ (s.trimNext = some x) ∧ (s.trimReady x = true)) ∧
    (∃ s : State, ∃ k : Fin 6, ∃ u : Nat, ∃ faulty : List Nat, ∃ out : W32, ∃ x : TrimItem, (s.awake) ∧ ((s.trim.running.find? fun x => x.kind == k.val && x.unit == u) = some x)) ∧
    (∃ s : State, ∃ k : Fin 6, ∃ u : Nat, ∃ x : TrimItem, (s.awake) ∧ ((s.trim.due.find? fun x => x.kind == k.val && x.unit == u && !x.overdue) = some x)) ∧
    (∃ s : State, ∃ k : CoreIx, ∃ v : Nat, (s.wf = true) ∧ (s.awake)) :=
  ⟨⟨preop, 0x10000, (by decide +kernel), rfl, by decide +kernel⟩,
   ⟨preop, 0x30000, (by decide +kernel), rfl, by decide +kernel⟩,
   ⟨{ run with pwr := { run.pwr with warning := true } }, item 0 0, by decide +kernel⟩,
   ⟨run, rfl, by decide +kernel⟩,
   ⟨run, 0, rfl⟩,
   ⟨{ preop with trim := { preop.trim with due := [{ item 0 0 with forced := true }] } }, { item 0 0 with forced := true }, rfl, by decide +kernel⟩,
   ⟨{ preop with trim := { preop.trim with running := [item 0 0] } }, 0, 0, [3], 0, item 0 0, rfl, by decide +kernel⟩,
   ⟨{ preop with trim := { preop.trim with due := [item 0 0] } }, 0, 0, item 0 0, rfl, by decide +kernel⟩,
   ⟨run, 0, 500, (by decide +kernel), rfl⟩⟩

/-- The hypotheses of `suppliesWarnAndClear` can be met, clause by clause. -/
theorem witness_suppliesWarnAndClear :
    (∃ s : State, ∃ mv : W16, (s.wf = true) ∧ (s.awake) ∧ (100 * mv.toNat < 94 * s.vt)) ∧
    (∃ s : State, ∃ mv : W16, (s.wf = true) ∧ (s.awake) ∧ (94 * s.vt ≤ 100 * mv.toNat)) ∧
    (∃ s : State, ∃ mv : W16, (s.awake) ∧ (95 * s.vt < 100 * mv.toNat)) ∧
    (∃ s : State, ∃ quiet : W32, ∃ mv : W16, (s.wf = true) ∧ (s.awake) ∧ (s.pwr.warning = true) ∧ (s.pwr.dip = false) ∧ (10000 ≤ quiet.toNat)) ∧
    (∃ s : State, ∃ quiet : W32, ∃ mv : W16, (s.wf = true) ∧ (s.awake) ∧ (s.pwr.warning = true) ∧ (s.pwr.dip = false) ∧ (quiet.toNat < 10000)) ∧
    (∃ s : State, ∃ mv : W16, (s.awake) ∧ (s.pwr.pcie = true)) ∧
    (∃ s : State, ∃ mv : Nat, ∃ reading : W16, (s.awake) ∧ (s.pwr.avsRequested = some mv)) :=
  ⟨⟨run, 600, (by decide +kernel), rfl, by decide +kernel⟩,
   ⟨run, 900, (by decide +kernel), rfl, by decide +kernel⟩,
   ⟨run, 900, rfl, by decide +kernel⟩,
   ⟨{ run with pwr := { run.pwr with warning := true } }, 10000, 700, (by decide +kernel), rfl, by decide +kernel⟩,
   ⟨{ run with pwr := { run.pwr with warning := true } }, 5, 700, (by decide +kernel), rfl, by decide +kernel⟩,
   ⟨run, 700, rfl, by decide +kernel⟩,
   ⟨{ run with pwr := { run.pwr with avsRequested := some 700 } }, 700, 690, rfl, by decide +kernel⟩⟩

/-- The hypotheses of `Obligations.SuppliesPowerAndHeat` can be met, clause by clause. -/
theorem witness_suppliesPowerAndHeat :
    (∃ s : State, ∃ w : W16, (s.wf = true) ∧ (s.awake)) ∧
    (∃ s : State, ∃ w : W16, (s.awake)) ∧
    (∃ s : State, (s.awake)) ∧
    (∃ s : State, ∃ junction stack : List W16, 
    let temp := fun (l : List W16) (n : Nat) => toSigned 16 (l.getD n 0).toNat
    (s.pwr.therm.tripHeld = true)) ∧
    (∃ s : State, ∃ junction stack : List W16, 
    let temp := fun (l : List W16) (n : Nat) => toSigned 16 (l.getD n 0).toNat
    (s.pwr.therm.tripHeld = false) ∧ (s.awake) ∧ ((∃ n, n < 48 ∧ s.sensorValid n = true ∧ 120 * 16 < temp junction n) ∨ (∃ n, n < 16 ∧ 105 * 16 < temp stack n))) ∧
    (∃ s : State, ∃ junction stack : List W16, 
    let temp := fun (l : List W16) (n : Nat) => toSigned 16 (l.getD n 0).toNat
    (s.pwr.therm.tripHeld = false) ∧ (s.awake) ∧ (∀ n, n < 48 → temp junction n ≤ 120 * 16) ∧ (∀ n, n < 16 → temp stack n ≤ 105 * 16)) :=
  ⟨⟨run, 410, (by decide +kernel), rfl⟩,
   ⟨run, 100, rfl⟩,
   ⟨run, rfl⟩,
   ⟨{ held with pwr := { held.pwr with therm := { held.pwr.therm with tripHeld := true } } }, [], [], by decide +kernel⟩,
   ⟨run, List.replicate 48 1936, List.replicate 16 0, (by decide +kernel), rfl, .inl ⟨0, by decide +kernel⟩⟩,
   ⟨run, List.replicate 48 1800, List.replicate 16 0, (by decide +kernel), rfl, by decide +kernel⟩⟩

/-- The hypotheses of `Obligations.FirmwareOperations` can be met, clause by clause. -/
theorem witness_firmwareOperations :
    (∃ s : State, ∃ v : W32, (s.wf = true) ∧ (s.awake) ∧ 
    let slot := bits v.toNat 5 4
    
    let key := bits v.toNat 15 8
    (safGo s 1 v)) ∧
    (∃ s : State, ∃ v : W32, (s.wf = true) ∧ (s.awake) ∧ 
    let slot := bits v.toNat 5 4
    
    let key := bits v.toNat 15 8
    (safGo s 2 v)) ∧
    (∃ s : State, ∃ v : W32, (s.wf = true) ∧ (s.awake) ∧ 
    let slot := bits v.toNat 5 4
    
    let key := bits v.toNat 15 8
    (safGo s 3 v)) ∧
    (∃ s : State, ∃ v : W32, (s.wf = true) ∧ (s.awake) ∧ 
    let slot := bits v.toNat 5 4
    
    let key := bits v.toNat 15 8
    (safGo s 4 v)) ∧
    (∃ s : State, ∃ v : W32, (s.wf = true) ∧ (s.awake) ∧ 
    let slot := bits v.toNat 5 4
    
    let key := bits v.toNat 15 8
    (safGo s 5 v)) ∧
    (∃ s : State, ∃ v : W32, ∃ i, (s.wf = true) ∧ (s.awake) ∧ 
    let slot := bits v.toNat 5 4
    
    let key := bits v.toNat 15 8
    (safGo s 6 v) ∧ (s.dev.state = .preop) ∧ (s.saf.image = some i)) ∧
    (∃ s : State, ∃ v : W32, (s.wf = true) ∧ (s.awake) ∧ 
    let slot := bits v.toNat 5 4
    
    let key := bits v.toNat 15 8
    (safGo s 7 v)) ∧
    (∃ s : State, ∃ ok : Bool, ∃ o : SafOp, (s.wf = true) ∧ (s.awake) ∧ (s.saf.op = some o)) ∧
    (∃ s : State, ∃ nonce : List Byte, (s.wf = true) ∧ (s.awake) ∧ (s.saf.attesting = some nonce)) ∧
    (∃ s : State, ∃ target : Byte, (s.awake) ∧ (s.dev.state.ready = true)) :=
  ⟨⟨preop, safWrite 1, (by decide +kernel), rfl, (by unfold safGo; decide +kernel)⟩,
   ⟨preop, safWrite 2, (by decide +kernel), rfl, (by unfold safGo; decide +kernel)⟩,
   ⟨preop, safWrite 3, (by decide +kernel), rfl, (by unfold safGo; decide +kernel)⟩,
   ⟨preop, safWrite 0xA504, (by decide +kernel), rfl, (by unfold safGo; decide +kernel)⟩,
   ⟨preop, safWrite 5, (by decide +kernel), rfl, (by unfold safGo; decide +kernel)⟩,
   ⟨{ preop with saf := { preop.saf with image := some ⟨0, 1, 1, 1, []⟩ } }, safWrite 6, ⟨0, 1, 1, 1, []⟩, (by decide +kernel), rfl, (by unfold safGo; decide +kernel), by decide +kernel⟩,
   ⟨preop, safWrite 7, (by decide +kernel), rfl, (by unfold safGo; decide +kernel)⟩,
   ⟨{ preop with saf := { preop.saf with op := some ⟨5, 0, 0, [], true, false⟩ } }, true, ⟨5, 0, 0, [], true, false⟩, (by decide +kernel), rfl, by decide +kernel⟩,
   ⟨{ preop with saf := { preop.saf with attesting := some (List.replicate 32 0) } }, List.replicate 32 0, (by decide +kernel), rfl, by decide +kernel⟩,
   ⟨preop, 5, rfl, by decide +kernel⟩⟩

/-- The hypotheses of `Obligations.LedgerEntriesLeaveInOrder` can be met, clause by clause. -/
theorem witness_ledgerEntriesLeaveInOrder :
    (∃ s : State, ∃ b : List Byte, (s.wf = true) ∧ (s.awake) ∧ (s.dev.state.ready = true) ∧ (s.canDma = true) ∧ (s.od Od.ledgerSpillSlots ≠ 0) ∧ ((s.reg Reg.ledgerSpillPi + 2 ^ 32 - s.reg Reg.ledgerSpillCi) % 2 ^ 32 < s.od Od.ledgerSpillSlots) ∧ 
    let next := max s.ledger.spilled (s.ledger.count - ledgerCapacity)
    
    let pi := s.reg Reg.ledgerSpillPi
    
    let mirror := s.reg Reg.ledgerSpillMirrorLo + 2 ^ 32 * s.reg Reg.ledgerSpillMirrorHi
    (s.ledgerEntry next = some b)) ∧
    (∃ s : State, (s.awake) ∧ (s.od Od.ledgerSpillSlots ≠ 0) ∧ (s.od Od.ledgerSpillSlots ≤ (s.reg Reg.ledgerSpillPi + 2 ^ 32 - s.reg Reg.ledgerSpillCi) % 2 ^ 32 ∨ s.canDma = false)) ∧
    (∃ s : State, ∃ ci : W32, (s.wf = true) ∧ (s.awake) ∧ (s.dev.state.ready = true)) ∧
    (∃ s : State, ∃ seq : W64, (s.wf = true) ∧ (s.awake) ∧ (s.dev.state.ready = true)) :=
  ⟨⟨{ (hosted preop).setOd Od.ledgerSpillSlots 16 with ledger := { preop.ledger with entries := [⟨0, List.replicate 128 0⟩], count := 1 } }, List.replicate 128 0, (by decide +kernel), rfl, by decide +kernel⟩,
   ⟨preop.setOd Od.ledgerSpillSlots 16, rfl, by decide +kernel⟩,
   ⟨preop, 0, (by decide +kernel), rfl, by decide +kernel⟩,
   ⟨preop, 0, (by decide +kernel), rfl, by decide +kernel⟩⟩

/-- The hypotheses of `Obligations.RegistersActByTheirAccess` can be met, clause by clause. -/
theorem witness_registersActByTheirAccess :
    (∃ s : State, ∃ off : Nat, ∃ v : W64, ∃ r : RegRow, (s.wf = true) ∧ (s.awake) ∧ (openReg s off r) ∧ 
    let w := v.toNat % 2 ^ 32
    (ownWrite r.base (r.index off) w s = none) ∧ (r.access = .rw) ∧ ((r.preopOnly || ringBaseRows.contains r.base) = false ∨ s.dev.state = .preop) ∧ (regRefuses r.base (Nat.land w r.mask) = false)) ∧
    (∃ s : State, ∃ off : Nat, ∃ v : W64, ∃ r : RegRow, (s.wf = true) ∧ (s.awake) ∧ (openReg s off r) ∧ 
    let w := v.toNat % 2 ^ 32
    (ownWrite r.base (r.index off) w s = none) ∧ (r.access = .rw) ∧ ((r.preopOnly || ringBaseRows.contains r.base) = true ∧ s.dev.state ≠ .preop ∨ regRefuses r.base (Nat.land w r.mask) = true)) ∧
    (∃ s : State, ∃ off : Nat, ∃ v : W64, ∃ r : RegRow, (s.wf = true) ∧ (s.awake) ∧ (openReg s off r) ∧ 
    let w := v.toNat % 2 ^ 32
    (ownWrite r.base (r.index off) w s = none) ∧ (r.access = .w1c)) ∧
    (∃ s : State, ∃ off : Nat, ∃ v : W64, ∃ r : RegRow, (s.wf = true) ∧ (s.awake) ∧ (openReg s off r) ∧ 
    let w := v.toNat % 2 ^ 32
    (ownWrite r.base (r.index off) w s = none) ∧ (r.access = .ro ∨ r.access = .rc)) ∧
    (∃ s : State, ∃ off : Nat, ∃ r : RegRow, (s.wf = true) ∧ (s.awake) ∧ (openReg s off r) ∧ (r.access = .rc) ∧ (r.base ≠ Reg.fsTblData 0) ∧ (r.base ≠ Reg.coreTmData 0)) ∧
    (∃ s : State, ∃ off : Nat, ∃ r : RegRow, (s.awake) ∧ (openReg s off r) ∧ (r.access = .ro) ∧ (r.size = 8) ∧ (off % 8 = 0) ∧ (plainWideRows.contains r.base = false) ∧ (r.base ≠ Reg.fsTblData 0) ∧ (r.base ≠ Reg.coreTmData 0)) ∧
    (∃ s : State, ∃ k : CoreIx, ∃ v : W32, (s.wf = true) ∧ (s.awake) ∧ (s.odWriteCheck .host (Od.corePark k) 1 (v.toNat % 2) = .ok)) ∧
    (∃ s : State, ∃ k : CoreIx, ∃ v : W32, (s.wf = true) ∧ (s.awake) ∧ (s.odWriteCheck .host (Od.coreFreqTarget k) 2 (v.toNat % 2 ^ 12) = .ok)) ∧
    (∃ s : State, ∃ k : CoreIx, ∃ v : W32, (s.wf = true) ∧ (s.awake) ∧ (s.odWriteCheck .host (Od.coreFreqTarget k) 2 (v.toNat % 2 ^ 12) ≠ .ok)) ∧
    (∃ s : State, ∃ a : HostAccess, ∃ v : W64, (s.awake) ∧ (s.dev.state.ready = false)) ∧
    (∃ s : State, ∃ a : HostAccess, ∃ v : W64, (s.awake) ∧ (s.wf = true) ∧ (s.dev.state.ready = true) ∧ (accessWindow a = false) ∧ (accessWords a = none)) ∧
    (∃ s : State, ∃ off : Nat, ∃ v : W64, (off % 8 = 0)) ∧
    (∃ s : State, ∃ q : QueueIx, ∃ v : W64, (s.awake) ∧ (s.dev.state.ready = true) ∧ (s.dev.state ≠ .safe)) :=
  ⟨⟨preop, Reg.glbIrqHoldoff, 5, register Reg.glbIrqHoldoff, (by decide +kernel), rfl, (by unfold openReg; decide +kernel), by decide +kernel⟩,
   ⟨preop, Reg.glbIrqHoldoff, 1010, register Reg.glbIrqHoldoff, (by decide +kernel), rfl, (by unfold openReg; decide +kernel), by decide +kernel⟩,
   ⟨preop, Reg.ledgerIntStatus, 5, register Reg.ledgerIntStatus, (by decide +kernel), rfl, (by unfold openReg; decide +kernel), by decide +kernel⟩,
   ⟨preop, Reg.glbIdent, 5, register Reg.glbIdent, (by decide +kernel), rfl, (by unfold openReg; decide +kernel), by decide +kernel⟩,
   ⟨preop, 0x00100014, register 0x00100014, (by decide +kernel), rfl, (by unfold openReg; decide +kernel), by decide +kernel⟩,
   ⟨preop, Reg.crvForeign, register Reg.crvForeign, rfl, (by unfold openReg; decide +kernel), by decide +kernel⟩,
   ⟨run, 0, 1, (by decide +kernel), rfl, by decide +kernel⟩,
   ⟨run, 0, 800, (by decide +kernel), rfl, by decide +kernel⟩,
   ⟨run, 0, 1, (by decide +kernel), rfl, by decide +kernel⟩,
   ⟨inState .boot, ⟨false, 0, 4⟩, 0, rfl, by decide +kernel⟩,
   ⟨preop, ⟨false, 2, 4⟩, 0, rfl, by decide +kernel⟩,
   ⟨preop, 0, 0, by decide +kernel⟩,
   ⟨run, 2, 5, rfl, by decide +kernel⟩⟩

end Sys2Proof.Tests
end

section
/-! PROOFS. Every step keeps every memory and every sparse store in its canonical form. -/

namespace Sys2Proof.Machine

/-- A store after a set holds its old entries and the one that was set. -/
theorem mem_sparseSet {α : Type} {k : Nat} {v : Option α} {m : List (Nat × α)} {e : Nat × α} (h : e ∈ sparseSet k v m) :
    e ∈ m ∨ e.1 = k ∧ v = some e.2 := by
  induction m with
  | nil => cases v <;> simp_all [sparseSet]
  | cons c r ih =>
    obtain ⟨j, y⟩ := c
    simp only [sparseSet] at h
    split at h
    · cases v
      · exact Or.inl h
      · exact (List.mem_cons.mp h).symm.imp_right fun he => by simp [he]
    · split at h
      · cases v
        · exact Or.inl (List.mem_cons_of_mem _ h)
        · exact (List.mem_cons.mp h).symm.imp (List.mem_cons_of_mem _) fun he => by simp [he]
      · rcases List.mem_cons.mp h with rfl | h
        · exact Or.inl List.mem_cons_self
        · exact (ih h).imp_left (List.mem_cons_of_mem _)

/-- A set of an entry that a predicate admits keeps the predicate on every entry. -/
theorem sparseSet_all {α : Type} {q : Nat × α → Bool} {k : Nat} {v : Option α} {m : List (Nat × α)} (hm : m.all q = true)
    (hv : ∀ x, v = some x → q (k, x) = true) : (sparseSet k v m).all q = true := by
  refine List.all_eq_true.mpr fun e he => ?_
  rcases mem_sparseSet he with h | ⟨rfl, h⟩
  · exact List.all_eq_true.mp hm e h
  · exact hv _ h

/-- Dropping entries keeps a predicate on every entry. -/
theorem filter_all {α : Type} {p q : α → Bool} {m : List α} (hm : m.all q = true) : (m.filter p).all q = true :=
  List.all_eq_true.mpr fun e he => List.all_eq_true.mp hm e (List.mem_filter.mp he).1

theorem Map.canon_set {d : Nat → Nat} {m : Map} (k v : Nat) (h : m.canon d = true) : (m.set (d k) k v).canon d = true := by
  obtain ⟨hr, ha⟩ := Bool.and_eq_true_iff.mp h
  refine Bool.and_eq_true_iff.mpr ⟨m.set_rise _ k v hr, sparseSet_all ha fun x hx => ?_⟩
  split at hx <;> simp_all

theorem Map.canon_filter {d : Nat → Nat} {m : Map} (p : Nat × Nat → Bool) (h : m.canon d = true) : Map.canon d (m.filter p) = true := by
  obtain ⟨hr, ha⟩ := Bool.and_eq_true_iff.mp h
  exact Bool.and_eq_true_iff.mpr ⟨keysRise_filter p m hr, filter_all ha⟩

/-- A canonical map has its keys strictly rising. -/
theorem Map.canon_rise {d : Nat → Nat} {m : Map} (h : m.canon d = true) : keysRise m = true := (Bool.and_eq_true_iff.mp h).1

theorem Blobs.canon_set {m : Blobs} (k : Nat) (bs : List Byte) (h : m.canon = true) :
    Blobs.canon (sparseSet k (if bs.isEmpty then none else some bs) m) = true := by
  obtain ⟨hr, ha⟩ := Bool.and_eq_true_iff.mp h
  refine Bool.and_eq_true_iff.mpr ⟨keysRise_set k _ m hr, sparseSet_all ha fun x hx => ?_⟩
  split at hx <;> simp_all

theorem Blobs.canon_filter {m : Blobs} (p : Nat × List Byte → Bool) (h : m.canon = true) : Blobs.canon (m.filter p) = true := by
  obtain ⟨hr, ha⟩ := Bool.and_eq_true_iff.mp h
  exact Bool.and_eq_true_iff.mpr ⟨keysRise_filter p m hr, filter_all ha⟩

/-- The canonical form, store by store. -/
theorem State.wf_iff (s : State) : s.wf = true ↔ keysRise s.hostMem = true ∧ keysRise s.dram = true ∧ keysRise s.oasis = true ∧
    keysRise s.saf.flash = true ∧ s.regs.canon regDefault = true ∧ s.dict.canon odDefault = true ∧ s.blobs.canon = true := by
  simp only [State.wf, Mem.wf, Bool.and_eq_true, and_assoc]

/-- A store that is as before, or has only lost entries, is the old one with some entries dropped. -/
theorem filtered_of_same_or_less {α : Type} {m n : List α} {c : Prop} (h : n = m ∨ c ∧ ∃ p, n = m.filter p) : ∃ p, n = m.filter p :=
  h.elim (fun e => ⟨fun _ => true, by simp [e]⟩) And.right

/-- Stores that have only lost entries are canonical still. -/
theorem State.wf_of_less {s t : State} (h : ∀ p : Part, p.same s t ∨ (p ∈ Part.all ∧ p.less s t)) (hs : s.wf = true) : t.wf = true := by
  obtain ⟨hhost, hdram, hoasis, hflash, hregs, hdict, hblobs⟩ := s.wf_iff.mp hs
  obtain ⟨_, ehost⟩ := filtered_of_same_or_less (h .hostMem)
  obtain ⟨_, edram⟩ := filtered_of_same_or_less (h .dram)
  obtain ⟨_, eoasis⟩ := filtered_of_same_or_less (h .oasis)
  obtain ⟨_, eflash⟩ := filtered_of_same_or_less (h .flash)
  obtain ⟨_, eregs⟩ := filtered_of_same_or_less (h .regs)
  obtain ⟨_, edict⟩ := filtered_of_same_or_less (h .dict)
  obtain ⟨_, eblobs⟩ := filtered_of_same_or_less (h .blobs)
  rw [State.wf_iff, ehost, edram, eoasis, eflash, eregs, edict, eblobs]
  exact ⟨keysRise_filter _ _ hhost, keysRise_filter _ _ hdram, keysRise_filter _ _ hoasis, keysRise_filter _ _ hflash,
    Map.canon_filter _ hregs, Map.canon_filter _ hdict, Blobs.canon_filter _ hblobs⟩

/-- A memory whose bytes from lo to hi are replaced keeps its addresses rising. -/
theorem keysRise_splice {α : Type} {m mid : List (Nat × α)} {lo hi : Nat} (hle : lo ≤ hi) (hm : keysRise m = true) (hmid : keysRise mid = true)
    (hin : ∀ c ∈ mid, lo ≤ c.1 ∧ c.1 < hi) :
    keysRise ((m.filter fun c => decide (c.1 < lo)) ++ mid ++ m.filter fun c => decide (hi ≤ c.1)) = true := by
  refine keysRise_append _ _ (keysRise_append _ _ (keysRise_filter _ _ hm) hmid fun x hx y hy => ?_) (keysRise_filter _ _ hm) fun x hx y hy => ?_
  · have hlo := (List.mem_filter.mp hx).2
    have := hin y hy
    simp only [decide_eq_true_eq] at hlo
    omega
  · have hhi := (List.mem_filter.mp hy).2
    simp only [decide_eq_true_eq] at hhi
    rcases List.mem_append.mp hx with hx | hx
    · have hlo := (List.mem_filter.mp hx).2
      simp only [decide_eq_true_eq] at hlo
      omega
    · have := hin x hx
      omega

/-- Every memory and every store is canonical: any part may change by the operations on the stores. -/
def wfInv : Inv where
  P s := s.wf = true
  parts := Part.all
  upd _ _ _ hu h := State.wf_of_less hu h
  setReg _ s o v h := by
    obtain ⟨hhost, hdram, hoasis, hflash, hregs, hdict, hblobs⟩ := s.wf_iff.mp h
    exact (State.wf_iff _).mpr ⟨hhost, hdram, hoasis, hflash, Map.canon_set o v hregs, hdict, hblobs⟩
  setOd _ s k v h := by
    obtain ⟨hhost, hdram, hoasis, hflash, hregs, hdict, hblobs⟩ := s.wf_iff.mp h
    exact (State.wf_iff _).mpr ⟨hhost, hdram, hoasis, hflash, hregs, Map.canon_set k v hdict, hblobs⟩
  setBlob _ s k bs h := by
    obtain ⟨hhost, hdram, hoasis, hflash, hregs, hdict, hblobs⟩ := s.wf_iff.mp h
    exact (State.wf_iff _).mpr ⟨hhost, hdram, hoasis, hflash, hregs, hdict, Blobs.canon_set k bs hblobs⟩
  hostWrite _ s a bs h := by
    obtain ⟨hhost, hrest⟩ := s.wf_iff.mp h
    exact (State.wf_iff _).mpr ⟨Mem.wf_write _ a bs hhost, hrest⟩
  dramWrite _ s a bs h := by
    obtain ⟨hhost, hdram, hrest⟩ := s.wf_iff.mp h
    exact (State.wf_iff _).mpr ⟨hhost, Mem.wf_write _ a bs hdram, hrest⟩
  dramFill _ s lo hi mid hle hmid hin h := by
    obtain ⟨hhost, hdram, hrest⟩ := s.wf_iff.mp h
    exact (State.wf_iff _).mpr ⟨hhost, keysRise_splice hle hdram hmid hin, hrest⟩
  oasisByte _ s a b h := by
    obtain ⟨hhost, hdram, hoasis, hrest⟩ := s.wf_iff.mp h
    exact (State.wf_iff _).mpr ⟨hhost, hdram, Mem.wf_setByte _ a b hoasis, hrest⟩
  flashWrite _ s a bs h := by
    obtain ⟨hhost, hdram, hoasis, hflash, hrest⟩ := s.wf_iff.mp h
    exact (State.wf_iff _).mpr ⟨hhost, hdram, hoasis, Mem.wf_write _ a bs hflash, hrest⟩
  link _ _ _ _ _ _ _ _ _ _ h := h

/-- The canonical form lets every part change. -/
theorem wfInv_has (l : List Part) : wfInv.has l := fun p _ => by cases p <;> decide

/-- Every command keeps the canonical form. -/
theorem exec_wf {s t : State} {c : Instr} (h : s.wf = true) (e : exec c s = .next t) : t.wf = true :=
  exec_keeps (I := wfInv) c (wfInv_has _) h t e

/-- Settles O6: every command keeps the canonical form by its lemma of Laws/Keeps…, and so does a tick of device time. -/
theorem stepKeepsTheCanonicalForm : Obligations.StepKeepsTheCanonicalForm := by
  unfold Obligations.StepKeepsTheCanonicalForm
  intro s t h e
  unfold step at e
  split at e
  case h_1 =>
    cases e
    exact State.tick_keeps (I := wfInv) (wfInv_has _) h
  case h_2 c rest _ => exact exec_wf (s := { s with pending := rest }) h e

end Sys2Proof.Machine
end

section
/-! PROOFS. The BAR4 window: the outcome of a write, and one equation for each shape of access (R475, R476). -/

namespace Sys2Proof.Machine

theorem State.wf_regs {s : State} (h : s.wf = true) : keysRise s.regs = true := by
  obtain ⟨_, _, _, _, hregs, _⟩ := s.wf_iff.mp h
  exact Map.canon_rise hregs

theorem State.wf_dict {s : State} (h : s.wf = true) : keysRise s.dict = true := by
  obtain ⟨_, _, _, _, _, hdict, _⟩ := s.wf_iff.mp h
  exact Map.canon_rise hdict

theorem State.countRefused_wf {s : State} (h : s.wf = true) : s.countRefused.wf = true :=
  State.countRefused_keeps (I := wfInv) (wfInv_has _) h

theorem State.odWrite_wf {s : State} (h : s.wf = true) (o : Origin) (key len v : Nat) (door : Door) : (s.odWrite o key len v door).2.wf = true :=
  State.odWrite_snd (I := wfInv) (wfInv_has _) h

/-! ### A refused write is counted -/

theorem State.countRefused_od_self {s : State} (h : s.wf = true) :
    s.countRefused.od Od.crvRequestsRefused = satAdd (odWidth Od.crvRequestsRefused) (s.od Od.crvRequestsRefused) 1 :=
  State.od_setOd_self s _ _ (State.wf_dict h)

@[simp] theorem State.countRefused_od_other (s : State) {k : Nat} (h : k ≠ Od.crvRequestsRefused) : s.countRefused.od k = s.od k :=
  State.od_setOd_other s h _

@[simp] theorem State.countRefused_doors (s : State) : s.countRefused.doors = s.doors := rfl
@[simp] theorem State.countRefused_regs (s : State) : s.countRefused.regs = s.regs := rfl
@[simp] theorem State.countRefused_reg (s : State) (n : Nat) : s.countRefused.reg n = s.reg n := rfl

/-- A write that its checks refuse is counted and changes nothing else. -/
theorem State.odWrite_refused {s : State} {o : Origin} {key len v : Nat} {door : Door} (h : s.odWriteCheck o key len v ≠ .ok) :
    s.odWrite o key len v door = (s.odWriteCheck o key len v, s.countRefused) := by
  unfold State.odWrite
  split
  · exact absurd ‹_› h
  · rfl

theorem State.malformedStatus_eq (s : State) (key : Nat) :
    s.malformedStatus key = if s.dev.state.ready = false then .notReady else if 0xF000 ≤ key / 256 then .state
      else if odDefined key = .generation then .generation else .malformed := by
  simp only [State.malformedStatus, Bool.not_eq_eq_eq_not, Bool.not_true, decide_eq_true_eq]

/-- A request of a malformed shape is neither accepted nor begun. -/
theorem State.malformedStatus_refuses (s : State) (key : Nat) : s.malformedStatus key ≠ .ok ∧ s.malformedStatus key ≠ .pending := by
  rw [State.malformedStatus_eq]
  split
  · simp
  · split
    · simp
    · split <;> simp

/-! ### The outcome of a BAR4 write -/

theorem State.bar4Status_wStatus {s : State} (h : s.wf = true) (key : Nat) (st : Status) :
    (s.bar4Status key st).reg Reg.glbOdWStatus = bar4Word key st := by
  have hw : (s.setReg Reg.glbOdWStatus (bar4Word key st)).reg Reg.glbOdWStatus = bar4Word key st :=
    State.reg_setReg_self s _ _ (State.wf_regs h)
  unfold State.bar4Status
  dsimp only
  split
  · exact (State.reg_setReg_other _ (by decide) _).trans hw
  · exact hw

/-- A refusal leaves GLB_OD_W_COUNT. -/
theorem State.bar4Status_wCount (s : State) (key : Nat) {st : Status} (h : st ≠ .ok) (h' : st ≠ .pending) :
    (s.bar4Status key st).reg Reg.glbOdWCount = s.reg Reg.glbOdWCount := by
  unfold State.bar4Status
  simp only [h, h']
  exact State.reg_setReg_other s (by decide) _

@[simp] theorem State.bar4Status_dict (s : State) (key : Nat) (st : Status) : (s.bar4Status key st).dict = s.dict := by
  unfold State.bar4Status
  dsimp only
  split <;> rfl
@[simp] theorem State.bar4Status_od (s : State) (key : Nat) (st : Status) (k : Nat) : (s.bar4Status key st).od k = s.od k := by
  unfold State.od
  rw [State.bar4Status_dict]
@[simp] theorem State.bar4Status_doors (s : State) (key : Nat) (st : Status) : (s.bar4Status key st).doors = s.doors := by
  unfold State.bar4Status
  dsimp only
  split <;> rfl

theorem State.bar4Scalar_wStatus {s : State} (h : s.wf = true) (key len v : Nat) :
    (s.bar4Scalar key len v).reg Reg.glbOdWStatus = bar4Word key (bar4Code s key len v) :=
  State.bar4Status_wStatus (State.odWrite_wf h .host key len v .bar4) key _

theorem State.bar4Scalar_refused_wCount {s : State} {key len v : Nat} (h : s.odWriteCheck .host key len v ∉ [Status.ok, Status.pending]) :
    (s.bar4Scalar key len v).reg Reg.glbOdWCount = s.reg Reg.glbOdWCount := by
  obtain ⟨hok, hpending⟩ : s.odWriteCheck .host key len v ≠ .ok ∧ s.odWriteCheck .host key len v ≠ .pending := by simpa using h
  unfold State.bar4Scalar
  rw [State.odWrite_refused hok]
  simp only [hpending, ↓reduceIte]
  exact State.bar4Status_wCount _ key hok hpending

/-! ### The shapes of a BAR4 access -/

/-- The window answers while the device is not held in reset and the index is no manufacturing-test one. -/
theorem exec_bar4Write {s : State} {off size : Nat} {v : W64} (ha : s.awake) (hm : s.manufacturing (off / 0x800 * 256) = false) :
    exec (.bar4Write off size v) s = .next (s.bar4Write off size v) := by
  show execBar4Write off size v s = _
  simp [execBar4Write, show s.dev.resetHeld = false from ha, hm]

theorem exec_bar4Read {s : State} {off size : Nat} (ha : s.awake) (hm : s.manufacturing (off / 0x800 * 256) = false) :
    exec (.bar4Read off size) s = .next (s.bar4Read off size) := by
  show execBar4Read off size s = _
  simp [execBar4Read, show s.dev.resetHeld = false from ha, hm]

@[simp] theorem State.bar4Discard_none {s : State} (h : s.doors.bar4Low = none) (except : Option Nat) : s.bar4Discard except = s := by
  simp [State.bar4Discard, h]

/-- The high half of an aligned place lies in the same entry. -/
theorem bar4_high_half {off : Nat} (h : off % 8 = 0) : (off + 4) / 0x800 = off / 0x800 ∧ (off + 4) % 0x800 / 8 = off % 0x800 / 8 := by
  omega

section
variable {s : State} {off size key : Nat} {r : OdRow} (hkey : off / 0x800 * 256 + off % 0x800 / 8 = key)
include hkey

/-- An access of one or two bytes is refused by its shape. -/
theorem State.bar4Write_narrow (hlow : s.doors.bar4Low = none) (hsize : size = 1 ∨ size = 2) (v : W64) :
    s.bar4Write off size v = s.bar4Refuse key (s.malformedStatus key) := by
  unfold State.bar4Write
  rcases hsize with rfl | rfl <;> simp [hlow, hkey]

/-- A 64-bit scalar is written by one access. -/
theorem State.bar4Write_wide (hlow : s.doors.bar4Low = none) (hoff : off % 8 = 0) (hr : odFind key = some r) (hw : r.type.bytes = 8) (v : W64) :
    s.bar4Write off 8 v = s.bar4Scalar key 8 v.toNat := by
  unfold State.bar4Write
  simp [hlow, hkey, hoff, hr, hw]

/-- The low word of a 64-bit scalar is held. -/
theorem State.bar4Write_low (hlow : s.doors.bar4Low = none) (hoff : off % 8 = 0) (hr : odFind key = some r) (hw : r.type.bytes = 8) (v : W64) :
    s.bar4Write off 4 v = { s with doors := { s.doors with bar4Low := some (key, v.truncate 32) } } := by
  have h4 : off % 4 = 0 := by omega
  unfold State.bar4Write
  simp [hlow, hkey, hoff, h4, hr, hw]

/-- The high word of a 64-bit scalar whose low word is held writes the scalar. -/
theorem State.bar4Write_high (hoff : off % 8 = 0) {lo : W32} (hheld : s.doors.bar4Low = some (key, lo)) (hr : odFind key = some r)
    (hw : r.type.bytes = 8) (v : W64) :
    s.bar4Write (off + 4) 4 v =
      ({ s with doors := { s.doors with bar4Low := none } }).bar4Scalar key 8 (lo.toNat + 2 ^ 32 * (v.toNat % 2 ^ 32)) := by
  have h8 : (off + 4) % 8 = 4 := by omega
  have h4 : (off + 4) % 4 = 0 := by omega
  obtain ⟨hindex, hsub⟩ := bar4_high_half hoff
  unfold State.bar4Write
  rw [hindex, hsub]
  simp [State.bar4Discard, hheld, hkey, h8, h4, hr, hw]

/-- An unsigned scalar of at most 32 bits is written by a 4- or 8-byte access whose value fits. -/
theorem State.bar4Write_fits (hlow : s.doors.bar4Low = none) (hoff : off % 8 = 0) (hsize : size = 4 ∨ size = 8) (hr : odFind key = some r)
    (hpos : 0 < r.type.bytes) (hlt : r.type.bytes < 8) (hsigned : r.type.signed = false) {v : W64} (hv : v.toNat < 2 ^ (8 * r.type.bytes)) :
    s.bar4Write off size v = s.bar4Scalar key r.type.bytes v.toNat := by
  have hbytes : r.type.bytes ≤ 4 := by
    cases ht : r.type <;> simp_all [OdType.bytes]
  have hcut : v.toNat % 2 ^ (8 * size) = v.toNat :=
    Nat.mod_eq_of_lt (Nat.lt_of_lt_of_le hv (Nat.pow_le_pow_right (by decide) (by omega)))
  have hraw : v.toNat % 2 ^ (8 * r.type.bytes) = v.toNat := Nat.mod_eq_of_lt hv
  have hshape : off % size = 0 ∧ (size == 4 && off % 8 == 4) = false ∧ (size == 4 || size == 8) = true ∧ size ≠ 1 ∧ size ≠ 2 := by
    rcases hsize with rfl | rfl <;> simp <;> omega
  obtain ⟨haligned, hhigh, hwhole, h1, h2⟩ := hshape
  have hne : r.type.bytes ≠ 0 ∧ r.type.bytes ≠ 8 := by omega
  unfold State.bar4Write
  simp only [hhigh]
  simp [hlow, hkey, haligned, hwhole, h1, h2, hr, hne, hsigned, hcut, hraw]

/-- A readable scalar is read whole. -/
theorem State.bar4Read_whole (hlow : s.doors.bar4Low = none) (hoff : off % 8 = 0) (hcheck : s.odReadCheck key = .ok) (hr : odFind key = some r)
    (hpos : 0 < r.type.bytes) : s.bar4Read off 8 = s.send (.readData (s.odView64 key)) := by
  unfold State.bar4Read
  simp [hlow, hkey, hoff, hcheck, hr, hpos]

/-- Its low word is read, and its high word held for the next read of it (R475). -/
theorem State.bar4Read_low (hlow : s.doors.bar4Low = none) (hoff : off % 8 = 0) (hcheck : s.odReadCheck key = .ok) (hr : odFind key = some r)
    (hpos : 0 < r.type.bytes) :
    s.bar4Read off 4 = ({ s with doors := { s.doors with bar4Latch := some (key, BitVec.ofNat 32 (s.odView64 key / 2 ^ 32)) } }).send
      (.readData (s.odView64 key % 2 ^ 32)) := by
  have h4 : off % 4 = 0 := by omega
  unfold State.bar4Read
  simp [hlow, hkey, hoff, h4, hcheck, hr, hpos]

/-- A high word that is held is read, and held no longer. -/
theorem State.bar4Read_high (hlow : s.doors.bar4Low = none) (hoff : off % 8 = 0) (hcheck : s.odReadCheck key = .ok) (hr : odFind key = some r)
    (hpos : 0 < r.type.bytes) {hi : W32} (hlatch : s.doors.bar4Latch = some (key, hi)) :
    s.bar4Read (off + 4) 4 = ({ s with doors := { s.doors with bar4Latch := none } }).send (.readData hi.toNat) := by
  have h8 : (off + 4) % 8 = 4 := by omega
  have h4 : (off + 4) % 4 = 0 := by omega
  obtain ⟨hindex, hsub⟩ := bar4_high_half hoff
  unfold State.bar4Read
  rw [hindex, hsub]
  simp [hlow, hkey, h8, h4, hcheck, hr, hpos, hlatch]

/-- What cannot be read reads 0 and sets GLB_OD_R_ERR. -/
theorem State.bar4Read_refused (hlow : s.doors.bar4Low = none) (hcheck : s.odReadCheck key ≠ .ok) :
    s.bar4Read off size = (s.setReg Reg.glbOdRErr 1).send (.readData 0) := by
  unfold State.bar4Read
  simp [hlow, hkey, hcheck]

end

/-- Settles O49: each shape of access has its equation above, and a write's outcome stands in GLB_OD_W_STATUS. -/
theorem bar4WindowReadsAndWrites : Obligations.Bar4WindowReadsAndWrites := by
  unfold Obligations.Bar4WindowReadsAndWrites
  refine ⟨?scalar, ?narrow, ?halves, ?read, ?unreadable⟩
  case scalar =>
    intro s off size w v r hs ha key hm hoff hlow hr hw hshape
    have hwrite : s.bar4Write off size v = s.bar4Scalar key w v.toNat := by
      subst hw
      rcases hshape with ⟨hw, rfl⟩ | ⟨hpos, hlt, hsize, hsigned, hv⟩
      · rw [hw]
        exact State.bar4Write_wide rfl hlow hoff hr hw v
      · exact State.bar4Write_fits rfl hlow hoff hsize hr hpos hlt hsigned hv
    refine ⟨_, exec_bar4Write ha hm, ?_⟩
    rw [hwrite]
    exact ⟨State.bar4Scalar_wStatus hs key w v.toNat, State.bar4Scalar_refused_wCount⟩
  case narrow =>
    intro s off size v hs ha hm hlow hsize key
    obtain ⟨hok, hpending⟩ := s.malformedStatus_refuses key
    refine ⟨_, exec_bar4Write ha hm, ?_⟩
    rw [State.bar4Write_narrow rfl hlow hsize, ← State.malformedStatus_eq]
    refine ⟨State.bar4Status_wStatus (State.countRefused_wf hs) key _, ?_, fun k hk => ?_, State.bar4Status_doors _ _ _,
      State.bar4Status_wCount _ key hok hpending⟩
    · exact (State.bar4Status_od _ _ _ _).trans (State.countRefused_od_self hs)
    · exact (State.bar4Status_od _ _ _ _).trans (s.countRefused_od_other hk)
  case halves =>
    intro s off lo hi r hs ha key held hm hoff hlow hr hw
    have hm' : held.manufacturing ((off + 4) / 0x800 * 256) = false := by
      rw [(bar4_high_half hoff).1]
      exact hm
    have hback : { held with doors := { held.doors with bar4Low := none } } = s := by
      simp [held, ← hlow]
    refine ⟨⟨_, exec_bar4Write ha hm, State.bar4Write_low rfl hlow hoff hr hw lo⟩, _, exec_bar4Write ha hm', ?_⟩
    rw [State.bar4Write_high rfl hoff rfl hr hw hi, hback]
    have hlo : (lo.truncate 32).toNat = lo.toNat % 2 ^ 32 := BitVec.toNat_setWidth 32 lo
    rw [hlo]
    exact State.bar4Scalar_wStatus hs key 8 _
  case read =>
    intro s off r ha key hm hoff hlow hcheck hr hpos
    refine ⟨⟨_, exec_bar4Read ha hm, State.bar4Read_whole rfl hlow hoff hcheck hr hpos⟩, ⟨_, exec_bar4Read ha hm, ?_⟩, fun hi hlatch => ?_⟩
    · rw [State.bar4Read_low rfl hlow hoff hcheck hr hpos]
      exact ⟨rfl, rfl, rfl⟩
    · refine ⟨_, exec_bar4Read ha (by rw [(bar4_high_half hoff).1]; exact hm), ?_⟩
      rw [State.bar4Read_high rfl hlow hoff hcheck hr hpos hlatch]
      exact ⟨rfl, rfl⟩
  case unreadable =>
    intro s off size hs ha hm hlow hcheck
    refine ⟨_, exec_bar4Read ha hm, ?_⟩
    rw [State.bar4Read_refused rfl hlow hcheck]
    exact ⟨rfl, State.reg_setReg_self s _ _ (State.wf_regs hs), rfl⟩

end Sys2Proof.Machine
end

section
/-! PROOFS. The mailbox: its data registers, the end of an operation, and one equation for each operation (R477). -/

namespace Sys2Proof.Machine

/-! ### The mailbox's data registers -/

/-- The little-endian number of at most k bytes, written with k bytes, is those bytes padded. -/
theorem leBytes_ofLeBytes (k : Nat) (l : List Byte) (h : l.length ≤ k) : leBytes k (ofLeBytes l) = padTo k l := by
  induction k generalizing l with
  | zero =>
    obtain rfl : l = [] := List.length_eq_zero_iff.mp (Nat.le_zero.mp h)
    rfl
  | succ k ih =>
    cases l with
    | nil =>
      have := ih [] (Nat.zero_le k)
      simp_all [leBytes, ofLeBytes, padTo, List.replicate_succ]
    | cons b r =>
      have hr := ih r (by simpa using h)
      have hlow : BitVec.ofNat 8 (b.toNat + 256 * ofLeBytes r) = b := by
        apply BitVec.eq_of_toNat_eq
        simp only [BitVec.toNat_ofNat]
        omega
      have hhigh : (b.toNat + 256 * ofLeBytes r) / 256 = ofLeBytes r := by omega
      simp only [leBytes, ofLeBytes, hlow, hhigh, hr]
      simp [padTo]

/-- The words of a byte list, each written with four bytes, are the byte list with its last word padded. -/
theorem words_take (n : Nat) (bs : List Byte) (h : bs.length ≤ 4 * n) :
    ((List.range n).flatMap fun i => leBytes 4 (fieldAt bs (4 * i) 4)).take bs.length = bs := by
  induction n generalizing bs with
  | zero => simp_all
  | succ n ih =>
    have hshift : ∀ i, fieldAt bs (4 * (i + 1)) 4 = fieldAt (bs.drop 4) (4 * i) 4 := fun i => by
      simp only [fieldAt, List.drop_drop]
      rw [show 4 * (i + 1) = 4 + 4 * i by omega]
    have hhead : leBytes 4 (fieldAt bs (4 * 0) 4) = padTo 4 (bs.take 4) := by
      simpa [fieldAt] using leBytes_ofLeBytes 4 (bs.take 4) (by simp)
    have hrest := ih (bs.drop 4) (by simp; omega)
    rw [List.range_succ_eq_map, List.flatMap_cons, List.flatMap_map, hhead]
    simp only [Nat.succ_eq_add_one, hshift]
    rcases Nat.le_total 4 bs.length with hlong | hshort
    · have hfull : padTo 4 (bs.take 4) = bs.take 4 := by
        have := padTo_full (bs.take 4)
        rwa [List.length_take, Nat.min_eq_left hlong] at this
      rw [hfull, List.take_append, List.length_take, Nat.min_eq_left hlong, List.take_take, Nat.min_eq_right hlong]
      rw [List.length_drop] at hrest
      rw [hrest, List.take_append_drop]
    · have hall : bs.take 4 = bs := List.take_of_length_le hshort
      rw [hall, List.take_append_of_le_length (by simpa using hshort)]
      simp only [padTo, hall]
      exact List.take_left' rfl

/-- Words set from index i leave every register below it. -/
theorem State.setMbWords_reg_below (s : State) {n i : Nat} (h : n < Reg.glbOdMbData i) (ws : List Nat) : (s.setMbWords i ws).reg n = s.reg n := by
  induction ws generalizing s i with
  | nil => rfl
  | cons w r ih =>
    have hnext : n < Reg.glbOdMbData (i + 1) := by
      simp only [Reg.glbOdMbData] at h ⊢
      omega
    exact (ih _ hnext).trans (State.reg_setReg_other s (Nat.ne_of_lt h) w)

/-- A word that was set reads back. -/
theorem State.setMbWords_reg {s : State} (h : keysRise s.regs = true) (i : Nat) (ws : List Nat) {j : Nat} (hj : j < ws.length) :
    (s.setMbWords i ws).reg (Reg.glbOdMbData (i + j)) = ws[j] := by
  induction ws generalizing s i j with
  | nil => simp at hj
  | cons w r ih =>
    cases j with
    | zero =>
      refine (State.setMbWords_reg_below _ ?_ r).trans (State.reg_setReg_self s _ w h)
      simp only [Reg.glbOdMbData]
      omega
    | succ j =>
      rw [show i + (j + 1) = i + 1 + j by omega]
      exact ih (State.setReg_rise s h) (i + 1) (by simpa using hj)

/-- Bytes stored into GLB_OD_MB_DATA read back. -/
theorem State.mbData_setMbData {s : State} (h : keysRise s.regs = true) (bs : List Byte) : (s.setMbData bs).mbData bs.length = bs := by
  have hwords : ∀ i ∈ List.range (ceilDiv bs.length 4), leBytes 4 ((s.setMbData bs).reg (Reg.glbOdMbData i)) = leBytes 4 (fieldAt bs (4 * i) 4) := by
    intro i hi
    have hlt : i < (toWords (ceilDiv bs.length 4) bs).length := by simpa [toWords] using hi
    have := State.setMbWords_reg h 0 _ hlt
    rw [Nat.zero_add] at this
    unfold State.setMbData
    rw [this]
    simp [toWords]
  unfold State.mbData
  rw [List.flatMap_congr hwords]
  exact words_take _ bs (by simp only [ceilDiv]; omega)

/-- The mailbox's data are its data registers. -/
theorem State.mbData_congr {s t : State} (h : ∀ i, t.reg (Reg.glbOdMbData i) = s.reg (Reg.glbOdMbData i)) (n : Nat) : t.mbData n = s.mbData n := by
  simp only [State.mbData, h]

theorem State.setMbData_wf {s : State} (h : s.wf = true) (bs : List Byte) : (s.setMbData bs).wf = true :=
  State.setMbData_keeps (I := wfInv) (wfInv_has _) h

/-! ### The end of a mailbox operation -/

theorem State.mbFinish_status {s : State} (h : keysRise s.regs = true) (st : Status) (late : Bool) (handle : Nat) :
    (s.mbFinish st late handle).reg Reg.glbOdMbStatus = mbWord st late handle :=
  (State.raiseInt_reg _ (by decide) (by decide)).trans (State.reg_setReg_self _ _ _ h)

@[simp] theorem State.mbFinish_reg (s : State) {n : Nat} (h : n ≠ Reg.glbOdMbStatus) (h' : n ≠ Reg.glbIntStatus) (hn : n ≠ Reg.glbMsixSent)
    (st : Status) (late : Bool) (handle : Nat) : (s.mbFinish st late handle).reg n = s.reg n :=
  (State.raiseInt_reg _ h' hn).trans (State.reg_setReg_other _ h _)

@[simp] theorem State.mbFinish_dict (s : State) (st : Status) (late : Bool) (handle : Nat) : (s.mbFinish st late handle).dict = s.dict :=
  State.raiseInt_dict _ _ _
@[simp] theorem State.mbFinish_od (s : State) (st : Status) (late : Bool) (handle k : Nat) : (s.mbFinish st late handle).od k = s.od k :=
  State.raiseInt_od _ _ _ _
@[simp] theorem State.mbFinish_doors (s : State) (st : Status) (late : Bool) (handle : Nat) :
    (s.mbFinish st late handle).doors = { s.doors with mbBusy := false } :=
  State.raiseInt_doors _ _ _

/-- The end of an operation leaves the mailbox's data. -/
theorem State.mbFinish_mbData (s : State) (st : Status) (late : Bool) (handle n : Nat) : (s.mbFinish st late handle).mbData n = s.mbData n := by
  refine State.mbData_congr (fun i => s.mbFinish_reg ?_ ?_ ?_ st late handle) n <;>
    simp only [Reg.glbOdMbData, Reg.glbOdMbStatus, Reg.glbIntStatus, Reg.glbMsixSent] <;> omega

/-! ### The operations -/

/-- A GO is taken while the mailbox is free, the device is not held in reset and the index is no manufacturing-test one. -/
theorem State.mailboxGo_taken {s : State} (ha : s.awake) (hb : s.doors.mbBusy = false) (hm : s.manufacturing s.mbKey = false) (f : State → State) :
    s.mailboxGo f = .next (f s) := by
  simp [State.mailboxGo, show s.dev.resetHeld = false from ha, hb, hm]

/-- A GO while BUSY is ignored (R477). -/
theorem State.mailboxGo_busy {s : State} (hb : s.doors.mbBusy = true) (f : State → State) : s.mailboxGo f = .next s := by
  simp [State.mailboxGo, hb]

theorem State.odBytes_scalar (s : State) {key : Nat} {r : OdRow} (hr : odFind key = some r) (hscalar : r.type.maxBytes = none) :
    (s.odBytes key).length = r.type.bytes := by
  unfold State.odBytes
  simp only [hr, hscalar]
  split <;> simp

theorem State.mbRead_refused {s : State} (h : s.odReadCheck s.mbKey ≠ .ok) : s.mbRead = s.mbFinish (s.odReadCheck s.mbKey) false 0 := by
  unfold State.mbRead
  dsimp only
  split
  · exact absurd ‹_› h
  · rfl

/-- A scalar read from its first byte leaves its bytes in the data and their number in MB_LEN and MB_TOTAL. -/
theorem State.mbRead_scalar {s : State} {r : OdRow} (h : s.odReadCheck s.mbKey = .ok) (hr : odFind s.mbKey = some r) (hscalar : r.type.maxBytes = none)
    (hoff : s.reg Reg.glbOdMbOffset = 0) :
    s.mbRead = (((s.setMbData (s.odBytes s.mbKey)).setReg Reg.glbOdMbLen (s.odBytes s.mbKey).length).setReg Reg.glbOdMbTotal
      (s.odBytes s.mbKey).length).mbFinish .ok false 0 := by
  have hshort : (s.odBytes s.mbKey).take 4096 = s.odBytes s.mbKey := by
    refine List.take_of_length_le ?_
    rw [s.odBytes_scalar hr hscalar]
    cases r.type <;> decide
  unfold State.mbRead
  simp [h, hr, hscalar, hoff, hshort]

/-- A read changes no entry. -/
theorem State.mbRead_dict (s : State) : s.mbRead.dict = s.dict := by
  have hframe := State.mbRead_keeps (I := frameInv s [.regs, .doors, .irq, .out]) (fun _ h => h) (frameInv_self s _)
  exact (hframe.2 .dict).resolve_left (by decide)

theorem State.mbRead_idle (s : State) : s.mbRead.doors.mbBusy = false := by
  unfold State.mbRead
  dsimp only
  split
  · split <;> split <;> simp
  · simp

/-- What a read leaves: its status, the bytes, and their number twice. -/
theorem State.mbFinish_read {s : State} (hs : s.wf = true) (bs : List Byte) :
    let t := (((s.setMbData bs).setReg Reg.glbOdMbLen bs.length).setReg Reg.glbOdMbTotal bs.length).mbFinish .ok false 0
    t.reg Reg.glbOdMbStatus = mbWord .ok false 0 ∧ t.reg Reg.glbOdMbLen = bs.length ∧ t.reg Reg.glbOdMbTotal = bs.length ∧ t.mbData bs.length = bs := by
  have hdata := State.wf_regs (State.setMbData_wf hs bs)
  have hlen := State.setReg_rise (s.setMbData bs) (o := Reg.glbOdMbLen) (v := bs.length) hdata
  refine ⟨State.mbFinish_status (State.setReg_rise _ hlen) _ _ _, ?_, ?_, ?_⟩
  · rw [State.mbFinish_reg _ (by decide) (by decide) (by decide), State.reg_setReg_other _ (by decide)]
    exact State.reg_setReg_self _ _ _ hdata
  · rw [State.mbFinish_reg _ (by decide) (by decide) (by decide)]
    exact State.reg_setReg_self _ _ _ hlen
  · rw [State.mbFinish_mbData, State.mbData_congr (s := s.setMbData bs) fun i => ?_]
    · exact State.mbData_setMbData (State.wf_regs hs) bs
    · rw [State.reg_setReg_other, State.reg_setReg_other] <;> simp only [Reg.glbOdMbData, Reg.glbOdMbLen, Reg.glbOdMbTotal] <;> omega

theorem State.mbMalformed_long {s : State} (h : 4096 < s.reg Reg.glbOdMbLen) (last : Bool) : s.mbMalformed last = true := by
  simp [State.mbMalformed, h]

/-- A request that fits MB_DATA, at offset 0 and with LAST, is well shaped. -/
theorem State.mbMalformed_whole {s : State} (hlen : s.reg Reg.glbOdMbLen ≤ 4096) (hoff : s.reg Reg.glbOdMbOffset = 0) : s.mbMalformed true = false := by
  unfold State.mbMalformed
  simp only [hoff, decide_eq_false (Nat.not_lt.mpr hlen)]
  split <;> simp

theorem State.mbWrite_malformed {s : State} {last : Bool} (h : s.dev.state.ready = false ∨ s.mbMalformed last = true) :
    s.mbWrite last = s.countRefused.mbFinish (s.malformedStatus s.mbKey) false 0 := by
  unfold State.mbWrite
  rcases h with h | h <;> simp [h]

theorem State.mbWriteAt_malformed {s : State} {last : Bool} (h : s.mbMalformed last = true) :
    s.mbWriteAt last = s.countRefused.mbFinish (s.malformedStatus s.mbKey) false 0 := by
  simp [State.mbWriteAt, h]

/-- A whole scalar is written through the door; a transition that is only begun leaves the mailbox busy. -/
theorem State.mbWrite_scalar {s : State} {r : OdRow} (hready : s.dev.state.ready = true) (hr : odFind s.mbKey = some r)
    (hscalar : r.type.maxBytes = none) (hshape : s.mbMalformed true = false) :
    s.mbWrite true =
      let w := s.odWrite .host s.mbKey (s.reg Reg.glbOdMbLen) (ofLeBytes (s.mbData (s.reg Reg.glbOdMbLen))) .mailbox
      if w.1 = .pending then ({ w.2 with doors := { w.2.doors with mbBusy := true } }).setReg Reg.glbOdMbStatus 1 else w.2.mbFinish w.1 false 0 := by
  unfold State.mbWrite
  simp [hready, hr, hscalar, hshape]

/-- A malformed request ends counted, with the status that its index gives first. -/
theorem State.mbMalformed_ends {s : State} (hs : s.wf = true) (key : Nat) :
    let t := s.countRefused.mbFinish (s.malformedStatus key) false 0
    t.doors.mbBusy = false ∧ t.reg Reg.glbOdMbStatus = mbWord (s.malformedStatus key) false 0 ∧
      t.od Od.crvRequestsRefused = satAdd (odWidth Od.crvRequestsRefused) (s.od Od.crvRequestsRefused) 1 ∧
      ∀ k, k ≠ Od.crvRequestsRefused → t.od k = s.od k := by
  refine ⟨by simp, State.mbFinish_status (State.wf_regs (State.countRefused_wf hs)) _ _ _, ?_, fun k hk => ?_⟩
  · rw [State.mbFinish_od, State.countRefused_od_self hs]
  · rw [State.mbFinish_od, s.countRefused_od_other hk]

/-- A scheduled write for an LSN that has not passed and that the table does not hold yet takes a free handle, or finds the table full. -/
theorem State.writeAt_new {s : State} {o : Origin} {key len v at_ : Nat} (hok : s.writeAtCheck o key len v = .ok) (hpassed : s.lsnPassed at_ = false)
    (hnew : (s.doors.schedule.find? fun e => e.key == key && e.at_ == at_) = none) :
    s.writeAt o key len v at_ = match freeHandle s.doors.schedule with
      | none => (.tableFull, 0, false, s.countRefused)
      | some h =>
        let t := s.ledgerWrite 1 2 o key (odWidth key / 8) v s.web.lastLsn
        (.ok, h, false, { t with doors := { t.doors with schedule := s.doors.schedule.filter (fun e => e.handle != h) ++ [⟨h, key, at_, v, o⟩] } }) := by
  unfold State.writeAt
  simp only [hok, hpassed, hnew]
  cases freeHandle s.doors.schedule <;> rfl

theorem State.mbWriteAt_whole {s : State} (hshape : s.mbMalformed true = false) :
    s.mbWriteAt true =
      let w := s.writeAt .host s.mbKey (s.reg Reg.glbOdMbLen) (ofLeBytes (s.mbData (s.reg Reg.glbOdMbLen))) s.mbAt
      w.2.2.2.mbFinish w.1 w.2.2.1 w.2.1 := by
  simp [State.mbWriteAt, hshape]

theorem State.ledgerWrite_wf {s : State} (h : s.wf = true) {kind flags : Nat} {o : Origin} {key width value lsn : Nat} :
    (s.ledgerWrite kind flags o key width value lsn).wf = true :=
  State.ledgerWrite_keeps (I := wfInv) (wfInv_has _) h

/-- WRITE_AT of a well-shaped scalar that its checks accept, for an LSN that has not passed and that the table does not hold yet: it stands in
the table under its handle, or the table is full. -/
theorem State.mbWriteAt_new {s : State} (hs : s.wf = true) (hshape : s.mbMalformed true = false)
    (hok : s.writeAtCheck .host s.mbKey (s.reg Reg.glbOdMbLen) (ofLeBytes (s.mbData (s.reg Reg.glbOdMbLen))) = .ok)
    (hpassed : s.lsnPassed s.mbAt = false) (hnew : (s.doors.schedule.find? fun e => e.key == s.mbKey && e.at_ == s.mbAt) = none) :
    match freeHandle s.doors.schedule with
    | none => (s.mbWriteAt true).doors.schedule = s.doors.schedule ∧ (s.mbWriteAt true).reg Reg.glbOdMbStatus = mbWord .tableFull false 0
    | some h => (s.mbWriteAt true).doors.schedule = s.doors.schedule.filter (fun e => e.handle != h) ++
          [⟨h, s.mbKey, s.mbAt, ofLeBytes (s.mbData (s.reg Reg.glbOdMbLen)), .host⟩] ∧
        (s.mbWriteAt true).reg Reg.glbOdMbStatus = mbWord .ok false h := by
  rw [State.mbWriteAt_whole hshape, State.writeAt_new hok hpassed hnew]
  cases freeHandle s.doors.schedule with
  | none =>
    refine ⟨?_, State.mbFinish_status (State.wf_regs (State.countRefused_wf hs)) _ _ _⟩
    rw [State.mbFinish_doors, State.countRefused_doors]
  | some h =>
    refine ⟨by rw [State.mbFinish_doors], State.mbFinish_status ?_ _ _ _⟩
    exact State.wf_regs (State.ledgerWrite_wf hs)

/-- CANCEL_AT changes nothing but the schedule table. -/
theorem State.cancelAt_eq {s : State} (hready : s.dev.state.ready = true) (key at_ : Nat) :
    s.cancelAt key at_ = if 0xF000 ≤ key / 256 then (.state, s) else if odDefined key = .generation then (.generation, s)
      else if s.doors.schedule.any (fun e => e.key == key && e.at_ == at_) = true then
        (.ok, { s with doors := { s.doors with schedule := s.doors.schedule.filter fun e => !(e.key == key && e.at_ == at_) } })
      else (.notFound, s) := by
  simp [State.cancelAt, hready]

theorem State.mbCancelAt_eq (s : State) : s.mbCancelAt = (s.cancelAt s.mbKey s.mbAt).2.mbFinish (s.cancelAt s.mbKey s.mbAt).1 false 0 := rfl

theorem State.mbCancelAt_ends {s : State} (hs : s.wf = true) (hready : s.dev.state.ready = true) :
    let key := s.mbKey
    let t := s.mbCancelAt
    if 0xF000 ≤ key / 256 then t.doors.schedule = s.doors.schedule ∧ t.reg Reg.glbOdMbStatus = mbWord .state false 0
    else if odDefined key = .generation then t.doors.schedule = s.doors.schedule ∧ t.reg Reg.glbOdMbStatus = mbWord .generation false 0
    else t.doors.schedule = (s.doors.schedule.filter fun e => !(e.key == key && e.at_ == s.mbAt)) ∧
      t.reg Reg.glbOdMbStatus = mbWord (if s.doors.schedule.any (fun e => e.key == key && e.at_ == s.mbAt) = true then .ok else .notFound) false 0 := by
  have hstatus (st : Status) := State.mbFinish_status (State.wf_regs hs) st false 0
  have hsched (st : Status) : (s.mbFinish st false 0).doors.schedule = s.doors.schedule := by rw [State.mbFinish_doors]
  dsimp only
  rw [State.mbCancelAt_eq, State.cancelAt_eq hready]
  by_cases hmanufacturing : 0xF000 ≤ s.mbKey / 256
  · simp only [if_pos hmanufacturing]
    exact ⟨hsched _, hstatus _⟩
  simp only [if_neg hmanufacturing]
  by_cases hgeneration : odDefined s.mbKey = .generation
  · simp only [if_pos hgeneration]
    exact ⟨hsched _, hstatus _⟩
  simp only [if_neg hgeneration]
  by_cases hfound : (s.doors.schedule.any fun e => e.key == s.mbKey && e.at_ == s.mbAt) = true
  · simp only [if_pos hfound]
    refine ⟨by rw [State.mbFinish_doors], State.mbFinish_status ?_ _ _ _⟩
    exact State.wf_regs hs
  · simp only [if_neg hfound]
    refine ⟨(hsched _).trans (List.filter_eq_self.mpr fun e he => ?_).symm, hstatus _⟩
    rw [Bool.not_eq_true', ← Bool.not_eq_true]
    exact fun hsame => hfound (List.any_eq_true.mpr ⟨e, he, hsame⟩)

theorem describeRow_length (key : Nat) (r : OdRow) : (describeRow key r).length = 8 := by
  simp [describeRow]

theorem State.describe_found {s : State} {key : Nat} {r : OdRow} (hready : s.dev.state.ready = true) (hkey : key / 256 < 0xA000)
    (hr : odFind key = some r) : s.describe key = (.ok, describeRow key r) := by
  have hdefined : odDefined key = .ok := by
    have : ¬ 0xA000 ≤ key / 256 := by omega
    simp [odDefined, hr, this]
  have : ¬ 0xF000 ≤ key / 256 := by omega
  simp [State.describe, hready, this, hdefined, hr]

theorem State.mbDescribe_found {s : State} (hs : s.wf = true) {r : OdRow} (hready : s.dev.state.ready = true) (hkey : s.mbKey / 256 < 0xA000)
    (hr : odFind s.mbKey = some r) :
    s.mbDescribe.doors.mbBusy = false ∧ s.mbDescribe.mbData 8 = describeRow s.mbKey r ∧ s.mbDescribe.reg Reg.glbOdMbStatus = mbWord .ok false 0 := by
  have hend : s.mbDescribe = (s.setMbData (describeRow s.mbKey r)).mbFinish .ok false 0 := by
    simp [State.mbDescribe, State.describe_found hready hkey hr]
  have hdata := State.mbData_setMbData (State.wf_regs hs) (describeRow s.mbKey r)
  rw [describeRow_length] at hdata
  rw [hend]
  exact ⟨by rw [State.mbFinish_doors], (State.mbFinish_mbData _ _ _ _ _).trans hdata,
    State.mbFinish_status (State.wf_regs (State.setMbData_wf hs _)) _ _ _⟩

/-- A mailbox command ends where its GO runs the operation. -/
theorem answers_go {c : Instr} {s : State} {f : State → State} {p : State → Prop} (hc : exec c s = s.mailboxGo f) (ha : s.awake)
    (hb : s.doors.mbBusy = false) (hm : s.manufacturing s.mbKey = false) (hp : p (f s)) : Answers c s p :=
  ⟨f s, hc.trans (State.mailboxGo_taken ha hb hm f), hp⟩

/-- Settles O50: a GO runs its operation, and each operation ends by `State.mbFinish`, but for a transition that is only begun. -/
theorem mailboxOperationsEnd : Obligations.MailboxOperationsEnd := by
  unfold Obligations.MailboxOperationsEnd
  refine ⟨fun s hb c hc => ⟨s, ?busy, rfl⟩, fun s hs ha hb hm => ?_⟩
  case busy =>
    simp only [List.mem_cons, List.not_mem_nil, or_false] at hc
    rcases hc with rfl | rfl | rfl | rfl | rfl | rfl | rfl
    · exact State.mailboxGo_busy hb State.mbRead
    · exact State.mailboxGo_busy hb fun t => t.mbWrite true
    · exact State.mailboxGo_busy hb fun t => t.mbWrite false
    · exact State.mailboxGo_busy hb fun t => t.mbWriteAt true
    · exact State.mailboxGo_busy hb fun t => t.mbWriteAt false
    · exact State.mailboxGo_busy hb State.mbCancelAt
    · exact State.mailboxGo_busy hb State.mbDescribe
  intro key v len
  refine ⟨?read, fun hready last => ?writeNotReady, fun hready hlong last => ?long, fun r hready hr hscalar hoff hlen => ?writeScalar,
    fun hok hlen hoff hpassed => ?writeAt, fun hready => ?cancel, fun r hready hkey hr => ?describe⟩
  case read =>
    refine answers_go (f := State.mbRead) rfl ha hb hm ⟨s.mbRead_idle, s.mbRead_dict, fun hcheck => ?_, fun r hcheck hr hscalar hoff => ?_⟩
    · rw [State.mbRead_refused hcheck]
      exact State.mbFinish_status (State.wf_regs hs) _ _ _
    · rw [State.mbRead_scalar hcheck hr hscalar hoff]
      exact State.mbFinish_read hs _
  case writeNotReady =>
    refine answers_go (f := fun t => t.mbWrite last) rfl ha hb hm ?_
    obtain ⟨hidle, hstatus, _⟩ := State.mbMalformed_ends hs s.mbKey
    have hst : s.malformedStatus s.mbKey = .notReady := by rw [State.malformedStatus_eq, if_pos hready]
    rw [State.mbWrite_malformed (Or.inl hready)]
    exact ⟨hidle, hst ▸ hstatus⟩
  case long =>
    intro st turned
    have hst : s.malformedStatus key = st := by
      rw [State.malformedStatus_eq, hready, if_neg (by decide)]
    have hshape := State.mbMalformed_long hlong last
    have hends : turned (s.countRefused.mbFinish (s.malformedStatus key) false 0) := hst ▸ State.mbMalformed_ends hs key
    exact ⟨answers_go (f := fun t => t.mbWrite last) rfl ha hb hm (State.mbWrite_malformed (Or.inr hshape) ▸ hends),
      answers_go (f := fun t => t.mbWriteAt last) rfl ha hb hm (State.mbWriteAt_malformed hshape ▸ hends)⟩
  case writeScalar =>
    refine answers_go (f := fun t => t.mbWrite true) rfl ha hb hm ?_
    have hdoor := State.wf_regs (State.odWrite_wf hs .host key len v .mailbox)
    rw [State.mbWrite_scalar hready hr hscalar (State.mbMalformed_whole hlen hoff)]
    dsimp only
    split
    · exact ⟨rfl, State.reg_setReg_self _ _ _ hdoor⟩
    · exact ⟨by rw [State.mbFinish_doors], State.mbFinish_status hdoor _ _ _⟩
  case writeAt =>
    have hshape := State.mbMalformed_whole hlen hoff
    refine answers_go (f := fun t => t.mbWriteAt true) rfl ha hb hm ⟨?_, fun h hnew hfree => ?_, fun hnew hfull => ?_⟩
    · rw [State.mbWriteAt_whole hshape, State.mbFinish_doors]
    · have hends := State.mbWriteAt_new hs hshape hok hpassed hnew
      rwa [hfree] at hends
    · have hends := State.mbWriteAt_new hs hshape hok hpassed hnew
      rwa [hfull] at hends
  case cancel =>
    refine answers_go (f := State.mbCancelAt) rfl ha hb hm ⟨?_, State.mbCancelAt_ends hs hready⟩
    rw [State.mbCancelAt_eq, State.mbFinish_doors]
  case describe => exact answers_go (f := State.mbDescribe) rfl ha hb hm (State.mbDescribe_found hs hready hkey hr)

end Sys2Proof.Machine
end

section
/-! PROOFS. What an operation's `…_keeps` lemma leaves unchanged, and the LSN counter: it advances at a line trigger and at no other time (R14, R23). -/

namespace Sys2Proof.Machine

/-! ### Parts that are as before -/

/-- The parts of `l` are as in s, and so is the queue. -/
def keepInv (s : State) (l : List Part) : Inv := frameInv s (Part.all.filter fun p => !l.contains p)

theorem keepInv_has {s : State} {l m : List Part} (h : (m.all fun p => !l.contains p) = true) : (keepInv s l).has m := fun p hp =>
  List.mem_filter.mpr ⟨by cases p <;> decide, List.all_eq_true.mp h p hp⟩

theorem keepInv_self (s : State) (l : List Part) : (keepInv s l).P s := frameInv_self s _

theorem keepInv_same {s t : State} {l : List Part} (h : (keepInv s l).P t) {p : Part} (hp : p ∈ l) : p.same s t :=
  (h.2 p).resolve_left fun hm => by simp [hp] at hm

/-- What a command does not touch is as before. -/
theorem exec_same {c : Instr} {s t : State} (h : exec c s = .next t) {p : Part} (hp : p ∉ c.touches) : p.same s t :=
  ((exec_keeps (I := frameInv s c.touches) c (fun _ hq => hq) (frameInv_self s _) t h).2 p).resolve_left hp

/-! ### A line trigger -/

/-- From s to t the line sequence stays, or makes the one step of a line trigger. -/
def LineMove (s t : State) : Prop :=
  t.web.line = s.web.line ∨ t.web.line = (s.web.x + 1, mod48 s.web.x, true) ∧ (s.dev.state = .armed ∨ s.dev.state = .run)

/-- What happens before the move, and after it, keeps the line sequence. -/
theorem LineMove.before {s t u : State} (h : (keepInv s [.line, .devState]).P t) (hm : LineMove t u) : LineMove s u := by
  have hline : t.web.line = s.web.line := keepInv_same h (p := .line) (by simp)
  have hstate : t.dev.state = s.dev.state := keepInv_same h (p := .devState) (by simp)
  obtain ⟨hx, _⟩ := Prod.mk.inj hline
  rwa [LineMove, hline, hstate, hx] at hm

theorem LineMove.after {s t u : State} (hm : LineMove s t) (h : (keepInv t [.line]).P u) : LineMove s u := by
  have hline : u.web.line = t.web.line := keepInv_same h (p := .line) (by simp)
  rwa [LineMove, hline]

theorem LineMove.of_keeps {s t : State} (h : (keepInv s [.line, .devState]).P t) : LineMove s t :=
  Or.inl (keepInv_same h (p := .line) (by simp))

theorem LineMove.refl (s : State) : LineMove s s := Or.inl rfl

/-- A trigger carries the LSN of the extended count before it, which it advances (R14, R23). -/
theorem State.trigger_line (s : State) (thr : Int) : (s.trigger thr).web.line = (s.web.x + 1, mod48 s.web.x, true) := by
  unfold State.trigger
  extract_lets x lsn s1 w s2 s3 s4 s5 s6
  have h3 : (keepInv s2 [.line]).P s3 := State.phaseRecord_keeps (keepInv_has rfl) (keepInv_self _ _)
  have h4 : (keepInv s2 [.line]).P s4 := State.triggerPorts_keeps (keepInv_has rfl) h3
  have h5 : (keepInv s2 [.line]).P s5 := by
    dsimp only [s5]
    split
    · exact State.groupComplete_keeps (keepInv_has rfl) h4
    · exact h4
  have h6 : (keepInv s2 [.line]).P s6 := Inv.ite (State.sendBarrier_keeps (keepInv_has rfl) h5) h5
  exact keepInv_same (Inv.ite (State.event_keeps (keepInv_has rfl) h6) h6) (p := .line) (by simp)

theorem State.plainTrigger_line (s : State) : s.plainTrigger.web.line = (s.web.x + 1, mod48 s.web.x, true) := State.trigger_line s _

theorem State.triggering_iff (s : State) : s.triggering = true ↔ s.dev.state = .armed ∨ s.dev.state = .run := by
  simp [State.triggering]

theorem State.cameraTrigger_line (s : State) (c : PortIx) : LineMove s (s.cameraTrigger c) := by
  unfold State.cameraTrigger
  split
  · rename_i h
    simp only [Bool.and_eq_true] at h
    obtain ⟨⟨⟨⟨_, htriggering⟩, _⟩, _⟩, _⟩ := h
    exact Or.inr ⟨s.plainTrigger_line, s.triggering_iff.mp htriggering⟩
  · exact LineMove.refl s

/-- The opening of a row triggers at most once: the reference port's line in camera mode (R73). -/
theorem State.rowOpen_line (s : State) (c : PortIx) (check : Bool) : LineMove s (s.rowOpen c check) := by
  unfold State.rowOpen
  extract_lets s1
  have h1 : LineMove s s1 := LineMove.before (State.flushHeld_keeps (keepInv_has rfl) (State.countRow_keeps (keepInv_has rfl)
    (State.openingValues_keeps (keepInv_has rfl) (keepInv_self _ _)))) (State.cameraTrigger_line _ c)
  exact h1.after (State.modPort_keeps (keepInv_has rfl) (State.matchRow_snd (keepInv_has rfl) (keepInv_self _ _)))

theorem State.badPacket_line (s : State) (c : PortIx) (lane : Fin 4) (pixels : List W16) : LineMove s (s.badPacket c lane pixels) := by
  unfold State.badPacket
  extract_lets s1 s2
  have h2 : (keepInv s [.line, .devState]).P s2 := State.modFrame_keeps (keepInv_has rfl) (State.camInt_keeps (keepInv_has rfl)
    (State.camCount_keeps (keepInv_has rfl) (State.camCount_keeps (keepInv_has rfl) (keepInv_self _ _))))
  split
  · exact LineMove.of_keeps h2
  · split
    · exact LineMove.before h2 (s2.rowOpen_line c true)
    · exact LineMove.of_keeps (State.rowPixels_keeps (keepInv_has rfl) h2)
    · exact LineMove.of_keeps h2

theorem State.onStream_line {s : State} {c : PortIx} {stream : Byte} {f : State → State} (hf : ∀ u, LineMove u (f u)) :
    LineMove s (s.onStream c stream f) := by
  unfold State.onStream
  extract_lets id s1
  have h1 : (keepInv s [.line, .devState]).P s1 := State.modPort_keeps (keepInv_has rfl) (keepInv_self _ _)
  split
  · exact LineMove.refl s
  · split
    · split
      · exact LineMove.before h1 (hf s1)
      · exact LineMove.of_keeps h1
    · exact LineMove.of_keeps (State.malformed_keeps (keepInv_has rfl) (keepInv_self _ _))

/-- The position after one decoded count, which is the new high where it lies beyond it (R15, R17). -/
def State.counted (s : State) (dir : Bool) : State :=
  let pos := s.web.pos + (if dir then 1 else -1)
  { s with web := { s.web with pos := pos, high := max s.web.high pos, windowCounts := s.web.windowCounts + 1 } }

/-- The next threshold lies one pitch beyond the present one (R15). -/
def State.nextThreshold (s : State) : State := { s with web := { s.web with next := s.web.next + (s.od Od.webLinePitch : Int) } }

/-- Does a count in this direction bring the position to a new threshold, in a state in which the encoder triggers lines (R14, R15, R78)? -/
def State.countTriggers (s : State) (dir : Bool) : Prop :=
  s.web.high < (s.counted dir).web.pos ∧ s.triggering = true ∧ s.od Od.webLineSource = 0 ∧ s.web.next ≤ (s.counted dir).web.pos * 65536

theorem State.count_triggers {s : State} {dir : Bool} (h : s.countTriggers dir) :
    s.count dir = ((s.counted dir).trigger s.web.next).nextThreshold := by
  obtain ⟨hpos, htriggering, hsource, hnext⟩ := h
  simp only [State.counted] at hpos hnext
  have hstate (u : Web) : ({ s with web := u } : State).triggering = true := htriggering
  have hod (u : Web) : ({ s with web := u } : State).od Od.webLineSource = 0 := hsource
  simp [State.count, State.counted, State.nextThreshold, not_le.mpr hpos, max_eq_right hpos.le, hstate, hod, not_lt.mpr hnext]

theorem State.count_stays {s : State} {dir : Bool} (h : ¬ s.countTriggers dir) : s.count dir = s.counted dir := by
  unfold State.count
  extract_lets w1 s1 w2 s2
  by_cases hpos : s1.web.pos ≤ s1.web.high
  · rw [if_pos hpos, State.counted, max_eq_left hpos]
  · rw [if_neg hpos]
    have hhigh : s2 = s.counted dir := by rw [State.counted, max_eq_right (not_le.mp hpos).le]
    rw [if_pos, hhigh]
    by_contra hc
    simp only [Bool.or_eq_true, not_or, Bool.not_eq_true', Bool.not_eq_false, bne_iff_ne, not_not, decide_eq_true_eq, not_lt] at hc
    exact h ⟨not_le.mp hpos, hc.1.1, hc.1.2, hc.2⟩

theorem State.count_line (s : State) (dir : Bool) : LineMove s (s.count dir) := by
  by_cases h : s.countTriggers dir
  · rw [State.count_triggers h]
    obtain ⟨_, htriggering, _⟩ := h
    exact Or.inr ⟨State.trigger_line (s.counted dir) _, s.triggering_iff.mp htriggering⟩
  · rw [State.count_stays h]
    exact LineMove.refl s

/-! ### The commands that trigger lines -/

/-- Every next state is reached by one move of the line sequence at most. -/
def Result.linesMove (s : State) (r : Result) : Prop := ∀ t, r = .next t → LineMove s t

theorem State.act_linesMove {s : State} {f : State → State} (hf : LineMove s (f s)) : Result.linesMove s (s.act f) := by
  intro t ht
  cases ht
  split
  · exact LineMove.refl s
  · exact hf

theorem execEncoderCount_line (sample : EncSample) (s : State) : Result.linesMove s (execEncoderCount sample s) := by
  refine State.act_linesMove ?_
  split
  · exact LineMove.refl s
  · split
    · exact LineMove.refl s
    · split
      · exact LineMove.refl s
      · split
        · exact State.count_line (s.encSample _ _) _
        · exact LineMove.refl s

theorem execLineTimerExpiry_line (s : State) : Result.linesMove s (execLineTimerExpiry s) := by
  refine State.act_linesMove ?_
  split
  · exact LineMove.refl s
  · rename_i h
    simp only [Bool.or_eq_true, not_or, Bool.not_eq_true', Bool.not_eq_false] at h
    obtain ⟨_, htriggering⟩ := h
    exact Or.inr ⟨State.plainTrigger_line _, s.triggering_iff.mp htriggering⟩

theorem execImageHeader_line (c : PortIx) (stream pixelBits arrangement : Byte) (failedOn : Option (Fin 4)) (s : State) :
    Result.linesMove s (execImageHeader c stream pixelBits arrangement failedOn s) := by
  refine State.act_linesMove ?_
  split
  · exact s.badPacket_line c _ _
  · extract_lets foreign ok t
    have h : LineMove s t := State.onStream_line fun _ => LineMove.of_keeps (State.openFrame_keeps (keepInv_has rfl)
      (Inv.ite (State.closeFrame_keeps (keepInv_has rfl) (State.rowEnd_keeps (keepInv_has rfl) (keepInv_self _ _)))
        (State.rowEnd_keeps (keepInv_has rfl) (keepInv_self _ _))))
    split
    · exact h
    · exact h.after (State.malformed_keeps (keepInv_has rfl) (keepInv_self _ _))

theorem execLineMarker_line (c : PortIx) (stream : Byte) (s : State) : Result.linesMove s (execLineMarker c stream s) :=
  State.act_linesMove (State.onStream_line fun _ => LineMove.before
    (Inv.ite (State.openFrame_keeps (keepInv_has rfl) (keepInv_self _ _)) (State.rowEnd_keeps (keepInv_has rfl) (keepInv_self _ _)))
    (State.rowOpen_line _ c false))

theorem execCheckFailedPacket_line (c : PortIx) (lane : Fin 4) (pixels : List W16) (s : State) :
    Result.linesMove s (execCheckFailedPacket c lane pixels s) := State.act_linesMove (s.badPacket_line c lane _)

/-! ### The commands that reset -/

/-- Every next state is held in reset or has the line sequence of s. -/
def Result.holdsOrKeeps (s : State) (r : Result) : Prop := ∀ t, r = .next t → t.dev.resetHeld = true ∨ t.web.line = s.web.line

theorem Inv.ok_holdsOrKeeps {s : State} {r : Result} (h : (keepInv s [.line]).ok r) : Result.holdsOrKeeps s r := fun t ht =>
  Or.inr (keepInv_same (h t ht) (p := .line) (by simp))

theorem Result.holdsOrKeeps_next {s t : State} (h : t.dev.resetHeld = true ∨ t.web.line = s.web.line) : Result.holdsOrKeeps s (.next t) := by
  intro u hu
  cases hu
  exact h

theorem State.act_holdsOrKeeps {s : State} {f : State → State} (h : (f s).dev.resetHeld = true ∨ (keepInv s [.line]).P (f s)) :
    Result.holdsOrKeeps s (s.act f) := by
  refine Result.holdsOrKeeps_next ?_
  split
  · exact Or.inr rfl
  · exact h.imp_right fun k => keepInv_same k (p := .line) (by simp)

@[simp] theorem State.conventionalReset_held (s : State) (reason rail : Nat) : (s.conventionalReset reason rail).dev.resetHeld = true := rfl

theorem State.resetBy_held (s : State) (reason rail : Nat) : (s.resetBy reason rail).dev.resetHeld = true := by
  unfold State.resetBy
  split
  · rfl
  · rename_i h
    have hheld : s.dev.resetHeld = true := by simpa using h
    split <;> exact hheld

/-- The commands that can reset the device, but for a register write, which may be one of them. -/
inductive Resets : Instr → Prop where
  | powerOnReset : Resets .powerOnReset
  | pwrGoodFall : Resets .pwrGoodFall
  | perstAssert : Resets .perstAssert
  | sysRefclkLoss : Resets .sysRefclkLoss
  | vddResetLevel (mv : W16) : Resets (.vddResetLevel mv)
  | railMonitorFall (rail : Fin 5) : Resets (.railMonitorFall rail)
  | thermalSample (junction stack : List W16) : Resets (.thermalSample junction stack)
  | bootWatchdogExpiry : Resets .bootWatchdogExpiry
  | glbResetWrite (value : W32) : Resets (.glbResetWrite value)
  | safReboot (value : W32) : Resets (.safReboot value)
  | integrityResetTimeout : Resets .integrityResetTimeout

theorem execPowerOnReset_line (s : State) : Result.holdsOrKeeps s (execPowerOnReset s) := by
  unfold execPowerOnReset
  split
  · exact Result.holdsOrKeeps_next (Or.inr rfl)
  · exact Result.holdsOrKeeps_next (Or.inl rfl)

theorem State.resetCause_line (s : State) (reason rail : Nat) : Result.holdsOrKeeps s (s.resetCause reason rail) :=
  Result.holdsOrKeeps_next (Or.inl (s.resetBy_held reason rail))

theorem execVddResetLevel_line (mv : W16) (s : State) : Result.holdsOrKeeps s (execVddResetLevel mv s) := by
  unfold execVddResetLevel
  split
  · exact s.resetCause_line 3 0
  · exact State.act_holdsOrKeeps (Or.inr (State.readVdd_keeps (keepInv_has rfl) (keepInv_self _ _)))

theorem execThermalSample_line (junction stack : List W16) (s : State) : Result.holdsOrKeeps s (execThermalSample junction stack s) := by
  refine Result.holdsOrKeeps_next ?_
  extract_lets all stk v hot
  split
  · split <;> exact Or.inr rfl
  · split
    · exact Or.inl (s.resetBy_held 5 0)
    · split
      · exact Or.inr rfl
      · exact Or.inr (keepInv_same (State.stackLevels_keeps (keepInv_has rfl) (State.junctionLevels_keeps (keepInv_has rfl)
          (State.storeSensors_keeps (keepInv_has rfl) (keepInv_self _ [.line])))) (p := .line) (by simp))

theorem execBootWatchdogExpiry_line (s : State) : Result.holdsOrKeeps s (execBootWatchdogExpiry s) := by
  refine State.act_holdsOrKeeps ?_
  split
  · exact Or.inr (keepInv_self _ _)
  · split
    · exact Or.inr (State.firstEntry_keeps (keepInv_has rfl) (State.enter_keeps (keepInv_has rfl) (State.discardSchedule_keeps (keepInv_has rfl)
        (State.safeUnits_keeps (keepInv_has rfl) (State.setOd_keeps (keepInv_has rfl) (keepInv_self _ _))))))
    · exact Or.inl rfl

theorem execGlbResetWrite_line (value : W32) (s : State) : Result.holdsOrKeeps s (execGlbResetWrite value s) := by
  refine State.act_holdsOrKeeps ?_
  split
  · exact Or.inl rfl
  · exact Or.inr (keepInv_self _ _)

theorem execSafReboot_line (value : W32) (s : State) : Result.holdsOrKeeps s (execSafReboot value s) := by
  refine State.act_holdsOrKeeps ?_
  dsimp only
  split
  · exact Or.inl rfl
  · exact Or.inr (State.safCommand_keeps (keepInv_has rfl) (keepInv_self _ _))

theorem execIntegrityResetTimeout_line (s : State) : Result.holdsOrKeeps s (execIntegrityResetTimeout s) := by
  refine State.act_holdsOrKeeps ?_
  split
  · exact Or.inl rfl
  · exact Or.inr (keepInv_self _ _)

/-- A command that can reset the device leaves it held in reset, or the line sequence as it was. -/
theorem exec_resets_line {c : Instr} (h : Resets c) (s : State) : Result.holdsOrKeeps s (exec c s) := by
  cases h with
  | powerOnReset => exact execPowerOnReset_line s
  | pwrGoodFall => exact Result.holdsOrKeeps_next (Or.inl rfl)
  | perstAssert => exact s.resetCause_line 2 0
  | sysRefclkLoss => exact s.resetCause_line 7 0
  | vddResetLevel mv => exact execVddResetLevel_line mv s
  | railMonitorFall rail => exact s.resetCause_line 4 rail.val
  | thermalSample junction stack => exact execThermalSample_line junction stack s
  | bootWatchdogExpiry => exact execBootWatchdogExpiry_line s
  | glbResetWrite value => exact execGlbResetWrite_line value s
  | safReboot value => exact execSafReboot_line value s
  | integrityResetTimeout => exact execIntegrityResetTimeout_line s

theorem exec_untouched_line {c : Instr} (h : c.touches.contains Part.line = false) (s : State) : Result.holdsOrKeeps s (exec c s) := fun _ ht =>
  Or.inr (exec_same ht (p := .line) (by simpa using h))

/-! ### Register writes -/

/-- A word whose register has a command of its own is written by that command (R489): one of those that can reset, or one that leaves the line sequence. -/
def isCommand (s : State) (r : Result) : Prop := ∃ c : Instr, r = exec c s ∧ (Resets c ∨ c.touches.contains Part.line = false)

/-- The command that a write is, where it is one. -/
def commandOrNone (s : State) (o : Option Result) : Prop := ∀ r, o = some r → isCommand s r

theorem commandOrNone_none {s : State} : commandOrNone s none := fun _ h => nomatch h

theorem commandOrNone_some {s : State} {c : Instr} (h : Resets c ∨ c.touches.contains Part.line = false) : commandOrNone s (some (exec c s)) :=
  fun _ hr => ⟨c, (Option.some.inj hr).symm, h⟩

theorem commandOrNone_ite {s : State} {p : Prop} [Decidable p] {a b : Option Result} (ha : commandOrNone s a) (hb : commandOrNone s b) :
    commandOrNone s (if p then a else b) := by
  split
  · exact ha
  · exact hb

theorem mbCommand_isCommand (v : Nat) (s : State) : commandOrNone s (mbCommand v s) := by
  unfold mbCommand
  refine commandOrNone_ite commandOrNone_none ?_
  split
  · exact commandOrNone_some (c := .mbRead) (Or.inr rfl)
  · exact commandOrNone_some (c := .mbWrite _) (Or.inr rfl)
  · exact commandOrNone_some (c := .mbWriteAt _) (Or.inr rfl)
  · exact commandOrNone_some (c := .mbCancelAt) (Or.inr rfl)
  · exact commandOrNone_some (c := .mbDescribe) (Or.inr rfl)
  · exact commandOrNone_none

theorem safWrite_isCommand (v : Nat) (s : State) : commandOrNone s (safWrite v s) := by
  unfold safWrite
  dsimp only
  split
  · exact commandOrNone_some (c := .safVerify _) (Or.inr rfl)
  · exact commandOrNone_some (c := .safProgram _) (Or.inr rfl)
  · exact commandOrNone_some (c := .safSetBoot _) (Or.inr rfl)
  · exact commandOrNone_some (c := .safReboot _) (Or.inl (Resets.safReboot _))
  · exact commandOrNone_some (c := .safCommitVersion _) (Or.inr rfl)
  · exact commandOrNone_some (c := .safRevoke _) (Or.inr rfl)
  · exact commandOrNone_some (c := .safAttest _) (Or.inr rfl)
  · exact commandOrNone_none

theorem cmdWrite_isCommand (base i v : Nat) (s : State) : commandOrNone s (cmdWrite base i v s) := by
  unfold cmdWrite
  dsimp only
  refine commandOrNone_ite (commandOrNone_some (c := .cqPiWrite _ _) (Or.inr rfl)) ?_
  iterate 4 refine commandOrNone_ite (commandOrNone_some (c := .ringCiWrite _ _) (Or.inr rfl)) ?_
  iterate 4 refine commandOrNone_ite (commandOrNone_some (c := .ringSlotsWrite _ _) (Or.inr rfl)) ?_
  refine commandOrNone_ite (commandOrNone_ite (commandOrNone_some (c := .cqRestart _) (Or.inr rfl)) commandOrNone_none) ?_
  refine commandOrNone_ite (commandOrNone_some (c := .cmdAbort _) (Or.inr rfl)) ?_
  refine commandOrNone_ite (commandOrNone_some (c := .cmdSyncValueWrite _) (Or.inr rfl)) ?_
  exact commandOrNone_ite (commandOrNone_some (c := .cmdSyncAdd _) (Or.inr rfl)) commandOrNone_none

theorem ownWrite_isCommand (base i v : Nat) (s : State) : commandOrNone s (ownWrite base i v s) := by
  unfold ownWrite
  dsimp only
  refine commandOrNone_ite (commandOrNone_ite ?_ commandOrNone_none) ?_
  · split
    · exact commandOrNone_some (c := .camCcWrite _) (Or.inr rfl)
    · exact commandOrNone_some (c := .camCcRead _) (Or.inr rfl)
  refine commandOrNone_ite (commandOrNone_some (c := .fsTblDataAccess (sliceIx i) (some (BitVec.ofNat 32 v))) (Or.inr rfl)) ?_
  refine commandOrNone_ite (commandOrNone_some (c := .fsTblCommit _ _) (Or.inr rfl)) ?_
  refine commandOrNone_ite (commandOrNone_some (c := .coreParkWrite _ _) (Or.inr rfl)) ?_
  refine commandOrNone_ite (commandOrNone_some (c := .freqTargetWrite _ _) (Or.inr rfl)) ?_
  refine commandOrNone_ite (commandOrNone_some (c := .coreTmDataAccess (coreIx i) (some (BitVec.ofNat 32 v))) (Or.inr rfl)) ?_
  refine commandOrNone_ite (commandOrNone_some (c := .oasisQpowerWrite _) (Or.inr rfl)) ?_
  refine commandOrNone_ite (commandOrNone_some (c := .streamCopyGo _) (Or.inr rfl)) ?_
  refine commandOrNone_ite (commandOrNone_some (c := .ctxClearWrite _) (Or.inr rfl)) ?_
  refine commandOrNone_ite (commandOrNone_some (c := .linkCtrlRetrain _ _) (Or.inr rfl)) ?_
  refine commandOrNone_ite ?_ ?_
  · split
    · exact commandOrNone_some (c := .trimCmdForce _) (Or.inr rfl)
    · exact commandOrNone_some (c := .trimCmdMakeDue _) (Or.inr rfl)
  refine commandOrNone_ite (commandOrNone_some (c := .ledgerSpillCiWrite _) (Or.inr rfl)) ?_
  refine commandOrNone_ite (commandOrNone_some (c := .ledgerReadSeqWrite _) (Or.inr rfl)) ?_
  refine commandOrNone_ite (commandOrNone_some (c := .glbResetWrite _) (Or.inl (Resets.glbResetWrite _))) ?_
  refine commandOrNone_ite (mbCommand_isCommand v s) ?_
  exact commandOrNone_ite (safWrite_isCommand v s) (cmdWrite_isCommand base i v s)

theorem isCommand_line {s : State} {r : Result} (h : isCommand s r) : Result.holdsOrKeeps s r := by
  obtain ⟨c, rfl, hc⟩ := h
  exact hc.elim (fun h => exec_resets_line h s) fun h => exec_untouched_line h s

theorem wordWrite_line (off v : Nat) (s : State) : Result.holdsOrKeeps s (wordWrite off v s) := by
  have hplain : Result.holdsOrKeeps s (.next (s.writeReg off v)) :=
    Inv.ok_holdsOrKeeps (Inv.ok_next (State.writeReg_keeps (keepInv_has rfl) (keepInv_self _ _)))
  unfold wordWrite
  split
  · exact Result.holdsOrKeeps_next (Or.inr rfl)
  · split
    · rename_i row _
      cases hown : ownWrite row.base (row.index off) v s with
      | none => exact hplain
      | some r => exact isCommand_line (ownWrite_isCommand _ _ _ _ _ hown)
    · exact hplain

/-- Words written while the device is held in reset change nothing. -/
theorem wordsWrite_held {s : State} (h : s.dev.resetHeld = true) (words : List Nat) (v : Nat) : wordsWrite v words s = .next s := by
  induction words generalizing v with
  | nil => rfl
  | cons off rest ih =>
    have hw : wordWrite off (v % 2 ^ 32) s = .next s := by simp [wordWrite, h]
    simp only [wordsWrite, hw, andThen, ih]

theorem wordsWrite_line (words : List Nat) (v : Nat) (s : State) : Result.holdsOrKeeps s (wordsWrite v words s) := by
  induction words generalizing v s with
  | nil => exact Result.holdsOrKeeps_next (Or.inr rfl)
  | cons off rest ih =>
    intro t ht
    rw [wordsWrite] at ht
    cases hword : wordWrite off (v % 2 ^ 32) s with
    | next u =>
      rw [hword] at ht
      rcases wordWrite_line off _ s u hword with hheld | hline
      · cases (wordsWrite_held hheld rest _).symm.trans ht
        exact Or.inl hheld
      · exact (ih _ u t ht).imp_right fun h => h.trans hline
    | fault x => rw [hword] at ht; cases ht
    | refused x => rw [hword] at ht; cases ht

theorem hostWrite_line (a : HostAccess) (value : W64) (s : State) : Result.holdsOrKeeps s (hostWrite a value s) := by
  unfold hostWrite
  split
  · exact Result.holdsOrKeeps_next (Or.inr rfl)
  · split
    · exact exec_untouched_line (c := .oasisWindowAccess (a.offset - 2 ^ 25) a.size (some (leBytes a.size value.toNat))) rfl s
    · split
      · exact wordsWrite_line _ _ s
      · exact Inv.ok_holdsOrKeeps (Inv.ok_next (State.badAccess_keeps (keepInv_has rfl) (keepInv_self _ _)))

/-! ### The statement -/

theorem LineMove.of_awake {s t : State} {r : Result} (h : Result.holdsOrKeeps s r) (ht : r = .next t) (ha : t.awake) : LineMove s t :=
  Or.inl ((h t ht).resolve_left (by simp [show t.dev.resetHeld = false from ha]))

/-- Every command but the entry to ARMED that does not leave the device held in reset makes one move of the line sequence at most. -/
theorem exec_lineMove {c : Instr} {s t : State} (h : exec c s = .next t) (hc : c ≠ .armedEntry) (ha : t.awake) : LineMove s t := by
  by_cases hline : c.touches.contains Part.line = false
  · exact LineMove.of_awake (exec_untouched_line hline s) h ha
  have hreset (hresets : Resets c) : LineMove s t := LineMove.of_awake (exec_resets_line hresets s) h ha
  cases c
  case armedEntry => exact absurd rfl hc
  case encoderCount sample => exact execEncoderCount_line sample s t h
  case lineTimerExpiry => exact execLineTimerExpiry_line s t h
  case imageHeader port stream pixelBits arrangement failedOn => exact execImageHeader_line port stream pixelBits arrangement failedOn s t h
  case lineMarker port stream => exact execLineMarker_line port stream s t h
  case checkFailedPacket port lane pixels => exact execCheckFailedPacket_line port lane pixels s t h
  case genericRegisterWrite access value => exact LineMove.of_awake (hostWrite_line access value s) h ha
  case powerOnReset => exact hreset .powerOnReset
  case pwrGoodFall => exact hreset .pwrGoodFall
  case perstAssert => exact hreset .perstAssert
  case sysRefclkLoss => exact hreset .sysRefclkLoss
  case vddResetLevel mv => exact hreset (.vddResetLevel mv)
  case railMonitorFall rail => exact hreset (.railMonitorFall rail)
  case thermalSample junction stack => exact hreset (.thermalSample junction stack)
  case bootWatchdogExpiry => exact hreset .bootWatchdogExpiry
  case glbResetWrite value => exact hreset (.glbResetWrite value)
  case safReboot value => exact hreset (.safReboot value)
  case integrityResetTimeout => exact hreset .integrityResetTimeout
  all_goals exact absurd rfl hline

/-- Settles O12: a command moves the line sequence by a trigger alone, unless it leaves the device held in reset. -/
theorem onlyTriggersAdvanceTheLine : Obligations.OnlyTriggersAdvanceTheLine := by
  unfold Obligations.OnlyTriggersAdvanceTheLine
  intro c s t h hc _ ha
  simpa only [LineMove, Web.line, Prod.mk.injEq, and_assoc] using exec_lineMove h hc ha

end Sys2Proof.Machine
end

section
/-! PROOFS. The encoder, the line timer and the count rate (R14 to R17, R70, R71). -/

namespace Sys2Proof.Machine

/-! ### Commands that act outside a reset -/

theorem State.act_awake {s : State} (h : s.awake) (f : State → State) : s.act f = .next (f s) := by
  rw [State.act, if_neg (by simp [show s.dev.resetHeld = false from h])]

/-! ### Encoder counts -/

/-- The direction of a change of one input from p, q to a, b: forward while A leads B, and the other way with INVERT (R70). -/
def State.forward (s : State) (p a b : Bool) : Bool := (if a != p then a != b else a == b) != s.odFlag Od.encInvert

/-- Does DECODE count the edge (R70)? -/
def State.counts (s : State) (p q a b : Bool) : Bool :=
  if s.od Od.encDecode = 0 then a != p && a == s.forward p a b else if s.od Od.encDecode = 1 then a != p else a != p || b != q

theorem State.decoded_eq (s : State) (p q a b : Bool) : s.decoded p q a b = if s.counts p q a b then some (s.forward p a b) else none := by
  unfold State.decoded State.counts
  rw [bne_comm (a := p), bne_comm (a := q)]
  split
  · rename_i h
    simp [h, State.forward]
  · rename_i h
    simp [h, State.forward]
  · rename_i h0 h1
    rw [if_neg h0, if_neg h1]
    simp [State.forward]

/-- A trigger leaves the encoder as it was. -/
theorem State.trigger_enc (s : State) (thr : Int) : Part.enc.same s (s.trigger thr) :=
  keepInv_same (State.trigger_keeps (keepInv_has rfl) (keepInv_self s [.enc])) (by simp)

theorem State.count_enc (s : State) (dir : Bool) : (s.count dir).web.pos = s.web.pos + (if dir then 1 else -1) ∧
    (s.count dir).web.high = max s.web.high (s.count dir).web.pos ∧ (s.count dir).web.encLevels = s.web.encLevels := by
  by_cases h : s.countTriggers dir
  · obtain ⟨hpos, hhigh, _, _, _, hlevels⟩ := (s.counted dir).trigger_enc s.web.next
    rw [State.count_triggers h]
    exact ⟨hpos, hhigh.trans (congrArg (max s.web.high) hpos.symm), hlevels⟩
  · rw [State.count_stays h]
    exact ⟨rfl, rfl, rfl⟩

/-- A count that triggers carries the current LSN, and sets the next threshold one pitch on (R14, R15). -/
theorem State.count_next {s : State} {dir : Bool} (h : s.countTriggers dir) :
    (s.count dir).web.line = (s.web.x + 1, mod48 s.web.x, true) ∧ (s.count dir).web.next = s.web.next + (s.count dir).od Od.webLinePitch := by
  obtain ⟨_, _, hnext, _⟩ := (s.counted dir).trigger_enc s.web.next
  rw [State.count_triggers h]
  exact ⟨(s.counted dir).trigger_line _, congrArg (· + _) hnext⟩

/-- An edge that is not counted sets the decoder's reference alone, and one that is counted counts. -/
theorem exec_encoderCount {s : State} {a b p q : Bool} {ns : Nat} (ha : s.awake) (hns : s.od Od.encFilterNs ≤ ns) (hlevels : s.web.encLevels = some (p, q))
    (hone : a = p ∨ b = q) :
    exec (.encoderCount ⟨a, b, ns⟩) s =
      .next (if s.counts p q a b then (s.encSample a b).count (s.forward p a b) else s.encSample a b) := by
  have hlegal : (p != a && q != b) = false := by rcases hone with rfl | rfl <;> simp
  show execEncoderCount ⟨a, b, ns⟩ s = _
  rw [execEncoderCount, State.act_awake ha]
  simp only [not_lt.mpr hns, if_false, hlevels, hlegal, Bool.false_eq_true, State.decoded_eq]
  by_cases hc : s.counts p q a b = true
  · simp only [hc, if_true]
  · simp only [hc, if_false, Bool.false_eq_true]

theorem encoderCount_follows : encoderCountFollowsThePosition := by
  unfold encoderCountFollowsThePosition
  refine ⟨fun s a b p q ns ha hns hlevels hone => ⟨_, exec_encoderCount ha hns hlevels hone, ?_⟩, fun s a b ns ha => ⟨fun hshort => ?_, fun hns hfirst => ?_⟩⟩
  · extract_lets onA forward counted
    rw [show s.counts p q a b = counted from rfl, show s.forward p a b = forward from rfl]
    clear_value counted forward
    cases counted with
    | false => simp [State.encSample]
    | true =>
      simp only [↓reduceIte, and_true]
      obtain ⟨hpos, hhigh, hsample⟩ := (s.encSample a b).count_enc forward
      refine ⟨hpos, hhigh, hsample, ?_⟩
      have hcond : (s.encSample a b).countTriggers forward ↔ s.web.high < ((s.encSample a b).count forward).web.pos ∧
          (s.dev.state = .armed ∨ s.dev.state = .run) ∧ s.od Od.webLineSource = 0 ∧ s.web.next ≤ ((s.encSample a b).count forward).web.pos * 65536 := by
        rw [hpos, State.countTriggers, State.triggering_iff]
        exact Iff.rfl
      split
      · rename_i h
        obtain ⟨hline, hnext⟩ := State.count_next (hcond.mpr h)
        simp only [Web.line, Prod.mk.injEq] at hline
        exact ⟨hline.1, hline.2.1, hline.2.2, hnext⟩
      · rename_i h
        rw [State.count_stays (mt hcond.mp h)]
        exact ⟨rfl, rfl, rfl, rfl⟩
  · refine ⟨_, (State.act_awake ha _ : execEncoderCount _ s = _), ?_⟩
    rw [if_pos hshort]
  · refine ⟨_, (State.act_awake ha _ : execEncoderCount _ s = _), ?_⟩
    rw [if_neg (not_lt.mpr hns), hfirst]
    rfl

/-! ### The other sources -/

theorem execLineTimerExpiry_triggers {s : State} (ha : s.awake) (hsource : s.od Od.webLineSource = 1) (hstate : s.dev.state = .armed ∨ s.dev.state = .run) :
    exec .lineTimerExpiry s = .next { s with web := { s.web with timerStart := s.dt } }.plainTrigger := by
  show execLineTimerExpiry s = _
  rw [execLineTimerExpiry, State.act_awake ha, if_neg (by simp [hsource, s.triggering_iff.mpr hstate])]

theorem State.plainTrigger_pos (s : State) : s.plainTrigger.web.pos = s.web.pos := (s.trigger_enc _).1

/-- A rate-limited event leaves the dictionary and the web model. -/
theorem State.rateLimited_event (s : State) (key ns source type : Nat) (body : State → List Byte) :
    (s.rateLimited key ns fun t => t.event source type (body t)).dict = s.dict ∧
      (s.rateLimited key ns fun t => t.event source type (body t)).web = s.web := by
  unfold State.rateLimited
  split
  · split <;> exact ⟨rfl, rfl⟩
  · exact ⟨rfl, rfl⟩

/-- The report is made where the last one lies far enough back. -/
theorem State.rateLimited_due {s : State} {key ns : Nat} (h : ∀ at_, sparseGet key s.dev.eventTimes = some at_ → at_ + ns ≤ s.dt) (f : State → State) :
    s.rateLimited key ns f = f { s with dev := { s.dev with eventTimes := sparseSet key (some s.dt) s.dev.eventTimes } } := by
  unfold State.rateLimited
  split
  · rename_i at_ hlast
    rw [if_neg (not_lt.mpr (h at_ hlast))]
  · rfl

theorem odWidth_encErrors : odWidth Od.encEncErrors = 32 := by decide +kernel

/-- A counting entry counts, up to the largest value of its width. -/
theorem State.countOd_self {s : State} (h : s.wf = true) (key n : Nat) : (s.countOd key n).od key = min (s.od key + n) (2 ^ odWidth key - 1) :=
  State.od_setOd_self s _ _ (State.wf_dict h)

/-- Settles O11: a count follows `State.counted`, and its trigger `State.trigger_line`; the reports leave the position. -/
theorem positionTimerAndTriggers : Obligations.PositionTimerAndTriggers := by
  unfold Obligations.PositionTimerAndTriggers
  refine ⟨encoderCount_follows, fun s ha hsource hstate => ?_, fun s a b hs ha hlevels => ?_, fun s hs ha => ?_⟩
  · refine ⟨_, execLineTimerExpiry_triggers ha hsource hstate, ?_⟩
    obtain ⟨hx, hrest⟩ := Prod.mk.inj (State.plainTrigger_line { s with web := { s.web with timerStart := s.dt } })
    obtain ⟨hlsn, htriggered⟩ := Prod.mk.inj hrest
    exact ⟨hx, hlsn, htriggered, State.plainTrigger_pos _⟩
  · refine ⟨_, (State.act_awake ha _ : execEncoderIllegalTransition s = _), ?_⟩
    simp only [hlevels, Bool.not_not]
    set u := (s.encSample a b).countOd Od.encEncErrors 1
    have hcount : u.od Od.encEncErrors = min (s.od Od.encEncErrors + 1) (2 ^ 32 - 1) := by
      rw [← odWidth_encErrors]
      exact State.countOd_self (s := s.encSample a b) hs _ _
    obtain ⟨hdict, hweb⟩ := u.rateLimited_event (rateKey 0 5 0) 1000000 0 5 fun t => leBytes 4 (t.od Od.encEncErrors)
    refine ⟨?_, hweb, fun hdue => ?_⟩
    · rw [State.od, hdict]
      exact hcount
    · rw [State.rateLimited_due (s := u) hdue]
      exact ⟨_, mem_insertEvent _ _, rfl, rfl, rfl⟩
  · refine ⟨_, (State.act_awake ha _ : execCountRateWindow s = _), ?_⟩
    exact ⟨State.od_setOd_self _ _ _ (State.wf_dict hs), rfl⟩

end Sys2Proof.Machine
end

section
/-! PROOFS. LINE_PITCH is at least one count, so one count makes at most one trigger (R16). -/

namespace Sys2Proof.Machine

/-- The row of LINE_PITCH (R56). -/
def pitchRow : OdRow := ⟨0x2F00, 1, 0x02, 1, .u32, .rw, true, true, false, 0x10000, .span 0x10000 0xFFFFFFFF⟩

theorem odFind_linePitch : odFind Od.webLinePitch = some pitchRow := by decide +kernel

theorem odDefined_linePitch : odDefined Od.webLinePitch = .ok := by decide +kernel

/-- A writable state lets an RW entry be written. -/
theorem State.odStateAllows_rw {s : State} (h : s.dev.state = .preop ∨ s.dev.state.live = true) (key : Nat) : s.odStateAllows key .rw = true := by
  unfold State.odStateAllows
  cases hs : s.dev.state <;> simp [hs, DevState.live] at h <;> rfl

theorem DevState.ready_of_live {d : DevState} (h : d = .preop ∨ d.live = true) : d.ready = true := by
  cases d <;> simp [DevState.live, DevState.ready] at h ⊢

theorem State.odInRange_linePitch (s : State) (v : Nat) : s.odInRange Od.webLinePitch v = (decide (0x10000 ≤ v) && decide (v ≤ 0xFFFFFFFF)) := by
  have hrelation : s.odRelation Od.webLinePitch v = true := rfl
  rw [State.odInRange, odFind_linePitch]
  simp [pitchRow, OdRange.has, hrelation]

/-- The checks of a write of LINE_PITCH come down to its range. -/
theorem State.odWriteCheck_linePitch {s : State} {o : Origin} (ho : o ≠ .internal) (hs : s.dev.state = .preop ∨ s.dev.state.live = true) (v : Nat) :
    s.odWriteCheck o Od.webLinePitch 4 v = if 0x10000 ≤ v ∧ v ≤ 0xFFFFFFFF then .ok else .range := by
  have hadmits : pitchRow.admits o = true := by
    cases o with
    | internal => exact absurd rfl ho
    | _ => rfl
  have hrules : s.odWriteRules o Od.webLinePitch 4 v = if 0x10000 ≤ v ∧ v ≤ 0xFFFFFFFF then .ok else .range := by
    rw [State.odWriteRules, odFind_linePitch]
    have howner : ¬ Od.webLinePitch = Od.devOwner ∧ ¬ Od.webLinePitch = Od.devStateRequest ∧ ¬ Od.webLinePitch = Od.devOwnerSeize := by decide
    simp only [hadmits, State.odInRange_linePitch]
    simp only [pitchRow, State.odStateAllows_rw hs, OdType.bytes]
    by_cases h : 0x10000 ≤ v ∧ v ≤ 0xFFFFFFFF
    · simp [h, howner]
    · simp [h]
  have hplace : decide (0xF000 ≤ Od.webLinePitch / 256) = false := by decide
  rw [State.odWriteCheck, DevState.ready_of_live hs, odDefined_linePitch, hplace]
  exact hrules

/-- A 4-byte write of an entry of 32 bits through BAR4. -/
theorem State.bar4Write_word {s : State} {off key : Nat} {r : OdRow} (hkey : off / 0x800 * 256 + off % 0x800 / 8 = key) (hoff : off % 8 = 0)
    (hlow : s.doors.bar4Low = none) (hr : odFind key = some r) (hw : r.type.bytes = 4) (hsigned : r.type.signed = false) (v : W64) :
    s.bar4Write off 4 v = s.bar4Scalar key 4 (v.toNat % 2 ^ 32) := by
  have h4 : off % 4 = 0 := by omega
  unfold State.bar4Write
  simp [hlow, hkey, hoff, h4, hr, hw, hsigned]

/-- CHAIN_CHANGE writes no entry of the dictionary. -/
theorem State.chainWatch_dict (old new : State) : (old.chainWatch new).dict = new.dict := by
  have hsteps : (keepInv new [.dict]).P (old.chainWatch new) := by
    unfold State.chainWatch
    refine Inv.ite (keepInv_self _ _) (Inv.ite (State.raiseStatus_keeps (keepInv_has rfl) (keepInv_self _ _)) (Inv.foldl (keepInv_self _ _) fun u l hu => ?_))
    split
    · exact Inv.ite (State.sideStatus_keeps (keepInv_has rfl) hu) hu
    · exact hu
  exact keepInv_same hsteps (p := .dict) (by simp)

/-- A stored entry with no effect of its own changes the dictionary in its own value alone. -/
theorem State.odPut_dict {s : State} {key v : Nat} {r : OdRow} (hr : odFind key = some r) (hstored : r.access ≠ .wo)
    (heffect : ∀ u old, (State.odEffect u key old v).dict = u.dict) : (s.odPut key v).dict = (s.setOd key v).dict := by
  simp only [State.odPut, hr, if_neg hstored]
  split
  · exact (State.chainWatch_dict _ _).trans (heffect _ _)
  · exact heffect _ _

/-- An accepted LINE_PITCH is stored at once. -/
theorem State.odAccept_linePitch {s : State} (h : s.wf = true) (o : Origin) (flags v : Nat) (door : Door) :
    (s.odAccept o flags Od.webLinePitch v door).1 = .ok ∧ (s.odAccept o flags Od.webLinePitch v door).2.od Od.webLinePitch = v := by
  have hnot : ¬ Od.webLinePitch = Od.devOwner ∧ ¬ Od.webLinePitch = Od.devStateRequest ∧ ¬ Od.webLinePitch = Od.devOwnerRequest ∧
      ¬ Od.webLinePitch = Od.devOwnerSeize := by decide
  simp only [State.odAccept, hnot, if_false]
  refine ⟨trivial, ?_⟩
  set u := s.ledgerWrite 1 flags o Od.webLinePitch (odWidth Od.webLinePitch / 8) v s.web.lastLsn
  have hu : u.wf = true := State.ledgerWrite_keeps (I := wfInv) (wfInv_has _) h
  have hwait : (if u.dev.state.live then writeWait Od.webLinePitch (none : Option Nat).isSome else .none) = .none := by split <;> rfl
  have hput : (u.odPut Od.webLinePitch v).dict = (u.setOd Od.webLinePitch v).dict := State.odPut_dict odFind_linePitch (by decide) fun _ _ => rfl
  simp only [State.odStore, hwait, State.od, hput]
  exact State.od_setOd_self u _ _ (State.wf_dict hu)

theorem bar4Word_linePitch (st : Status) : bar4Word Od.webLinePitch st = st.code + 0x2F000200 := by
  rw [bar4Word, Od.webLinePitch, odKey]
  omega

/-- A 4-byte write of LINE_PITCH through BAR4 stores a value of its range, and answers RANGE to one below it. -/
theorem State.bar4Scalar_linePitch {s : State} (hs : s.wf = true) (hstate : s.dev.state = .preop ∨ s.dev.state.live = true) {v : Nat} (hv : v < 2 ^ 32) :
    if 0x10000 ≤ v then (s.bar4Scalar Od.webLinePitch 4 v).od Od.webLinePitch = v ∧ (s.bar4Scalar Od.webLinePitch 4 v).reg Reg.glbOdWStatus = 0x2F000200
    else (s.bar4Scalar Od.webLinePitch 4 v).od Od.webLinePitch = s.od Od.webLinePitch ∧
      (s.bar4Scalar Od.webLinePitch 4 v).reg Reg.glbOdWStatus = 0x2F000206 := by
  have hcheck := State.odWriteCheck_linePitch (o := .host) (by decide) hstate v
  have hstatus := State.bar4Scalar_wStatus hs Od.webLinePitch 4 v
  split
  · rename_i hlow
    rw [if_pos ⟨hlow, by omega⟩] at hcheck
    have hwrite : s.odWrite .host Od.webLinePitch 4 v .bar4 = s.odAccept .host 0 Od.webLinePitch v .bar4 := by simp only [State.odWrite, hcheck]
    obtain ⟨hok, hstored⟩ := State.odAccept_linePitch hs .host 0 v .bar4
    refine ⟨?_, ?_⟩
    · rw [State.bar4Scalar, hwrite, State.bar4Status_od, hstored]
    · rw [hstatus, bar4Word_linePitch, bar4Code, hwrite, hok]
      exact Nat.zero_add _
  · rename_i hlow
    rw [if_neg fun h => hlow h.1] at hcheck
    have hwrite := State.odWrite_refused (door := .bar4) (hcheck.trans_ne (by decide))
    refine ⟨?_, ?_⟩
    · rw [State.bar4Scalar, hwrite, State.bar4Status_od]
      exact s.countRefused_od_other (by decide)
    · rw [hstatus, bar4Word_linePitch, bar4Code, hwrite, hcheck]
      exact Nat.add_comm 6 0x2F000200

/-- Settles O13: the range rule of LINE_PITCH is the only check that a write of it can fail, and a count is one move of the line sequence. -/
theorem linePitchIsAtLeastOne : Obligations.LinePitchIsAtLeastOne := by
  unfold Obligations.LinePitchIsAtLeastOne
  refine ⟨fun s o v ho hs => State.odWriteCheck_linePitch ho hs v, fun s v hs ha hstate hlow => ?_, fun s a b ns => ?_⟩
  · refine ⟨_, exec_bar4Write ha rfl, ?_⟩
    rw [State.bar4Write_word (key := Od.webLinePitch) (by decide) (by decide) hlow odFind_linePitch rfl rfl]
    exact State.bar4Scalar_linePitch hs hstate (Nat.mod_lt _ (by decide))
  · refine ⟨_, rfl, ?_⟩
    rcases execEncoderCount_line ⟨a, b, ns⟩ s _ rfl with hsame | ⟨hmoved, _⟩
    · exact Or.inl (Prod.mk.inj hsame).1
    · exact Or.inr (Prod.mk.inj hmoved).1

end Sys2Proof.Machine
end

section
/-! PROOFS. With an empty queue a step is one tick of device time (R52, R456, R535, R545). -/

namespace Sys2Proof.Machine

theorem step_idle {s : State} (hidle : s.pending = []) : step s = .next s.tick := by rw [step, hidle]

theorem State.tick_held {s : State} (h : ¬ s.awake) : s.tick = s := if_pos (by simpa [State.awake] using h)

theorem Crv.tickFs_eq (c : Crv) : c.tickFs = if c.steer = .half then 1000000 else (2000000 + 2 * c.ratePpm).toNat := by
  unfold Crv.tickFs
  cases c.steer <;> rfl

/-- A tick outside a held reset moves DT, its part below 1 ns and the cores, and nothing else. -/
theorem State.tick_awake {s : State} (h : s.awake) :
    s.tick = { s with
      dt := (s.dt + (s.crv.dtFrac + s.crv.tickFs) / 1000000) % 2 ^ 64
      crv := { s.crv with dtFrac := (s.crv.dtFrac + s.crv.tickFs) % 1000000 }
      cores := s.tick.cores } := by
  have hheld : ¬ s.dev.resetHeld = true := by simpa [State.awake] using h
  rw [State.tick, if_neg hheld]

/-- In a tick a powered core runs its clock for 2 ns, or for 1 ns where it is stretched. -/
theorem State.tick_core {s : State} (h : s.awake) (k : CoreIx) :
    s.tick.core k = if s.pwr.cores.getLsbD k = true then (s.core k).runClock (if s.pwr.stretchSince.isSome then 1 else 2) else s.core k := by
  have hheld : ¬ s.dev.resetHeld = true := by simpa [State.awake] using h
  rw [State.tick, if_neg hheld]
  simp [State.core]

/-- Settles O2: with no command waiting a step is `State.tick`, whose parts the lemmas above give. -/
theorem idleStepTicksDeviceTime : Obligations.IdleStepTicksDeviceTime := by
  unfold Obligations.IdleStepTicksDeviceTime
  intro s hidle
  refine ⟨fun hawake => ⟨s.tick, step_idle hidle, ?_, s.tick_core hawake⟩, fun hheld => ?_⟩
  · rw [← Crv.tickFs_eq]
    exact State.tick_awake hawake
  · rw [step_idle hidle, State.tick_held hheld]

end Sys2Proof.Machine
end

section
/-! PROOFS. What happens on one camera port leaves every other port as it is (R60, R66, R74, R79): the predicate `elsewhere s d` says that port `d` is as in `s`,
and each operation on another port keeps it. -/

namespace Sys2Proof.Machine

/-- A predicate that looks at the parts `l` of the state alone lets every other part change. -/
def Inv.about (l : List Part) (P : State → Prop) (hP : ∀ s t : State, (∀ p ∈ l, p.same s t) → P s → P t) : Inv where
  P := P
  parts := Part.all.filter fun p => !l.contains p
  upd s t _ hu := hP s t fun p hp => (hu p).resolve_right fun k => by simp [hp] at k
  setReg h s o v := hP s _ fun _ hp => keepInv_same ((keepInv s l).setReg h s o v (keepInv_self s l)) hp
  setOd h s k v := hP s _ fun _ hp => keepInv_same ((keepInv s l).setOd h s k v (keepInv_self s l)) hp
  setBlob h s k v := hP s _ fun _ hp => keepInv_same ((keepInv s l).setBlob h s k v (keepInv_self s l)) hp
  hostWrite h s a bs := hP s _ fun _ hp => keepInv_same ((keepInv s l).hostWrite h s a bs (keepInv_self s l)) hp
  dramWrite h s a bs := hP s _ fun _ hp => keepInv_same ((keepInv s l).dramWrite h s a bs (keepInv_self s l)) hp
  dramFill h s lo hi mid hlo hmid hin := hP s _ fun _ hp => keepInv_same ((keepInv s l).dramFill h s lo hi mid hlo hmid hin (keepInv_self s l)) hp
  oasisByte h s a b := hP s _ fun _ hp => keepInv_same ((keepInv s l).oasisByte h s a b (keepInv_self s l)) hp
  flashWrite h s a bs := hP s _ fun _ hp => keepInv_same ((keepInv s l).flashWrite h s a bs (keepInv_self s l)) hp
  link h h' s g n prev he hprev hcount hhash := hP s _ fun _ hp =>
    keepInv_same ((keepInv s l).link h h' s g n prev he hprev hcount hhash (keepInv_self s l)) hp

theorem Inv.about_has {l m : List Part} {P : State → Prop} {hP : ∀ s t : State, (∀ p ∈ l, p.same s t) → P s → P t}
    (h : (m.all fun p => !l.contains p) = true) : (Inv.about l P hP).has m :=
  fun p hp => List.mem_filter.mpr ⟨by cases p <;> decide, List.all_eq_true.mp h p hp⟩

/-- Port `d`, in ingress and in the front slice, is as in `s`. -/
def elsewhere (s : State) (d : PortIx) : Inv := Inv.about [.ports, .fsPorts] (fun u => u.port d = s.port d ∧ u.fsPort d = s.fsPort d) fun u v h hu => by
  have hports : v.ports = u.ports := h .ports (by simp)
  have hfsPorts : v.fsPorts = u.fsPorts := h .fsPorts (by simp)
  rwa [State.port, State.fsPort, hports, hfsPorts]

theorem elsewhere_has {s : State} {d : PortIx} {m : List Part} (h : (m.all fun p => !([Part.ports, .fsPorts].contains p)) = true) : (elsewhere s d).has m :=
  Inv.about_has h

theorem elsewhere_self (s : State) (d : PortIx) : (elsewhere s d).P s := ⟨rfl, rfl⟩

section
variable {s u : State} {c d : PortIx}

theorem State.modPort_elsewhere (hd : d ≠ c) {f : Port → Port} (h : (elsewhere s d).P u) : (elsewhere s d).P (u.modPort c f) := by
  refine ⟨Eq.trans ?_ h.1, h.2⟩
  exact Vector.getElem_set_ne (xs := u.ports) c.isLt d.isLt fun e => hd (Fin.ext e.symm)

theorem State.modFs_elsewhere (hd : d ≠ c) {f : FsPort → FsPort} (h : (elsewhere s d).P u) : (elsewhere s d).P (u.modFs c f) := by
  refine ⟨h.1, Eq.trans ?_ h.2⟩
  exact Vector.getElem_set_ne (xs := u.fsPorts) c.isLt d.isLt fun e => hd (Fin.ext e.symm)

/-! ### FIFO, memory-path ring and the mirage banks -/

theorem State.fifoTake_elsewhere (hd : d ≠ c) {n : Nat} (h : (elsewhere s d).P u) : (elsewhere s d).P (u.fifoTake c n) := by
  have hstored : ∀ {f : Port → Port} {off m : Nat}, (elsewhere s d).P ((u.modPort c f).peak off m) :=
    State.peak_keeps (elsewhere_has rfl) (State.modPort_elsewhere hd h)
  exact Inv.ite (State.camStatus_keeps (elsewhere_has rfl) hstored) hstored

theorem State.fifoFree_elsewhere (hd : d ≠ c) {n : Nat} (h : (elsewhere s d).P u) : (elsewhere s d).P (u.fifoFree c n) := by
  have hstored : ∀ {f : Port → Port}, (elsewhere s d).P (u.modPort c f) := State.modPort_elsewhere hd h
  exact Inv.ite (State.camStatus_keeps (elsewhere_has rfl) hstored) hstored

theorem State.mpFree_elsewhere (hd : d ≠ c) {n : Nat} (h : (elsewhere s d).P u) : (elsewhere s d).P (u.mpFree c n) := by
  have hstored : ∀ {f : FsPort → FsPort}, (elsewhere s d).P (u.modFs c f) := State.modFs_elsewhere hd h
  exact Inv.ite (State.fsStatusEvent_keeps (elsewhere_has rfl) hstored) hstored

theorem State.unreserve_elsewhere (hd : d ≠ c) {e : PendEntry} (h : (elsewhere s d).P u) : (elsewhere s d).P (u.unreserve c e) :=
  State.mpFree_elsewhere hd (State.fifoFree_elsewhere hd h)

theorem State.applyMirage_elsewhere (hd : d ≠ c) {pick : MirageVal → Bool} {x : Int} (h : (elsewhere s d).P u) :
    (elsewhere s d).P (u.applyMirage c pick x) := State.applyValues_keeps (elsewhere_has rfl) (State.modPort_elsewhere hd h)

theorem State.fsBind_elsewhere (hd : d ≠ c) {pick : MirageVal → Bool} {table : Bool} {first : Option Int} (h : (elsewhere s d).P u) :
    (elsewhere s d).P (u.fsBind c pick table first) := Inv.ite h (State.modFs_elsewhere hd h)

/-! ### Drop runs, delivery and placeholders -/

theorem State.closeRun_elsewhere (hd : d ≠ c) (h : (elsewhere s d).P u) : (elsewhere s d).P (u.closeRun c) := by
  unfold State.closeRun
  split
  · exact h
  · exact State.eventAt_keeps (elsewhere_has rfl) (State.modPort_elsewhere hd h)

theorem State.extendRun_elsewhere (hd : d ≠ c) {l : CamLine} (h : (elsewhere s d).P u) : (elsewhere s d).P (u.extendRun c l) := by
  have hrun : ∀ v, (elsewhere s d).P v → (elsewhere s d).P (match (v.port c).run with
      | some r => if 65535 ≤ r.count then v.closeRun c else v
      | none => v) := fun v hv => by
    split
    · exact Inv.ite (State.closeRun_elsewhere hd hv) hv
    · exact hv
  refine hrun _ ?_
  split
  · exact Inv.ite (State.modPort_elsewhere hd h) (State.modPort_elsewhere hd (State.closeRun_elsewhere hd h))
  · exact State.modPort_elsewhere hd h

theorem State.emitLine_elsewhere (hd : d ≠ c) {l : CamLine} (h : (elsewhere s d).P u) : (elsewhere s d).P (u.emitLine c l) := by
  refine State.noteWait_keeps (elsewhere_has rfl) (State.modPort_elsewhere hd ?_)
  have hcounted : (elsewhere s d).P (if l.reason = 0 then (u.closeRun c).camCount (Reg.camLinesRx c) 1
      else
        let s := (u.extendRun c l).camCount (Reg.camLinesDropped c) 1
        let s := (s.countOd (Od.portPortDropped c) 1).countOd Od.cntDroppedLines 1
        if l.reason = 9 then s.countOd (Od.fpShedLines c) 1 else s) := by
    refine Inv.ite (State.camCount_keeps (elsewhere_has rfl) (State.closeRun_elsewhere hd h)) ?_
    have hdropped := State.countOd_keeps (I := elsewhere s d) (elsewhere_has rfl) (key := Od.cntDroppedLines) (n := 1)
      (State.countOd_keeps (elsewhere_has rfl) (key := Od.portPortDropped c) (n := 1)
        (State.camCount_keeps (elsewhere_has rfl) (off := Reg.camLinesDropped c) (n := 1) (State.extendRun_elsewhere hd (l := l) h)))
    exact Inv.ite (State.countOd_keeps (elsewhere_has rfl) hdropped) hdropped
  exact hcounted

theorem State.flushHeld_elsewhere (hd : d ≠ c) {frameEnd : Bool} (h : (elsewhere s d).P u) : (elsewhere s d).P (u.flushHeld c frameEnd) := by
  unfold State.flushHeld
  split
  · exact h
  · exact State.emitLine_elsewhere hd (State.modPort_elsewhere hd h)

theorem State.lineReached_elsewhere (hd : d ≠ c) {x : Int} (h : (elsewhere s d).P u) : (elsewhere s d).P (u.lineReached c x) :=
  State.fsBind_elsewhere hd (State.lineValues_keeps (elsewhere_has rfl) h)

theorem State.passPlaceholders_elsewhere (hd : d ≠ c) {q : List CamLine} (h : (elsewhere s d).P u) : (elsewhere s d).P (u.passPlaceholders c q) := by
  induction q generalizing u with
  | nil => exact h
  | cons l r ih =>
    exact Inv.ite h (ih (State.modPort_elsewhere hd (State.emitLine_elsewhere hd (State.lineReached_elsewhere hd (State.flushHeld_elsewhere hd h)))))

theorem State.placeholder_elsewhere (hd : d ≠ c) {x : Int} {dt reason flags : Nat} (h : (elsewhere s d).P u) :
    (elsewhere s d).P (u.placeholder c x dt reason flags) :=
  Inv.ite (Inv.ite h (State.lineReached_elsewhere hd h)) (State.passPlaceholders_elsewhere hd (State.modPort_elsewhere hd h))

theorem State.absent_elsewhere (hd : d ≠ c) {e : PendEntry} (h : (elsewhere s d).P u) : (elsewhere s d).P (u.absent c e) := by
  have hfreed : ∀ {f : Port → Port}, (elsewhere s d).P ((((u.modPort c f).camCount (Reg.camAbsent c) 1).camInt c 0x400).unreserve c e) :=
    State.unreserve_elsewhere hd (State.camInt_keeps (elsewhere_has rfl) (State.camCount_keeps (elsewhere_has rfl) (State.modPort_elsewhere hd h)))
  exact Inv.ite (State.passPlaceholders_elsewhere hd hfreed) (State.placeholder_elsewhere hd hfreed)

theorem State.declareAbsent_elsewhere (hd : d ≠ c) (h : (elsewhere s d).P u) : (elsewhere s d).P (u.declareAbsent c) := by
  unfold State.declareAbsent
  split
  · exact h
  · exact State.absent_elsewhere hd h

/-! ### Frames and rows -/

theorem State.modFrame_elsewhere (hd : d ≠ c) {f : Frame → Frame} (h : (elsewhere s d).P u) : (elsewhere s d).P (u.modFrame c f) :=
  State.modPort_elsewhere hd h

theorem State.modEntry_elsewhere (hd : d ≠ c) {x : Int} {f : PendEntry → PendEntry} (h : (elsewhere s d).P u) : (elsewhere s d).P (u.modEntry c x f) :=
  State.modPort_elsewhere hd h

theorem State.openFrame_elsewhere (hd : d ≠ c) {flags : Nat} {start : Bool} (h : (elsewhere s d).P u) : (elsewhere s d).P (u.openFrame c flags start) := by
  have hstart : (elsewhere s d).P (if start then (u.camCount (Reg.camLostTrig c) (u.port c).owed).modPort c fun p => { p with owed := 0 } else u) :=
    Inv.ite (State.modPort_elsewhere hd (State.camCount_keeps (elsewhere_has rfl) h)) h
  have hbound : ∀ {pick bind : MirageVal → Bool} {x : Int} {first : Option Int}, (elsewhere s d).P (State.fsBind (State.applyMirage _ c pick x) c bind true first) :=
    State.fsBind_elsewhere hd (State.applyMirage_elsewhere hd hstart)
  exact State.modPort_elsewhere hd (Inv.ite (State.countOd_keeps (elsewhere_has rfl) hbound) hbound)

/-- Where a count is due, it is a count of a register. -/
theorem camCountIf_elsewhere {b : Prop} [Decidable b] {off n : Nat} (h : (elsewhere s d).P u) : (elsewhere s d).P (if b then u.camCount off n else u) :=
  Inv.ite (State.camCount_keeps (elsewhere_has rfl) h) h

theorem State.closeFrame_elsewhere (hd : d ≠ c) {extra : Nat} (h : (elsewhere s d).P u) : (elsewhere s d).P (u.closeFrame c extra) := by
  have hflushed := State.flushHeld_elsewhere hd (frameEnd := true) h
  unfold State.closeFrame
  dsimp only
  split
  · exact hflushed
  · refine State.modPort_elsewhere hd (Inv.ite (State.eventAt_keeps (elsewhere_has rfl) ?_) ?_) <;>
      exact camCountIf_elsewhere (camCountIf_elsewhere (camCountIf_elsewhere hflushed))

theorem State.holdLine_elsewhere (hd : d ≠ c) {l : CamLine} {closes : Bool} (h : (elsewhere s d).P u) : (elsewhere s d).P (u.holdLine c l closes) :=
  Inv.ite (State.emitLine_elsewhere hd (State.flushHeld_elsewhere hd h)) (State.modPort_elsewhere hd (State.flushHeld_elsewhere hd h))

theorem State.lineDone_elsewhere (hd : d ≠ c) {e : PendEntry} (h : (elsewhere s d).P u) : (elsewhere s d).P (u.lineDone c e) := by
  have hcounted := State.countWidth_keeps (elsewhere_has rfl) (c := c) (flags := e.flags)
    (State.modPort_elsewhere hd (f := fun p => { p with pend := p.pend.filter fun f => f.x != e.x }) h)
  refine Inv.ite (State.passPlaceholders_elsewhere hd hcounted) (State.passPlaceholders_elsewhere hd (Inv.ite ?_ ?_))
  · exact State.holdLine_elsewhere hd (State.modPort_elsewhere hd (Inv.ite (State.unreserve_elsewhere hd hcounted) hcounted))
  · split <;> exact State.holdLine_elsewhere hd (Inv.ite (State.unreserve_elsewhere hd hcounted) hcounted)

theorem State.rowEnd_elsewhere (hd : d ≠ c) (h : (elsewhere s d).P u) : (elsewhere s d).P (u.rowEnd c) := by
  unfold State.rowEnd
  split
  · exact h
  · dsimp only
    split
    · exact State.modPort_elsewhere hd h
    · have hrow : ∀ {x : Int} {f : PendEntry → PendEntry} {g : Port → Port}, (elsewhere s d).P ((u.modPort c g).modEntry c x f) :=
        State.modEntry_elsewhere hd (State.modPort_elsewhere hd h)
      split
      · exact Inv.ite (State.lineDone_elsewhere hd hrow) hrow
      · exact hrow

theorem State.rowPixels_elsewhere (hd : d ≠ c) {vals : List W16} {bad : Bool} (h : (elsewhere s d).P u) : (elsewhere s d).P (u.rowPixels c vals bad) := by
  unfold State.rowPixels
  split
  · exact h
  · exact Inv.ite (State.rowEnd_elsewhere hd (State.modPort_elsewhere hd h)) (State.modPort_elsewhere hd h)

theorem State.malformed_elsewhere (hd : d ≠ c) (h : (elsewhere s d).P u) : (elsewhere s d).P (u.malformed c) :=
  State.modFrame_elsewhere hd (State.camInt_keeps (elsewhere_has rfl) (State.camCount_keeps (elsewhere_has rfl) h))

theorem State.onStream_elsewhere (hd : d ≠ c) {stream : Byte} {f : State → State} (hf : ∀ v, (elsewhere s d).P v → (elsewhere s d).P (f v))
    (h : (elsewhere s d).P u) : (elsewhere s d).P (u.onStream c stream f) := by
  have hnamed : ∀ {g : Port → Port}, (elsewhere s d).P (u.modPort c g) := State.modPort_elsewhere hd h
  exact Inv.ite h (Inv.ite (Inv.ite (hf _ hnamed) hnamed) (State.malformed_elsewhere hd h))

/-! ### The control channel and discovery -/

theorem State.ccFinish_elsewhere (hd : d ≠ c) {result ack : Nat} (h : (elsewhere s d).P u) : (elsewhere s d).P (u.ccFinish c result ack) :=
  State.camInt_keeps (elsewhere_has rfl) (State.setReg_keeps (elsewhere_has rfl) (State.modPort_elsewhere hd h))

theorem State.ccRelease_elsewhere (hd : d ≠ c) (h : (elsewhere s d).P u) : (elsewhere s d).P (u.ccRelease c) := by
  unfold State.ccRelease
  split
  · exact Inv.ite h (Inv.ite (State.send_keeps (elsewhere_has rfl) (State.modPort_elsewhere hd h)) (State.ccFinish_elsewhere hd h))
  · exact h

theorem State.portDown_elsewhere (hd : d ≠ c) (h : (elsewhere s d).P u) : (elsewhere s d).P (u.portDown c) :=
  Inv.ite h (State.ccRelease_elsewhere hd (State.camStatus_keeps (elsewhere_has rfl)
    (State.modPort_elsewhere hd (State.closeFrame_elsewhere hd (State.rowEnd_elsewhere hd h)))))

theorem State.discFail_elsewhere (hd : d ≠ c) {code : Nat} (h : (elsewhere s d).P u) : (elsewhere s d).P (u.discFail c code) :=
  State.ccRelease_elsewhere hd (State.camStatus_keeps (elsewhere_has rfl) (State.setOd_keeps (elsewhere_has rfl) (State.modPort_elsewhere hd h)))

theorem State.discRead_elsewhere (hd : d ≠ c) {what : Nat} {step : DiscStep} (h : (elsewhere s d).P u) : (elsewhere s d).P (u.discRead c what step) :=
  State.send_keeps (elsewhere_has rfl) (State.modPort_elsewhere hd h)

theorem State.discStart_elsewhere (hd : d ≠ c) (h : (elsewhere s d).P u) : (elsewhere s d).P (u.discStart c) := by
  have hstarted : (elsewhere s d).P ((u.modPort c fun p => { p with state := .discovery }).setOd (Od.portDiscCode c) 1) :=
    State.setOd_keeps (elsewhere_has rfl) (State.modPort_elsewhere hd h)
  unfold State.discStart
  dsimp only
  split
  · exact Inv.ite (State.modPort_elsewhere hd hstarted) (State.discRead_elsewhere hd hstarted)
  · exact State.discRead_elsewhere hd hstarted

theorem State.discDone_elsewhere (hd : d ≠ c) (h : (elsewhere s d).P u) : (elsewhere s d).P (u.discDone c) :=
  State.ccRelease_elsewhere hd (State.camStatus_keeps (elsewhere_has rfl) (State.setOd_keeps (elsewhere_has rfl) (State.modPort_elsewhere hd h)))

theorem State.discReply_elsewhere (hd : d ≠ c) {ack : Byte} {data : List Byte} (h : (elsewhere s d).P u) : (elsewhere s d).P (u.discReply c ack data) := by
  unfold State.discReply
  split
  · exact State.discFail_elsewhere hd h
  · split
    · exact State.discRead_elsewhere hd (State.modPort_elsewhere hd h)
    · exact State.discRead_elsewhere hd (State.setBlob_keeps (elsewhere_has rfl) h)
    · have hseen : (elsewhere s d).P (u.modPort c fun p => { p with seenIdent := data }) := State.modPort_elsewhere hd h
      exact Inv.ite (State.discFail_elsewhere hd hseen) (Inv.ite (State.discFail_elsewhere hd hseen)
        (State.send_keeps (elsewhere_has rfl) (State.modPort_elsewhere hd hseen)))
    · exact Inv.ite (State.discRead_elsewhere hd h) (State.modPort_elsewhere hd h)
    · exact Inv.ite (State.discDone_elsewhere hd h) (State.discFail_elsewhere hd h)
    · exact h

theorem State.discResume_elsewhere (hd : d ≠ c) (h : (elsewhere s d).P u) : (elsewhere s d).P (u.discResume c) :=
  Inv.ite (State.discRead_elsewhere hd h) h

theorem State.ccGo_elsewhere (hd : d ≠ c) {write : Bool} (h : (elsewhere s d).P u) : (elsewhere s d).P (u.ccGo c write) := by
  have hgo : ∀ {v : State} {f : Port → Port} {b : Prop} [Decidable b] {o : Out}, (elsewhere s d).P v →
      (elsewhere s d).P (if b then ((v.modPort c f).setReg (Reg.camCcStatus c) 1).send o else (v.modPort c f).setReg (Reg.camCcStatus c) 1) := fun hv =>
    have hstatus := State.setReg_keeps (elsewhere_has rfl) (State.modPort_elsewhere hd hv)
    Inv.ite (State.send_keeps (elsewhere_has rfl) hstatus) hstatus
  exact Inv.ite h (Inv.ite (State.ccFinish_elsewhere hd h) (Inv.ite (State.ccFinish_elsewhere hd h) (Inv.ite (State.ccFinish_elsewhere hd h)
    (hgo (Inv.ite (State.ledgerAppend_keeps (elsewhere_has rfl) h) h)))))

/-! ### The commands -/

theorem execLaneLockGain_elsewhere (hd : d ≠ c) (lane : Fin 4) (s : State) : (elsewhere s d).ok (execLaneLockGain c lane s) :=
  Inv.ok_act (elsewhere_self s d) fun _ h => Inv.ite h (Inv.ite (State.discStart_elsewhere hd (State.modPort_elsewhere hd h))
    (Inv.ite (State.discRead_elsewhere hd (State.modPort_elsewhere hd h)) (State.modPort_elsewhere hd h)))

theorem execLaneLockLoss_elsewhere (hd : d ≠ c) (lane : Fin 4) (s : State) : (elsewhere s d).ok (execLaneLockLoss c lane s) :=
  Inv.ok_act (elsewhere_self s d) fun _ h => Inv.ite h
    (Inv.ite (State.portDown_elsewhere hd (State.modPort_elsewhere hd h)) (State.modPort_elsewhere hd h))

theorem execCcReply_elsewhere (hd : d ≠ c) (ack : Byte) (data : List Byte) (s : State) : (elsewhere s d).ok (execCcReply c ack data s) := by
  refine Inv.ok_act (elsewhere_self s d) fun u h => ?_
  have hdiscovery : (elsewhere s d).P (if (u.port c).discWaits then u.discReply c ack data else u) := Inv.ite (State.discReply_elsewhere hd h) h
  split
  · exact Inv.ite (State.discResume_elsewhere hd (State.ccFinish_elsewhere hd
      (Inv.ite (State.setCcData_keeps (elsewhere_has rfl) h) h))) hdiscovery
  · exact hdiscovery

theorem execCcTimeout_elsewhere (hd : d ≠ c) (s : State) : (elsewhere s d).ok (execCcTimeout c s) :=
  Inv.ok_act (elsewhere_self s d) fun _ h => Inv.ite (State.discResume_elsewhere hd (State.ccFinish_elsewhere hd h))
    (Inv.ite (State.discFail_elsewhere hd h) h)

theorem execDiscoveryLockTimeout_elsewhere (hd : d ≠ c) (s : State) : (elsewhere s d).ok (execDiscoveryLockTimeout c s) :=
  Inv.ok_act (elsewhere_self s d) fun _ h => Inv.ite (State.discFail_elsewhere hd h) h

theorem execHeartbeatSend_elsewhere (s : State) : (elsewhere s d).ok (execHeartbeatSend c s) :=
  Inv.ok_act (elsewhere_self s d) fun _ h => Inv.ite (State.send_keeps (elsewhere_has rfl) h) h

theorem execHeartbeatReceive_elsewhere (hd : d ≠ c) (s : State) : (elsewhere s d).ok (execHeartbeatReceive c s) :=
  Inv.ok_act (elsewhere_self s d) fun _ h => Inv.ite (State.modPort_elsewhere hd h) h

theorem execHeartbeatTimeout_elsewhere (hd : d ≠ c) (s : State) : (elsewhere s d).ok (execHeartbeatTimeout c s) :=
  Inv.ok_act (elsewhere_self s d) fun _ h => Inv.ite (State.camStatus_keeps (elsewhere_has rfl)
    (State.camCount_keeps (elsewhere_has rfl) (State.modPort_elsewhere hd h))) h

theorem execImageHeader_elsewhere (hd : d ≠ c) (stream pixelBits arrangement : Byte) (s : State) :
    (elsewhere s d).ok (execImageHeader c stream pixelBits arrangement none s) := by
  refine Inv.ok_act (elsewhere_self s d) fun u h => ?_
  have hheader : ∀ {flags : Nat}, (elsewhere s d).P (u.onStream c stream fun v =>
      (if ((v.rowEnd c).port c).open_.isSome then (v.rowEnd c).closeFrame c 8 else v.rowEnd c).openFrame c flags true) :=
    State.onStream_elsewhere hd (fun v hv => State.openFrame_elsewhere hd (Inv.ite (State.closeFrame_elsewhere hd (State.rowEnd_elsewhere hd hv))
      (State.rowEnd_elsewhere hd hv))) h
  exact Inv.ite hheader (State.malformed_elsewhere hd hheader)

theorem execPixelDataPacket_elsewhere (hd : d ≠ c) (stream : Byte) (pixels : List W16) (s : State) :
    (elsewhere s d).ok (execPixelDataPacket c stream pixels s) :=
  Inv.ok_act (elsewhere_self s d) fun _ h => State.onStream_elsewhere hd
    (fun _ hv => Inv.ite (State.rowPixels_elsewhere hd hv) (State.camCount_keeps (elsewhere_has rfl) hv)) h

theorem execCameraEventPacket_elsewhere (payload : List Byte) (s : State) : (elsewhere s d).ok (execCameraEventPacket c payload s) :=
  Inv.ok_act (elsewhere_self s d) fun _ h => Inv.ite h (State.event_keeps (elsewhere_has rfl) (State.camInt_keeps (elsewhere_has rfl)
    (State.camCount_keeps (elsewhere_has rfl) (State.send_keeps (elsewhere_has rfl) h))))

theorem exec_elsewhere (hd : d ≠ c) {i : Instr} (hi : onePort c i) (s : State) : (elsewhere s d).ok (exec i s) := by
  have hself := elsewhere_self s d
  cases i
  case imageHeader e stream pixelBits arrangement failed =>
    cases failed with
    | none => cases hi; exact execImageHeader_elsewhere hd stream pixelBits arrangement s
    | some lane => exact hi.elim
  case laneLockGain e lane => cases hi; exact execLaneLockGain_elsewhere hd lane s
  case laneLockLoss e lane => cases hi; exact execLaneLockLoss_elsewhere hd lane s
  case discoveryLockTimeout e => cases hi; exact execDiscoveryLockTimeout_elsewhere hd s
  case ccReply e ack data => cases hi; exact execCcReply_elsewhere hd ack data s
  case ccTimeout e => cases hi; exact execCcTimeout_elsewhere hd s
  case camCcRead e => cases hi; exact Inv.ok_act hself fun _ h => State.ccGo_elsewhere hd h
  case camCcWrite e => cases hi; exact Inv.ok_act hself fun _ h => State.ccGo_elsewhere hd h
  case heartbeatSend e => cases hi; exact execHeartbeatSend_elsewhere s
  case heartbeatReceive e => cases hi; exact execHeartbeatReceive_elsewhere hd s
  case heartbeatTimeout e => cases hi; exact execHeartbeatTimeout_elsewhere hd s
  case cameraEventPacket e payload => cases hi; exact execCameraEventPacket_elsewhere payload s
  case pixelDataPacket e stream pixels => cases hi; exact execPixelDataPacket_elsewhere hd stream pixels s
  case frameEnd e stream =>
    cases hi
    exact Inv.ok_act hself fun _ h => State.onStream_elsewhere hd (fun _ hv => State.closeFrame_elsewhere hd (State.rowEnd_elsewhere hd hv)) h
  case malformedPacket e => cases hi; exact Inv.ok_act hself fun _ h => State.malformed_elsewhere hd h
  case lineDataTimeout e => cases hi; exact Inv.ok_act hself fun _ h => State.rowEnd_elsewhere hd h
  case lineTimeoutAbsent e => cases hi; exact Inv.ok_act hself fun _ h => State.declareAbsent_elsewhere hd h
  case lineReleaseTimeout e => cases hi; exact Inv.ok_act hself fun _ h => State.flushHeld_elsewhere hd h
  all_goals exact hi.elim

end

/-- Settles O18: each command of one port keeps `elsewhere s d` for another port `d`. -/
theorem portsAreIndependent : Obligations.PortsAreIndependent := by
  unfold Obligations.PortsAreIndependent
  exact fun c d i s t hi hd ht => exec_elsewhere hd hi s t ht

end Sys2Proof.Machine
end

section
/-! PROOFS. At the completion of group lgn + 8 every group up to lgn is cancelled in every job that runs (R42, R382). What a job has cancelled is read through
`State.cancelledOf`, and each operation on the command unit says what it does to it. -/

namespace Sys2Proof.Machine

/-- A fold whose step with `a` makes what every step keeps ends with it. -/
theorem foldl_makes {α : Type} {P : State → Prop} {f : State → α → State} {l : List α} {a : α} (ha : a ∈ l) (hkeeps : ∀ u x, P u → P (f u x))
    (hmakes : ∀ u, P (f u a)) (s : State) : P (l.foldl f s) := by
  induction l generalizing s with
  | nil => cases ha
  | cons b r ih =>
    have hkept : ∀ (r : List α) (u : State), P u → P (r.foldl f u) := fun r => by
      induction r with
      | nil => exact fun _ h => h
      | cons x r ih => exact fun u h => ih _ (hkeeps u x h)
    rcases List.mem_cons.mp ha with hab | har
    · exact hkept r _ (hab ▸ hmakes s)
    · exact ih har _

/-! ### Commands and jobs by their tag -/

/-- A change of commands that keeps what a tag's search reads acts on the command found. -/
theorem State.cmdOf_mapCmds (s : State) {p : Cmd → Bool} {f : Cmd → Cmd} (hf : ∀ c, (f c).tag = c.tag ∧ (f c).noTag = c.noTag) (tag : Nat) :
    (s.mapCmds p f).cmdOf tag = (s.cmdOf tag).map fun c => if p c then f c else c := by
  have hsearch : ∀ c, ((if p c then f c else c).tag == tag && !(if p c then f c else c).noTag) = (c.tag == tag && !c.noTag) := fun c => by
    obtain ⟨htag, hnoTag⟩ := hf c
    split <;> simp [htag, hnoTag]
  simp [State.cmdOf, State.mapCmds, State.modCmd, List.find?_map, hsearch]

theorem State.cmdOf_tag {s : State} {tag : Nat} {c : Cmd} (h : s.cmdOf tag = some c) : c.tag = tag ∧ c.noTag = false := by
  simpa using List.find?_some h

/-- The running job of a tag, read from the command that holds the tag. -/
theorem State.jobOf_eq_some {s : State} {tag : Nat} {j : Job} : s.jobOf tag = some j ↔ ∃ c, s.cmdOf tag = some c ∧ c.stage = .running ∧ c.job = some j := by
  unfold State.jobOf
  cases s.cmdOf tag <;> simp

theorem State.jobOf_modJob (s : State) (x tag : Nat) (f : Job → Job) :
    (s.modJob x f).jobOf tag = if tag = x then (s.jobOf tag).map f else s.jobOf tag := by
  have hfound := s.cmdOf_mapCmds (p := fun c => c.tag == x && !c.noTag) (f := fun c => { c with job := c.job.map f }) (fun _ => ⟨rfl, rfl⟩) tag
  unfold State.jobOf
  rw [State.modJob, hfound]
  cases hc : s.cmdOf tag with
  | none => simp
  | some c =>
    obtain ⟨htag, hnoTag⟩ := State.cmdOf_tag hc
    by_cases hx : tag = x
    · by_cases hrun : c.stage = .running <;> simp [htag, hnoTag, hx, hrun]
    · simp [htag, hx]

/-- How far the groups of a tag's running job are cancelled. -/
def State.cancelledOf (s : State) (tag : Nat) : Option (Option Int) := (s.jobOf tag).map Job.cancelledTo

theorem State.cancelledOf_modJob (s : State) (x tag : Nat) (f : Job → Job) :
    (s.modJob x f).cancelledOf tag = if tag = x then (s.jobOf tag).map fun j => (f j).cancelledTo else s.cancelledOf tag := by
  rw [State.cancelledOf, State.jobOf_modJob]
  split <;> simp [State.cancelledOf, Function.comp_def]

/-- A change of jobs that leaves their cancellation. -/
theorem State.cancelledOf_modJob_same (s : State) (x tag : Nat) {f : Job → Job} (hf : ∀ j, (f j).cancelledTo = j.cancelledTo) :
    (s.modJob x f).cancelledOf tag = s.cancelledOf tag := by
  rw [State.cancelledOf_modJob]
  split <;> simp [State.cancelledOf, hf]

theorem State.cancelledOf_congr {s t : State} (h : t.cmd.cmds = s.cmd.cmds) (tag : Nat) : t.cancelledOf tag = s.cancelledOf tag := by
  rw [State.cancelledOf, State.cancelledOf, State.jobOf, State.jobOf, State.cmdOf, State.cmdOf, h]

/-! ### What keeps the cancellation of a tag's job -/

/-- The cancellation of a tag's running job has a property. -/
def cancelInv (tag : Nat) (Q : Option (Option Int) → Prop) : Inv := Inv.about [.cmd] (fun u => Q (u.cancelledOf tag)) fun u v h hu => by
  have hcmd : v.cmd = u.cmd := h .cmd (by simp)
  rwa [State.cancelledOf_congr (congrArg CmdUnit.cmds hcmd)]

theorem cancelInv_has {tag : Nat} {Q : Option (Option Int) → Prop} {m : List Part} (h : (m.all fun p => !([Part.cmd].contains p)) = true) :
    (cancelInv tag Q).has m := Inv.about_has h

section
variable {tag : Nat} {Q : Option (Option Int) → Prop} {u : State}

/-- A change of the command unit that leaves its commands. -/
theorem State.modCmd_cancel {f : CmdUnit → CmdUnit} (hf : (f u.cmd).cmds = u.cmd.cmds) (h : (cancelInv tag Q).P u) : (cancelInv tag Q).P (u.modCmd f) := by
  have hsame : (u.modCmd f).cancelledOf tag = u.cancelledOf tag := State.cancelledOf_congr hf tag
  exact (congrArg Q hsame).mpr h

theorem State.modJob_cancel {x : Nat} {f : Job → Job} (hf : ∀ j, (f j).cancelledTo = j.cancelledTo) (h : (cancelInv tag Q).P u) :
    (cancelInv tag Q).P (u.modJob x f) := (congrArg Q (u.cancelledOf_modJob_same x tag hf)).mpr h

theorem State.modOuts_cancel {x : Nat} {f : OutStream → OutStream} (h : (cancelInv tag Q).P u) : (cancelInv tag Q).P (u.modOuts x f) :=
  State.modJob_cancel (fun _ => rfl) h

theorem State.modWellTile_cancel {x : Tile} {f : WellTile → WellTile} (h : (cancelInv tag Q).P u) : (cancelInv tag Q).P (u.modWellTile x f) :=
  State.modJob_cancel (fun _ => rfl) h

theorem State.leaveRounds_cancel {k : CoreIx} (h : (cancelInv tag Q).P u) : (cancelInv tag Q).P (u.leaveRounds k) := State.modCmd_cancel rfl h

theorem State.stopTile_cancel {k : CoreIx} (h : (cancelInv tag Q).P u) : (cancelInv tag Q).P (u.stopTile k) := by
  unfold State.stopTile
  split
  · exact h
  · dsimp only
    refine State.coreIdle_keeps (cancelInv_has rfl) (State.modWellTile_cancel (State.leaveRounds_cancel ?_))
    have hcounted : ∀ {m : Mem} {f : Core → Core}, (cancelInv tag Q).P ((State.modCore { u with oasis := m } k f).countOd Od.jobTilesCancelled 1) :=
      fun {m f} => State.countOd_keeps (s := State.modCore { u with oasis := m } k f) (cancelInv_has rfl)
        (State.modCore_keeps (s := { u with oasis := m }) (cancelInv_has rfl) h)
    exact Inv.ite (State.count32_keeps (cancelInv_has rfl) hcounted) hcounted

theorem State.stopTiles_cancel {p : Tile → Bool} (h : (cancelInv tag Q).P u) : (cancelInv tag Q).P (u.stopTiles p) := by
  refine Inv.foldl h fun v k hv => ?_
  split
  · exact Inv.ite (State.stopTile_cancel hv) hv
  · exact hv

theorem State.modStream_cancel {i : Nat} {f : Stream → Stream} (h : (cancelInv tag Q).P u) : (cancelInv tag Q).P (u.modStream i f) :=
  State.modCmd_cancel rfl h

theorem State.freeFetch_cancel {x : Nat} {missed : Option Int} (h : (cancelInv tag Q).P u) : (cancelInv tag Q).P (u.freeFetch x missed) := by
  unfold State.freeFetch
  split
  · exact h
  · refine Inv.foldl h fun v i hv => ?_
    split
    · exact Inv.ite hv (Inv.ite (State.modStream_cancel hv) (Inv.ite (State.dropFills_keeps (cancelInv_has rfl) (State.modStream_cancel hv)) hv))
    · exact hv

theorem State.spoolFree_cancel {ps : List Nat} (h : (cancelInv tag Q).P u) : (cancelInv tag Q).P (u.spoolFree ps) := by
  have hfreed : ∀ {used : List Nat} {high : Bool}, (cancelInv tag Q).P (u.modCmd fun c => { c with spoolUsed := used, spoolHigh := high }) :=
    State.modCmd_cancel rfl h
  exact Inv.ite (State.streamStatus_keeps (cancelInv_has rfl) hfreed) hfreed

theorem State.missedPut_cancel {x : Nat} {o : OutStream} (h : (cancelInv tag Q).P u) : (cancelInv tag Q).P (u.missedPut x o) := by
  unfold State.missedPut
  split
  · exact h
  · exact Inv.ite h (State.modOuts_cancel (State.modCmd_cancel rfl (State.ringPut_keeps (cancelInv_has rfl) h)))

theorem State.missGroup_cancel {x : Nat} {g : Int} {ring : Nat} (h : (cancelInv tag Q).P u) : (cancelInv tag Q).P (u.missGroup x g ring) := by
  unfold State.missGroup
  split
  · exact h
  · split
    · exact h
    · refine Inv.ite h ?_
      have hmissed : ∀ {ps : List Nat} {f : OutStream → OutStream}, (cancelInv tag Q).P (((u.spoolFree ps).countOd Od.cntMissedCount 1).modOuts x f) :=
        State.modOuts_cancel (State.countOd_keeps (cancelInv_has rfl) (State.spoolFree_cancel h))
      dsimp only
      split
      · exact State.missedPut_cancel hmissed
      · exact hmissed

end

/-! ### The cancellation of groups -/

/-- A group's cancellation marks the job of its tag, and no other. -/
theorem State.cancelGroup_cancelledOf (s : State) (g : Int) (x : Nat × Job) (tag : Nat) :
    (s.cancelGroup g x).cancelledOf tag = if tag = x.1 then (s.cancelledOf tag).map fun _ => some g else s.cancelledOf tag := by
  unfold State.cancelGroup
  split
  · rename_i hnone
    split
    · rename_i htag
      simp [State.cancelledOf, htag, hnone]
    · rfl
  · dsimp only
    set Q : Option (Option Int) → Prop := (· = if tag = x.1 then (s.cancelledOf tag).map fun _ => some g else s.cancelledOf tag)
    have hmarked : ∀ {n : Job → Nat}, (cancelInv tag Q).P
        (s.modJob x.1 fun j => { j with cancelledTo := some g, missedGroups := n j }) := fun {n} => by
      refine (s.cancelledOf_modJob x.1 tag _).trans ?_
      simp [State.cancelledOf, Function.comp_def]
    have hmissed : ∀ {n : Job → Nat} {p : Tile → Bool} {missed : Option Int} {rings : List Nat}, (cancelInv tag Q).P
        (rings.foldl (fun (u : State) r => u.missGroup x.1 g r)
          (((s.modJob x.1 fun j => { j with cancelledTo := some g, missedGroups := n j }).stopTiles p).freeFetch x.1 missed)) :=
      Inv.foldl (State.freeFetch_cancel (State.stopTiles_cancel hmarked)) fun _ _ hu => State.missGroup_cancel hu
    exact Inv.ite (State.detMissed_keeps (cancelInv_has rfl) hmissed) hmissed

/-- A tag's job, where it has one, has cancelled the groups up to `g`. -/
def cancelledUpTo (g : Int) (r : Option (Option Int)) : Prop := ∀ c, r = some c → ∃ k, c = some k ∧ g ≤ k

theorem cancelledUpTo_map (g : Int) (r : Option (Option Int)) : cancelledUpTo g (r.map fun _ => some g) := fun c hc => by
  obtain ⟨_, _, rfl⟩ := Option.map_eq_some_iff.mp hc
  exact ⟨g, rfl, Int.le_refl g⟩

/-- The groups of one job from `lo` on are cancelled in their order. -/
def State.cancelFrom (s : State) (lo : Int) (n : Nat) (x : Nat × Job) : State :=
  (List.range n).foldl (fun (w : State) i => w.cancelGroup (lo + (i : Int)) x) s

theorem State.cancelFrom_cancelledOf (s : State) (lo : Int) (n : Nat) (x : Nat × Job) (tag : Nat) :
    (s.cancelFrom lo n x).cancelledOf tag = if tag = x.1 ∧ n ≠ 0 then (s.cancelledOf tag).map fun _ => some (lo + (n : Int) - 1) else s.cancelledOf tag := by
  induction n with
  | zero => simp [State.cancelFrom]
  | succ n ih =>
    have hstep : s.cancelFrom lo (n + 1) x = (s.cancelFrom lo n x).cancelGroup (lo + (n : Int)) x := by simp [State.cancelFrom, List.range_succ]
    rw [hstep, State.cancelGroup_cancelledOf, ih]
    by_cases htag : tag = x.1
    · by_cases hn : n = 0 <;> simp [htag, hn, Function.comp_def]; grind
    · simp [htag]

/-- The first group that a job has still to cancel. -/
def Job.cancelStart (j : Job) (h : Int) : Int := max h (match j.cancelledTo with
  | some c => c + 1
  | none => h)

theorem Job.cancelStart_le {j : Job} {h g : Int} (hh : h ≤ g) (hj : ∀ c, j.cancelledTo = some c → c < g) : j.cancelStart h ≤ g := by
  unfold Job.cancelStart
  cases hc : j.cancelledTo with
  | none => simpa using hh
  | some c => exact max_le hh (hj c hc)

/-- The groups up to `g` that a job has still to cancel are cancelled, `h` being the first group processed. -/
def State.cancelJobTo (s : State) (h g : Int) (x : Nat × Job) : State := s.cancelFrom (x.2.cancelStart h) (g + 1 - x.2.cancelStart h).toNat x

theorem State.cancelTo_eq {s : State} {h : Int} (hfirst : s.firstGroup = some h) (g : Int) :
    s.cancelTo g = (s.jobs.foldl (fun (u : State) x => u.cancelJobTo h g x) s).releaseRings := by
  unfold State.cancelTo
  rw [hfirst]
  rfl

/-- One job's cancellation leaves or makes every tag's groups cancelled up to `g`, and makes those of its own tag so where a group remains. -/
theorem State.cancelJobTo_upTo {u : State} {h g : Int} {x : Nat × Job} {tag : Nat}
    (hx : cancelledUpTo g (u.cancelledOf tag) ∨ (tag = x.1 ∧ x.2.cancelStart h ≤ g)) : cancelledUpTo g ((u.cancelJobTo h g x).cancelledOf tag) := by
  rw [State.cancelJobTo, State.cancelFrom_cancelledOf]
  generalize x.2.cancelStart h = lo at hx
  split
  · rw [show lo + ((g + 1 - lo).toNat : Int) - 1 = g by omega]
    exact cancelledUpTo_map g _
  · rename_i hn
    exact hx.resolve_right fun hlo => hn ⟨hlo.1, by omega⟩

/-- A running job is among the jobs. -/
theorem State.mem_jobs {s : State} {tag : Nat} {j : Job} (h : s.jobOf tag = some j) : (tag, j) ∈ s.jobs := by
  obtain ⟨c, hc, hstage, hjob⟩ := State.jobOf_eq_some.mp h
  refine List.mem_filterMap.mpr ⟨c, List.mem_of_find?_eq_some hc, ?_⟩
  simp [hjob, hstage, (State.cmdOf_tag hc).1]

/-- Groups up to `g` are cancelled in every job. -/
theorem State.cancelTo_upTo {s : State} {g h : Int} (hfirst : s.firstGroup = some h) (hh : h ≤ g) (tag : Nat) :
    cancelledUpTo g ((s.cancelTo g).cancelledOf tag) := by
  rw [State.cancelTo_eq hfirst]
  refine State.releaseRings_keeps (I := cancelInv tag (cancelledUpTo g)) (cancelInv_has rfl) ?_
  have hkept : ∀ (u : State) (x : Nat × Job), cancelledUpTo g (u.cancelledOf tag) → cancelledUpTo g ((u.cancelJobTo h g x).cancelledOf tag) :=
    fun u x hu => State.cancelJobTo_upTo (Or.inl hu)
  by_cases hdone : cancelledUpTo g (s.cancelledOf tag)
  · exact Inv.foldl (I := cancelInv tag (cancelledUpTo g)) hdone hkept
  · obtain ⟨j, hj, hlate⟩ : ∃ j, s.jobOf tag = some j ∧ ∀ c, j.cancelledTo = some c → c < g := by
      simp only [cancelledUpTo, not_forall] at hdone
      obtain ⟨r, hr, hnot⟩ := hdone
      obtain ⟨j, hj, rfl⟩ := Option.map_eq_some_iff.mp hr
      exact ⟨j, hj, fun c hc => not_le.mp fun hle => hnot ⟨c, hc, hle⟩⟩
    exact foldl_makes (P := fun u => cancelledUpTo g (u.cancelledOf tag)) (State.mem_jobs hj) hkept
      (fun u => State.cancelJobTo_upTo (Or.inr ⟨rfl, Job.cancelStart_le hh hlate⟩)) s

theorem groupCancel_lateGroupsAreCancelled : lateGroupsAreCancelled := by
  intro s g h ha hfirst hh hdone
  refine ⟨_, (State.act_awake ha _ : execGroupCancel g s = _), fun tag j hj => ?_⟩
  dsimp only at hj
  rw [if_pos hdone] at hj
  obtain ⟨c, hc, hgc⟩ := State.cancelTo_upTo hfirst hh tag j.cancelledTo (by rw [State.cancelledOf, hj]; rfl)
  refine ⟨⟨c, hc, hgc⟩, fun w hw => ?_⟩
  simp [Job.tileCancelled, hc, hw.trans hgc]

end Sys2Proof.Machine
end

section
/-! PROOFS. Commands start, are refused and complete (R373, R375, R387, R388, R394): what each operation does to a command in flight, one equation for each way
that a job's start ends, and the parts of a job's completion. -/

namespace Sys2Proof.Machine

/-! ### A command in flight -/

/-- The command `c` at the stage `st`. -/
def Cmd.isAs (x c : Cmd) (st : CmdStage) : Prop := x.queue = c.queue ∧ x.index = c.index ∧ x.tag = c.tag ∧ x.stage = st

/-- A command stands in flight at a stage. -/
def inFlightInv (c : Cmd) (st : CmdStage) : Inv := Inv.about [.cmd] (fun u => inFlight u c st) fun u v h hu => by
  have hcmd : v.cmd = u.cmd := h .cmd (by simp)
  rwa [inFlight, hcmd]

theorem inFlightInv_has {c : Cmd} {st : CmdStage} {m : List Part} (h : (m.all fun p => !([Part.cmd].contains p)) = true) : (inFlightInv c st).has m :=
  Inv.about_has h

/-- What a change of commands makes of one in flight. -/
theorem inFlight_mapCmds {u : State} {c : Cmd} {st st' : CmdStage} {p : Cmd → Bool} {f : Cmd → Cmd} (h : inFlight u c st)
    (hf : ∀ x : Cmd, x.isAs c st → (if p x then f x else x).isAs c st') : inFlight (u.mapCmds p f) c st' := by
  obtain ⟨x, hx, has⟩ := h
  exact ⟨_, List.mem_map_of_mem (f := fun x => if p x then f x else x) hx, hf x has⟩

/-- A change of the command unit that leaves its commands. -/
theorem inFlight_modCmd {u : State} {c : Cmd} {st : CmdStage} {f : CmdUnit → CmdUnit} (hf : (f u.cmd).cmds = u.cmd.cmds) (h : inFlight u c st) :
    inFlight (u.modCmd f) c st := by
  obtain ⟨x, hx, has⟩ := h
  exact ⟨x, by rw [State.modCmd, hf]; exact hx, has⟩

/-- A change of a command's own record sets its stage. -/
theorem inFlight_modCmdRec {u : State} {c : Cmd} {st st' : CmdStage} {f : Cmd → Cmd}
    (hf : ∀ x : Cmd, x.stage = st → (f x).queue = x.queue ∧ (f x).index = x.index ∧ (f x).tag = x.tag ∧ (f x).stage = st') (h : inFlight u c st) :
    inFlight (u.modCmdRec c f) c st' := by
  refine inFlight_mapCmds h fun x ⟨hqueue, hindex, htag, hstage⟩ => ?_
  obtain ⟨hfqueue, hfindex, hftag, hfstage⟩ := hf x hstage
  rw [if_pos (by simp [hqueue, hindex])]
  exact ⟨hfqueue.trans hqueue, hfindex.trans hindex, hftag.trans htag, hfstage⟩

/-- Has a command ended? -/
def CmdStage.ended : CmdStage → Bool
  | .done _ _ => true
  | _ => false

theorem State.endCmd_eq (s : State) (p : Cmd → Bool) (status detail : Nat) :
    s.endCmd p status detail = s.mapCmds (fun c => p c && !c.stage.ended) fun c => { c with stage := .done status detail } := by
  unfold State.endCmd
  congr 1
  funext c
  cases c.stage <;> rfl

/-- A command that has not ended ends with its status. -/
theorem inFlight_endCmd {u : State} {c : Cmd} {st : CmdStage} (hst : st.ended = false) (status detail : Nat) (h : inFlight u c st) :
    inFlight (u.endCmd (fun x => x.queue == c.queue && x.index == c.index) status detail) c (.done status detail) := by
  rw [State.endCmd_eq]
  refine inFlight_mapCmds h fun x ⟨hqueue, hindex, htag, hstage⟩ => ?_
  rw [if_pos (by simp [hqueue, hindex, hstage, hst])]
  exact ⟨hqueue, hindex, htag, rfl⟩

theorem inFlight_refuseCmd {u : State} {c : Cmd} (status : Nat) (h : inFlight u c .read) : inFlight (u.refuseCmd c status) c (.done status 0) :=
  State.event_keeps (I := inFlightInv c (.done status 0)) (inFlightInv_has rfl) (State.raiseInt_keeps (inFlightInv_has rfl)
    (State.count64_keeps (inFlightInv_has rfl) (inFlight_endCmd rfl status 0 h)))

/-- The command unit after a job's streams have ended: the streams of other jobs, and the orphans of its own. -/
theorem State.dropStreams_cmd (s : State) (tag : Nat) : ∃ told, (s.dropStreams tag).cmd =
    { s.cmd with streams := s.cmd.streams.filterMap fun x => if x.tag = tag then x.orphan else some x, lastEvent := told } := by
  have hfills : ∀ xs : List Stream, (xs.foldl (fun (u : State) x =>
      if x.tag = tag && x.kind == 0 then u.dropFills x.slotBytes x.fills.length else u) s).cmd = s.cmd := fun xs =>
    keepInv_same (Inv.foldl (keepInv_self s [.cmd]) fun u x hu => Inv.ite (State.dropFills_keeps (keepInv_has rfl) hu) hu) (p := .cmd) (by simp)
  refine ⟨(s.dropStreams tag).cmd.lastEvent, ?_⟩
  rw [← hfills s.cmd.streams]
  rfl

theorem inFlight_dropStreams {u : State} {c : Cmd} {st : CmdStage} (tag : Nat) (h : inFlight u c st) : inFlight (u.dropStreams tag) c st := by
  obtain ⟨told, hcmd⟩ := u.dropStreams_cmd tag
  rwa [inFlight, hcmd]

theorem inFlight_refuseJob {u : State} {c : Cmd} (status : Nat) (h : inFlight u c .read) : inFlight (u.refuseJob c status) c (.done status 0) :=
  inFlight_refuseCmd status (inFlight_modCmdRec (fun _ hx => ⟨rfl, rfl, rfl, hx⟩) (inFlight_dropStreams c.tag h))

theorem inFlight_fixFirst {u : State} {c : Cmd} {st : CmdStage} (h : inFlight u c st) : inFlight u.fixFirst c st := by
  unfold State.fixFirst
  split
  · exact h
  · refine inFlight_mapCmds h fun x hx => ?_
    split <;> exact hx

theorem inFlight_startJob {u : State} {c : Cmd} (j : Job) (streams : List Stream) (h : inFlight u c .read) : inFlight (u.startJob c j streams) c .running :=
  State.spoolCheck_keeps (I := inFlightInv c .running) (inFlightInv_has rfl)
    (inFlight_fixFirst (inFlight_modCmdRec (fun _ _ => ⟨rfl, rfl, rfl, rfl⟩) h))

/-- The command that may start is in flight, and only read. -/
theorem State.startable_inFlight {s : State} {q kind : Nat} {c : Cmd} (h : s.startable q kind = some c) : c ∈ s.cmd.cmds ∧ c.stage = .read := by
  have hhead : s.headCmd q = some c := by
    unfold State.startable at h
    split at h
    · cases h
    · rename_i d hd
      have hdc : d = c := by simpa using (Option.ite_none_right_eq_some.mp h).2
      rwa [← hdc]
  refine ⟨List.mem_of_mem_filter (List.mem_of_find?_eq_some hhead), by simpa using List.find?_some hhead⟩

theorem inFlight_of_startable {s : State} {q kind : Nat} {c : Cmd} (h : s.startable q kind = some c) : inFlight s c .read :=
  ⟨c, (State.startable_inFlight h).1, rfl, rfl, rfl, (State.startable_inFlight h).2⟩

/-! ### The start of a job -/

section
variable {s : State} {q : QueueIx} {c : Cmd}

/-- A job that has passed the checks before its arguments: it goes on with them, or is refused where they could not be read. -/
def State.startWithArgs (s : State) (c : Cmd) : State := match c.job with
  | some j => s.tryJob c j
  | none => match c.argsBad, s.bindArgs c.tag (c.field 16 8) with
    | some st, _ => s.refuseJob c st
    | none, none => (s.argsSeen (c.field 16 8)).refuseJob c 7
    | none, some (args, streams) => ((s.argsSeen (c.field 16 8)).bindJob c args streams).tryJob c (c.newJob args)

/-- The checks of a job's start, in their order. -/
theorem exec_jobStart (ha : s.awake) (hstart : s.startable q 0 = some c)
    (hdma : bitAt (c.field 16 8) 63 = true → c.job = none → c.argsBad = none → s.canDma = true) :
    exec (.jobStart q) s = .next (if s.wellBusy (byteAt c.bytes 6) then s.refuseJob c 5
      else if !s.dev.state.live then s.refuseJob c 8
      else if byteAt c.bytes 7 != 0xFF && s.ringBad (byteAt c.bytes 7) (32 + 32 * s.od Od.detKeepMax) then s.refuseJob c 0x0B
      else s.startWithArgs c) := by
  have hready : ¬ (bitAt (c.field 16 8) 63 && c.job.isNone && c.argsBad.isNone && !s.canDma) = true := by simpa using hdma
  refine (State.act_awake ha _ : execJobStart q s = _).trans ?_
  simp only [hstart, if_neg hready]
  rfl

/-- A job that passes the checks before its arguments goes on with them. -/
theorem exec_jobStart_passes (ha : s.awake) (hstart : s.startable q 0 = some c)
    (hdma : bitAt (c.field 16 8) 63 = true → c.job = none → c.argsBad = none → s.canDma = true) (hpasses : jobPasses s c) :
    (∀ s1 j, boundJob s c = some (s1, j) → exec (.jobStart q) s = .next (s1.tryJob c j)) ∧
    (∀ st, c.job = none → c.argsBad = some st → exec (.jobStart q) s = .next (s.refuseJob c st)) ∧
    (c.job = none → c.argsBad = none → s.bindArgs c.tag (c.field 16 8) = none →
      exec (.jobStart q) s = .next ((s.argsSeen (c.field 16 8)).refuseJob c 7)) := by
  obtain ⟨hwell, hlive, hring⟩ := hpasses
  have hringOk : ¬ (byteAt c.bytes 7 != 0xFF && s.ringBad (byteAt c.bytes 7) (32 + 32 * s.od Od.detKeepMax)) = true := by
    rcases hring with h | h <;> simp [h]
  rw [exec_jobStart ha hstart hdma, if_neg (by simp [hwell]), if_neg (by simp [hlive]), if_neg hringOk, State.startWithArgs]
  refine ⟨fun s1 j hbound => ?_, fun st hjob hbad => by simp [hjob, hbad], fun hjob hbad hargs => by simp [hjob, hbad, hargs]⟩
  unfold boundJob at hbound
  cases hjob : c.job with
  | some k => simp_all
  | none =>
    cases hbad : c.argsBad with
    | some st => simp [hjob, hbad] at hbound
    | none =>
      simp only [hjob, hbad] at hbound
      obtain ⟨⟨args, streams⟩, hargs, heq⟩ := Option.map_eq_some_iff.mp hbound
      obtain ⟨rfl, rfl⟩ := Prod.mk.inj heq
      simp [hargs]

/-- Arguments that are bound leave the command in flight. -/
theorem inFlight_boundJob {s1 : State} {j : Job} (hbound : boundJob s c = some (s1, j)) (h : inFlight s c .read) : inFlight s1 c .read := by
  unfold boundJob at hbound
  cases hjob : c.job with
  | some k => simp_all
  | none =>
    cases hbad : c.argsBad with
    | some st => simp [hjob, hbad] at hbound
    | none =>
      simp only [hjob, hbad] at hbound
      obtain ⟨⟨args, streams⟩, hargs, heq⟩ := Option.map_eq_some_iff.mp hbound
      obtain ⟨rfl, rfl⟩ := Prod.mk.inj heq
      have hseen : inFlight (s.argsSeen (c.field 16 8)) c .read := State.argsSeen_keeps (I := inFlightInv c .read) (inFlightInv_has rfl) h
      refine inFlight_modCmd rfl (inFlight_mapCmds hseen fun x hx => ?_)
      split <;> exact hx

/-- The rings of a job's output streams are checked before it starts. -/
theorem State.tryJob_eq (s1 : State) (c : Cmd) (j : Job) :
    (((boundOuts s1 c j).map fun o => o.ring).Nodup → (∀ o ∈ boundOuts s1 c j, o.arg.isSome = true → s1.ringBad o.ring o.pitch = false) →
      s1.tryJob c j = s1.startJob c j (s1.cmd.streams.filter fun x => x.tag == c.tag)) ∧
    ((¬ ((boundOuts s1 c j).map fun o => o.ring).Nodup ∨ ∃ o ∈ boundOuts s1 c j, o.arg.isSome = true ∧ s1.ringBad o.ring o.pitch = true) →
      s1.tryJob c j = s1.refuseJob c 0x0B) := by
  have htwice : (((boundOuts s1 c j).map fun o => o.ring).dedup.length != (boundOuts s1 c j).length) = true ↔
      ¬ ((boundOuts s1 c j).map fun o => o.ring).Nodup := by
    rw [bne_iff_ne, ne_eq, ← List.length_map (as := boundOuts s1 c j) (f := fun o => o.ring), ← List.dedup_eq_self,
      (List.dedup_sublist _).length_eq]
  unfold State.tryJob
  refine ⟨fun hnodup hrings => if_neg ?_, fun hbad => if_pos ?_⟩
  · rw [Bool.or_eq_true, not_or]
    refine ⟨fun h => htwice.mp h hnodup, fun h => ?_⟩
    obtain ⟨o, ho, hring⟩ := List.any_eq_true.mp h
    obtain ⟨harg, hring⟩ := Bool.and_eq_true_iff.mp hring
    simp [hrings o ho harg] at hring
  · rw [Bool.or_eq_true]
    refine hbad.imp htwice.mpr fun ⟨o, ho, harg, hring⟩ => List.any_eq_true.mpr ⟨o, ho, by simp [harg, hring]⟩

end

/-! ### The start of the other commands -/

theorem exec_copyCommand {s : State} {q : QueueIx} {c : Cmd} (ha : s.awake) (hstart : s.startable q 1 = some c) :
    (∀ d src dst, s.od Od.dramDramState = 2 → s.bindDesc (c.field 8 8) = .ok d src dst → sdKind d = 3 →
      exec (.copyCommand q) s = .next ((s.descSeen (c.field 8 8)).modCmdRec c fun x =>
        { x with stage := .running, copy := some { desc := d, src := src, dst := dst } })) ∧
    ((s.od Od.dramDramState ≠ 2 ∨ ∀ d src dst, s.bindDesc (c.field 8 8) = .ok d src dst → sdKind d ≠ 3) →
      exec (.copyCommand q) s = .next (s.refuseCmd c 7) ∨ exec (.copyCommand q) s = .next ((s.descSeen (c.field 8 8)).refuseCmd c 7)) := by
  have hexec := (State.act_awake ha _ : execCopyCommand q s = _)
  simp only [hstart] at hexec
  change exec (.copyCommand q) s = _ at hexec
  rw [hexec]
  refine ⟨fun d src dst hdram hdesc hkind => by simp [hdram, hdesc, hkind], fun hbad => ?_⟩
  by_cases hdram : s.od Od.dramDramState = 2
  · right
    cases hdesc : s.bindDesc (c.field 8 8) with
    | bad n => simp [hdram]
    | ok d src dst => simp [hdram, hbad.resolve_left (not_not.mpr hdram) d src dst hdesc]
  · left
    simp [hdram]

/-- A signal changes the command unit in its object alone. -/
theorem State.signal_cmd (s : State) (i op v : Nat) :
    (s.signal i op v).cmd = { s.cmd with syncs := s.cmd.syncs.set s.cmd.syncInit i ((if op = 0 then s.sync i + v else v) % 2 ^ 32) } := by
  have hset : ∀ w, (s.setSync i w).cmd = { s.cmd with syncs := s.cmd.syncs.set s.cmd.syncInit i (w % 2 ^ 32) } := fun w =>
    keepInv_same (State.haloOnSync_keeps (keepInv_has rfl) (keepInv_self _ [.cmd])) (p := .cmd) (by simp)
  unfold State.signal
  split <;> exact hset _

theorem inFlight_signal {s : State} {c : Cmd} {st : CmdStage} (i op v : Nat) (h : inFlight s c st) : inFlight (s.signal i op v) c st := by
  rwa [inFlight, State.signal_cmd]

theorem exec_signalCommand {s : State} {q : QueueIx} {c : Cmd} (ha : s.awake) (hstart : s.startable q 2 = some c) :
    exec (.signalCommand q) s = .next ((s.signal (c.field 46 2 % 2 ^ 14) (bit (bitAt (c.field 46 2) 14)) (c.field 52 4)).endCmd
      (fun x => x.queue == c.queue && x.index == c.index) 0 0) := by
  refine (State.act_awake ha _ : execSignalCommand q s = _).trans ?_
  simp only [hstart]

theorem exec_waitCommand {s : State} {q : QueueIx} {c : Cmd} (ha : s.awake) (hstart : s.startable q 3 = some c) :
    exec (.waitCommand q) s = .next (if waitHolds (s.sync (c.field 44 2)) (c.field 48 4) then s.endCmd (fun x => x.queue == c.queue && x.index == c.index) 0 0
      else s.modCmdRec c fun x => { x with stage := .waiting }) := by
  refine (State.act_awake ha _ : execWaitCommand q s = _).trans ?_
  simp only [hstart]

theorem exec_syncWaitSatisfied_queue {s : State} {q : QueueIx} {c : Cmd} (ha : s.awake) (hopen : s.cmdOpen = true)
    (hwaits : ((s.queueCmds q).find? fun c => c.stage = .waiting) = some c) (hholds : waitHolds (s.sync (c.field 44 2)) (c.field 48 4) = true) :
    exec (.syncWaitSatisfied (.queue q)) s = .next (s.endCmd (fun x => x.queue == c.queue && x.index == c.index) 0 0) := by
  refine (State.act_awake ha _ : execSyncWaitSatisfied (.queue q) s = _).trans ?_
  simp [hwaits, hopen, hholds]

/-! ### The completion of a job -/

/-- The core `k` holds no program of the job with the tag. -/
def noProgInv (tag : Nat) (k : CoreIx) : Inv := Inv.about [.cores] (fun u => (u.core k).prog.map Prod.fst ≠ some tag) fun u v h hu => by
  have hcores : v.cores = u.cores := h .cores (by simp)
  rwa [State.core, hcores]

theorem noProgInv_has {tag : Nat} {k : CoreIx} {m : List Part} (h : (m.all fun p => !([Part.cores].contains p)) = true) : (noProgInv tag k).has m :=
  Inv.about_has h

@[simp] theorem State.core_modCore (s : State) (i k : CoreIx) (f : Core → Core) : (s.modCore i f).core k = if k = i then f (s.core i) else s.core k := by
  by_cases h : k = i
  · subst h
    simp [State.core, State.modCore]
  · rw [if_neg h]
    exact Vector.getElem_set_ne (xs := s.cores) i.isLt k.isLt fun e => h (Fin.ext e.symm)

theorem noProg_modCore {u : State} {tag : Nat} {i k : CoreIx} {f : Core → Core} (hf : ∀ c : Core, (f c).prog = c.prog ∨ (f c).prog = none)
    (h : (noProgInv tag k).P u) : (noProgInv tag k).P (u.modCore i f) := by
  change ((u.modCore i f).core k).prog.map Prod.fst ≠ some tag
  rw [State.core_modCore]
  split
  · rename_i hk
    rcases hf (u.core i) with hsame | hnone
    · rw [hsame, ← hk]
      exact h
    · simp [hnone]
  · exact h

theorem noProg_coreIdle {u : State} {tag : Nat} {i k : CoreIx} (h : (noProgInv tag k).P u) : (noProgInv tag k).P (u.coreIdle i) := by
  have hidle : (noProgInv tag k).P (u.modCore i fun c => { c with tile := none, job := none, phase := .idle }) := noProg_modCore (fun _ => Or.inl rfl) h
  have hparked := noProg_modCore (f := fun c => { c with parked := true, resident := [] }) (i := i) (fun _ => Or.inl rfl) hidle
  exact Inv.ite (State.raiseStatus_keeps (noProgInv_has rfl) hparked) hidle

/-- One core forgets the job with a tag. -/
def State.forgetOn (u : State) (tag : Nat) (k : CoreIx) : State :=
  let bound := (u.core k).job == some tag
  if (u.core k).prog.map Prod.fst = some tag || bound then
    let u := u.modCore k fun c => { c with prog := none, job := if bound then none else c.job }
    if bound && (u.core k).tile.isNone then u.coreIdle k else u
  else u

theorem State.forgetJob_eq (s : State) (tag : Nat) : s.forgetJob tag = (List.finRange 32).foldl (fun (u : State) k => u.forgetOn tag k)
    { s with cores := s.cores.map fun c => { c with resident := c.resident.filter fun r => r.1 != tag } } := rfl

theorem noProg_forgetOn {u : State} {tag : Nat} {i k : CoreIx} (h : (noProgInv tag k).P u ∨ i = k) : (noProgInv tag k).P (u.forgetOn tag i) := by
  unfold State.forgetOn
  dsimp only
  split
  · have hforgotten : ∀ {b : Bool}, (noProgInv tag k).P (u.modCore i fun c => { c with prog := none, job := if b then none else c.job }) := fun {b} => by
      rcases h with h | rfl
      · exact noProg_modCore (fun _ => Or.inr rfl) h
      · change (State.core _ _).prog.map Prod.fst ≠ some tag
        simp
    exact Inv.ite (noProg_coreIdle hforgotten) hforgotten
  · rename_i hprog
    rcases h with h | rfl
    · exact h
    · change (u.core i).prog.map Prod.fst ≠ some tag
      simp_all

theorem noProg_forgetJob (s : State) (tag : Nat) (k : CoreIx) : (noProgInv tag k).P (s.forgetJob tag) := by
  rw [State.forgetJob_eq]
  exact foldl_makes (P := (noProgInv tag k).P) (f := fun u i => u.forgetOn tag i) (List.mem_finRange k) (fun u i hu => noProg_forgetOn (Or.inl hu))
    (fun u => noProg_forgetOn (Or.inr rfl)) _

/-- The command of a tag that ends holds the tag no more as a running one. -/
theorem State.jobOf_endCmd (s : State) (tag : Nat) : (s.endCmd (fun c => c.tag == tag && !c.noTag) 0 0).jobOf tag = none := by
  rw [State.endCmd_eq, State.jobOf, State.cmdOf_mapCmds (f := fun c => { c with stage := .done 0 0 }) _ (fun _ => ⟨rfl, rfl⟩)]
  cases hc : s.cmdOf tag with
  | none => rfl
  | some c =>
    obtain ⟨htag, hnoTag⟩ := State.cmdOf_tag hc
    cases hstage : c.stage <;> simp [htag, hnoTag, hstage, CmdStage.ended]

/-- The state in which a job's command and streams have ended and its missed records are owed. -/
def State.jobEnded (s : State) (tag : Nat) (j : Job) : State :=
  ((s.modCmd fun u => { u with owed := u.owed ++ j.outs.flatMap fun o => o.owed tag }).dropStreams tag).endCmd (fun c => c.tag == tag && !c.noTag) 0 0

theorem State.jobEnded_owed (s : State) (tag : Nat) (j : Job) : (s.jobEnded tag j).cmd.owed = s.cmd.owed ++ j.outs.flatMap fun o => o.owed tag := by
  obtain ⟨told, hcmd⟩ := (s.modCmd fun u => { u with owed := u.owed ++ j.outs.flatMap fun o => o.owed tag }).dropStreams_cmd tag
  exact (congrArg CmdUnit.owed hcmd)

/-- No stream keeps the tag of a job that has ended: its orphans take another. -/
theorem State.jobEnded_streams (s : State) {tag : Nat} (htag : tag < 4096) (j : Job) : ∀ x ∈ (s.jobEnded tag j).cmd.streams, x.tag ≠ tag := by
  obtain ⟨told, hcmd⟩ := (s.modCmd fun u => { u with owed := u.owed ++ j.outs.flatMap fun o => o.owed tag }).dropStreams_cmd tag
  intro x hx
  have hleft : x ∈ s.cmd.streams.filterMap fun x => if x.tag = tag then x.orphan else some x := by
    have hstreams := congrArg CmdUnit.streams hcmd
    exact (hstreams ▸ hx : _)
  obtain ⟨y, _, hy⟩ := List.mem_filterMap.mp hleft
  split at hy
  · obtain ⟨_, rfl⟩ : _ ∧ _ = x := by simpa [Stream.orphan] using hy
    exact Nat.ne_of_gt htag
  · rename_i hne
    obtain rfl := Option.some.inj hy
    exact hne

/-- The command of a running job has ended well. -/
theorem State.jobEnded_done {s : State} {tag : Nat} {j : Job} (hj : s.jobOf tag = some j) :
    ∃ x ∈ (s.jobEnded tag j).cmd.cmds, x.tag = tag ∧ x.stage = .done 0 0 := by
  obtain ⟨c, hc, hstage, _⟩ := State.jobOf_eq_some.mp hj
  obtain ⟨htag, hnoTag⟩ := State.cmdOf_tag hc
  obtain ⟨told, hcmd⟩ := (s.modCmd fun u => { u with owed := u.owed ++ j.outs.flatMap fun o => o.owed tag }).dropStreams_cmd tag
  have hmem : c ∈ ((s.modCmd fun u => { u with owed := u.owed ++ j.outs.flatMap fun o => o.owed tag }).dropStreams tag).cmd.cmds := by
    rw [hcmd]
    exact List.mem_of_find?_eq_some hc
  rw [State.jobEnded, State.endCmd_eq]
  refine ⟨{ c with stage := .done 0 0 }, List.mem_map.mpr ⟨c, hmem, ?_⟩, htag, rfl⟩
  rw [if_pos (by simp [htag, hnoTag, hstage, CmdStage.ended])]

theorem exec_jobComplete {s : State} {tag : BitVec 12} {j : Job} (ha : s.awake) (hj : s.fixFirst.jobOf tag.toNat = some j)
    (hover : s.fixFirst.jobOver j = true) (houts : s.fixFirst.outsDone j = true)
    (hspilled : ∀ x ∈ s.cmd.streams, x.tag = tag.toNat → x.kind = 1 → x.slots = []) (hbatches : ∀ b ∈ s.ctx.batches, b.tag ≠ tag.toNat) :
    exec (.jobComplete tag) s = .next (((s.fixFirst.jobEnded tag.toNat j).forgetJob tag.toNat).releaseRings) := by
  have hctx : s.fixFirst.ctx = s.ctx := keepInv_same (State.fixFirst_keeps (keepInv_has rfl) (keepInv_self s [.ctx])) (p := .ctx) (by simp)
  have hstreams : s.fixFirst.cmd.streams = s.cmd.streams := by
    unfold State.fixFirst
    split <;> rfl
  have hspilledAll : (s.fixFirst.cmd.streams.all fun x => x.tag != tag.toNat || x.kind != 1 || x.slots.isEmpty) = true := by
    rw [hstreams, List.all_eq_true]
    intro x hx
    by_cases htag : x.tag = tag.toNat
    · by_cases hkind : x.kind = 1 <;> simp [hkind, htag]
      exact hspilled x hx htag hkind
    · simp [htag]
  have hbatchesAll : (s.fixFirst.ctx.batches.all fun b => b.tag != tag.toNat) = true := by
    rw [hctx, List.all_eq_true]
    exact fun b hb => by simpa using hbatches b hb
  refine (State.act_awake ha _ : execJobComplete tag s = _).trans ?_
  simp only [hj, hover, houts, hspilledAll, hbatchesAll, Bool.and_self, if_pos]
  rfl

theorem State.jobOf_congr {s t : State} (h : t.cmd = s.cmd) (tag : Nat) : t.jobOf tag = s.jobOf tag := by
  unfold State.jobOf State.cmdOf
  rw [h]

theorem State.fixFirst_owed (s : State) : s.fixFirst.cmd.owed = s.cmd.owed := by
  unfold State.fixFirst
  split <;> rfl

/-- What a job's completion leaves. -/
theorem jobComplete_leaves {s : State} {tag : BitVec 12} {j : Job} (ha : s.awake) (hj : s.fixFirst.jobOf tag.toNat = some j)
    (hover : s.fixFirst.jobOver j = true) (houts : s.fixFirst.outsDone j = true)
    (hspilled : ∀ x ∈ s.cmd.streams, x.tag = tag.toNat → x.kind = 1 → x.slots = []) (hbatches : ∀ b ∈ s.ctx.batches, b.tag ≠ tag.toNat) :
    Answers (.jobComplete tag) s fun t => t.jobOf tag.toNat = none ∧ t.cmd.owed = (s.cmd.owed ++ j.outs.flatMap fun o => o.owed tag.toNat) ∧
      (∃ x ∈ t.cmd.cmds, x.tag = tag.toNat ∧ x.stage = .done 0 0) ∧ (∀ x ∈ t.cmd.streams, x.tag ≠ tag.toNat) ∧
      ∀ k, (t.core k).prog.map Prod.fst ≠ some tag.toNat := by
  refine ⟨_, exec_jobComplete ha hj hover houts hspilled hbatches, ?_⟩
  have hcmd : (((s.fixFirst.jobEnded tag.toNat j).forgetJob tag.toNat).releaseRings).cmd = (s.fixFirst.jobEnded tag.toNat j).cmd :=
    keepInv_same (State.releaseRings_keeps (keepInv_has rfl) (State.forgetJob_keeps (keepInv_has rfl) (keepInv_self _ [.cmd]))) (p := .cmd) (by simp)
  beta_reduce
  rw [State.jobOf_congr hcmd, hcmd]
  refine ⟨State.jobOf_endCmd _ _, ?_, State.jobEnded_done hj, State.jobEnded_streams _ tag.isLt j, fun k => ?_⟩
  · rw [State.jobEnded_owed, State.fixFirst_owed]
  · exact State.releaseRings_keeps (I := noProgInv tag.toNat k) (noProgInv_has rfl) (noProg_forgetJob _ _ k)

/-- Settles O45: each start and end of a command is one equation of its operation, after which the command's stage in flight is read off. -/
theorem commandsStartAndComplete : Obligations.CommandsStartAndComplete := by
  unfold Obligations.CommandsStartAndComplete
  refine ⟨groupCancel_lateGroupsAreCancelled, fun s q c ha hstart hdma => ?_, fun s q c ha hstart => ?_, fun s q c ha hstart => ?_, fun s q c ha hstart => ?_,
    fun s q c ha hopen hwaits hholds => ?_, fun s tag j ha hj hover houts hspilled hbatches => jobComplete_leaves ha hj hover houts hspilled hbatches⟩
  · have hread := inFlight_of_startable hstart
    have hexec := exec_jobStart ha hstart hdma
    have hpass := exec_jobStart_passes ha hstart hdma
    refine ⟨fun s1 j hpasses hbound hnodup hrings => ?_, fun hwell => ?_, fun hwell hlive => ?_, fun hwell hlive hdet hring => ?_,
      fun st hpasses hjob hbad => ?_, fun hpasses hjob hbad hargs => ?_, fun s1 j hpasses hbound hrings => ?_⟩
    · refine ⟨_, (hpass hpasses).1 s1 j hbound, ?_⟩
      rw [(s1.tryJob_eq c j).1 hnodup hrings]
      exact inFlight_startJob _ _ (inFlight_boundJob hbound hread)
    · exact ⟨_, hexec.trans (by rw [if_pos hwell]), inFlight_refuseJob 5 hread⟩
    · exact ⟨_, hexec.trans (by rw [if_neg (by simp [hwell]), if_pos (by simp [hlive])]), inFlight_refuseJob 8 hread⟩
    · exact ⟨_, hexec.trans (by rw [if_neg (by simp [hwell]), if_neg (by simp [hlive]), if_pos (by simp [hdet, hring])]), inFlight_refuseJob 11 hread⟩
    · exact ⟨_, (hpass hpasses).2.1 st hjob hbad, inFlight_refuseJob st hread⟩
    · exact ⟨_, (hpass hpasses).2.2 hjob hbad hargs,
        inFlight_refuseJob 7 (State.argsSeen_keeps (I := inFlightInv c .read) (inFlightInv_has rfl) hread)⟩
    · refine ⟨_, (hpass hpasses).1 s1 j hbound, ?_⟩
      rw [(s1.tryJob_eq c j).2 hrings]
      exact inFlight_refuseJob 11 (inFlight_boundJob hbound hread)
  · obtain ⟨hruns, hrefused⟩ := exec_copyCommand ha hstart
    have hread := inFlight_of_startable hstart
    refine ⟨fun d src dst hdram hdesc hkind => ⟨_, hruns d src dst hdram hdesc hkind, ?_⟩, fun hbad => ?_⟩
    · have hmem : c ∈ (s.descSeen (c.field 8 8)).cmd.cmds := by
        have hcmd : (s.descSeen (c.field 8 8)).cmd = s.cmd :=
          keepInv_same (State.descSeen_keeps (keepInv_has rfl) (keepInv_self s [.cmd])) (p := .cmd) (by simp)
        exact hcmd ▸ (State.startable_inFlight hstart).1
      exact ⟨_, List.mem_map.mpr ⟨c, hmem, if_pos (by simp)⟩, rfl, rfl, rfl, rfl⟩
    · rcases hrefused hbad with h | h
      · exact ⟨_, h, inFlight_refuseCmd 7 hread⟩
      · exact ⟨_, h, inFlight_refuseCmd 7 (State.descSeen_keeps (I := inFlightInv c .read) (inFlightInv_has rfl) hread)⟩
  · refine ⟨_, exec_signalCommand ha hstart, inFlight_endCmd rfl 0 0 (inFlight_signal _ _ _ (inFlight_of_startable hstart)), ?_⟩
    refine (congrArg CmdUnit.syncs (s.signal_cmd _ _ _)).trans ?_
    cases bitAt (c.field 46 2) 14 <;> rfl
  · have hexec := exec_waitCommand ha hstart
    have hread := inFlight_of_startable hstart
    refine ⟨fun hholds => ⟨_, hexec.trans (by rw [if_pos hholds]), inFlight_endCmd rfl 0 0 hread⟩,
      fun hholds => ⟨_, hexec.trans (by rw [if_neg (by simp [hholds])]), ?_⟩⟩
    exact inFlight_modCmdRec (fun _ _ => ⟨rfl, rfl, rfl, rfl⟩) hread
  · have hstage : c.stage = .waiting := by simpa using List.find?_some hwaits
    have hwaiting : inFlight s c .waiting := ⟨c, List.mem_of_mem_filter (List.mem_of_find?_eq_some hwaits), rfl, rfl, rfl, hstage⟩
    exact ⟨_, exec_syncWaitSatisfied_queue ha hopen hwaits hholds, inFlight_endCmd rfl 0 0 hwaiting⟩

end Sys2Proof.Machine
end

section
/-! PROOFS. A counterexample to the obligation on start-up: a value held for PREOP may name DRAM_STATE, and the end of DRAM training in AUTH, which takes the
device to PREOP, then stores it. -/

namespace Sys2Proof.Machine

/-! ### Entries of the dictionary that an operation leaves -/

theorem State.od_of_dict {s t : State} (h : t.dict = s.dict) (key : Nat) : t.od key = s.od key := by
  rw [State.od, State.od, h]

/-- The dictionary is as in `s`. -/
def dictInv (s : State) : Inv := Inv.about [.dict] (fun u => u.dict = s.dict) fun _ _ h hu => (h .dict (by simp)).trans hu

theorem dictInv_has {s : State} {m : List Part} (h : (m.all fun p => !([Part.dict].contains p)) = true) : (dictInv s).has m := Inv.about_has h

theorem State.ledgerPush_od (s : State) (n : LedgerNote) {key : Nat} (hkey : key ≠ Od.ledgerLost) : (s.ledgerPush n).od key = s.od key := by
  have hlevel : ∀ u : State, u.ledgerLevel.dict = u.dict := fun u =>
    State.ledgerLevel_keeps (I := dictInv u) (dictInv_has rfl) rfl
  unfold State.ledgerPush
  dsimp only
  refine (State.od_of_dict (hlevel _) key).trans ?_
  split
  · exact State.od_setOd_other _ hkey _
  · rfl

/-- A ledger entry changes no entry of the dictionary but LOST. -/
theorem State.ledgerAppend_od (s : State) (n : LedgerNote) {key : Nat} (hkey : key ≠ Od.ledgerLost) : (s.ledgerAppend n).od key = s.od key := by
  have hpushed := s.ledgerPush_od n hkey
  have hnamed : ∀ (g : Ledger) (m : LedgerNote) (bs : List Byte),
      ((State.ledgerPush { s.ledgerPush n with ledger := g } m).raiseInt .ledger 4 |>.event 9 0x14 bs).od key = s.od key := fun g m bs =>
    (State.od_of_dict ((State.event_dict _ _ _ _).trans (State.raiseInt_dict _ _ _)) key).trans ((State.ledgerPush_od _ m hkey).trans hpushed)
  unfold State.ledgerAppend
  split
  · rfl
  · refine (apply_ite (fun u : State => u.od key) _ _ _).trans ?_
    rw [hnamed, hpushed, ite_self]

theorem State.enter_od (s : State) (new : DevState) (reason : Nat) {key : Nat} (hdt : key ≠ Od.devStateDt) (hlsn : key ≠ Od.devStateLsn)
    (hlost : key ≠ Od.ledgerLost) : (s.enter new reason).od key = s.od key := by
  refine (State.ledgerAppend_od _ _ hlost).trans ?_
  refine (State.od_of_dict (t := State.event _ 6 0x15 _) (State.event_dict _ _ _ _) key).trans ?_
  refine (State.od_of_dict ((State.raiseInt_dict _ _ _).trans (State.raiseInt_dict _ _ _)) key).trans ?_
  exact (State.od_setOd_other _ hlsn _).trans (State.od_setOd_other _ hdt _)

theorem State.preopAfter_od (s : State) {key : Nat} (hkey : ∀ c : PortIx, key ≠ Od.portDiscCode c) : s.preopAfter.od key = s.od key := by
  have hdiscovery : ∀ (u : State) (c : PortIx), (u.discStart c).od key = u.od key := fun u c => by
    have hread : ∀ (v : State) (what : Nat) (step : DiscStep), (v.discRead c what step).od key = v.od key := fun _ _ _ => rfl
    have hstarted : ((u.modPort c fun p => { p with state := .discovery }).setOd (Od.portDiscCode c) 1).od key = u.od key := State.od_setOd_other _ (hkey c) _
    unfold State.discStart
    dsimp only
    split
    · split
      · exact hstarted
      · exact (hread _ _ _).trans hstarted
    · exact (hread _ _ _).trans hstarted
  have hports : (s.eachPort fun u c => if (u.port c).locks.getLsbD 0 && (u.port c).state != .discovery then u.discStart c else u).od key = s.od key := by
    refine List.foldlRecOn (motive := fun u : State => u.od key = s.od key) _ _ rfl fun u hu c _ => ?_
    split
    · exact (hdiscovery u c).trans hu
    · exact hu
  rw [← hports]
  unfold State.preopAfter
  set u := s.eachPort fun u c => if (u.port c).locks.getLsbD 0 && (u.port c).state != .discovery then u.discStart c else u
  refine State.od_of_dict (s := u) ?_ key
  have hlinks : (dictInv u).P ((u.linkStart 0).linkStart 1) := State.linkStart_keeps (dictInv_has rfl) (State.linkStart_keeps (dictInv_has rfl) rfl)
  have hdue : ∀ {v : State} {kind : Nat} {ks : List Nat}, (dictInv u).P v →
      (dictInv u).P (ks.foldl (fun (w : State) k => w.trimDue kind k 0 false) v) := fun hv =>
    Inv.foldl hv fun w k hw => State.trimDue_keeps (dictInv_has rfl) hw
  have hswept : ∀ {f : Trim → Trim}, (dictInv u).P (((u.linkStart 0).linkStart 1).modTrim f) := State.modTrim_keeps (dictInv_has rfl) hlinks
  exact Inv.ite (I := dictInv u) hlinks (hdue (hdue (hdue hswept)))

/-- Where no powered engine is switched off, powering the domains changes no entry of the dictionary. -/
theorem State.powerPreop_dict {s : State} (hengines : ∀ e : EngineIx, bitAt (s.od Od.optOptPower) e = true) : s.powerPreop.dict = s.dict := by
  have hdomains : (dictInv s).P s.powerCores.powerSlices := State.powerSlices_keeps (dictInv_has rfl) (State.powerCores_keeps (dictInv_has rfl) rfl)
  have hon : (dictInv s).P s.powerCores.powerSlices.powerEngines := by
    refine Inv.foldl hdomains fun u e hu => ?_
    have hwant : bitAt (u.od Od.optOptPower) e = true := (congrArg (fun v => bitAt v e) (State.od_of_dict hu _)).trans (hengines e)
    simp only [hwant, Bool.true_and, Bool.not_true, Bool.false_and]
    split <;> exact hu
  have hdet : ∀ {p : Pwr} {d : Det}, (dictInv s).P (State.detRegs { s.powerCores.powerSlices.powerEngines with pwr := p, det := d }) :=
    State.detRegs_keeps (dictInv_has rfl) hon
  exact Inv.ite (I := dictInv s) hon hdet

/-! ### Values held for PREOP -/

/-- A port at which nothing waits for PREOP. -/
def State.portQuiet (s : State) (c : PortIx) : Prop :=
  (s.port c).mirage = [] ∧ (s.fsPort c).bound = none ∧ (s.fsPort c).bank = [] ∧ (s.fsPort c).tablePending = false

theorem State.modPort_self {s : State} {c : PortIx} {f : Port → Port} (h : f (s.port c) = s.port c) : s.modPort c f = s := by
  have hports : s.ports.set c (f s.ports[c]) = s.ports := by
    rw [show f s.ports[c] = s.ports[c] from h]
    exact Vector.set_getElem_self _
  rw [State.modPort, hports]

theorem State.modFs_self {s : State} {c : PortIx} {f : FsPort → FsPort} (h : f (s.fsPort c) = s.fsPort c) : s.modFs c f = s := by
  have hports : s.fsPorts.set c (f s.fsPorts[c]) = s.fsPorts := by
    rw [show f s.fsPorts[c] = s.fsPorts[c] from h]
    exact Vector.set_getElem_self _
  rw [State.modFs, hports]

theorem State.pendingPreop_quiet {s : State} {c : PortIx} (h : s.portQuiet c) (x : Int) : s.pendingPreop c x = s := by
  obtain ⟨hmirage, hbound, hbank, htable⟩ := h
  have hport : s.applyMirage c (fun _ => true) x = s := by
    unfold State.applyMirage
    rw [hmirage]
    exact State.modPort_self (by rw [hmirage]; exact congrArg _ hmirage.symm)
  have hemptied : s.modFs c (fun p => { p with bank := [] }) = s := State.modFs_self (congrArg (fun b => { s.fsPort c with bank := b }) hbank.symm)
  rw [State.pendingPreop, hport, State.fsPreop, hbound]
  simp only [hbank, hemptied, State.applyValues, htable]
  rfl

theorem State.eachPort_pendingPreop_quiet {s : State} (h : ∀ c, s.portQuiet c) : (s.eachPort fun u c => u.pendingPreop c (u.nextLineX c)) = s :=
  List.foldl_fixed' (fun c => State.pendingPreop_quiet (h c) _) _

/-- Before the ledger's first entry, a value held for PREOP is stored whatever it names. -/
theorem State.heldPreop_dict {s : State} {v : MirageVal} (hvalue : s.doors.deferred = [v]) (hperiod : isPeriodKey v.key = false) (hledger : s.ledger.count = 0) :
    s.heldPreop.dict = (s.setOd v.key v.value).dict := by
  unfold State.heldPreop
  simp only [hvalue]
  refine (State.chainWatch_dict _ _).trans ?_
  simp only [List.foldl, hperiod, State.ledgerEffect, State.ledgerWrite]
  rw [State.ledgerAppend, if_pos (by simp [State.setOd, hledger])]
  rfl

/-- What the entry to PREOP leaves in the dictionary of a device in which a single value waits. -/
theorem State.preopUnits_dict {s : State} {v : MirageVal} (hstate : s.dev.state.live = false) (hquiet : ∀ c, s.portQuiet c) (hvalue : s.doors.deferred = [v])
    (hperiod : isPeriodKey v.key = false) (hledger : s.ledger.count = 0)
    (hengines : ∀ e : EngineIx, bitAt ((s.setOd v.key v.value).od Od.optOptPower) e = true) : s.preopUnits.dict = (s.setOd v.key v.value).dict := by
  have hheld := State.heldPreop_dict hvalue hperiod hledger
  have hports : (dictInv s.heldPreop).P (s.heldPreop.eachPort fun u c => u.modPort c fun p => { p with recorded := none }) :=
    State.eachPort_keeps (dictInv_has rfl) rfl fun u c hu => hu
  have hstored := Eq.trans hports hheld
  unfold State.preopUnits
  simp only [hstate, State.eachPort_pendingPreop_quiet hquiet]
  refine (State.powerPreop_dict fun e => ?_).trans hstored
  exact (congrArg (fun v => bitAt v e) (State.od_of_dict hstored _)).trans (hengines e)

/-! ### The counterexample -/

/-- A device whose boot has ended and whose DRAM still trains, with a value that waits for PREOP and names DRAM_STATE: 7. DRAM_STATE is read-only,
so that no door lets such a value wait; the obligation is about every state in its canonical form all the same. -/
def State.heldDramState : State := { State.reset with
  dev := { State.resetDev with state := .auth, authEnded := true }
  saf := { State.resetSaf with image := some ⟨0, 0, 0, 0, []⟩ }
  doors := { State.resetDoors with deferred := [⟨Od.dramDramState, 7, none, .host⟩] }
  dict := [(Od.dramDramState, 1)] }

/-- AUTH ends in PREOP where an image has verified and DRAM is done. -/
theorem State.leaveAuth_preop {s : State} (hstate : s.dev.state.ready = false) (hended : s.dev.authEnded = true) (himage : s.saf.image.isNone = false)
    (hdram : s.od Od.dramDramState = 2) : s.leaveAuth = (s.preopUnits.discardSchedule.enter .preop 0).firstEntry.preopAfter := by
  rw [State.leaveAuth, if_neg (by simp [hstate, hended]), if_neg (by simp [himage]), hdram]
  rfl

/-- The way from AUTH into PREOP, once the units have entered it, leaves DRAM_STATE. -/
theorem State.leaveAuth_dramState (s : State) :
    (s.preopUnits.discardSchedule.enter .preop 0).firstEntry.preopAfter.od Od.dramDramState = s.preopUnits.od Od.dramDramState := by
  have hfirst : ∀ u : State, u.firstEntry.dict = u.dict := fun u => State.firstEntry_keeps (I := dictInv u) (dictInv_has rfl) rfl
  have hschedule : ∀ u : State, u.discardSchedule.dict = u.dict := fun u => State.discardSchedule_keeps (I := dictInv u) (dictInv_has rfl) rfl
  calc (s.preopUnits.discardSchedule.enter .preop 0).firstEntry.preopAfter.od Od.dramDramState
      = (s.preopUnits.discardSchedule.enter .preop 0).firstEntry.od Od.dramDramState :=
        State.preopAfter_od _ fun c => by
          simp only [Od.dramDramState, Od.portDiscCode, odKey]
          omega
    _ = (s.preopUnits.discardSchedule.enter .preop 0).od Od.dramDramState := State.od_of_dict (hfirst _) _
    _ = s.preopUnits.discardSchedule.od Od.dramDramState := State.enter_od _ _ _ (by decide) (by decide) (by decide)
    _ = s.preopUnits.od Od.dramDramState := State.od_of_dict (hschedule _) _

theorem State.heldDramState_portQuiet (n : Nat) (c : PortIx) : (State.heldDramState.setOd Od.dramDramState n).portQuiet c := by
  have hport : (State.heldDramState.setOd Od.dramDramState n).port c = Port.init := Vector.getElem_replicate c.isLt
  have hfsPort : (State.heldDramState.setOd Od.dramDramState n).fsPort c = FsPort.init := Vector.getElem_replicate c.isLt
  rw [State.portQuiet, hport, hfsPort]
  exact ⟨rfl, rfl, rfl, rfl⟩

theorem State.heldDramState_wf : State.heldDramState.wf = true := by decide

/-- The end of training leaves DRAM_STATE at 7. -/
theorem State.heldDramState_trained : ((State.heldDramState.setOd Od.dramDramState 2).leaveAuth).od Od.dramDramState = 7 := by
  have hrise : keysRise (State.heldDramState.setOd Od.dramDramState 2).dict = true := by decide
  rw [State.leaveAuth_preop rfl rfl rfl (by decide), State.leaveAuth_dramState]
  have hengines : ∀ e : EngineIx, bitAt (((State.heldDramState.setOd Od.dramDramState 2).setOd Od.dramDramState 7).od Od.optOptPower) e = true := by decide
  rw [State.od_of_dict (State.preopUnits_dict rfl (State.heldDramState_portQuiet 2) rfl (by decide) rfl hengines)]
  exact State.od_setOd_self _ _ _ hrise

theorem exec_dramInitDone_auth {s : State} (ha : s.awake) (htraining : s.od Od.dramDramState = 1) (hauth : s.dev.state = .auth) (ok : Bool) :
    exec (.dramInitDone ok) s = .next (s.setOd Od.dramDramState (if ok then 2 else 3)).leaveAuth := by
  refine (State.act_awake ha _ : execDramInitDone ok s = _).trans ?_
  rw [if_neg (by simp [htraining])]
  exact congrArg _ (if_pos hauth)

/-- Refutes O51: at the end of DRAM training in AUTH the device enters PREOP, where the value that waits in `State.heldDramState` is stored over DRAM_STATE 2
(R465), so that the entry reads 7. DRAM_STATE is a read-only entry, so that no door lets such a value
wait; the clause lacks the premise that no waiting value names it. -/
theorem not_startUpAndTransitions : ¬ Obligations.StartUpAndTransitions := by
  unfold Obligations.StartUpAndTransitions
  rintro ⟨-, -, -, htrained, -⟩
  obtain ⟨t, ht, hdram, -⟩ := htrained State.heldDramState true State.heldDramState_wf rfl (by decide)
  have hnext := Host.Outcome.next.inj ((exec_dramInitDone_auth (s := State.heldDramState) rfl (by decide) rfl true).symm.trans ht)
  subst hnext
  exact absurd (State.heldDramState_trained.symm.trans hdram) (by decide)

end Sys2Proof.Machine
end

section
/-! PROOFS. What the way of a line to the front slice leaves of its port (R79, R87, R88, R91): `Port.intake` is the port without what that way changes. -/

namespace Sys2Proof.Machine

/-- A port without what the way of its lines to the front slice changes. -/
def Port.intake (p : Port) : Port :=
  { p with held := none, later := [], run := none, prev := none, queue := [], fifo := 0, fifoHigh := false, mirage := [] }

/-- A port without that and without its pending lines: its link, its state, and what is open on it. -/
def Port.standing (p : Port) : Port := { p.intake with pend := [] }

section
variable (p : Port)

@[simp] theorem Port.intake_state : p.intake.state = p.state := rfl
@[simp] theorem Port.intake_locks : p.intake.locks = p.locks := rfl
@[simp] theorem Port.intake_pend : p.intake.pend = p.pend := rfl
@[simp] theorem Port.intake_owed : p.intake.owed = p.owed := rfl
@[simp] theorem Port.intake_row : p.intake.row = p.row := rfl
@[simp] theorem Port.intake_open : p.intake.open_ = p.open_ := rfl
@[simp] theorem Port.standing_state : p.standing.state = p.state := rfl
@[simp] theorem Port.standing_locks : p.standing.locks = p.locks := rfl
@[simp] theorem Port.standing_row : p.standing.row = p.row := rfl
@[simp] theorem Port.standing_open : p.standing.open_ = p.open_ := rfl

end

theorem Port.standing_of_intake {p q : Port} (h : p.intake = q.intake) : p.standing = q.standing :=
  congrArg (fun r : Port => { r with pend := [] }) h

/-- Whatever leaves the part `ports` leaves every port. -/
theorem State.port_of_kept {s t : State} (h : (keepInv s [.ports]).P t) (d : PortIx) : t.port d = s.port d :=
  congrArg (fun v : Vector Port 16 => v[d]) (keepInv_same h (p := .ports) (by simp))

section
variable (u : State) (c : PortIx)

/-! ### What leaves every port -/

@[simp] theorem State.camCount_port (off n : Nat) (d : PortIx) : (u.camCount off n).port d = u.port d := rfl

@[simp] theorem State.noteWait_port (k : SliceIx) (d : PortIx) : (u.noteWait k).port d = u.port d :=
  State.port_of_kept (State.noteWait_keeps (keepInv_has rfl) (keepInv_self _ _)) d

@[simp] theorem State.applyValues_port (lsn : Nat) (vs : List MirageVal) (d : PortIx) : (u.applyValues lsn vs).port d = u.port d :=
  State.port_of_kept (State.applyValues_keeps (keepInv_has rfl) (keepInv_self _ _)) d

@[simp] theorem State.fsBind_port (pick : MirageVal → Bool) (table : Bool) (first : Option Int) (d : PortIx) :
    (u.fsBind c pick table first).port d = u.port d :=
  State.port_of_kept (State.fsBind_keeps (keepInv_has rfl) (keepInv_self _ _)) d

@[simp] theorem State.lineReached_port (x : Int) (d : PortIx) : (u.lineReached c x).port d = u.port d :=
  State.port_of_kept (State.lineReached_keeps (keepInv_has rfl) (keepInv_self _ _)) d

@[simp] theorem State.countWidth_port (flags : Nat) (d : PortIx) : (u.countWidth c flags).port d = u.port d :=
  State.port_of_kept (State.countWidth_keeps (keepInv_has rfl) (keepInv_self _ _)) d

@[simp] theorem State.mpFree_port (n : Nat) (d : PortIx) : (u.mpFree c n).port d = u.port d :=
  State.port_of_kept (State.mpFree_keeps (keepInv_has rfl) (keepInv_self _ _)) d

/-- A count that is made where a condition holds. -/
@[simp] theorem State.camCountIf_port (b : Prop) [Decidable b] (off n : Nat) (d : PortIx) : (if b then u.camCount off n else u).port d = u.port d := by
  split <;> rfl

@[simp] theorem State.eventAtIf_port (b : Prop) [Decidable b] (lsn source type : Nat) (body : List Byte) (d : PortIx) :
    (if b then u.eventAt lsn source type body else u).port d = u.port d := by
  split <;> rfl

@[simp] theorem State.countOdIf_port (b : Prop) [Decidable b] (key n : Nat) (d : PortIx) : (if b then u.countOd key n else u).port d = u.port d := by
  split <;> rfl

/-! ### Drop runs and delivery -/

theorem State.closeRun_port : ∃ r, (u.closeRun c).port c = { u.port c with run := r } := by
  unfold State.closeRun
  split
  · exact ⟨(u.port c).run, rfl⟩
  · exact ⟨none, by simp⟩

theorem State.extendRun_port (l : CamLine) : ∃ r, (u.extendRun c l).port c = { u.port c with run := r } := by
  have hclosed (v : State) (h : ∃ r, v.port c = { u.port c with run := r }) :
      ∃ r, (match (v.port c).run with
        | some r => if 65535 ≤ r.count then v.closeRun c else v
        | none => v).port c = { u.port c with run := r } := by
    obtain ⟨r, hr⟩ := h
    obtain ⟨r', hr'⟩ := v.closeRun_port c
    split
    · split
      · exact ⟨r', by rw [hr', hr]⟩
      · exact ⟨r, hr⟩
    · exact ⟨r, hr⟩
  refine hclosed _ ?_
  split
  · split
    · exact ⟨_, State.modPort_port_self ..⟩
    · obtain ⟨r, hr⟩ := u.closeRun_port c
      exact ⟨_, by rw [State.modPort_port_self, hr]⟩
  · exact ⟨_, State.modPort_port_self ..⟩

/-- A line passed to the front slice joins the queue; beside that, only the drop run of its port changes. -/
theorem State.emitLine_port (l : CamLine) : ∃ r, (u.emitLine c l).port c = { u.port c with run := r, queue := (u.port c).queue ++ [l] } := by
  have hcounted : ∃ r, (if l.reason = 0 then (u.closeRun c).camCount (Reg.camLinesRx c) 1
      else
        let s := (u.extendRun c l).camCount (Reg.camLinesDropped c) 1
        let s := (s.countOd (Od.portPortDropped c) 1).countOd Od.cntDroppedLines 1
        if l.reason = 9 then s.countOd (Od.fpShedLines c) 1 else s).port c = { u.port c with run := r } := by
    split
    · exact u.closeRun_port c
    · obtain ⟨r, hr⟩ := u.extendRun_port c l
      refine ⟨r, Eq.trans ?_ hr⟩
      dsimp only
      split <;> simp only [State.countOd_port, State.camCount_port]
  obtain ⟨r, hr⟩ := hcounted
  refine ⟨r, (State.noteWait_port _ _ c).trans ((State.modPort_port_self _ c _).trans ?_)⟩
  exact congrArg (fun p : Port => { p with queue := p.queue ++ [l] }) hr

/-- A line released to the front slice joins the queue; nothing is held any more. -/
theorem State.flushHeld_port {l : CamLine} (h : (u.port c).held = some l) :
    ∃ r, (u.flushHeld c false).port c = { u.port c with held := none, run := r, queue := (u.port c).queue ++ [l] } := by
  simp only [State.flushHeld, h]
  obtain ⟨r, hr⟩ := (u.modPort c fun p => { p with held := none }).emitLine_port c l
  exact ⟨r, by simpa using hr⟩

theorem State.emitLine_intake (l : CamLine) : ((u.emitLine c l).port c).intake = (u.port c).intake := by
  obtain ⟨r, hr⟩ := u.emitLine_port c l
  rw [hr]
  rfl

/-- A change of the port that its intake does not show. -/
theorem State.modPort_intake {u : State} {c : PortIx} {f : Port → Port} {p : Port} (hf : ∀ q, (f q).intake = q.intake)
    (h : (u.port c).intake = p.intake) : ((u.modPort c f).port c).intake = p.intake := by
  rw [State.modPort_port_self, hf, h]

theorem State.flushHeld_intake (frameEnd : Bool) : ((u.flushHeld c frameEnd).port c).intake = (u.port c).intake := by
  unfold State.flushHeld
  split
  · rfl
  · rw [State.emitLine_intake]
    exact State.modPort_intake (fun _ => rfl) rfl

theorem State.passPlaceholders_intake (q : List CamLine) : ((u.passPlaceholders c q).port c).intake = (u.port c).intake := by
  induction q generalizing u with
  | nil => rfl
  | cons l r ih =>
    rw [State.passPlaceholders]
    split
    · rfl
    · rw [ih]
      refine State.modPort_intake (fun _ => rfl) ?_
      rw [State.emitLine_intake, State.lineReached_port, State.flushHeld_intake]

theorem State.placeholder_intake (x : Int) (dt reason flags : Nat) : ((u.placeholder c x dt reason flags).port c).intake = (u.port c).intake := by
  unfold State.placeholder
  split
  · split
    · rfl
    · rw [State.lineReached_port]
  · rw [State.passPlaceholders_intake]
    exact State.modPort_intake (fun _ => rfl) rfl

theorem State.fifoFree_intake (n : Nat) : ((u.fifoFree c n).port c).intake = (u.port c).intake := by
  unfold State.fifoFree
  dsimp only
  split
  · rw [State.camStatus_port]
    exact State.modPort_intake (fun _ => rfl) rfl
  · exact State.modPort_intake (fun _ => rfl) rfl

theorem State.unreserve_intake (e : PendEntry) : ((u.unreserve c e).port c).intake = (u.port c).intake := by
  rw [State.unreserve, State.mpFree_port, State.fifoFree_intake]

/-- Space is freed where a condition holds. -/
theorem State.unreserveIf_intake (b : Prop) [Decidable b] (e : PendEntry) : ((if b then u.unreserve c e else u).port c).intake = (u.port c).intake := by
  split
  · exact u.unreserve_intake c e
  · rfl

theorem State.holdLine_intake (l : CamLine) (closes : Bool) : ((u.holdLine c l closes).port c).intake = (u.port c).intake := by
  unfold State.holdLine
  dsimp only
  split
  · rw [State.emitLine_intake, State.flushHeld_intake]
  · exact State.modPort_intake (fun _ => rfl) (State.flushHeld_intake _ _ _)

/-! ### Rows and frames -/

/-- A line whose rows are all terminated leaves the pending list; what stands of the port is as before. -/
theorem State.lineDone_standing (e : PendEntry) : ((u.lineDone c e).port c).standing = (u.port c).standing := by
  have hleft : ∀ v : State, (v.port c).intake = (((u.modPort c fun p => { p with pend := p.pend.filter fun f => f.x != e.x }).countWidth c e.flags).port c).intake →
      (v.port c).standing = (u.port c).standing := by
    intro v hv
    rw [Port.standing_of_intake hv, State.countWidth_port, State.modPort_port_self]
    rfl
  refine hleft _ ?_
  unfold State.lineDone
  dsimp only
  split
  · rw [State.passPlaceholders_intake]
  · rw [State.passPlaceholders_intake]
    split
    · rw [State.holdLine_intake]
      exact State.modPort_intake (fun _ => rfl) (State.unreserveIf_intake _ _ _ _)
    · split <;> rw [State.holdLine_intake, State.unreserveIf_intake]

/-- What stands of a port whose open row, if any, is terminated (R79). -/
def Port.endRow (p : Port) : Port := { p with row := none, state := if p.row.isSome then .frame else p.state }

theorem Port.endRow_of_none {p : Port} (h : p.row = none) : p.endRow = p := by
  obtain ⟨⟩ := p
  cases h
  rfl

theorem State.rowEnd_standing : ((u.rowEnd c).port c).standing = (u.port c).standing.endRow := by
  unfold State.rowEnd
  split
  · rename_i hrow
    exact (Port.endRow_of_none (p := (u.port c).standing) hrow).symm
  · rename_i r hrow
    have hended : ((u.modPort c fun p => { p with row := none, state := .frame }).port c).standing = (u.port c).standing.endRow := by
      rw [State.modPort_port_self, Port.endRow]
      simp [Port.standing, Port.intake, hrow]
    dsimp only
    split
    · exact hended
    · have hentry : ∀ (x : Int) (f : PendEntry → PendEntry), (((u.modPort c fun p => { p with row := none, state := .frame }).modEntry c x f).port c).standing =
          (u.port c).standing.endRow := fun x f => Eq.trans (by rw [State.modEntry, State.modPort_port_self]; rfl) hended
      split
      · split
        · rw [State.lineDone_standing, hentry]
        · exact hentry _ _
      · exact hentry _ _

/-- A port whose open frame, if any, is closed (R79, R83). -/
def Port.endFrame (p : Port) : Port := { p with open_ := none, state := if p.open_.isSome ∧ p.state = .frame then .idle else p.state }

theorem Port.endFrame_of_none {p : Port} (h : p.open_ = none) : p.endFrame = p := by
  obtain ⟨⟩ := p
  cases h
  rfl

theorem State.closeFrame_intake (extra : Nat) : ((u.closeFrame c extra).port c).intake = (u.port c).intake.endFrame := by
  have hflushed := u.flushHeld_intake c true
  unfold State.closeFrame
  dsimp only
  split
  · rename_i hopen
    rw [hflushed]
    exact (Port.endFrame_of_none (p := (u.port c).intake) ((congrArg Port.open_ hflushed).symm.trans hopen)).symm
  · rename_i f hopen
    rw [State.modPort_port_self, ← hflushed]
    have hcounted : ∀ v : State, v.port c = (u.flushHeld c true).port c →
        ({ v.port c with open_ := none, state := if (v.port c).state = .frame then .idle else (v.port c).state } : Port).intake =
          ((u.flushHeld c true).port c).intake.endFrame := by
      intro v hv
      rw [hv]
      simp [Port.endFrame, Port.intake, hopen]
    refine hcounted _ ?_
    rw [State.eventAtIf_port, State.camCountIf_port, State.camCountIf_port, State.camCountIf_port]

/-- An opened frame has no lines yet; a frame that starts anew settles the rows that were owed (R77, R83). -/
theorem State.openFrame_intake (flags : Nat) (start : Bool) : ∃ shed, ((u.openFrame c flags start).port c).intake =
    { (u.port c).intake with
      owed := if start then 0 else (u.port c).owed
      state := .frame
      open_ := some { flags := flags, firstLsn := none, rows := 0, lines := 0, checkErrors := 0, malformed := 0, shed := shed } } := by
  have hstart : ((if start then (u.camCount (Reg.camLostTrig c) (u.port c).owed).modPort c fun p => { p with owed := 0 } else u).port c).intake =
      { (u.port c).intake with owed := if start then 0 else (u.port c).owed } := by
    cases start
    · rfl
    · refine (congrArg Port.intake (State.modPort_port_self (u.camCount (Reg.camLostTrig c) (u.port c).owed) c fun p => { p with owed := 0 })).trans ?_
      rfl
  have happlied : ∀ (v : State) (pick : MirageVal → Bool) (x : Int), ((v.applyMirage c pick x).port c).intake = (v.port c).intake := fun v pick x => by
    rw [State.applyMirage, State.applyValues_port]
    exact State.modPort_intake (fun _ => rfl) rfl
  unfold State.openFrame
  dsimp only
  rw [State.modPort_port_self]
  have hopened : ∀ (v : State) (f : Frame), (v.port c).intake = { (u.port c).intake with owed := if start then 0 else (u.port c).owed } →
      Port.intake { v.port c with state := .frame, open_ := some f } =
        { (u.port c).intake with owed := if start then 0 else (u.port c).owed, state := .frame, open_ := some f } := fun v f hv =>
    congrArg (fun p : Port => { p with state := .frame, open_ := some f }) hv
  refine ⟨_, hopened _ _ ?_⟩
  rw [State.countOdIf_port, State.fsBind_port, happlied, hstart]

theorem State.modFrame_port (f : Frame → Frame) : (u.modFrame c f).port c = { u.port c with open_ := (u.port c).open_.map f } :=
  State.modPort_port_self _ _ _

/-- A malformed packet is counted in the open frame; the port is as before else (R85). -/
theorem State.malformed_port :
    (u.malformed c).port c = { u.port c with open_ := (u.port c).open_.map fun f => { f with malformed := satAdd 16 f.malformed 1 } } := by
  rw [State.malformed, State.modFrame_port, State.camInt_port, State.camCount_port]

/-- An opened row has no pixels yet (R79). -/
theorem State.rowOpen_port (check : Bool) :
    ∃ entry, ((u.rowOpen c check).port c).state = .line ∧ ((u.rowOpen c check).port c).row = some ⟨entry, [], check, false⟩ := by
  unfold State.rowOpen
  dsimp only
  rw [State.modPort_port_self]
  exact ⟨_, rfl, rfl⟩

end

section
variable {u : State} {c : PortIx}

/-- No row is open after the end of a row. -/
theorem State.rowEnd_row (u : State) (c : PortIx) : ((u.rowEnd c).port c).row = none := by
  simpa [Port.endRow] using congrArg Port.row (u.rowEnd_standing c)

/-- A port whose row has ended is in FRAME. -/
theorem State.rowEnd_ends {r : OpenRow} (h : (u.port c).row = some r) : ((u.rowEnd c).port c).state = .frame ∧ ((u.rowEnd c).port c).row = none := by
  exact ⟨by simpa [Port.endRow, h] using congrArg Port.state (u.rowEnd_standing c), u.rowEnd_row c⟩

end

end Sys2Proof.Machine
end

section
/-! PROOFS. Stream packets move a camera port between its states (R69, R78, R79, R85). -/

namespace Sys2Proof.Machine

section
variable {s : State} {c : PortIx} {stream : Byte}

/-! ### Whose packet it is (R69) -/

/-- A packet of the port's own stream names it and is taken. -/
theorem State.onStream_own (h : ownStream s c stream) (f : State → State) :
    s.onStream c stream f = f (s.modPort c fun p => { p with stream := some stream }) := by
  obtain ⟨hstreaming, hstream⟩ := h
  obtain ⟨hlinked, hlive⟩ := Bool.and_eq_true_iff.mp hstreaming
  have hid : (s.port c).stream.getD stream = stream := by
    rcases hstream with h | h <;> simp [h]
  simp [State.onStream, hlinked, hid, hlive]

/-- A packet of another stream is malformed. -/
theorem State.onStream_foreign {own : Byte} (hlinked : (s.port c).linked = true) (hown : (s.port c).stream = some own) (hne : own ≠ stream)
    (f : State → State) : s.onStream c stream f = s.malformed c := by
  simp [State.onStream, hlinked, hown, hne.symm]

/-- Where no stream is taken, the first packet names the port's and does nothing else. -/
theorem State.onStream_named (hlinked : (s.port c).linked = true) (hlive : s.dev.state.live = false) (hnone : (s.port c).stream = none)
    (f : State → State) : s.onStream c stream f = s.modPort c fun p => { p with stream := some stream } := by
  simp [State.onStream, hlinked, hlive, hnone]

/-- A state that has only named a port's stream. -/
theorem ownStream_names (h : ownStream s c stream) : ((s.port c).linked && (s.port c).stream.getD stream != stream) = false := by
  obtain ⟨_, h | h⟩ := h <;> simp [h]

end

section
variable (s : State) (c : PortIx)

/-! ### Headers -/

/-- A header ends what is open and opens a frame (R79). -/
def State.header (s : State) (c : PortIx) (flags : Nat) : State :=
  (if ((s.rowEnd c).port c).open_.isSome then (s.rowEnd c).closeFrame c 8 else s.rowEnd c).openFrame c flags true

theorem State.header_port (flags : Nat) : ∃ shed, ((s.header c flags).port c).state = .frame ∧ ((s.header c flags).port c).row = none ∧
    ((s.header c flags).port c).open_ = some ⟨flags, none, 0, 0, 0, 0, shed⟩ := by
  have hrow : ((if ((s.rowEnd c).port c).open_.isSome then (s.rowEnd c).closeFrame c 8 else s.rowEnd c).port c).row = none := by
    split
    · simpa [Port.endFrame, s.rowEnd_row c] using congrArg Port.row ((s.rowEnd c).closeFrame_intake c 8)
    · exact s.rowEnd_row c
  unfold State.header
  obtain ⟨shed, hopened⟩ := State.openFrame_intake (if ((s.rowEnd c).port c).open_.isSome then (s.rowEnd c).closeFrame c 8 else s.rowEnd c) c flags true
  refine ⟨shed, ?_, ?_, ?_⟩
  · simpa using congrArg Port.state hopened
  · simpa [hrow] using congrArg Port.row hopened
  · simpa using congrArg Port.open_ hopened

theorem exec_imageHeader {s : State} {c : PortIx} {stream : Byte} (ha : s.awake) (h : ownStream s c stream) (bitsOf arrangement : Byte) :
    exec (.imageHeader c stream bitsOf arrangement none) s =
      .next (let u := s.modPort c fun p => { p with stream := some stream }
        if s.headerFits c bitsOf arrangement then u.header c 0 else (u.header c 32).malformed c) := by
  refine (State.act_awake ha _ : execImageHeader c stream bitsOf arrangement none s = _).trans (congrArg _ ?_)
  simp only [State.onStream_own h, ownStream_names h, Bool.false_or]
  cases s.headerFits c bitsOf arrangement <;> simp only [State.header, Bool.false_eq_true, if_true, if_false]

theorem State.headerFits_iff (bitsOf arrangement : Byte) : s.headerFits c bitsOf arrangement = true ↔
    bitsOf.toNat = s.od (Od.portPixelBits c) ∧ arrangement.toNat = s.od (Od.portArrangement c) := by
  simp [State.headerFits]

/-- The end of a frame closes what is open (R79). -/
theorem State.frameEnd_port {u : State} (hopen : (u.port c).open_.isSome = true)
    (hstate : (u.port c).state = .frame ∨ (u.port c).state = .line ∧ (u.port c).row.isSome = true) :
    (((u.rowEnd c).closeFrame c 0).port c).state = .idle ∧ (((u.rowEnd c).closeFrame c 0).port c).row = none ∧
      (((u.rowEnd c).closeFrame c 0).port c).open_ = none := by
  have hended := u.rowEnd_standing c
  have hframe : ((u.rowEnd c).port c).state = .frame := by
    have := congrArg Port.state hended
    rcases hstate with h | ⟨_, h⟩ <;> simpa [Port.endRow, h] using this
  have hopened : ((u.rowEnd c).port c).open_.isSome = true := by
    simpa [Port.endRow, hopen] using congrArg (fun p : Port => p.open_.isSome) hended
  have hclosed := (u.rowEnd c).closeFrame_intake c 0
  exact ⟨by simpa [Port.endFrame, hopened, hframe] using congrArg Port.state hclosed,
    by simpa [Port.endFrame, u.rowEnd_row c] using congrArg Port.row hclosed, by simpa [Port.endFrame] using congrArg Port.open_ hclosed⟩

/-! ### Malformed packets -/

theorem camMalformed_apart (c : PortIx) : Reg.camMalformed c ≠ (Block.cam c).status ∧ Reg.camMalformed c ≠ Reg.glbMsixSent := by
  simp only [Reg.camMalformed, Block.status, Reg.camIntStatus, Reg.glbMsixSent]
  omega

theorem State.malformed_reg (hs : s.wf = true) :
    (s.malformed c).reg (Reg.camMalformed c) = satAdd 32 (s.reg (Reg.camMalformed c)) 1 := by
  obtain ⟨hstatus, hsent⟩ := camMalformed_apart c
  exact (State.raiseInt_reg _ hstatus hsent).trans (State.count32_reg _ (State.wf_regs hs))

end

/-- Settles O16: a packet of the port's own stream acts on the port by `State.onStream_own`, and each operation on a row or a frame says what it leaves standing. -/
theorem streamPacketsMoveThePort : Obligations.StreamPacketsMoveThePort := by
  unfold Obligations.StreamPacketsMoveThePort
  refine ⟨fun s c stream bitsOf arrangement ha hown => ⟨_, exec_imageHeader ha hown bitsOf arrangement, ?header⟩,
    fun s c stream ha hown => ⟨_, (State.act_awake ha _ : execLineMarker c stream s = _), ?marker⟩,
    fun s c stream ha hown hopen hstate => ⟨_, (State.act_awake ha _ : execFrameEnd c stream s = _), ?frameEnd⟩,
    fun s c hs ha => ⟨_, (State.act_awake ha _ : execMalformedPacket c s = _), s.malformed_reg c hs, s.malformed_port c⟩,
    fun s c own stream hs ha hlinked hstream hne => ⟨_, (State.act_awake ha _ : execLineMarker c stream s = _), ?foreign⟩,
    fun s c stream ha hlinked hlive hnone =>
      ⟨_, (State.act_awake ha _ : execLineMarker c stream s = _), State.onStream_named hlinked hlive hnone _⟩⟩
  case header =>
    extract_lets ok u
    by_cases hok : ok
    · obtain ⟨shed, hstate, hrow, hopen⟩ := u.header_port c 0
      rw [if_pos ((s.headerFits_iff c _ _).mpr hok)]
      exact ⟨hstate, hrow, _, hopen, rfl, rfl, fun _ => ⟨rfl, rfl⟩, fun h => absurd hok h⟩
    · obtain ⟨shed, hstate, hrow, hopen⟩ := u.header_port c 32
      rw [if_neg (mt (s.headerFits_iff c _ _).mp hok), State.malformed_port, hopen]
      dsimp only [Option.map]
      exact ⟨hstate, hrow, _, rfl, rfl, rfl, fun h => absurd h hok, fun _ => ⟨rfl, rfl⟩⟩
  case marker =>
    rw [State.onStream_own hown]
    obtain ⟨entry, hstate, hrow⟩ := State.rowOpen_port _ c false
    exact ⟨hstate, _, hrow, rfl, rfl, rfl⟩
  case frameEnd =>
    rw [State.onStream_own hown]
    refine State.frameEnd_port c ?_ ?_ <;> rw [State.modPort_port_self] <;> assumption
  case foreign =>
    rw [State.onStream_foreign hlinked hstream hne]
    have hport := s.malformed_port c
    exact ⟨s.malformed_reg c hs, by rw [hport], by rw [hport]⟩

end Sys2Proof.Machine
end

section
/-! PROOFS. Pixel data, packets with errors and the timeouts of rows and lines (R76, R79, R82, R84, R86, R88). -/

namespace Sys2Proof.Machine

section
variable {s u : State} {c : PortIx}

/-! ### Timeouts -/

/-- A line declared absent leaves the pending list, and its missing rows are owed (R76, R86). -/
theorem State.declareAbsent_port {e : PendEntry} (h : ((s.port c).pend.find? fun e => decide (e.marks < s.rowsPerCycle c)) = some e) :
    ((s.declareAbsent c).port c).pend = (s.port c).pend.filter (fun f => f.x != e.x) ∧
      ((s.declareAbsent c).port c).owed = (s.port c).owed + (s.rowsPerCycle c - e.marks) := by
  have hintake : ∃ row, ((s.absent c e).port c).intake = { (s.port c).intake with
      pend := (s.port c).pend.filter fun f => f.x != e.x, owed := (s.port c).owed + (s.rowsPerCycle c - e.marks), row := row } := by
    have hfreed : ∀ (f : Port → Port) (v : State), v = (((s.modPort c f).camCount (Reg.camAbsent c) 1).camInt c 0x400).unreserve c e →
        (v.port c).intake = (f (s.port c)).intake := fun f v hv => by
      rw [hv, State.unreserve_intake, State.camInt_port, State.camCount_port, State.modPort_port_self]
    unfold State.absent
    dsimp only
    split
    · rw [State.passPlaceholders_intake]
      exact ⟨_, hfreed _ _ rfl⟩
    · rw [State.placeholder_intake]
      exact ⟨_, hfreed _ _ rfl⟩
  obtain ⟨row, hrow⟩ := hintake
  simp only [State.declareAbsent, h]
  exact ⟨by simpa using congrArg Port.pend hrow, by simpa using congrArg Port.owed hrow⟩

/-! ### Pixels of the open row -/

/-- Pixel data that fills the row ends it (R79, R82). -/
theorem State.rowPixels_last {r : OpenRow} {vals : List W16} {bad : Bool} (hrow : (u.port c).row = some r)
    (h : u.od (Od.portLineWidth c) - r.pixels.length ≤ vals.length) :
    ((u.rowPixels c vals bad).port c).state = .frame ∧ ((u.rowPixels c vals bad).port c).row = none := by
  simp only [State.rowPixels, hrow, if_pos h]
  exact State.rowEnd_ends (congrArg Port.row (State.modPort_port_self u c _))

/-- Pixel data that leaves room in the row joins it (R79, R84). -/
theorem State.rowPixels_more {r : OpenRow} {vals : List W16} {bad : Bool} (hrow : (u.port c).row = some r)
    (h : vals.length < u.od (Od.portLineWidth c) - r.pixels.length) :
    (u.rowPixels c vals bad).port c = { u.port c with row := some { r with pixels := r.pixels ++ vals, check := r.check || bad } } := by
  simp only [State.rowPixels, hrow, if_neg (Nat.not_le.mpr h), State.modPort_port_self, List.take_of_length_le h.le,
    decide_eq_false (Nat.not_lt.mpr h.le), Bool.or_false]

@[simp] theorem packPixels_length (b : Nat) (ps : List W16) : (packPixels b ps).length = ps.length := List.length_map _

/-! ### Packets that fail their check value -/

/-- A packet that fails its check value is counted: by lane and port, and in the open frame (R84). -/
def State.badCounted (s : State) (c : PortIx) (lane : Fin 4) : State :=
  (((s.camCount (Reg.camCheckErrLane c lane) 1).camCount (Reg.camCheckErrPort c) 1).camInt c 0x20).modFrame c fun f =>
    { f with checkErrors := satAdd 16 f.checkErrors 1 }

theorem State.badPacket_eq (s : State) (c : PortIx) (lane : Fin 4) (pixels : List W16) : s.badPacket c lane pixels =
    if !(s.badCounted c lane).streaming c then s.badCounted c lane
    else match ((s.badCounted c lane).port c).state with
      | .frame => (s.badCounted c lane).rowOpen c true
      | .line => (s.badCounted c lane).rowPixels c pixels true
      | _ => s.badCounted c lane := rfl

variable (lane : Fin 4)

theorem State.badCounted_port (s : State) (c : PortIx) : (s.badCounted c lane).port c =
    { s.port c with open_ := (s.port c).open_.map fun f => { f with checkErrors := satAdd 16 f.checkErrors 1 } } := by
  rw [State.badCounted, State.modFrame_port, State.camInt_port, State.camCount_port, State.camCount_port]

@[simp] theorem State.badCounted_od (s : State) (c : PortIx) (k : Nat) : (s.badCounted c lane).od k = s.od k := by
  simp [State.badCounted, State.modFrame, State.camCount]

@[simp] theorem State.badCounted_streaming (s : State) (c : PortIx) : (s.badCounted c lane).streaming c = s.streaming c := by
  have hdev : (s.badCounted c lane).dev = s.dev := by simp [State.badCounted, State.modFrame, State.camCount]
  rw [State.streaming, State.badCounted_port, hdev]
  rfl

/-- No counter of a port is its status register or the count of messages, and the count of a lane is not that of the port. -/
theorem camCheckErr_apart (c : PortIx) (lane : Fin 4) :
    Reg.camCheckErrLane c lane ≠ Reg.camCheckErrPort c ∧ Reg.camCheckErrLane c lane ≠ (Block.cam c).status ∧
      Reg.camCheckErrPort c ≠ (Block.cam c).status ∧ Reg.camCheckErrLane c lane ≠ Reg.glbMsixSent ∧ Reg.camCheckErrPort c ≠ Reg.glbMsixSent := by
  simp only [Reg.camCheckErrLane, Reg.camCheckErrPort, Block.status, Reg.camIntStatus, Reg.glbMsixSent]
  omega

theorem State.badCounted_reg (hs : s.wf = true) : (s.badCounted c lane).reg (Reg.camCheckErrLane c lane) = satAdd 32 (s.reg (Reg.camCheckErrLane c lane)) 1 ∧
    (s.badCounted c lane).reg (Reg.camCheckErrPort c) = satAdd 32 (s.reg (Reg.camCheckErrPort c)) 1 := by
  obtain ⟨hne, hlane, hport, hlaneSent, hportSent⟩ := camCheckErr_apart c lane
  have hregs := State.wf_regs hs
  constructor
  · calc (s.badCounted c lane).reg (Reg.camCheckErrLane c lane)
        = ((s.camCount (Reg.camCheckErrLane c lane) 1).camCount (Reg.camCheckErrPort c) 1).reg (Reg.camCheckErrLane c lane) :=
          State.raiseInt_reg _ hlane hlaneSent
      _ = (s.camCount (Reg.camCheckErrLane c lane) 1).reg (Reg.camCheckErrLane c lane) := State.reg_setReg_other _ hne _
      _ = satAdd 32 (s.reg (Reg.camCheckErrLane c lane)) 1 := State.count32_reg s hregs
  · calc (s.badCounted c lane).reg (Reg.camCheckErrPort c)
        = ((s.camCount (Reg.camCheckErrLane c lane) 1).camCount (Reg.camCheckErrPort c) 1).reg (Reg.camCheckErrPort c) :=
          State.raiseInt_reg _ hport hportSent
      _ = satAdd 32 ((s.camCount (Reg.camCheckErrLane c lane) 1).reg (Reg.camCheckErrPort c)) 1 := State.count32_reg _ (State.setReg_rise s hregs)
      _ = satAdd 32 (s.reg (Reg.camCheckErrPort c)) 1 := congrArg (satAdd 32 · 1) (State.reg_setReg_other s hne.symm _)

/-- A packet that fails its check value where no row can take it is only counted (R79, R84). -/
theorem State.badPacket_counted {pixels : List W16} (h : s.streaming c = false ∨ (s.port c).state = .idle) :
    s.badPacket c lane pixels = s.badCounted c lane := by
  rw [State.badPacket_eq, State.badCounted_streaming, State.badCounted_port]
  rcases h with h | h
  · simp [h]
  · simp [h]

/-- In FRAME it opens a row whose marker was lost (log entry 28). -/
theorem State.badPacket_marker {pixels : List W16} (hstreaming : s.streaming c = true) (h : (s.port c).state = .frame) :
    s.badPacket c lane pixels = (s.badCounted c lane).rowOpen c true := by
  rw [State.badPacket_eq, State.badCounted_streaming, State.badCounted_port]
  simp [hstreaming, h]

/-- In LINE its pixels are taken for the open row. -/
theorem State.badPacket_pixels {pixels : List W16} (hstreaming : s.streaming c = true) (h : (s.port c).state = .line) :
    s.badPacket c lane pixels = (s.badCounted c lane).rowPixels c pixels true := by
  rw [State.badPacket_eq, State.badCounted_streaming, State.badCounted_port]
  simp [hstreaming, h]

end

/-- The timeouts of R76, R79 and R88. -/
theorem lineTimeouts_hold : lineTimeouts := by
  intro s c ha
  refine ⟨fun r hrow => ⟨_, (State.act_awake ha _ : execLineDataTimeout c s = _), State.rowEnd_ends hrow⟩,
    fun e he => ⟨_, (State.act_awake ha _ : execLineTimeoutAbsent c s = _), State.declareAbsent_port he⟩,
    fun l hl => ⟨_, (State.act_awake ha _ : execLineReleaseTimeout c s = _), ?_⟩⟩
  obtain ⟨r, hport⟩ := s.flushHeld_port c hl
  exact ⟨by rw [hport], by rw [hport]⟩

/-- Settles O17: pixel data acts by `State.rowPixels_last` and `State.rowPixels_more`, and a packet that fails its check value by the state of its port. -/
theorem pixelDataAndLineTimeouts : Obligations.PixelDataAndLineTimeouts := by
  unfold Obligations.PixelDataAndLineTimeouts
  refine ⟨lineTimeouts_hold,
    fun s c stream pixels r ha hown hline hrow => ⟨_, (State.act_awake ha _ : execPixelDataPacket c stream pixels s = _), ?taken⟩,
    fun s c stream pixels hs ha hown hline => ⟨_, (State.act_awake ha _ : execPixelDataPacket c stream pixels s = _), ?orphan⟩,
    fun s c lane pixels r ha hstreaming hline hrow hroom => ⟨_, (State.act_awake ha _ : execCheckFailedPacket c lane pixels s = _), ?failed⟩,
    fun s c lane pixels ha hstreaming hframe => ⟨_, (State.act_awake ha _ : execCheckFailedPacket c lane pixels s = _), ?opened⟩,
    fun s c lane pixels hs ha hidle => ⟨_, (State.act_awake ha _ : execCheckFailedPacket c lane pixels s = _), ?counted⟩⟩
  case taken =>
    rw [State.onStream_own hown]
    set u := s.modPort c fun p => { p with stream := some stream }
    have hport : u.port c = { s.port c with stream := some stream } := State.modPort_port_self _ _ _
    have htaken : (u.port c).state = .line ∧ (u.port c).row = some r := by rw [hport]; exact ⟨hline, hrow⟩
    rw [if_pos htaken.1]
    split
    · exact State.rowPixels_last htaken.2 (by rwa [packPixels_length])
    · rw [State.rowPixels_more htaken.2 (by rw [packPixels_length]; exact Nat.lt_of_not_le ‹_›)]
      exact ⟨htaken.1, by rw [Bool.or_false]; rfl⟩
  case orphan =>
    rw [State.onStream_own hown]
    set u := s.modPort c fun p => { p with stream := some stream }
    have hport : u.port c = { s.port c with stream := some stream } := State.modPort_port_self _ _ _
    rw [if_neg (by rw [hport]; exact hline)]
    refine ⟨State.count32_reg u (State.wf_regs hs), ?_, ?_⟩ <;> rw [State.camCount_port, hport]
  case failed =>
    have hcounted : ((s.badCounted c lane).port c).row = some r := by rw [State.badCounted_port]; exact hrow
    rw [State.badPacket_pixels lane hstreaming hline]
    refine (congrArg Port.row (State.rowPixels_more hcounted (by simpa using hroom))).trans ?_
    rw [Bool.or_true]
  case opened =>
    rw [State.badPacket_marker lane hstreaming hframe]
    obtain ⟨entry, hstate, hrow⟩ := State.rowOpen_port (s.badCounted c lane) c true
    exact ⟨hstate, _, hrow, rfl, rfl⟩
  case counted =>
    rw [State.badPacket_counted lane hidle]
    obtain ⟨hlane, hport⟩ := State.badCounted_reg (c := c) lane hs
    exact ⟨hlane, hport, by rw [State.badCounted_port], by rw [State.badCounted_port]⟩

end Sys2Proof.Machine
end

section
/-! PROOFS. Light, lane locks and discovery of a camera port (R58, R60, R63, R64, R79). -/

namespace Sys2Proof.Machine

section
variable (u : State) (c : PortIx)

/-! ### The control channel (R66) -/

/-- The end of a host request changes its port in that request alone. -/
@[simp] theorem State.ccFinish_port (result ack : Nat) : (u.ccFinish c result ack).port c = { u.port c with ccHost := none } := by
  rw [State.ccFinish, State.camInt_port, State.setReg_port, State.modPort_port_self]

@[simp] theorem State.ccFinish_od (result ack k : Nat) : (u.ccFinish c result ack).od k = u.od k := by
  rw [State.ccFinish, State.camInt_od, State.setReg_od, State.modPort_od]

/-- The release of a waiting request changes its port in that request alone. -/
theorem State.ccRelease_port : ∃ h, (u.ccRelease c).port c = { u.port c with ccHost := h } := by
  unfold State.ccRelease
  split
  · split
    · exact ⟨_, rfl⟩
    · split
      · exact ⟨_, (State.send_port ..).trans (State.modPort_port_self ..)⟩
      · exact ⟨_, u.ccFinish_port c 3 0⟩
  · exact ⟨_, rfl⟩

@[simp] theorem State.ccRelease_od (k : Nat) : (u.ccRelease c).od k = u.od k := by
  unfold State.ccRelease
  split
  · split
    · rfl
    · split
      · rfl
      · exact u.ccFinish_od c 3 0 k
  · rfl

/-! ### A port goes down (R58, R79) -/

/-- A port that goes down keeps its locked lanes. -/
theorem State.portDown_port : ((u.portDown c).port c).state = .down ∧ ((u.portDown c).port c).locks = (u.port c).locks := by
  unfold State.portDown
  split
  · exact ⟨‹_›, rfl⟩
  · have hlocks : (((u.rowEnd c).closeFrame c 8).port c).locks = (u.port c).locks := by
      have hclosed := congrArg Port.locks ((u.rowEnd c).closeFrame_intake c 8)
      have hended := congrArg Port.locks (u.rowEnd_standing c)
      exact hclosed.trans hended
    obtain ⟨h, hport⟩ := State.ccRelease_port ((((u.rowEnd c).closeFrame c 8).modPort c fun p => { p with state := .down, step := .none, hbOk := false }).camStatus c 1) c
    dsimp only
    rw [hport, State.camStatus_port, State.modPort_port_self]
    exact ⟨rfl, hlocks⟩

/-! ### Discovery (R63) -/

theorem State.discRead_port (what : Nat) (step : DiscStep) : (u.discRead c what step).port c = { u.port c with step := step } := by
  rw [State.discRead, State.send_port, State.modPort_port_self]

/-- Discovery that fails leaves its code. -/
theorem State.discFail_fails (hu : keysRise u.dict = true) (code : Nat) :
    ((u.discFail c code).port c).state = .failed ∧ (u.discFail c code).od (Od.portDiscCode c) = code := by
  obtain ⟨h, hport⟩ := State.ccRelease_port
    (((u.modPort c fun p => { p with state := .failed, step := .none }).setOd (Od.portDiscCode c) code).camStatus c 4) c
  unfold State.discFail
  dsimp only
  rw [hport, State.ccRelease_od, State.camStatus_port, State.setOd_port, State.modPort_port_self]
  exact ⟨rfl, (State.raiseStatus_od ..).trans (State.od_setOd_self _ _ _ hu)⟩

/-- Discovery that succeeds links the port and records its camera. -/
theorem State.discDone_links (hu : keysRise u.dict = true) :
    ((u.discDone c).port c).state = .idle ∧ ((u.discDone c).port c).recorded = some (u.port c).seenIdent ∧ (u.discDone c).od (Od.portDiscCode c) = 2 := by
  obtain ⟨h, hport⟩ := State.ccRelease_port
    (((u.modPort c fun p => { p with state := .idle, step := .none, owed := 0, stream := none, recorded := some p.seenIdent }).setOd
      (Od.portDiscCode c) 2).camStatus c 2) c
  unfold State.discDone
  dsimp only
  rw [hport, State.ccRelease_od, State.camStatus_port, State.setOd_port, State.modPort_port_self]
  exact ⟨rfl, rfl, (State.raiseStatus_od ..).trans (State.od_setOd_self _ _ _ hu)⟩

end

/-- What an acknowledgement makes of discovery, by its step (R63, R64). -/
theorem State.discReply_ok {s : State} (hs : s.wf = true) {c : PortIx} {ack : Byte} (hack : Config.cxpAckOk ack = true) (data : List Byte) :
    let t := s.discReply c ack data
    ((s.port c).step = .revision → (t.port c).step = .model ∧ (t.port c).seenRevision = data) ∧
    ((s.port c).step = .model → (t.port c).step = .ident) ∧
    ((s.port c).step = .ident →
      if Config.cxpMajor (s.port c).seenRevision ≠ 2 then (t.port c).state = .failed ∧ t.od (Od.portDiscCode c) = 7
      else if (s.port c).recorded.isSome = true ∧ (s.port c).recorded ≠ some data then (t.port c).state = .failed ∧ t.od (Od.portDiscCode c) = 6
      else (t.port c).step = .configure ∧ (t.port c).seenIdent = data) ∧
    ((s.port c).step = .configure → (t.port c).step = if s.allLocked c then .readback else .lanes) ∧
    ((s.port c).step = .readback →
      if data = s.discConfig c then (t.port c).state = .idle ∧ (t.port c).recorded = some (s.port c).seenIdent ∧ t.od (Od.portDiscCode c) = 2
      else (t.port c).state = .failed ∧ t.od (Od.portDiscCode c) = 5) := by
  have hdict := State.wf_dict hs
  have hfail (f : Port → Port) (code : Nat) : (((s.modPort c f).discFail c code).port c).state = .failed ∧
      ((s.modPort c f).discFail c code).od (Od.portDiscCode c) = code := (s.modPort c f).discFail_fails c hdict code
  intro t
  refine ⟨fun hstep => ?_, fun hstep => ?_, fun hstep => ?_, fun hstep => ?_, fun hstep => ?_⟩
  all_goals have ht : t = s.discReply c ack data := rfl
  all_goals simp only [State.discReply, hack, hstep, Bool.not_true, Bool.false_eq_true, if_false] at ht
  · rw [ht, State.discRead_port, State.modPort_port_self]
    exact ⟨rfl, rfl⟩
  · rw [ht, State.discRead_port]
  · rw [State.modPort_port_self] at ht
    split
    · rename_i hmajor
      rw [ht, if_pos hmajor]
      exact hfail _ 7
    · rename_i hmajor
      rw [if_neg hmajor] at ht
      split
      · rename_i hother
        rw [ht, if_pos (by simpa using hother)]
        exact hfail _ 6
      · rename_i hother
        rw [ht, if_neg (by simpa using hother), State.send_port, State.modPort_port_self, State.modPort_port_self]
        exact ⟨rfl, rfl⟩
  · split
    · rw [ht, if_pos ‹_›, State.discRead_port]
    · rw [ht, if_neg ‹_›, State.modPort_port_self]
  · split
    · rw [ht, if_pos ‹_›]
      exact s.discDone_links c hdict
    · rw [ht, if_neg ‹_›]
      exact s.discFail_fails c hdict 5

/-! ### Light and lane locks (R58, R60) -/

section
variable {s : State} {c : PortIx}

theorem portOf_local (c : PortIx) (k : SliceIx) (hk : k.val = c.val / 4) : portOf k (localOf c) = c := by
  apply Fin.ext
  simp only [portOf, localOf, hk]
  omega

theorem engineOf_portOf (k : SliceIx) (i : Fin 4) : (engineOf (portOf k i)).val = k.val := by
  simp only [engineOf, portOf]
  omega

/-- One port of an engine whose light falls: it goes down and loses its lanes. -/
def State.darken (u : State) (c : PortIx) : State := (u.portDown c).modPort c fun p => { p with locks := 0 }

theorem State.darken_port (u : State) (c : PortIx) : ((u.darken c).port c).locks = 0 ∧ ((u.darken c).port c).state = .down := by
  rw [State.darken, State.modPort_port_self]
  exact ⟨rfl, (u.portDown_port c).1⟩

theorem State.darken_elsewhere {u : State} {d : PortIx} (hd : d ≠ c) (h : (elsewhere s d).P u) : (elsewhere s d).P (u.darken c) :=
  State.modPort_elsewhere hd (State.portDown_elsewhere hd h)

theorem State.lightFall_eq {e : EngineIx} (he : e.val < 4) : s.lightFall e =
    (List.finRange 4).foldl (fun (u : State) i => u.darken (portOf ⟨e.val % 4, Nat.mod_lt _ (by decide)⟩ i)) (s.setOd (Od.engLightOk e) 0) :=
  if_pos he

/-- The fall of light takes the ports of its engine down. -/
theorem State.lightFall_own {e : EngineIx} (he : e.val < 4) (hc : engineOf c = e) :
    ((s.lightFall e).port c).locks = 0 ∧ ((s.lightFall e).port c).state = .down := by
  have hk : e.val % 4 = c.val / 4 := by
    rw [← hc] at he ⊢
    exact Nat.mod_eq_of_lt he
  have hown : portOf ⟨e.val % 4, Nat.mod_lt _ (by decide)⟩ (localOf c) = c := portOf_local c _ hk
  rw [State.lightFall_eq he]
  refine foldl_makes (P := fun u => (u.port c).locks = 0 ∧ (u.port c).state = .down) (List.mem_finRange (localOf c)) (fun u i hu => ?_) (fun u => ?_) _
  · by_cases h : portOf ⟨e.val % 4, Nat.mod_lt _ (by decide)⟩ i = c
    · rw [h]
      exact u.darken_port c
    · have hport : (u.darken (portOf ⟨e.val % 4, Nat.mod_lt _ (by decide)⟩ i)).port c = u.port c :=
        (State.darken_elsewhere (Ne.symm h) (elsewhere_self u c)).1
      rwa [hport]
  · rw [hown]
    exact u.darken_port c

/-- The fall of light leaves the ports of every other engine. -/
theorem State.lightFall_other {e : EngineIx} (he : e.val < 4) (hc : engineOf c ≠ e) : (s.lightFall e).port c = s.port c := by
  rw [State.lightFall_eq he]
  refine (Inv.foldl (I := elsewhere s c) (State.setOd_keeps (elsewhere_has rfl) (elsewhere_self s c)) fun u i hu => State.darken_elsewhere (fun h => hc ?_) hu).1
  exact Fin.ext (by rw [h, engineOf_portOf]; exact Nat.mod_eq_of_lt he)

/-- Discovery starts at once where no request holds the control channel (R63, R66). -/
theorem State.discStart_free (h : (s.port c).ccHost = none) :
    s.discStart c = ((s.modPort c fun p => { p with state := .discovery }).setOd (Od.portDiscCode c) 1).discRead c 0 .revision := by
  simp [State.discStart, h]

theorem State.discStart_locks (s : State) (c : PortIx) : ((s.discStart c).port c).locks = (s.port c).locks := by
  unfold State.discStart
  dsimp only
  split
  · split
    · rw [State.modPort_port_self, State.setOd_port, State.modPort_port_self]
    · rw [State.discRead_port, State.setOd_port, State.modPort_port_self]
  · rw [State.discRead_port, State.setOd_port, State.modPort_port_self]

end

theorem lightAndLaneLocks_hold : lightAndLaneLocks := by
  refine ⟨fun s e hs ha hpower he => ⟨_, (State.act_awake ha _ : execLightOkRise e s = _), ?rise⟩,
    fun s e hs ha he => ⟨_, (State.act_awake ha _ : execLightOkFall e s = _), fun c => State.lightFall_own he, fun c => State.lightFall_other he⟩,
    fun s c lane ha hmay hlock => ⟨_, (State.act_awake ha _ : execLaneLockGain c lane s = _), ?gain⟩,
    fun s c lane ha hlock => ⟨_, (State.act_awake ha _ : execLaneLockLoss c lane s = _), ?loss⟩⟩
  case rise =>
    rw [if_neg (by simp [hpower]), if_pos he]
    exact ⟨by rw [State.odFlag, State.od_setOd_self _ _ _ (State.wf_dict hs)]; rfl, rfl⟩
  case gain =>
    rw [if_neg (show ¬ (!s.laneMayLock c lane || (s.port c).locks.getLsbD lane) = true by rw [hmay, hlock]; decide)]
    extract_lets u p
    have hport : p = { s.port c with locks := (s.port c).locks ||| BitVec.ofNat 4 (2 ^ lane.val) } := State.modPort_port_self _ _ _
    refine ⟨?_, fun hlane hstate hserved hfree => ?_⟩
    · split
      · exact (State.discStart_locks u c).trans (congrArg Port.locks hport)
      · split
        · exact (congrArg Port.locks (u.discRead_port c 3 .readback)).trans (congrArg Port.locks hport)
        · exact congrArg Port.locks hport
    · have hstarts : ((p.state = .down || p.state = .failed) && lane.val = 0 && u.camerasServed) = true := by
        rw [hport]
        have hu : u.camerasServed = true := hserved
        simpa [hlane, hu] using hstate
      have hunused : (u.port c).ccHost = none := (congrArg Port.ccHost hport).trans hfree
      rw [if_pos hstarts, State.discStart_free hunused, State.discRead_port, State.setOd_port,
        State.modPort_port_self]
      exact ⟨rfl, rfl, rfl⟩
  case loss =>
    rw [if_neg (show ¬ (!(s.port c).locks.getLsbD lane) = true by rw [hlock]; decide)]
    extract_lets counts u
    have hport : u.port c = { s.port c with locks := (s.port c).locks &&& ~~~(BitVec.ofNat 4 (2 ^ lane.val)) } := State.modPort_port_self _ _ _
    obtain ⟨hdown, hlocks⟩ := u.portDown_port c
    by_cases hcounts : (s.port c).lossCounts lane (s.od (Od.portLaneCount c)) = true
    · simp only [counts, hcounts, if_true]
      exact ⟨hlocks.trans (congrArg Port.locks hport), hdown⟩
    · simp only [counts, hcounts, Bool.false_eq_true, if_false]
      exact ⟨congrArg Port.locks hport, (congrArg Port.state hport).trans rfl⟩

/-- Settles O14: light and lanes by `lightAndLaneLocks_hold`; an acknowledgement moves discovery by its step, and all that fails it goes by `State.discFail_fails`. -/
theorem locksAndDiscovery : Obligations.LocksAndDiscovery := by
  unfold Obligations.LocksAndDiscovery
  refine ⟨lightAndLaneLocks_hold, fun s c ack data hs ha hfree hwaits => ⟨_, (State.act_awake ha _ : execCcReply c ack data s = _), ?reply⟩,
    fun s c hs ha hfree hwaits => ⟨_, (State.act_awake ha _ : execCcTimeout c s = _), ?timeout⟩,
    fun s c hs ha hstep => ⟨_, (State.act_awake ha _ : execDiscoveryLockTimeout c s = _), ?locks⟩⟩
  case reply =>
    simp only [hfree, hwaits, if_true]
    refine ⟨fun hnack => ?_, fun hack => State.discReply_ok hs hack data⟩
    have hfails : s.discReply c ack data = s.discFail c 3 := by simp [State.discReply, hnack]
    rw [hfails]
    exact s.discFail_fails c (State.wf_dict hs) 3
  case timeout =>
    have hnotSent : (s.port c).hostSent = false := by simp [Port.hostSent, hfree]
    rw [if_neg (by simp [hnotSent]), if_pos hwaits]
    exact s.discFail_fails c (State.wf_dict hs) 3
  case locks =>
    rw [if_pos hstep]
    exact s.discFail_fails c (State.wf_dict hs) 4

end Sys2Proof.Machine
end

section
/-! PROOFS. The control-channel mailbox, heartbeats and camera events (R66 to R69, R97). -/

namespace Sys2Proof.Machine

section
variable (s : State)

/-! ### Messages only join the output, and entries only join the ledger -/

theorem State.msixSend_out (v : Nat) : ∃ l, (s.msixSend v).out = s.out ++ l := by
  unfold State.msixSend
  dsimp only
  split
  · exact ⟨[], (List.append_nil _).symm⟩
  · exact ⟨_, rfl⟩

theorem State.msixRaise_out (v : Nat) : ∃ l, (s.msixRaise v).out = s.out ++ l := by
  unfold State.msixRaise
  dsimp only
  split
  · exact ⟨[], (List.append_nil _).symm⟩
  · exact s.msixSend_out v

theorem State.raiseInt_out (b : Block) (v : Nat) : ∃ l, (s.raiseInt b v).out = s.out ++ l := by
  unfold State.raiseInt State.intUpdate
  dsimp only
  split
  · exact State.msixRaise_out _ _
  · exact ⟨[], (List.append_nil _).symm⟩

/-- A message that was the next to go is among the new ones, whatever an interrupt adds. -/
theorem State.raiseInt_sends {u : State} {o : Out} (h : u.out = s.out ++ [o]) (b : Block) (v : Nat) : o ∈ (u.raiseInt b v).out.drop s.out.length := by
  obtain ⟨l, hl⟩ := u.raiseInt_out b v
  rw [hl, h, List.append_assoc, List.drop_left]
  exact List.mem_append_left _ List.mem_cons_self

theorem State.ledgerLevel_count : s.ledgerLevel.ledger.count = s.ledger.count := by
  unfold State.ledgerLevel
  dsimp only
  split
  · rw [State.event_ledger, State.raiseInt_ledger]
  · split
    · rw [State.event_ledger, State.raiseInt_ledger]
    · rfl

theorem State.ledgerPush_count (n : LedgerNote) : (s.ledgerPush n).ledger.count = s.ledger.count + 1 := by
  unfold State.ledgerPush
  dsimp only
  rw [State.ledgerLevel_count]
  split <;> rfl

/-- Where the chain has begun, an entry is appended (R583). -/
theorem State.ledgerAppend_count {s : State} (h : 0 < s.ledger.count) (n : LedgerNote) : s.ledger.count < (s.ledgerAppend n).ledger.count := by
  have hpushed := s.ledgerPush_count n
  have hnamed : ∀ (g : Ledger) (m : LedgerNote) (bs : List Byte), g.count = (s.ledgerPush n).ledger.count →
      s.ledger.count < ((State.ledgerPush { s.ledgerPush n with ledger := g } m).raiseInt .ledger 4 |>.event 9 0x14 bs).ledger.count := fun g m bs hg => by
    have hsecond := (State.ledgerPush_count { s.ledgerPush n with ledger := g } m).trans (congrArg (· + 1) hg)
    rw [State.event_ledger, State.raiseInt_ledger]
    omega
  unfold State.ledgerAppend
  split
  · rename_i hnone
    simp only [Bool.and_eq_true, decide_eq_true_eq] at hnone
    omega
  · exact iteInduction (motive := fun u : State => s.ledger.count < u.ledger.count) (fun _ => hnamed _ _ _ rfl) fun _ => by omega

/-! ### A run of registers -/

theorem State.setRegs_rise {s : State} (hs : keysRise s.regs = true) (off val : Nat → Nat) (n : Nat) :
    keysRise ((List.range n).foldl (fun (u : State) i => u.setReg (off i) (val i)) s).regs = true := by
  induction n with
  | zero => exact hs
  | succ n ih =>
    rw [List.range_succ, List.foldl_append]
    exact State.setReg_rise _ ih

/-- Each of the registers holds what was stored in it. -/
theorem State.setRegs_reg {s : State} (hs : keysRise s.regs = true) {off : Nat → Nat} (hoff : ∀ i j, off i = off j → i = j) (val : Nat → Nat) {n j : Nat}
    (hj : j < n) : ((List.range n).foldl (fun (u : State) i => u.setReg (off i) (val i)) s).reg (off j) = val j := by
  induction n with
  | zero => exact absurd hj (Nat.not_lt_zero j)
  | succ n ih =>
    rw [List.range_succ, List.foldl_append]
    by_cases hlast : j = n
    · rw [hlast]
      exact State.reg_setReg_self _ _ _ (State.setRegs_rise hs off val n)
    · exact (State.reg_setReg_other _ (fun h => hlast (hoff _ _ h)) _).trans (ih (by omega))

end

/-! ### The end of a request (R66) -/

/-- The status register of the mailbox is no data word, no interrupt status and no count of messages. -/
theorem camCc_apart (c : PortIx) (i : Nat) :
    Reg.camCcStatus c ≠ (Block.cam c).status ∧ Reg.camCcStatus c ≠ Reg.glbMsixSent ∧
      Reg.camCcData c i ≠ (Block.cam c).status ∧ Reg.camCcData c i ≠ Reg.glbMsixSent ∧ Reg.camCcData c i ≠ Reg.camCcStatus c := by
  simp only [Reg.camCcStatus, Reg.camCcData, Block.status, Reg.camIntStatus, Reg.glbMsixSent]
  omega

section
variable {s : State} {c : PortIx}

theorem State.ccFinish_status (hs : keysRise s.regs = true) (result ack : Nat) : (s.ccFinish c result ack).reg (Reg.camCcStatus c) = result * 2 + ack * 256 := by
  obtain ⟨hstatus, hsent, _⟩ := camCc_apart c 0
  exact (State.raiseInt_reg _ hstatus hsent).trans (State.reg_setReg_self _ _ _ hs)

theorem State.ccFinish_data (result ack i : Nat) : (s.ccFinish c result ack).reg (Reg.camCcData c i) = s.reg (Reg.camCcData c i) := by
  obtain ⟨_, _, hstatus, hsent, hne⟩ := camCc_apart c i
  exact (State.raiseInt_reg _ hstatus hsent).trans (State.reg_setReg_other _ hne _)

theorem State.discResume_port (s : State) (c : PortIx) : ∃ st, (s.discResume c).port c = { s.port c with step := st } := by
  unfold State.discResume
  split
  · exact ⟨_, s.discRead_port c 0 .revision⟩
  · exact ⟨_, rfl⟩

theorem State.discResume_reg (s : State) (c : PortIx) (n : Nat) : (s.discResume c).reg n = s.reg n := by
  unfold State.discResume
  split <;> rfl

theorem State.setCcData_data (hs : keysRise s.regs = true) (bs : List Byte) {i : Nat} (hi : i < ceilDiv bs.length 4) :
    (s.setCcData c bs).reg (Reg.camCcData c i) = fieldAt bs (4 * i) 4 :=
  State.setRegs_reg hs (fun i j h => by simp only [Reg.camCcData] at h; omega) _ hi

theorem State.setCcDataIf_rise (hs : keysRise s.regs = true) (b : Prop) [Decidable b] (bs : List Byte) :
    keysRise (if b then s.setCcData c bs else s).regs = true := by
  split
  · exact State.setRegs_rise hs _ _ _
  · exact hs

/-- An answer that is in ends the host's request, and discovery that waited for it goes on (R66). -/
theorem State.ccDone_ends (hs : keysRise s.regs = true) (result ack : Nat) :
    (((s.ccFinish c result ack).discResume c).port c).ccHost = none ∧
      ((s.ccFinish c result ack).discResume c).reg (Reg.camCcStatus c) = result * 2 + ack * 256 := by
  obtain ⟨st, hport⟩ := (s.ccFinish c result ack).discResume_port c
  rw [hport, State.ccFinish_port, State.discResume_reg, State.ccFinish_status hs]
  exact ⟨rfl, rfl⟩

end

/-! ### Heartbeats and camera events (R68, R69) -/

/-- The counters of heartbeats and events are no interrupt status and no count of messages. -/
theorem camEvents_apart (c : PortIx) :
    Reg.camHbMissed c ≠ (Block.cam c).status ∧ Reg.camHbMissed c ≠ Reg.glbMsixSent ∧
      Reg.camEventsRx c ≠ (Block.cam c).status ∧ Reg.camEventsRx c ≠ Reg.glbMsixSent := by
  simp only [Reg.camHbMissed, Reg.camEventsRx, Block.status, Reg.camIntStatus, Reg.glbMsixSent]
  omega

theorem heartbeatsAndCameraEvents_hold : heartbeatsAndCameraEvents := by
  intro s c hs ha hlinked
  have hregs := State.wf_regs hs
  obtain ⟨hmissed, hmissedSent, hrx, hrxSent⟩ := camEvents_apart c
  refine ⟨⟨_, (State.act_awake ha _ : execHeartbeatSend c s = _), if_pos hlinked⟩,
    ⟨_, (State.act_awake ha _ : execHeartbeatReceive c s = _), ?_⟩,
    ⟨_, (State.act_awake ha _ : execHeartbeatTimeout c s = _), ?_⟩,
    fun payload => ⟨_, (State.act_awake ha _ : execCameraEventPacket c payload s = _), ?_⟩⟩
  · rw [if_pos hlinked]
    exact ⟨State.modPort_port_self .., rfl⟩
  · rw [if_pos hlinked]
    refine ⟨?_, ?_, ?_⟩
    · rw [State.camStatus_port, State.camCount_port, State.modPort_port_self]
    · exact (State.raiseStatus_reg _ hmissed hmissedSent).trans (State.count32_reg _ hregs)
    · exact ⟨_, State.raiseStatus_events _ ▸ mem_insertEvent _ _, rfl, rfl, rfl⟩
  · have hgo : (!(s.port c).linked) = false := by rw [hlinked]; rfl
    simp only [hgo, Bool.false_eq_true, if_false]
    refine ⟨?_, ?_, ?_, ?_⟩
    · exact State.camInt_port ..
    · exact State.raiseInt_sends s rfl _ _
    · exact (State.raiseInt_reg _ hrx hrxSent).trans (State.count32_reg _ hregs)
    · exact ⟨_, mem_insertEvent _ _, rfl, rfl, State.raiseInt_dt .., rfl⟩

/-! ### A GO of the mailbox (R66, R67, R97) -/

/-- The data of a request, as the mailbox holds it. -/
def State.ccData (s : State) (c : PortIx) : List Byte :=
  ((List.range 16).flatMap fun i => leBytes 4 (s.reg (Reg.camCcData c i))).take (s.reg (Reg.camCcLen c))

/-- The ledger's note of a write request. -/
def State.ccNote (s : State) (c : PortIx) : LedgerNote :=
  { kind := 4, origin := .host, lsn := s.web.lastLsn,
    aux := leBytes 1 c ++ [0, 0, 0] ++ leBytes 4 (s.reg (Reg.camCcAddr c)) ++ leBytes 4 (s.reg (Reg.camCcLen c)) ++ padTo 8 ((s.ccData c).take 8) }

/-- The request stands in the mailbox, and over a link it is sent. -/
def State.ccTake (u : State) (c : PortIx) (r : CcHost) : State :=
  let v := (u.modPort c fun p => { p with ccHost := some r }).setReg (Reg.camCcStatus c) 1
  if r.sent then v.send (.ccRequest c r.write r.addr r.len r.data) else v

theorem State.ccTake_takes {u : State} (hu : keysRise u.regs = true) (c : PortIx) (r : CcHost) :
    (u.ccTake c r).reg (Reg.camCcStatus c) = 1 ∧ ((u.ccTake c r).port c).ccHost = some r ∧ (u.ccTake c r).ledger = u.ledger ∧
      (r.sent = true → (u.ccTake c r).out.getLast? = some (.ccRequest c r.write r.addr r.len r.data)) := by
  have hstatus : ((u.modPort c fun p => { p with ccHost := some r }).setReg (Reg.camCcStatus c) 1).reg (Reg.camCcStatus c) = 1 :=
    State.reg_setReg_self _ _ _ hu
  have hhost : (((u.modPort c fun p => { p with ccHost := some r }).setReg (Reg.camCcStatus c) 1).port c).ccHost = some r := by
    rw [State.setReg_port, State.modPort_port_self]
  unfold State.ccTake
  dsimp only
  split
  · exact ⟨hstatus, hhost, rfl, fun _ => List.getLast?_concat⟩
  · rename_i hheld
    exact ⟨hstatus, hhost, rfl, fun hsent => absurd hsent hheld⟩

/-- A GO that is taken sets BUSY, keeps the request, and sends it over a link. -/
theorem State.ccGo_taken {s : State} (hs : s.wf = true) {c : PortIx} (write : Bool) (hfree : (s.port c).ccHost = none) (hserved : s.camerasServed = true)
    (hlen : ¬ (s.reg (Reg.camCcLen c) % 4 ≠ 0 ∨ s.reg (Reg.camCcLen c) < 4 ∨ 64 < s.reg (Reg.camCcLen c)))
    (hport : ¬ ((s.port c).linked = false ∧ (s.port c).state ≠ .discovery)) :
    let t := s.ccGo c write
    t.reg (Reg.camCcStatus c) = 1 ∧
      (∃ r, (t.port c).ccHost = some r ∧ r.write = write ∧ r.addr = s.reg (Reg.camCcAddr c) ∧ r.len = s.reg (Reg.camCcLen c) ∧
        r.sent = (s.port c).linked) ∧
      ((s.port c).linked = true → ∃ d, t.out.getLast? = some (.ccRequest c write (s.reg (Reg.camCcAddr c)) (s.reg (Reg.camCcLen c)) d)) ∧
      (write = true → 0 < s.ledger.count → s.ledger.count < t.ledger.count) := by
  have hbad : (s.reg (Reg.camCcLen c) % 4 != 0 || decide (s.reg (Reg.camCcLen c) < 4) || decide (64 < s.reg (Reg.camCcLen c))) = false := by
    simpa [and_assoc] using hlen
  have hdown : (!(s.port c).linked && (s.port c).state != .discovery) = false := by simpa using hport
  simp only [State.ccGo, hfree, hserved, hbad, hdown, Option.isSome_none, Bool.not_true, Bool.false_eq_true, if_false]
  cases write with
  | false =>
    obtain ⟨hstatus, hhost, -, hsent⟩ := State.ccTake_takes (State.wf_regs hs) c ⟨false, s.reg (Reg.camCcAddr c), s.reg (Reg.camCcLen c), [], (s.port c).linked⟩
    exact ⟨hstatus, ⟨_, hhost, rfl, rfl, rfl, rfl⟩, fun hlinked => ⟨_, hsent hlinked⟩, fun h => absurd h Bool.false_ne_true⟩
  | true =>
    simp only [if_true, State.ledgerAppend_port]
    obtain ⟨hstatus, hhost, hledger, hsent⟩ := State.ccTake_takes (u := s.ledgerAppend (s.ccNote c)) (State.wf_regs (State.ledgerAppend_keeps (I := wfInv) (wfInv_has _) hs)) c
      ⟨true, s.reg (Reg.camCcAddr c), s.reg (Reg.camCcLen c), s.ccData c, (s.port c).linked⟩
    exact ⟨hstatus, ⟨_, hhost, rfl, rfl, rfl, rfl⟩, fun hlinked => ⟨_, hsent hlinked⟩,
      fun _ hbegun => (State.ledgerAppend_count hbegun _).trans_eq (congrArg Ledger.count hledger.symm)⟩

theorem exec_ccCommand {s : State} (ha : s.awake) (c : PortIx) (write : Bool) : exec (ccCommand c write) s = .next (s.ccGo c write) := by
  cases write with
  | false => exact (State.act_awake ha _ : execCamCcRead c s = _)
  | true => exact (State.act_awake ha _ : execCamCcWrite c s = _)

/-- Settles O15: a GO that is refused ends as `State.ccFinish` says, one that is taken as `State.ccGo_taken` says, and an answer ends the request. -/
theorem controlChannelAndHeartbeats : Obligations.ControlChannelAndHeartbeats := by
  unfold Obligations.ControlChannelAndHeartbeats
  refine ⟨heartbeatsAndCameraEvents_hold, fun s c write hs ha hfree => ⟨_, exec_ccCommand ha c write, ?go⟩,
    fun s c r ack data hs ha hhost hsent => ⟨_, (State.act_awake ha _ : execCcReply c ack data s = _), ?reply⟩,
    fun s c r hs ha hhost hsent => ⟨_, (State.act_awake ha _ : execCcTimeout c s = _), ?timeout⟩⟩
  case go =>
    have hrefused (result : Nat) (h : s.ccGo c write = s.ccFinish c result 0) :
        (s.ccGo c write).reg (Reg.camCcStatus c) = result * 2 ∧ (s.ccGo c write).port c = s.port c := by
      rw [h, State.ccFinish_status (State.wf_regs hs), State.ccFinish_port]
      exact ⟨rfl, by rw [← hfree]⟩
    dsimp only
    split
    · rename_i hserved
      exact hrefused 4 (by simp [State.ccGo, hfree, hserved])
    · rename_i hserved
      rw [Bool.not_eq_false] at hserved
      split
      · rename_i hlen
        exact hrefused 5 (by simp [State.ccGo, hfree, hserved, hlen, or_assoc])
      · rename_i hlen
        split
        · rename_i hport
          have hlen' := hlen
          simp only [not_or] at hlen'
          exact hrefused 3 (by simp [State.ccGo, hfree, hserved, hlen', hport])
        · rename_i hport
          exact State.ccGo_taken hs write hfree hserved hlen hport
  case reply =>
    simp only [hhost, hsent, if_true]
    set u := if (Config.cxpAckOk ack && !r.write) = true then s.setCcData c (padTo r.len data) else s with hu
    have hregs : keysRise u.regs = true := State.setCcDataIf_rise (State.wf_regs hs) _ _
    obtain ⟨hdone, hstatus⟩ := State.ccDone_ends hregs (if Config.cxpAckOk ack then 0 else 1) (if Config.cxpAckOk ack then 0 else ack.toNat)
    refine ⟨hdone, hstatus.trans ?_, fun hok hread _ i hi => ?_⟩
    · split <;> rfl
    · rw [State.discResume_reg, State.ccFinish_data, hu, if_pos (by simp [hok, hread])]
      exact State.setCcData_data (State.wf_regs hs) _ (by rw [padTo_length]; exact hi)
  case timeout =>
    rw [if_pos (show (s.port c).hostSent = true by simp [Port.hostSent, hhost, hsent])]
    exact State.ccDone_ends (State.wf_regs hs) 2 0

end Sys2Proof.Machine
end

section
/-! PROOFS. Host reads and writes of registers by their access codes (R4, R7, R96, R129, R218, R222, R226, R490). -/

namespace Sys2Proof.Machine

/-! ### Accesses as words (R490, R491) -/

theorem wordsWrite_one (off v : Nat) (s : State) : wordsWrite v [off] s = wordWrite off (v % 2 ^ 32) s := by
  rw [wordsWrite]
  cases wordWrite off (v % 2 ^ 32) s <;> rfl

theorem wordsRead_one (off : Nat) (s : State) : wordsRead [off] s = wordRead off s := by
  rw [wordsRead]
  cases wordRead off s <;> rfl

theorem accessWords_word {off : Nat} (h : off % 4 = 0) : accessWords ⟨false, off, 4⟩ = some [off] := by simp [accessWords, h]

theorem accessWords_pair {off : Nat} (h : off % 8 = 0) : accessWords ⟨false, off, 8⟩ = some [off, off + 4] := by simp [accessWords, h]

theorem accessWords_doorbell {off reg : Nat} (h : doorbellReg off = some reg) : accessWords ⟨true, off, 4⟩ = some [reg] := by simp [accessWords, h]

section
variable {s : State} {a : HostAccess} {words : List Nat}

/-- A write whose shape its window takes writes its words. -/
theorem hostWrite_words (ha : s.awake) (hr : s.dev.state.ready = true) (hw : accessWindow a = false) (hwords : accessWords a = some words) (v : W64) :
    hostWrite a v s = wordsWrite v.toNat words s := by
  have hawake : s.dev.resetHeld = false := ha
  simp [hostWrite, hawake, hr, hw, hwords]

/-- A read whose shape its window takes reads its words. -/
theorem hostRead_words (ha : s.awake) (hw : accessWindow a = false) (hwords : accessWords a = some words) : hostRead a s = wordsRead words s := by
  have hawake : s.dev.resetHeld = false := ha
  simp [hostRead, hawake, hw, hwords]

/-- A write of one word, awake or not. -/
theorem hostWrite_word (s : State) {off : Nat} (h : off % 4 = 0) (v : W64) : hostWrite ⟨false, off, 4⟩ v s = wordWrite off (v.toNat % 2 ^ 32) s := by
  unfold hostWrite
  split
  · rename_i hclosed
    rw [wordWrite, if_pos (by rw [hclosed, Bool.true_or])]
  · rw [accessWords_word h]
    exact wordsWrite_one off v.toNat s

/-- A read of one word, awake or not. -/
theorem hostRead_word (s : State) {off : Nat} (h : off % 4 = 0) : hostRead ⟨false, off, 4⟩ s = wordRead off s := by
  unfold hostRead
  split
  · rename_i hheld
    rw [wordRead, if_pos hheld]
  · rw [accessWords_word h]
    exact wordsRead_one off s

end

/-! ### A word of an open register -/

/-- Each row of `ownWriteRows` names a command for every value. -/
theorem ownWrite_of_row (i v : Nat) (s : State) : ∀ base ∈ ownWriteRows, (ownWrite base i v s).isSome = true := by
  simp only [ownWriteRows, List.forall_mem_cons, List.not_mem_nil, false_implies, implies_true, and_true]
  refine ⟨rfl, rfl, rfl, rfl, rfl, rfl, rfl, rfl, rfl, rfl, rfl, rfl, rfl, rfl, rfl, rfl, rfl⟩

theorem notOwnRow {base i v : Nat} {s : State} (h : ownWrite base i v s = none) : ownWriteRows.contains base = false := by
  refine Bool.eq_false_iff.mpr fun hrow => ?_
  have hsome := ownWrite_of_row i v s base (List.contains_iff_mem.mp hrow)
  rw [h] at hsome
  exact Bool.false_ne_true hsome

section
variable {s : State} {off : Nat} {r : RegRow} {v : W64}

/-- A write of an open register that names no command is a plain write of the register. -/
theorem exec_write_open (ha : s.awake) (ho : openReg s off r) (hown : ownWrite r.base (r.index off) (v.toNat % 2 ^ 32) s = none) :
    exec (.genericRegisterWrite ⟨false, off, 4⟩ v) s = .next (s.writeReg off (v.toNat % 2 ^ 32)) := by
  obtain ⟨hready, hopen, hword, -, hrow⟩ := ho
  have hawake : s.dev.resetHeld = false := ha
  refine (hostWrite_word s hword v).trans ?_
  generalize v.toNat % 2 ^ 32 = w at hown ⊢
  simp [wordWrite, hawake, hready, hopen, hrow, hown]

/-- A plain write of an open register goes by its row. -/
theorem State.writeReg_open (ho : openReg s off r) (w : Nat) :
    (r.access = .rw → s.writeReg off w = s.writeRw r off w) ∧ (r.access = .w1c → s.writeReg off w = s.writeW1c r off w) ∧
      (r.access = .ro ∨ r.access = .rc → s.writeReg off w = s) := by
  obtain ⟨hready, hopen, hword, hplace, hrow⟩ := ho
  have hwindow : ¬ (0x8000 ≤ off ∧ off < 0xA000) := by omega
  have hclosed : (!s.dev.state.ready || s.blockClosed off || off % 4 != 0) = false := by simp [hready, hopen, hword]
  unfold State.writeReg
  simp only [hclosed, hwindow, hrow, Bool.false_eq_true, if_false]
  refine ⟨fun h => ?_, fun h => ?_, fun h => ?_⟩
  · rw [h]
  · rw [h]
  · obtain h | h := h <;> rw [h]

/-- A read of an open register answers by its access code. -/
theorem exec_read_open (ha : s.awake) (ho : openReg s off r) (hfs : r.base ≠ Reg.fsTblData 0) (htm : r.base ≠ Reg.coreTmData 0) :
    hostRead ⟨false, off, 4⟩ s = .next ((s.readListed r off).2.send (.readData (s.readListed r off).1)) := by
  obtain ⟨-, hopen, hword, hplace, hrow⟩ := ho
  have hawake : s.dev.resetHeld = false := ha
  have htable : ¬ (0x8000 ≤ off ∧ off < 0xA000) := by omega
  have hpending : ¬ (0xA000 ≤ off ∧ off < 0xA040) := by omega
  refine (hostRead_word s hword).trans ?_
  simp [wordRead, hawake, hrow, hfs, htm, State.readReg, hword, hopen, htable, hpending]

end

/-! ### Writes by access code -/

section
variable (s : State)

theorem State.intUpdate_reg (b : Block) (f : State → State) {n : Nat} (h : n ≠ Reg.glbMsixSent) : (s.intUpdate b f).reg n = (f s).reg n := by
  unfold State.intUpdate
  dsimp only
  split
  · exact State.msixRaise_reg _ h
  · rfl

theorem State.intUpdate_dict (b : Block) (f : State → State) : (s.intUpdate b f).dict = (f s).dict := by
  unfold State.intUpdate
  dsimp only
  split
  · exact State.msixRaise_dict _ _
  · rfl

end

/-- The count of messages is no interrupt register. -/
theorem blockAt_apart {off : Nat} {b : Block} (h : blockAt off = some b) : off ≠ Reg.glbMsixSent := by
  have hnone : blockAt Reg.glbMsixSent = none := by decide +kernel
  rintro rfl
  rw [hnone] at h
  cases h

/-- A register takes a value that is computed from the state; where it is an interrupt register, its vector may be raised (R496). -/
def State.storeReg (s : State) (off : Nat) (f : State → Nat) : State := match blockAt off with
  | some b => s.intUpdate b fun t => t.setReg off (f t)
  | none => s.setReg off (f s)

section
variable {s : State} {off : Nat}

theorem State.storeReg_plain (f : State → Nat) (h : blockAt off = none) : s.storeReg off f = s.setReg off (f s) := by rw [State.storeReg, h]

theorem State.storeReg_reg (hs : keysRise s.regs = true) (f : State → Nat) : (s.storeReg off f).reg off = f s := by
  have hset : (s.setReg off (f s)).reg off = f s := State.reg_setReg_self _ _ _ hs
  cases h : blockAt off with
  | none => rw [State.storeReg_plain f h, hset]
  | some b =>
    rw [State.storeReg, h]
    exact (s.intUpdate_reg b _ (blockAt_apart h)).trans hset

theorem State.storeReg_dict (f : State → Nat) : (s.storeReg off f).dict = s.dict := by
  cases h : blockAt off with
  | none => rw [State.storeReg_plain f h]; rfl
  | some b =>
    rw [State.storeReg, h]
    exact s.intUpdate_dict b _

theorem State.writeW1c_stores (r : RegRow) (w : Nat) :
    s.writeW1c r off w = s.storeReg off fun t => t.reg off - Nat.land (t.reg off) (Nat.land w r.mask) := rfl

/-- A write of an RW register stores the value's defined bits, where neither the state nor the register refuses it. -/
theorem State.writeRw_stores {r : RegRow} {w : Nat} (hrow : ownWriteRows.contains r.base = false)
    (hstate : (r.preopOnly || ringBaseRows.contains r.base) = false ∨ s.dev.state = .preop) (hvalue : regRefuses r.base (Nat.land w r.mask) = false) :
    s.writeRw r off w = s.storeReg off fun _ => Nat.land w r.mask := by
  have hplace : ((r.preopOnly || ringBaseRows.contains r.base) && s.dev.state != .preop) = false := by
    obtain h | h := hstate
    · rw [h, Bool.false_and]
    · rw [h]; exact Bool.and_false _
  unfold State.writeRw
  simp only [hrow, hplace, hvalue, Bool.or_false, Bool.false_eq_true, if_false]
  rfl

/-- A write of an RW register that the state or the register refuses is ignored. -/
theorem State.writeRw_ignored {r : RegRow} {w : Nat}
    (h : (r.preopOnly || ringBaseRows.contains r.base) = true ∧ s.dev.state ≠ .preop ∨ regRefuses r.base (Nat.land w r.mask) = true) :
    s.writeRw r off w = s := by
  refine if_pos ?_
  obtain ⟨hplace, hstate⟩ | hvalue := h
  · rw [hplace, bne_iff_ne.mpr hstate, Bool.and_self, Bool.or_true, Bool.true_or]
  · rw [hvalue, Bool.or_true]

end

/-! ### Reads by access code -/

section
variable {s : State} {off : Nat} {r : RegRow}

theorem State.readListed_rc (h : r.access = .rc) : s.readListed r off = (s.regView off, s.setReg off (s.levelNow off)) := by
  rw [State.readListed, h]

theorem State.readListed_wide (h : r.access = .ro) (hsize : r.size = 8) : s.readListed r off = s.readWide r off := by
  simp [State.readListed, h, hsize]

/-- A read of the low word of a 64-bit counter latches its high word (R226). -/
theorem State.readWide_low (h8 : off % 8 = 0) (hcounter : plainWideRows.contains r.base = false) :
    s.readWide r off = (s.regView off % 2 ^ 32, { s with pcie := { s.pcie with
      counterLatch := sparseSet off (some (BitVec.ofNat 32 (s.regView off / 2 ^ 32))) s.pcie.counterLatch } }) := by
  have hlow : off / 8 * 8 = off := by omega
  simp only [State.readWide, hlow, if_true, bne_self_eq_false, hcounter, Bool.false_eq_true, if_false]

/-- A read of the high word returns what was latched (R226). -/
theorem State.readWide_latched (h8 : off % 8 = 0) {high : W32} (h : sparseGet off s.pcie.counterLatch = some high) :
    (s.readWide r (off + 4)).1 = high.toNat ∧ (s.readWide r (off + 4)).2.out = s.out := by
  have hlow : (off + 4) / 8 * 8 = off := by omega
  have hne : ¬ off + 4 = off := by omega
  simp only [State.readWide, hlow, hne, if_false, h]
  exact ⟨trivial, trivial⟩

end

/-! ### The core registers that are entries (R218, R222) -/

/-- The rows of PARK and FREQ_TARGET (R224). -/
def parkRow : OdRow := ⟨0x4100, 32, 0x05, 1, .bool, .rw, true, true, false, 0x0, .full⟩
def freqRow : OdRow := ⟨0x4100, 32, 0x01, 1, .u16, .rw, true, true, false, 0x898, .mult 800 2200 50⟩

theorem odFind_park : ∀ k : CoreIx, odFind (Od.corePark k) = some parkRow := by decide +kernel

theorem odFind_freq : ∀ k : CoreIx, odFind (Od.coreFreqTarget k) = some freqRow := by decide +kernel

theorem odWidth_of_row {key : Nat} {r : OdRow} (h : odFind key = some r) : odWidth key = 8 * r.type.bytes := by rw [odWidth, h]

/-- An entry of a core stands at the core's index. -/
theorem corePlace (k : CoreIx) : Od.corePark k / 256 = 0x4100 + k ∧ Od.coreFreqTarget k / 256 = 0x4100 + k := by
  simp only [Od.corePark, Od.coreFreqTarget, odKey]
  omega

section
variable {s : State} {k : CoreIx} {key : Nat}

/-- An entry of a core has no effect on the dictionary but its own value. -/
theorem State.odEffect_core (hkey : key / 256 = 0x4100 + k) (old v : Nat) : (s.odEffect key old v).dict = s.dict := by
  have hk := k.isLt
  have hpark (j : CoreIx) : (s.parkEffect j).dict = s.dict :=
    keepInv_same (l := [.dict]) (State.parkEffect_keeps (keepInv_has rfl) (keepInv_self _ _)) (p := .dict) (by simp)
  unfold State.odEffect
  dsimp only
  rw [if_neg (by simp; omega), if_neg (by simp; omega), if_pos (by simp; omega)]
  split
  · exact hpark _
  · rfl

/-- A write of an entry of a core waits for nothing. -/
theorem writeWait_core (hkey : key / 256 = 0x4100 + k) : writeWait key false = .none := by
  have hk := k.isLt
  have hperiod : isPeriodKey key = false := by simp [isPeriodKey]; omega
  unfold writeWait
  dsimp only
  rw [if_neg (by simp; omega), if_neg (by simp; omega), if_neg (by simp; omega), if_neg (by simp [hperiod]), if_neg (by simp)]

/-- An accepted write of a stored entry of a core is stored at once. -/
theorem State.odAccept_core (hs : s.wf = true) (hkey : key / 256 = 0x4100 + k) {r : OdRow} (hr : odFind key = some r) (hstored : r.access ≠ .wo)
    (o : Origin) (flags v : Nat) (door : Door) : (s.odAccept o flags key v door).2.od key = v := by
  have hk := k.isLt
  have hplain : ¬ key = Od.devOwner ∧ ¬ key = Od.devStateRequest ∧ ¬ key = Od.devOwnerRequest ∧ ¬ key = Od.devOwnerSeize := by
    simp only [Od.devOwner, Od.devStateRequest, Od.devOwnerRequest, Od.devOwnerSeize, odKey]
    omega
  simp only [State.odAccept, hplain, if_false]
  set u := s.ledgerWrite 1 flags o key (odWidth key / 8) v s.web.lastLsn
  have hu : u.wf = true := State.ledgerWrite_keeps (I := wfInv) (wfInv_has _) hs
  have hwait : (if u.dev.state.live then writeWait key (none : Option Nat).isSome else .none) = .none := by
    rw [Option.isSome_none, writeWait_core hkey, ite_self]
  have hput : (u.odPut key v).dict = (u.setOd key v).dict := State.odPut_dict hr hstored fun _ _ => State.odEffect_core hkey _ _
  simp only [State.odStore, hwait]
  exact (State.od_of_dict hput key).trans (State.od_setOd_self u _ _ (State.wf_dict hu))

/-- A core register's write is one of its entry (R218, R222). -/
theorem State.coreEntryWrite_stores (hs : s.wf = true) (hkey : key / 256 = 0x4100 + k) {r : OdRow} (hr : odFind key = some r) (hstored : r.access ≠ .wo) {v : Nat}
    (hok : s.odWriteCheck .host key (odWidth key / 8) v = .ok) : (s.coreEntryWrite key v).od key = v := by
  rw [State.coreEntryWrite, if_pos hok]
  exact State.odAccept_core hs hkey hr hstored _ _ _ _

end

end Sys2Proof.Machine
end

section
/-! PROOFS. The doorbells, accesses of a bad shape and of two words, and the registers' access codes (R4, R7, R226, R490 to R494). -/

namespace Sys2Proof.Machine

/-! ### Accesses of a bad shape, and of two words (R490, R492, R494) -/

/-- A bit that is set joins. -/
theorem bitAt_lor_self {v i : Nat} (old : Nat) (h : v.testBit i = true) : bitAt (Nat.lor old v) i = true := by
  have hbit : (old ||| v).testBit i = true := by rw [Nat.testBit_or, h, Bool.or_true]
  rwa [Nat.testBit_eq_decide_div_mod_eq] at hbit

/-- An access of a bad shape sets ACCESS_ERR. -/
theorem State.badAccess_flag {s : State} (hs : keysRise s.regs = true) (isWrite : Bool) : bitAt ((s.badAccess isWrite).reg Reg.glbIntStatus) 2 = true := by
  have hset (u : State) (hu : keysRise u.regs = true) : bitAt ((u.raiseInt .glb 4).reg Block.glb.status) 2 = true := by
    rw [State.raiseInt_status _ hu (by decide)]
    exact bitAt_lor_self _ (by decide)
  cases isWrite with
  | true => exact hset s hs
  | false => exact hset _ hs

/-- A write of two words, awake or not. -/
theorem hostWrite_pair (s : State) {off : Nat} (h : off % 8 = 0) (v : W64) :
    hostWrite ⟨false, off, 8⟩ v s = andThen (wordWrite off (v.toNat % 2 ^ 32) s) (wordWrite (off + 4) (v.toNat / 2 ^ 32 % 2 ^ 32)) := by
  unfold hostWrite
  split
  · rename_i hclosed
    have hword (o w : Nat) : wordWrite o w s = .next s := by rw [wordWrite, if_pos (by rw [hclosed, Bool.true_or])]
    rw [hword, andThen, hword]
  · rw [accessWords_pair h]
    exact congrArg (andThen _) (funext fun t => wordsWrite_one (off + 4) _ t)

/-- A read of two words, awake or not. -/
theorem hostRead_pair (s : State) {off : Nat} (h : off % 8 = 0) : hostRead ⟨false, off, 8⟩ s = andThen (wordRead off s) (wordRead (off + 4)) := by
  unfold hostRead
  split
  · rename_i hheld
    have hword (o : Nat) : wordRead o s = .next s := by rw [wordRead, if_pos hheld]
    rw [hword, andThen, hword]
  · rw [accessWords_pair h]
    exact congrArg (andThen _) (funext fun t => wordsRead_one (off + 4) t)

/-! ### Doorbells (R491) -/

/-- The row of a BAR0 offset by its first offset, and which of its places it is. -/
def regCell (off : Nat) : Option (Nat × Nat) := (regFind off).map fun r => (r.base, r.index off)

theorem regCell_cqPi : ∀ q : QueueIx, regCell (Reg.cqPi q) = some (Reg.cqPi 0, q.val) := by decide +kernel
theorem regCell_ccCi : ∀ q : QueueIx, regCell (Reg.ccCi q) = some (Reg.ccCi 0, q.val) := by decide +kernel
theorem regCell_resCi : ∀ q : QueueIx, regCell (Reg.resCi q) = some (Reg.resCi 0, q.val) := by decide +kernel
theorem regCell_cmdEvtCi : regCell Reg.cmdEvtCi = some (Reg.cmdEvtCi, 0) := by decide +kernel
theorem regCell_cmdStatsCi : regCell Reg.cmdStatsCi = some (Reg.cmdStatsCi, 0) := by decide +kernel

theorem doorbellReg_pages : ∀ q : QueueIx, doorbellReg (q * 0x1000) = some (Reg.cqPi q) ∧ doorbellReg (q * 0x1000 + 4) = some (Reg.ccCi q) ∧
    doorbellReg (0x40000 + q * 0x1000) = some (Reg.resCi q) := by decide +kernel

section
variable (i w : Nat) (s : State)

theorem ownWrite_cqPi : ownWrite (Reg.cqPi 0) i w s = some (execCqPiWrite (queueIx i) (BitVec.ofNat 32 w) s) := rfl
theorem ownWrite_ccCi : ownWrite (Reg.ccCi 0) i w s = some (execRingCiWrite (.completion (queueIx i)) (BitVec.ofNat 32 w) s) := rfl
theorem ownWrite_resCi : ownWrite (Reg.resCi 0) i w s = some (execRingCiWrite (.result (queueIx i)) (BitVec.ofNat 32 w) s) := rfl
theorem ownWrite_cmdEvtCi : ownWrite Reg.cmdEvtCi 0 w s = some (execRingCiWrite .event (BitVec.ofNat 32 w) s) := rfl
theorem ownWrite_cmdStatsCi : ownWrite Reg.cmdStatsCi 0 w s = some (execRingCiWrite .stats (BitVec.ofNat 32 w) s) := rfl

end

theorem queueIx_self (q : QueueIx) : queueIx q.val = q := Fin.ext (Nat.mod_eq_of_lt q.isLt)

theorem lowWord_eq (v : W64) : BitVec.ofNat 32 (v.toNat % 2 ^ 32) = v.setWidth 32 := by
  apply BitVec.eq_of_toNat_eq
  simp

section
variable {s : State}

/-- A write of a word whose row names a command for the value is that command. -/
theorem wordWrite_command (ha : s.awake) (hr : s.dev.state.ready = true) {off base i w : Nat} {res : Result} (hopen : s.blockClosed off = false)
    (hcell : regCell off = some (base, i)) (hown : ownWrite base i w s = some res) : wordWrite off w s = res := by
  have hawake : s.dev.resetHeld = false := ha
  obtain ⟨r, hrow, hbase⟩ := Option.map_eq_some_iff.mp hcell
  obtain ⟨rfl, rfl⟩ := Prod.mk.inj hbase
  simp [wordWrite, hawake, hr, hopen, hrow, hown]

/-- The CMD block is open from PREOP on, but in SAFE (R406). -/
theorem State.cmdBlock_open (hr : s.dev.state.ready = true) (hsafe : s.dev.state ≠ .safe) {off : Nat} (h : 0x2300000 ≤ off ∧ off < 0x2400000) :
    s.blockClosed off = false := by
  have hother : (s.dev.state == DevState.safe) = false := by simpa using hsafe
  rw [State.blockClosed, if_pos h, hr, hother]
  rfl

end

section
variable {s : State} (ha : s.awake) (hr : s.dev.state.ready = true) (hsafe : s.dev.state ≠ .safe) (q : QueueIx) (v : W64)
include ha hr hsafe

/-- A write of an index of the CMD block is its command. -/
theorem wordWrite_cqPi : wordWrite (Reg.cqPi q) (v.toNat % 2 ^ 32) s = exec (.cqPiWrite q (v.setWidth 32)) s := by
  have hopen := State.cmdBlock_open hr hsafe (off := Reg.cqPi q) (by simp only [Reg.cqPi]; omega)
  exact wordWrite_command ha hr hopen (regCell_cqPi q) ((ownWrite_cqPi q.val _ s).trans (by rw [queueIx_self, lowWord_eq]; rfl))

theorem wordWrite_ccCi : wordWrite (Reg.ccCi q) (v.toNat % 2 ^ 32) s = exec (.ringCiWrite (.completion q) (v.setWidth 32)) s := by
  have hopen := State.cmdBlock_open hr hsafe (off := Reg.ccCi q) (by simp only [Reg.ccCi]; omega)
  exact wordWrite_command ha hr hopen (regCell_ccCi q) ((ownWrite_ccCi q.val _ s).trans (by rw [queueIx_self, lowWord_eq]; rfl))

theorem wordWrite_resCi : wordWrite (Reg.resCi q) (v.toNat % 2 ^ 32) s = exec (.ringCiWrite (.result q) (v.setWidth 32)) s := by
  have hopen := State.cmdBlock_open hr hsafe (off := Reg.resCi q) (by simp only [Reg.resCi]; omega)
  exact wordWrite_command ha hr hopen (regCell_resCi q) ((ownWrite_resCi q.val _ s).trans (by rw [queueIx_self, lowWord_eq]; rfl))

theorem wordWrite_cmdEvtCi : wordWrite Reg.cmdEvtCi (v.toNat % 2 ^ 32) s = exec (.ringCiWrite .event (v.setWidth 32)) s :=
  wordWrite_command ha hr (State.cmdBlock_open hr hsafe (by decide)) regCell_cmdEvtCi ((ownWrite_cmdEvtCi _ s).trans (by rw [lowWord_eq]; rfl))

theorem wordWrite_cmdStatsCi : wordWrite Reg.cmdStatsCi (v.toNat % 2 ^ 32) s = exec (.ringCiWrite .stats (v.setWidth 32)) s :=
  wordWrite_command ha hr (State.cmdBlock_open hr hsafe (by decide)) regCell_cmdStatsCi ((ownWrite_cmdStatsCi _ s).trans (by rw [lowWord_eq]; rfl))

end

/-- A doorbell write is the write of the register that it aliases. -/
theorem exec_doorbell {s : State} (ha : s.awake) (hr : s.dev.state.ready = true) {off reg : Nat} (hoff : off < 2 ^ 25) (hdoor : doorbellReg off = some reg) (v : W64) :
    exec (.genericRegisterWrite ⟨true, off, 4⟩ v) s = wordWrite reg (v.toNat % 2 ^ 32) s := by
  have hwindow : accessWindow ⟨true, off, 4⟩ = false := by simp [accessWindow]; omega
  exact (hostWrite_words ha hr hwindow (accessWords_doorbell hdoor) v).trans (wordsWrite_one reg v.toNat s)

/-! ### The statement -/

/-- Settles O60: each access is one of its words, a word of an open register goes by its row's access code, and the others are commands of their own. -/
theorem registersActByTheirAccess : Obligations.RegistersActByTheirAccess := by
  unfold Obligations.RegistersActByTheirAccess
  refine ⟨fun s off v r hs ha ho => ?plain, fun s off r hs ha ho haccess hfs htm => ⟨_, exec_read_open ha ho hfs htm, ?clears⟩,
    fun s off r ha ho haccess hsize h8 hcounter hfs htm => ⟨_, exec_read_open ha ho hfs htm, ?latches⟩, fun s k v hs ha => ?entries,
    fun s a v ha => ?shapes, fun s off v h8 => ?pairs, fun s q v ha hr hsafe => ?doorbells⟩
  case plain =>
    intro w hown
    obtain ⟨hrw, hw1c, hro⟩ := State.writeReg_open ho w
    have hregs := State.wf_regs hs
    refine ⟨fun haccess hstate hvalue => ⟨_, exec_write_open ha ho hown, ?_⟩, fun haccess hrefused => ⟨_, exec_write_open ha ho hown, ?_⟩,
      fun haccess => ⟨_, exec_write_open ha ho hown, ?_⟩, fun haccess => ⟨_, exec_write_open ha ho hown, hro haccess⟩⟩
    · rw [hrw haccess, State.writeRw_stores (notOwnRow hown) hstate hvalue]
      exact ⟨State.storeReg_reg hregs _, State.storeReg_plain _⟩
    · exact (hrw haccess).trans (State.writeRw_ignored hrefused)
    · rw [hw1c haccess, State.writeW1c_stores]
      exact ⟨State.storeReg_reg hregs _, State.storeReg_dict _⟩
  case clears =>
    rw [State.readListed_rc haccess]
    exact ⟨rfl, State.reg_setReg_self _ _ _ (State.wf_regs hs), rfl⟩
  case latches =>
    rw [State.readListed_wide haccess hsize, State.readWide_low h8 hcounter]
    refine ⟨rfl, rfl, fun u hlatch hu hopen => ⟨_, exec_read_open hu hopen hfs htm, ?_⟩⟩
    have hheld : sparseGet off u.pcie.counterLatch = some (BitVec.ofNat 32 (s.regView off / 2 ^ 32)) := by
      rw [← hlatch]
      exact sparseGet_set_self _ _ _
    obtain ⟨hvalue, hout⟩ := State.readWide_latched (s := u) (r := r) h8 hheld
    dsimp only
    rw [State.readListed_wide haccess hsize, State.send_out, hvalue, hout, BitVec.toNat_ofNat]
  case entries =>
    obtain ⟨hpark, hfreq⟩ := corePlace k
    have hparkWidth : odWidth (Od.corePark k) / 8 = 1 := by rw [odWidth_of_row (odFind_park k)]; rfl
    have hfreqWidth : odWidth (Od.coreFreqTarget k) / 8 = 2 := by rw [odWidth_of_row (odFind_freq k)]; rfl
    refine ⟨fun hok => ⟨_, (State.act_awake ha _ : execCoreParkWrite k v s = _), ?_⟩,
      fun hok => ⟨_, (State.act_awake ha _ : execFreqTargetWrite k v s = _), ?_⟩,
      fun hbad => ⟨_, (State.act_awake ha _ : execFreqTargetWrite k v s = _), ?_⟩⟩
    · exact State.coreEntryWrite_stores hs hpark (odFind_park k) (by decide) (hparkWidth ▸ hok)
    · exact State.coreEntryWrite_stores hs hfreq (odFind_freq k) (by decide) (hfreqWidth ▸ hok)
    · exact if_neg (hfreqWidth ▸ hbad)
  case shapes =>
    have hawake : s.dev.resetHeld = false := ha
    refine ⟨fun hclosed => ⟨s, ?_, rfl⟩, fun hs hready hwindow hshape => ?_⟩
    · exact if_pos (by rw [hclosed]; exact Bool.or_true _)
    · have hwrite : hostWrite a v s = .next (s.badAccess true) := by simp [hostWrite, hawake, hready, hwindow, hshape]
      have hread : hostRead a s = .next (s.badAccess false) := by simp [hostRead, hawake, hwindow, hshape]
      have hregs := State.wf_regs hs
      exact ⟨⟨_, hwrite, State.badAccess_flag hregs true, State.raiseInt_dict _ _ _⟩,
        ⟨_, hread, State.raiseInt_sends s rfl _ _, State.badAccess_flag hregs false, State.raiseInt_dict _ _ _⟩⟩
  case pairs =>
    have h4 : off % 4 = 0 := by omega
    have h4' : (off + 4) % 4 = 0 := by omega
    refine ⟨?_, ?_⟩
    · have hlow : exec (.genericRegisterWrite ⟨false, off, 4⟩ v) s = wordWrite off (v.toNat % 2 ^ 32) s := hostWrite_word s h4 v
      have hhigh (t : State) : exec (.genericRegisterWrite ⟨false, off + 4, 4⟩ (v >>> 32)) t = wordWrite (off + 4) (v.toNat / 2 ^ 32 % 2 ^ 32) t :=
        (hostWrite_word t h4' (v >>> 32)).trans (by rw [BitVec.toNat_ushiftRight, Nat.shiftRight_eq_div_pow])
      have hpair : exec (.genericRegisterWrite ⟨false, off, 8⟩ v) s = andThen (wordWrite off (v.toNat % 2 ^ 32) s) (wordWrite (off + 4) (v.toNat / 2 ^ 32 % 2 ^ 32)) :=
        hostWrite_pair s h8 v
      rw [hpair, hlow]
      simp only [hhigh]
      cases wordWrite off (v.toNat % 2 ^ 32) s <;> rfl
    · have hlow : exec (.lowWordRead ⟨false, off, 4⟩) s = wordRead off s := hostRead_word s h4
      have hhigh (t : State) : exec (.lowWordRead ⟨false, off + 4, 4⟩) t = wordRead (off + 4) t := hostRead_word t h4'
      have hpair : exec (.lowWordRead ⟨false, off, 8⟩) s = andThen (wordRead off s) (wordRead (off + 4)) := hostRead_pair s h8
      rw [hpair, hlow]
      simp only [hhigh]
      cases wordRead off s <;> rfl
  case doorbells =>
    intro w page
    have hq := q.isLt
    have hword : Reg.cqPi q % 4 = 0 := by simp only [Reg.cqPi]; omega
    obtain ⟨hpageCq, hpageCc, hpageRes⟩ := doorbellReg_pages q
    refine ⟨?_, ?_, ?_, ?_, ?_, ?_, ?_⟩
    · exact (exec_doorbell ha hr (by omega) hpageCq v).trans (wordWrite_cqPi ha hr hsafe q v)
    · exact (exec_doorbell ha hr (by omega) hpageCc v).trans (wordWrite_ccCi ha hr hsafe q v)
    · exact (exec_doorbell ha hr (by omega) hpageRes v).trans (wordWrite_resCi ha hr hsafe q v)
    · exact (exec_doorbell ha hr (by decide) rfl v).trans (wordWrite_cmdEvtCi ha hr hsafe v)
    · exact (exec_doorbell ha hr (by decide) rfl v).trans (wordWrite_cmdStatsCi ha hr hsafe v)
    · exact (hostWrite_word s hword v).trans (wordWrite_cqPi ha hr hsafe q v)
    · have hwindow : accessWindow ⟨true, page, 4⟩ = false := by simp [accessWindow]; omega
      have hdoor := hostRead_words ha hwindow (accessWords_doorbell hpageCq)
      exact hdoor.trans ((wordsRead_one _ s).trans (hostRead_word s hword).symm)

end Sys2Proof.Machine
end

section
/-! PROOFS. A slice takes the next line and ends it; the memory path stores its lines (R99, R114 to R120). -/

namespace Sys2Proof.Machine

/-! ### The slice of a port (R98) -/

@[simp] theorem sliceOf_portOf (k : SliceIx) (i : Fin 4) : sliceOf (portOf k i) = k := by
  apply Fin.ext
  simp only [sliceOf, portOf]
  omega

@[simp] theorem localOf_portOf (k : SliceIx) (i : Fin 4) : localOf (portOf k i) = i := by
  apply Fin.ext
  simp only [localOf, portOf]
  omega

@[simp] theorem portOf_sliceOf (c : PortIx) : portOf (sliceOf c) (localOf c) = c := portOf_local c _ rfl

theorem portOf_injective {k : SliceIx} {i j : Fin 4} (h : portOf k i = portOf k j) : i = j := by
  rw [← localOf_portOf k i, h, localOf_portOf]

/-! ### The choice of the next line (R119) -/

section
variable {s : State} {k : SliceIx} {c : PortIx}

/-- The ports of a slice are those that it serves. -/
theorem sliceOf_of_mem (h : c ∈ (List.finRange 4).map (portOf k)) : sliceOf c = k := by
  obtain ⟨i, _, rfl⟩ := List.mem_map.mp h
  exact sliceOf_portOf k i

theorem State.oldestMp_slice (h : s.oldestMp k = some c) : sliceOf c = k := by
  refine List.foldlRecOn (motive := fun best => ∀ d : PortIx, best = some d → sliceOf d = k) _ _ ?_ ?_ c h
  · intro d hnone
    cases hnone
  intro best hbest d hd e he
  have hserved := sliceOf_of_mem hd
  have hnew : some d = some e → sliceOf e = k := fun hde => Option.some.inj hde ▸ hserved
  split at he
  · exact hbest e he
  · split at he
    · exact hbest e he
    · exact hnew he
    · split at he
      · split at he
        · exact hnew he
        · exact hbest e he
      · exact hnew he

theorem State.chooseLine_slice (h : s.chooseLine k = some c) : sliceOf c = k := by
  unfold State.chooseLine at h
  split at h
  · rename_i d hd
    cases h
    exact sliceOf_of_mem (List.mem_of_find?_eq_some hd)
  · exact State.oldestMp_slice h

end

/-! ### The start of a line (R119, R122) -/

section
variable (s : State)

/-- Looking anew at the in-line camera leaves the line in process. -/
theorem State.noteWait_run (k : SliceIx) : ((s.noteWait k).slice k).run = (s.slice k).run := by
  unfold State.noteWait
  split
  · rfl
  · split
    · rw [State.modSlice_slice_self]
    · rfl

/-- The start of a line leaves every port until the line leaves its port's queue and becomes the slice's line in process. -/
theorem State.startLine_eq (c : PortIx) (l : CamLine) : ∃ (u : State) (flags : Nat) (values : List (List (Int × Bool))),
    (keepInv s [.ports]).P u ∧ s.startLine c l = ((u.modPort c fun p => { p with queue := p.queue.tail }).modSlice (sliceOf c) fun z =>
      { z with run := some ⟨localOf c, l, flags, values⟩, waitSince := none }).noteWait (sliceOf c) := by
  generalize ht : s.startLine c l = t
  unfold State.startLine at ht
  extract_lets k e lsn waited raw seen switch live learnt cfg fs entry rows values fell ramp counted g resolved limited stored taken flags at ht
  have hself := keepInv_self s [.ports]
  have hwaited : (keepInv s [.ports]).P waited := by
    dsimp only [waited]
    split
    · exact Inv.ite (State.peak_keeps (keepInv_has rfl) hself) hself
    · exact hself
  have hlive : (keepInv s [.ports]).P live := by
    have hseen : (keepInv s [.ports]).P seen := State.mpSeen_keeps (keepInv_has rfl) hwaited
    dsimp only [live]
    generalize switch = bound
    cases bound with
    | some b => exact State.setLive_keeps (keepInv_has rfl) hseen
    | none => exact hseen
  have hcounted : (keepInv s [.ports]).P counted := State.ffCount_keeps (keepInv_has rfl) (State.ffLine_keeps (keepInv_has rfl) hlive)
  have hlimited : (keepInv s [.ports]).P limited := Inv.ite hcounted
    (State.modFs_keeps (keepInv_has rfl) (State.fsLimited_keeps (keepInv_has rfl) (State.countOd_keeps (keepInv_has rfl) hcounted)))
  have hstored : (keepInv s [.ports]).P stored := Inv.ite hlimited (State.modFs_keeps (keepInv_has rfl) hlimited)
  exact ⟨stored, flags, values, hstored, ht.symm⟩

end

theorem execFsLineStart_takes {s : State} {k : SliceIx} {c : PortIx} {l : CamLine} (ha : s.awake)
    (hstate : s.dev.state.live = true ∨ s.dev.state = .preop) (hidle : (s.slice k).run = none) (hc : s.chooseLine k = some c) (hl : s.lineReady c = some l) :
    execFsLineStart k s = .next (s.startLine c l) := by
  have hawake : s.dev.resetHeld = false := ha
  have hworks : (s.dev.state.live || s.dev.state == .preop) = true := by simpa using hstate
  unfold execFsLineStart
  rw [if_neg (by simp [hawake, hworks, hidle])]
  simp only [hc, hl]

theorem execFsLineWrite_ends {s : State} {k : SliceIx} {r : SliceRun} (ha : s.awake) (hr : (s.slice k).run = some r) :
    execFsLineWrite k s = .next (s.finishLine k r) := by
  have hawake : s.dev.resetHeld = false := ha
  simp [execFsLineWrite, hr, hawake]

/-! ### What a line's end writes to Oasis (R114, R116, R117) -/

section
variable (s : State)

theorem State.oasisPut_byte_outside (m : Mem) (a n : Nat) (bs : List Byte) (h : n < a ∨ a + bs.length ≤ n) :
    (s.oasisPut m a bs).byte? n = m.byte? n := by
  induction bs generalizing m a with
  | nil => rfl
  | cons b r ih =>
    rw [List.length_cons] at h
    rw [State.oasisPut, ih _ _ (by omega)]
    split
    · exact Mem.byte_setByte_other m (by omega) b
    · rfl

theorem State.writeOasis_byte_outside {a n : Nat} {bs : List Byte} (h : n < a ∨ a + bs.length ≤ n) :
    (s.writeOasis a bs).oasis.byte? n = s.oasis.byte? n := s.oasisPut_byte_outside _ _ _ _ h

/-- The elements of a line, `w` bytes each, leave every byte outside them. -/
theorem State.writeElements_byte_outside (base w a : Nat) (elems : List (Nat × Nat)) (h : ∀ x ∈ elems, a < base + x.1 ∨ base + x.1 + w ≤ a) :
    (elems.foldl (fun (t : State) x => t.writeOasis (base + x.1) (leBytes w x.2)) s).oasis.byte? a = s.oasis.byte? a := by
  induction elems generalizing s with
  | nil => rfl
  | cons x r ih =>
    rw [List.foldl_cons, ih _ fun y hy => h y (List.mem_cons_of_mem _ hy)]
    exact s.writeOasis_byte_outside (by rw [leBytes_length]; exact h x List.mem_cons_self)

theorem tagBytes_length (lsn : Nat) (a : TagAcc) (set : Nat) : (tagBytes lsn a set).length = 16 := by
  simp [tagBytes]

/-- Where a line goes depends on the registers alone. -/
theorem State.slotAddr_of_regs {s t : State} (h : t.regs = s.regs) (c : PortIx) (m : Int) : t.slotAddr c m = s.slotAddr c m := by
  unfold State.slotAddr State.extOn State.fsReg State.reg
  rw [h]

end

/-! ### The end of a line (R117) -/

/-- FS_RING_WRPOS of port `c` is `v`, and the Oasis bytes of `spared` are as in `s`. -/
def lineEnded (s : State) (c : PortIx) (v : Int) (spared : Nat → Prop) : Inv :=
  Inv.about [.fsPorts, .oasis] (fun u => (u.fsPort c).wrpos = v ∧ ∀ a, spared a → u.oasis.byte? a = s.oasis.byte? a) fun u t h hu => by
    have hfsPorts : t.fsPorts = u.fsPorts := h .fsPorts (by simp)
    have hoasis : t.oasis = u.oasis := h .oasis (by simp)
    rwa [State.fsPort, hfsPorts, hoasis]

section
variable {s u : State} {c : PortIx} {v : Int} {spared : Nat → Prop}

theorem lineEnded_has {m : List Part} (h : (m.all fun p => !([Part.fsPorts, .oasis].contains p)) = true) : (lineEnded s c v spared).has m :=
  Inv.about_has h

theorem State.modFs_lineEnded {f : FsPort → FsPort} (h : (lineEnded s c v spared).P u)
    (hf : ∀ p, (f p).wrpos = p.wrpos := by intro p; rfl) : (lineEnded s c v spared).P (u.modFs c f) :=
  ⟨(congrArg FsPort.wrpos (State.modFs_fsPort_self ..)).trans ((hf _).trans h.1), h.2⟩

theorem State.ringMark_lineEnded (h : (lineEnded s c v spared).P u) : (lineEnded s c v spared).P (u.ringMark c) :=
  Inv.ite (State.statusEvent_keeps (lineEnded_has rfl) (State.modFs_lineEnded h))
    (Inv.ite (State.modFs_lineEnded h) h)

theorem State.mpFree_lineEnded {n : Nat} (h : (lineEnded s c v spared).P u) : (lineEnded s c v spared).P (u.mpFree c n) :=
  Inv.ite (State.fsStatusEvent_keeps (lineEnded_has rfl) (State.modFs_lineEnded h)) (State.modFs_lineEnded h)

theorem State.ffRampEnd_lineEnded {lsn : Nat} (h : (lineEnded s c v spared).P u) : (lineEnded s c v spared).P (u.ffRampEnd c lsn) :=
  Inv.ite h (State.eventAt_keeps (lineEnded_has rfl) (State.ffLedger_keeps (lineEnded_has rfl) (State.raiseInt_keeps (lineEnded_has rfl)
    (State.countOd_keeps (lineEnded_has rfl) (State.modFs_lineEnded h)))))

/-- The tag of an output line goes to the tag's place and nowhere else. -/
theorem State.writeTag_lineEnded {acc : TagAcc} (htag : ∀ a, spared a → a < (u.slotAddr c acc.m).2 ∨ (u.slotAddr c acc.m).2 + 16 ≤ a)
    (h : (lineEnded s c v spared).P u) : (lineEnded s c v spared).P (u.writeTag c acc) :=
  have hwritten : (lineEnded s c v spared).P (u.writeOasis (u.slotAddr c acc.m).2 (tagBytes (mod48 (acc.m * u.fa)) acc (u.od (Od.fpParamSet c)))) :=
    ⟨h.1, fun a ha => (u.writeOasis_byte_outside (by rw [tagBytes_length]; exact htag a ha)).trans (h.2 a ha)⟩
  State.ringMark_lineEnded (State.modFs_lineEnded hwritten)

end

/-- The Oasis byte at `a` lies outside the elements and the tag of the line in process (R114, R116). -/
def State.lineSpares (s : State) (k : SliceIx) (r : SliceRun) (a : Nat) : Prop :=
  let c := portOf k r.port
  let place := s.slotAddr c (s.outLine (r.line.x - s.along c))
  (∀ x ∈ (s.lineElements c r.line r.values).1, a < place.1 + x.1 ∨ place.1 + x.1 + outBytes (s.od Od.fsOutOutFormat) ≤ a) ∧
    (a < place.2 ∨ place.2 + 16 ≤ a)

/-- The end of a line leaves its slice idle. Before that FS_RING_WRPOS has moved behind the line, and only the line's elements and its tag have been written. -/
theorem State.finishLine_eq (s : State) (k : SliceIx) (r : SliceRun) : ∃ u, s.finishLine k r = u.modSlice k (fun z => { z with run := none }) ∧
    (lineEnded s (portOf k r.port) (r.line.x - s.along (portOf k r.port) + 1) (s.lineSpares k r)).P u := by
  generalize ht : s.finishLine k r = t
  unfold State.finishLine at ht
  extract_lets c l e m fmt base at ht
  rcases hline : s.lineElements c l r.values with ⟨elems, sat⟩
  rw [hline] at ht
  dsimp -zeta only at ht
  extract_lets written old acc marked tagged cost counted busy g resolved told freed ended at ht
  refine ⟨ended, ht.symm, ?_⟩
  have hregs : written.regs = s.regs := keepInv_same (p := .regs)
    (Inv.foldl (I := keepInv s [.regs]) (keepInv_self s _) fun u x hu => State.writeOasis_keeps (keepInv_has rfl) hu) (by simp)
  have hold : old.m = m := by
    dsimp only [old]
    split
    · split
      · assumption
      · rfl
    · rfl
  have hmarked : (lineEnded s c (e + 1) (s.lineSpares k r)).P marked := by
    refine ⟨congrArg FsPort.wrpos (State.modFs_fsPort_self ..), fun a ⟨helems, _⟩ => ?_⟩
    exact s.writeElements_byte_outside base (outBytes fmt) a elems fun x hx => helems x (hline ▸ hx)
  have htagged : (lineEnded s c (e + 1) (s.lineSpares k r)).P tagged := by
    refine Inv.ite (State.writeTag_lineEnded (fun a ⟨_, htag⟩ => ?_) hmarked) hmarked
    rw [State.slotAddr_of_regs (show marked.regs = s.regs from hregs), hold]
    exact htag
  have hbusy : (lineEnded s c (e + 1) (s.lineSpares k r)).P busy := State.count32_keeps (lineEnded_has rfl) (State.count32_keeps (lineEnded_has rfl) htagged)
  have htold : (lineEnded s c (e + 1) (s.lineSpares k r)).P told :=
    Inv.ite hbusy (State.modFs_lineEnded (State.fsLimited_keeps (lineEnded_has rfl) (State.countOd_keeps (lineEnded_has rfl) hbusy)))
  exact State.ffRampEnd_lineEnded (State.mpFree_lineEnded (State.fifoFree_keeps (lineEnded_has rfl) htold))

/-- Settles O19: the start of a line is `startLine` on the port that the slice chooses, the end of a line is `finishLine`. -/
theorem slicesTakeAndEndLines : Obligations.SlicesTakeAndEndLines := by
  unfold Obligations.SlicesTakeAndEndLines
  refine ⟨fun s k c l ha hstate hidle hc hl => ⟨_, execFsLineStart_takes ha hstate hidle hc hl, ?start⟩,
    fun s k r ha hrun => ⟨_, execFsLineWrite_ends ha hrun, ?finish⟩⟩
  case start =>
    obtain rfl := State.chooseLine_slice hc
    obtain ⟨u, flags, values, hu, ht⟩ := s.startLine_eq c l
    rw [ht]
    refine ⟨⟨⟨localOf c, l, flags, values⟩, ?_, portOf_sliceOf c, rfl⟩, ?_⟩
    · rw [State.noteWait_run, State.modSlice_slice_self]
    · rw [State.noteWait_port, State.modSlice_port, State.modPort_port_self, State.port_of_kept hu]
  case finish =>
    obtain ⟨u, ht, hu⟩ := s.finishLine_eq k r
    have hdram : (s.finishLine k r).dram = s.dram :=
      keepInv_same (p := .dram) (State.finishLine_keeps (I := keepInv s [.dram]) (keepInv_has rfl) (keepInv_self s _)) (by simp)
    obtain ⟨hwrpos, hspared⟩ := hu
    refine ⟨?_, ?_, hdram, fun a helems htag => ?_⟩
    · rw [ht, State.modSlice_slice_self]
    · rw [ht]
      exact hwrpos
    · rw [ht]
      exact hspared a ⟨helems, htag⟩

end Sys2Proof.Machine
end

section
/-! PROOFS. The lines of a memory-path camera move to its DRAM ring (R99, R120). -/

namespace Sys2Proof.Machine

/-! ### The bytes of a line in the ring (R120) -/

theorem State.packedLine_length (s : State) (c : PortIx) (l : CamLine) : (s.packedLine c l).length = l.mpBytes := by
  rw [State.packedLine, padTo_length]

section
variable (s : State) (c : PortIx) (off : Nat) (bs : List Byte)

theorem State.mpWrite_dram : (s.mpWrite c off bs).dram =
    (s.dram.write (s.fsReg c Reg.fsMpBaseLo + 2 ^ 32 * s.fsReg c Reg.fsMpBaseHi + off) (bs.take (s.mpSize c - off))).write
      (s.fsReg c Reg.fsMpBaseLo + 2 ^ 32 * s.fsReg c Reg.fsMpBaseHi) (bs.drop (s.mpSize c - off)) := rfl

theorem State.mpWrite_oasis : (s.mpWrite c off bs).oasis = s.oasis := by
  rw [State.mpWrite, State.writeDram_oasis, State.writeDram_oasis]

theorem State.mpWrite_port (d : PortIx) : (s.mpWrite c off bs).port d = s.port d := by
  rw [State.mpWrite, State.writeDram_port, State.writeDram_port]

theorem State.mpWrite_fsPort (d : PortIx) : (s.mpWrite c off bs).fsPort d = s.fsPort d := by
  rw [State.mpWrite, State.writeDram_fsPort, State.writeDram_fsPort]

theorem State.mpWrite_mpSize : (s.mpWrite c off bs).mpSize c = s.mpSize c := by
  rw [State.mpSize, State.mpSize, State.mpWrite, State.writeDram_reg, State.writeDram_reg]

end

/-- Two writes, of what fits before the ring's end and of the rest at its start, leave every byte outside both. -/
theorem Mem.byte_write_ring (m : Mem) {lo hi a : Nat} {bs : List Byte} {n room : Nat} (hn : bs.length = n) (hhi : a < hi ∨ hi + min n room ≤ a)
    (hlo : a < lo ∨ lo + (n - room) ≤ a) : ((m.write hi (bs.take room)).write lo (bs.drop room)).byte? a = m.byte? a := by
  rw [Mem.byte_write_outside _ lo, Mem.byte_write_outside _ hi]
  · rwa [List.length_take, hn, Nat.min_comm]
  · rwa [List.length_drop, hn]

/-! ### The store of a line (R99) -/

/-- A line's bytes are written at the next offset of its ring, and the ring moves on. -/
def State.ringStored (s : State) (c : PortIx) (l : CamLine) : State :=
  let off := (s.fsPort c).mpNext
  let s := s.mpWrite c off (s.packedLine c l)
  s.modFs c fun p => { p with mpNext := (off + l.mpBytes) % max 1 (s.mpSize c) }

/-- The line's place in the queue then says where it lies, and its FIFO bytes are free. -/
def State.storeLine (s : State) (c : PortIx) (l : CamLine) : State :=
  let off := (s.fsPort c).mpNext
  ((s.ringStored c l).modPort c fun p => { p with
    queue := p.queue.map fun y => if y.x = l.x then { y with stored := some off, fifoBytes := 0, rows := [] } else y }).fifoFree c l.fifoBytes

theorem execMemoryPathStore_stores {s : State} {c : PortIx} {l : CamLine} (ha : s.awake) (hc : s.isMp c = true)
    (hl : ((s.port c).queue.find? fun y => y.mpBytes != 0 && y.stored.isNone) = some l) : execMemoryPathStore c s = .next (s.storeLine c l) := by
  have hawake : s.dev.resetHeld = false := ha
  unfold execMemoryPathStore
  rw [if_neg (by simp [hawake, hc]), hl]
  rfl

/-- Freeing FIFO bytes changes the level and the high mark of the FIFO alone. -/
theorem State.fifoFree_port (u : State) (c : PortIx) (n : Nat) :
    ∃ high, (u.fifoFree c n).port c = { u.port c with fifo := (u.port c).fifo - n, fifoHigh := high } := by
  unfold State.fifoFree
  extract_lets f down t
  have hport : t.port c = { u.port c with fifo := f, fifoHigh := (u.port c).fifoHigh && !down } := State.modPort_port_self ..
  split
  · exact ⟨_, (State.camStatus_port ..).trans hport⟩
  · exact ⟨_, hport⟩

section
variable (s : State) (c : PortIx) (l : CamLine)

theorem State.ringStored_port (d : PortIx) : (s.ringStored c l).port d = s.port d := by
  rw [State.ringStored, State.modFs_port, State.mpWrite_port]

theorem State.ringStored_mpNext : ((s.ringStored c l).fsPort c).mpNext = ((s.fsPort c).mpNext + l.mpBytes) % max 1 (s.mpSize c) := by
  rw [State.ringStored, State.modFs_fsPort_self, State.mpWrite_mpSize]

theorem State.storeLine_port : ∃ high, (s.storeLine c l).port c = { s.port c with
    queue := (s.port c).queue.map fun y => if y.x = l.x then { y with stored := some (s.fsPort c).mpNext, fifoBytes := 0, rows := [] } else y
    fifo := (s.port c).fifo - l.fifoBytes
    fifoHigh := high } := by
  obtain ⟨high, h⟩ := State.fifoFree_port _ c l.fifoBytes
  rw [State.modPort_port_self, State.ringStored_port] at h
  exact ⟨high, h⟩

/-- Once the ring has its line, the slice part of the port and both memories stay. -/
theorem State.storeLine_kept : (keepInv (s.ringStored c l) [.fsPorts, .dram, .oasis]).P (s.storeLine c l) :=
  State.fifoFree_keeps (keepInv_has rfl) (State.modPort_keeps (keepInv_has rfl) (keepInv_self _ _))

end

/-- Settles O20: the command is `storeLine` on the oldest complete line of the port. -/
theorem memoryPathLinesAreStored : Obligations.MemoryPathLinesAreStored := by
  unfold Obligations.MemoryPathLinesAreStored
  intro s c l ha hc hl
  refine ⟨_, execMemoryPathStore_stores ha hc hl, ?_⟩
  beta_reduce
  extract_lets base off room
  obtain ⟨high, hport⟩ := s.storeLine_port c l
  have hkept := s.storeLine_kept c l
  have hfs : (s.storeLine c l).fsPorts = (s.ringStored c l).fsPorts := keepInv_same hkept (p := .fsPorts) (by simp)
  have hoasis : (s.storeLine c l).oasis = (s.ringStored c l).oasis := keepInv_same hkept (p := .oasis) (by simp)
  have hdram : (s.storeLine c l).dram = (s.ringStored c l).dram := keepInv_same hkept (p := .dram) (by simp)
  rw [State.ringStored, State.modFs_oasis, State.mpWrite_oasis] at hoasis
  rw [State.ringStored, State.modFs_dram, State.mpWrite_dram] at hdram
  refine ⟨congrArg Port.queue hport, congrArg Port.fifo hport, ?_, hoasis, hdram, fun a hhi hlo => ?_⟩
  · rw [State.fsPort, hfs]
    exact s.ringStored_mpNext c l
  · rw [hdram]
    exact Mem.byte_write_ring _ (s.packedLine_length c l) hhi hlo

end Sys2Proof.Machine
end

section
/-! PROOFS. The calibration tables: their window, commit, copy and reset (R122, R125, R126, R129). -/

namespace Sys2Proof.Machine

/-! ### The table window (R125, R129) -/

/-- The port whose table the window shows: the low bits of FS_TBL_SEL. -/
def State.windowPort (s : State) (k : SliceIx) : PortIx := portOf k ⟨s.reg (Reg.fsTblSel k) % 4, Nat.mod_lt _ (by decide)⟩

/-- FS_TBL_INDEX moves on to the next entry. -/
def State.windowNext (s : State) (k : SliceIx) : State := s.setReg (Reg.fsTblIndex k) ((s.reg (Reg.fsTblIndex k) + 1) % 2 ^ 17)

section
variable {s : State} {k : SliceIx}

theorem State.windowNext_index (hs : keysRise s.regs = true) : (s.windowNext k).reg (Reg.fsTblIndex k) = (s.reg (Reg.fsTblIndex k) + 1) % 2 ^ 17 :=
  s.reg_setReg_self _ _ hs

/-- A write through the window may not be made: the table is copied or reset, or the index lies beyond it (R125, R126, R129). -/
def State.windowShut (s : State) (k : SliceIx) : Prop :=
  (s.fsPort (s.windowPort k)).copyBusy = true ∨ (s.slice k).initBusy = true ∨ s.tableEntries (s.windowPort k) ≤ s.reg (Reg.fsTblIndex k)

theorem State.windowShut_iff : ((s.fsPort (s.windowPort k)).copyBusy || (s.slice k).initBusy ||
    decide (s.tableEntries (s.windowPort k) ≤ s.reg (Reg.fsTblIndex k))) = true ↔ s.windowShut k := by
  simp only [State.windowShut, Bool.or_eq_true, decide_eq_true_eq, or_assoc]

theorem execFsTblDataAccess_refused (ha : s.awake) (hr : s.dev.state.ready = true) (v : W32) (h : s.windowShut k) :
    execFsTblDataAccess k (some v) s = .next ((s.windowNext k).raiseInt (.fs k) 0x80) := by
  have hawake : s.dev.resetHeld = false := ha
  unfold execFsTblDataAccess
  rw [if_neg (by simp [hawake, hr])]
  exact congrArg Host.Outcome.next (if_pos (State.windowShut_iff.mpr h))

theorem execFsTblDataAccess_stored (ha : s.awake) (hr : s.dev.state.ready = true) (v : W32) (h : ¬ s.windowShut k) :
    execFsTblDataAccess k (some v) s = .next ((s.windowNext k).modFs (s.windowPort k) fun p =>
      { p with mirror := p.mirror.set tableDefault (s.reg (Reg.fsTblIndex k)) v.toNat }) := by
  have hawake : s.dev.resetHeld = false := ha
  unfold execFsTblDataAccess
  rw [if_neg (by simp [hawake, hr])]
  exact congrArg Host.Outcome.next (if_neg (mt State.windowShut_iff.mp h))

/-- A read through the window sends an entry of the live or the mirage table. -/
theorem execFsTblDataAccess_read (ha : s.awake) (hr : s.dev.state.ready = true) (hi : s.reg (Reg.fsTblIndex k) < s.tableEntries (s.windowPort k)) :
    execFsTblDataAccess k none s = .next ((s.windowNext k).send (.readData
      ((if bitAt (s.reg (Reg.fsTblSel k)) 8 then (s.fsPort (s.windowPort k)).live else (s.fsPort (s.windowPort k)).mirror).get tableDefault
        (s.reg (Reg.fsTblIndex k))))) := by
  have hawake : s.dev.resetHeld = false := ha
  unfold execFsTblDataAccess
  rw [if_neg (by simp [hawake, hr])]
  exact congrArg Host.Outcome.next (if_neg (mt of_decide_eq_true (Nat.not_le.mpr hi)))

/-- A refused write moves the window on, raises TBL_ERR and changes no table. -/
theorem State.windowNext_tblErr (hs : keysRise s.regs = true) :
    ((s.windowNext k).raiseInt (.fs k) 0x80).reg (Reg.fsTblIndex k) = (s.reg (Reg.fsTblIndex k) + 1) % 2 ^ 17 ∧
    ((s.windowNext k).raiseInt (.fs k) 0x80).fsPorts = s.fsPorts ∧
    bitAt (((s.windowNext k).raiseInt (.fs k) 0x80).reg (Reg.fsIntStatus k)) 7 = true := by
  have hstatus : (Block.fs k).status ≠ Reg.glbMsixSent := by simp only [Block.status, Reg.fsIntStatus, Reg.glbMsixSent]; omega
  have hindex : Reg.fsTblIndex k ≠ (Block.fs k).status := by simp only [Block.status, Reg.fsIntStatus, Reg.fsTblIndex]; omega
  have hindex' : Reg.fsTblIndex k ≠ Reg.glbMsixSent := by simp only [Reg.fsTblIndex, Reg.glbMsixSent]; omega
  refine ⟨?_, State.raiseInt_fsPorts .., ?_⟩
  · rw [State.raiseInt_reg _ hindex hindex', State.windowNext_index hs]
  · exact (congrArg (bitAt · 7) (State.raiseInt_status _ (State.setReg_rise _ hs) hstatus)).trans (bitAt_lor_self _ (by decide))

end

/-! ### Tables go live (R122, R125) -/

/-- A port's slice part when learning stops on it. -/
def FsPort.ffStopped (p : FsPort) : FsPort := { p with ff := { p.ff with stage := .off, lines := 0, counted := 0, values := [] } }

/-- A port's slice part when its mirage table goes live. -/
def FsPort.tableLive (p : FsPort) : FsPort := { p.ffStopped with live := p.mirror, copyBusy := true }

section
variable (s : State) (c : PortIx)

theorem State.fsStatusAt_fsPort (lsn b : Nat) (d : PortIx) : (s.fsStatusAt lsn c b).fsPort d = s.fsPort d :=
  congrArg (fun v : Vector FsPort 16 => v[d]) (keepInv_same (p := .fsPorts)
    (State.fsStatusAt_keeps (I := keepInv s [.fsPorts]) (keepInv_has rfl) (keepInv_self s _)) (by simp))

theorem State.ffStop_fsPort (cause : Nat) : (s.ffStop c cause).fsPort c = (s.fsPort c).ffStopped := by
  unfold State.ffStop
  extract_lets f t
  have hstopped : t.fsPort c = (s.fsPort c).ffStopped := State.modFs_fsPort_self ..
  split
  · rw [State.eventAt_fsPort, State.ffLedger, State.ledgerAppend_fsPort, State.raiseInt_fsPort, hstopped]
  · exact hstopped

theorem State.tableLive_fsPort (lsn : Nat) : (s.tableLive c lsn).fsPort c = (s.fsPort c).tableLive := by
  unfold State.tableLive
  dsimp only
  rw [State.fsStatusAt_fsPort, State.ledgerAppend_fsPort, State.modFs_fsPort_self, State.ffStop_fsPort]
  rfl

theorem State.tableLive_state (lsn : Nat) : (s.tableLive c lsn).dev.state = s.dev.state :=
  keepInv_same (State.tableLive_keeps (I := keepInv s [.devState]) (keepInv_has rfl) (keepInv_self s _)) (p := .devState) (by simp)

end

theorem State.ffStop_elsewhere {s u : State} {c d : PortIx} (hd : d ≠ c) {cause : Nat} (h : (elsewhere s d).P u) : (elsewhere s d).P (u.ffStop c cause) := by
  have hstopped : ∀ {f : FsPort → FsPort}, (elsewhere s d).P (u.modFs c f) := State.modFs_elsewhere hd h
  exact Inv.ite (State.eventAt_keeps (elsewhere_has rfl) (State.ffLedger_keeps (elsewhere_has rfl) (State.raiseInt_keeps (elsewhere_has rfl) hstopped))) hstopped

theorem State.tableLive_elsewhere {s u : State} {c d : PortIx} (hd : d ≠ c) {lsn : Nat} (h : (elsewhere s d).P u) : (elsewhere s d).P (u.tableLive c lsn) :=
  State.fsStatusAt_keeps (elsewhere_has rfl) (State.ledgerAppend_keeps (elsewhere_has rfl) (State.modFs_elsewhere hd (State.ffStop_elsewhere hd h)))

/-! ### Commit (R122) -/

/-- The commit of the table of one port of a mask. -/
def State.commitTable (k : SliceIx) (mask : BitVec 4) (u : State) (i : Fin 4) : State :=
  if !mask.getLsbD i then u
  else if u.dev.state = .preop then u.tableLive (portOf k i) u.web.lastLsn
  else u.modFs (portOf k i) fun p => { p with tablePending := true }

theorem State.commitTables_eq (s : State) (k : SliceIx) (mask : BitVec 4) :
    s.commitTables k mask = (List.finRange 4).foldl (State.commitTable k mask) s := rfl

/-- A fold passes one element once: what holds until then makes what holds from then on. -/
theorem foldl_once {α : Type} {J P : State → Prop} {f : State → α → State} {l : List α} {a : α} (hl : l.Nodup) (ha : a ∈ l)
    (hbefore : ∀ u x, x ≠ a → J u → J (f u x)) (hmakes : ∀ u, J u → P (f u a)) (hafter : ∀ u x, x ≠ a → P u → P (f u x)) {s : State} (hs : J s) :
    P (l.foldl f s) := by
  obtain ⟨l₁, l₂, rfl⟩ := List.append_of_mem ha
  obtain ⟨hl₁, hl₂⟩ : a ∉ l₁ ∧ a ∉ l₂ := by
    rw [List.nodup_middle, List.nodup_cons, List.mem_append] at hl
    exact not_or.mp hl.1
  rw [List.foldl_append, List.foldl_cons]
  have hreached : J (l₁.foldl f s) := List.foldlRecOn l₁ f hs fun u hu x hx => hbefore u x (ne_of_mem_of_not_mem hx hl₁) hu
  exact List.foldlRecOn l₂ f (hmakes _ hreached) fun u hu x hx => hafter u x (ne_of_mem_of_not_mem hx hl₂) hu

section
variable {s : State} {k : SliceIx} {mask : BitVec 4}

/-- The commit of one port's table leaves every other port. -/
theorem State.commitTable_other {u : State} {i l : Fin 4} (hi : i ≠ l) : (u.commitTable k mask i).fsPort (portOf k l) = u.fsPort (portOf k l) := by
  have hd : portOf k l ≠ portOf k i := fun h => hi (portOf_injective h).symm
  have hself := elsewhere_self u (portOf k l)
  exact (Inv.ite (I := elsewhere u (portOf k l)) hself (Inv.ite (State.tableLive_elsewhere hd hself) (State.modFs_elsewhere hd hself))).2

theorem State.commitTable_state (u : State) (i : Fin 4) : (u.commitTable k mask i).dev.state = u.dev.state := by
  unfold State.commitTable
  split
  · rfl
  · split
    · exact u.tableLive_state _ _
    · rfl

/-- A port's slice part after the commit of its table. -/
def FsPort.committed (p : FsPort) (named preop : Bool) : FsPort :=
  if !named then p else if preop then p.tableLive else { p with tablePending := true }

theorem State.commitTable_own (u : State) (l : Fin 4) :
    (u.commitTable k mask l).fsPort (portOf k l) = (u.fsPort (portOf k l)).committed (mask.getLsbD l) (u.dev.state == .preop) := by
  unfold State.commitTable FsPort.committed
  split
  · rfl
  · by_cases h : u.dev.state = .preop
    · rw [if_pos h, if_pos (by rw [h]; rfl), State.tableLive_fsPort]
    · rw [if_neg h, if_neg (by simpa using h), State.modFs_fsPort_self]

theorem State.commitTables_fsPort (s : State) (k : SliceIx) (mask : BitVec 4) (l : Fin 4) :
    (s.commitTables k mask).fsPort (portOf k l) = (s.fsPort (portOf k l)).committed (mask.getLsbD l) (s.dev.state == .preop) := by
  rw [State.commitTables_eq]
  refine foldl_once (J := fun u => u.fsPort (portOf k l) = s.fsPort (portOf k l) ∧ u.dev.state = s.dev.state)
    (P := fun u => u.fsPort (portOf k l) = (s.fsPort (portOf k l)).committed (mask.getLsbD l) (s.dev.state == .preop))
    (List.nodup_finRange 4) (List.mem_finRange l) ?_ ?_ ?_ ⟨rfl, rfl⟩
  · exact fun u i hi ⟨hport, hstate⟩ => ⟨(State.commitTable_other hi).trans hport, (u.commitTable_state i).trans hstate⟩
  · exact fun u ⟨hport, hstate⟩ => by rw [State.commitTable_own, hport, hstate]
  · exact fun u i hi hport => (State.commitTable_other hi).trans hport

end

theorem execFsTblCommit_ready {s : State} (ha : s.awake) (hr : s.dev.state.ready = true) (k : SliceIx) (mask : BitVec 4) :
    execFsTblCommit k mask s = .next (s.commitTables k mask) := by
  have hawake : s.dev.resetHeld = false := ha
  exact congrArg Host.Outcome.next (if_neg (by simp [hawake, hr]))

/-- Settles O21, clause by clause: the window's accesses by their equations, the commit port by port. -/
theorem calibrationTables : Obligations.CalibrationTables := by
  unfold Obligations.CalibrationTables
  refine ⟨fun s k v hs ha hr => ?write, fun s k hs ha hr hi => ⟨_, execFsTblDataAccess_read ha hr hi, rfl, ?read, rfl⟩,
    fun s k mask ha hr => ⟨_, execFsTblCommit_ready ha hr k mask, fun l => ?commit⟩,
    fun s c ha hbusy => ⟨_, (State.act_awake ha _ : execTableCopyDone c s = _), ?copy⟩,
    fun s k ha => ⟨_, (State.act_awake ha _ : execTableInitDone k s = _), State.modSlice_slice_self .., rfl⟩⟩
  case write =>
    have hregs := State.wf_regs hs
    by_cases hshut : s.windowShut k
    · obtain ⟨hindex, htables, herr⟩ := State.windowNext_tblErr hregs
      exact ⟨_, execFsTblDataAccess_refused ha hr v hshut, hindex, (if_pos hshut).mpr ⟨htables, herr⟩⟩
    · exact ⟨_, execFsTblDataAccess_stored ha hr v hshut, State.windowNext_index hregs, (if_neg hshut).mpr (State.modFs_fsPort_self ..)⟩
  case read => exact State.windowNext_index (State.wf_regs hs)
  case commit =>
    have hport := s.commitTables_fsPort k mask l
    split
    · rename_i hunnamed
      rw [hport, hunnamed]
      rfl
    · rename_i hnamed
      rw [Bool.not_eq_false] at hnamed
      split
      · rename_i hpreop
        rw [hport, hnamed, hpreop]
        exact ⟨rfl, rfl, rfl⟩
      · rename_i hlive
        rw [hport, hnamed, beq_false_of_ne hlive]
        rfl
  case copy =>
    rw [if_pos hbusy]
    exact State.modFs_fsPort_self ..

end Sys2Proof.Machine
end

section
/-! PROOFS. What a tile instruction that may issue finds, and what a compute instruction does to the registers outside the cores' blocks
(R182, R226, R241, R271). -/

namespace Sys2Proof.Machine

/-! ### Issue -/

theorem State.nextInstr_tile {s : State} {k : CoreIx} {t : Tile} {p : Prog} {w : Nat} (h : s.nextInstr k = some (t, p, w)) : (s.core k).tile = some t := by
  unfold State.nextInstr at h
  split at h
  case h_1 t' _ p' htile _ =>
    split at h
    · obtain ⟨rfl, -, -⟩ := Prod.mk.injEq .. ▸ Option.some.inj h
      exact htile
    · cases h
  case h_2 => cases h

theorem issueState_tile {s : State} {k : CoreIx} {op : Nat} {t : Tile} {w : Nat} (h : (s.core k).tile = some t) :
    ((issueState s k op t w).core k).tile = some (issueTile s k t w) := by
  simp only [issueState, State.retire, State.modCore_core_self, h, issueTile]

/-- An instruction that may issue is carried out on its tile, in the state as it finds it. -/
theorem State.issue_of_mayIssue {s : State} {k : CoreIx} {op : Nat} {t : Tile} {p : Prog} {w : Nat} (h : mayIssue s k op t p w)
    (f : State → Tile → Prog → Nat → State) : s.issue k op f = f (issueState s k op t w) (issueTile s k t w) p w := by
  obtain ⟨hnext, hop, hwait, hphase, hdep, hroom⟩ := h
  have htile := issueState_tile (op := op) (w := w) (State.nextInstr_tile hnext)
  unfold issueState at htile ⊢
  unfold State.issue
  simp only [hnext, hop, hwait, hphase, hdep, hroom, htile, bne_self_eq_false, Option.isSome_none, Bool.not_true, Bool.or_self,
    Bool.false_eq_true, if_false]

theorem issueState_reg (s : State) (k : CoreIx) (op : Nat) (t : Tile) (w n : Nat) : (issueState s k op t w).reg n = s.reg n := rfl

theorem Core.unitsOf_tdet {c : Core} {w : Nat} (h : iOp w = 0x21) : c.unitsOf w = [unitDet] := by
  simp only [Core.unitsOf, h]

/-! ### What a compute instruction reads -/

/-- Without a single-bit error in the core's tile memory nothing is corrected. -/
theorem State.tmCorrected_of_none {s : State} {k : CoreIx} (h : (s.core k).tmSingle = []) (t : Tile) (cells : List (Nat × Nat)) :
    s.tmCorrected k t cells = s := by
  simp [State.tmCorrected, State.tmCorrectedAt, h]

/-- Without a tracked descriptor no slot is needed. -/
theorem State.needTracked_of_untracked {p : Prog} {w : Nat} (h : ∀ x ∈ iDescs w, (x.1 != 0xFF && dKind (p.desc x.1) == 2) = false) (s : State) (t : Tile) :
    s.needTracked t p w = s := by
  unfold State.needTracked
  revert h
  induction iDescs w with
  | nil => exact fun _ => rfl
  | cons x r ih =>
    intro h
    rw [List.foldl_cons, if_neg (by simp [h x List.mem_cons_self])]
    exact ih fun y hy => h y (List.mem_cons_of_mem _ hy)

theorem State.tmCorrected_cores (s : State) (k : CoreIx) (t : Tile) (cells : List (Nat × Nat)) : (s.tmCorrected k t cells).cores = s.cores :=
  keepInv_same (State.tmCorrected_keeps (keepInv_has rfl) (keepInv_self s [.cores])) (p := .cores) (by simp)

theorem State.readsPoison_of_cores {s u : State} (h : u.cores = s.cores) (k : CoreIx) (reads : List (Nat × List (Nat × Nat))) :
    u.readsPoison k reads = s.readsPoison k reads := by
  have hcore : u.core k = s.core k := congrArg (fun v : Vector Core 32 => v[k]) h
  simp only [State.readsPoison, hcore]

theorem State.readsParity_of_cores {s u : State} (h : u.cores = s.cores) (k : CoreIx) (w : Nat) : u.readsParity k w = s.readsParity k w := by
  have hcore : u.core k = s.core k := congrArg (fun v : Vector Core 32 => v[k]) h
  simp only [State.readsParity, hcore]

/-- A compute instruction that reads no bad word and meets no resource fault takes its effect in the state u, where what its reads correct is counted and
its tracked descriptors have their slots. -/
theorem State.compute_of_sound {s u : State} {k : CoreIx} {t : Tile} {p : Prog} {w : Nat} {v : View} {reads : List (Nat × List (Nat × Nat))} {f : View → Fx}
    (hpoison : s.readsPoison k reads = none) (hparity : s.readsParity k w = none) (hfault : (f v).fault = none)
    (hu : (s.tmCorrected k t (reads.flatMap Prod.snd)).needTracked t p w = u) (index : Nat) :
    s.compute k t p w index v reads f = (u.applyFx k w (f v)).countFree (computeStalls k (u.sandTop != 0) (iOp w)) := by
  have hcores := s.tmCorrected_cores k t (reads.flatMap Prod.snd)
  simp only [State.compute, State.readsPoison_of_cores hcores, hpoison, State.readsParity_of_cores hcores, hparity, hfault, hu]

/-! ### Registers outside the cores' blocks -/

section
variable {n : Nat}

theorem State.countFree_reg {offs : List Nat} (h : n ∉ offs) (s : State) : (s.countFree offs).reg n = s.reg n := by
  unfold State.countFree
  induction offs generalizing s with
  | nil => rfl
  | cons o r ih =>
    exact (ih (List.not_mem_of_not_mem_cons h) _).trans (State.reg_setReg_other _ (List.ne_of_not_mem_cons h) _)

theorem State.count64_reg_other {o : Nat} (h : n ≠ o) (s : State) (m : Nat) : (s.count64 o m).reg n = s.reg n := State.reg_setReg_other _ h _

theorem State.countQ_reg (s : State) (q : QCount) : (s.countQ q).reg n = s.reg n := by
  simp only [State.countQ, State.countOd_reg]

/-- The counters of an instruction's effect lie in its core's block. -/
theorem State.applyFx_reg (hn : 0x01800000 ≤ n) (s : State) (k : CoreIx) (w : Nat) (f : Fx) : (s.applyFx k w f).reg n = s.reg n := by
  have hk := k.isLt
  have hmac : n ≠ Reg.coreMacCount k := by unfold Reg.coreMacCount; omega
  have hloads : n ≠ Reg.coreStationaryLoads k := by unfold Reg.coreStationaryLoads; omega
  have hvec : n ≠ Reg.coreVecSat k := by unfold Reg.coreVecSat; omega
  simp only [State.applyFx, State.reg, State.modTile_regs, State.modCore_regs]
  exact (State.count64_reg_other hvec _ _).trans ((State.count64_reg_other hloads _ _).trans
    ((State.count64_reg_other hmac _ _).trans (State.countQ_reg ..)))

/-- So do its stalls and waits. -/
theorem notMem_computeStalls (hn : 0x01800000 ≤ n) (k : CoreIx) (fill : Bool) (op : Nat) : n ∉ computeStalls k fill op := by
  have hk := k.isLt
  unfold computeStalls
  split <;> cases fill <;>
    simp [Reg.coreBankConflicts, Reg.corePartialStall, Reg.coreFullStall, Reg.coreDrainWait, Reg.coreSandCycles] <;> omega

theorem State.launch_reg (s : State) (k : CoreIx) (w : Nat) (us : List Nat) (ranges regions : List (Nat × Nat)) (waits : Bool) :
    (s.launch k w us ranges regions waits).reg n = s.reg n := rfl

/-- A sound compute instruction without a tracked descriptor, on a core whose tile memory has no single-bit error, leaves every register outside the
cores' blocks. -/
theorem State.runFx_reg (hn : 0x01800000 ≤ n) {s : State} {k : CoreIx} {t : Tile} {p : Prog} {w : Nat} {f : View → Fx}
    (hsound : let v := s.view k t p ((s.core k).unitsOf w)
      sound s k v w (f v))
    (hsingle : (s.core k).tmSingle = []) (hplain : ∀ x ∈ iDescs w, (x.1 != 0xFF && dKind (p.desc x.1) == 2) = false) :
    (s.runFx k t p w f).reg n = s.reg n := by
  obtain ⟨hpoison, hparity, hfault⟩ := hsound
  have hready (cells : List (Nat × Nat)) : (s.tmCorrected k t cells).needTracked t p w = s := by
    rw [State.tmCorrected_of_none hsingle, State.needTracked_of_untracked hplain]
  rw [State.runFx, State.launch_reg, State.compute_of_sound hpoison hparity hfault (hready _),
    State.countFree_reg (notMem_computeStalls hn k _ _), State.applyFx_reg hn]

end

end Sys2Proof.Machine
end

section
/-! PROOFS. TDET and DET_ANCHOR_ERR (R282, R284, R298): a good anchor table leaves the register, also in a state in its canonical form in which the
register stands above 32 bits, where the clause on TDET asks for the largest 32-bit value. -/

namespace Sys2Proof.Machine

/-- What a TDET that issues sees of its core. -/
def detView (s : State) (k : CoreIx) (t : Tile) (p : Prog) (w : Nat) : View := (issueState s k 0x21 t w).view k (issueTile s k t w) p [unitDet]

/-- The effect of a TDET on its core. -/
def detFx (p : Prog) (w : Nat) (v : View) : Fx :=
  let d := p.desc (bits w 227 220)
  (v.fx.slotCheck v [d]).count (v.counts false d (List.range (dC d)) (List.range (bits w 211 196 + 1)))

section
variable {s : State} {k : CoreIx} {t : Tile} {p : Prog} {w : Nat} {l : List Box}

/-- A TDET whose anchor table is good leaves the registers as its run does. -/
theorem execTdet_found (ha : s.awake) (hi : mayIssue s k 0x21 t p w) (hfound : (issueState s k 0x21 t w).candidates (detView s k t p w) w = some l) :
    ∃ r, exec (.tdet k) s = .next r ∧ r.regs = ((issueState s k 0x21 t w).runFx k (issueTile s k t w) p w (detFx p w)).regs := by
  refine ⟨_, (State.act_awake ha _ : execTdet k s = _), ?_⟩
  rw [State.issue_of_mayIssue hi]
  dsimp only
  split
  · rfl
  · rename_i hnone
    cases hnone.symm.trans hfound
  · rfl

/-- With a good anchor table, tile memory without single-bit errors and no tracked operand, TDET leaves DET_ANCHOR_ERR. -/
theorem execTdet_anchorErr (ha : s.awake) (hi : mayIssue s k 0x21 t p w)
    (hsound : sound (issueState s k 0x21 t w) k (detView s k t p w) w (detFx p w (detView s k t p w)))
    (hfound : (issueState s k 0x21 t w).candidates (detView s k t p w) w = some l)
    (hsingle : ((issueState s k 0x21 t w).core k).tmSingle = []) (hplain : ∀ x ∈ iDescs w, (x.1 != 0xFF && dKind (p.desc x.1) == 2) = false) :
    ∃ r, exec (.tdet k) s = .next r ∧ r.reg Reg.detAnchorErr = s.reg Reg.detAnchorErr := by
  obtain ⟨r, hr, hregs⟩ := execTdet_found ha hi hfound
  obtain ⟨-, hop, -⟩ := hi
  have hunits := Core.unitsOf_tdet (c := (issueState s k 0x21 t w).core k) hop
  refine ⟨r, hr, ?_⟩
  calc r.reg Reg.detAnchorErr
      = ((issueState s k 0x21 t w).runFx k (issueTile s k t w) p w (detFx p w)).reg Reg.detAnchorErr :=
        congrArg (fun m : Map => m.get (regDefault Reg.detAnchorErr) Reg.detAnchorErr) hregs
    _ = (issueState s k 0x21 t w).reg Reg.detAnchorErr := State.runFx_reg (by decide) (hunits ▸ hsound) hsingle hplain
    _ = s.reg Reg.detAnchorErr := issueState_reg ..

end

/-! ### The counterexample -/

/-- A TDET of DFMT 2 with one class, whose head and anchor table are descriptor 0. -/
def tdetWord : Nat := 0x21 * 2 ^ 248 + 2 ^ 246 + 2 * 2 ^ 228

/-- A tile program of that instruction and descriptor 0: one position of three BF16 channels at address 0, under PREG 0. -/
def tdetProgram : Prog :=
  leBytes 2 1 ++ leBytes 2 1 ++ [0, 1] ++ leBytes 2 1 ++ List.replicate 248 0 ++
  ([0, 0, 0, 0x80, 0x20] ++ List.replicate 22 0 ++ [0x10] ++ List.replicate 4 0) ++ leBytes 32 tdetWord

/-- A tile at that instruction. -/
def tdetTile : Tile :=
  { tsn := 1, tag := 9, g := 0, part2 := false, stripe := 0, firstLsn := 0, opes := 0xFF, pc := 0, commit := .undecided, wait := none, subst := [],
    flights := [], ctxq := [], stored := [], draining := [], stats := [], staged := [], cands := [], tdet := false, dataError := false }

/-- An anchor table of one anchor with strides 1 (R284), at address 0. -/
def goodAnchors : Mem := Mem.write [] 0 ([1, 0, 1, 0, 1] ++ List.replicate 15 0)

/-- The tile on core 0, with PREG 0 empty, so that no position is on. DET_ANCHOR_ERR holds 2^32. The register is read-only and its
count saturates at 2^32 - 1 (R298); the obligation is about every state in its canonical form all the same. -/
def State.wideAnchorErr : State :=
  { State.reset.modCore 0 fun c => { c with tm := goodAnchors, prog := some (9, tdetProgram), tile := some tdetTile } with
    regs := [(Reg.detAnchorErr, 2 ^ 32)] }

theorem State.wideAnchorErr_wf : State.wideAnchorErr.wf = true := by decide

theorem State.wideAnchorErr_mayIssue : mayIssue .wideAnchorErr 0 0x21 tdetTile tdetProgram tdetWord :=
  ⟨rfl, rfl, rfl, rfl, rfl, rfl⟩

theorem State.wideAnchorErr_sound :
    let v := detView .wideAnchorErr 0 tdetTile tdetProgram tdetWord
    sound (issueState .wideAnchorErr 0 0x21 tdetTile tdetWord) 0 v tdetWord (detFx tdetProgram tdetWord v) := by
  unfold sound
  decide

/-- The anchor table is good, and the one position is off. -/
theorem State.wideAnchorErr_candidates :
    (issueState .wideAnchorErr 0 0x21 tdetTile tdetWord).candidates (detView .wideAnchorErr 0 tdetTile tdetProgram tdetWord) tdetWord = some [] := by
  decide

/-- TDET leaves the register at 2^32. -/
theorem State.wideAnchorErr_tdet : ∃ r, exec (.tdet 0) .wideAnchorErr = .next r ∧ r.reg Reg.detAnchorErr = 2 ^ 32 := by
  obtain ⟨r, hr, hreg⟩ := execTdet_anchorErr (s := .wideAnchorErr) rfl State.wideAnchorErr_mayIssue State.wideAnchorErr_sound
    State.wideAnchorErr_candidates rfl (by decide)
  exact ⟨r, hr, hreg.trans (by decide)⟩

/-- Refutes O31: with a good anchor table TDET leaves DET_ANCHOR_ERR, and the first clause asks for satAdd 32 of it and 0, which is less where the register
stands above 32 bits, as in `State.wideAnchorErr`. The clause lacks the premise that the register holds one of its 32-bit values. -/
theorem not_detectionRuns : ¬ Obligations.DetectionRuns := by
  unfold Obligations.DetectionRuns
  rintro ⟨htdet, -, -⟩
  obtain ⟨t, ht, -, -, hsat⟩ :=
    htdet .wideAnchorErr 0 tdetTile tdetProgram tdetWord State.wideAnchorErr_wf rfl State.wideAnchorErr_mayIssue State.wideAnchorErr_sound
  obtain ⟨r, hr, hkept⟩ := State.wideAnchorErr_tdet
  obtain rfl := Host.Outcome.next.inj (ht.symm.trans hr)
  have hwidth : t.reg Reg.detAnchorErr ≤ 2 ^ 32 - 1 := hsat.trans_le (Nat.min_le_right _ _)
  omega

end Sys2Proof.Machine
end

section
/-! PROOFS. Suppression (R288): what a pass has kept, suppressed and cut after each candidate. -/

namespace Sys2Proof.Machine

/-- What holds of kept boxes, suppressed and cut after the candidates `cands`: the bound, the order, the distance and the count. -/
def SuppressionSound (tq : Int) (agnostic : Bool) (keepMax : Nat) (cands : List Box) (r : List Box × Nat × Nat) : Prop :=
  r.1.length ≤ keepMax ∧ r.1.Sublist cands ∧ r.1.Pairwise (fun a b => (a.sameClass agnostic b && a.meets tq b) = false) ∧
  r.1.length + r.2.1 + r.2.2 = cands.length

theorem suppressionSound_nil (tq : Int) (agnostic : Bool) (keepMax : Nat) : SuppressionSound tq agnostic keepMax [] ([], 0, 0) :=
  ⟨Nat.zero_le _, .slnil, .nil, rfl⟩

/-- The next candidate is cut, suppressed or kept, and the pass stays sound. -/
theorem suppressOne_sound {tq : Int} {agnostic : Bool} {keepMax : Nat} {cands : List Box} {r : List Box × Nat × Nat}
    (h : SuppressionSound tq agnostic keepMax cands r) (c : Box) :
    SuppressionSound tq agnostic keepMax (cands ++ [c]) (suppressOne tq agnostic keepMax r c) := by
  obtain ⟨kept, sup, trunc⟩ := r
  obtain ⟨hbounded, horder, hapart, hcounted⟩ := h
  have hskipped : kept.Sublist (cands ++ [c]) := horder.trans (List.sublist_append_left ..)
  have hone (l : List Box) : (l ++ [c]).length = l.length + 1 := List.length_append
  unfold suppressOne
  dsimp only at hbounded hcounted ⊢
  split_ifs with hfull hmeets
  case pos =>
    have hcut : kept.length + sup + (trunc + 1) = cands.length + 1 := by omega
    exact ⟨hbounded, hskipped, hapart, hcut.trans (hone cands).symm⟩
  case pos =>
    have hsuppressed : kept.length + (sup + 1) + trunc = cands.length + 1 := by omega
    exact ⟨hbounded, hskipped, hapart, hsuppressed.trans (hone cands).symm⟩
  case neg =>
    have hclear : ∀ a ∈ kept, (a.sameClass agnostic c && a.meets tq c) = false := fun a ha =>
      Bool.eq_false_iff.mpr fun hmeet => hmeets (List.any_eq_true.mpr ⟨a, ha, hmeet⟩)
    have hkept : (kept ++ [c]).length + sup + trunc = cands.length + 1 := by
      rw [hone]
      omega
    refine ⟨(hone kept).trans_le (Nat.lt_of_not_le hfull), horder.append_right _, List.pairwise_append.mpr ⟨hapart, List.pairwise_singleton .., ?_⟩,
      hkept.trans (hone cands).symm⟩
    exact fun a ha b hb => List.mem_singleton.mp hb ▸ hclear a ha

theorem suppressionSound_foldl (tq : Int) (agnostic : Bool) (keepMax : Nat) (cands : List Box) :
    SuppressionSound tq agnostic keepMax cands (cands.foldl (suppressOne tq agnostic keepMax) ([], 0, 0)) := by
  induction cands using List.reverseRecOn with
  | nil => exact suppressionSound_nil ..
  | append_singleton cs c ih =>
    rw [List.foldl_concat]
    exact suppressOne_sound ih c

/-- Settles O32: the pass is sound before its first candidate and after each. -/
theorem suppressionKeepsApart : Obligations.SuppressionKeepsApart := by
  unfold Obligations.SuppressionKeepsApart
  exact suppressionSound_foldl

end Sys2Proof.Machine
end

section
/-! PROOFS. A message of an inbox takes effect (R419): what takes it from its link, and what leaves every other part as it was. -/

namespace Sys2Proof.Machine

/-- A link's message has been taken: it has left the inbox, and its flits the receive buffer. -/
def State.taken (s : State) (l : LinkIx) (x : Nat × List Byte) : State :=
  s.modLink l fun k => { k with inbox := k.inbox.erase x }.passOn ⟨x.1 % 4, Nat.mod_lt _ (by decide)⟩ (ceilDiv x.2.length 244)

section
variable {s : State} {l k : LinkIx} {x : Nat × List Byte} {p : List Byte → Bool}

/-- The first message of a type takes its effect in the state in which it has been taken. -/
theorem State.act_takeMsg (ha : s.awake) (h : ((s.link l).inbox.find? fun y => p y.2) = some x) (f : State → List Byte → State) :
    (s.act fun u => u.takeMsg l p f) = .next (f (s.taken l x) x.2) := by
  rw [State.act_awake ha, State.takeMsg, h]
  rfl

@[simp] theorem State.taken_inbox : ((s.taken l x).link l).inbox = (s.link l).inbox.erase x :=
  congrArg Link.inbox (State.modLink_link_self ..)

@[simp] theorem State.taken_live : (s.taken l x).dev.state.live = s.dev.state.live := rfl

theorem State.taken_link_other (h : k ≠ l) : (s.taken l x).link k = s.link k := State.modLink_link_other _ h _

end

/-- Equal links are equal one by one. -/
theorem State.link_of_links {s t : State} (h : t.links = s.links) (k : LinkIx) : t.link k = s.link k := congrArg (fun v : Vector Link 2 => v[k]) h

theorem otherLink_ne (l : LinkIx) : otherLink l ≠ l := by
  revert l
  decide

end Sys2Proof.Machine
end

section
/-! PROOFS. TOKENS messages (R306, R429): tokens enter their group's slot, and the message goes on over the other link. -/

namespace Sys2Proof.Machine

/-! ### The token table -/

section
variable {s : State} {g : Int} {first : Nat} {bs : List Byte}

/-- The slot of a group after a change is the changed one. -/
theorem State.modTok_tokSlot {f : TokSlot → TokSlot} (hf : ∀ x, (f x).g = x.g) :
    (s.modTok g f).tokSlot g = some (f ((s.tokSlot g).getD { g := g, present := [], frozen := false, sent := false })) := by
  have hg : ((s.tokSlot g).getD { g := g, present := [], frozen := false, sent := false }).g = g := by
    cases h : s.tokSlot g with
    | none => rfl
    | some x => simpa using List.find?_some (p := fun y : TokSlot => y.g == g) h
  exact List.find?_cons_of_pos (by rw [hf, hg, beq_self_eq_true])

/-- A slot into which more tokens are written. -/
def TokSlot.withTokens (x : TokSlot) (new : List Nat) : TokSlot := { x with present := x.present ++ new.filter fun i => !x.present.contains i }

theorem TokSlot.mem_withTokens {x : TokSlot} {new : List Nat} {i : Nat} (h : i ∈ new) : i ∈ (x.withTokens new).present := by
  by_cases hpresent : i ∈ x.present
  · exact List.mem_append_left _ hpresent
  · exact List.mem_append_right _ (by simp [h, hpresent])

/-- A written token that the table has is present. -/
theorem State.tokWrite_present (hopen : s.tokClosed g = false) {i : Nat} (hi : i < bs.length / max 1 (s.od Od.tokTokBytes))
    (htotal : first + i < s.od Od.tokTokTotal) :
    ∃ x, (s.tokWrite g first bs).tokSlot g = some x ∧ first + i ∈ x.present := by
  unfold State.tokWrite
  rw [hopen, if_neg Bool.false_ne_true]
  refine ⟨_, State.modTok_tokSlot (f := fun x => x.withTokens _) fun _ => rfl, TokSlot.mem_withTokens ?_⟩
  exact List.mem_map.mpr ⟨i, List.mem_range.mpr (by omega), rfl⟩

theorem State.tokWrite_links (s : State) (g : Int) (first : Nat) (bs : List Byte) : (s.tokWrite g first bs).links = s.links :=
  keepInv_same (State.tokWrite_keeps (keepInv_has rfl) (keepInv_self s [.links])) (p := .links) List.mem_cons_self

theorem State.ctxGroupEvent_reg {n b key unit : Nat} (h : n ≠ Reg.ctxIntStatus) (hn : n ≠ Reg.glbMsixSent) :
    (s.ctxGroupEvent b key unit g).reg n = s.reg n := by
  unfold State.ctxGroupEvent
  split
  · exact State.raiseInt_reg _ h hn
  · exact State.raiseInt_reg _ h hn

/-- Tokens of a closed slot are late: DRAM is as it was, and they are counted. -/
theorem State.tokWrite_late (hs : keysRise s.regs = true) (hclosed : s.tokClosed g = true) :
    (s.tokWrite g first bs).dram = s.dram ∧
      (s.tokWrite g first bs).reg Reg.ctxTokLate = satAdd 32 (s.reg Reg.ctxTokLate) (bs.length / max 1 (s.od Od.tokTokBytes)) := by
  unfold State.tokWrite
  rw [hclosed, if_pos rfl]
  exact ⟨keepInv_same (State.ctxGroupEvent_keeps (keepInv_has rfl) (State.count32_keeps (keepInv_has rfl) (keepInv_self s [.dram])))
      (p := .dram) List.mem_cons_self,
    (State.ctxGroupEvent_reg (by decide) (by decide)).trans (State.count32_reg _ hs)⟩

end

/-! ### The message goes on -/

/-- A message is sent on over a link, or is not. -/
def State.sendOn (s : State) (k : LinkIx) (send : Bool) (m : LinkMsg) : State :=
  if send then s.modLink k fun x => { x with queue := x.queue ++ [m] } else s

section
variable {s : State} {k : LinkIx} {send : Bool} {m : LinkMsg}

theorem State.sendOn_true : s.sendOn k true m = s.modLink k fun x => { x with queue := x.queue ++ [m] } := rfl

theorem State.sendOn_queue : ((s.sendOn k send m).link k).queue = (s.link k).queue ++ if send then [m] else [] := by
  cases send with
  | false => exact (List.append_nil _).symm
  | true => exact congrArg Link.queue (State.sendOn_true ▸ State.modLink_link_self ..)

theorem State.sendOn_link_other {l : LinkIx} (h : l ≠ k) : (s.sendOn k send m).link l = s.link l := by
  cases send with
  | false => rfl
  | true => exact State.sendOn_true ▸ State.modLink_link_other _ h _

theorem State.sendOn_ctx : (s.sendOn k send m).ctx = s.ctx := by cases send <;> rfl

theorem State.sendOn_dram : (s.sendOn k send m).dram = s.dram := by cases send <;> rfl

theorem State.sendOn_tokSlot {g : Int} : (s.sendOn k send m).tokSlot g = s.tokSlot g :=
  congrArg (fun c : Ctx => c.tokens.find? fun x : TokSlot => x.g == g) State.sendOn_ctx

end

/-! ### The command -/

/-- The group of a TOKENS, BOXES or BARRIER message. -/
def State.msgGroup (s : State) (m : List Byte) : Int := s.extGroup (fieldAt m 8 6)

/-- The message as it goes on: its bytes are unchanged. -/
def passedTokens (m : List Byte) : LinkMsg := { cls := 2, lgn := fieldAt m 8 6, own := false, bytes := m, gone := 0 }

section
variable {s : State} {l : LinkIx} {cls : Nat} {m : List Byte}

/-- TOKENS_MSG_RX: a closed slot, or a table in use, is shown the tokens, and from an open one the message goes on. -/
theorem execTokensMsgRx_taken (ha : s.awake) (h : ((s.link l).inbox.find? fun x => isType 2 x.2) = some (cls, m)) :
    execTokensMsgRx l s = .next ((if s.tokClosed (s.msgGroup m) || (s.dev.state.live && s.od Od.tokTokPerStripe != 0)
        then (s.taken l (cls, m)).tokWrite (s.msgGroup m) (fieldAt m 16 2) (m.drop 24) else s.taken l (cls, m)).sendOn (otherLink l)
      (!s.tokClosed (s.msgGroup m) && ((s.taken l (cls, m)).link (otherLink l)).state == .linked) (passedTokens m)) :=
  State.act_takeMsg ha h _

/-- Where the slot takes no more. -/
theorem execTokensMsgRx_closed (ha : s.awake) (h : ((s.link l).inbox.find? fun x => isType 2 x.2) = some (cls, m))
    (hclosed : s.tokClosed (s.msgGroup m) = true) :
    execTokensMsgRx l s = .next ((s.taken l (cls, m)).tokWrite (s.msgGroup m) (fieldAt m 16 2) (m.drop 24)) := by
  rw [execTokensMsgRx_taken ha h, hclosed]
  rfl

/-- Where the slot is open: a table in use takes the tokens, and the message goes on. -/
theorem execTokensMsgRx_open (ha : s.awake) (h : ((s.link l).inbox.find? fun x => isType 2 x.2) = some (cls, m))
    (hopen : s.tokClosed (s.msgGroup m) = false) :
    execTokensMsgRx l s = .next ((if s.dev.state.live && s.od Od.tokTokPerStripe != 0
        then (s.taken l (cls, m)).tokWrite (s.msgGroup m) (fieldAt m 16 2) (m.drop 24) else s.taken l (cls, m)).sendOn
      (otherLink l) ((s.link (otherLink l)).state == .linked) (passedTokens m)) := by
  rw [execTokensMsgRx_taken ha h, hopen, State.taken_link_other (otherLink_ne l)]
  rfl

/-- An open slot: the message has been taken, and goes on where the other link is LINKED. -/
theorem State.tokensPassed_links (s : State) (l : LinkIx) (cls : Nat) (m : List Byte) {u : State} (hu : u.links = (s.taken l (cls, m)).links) :
    let t := u.sendOn (otherLink l) ((s.link (otherLink l)).state == .linked) (passedTokens m)
    (t.link l).inbox = (s.link l).inbox.erase (cls, m) ∧
      (t.link (otherLink l)).queue = (s.link (otherLink l)).queue ++ if (s.link (otherLink l)).state = .linked then [passedTokens m] else [] := by
  constructor
  · rw [State.sendOn_link_other (otherLink_ne l).symm, State.link_of_links hu, State.taken_inbox]
  · rw [State.sendOn_queue, State.link_of_links hu, State.taken_link_other (otherLink_ne l)]
    exact congrArg (_ ++ ·) (if_congr beq_iff_eq rfl rfl)

/-- Tokens of an open slot of a table in use become present, and go on. -/
theorem execTokensMsgRx_present (ha : s.awake) (h : ((s.link l).inbox.find? fun x => isType 2 x.2) = some (cls, m)) (hlive : s.dev.state.live = true)
    (htable : s.od Od.tokTokPerStripe ≠ 0) (hopen : s.tokClosed (s.msgGroup m) = false) :
    Answers (.tokensMsgRx l) s fun t =>
      (t.link l).inbox = (s.link l).inbox.erase (cls, m) ∧
      (∀ i, i < (m.drop 24).length / max 1 (s.od Od.tokTokBytes) → fieldAt m 16 2 + i < s.od Od.tokTokTotal →
        ∃ x, t.tokSlot (s.msgGroup m) = some x ∧ fieldAt m 16 2 + i ∈ x.present) ∧
      (t.link (otherLink l)).queue = (s.link (otherLink l)).queue ++ if (s.link (otherLink l)).state = .linked then [passedTokens m] else [] := by
  refine ⟨_, execTokensMsgRx_open ha h hopen, ?_⟩
  have huse : (s.dev.state.live && s.od Od.tokTokPerStripe != 0) = true := Bool.and_eq_true_iff.mpr ⟨hlive, bne_iff_ne.mpr htable⟩
  rw [if_pos huse]
  obtain ⟨hinbox, hqueue⟩ := s.tokensPassed_links l cls m (State.tokWrite_links ..)
  refine ⟨hinbox, fun i hi htotal => ?_, hqueue⟩
  rw [State.sendOn_tokSlot]
  exact State.tokWrite_present (s := s.taken l (cls, m)) hopen hi htotal

/-- Tokens of a closed slot are late, and go nowhere. -/
theorem execTokensMsgRx_late (hs : s.wf = true) (ha : s.awake) (h : ((s.link l).inbox.find? fun x => isType 2 x.2) = some (cls, m))
    (hclosed : s.tokClosed (s.msgGroup m) = true) :
    Answers (.tokensMsgRx l) s fun t => (t.link l).inbox = (s.link l).inbox.erase (cls, m) ∧ t.link (otherLink l) = s.link (otherLink l) ∧
      t.dram = s.dram ∧ t.reg Reg.ctxTokLate = satAdd 32 (s.reg Reg.ctxTokLate) ((m.drop 24).length / max 1 (s.od Od.tokTokBytes)) := by
  refine ⟨_, execTokensMsgRx_closed ha h hclosed, ?_, ?_, State.tokWrite_late (s := s.taken l (cls, m)) (State.wf_regs hs) hclosed⟩
  · rw [State.link_of_links (State.tokWrite_links ..), State.taken_inbox]
  · rw [State.link_of_links (State.tokWrite_links ..), State.taken_link_other (otherLink_ne l)]

/-- Where no table is in use the message only goes on. -/
theorem execTokensMsgRx_only_passed (ha : s.awake) (h : ((s.link l).inbox.find? fun x => isType 2 x.2) = some (cls, m))
    (hopen : s.tokClosed (s.msgGroup m) = false) (hunused : s.dev.state.live = false ∨ s.od Od.tokTokPerStripe = 0) :
    Answers (.tokensMsgRx l) s fun t => (t.link l).inbox = (s.link l).inbox.erase (cls, m) ∧ t.dram = s.dram ∧ t.ctx = s.ctx ∧
      (t.link (otherLink l)).queue = (s.link (otherLink l)).queue ++ if (s.link (otherLink l)).state = .linked then [passedTokens m] else [] := by
  refine ⟨_, execTokensMsgRx_open ha h hopen, ?_⟩
  have huse : ¬ (s.dev.state.live && s.od Od.tokTokPerStripe != 0) = true := fun hused => by
    obtain ⟨hlive, htable⟩ := Bool.and_eq_true_iff.mp hused
    exact hunused.elim (fun hidle => Bool.false_ne_true (hidle.symm.trans hlive)) (bne_iff_ne.mp htable)
  rw [if_neg huse]
  obtain ⟨hinbox, hqueue⟩ := s.tokensPassed_links l cls m rfl
  exact ⟨hinbox, State.sendOn_dram, State.sendOn_ctx, hqueue⟩

end

end Sys2Proof.Machine
end

section
/-! PROOFS. BOXES messages (R290, R291): a border set is kept for its group, completes the group's list, or is late. -/

namespace Sys2Proof.Machine

/-! ### The cross-device step -/

section
variable {s : State} {b : Nat} {g : Int} {d : DetSlot} {kept : List Box}

theorem State.raiseStatusAt_det {lsn v c u i n : Nat} {b : Block} : (s.raiseStatusAt lsn b v c u i n).det = s.det := State.raiseInt_det s b v

/-- A status event changes only the note that it has been written. -/
theorem State.detStatusEvent_det : (s.detStatusEvent b g).det.sets = s.det.sets ∧ (s.detStatusEvent b g).det.slots = s.det.slots := by
  unfold State.detStatusEvent
  split
  · rw [State.raiseInt_det]
    exact ⟨rfl, rfl⟩
  · rw [State.raiseStatusAt_det]
    exact ⟨rfl, rfl⟩

theorem State.detStatusEvent_links (s : State) (b : Nat) (g : Int) : (s.detStatusEvent b g).links = s.links :=
  keepInv_same (State.detStatusEvent_keeps (keepInv_has rfl) (keepInv_self s [.links])) (p := .links) List.mem_cons_self

theorem State.detStatusEvent_reg {n : Nat} (h : n ≠ Reg.detIntStatus) (hn : n ≠ Reg.glbMsixSent) : (s.detStatusEvent b g).reg n = s.reg n := by
  unfold State.detStatusEvent
  split
  · exact State.raiseInt_reg _ h hn
  · exact State.raiseInt_reg _ h hn

/-- A finished list's slot is free again. -/
theorem State.finishList_slots : (s.finishList d kept).det.slots = s.det.slots.filter fun x => !x.is d.g d.part2 := rfl

/-- A group that goes on leaves its slot, and is the last whose list is written. -/
theorem State.mergeGroup_det : (s.mergeGroup d kept).det.slots = (s.det.slots.filter fun x => !x.is d.g d.part2) ∧
    (s.mergeGroup d kept).det.last = some d.g := by
  unfold State.mergeGroup
  refine ⟨?_, rfl⟩
  rw [State.finishList_slots]
  split
  · rfl
  · rw [State.detStatusEvent_det.2]
    rfl

/-- A group whose neighbours' sets are all there goes on. -/
theorem State.mergeIfReady_of_all (hkept : d.kept = some kept)
    (hall : ∀ k ∈ s.neighbours, (s.det.sets.any fun x => x.side == k.val && x.g == d.g) = true) :
    s.mergeIfReady d = s.mergeGroup d kept := by
  rw [State.mergeIfReady, hkept]
  exact if_pos (List.all_eq_true.mpr hall)

theorem State.mergeIfReady_links (s : State) (d : DetSlot) : (s.mergeIfReady d).links = s.links :=
  keepInv_same (State.mergeIfReady_keeps (keepInv_has rfl) (keepInv_self s [.links])) (p := .links) List.mem_cons_self

end

/-! ### The command -/

/-- Is a border set of group g late: the group completes without it, or its list is written (R290, R291)? -/
def State.boxesLate (s : State) (g : Int) : Bool := s.groupDone g 2 || (match s.det.last with
  | some x => decide (g < x) || (g == x && !s.shortGroup g)
  | none => false)

theorem State.boxesLate_iff (s : State) (g : Int) :
    s.boxesLate g = true ↔ s.groupDone g 2 = true ∨ ∃ x, s.det.last = some x ∧ (g < x ∨ (g = x ∧ s.shortGroup g = false)) := by
  unfold State.boxesLate
  cases s.det.last with
  | none => simp
  | some x => simp

/-- The border set that a message carries. -/
def messageBoxes (m : List Byte) : List Box := (List.range (fieldAt m 16 2)).map fun i => readBox ((m.drop (24 + 32 * i)).take 32)

/-- A side's border set is kept for its group, in place of an earlier one. -/
def State.keepSet (s : State) (l : LinkIx) (g : Int) (boxes : List Box) : State :=
  s.modDet fun d => { d with sets := { side := l, g := g, boxes := boxes } :: d.sets.filter fun x => !(x.side == l.val && x.g == g) }

/-- With it, a side that had its set or is this one has it. -/
theorem State.keepSet_has {s : State} {l k : LinkIx} {g : Int} {boxes : List Box}
    (h : k = l ∨ (s.det.sets.any fun x => x.side == k.val && x.g == g) = true) :
    ((s.keepSet l g boxes).det.sets.any fun x => x.side == k.val && x.g == g) = true := by
  rw [State.keepSet, State.modDet_det, List.any_cons, Bool.or_eq_true]
  by_cases hk : k = l
  · exact .inl (Bool.and_eq_true_iff.mpr ⟨beq_iff_eq.mpr (congrArg Fin.val hk.symm), beq_self_eq_true g⟩)
  · obtain ⟨x, hx, hxk⟩ := List.any_eq_true.mp (h.resolve_left hk)
    have hxside : x.side = k.val := beq_iff_eq.mp (Bool.and_eq_true_iff.mp hxk).1
    have hside : x.side ≠ l.val := fun heq => hk (Fin.ext (hxside.symm.trans heq))
    exact .inr (List.any_eq_true.mpr ⟨x, List.mem_filter.mpr ⟨hx, by rw [beq_false_of_ne hside]; rfl⟩, hxk⟩)

/-- A slot of group g that waits for border sets goes on where they are all there. -/
def State.setArrived (s : State) (g : Int) : State := match s.det.slots.find? fun d => d.g == g && d.kept.isSome with
  | some d => s.mergeIfReady d
  | none => s

theorem State.setArrived_eq {s : State} {g : Int} {o : Option DetSlot} (h : (s.det.slots.find? fun d => d.g == g && d.kept.isSome) = o) :
    s.setArrived g = o.elim s s.mergeIfReady := by
  rw [State.setArrived, h]
  cases o <;> rfl

/-- The group of the waiting slot goes on with the set that completes it. -/
theorem State.setArrived_some {s : State} {g : Int} {d : DetSlot} (h : (s.det.slots.find? fun d => d.g == g && d.kept.isSome) = some d)
    (hall : ∀ k ∈ s.neighbours, (s.det.sets.any fun x => x.side == k.val && x.g == g) = true) :
    (s.setArrived g).det.slots = (s.det.slots.filter fun x => !x.is g d.part2) ∧ (s.setArrived g).det.last = some g := by
  obtain ⟨hg, hsome⟩ := Bool.and_eq_true_iff.mp (List.find?_some (p := fun d : DetSlot => d.g == g && d.kept.isSome) h)
  obtain rfl := beq_iff_eq.mp hg
  obtain ⟨kept, hkept⟩ := Option.isSome_iff_exists.mp hsome
  rw [State.setArrived_eq h, Option.elim_some, State.mergeIfReady_of_all hkept hall]
  exact State.mergeGroup_det

theorem State.setArrived_links (s : State) (g : Int) : (s.setArrived g).links = s.links := by
  cases h : s.det.slots.find? fun d => d.g == g && d.kept.isSome with
  | none => rw [State.setArrived_eq h, Option.elim_none]
  | some d => rw [State.setArrived_eq h, Option.elim_some, State.mergeIfReady_links]

section
variable {s : State} {l : LinkIx} {cls : Nat} {m : List Byte}

/-- BOXES_MSG_RX on a live device. -/
theorem execBoxesMsgRx_live (ha : s.awake) (h : ((s.link l).inbox.find? fun x => isType 3 x.2) = some (cls, m)) (hlive : s.dev.state.live = true) :
    execBoxesMsgRx l s = .next (if s.boxesLate (s.msgGroup m) = true
      then ((s.taken l (cls, m)).count32 Reg.detLateBoxes 1).detStatusEvent 16 (s.msgGroup m)
      else ((s.taken l (cls, m)).keepSet l (s.msgGroup m) (messageBoxes m)).setArrived (s.msgGroup m)) := by
  refine (State.act_takeMsg ha h _ : execBoxesMsgRx l s = _).trans (congrArg _ ?_)
  have hlive' : ¬ (!(s.taken l (cls, m)).dev.state.live) = true := by
    rw [State.taken_live, hlive]
    exact Bool.false_ne_true
  exact if_neg hlive'

/-- A set in time is kept. -/
theorem execBoxesMsgRx_kept (ha : s.awake) (h : ((s.link l).inbox.find? fun x => isType 3 x.2) = some (cls, m)) (hlive : s.dev.state.live = true)
    (htime : ¬ s.boxesLate (s.msgGroup m) = true) (hnone : (s.det.slots.find? fun d => d.g == s.msgGroup m && d.kept.isSome) = none) :
    Answers (.boxesMsgRx l) s fun t => (t.link l).inbox = (s.link l).inbox.erase (cls, m) ∧ t.det.slots = s.det.slots ∧
      t.det.sets = { side := l.val, g := s.msgGroup m, boxes := messageBoxes m } ::
        s.det.sets.filter fun x => !(x.side == l.val && x.g == s.msgGroup m) := by
  refine ⟨_, execBoxesMsgRx_live ha h hlive, ?_⟩
  rw [if_neg htime, State.setArrived_eq (s := (s.taken l (cls, m)).keepSet l _ _) hnone, Option.elim_none]
  exact ⟨State.taken_inbox, rfl, rfl⟩

/-- The set that completes a group lets it go on. -/
theorem execBoxesMsgRx_completes {d : DetSlot} (ha : s.awake) (h : ((s.link l).inbox.find? fun x => isType 3 x.2) = some (cls, m))
    (hlive : s.dev.state.live = true) (htime : ¬ s.boxesLate (s.msgGroup m) = true)
    (hd : (s.det.slots.find? fun d => d.g == s.msgGroup m && d.kept.isSome) = some d)
    (hothers : ∀ k ∈ s.neighbours, k = l ∨ (s.det.sets.any fun x => x.side == k.val && x.g == s.msgGroup m) = true) :
    Answers (.boxesMsgRx l) s fun t => (t.link l).inbox = (s.link l).inbox.erase (cls, m) ∧
      t.det.slots = (s.det.slots.filter fun x => !x.is (s.msgGroup m) d.part2) ∧ t.det.last = some (s.msgGroup m) := by
  refine ⟨_, execBoxesMsgRx_live ha h hlive, ?_⟩
  rw [if_neg htime]
  refine ⟨?_, State.setArrived_some hd fun k hk => ?_⟩
  · rw [State.link_of_links (State.setArrived_links ..)]
    exact State.taken_inbox
  · exact State.keepSet_has (s := s.taken l (cls, m)) (hothers k hk)

/-- A late set is counted, and nothing else. -/
theorem execBoxesMsgRx_late (hs : s.wf = true) (ha : s.awake) (h : ((s.link l).inbox.find? fun x => isType 3 x.2) = some (cls, m))
    (hlive : s.dev.state.live = true) (hlate : s.boxesLate (s.msgGroup m) = true) :
    Answers (.boxesMsgRx l) s fun t => (t.link l).inbox = (s.link l).inbox.erase (cls, m) ∧ t.det.sets = s.det.sets ∧ t.det.slots = s.det.slots ∧
      t.reg Reg.detLateBoxes = satAdd 32 (s.reg Reg.detLateBoxes) 1 := by
  refine ⟨_, execBoxesMsgRx_live ha h hlive, ?_⟩
  rw [if_pos hlate]
  obtain ⟨hsets, hslots⟩ := State.detStatusEvent_det (s := (s.taken l (cls, m)).count32 Reg.detLateBoxes 1) (b := 16) (g := s.msgGroup m)
  refine ⟨?_, hsets, hslots,
    (State.detStatusEvent_reg (by decide) (by decide)).trans (State.count32_reg (s.taken l (cls, m)) (State.wf_regs hs))⟩
  rw [State.link_of_links (State.detStatusEvent_links ..)]
  exact State.taken_inbox

end

end Sys2Proof.Machine
end

section
/-! PROOFS. BARRIER messages, and a neighbour that sends none (R432). -/

namespace Sys2Proof.Machine

/-- The distance of a neighbour's LSN from the device's own. -/
def State.lsnAhead (s : State) (lsn : Nat) : Int := toSigned 48 ((lsn + 2 ^ 48 - s.web.lastLsn) % 2 ^ 48)

/-- The newest group heard of from a neighbour: the present one, or the one before. -/
def State.hearGroup (s : State) (l : LinkIx) (g : Int) : State :=
  s.modLink l fun x => { x with barrierAt := max (s.nowGroup - 1) (min s.nowGroup g) }

/-- A neighbour's LSN that differs is counted, with its interrupt and its event. -/
def State.lsnMismatch (s : State) (l : LinkIx) (lsn : Nat) : State :=
  ((s.countOd Od.chainLsnMismatch 1).raiseInt .side 0x100).event 5 0x11 (leBytes 1 l ++ [0] ++ leBytes 6 lsn ++ leBytes 6 s.web.lastLsn)

/-- Where BARRIER_ACTION says so, the device goes to SAFE. -/
def State.barrierAction (s : State) : State :=
  if s.od Od.chainBarrierAction = 1 && s.dev.state.ready && s.dev.safeCause.isNone then { s with dev := { s.dev with safeCause := some 2 } } else s

section
variable {s : State} {l : LinkIx} {cls lsn : Nat} {m : List Byte}

theorem State.lsnMismatch_links : (s.lsnMismatch l lsn).links = s.links := State.raiseInt_links (s.countOd ..) ..

theorem State.lsnMismatch_dev : (s.lsnMismatch l lsn).dev = s.dev := State.raiseInt_dev (s.countOd ..) ..

theorem State.lsnMismatch_od (k : Nat) : (s.lsnMismatch l lsn).od k = (s.countOd Od.chainLsnMismatch 1).od k := State.raiseInt_od ..

theorem State.barrierAction_links (s : State) : s.barrierAction.links = s.links := (apply_ite State.links _ _ _).trans (ite_self _)

theorem State.barrierAction_lsnMismatch_link (k : LinkIx) : (s.lsnMismatch l lsn).barrierAction.link k = s.link k :=
  State.link_of_links ((State.barrierAction_links _).trans State.lsnMismatch_links) k

theorem State.barrierAction_od (s : State) (k : Nat) : s.barrierAction.od k = s.od k :=
  (apply_ite (fun t : State => t.od k) _ _ _).trans (ite_self _)

theorem State.barrierAction_safe (haction : s.od Od.chainBarrierAction = 1) (hready : s.dev.state.ready = true) (hcause : s.dev.safeCause = none) :
    s.barrierAction.dev.safeCause = some 2 :=
  congrArg (fun t : State => t.dev.safeCause) (if_pos (by rw [decide_eq_true haction, hready, hcause]; rfl))

/-- The state in which a BARRIER has been taken and its group heard. -/
def State.barrierHeard (s : State) (l : LinkIx) (cls : Nat) (m : List Byte) : State := (s.taken l (cls, m)).hearGroup l (s.msgGroup m)

/-- BARRIER_MSG_RX: the LSNs are compared when the group has been heard. -/
theorem execBarrierMsgRx_taken (ha : s.awake) (h : ((s.link l).inbox.find? fun x => isType 4 x.2) = some (cls, m)) :
    execBarrierMsgRx l s = .next (if -1 ≤ s.lsnAhead (fieldAt m 16 6) ∧ s.lsnAhead (fieldAt m 16 6) ≤ 1 then s.barrierHeard l cls m
      else ((s.barrierHeard l cls m).lsnMismatch l (fieldAt m 16 6)).barrierAction) :=
  State.act_takeMsg ha h _

theorem State.barrierHeard_link : ((s.barrierHeard l cls m).link l).inbox = (s.link l).inbox.erase (cls, m) ∧
    ((s.barrierHeard l cls m).link l).barrierAt = max (s.nowGroup - 1) (min s.nowGroup (s.msgGroup m)) := by
  have hlink := State.modLink_link_self (s.taken l (cls, m)) l fun x => { x with barrierAt := max (s.nowGroup - 1) (min s.nowGroup (s.msgGroup m)) }
  exact ⟨(congrArg Link.inbox hlink).trans State.taken_inbox, congrArg Link.barrierAt hlink⟩

/-- An LSN too far from the device's own is counted, and BARRIER_ACTION is taken. -/
theorem State.barrierHeard_differs (hs : s.wf = true) :
    let t := ((s.barrierHeard l cls m).lsnMismatch l lsn).barrierAction
    t.od Od.chainLsnMismatch = satAdd (odWidth Od.chainLsnMismatch) (s.od Od.chainLsnMismatch) 1 ∧
      (s.od Od.chainBarrierAction = 1 → s.dev.state.ready = true → s.dev.safeCause = none → t.dev.safeCause = some 2) := by
  refine ⟨?_, fun haction hready hcause => State.barrierAction_safe ?_ ?_ ?_⟩
  · rw [State.barrierAction_od, State.lsnMismatch_od]
    exact State.countOd_self (s := s.barrierHeard l cls m) hs _ _
  · rw [State.lsnMismatch_od]
    exact (State.od_setOd_other _ (by decide) _).trans haction
  · rw [State.lsnMismatch_dev]
    exact hready
  · rw [State.lsnMismatch_dev]
    exact hcause

/-- The barrier is heard, and its LSN compared with the device's own. -/
theorem execBarrierMsgRx_compared (hs : s.wf = true) (ha : s.awake) (h : ((s.link l).inbox.find? fun x => isType 4 x.2) = some (cls, m)) :
    Answers (.barrierMsgRx l) s fun t =>
      (t.link l).inbox = (s.link l).inbox.erase (cls, m) ∧ (t.link l).barrierAt = max (s.nowGroup - 1) (min s.nowGroup (s.msgGroup m)) ∧
      if s.lsnAhead (fieldAt m 16 6) < -1 ∨ 1 < s.lsnAhead (fieldAt m 16 6) then
        t.od Od.chainLsnMismatch = satAdd (odWidth Od.chainLsnMismatch) (s.od Od.chainLsnMismatch) 1 ∧
        (s.od Od.chainBarrierAction = 1 → s.dev.state.ready = true → s.dev.safeCause = none → t.dev.safeCause = some 2)
      else t.dev = s.dev ∧ t.dict = s.dict := by
  obtain ⟨hinbox, hheard⟩ := State.barrierHeard_link (s := s) (l := l) (cls := cls) (m := m)
  by_cases hfar : s.lsnAhead (fieldAt m 16 6) < -1 ∨ 1 < s.lsnAhead (fieldAt m 16 6)
  · have hlink := State.barrierAction_lsnMismatch_link (s := s.barrierHeard l cls m) (l := l) (lsn := fieldAt m 16 6) l
    refine ⟨_, (execBarrierMsgRx_taken ha h).trans (congrArg _ (if_neg (by omega))), hlink ▸ hinbox, hlink ▸ hheard, ?_⟩
    rw [if_pos hfar]
    exact State.barrierHeard_differs hs
  · refine ⟨_, (execBarrierMsgRx_taken ha h).trans (congrArg _ (if_pos (by omega))), hinbox, hheard, ?_⟩
    rw [if_neg hfar]
    exact ⟨rfl, rfl⟩

/-- NEIGHBOUR_SILENT. -/
theorem execNeighbourSilent_reports (ha : s.awake) (hstate : s.dev.state = .armed ∨ s.dev.state = .run) (hlinked : (s.link l).state = .linked)
    (hsilent : (s.link l).barrierAt + 4 ≤ s.nowGroup) :
    Answers (.neighbourSilent l) s fun t =>
      t.link l = { s.link l with barrierAt := s.nowGroup - 1 } ∧ ∃ e ∈ t.events, e.source = 5 ∧ e.type = 1 ∧ e.dt = s.dt := by
  refine ⟨_, (State.act_awake ha _ : execNeighbourSilent l s = _), ?_⟩
  rw [if_pos (by simp [hstate, hlinked, hsilent]), State.sideStatus]
  constructor
  · rw [State.raiseStatus_link, State.modLink_link_self]
  · rw [State.raiseStatus_events]
    exact ⟨_, mem_insertEvent .., rfl, rfl, rfl⟩

end

/-- Settles O36, clause by clause: tokens, border sets, barriers and their absence. -/
theorem groupMessagesArrive : Obligations.GroupMessagesArrive := by
  unfold Obligations.GroupMessagesArrive
  refine ⟨fun s l cls m ha h hlive htable hopen => execTokensMsgRx_present ha h hlive htable hopen,
    fun s l cls m hs ha h => ⟨fun hclosed => execTokensMsgRx_late hs ha h hclosed, fun hopen hunused => execTokensMsgRx_only_passed ha h hopen hunused⟩,
    fun s l cls m ha h hs hlive => ?boxes, fun s l cls m hs ha h => execBarrierMsgRx_compared hs ha h,
    fun s l ha hstate hlinked hsilent => execNeighbourSilent_reports ha hstate hlinked hsilent⟩
  case boxes =>
    have hlate := s.boxesLate_iff (s.msgGroup m)
    exact ⟨fun htime hnone => execBoxesMsgRx_kept ha h hlive (htime ∘ hlate.mp) hnone,
      fun d htime hd hothers => execBoxesMsgRx_completes ha h hlive (htime ∘ hlate.mp) hd hothers,
      fun late => execBoxesMsgRx_late hs ha h hlive (hlate.mpr late)⟩

end Sys2Proof.Machine
end
